-- ==== Sys2Proof/Word.lean ====
section
/-! DEFINITION. The word types of the D768 (R1, R2, R37) and the shape of a sparse table. -/

namespace Sys2Proof

/-- One byte of memory (R2). -/
abbrev Byte := BitVec 8

/-- A 32-bit lane element (R37). -/
abbrev Word := BitVec 32

/-- A 64-bit uniform register, address or mask (R37). -/
abbrev DWord := BitVec 64

/-- A set of lanes of one gang, bit `L` for lane `L` (R37). -/
abbrev Lanes := BitVec 64

/-- A sparse table: pairs of a key and a value, keys strictly rising, no value equal to the
table's default. -/
abbrev Tab (α : Type) := List (Nat × α)

/-- The 64 elements of a vector register, lane 0 first (R37). -/
abbrev VVal := List Word

end Sys2Proof
end

