-- ==== Sys2Proof/Syntax.lean ====
section
/-! DEFINITION. The instructions and the steps of the opcode table: one constructor of `Instr` per row.
Rows that are instructions carry the operands their encodings hold; rows that are events of the device
carry what the event names (which gang, which request, which register value). -/

namespace Sys2Proof

/-- A vector register number, 0 to 255 (R37). -/
abbrev VReg := Nat
/-- A uniform register number, 0 to 63 (R37). -/
abbrev KReg := Nat
/-- A mask register number, 0 to 7 (R37). -/
abbrev MReg := Nat

/-- The type codes of R51, in code order. -/
inductive Ty where
  | b32 | s32 | n32 | f32 | bf16x2 | f16x2 | s16x2 | n16x2
  | e4m3x4 | e5m2x4 | e2m1x8 | d8x4 | s64 | n64 | s8x4 | n8x4
  deriving DecidableEq, Repr

/-- The lane predicate of the header (R45, R46, R70). -/
structure Pred where
  pm : MReg
  pn : Bool
  deriving DecidableEq, Repr

/-- Address spaces (R54). -/
inductive Space where
  | global | scratch | peer | engine | accum
  deriving DecidableEq, Repr

/-- Scopes (R55, R125), narrowest first. -/
inductive Scope where
  | gang | core | cluster | tenant | device | system
  deriving DecidableEq, Repr

/-- The ordering modifier of a memory access (R53, R97). -/
inductive MemOrd where
  | plain | acq | rel | ar
  deriving DecidableEq, Repr

/-- The access width named by OPX (R94): `full` is 4 or 8 bytes by the type. -/
inductive Width where
  | full | w8 | w16
  deriving DecidableEq, Repr

/-- The memory operand `[kB + vI + imm]` (R53, R78). -/
structure MemArg where
  base : KReg
  index : Option VReg
  disp : BitVec 32
  deriving DecidableEq, Repr

/-- The conditions of BRC (R179). -/
inductive BrCond where
  | eq | ne | lt | ge | ltu | geu
  deriving DecidableEq, Repr

/-- The second operand of BRC: a register or a signed 8-bit immediate (R179). -/
inductive KSrc where
  | reg (k : KReg)
  | imm (i : BitVec 8)
  deriving DecidableEq, Repr

/-- The votes of BRV and VOTE (R181, R279). -/
inductive Vote where
  | any | all | none
  deriving DecidableEq, Repr

/-- The forms of MOVK (R185). -/
inductive MovkForm where
  | sext | zext | high
  deriving DecidableEq, Repr

/-- The forms of MOVX (R189). -/
inductive MovxForm where
  | toM (d : MReg)
  | ofM (a : MReg)
  | toK (d : KReg)
  | ofK (a : KReg)
  deriving DecidableEq, Repr

/-- The system registers of R38. -/
inductive SysReg where
  | lanew | gangid | blockid | corenum | clusternum | stamp | ctxid
  | fsr | fcr | pri | wdlim | twin | rcstat | hsp
  | tagbase | tagready | scrbase | errq | errcnt | lcnt | scnt | energy
  deriving DecidableEq, Repr

/-- The kinds of resumption token (R365, R369). -/
inductive TokKind where
  | one | many | none
  deriving DecidableEq, Repr

/-- The atomic operations (R103). -/
inductive Aop where
  | add | and | or | xor | min | max | xchg | cas | incw
  deriving DecidableEq, Repr

/-- The kinds of FENCE (R107). -/
inductive FenceKind where
  | acq | rel | ar | sc
  deriving DecidableEq, Repr

/-- The levels PREF names (R108). -/
inductive PrefLevel where
  | l1 | ds | l1w
  deriving DecidableEq, Repr

/-- The source of GSET (R122). -/
inductive GsetSrc where
  | reg (a : KReg)
  | setFalse | setTrue | setUnresolved
  deriving DecidableEq, Repr

/-- The peer operand of a fabric access: a uniform or a vector handle (R205, R214). -/
inductive PeerArg where
  | uni (k : KReg)
  | vec (v : VReg)
  deriving DecidableEq, Repr

/-- Conditions of VCMP (R256). -/
inductive VCond where
  | eq | ne | lt | le | gt | ge
  deriving DecidableEq, Repr

/-- Conditions of FCMP (R263). -/
inductive FCond where
  | eq | ne | lt | le | gt | ge | un | ord
  deriving DecidableEq, Repr

/-- How a compare combines with a third mask (R256). -/
inductive Comb where
  | plain
  | and (m : MReg)
  | or (m : MReg)
  deriving DecidableEq, Repr

/-- The RM field of R248. -/
inductive Rm where
  | dyn | rne | rz | rd | ru
  deriving DecidableEq, Repr

/-- The modes of SHFL (R276). -/
inductive ShMode where
  | idx | xor | up | down
  deriving DecidableEq, Repr

/-- The offset of SHFL: a register per lane or an immediate (R276). -/
inductive ShSrc where
  | reg (b : VReg)
  | imm (o : BitVec 8)
  deriving DecidableEq, Repr

/-- The operations of VRED and VSCAN (R277). -/
inductive RedOp where
  | add | min | max | and | or | xor | fadd | fmin | fmax
  deriving DecidableEq, Repr

/-- The outputs of MATCH (R278). -/
inductive MatchOut where
  | rank | count | last
  deriving DecidableEq, Repr

/-- The outputs of VLANE (R280). -/
inductive LaneOut where
  | idx | blk | rank
  deriving DecidableEq, Repr

/-- Where BALLOT writes (R279). -/
inductive BallotDst where
  | mask (d : MReg)
  | uni (d : KReg)
  deriving DecidableEq, Repr

/-- The operation of a pair slot with its MOD field (R281). -/
inductive PairOp where
  | vadd (sat : Bool) | vsub (sat : Bool) | vmin | vmax
  | vmul | vmulh | vmad
  | vand | vor | vxor | vnot | vlop3 (lut : BitVec 8)
  | vsel | vmov | vmovi
  | fadd (rm : Rm) | fsub (rm : Rm) | fmul (rm : Rm) | ffma (nc np : Bool) (rm : Rm) | fmin | fmax
  deriving DecidableEq, Repr

/-- One slot of a pair word (R61): its own predicate, operation and fields. -/
structure PairSlot where
  p : Pred
  op : PairOp
  t : Ty
  d : VReg
  a : Nat
  b : Nat
  c : Nat
  deriving DecidableEq, Repr

/-- The SEL field of RCCAP (R323). -/
inductive CapSel where
  | lo | hi | bot | right | row (r : Nat)
  deriving DecidableEq, Repr

/-- The kind of a remote access (R207). -/
inductive RKind where
  | load
  | store (data : List (Nat × List Byte))
  | atom (op : Aop) (t : Ty) (ops : List (Nat × DWord × DWord))
  deriving DecidableEq, Repr

/-- A request that arrives from another device (R206, R207, R211): one sector of one window.
`elems` are its lanes with their window offsets, all of `size` bytes. -/
structure RemoteIn where
  src : Nat
  plane : Nat
  tag : Nat
  ftid : Nat
  size : Nat
  elems : List (Nat × Nat)
  kind : RKind
  deriving DecidableEq, Repr

/-- The failure causes of R222, in code order from 1. -/
inductive RCause where
  | noWindow | bound | permission | targetFault | dataErr | peerLost | peerDown
  deriving DecidableEq, Repr

/-- The status a target answers with (R207). -/
inductive RStatus where
  | ok | fail (c : RCause) | retry
  deriving DecidableEq, Repr

/-- One end's view of a trained link (R210). -/
structure LinkView where
  width : Nat
  laneMap : Nat
  speed : Nat
  deriving DecidableEq, Repr

/-- The 48 bytes of a launch packet, field by field (R225). -/
structure Packet where
  ftid : Nat
  keyId : Nat
  rsv0 : Nat
  queue : Nat
  record : DWord
  compl : DWord
  key : DWord
  rsv1 : Nat
  deriving DecidableEq, Repr

/-- A supply domain that a meter integrates (R352). -/
inductive Domain where
  | part (p : Nat) | chan (c : Nat) | store (d : Nat) | link (n : Nat) | spill (p : Nat) | idle
  deriving DecidableEq, Repr

/-- The requests of SPDM 1.3 that the responder answers (R7): a requester offers its capability flags, and its signature and
hash algorithms as the masks of the standard. -/
inductive Spdm where
  | getVersion | getCapabilities (flags : BitVec 32) | negotiateAlgorithms (asym hash : BitVec 32) | getDigests | getCertificate
  | challenge (nonce : BitVec 256) | getMeasurements (nonce : BitVec 256) | other (code : Nat)
  deriving DecidableEq, Repr

/-- A function of the device with a readiness bit (R407). -/
inductive FnId where
  | core (n : Nat) | chan (c : Nat) | port (b : Nat) | engine (b : Nat)
  deriving DecidableEq, Repr

/-- An energy export record (R354, R356), with whether its two signatures verify. -/
structure ExportRec where
  src : Nat
  vf : Nat
  index : Nat
  counter : Nat
  seq : Nat
  sigR : Bool
  sigS : Bool
  deriving DecidableEq, Repr

/-- One constructor per row of the opcode table. -/
inductive Instr where
  -- control, uniform and mask instructions (R43, R177 to R199)
  | nop
  | exit (p : Pred)
  | bra (off : BitVec 32)
  | brc (c : BrCond) (a : KReg) (y : KSrc) (off : BitVec 32)
  | brd (neg : Bool) (a : MReg) (off : BitVec 32)
  | brv (v : Vote) (a : MReg) (off : BitVec 32)
  | call (d : KReg) (off : BitVec 32)
  | ret (a : KReg)
  | merge
  | movk (f : MovkForm) (d : KReg) (imm : BitVec 32)
  | addk (d a b : KReg)
  | subk (d a b : KReg)
  | mulk (d a b : KReg)
  | mulhk (sgn : Bool) (d a b : KReg)
  | andk (d a b : KReg)
  | ork (d a b : KReg)
  | xork (d a b : KReg)
  | shlk (d a b : KReg)
  | shrk (d a b : KReg)
  | sark (d a b : KReg)
  | mink (sgn : Bool) (d a b : KReg)
  | maxk (sgn : Bool) (d a b : KReg)
  | addkImm (d a : KReg) (imm : BitVec 32)
  | subkImm (d a : KReg) (imm : BitVec 32)
  | mulkImm (d a : KReg) (imm : BitVec 32)
  | mulhkImm (sgn : Bool) (d a : KReg) (imm : BitVec 32)
  | andkImm (d a : KReg) (imm : BitVec 32)
  | orkImm (d a : KReg) (imm : BitVec 32)
  | xorkImm (d a : KReg) (imm : BitVec 32)
  | shlkImm (d a : KReg) (imm : BitVec 32)
  | shrkImm (d a : KReg) (imm : BitVec 32)
  | sarkImm (d a : KReg) (imm : BitVec 32)
  | minkImm (sgn : Bool) (d a : KReg) (imm : BitVec 32)
  | maxkImm (sgn : Bool) (d a : KReg) (imm : BitVec 32)
  | ktov (p : Pred) (t : Ty) (d : VReg) (a : KReg)
  | vtok (t : Ty) (d : KReg) (a : VReg) (lane : Nat)
  | ktom (d : MReg) (a : KReg)
  | mtok (d : KReg) (a : MReg)
  | mand (d a b : MReg)
  | mor (d a b : MReg)
  | mxor (d a b : MReg)
  | mnot (d a : MReg)
  | mpopc (d : KReg) (a : MReg)
  | mfirst (d : KReg) (a : MReg)
  | movx (f : MovxForm)
  | srd (d : KReg) (r : SysReg)
  | swr (r : SysReg) (a : KReg)
  | swrErrq (a : KReg)
  | swrTwin (a : KReg)
  | swrRcstat (a : KReg)
  | trap (code : BitVec 8)
  | bar
  | cjoin (c : Nat)
  | cleave (c : Nat)
  | cbar (c : Nat)
  | setpri (p : Nat)
  | yieldTurn
  | waitc (n m : Nat)
  | sleep (a : KReg)
  | sleepExpiry (gang split : Nat)
  -- effects (R360 to R373)
  | hpush (vp : VReg) (ks kt ki : KReg) (off : BitVec 32)
  | hpop
  | perform (p : Pred) (kind : TokKind) (d a : VReg) (kw : KReg) (id : Nat)
  | resume (kt : KReg) (vs : VReg)
  | fwd (kt : KReg) (va : VReg)
  | tkdrop (a : KReg)
  | tkstat (d a : KReg)
  -- memory (R94 to R108)
  | ld (p : Pred) (w : Width) (t : Ty) (o : MemOrd) (sc : Scope) (sp : Space) (d : VReg) (m : MemArg) (la : Nat)
  | st (p : Pred) (w : Width) (t : Ty) (o : MemOrd) (sc : Scope) (sp : Space) (m : MemArg) (c : VReg)
  | ldk (w : Width) (t : Ty) (o : MemOrd) (sc : Scope) (sp : Space) (d : KReg) (m : MemArg) (la : Nat)
  | stk (w : Width) (t : Ty) (o : MemOrd) (sc : Scope) (sp : Space) (m : MemArg) (c : KReg)
  | atom (p : Pred) (op : Aop) (ret : Bool) (t : Ty) (o : MemOrd) (sc : Scope) (sp : Space) (d : VReg) (m : MemArg) (la : Nat)
  | atomk (op : Aop) (t : Ty) (o : MemOrd) (sc : Scope) (sp : Space) (d : KReg) (m : MemArg) (la : Nat)
  | lr (p : Pred) (t : Ty) (o : MemOrd) (sc : Scope) (d : VReg) (m : MemArg) (la : Nat)
  | sc (p : Pred) (t : Ty) (o : MemOrd) (scp : Scope) (d : VReg) (m : MemArg) (c : VReg) (la : Nat)
  | fence (k : FenceKind) (sc : Scope)
  | pref (p : Pred) (lvl : PrefLevel) (m : MemArg)
  -- tags and guards (R119 to R122)
  | twait (all : Bool) (d a : KReg)
  | tfirst (d a : KReg)
  | tclr (d a : KReg)
  | gset (n : Nat) (src : GsetSrc)
  -- engine commands at work (R92, R114 to R117)
  | copy (cmd box : Nat)
  | copyAdd (cmd box : Nat)
  | launch (cmd : Nat)
  | signal (cmd : Nat)
  | boxComplete (cmd box : Nat)
  | commandComplete (cmd : Nat)
  | engineFault (gang : Nat)
  | poison (gang : Nat)
  -- the Sails fabric (R204 to R226)
  | rld (p : Pred) (w : Width) (t : Ty) (o : MemOrd) (d : VReg) (pa : PeerArg) (ix : Option VReg) (disp : BitVec 32) (la : Nat)
  | rst (p : Pred) (w : Width) (t : Ty) (o : MemOrd) (c : VReg) (pa : PeerArg) (ix : Option VReg) (disp : BitVec 32)
  | ratom (p : Pred) (op : Aop) (t : Ty) (o : MemOrd) (d : VReg) (pa : PeerArg) (ix : Option VReg) (disp : BitVec 32) (la : Nat)
  | rfence (chk : Bool)
  | remoteRequest (r : RemoteIn)
  | remoteResponse (req : Nat) (lanes : Lanes) (st : RStatus) (data : List (Nat × DWord))
  | planeDead (dev plane : Nat)
  | epilogue (dev plane last : Nat)
  | peerLost (dev : Nat)
  | linkTraining (plane : Nat) (here there : LinkView)
  | launchPacket (k : Packet)
  -- integer and logic (R249 to R259)
  | vadd (p : Pred) (sat : Bool) (t : Ty) (d a b : VReg)
  | vsub (p : Pred) (sat : Bool) (t : Ty) (d a b : VReg)
  | vmin (p : Pred) (t : Ty) (d a b : VReg)
  | vmax (p : Pred) (t : Ty) (d a b : VReg)
  | vabs (p : Pred) (sat : Bool) (t : Ty) (d a : VReg)
  | vneg (p : Pred) (sat : Bool) (t : Ty) (d a : VReg)
  | vmul (p : Pred) (t : Ty) (d a b : VReg)
  | vmulh (p : Pred) (t : Ty) (d a b : VReg)
  | vmad (p : Pred) (t : Ty) (d a b c : VReg)
  | vshl (p : Pred) (t : Ty) (d a b : VReg)
  | vshr (p : Pred) (t : Ty) (d a b : VReg)
  | vsar (p : Pred) (t : Ty) (d a b : VReg)
  | vrot (p : Pred) (t : Ty) (d a b : VReg)
  | vand (p : Pred) (d a b : VReg)
  | vor (p : Pred) (d a b : VReg)
  | vxor (p : Pred) (d a b : VReg)
  | vnot (p : Pred) (d a : VReg)
  | vlop3 (p : Pred) (lut : BitVec 8) (d a b c : VReg)
  | vbfx (p : Pred) (t : Ty) (d a b : VReg)
  | vbfi (p : Pred) (d a b c : VReg)
  | vpopc (p : Pred) (d a : VReg)
  | vclz (p : Pred) (d a : VReg)
  | vbrev (p : Pred) (d a : VReg)
  | vprmb (p : Pred) (d a b : VReg) (sel : BitVec 32)
  | vcmp (p : Pred) (c : VCond) (cb : Comb) (t : Ty) (d : MReg) (a b : VReg)
  | vsel (p : Pred) (t : Ty) (d a b : VReg) (c : MReg)
  | vmov (p : Pred) (t : Ty) (d a : VReg)
  | vmovi (p : Pred) (t : Ty) (d : VReg) (imm : BitVec 32)
  | vaddImm (p : Pred) (sat : Bool) (t : Ty) (d a : VReg) (imm : BitVec 32)
  | vsubImm (p : Pred) (sat : Bool) (t : Ty) (d a : VReg) (imm : BitVec 32)
  | vminImm (p : Pred) (t : Ty) (d a : VReg) (imm : BitVec 32)
  | vmaxImm (p : Pred) (t : Ty) (d a : VReg) (imm : BitVec 32)
  | vmulImm (p : Pred) (t : Ty) (d a : VReg) (imm : BitVec 32)
  | vandImm (p : Pred) (d a : VReg) (imm : BitVec 32)
  | vorImm (p : Pred) (d a : VReg) (imm : BitVec 32)
  | vxorImm (p : Pred) (d a : VReg) (imm : BitVec 32)
  | vshlImm (p : Pred) (t : Ty) (d a : VReg) (imm : BitVec 32)
  | vshrImm (p : Pred) (t : Ty) (d a : VReg) (imm : BitVec 32)
  | vsarImm (p : Pred) (t : Ty) (d a : VReg) (imm : BitVec 32)
  | vrotImm (p : Pred) (t : Ty) (d a : VReg) (imm : BitVec 32)
  | vmulhImm (p : Pred) (t : Ty) (d a : VReg) (imm : BitVec 32)
  | vcsub (p : Pred) (t : Ty) (d a b : VReg) (m : Option MReg)
  -- floating point (R260 to R274)
  | fadd (p : Pred) (rm : Rm) (t : Ty) (d a b : VReg)
  | fsub (p : Pred) (rm : Rm) (t : Ty) (d a b : VReg)
  | fmul (p : Pred) (rm : Rm) (t : Ty) (d a b : VReg)
  | fmin (p : Pred) (t : Ty) (d a b : VReg)
  | fmax (p : Pred) (t : Ty) (d a b : VReg)
  | ffma (p : Pred) (nc np : Bool) (rm : Rm) (t : Ty) (d a b c : VReg)
  | fcmp (p : Pred) (c : FCond) (cb : Comb) (d : MReg) (a b : VReg)
  | frcp (p : Pred) (d a : VReg) (la : Nat)
  | frsq (p : Pred) (d a : VReg) (la : Nat)
  | fsqrt (p : Pred) (rm : Rm) (d a : VReg) (la : Nat)
  | fexp2 (p : Pred) (d a : VReg) (la : Nat)
  | flog2 (p : Pred) (d a : VReg) (la : Nat)
  | fsin (p : Pred) (d a : VReg) (la : Nat)
  | fcos (p : Pred) (d a : VReg) (la : Nat)
  | fdiv (p : Pred) (rm : Rm) (d a b : VReg) (la : Nat)
  | fclass (p : Pred) (t : Ty) (d a : VReg)
  | frnd (p : Pred) (exact : Bool) (rm : Rm) (t : Ty) (d a : VReg)
  | cvt (p : Pred) (rm : Rm) (sat nosat : Bool) (dt t : Ty) (d a : VReg) (spos dpos : Nat)
  | qmx (p : Pred) (t : Ty) (d : VReg) (ks : KReg) (a : VReg) (bias : BitVec 8) (la : Nat)
  | dqmx (p : Pred) (t : Ty) (d : VReg) (ks : KReg) (a : VReg)
  | faddImm (p : Pred) (rm : Rm) (t : Ty) (d a : VReg) (imm : BitVec 32)
  | fsubImm (p : Pred) (rm : Rm) (t : Ty) (d a : VReg) (imm : BitVec 32)
  | fmulImm (p : Pred) (rm : Rm) (t : Ty) (d a : VReg) (imm : BitVec 32)
  | fminImm (p : Pred) (t : Ty) (d a : VReg) (imm : BitVec 32)
  | fmaxImm (p : Pred) (t : Ty) (d a : VReg) (imm : BitVec 32)
  | ffmaImm (p : Pred) (nc np : Bool) (rm : Rm) (t : Ty) (d a : VReg) (imm : BitVec 32) (c : VReg)
  | fstat (clr : Bool) (d : KReg)
  -- cross-lane (R275 to R280) and the pair word (R61 to R64, R281)
  | shfl (p : Pred) (mode : ShMode) (w : Nat) (t : Ty) (d a : VReg) (o : ShSrc)
  | vred (p : Pred) (op : RedOp) (w : Nat) (t : Ty) (d a : VReg) (la : Nat)
  | vscan (p : Pred) (excl : Bool) (op : RedOp) (w : Nat) (t : Ty) (d a : VReg) (la : Nat)
  | matchLanes (p : Pred) (o : MatchOut) (w : Nat) (t : Ty) (d a : VReg) (la : Nat)
  | ballot (p : Pred) (d : BallotDst) (a : VReg)
  | vote (p : Pred) (v : Vote) (d : KReg) (a : VReg)
  | vlane (p : Pred) (o : LaneOut) (d : VReg)
  | pair (s0 s1 : PairSlot)
  -- the matrix engine (R282 to R309)
  | mres (mx recv : Bool) (t : Ty) (d : KReg) (id base len sbase : Nat)
  | mrel (mask : BitVec 8)
  | mld (scl mc : Bool) (sp : Space) (id : Nat) (kb : KReg) (disp : BitVec 32) (ks : KReg) (cmask : BitVec 8)
  | multicastDelivery (gang : Nat)
  | mgath (id : Nat) (kb : KReg) (disp : BitVec 32)
  | mma (skip z : Bool) (tile ra rb a0 b0 kcm1 : Nat)
  | mbatch (d : KReg)
  | batchComplete (gang : Nat)
  | mwait (d a : KReg)
  | aclr (a : KReg)
  | ard (rm : Rm) (sat nosat : Bool) (t : Ty) (d : VReg) (tile row : Nat) (la : Nat)
  | awr (t : Ty) (m : MemArg) (c : VReg)
  | ast (rm : Rm) (sat nosat : Bool) (t : Ty) (km : KReg) (kb : KReg) (disp : BitVec 32) (kr : KReg)
  -- the Millrace (R310 to R325)
  | rcwin (a : KReg)
  | rcmode (mesh : Bool) (a b : KReg)
  | rcld (mesh : Bool) (kb : KReg) (disp : BitVec 32) (kn : KReg)
  | rcgo (a b : VReg)
  | evaluationEnd (core : Nat)
  | rccap (s : CapSel) (d : VReg) (la : Nat)
  | rcclr
  | resetEnd (core : Nat)
  -- queues and the dispatcher (R26 to R33, R151 to R157)
  | kick (vf word size : Nat) (v : DWord)
  | takeEntry (q : Nat)
  | waitConditionPoll (l : Nat)
  | placement (q0 scr tag : Nat)
  | regionStaging (b : Nat)
  | gangStart (b : Nat)
  | blockRetire (b : Nat)
  -- requests, bounces and parks (R81 to R89, R166 to R173, R387)
  | walkComplete (u ctx vpn : Nat)
  | loadDataReturn (req sector : Nat)
  | requestPerform (req sector : Nat)
  | holdLimitExpiry (id : Nat)
  | backoffExpiry (id : Nat)
  | slotFreeReissue (id : Nat)
  | parkLimitExpiry (gang : Nat)
  | blockReturn (b : Nat)
  -- the gang scheduler and system effects (R158 to R165, R375)
  | fairnessTimer (gang : Nat)
  | issueBoost (gang : Nat)
  | entryBoost (gang : Nat)
  | watchdog (gang : Nat)
  | systemEffect (gang : Nat)
  -- the host fault service and context control (R380 to R387)
  | faultRecordWrite (ring : Nat)
  | fheadWrite (ring : Nat) (v : DWord)
  | fringWrite (ring : Nat) (v : DWord)
  | fserve (ring : Nat) (v : DWord)
  | ctxctlResume (page ctx : Nat)
  | ctxctlSkip (page ctx : Nat)
  | ctxctlKill (page ctx : Nat)
  | ctxctlStop (page ctx : Nat)
  | ctxctlStart (page ctx : Nat)
  | ctxctlCreate (page ctx : Nat)
  | lcancel (page : Nat) (v : DWord)
  | restore (b : Nat)
  -- the shadow swap and the Weir (R341 to R347, R359, R388 to R390)
  | shadowSwap (part : Nat)
  | flipComplete (part : Nat)
  | spillComplete (part : Nat)
  | fillComplete (part : Nat)
  | urgent (part : Nat)
  | turnStart (part : Nat)
  | sliceEnd (part : Nat)
  | drainLimitExpiry (part : Nat)
  | roundEnd (part : Nat)
  | quantExpiry (part : Nat)
  | vpartWrite (vf : Nat) (v : DWord)
  | vpolWrite (vf : Nat) (v : DWord)
  | floorWrite (chan group : Nat) (v : DWord)
  | registerWrite (off size : Nat) (v : DWord)
  | weirWindow (chan : Nat)
  | invctlGo (v : DWord)
  | invalidationDone
  | dtword
  -- energy and attestation (R18, R351 to R357)
  | enreq (page : Nat) (v : DWord)
  | enctx (vf : Nat) (v : DWord)
  | energyRecord (page : Nat)
  | meterInterval (e : List (Domain × Nat))
  | energyImport (r : ExportRec)
  | powerLimit (mhz : Nat)
  -- memory, resets and readiness (R400 to R408)
  | recalibration (chan : Nat)
  | peqdataClr (v : DWord)
  | patrolRead (page : Nat)
  | scrubPeriod
  | warmReset
  | coldReset
  | readiness (f : FnId) (good : Bool)
  | functionLevelReset (vf : Nat)
  | illegalInstruction
  | longLatencyComplete (op : Nat) (lanes : Lanes)
  | peerReachable (dev : Nat)
  | energyExport (ctx : Nat)
  | spdmRequest (r : Spdm)
  | fstatWrite (page : Nat) (errReg : Bool) (v : DWord)
  deriving DecidableEq, Repr

end Sys2Proof
end

