-- ==== Sys2Proof/Config.lean ====
section
/-! DEFINITION. What the spec leaves to the part or leaves open: values that nothing in the model knows.
Every one of them is a constant with no body; a statement about them holds whatever they are. -/

namespace Sys2Proof.Config

/-- A value that the spec does not state, by a number that is used once (log 7). -/
opaque freeValue : Nat → BitVec 64

/-- Which of the two neighbours of the exact value FRCP and FRSQ return (R264): the operation code, the
input bits, FCR.FTZ. True is the one of larger magnitude (log 8). -/
opaque sfuAway : Nat → BitVec 32 → Bool → Bool

/-- The bits FEXP2, FLOG2, FSIN and FCOS return for an input with no exact result (R264): the operation
code, the input bits, FCR.FTZ (log 8). -/
opaque sfuBits : Nat → BitVec 32 → Bool → BitVec 32

/-- The RSA-3072 signature of bytes under the device identity key (R8, R354; log 9). -/
opaque rsaSign : List (BitVec 8) → List (BitVec 8)

/-- The SLH-DSA signature of bytes under the device identity key (R8, R354; log 9). -/
opaque slhSign : List (BitVec 8) → List (BitVec 8)

/-- The SHA-384 digest of bytes (R357; log 9). -/
opaque sha384 : List (BitVec 8) → List (BitVec 8)

/-- The firmware images and certificates that attestation measures and presents (R357; log 9). -/
opaque firmware : Nat → List (BitVec 8)

/-- The virtual function whose counters a request block on the physical function's meter page names, which the spec does not
say how; 64 or more names the physical function's own (R354; log 14). -/
opaque meterVf : List (BitVec 8) → Nat

/-- The row of the stack in which a sector lies, an arrangement internal to the base die (R400; log 10). -/
opaque dramRow : Nat → Nat

/-- The integrity tag of a save area (R391; log 11). -/
opaque integrityTag : List (BitVec 8) → BitVec 64

end Sys2Proof.Config
end

