-- ==== Sys2Proof/Machine/Table.lean ====
section
/-! DEFINITION. Sparse tables: a list of keys and values, keys strictly rising, no entry equal to the
table's default. Equal tables are equal lists. -/

namespace Sys2Proof.Machine

/-- The entry of a key, or the default. -/
def tget {α : Type} (d : α) : Tab α → Nat → α
  | [], _ => d
  | (j, x) :: r, k => if k = j then x else tget d r k

/-- The table with an entry removed. -/
def tdel {α : Type} : Tab α → Nat → Tab α
  | [], _ => []
  | (j, x) :: r, k => if k = j then tdel r k else (j, x) :: tdel r k

/-- An entry put in its place. -/
def tins {α : Type} : Tab α → Nat → α → Tab α
  | [], k, v => [(k, v)]
  | (j, x) :: r, k, v => if k < j then (k, v) :: (j, x) :: r else (j, x) :: tins r k v

/-- The table with an entry set, whatever the default. -/
def tset {α : Type} (t : Tab α) (k : Nat) (v : α) : Tab α := tins (tdel t k) k v

/-- The table with an entry set; the default is not listed. -/
def tput {α : Type} [DecidableEq α] (d : α) (t : Tab α) (k : Nat) (v : α) : Tab α :=
  if v = d then tdel t k else tset t k v

/-- The table with an entry changed. -/
def tmod {α : Type} [DecidableEq α] (d : α) (t : Tab α) (k : Nat) (f : α → α) : Tab α :=
  tput d t k (f (tget d t k))

/-- Keys strictly rise from a bound. -/
def tsorted {α : Type} : Nat → Tab α → Bool
  | _, [] => true
  | b, (j, _) :: r => decide (b ≤ j) && tsorted (j + 1) r

/-- The canonical form of a table. -/
def twf {α : Type} [DecidableEq α] (d : α) (t : Tab α) : Bool :=
  tsorted 0 t && t.all (fun e => decide (e.2 ≠ d))

/-- The present entries of a table of optional values. -/
def tentries {α : Type} (t : Tab (Option α)) : List (Nat × α) :=
  t.filterMap fun e => e.2.map fun x => (e.1, x)

/-- The lowest key from a bound that a table of optional values does not hold, looking at most `n` far. -/
def tfree {α : Type} (t : Tab (Option α)) : Nat → Nat → Option Nat
  | 0, _ => none
  | n + 1, k => if (tget none t k).isNone then some k else tfree t n (k + 1)

/-- A lane's element of a vector register value. -/
def lane (v : VVal) (l : Nat) : Word := v.getD l 0

/-- A vector register value from its lanes. -/
def lanes64 (f : Nat → Word) : VVal := (List.range 64).map f

/-- A vector register with zero in every lane (R32). -/
def vzero : VVal := List.replicate 64 0

/-- Whether a lane is in a set. -/
def inLanes (m : Lanes) (l : Nat) : Bool := m.getLsbD l

/-- The lanes of a set, ascending. -/
def laneList (m : Lanes) : List Nat := (List.range 64).filter (inLanes m)

/-- The set of the lanes that satisfy a test. -/
def laneSet (f : Nat → Bool) : Lanes :=
  BitVec.ofNat 64 ((List.range 64).foldr (fun l n => 2 * n + if f l then 1 else 0) 0)

/-- The lowest lane of a set; 64 if it is empty. -/
def lowest (m : Lanes) : Nat := ((List.range 64).find? (inLanes m)).getD 64

/-- The number of lanes of a set. -/
def popcount (m : Lanes) : Nat := (laneList m).length

end Sys2Proof.Machine
end

