-- ==== Sys2Proof/WellFormed.lean ====
section
/-! DEFINITION. Well-formed instructions: the static checks of step 4 of R65 on an instruction's operands.
`Instr.check` answers the first check that fails, by name. -/

namespace Sys2Proof

/-- Why the decoder refuses a word: the checks of R65, steps 1, 3 and 4. Every one of them is the
ILLEGAL trap of R379. -/
inductive Reject where
  | badLen            -- LEN = 0b11 (R40)
  | reservedMajor     -- a major the opcode map does not assign (R66)
  | wrongLength       -- LEN is not the major's length (R66)
  | badFn             -- a FN value not listed (R49)
  | badType           -- a T the instruction does not accept (R49)
  | unusedField       -- a nonzero unused field (R49)
  | badRegister       -- a register or mask number out of its field's range (R48)
  | badPair           -- a 64-bit operand on a wrong register (R52, R102)
  | badLa             -- a nonzero LA where none is allowed (R56)
  | badPred           -- a predicate on an instruction that takes none (R46)
  | badSpace          -- a reserved or illegal space (R54)
  | badScope          -- a reserved scope code, or a scope or order the instruction excludes (R55, R96)
  | badOffset         -- a branch offset with bits [1:0] set (R50)
  | badImmediate      -- an immediate outside the instruction's range
  | badSysReg         -- a system register access that R38 forbids
  | pairOp            -- a pair operation, T or MOD not allowed (R62, R281)
  | pairBank          -- the bank rule of R63
  | pairPorts         -- the shared-source-port rule of R63
  | pairDepends       -- the independence rule of R63
  deriving DecidableEq, Repr

/-- A 64-bit type occupies a register pair (R52). -/
def Ty.wide : Ty → Bool
  | .s64 => true
  | .n64 => true
  | _ => false

/-- The widths in bits of an element and the number of elements of a lane (R51). -/
def Ty.shape : Ty → Nat × Nat
  | .b32 | .s32 | .n32 | .f32 => (32, 1)
  | .bf16x2 | .f16x2 | .s16x2 | .n16x2 => (16, 2)
  | .e4m3x4 | .e5m2x4 | .d8x4 | .s8x4 | .n8x4 => (8, 4)
  | .e2m1x8 => (4, 8)
  | .s64 | .n64 => (64, 1)

/-- The first failing check of a list. -/
def firstFail : List (Bool × Reject) → Option Reject
  | [] => none
  | (true, _) :: r => firstFail r
  | (false, e) :: _ => some e

/-- A vector register field: in range, and even for a 64-bit type (R48, R52). -/
def ckV (t : Ty) (r : VReg) : List (Bool × Reject) :=
  [(decide (r < 256), Reject.badRegister), (!t.wide || r % 2 == 0, .badPair)]

/-- A vector register field of a 32-bit operand. -/
def ckV1 (r : VReg) : List (Bool × Reject) := [(decide (r < 256), Reject.badRegister)]

/-- A uniform register field (R48). -/
def ckK (r : KReg) : List (Bool × Reject) := [(decide (r < 64), Reject.badRegister)]

/-- A mask register field (R48). -/
def ckM (r : MReg) : List (Bool × Reject) := [(decide (r < 8), Reject.badRegister)]

/-- A predicate names one of eight masks (R45). -/
def ckP (p : Pred) : List (Bool × Reject) := [(p.pm < 8, .badRegister)]

/-- A lookahead fits its field (R45). -/
def ckLa (la : Nat) : List (Bool × Reject) := [(decide (la < 16), Reject.badLa)]

/-- The type is one of those listed. -/
def ckT (t : Ty) (ts : List Ty) : List (Bool × Reject) := [(ts.contains t, .badType)]

/-- A branch offset is a multiple of 4 (R50). -/
def ckOff (off : BitVec 32) : List (Bool × Reject) := [(off.toNat % 4 == 0, .badOffset)]

/-- The memory operand's registers (R53). -/
def ckMem (m : MemArg) : List (Bool × Reject) :=
  ckK m.base ++ (match m.index with | none => [] | some v => ckV1 v)

/-- The memory operand of the uniform forms, which take no index (R101, R102). -/
def ckMemK (m : MemArg) : List (Bool × Reject) := ckK m.base ++ [(m.index == none, .unusedField)]

/-- GLOBAL, SCRATCH or PEER (R99, R100, R102). -/
def ckSp3 (sp : Space) : List (Bool × Reject) :=
  [([Space.global, .scratch, .peer].contains sp, .badSpace)]

/-- The width and type pairs of a load (R94). -/
def loadPair (w : Width) (t : Ty) : Bool :=
  match w with
  | .full => true
  | _ => [Ty.s32, .n32].contains t

/-- The width and type pairs of a store (R94). -/
def storePair (w : Width) (t : Ty) : Bool :=
  match w with
  | .full => true
  | _ => t == .b32

/-- The types a full-width uniform load accepts (R94). -/
def ldkPair (w : Width) (t : Ty) : Bool :=
  match w with
  | .full => [Ty.s32, .n32, .s64, .n64].contains t
  | _ => [Ty.s32, .n32].contains t

/-- The types a uniform store accepts (R94). -/
def stkPair (w : Width) (t : Ty) : Bool :=
  match w with
  | .full => [Ty.b32, .s32, .n32, .s64, .n64].contains t
  | _ => t == .b32

/-- The ordering modifiers of a load (R96). -/
def ckOrdL (o : MemOrd) : List (Bool × Reject) := [(o == .plain || o == .acq, .badScope)]

/-- The ordering modifiers of a store (R96). -/
def ckOrdS (o : MemOrd) : List (Bool × Reject) := [(o == .plain || o == .rel, .badScope)]

/-- LDK and STK in ENGINE space: 8-byte types, ORD and SCOPE zero (R94, R96, R109). -/
def ckEngine (w : Width) (t : Ty) (o : MemOrd) (sc : Scope) (sp : Space) : List (Bool × Reject) :=
  if sp == .engine then
    [(w == .full && t.wide, .badType), (o == .plain && sc == .gang, .badScope)]
  else []

/-- The spaces of the uniform forms (R101). -/
def ckSpK (sp : Space) : List (Bool × Reject) :=
  [([Space.global, .scratch, .peer, .engine].contains sp, .badSpace)]

/-- The types each atomic operation accepts (R103). -/
def Aop.types : Aop → List Ty
  | .add => [.s32, .n32, .f32, .bf16x2, .f16x2, .s64, .n64]
  | .and | .or | .xor => [.b32, .s32, .n32, .s64, .n64]
  | .min | .max => [.s32, .n32, .s64, .n64]
  | .xchg | .cas => [.b32, .s32, .n32, .f32, .s64, .n64]
  | .incw => [.n32]

/-- The register rule of an atomic's operand (R102): a pair for 64-bit types, and for CAS an even
register, or a multiple of 4 with a 64-bit type. -/
def ckAtom (op : Aop) (t : Ty) (d : VReg) : List (Bool × Reject) :=
  ckT t op.types ++ ckV1 d ++
    (if op == .cas then [(d % (if t.wide then 4 else 2) == 0, Reject.badPair)]
     else [(!t.wide || d % 2 == 0, Reject.badPair)])

/-- The types of LR and SC (R105, R106). -/
def lrTypes : List Ty := [.b32, .s32, .n32, .f32, .s64, .n64]

/-- The integer element types of R249. -/
def intTypes : List Ty := [.s32, .n32, .s16x2, .n16x2, .s8x4, .n8x4, .s64, .n64]

/-- The signed integer types of VABS and VNEG (R249). -/
def sgnTypes : List Ty := [.s32, .s16x2, .s8x4, .s64]

/-- The types of VMULH and VMAD (R251). -/
def mulhTypes : List Ty := [.s32, .n32, .s16x2, .n16x2]

/-- The types of the shifts (R252). -/
def shTypes : List Ty := [.b32, .s32, .n32, .s16x2, .n16x2, .s8x4, .n8x4, .s64, .n64]

/-- The floating-point arithmetic types (R260). -/
def fpTypes : List Ty := [.f32, .bf16x2, .f16x2]

/-- The types each reduction accepts (R277). -/
def RedOp.types : RedOp → List Ty
  | .add | .min | .max => [.s32, .n32, .s64, .n64]
  | .and | .or | .xor => [.b32, .n64]
  | .fadd | .fmin | .fmax => [.f32]

/-- A saturating form is allowed except on 64-bit types (R249, R250). -/
def ckSat (sat : Bool) (t : Ty) : List (Bool × Reject) := [(!sat || !t.wide, .badFn)]

/-- The mask of a combined compare (R256). -/
def ckComb : Comb → List (Bool × Reject)
  | .plain => []
  | .and m => ckM m
  | .or m => ckM m

/-- The peer operand and index of a fabric access (R214). -/
def ckPeer (pa : PeerArg) (ix : Option VReg) : List (Bool × Reject) :=
  (match pa with | .uni k => ckK k | .vec v => ckV1 v) ++
    (match ix with | none => [] | some v => ckV1 v)

/-- A segment width code is 0 to 5 (R275). -/
def ckW (w : Nat) : List (Bool × Reject) := [(decide (w < 6), Reject.badFn)]

/-- An immediate shift amount lies below the element width (R258). -/
def ckSh (t : Ty) (imm : BitVec 32) : List (Bool × Reject) := [(imm.toNat < t.shape.1, .badImmediate)]

/-- An immediate uniform shift amount is 0 to 63 (R186). -/
def ckShK (imm : BitVec 32) : List (Bool × Reject) := [(imm.toNat < 64, .badImmediate)]

/-- The equivalent types of a pair operation (R281): 64-bit types are never allowed. -/
def PairOp.types : PairOp → List Ty
  | .vadd _ | .vsub _ | .vmin | .vmax | .vmul => [.s32, .n32, .s16x2, .n16x2, .s8x4, .n8x4]
  | .vmulh | .vmad => mulhTypes
  | .vand | .vor | .vxor | .vnot | .vlop3 _ | .vsel | .vmov | .vmovi => [.b32]
  | .fadd _ | .fsub _ | .fmul _ | .ffma _ _ _ | .fmin | .fmax => fpTypes

/-- The vector registers a slot reads (R63, R281). -/
def PairSlot.reads (s : PairSlot) : List Nat :=
  match s.op with
  | .vnot | .vmov => [s.a]
  | .vmovi => []
  | .vmad | .vlop3 _ | .ffma _ _ _ => [s.a, s.b, s.c]
  | _ => [s.a, s.b]

/-- The fields a slot does not use are zero, and a mask it names is one of eight (R49, R281). -/
def PairSlot.fieldsOk (s : PairSlot) : Bool :=
  match s.op with
  | .vnot | .vmov => s.b == 0 && s.c == 0
  | .vmovi => s.a == 0 && s.b == 0
  | .vmad | .vlop3 _ | .ffma _ _ _ => true
  | .vsel => s.c < 8
  | _ => s.c == 0

/-- The checks of one slot (R61, R62). -/
def ckSlot (s : PairSlot) : List (Bool × Reject) :=
  ckP s.p ++ [(s.d < 256 && s.a < 256 && s.b < 256 && s.c < 256, .badRegister),
    (s.op.types.contains s.t, .pairOp), (s.fieldsOk, .unusedField)]

/-- The distinct vector registers two slots read. -/
def pairSources (s0 s1 : PairSlot) : List Nat := (s0.reads ++ s1.reads).eraseDups

/-- The pair restrictions of R63. -/
def ckPair (s0 s1 : PairSlot) : List (Bool × Reject) :=
  ckSlot s0 ++ ckSlot s1 ++
    [(s0.d % 4 != s1.d % 4, .pairBank), ((pairSources s0 s1).length ≤ 3, .pairPorts),
     (!s0.reads.contains s1.d && !s1.reads.contains s0.d, .pairDepends)]

/-- The chunk sizes in units of R285. -/
def Ty.chunkUnits : Ty → Nat
  | .bf16x2 => 64
  | .e2m1x8 => 16
  | _ => 32

/-- The operand formats of MRES (R286). -/
def mresTypes : List Ty := [.bf16x2, .e4m3x4, .e5m2x4, .e2m1x8, .d8x4]

/-- The types of ARD and AST with their elements per lane (R307). -/
def ardTypes : List Ty := [.f32, .bf16x2, .f16x2, .e4m3x4, .e5m2x4, .d8x4, .n64]

/-- The modifier rules of ARD and AST (R307). -/
def ckArdMods (rm : Rm) (sat nosat : Bool) (t : Ty) : List (Bool × Reject) :=
  ckT t ardTypes ++
    [(!(t == .n64) || (rm == .dyn && !sat && !nosat), .badFn),
     (!(t == .f32) || rm == .dyn, .badFn), (!nosat || t == .d8x4, .badFn)]

/-- The system registers that SWR writes in a row of their own (R190, R223, R313, R319). -/
def SysReg.swrOk : SysReg → Bool
  | .fsr | .fcr | .pri | .wdlim => true
  | _ => false

/-- The static checks of each instruction, in no particular order beyond that of the list; an event
of the device has no word and no check. -/
def Instr.checks : Instr → List (Bool × Reject)
  | .exit p => ckP p
  | .bra off => ckOff off
  | .brc _ a y off => ckK a ++ (match y with | .reg k => ckK k | .imm _ => []) ++ ckOff off
  | .brd _ a off => ckM a ++ ckOff off
  | .brv _ a off => ckM a ++ ckOff off
  | .call d off => ckK d ++ ckOff off
  | .ret a => ckK a
  | .movk _ d _ => ckK d
  | .addk d a b | .subk d a b | .mulk d a b | .andk d a b | .ork d a b | .xork d a b
  | .shlk d a b | .shrk d a b | .sark d a b => ckK d ++ ckK a ++ ckK b
  | .mulhk _ d a b | .mink _ d a b | .maxk _ d a b => ckK d ++ ckK a ++ ckK b
  | .addkImm d a _ | .subkImm d a _ | .mulkImm d a _ | .andkImm d a _ | .orkImm d a _
  | .xorkImm d a _ => ckK d ++ ckK a
  | .mulhkImm _ d a _ | .minkImm _ d a _ | .maxkImm _ d a _ => ckK d ++ ckK a
  | .shlkImm d a i | .shrkImm d a i | .sarkImm d a i => ckK d ++ ckK a ++ ckShK i
  | .ktov p t d a => ckP p ++ ckT t [.b32, .s64, .n64] ++ ckV t d ++ ckK a
  | .vtok t d a lane => ckT t [.b32, .s64, .n64] ++ ckK d ++ ckV t a ++ [(decide (lane < 64), Reject.badImmediate)]
  | .ktom d a => ckM d ++ ckK a
  | .mtok d a => ckK d ++ ckM a
  | .mand d a b | .mor d a b | .mxor d a b => ckM d ++ ckM a ++ ckM b
  | .mnot d a => ckM d ++ ckM a
  | .mpopc d a | .mfirst d a => ckK d ++ ckM a
  | .movx f => match f with
    | .toM d => ckM d | .ofM a => ckM a | .toK d => ckK d | .ofK a => ckK a
  | .srd d _ => ckK d
  | .swr r a => [(r.swrOk, .badSysReg)] ++ ckK a
  | .swrErrq a | .swrTwin a | .swrRcstat a => ckK a
  | .cjoin c | .cleave c | .cbar c => [(decide (c < 32), Reject.badImmediate)]
  | .setpri p => [(decide (p < 16), Reject.badImmediate)]
  | .waitc n m => [(decide (n < 64 ∧ m < 64), .badImmediate)]
  | .sleep a => ckK a
  | .hpush vp ks kt ki off => ckV1 vp ++ ckK ks ++ ckK kt ++ ckK ki ++ ckOff off
  | .perform p _ d a kw id => ckP p ++ ckV1 d ++ ckV1 a ++ ckK kw ++ [(decide (16 ≤ id ∧ id < 64), Reject.badImmediate)]
  | .resume kt vs => ckK kt ++ ckV1 vs
  | .fwd kt va => ckK kt ++ ckV1 va
  | .tkdrop a => ckK a
  | .tkstat d a => ckK d ++ ckK a
  | .ld p w t o _ sp d m la => ckP p ++ [(loadPair w t, .badType)] ++ ckOrdL o ++ ckSp3 sp ++ ckV t d
      ++ ckMem m ++ ckLa la
  | .st p w t o _ sp m c => ckP p ++ [(storePair w t, .badType)] ++ ckOrdS o ++ ckSp3 sp ++ ckV t c
      ++ ckMem m
  | .ldk w t o scp sp d m la => [(ldkPair w t, .badType)] ++ ckOrdL o ++ ckSpK sp ++ ckK d ++ ckMemK m
      ++ ckLa la ++ ckEngine w t o scp sp
  | .stk w t o scp sp m c => [(stkPair w t, .badType)] ++ ckOrdS o ++ ckSpK sp ++ ckK c ++ ckMemK m
      ++ ckEngine w t o scp sp
  | .atom p op rt t _ _ sp d m la => ckP p ++ ckAtom op t d ++ ckSp3 sp ++ ckMem m ++ ckLa la
      ++ [(rt || la == 0, Reject.badLa)]
  | .atomk op t _ _ sp d m la => ckT t op.types ++ ckSp3 sp ++ ckK d
      ++ [(!(op == .cas) || d % 2 == 0, .badPair)] ++ ckMemK m ++ ckLa la
  | .lr p t o _ d m la => ckP p ++ ckT t lrTypes ++ ckOrdL o ++ ckV t d ++ ckMem m ++ ckLa la
  | .sc p t o _ d m c la => ckP p ++ ckT t lrTypes ++ ckOrdS o ++ ckV1 d ++ ckV t c ++ ckMem m ++ ckLa la
  | .pref p _ m => ckP p ++ ckMem m
  | .twait _ d a | .tfirst d a | .tclr d a => ckK d ++ ckK a
  | .gset n src => [(decide (1 ≤ n ∧ n < 16), Reject.badImmediate)] ++ (match src with | .reg a => ckK a | _ => [])
  | .rld p w t o d pa ix _ la => ckP p ++ [(loadPair w t, .badType)] ++ ckOrdL o ++ ckV t d
      ++ ckPeer pa ix ++ ckLa la
  | .rst p w t o c pa ix _ => ckP p ++ [(storePair w t, .badType)] ++ ckOrdS o ++ ckV t c ++ ckPeer pa ix
  | .ratom p op t _ d pa ix _ la => ckP p ++ ckAtom op t d ++ ckPeer pa ix ++ ckLa la
  | .vadd p sat t d a b | .vsub p sat t d a b => ckP p ++ ckT t intTypes ++ ckSat sat t
      ++ ckV t d ++ ckV t a ++ ckV t b
  | .vmin p t d a b | .vmax p t d a b | .vmul p t d a b => ckP p ++ ckT t intTypes
      ++ ckV t d ++ ckV t a ++ ckV t b
  | .vabs p sat t d a | .vneg p sat t d a => ckP p ++ ckT t sgnTypes ++ ckSat sat t ++ ckV t d ++ ckV t a
  | .vmulh p t d a b => ckP p ++ ckT t mulhTypes ++ ckV t d ++ ckV t a ++ ckV t b
  | .vmad p t d a b c => ckP p ++ ckT t mulhTypes ++ ckV t d ++ ckV t a ++ ckV t b ++ ckV t c
  | .vshl p t d a b | .vshr p t d a b | .vsar p t d a b | .vrot p t d a b => ckP p ++ ckT t shTypes
      ++ ckV t d ++ ckV t a ++ ckV t b
  | .vand p d a b | .vor p d a b | .vxor p d a b => ckP p ++ ckV1 d ++ ckV1 a ++ ckV1 b
  | .vnot p d a | .vpopc p d a | .vclz p d a | .vbrev p d a => ckP p ++ ckV1 d ++ ckV1 a
  | .vlop3 p _ d a b c | .vbfi p d a b c => ckP p ++ ckV1 d ++ ckV1 a ++ ckV1 b ++ ckV1 c
  | .vbfx p t d a b => ckP p ++ ckT t [.s32, .n32] ++ ckV1 d ++ ckV1 a ++ ckV1 b
  | .vprmb p d a b sel => ckP p ++ ckV1 d ++ ckV1 a ++ ckV1 b ++
      [((List.range 4).all (fun j =>
          let q := sel.toNat / 256 ^ j % 256
          q < 24 && (q / 8 != 1 || q % 8 == 0)), .badImmediate)]
  | .vcmp p c cb t d a b => ckP p ++ ckT t ([Ty.s32, .n32, .s64, .n64] ++
      (if c == .eq || c == .ne then [Ty.b32] else [])) ++ ckM d ++ ckV t a ++ ckV t b ++ ckComb cb
  | .vsel p t d a b c => ckP p ++ ckT t [.b32, .n64] ++ ckV t d ++ ckV t a ++ ckV t b ++ ckM c
  | .vmov p t d a => ckP p ++ ckT t [.b32, .n64] ++ ckV t d ++ ckV t a
  | .vmovi p t d _ => ckP p ++ ckT t [.b32, .s64, .n64] ++ ckV t d
  | .vaddImm p sat t d a _ | .vsubImm p sat t d a _ => ckP p ++ ckT t intTypes ++ ckSat sat t
      ++ ckV t d ++ ckV t a
  | .vminImm p t d a _ | .vmaxImm p t d a _ | .vmulImm p t d a _ => ckP p ++ ckT t intTypes
      ++ ckV t d ++ ckV t a
  | .vandImm p d a _ | .vorImm p d a _ | .vxorImm p d a _ => ckP p ++ ckV1 d ++ ckV1 a
  | .vshlImm p t d a i | .vshrImm p t d a i | .vsarImm p t d a i | .vrotImm p t d a i =>
      ckP p ++ ckT t shTypes ++ ckV t d ++ ckV t a ++ ckSh t i
  | .vmulhImm p t d a _ => ckP p ++ ckT t mulhTypes ++ ckV t d ++ ckV t a
  | .vcsub p t d a b m => ckP p ++ ckT t [.n32, .n64] ++ ckV t d ++ ckV t a ++ ckV t b ++
      (match m with | none => [] | some m => ckM m)
  | .fadd p _ t d a b | .fsub p _ t d a b | .fmul p _ t d a b => ckP p ++ ckT t fpTypes
      ++ ckV1 d ++ ckV1 a ++ ckV1 b
  | .fmin p t d a b | .fmax p t d a b => ckP p ++ ckT t fpTypes ++ ckV1 d ++ ckV1 a ++ ckV1 b
  | .ffma p _ _ _ t d a b c => ckP p ++ ckT t fpTypes ++ ckV1 d ++ ckV1 a ++ ckV1 b ++ ckV1 c
  | .fcmp p _ cb d a b => ckP p ++ ckM d ++ ckV1 a ++ ckV1 b ++ ckComb cb
  | .frcp p d a la | .frsq p d a la | .fexp2 p d a la | .flog2 p d a la | .fsin p d a la
  | .fcos p d a la => ckP p ++ ckV1 d ++ ckV1 a ++ ckLa la
  | .fsqrt p _ d a la => ckP p ++ ckV1 d ++ ckV1 a ++ ckLa la
  | .fdiv p _ d a b la => ckP p ++ ckV1 d ++ ckV1 a ++ ckV1 b ++ ckLa la
  | .fclass p t d a | .frnd p _ _ t d a => ckP p ++ ckT t fpTypes ++ ckV1 d ++ ckV1 a
  | .cvt p _ sat nosat dt t d a spos dpos => ckP p ++
      [(!(t == .b32) && !(dt == .b32) && dt != t, .badType), (!nosat || dt == .d8x4, .badFn),
       (!sat || !(dt == .d8x4), .badFn), (spos < t.shape.2 && dpos < dt.shape.2, .badImmediate)]
      ++ ckV dt d ++ ckV t a
  | .qmx p t d ks a _ la => ckP p ++ ckT t [.e4m3x4, .e5m2x4, .e2m1x8] ++ ckV1 d ++ ckK ks ++ ckV1 a
      ++ ckLa la
  | .dqmx p t d ks a => ckP p ++ ckT t [.e4m3x4, .e5m2x4, .e2m1x8] ++ ckV1 d ++ ckK ks ++ ckV1 a
  | .faddImm p _ t d a _ | .fsubImm p _ t d a _ | .fmulImm p _ t d a _ => ckP p ++ ckT t fpTypes
      ++ ckV1 d ++ ckV1 a
  | .fminImm p t d a _ | .fmaxImm p t d a _ => ckP p ++ ckT t fpTypes ++ ckV1 d ++ ckV1 a
  | .ffmaImm p _ _ _ t d a _ c => ckP p ++ ckT t fpTypes ++ ckV1 d ++ ckV1 a ++ ckV1 c
  | .fstat _ d => ckK d
  | .shfl p _ w t d a o => ckP p ++ ckW w ++ ckT t [.b32, .n64] ++ ckV t d ++ ckV t a ++
      (match o with | .reg b => ckV t b | .imm _ => [])
  | .vred p op w t d a la | .vscan p _ op w t d a la => ckP p ++ ckW w ++ ckT t op.types ++ ckV t d
      ++ ckV t a ++ ckLa la
  | .matchLanes p _ w t d a la => ckP p ++ ckW w ++ ckT t [.b32, .n64] ++ ckV1 d ++ ckV t a ++ ckLa la
  | .ballot p d a => ckP p ++ (match d with | .mask d => ckM d | .uni d => ckK d) ++ ckV1 a
  | .vote p _ d a => ckP p ++ ckK d ++ ckV1 a
  | .vlane p _ d => ckP p ++ ckV1 d
  | .pair s0 s1 => ckPair s0 s1
  | .mres mx _ t d id base len sbase => ckT t mresTypes ++ ckK d ++
      [(!mx || !(t == .bf16x2 || t == .d8x4), .badFn), (mx || !(t == .e2m1x8), .badFn),
       (1 ≤ len && len ≤ 1024 && len % t.chunkUnits == 0, .badImmediate),
       (mx || sbase == 0, .unusedField),
       (decide (id < 8), Reject.badRegister), (base < 1024 && sbase < 1024, .badImmediate)]
  | .mrel _ => []
  | .mld _ mc sp id kb _ ks cmask => ckSp3 sp ++ ckK kb ++ ckK ks ++
      [(decide (id < 8), Reject.badRegister), (mc || cmask == 0, .unusedField)]
  | .mgath id kb _ => ckK kb ++ [(decide (id < 8), Reject.badRegister)]
  | .mma _ _ tile ra rb a0 b0 kcm1 =>
      [(decide (tile < 32 ∧ ra < 8 ∧ rb < 8), Reject.badRegister), (a0 < 256 && b0 < 256 && kcm1 < 64, .badImmediate)]
  | .mbatch d => ckK d
  | .mwait d a => ckK d ++ ckK a
  | .aclr a => ckK a
  | .ard rm sat nosat t d tile row la => ckArdMods rm sat nosat t ++ ckV t d ++ ckLa la ++
      [(decide (tile < 32 ∧ row < 64), Reject.badImmediate),
       (decide (row + (if t.wide then 1 else t.shape.2) ≤ 64), .badImmediate)]
  | .awr t m c => ckT t [.f32, .n64] ++ ckMem m ++ ckV t c
  | .ast rm sat nosat t km kb _ kr => ckArdMods rm sat nosat t ++ ckK km ++ ckK kb ++ ckK kr
  | .rcwin a => ckK a
  | .rcmode mesh a b => ckK a ++ ckK b ++ [(!mesh || (a == 0 && b == 0), .unusedField)]
  | .rcld _ kb _ kn => ckK kb ++ ckK kn
  | .rcgo a b => ckV1 a ++ ckV1 b
  | .rccap s d la => (match s with | .row r => [(decide (r < 64), Reject.badImmediate)] | _ => []) ++ ckV1 d ++ ckLa la
  | _ => []

/-- The first static check an instruction fails, or none. -/
def Instr.check (i : Instr) : Option Reject := firstFail i.checks

/-- An instruction is well-formed when it passes every static check of R65, step 4. -/
def Instr.wf (i : Instr) : Bool := i.check == none

end Sys2Proof
end

