-- ==== Sys2Proof/Machine/Float.lean ====
section
/-! DEFINITION. Number formats, exact values, rounding and conversion (R227 to R245). A value is exact until
the one rounding that an operation makes. A result carries the flags it sets, in FSR bit positions (R239). -/

namespace Sys2Proof.Machine

/-- Flag bits of FSR (R239). -/
def fIV : Nat := 1
def fDZ : Nat := 2
def fOF : Nat := 4
def fUF : Nat := 8
def fNX : Nat := 16
def fSAT : Nat := 32
def fQUF : Nat := 64

/-- The four rounding modes (R233). -/
inductive RMode where
  | rne | rz | rd | ru
  deriving DecidableEq, Repr

/-- A binary format (R227): exponent and fraction widths, bias, and whether the top exponent holds
infinities and NaNs. -/
structure Fmt where
  e : Nat
  p : Nat
  bias : Nat
  ieee : Bool
  deriving DecidableEq, Repr

def fmtF32 : Fmt := ⟨8, 23, 127, true⟩
def fmtF16 : Fmt := ⟨5, 10, 15, true⟩
def fmtBf16 : Fmt := ⟨8, 7, 127, true⟩
def fmtE5M2 : Fmt := ⟨5, 2, 15, true⟩
def fmtE4M3 : Fmt := ⟨4, 3, 7, false⟩
def fmtE2M1 : Fmt := ⟨2, 1, 1, false⟩

/-- An exact value: not a number, an infinity, or a fraction with a sign. -/
inductive FV where
  | nan (signalling : Bool)
  | inf (neg : Bool)
  | fin (neg : Bool) (num den : Nat)
  deriving DecidableEq, Repr

/-- A power of two as a numerator and a denominator. -/
def pow2 (k : Int) : Nat × Nat := if k < 0 then (1, 2 ^ (-k).toNat) else (2 ^ k.toNat, 1)

/-- The value of a code (R227). -/
def unpack (f : Fmt) (x : Nat) : FV :=
  let frac := x % 2 ^ f.p
  let ex := x / 2 ^ f.p % 2 ^ f.e
  let neg := x / 2 ^ (f.p + f.e) % 2 == 1
  if f.ieee && ex == 2 ^ f.e - 1 then
    if frac = 0 then .inf neg else .nan (frac < 2 ^ (f.p - 1))
  else if f == fmtE4M3 && ex == 15 && frac == 7 then .nan false
  else
    let m := if ex = 0 then frac else 2 ^ f.p + frac
    let k := pow2 ((max ex 1 : Nat) - (f.bias : Int) - f.p)
    .fin neg (m * k.1) k.2

/-- Whether a code is subnormal (R227). -/
def isSubnormal (f : Fmt) (x : Nat) : Bool := x / 2 ^ f.p % 2 ^ f.e == 0 && x % 2 ^ f.p != 0

/-- The value of an operand, subnormals read as zero of their sign under FTZ (R237). -/
def operand (f : Fmt) (ftz : Bool) (x : Nat) : FV :=
  if ftz && isSubnormal f x then .fin (x / 2 ^ (f.p + f.e) % 2 == 1) 0 1 else unpack f x

/-- The floor of the base-2 logarithm of a positive fraction. -/
def flog2 (num den : Nat) : Int :=
  let e : Int := (Nat.log2 num : Int) - Nat.log2 den
  let k := pow2 e
  if num * k.2 < den * k.1 then e - 1 else e

/-- A fraction rounded to a whole number of units of 2^q, and whether that changed it (R233). -/
def roundUnits (m : RMode) (neg : Bool) (num den : Nat) (q : Int) : Nat × Bool :=
  let k := pow2 q
  let n := num * k.2
  let d := den * k.1
  let t := n / d
  let r := n % d
  let up := match m with
    | .rne => decide (d < 2 * r) || (2 * r == d && t % 2 == 1)
    | .rz => false
    | .rd => neg && r != 0
    | .ru => !neg && r != 0
  (if up then t + 1 else t, r != 0)

/-- The largest finite code without its sign. -/
def Fmt.maxCode (f : Fmt) : Nat :=
  if f.ieee then (2 ^ f.e - 1) * 2 ^ f.p - 1
  else if f == fmtE4M3 then 126 else 7

/-- The code of an infinity without its sign. -/
def Fmt.infCode (f : Fmt) : Nat := (2 ^ f.e - 1) * 2 ^ f.p

/-- The sign bit in place. -/
def Fmt.sign (f : Fmt) (neg : Bool) : Nat := if neg then 2 ^ (f.p + f.e) else 0

/-- The canonical NaN (R236). -/
def Fmt.qnan (f : Fmt) : Nat :=
  if f == fmtE4M3 then 0x7F else if f == fmtE2M1 then 0 else f.infCode + 2 ^ (f.p - 1)

/-- What a mode makes of an overflow: an infinity, or else the largest magnitude (R238). -/
def overflowsToInf (m : RMode) (neg : Bool) : Bool :=
  match m with
  | .rne => true
  | .rz => false
  | .rd => neg
  | .ru => !neg

/-- A nonzero or zero fraction rounded into a format (R233, R235, R237, R238, R240): the code and its flags. -/
def roundTo (f : Fmt) (m : RMode) (ftz sat : Bool) (neg : Bool) (num den : Nat) : Nat × Nat :=
  let s := f.sign neg
  if num = 0 then (s, 0) else
  let e := flog2 num den
  let emin : Int := 1 - (f.bias : Int)
  let u := roundUnits m neg num den (e - f.p)
  let ue := if u.1 = 2 ^ (f.p + 1) then e + 1 else e
  let top : Int := if f.ieee then 2 ^ f.e - 2 - (f.bias : Int) else 2 ^ f.e - 1 - (f.bias : Int)
  let big := decide (top < ue) || (f == fmtE4M3 && ue == top && u.1 == 15)
  if big then
    if sat then (s + f.maxCode, fSAT + fNX)
    else if f == fmtE2M1 then (s + f.maxCode, fSAT + fNX)
    else if overflowsToInf m neg then
      (if f == fmtE4M3 then f.qnan else s + f.infCode, fOF + fNX)
    else (s + f.maxCode, fOF + fNX)
  else
    let tiny := decide (ue < emin)
    if tiny && ftz then (s, fUF + fNX)
    else
      let q := max e emin - f.p
      let r := roundUnits m neg num den q
      let code := if r.1 < 2 ^ f.p then r.1 else ((q + f.p - emin).toNat + 1) * 2 ^ f.p + (r.1 - 2 ^ f.p)
      (s + code, (if r.2 then fNX else 0) + (if tiny && r.2 then fUF else 0))

/-- The exact sum of two finite values as a signed numerator over a denominator. -/
def sumQ (n1 : Bool) (a1 b1 : Nat) (n2 : Bool) (a2 b2 : Nat) : Int × Nat :=
  ((if n1 then -1 else 1) * (a1 * b2 : Int) + (if n2 then -1 else 1) * (a2 * b1 : Int), b1 * b2)

/-- Whether a value is a signalling NaN. -/
def FV.snan : FV → Bool
  | .nan s => s
  | _ => false

/-- Whether a value is a NaN. -/
def FV.isNan : FV → Bool
  | .nan _ => true
  | _ => false

/-- The same value with the other sign. -/
def FV.neg : FV → FV
  | .nan s => .nan s
  | .inf n => .inf (!n)
  | .fin n a b => .fin (!n) a b

/-- IV if an operand is a signalling NaN (R236). -/
def ivOf (l : List FV) : Nat := if l.any FV.snan then fIV else 0

/-- a + b in a format (R233 to R240). -/
def fAdd (f : Fmt) (m : RMode) (ftz : Bool) (a b : FV) : Nat × Nat :=
  match a, b with
  | .nan _, _ => (f.qnan, ivOf [a, b])
  | _, .nan _ => (f.qnan, ivOf [a, b])
  | .inf s, .inf t => if s = t then (f.sign s + f.infCode, 0) else (f.qnan, fIV)
  | .inf s, _ => (f.sign s + f.infCode, 0)
  | _, .inf t => (f.sign t + f.infCode, 0)
  | .fin s x y, .fin t u v =>
    let q := sumQ s x y t u v
    if q.1 = 0 then (f.sign (if s = t then s else decide (m = .rd)), 0)
    else roundTo f m ftz false (decide (q.1 < 0)) q.1.natAbs q.2

/-- a × b in a format. -/
def fMul (f : Fmt) (m : RMode) (ftz : Bool) (a b : FV) : Nat × Nat :=
  match a, b with
  | .nan _, _ => (f.qnan, ivOf [a, b])
  | _, .nan _ => (f.qnan, ivOf [a, b])
  | .inf s, .inf t => (f.sign (s != t) + f.infCode, 0)
  | .inf s, .fin t u _ => if u = 0 then (f.qnan, fIV) else (f.sign (s != t) + f.infCode, 0)
  | .fin s x _, .inf t => if x = 0 then (f.qnan, fIV) else (f.sign (s != t) + f.infCode, 0)
  | .fin s x y, .fin t u v => roundTo f m ftz false (s != t) (x * u) (y * v)

/-- a × b + c with one rounding (R262). -/
def fFma (f : Fmt) (m : RMode) (ftz : Bool) (a b c : FV) : Nat × Nat :=
  let bad := match a, b with
    | .inf _, .fin _ u _ => u == 0
    | .fin _ x _, .inf _ => x == 0
    | _, _ => false
  if bad then (f.qnan, fIV)
  else if a.isNan || b.isNan || c.isNan then (f.qnan, ivOf [a, b, c])
  else
    let p := match a, b with
      | .fin s x y, .fin t u v => FV.fin (s != t) (x * u) (y * v)
      | .inf s, .inf t => .inf (s != t)
      | .inf s, .fin t _ _ => .inf (s != t)
      | .fin s _ _, .inf t => .inf (s != t)
      | x, _ => x
    fAdd f m ftz p c

/-- a ÷ b, correctly rounded (R266). -/
def fDivide (f : Fmt) (m : RMode) (ftz : Bool) (a b : FV) : Nat × Nat :=
  match a, b with
  | .nan _, _ => (f.qnan, ivOf [a, b])
  | _, .nan _ => (f.qnan, ivOf [a, b])
  | .inf _, .inf _ => (f.qnan, fIV)
  | .inf s, .fin t _ _ => (f.sign (s != t) + f.infCode, 0)
  | .fin s _ _, .inf t => (f.sign (s != t), 0)
  | .fin s x y, .fin t u v =>
    if u = 0 then (if x = 0 then (f.qnan, fIV) else (f.sign (s != t) + f.infCode, fDZ))
    else roundTo f m ftz false (s != t) (x * v) (y * u)

/-- The bits of the floor of a square root, from bit `n - 1` down. -/
def sqrtBits : Nat → Nat → Nat → Nat
  | 0, _, r => r
  | n + 1, x, r => sqrtBits n x (if (r + 2 ^ n) * (r + 2 ^ n) ≤ x then r + 2 ^ n else r)

/-- A square root as a fraction that rounds as the exact root does: one sticky bit below 100 bits. -/
def sqrtQ (num den : Nat) : Nat × Nat :=
  let k := ((220 - flog2 num den) / 2).toNat
  let n := num * 4 ^ k / den
  let r := sqrtBits 128 n 0
  let sticky := if r * r = n ∧ num * 4 ^ k % den = 0 then 0 else 1
  (2 * r + sticky, 2 ^ (k + 1))

/-- Whether a positive fraction is a power of two, and of four with `by2` (R264). -/
def isPow2 (num den : Nat) (by4 : Bool) : Bool :=
  let e := flog2 num den
  let k := pow2 e
  num * k.2 == den * k.1 && (!by4 || e % 2 == 0)

/-- A positive value rounded to the neighbour of larger or smaller magnitude (R264: within one ulp). A value of 2^128 or more
overflows to infinity with OF and NX (R265), of the sign that the exact value has (log 8). -/
def roundNear (ftz neg away : Bool) (num den : Nat) : Nat × Nat :=
  if 2 ^ 128 * den ≤ num then (fmtF32.sign neg + fmtF32.infCode, fOF + fNX)
  else roundTo fmtF32 (if away then (if neg then .rd else .ru) else .rz) ftz false neg num den

/-- FSQRT (R264, R265). -/
def sfSqrt (m : RMode) (ftz : Bool) (x : Nat) : Nat × Nat :=
  match operand fmtF32 ftz x with
  | .nan s => (fmtF32.qnan, if s then fIV else 0)
  | .inf true => (fmtF32.qnan, fIV)
  | .inf false => (fmtF32.infCode, 0)
  | .fin neg n d =>
    if n = 0 then (fmtF32.sign neg, 0)
    else if neg then (fmtF32.qnan, fIV)
    else let q := sqrtQ n d; roundTo fmtF32 m ftz false false q.1 q.2

/-- FRCP (R264, R265). -/
def sfRcp (ftz : Bool) (x : Nat) : Nat × Nat :=
  match operand fmtF32 ftz x with
  | .nan s => (fmtF32.qnan, if s then fIV else 0)
  | .inf neg => (fmtF32.sign neg, 0)
  | .fin neg n d =>
    if n = 0 then (fmtF32.sign neg + fmtF32.infCode, fDZ)
    else roundNear ftz neg (Config.sfuAway 0 (BitVec.ofNat 32 x) ftz) d n

/-- FRSQ (R264, R265). -/
def sfRsq (ftz : Bool) (x : Nat) : Nat × Nat :=
  match operand fmtF32 ftz x with
  | .nan s => (fmtF32.qnan, if s then fIV else 0)
  | .inf true => (fmtF32.qnan, fIV)
  | .inf false => (0, 0)
  | .fin neg n d =>
    if n = 0 then (fmtF32.sign neg + fmtF32.infCode, fDZ)
    else if neg then (fmtF32.qnan, fIV)
    else let q := sqrtQ d n; roundNear ftz false (Config.sfuAway 1 (BitVec.ofNat 32 x) ftz) q.1 q.2

/-- The flags of a special function's inexact result (R264, R265), and the flush of a tiny one (R237). -/
def sfFinish (ftz : Bool) (code : Nat) : Nat × Nat :=
  let mag := code % 2147483648
  if mag = fmtF32.infCode then (code, fOF + fNX)
  else if mag < 8388608 then (if ftz then code - mag else code, fUF + fNX)
  else (code, fNX)

/-- The code of 2^n for a whole n, saturating outside the format. -/
def pow2Code (n : Int) : Nat :=
  if n < -149 then 0 else if 127 < n then fmtF32.infCode
  else (let k := pow2 n; (roundTo fmtF32 .rz false false false k.1 k.2).1)

/-- The floor of a finite value as an integer. -/
def floorQ (neg : Bool) (n d : Nat) : Int := if neg then -((n + d - 1) / d : Nat) else ((n / d : Nat) : Int)

/-- One in the fixed-point numbers below: 128 bits of fraction. -/
def fixOne : Nat := 340282366920938463463374607431768211456

/-- Where the exact value of a special function lies: a sign, and two bounds of its size over one denominator, closer than 2^-90 of
it, which a value that comes as near as it likes to a whole number or a power of two does not pass. -/
structure Near where
  neg : Bool
  lo : Nat
  hi : Nat
  den : Nat

/-- The distances of a finite code from the two bounds of a value, as fractions. -/
def nearDist (v : Near) (x : Nat) : Option (Nat × Nat × Nat) :=
  let far (neg : Bool) (n d m : Nat) : Nat :=
    ((if neg then -(n * v.den : Int) else n * v.den) - (if v.neg then -(m * d : Int) else m * d)).natAbs
  match unpack fmtF32 x with
  | .fin neg n d => some (far neg n d v.lo, far neg n d v.hi, d * v.den)
  | _ => none

/-- The ulp of an f32 code (R264). -/
def ulpOf (x : Nat) : Nat × Nat := pow2 ((max (x / 8388608 % 256) 1 : Nat) - 150 : Int)

/-- Whether a code lies within a number of ulps of its own of a value, wherever that is between its bounds (R264). -/
def withinUlps (n : Nat) (v : Near) (x : Nat) : Bool :=
  match nearDist v x with
  | some (a, c, b) => decide (max a c * (ulpOf x).2 ≤ n * (ulpOf x).1 * b)
  | none => false

/-- Whether a code lies within 2^-22 of a value, wherever that is between its bounds (R264). -/
def within22 (v : Near) (x : Nat) : Bool :=
  match nearDist v x with
  | some (a, c, b) => decide (max a c * 4194304 ≤ b)
  | none => false

/-- A free result kept within its bound (R264): outside the bound the value's own rounding is taken. -/
def nearCode (ok : Nat → Bool) (v : Near) (x : Nat) : Nat :=
  if ok x then x else (roundTo fmtF32 .rne false false v.neg v.lo v.den).1

/-- 2^(f / 2^150) in fixed point, cut off, for the bits of `f` from bit `n - 1` down; `r` is the root of 2 that the bit before
stands for. -/
def exp2Bits (f : Nat) : Nat → Nat → Nat → Nat
  | 0, _, acc => acc
  | n + 1, r, acc =>
    let r' := sqrtBits 130 (r * fixOne) 0
    exp2Bits f n r' (if f / 2 ^ n % 2 = 1 then acc * r' / fixOne else acc)

/-- The fraction bits of a base-2 logarithm: `y` in fixed point from 1 to 2, squared once a bit. -/
def log2Bits : Nat → Nat → Nat → Nat
  | 0, _, acc => acc
  | n + 1, y, acc =>
    let z := y * y / fixOne
    if 2 * fixOne ≤ z then log2Bits n (z / 2) (2 * acc + 1) else log2Bits n z (2 * acc)

/-- The terms of the sine series from one on, in fixed point: `z` is the argument's square. -/
def sinTerms (z : Nat) : Nat → Nat → Int → Int
  | 0, _, _ => 0
  | n + 1, k, t => t + sinTerms z n (k + 2) (-(t * z / fixOne) / ((k + 1) * (k + 2)))

/-- sin(π·t) for a fraction t from 0 to a half, in fixed point. -/
def sinPi (n d : Nat) : Nat :=
  let a := n * 1069028584064966747859680373161870783300 / d
  (sinTerms (a * a / fixOne) 24 1 a).toNat

/-- FEXP2 (R264, R265): exact at integers where the result is representable, elsewhere a free value within 2 ulp. -/
def sfExp2 (ftz : Bool) (x : Nat) : Nat × Nat :=
  match operand fmtF32 ftz x with
  | .nan s => (fmtF32.qnan, if s then fIV else 0)
  | .inf true => (0, 0)
  | .inf false => (fmtF32.infCode, 0)
  | .fin neg n d =>
    let k := floorQ neg n d
    if n % d = 0 && decide (-149 ≤ k) && decide (k ≤ 127) then
      (if decide (k < -126) && ftz then (0, fUF + fNX) else (pow2Code k, 0))
    else if 127 < k then (fmtF32.infCode, fOF + fNX)
    else if k < -152 then sfFinish ftz 0
    else
      let f := ((if neg then -(n : Int) else n) - k * d).toNat * 2 ^ 150 / d
      let m := exp2Bits f 150 (2 * fixOne) fixOne
      let v : Near := ⟨false, m * (pow2 k).1, min (m + 65536) (2 * fixOne) * (pow2 k).1, fixOne * (pow2 k).2⟩
      sfFinish ftz (nearCode (withinUlps 2 v) v (Config.sfuBits 3 (BitVec.ofNat 32 x) ftz).toNat)

/-- The code of an integer of small magnitude. -/
def intCode (i : Int) : Nat := (roundTo fmtF32 .rz false false (decide (i < 0)) i.natAbs 1).1

/-- FLOG2 (R264, R265): exact at powers of two, elsewhere a free value within 2 ulp, or within 2^-22 inside
[0.5, 2]. -/
def sfLog2 (ftz : Bool) (x : Nat) : Nat × Nat :=
  match operand fmtF32 ftz x with
  | .nan s => (fmtF32.qnan, if s then fIV else 0)
  | .inf true => (fmtF32.qnan, fIV)
  | .inf false => (fmtF32.infCode, 0)
  | .fin neg n d =>
    if n = 0 then (fmtF32.sign true + fmtF32.infCode, fDZ)
    else if neg then (fmtF32.qnan, fIV)
    else
      let e := flog2 n d
      if isPow2 n d false then (intCode e, 0)
      else
        let y := n * (pow2 e).2 * fixOne / (d * (pow2 e).1)
        let l : Int := e * 2 ^ 100 + log2Bits 100 y 0
        let v : Near := if l < 0 then ⟨true, l.natAbs - 2, l.natAbs, 2 ^ 100⟩ else ⟨false, l.natAbs, l.natAbs + 2, 2 ^ 100⟩
        let ok := if e = 0 ∨ e = -1 then within22 v else withinUlps 2 v
        sfFinish ftz (nearCode ok v (Config.sfuBits 4 (BitVec.ofNat 32 x) ftz).toNat)

/-- FSIN and FCOS of π·x (R264, R265): exact at integers and half-integers, elsewhere a free value within 2^-22. -/
def sfTrig (cos ftz : Bool) (x : Nat) : Nat × Nat :=
  match operand fmtF32 ftz x with
  | .nan s => (fmtF32.qnan, if s then fIV else 0)
  | .inf _ => (fmtF32.qnan, fIV)
  | .fin neg n d =>
    let one := 0x3F800000
    let mone := 0xBF800000
    if 2 * n % d = 0 then
      let h := 2 * n / d % 4
      if cos then ((if h = 0 then one else if h = 2 then mone else 0), 0)
      else if h % 2 = 0 then (fmtF32.sign neg, 0)
      else ((if (h == 1) == !neg then one else mone), 0)
    else
      -- the angle in quarter turns is a / d: the quarter is h, the rest of it r / d
      let a := 2 * n + if cos then d else 0
      let h := a / d % 4
      let r := a % d
      let up := h % 2 = 0
      let m := sinPi (if up then r else d - r) (2 * d)
      let v : Near := ⟨(decide (2 ≤ h)) != (neg && !cos), m - 65536, min (m + 65536) fixOne, fixOne⟩
      sfFinish ftz (nearCode (within22 v) v (Config.sfuBits (if cos then 6 else 5) (BitVec.ofNat 32 x) ftz).toNat)

/-- The order of two values that are not NaNs: −1, 0 or 1. -/
def cmpQ (a b : FV) : Int :=
  let key : FV → Int × Nat := fun v => match v with
    | .fin s n d => ((if s then -1 else 1) * (n : Int), d)
    | .inf s => (if s then -1 else 1, 0)
    | .nan _ => (0, 1)
  match a, b with
  | .inf s, .inf t => if s = t then 0 else if s then -1 else 1
  | .inf s, _ => if s then -1 else 1
  | _, .inf t => if t then 1 else -1
  | _, _ =>
    let x := (key a).1 * (key b).2
    let y := (key b).1 * (key a).2
    if x < y then -1 else if x = y then 0 else 1

/-- The sign of a value. -/
def FV.isNeg : FV → Bool
  | .nan _ => false
  | .inf s => s
  | .fin s _ _ => s

/-- FMIN and FMAX on codes (R261). -/
def fMinMax (f : Fmt) (mx ftz : Bool) (x y : Nat) : Nat × Nat :=
  let a := operand f ftz x
  let b := operand f ftz y
  let fl := ivOf [a, b]
  let code (v : FV) (c : Nat) : Nat := if ftz && isSubnormal f c then f.sign v.isNeg else c
  match a.isNan, b.isNan with
  | true, true => (f.qnan, fl)
  | true, false => (code b y, fl)
  | false, true => (code a x, fl)
  | false, false =>
    let c := cmpQ a b
    let less := decide (c < 0) || (c == 0 && a.isNeg && !b.isNeg)
    (if less != mx then code a x else code b y, fl)

/-- A compare (R263): whether the condition holds, and the flags. -/
def fCompare (c : FCond) (ftz : Bool) (x y : Nat) : Bool × Nat :=
  let a := operand fmtF32 ftz x
  let b := operand fmtF32 ftz y
  let un := a.isNan || b.isNan
  let iv := if a.snan || b.snan ||
    (un && (c == .lt || c == .le || c == .gt || c == .ge)) then fIV else 0
  if un then (c == .ne || c == .un, iv)
  else
    let k := cmpQ a b
    (match c with
      | .eq => k == 0
      | .ne => k != 0
      | .lt => k == -1
      | .le => k != 1
      | .gt => k == 1
      | .ge => k != -1
      | .un => false
      | .ord => true, iv)

/-- FCLASS (R267). -/
def fClass (f : Fmt) (x : Nat) : Nat :=
  match unpack f x with
  | .nan s => if s then 1 else 2
  | .inf s => if s then 4 else 512
  | .fin s n _ =>
    if n = 0 then (if s then 32 else 64)
    else if isSubnormal f x then (if s then 16 else 128)
    else (if s then 8 else 256)

/-- FRND (R268): the nearest integral value. -/
def fRound (f : Fmt) (m : RMode) (ftz exact : Bool) (x : Nat) : Nat × Nat :=
  match operand f ftz x with
  | .nan s => (f.qnan, if s then fIV else 0)
  | .inf s => (f.sign s + f.infCode, 0)
  | .fin s n d =>
    let r := roundUnits m s n d 0
    ((roundTo f .rz false false s r.1 1).1, if exact && r.2 then fNX else 0)

/-- The exponent of a D8 class and exponent field (R229, Table 2). -/
def d8Exp (z g : Nat) : Int :=
  match z with
  | 0 => if g = 0 then -1 else 0
  | 1 => [(-3 : Int), -2, 1, 2].getD g 0
  | 2 => [(-7 : Int), -6, -5, -4, 3, 4, 5, 6].getD g 0
  | 3 => [(-11 : Int), -10, -9, -8, 7, 8, 9, 10].getD g 0
  | 4 => [(-13 : Int), -12, 11, 12].getD g 0
  | 5 => if g = 0 then -14 else 13
  | _ => -15

/-- The magnitude of a D8 body as a fraction (R229). -/
def d8Mag (body : Nat) : Nat × Nat :=
  if body = 0 then (0, 1) else
  let z := 6 - Nat.log2 body
  let w := 6 - z
  let x := [1, 2, 3, 3, 2, 1, 0].getD z 0
  let m := w - x
  let low := body - 2 ^ w
  let g := low / 2 ^ m
  let fr := low % 2 ^ m
  let e := d8Exp z g
  if e < 0 then (2 ^ m + 9 * fr, 2 ^ m * 10 ^ (-e).toNat) else ((2 ^ m + 9 * fr) * 10 ^ e.toNat, 2 ^ m)

/-- The value of a D8 code (R229). -/
def d8Value (x : Nat) : FV :=
  if x = 0x80 then .nan false else let q := d8Mag (x % 128); .fin (decide (128 ≤ x)) q.1 q.2

/-- Whether body `a` is at least as good a D8 neighbour of a magnitude as body `b` (R230, steps 1 and 2). -/
def d8Better (num den a b : Nat) : Bool :=
  let qa := d8Mag a
  let qb := d8Mag b
  let da := ((num * qa.2 : Int) - (qa.1 * den : Int)).natAbs * qb.2
  let db := ((num * qb.2 : Int) - (qb.1 * den : Int)).natAbs * qa.2
  if da = db then
    if a % 2 = b % 2 then qa.1 * qb.2 ≤ qb.1 * qa.2 else a % 2 == 0
  else decide (da < db)

/-- Conversion to D8 (R230). -/
def toD8 (nosat : Bool) (v : FV) : Nat × Nat :=
  match v with
  | .nan s => (0x80, if s then fIV else 0)
  | .inf s => if nosat then (0x80, fOF) else (if s then 0x83 else 0x03, fSAT)
  | .fin s n d =>
    if n = 0 then (0, 0)
    else if 10 ^ 13 * d < n then
      (if nosat then (0x80, fOF + fNX) else (if s then 0x83 else 0x03, fSAT + fNX))
    else
      let b := (List.range 127).foldl (fun best i => if d8Better n d (i + 1) best then i + 1 else best) 0
      let q := d8Mag b
      if b = 0 then (0, fUF + fNX)
      else ((if s then 128 else 0) + b, if q.1 * d = n * q.2 then 0 else fNX)

/-- The floating-point format of a type, if it is a binary one. -/
def tyFmt : Ty → Option Fmt
  | .f32 => some fmtF32
  | .bf16x2 => some fmtBf16
  | .f16x2 => some fmtF16
  | .e4m3x4 => some fmtE4M3
  | .e5m2x4 => some fmtE5M2
  | .e2m1x8 => some fmtE2M1
  | _ => none

/-- Whether FTZ acts on a type (R237). -/
def tyFlushes : Ty → Bool
  | .f32 | .bf16x2 | .f16x2 => true
  | _ => false

/-- Whether a type is signed. -/
def tySigned : Ty → Bool
  | .s32 | .s16x2 | .s8x4 | .s64 => true
  | _ => false

/-- An integer element as an integer (R228). -/
def intOf (t : Ty) (x : Nat) : Int :=
  let n := (Ty.shape t).1
  if tySigned t && decide (2 ^ (n - 1) ≤ x) then (x : Int) - 2 ^ n else (x : Int)

/-- An integer written modulo 2^N (R228, R250). -/
def wrapInt (t : Ty) (i : Int) : Nat := (i % (2 ^ (Ty.shape t).1 : Int)).toNat

/-- The range of an integer type (R228). -/
def intRange (t : Ty) : Int × Int :=
  let n := (Ty.shape t).1
  if tySigned t then (-(2 ^ (n - 1) : Int), 2 ^ (n - 1) - 1) else (0, 2 ^ n - 1)

/-- An integer clamped to the range of a type, and whether that changed it. -/
def clampInt (t : Ty) (i : Int) : Int × Bool :=
  let r := intRange t
  if i < r.1 then (r.1, true) else if r.2 < i then (r.2, true) else (i, false)

/-- The exact value of a source element of a conversion, with FTZ on the formats it acts on. -/
def srcValue (t : Ty) (ftz : Bool) (x : Nat) : FV :=
  match tyFmt t with
  | some f => operand f (ftz && tyFlushes t) x
  | none =>
    if t = .d8x4 then d8Value x
    else let i := intOf t x; .fin (decide (i < 0)) i.natAbs 1

/-- Whether a type is an integer one for CVT. -/
def tyIsInt (t : Ty) : Bool := (tyFmt t).isNone && t != .d8x4

/-- A value written into a binary format at the edges of R238. -/
def convFmt (dt : Ty) (f : Fmt) (m : RMode) (sat ftz : Bool) (v : FV) : Nat × Nat :=
  match v with
  | .nan s =>
    if f == fmtE2M1 then (0, fIV) else (f.qnan, if s then fIV else 0)
  | .inf s =>
    if f == fmtE2M1 then (f.sign s + f.maxCode, fSAT)
    else if sat then (f.sign s + f.maxCode, fSAT)
    else if f == fmtE4M3 then (f.qnan, fIV)
    else (f.sign s + f.infCode, 0)
  | .fin s n d => roundTo f m (ftz && tyFlushes dt) sat s n d

/-- A value written into an integer type (R238). -/
def convInt (dt : Ty) (m : RMode) (sat : Bool) (v : FV) : Nat × Nat :=
  match v with
  | .nan _ => (0, fIV)
  | .inf s => (wrapInt dt (if s then (intRange dt).1 else (intRange dt).2), if sat then fSAT else fIV)
  | .fin s n d =>
    let r := roundUnits m s n d 0
    let i : Int := if s then -(r.1 : Int) else r.1
    let c := clampInt dt i
    if c.2 then (wrapInt dt c.1, (if sat then fSAT else fIV) + fNX)
    else (wrapInt dt c.1, if r.2 then fNX else 0)

/-- CVT of one element (R270): the new element and its flags. -/
def convert (t dt : Ty) (m : RMode) (sat nosat ftz : Bool) (x : Nat) : Nat × Nat :=
  let v := srcValue t ftz x
  match tyFmt dt with
  | some f => convFmt dt f m sat ftz v
  | none =>
    if dt = .d8x4 then toD8 nosat v
    else if tyIsInt t then
      let i := intOf t x
      if sat then (let c := clampInt dt i; (wrapInt dt c.1, if c.2 then fSAT else 0)) else (wrapInt dt i, 0)
    else convInt dt m sat v

/-- The maximum exponent of an MX element format (R245). -/
def mxEmax (f : Fmt) : Int := if f == fmtE2M1 then 2 else if f == fmtE4M3 then 8 else 15

/-- QuantiseBlock of R245 on 32 f32 codes with a scale bias (R271): S, the codes and the flags. Lanes that
are not active are +0 in the list. -/
def quantise (f : Fmt) (bias : Int) (xs : List Nat) : Nat × List Nat × Nat :=
  let vs := xs.map (unpack fmtF32)
  if vs.any (fun v => match v with | .fin _ _ _ => false | _ => true) then (0xFF, xs.map fun _ => 0, fIV)
  else
    let mag := xs.map (· % 2147483648)
    let am := mag.foldl max 0
    if am = 0 then (0, xs.map fun _ => 0, 0)
    else
      let aq := match unpack fmtF32 am with | .fin _ n d => (n, d) | _ => (1, 1)
      let x0 := flog2 aq.1 aq.2 - mxEmax f + bias
      let x := if x0 < -127 then -127 else if 127 < x0 then 127 else x0
      let k := pow2 (-x)
      let one (v : FV) : Nat × Nat := match v with
        | .fin s n d =>
          if n = 0 then (f.sign s, 0) else
          let r := roundTo f .rne false true s (n * k.1) (d * k.2)
          let z := r.1 % 2 ^ (f.p + f.e) == 0
          (r.1, (if r.2 / 16 % 2 = 1 then fNX else 0) + (if z then fQUF else 0))
        | _ => (0, 0)
      let cs := vs.map one
      ((x + 127).toNat, cs.map (·.1), cs.foldl (fun a c => a ||| c.2) 0)

/-- The dequantised value of an MX element as f32 (R272): its code and flags. -/
def dequantise (f : Fmt) (s x : Nat) : Nat × Nat :=
  match unpack f x with
  | .nan sg => (fmtF32.qnan, if sg then fIV else 0)
  | .inf n => if s = 0xFF then (fmtF32.qnan, 0) else (fmtF32.sign n + fmtF32.infCode, 0)
  | .fin n a b =>
    if s = 0xFF then (fmtF32.qnan, 0)
    else let k := pow2 ((s : Int) - 127); roundTo fmtF32 .rne false false n (a * k.1) (b * k.2)

/-- The value of an MX element with its scale (R244). -/
def mxValue (f : Fmt) (scale : Nat) (x : Nat) : FV :=
  if scale = 0xFF then .nan (unpack f x).snan
  else match unpack f x with
    | .fin s n d => let k := pow2 ((scale : Int) - 127); .fin s (n * k.1) (d * k.2)
    | v => v

/-- An f32 value from its code. -/
def f32 (x : Word) : FV := unpack fmtF32 x.toNat

end Sys2Proof.Machine
end

