-- ==== Sys2Proof/Machine/State.lean ====
section
/-! DEFINITION. The state of the Beyjor D768 as plain data, the reasons a step can stop, and the state
right after reset. Tables are sparse and canonical (see Machine/Table.lean): what a table does not list
reads as the default that its accessor names. -/

namespace Sys2Proof.Machine

/-- A guard slot (R37, R122). -/
inductive Guard where
  | unresolved | isFalse | isTrue
  deriving DecidableEq, Repr

/-- Where a byte lies: device memory at a physical address, with the guest physical address and the
context it was reached through (R348), or a scratchpad (R12, R13). -/
structure Loc where
  scr : Bool
  addr : Nat
  gpa : Nat
  ctx : Nat
  deriving DecidableEq, Repr

/-- The units of a quarter that instructions issue to (R159). -/
inductive IssueUnit where
  | vector | special | cross | uniform | memory | matrix
  deriving DecidableEq, Repr

/-- A division of a split: its number and on which side of it the lanes are (R34, R180). -/
structure DivStep where
  id : Nat
  taken : Bool
  deriving DecidableEq, Repr

/-- A lookahead window (R57 to R60): the instruction, how many further instructions may issue, whether
it is complete, and the registers it writes. -/
structure Window where
  op : Nat
  left : Nat
  done : Bool
  dv : List Nat
  dk : List Nat
  deriving DecidableEq, Repr

/-- The continuation of an invocation (R364): where it goes back to. -/
structure Cont where
  pc : DWord
  exm : Lanes
  lanes : Lanes
  perf : Lanes
  deriving DecidableEq, Repr

/-- An entry of an invocation chain (R364). The chain as it stood before the entry is the entries before it. -/
structure Inv where
  frame : Nat
  base : Nat
  token : DWord
  id : Nat
  cont : Cont
  deriving DecidableEq, Repr

/-- A pending system effect of a split (R375, R376): its lanes and its payload per lane; or, with `whole`, that the
lanes are those of EXM when it is raised. -/
structure PendEff where
  id : Nat
  lanes : Lanes
  payload : VVal
  whole : Bool := false
  deriving DecidableEq, Repr

/-- A reservation set (R105): the LR that placed it, per lane the address read, whether it is held at the L1 or the
home, and the SC that uses it, once that has issued (R106). -/
structure Resv where
  lr : Nat
  core : Bool
  elems : List (Nat × DWord × Loc)
  sc : Nat := 0
  deriving DecidableEq, Repr

/-- What a split waits for besides its windows (R34, R119, R192 to R199): at a TWAIT, the mask M fixed when it issued, the
tags asked for and the register that takes the answer. -/
inductive SplitWait where
  | ready | atMerge | atBar | atCbar (c : Nat) | asleep (wake : Nat)
  | atTags (all : Bool) (m asked : DWord) (d : Nat)
  deriving DecidableEq, Repr

/-- A split of a gang (R34). -/
structure Split where
  uid : Nat
  pc : DWord
  lanes : Lanes
  exm : Lanes
  wait : SplitWait
  path : List DivStep
  wd : Nat
  windows : List Window
  chain : List Inv
  eff : List PendEff
  resv : Option Resv
  spent : List Resv := []   -- the sets that SCs still outstanding use (R106)
  ldDeps : List Nat
  stDeps : List Nat
  elder : List Nat          -- requests issued before the division that made the split (R124)
  deriving DecidableEq, Repr

/-- A handler frame (R361). -/
structure Frame where
  set : DWord
  pc : DWord
  vp : Nat
  kt : Nat
  ki : Nat
  deriving DecidableEq, Repr

/-- A continuation record (R368, R369). -/
structure Rec where
  kind : TokKind
  id : Nat
  frame : Nat
  result : Option Nat
  cont : Cont
  chain : List Inv
  savedV : List (Nat × VVal)
  savedK : List (Nat × DWord)
  resumes : Nat
  serial : Nat
  deriving DecidableEq, Repr

/-- A reservation of the operand buffer (R286, R287). -/
structure Reserv where
  t : Ty
  mx : Bool
  recv : Bool
  base : Nat
  len : Nat
  sbase : Nat
  ncap : Nat
  presence : BitVec 64
  deriving DecidableEq, Repr

/-- The matrix work a batch gathers (R300 to R303): what its flags and its status will be. -/
structure Batch where
  split : Nat
  flags : Nat
  fpx : Nat                 -- the flags that were enabled when their instructions issued
  drop : BitVec 8
  gerr : Bool
  deriving DecidableEq, Repr

/-- The registers of an engine window (R109, R111, R112). -/
structure EngWin where
  cmd : Tab DWord
  written : Nat
  status : DWord
  deriving DecidableEq, Repr

/-- Why a gang issues nothing at the moment: a translation hold or a park of a request (R85, R86), where request 0
is the instruction itself, or the statuses of a remote load or atomic (R217). -/
inductive Hold where
  | none
  | walk (req : Nat)
  | park (req : Nat) (ring seq : Nat) (since : Nat) (served : Bool)
  | remote (group la : Nat)
  deriving DecidableEq, Repr

/-- A trap waiting for the gang's next instruction boundary (R117, R403). -/
structure PendTrap where
  cause : Nat
  sub : Nat
  aux : DWord
  lanes : Lanes
  addr : DWord
  deriving DecidableEq, Repr

/-- What a stopped gang's trap was, for SKIP (R385): the cause, the subcause, and how far SKIP moves the PC;
none where SKIP is refused. -/
structure TrapInfo where
  cause : Nat
  sub : Nat
  skip : Option Nat
  deriving DecidableEq, Repr

/-- A lane's entry of the lane detail table (R392): FLAGS 1 failed, 2 applied, 4 OLD valid. -/
structure LaneDetail where
  addr : DWord
  old : DWord
  peer : Nat
  cause : Nat
  flags : Nat
  deriving DecidableEq, Repr

/-- The registers of a gang that all of its splits share (R37, R38). -/
structure Regs where
  v : Tab VVal
  k : Tab DWord
  m : Tab Lanes
  g : Tab Guard
  fsr : DWord
  fcr : DWord
  pri : Nat
  wdlim : Nat
  lcnt : Nat
  scnt : Nat
  errs : Nat
  deriving DecidableEq, Repr

/-- The place of a gang in its quarter's scheduler (R158 to R161), and what its last issue left behind. -/
structure SchedInfo where
  quarter : Nat
  slot : Nat
  active : Bool
  boost : Bool
  lastIssue : Nat
  waitSince : Nat
  issued : Option Nat := none        -- the cycle of its last issue (R159)
  unit : IssueUnit := .uniform       -- the unit that its last instruction went to (R159)
  entered : Option Nat := none       -- the cycle in which it was brought into the active set (R158)
  stuck : List Nat := []     -- the splits that could not issue when the scheduler last looked (R158, R162)
  raised : List Nat := []    -- the splits with an effect raised at their present boundary (R376)
  before : List Window := [] -- the windows of the split that issued last, before that issue (R65)
  wrdDue : Bool := false     -- the instruction held back names a pending register, and counts once it goes (R60)
  defer : Bool := false      -- the engine's accesses wait at their queue (R283)
  deriving DecidableEq, Repr

/-- The matrix side of a gang (R287, R300 to R303): `closed` holds the batches that are not complete, by number. -/
structure MatSt where
  res : Tab (Option Reserv)
  opened : Option Batch
  closed : Tab (Option Batch)
  top : Nat
  drop : BitVec 8
  gerr : Bool
  deriving DecidableEq, Repr

/-- A gang (R20 to R22, R32 to R37). Its key is 16 times its block's number plus its index. -/
structure Gang where
  block : Nat
  idx : Nat
  live : Lanes
  regs : Regs
  frames : List Frame
  recs : Tab (Option Rec)
  serials : Tab Nat
  tag : Nat
  splits : Tab (Option Split)
  cur : Nat
  deferred : List Split
  fair : Nat
  fairDefer : Option Nat
  win : EngWin
  mat : MatSt
  hold : Hold
  stopped : Option TrapInfo
  detail : Tab LaneDetail   -- by lane (R380)
  traps : List PendTrap
  sched : SchedInfo
  deriving DecidableEq, Repr

/-- What a block is doing (R27, R28, R33, R387). -/
inductive Phase where
  | staging (region off : Nat)
  | running
  | swapped (trap : Bool) (resumed : Bool)
  | stopped          -- swapped out by CTXCTL STOP (R385)
  | returned         -- back in its slots and windows, its images not filled yet (R394)
  deriving DecidableEq, Repr

/-- The resources a launch record asks for (R23). -/
structure Need where
  vregs : Nat
  kregs : Nat
  scratch : Nat
  tags : Nat
  guards : Nat
  race : Bool
  shadow : Bool
  prio : Nat
  wdlim : Nat
  deriving DecidableEq, Repr

/-- A region of a launch (R24). -/
structure Region where
  gaddr : Nat
  len : Nat
  soff : Nat
  deriving DecidableEq, Repr

/-- A wait condition (R23, Table 4). -/
structure WaitCond where
  addr : Nat
  op : Nat
  value : DWord
  latched : Bool
  deriving DecidableEq, Repr

/-- A validated launch record (R23, R25). -/
structure LRec where
  entry : DWord
  args : DWord
  gx : Nat
  gy : Nat
  gz : Nat
  bx : Nat
  bky : Nat
  bz : Nat
  need : Need
  regions : List Region
  deriving DecidableEq, Repr

/-- A launch from acceptance to its completion record (R20, R25, R26, R31, R33, R156). -/
structure Launch where
  ctx : Nat
  queue : Nat
  record : DWord
  compl : DWord
  prio : Nat
  body : Option LRec
  waits : List WaitCond
  next : Nat
  retired : Nat
  placedN : Nat
  ended : Option Nat       -- the status that ends it before or while blocks run (R33)
  kblocks : Nat
  klanes : Nat
  kfirst : Nat
  cmd : Option (Nat × Nat)  -- the block and the number of a LAUNCH command (R115)
  written : Bool
  barred : Bool := false    -- it found no room, and waits for a block of its context to give some up (R157)
  deriving DecidableEq, Repr

/-- The state of a context (R385, Table 6 of R391). -/
inductive CtxState where
  | running | trapped | killed | stopped
  deriving DecidableEq, Repr

/-- A context: its descriptor (R339), its status block (R391) and its error queue (R223). -/
structure Context where
  vf : Nat
  state : CtxState
  dten : Bool
  parts : Nat
  groot : Nat
  hroot : Nat
  stoff : DWord
  peert : Nat
  dirty : Nat
  dirtyn : Nat
  save : Nat
  wrdcnt : DWord
  gen : Nat
  tagcnt : Nat
  ntrap : Nat
  npark : Nat
  devq : List Nat           -- the LAUNCH commands waiting in the device launch queue (R155)
  errBase : DWord
  errHead : Nat
  errCount : Nat
  errOvf : Bool
  stopping : Bool := false  -- a STOP waits for the answers of remote requests (R350, R385)
  deriving DecidableEq, Repr

/-- One element of a memory request: its lane, place, size, data and compare value (R94, R102). -/
structure Elem where
  lane : Nat
  ea : DWord
  loc : Loc
  size : Nat
  data : DWord
  cmp : DWord
  deriving DecidableEq, Repr

/-- What a memory request does (R99 to R106). -/
inductive ReqKind where
  | load (sgn : Bool)
  | store
  | atom (op : Aop) (t : Ty) (ret : Bool)
  | lr
  | sc
  deriving DecidableEq, Repr

/-- Where a returned value goes: lanes of a vector register (with its pair) or a uniform register. -/
inductive Dest where
  | none
  | vec (d : Nat) (wide : Bool)
  | uni (d : Nat)
  deriving DecidableEq, Repr

/-- Where a sector of a request stands (R166, R167): 1 the die store's queue, 2 the memory controller's, 3 a CXL request
queue; since when, and its place in the order of arrivals. -/
structure Place where
  sec : Nat
  stage : Nat
  since : Nat
  order : Nat
  deriving DecidableEq, Repr

/-- An outstanding memory request of a gang (R86 to R89, R134, R166 to R173). -/
structure Req where
  gang : Nat
  split : Nat
  pc : DWord
  len : Nat
  uni : Bool                -- made by a uniform instruction (R101, R102)
  kind : ReqKind
  space : Space
  scope : Scope
  ord : MemOrd
  dest : Dest
  elems : List Elem
  checked : Bool            -- its translation and bound checks have passed
  counted : Nat             -- 0 none, 1 LCNT, 2 SCNT
  deps : List Nat           -- requests that must have performed first
  elder : List Nat          -- older requests of the splits that its split was divided from (R124)
  performed : List Nat      -- sectors that have performed
  results : List (Nat × DWord)
  returned : List Nat       -- sectors whose data has been written
  bounces : Nat
  bounced : Bool
  chained : Bool := false   -- it follows an older bounced store of its gang (R134)
  readers : List Nat := []  -- the splits that took a byte of it before it performed (R127, R134)
  lanesDone : List Nat := []  -- the lanes of a scratchpad atomic that have performed before the rest (R90, R337)
  key : Nat := 0            -- the resource at which it last bounced (R172)
  places : List Place := []  -- the queues of the sectors that have gone on past the core's port (R166, R167, R171)
  cause : Nat               -- 0 walk, 1 absent, 2 queue full, 3 guard, 4 credit, 5 limit, 6 swap
  since : Nat               -- when it reached its queue head, or bounced
  deriving DecidableEq, Repr

/-- A long-latency instruction other than a load: the values it will write (R57). -/
structure LongOp where
  gang : Nat
  split : Nat
  vs : List (Nat × Nat × Word)   -- register, lane, value
  ks : List (Nat × DWord)
  flags : List (Nat × Nat)       -- lane and the flags it sets
  en : Nat                       -- the flags that FCR enabled at issue (R243)
  array : Bool                   -- an RCCAP that the array has not served yet
  deriving DecidableEq, Repr

/-- The shape record of a copy (R113). -/
structure Shape where
  x : Nat
  y : Nat
  z : Nat
  sys : Int
  szs : Int
  dys : Int
  dzs : Int
  deriving DecidableEq, Repr

/-- A word that a running box has still to move (R92, R135): from, to, and what was read, once it has been. -/
structure CopyWord where
  src : Loc
  dst : Loc
  val : Option Nat
  deriving DecidableEq, Repr

/-- An accepted engine command (R110 to R118). -/
structure Cmd where
  gang : Nat
  split : Nat
  c0 : DWord
  c1 : DWord
  c2 : DWord := 0
  c3 : DWord
  shape : Shape
  prio : Nat
  deps : List Nat           -- requests of the gang issued before the GO
  passed : Bool             -- its guard has been recorded true (R122)
  started : Bool
  running : List Nat        -- boxes written and not yet counted
  boxes : List Nat          -- boxes whose bit is set
  todo : List (Nat × List CopyWord) := []  -- the words that running boxes have still to move, in destination order (R92)
  fresh : List Nat := []    -- boxes whose reads lie in the running patrol period (R405)
  way : Option Place := none  -- the queue past the engine's in which its next access stands (R167)
  failed : Option (Nat × Nat × DWord)  -- cause, box, address
  bounces : Nat
  bounced : Bool
  cause : Nat
  since : Nat               -- when it reached its queue head, or bounced
  queued : Bool             -- a LAUNCH that has entered the device launch queue
  head : Bool := false      -- it has reached the head of its stream
  deriving DecidableEq, Repr

/-- One request of a remote access (R211 to R222): one sector of one window, for one peer. -/
structure RReq where
  gang : Nat
  split : Nat
  kind : RKind
  sgn : Bool
  size : Nat
  dest : Dest
  dev : Nat
  peer : Nat
  ftid : Nat
  elems : List (Nat × Nat)  -- lane and window offset
  group : Nat               -- the instruction it belongs to
  acq : Bool                -- it is an acquire (R97, R221)
  plane : Nat               -- the physical plane it was sent on
  sent : Nat                -- 0, or a number that rises with the order of sending
  status : Option RStatus
  results : List (Nat × DWord)
  written : List Nat        -- the lanes whose value has been written
  deps : List Nat
  bounces : Nat
  bounced : Bool
  chained : Bool := false   -- it follows an older bounced store of its gang (R134)
  cause : Nat
  since : Nat
  deriving DecidableEq, Repr

/-- A multicast delivery that has not arrived yet (R291, R292). -/
structure Delivery where
  uid : Nat
  gang : Nat
  batch : Nat
  core : Nat
  pos : Nat
  id : Nat
  t : Ty
  mx : Bool
  c0 : Nat
  nch : Nat
  scale : Bool
  bytes : List Byte
  deps : List Nat := []     -- accesses that a fence or a barrier puts before it (R107, R133)
  landed : List Nat := []   -- the words of the reservation that have arrived before the rest (R292)
  deriving DecidableEq, Repr

/-- An instruction in the Millrace's queue (R314). -/
inductive ArrOp where
  | window (n : Nat)
  | mode (mesh : Bool) (a b : DWord)
  | load (mesh : Bool) (first : Nat) (rows : List (List Byte))
  | await (op : Nat)         -- an RCLD whose reads have not performed
  | hold (gang split : Nat)  -- the place of an SRD of the array's state
  | go (a b : VVal)
  | cap (sel : CapSel) (op : Nat) (lanes : Lanes) (d : Nat)
  | clear
  | stat (clr : DWord)
  deriving DecidableEq, Repr

/-- The array of a core (R312, R313, R322). -/
structure Array where
  owner : Option Nat
  mesh : Bool
  combine : BitVec 128
  codes : Tab Nat
  twin : Nat
  bits : Nat                -- the W1C bits [4:0] of RCSTAT
  dirty : Bool
  capv : Bool
  eval : Option (Nat × Nat)  -- an evaluation (1) or reset (2) in progress and its end
  pending : List Nat         -- what the evaluation will capture
  pendBits : Nat
  capture : List Nat
  capMesh : Bool
  queue : List ArrOp
  pushed : Option (Nat × Nat) := none  -- the cycle and the quarter of the last instruction that joined the queue
  deriving DecidableEq, Repr

/-- The core stores of a block that is swapped out (R387, R393). -/
structure Image where
  scratch : List (Nat × Byte)
  tiles : List (Nat × List (Word × Word))
  opbuf : List (Nat × Byte)
  array : Option Array
  staging : Option (Nat × Nat)
  deriving DecidableEq, Repr

/-- A resident or swapped-out block (R20, R28 to R33, R38, R91). -/
structure Block where
  launch : Nat
  index : Nat
  ctx : Nat
  core : Nat
  q0 : Nat
  bank : Nat
  ngangs : Nat
  need : Need
  scrbase : Nat
  tagbase : Nat
  x : Nat
  y : Nat
  z : Nat
  wide : Bool
  phase : Phase
  busy : BitVec 64
  ready : BitVec 64
  tdisc : BitVec 64
  tfault : BitVec 64
  killed : Nat
  image : Option Image
  past : Tab (Option Cmd) := []  -- by tag: the command that made it ready (R393)
  deriving DecidableEq, Repr

/-- A crew of a context on a core (R36): members, the generation each takes part from and the cycle of its join. -/
structure Crew where
  members : List (Nat × Nat × Nat)
  left : List Nat            -- members that left or ended since the pending barrier began
  gen : Nat
  deriving DecidableEq, Repr

/-- A hardware queue (R151 to R154). -/
structure HQueue where
  en : Bool
  halt : Bool
  qpri : Nat
  log2n : Nat
  ctx : Nat
  head : BitVec 32
  tail : BitVec 32
  qbase : DWord
  pending : Bool
  deriving DecidableEq, Repr

/-- A fault record (R382). -/
structure FRec where
  stamp : DWord
  seq : Nat
  src : Nat
  ctx : Nat
  cls : Nat
  cause : Nat
  sub : Nat
  gang : Nat
  stage : Nat
  pc : DWord
  block : Nat
  lanes : Lanes
  aux : DWord
  addrs : List DWord
  dev : DWord := 0          -- the device STAMP at which it was posted (R396)
  deriving DecidableEq, Repr

/-- A fault ring with its fault page (R383). -/
structure Ring where
  base : Nat
  size : Nat
  head : BitVec 32
  tail : BitVec 32
  ovf : Bool
  pend : List FRec
  seq : Nat                 -- the next SEQ
  err : Bool
  deriving DecidableEq, Repr

/-- The registers of a virtual function (R338, R354). -/
structure VfRegs where
  vpart : BitVec 8
  vpol : Nat
  burst : Nat
  bankcap : Nat
  slice : Nat
  vsBase : Nat
  vsCount : Nat
  enctx : Nat
  enreq : List (Nat × DWord) -- the pending requests, oldest first: the context and the address of the block
  deriving DecidableEq, Repr

/-- A bank flip in progress (R388). -/
structure Flip where
  since : Nat
  old : Option Nat
  incoming : Option Nat
  deriving DecidableEq, Repr

/-- The Weir's turn on a partition (R341, R342). -/
structure WTurn where
  vf : Nat
  ctx : Option Nat
  since : Nat
  allowance : Int
  quantSince : Nat
  quant : Nat
  draining : Option Nat
  table : List (Nat × DWord)  -- the schedule table as it was read at the start of the turn (R359)
  deriving DecidableEq, Repr

/-- A physical partition (R166, R340 to R342, R388 to R390). -/
structure Part where
  fabric : Nat
  memc : Nat
  die : Nat
  core : Nat
  park : Nat
  shadow : Bool
  pround : Nat
  drain : Nat
  roundStart : Nat
  served : List Nat
  turn : Option WTurn
  used : Tab Nat            -- cycles used this round, by VF
  bank : Tab Int            -- banked cycles, by VF
  debt : Tab Nat            -- debt in cycles, by VF
  lastEnt : Tab Nat         -- schedule entry served last, by VF (plus 1)
  fg : Nat                  -- the foreground bank
  owners : Tab (Option Nat) -- the context in each bank
  spilled : Bool            -- the background bank's spill is complete
  filled : Bool             -- the foreground bank's fill is complete
  urgent : Bool             -- the foreground context is being swapped out
  flip : Option Flip
  metered : Nat             -- until when the foreground's time has been counted (R352)
  deriving DecidableEq, Repr

/-- What a translation finds (R82, R83): a page with its permissions, an absent page, or a malformed entry; the last two
with the permissions of the guest's leaf, where the walk has reached it. -/
inductive Xlat where
  | page (pa gpa : Nat) (x w rd : Bool)
  | absent (stage : Nat) (page : Nat) (x w rd : Bool)
  | malformed (x w rd : Bool)
  deriving DecidableEq, Repr

/-- A reader or writer of the hub that waits for an absent page (R25 to R27, R33, R117, R153, R207). -/
structure HubWait where
  kind : Nat                -- 0 queue, 1 launch, 2 block staging, 3 completion, 4 command, 5 remote request, 6 request
  key : Nat
  ring : Nat
  seq : Nat
  deriving DecidableEq, Repr

/-- What an access of the matrix engine or the Millrace is for (R289, R293, R309, R321). -/
inductive EngGoal where
  | fill (scl mc : Bool) (id c0 nch : Nat) (cmask : BitVec 8)
  | rows (data : List Nat) (exm : Lanes)
  | gather (id rowp cols vals cbase rows c0 : Nat)
  | codes (mesh : Bool) (first : Nat)
  deriving DecidableEq, Repr

/-- An access of the matrix engine or the Millrace that has not performed (R168, R283): the engine's own entry. -/
structure EngOp where
  gang : Nat
  split : Nat
  goal : EngGoal
  batch : Nat
  space : Space
  size : Nat
  eas : List DWord
  locs : List Loc
  deps : List Nat
  bounces : Nat
  bounced : Bool
  cause : Nat
  since : Nat
  way : Option Place := none  -- the queue past the core's port in which it stands (R167)
  got : List (Nat × List Byte) := []  -- what has been read of it already, by place (R290, R321)
  stores : List Nat := []   -- what its multicast deliveries wait for (R107)
  deriving DecidableEq, Repr

/-- A sector that a gang has read early at its home, for loads at CLUSTER scope or wider (R130, R202). -/
structure Ahead where
  gang : Nat
  sector : Nat
  bytes : List Byte
  deriving DecidableEq, Repr

/-- A page of registers that the host maps (R152, R354, R358, R383). -/
inductive MmioPage where
  | bar0
  | kick (vf : Nat)
  | fault (vf : Nat)
  | meter (vf : Nat)
  | vf (n : Nat)             -- BAR0 of a virtual function (R408)
  deriving DecidableEq, Repr

/-- The error history of a page (R404). -/
structure PageErr where
  corr : Nat
  uncorr : Nat
  deriving DecidableEq, Repr

/-- Device memory, its errors and the scrub (R400 to R405). -/
structure MemSt where
  bytes : Tab Byte          -- the value at the point of coherence (R80, R81)
  stale : Tab (Option Byte) -- what memory itself holds of a byte that a cache holds changed (R80)
  oldPoison : List Nat      -- sectors poisoned in memory that a cache holds rewritten
  store : Tab Nat           -- the lines in the die stores: the sectors held, as a mask (R15, R80)
  poison : List Nat         -- poisoned sectors, ascending
  errors : Tab Nat          -- symbol errors waiting in a sector
  hist : Tab PageErr
  rows : Tab Nat            -- corrected events per row, for the repair map
  badRows : List (Nat × Nat)  -- pages and their rows that have had an uncorrectable event (R404)
  replaced : List Nat       -- the rows in the repair map (R404)
  peqaddr : Nat
  period : Nat
  periodStart : Nat
  ckpt : Nat
  patrol : Nat
  ckptPages : List Nat
  patrolPages : List Nat
  calcnt : Tab Nat
  calint : Tab Nat
  calat : Tab Nat           -- when a channel was last recalibrated
  deriving DecidableEq, Repr

/-- The fabric hub (R204 to R213). -/
structure FabSt where
  fplink : Tab (Nat × Nat × Nat × Nat)  -- retrains, speed, width, state, by plane
  trained : List Nat        -- the planes that have been trained since reset (R210)
  fell : List Nat           -- the planes whose link has entered DOWN since it was last up (R209)
  maps : Tab Nat            -- plane maps, by physical device
  dead : List (Nat × Nat)   -- dead planes, by (device, plane)
  repair : List (Nat × Nat × Nat × Bool)  -- device, dead plane, since when, and whether the epilogue is in (R209)
  self : Option Nat         -- the physical ID of this device (R204)
  lost : List Nat           -- unreachable devices
  lastErr : Nat × Nat       -- the STAMP and the plane of the last loss recorded (R223)
  credits : Tab Nat         -- credits in use, by device * 4 + plane
  out : List (Nat × RStatus × List (Nat × DWord))  -- answers to other devices, oldest first
  naks : List Nat           -- answers to launch packets: 1 access error, 2 RNR, 3 operational error
  deriving DecidableEq, Repr

/-- The Weir's floors and slots, its errors, and the invalidation and dirty registers (R343 to R349, R358). -/
structure PfSt where
  floors : Tab Nat          -- by channel * 64 + VF
  slots : Tab Nat           -- slots used this window, by channel * 64 + VF
  deficit : Tab Nat         -- recalibration deficit, by channel * 64 + VF
  drr : Tab Nat             -- slots credited in the slack class, by channel * 64 + VF
  drrAt : Tab Nat           -- the VF whose turn it is in the slack class, by channel
  windowAt : Tab Nat        -- the window last settled, by channel
  errOwn : Bool
  errAdmit : Bool
  errSched : Bool
  errChan : Nat
  errVf : Nat
  invaddr : Nat
  invRun : Option (Nat × Nat × Nat × Nat)  -- the invalidation that runs: stage, context, address, pages
  invErr : Bool
  invStage : Nat
  invCtx : Nat
  invPages : Nat
  dtsel : DWord
  dtword : DWord
  ctxtab : Nat
  wtbase : Nat
  ltbase : Nat
  ready : List FnId
  failed : List FnId
  lastServed : Nat
  mhz : Nat
  cfgWrites : Nat           -- writes of what the digest of a function's measurement covers (R357)
  deriving DecidableEq, Repr

/-- The meters and the security engine (R351 to R357). -/
structure EnergySt where
  counters : Tab Nat        -- microjoules, by VF * 8 + virtual partition; 512 for the PF
  moved : List Nat
  seq : Nat
  seen : Tab Nat            -- highest export SEQ accepted, by source device
  since : Nat               -- when the running interval began
  times : Tab Nat           -- foreground cycles of the interval, by partition * 1024 + user
  accesses : Tab Nat        -- die-store accesses of the interval, by die * 1024 + user
  carried : Tab Nat         -- bytes carried in the interval, by user
  slots : Tab Nat           -- channel slots of the interval, by channel * 1024 + user
  spills : Tab Nat          -- bytes that the spill engines moved in the interval, by partition * 1024 + user
  refused : List Nat        -- VFs of which an export record was rejected (R356)
  spdm : Nat                -- 0 none, 1 version, 2 capabilities, 3 negotiated
  spdmOut : List (List Byte)
  exports : List (List Byte)
  gens : Tab Nat            -- generation counters, by CTXID (R359)
  images : List (Nat × List Byte)  -- the firmware images accepted since bring-up (R8, R357)
  deriving DecidableEq, Repr

/-- A line in an L1 (R80, R81): owned or shared, the sectors filled and the sectors changed, as masks, and the meter of
the context that changed it (R344). -/
structure L1Line where
  owned : Bool
  filled : Nat
  dirty : Nat
  user : Nat
  deriving DecidableEq, Repr

/-- The stores of the cores (R12, R13, R36). -/
structure CoreSt where
  scratch : Tab Byte        -- by core * 2^20 + bank * 2^19 + offset
  tiles : Tab (List (Word × Word))  -- by (core * 4 + quarter) * 64 + bank * 32 + tile
  owners : Tab Nat          -- the block that wrote a tile last, plus 1
  opbuf : Tab Byte          -- by (core * 4 + quarter) * 2^17 + bank * 2^16 + byte
  crews : Tab Crew          -- by (ctx * 256 + core) * 32 + crew
  arrays : Tab Array        -- by core
  l1 : Tab (Option L1Line)  -- by core * 2^45 + line (R12)
  icache : List (Nat × Nat) -- core and sector, oldest first (R12)
  engFull : List Nat        -- clusters whose engine queue is full (R118)
  deriving DecidableEq, Repr

/-- What the spill engine saved of a context (R391 to R393): the bytes of the save area by offset, and what they
stand for, since part of their layout is the device's own. -/
structure Saved where
  top : Nat                 -- every number in it is lower
  bytes : List (Nat × Byte)
  ctx : Context
  blocks : List (Nat × Block)  -- with virtual core numbers
  gangs : List (Nat × Gang)
  launches : List (Nat × Launch)
  reqs : List (Nat × Req)
  rreqs : List (Nat × RReq)
  longs : List (Nat × LongOp)
  cmds : List (Nat × Cmd)
  devq : List Nat
  engOps : List (Nat × EngOp)
  queues : List (Nat × HQueue)  -- the context's hardware queues, in ascending order (R154, R350)
  crews : List (Nat × Nat × Crew)  -- by virtual core and number (R36)
  aged : List Nat := []      -- the aged entries, each list in its order (R175)
  waits : List HubWait := [] -- the entries that wait to be served (R384)
  deliveries : List Delivery := []  -- multicast deliveries that may not arrive yet (R292)
  deriving DecidableEq, Repr

/-- One turn of the model's agenda, which says who moves next (log 2). -/
inductive Turn where
  | issue (gang : Nat)       -- the gang issues for its current split (R158 to R162)
  | event (i : Instr)        -- a step of the device, the host or the environment
  | elapse (n : Nat)         -- n cycles of the 2.0 GHz reference clock pass (R3)
  | leave (core line : Nat)  -- a 128-byte line leaves the L1 of a core (R81, R105)
  | writeBack (line : Nat)   -- a 128-byte line leaves its die store for its memory (R80)
  | upset (sector n : Nat)   -- n symbols of a sector go wrong (R402)
  | hostWrite (addr : Nat) (bytes : List Byte)  -- the host writes memory through its port (R125)
  | hostRead (addr n : Nat)  -- the host reads memory through its port (R125)
  | mmioRead (page : MmioPage) (off size : Nat)  -- the host reads a register page (R4, R358)
  | vfWrite (vf off size : Nat) (v : DWord)  -- the host writes a register in a virtual function's BAR0 (R408)
  | advance (req sector : Nat)  -- a sector of a request, or of an engine's next access, moves on to its next queue (R166, R167)
  | loadAhead (gang sector : Nat)  -- a load at CLUSTER scope or wider reads its home early (R130)
  | copyWords (cmd box : Nat) (words : List Nat)  -- an engine moves some words of a box that runs (R92, R135)
  | readWords (cmd box : Nat) (words : List Nat)  -- an engine reads some words of a box before it writes them (R92, R135)
  | fetchWords (entry : Nat) (words : List Nat)  -- the matrix engine or the Millrace reads some pieces of an access (R290, R321)
  | deliverWords (delivery : Nat) (words : List Nat)  -- some words of a multicast delivery arrive (R292)
  | performLanes (req n : Nat)  -- the first lanes of a scratchpad atomic perform (R90, R337)
  | engineFull (cluster : Nat) (full : Bool)  -- the engine queue of a cluster is full, or no longer (R118)
  | deferEngine (gang : Nat) (on : Bool)  -- the engine's accesses for a gang wait at their queue, or act at issue (R283)
  | firmware (i : Nat) (image : List Byte) (rsa slh : Bool)  -- an image is offered, and whether its signatures verify (R8)
  | deviceId (n : Nat)       -- the management controller gives the device its physical ID (R204)
  | linkState (plane state : Nat)  -- a Sails link goes down, trains, or is disabled (R210)
  | remoteHeld (i : Instr)   -- the queues here hold another device's request for their limits (R207)
  | importArea (base : Nat) (sv : Saved)  -- a save area that another device wrote is put in memory (R350)
  deriving DecidableEq, Repr

/-- The whole machine. -/
structure State where
  agenda : List Turn
  cycle : Nat
  uid : Nat
  cur : Option Nat
  mem : MemSt
  tlb : Tab (Option Xlat)   -- by (unit * 2^16 + context) * 2^48 + virtual page; unit 256 is the hub
  walks : List (Nat × Nat × Nat)
  core : CoreSt
  gangs : Tab (Option Gang)
  blocks : Tab (Option Block)
  ctxs : Tab (Option Context)
  launches : Tab (Option Launch)
  reqs : Tab (Option Req)
  longs : Tab (Option LongOp)
  cmds : Tab (Option Cmd)
  rreqs : Tab (Option RReq)
  deliveries : List Delivery
  queues : Tab HQueue
  rings : Tab Ring          -- 0 to 63 of the VFs, 64 of the PF
  vfs : Tab VfRegs
  parts : Tab Part
  waits : List HubWait
  aged : Tab (List Nat)     -- aged entries by resource (R172)
  pf : PfSt
  fab : FabSt
  energy : EnergySt
  areas : Tab (Option Saved) -- by context: what the spill engine wrote last
  engOps : Tab (Option EngOp)
  ahead : List Ahead
  imports : List (Nat × Saved) -- save areas of other devices, by the address of the area (R350)
  mmioOut : List DWord      -- what the host's register reads returned, oldest first
  leftAt : Tab Nat          -- when the head of a shared queue last left it, by queue (R167)
  deriving DecidableEq, Repr

/-- Why the machine stops. -/
inductive Fault where
  /-- Raised by every instruction when no gang is issuing, or the issuing gang or its split is not in the
  state. `step` never runs an instruction so; safe: it stops where no hardware run is. -/
  | noGang
  deriving DecidableEq, Repr

/-- Why a step gives no meaning. -/
inductive Refusal where
  /-- Raised by an arm of `exec` whose instruction has no meaning yet; safe. -/
  | notModelled (mnemonic : String)
  deriving DecidableEq, Repr

/-- What a step of this machine answers. -/
abbrev Out := Host.Outcome State Fault Refusal

/-- Device memory at power-on (R400 to R405; log 3). -/
def MemSt.reset : MemSt :=
  { bytes := [], stale := [], oldPoison := [], store := [], poison := [], errors := [], hist := [], rows := [], badRows := [], replaced := [], peqaddr := 0, period := 86400,
    periodStart := 0, ckpt := 0, patrol := 0, ckptPages := [], patrolPages := [], calcnt := [], calint := [], calat := [] }

/-- The hub's fabric side at reset (R208, R210). -/
def FabSt.reset : FabSt :=
  { fplink := [], trained := [], fell := [], maps := [], dead := [], repair := [], self := none, lost := [], lastErr := (0, 0), credits := [], out := [], naks := [] }

/-- The physical function's registers at reset (R343, R347, R358; logs 4 and 6). -/
def PfSt.reset : PfSt :=
  { floors := [], slots := [], deficit := [], drr := [], drrAt := [], windowAt := [], errOwn := false, errAdmit := false, errSched := false,
    errChan := 0, errVf := 0, invaddr := 0, invRun := none, invErr := false, invStage := 0, invCtx := 0,
    invPages := 0, dtsel := 0, dtword := 0, ctxtab := 0, wtbase := 0, ltbase := 0, ready := [], failed := [],
    lastServed := 0, mhz := 2000, cfgWrites := 0 }

/-- The meters and the security engine at reset (log 6). -/
def EnergySt.reset : EnergySt :=
  { counters := [], moved := [], seq := 0, seen := [], since := 0, times := [], accesses := [], carried := [], slots := [], spills := [], refused := [], spdm := 0,
    spdmOut := [], exports := [], gens := [], images := [] }

/-- The core stores at reset (R27; log 5). -/
def CoreSt.reset : CoreSt :=
  { scratch := [], tiles := [], owners := [], opbuf := [], crews := [], arrays := [], l1 := [], icache := [], engFull := [] }

/-- The machine right after a cold reset: nothing is ready, no context exists and no work is queued (R407). -/
def State.reset : State :=
  { agenda := [], cycle := 0, uid := 1, cur := none, mem := MemSt.reset, tlb := [], walks := [],
    core := CoreSt.reset, gangs := [], blocks := [], ctxs := [], launches := [], reqs := [], longs := [],
    cmds := [], rreqs := [], deliveries := [], queues := [], rings := [], vfs := [], parts := [], waits := [],
    aged := [], pf := PfSt.reset, fab := FabSt.reset, energy := EnergySt.reset, areas := [], engOps := [], ahead := [], imports := [],
    mmioOut := [], leftAt := [] }

end Sys2Proof.Machine
end

