-- ==== Sys2Proof/Machine/Stores.lean ====
section
/-! DEFINITION. The stores of the device: reading and writing the parts of the state, memory and scratchpad bytes, the
caches and the slots that an access costs, poison, what a write does besides its bytes, and the words of copy boxes. -/

namespace Sys2Proof.Machine

-- The tables of the state.

def State.gang? (s : State) (k : Nat) : Option Gang := tget none s.gangs k
def State.block? (s : State) (b : Nat) : Option Block := tget none s.blocks b
def State.ctx? (s : State) (c : Nat) : Option Context := tget none s.ctxs c
def State.launch? (s : State) (l : Nat) : Option Launch := tget none s.launches l
def State.req? (s : State) (u : Nat) : Option Req := tget none s.reqs u
def State.long? (s : State) (u : Nat) : Option LongOp := tget none s.longs u
def State.cmd? (s : State) (u : Nat) : Option Cmd := tget none s.cmds u
def State.rreq? (s : State) (u : Nat) : Option RReq := tget none s.rreqs u

def State.engOp? (s : State) (u : Nat) : Option EngOp := tget none s.engOps u

def State.setGang (s : State) (k : Nat) (g : Gang) : State := { s with gangs := tput none s.gangs k (some g) }
def State.setBlock (s : State) (b : Nat) (x : Block) : State := { s with blocks := tput none s.blocks b (some x) }
def State.setCtx (s : State) (c : Nat) (x : Context) : State := { s with ctxs := tput none s.ctxs c (some x) }
def State.setLaunch (s : State) (l : Nat) (x : Launch) : State :=
  { s with launches := tput none s.launches l (some x) }
def State.setReq (s : State) (u : Nat) (x : Option Req) : State := { s with reqs := tput none s.reqs u x }
def State.setLong (s : State) (u : Nat) (x : Option LongOp) : State := { s with longs := tput none s.longs u x }
def State.setCmd (s : State) (u : Nat) (x : Option Cmd) : State := { s with cmds := tput none s.cmds u x }
def State.setRreq (s : State) (u : Nat) (x : Option RReq) : State := { s with rreqs := tput none s.rreqs u x }

def State.setEngOp (s : State) (u : Nat) (x : Option EngOp) : State := { s with engOps := tput none s.engOps u x }

/-- A gang changed, if it is there. -/
def State.modGang (s : State) (k : Nat) (f : Gang → Gang) : State :=
  match s.gang? k with
  | some g => s.setGang k (f g)
  | none => s

/-- A block changed, if it is there. -/
def State.modBlock (s : State) (b : Nat) (f : Block → Block) : State :=
  match s.block? b with
  | some x => s.setBlock b (f x)
  | none => s

/-- A context changed, if it is there. -/
def State.modCtx (s : State) (c : Nat) (f : Context → Context) : State :=
  match s.ctx? c with
  | some x => s.setCtx c (f x)
  | none => s

/-- A request changed, if it is there. -/
def State.modReq (s : State) (u : Nat) (f : Req → Req) : State :=
  match s.req? u with
  | some x => s.setReq u (some (f x))
  | none => s

/-- A virtual function's registers at reset (R338, R354). -/
def vfDefault : VfRegs :=
  { vpart := 0, vpol := 3, burst := 3000, bankcap := 2, slice := 1000, vsBase := 0, vsCount := 0,
    enctx := 0xFFFF, enreq := [] }

/-- A partition's control block at reset (R166, R340). -/
def partDefault : Part :=
  { fabric := 2000, memc := 1000, die := 128, core := 32, park := 2500, shadow := false, pround := 4000,
    drain := 12500, roundStart := 0, served := [], turn := none, used := [], bank := [], debt := [], lastEnt := [],
    fg := 0, owners := [], spilled := true, filled := true, urgent := false, flip := none, metered := 0 }

/-- A fault ring at reset (R383): no ring, SEQ from 1. -/
def ringDefault : Ring :=
  { base := 0, size := 0, head := 0, tail := 0, ovf := false, pend := [], seq := 1, err := false }

/-- A hardware queue at reset (R151; log 4). -/
def queueDefault : HQueue :=
  { en := false, halt := false, qpri := 0, log2n := 6, ctx := 0, head := 0, tail := 0, qbase := 0, pending := false }

/-- A crew that nothing has joined (R36). -/
def crewDefault : Crew := { members := [], left := [], gen := 0 }

/-- The array of a core as placement of an owner leaves it (R312). -/
def arrayDefault : Array :=
  { owner := none, mesh := false, combine := 0, codes := [], twin := 1023, bits := 0, dirty := false,
    capv := false, eval := none, pending := [], pendBits := 0, capture := [], capMesh := false, queue := [] }

def State.vf (s : State) (v : Nat) : VfRegs := tget vfDefault s.vfs v
def State.setVf (s : State) (v : Nat) (x : VfRegs) : State := { s with vfs := tput vfDefault s.vfs v x }
def State.part (s : State) (p : Nat) : Part := tget partDefault s.parts p
def State.setPart (s : State) (p : Nat) (x : Part) : State := { s with parts := tput partDefault s.parts p x }
def State.ring (s : State) (r : Nat) : Ring := tget ringDefault s.rings r
def State.setRing (s : State) (r : Nat) (x : Ring) : State := { s with rings := tput ringDefault s.rings r x }
def State.queue (s : State) (q : Nat) : HQueue := tget queueDefault s.queues q
def State.setQueue (s : State) (q : Nat) (x : HQueue) : State := { s with queues := tput queueDefault s.queues q x }
def State.crew (s : State) (k : Nat) : Crew := tget crewDefault s.core.crews k
def State.setCrew (s : State) (k : Nat) (x : Crew) : State :=
  { s with core := { s.core with crews := tput crewDefault s.core.crews k x } }
def State.array (s : State) (c : Nat) : Array := tget arrayDefault s.core.arrays c
def State.setArray (s : State) (c : Nat) (x : Array) : State :=
  { s with core := { s.core with arrays := tput arrayDefault s.core.arrays c x } }

/-- A fresh number for a request, a launch, a division or a command. -/
def State.fresh (s : State) : Nat × State := (s.uid, { s with uid := s.uid + 1 })

/-- A bit of a word. -/
def bitOf (x : DWord) (i : Nat) : Bool := x.getLsbD i

/-- Bits [hi:lo] of a word as a number. -/
def bitsOf (x : DWord) (hi lo : Nat) : Nat := x.toNat / 2 ^ lo % 2 ^ (hi + 1 - lo)

/-- A number as a 64-bit word. -/
def dw (n : Nat) : DWord := BitVec.ofNat 64 n

/-- A 32-bit value extended with its sign to 64 bits. -/
def sx32 (x : BitVec 32) : DWord := x.signExtend 64

-- Registers of a gang.

/-- A vector register (R37). -/
def Regs.vget (r : Regs) (i : Nat) : VVal := tget vzero r.v i
/-- A vector register written whole. -/
def Regs.vset (r : Regs) (i : Nat) (x : VVal) : Regs := { r with v := tput vzero r.v i x }
/-- A uniform register; k0 reads as zero (R37). -/
def Regs.kget (r : Regs) (i : Nat) : DWord := if i = 0 then 0 else tget 0 r.k i
/-- A uniform register written; k0 ignores writes (R37). -/
def Regs.kset (r : Regs) (i : Nat) (x : DWord) : Regs := if i = 0 then r else { r with k := tput 0 r.k i x }
/-- A mask register; m0 is all ones (R37). -/
def Regs.mget (r : Regs) (i : Nat) : Lanes := if i = 0 then BitVec.allOnes 64 else tget 0 r.m i
/-- A mask register written; m0 ignores writes (R37). -/
def Regs.mset (r : Regs) (i : Nat) (x : Lanes) : Regs := if i = 0 then r else { r with m := tput 0 r.m i x }
/-- A guard slot (R37, R123). -/
def Regs.gget (r : Regs) (i : Nat) : Guard := tget .unresolved r.g i
/-- A guard slot written. -/
def Regs.gset (r : Regs) (i : Nat) (x : Guard) : Regs := { r with g := tput .unresolved r.g i x }

/-- The lanes of a vector register that are in a set take new values. -/
def Regs.vlanes (r : Regs) (i : Nat) (m : Lanes) (f : Nat → Word) : Regs :=
  r.vset i (lanes64 fun l => if inLanes m l then f l else lane (r.vget i) l)

def Gang.kget (g : Gang) (i : Nat) : DWord := g.regs.kget i
def Gang.kset (g : Gang) (i : Nat) (x : DWord) : Gang := { g with regs := g.regs.kset i x }
def Gang.vget (g : Gang) (i : Nat) : VVal := g.regs.vget i
def Gang.mget (g : Gang) (i : Nat) : Lanes := g.regs.mget i
def Gang.mset (g : Gang) (i : Nat) (x : Lanes) : Gang := { g with regs := g.regs.mset i x }

/-- The active lanes of a lane instruction (R46). -/
def activeLanes (g : Gang) (sp : Split) (p : Pred) : Lanes :=
  let m := g.mget p.pm
  sp.exm &&& (if p.pn then ~~~m else m)

/-- The current split of a gang. -/
def Gang.split? (g : Gang) : Option Split := tget none g.splits g.cur

/-- The gang with its current split replaced. -/
def Gang.setSplit (g : Gang) (sp : Split) : Gang := { g with splits := tput none g.splits g.cur (some sp) }

/-- The present splits, in table order. -/
def Gang.splitList (g : Gang) : List (Nat × Split) := tentries g.splits

-- Places of the machine.

def partOf (core : Nat) : Nat := core / 32
def clusterOf (core : Nat) : Nat := core / 8

/-- STAMP (R10): one count for two reference cycles. -/
def State.stamp (s : State) : DWord := dw (s.cycle / 2)

/-- The keys of the gangs of a block. -/
def blockGangs (b : Block) (n : Nat) : List Nat := (List.range b.ngangs).map (n * 16 + ·)

/-- The keys of the gangs of the block with a number. -/
def State.gangsOf (s : State) (n : Nat) : List Nat :=
  match s.block? n with
  | some b => blockGangs b n
  | none => []

/-- Whether a block's bank is the foreground one and it is running there (R13, R79). -/
def foreground (s : State) (b : Block) : Bool :=
  let p := s.part (partOf b.core)
  p.flip.isNone && !p.urgent && (!p.shadow || (p.fg == b.bank && p.filled))

/-- The virtual partition of a physical one for a virtual function (R338). -/
def vpartIndex (s : State) (vf p : Nat) : Nat :=
  ((List.range p).filter fun i => (s.vf vf).vpart.getLsbD i).length

/-- CORENUM of a block (R38, R338). -/
def corenum (s : State) (b : Block) : Nat :=
  match s.ctx? b.ctx with
  | some c => 32 * vpartIndex s c.vf (partOf b.core) + b.core % 32
  | none => b.core

-- Bytes.

/-- What an address of device memory that nothing has written reads as (log 3). -/
def unwritten : Byte := 0

/-- One byte of device memory. -/
def State.byte (s : State) (a : Nat) : Byte := tget unwritten s.mem.bytes a

/-- What memory itself holds of a byte, kept when a cache takes a new value for it (R11, R80). -/
def keepStale (m : MemSt) (a : Nat) : Tab (Option Byte) :=
  match tget none m.stale a with
  | some _ => m.stale
  | none => tput none m.stale a (some (tget unwritten m.bytes a))

/-- One byte of device memory written at its point of coherence: the memory behind the caches keeps the old one until
the line is written back (R80, R81). -/
def State.setByte (s : State) (a : Nat) (x : Byte) : State :=
  { s with mem := { s.mem with bytes := tput unwritten s.mem.bytes a x, stale := keepStale s.mem a } }

/-- One scratchpad byte by its key. -/
def State.sbyte (s : State) (a : Nat) : Byte := tget 0 s.core.scratch a

/-- One scratchpad byte written. -/
def State.setSbyte (s : State) (a : Nat) (x : Byte) : State :=
  { s with core := { s.core with scratch := tput 0 s.core.scratch a x } }

/-- The key of a scratchpad byte: core, bank and offset (R13). -/
def scrKey (core bank off : Nat) : Nat := core * 1048576 + bank * 524288 + off

/-- One byte of a location. -/
def State.lbyte (s : State) (l : Loc) (i : Nat) : Byte := if l.scr then s.sbyte (l.addr + i) else s.byte (l.addr + i)

/-- One byte of a location written. -/
def State.setLbyte (s : State) (l : Loc) (i : Nat) (x : Byte) : State :=
  if l.scr then s.setSbyte (l.addr + i) x else s.setByte (l.addr + i) x

/-- The number in `n` bytes, least significant first (R2). -/
def leValue (f : Nat → Byte) : Nat → Nat
  | 0 => 0
  | n + 1 => leValue f n + 256 ^ n * (f n).toNat

/-- `n` bytes of device memory as a number. -/
def State.readPhys (s : State) (a n : Nat) : Nat := leValue (fun i => s.byte (a + i)) n

/-- Bytes of a list written from an address on. -/
def State.writeBytes (s : State) (a : Nat) : List Byte → State
  | [] => s
  | b :: r => (s.setByte a b).writeBytes (a + 1) r

/-- A number written to `n` bytes of device memory. -/
def State.writePhys (s : State) (a : Nat) : Nat → Nat → State
  | 0, _ => s
  | n + 1, v => (s.setByte a (BitVec.ofNat 8 v)).writePhys (a + 1) n (v / 256)

/-- `n` bytes of a location as a number. -/
def State.readLoc (s : State) (l : Loc) (n : Nat) : Nat := leValue (fun i => s.lbyte l i) n

/-- A number written to `n` bytes of a location, from byte `i`. -/
def State.writeLoc (s : State) (l : Loc) : Nat → Nat → Nat → State
  | _, 0, _ => s
  | i, n + 1, v => (s.setLbyte l i (BitVec.ofNat 8 v)).writeLoc l (i + 1) n (v / 256)

/-- Scratchpad bytes as a number. -/
def State.readScr (s : State) (key n : Nat) : Nat := leValue (fun i => s.sbyte (key + i)) n

/-- Scratchpad bytes written from a key on. -/
def State.writeScr (s : State) (a : Nat) : List Byte → State
  | [] => s
  | b :: r => (s.setSbyte a b).writeScr (a + 1) r

/-- The 32-byte sector of a physical address (R80). -/
def sectorOf (a : Nat) : Nat := a / 32

/-- Whether a sector is poisoned (R402). -/
def State.poisoned (s : State) (sec : Nat) : Bool := s.mem.poison.contains sec

/-- HBM is backed below 768 GiB and the CXL tier for 16 TiB from its base (R400). -/
def backed (a n : Nat) : Bool :=
  decide (a + n ≤ 0xC000000000) || (decide (0x10000000000 ≤ a) && decide (a + n ≤ 0x10000000000 + 0x100000000000))

/-- Whether an address lies in HBM (R400). -/
def isHbm (a : Nat) : Bool := decide (a < 0xC000000000)

/-- The HBM channel of an address, die by die (R400). -/
def channelOf (a : Nat) : Nat := 128 * (a / 256 % 4) + a / 1024 % 128

/-- The key of a link's carried bytes for a user (R352): links 0 to 3 are the planes, 4 to 7 the CXL ports, 8 and 9 the
800GbE ports. -/
def linkKey (link u : Nat) : Nat := link * 1024 + u

/-- The user of a context's meter: VF and virtual partition (R351). -/
def meterKey (s : State) (ctx core : Nat) : Nat :=
  match s.ctx? ctx with
  | some c => 8 * c.vf + vpartIndex s c.vf (partOf core)
  | none => 512

/-- Slots charged to a meter's user for an access homed at an address (R344, R352); a carried byte is counted by its CXL
port. -/
def chargeUser (s : State) (u a n : Nat) : State :=
  let die := a / 256 % 4
  let s := { s with energy := { s.energy with
    accesses := tmod 0 s.energy.accesses (die * 1024 + u) (· + 1) } }
  if isHbm a then
    let ch := channelOf a
    { s with
      pf := { s.pf with slots := if u < 512 then tmod 0 s.pf.slots (ch * 64 + u / 8) (· + n) else s.pf.slots },
      energy := { s.energy with slots := tmod 0 s.energy.slots (ch * 1024 + u) (· + n) } }
  else
    { s with energy := { s.energy with carried := tmod 0 s.energy.carried (linkKey (4 + die) u) (· + 32 * n) } }

/-- Bytes that the spill engine of a partition moved for a context (R352). -/
def countSpill (s : State) (core ctx n : Nat) : State :=
  { s with energy := { s.energy with
    spills := tmod 0 s.energy.spills (partOf core * 1024 + meterKey s ctx core) (· + n) } }

-- Reservations (R105, R106).

/-- The 128-byte line of a location (R80). -/
def Loc.line (l : Loc) : Nat := 2 * (l.addr / 128) + (if l.scr then 1 else 0)

/-- The reservation sets of a split changed, the one that its next SC uses and those of SCs that are outstanding. -/
def Split.mapResv (sp : Split) (f : Resv → Resv) : Split := { sp with resv := sp.resv.map f, spent := sp.spent.map f }

/-- The reservation sets of a split gone (R105). -/
def Split.noResv (sp : Split) : Split := { sp with resv := none, spent := [] }

/-- A change to every split of a gang, in the table or deferred. -/
def Gang.mapSplits (g : Gang) (f : Split → Split) : Gang :=
  { g with splits := g.splits.map fun e => (e.1, e.2.map f), deferred := g.deferred.map f }

/-- A set without its lanes on a line. -/
def Resv.dropLine (line : Nat) (r : Resv) : Resv := { r with elems := r.elems.filter fun e => e.2.2.line != line }

/-- The reservations on a line cleared, for every split of the machine (R105). -/
def clearLine (s : State) (line : Nat) : State :=
  { s with gangs := s.gangs.map fun e => (e.1, e.2.map fun g => g.mapSplits fun sp => sp.mapResv (Resv.dropLine line)) }

/-- The reservations that the splits of a core hold on a line of device memory at GANG or CORE scope cleared: the line leaves
its L1 (R105). -/
def clearCoreLine (s : State) (core line : Nat) : State :=
  { s with gangs := s.gangs.map fun e => (e.1, e.2.map fun g =>
      if (match s.block? (e.1 / 16) with | some b => b.core == core | none => false) then
        g.mapSplits fun sp => sp.mapResv fun r => if r.core then r.dropLine (2 * line) else r
      else g) }

-- The L1 caches and the die stores (R11, R12, R15, R80, R81).

/-- The key of a line in the L1 of a core. -/
def l1Key (core line : Nat) : Nat := core * 35184372088832 + line

/-- A line in the L1 of a core. -/
def State.l1? (s : State) (core line : Nat) : Option L1Line := tget none s.core.l1 (l1Key core line)

/-- A line put into the L1 of a core, or taken out. -/
def State.setL1 (s : State) (core line : Nat) (x : Option L1Line) : State :=
  { s with core := { s.core with l1 := tput none s.core.l1 (l1Key core line) x } }

/-- The bit of a sector in its line's masks. -/
def sectorBit (sec : Nat) : Nat := 2 ^ (sec % 4)

/-- The changed sectors of an L1 line written back to the home, each charged to the context that wrote it (R81, R344). -/
def writeBackL1 (s : State) (line : Nat) (x : L1Line) : State :=
  chargeUser s x.user (128 * line) (((List.range 4).filter fun i => x.dirty.testBit i).length)

/-- The owner's copy recalled for a read at the home (R81): it is written back and stays, shared. -/
def recallOwned (s : State) (line : Nat) : State :=
  (s.core.l1.filter fun e => e.1 % 35184372088832 == line).foldl (fun s e =>
    match e.2 with
    | some x => if x.owned then
        (if x.dirty = 0 then s else writeBackL1 s line x).setL1 (e.1 / 35184372088832) line
          (some { x with owned := false, dirty := 0 })
      else s
    | none => s) s

/-- Every L1 copy of a line but one core's gone before a write (R81), with the reservations held there (R105), and the copies in
instruction caches. -/
def dropCopies (s : State) (line : Nat) (keep : Option Nat) : State :=
  let s := (s.core.l1.filter fun e => e.1 % 35184372088832 == line && some (e.1 / 35184372088832) != keep).foldl (fun s e =>
    match e.2 with
    | some x => clearCoreLine ((if x.dirty = 0 then s else writeBackL1 s line x).setL1 (e.1 / 35184372088832) line none)
        (e.1 / 35184372088832) line
    | none => s) s
  { s with core := { s.core with icache := s.core.icache.filter fun e => e.2 / 4 != line } }

/-- A sector is held in its die store (R15, R80). -/
def storeSector (s : State) (sec : Nat) : State :=
  { s with mem := { s.mem with store := tmod 0 s.mem.store (sec / 4) fun m => m ||| sectorBit sec } }

/-- An access at the home of an address (R11, R81, R344): its slots are charged, the owner's copy is recalled, and the
die store holds the sector. -/
def chargeSlots (s : State) (ctx core a n : Nat) : State :=
  storeSector (recallOwned (chargeUser s (meterKey s ctx core) a n) (a / 128)) (a / 32)

/-- A number put in its place in a rising list. -/
def insertNat (n : Nat) : List Nat → List Nat
  | [] => [n]
  | x :: r => if n < x then n :: x :: r else if n = x then x :: r else x :: insertNat n r

/-- Poison of a sector cleared by a write that covers it whole (R402). -/
def clearPoison (s : State) (sec : Nat) : State :=
  { s with mem := { s.mem with
    poison := s.mem.poison.filter (· != sec), errors := tput 0 s.mem.errors sec 0,
    oldPoison := if s.poisoned sec then insertNat sec s.mem.oldPoison else s.mem.oldPoison } }

/-- A sector found poisoned, or its symbol error corrected, by a read of it in memory (R402, R404). An error of more
than one symbol poisons the sector. -/
def dramRead (s : State) (sec : Nat) : State × Bool :=
  let page := sec / 2048
  let h := tget ⟨0, 0⟩ s.mem.hist page
  let e := tget 0 s.mem.errors sec
  let setHist (m : MemSt) (x : PageErr) : MemSt := { m with hist := tput ⟨0, 0⟩ m.hist page x }
  let fails (m : MemSt) : MemSt :=
    let row := (page, Config.dramRow sec)
    { setHist m { h with uncorr := min (h.uncorr + 1) 255 } with
      badRows := if m.badRows.contains row then m.badRows else m.badRows ++ [row] }
  if s.poisoned sec then ({ s with mem := fails s.mem }, true)
  else if 2 ≤ e then
    let m := fails s.mem
    ({ s with mem := { m with poison := insertNat sec m.poison } }, true)
  else if e = 1 then
    let m := setHist s.mem { h with corr := min (h.corr + 1) 65535 }
    ({ s with mem := { m with
        errors := tput 0 m.errors sec 0,
        rows := tmod 0 m.rows (Config.dramRow sec) (· + 1) } }, false)
  else (s, false)

/-- A sector read at its home (R15, R402): what the die store holds of it is not read in memory again. -/
def sectorRead (s : State) (sec : Nat) : State × Bool :=
  if (tget 0 s.mem.store (sec / 4)).testBit (sec % 4) then (s, s.poisoned sec) else dramRead s sec

/-- Bytes that a link carries for a context (R352): a sector. -/
def carryLink (s : State) (link ctx core : Nat) : State :=
  { s with energy := { s.energy with carried := tmod 0 s.energy.carried (linkKey link (meterKey s ctx core)) (· + 32) } }

-- What a write does.

/-- The part of a write at the home that lies in one sector (R81, R402): a write of the whole sector clears its poison, and a
part of a poisoned sector is not written. -/
def writeSector (s : State) (a : Nat) (bs : List Byte) (sec : Nat) : State :=
  let lo := max a (32 * sec)
  let hi := min (a + bs.length) (32 * sec + 32)
  let x := if hi - lo = 32 then (clearPoison s sec, false) else sectorRead s sec
  if x.2 then x.1
  else clearLine (storeSector ((dropCopies x.1 (sec / 4) none).writeBytes lo ((bs.drop (lo - a)).take (hi - lo))) sec)
    (2 * (sec / 4))

/-- The sectors of a run of device memory. -/
def runSectors (a n : Nat) : List Nat := if n = 0 then [] else (List.range ((a % 32 + n + 31) / 32)).map (a / 32 + ·)

/-- Bytes written at the home (R81, R402). -/
def writeHome (s : State) (a : Nat) (bs : List Byte) : State :=
  (runSectors a bs.length).foldl (fun s sec => writeSector s a bs sec) s

/-- The dirty bit of a guest physical page, set after a write to it (R348). -/
def markDirty (s : State) (ctx gpa : Nat) : State :=
  match s.ctx? ctx with
  | none => s
  | some c =>
    let page := gpa / 65536
    if c.dten && decide (page < c.dirtyn) then
      let a := c.dirty + page / 8
      writeHome s a [s.byte a ||| BitVec.ofNat 8 (2 ^ (page % 8))]
    else s

/-- A write of one element, with everything a write does: the bytes, the dirty bit, the reservations (R105, R348). -/
def writeElem (s : State) (l : Loc) (size v : Nat) : State :=
  let s := clearLine (s.writeLoc l 0 size v) l.line
  if l.scr then s else markDirty s l.ctx l.gpa

-- Arithmetic of elements and atomics.

/-- Element `i` of width `w` of a lane's content (R51). -/
def elt (w x i : Nat) : Nat := x / 2 ^ (w * i) % 2 ^ w

/-- A lane's content from its elements, with the union of their flags. -/
def packElts (w : Nat) (f : Nat → Nat × Nat) : Nat → Nat × Nat
  | 0 => (0, 0)
  | n + 1 => let r := packElts w f n; ((f n).1 % 2 ^ w * 2 ^ (w * n) + r.1, r.2 ||| (f n).2)

/-- An operation applied to every element of a lane (R246). -/
def eltwise (t : Ty) (f : Nat → Nat × Nat) : Nat × Nat := packElts t.shape.1 f t.shape.2

/-- An operation on the elements of two lanes. -/
def elt2 (t : Ty) (f : Nat → Nat → Nat × Nat) (a b : Nat) : Nat × Nat :=
  eltwise t fun i => f (elt t.shape.1 a i) (elt t.shape.1 b i)

/-- An operation on the elements of one lane. -/
def elt1 (t : Ty) (f : Nat → Nat × Nat) (a : Nat) : Nat × Nat := eltwise t fun i => f (elt t.shape.1 a i)

/-- An operation on the elements of three lanes. -/
def elt3 (t : Ty) (f : Nat → Nat → Nat → Nat × Nat) (a b c : Nat) : Nat × Nat :=
  eltwise t fun i => f (elt t.shape.1 a i) (elt t.shape.1 b i) (elt t.shape.1 c i)

/-- A signed reading of a width. -/
def sgnOf (bits x : Nat) : Int := if 2 ^ (bits - 1) ≤ x then (x : Int) - 2 ^ bits else x

/-- The new value of an atomic (R103): `x` the operand or the new value, `c` the compare value. -/
def atomNew (op : Aop) (t : Ty) (size old x c : Nat) : Nat :=
  let b := 8 * size
  match op with
  | .add =>
    match t with
    | .f32 | .bf16x2 | .f16x2 =>
      (elt2 t (fun a y => match tyFmt t with
        | some f => fAdd f .rne false (unpack f a) (unpack f y)
        | none => (0, 0)) old x).1
    | _ => (old + x) % 2 ^ b
  | .and => old &&& x
  | .or => old ||| x
  | .xor => old ^^^ x
  | .min => if tySigned t then (if sgnOf b x < sgnOf b old then x else old) else min old x
  | .max => if tySigned t then (if sgnOf b old < sgnOf b x then x else old) else max old x
  | .xchg => x
  | .cas => if old = c then x else old
  | .incw => if x ≤ old then 0 else old + 1

-- The words of copy boxes (R92, R114).

/-- The element type of a COPY_ADD (R110); none for a COPY. -/
def addType (c : Cmd) : Option Ty :=
  if bitsOf c.c3 3 0 ≠ 1 then none
  else some (match bitsOf c.c3 11 8 with
    | 2 => .n32
    | 3 => .f32
    | 4 => .bf16x2
    | 5 => .f16x2
    | _ => .s32)

/-- A word of a copy as it is read (R92, R114): the owner's copy of its line is recalled (R81). -/
def readWord (s : State) (w : CopyWord) : State × Nat :=
  match w.val with
  | some x => (s, x)
  | none => (if w.src.scr then s else recallOwned s (w.src.addr / 128), s.readLoc w.src 4)

/-- Words of a copy moved (R81, R114), in the order given: every L1 copy of a line is gone before it is written. -/
def writeWords (add : Option Ty) : State → List CopyWord → State
  | s, [] => s
  | s, w :: r =>
    let x := readWord s w
    let s := if w.dst.scr then x.1 else dropCopies x.1 (w.dst.addr / 128) none
    let v := match add with
      | none => x.2
      | some t => atomNew .add t 4 (s.readLoc w.dst 4) x.2 0
    writeWords add (writeElem s w.dst 4 v) r

-- What requests have done.

/-- The sector of an element's location: a number that tells sectors apart (R87). -/
def Loc.sector (l : Loc) : Nat := 2 * (l.addr / 32) + (if l.scr then 1 else 0)

/-- The distinct sectors of a request, in lane order (R87). -/
def sectorsOf (r : Req) : List Nat := (r.elems.map fun e => e.loc.sector).eraseDups

/-- Whether every access of a request has performed. -/
def Req.allPerformed (r : Req) : Bool := r.checked && (sectorsOf r).all (r.performed.contains ·)

/-- Whether a remote request has its final status (R212, R218): OK or FAIL. -/
def RReq.final (r : RReq) : Bool :=
  match r.status with
  | some .retry => false
  | some _ => true
  | none => false

/-- A command at a save: its running boxes end, each as a whole, and are counted (R93, R388). -/
def settleCmd (s : State) (u : Nat) (c : Cmd) : State :=
  (c.todo.foldl (fun s x => writeWords (addType c) s x.2) s).setCmd u
    (some { c with boxes := c.boxes ++ c.running, running := [], todo := [] })

/-- The commands of a block's gangs settled. -/
def settleCmds (s : State) (n : Nat) : State :=
  ((tentries s.cmds).filter fun e => e.2.gang / 16 == n && !e.2.running.isEmpty).foldl (fun s e => settleCmd s e.1 e.2) s

end Sys2Proof.Machine
end

