-- ==== Sys2Proof/Machine/Ops.lean ====
section
/-! DEFINITION. The named operations over the state: fault records, taking a trap, and the prologue that every
instruction of a gang goes through. -/

namespace Sys2Proof.Machine

-- Fault records.

/-- The number of records a ring holds (R383). -/
def Ring.capacity (r : Ring) : Nat := if r.base = 0 then 0 else 16 * 2 ^ r.size

/-- The SEQ after one (R382). -/
def nextSeq (n : Nat) : Nat := if n = 0xFFFFFFFF then 1 else n + 1

/-- The pending records of a ring that a record goes before (R396): those of its device STAMP with a higher source number. -/
def recsAfter (s : State) (x : Ring) (r : FRec) : List FRec :=
  (x.pend.reverse.takeWhile fun e => e.dev == s.stamp && decide (r.src < e.src)).reverse

/-- The SEQ that a record takes in a ring (R382, R396). -/
def recSeq (s : State) (x : Ring) (r : FRec) : Nat :=
  match recsAfter s x r with
  | [] => x.seq
  | e :: _ => e.seq

/-- What waits for records of a ring that have each taken the next SEQ (R384, R396). -/
def bumpSeqs (s : State) (ring : Nat) (seqs : List Nat) : State :=
  if seqs.isEmpty then s
  else
    let up (r q : Nat) : Nat := if r = ring ∧ seqs.contains q then nextSeq q else q
    { s with
      waits := s.waits.map fun w => { w with seq := up w.ring w.seq },
      gangs := s.gangs.map fun e => (e.1, e.2.map fun g => { g with hold := match g.hold with
        | .park u r q since b => .park u r (up r q) since b
        | h => h }) }

/-- A record posted to a ring (R383, R396): it joins the pending list, where the records of one device STAMP stand in the order
of their source numbers and their SEQs rise; a KILL or NOTICE record that finds the list full and the ring without space is lost
and sets OVF. -/
def postRec (s : State) (ring : Nat) (r : FRec) : State :=
  let x := s.ring ring
  if decide (2 ≤ r.cls) && decide (64 ≤ x.pend.length) && decide (x.capacity ≤ (x.tail - x.head).toNat) then
    s.setRing ring { x with ovf := true }
  else
    let l := recsAfter s x r
    (bumpSeqs s ring (l.map (·.seq))).setRing ring { x with
      pend := x.pend.take (x.pend.length - l.length) ++ { r with seq := recSeq s x r, dev := s.stamp } ::
        l.map fun e => { e with seq := nextSeq e.seq },
      seq := nextSeq x.seq }

/-- A record with the fields every record has; STAMP is the context's on a VF ring, the device's on the
PF ring (R382). -/
def baseRec (s : State) (ring ctx : Nat) : FRec :=
  { stamp := match s.ctx? ctx with
      | some c => if ring = 64 then s.stamp else s.stamp + c.stoff
      | none => s.stamp,
    seq := 0, src := 0x230, ctx := ctx, cls := 3, cause := 0, sub := 0, gang := 0, stage := 2,
    pc := BitVec.allOnes 64, block := 2 ^ 96 - 1, lanes := 0, aux := 0, addrs := [] }

/-- The ring of a context's virtual function (R383). -/
def ringOf (s : State) (ctx : Nat) : Nat :=
  match s.ctx? ctx with
  | some c => c.vf
  | none => 64

/-- A record about a gang (R382). -/
def gangRec (s : State) (ring key : Nat) (g : Gang) : FRec :=
  match s.block? g.block with
  | some b =>
    { baseRec s ring b.ctx with
      src := b.core, gang := corenum s b * 16 + g.idx, block := b.index,
      pc := match g.split? with | some sp => sp.pc | none => BitVec.allOnes 64 }
  | none => { baseRec s ring 0xFFFF with gang := key % 16 }

/-- A notice about a context (R381): cause, SUB, AUX and the addresses. -/
def notice (s : State) (ring ctx cause sub : Nat) (aux : DWord) (addrs : List DWord) : State :=
  postRec s ring { baseRec s ring ctx with cause, sub, aux, addrs }

-- Matrix tiles, operand buffer and block images.

/-- The key of a tile: core, quarter, bank and tile (R12, R13). -/
def tileKey (core quarter bank tile : Nat) : Nat := (core * 4 + quarter) * 64 + bank * 32 + tile

/-- A tile of zeros. -/
def zeroTile : List (Word × Word) := List.replicate 4096 (0, 0)

/-- A tile. -/
def State.tile (s : State) (k : Nat) : List (Word × Word) := tget zeroTile s.core.tiles k

/-- A tile written by a block. -/
def State.setTile (s : State) (k block : Nat) (t : List (Word × Word)) : State :=
  { s with core := { s.core with tiles := tput zeroTile s.core.tiles k t, owners := tput 0 s.core.owners k (block + 1) } }

/-- The key of an operand-buffer byte. -/
def opKey (core quarter bank byte : Nat) : Nat := (core * 4 + quarter) * 131072 + bank * 65536 + byte

/-- An operand-buffer byte. -/
def State.obyte (s : State) (k : Nat) : Byte := tget 0 s.core.opbuf k

/-- An operand-buffer byte written. -/
def State.setObyte (s : State) (k : Nat) (x : Byte) : State :=
  { s with core := { s.core with opbuf := tput 0 s.core.opbuf k x } }

/-- The quarter of a gang of a block (R28). -/
def quarterOf (b : Block) (idx : Nat) : Nat := (b.q0 + idx) % 4

/-- The byte ranges of the operand buffer that a gang's reservations hold (R285, R287). -/
def resBytes (g : Gang) : List Nat :=
  (tentries g.mat.res).flatMap fun e =>
    (List.range (64 * e.2.len)).map (64 * e.2.base + ·) ++
      (if e.2.mx then (List.range (64 * e.2.ncap)).map (64 * e.2.sbase + ·) else [])

/-- The array's evaluation or reset brought to its end (R322, R324, R325). -/
def finishEval (a : Array) : Array :=
  match a.eval with
  | some (1, _) =>
    { a with eval := none, capture := a.pending, pending := [], bits := a.bits ||| a.pendBits, pendBits := 0, capv := true }
  | some (_, _) => { a with eval := none, dirty := false }
  | none => a

/-- The stores of a block that leave with it (R387, R393): its scratchpad window, the tiles it wrote last
and its operand-buffer ranges. -/
def captureImage (s : State) (n : Nat) (b : Block) : Image :=
  let base := scrKey b.core b.bank b.scrbase
  { scratch := (s.core.scratch.filter fun e => decide (base ≤ e.1) && decide (e.1 < base + 256 * b.need.scratch)).map
      fun e => (e.1 - base, e.2),
    tiles := s.core.tiles.filter fun e => tget 0 s.core.owners e.1 == n + 1,
    opbuf := (blockGangs b n).flatMap fun k =>
      match s.gang? k with
      | none => []
      | some g => (resBytes g).map fun i =>
          let key := opKey b.core (quarterOf b g.idx) b.bank i
          (key, s.obyte key),
    array := if b.need.race && (s.array b.core).owner == some n then some (finishEval (s.array b.core)) else none,
    staging := match b.phase with | .staging i off => some (i, off) | _ => none }

/-- Reservations of every split of a gang cleared (R105). -/
def clearResvs (g : Gang) : Gang := g.mapSplits Split.noResv

/-- Whether a place in a core's scratchpad lies in a block's window (R78). -/
def inWindow (b : Block) (l : Loc) : Bool :=
  l.scr && l.addr / 1048576 == b.core && decide (b.scrbase ≤ l.addr % 524288) &&
    decide (l.addr % 524288 < b.scrbase + 256 * b.need.scratch)

/-- The core of a gang's block, by its key. -/
def keyCore (s : State) (key : Nat) : Nat := match s.block? (key / 16) with | some b => b.core | none => 0

/-- The context of a gang's block, by its key. -/
def keyCtx (s : State) (key : Nat) : Nat := match s.block? (key / 16) with | some b => b.ctx | none => 0

/-- The virtual function of a context. -/
def ctxVf (s : State) (ctx : Nat) : Option Nat := (s.ctx? ctx).map (·.vf)

/-- The virtual function of a gang's context, by its key. -/
def keyVf (s : State) (key : Nat) : Option Nat := ctxVf s (keyCtx s key)

/-- The queue of a place (R166): the port of a core, the die store or the CXL port of a home, and at a channel that of the
virtual function (R345). -/
def queueOf (s : State) (gang sec stage : Nat) : Nat :=
  let a := sec / 2 * 32
  if stage = 0 then keyCore s gang
  else if stage = 1 then 1024 + a / 256 % 4
  else if stage = 2 then 4096 + channelOf a * 64 + (keyVf s gang).getD 0
  else 1028 + a / 256 % 4

/-- Where entries that have not bounced stand in the queues past the cores' (R166): the entry, its gang and the place. -/
def placesNow (s : State) : List (Nat × Nat × Place) :=
  ((tentries s.reqs).flatMap fun e => if e.2.bounced then [] else
    (e.2.places.filter fun p => !e.2.performed.contains p.sec).map fun p => (e.1, e.2.gang, p)) ++
  ((tentries s.cmds).filterMap fun e => if e.2.bounced then none else e.2.way.map fun p => (e.1, e.2.gang, p)) ++
  ((tentries s.engOps).filterMap fun e => if e.2.bounced then none else e.2.way.map fun p => (e.1, e.2.gang, p))

/-- Entries leave the queues in which they stand (R167): who comes next in a queue whose head has left is at the head from now
on. -/
def departs (s : State) (f : Nat → Bool) : State :=
  let all := placesNow s
  (all.filter fun e => f e.1).foldl (fun t e =>
    let q := queueOf s e.2.1 e.2.2.sec e.2.2.stage
    if all.any fun x => !f x.1 && queueOf s x.2.1 x.2.2.sec x.2.2.stage == q &&
        (decide (x.2.2.since < e.2.2.since) || (x.2.2.since == e.2.2.since && decide (x.2.2.order < e.2.2.order))) then t
    else { t with leftAt := tput 0 t.leftAt q s.cycle }) s

/-- Requests that have passed their checks and have not performed bounced with cause SWAP, no bounce counted (R79, R388). -/
def bounceSwap (s : State) (f : Req → Bool) : State :=
  let out (r : Req) : Bool := r.checked && !r.bounced && !r.allPerformed && f r
  let s := departs s fun u => match s.req? u with | some r => out r | none => false
  { s with reqs := s.reqs.map fun e => (e.1, e.2.map fun r =>
      if out r then { r with bounced := true, cause := 6, since := s.cycle } else r) }

/-- The next accesses of a block's commands and engines leave the queues past the engines' (R167, R387, R388). -/
def clearWays (s : State) (n : Nat) : State :=
  let s := departs s fun u => match s.cmd? u, s.engOp? u with
    | some c, _ => c.gang / 16 == n
    | none, some x => x.gang / 16 == n
    | none, none => false
  { s with
    cmds := s.cmds.map fun e => (e.1, e.2.map fun c => if c.gang / 16 = n then { c with way := none } else c),
    engOps := s.engOps.map fun e => (e.1, e.2.map fun x => if x.gang / 16 = n then { x with way := none } else x) }

/-- The PEER accesses of a block, and those of others to its window, wait in their replay stores while it is out (R79, R388). -/
def bouncePeer (s : State) (n : Nat) : State :=
  match s.block? n with
  | none => s
  | some b => bounceSwap s fun r => r.space == .peer &&
      (r.gang / 16 == n || r.elems.any fun e => inWindow b e.loc && e.loc.addr / 524288 % 2 == b.bank &&
        !r.performed.contains e.loc.sector)

/-- What of a block's accesses, its engines' too, has not performed when the block is saved: it is saved in the replay stores, and
reissued at the restore (R388, R394). -/
def bounceRest (s : State) (n : Nat) : State :=
  let s := bounceSwap s fun r => r.gang / 16 == n && r.space != .engine
  { s with engOps := s.engOps.map fun e => (e.1, e.2.map fun x =>
      if x.gang / 16 = n ∧ !x.bounced then { x with bounced := true, cause := 6, since := s.cycle } else x) }

/-- Entries out of every aged list (R172): their held slots pass on. -/
def unageAll (s : State) (f : Nat → Bool) : State :=
  { s with aged := (s.aged.map fun e => (e.1, e.2.filter fun u => !f u)).filter fun e => !e.2.isEmpty }

/-- An entry out of every aged list. -/
def unage (s : State) (u : Nat) : State := unageAll s (· == u)

/-- An entry recorded as aged at the resource where it last bounced, from its eighth bounce on (R172): it keeps its place
in that resource's list, and leaves another's. -/
def ageAt (s : State) (key u n : Nat) : State :=
  if decide (n < 8) || (tget [] s.aged key).contains u then s
  else
    let s := unage s u
    { s with aged := tput [] s.aged key (tget [] s.aged key ++ [u]) }


/-- Sectors that gangs have read early are forgotten (R97, R107, R127, R133). -/
def dropAhead (s : State) (f : Nat → Nat → Bool) : State :=
  { s with ahead := s.ahead.filter fun x => !f x.gang x.sector }

/-- The block of the gang that an entry belongs to. -/
def entryBlock (s : State) (u : Nat) : Option Nat :=
  match s.engOp? u, s.req? u, s.rreq? u, s.cmd? u with
  | some x, _, _, _ => some (x.gang / 16)
  | none, some r, _, _ => some (r.gang / 16)
  | none, none, some r, _ => some (r.gang / 16)
  | none, none, none, some c => some (c.gang / 16)
  | none, none, none, none => none

/-- Whether an entry belongs to a gang of a block. -/
def entryOf (s : State) (n u : Nat) : Bool := entryBlock s u == some n

/-- Whether a block is resident: placed and not swapped out (R30, R387). -/
def Block.resident (b : Block) : Bool :=
  match b.phase with
  | .swapped _ _ => false
  | .stopped => false
  | _ => true

/-- Whether an entry is saved with its owner: the block is not in the foreground (R172, R175). -/
def entrySaved (s : State) (u : Nat) : Bool :=
  match (entryBlock s u).bind s.block? with
  | some b => !(b.resident && foreground s b)
  | none => true

/-- Entries saved while a slot is held for them, the first of their lists that are not saved, lose it (R172, R175): the slot
passes to the next entry, and they join the tails of their lists at the restore. Entries without a held slot keep their
places. -/
def loseSlots (s : State) (f : Nat → Bool) : State :=
  { s with aged := (s.aged.map fun e =>
      let pre := e.2.takeWhile fun u => f u || entrySaved s u
      (e.1, (pre.filter fun u => !f u) ++ e.2.drop pre.length)).filter fun e => !e.2.isEmpty }

/-- Whether a place in a scratchpad belongs to a window of a context whose block is out or not filled yet, and to no block of
it that is there (R79). -/
def placeAway (s : State) (ctx : Nat) (l : Loc) : Bool :=
  let here := (tentries s.blocks).filter fun e => e.2.ctx == ctx && inWindow e.2 l
  !here.isEmpty && here.all fun e => !e.2.resident || e.2.phase == .returned

/-- The launches of a context compete again, once a block of it has given up its resources (R157). -/
def unbar (s : State) (ctx : Nat) : State :=
  { s with launches := s.launches.map fun e => (e.1, e.2.map fun l => if l.ctx = ctx then { l with barred := false } else l) }

/-- The array of a core back as nothing owns it, if the block owns it (R312). -/
def freeArray (s : State) (n : Nat) (b : Block) : State :=
  if (s.array b.core).owner == some n then s.setArray b.core arrayDefault else s

/-- The stores of a block freed once its image is kept (R387). -/
def freeStores (s : State) (n : Nat) (b : Block) (img : Image) : State :=
  let s := freeArray s n b
  { s with core := { s.core with
    scratch := s.core.scratch.filter fun e =>
      !(decide (scrKey b.core b.bank b.scrbase ≤ e.1) && decide (e.1 < scrKey b.core b.bank b.scrbase + 256 * b.need.scratch)),
    tiles := s.core.tiles.filter fun e => tget 0 s.core.owners e.1 != n + 1,
    opbuf := s.core.opbuf.filter fun e => !(img.opbuf.any fun f => f.1 == e.1) } }

/-- What a save does to a block's entries before its boxes end (R79, R387, R388): nothing of a block that its context's stop takes
out performs any more (R350, R385). -/
def saveEntries (s : State) (n : Nat) (ph : Phase) : State :=
  clearWays (if ph = .stopped then bounceRest s n else bouncePeer s n) n

/-- A block swapped out (R387): its work settles, its image is kept, its stores are freed, and its entries lose
their held slots (R175). Of a block that is out already only the phase changes. -/
def swapOut (s : State) (n : Nat) (ph : Phase) : State :=
  match s.block? n with
  | none => s
  | some b =>
    if !b.resident || b.phase == .returned then
      let s := if b.phase = .returned then freeArray s n b else s
      (if ph = .stopped then bounceRest s n else s).setBlock n { b with phase := ph }
    else
      let s := settleCmds (saveEntries s n ph) n
      let s := dropAhead (loseSlots s (entryOf s n)) fun k _ => k / 16 == n
      let img := captureImage s n b
      let s := unbar ((freeStores s n b img).setBlock n { b with phase := ph, image := some img }) b.ctx
      (blockGangs b n).foldl (fun s k => s.modGang k clearResvs) s

/-- The current split of a gang moves its PC. -/
def Gang.setPc (g : Gang) (pc : DWord) : Gang :=
  match g.split? with
  | some sp => g.setSplit { sp with pc := pc }
  | none => g

/-- The lane detail of a failed lane (R392). -/
def failDetail (addr : DWord) (peer cause : Nat) : LaneDetail := ⟨addr, 0, peer, cause, 1⟩

/-- The lane detail of a PROTECTION trap (R380): every lane it names, with the faulting address. -/
def detailOf (cause sub : Nat) (lanes : Lanes) (addrs : List DWord) : Tab LaneDetail :=
  if cause = 3 then (laneList lanes).map fun l => (l, failDetail (addrs.headD 0) 0 sub) else []

/-- TAKING A TRAP (R379, R380): the gang stops with its PC where it stands, the record goes to the virtual
function's ring, the block is swapped out and the context is TRAPPED. -/
def takeTrap (s : State) (key cause sub : Nat) (aux : DWord) (lanes : Lanes) (addrs : List DWord)
    (skip : Option Nat) : State :=
  match s.gang? key with
  | none => s
  | some g =>
    match s.block? g.block with
    | none => s
    | some b =>
      let ring := ringOf s b.ctx
      let s := postRec s ring { gangRec s ring key g with cls := 0, cause, sub, aux, lanes, addrs }
      let s := s.setGang key { clearResvs g with
        stopped := some ⟨cause, sub, skip⟩, hold := .none, detail := detailOf cause sub lanes addrs }
      let s := swapOut s g.block (.swapped true false)
      s.modCtx b.ctx fun c => { c with state := .trapped, ntrap := c.ntrap + 1 }

/-- The trap codes of R379. -/
def tIllegal : Nat := 1
def tBoundary : Nat := 2
def tProtection : Nat := 3
def tScope : Nat := 4
def tConvergence : Nat := 5
def tStale : Nat := 6
def tUnhandled : Nat := 7
def tRemoteLoad : Nat := 8
def tRemoteStore : Nat := 9
def tEngine : Nat := 10
def tTrap : Nat := 11

-- Scheduling within a gang.

/-- The next ready split after the current one, in table order (R162). -/
def nextReady (g : Gang) : Option Nat :=
  ((List.range 7).map fun i => (g.cur + 1 + i) % 8).find? fun i =>
    match tget none g.splits i with
    | some sp => sp.wait == .ready && !g.sched.stuck.contains sp.uid && sp.windows.all fun w => w.done || decide (0 < w.left)
    | none => false

/-- The gang switched to its next ready split, if there is one (R162); the fairness timer restarts. -/
def switchSplit (g : Gang) : Gang :=
  match nextReady g with
  | some i => { g with cur := i, fair := 0, fairDefer := none }
  | none => g

-- The prologue.

/-- What an instruction names and needs, for the checks that come before its effect. -/
structure Use where
  /-- Every vector register it names, odd halves of pairs included. -/
  v : List Nat := []
  /-- Every uniform register it names. -/
  k : List Nat := []
  /-- It needs a block with RACE = 1 (R38, R312). -/
  race : Bool := false
  /-- A guard slot it names (R122). -/
  guard : Nat := 0
  /-- The scope it uses (R55). -/
  scope : Option Scope := none
  /-- It is an instruction of the matrix engine: it needs the collective condition (R282), follows its stream (R283), and
  reads what an acquire or a barrier before it makes visible (R292). -/
  coll : Bool := false
  /-- The counter it raises: 0 none, 1 LCNT, 2 SCNT (R89). -/
  count : Nat := 0
  /-- The throttle of R170 stops it. -/
  throttled : Bool := false
  /-- It is long-latency (R58). -/
  long : Bool := false
  /-- It closes the split's windows (R59). -/
  close : Bool := false
  /-- It waits for the split's long-latency instructions without closing windows (R274). -/
  drain : Bool := false
  /-- It reads at issue, as a load of its split at CORE scope (R135). -/
  reads : Bool := false
  /-- It joins the Millrace's queue (R314). -/
  arr : Bool := false
  /-- It reads the Millrace's state after everything before it (R314). -/
  arrIdle : Bool := false

/-- The widest scope code a gang's virtual function may use (R126). -/
def policy (s : State) (b : Block) : Nat :=
  match s.ctx? b.ctx with
  | some c => (s.vf c.vf).vpol
  | none => 3

/-- The code of a scope (R55). -/
def scopeCode : Scope → Nat
  | .gang => 0 | .core => 1 | .cluster => 2 | .tenant => 3 | .device => 4 | .system => 5

/-- The number of replay entries a gang holds (R134, R168, R170): those that have bounced, and the stores that one of
them carries with it. -/
def replayCount (s : State) (key : Nat) : Nat :=
  ((tentries s.reqs).filter fun e => e.2.gang == key && (e.2.bounced || (e.2.chained && !e.2.allPerformed))).length +
  ((tentries s.rreqs).filter fun e => e.2.gang == key && (e.2.bounced || (e.2.chained && !e.2.final))).length

/-- The numbers of the deliveries that a multicast MLD sends once its reads have performed (R291): the eight after its own. -/
def EngOp.copies (x : EngOp) (u : Nat) : List Nat :=
  match x.goal with
  | .fill _ true _ _ _ _ => (List.range 8).map (u + 1 + ·)
  | _ => []

/-- Whether a number names a request that has performed, or is no longer outstanding; an entry of an engine is
outstanding until its access performs, and a multicast delivery until it arrives. -/
def performedUid (s : State) (u : Nat) : Bool :=
  match s.req? u with
  | some r => r.allPerformed
  | none =>
    match s.rreq? u with
    | some r => r.final
    | none => (s.engOp? u).isNone && !s.deliveries.any (·.uid == u) && !(tentries s.engOps).any fun e => (e.2.copies e.1).contains u

/-- Whether every one of a list of requests has performed. -/
def depsDone (s : State) (l : List Nat) : Bool := l.all (performedUid s)

/-- Whether a request reads for its split. -/
def Req.loadLike (r : Req) : Bool :=
  match r.kind with
  | .load _ => true
  | .lr => true
  | .atom _ _ ret => ret
  | _ => false

/-- Whether a scope performs in the L1 (R80). -/
def Scope.atCore : Scope → Bool := fun x => x == .gang || x == .core

/-- The accesses of an engine that a gang has pending (R168, R283). -/
def engPending (s : State) (key : Nat) : List (Nat × EngOp) := (tentries s.engOps).filter fun e => e.2.gang == key

/-- Whether a read that acts at issue as a load at CORE scope may act (R97, R127, R129, R135): the split's
fences and acquires, its older loads at CORE scope and the gang's older atomics are done. -/
def coreReadReady (s : State) (key : Nat) (sp : Split) : Bool :=
  depsDone s sp.ldDeps && (engPending s key).isEmpty && !(tentries s.reqs).any fun e => e.2.gang == key && !e.2.allPerformed &&
    (((e.2.split == sp.uid || sp.elder.contains e.1) && Scope.atCore e.2.scope && e.2.loadLike && e.2.space != .engine) ||
      (match e.2.kind with | .atom _ _ _ => true | .sc => true | _ => false))

/-- The multicast deliveries of a gang that have not arrived, sent or still to be sent, by number: they are stores of the
gang (R292). -/
def deliveriesOf (s : State) (key : Nat) : List Nat :=
  (s.deliveries.filter fun x => x.gang == key).map (·.uid) ++ (engPending s key).flatMap fun e => e.2.copies e.1

/-- What the prologue finds. -/
inductive Gate where
  | go
  | stall
  | trap (cause : Nat)
  deriving DecidableEq, Repr

/-- Whether a split's windows hold the next instruction back (R57 to R59). -/
def windowsHold (sp : Split) (u : Use) : Bool :=
  sp.windows.any (fun w => !w.done && (w.left == 0 || u.close || u.drain)) ||
    (u.long && decide (8 ≤ (sp.windows.filter fun w => !w.done).length))

/-- The collective condition of the matrix engine (R282). -/
def collective (g : Gang) (sp : Split) : Bool :=
  g.splitList.length == 1 && g.deferred.isEmpty && sp.exm == g.live

/-- Whether the array has come to an SRD of a split (R314): nothing is before it, and no evaluation runs. -/
def arrTurn (a : Array) (key : Nat) (sp : Split) : Bool :=
  a.eval.isNone && (match a.queue with | [] => true | op :: _ => op == .hold key sp.uid)

/-- Whether a higher quarter has put an instruction into the array's queue in this cycle already (R314). -/
def arrLate (s : State) (b : Block) (g : Gang) : Bool :=
  match (s.array b.core).pushed with
  | some (c, q) => c == s.cycle && decide (g.sched.quarter < q)
  | none => false

/-- The checks and waits before an instruction's effect, in the order of R65. -/
def gate (s : State) (key : Nat) (b : Block) (g : Gang) (sp : Split) (u : Use) : Gate :=
  if b.phase != .running || !foreground s b || g.hold != .none || g.stopped.isSome || sp.wait != .ready || windowsHold sp u then .stall
  else if u.v.any (b.need.vregs ≤ ·) || u.k.any (b.need.kregs ≤ ·) || (u.race && !b.need.race)
      || decide (b.need.guards < u.guard) then .trap tIllegal
  else if (match u.scope with | some x => decide (policy s b < scopeCode x) | none => false) then .trap tScope
  else if (u.count == 1 && decide (63 ≤ g.regs.lcnt)) || (u.count == 2 && decide (63 ≤ g.regs.scnt))
      || (u.throttled && decide (16 ≤ replayCount s key)) || (u.reads && !coreReadReady s key sp)
      || (u.arr && (decide (16 ≤ (s.array b.core).queue.length) || arrLate s b g))
      || (u.arrIdle && (!arrTurn (s.array b.core) key sp || ((s.array b.core).queue.isEmpty && arrLate s b g)))
      || (u.coll && (!(engPending s key).isEmpty || !depsDone s sp.ldDeps)) then .stall
  else if u.coll && !collective g sp then .trap tConvergence
  else .go

/-- The context's WRDCNT raised by one; it stops at its largest value (R60). -/
def countRead (s : State) (ctx : Nat) : State :=
  s.modCtx ctx fun c => if c.wrdcnt = BitVec.allOnes 64 then c else { c with wrdcnt := c.wrdcnt + 1 }

/-- Whether an instruction names a register that a window it lies in writes (R60). DESIGN CHOICE (log 66): a window counts as
long as it has further instructions to come, so the one that closes it, and an FSTAT within it, count too. -/
def namesPending (sp : Split) (u : Use) : Bool :=
  sp.windows.any fun w => decide (0 < w.left) && (u.v.any (w.dv.contains ·) || u.k.any (w.dk.contains ·))

/-- A split's windows after one more instruction (R58, R59). -/
def stepWindows (sp : Split) (u : Use) : Split :=
  if u.close then { sp with windows := [] }
  else { sp with windows :=
    (sp.windows.map fun w => { w with left := w.left - 1 }).filter (fun w => !w.done || decide (0 < w.left)) }

/-- The gang's counts after an instruction of a split issues (R158 to R162, R376), and the split's windows as they were
(R65). -/
def stepGang (s : State) (g : Gang) (sp : Split) : Gang :=
  { g with
    fair := g.fair + 1,
    fairDefer := g.fairDefer.map (· + 1),
    sched := { g.sched with
      lastIssue := s.cycle, boost := false, waitSince := s.cycle, issued := some s.cycle,
      raised := g.sched.raised.filter (· != sp.uid), before := sp.windows, wrdDue := false } }

/-- The split windows as they were before an instruction that is taken back (R65): what has completed meanwhile stays
complete. -/
def windowsBack (before now : List Window) : List Window :=
  (before.map fun w => match now.find? (·.op == w.op) with
    | some x => { w with done := x.done }
    | none => { w with done := true }).filter fun w => !w.done || decide (0 < w.left)

/-- The counts of a gang as they were before an instruction that is taken back (R65). -/
def unstepGang (g : Gang) : Gang :=
  { g with fair := g.fair - 1, fairDefer := g.fairDefer.map (· - 1), sched := { g.sched with wrdDue := false } }

/-- What becomes of the count of R60 when an instruction that names a pending register has issued: nothing where it
trapped or will issue again, at once where it went on, and later where its checks are not over. -/
inductive ReadCount where
  | drop | now | later
  deriving DecidableEq, Repr

/-- Whether a gang has stopped at a trap, or holds its current instruction back (R60, R85). -/
def readCount (s : State) (key : Nat) : ReadCount :=
  match s.gang? key with
  | some g =>
    if g.stopped.isSome then .drop
    else match g.hold with
      | .walk n => if n = 0 then .drop else .later
      | .park n _ _ _ _ => if n = 0 then .drop else .later
      | .remote _ _ => .later
      | .none => .now
  | none => .now

/-- The count of R60 for an instruction that names a pending register. -/
def settleRead (s : State) (key ctx : Nat) : State :=
  match readCount s key with
  | .drop => s
  | .now => countRead s ctx
  | .later => s.modGang key fun g => { g with sched := { g.sched with wrdDue := true } }

/-- A gang's held instruction goes on: its read counts if it is due (R60). -/
def countDue (s : State) (key ctx : Nat) : State :=
  match s.gang? key with
  | some g =>
    if g.sched.wrdDue then
      countRead (s.modGang key fun g => { g with sched := { g.sched with wrdDue := false } }) ctx
    else s
  | none => s

/-- THE PROLOGUE of every instruction of a gang: without an issuing gang there is nothing to do it (a
fault); an instruction that cannot issue yet, or whose own condition does not hold yet, leaves the state but for
the switch of R162; a cause of steps 4 and 5 of R65 traps; else the body has the state, the gang's key, the gang
and its current split. -/
def issueWhen (s : State) (u : Use) (skip : Nat) (ready : State → Nat → Gang → Split → Block → Bool)
    (body : State → Nat → Gang → Split → State) : Out :=
  match s.cur with
  | none => .fault .noGang
  | some key =>
    match s.gang? key with
    | none => .fault .noGang
    | some g =>
      match g.split?, s.block? g.block with
      | some sp, some b =>
        match gate s key b g sp u with
        | .stall => .next (s.setGang key (switchSplit g))
        | .trap c => .next (takeTrap s key c 0 0 sp.exm [] (some skip))
        | .go =>
          if ready s key g sp b then
            let r := body s key (stepGang s g sp) (stepWindows sp u)
            .next (if namesPending sp u then settleRead r key b.ctx else r)
          else .next (s.setGang key (switchSplit g))
      | _, _ => .fault .noGang

/-- The prologue of an instruction with no condition of its own. -/
def issue (s : State) (u : Use) (skip : Nat) (body : State → Nat → Gang → Split → State) : Out :=
  issueWhen s u skip (fun _ _ _ _ _ => true) body

/-- The gang and its current split put back. -/
def commit (s : State) (key : Nat) (g : Gang) (sp : Split) : State := s.setGang key (g.setSplit sp)

/-- The gang and its split put back with the PC past the instruction. -/
def retire (s : State) (key : Nat) (g : Gang) (sp : Split) (size : Nat) : State :=
  commit s key g { sp with pc := sp.pc + dw size }

/-- An instruction that changes only its gang's registers and its own split. -/
def localOp (s : State) (u : Use) (size : Nat) (f : State → Gang → Split → Gang × Split) : Out :=
  issue s u size fun s key g sp =>
    let r := f s g sp
    retire s key r.1 r.2 size

/-- A lookahead window opened (R57); one with nothing to wait for is complete from the start. -/
def openWindow (sp : Split) (op la : Nat) (done : Bool) (dv dk : List Nat) : Split :=
  if done && la == 0 then sp else { sp with windows := sp.windows ++ [⟨op, la, done, dv, dk⟩] }

/-- A window's instruction is complete, in whatever split of the gang holds it (R57). -/
def closeWindow (g : Gang) (op : Nat) : Gang :=
  g.mapSplits fun sp => { sp with windows := (sp.windows.map fun w =>
    if w.op = op then { w with done := true } else w).filter fun w => !w.done || decide (0 < w.left) }

/-- A pending effect put in its place by ID (R376). -/
def insertEff (e : PendEff) : List PendEff → List PendEff
  | [] => [e]
  | x :: r => if e.id < x.id then e :: x :: r else x :: insertEff e r

/-- A pending system effect of a split merged with one of the same ID: lanes united, FPX payloads ORed (R376). -/
def addEffect (sp : Split) (id : Nat) (m : Lanes) (payload : VVal) (whole : Bool := false) : Split :=
  match sp.eff.find? (·.id == id) with
  | none => { sp with eff := insertEff { id := id, lanes := m, payload := payload, whole := whole } sp.eff }
  | some e =>
    let n : PendEff := { e with
      lanes := e.lanes ||| m, whole := e.whole || whole,
      payload := lanes64 fun l => if id = 1 then lane e.payload l ||| lane payload l
        else if inLanes m l then lane payload l else lane e.payload l }
    { sp with eff := sp.eff.map fun x => if x.id = id then n else x }

/-- The place in the table of the split with a number (R34, R65): where it is current when it acts again. -/
def Gang.turnTo (g : Gang) (uid : Nat) : Gang :=
  match g.splitList.find? fun e => e.2.uid == uid with
  | some e => { g with cur := e.1 }
  | none => g

/-- A change to the split with a number, wherever the gang holds it. -/
def Gang.modSplit (g : Gang) (uid : Nat) (f : Split → Split) : Gang :=
  g.mapSplits fun sp => if sp.uid = uid then f sp else sp

end Sys2Proof.Machine
end

