-- ==== Sys2Proof/Machine/Flags.lean ====
section
/-! DEFINITION. FSR and FCR (R239, R242), how an instruction's flags are merged (R241) and how they raise
FPX (R243). -/

namespace Sys2Proof.Machine

/-- The dynamic rounding mode, FCR.RM (R242). -/
def fcrMode (fcr : DWord) : RMode :=
  match fcr.toNat % 4 with
  | 0 => .rne
  | 1 => .rz
  | 2 => .rd
  | _ => .ru

/-- The mode an RM field names (R234, R248). -/
def resolveRm (g : Regs) : Rm → RMode
  | .dyn => fcrMode g.fcr
  | .rne => .rne
  | .rz => .rz
  | .rd => .rd
  | .ru => .ru

/-- FCR.FTZ (R242). -/
def ftzOf (g : Regs) : Bool := bitOf g.fcr 2

/-- The flags whose enable bits are set, in FSR positions (R242). -/
def enabledFlags (g : Regs) : Nat := bitsOf g.fcr 14 8

/-- FSR as written whole: its reserved bits read zero (R239). -/
def fsrWrite (x : DWord) : DWord := x &&& 0x7F#64

/-- FCR as written: a write to a reserved field is ignored (R242). -/
def fcrWrite (x : DWord) : DWord := x &&& 0x7F07#64

/-- Flags ORed into FSR (R241). -/
def mergeFsr (g : Gang) (fl : Nat) : Gang :=
  { g with regs := { g.regs with fsr := g.regs.fsr ||| fsrWrite (dw fl) } }

/-- All the flags that some lane sets. -/
def allFlags (fl : List (Nat × Nat)) : Nat := fl.foldl (fun a e => a ||| e.2) 0

/-- FPX raised to a split for the lanes that set an enabled flag (R243). -/
def raiseFpx (sp : Split) (en : Nat) (fl : List (Nat × Nat)) : Split :=
  let hit := fl.filter fun e => e.2 &&& en != 0
  if hit.isEmpty then sp
  else addEffect sp 1 (laneSet fun l => hit.any fun e => e.1 == l)
    (lanes64 fun l => match hit.find? (fun e => e.1 == l) with
      | some e => BitVec.ofNat 32 (e.2 &&& en)
      | none => 0)

/-- An instruction's flags merged at issue, and FPX raised (R241, R243). -/
def finishFlags (g : Gang) (sp : Split) (fl : List (Nat × Nat)) : Gang × Split :=
  (mergeFsr g (allFlags fl), raiseFpx sp (enabledFlags g.regs) fl)

end Sys2Proof.Machine
end

