-- ==== Sys2Proof/Machine/Operands.lean ====
section
/-! DEFINITION. Operands: elements of lanes (R51, R52), effective addresses and their checks (R78, R83, R95),
and translation (R82 to R86). -/

namespace Sys2Proof.Machine

/-- The registers of a vector operand of a type (R52). -/
def vr (t : Ty) (r : Nat) : List Nat := if t.wide then [r, r + 1] else [r]

/-- The content of a lane as a number: 32 bits, or the pair's 64 (R52). -/
def Regs.lane (g : Regs) (t : Ty) (r l : Nat) : Nat :=
  let lo := (Machine.lane (g.vget r) l).toNat
  if t.wide then lo + 4294967296 * (Machine.lane (g.vget (r + 1)) l).toNat else lo

/-- The content of a lane of one 32-bit register. -/
def Regs.lane1 (g : Regs) (r l : Nat) : Nat := (Machine.lane (g.vget r) l).toNat

/-- Lanes of a register, or of a pair, written (R52). -/
def Regs.putLanes (g : Regs) (wide : Bool) (d : Nat) (m : Lanes) (f : Nat → Nat) : Regs :=
  let g1 := g.vlanes d m fun l => BitVec.ofNat 32 (f l)
  if wide then g1.vlanes (d + 1) m fun l => BitVec.ofNat 32 (f l / 4294967296) else g1

/-- A lane instruction that is not long-latency: it writes one register of the active lanes and merges its
flags at issue (R46, R241, R246). -/
def vecOp (s : State) (u : Use) (p : Pred) (wide : Bool) (d size : Nat)
    (f : Regs → Nat → Nat × Nat) : Out :=
  localOp s u size fun _ g sp =>
    let m := activeLanes g sp p
    let fl := (laneList m).map fun l => (l, (f g.regs l).2)
    finishFlags { g with regs := g.regs.putLanes wide d m fun l => (f g.regs l).1 } sp fl

/-- A long-latency instruction other than a load (R57): its results are fixed at issue, its window opens and
a long operation is left to write them. With nothing to write it is complete at once. -/
def startLong (s : State) (key : Nat) (g : Gang) (sp : Split) (la size : Nat) (dv dk : List Nat)
    (vs : List (Nat × Nat × Word)) (ks : List (Nat × DWord)) (fl : List (Nat × Nat)) : State :=
  if vs.isEmpty && ks.isEmpty then retire s key g (openWindow sp 0 la true dv dk) size
  else
    let u := s.uid
    let op : LongOp := { gang := key, split := sp.uid, vs := vs, ks := ks, flags := fl,
                         en := enabledFlags g.regs, array := false }
    let s := { s with uid := u + 1, longs := tput none s.longs u (some op) }
    retire s key g (openWindow sp u la false dv dk) size

/-- The lanes of a long-latency vector result as register, lane and value. -/
def longLanes (wide : Bool) (d : Nat) (m : Lanes) (f : Nat → Nat) : List (Nat × Nat × Word) :=
  (laneList m).flatMap fun l =>
    if wide then [(d, l, BitVec.ofNat 32 (f l)), (d + 1, l, BitVec.ofNat 32 (f l / 4294967296))]
    else [(d, l, BitVec.ofNat 32 (f l))]

-- Translation.

/-- What a stage of a walk finds. -/
inductive Walk where
  | page (addr : Nat) (x w rd : Bool)
  | absent
  | hostAbsent (gpa : Nat)
  | malformed
  deriving DecidableEq, Repr

/-- The lowest virtual bit of a level (R82). -/
def levelShift (l : Nat) : Nat := [16, 21, 30, 39, 48, 57].getD l 57

/-- The number of entries of a level's table (R82). -/
def levelEntries (l : Nat) : Nat := [32, 512, 512, 512, 512, 128].getD l 128

/-- The address bits [51:8] of an entry (R83). -/
def entryAddr (e : DWord) : Nat := bitsOf e 51 8 * 256

/-- Whether an entry with V = 1 is malformed for its level, backing aside (R83). -/
def entryBad (l : Nat) (e : DWord) : Bool :=
  bitsOf e 63 52 != 0 || bitsOf e 7 5 != 0 || (bitOf e 4 && decide (3 ≤ l)) || (!bitOf e 4 && l == 0)
    || (bitOf e 4 && entryAddr e % 2 ^ levelShift l != 0)

/-- The host stage: a guest physical address to a device physical one (R82, R83). -/
def hostWalk (s : State) (gpa : Nat) : Nat → Nat → Walk
  | l, base =>
    let e := dw (s.readPhys (base + 8 * (gpa / 2 ^ levelShift l % levelEntries l)) 8)
    if !bitOf e 0 then .absent
    else if entryBad l e then .malformed
    else if bitOf e 4 then
      if backed (entryAddr e) (2 ^ levelShift l) then
        .page (entryAddr e + gpa % 2 ^ levelShift l) (bitOf e 3) (bitOf e 2) (bitOf e 1)
      else .malformed
    else
      match l with
      | 0 => .malformed
      | l' + 1 => if backed (entryAddr e) (8 * levelEntries l') then hostWalk s gpa l' (entryAddr e) else .malformed

/-- The guest stage: a virtual address to a guest physical one; every table read goes through the host stage (R82). -/
def guestWalk (s : State) (hroot va : Nat) : Nat → Nat → Walk
  | l, base =>
    let ga := base + 8 * (va / 2 ^ levelShift l % levelEntries l)
    match hostWalk s ga 5 hroot with
    | .page pa _ _ _ =>
      let e := dw (s.readPhys pa 8)
      if !bitOf e 0 then .absent
      else if entryBad l e then .malformed
      else if bitOf e 4 then .page (entryAddr e + va % 2 ^ levelShift l) (bitOf e 3) (bitOf e 2) (bitOf e 1)
      else
        match l with
        | 0 => .malformed
        | l' + 1 => guestWalk s hroot va l' (entryAddr e)
    | .absent => .hostAbsent ga
    | .hostAbsent a => .hostAbsent a
    | .malformed => .malformed

/-- The two-stage translation of a virtual page (R82 to R84): the page's frame with the permissions both
stages give, or why there is none, with the permissions of a guest leaf that the walk has found. -/
def translate (s : State) (c : Context) (vpn : Nat) : Xlat :=
  match guestWalk s c.hroot (vpn * 65536) 5 c.groot with
  | .malformed => .malformed true true true
  | .absent => .absent 0 (vpn * 65536) true true true
  | .hostAbsent ga => .absent 1 (ga / 65536 * 65536) true true true
  | .page gpa x w rd =>
    match hostWalk s gpa 5 c.hroot with
    | .page pa hx hw hrd => .page pa gpa (x && hx) (w && hw) (rd && hrd)
    | .absent => .absent 1 (gpa / 65536 * 65536) x w rd
    | .hostAbsent a => .absent 1 a x w rd
    | .malformed => .malformed x w rd

/-- The key of a TLB entry: unit (a core, or 256 for the hub), context and virtual page. -/
def tlbKey (unit ctx vpn : Nat) : Nat := (unit * 65536 + ctx) * 281474976710656 + vpn

/-- The TLB's entry for a virtual page. -/
def State.tlbGet (s : State) (unit ctx vpn : Nat) : Option Xlat := tget none s.tlb (tlbKey unit ctx vpn)

/-- A walk started for a page that misses (R86). -/
def startWalk (s : State) (unit ctx vpn : Nat) : State :=
  if s.walks.contains (unit, ctx, vpn) then s else { s with walks := s.walks ++ [(unit, ctx, vpn)] }

-- Checks of accesses.

/-- PROTECTION subcauses (R379). -/
def pBound : Nat := 1
def pPermission : Nat := 2
def pMalformed : Nat := 3
def pAlign : Nat := 4

/-- What the checks of one element find (R78, R83, R86, R95). -/
inductive Chk where
  | ok (l : Loc)
  | miss (vpn : Nat)
  | absent (stage page : Nat)
  | bad (sub : Nat)
  deriving DecidableEq, Repr

/-- The check of a GLOBAL element by a unit. -/
def checkGlobal (s : State) (unit ctx : Nat) (rd w : Bool) (ea : DWord) : Chk :=
  match s.tlbGet unit ctx (ea.toNat / 65536) with
  | none => .miss (ea.toNat / 65536)
  | some (.malformed _ pw prd) => .bad (if (rd && !prd) || (w && !pw) then pPermission else pMalformed)
  | some (.absent st pg _ pw prd) => if (rd && !prd) || (w && !pw) then .bad pPermission else .absent st pg
  | some (.page pa gpa _ pw prd) =>
    if (rd && !prd) || (w && !pw) then .bad pPermission
    else .ok ⟨false, pa / 65536 * 65536 + ea.toNat % 65536, gpa / 65536 * 65536 + ea.toNat % 65536, ctx⟩

/-- The check of an offset in a block's own window (R78). -/
def checkScratch (b : Block) (size : Nat) (ea : DWord) : Chk :=
  if ea.toNat + size ≤ 256 * b.need.scratch then .ok ⟨true, scrKey b.core b.bank (b.scrbase + ea.toNat), 0, 0⟩
  else .bad pBound

/-- The check of a PEER address (R78): inside the window of a resident block of the context on the target core. -/
def checkPeer (s : State) (b : Block) (size : Nat) (ea : DWord) : Chk :=
  let core := b.core / 8 * 8 + bitsOf ea 34 32
  let off := bitsOf ea 31 0
  if bitsOf ea 63 35 != 0 then .bad pBound
  else match (tentries s.blocks).find? fun e =>
      e.2.ctx == b.ctx && e.2.core == core && e.2.resident && decide (e.2.scrbase ≤ off) &&
        decide (off + size ≤ e.2.scrbase + 256 * e.2.need.scratch) with
    | some e => .ok ⟨true, scrKey core e.2.bank off, 0, 0⟩
    | none => .bad pBound

/-- The check of an element in a space. -/
def checkElem (s : State) (b : Block) (sp : Space) (rd w : Bool) (size : Nat) (ea : DWord) : Chk :=
  if ea.toNat % size ≠ 0 then .bad pAlign
  else match sp with
    | .global => checkGlobal s b.core b.ctx rd w ea
    | .scratch => checkScratch b size ea
    | .peer => checkPeer s b size ea
    | .engine => .bad pBound
    | .accum => .bad pBound

/-- The effective address of a lane (R78). -/
def effAddr (g : Regs) (m : MemArg) (l : Nat) : DWord :=
  g.kget m.base + (match m.index with | some v => sx32 (lane (g.vget v) l) | none => 0) + sx32 m.disp

/-- The decision of R86 over all the elements of an instruction. -/
inductive Decision where
  | proceed (ls : List Loc)
  | protect (sub lane : Nat) (ea : DWord)
  | walk (vpns : List Nat)
  | park (stage : Nat) (pages : List Nat)
  deriving DecidableEq, Repr

/-- The distinct absent pages of a stage, in lane order (R86). -/
def absentPages (cs : List Chk) (stage : Nat) : List Nat :=
  (cs.filterMap fun c => match c with
    | .absent st pg => if st = stage then some pg else none
    | _ => none).eraseDups

/-- R86: a failing lane first, then a miss, then an absent page. The elements carry lane and address. -/
def decideChecks (es : List (Nat × DWord)) (cs : List Chk) : Decision :=
  match (es.zip cs).find? (fun e => match e.2 with | .bad _ => true | _ => false) with
  | some (e, .bad sub) => .protect sub e.1 e.2
  | _ =>
    let ms := cs.filterMap fun c => match c with | .miss v => some v | _ => none
    if !ms.isEmpty then .walk ms.eraseDups
    else
      let g0 := absentPages cs 0
      let g1 := absentPages cs 1
      if !g0.isEmpty then .park 0 (g0.take 8)
      else if !g1.isEmpty then .park 1 (g1.take 8)
      else .proceed (cs.filterMap fun c => match c with | .ok l => some l | _ => none)

/-- Walks started for several pages. -/
def startWalks (s : State) (unit ctx : Nat) (vpns : List Nat) : State :=
  vpns.foldl (fun s v => startWalk s unit ctx v) s

/-- A PAGE record posted for a gang or an engine (R86, R381, R382); the answer names the ring and the SEQ. -/
def postPage (s : State) (r : FRec) (ctx stage aux : Nat) (pages : List Nat) : State × Nat × Nat :=
  let ring := if stage = 0 then ringOf s ctx else 64
  let st := match s.ctx? ctx with
    | some c => if ring = 64 then s.stamp else s.stamp + c.stoff
    | none => s.stamp
  (postRec s ring { r with stamp := st, cls := 1, cause := 0, sub := 0, stage := stage, aux := dw aux,
                           addrs := pages.map dw }, ring, recSeq s (s.ring ring) r)

end Sys2Proof.Machine
end

