-- ==== Sys2Proof/Machine/Requests.lean ====
section
/-! DEFINITION. Outstanding memory requests (R86 to R89, R97, R127 to R137, R166 to R173): what a request waits
for, how a sector of it performs and returns, and how it bounces. -/

namespace Sys2Proof.Machine

/-- Whether two elements share a byte. -/
def overlaps (a b : Elem) : Bool :=
  a.loc.scr == b.loc.scr && decide (a.loc.addr < b.loc.addr + b.size) && decide (b.loc.addr < a.loc.addr + a.size)

/-- Whether a request obeys the store rules of R134. -/
def Req.storeLike (r : Req) : Bool :=
  match r.kind with
  | .store => true
  | .atom _ _ _ => true
  | .sc => true
  | _ => false

/-- The outstanding requests of a gang that have not performed, local and remote. -/
def pendingOf (s : State) (key : Nat) : List Nat :=
  ((tentries s.reqs).filter fun e => e.2.gang == key && !e.2.allPerformed).map (·.1) ++
  ((tentries s.rreqs).filter fun e => e.2.gang == key && !performedUid s e.1).map (·.1) ++
  (engPending s key).map (·.1) ++ deliveriesOf s key

/-- Whether an access of an engine writes (R309). -/
def EngOp.writes (x : EngOp) : Bool :=
  match x.goal with
  | .rows _ _ => true
  | _ => false

/-- The acquires of a gang that have not performed, from any split (R97). -/
def acquiresOf (s : State) (key : Nat) : List Nat :=
  ((tentries s.reqs).filter fun e => e.2.gang == key && !e.2.allPerformed && (e.2.ord == .acq || e.2.ord == .ar)).map (·.1) ++
  ((tentries s.rreqs).filter fun e => e.2.gang == key && !e.2.final && e.2.acq).map (·.1)

/-- The requests a new access of a split waits for (R97, R107, R127, R129, R134, R135): the split's fences and acquires,
for a release everything of the gang, the program order of the core scope, and what the gang's engines have to write; a later
store does not wait for what they read (R290, R321). DESIGN CHOICE (log 70): a store at CLUSTER scope or wider does not wait
for an older one of its split at CORE scope. -/
def depsFor (s : State) (key : Nat) (sp : Split) (r : Req) : List Nat :=
  let mine := (tentries s.reqs).filter fun e => e.2.gang == key && !e.2.allPerformed
  let here := mine.filter fun e => e.2.split == sp.uid || sp.elder.contains e.1
  let fence := (if r.loadLike then sp.ldDeps else []) ++ (if r.storeLike then sp.stDeps else [])
  let rel := if r.ord == .rel || r.ord == .ar then pendingOf s key else []
  let atoms := if r.loadLike then
    (here.filter fun e => match e.2.kind with | .atom _ _ ret => ret | _ => false).map (·.1) else []
  let order := if Scope.atCore r.scope then
      (here.filter fun e => Scope.atCore e.2.scope && r.space != .peer && e.2.space != .peer &&
        ((r.loadLike && e.2.loadLike) || r.storeLike)).map (·.1)
    else []
  let engine := ((engPending s key).filter fun e => e.2.writes || (r.loadLike && Scope.atCore r.scope)).map (·.1)
  let eng := if r.space == .engine then
      (mine.filter fun e => e.2.space == .engine ||
        (r.storeLike && e.2.storeLike && (Scope.atCore e.2.scope || e.2.space != .global))).map (·.1) ++
      (if r.storeLike then acquiresOf s key else []) else []
  (fence ++ rel ++ atoms ++ order ++ engine ++ eng).eraseDups

/-- Whether the location order of R127 holds a sector's elements back: an older access of the split, an older atomic of
the gang, an older store of the gang where a load has read this one already, or one that the split has read already, to a
shared byte, unless both read. -/
def locationHeld (s : State) (u : Nat) (r : Req) (sec : Nat) : Bool :=
  let es := r.elems.filter fun e => e.loc.sector == sec
  (tentries s.reqs).any fun x =>
    decide (x.1 < u) && x.2.gang == r.gang && x.2.checked && x.2.space != .engine &&
    (x.2.elems.any fun f => !x.2.performed.contains f.loc.sector && es.any (overlaps f)) &&
    (match x.2.kind, r.kind with
      | .store, .load _ => false
      | .store, .lr => true
      | .store, _ => x.2.split == r.split || r.elder.contains x.1 || !r.readers.isEmpty || x.2.readers.contains r.split
      | .atom _ _ _, _ => true
      | .sc, _ => true
      | _, _ => x.2.split == r.split || r.elder.contains x.1)

/-- Whether an older PEER store of a gang to the core of a scratchpad sector holds a PEER store of it back (R129). -/
def peerHeld (s : State) (u : Nat) (r : Req) (sec : Nat) : Bool :=
  r.space == .peer && r.storeLike && (tentries s.reqs).any fun x =>
    decide (x.1 < u) && x.2.gang == r.gang && x.2.checked && x.2.space == .peer && x.2.storeLike &&
      (sectorsOf x.2).any fun y => y / 65536 == sec / 65536 && !x.2.performed.contains y

/-- Whether a remote request obeys the store rules of R134 (R221). -/
def RReq.storeLike (r : RReq) : Bool :=
  match r.kind with
  | .store _ => true
  | .atom _ _ _ => true
  | _ => false

/-- Whether an older store of a gang that is in the replay store, or follows one there, has not performed (R134). -/
def chainOpen (s : State) (key u : Nat) : Bool :=
  ((tentries s.reqs).any fun x => decide (x.1 < u) && x.2.gang == key && x.2.storeLike && (x.2.bounced || x.2.chained) &&
    !x.2.allPerformed) ||
  (tentries s.rreqs).any fun x => decide (x.1 < u) && x.2.gang == key && x.2.storeLike && (x.2.bounced || x.2.chained) &&
    !x.2.final

/-- Whether a bounced older store of the gang carries this request with it (R134): the two leave in program order. -/
def replayHeld (s : State) (u : Nat) (r : Req) : Bool := r.storeLike && r.chained && chainOpen s r.gang u

/-- A bounced store of a gang carries every later one with it (R134). DESIGN CHOICE (log 68): an SC that is carried has not
bounced itself, so its reservations stay (R106). -/
def chainAfter (s : State) (key u : Nat) : State :=
  { s with
    reqs := s.reqs.map fun e => (e.1, e.2.map fun r =>
      if r.gang = key ∧ u < e.1 ∧ r.storeLike ∧ !r.allPerformed then { r with chained := true } else r),
    rreqs := s.rreqs.map fun e => (e.1, e.2.map fun r =>
      if r.gang = key ∧ u < e.1 ∧ r.storeLike ∧ !r.final then { r with chained := true } else r) }

/-- The stores that follow a reissued one join their queues again behind it (R134, R203). -/
def restartChain (s : State) (key u : Nat) : State :=
  { s with reqs := s.reqs.map fun e => (e.1, e.2.map fun r =>
      if r.gang = key ∧ u < e.1 ∧ r.chained ∧ !r.bounced then { r with since := s.cycle } else r) }

/-- Whether the die store of an address holds its line or has a place for it: 128 MiB a die (R15). -/
def storeRoom (s : State) (a : Nat) : Bool :=
  tget 0 s.mem.store (a / 128) != 0 ||
    decide ((s.mem.store.filter fun e => e.1 / 2 % 4 == a / 256 % 4).length < 1048576)

/-- Whether the channel and the die store that carry an address are ready (R407), with a place for its line. -/
def homeReady (s : State) (l : Loc) : Bool :=
  l.scr || (storeRoom s l.addr && s.pf.ready.contains (.engine (36 + l.addr / 256 % 4)) &&
    (if isHbm l.addr then s.pf.ready.contains (.chan (channelOf l.addr))
     else s.pf.ready.contains (.port (4 + l.addr / 256 % 4))))

/-- Whether the homes of a run of device memory are ready (R406, R407). -/
def placesReady (s : State) (a n : Nat) : Bool := (runSectors a n).all fun sec => homeReady s ⟨false, 32 * sec, 0, 0⟩

/-- The table entries that the host stage of a translation reads (R82). -/
def hostReads (s : State) (gpa : Nat) : Nat → Nat → List Nat
  | l, base =>
    let a := base + 8 * (gpa / 2 ^ levelShift l % levelEntries l)
    let e := dw (s.readPhys a 8)
    a :: (match l with
      | 0 => []
      | l' + 1 =>
        if bitOf e 0 && !entryBad (l' + 1) e && !bitOf e 4 && backed (entryAddr e) (8 * levelEntries l') then hostReads s gpa l' (entryAddr e)
        else [])

/-- The table entries that the guest stage of a translation reads (R82). -/
def guestReads (s : State) (hroot va : Nat) : Nat → Nat → List Nat
  | l, base =>
    let ga := base + 8 * (va / 2 ^ levelShift l % levelEntries l)
    hostReads s ga 5 hroot ++ (match hostWalk s ga 5 hroot with
      | .page pa _ _ _ =>
        let e := dw (s.readPhys pa 8)
        pa :: (match l with
          | 0 => []
          | l' + 1 => if bitOf e 0 && !entryBad (l' + 1) e && !bitOf e 4 then guestReads s hroot va l' (entryAddr e) else [])
      | _ => [])

/-- Whether the homes of what a translation reads are ready (R406, R407). -/
def translateReady (s : State) (c : Context) (vpn : Nat) : Bool :=
  (guestReads s c.hroot (vpn * 65536) 5 c.groot ++ (match guestWalk s c.hroot (vpn * 65536) 5 c.groot with
    | .page gpa _ _ _ => hostReads s gpa 5 c.hroot
    | _ => [])).all fun a => placesReady s a 8

/-- Whether the block of a gang runs in the foreground (R79). -/
def gangForeground (s : State) (key : Nat) : Bool :=
  match s.block? (key / 16) with
  | some b => b.resident && foreground s b
  | none => false

/-- Whether a gang's block runs in the foreground (R388: replay entries are not reissued in the background). -/
def gangRuns (s : State) (key : Nat) : Bool :=
  gangForeground s key && (match s.block? (key / 16) with | some b => b.phase == .running | none => false)

/-- Whether a context's block has been taken out by a STOP (R385): nothing of it performs. -/
def gangStopped (s : State) (key : Nat) : Bool :=
  match s.block? (key / 16) with
  | some b => b.phase == .stopped
  | none => true

/-- Whether nothing but the queues on its way holds a sector of a request back. -/
def orderOpen (s : State) (u : Nat) (r : Req) (sec : Nat) : Bool :=
  r.checked && !r.bounced && (sectorsOf r).contains sec && !r.performed.contains sec && depsDone s r.deps
    && !locationHeld s u r sec && !peerHeld s u r sec && !replayHeld s u r && !gangStopped s r.gang
    && (r.space == .global || (gangRuns s r.gang &&
      (r.space != .peer || r.elems.all fun e => e.loc.sector != sec || !placeAway s (keyCtx s r.gang) e.loc)))

-- The L1 and the home (R11, R80, R81, R96).

/-- The lanes of the elements of a sector. -/
def secElems (r : Req) (sec : Nat) : List Elem := r.elems.filter fun e => e.loc.sector == sec

/-- Whether elements cover all 32 bytes of their sector (R402). -/
def coversSector (es : List Elem) : Bool :=
  match es with
  | [] => false
  | e :: _ => (List.range 32).all fun i => es.any fun f =>
      decide (f.loc.addr ≤ e.loc.addr / 32 * 32 + i) && decide (e.loc.addr / 32 * 32 + i < f.loc.addr + f.size)

/-- Whether a request writes a whole sector, so that nothing of it is read. -/
def writesWhole (r : Req) (sec : Nat) : Bool := r.kind == .store && coversSector (secElems r sec)

/-- Whether the L1 of its core serves a sector of a request (R80, R81, R96): a load at any scope where the sector is there, a wider
one unless it has been carried on to the home (R11), and a write at GANG or CORE scope where the line is owned too. -/
def l1Serves (s : State) (r : Req) (sec : Nat) : Bool :=
  match s.l1? (keyCore s r.gang) (sec / 8) with
  | none => false
  | some x =>
    let here := x.filled.testBit (sec / 2 % 4)
    if r.storeLike then Scope.atCore r.scope && x.owned && (here || writesWhole r sec)
    else here && (Scope.atCore r.scope || (r.kind != .lr && !r.places.any fun p => p.sec == sec))

/-- The lines that the L1 of a core holds at most: 256 KiB (R12). -/
def l1Lines : Nat := 2048

/-- Whether a line is in the L1 of a core or a place for it is free (R12). -/
def l1Room (s : State) (core line : Nat) : Bool :=
  (s.l1? core line).isSome ||
    decide ((s.core.l1.filter fun e => e.1 / 35184372088832 == core).length < l1Lines)

/-- A sector that the L1 of a core takes from its home (R80, R81, R344): shared for a read, owned for a write, with the data
read where the write does not cover the sector. -/
def fillL1 (s : State) (core ctx : Nat) (own whole : Bool) (sec : Nat) : State :=
  let line := sec / 4
  let old := (s.l1? core line).getD ⟨false, 0, 0, 0⟩
  let s := if whole then s else storeSector (chargeUser s (meterKey s ctx core) (32 * sec) 1) sec
  let s := if own then dropCopies s line (some core) else if old.owned then s else recallOwned s line
  s.setL1 core line (some { old with owned := own || old.owned, filled := old.filled ||| sectorBit sec })

/-- A write by a context at the L1 of its core (R81): the sector is changed there. -/
def dirtyL1 (s : State) (core ctx sec : Nat) : State :=
  match s.l1? core (sec / 4) with
  | some x => s.setL1 core (sec / 4) (some { x with
      filled := x.filled ||| sectorBit sec, dirty := x.dirty ||| sectorBit sec, user := meterKey s ctx core })
  | none => s

-- The queues of the channels (R345, R346).

/-- The part of a window of slots, in slots, in which a channel is closed for recalibration (R345, R401): a closure of a
microsecond from the channel's last recalibration on may fall in one window or span two. -/
def closedSlots (s : State) (chan window : Nat) : Nat :=
  if tget 0 s.mem.calcnt chan = 0 then 0
  else
    let a := max (tget 0 s.mem.calat chan) (2048 * window)
    let z := min (tget 0 s.mem.calat chan + 2000) (2048 * window + 2048)
    (z - a) * 3 / 2

/-- Whether a channel is closed for recalibration now (R345, R401). -/
def chanClosed (s : State) (chan : Nat) : Bool :=
  tget 0 s.mem.calcnt chan != 0 && decide (tget 0 s.mem.calat chan ≤ s.cycle) && decide (s.cycle < tget 0 s.mem.calat chan + 2000)

/-- A virtual function's floor at a channel in the running window (R343, R345), scaled where a closure takes part of it. -/
def scaledFloor (s : State) (chan vf : Nat) : Nat :=
  tget 0 s.pf.floors (chan * 64 + vf) * (3072 - closedSlots s chan (s.cycle / 2048)) / 3072

/-- The class in which the Weir serves a virtual function's next request at a channel (R345): 0 the floor, 1 the deficits
of earlier windows, 2 slack. -/
def weirClass (s : State) (chan vf : Nat) : Nat :=
  let used := tget 0 s.pf.slots (chan * 64 + vf)
  if used < scaledFloor s chan vf then 0
  else if used < tget 0 s.pf.floors (chan * 64 + vf) + tget 0 s.pf.deficit (chan * 64 + vf) then 1
  else 2

/-- The slots an access at the home costs (R344). -/
def slotCost (r : Req) (es : List Elem) : Nat :=
  match r.kind with
  | .atom _ _ _ => 2 * es.length
  | _ => 1

/-- A request that waits in a virtual function's queue at a channel. -/
structure Waiter where
  vf : Nat
  order : Nat
  cost : Nat
  uid : Nat
  sec : Nat
  since : Nat
  deriving DecidableEq, Repr

/-- Whether a place is in the queue of a channel. -/
def Place.atChan (p : Place) (chan : Nat) : Bool := p.stage == 2 && channelOf (p.sec / 2 * 32) == chan

/-- A place of a gang's work as a waiter of its virtual function. -/
def placeWaiter (s : State) (gang u cost : Nat) (p : Place) : Option Waiter :=
  (keyVf s gang).map fun v => { vf := v, order := p.order, cost := cost, uid := u, sec := p.sec, since := p.since }

/-- What waits in the queues of a channel (R345): sectors of requests, and the next accesses of commands and of engines. -/
def waitersAt (s : State) (chan : Nat) : List Waiter :=
  ((tentries s.reqs).flatMap fun e =>
    if e.2.bounced || (e.2.chained && chainOpen s e.2.gang e.1) then [] else
    (e.2.places.filter fun p => p.atChan chan && !e.2.performed.contains p.sec).filterMap fun p =>
      placeWaiter s e.2.gang e.1 (slotCost e.2 (secElems e.2 p.sec)) p) ++
  ((tentries s.cmds).filterMap fun e => if e.2.bounced then none else
    e.2.way.bind fun p => if p.atChan chan then placeWaiter s e.2.gang e.1 1 p else none) ++
  ((tentries s.engOps).filterMap fun e => if e.2.bounced then none else
    e.2.way.bind fun p => if p.atChan chan then placeWaiter s e.2.gang e.1 1 p else none)

/-- The first waiter of a virtual function's queue (R346). -/
def firstOf (l : List Waiter) (vf : Nat) : Option Waiter :=
  (l.filter fun w => w.vf == vf).foldl (fun best w => match best with
    | some b => if w.order < b.order then some w else some b
    | none => some w) none

/-- The visits of the slack class until a virtual function's credit covers a cost, at a quantum of 2 slots each (R345): none
for the one that is being visited, while its credit lasts. -/
def drrRounds (s : State) (chan : Nat) (w : Waiter) : Nat :=
  let n := (w.cost - tget 0 s.pf.drr (chan * 64 + w.vf) + 1) / 2
  if w.vf = tget 0 s.pf.drrAt chan then n else max n 1

/-- How far the next visit to a virtual function is from the one that is being visited. -/
def drrDistance (s : State) (chan vf : Nat) : Nat := (vf + 63 - tget 0 s.pf.drrAt chan) % 64 + 1

/-- Whether the slack class serves one waiter before another (R345): deficit round-robin. -/
def drrBefore (s : State) (chan : Nat) (a b : Waiter) : Bool :=
  decide (drrRounds s chan a < drrRounds s chan b) ||
    (drrRounds s chan a == drrRounds s chan b && decide (drrDistance s chan a.vf < drrDistance s chan b.vf))

/-- The first waiters of the slack class at a channel but one virtual function's. -/
def slackRivals (s : State) (chan vf : Nat) : List Waiter :=
  (((waitersAt s chan).map (·.vf)).eraseDups.filter fun v => v != vf && weirClass s chan v == 2).filterMap
    fun v => firstOf (waitersAt s chan) v

/-- Whether an entry is the first of a resource's aged list that is not saved (R172): the next free slot is held for it. -/
def agedFirst (s : State) (key u : Nat) : Bool := (tget [] s.aged key).find? (fun x => !entrySaved s x) == some u

/-- Whether the Weir serves a request at a channel now (R172, R345, R346, R401): the channel is open, or was when the request
joined its queue; and it is aged and its slot is held for it, or it is the first of its virtual function's queue, and no other
function's first request comes before it. One that has not joined a queue arrives now. -/
def weirOpen (s : State) (chan : Nat) (me : Waiter) : Bool :=
  (!chanClosed s chan || decide (me.since < tget 0 s.mem.calat chan)) &&
  (agedFirst s (5 + 16 * (256 + chan)) me.uid ||
   let all := (waitersAt s chan).filter fun w => !(w.uid == me.uid && w.sec == me.sec)
   !(all.any fun w => w.vf == me.vf && decide (w.order < me.order)) &&
    (all.map (·.vf)).eraseDups.all fun v => v == me.vf || (match firstOf all v with
      | none => true
      | some w =>
        let a := weirClass s chan me.vf
        let b := weirClass s chan v
        decide (a < b) || (a == b && (if a = 2 then drrBefore s chan me w else decide (me.order < w.order)))))

/-- The credits of the slack class after it has served a request (R345): every visit on the way gave its quantum, and who has
nothing waiting keeps none. -/
def weirServed (s : State) (chan : Nat) (me : Waiter) : State :=
  let rivals := slackRivals s chan me.vf
  if weirClass s chan me.vf != 2 then s
  else if rivals.isEmpty then
    { s with pf := { s.pf with
      drr := s.pf.drr.filter fun e => e.1 / 64 != chan, drrAt := tput 0 s.pf.drrAt chan me.vf } }
  else
    let n := drrRounds s chan me
    let d := drrDistance s chan me.vf
    let give (t : Tab Nat) (w : Waiter) : Tab Nat :=
      tmod 0 t (chan * 64 + w.vf) (· + 2 * (if drrDistance s chan w.vf < d then n else n - 1))
    let t := rivals.foldl give (s.pf.drr.filter fun e =>
      e.1 / 64 != chan || e.1 % 64 == me.vf || rivals.any fun w => w.vf == e.1 % 64)
    { s with pf := { s.pf with
      drr := tmod 0 t (chan * 64 + me.vf) (fun c => c + 2 * n - me.cost), drrAt := tput 0 s.pf.drrAt chan me.vf } }

/-- A sector of a request as the channel of its home sees it. -/
def waiterOf (s : State) (u : Nat) (r : Req) (sec : Nat) : Option Waiter :=
  (keyVf s r.gang).map fun v =>
    let p := (r.places.find? fun p => p.sec == sec && p.stage == 2).getD ⟨sec, 2, s.cycle, s.uid⟩
    { vf := v, cost := slotCost r (secElems r sec), uid := u, sec := sec, order := p.order, since := p.since }

/-- An access that arrives now at the home of an address, for a virtual function or for none, as a channel of HBM sees it
(R345, R346). -/
def arrival (s : State) (vf cost : Nat) : Waiter :=
  { vf := vf, order := s.uid, cost := cost, uid := 0, sec := 0, since := s.cycle }

/-- Whether the channel of an address serves an access that arrives now (R345, R346, R401). -/
def arrivalOpen (s : State) (vf : Option Nat) (a cost : Nat) : Bool :=
  !isHbm a || (match vf with
    | some v => weirOpen s (channelOf a) (arrival s v cost)
    | none => !chanClosed s (channelOf a))

/-- The slack class after it has served such an access (R345). -/
def arrivalServed (s : State) (vf : Option Nat) (a cost : Nat) : State :=
  match vf with
  | some v => if isHbm a then weirServed s (channelOf a) (arrival s v cost) else s
  | none => s

/-- Whether the queues of a sector's home let it perform (R11, R345, R346, R407). -/
def homeOpen (s : State) (u : Nat) (r : Req) (sec : Nat) : Bool :=
  match secElems r sec with
  | [] => true
  | e :: _ =>
    r.space == .engine || e.loc.scr || l1Serves s r sec ||
    (homeReady s e.loc && (!Scope.atCore r.scope || l1Room s (keyCore s r.gang) (sec / 8)) &&
      (!isHbm e.loc.addr || (match waiterOf s u r sec with
        | some w => weirOpen s (channelOf e.loc.addr) w
        | none => !chanClosed s (channelOf e.loc.addr))))

-- Accesses of the matrix engine and the Millrace (R168, R283).

/-- The entries of an overflow area of 16 KiB, at 4 KiB each as the gang's are (R168, R170; log 26). -/
def engineEntries : Nat := 4

/-- The entries of a block's engines in their replay store (R168). -/
def engBounced (s : State) (block : Nat) : Nat :=
  ((tentries s.engOps).filter fun e => e.2.gang / 16 == block && e.2.bounced).length

/-- Whether the L1 of a core holds a sector for an access of an engine (R80, R81): owned, for a write. -/
def l1Holds (s : State) (core : Nat) (w whole : Bool) (sec : Nat) : Bool :=
  match s.l1? core (sec / 4) with
  | none => false
  | some x => (x.filled.testBit (sec % 4) || (w && whole)) && (!w || x.owned)

/-- The sectors of device memory in which locations lie. -/
def globalSectors (ls : List Loc) : List Nat := ((ls.filter fun l => !l.scr).map fun l => sectorOf l.addr).eraseDups

/-- An engine's read or write of a sector as the channel of its home sees it: in its queue, or arriving now. -/
def engWaiter (s : State) (key u : Nat) (way : Option Place) (sec : Nat) : Option Waiter :=
  let p := (way.filter fun p => p.stage == 2 && p.sec == 2 * sec).getD ⟨2 * sec, 2, s.cycle, s.uid⟩
  placeWaiter s key u 1 p

/-- Whether a sector's home lets an engine's access perform, if the L1 does not serve it (R345, R407). -/
def engSectorOpen (s : State) (key u : Nat) (way : Option Place) (w : Bool) (sec : Nat) : Bool :=
  let l : Loc := ⟨false, 32 * sec, 0, 0⟩
  l1Holds s (keyCore s key) w false sec || (homeReady s l && (!isHbm l.addr || (match engWaiter s key u way sec with
    | some w => weirOpen s (channelOf l.addr) w
    | none => !chanClosed s (channelOf l.addr))))

/-- Whether the L1 of a core has places for the lines of some sectors (R12). -/
def linesRoom (s : State) (core : Nat) (secs : List Nat) : Bool :=
  decide ((((secs.map (· / 4)).eraseDups).filter fun n => (s.l1? core n).isNone).length +
    (s.core.l1.filter fun e => e.1 / 35184372088832 == core).length ≤ l1Lines)

/-- Whether the homes of an engine's access let it perform, and for a write the L1 has places for its lines. -/
def engOpen (s : State) (key u : Nat) (way : Option Place) (w : Bool) (ls : List Loc) : Bool :=
  (globalSectors ls).all (engSectorOpen s key u way w) && (!w || linesRoom s (keyCore s key) (globalSectors ls))

/-- Whether an engine's entry can perform now. -/
def engReady (s : State) (u : Nat) (x : EngOp) : Bool :=
  !x.bounced && gangRuns s x.gang && depsDone s x.deps && engOpen s x.gang u x.way x.writes x.locs &&
    (x.space != .peer || x.locs.all fun l => !placeAway s (keyCtx s x.gang) l)

/-- A sector that an engine's access takes (R80, R81, R344, R345): from the L1, into it, or, for a read that finds no place
there, at its home. -/
def takeSector (s : State) (key : Nat) (w whole : Bool) (sec : Nat) : State :=
  let core := keyCore s key
  if l1Holds s core w whole sec then s
  else
    let s := match engWaiter s key 0 none sec with
      | some w => if isHbm (32 * sec) then weirServed s (channelOf (32 * sec)) w else s
      | none => s
    if w || l1Room s core (sec / 4) then fillL1 s core (keyCtx s key) w whole sec
    else chargeSlots s (keyCtx s key) core (32 * sec) 1

-- Aged entries (R172).

/-- The die store of an address, and its channel or CXL port, as resources (R172). -/
def homeKeys (a : Nat) : List Nat :=
  [5 + 16 * (1024 + a / 256 % 4), if isHbm a then 5 + 16 * (256 + channelOf a) else 4 + 16 * (1028 + a / 256 % 4)]

/-- The resources on the way of a sector of a request (R172): the port of the core, the die store, and the channel or the
CXL port of the home. -/
def wayKeys (s : State) (r : Req) (sec : Nat) : List Nat :=
  (5 + 16 * keyCore s r.gang) :: (if r.space != .global || l1Serves s r sec then [] else homeKeys (sec / 2 * 32))

/-- Whether an aged entry of a resource goes before an access of a gang (R172): it is on its way back to the slot held for it,
or it is back and can go; a store that has to follow the access does not. -/
def agedBefore (s : State) (u gang : Nat) (st : Bool) (x : Nat) : Bool :=
  x != u && (match s.req? x, s.engOp? x, s.cmd? x with
    | none, some q, _ => gangForeground s q.gang && (if q.bounced then q.cause == 4 || q.cause == 5 else engReady s x q)
    | none, none, some q =>
      gangForeground s q.gang && q.failed.isNone && (if q.bounced then q.cause == 4 || q.cause == 5 else gangRuns s q.gang && q.way.isSome)
    | none, none, none => false
    | some q, _, _ =>
      !(q.gang == gang && decide (u < x) && q.storeLike && st) && gangForeground s q.gang &&
        (if q.bounced then q.cause == 4 || q.cause == 5
         else (sectorsOf q).any fun sec => orderOpen s x q sec && homeOpen s x q sec))

/-- Whether no aged entry of some resources goes before an entry of a gang (R172). -/
def agedLets (s : State) (keys : List Nat) (u gang : Nat) (st : Bool) : Bool :=
  keys.all fun k =>
    match (tget [] s.aged k).find? fun x => x == u || agedBefore s u gang st x with
    | some x => x == u
    | none => true

/-- Whether no aged entry of a resource on its way goes before a sector of a request (R172). -/
def agedOpen (s : State) (u : Nat) (r : Req) (sec : Nat) : Bool := agedLets s (wayKeys s r sec) u r.gang r.storeLike

/-- Whether a sector of a request can perform now. -/
def canPerform (s : State) (u : Nat) (r : Req) (sec : Nat) : Bool :=
  orderOpen s u r sec && homeOpen s u r sec && agedOpen s u r sec

/-- Whether no aged entry goes before an access that arrives now at the home of an address (R172). -/
def agedClear (s : State) (a : Nat) : Bool := agedLets s (homeKeys a) 0 (2 ^ 64) false

/-- Whether the home of an address takes an access that arrives now (R172, R345, R346, R401, R407). -/
def placeOpen (s : State) (vf : Option Nat) (l : Loc) (cost : Nat) : Bool :=
  l.scr || (homeReady s l && arrivalOpen s vf l.addr cost && agedClear s l.addr)

-- Heads of queues (R166, R167).

/-- What stands in the queues for one entry (R166): the sector, its queue, since when, and its place in the order. -/
structure Stand where
  sec : Nat
  stage : Nat
  since : Nat
  order : Nat
  deriving DecidableEq, Repr

/-- A place in a queue past the core's. -/
def Place.stand (p : Place) : Stand := ⟨p.sec, p.stage, p.since, p.order⟩

/-- The sectors of a request that stand in a queue: 0 the port of the core or the scratchpad, 1 the die store, 2 the memory
controller, 3 the CXL port (R166). -/
def standing (s : State) (u : Nat) (r : Req) : List Stand :=
  ((sectorsOf r).filter fun x => orderOpen s u r x).map fun x =>
    match r.places.find? (·.sec == x) with
    | some p => p.stand
    | none => ⟨x, 0, r.since, u⟩

/-- Whether one place comes before another of its queue. -/
def Stand.before (a b : Stand) : Bool := decide (a.since < b.since) || (a.since == b.since && decide (a.order < b.order))

/-- What stands in a queue. -/
def inQueue (s : State) (q : Nat) : List Stand :=
  ((tentries s.reqs).flatMap fun e => (standing s e.1 e.2).filter fun x => queueOf s e.2.gang x.sec x.stage == q) ++
  ((tentries s.cmds).filterMap fun e => if e.2.bounced then none else e.2.way.bind fun p =>
    if queueOf s e.2.gang p.sec p.stage = q then some p.stand else none) ++
  ((tentries s.engOps).filterMap fun e => if e.2.bounced then none else e.2.way.bind fun p =>
    if queueOf s e.2.gang p.sec p.stage = q then some p.stand else none)

/-- Whether a place is at the head of its queue. -/
def atQueueHead (s : State) (gang : Nat) (x : Stand) : Bool :=
  !(inQueue s (queueOf s gang x.sec x.stage)).any fun y => y.before x

/-- Since when a place at the head of its queue has been there: since it came, or since the head before it left. -/
def headSince (s : State) (gang : Nat) (x : Stand) : Nat := max x.since (tget 0 s.leftAt (queueOf s gang x.sec x.stage))

/-- Places leave their queues: whoever comes next is at the head from now on. -/
def leaveQueues (s : State) (gang : Nat) (l : List Stand) : State :=
  l.foldl (fun t x => if atQueueHead s gang x then
    { t with leftAt := tput 0 t.leftAt (queueOf s gang x.sec x.stage) s.cycle } else t) s

/-- A sector of a request moves on to its next queue (R166, R167): the die store of its home, then the memory controller's
or the CXL port's. A load at CLUSTER scope or wider may go on though the L1 holds its sector (R11, R96). -/
def advanceSector (s : State) (u sec : Nat) : State :=
  match s.req? u with
  | none => s
  | some r =>
    if sec % 2 = 1 ∨ r.space ≠ .global ∨ !orderOpen s u r sec ∨ (l1Serves s r sec && Scope.atCore r.scope) then s
    else
      let rest := r.places.filter (·.sec != sec)
      let stage := match r.places.find? (·.sec == sec) with | some p => p.stage | none => 0
      let next := if stage = 0 then 1 else if stage = 1 then (if isHbm (sec / 2 * 32) then 2 else 3) else 0
      if next = 0 then s
      else
        let t := leaveQueues s r.gang ((standing s u r).filter fun x => x.sec == sec)
        ({ t with uid := s.uid + 1 } : State).setReq u (some { r with
        places := rest ++ [{ sec := sec, stage := next, since := s.cycle, order := s.uid }] })

/-- A byte of a location as the gang of a request sees it: its own older stores that have not performed,
the newest last, over memory (R134). DESIGN CHOICE (log 67): a load that an older store covers only in part does not wait for
it, and takes the other bytes from memory. -/
def forwardByte (s : State) (u key : Nat) (l : Loc) (i : Nat) : Byte :=
  (tentries s.reqs).foldl (fun acc x =>
    if decide (x.1 < u) && x.2.gang == key && x.2.kind == .store && x.2.checked && x.2.space != .engine then
      x.2.elems.foldl (fun acc f =>
        if f.loc.scr == l.scr && decide (f.loc.addr ≤ l.addr + i) && decide (l.addr + i < f.loc.addr + f.size)
            && !x.2.performed.contains f.loc.sector then
          BitVec.ofNat 8 (f.data.toNat / 256 ^ (l.addr + i - f.loc.addr))
        else acc) acc
    else acc) (s.lbyte l i)

/-- A value as the gang of a request reads it. -/
def forwardRead (s : State) (u key : Nat) (l : Loc) (n : Nat) : Nat := leValue (forwardByte s u key l) n

/-- A trap left for the gang's next boundary (R379, R403). -/
def pendTrap (s : State) (key : Nat) (t : PendTrap) : State :=
  s.modGang key fun g => { g with traps := g.traps ++ [t] }

/-- The stores of a gang that a read by a split has taken values of before they performed (R127, R134). -/
def markRead (s : State) (u key sp : Nat) (e : Elem) : State :=
  { s with reqs := s.reqs.map fun x => (x.1, x.2.map fun q =>
      if x.1 < u ∧ q.gang = key ∧ q.kind = .store ∧ q.checked ∧ q.space ≠ .engine ∧
          q.elems.any (fun f => overlaps f e && !q.performed.contains f.loc.sector) then
        { q with readers := if q.readers.contains sp then q.readers else q.readers ++ [sp] } else q) }

/-- A value that a load of a gang obtains (R127, R130, R134): at CLUSTER scope or wider, without an acquire, it may be that of
a sector read early. -/
def loadValue (s : State) (u : Nat) (r : Req) (e : Elem) : Nat :=
  match s.ahead.find? fun x => x.gang == r.gang && x.sector == e.loc.sector with
  | some x =>
    if r.ord = .plain ∧ !Scope.atCore r.scope then leValue (fun i => x.bytes.getD (e.loc.addr % 32 + i) 0) e.size
    else forwardRead s u r.gang e.loc e.size
  | none => forwardRead s u r.gang e.loc e.size

/-- The reservation set of an SC gone, once the SC is over or has bounced (R106). -/
def endSc (s : State) (key u : Nat) : State :=
  s.modGang key fun g => g.mapSplits fun sp => { sp with spent := sp.spent.filter fun q => q.sc != u }

/-- The elements of one sector performed in ascending lane order: the state, and what was read. DESIGN CHOICE (log 68): an SC
uses the set that the split held when it issued, whatever the scope of the LR that placed it. -/
def performElems (s : State) (u : Nat) (r : Req) (es : List Elem) : State × List (Nat × DWord) :=
  es.foldl (fun (acc : State × List (Nat × DWord)) e =>
    let s := acc.1
    match r.kind with
    | .load _ => (markRead s u r.gang r.split e, acc.2 ++ [(e.lane, dw (loadValue s u r e))])
    | .lr =>
      let v := dw (forwardRead s u r.gang e.loc e.size)
      (s.modGang r.gang fun g => g.mapSplits fun sp => sp.mapResv fun q =>
          if q.lr = u ∧ (q.sc ≠ 0 ∨ inLanes sp.lanes e.lane) then { q with elems := q.elems ++ [(e.lane, e.ea, e.loc)] } else q,
        acc.2 ++ [(e.lane, v)])
    | .store => (writeElem s e.loc e.size e.data.toNat, acc.2)
    | .atom op t _ =>
      let old := s.readLoc e.loc e.size
      (writeElem s e.loc e.size (atomNew op t e.size old (e.data.toNat % 256 ^ e.size) (e.cmp.toNat % 256 ^ e.size)),
        acc.2 ++ [(e.lane, dw old)])
    | .sc =>
      let held : Bool := match s.gang? r.gang with
        | none => false
        | some g => ((g.splitList.map (·.2)) ++ g.deferred).any fun sp => sp.spent.any fun q =>
            q.sc == u && q.elems.any fun x => x.1 == e.lane && x.2.1 == e.ea && x.2.2.line == e.loc.line
      if held then (writeElem s e.loc e.size e.data.toNat, acc.2 ++ [(e.lane, 0)])
      else (s, acc.2 ++ [(e.lane, 1)]))
    (s, [])

/-- A counter of a gang lowered by one. -/
def lowerCount (s : State) (key which : Nat) : State :=
  s.modGang key fun g =>
    if which = 1 then { g with regs := { g.regs with lcnt := g.regs.lcnt - 1 } }
    else if which = 2 then { g with regs := { g.regs with scnt := g.regs.scnt - 1 } }
    else g

/-- A request that is over: its counter falls, its window is done, and it leaves the state (R57, R89). -/
def finishReq (s : State) (u : Nat) (r : Req) : State :=
  let s := lowerCount (unage s u) r.gang r.counted
  let s := s.modGang r.gang fun g => closeWindow g u
  s.setReq u none

/-- The lanes that a record about elements of a request names: those of the elements, or the split's EXM for a
uniform instruction (R382). -/
def recLanes (s : State) (r : Req) (f : Elem → Bool) : Lanes :=
  if r.uni then
    match s.gang? r.gang with
    | some g => (((g.splitList.map (·.2)) ++ g.deferred).find? (·.uid == r.split)).elim 0 (·.exm)
    | none => 0
  else laneSet fun l => r.elems.any fun e => e.lane == l && f e

/-- The sectors that perform together with one: of a scratchpad, all of the request's sectors in that
scratchpad (R90); of GLOBAL, those of an SC on its line (R106), else the sector alone. -/
def performGroup (r : Req) (sec : Nat) : List Nat :=
  if sec % 2 = 1 then (sectorsOf r).filter fun x => x % 2 == 1 && x / 65536 == sec / 65536
  else if r.kind == .sc then (sectorsOf r).filter fun x => x % 2 == 0 && x / 8 == sec / 8
  else [sec]

/-- Sectors read at their home: those found poisoned are named (R402). -/
def readHome (s : State) (l : List Nat) : State × List Nat :=
  l.foldl (fun acc x =>
    let q := sectorRead acc.1 (x / 2)
    (q.1, if q.2 then acc.2 ++ [x] else acc.2)) (s, [])

/-- The slots of the sectors of a request charged to its context at their homes (R344, R352), where the Weir has served
them. -/
def chargeSectors (s : State) (u ctx core : Nat) (r : Req) (l : List Nat) : State :=
  l.foldl (fun s x =>
    match secElems r x with
    | e :: es =>
      let s := match waiterOf s u r x with
        | some w => if isHbm e.loc.addr then weirServed s (channelOf e.loc.addr) w else s
        | none => s
      let s := chargeSlots s ctx core e.loc.addr (slotCost r (e :: es))
      if r.storeLike then dropCopies s (x / 8) none else s
    | [] => s) s

/-- The sectors of a request that its core's L1 takes from their homes (R80, R81), where the Weir has served them. -/
def fillSectors (s : State) (u core ctx : Nat) (r : Req) (l : List Nat) : State :=
  l.foldl (fun s x =>
    let s := match waiterOf s u r x with
      | some w => if isHbm (x / 2 * 32) then weirServed s (channelOf (x / 2 * 32)) w else s
      | none => s
    fillL1 s core ctx r.storeLike (writesWhole r x) (x / 2)) s

/-- The traps that poisoned sectors leave for the gang's next boundary (R403). -/
def pendPoison (s : State) (r : Req) (bad : List Nat) : State :=
  bad.foldl (fun s x => pendTrap s r.gang
    { cause := tProtection, sub := 11, aux := 0, lanes := recLanes s r fun e => e.loc.sector == x, addr := dw (x / 2 * 32) }) s

/-- A sector, with those that perform together with it, performs (R90, R128, R402, R403): a poisoned sector
gives no data and takes no part write, and leaves a trap for the gang's next boundary. -/
def performSector (s : State) (u sec : Nat) : State :=
  match s.req? u with
  | none => s
  | some r =>
    let grp := performGroup r sec
    if !grp.all (canPerform s u r) || r.space == .engine then s else
    let glob := sec % 2 = 0
    let core := keyCore s r.gang
    let ctx := keyCtx s r.gang
    let whole := writesWhole r sec
    let away := if glob then grp.filter fun x => !l1Serves s r x else []
    let x := if whole then (s, []) else readHome s away
    let s := if glob && whole then clearPoison x.1 (sec / 2) else x.1
    let good := away.filter fun y => !x.2.contains y
    let s := if Scope.atCore r.scope then fillSectors s u core ctx r good else chargeSectors s u ctx core r away
    let s := leaveQueues (pendPoison s r x.2) r.gang ((standing s u r).filter fun y => grp.contains y.sec)
    let q := performElems s u r (r.elems.filter fun e =>
      grp.contains e.loc.sector && !x.2.contains e.loc.sector && !r.lanesDone.contains e.lane)
    let s := dropAhead q.1 fun k y => k == r.gang && grp.contains y
    let s := if glob && r.storeLike && Scope.atCore r.scope then
      (grp.filter fun y => !x.2.contains y).foldl (fun s y => dirtyL1 s core ctx (y / 2)) s else s
    let s := if r.ord == .acq || r.ord == .ar then dropAhead s fun k _ => k == r.gang else s
    match s.req? u with
    | none => s
    | some r0 =>
    let r := { r0 with performed := r.performed ++ grp, results := r.results ++ q.2, returned := r.returned ++ x.2 }
    let s := s.setReq u (some r)
    let s := if r.allPerformed then unage s u else s
    let s := if r.allPerformed && r.kind == .sc then endSc s r.gang u else s
    if r.allPerformed && (r.dest == .none || (sectorsOf r).all (r.returned.contains ·)) then finishReq s u r else s

/-- The first lanes of an atomic on a scratchpad perform before the rest (R90, R337; log 69): each operation is applied once,
in ascending lane order. -/
def performLanes (s : State) (u n : Nat) : State :=
  match s.req? u with
  | none => s
  | some r =>
    match r.kind, (sectorsOf r).find? fun x => x % 2 == 1 && !r.performed.contains x with
    | .atom _ _ _, some sec =>
      let grp := performGroup r sec
      if !grp.all (canPerform s u r) then s
      else
        let es := (r.elems.filter fun e => grp.contains e.loc.sector && !r.lanesDone.contains e.lane).take n
        let q := performElems s u r es
        let s := dropAhead q.1 fun k y => k == r.gang && grp.contains y
        s.modReq u fun r => { r with lanesDone := r.lanesDone ++ es.map (·.lane), results := r.results ++ q.2 }
    | _, _ => s

/-- A value of a width extended to 64 bits (R94). -/
def extendTo64 (size : Nat) (sgn : Bool) (v : DWord) : DWord :=
  if size = 1 then (if sgn then (v.truncate 8).signExtend 64 else (v.truncate 8).zeroExtend 64)
  else if size = 2 then (if sgn then (v.truncate 16).signExtend 64 else (v.truncate 16).zeroExtend 64)
  else if size = 4 then (if sgn then (v.truncate 32).signExtend 64 else (v.truncate 32).zeroExtend 64)
  else v

/-- A returned value written to its destination (R88, R94, R99). -/
def writeDest (g : Gang) (d : Dest) (lane : Nat) (v : DWord) : Gang :=
  match d with
  | .none => g
  | .uni k => g.kset k v
  | .vec r wide => { g with regs := g.regs.putLanes wide r (laneSet (· == lane)) fun _ => v.toNat }

/-- Whether a request's values are sign-extended. -/
def Req.sgn (r : Req) : Bool :=
  match r.kind with
  | .load b => b
  | _ => false

/-- The word that a returned value puts into its destination (R94, R104, R106). The upper half of the kD of a
32-bit ATOMK is a value that the spec does not state (log 7). -/
def resultWord (u : Nat) (r : Req) (e : Elem) (x : DWord) : DWord :=
  match r.kind with
  | .sc => x
  | .atom _ _ _ =>
    if r.uni ∧ e.size = 4 then (Config.freeValue u).extractLsb' 32 32 ++ x.truncate 32 else extendTo64 e.size false x
  | _ => extendTo64 e.size r.sgn x

/-- The data of one performed sector return (R88). -/
def returnSector (s : State) (u sec : Nat) : State :=
  match s.req? u with
  | none => s
  | some r =>
    if !r.performed.contains sec || r.returned.contains sec then s else
    let es := secElems r sec
    let s := s.modGang r.gang fun g => es.foldl (fun g e =>
      match r.results.find? (fun x => x.1 == e.lane) with
      | some x => writeDest g r.dest e.lane (resultWord u r e x.2)
      | none => g) g
    let r := { r with returned := r.returned ++ [sec] }
    let s := s.setReq u (some r)
    if r.allPerformed && (sectorsOf r).all (r.returned.contains ·) then finishReq s u r else s

/-- The split of a gang that a bounce limit goes to (R173): the one that issued the work, or, once that is gone, the gang's
current one (log 26). -/
def limitSplit (g : Gang) (split : Nat) : Nat :=
  if ((g.splitList.map (·.2)) ++ g.deferred).any fun sp => sp.uid == split then split
  else match g.split? with
    | some sp => sp.uid
    | none => split

/-- A bounce limit raised to the split that issued the work, or to its gang (R173). -/
def raiseBounceLimit (s : State) (key split engine : Nat) : State :=
  s.modGang key fun g => g.modSplit (limitSplit g split) fun sp =>
    addEffect sp 4 sp.exm (lanes64 fun _ => BitVec.ofNat 32 engine)

/-- The limit, in cycles, of the queue in which a sector of a request stands (R166, R167). -/
def stageLimit (s : State) (core stage : Nat) : Nat :=
  let p := s.part (partOf core)
  16 * (if stage = 0 then p.core else if stage = 1 then p.die else if stage = 2 then p.memc else p.fabric)

/-- Whether the time of a place at the head of its queue is over (R167). -/
def headOver (s : State) (gang : Nat) (x : Stand) : Bool :=
  decide (headSince s gang x + stageLimit s (keyCore s gang) x.stage ≤ s.cycle) && atQueueHead s gang x

/-- A sector of a request whose time at a queue head is over, with its queue (R167). -/
def heldOut (s : State) (u : Nat) (r : Req) : Option (Nat × Nat) :=
  ((standing s u r).find? (headOver s r.gang)).map fun x => (x.sec, x.stage)

/-- The resource of a queue (R172). -/
def stageKey (core sec stage : Nat) : Nat :=
  let a := sec / 2 * 32
  if stage = 1 then 1024 + a / 256 % 4 else if stage = 2 then 256 + channelOf a
  else if stage = 3 then 1028 + a / 256 % 4 else core

/-- The resource at which a request bounces (R172): the engine queue of its cluster, or the queue at whose head it has
stood. -/
def reqKey (s : State) (u : Nat) (r : Req) (cause : Nat) : Nat :=
  let core := keyCore s r.gang
  cause + 16 * (if cause = 2 then clusterOf core
    else match heldOut s u r with
      | some (sec, stage) => stageKey core sec stage
      | none => core)

/-- A bounce counted (R171 to R173): at 8 the entry is aged at its resource, at 256 it raises BOUNCE_LIMIT and
its count goes back to 8. An SC that bounces loses its reservations (R106), and a store carries every later one of its
gang with it (R134). -/
def bounceReq (s : State) (u cause : Nat) : State :=
  match s.req? u with
  | none => s
  | some r =>
    let n := r.bounces + 1
    let key := reqKey s u r cause
    let s := (leaveQueues s r.gang (standing s u r)).setReq u (some { r with
      bounced := true, cause := cause, since := s.cycle, key := key, bounces := if n = 256 then 8 else n })
    let s := if r.kind == .sc then endSc s r.gang u else s
    let s := if r.storeLike then chainAfter s r.gang u else s
    let s := ageAt s key u n
    if n = 256 then raiseBounceLimit s r.gang r.split 0 else s

/-- The lanes whose elements fail a check (R382). -/
def badLanes (s : State) (r : Req) (cs : List Chk) : Lanes :=
  let bad := (r.elems.zip cs).filterMap fun x => match x.2 with | .bad _ => some x.1.lane | _ => none
  recLanes s r fun e => bad.contains e.lane

/-- A request taken back for a precise trap: the PC, the counters and the windows are as before it, and its split is the one
that traps (R65). -/
def takeBack (s : State) (u : Nat) (r : Req) : State :=
  let s := lowerCount s r.gang r.counted
  let s := s.modGang r.gang fun g =>
    let g := g.modSplit r.split fun sp =>
      { sp with pc := r.pc, windows := windowsBack g.sched.before sp.windows,
                ldDeps := sp.ldDeps.filter (· != u), stDeps := sp.stDeps.filter (· != u) }
    ({ unstepGang g with hold := .none } : Gang).turnTo r.split
  (unage s u).setReq u none

/-- Whether a gang is held for a request. -/
def Hold.on (h : Hold) (u : Nat) : Bool :=
  match h with
  | .walk n => n == u
  | .park n _ _ _ _ => n == u
  | _ => false

/-- A scratchpad place in the bank that its context has now (R79). -/
def inBank (b : Block) (l : Loc) : Loc := { l with addr := scrKey (l.addr / 1048576) b.bank (l.addr % 524288) }

/-- What a check of a reissued request that has passed its checks before counts for (log 13): a sector that has performed
stays where it was, a page that no longer allows the access counts as absent, and a scratchpad place of no window any more
lies in the context's bank. -/
def passAgain (b : Block) (r : Req) (e : Elem) (c : Chk) : Chk :=
  if !r.checked then c
  else if r.performed.contains e.loc.sector then .ok e.loc
  else match c with
    | .bad _ => if r.space = .global then .absent 0 (e.ea.toNat / 65536 * 65536) else .ok (inBank b e.loc)
    | _ => c

/-- Whether a page of an entry that parks apart from its gang's fetch has been asked for and not served (R86). -/
def reqWaiting (s : State) (u : Nat) : Bool := s.waits.any fun w => w.kind == 6 && w.key == u

/-- A reissued request whose page is absent (R86): its gang's fetch goes on if it had passed its checks before, and the
entry waits alone to be served. -/
def parkReq (s : State) (u : Nat) (r : Req) (ring seq : Nat) : State :=
  if r.checked then { s with waits := s.waits ++ [⟨6, u, ring, seq⟩] }
  else s.modGang r.gang fun g => { g with hold := .park u ring seq s.cycle false }

/-- The channel time of a reissue charged to the partition of its owner (R174): that of the sectors it goes back for. -/
def chargeReissue (s : State) (r : Req) : State :=
  if r.bounced && r.checked && r.space == .global then
    ((sectorsOf r).filter fun x => !r.performed.contains x && !l1Serves s r x).foldl (fun s x =>
      match secElems r x with
      | e :: es => chargeUser s (meterKey s (keyCtx s r.gang) (keyCore s r.gang)) e.loc.addr (slotCost r (e :: es))
      | [] => s) s
  else s

/-- The checks of a request decided over all its lanes (R85, R86), at issue and at each reissue. -/
def checkReq (s : State) (u : Nat) : State :=
  match s.req? u with
  | none => s
  | some r =>
    match s.block? (r.gang / 16) with
    | none => s
    | some b =>
      let rd := match r.kind with | .store => false | _ => true
      let w := r.storeLike
      let cs := r.elems.map fun e => passAgain b r e (checkElem s b r.space rd w e.size e.ea)
      match decideChecks (r.elems.map fun e => (e.lane, e.ea)) cs with
      | .proceed ls =>
        let s := chargeReissue s r
        let s := if r.bounced then restartChain s r.gang u else s
        let s := s.setReq u (some { r with
          elems := (r.elems.zip ls).map fun x =>
            if r.checked && r.performed.contains x.1.loc.sector then x.1 else { x.1 with loc := x.2 },
          checked := true, bounced := false, since := s.cycle,
          places := (r.places.filter fun p => ls.any fun l => l.sector == p.sec).zipIdx.map fun p =>
            { p.1 with since := s.cycle, order := s.uid + p.2 } })
        let s := { s with uid := s.uid + r.places.length }
        let s := dropAhead s fun k y => k == r.gang && (r.storeLike || r.kind == .lr) &&
          (r.kind != .store || ls.any fun l => l.sector == y)
        match s.gang? r.gang with
        | some g => if g.hold.on u then (countDue s r.gang b.ctx).modGang r.gang fun g => { g with hold := .none } else s
        | none => s
      | .protect sub _ ea =>
        let d := (r.elems.zip cs).filterMap fun x => match x.2 with | .bad c => some (x.1.lane, x.1.ea, c) | _ => none
        (takeTrap (takeBack s u r) r.gang tProtection sub 0 (badLanes s r cs) [ea] (some r.len)).modGang r.gang
          fun g => if r.uni then g else { g with detail := d.foldl (fun t x => tset t x.1 (failDetail x.2.1 0 x.2.2)) g.detail }
      | .walk vs =>
        let s := bounceReq (startWalks s b.core b.ctx vs) u 0
        if r.checked then s else s.modGang r.gang fun g => { g with hold := .walk u }
      | .park st pages =>
        match s.gang? r.gang with
        | none => s
        | some g =>
          let off := (r.elems.zip cs).filterMap fun x =>
            match x.2 with | .absent st' pg => if st' = st ∧ pages.contains pg then some x.1.lane else none | _ => none
          let lanes := recLanes s r fun e => off.contains e.lane
          if r.checked && reqWaiting s u then bounceReq s u 1
          else
            let q := postPage s { gangRec s 0 r.gang g with pc := r.pc, lanes := lanes } b.ctx st 0 pages
            parkReq (bounceReq q.1 u 1) u r q.2.1 q.2.2

/-- A memory instruction's request put into the state and checked (R85): with no active lane there is none. -/
def sendReq (s : State) (key : Nat) (g : Gang) (sp : Split) (r : Req) (la : Nat) (dv dk : List Nat) : State :=
  let long := r.dest != .none || r.counted == 1
  if r.elems.isEmpty then
    let sp := if r.kind == .lr || r.kind == .sc then { sp with resv := none } else sp
    let s := if r.ord == .acq || r.ord == .ar then dropAhead s fun k _ => k == key else s
    retire s key g (if long then openWindow sp 0 la true dv dk else sp) 12
  else
    let u := s.uid
    let r := { r with gang := key, split := sp.uid, pc := sp.pc, len := 12 }
    let r := { r with deps := depsFor s key sp r, elder := sp.elder, chained := r.storeLike && chainOpen s key u }
    let acq := r.ord == .acq || r.ord == .ar
    let sp := if acq then { sp with ldDeps := sp.ldDeps ++ [u], stDeps := sp.stDeps ++ [u] } else sp
    let sp := if r.kind == .lr then { sp with resv := some ⟨u, Scope.atCore r.scope, [], 0⟩ }
      else if r.kind == .sc then { sp with resv := none, spent := sp.spent ++ (sp.resv.map fun q => { q with sc := u }).toList }
      else sp
    let sp := if long then openWindow sp u la false dv dk else sp
    let g := if r.counted = 1 then { g with regs := { g.regs with lcnt := g.regs.lcnt + 1 } }
      else if r.counted = 2 then { g with regs := { g.regs with scnt := g.regs.scnt + 1 } } else g
    let s := { s with uid := u + 1, reqs := tput none s.reqs u (some r) }
    checkReq (retire s key g sp 12) u

/-- A request before it is sent. -/
def blankReq : Req :=
  { gang := 0, split := 0, pc := 0, len := 12, uni := false, kind := .store, space := .global, scope := .gang, ord := .plain,
    dest := .none, elems := [], checked := false, counted := 0, deps := [], elder := [], performed := [], results := [],
    returned := [], bounces := 0, bounced := false, cause := 0, since := 0 }

/-- The bytes of an access (R94). -/
def widthBytes (w : Width) (t : Ty) : Nat :=
  match w with
  | .full => if t.wide then 8 else 4
  | .w8 => 1
  | .w16 => 2

/-- The elements of a lane instruction: the active lanes in ascending order (R99, R100, R104). -/
def laneElems (m : Lanes) (ea : Nat → DWord) (size : Nat) (data cmp : Nat → DWord) : List Elem :=
  (laneList m).map fun l => { lane := l, ea := ea l, loc := ⟨false, 0, 0, 0⟩, size := size, data := data l, cmp := cmp l }

/-- What a memory operand names. -/
def memUse (m : MemArg) : List Nat × List Nat :=
  ((match m.index with | some v => [v] | none => []), [m.base])

/-- A sector's data return (LOAD_DATA_RETURN). -/
def execLoadDataReturn (req sector : Nat) (s : State) : Out := .next (returnSector s req sector)

end Sys2Proof.Machine
end

