-- ==== Sys2Proof/Machine/Splits.lean ====
section
/-! DEFINITION. Splits, barriers and tokens: how splits join at MERGE (R34, R183, R374), how lanes leave (R22,
R123, R165, R184), how BAR and CBAR complete (R192 to R195), fences (R107, R133), the watchdog's count (R164)
and which tokens are live (R369). -/

namespace Sys2Proof.Machine

-- Fences.

/-- The requests of a list that have not performed. -/
def waitingOf (s : State) (l : List Nat) : List Nat := (l.filter fun u => !performedUid s u).eraseDups

/-- The outstanding loads, LRs, SCs and returning atomics of a gang that have not performed (R107), and the reads of its
engines (R135). -/
def pendingLoads (s : State) (key : Nat) : List Nat :=
  ((tentries s.reqs).filter fun e => e.2.gang == key && !e.2.allPerformed && e.2.loadLike).map (·.1) ++
  ((tentries s.rreqs).filter fun e => e.2.gang == key && !performedUid s e.1 &&
    (match e.2.kind with | .store _ => false | _ => true)).map (·.1) ++
  ((engPending s key).filter fun e => !e.2.writes).map (·.1)

/-- A split behind a fence: what its later loads and its later stores wait for (R107). -/
def fenceSplit (s : State) (sp : Split) (ld st : List Nat) : Split :=
  { sp with ldDeps := waitingOf s (sp.ldDeps ++ ld), stDeps := waitingOf s (sp.stDeps ++ st) }

/-- The effect of a FENCE on its split (R107). -/
def applyFence (s : State) (key : Nat) (k : FenceKind) (sp : Split) : Split :=
  match k with
  | .acq => fenceSplit s sp (pendingLoads s key) (pendingLoads s key)
  | .rel => fenceSplit s sp [] (pendingOf s key)
  | .ar => fenceSplit s sp (pendingLoads s key) (pendingOf s key)
  | .sc => fenceSplit s sp (pendingOf s key) (pendingOf s key)

-- The watchdog's count.

/-- The value that every lane of a pending effect carries. -/
def flatPayload (m : Lanes) (x : Nat) : VVal := lanes64 fun l => if inLanes m l then BitVec.ofNat 32 x else 0

/-- A taken branch counted by the watchdog if it goes backward (R164, R165). -/
def countBranch (g : Gang) (sp : Split) (own target : DWord) : Split :=
  if g.regs.wdlim = 0 ∨ own.toNat < target.toNat then sp
  else if g.regs.wdlim ≤ sp.wd + 1 then addEffect { sp with wd := 0 } 2 sp.exm (flatPayload (BitVec.allOnes 64) g.regs.wdlim)
  else { sp with wd := sp.wd + 1 }

-- Tokens.

/-- A token (R369). -/
def mkToken (gen tag kind rec serial : Nat) : DWord :=
  dw (gen % 65536 * 281474976710656 + tag % 65536 * 4294967296 + kind * 1073741824 + rec * 65536 + serial % 65536)

/-- Whether a token's GEN, TAG, KIND and SERIAL are those given (R369): its Reserved bits are not looked at. -/
def tokenIs (tok : DWord) (gen tag kind serial : Nat) : Bool :=
  bitsOf tok 63 48 == gen % 65536 && bitsOf tok 47 32 == tag % 65536 && bitsOf tok 31 30 == kind &&
    bitsOf tok 15 0 == serial % 65536

/-- The code of a kind of token (R369). -/
def kindCode : TokKind → Nat
  | .one => 0
  | .many => 1
  | .none => 2

/-- GEN of a gang's context (R359, R369). -/
def genOf (s : State) (g : Gang) : Nat :=
  match s.block? g.block with
  | some b => (match s.ctx? b.ctx with | some c => c.gen | none => 0)
  | none => 0

/-- The record that a token names, if the token is live (R369). -/
def liveRec (s : State) (g : Gang) (tok : DWord) : Option (Nat × Rec) :=
  let i := bitsOf tok 19 16
  match tget none g.recs i with
  | none => none
  | some r =>
    if r.kind ≠ .none ∧ tokenIs tok (genOf s g) g.tag (kindCode r.kind) r.serial then some (i, r) else none

/-- A record freed. -/
def freeRec (g : Gang) (i : Nat) : Gang := { g with recs := tput none g.recs i none }

/-- The save window of a record put back (R370): saved vector registers in the lanes of S that live, and saved
uniform registers. -/
def restoreWindow (g : Gang) (r : Rec) : Gang :=
  let m := r.cont.lanes &&& g.live
  let regs := r.savedV.foldl (fun (q : Regs) e => q.vlanes e.1 m (lane e.2)) g.regs
  { g with regs := r.savedK.foldl (fun (q : Regs) e => q.kset e.1 e.2) regs }

-- Joining.

/-- The path of a split's sibling: the same divisions, the other side of the last one (R34). -/
def siblingPath (p : List DivStep) : List DivStep :=
  match p.getLast? with
  | some d => p.dropLast ++ [{ d with taken := !d.taken }]
  | none => []

/-- The splits on the other side of a split's last division, in the table (R34). -/
def tableSibs (g : Gang) (sp : Split) : List (Nat × Split) :=
  if sp.path.isEmpty then [] else g.splitList.filter fun e => (siblingPath sp.path).isPrefixOf e.2.path

/-- The splits on the other side of a split's last division, on the deferral stack (R34). -/
def deferredSibs (g : Gang) (sp : Split) : List Split :=
  if sp.path.isEmpty then [] else g.deferred.filter fun e => (siblingPath sp.path).isPrefixOf e.path

/-- Requests, long operations and commands of one split given to another (R124: a join joins program order). -/
def renameSplit (s : State) (key old new : Nat) : State :=
  let s := s.modGang key fun g => { g with mat := { g.mat with
    closed := g.mat.closed.map fun e => (e.1, e.2.map fun b => if b.split = old then { b with split := new } else b) } }
  { s with
    reqs := s.reqs.map fun e => (e.1, e.2.map fun r =>
      if r.gang = key then { r with
        split := if r.split = old then new else r.split,
        readers := (r.readers.map fun u => if u = old then new else u).eraseDups } else r),
    rreqs := s.rreqs.map fun e => (e.1, e.2.map fun r => if r.gang = key ∧ r.split = old then { r with split := new } else r),
    longs := s.longs.map fun e => (e.1, e.2.map fun r => if r.gang = key ∧ r.split = old then { r with split := new } else r),
    engOps := s.engOps.map fun e => (e.1, e.2.map fun r => if r.gang = key ∧ r.split = old then { r with split := new } else r),
    cmds := s.cmds.map fun e => (e.1, e.2.map fun r => if r.gang = key ∧ r.split = old then { r with split := new } else r) }

/-- Two splits joined (R34, R183): lanes united, the PC after the MERGE of the one with the lowest lane, and
the watchdog's count at 0. DESIGN CHOICE (log 68): their reservation sets are united. -/
def joinSplits (a b : Split) : Split :=
  let x := if lowest b.lanes < lowest a.lanes then b else a
  let y := if lowest b.lanes < lowest a.lanes then a else b
  let eff := y.eff.foldl (fun (q : Split) e => addEffect q e.id e.lanes e.payload e.whole) x
  { eff with
    pc := x.pc + 8, lanes := x.lanes ||| y.lanes, exm := x.lanes ||| y.lanes, wait := .ready,
    path := x.path.dropLast, wd := 0, windows := [],
    resv := match x.resv, y.resv with
      | some p, some q => some { p with elems := p.elems ++ q.elems }
      | some p, none => some p
      | none, q => q,
    spent := x.spent ++ y.spent,
    ldDeps := (x.ldDeps ++ y.ldDeps).eraseDups, stDeps := (x.stDeps ++ y.stDeps).eraseDups,
    elder := (x.elder ++ y.elder).eraseDups }

/-- A split past its MERGE with no sibling to wait for (R183). -/
def passAlone (sp : Split) : Split :=
  { sp with pc := sp.pc + 8, exm := sp.lanes, wait := .ready, path := sp.path.dropLast, wd := 0, windows := [] }

/-- A split in an invocation that its sibling is not in, past its MERGE (R374). -/
def passInvocation (g : Gang) (sp : Split) : Split :=
  match sp.chain.getLast? with
  | some inv => { sp with pc := sp.pc + 8, exm := inv.cont.perf &&& g.live, wait := .ready, wd := 0, windows := [] }
  | none => { sp with pc := sp.pc + 8, wait := .ready, wd := 0, windows := [] }

/-- The gang with a split of the table replaced. -/
def Gang.putSplit (g : Gang) (i : Nat) (sp : Option Split) : Gang := { g with splits := tput none g.splits i sp }

/-- The split of entry `i` reaches a MERGE (R34, R183, R374). DESIGN CHOICE (log 71): a joined split takes the entry of the
side with the lowest lane, and beside a side on the deferral stack the entry of the one in the table. -/
def mergeSplit (s : State) (key : Nat) (g : Gang) (i : Nat) (sp : Split) : State :=
  let ts := tableSibs g sp
  let ds := deferredSibs g sp
  let joined := dropAhead s fun k _ => k == key
  if ts.isEmpty && ds.isEmpty then s.setGang key (g.putSplit i (some (passAlone sp)))
  else if !((ts.map (·.2)) ++ ds).all (fun x => sp.chain.isPrefixOf x.chain) then
    s.setGang key (g.putSplit i (some (passInvocation g sp)))
  else
    match ts, ds with
    | [(j, x)], [] =>
      if x.path == siblingPath sp.path && x.wait == .atMerge && x.chain == sp.chain then
        let n := joinSplits sp x
        let k := if lowest x.lanes < lowest sp.lanes then j else i
        let old := if n.uid = sp.uid then x.uid else sp.uid
        let g := ((g.putSplit i none).putSplit j none).putSplit k (some n)
        renameSplit (joined.setGang key { g with cur := if g.cur = i ∨ g.cur = j then k else g.cur }) key old n.uid
      else s.setGang key (g.putSplit i (some { sp with wait := .atMerge }))
    | [], [x] =>
      if x.path == siblingPath sp.path && x.wait == .atMerge && x.chain == sp.chain then
        let n := joinSplits sp x
        let old := if n.uid = sp.uid then x.uid else sp.uid
        let g := { g.putSplit i (some n) with deferred := g.deferred.filter fun y => y.uid != x.uid }
        renameSplit (joined.setGang key g) key old n.uid
      else if x.path == siblingPath sp.path && x.wait == .ready then
        -- the deferred lanes run to the MERGE before the two rejoin (R34)
        s.setGang key { g.putSplit i (some x) with
          deferred := g.deferred.map fun y => if y.uid = x.uid then { sp with wait := .atMerge } else y }
      else s.setGang key (g.putSplit i (some { sp with wait := .atMerge }))
    | _, _ => s.setGang key (g.putSplit i (some { sp with wait := .atMerge }))

/-- Whether no lane of a split's sibling is left (R34). -/
def siblingGone (g : Gang) (sp : Split) : Bool :=
  !sp.path.isEmpty && (tableSibs g sp).isEmpty && (deferredSibs g sp).isEmpty

/-- Whether a split waits at a MERGE in an invocation that its sibling is no longer in (R374). -/
def outlasts (g : Gang) (sp : Split) : Bool :=
  sp.wait == .atMerge && !siblingGone g sp &&
    !((tableSibs g sp).map (·.2) ++ deferredSibs g sp).all fun x => sp.chain.isPrefixOf x.chain

/-- One consequence of a freed entry or of a chain that has changed: a split at a MERGE whose sibling is gone passes, and so
does one in an invocation that its sibling is not in; a deferred split whose sibling is gone takes a free entry (R34, R374). -/
def settleOnce (g : Gang) : Gang :=
  match g.splitList.find? fun e => (e.2.wait == .atMerge && siblingGone g e.2) || outlasts g e.2 with
  | some (i, sp) => g.putSplit i (some (if outlasts g sp then passInvocation g sp else passAlone sp))
  | none =>
    match g.deferred.find? (outlasts g) with
    | some sp => { g with deferred := g.deferred.map fun y => if y.uid = sp.uid then passInvocation g sp else y }
    | none =>
    match g.deferred.reverse.find? fun sp => siblingGone g sp, tfree g.splits 8 0 with
    | some sp, some i =>
      { g.putSplit i (some (if sp.wait == .atMerge then passAlone sp else sp)) with
        deferred := g.deferred.filter fun y => y.uid != sp.uid }
    | _, _ => g

/-- Every consequence of freed entries. -/
def settleSplits : Nat → Gang → Gang
  | 0, g => g
  | n + 1, g => settleSplits n (settleOnce g)

/-- The gang with a current split that is there: the next ready one, or the next one (R162). -/
def fixCurrent (g : Gang) : Gang :=
  if g.split?.isSome then g
  else match nextReady g with
    | some i => { g with cur := i, fair := 0, fairDefer := none }
    | none =>
      match ((List.range 8).map fun i => (g.cur + i) % 8).find? fun i => (tget none g.splits i).isSome with
      | some i => { g with cur := i, fair := 0, fairDefer := none }
      | none => g

-- Barriers.

/-- Whether a gang has arrived at its block's barrier (R192): no live lane, or every one in a split at a BAR. -/
def arrivedBar (g : Gang) : Bool := g.deferred.isEmpty && g.splitList.all fun e => e.2.wait == .atBar

/-- Whether a gang has arrived at a crew's barrier (R194). -/
def arrivedCbar (c : Nat) (g : Gang) : Bool := g.deferred.isEmpty && g.splitList.all fun e => e.2.wait == .atCbar c

/-- The splits of a gang at a barrier continue, behind the fence of R133. -/
def releaseGang (s : State) (w : SplitWait) (deps : List Nat) (g : Gang) : Gang :=
  { g with splits := g.splits.map fun e => (e.1, e.2.map fun sp =>
      if sp.wait = w then fenceSplit s { sp with wait := .ready, pc := sp.pc + 8 } deps deps else sp) }

/-- The splits of several gangs at a barrier continue. -/
def releaseGangs (s : State) (w : SplitWait) (keys : List Nat) : State :=
  let deps := keys.flatMap fun k => pendingOf s k
  let s := dropAhead s fun k _ => keys.contains k
  keys.foldl (fun s' k => s'.modGang k (releaseGang s w deps)) s

/-- BAR completes once every gang of the block has arrived (R192). -/
def checkBar (s : State) (n : Nat) : State :=
  let keys := s.gangsOf n
  if keys.all fun k => (match s.gang? k with | some g => arrivedBar g | none => true) then releaseGangs s .atBar keys else s

/-- The key of a crew: the context on its core, and the crew's number (R36). -/
def crewKey (b : Block) (c : Nat) : Nat := (b.ctx * 256 + b.core) * 32 + c

/-- The members of a crew that the pending barrier counts (R193). -/
def Crew.counted (c : Crew) : List Nat := (c.members.filter fun m => decide (m.2.1 ≤ c.gen)).map (·.1)

/-- Whether a split of a gang waits at a CBAR of a crew. -/
def waitsAt (s : State) (c key : Nat) : Bool :=
  match s.gang? key with
  | some g => (g.splitList.map (·.2) ++ g.deferred).any fun sp => sp.wait == .atCbar c
  | none => false

/-- Whether a member of a crew has arrived (R194): it has live lanes, and all of them wait there. -/
def memberArrived (s : State) (c : Nat) (key : Nat) : Bool :=
  match s.gang? key with
  | some g => g.live != 0 && arrivedCbar c g
  | none => false

/-- Whether a crew's barrier is pending: some gang that it counts has arrived, or left it (R36, R193). -/
def Crew.pendingBar (s : State) (c : Nat) (x : Crew) : Bool :=
  !x.members.isEmpty && (!x.left.isEmpty || x.counted.any (memberArrived s c))

/-- A crew as its pending barrier counts it (R195): a join of the cycle in which something arrives counts for the next
generation. -/
def Crew.countJoins (s : State) (c : Nat) (x : Crew) : Crew :=
  if Crew.pendingBar s c x then
    { x with members := x.members.map fun m =>
        if m.2.2 = s.cycle ∧ m.2.1 ≤ x.gen ∧ !memberArrived s c m.1 then (m.1, x.gen + 1, m.2.2) else m }
  else x

/-- CBAR completes once every member it counts has arrived (R194, R195); its generation advances. -/
def checkCrew : Nat → State → Nat → Nat → State
  | 0, s, _, _ => s
  | n + 1, s, k, c =>
    let x := Crew.countJoins s c (s.crew k)
    if x.members.isEmpty then s.setCrew k { x with left := [] }
    else if Crew.pendingBar s c x then
      if x.counted.all (memberArrived s c) then
        checkCrew n ((releaseGangs s (.atCbar c) x.counted).setCrew k { x with gen := x.gen + 1, left := [] }) k c
      else s.setCrew k x
    else s

/-- A gang out of a crew (R193): while a barrier is pending the leave counts as an arrival, and a split of the
gang that waits at a CBAR of the crew goes on behind a `fence.ar.core` of its own. -/
def leaveCrew (s : State) (key : Nat) (b : Block) (c : Nat) : State :=
  let k := crewKey b c
  let x := Crew.countJoins s c (s.crew k)
  match x.members.find? (·.1 == key) with
  | none => s
  | some m =>
    let pend := Crew.pendingBar s c x || waitsAt s c key
    let left := if pend && decide (m.2.1 ≤ x.gen) then x.left ++ [key] else x.left
    let s := s.setCrew k { x with members := x.members.filter (·.1 != key), left := left }
    let s := if waitsAt s c key then dropAhead s fun k _ => k == key else s
    let ld := pendingLoads s key
    let st := pendingOf s key
    let s := s.modGang key fun g => { g with splits := g.splits.map fun e => (e.1, e.2.map fun sp =>
      if sp.wait = .atCbar c then fenceSplit s { sp with wait := .ready, pc := sp.pc + 8 } ld st else sp) }
    checkCrew 3 s k c

/-- The matrix side of a gang that has ended: its open instructions close into a final batch (R303), and with no
batch left its reservations are released (R287). -/
def endMatrix (m : MatSt) : MatSt :=
  let m := match m.opened with
    | some b => { m with opened := none, top := m.top + 1, closed := tput none m.closed (m.top + 1) (some b) }
    | none => m
  if m.closed.isEmpty then { m with res := [] } else m

/-- A pending ENGINE_FAULT of a gang without live lanes is taken at once: no instruction boundary of it is to come (R117,
R379). -/
def endTraps (s : State) (key : Nat) : State :=
  match s.gang? key with
  | none => s
  | some g =>
    match g.traps.find? fun t => t.cause == tEngine with
    | some t =>
      if g.live != 0 || g.stopped.isSome then s
      else takeTrap (s.setGang key { g with traps := g.traps.erase t }) key t.cause t.sub t.aux t.lanes [t.addr] (some 0)
    | none => s

/-- What follows when a gang has no live lanes left (R123, R184): unresolved guards resolve false, its matrix work
closes, it leaves every crew, and it counts as arrived at its block's barrier. -/
def gangEnded (s : State) (key : Nat) (b : Block) (n : Nat) : State :=
  let s := s.modGang key fun g => { g with mat := endMatrix g.mat }
  let s := s.modGang key fun g => { g with regs := { g.regs with
    g := (List.range 15).foldl (fun t i => if tget Guard.unresolved t (i + 1) = .unresolved
      then tput .unresolved t (i + 1) .isFalse else t) g.regs.g } }
  endTraps (checkBar ((List.range 32).foldl (fun s c => leaveCrew s key b c) s) n) key

/-- Lanes of a split's entry leave the gang (R22, R165, R184): what is left of the split is given by `rest`;
an entry with no lane is freed and counts as having reached MERGE; barriers take note. -/
def dropLanes (s : State) (key i : Nat) (m : Lanes) (rest : Gang → Split → Gang × Split) : State :=
  match s.gang? key with
  | none => s
  | some g =>
    match tget none g.splits i, s.block? g.block with
    | some sp, some b =>
      let g := { g with live := g.live &&& ~~~m }
      let sp := { sp with lanes := sp.lanes &&& ~~~m, exm := sp.exm &&& ~~~m, resv := none, spent := [] }
      let g := if sp.lanes = 0 then settleSplits 64 (g.putSplit i none)
        else let r := rest g sp; settleSplits 64 (r.1.putSplit i (some r.2))
      let g := fixCurrent g
      let s := s.setGang key g
      if g.live = 0 then gangEnded s key b g.block
      else
        let s := checkBar s g.block
        (List.range 32).foldl (fun s c => checkCrew 3 s (crewKey b c) c) s
    | _, _ => s

end Sys2Proof.Machine
end

