-- ==== Sys2Proof/Machine/Millrace.lean ====
section
/-! DEFINITION. The Millrace (R310 to R325): the array's evaluation in crossbar and mesh mode, its queue, and
the instructions of majors 0x60 to 0x65. -/

namespace Sys2Proof.Machine

/-- The code of never-rises (R310). -/
def nrCode : Nat := 1023

/-- A delay code as it is stored: 0 to 63 is a delay, all else is open (R316, R317). -/
def storedCode (c : Nat) : Nat := if c < 64 then c else 127

/-- Whether a loaded code sets BADCODE (R316). -/
def badCode (c : Nat) : Bool := !(decide (c < 64) || c == 127)

/-- An input as an evaluation with a window reads it (R310). -/
def arrInput (n x : Nat) : Option Nat := if x % 1024 < n then some (x % 1024) else none

/-- Whether an input is clipped (R310). -/
def arrClipped (n x : Nat) : Bool := decide (n ≤ x % 1024) && x % 1024 != nrCode

/-- The least of the values that are there. -/
def minOpt : List (Option Nat) → Option Nat
  | [] => none
  | none :: r => minOpt r
  | some a :: r => match minOpt r with | some b => some (min a b) | none => some a

/-- The greatest of the values; none if one is not there, or none is given (R316). -/
def maxAll : List (Option Nat) → Option Nat
  | [] => none
  | [x] => x
  | x :: r => match x, maxAll r with | some a, some b => some (max a b) | _, _ => none

/-- The value of an output row of the crossbar (R316). -/
def crossRow (codes : Tab Nat) (combine : BitVec 128) (x : List (Option Nat)) (o : Nat) : Option Nat :=
  let ps := (codes.filter fun e => e.1 / 128 == o).map fun e =>
    ((x.getD (e.1 % 128) none).map (· + e.2) : Option Nat)
  if combine.getLsbD o then maxAll ps else minOpt ps

/-- The code of an input of a mesh cell: 0 north, 1 west, 2 north-west (R317). -/
def meshCode (codes : Tab Nat) (y x i : Nat) : Nat := tget 127 codes ((y * 64 + x) * 3 + i)

/-- A source through an input. -/
def through (c : Nat) (src : Option Nat) : Option Nat := if c < 64 then src.map (· + c) else none

/-- A row of mesh cells from the row above, the west source and the north-west source (R317). -/
def meshRow (codes : Tab Nat) (y : Nat) : Nat → List (Option Nat) → Option Nat → Option Nat → List (Option Nat)
  | _, [], _, _ => []
  | x, n :: r, west, nw =>
    let u := minOpt [through (meshCode codes y x 0) n, through (meshCode codes y x 1) west, through (meshCode codes y x 2) nw]
    u :: meshRow codes y (x + 1) r u n

/-- The rows of the mesh from row `y` on (R317): `above` is the row above, `nw` the source of the first
cell's north-west input, `l` the left edge. -/
def meshRows (codes : Tab Nat) : Nat → List (Option Nat) → Option Nat → List (Option Nat) → List (List (Option Nat))
  | _, _, _, [] => []
  | y, above, nw, w :: r =>
    let row := meshRow codes y 0 above w nw
    row :: meshRows codes (y + 1) row w r

/-- The unbounded values of an evaluation: 128 outputs, or 4096 cells row by row (R311). -/
def arrEval (a : Array) (va vb : VVal) : List (Option Nat) :=
  let xa := va.map fun x => arrInput a.twin x.toNat
  let xb := vb.map fun x => arrInput a.twin x.toNat
  if a.mesh then (meshRows a.codes 0 xa none xb).flatten
  else (List.range 128).map (crossRow a.codes a.combine (xa ++ xb))

/-- What an evaluation with a window captures of an unbounded value (R311). -/
def captured (n : Nat) (u : Option Nat) : Nat :=
  match u with
  | some t => if t < n then t else nrCode
  | none => nrCode

/-- Bits of RCSTAT (R313). -/
def rcBadcode : Nat := 1
def rcNotreset : Nat := 2
def rcSatw : Nat := 4
def rcInclip : Nat := 8
def rcNocap : Nat := 16

/-- The array when an RCGO takes effect (R322); the evaluation ends at the given cycle. -/
def arrGo (a : Array) (va vb : VVal) (ends : Nat) : Array :=
  if a.dirty then { a with bits := a.bits ||| rcNotreset, capv := false }
  else
    let u := arrEval a va vb
    let clip := (va ++ vb).any fun x => arrClipped a.twin x.toNat
    let late := u.any fun x => match x with | some t => decide (a.twin ≤ t) | none => false
    { a with
      eval := some (1, ends), dirty := true, capv := false, capMesh := a.mesh,
      pending := u.map (captured a.twin),
      pendBits := (if clip then rcInclip else 0) ||| (if late then rcSatw else 0) }

/-- The array when an RCMODE takes effect (R320). -/
def arrMode (a : Array) (mesh : Bool) (x y : DWord) : Array :=
  let a := if a.mesh = mesh then a else { a with mesh := mesh, codes := [] }
  if mesh then a else { a with combine := y ++ x }

/-- The codes of one loaded row of the crossbar. -/
def loadCross (t : Tab Nat) (o : Nat) (bytes : List Byte) : Tab Nat :=
  (bytes.zipIdx).foldl (fun t e => tput 127 t (o * 128 + e.2) (storedCode e.1.toNat)) t

/-- The codes of one loaded row of the mesh (R321): four bytes a cell, the fourth zero. -/
def loadMesh (t : Tab Nat) (y : Nat) (bytes : List Byte) : Tab Nat :=
  (bytes.zipIdx).foldl (fun t e =>
    if e.2 % 4 = 3 then t else tput 127 t ((y * 64 + e.2 / 4) * 3 + e.2 % 4) (storedCode e.1.toNat)) t

/-- Whether a loaded row sets BADCODE (R321). -/
def badRow (mesh : Bool) (bytes : List Byte) : Bool :=
  (bytes.zipIdx).any fun e => if mesh && e.2 % 4 == 3 then e.1 != 0 else badCode e.1.toNat

/-- The array when an RCLD takes effect (R321). -/
def arrLoad (a : Array) (mesh : Bool) (first : Nat) (rows : List (List Byte)) : Array :=
  if a.mesh ≠ mesh then { a with bits := a.bits ||| rcBadcode }
  else
    { a with
      codes := (rows.zipIdx).foldl (fun t e => if mesh then loadMesh t (first + e.2) e.1 else loadCross t (first + e.2) e.1) a.codes,
      bits := if rows.any (badRow mesh) then a.bits ||| rcBadcode else a.bits }

/-- Whether a selection names the mode of the capture (R323). -/
def selMesh : CapSel → Bool
  | .lo => false
  | .hi => false
  | .bot => true
  | .right => true
  | .row _ => true

/-- The element of a selection for a lane (R323). -/
def selIndex (s : CapSel) (l : Nat) : Nat :=
  match s with
  | .lo => l
  | .hi => 64 + l
  | .bot => 63 * 64 + l
  | .right => l * 64 + 63
  | .row r => r * 64 + l

/-- The values an RCCAP writes, and the array after it (R323). -/
def arrCap (a : Array) (sel : CapSel) (m : Lanes) (d : Nat) : Array × List (Nat × Nat × Word) :=
  if a.capv && a.capMesh == selMesh sel then
    (a, longLanes false d m fun l => a.capture.getD (selIndex sel l) nrCode)
  else ({ a with bits := a.bits ||| rcNocap }, longLanes false d m fun _ => nrCode)

/-- The reference cycles that a number of core ticks takes (R17, R18). DESIGN CHOICE (log 56): with a lowered core clock
they are rounded up to whole reference cycles, and the end is fixed when the evaluation or the reset starts. -/
def ticks (s : State) (n : Nat) : Nat := (n * 2000 + s.pf.mhz - 1) / s.pf.mhz

/-- The first instruction of the array's queue takes effect (R314). -/
def arrStep (s : State) (core : Nat) (a : Array) (op : ArrOp) : State :=
  match op with
  | .window n => s.setArray core { a with twin := n }
  | .mode mesh x y => s.setArray core (arrMode a mesh x y)
  | .load mesh first rows => s.setArray core (arrLoad a mesh first rows)
  | .go va vb => s.setArray core (arrGo a va vb (s.cycle + ticks s (a.twin + 8)))
  | .cap sel u m d =>
    let r := arrCap a sel m d
    let s := s.setArray core r.1
    match s.long? u with
    | some x => s.setLong u (some { x with vs := r.2, array := false })
    | none => s
  | .clear => s.setArray core { a with eval := some (2, s.cycle + ticks s 8) }
  | .await _ => s
  | .hold _ _ => s
  | .stat clr => s.setArray core { a with bits := a.bits &&& (31 - clr.toNat % 32) }

/-- Whether the first entry of the queue has to wait where it stands (R314): a load whose reads have not performed, or the
place of an SRD whose split is still there and has not come to it. -/
def arrWaits (s : State) (op : ArrOp) : Bool :=
  match op with
  | .await u => (s.engOp? u).isSome
  | .hold key split => match s.gang? key with
    | some g => g.stopped.isNone && (g.splitList.map (·.2) ++ g.deferred).any fun sp => sp.uid == split
    | none => false
  | _ => false

/-- The array's queue worked off as far as it goes (R314, R325): an evaluation or a reset stops it, and so does
an owner in the background. -/
def drainArray : Nat → State → Nat → State
  | 0, s, _ => s
  | n + 1, s, core =>
    let a := s.array core
    match a.eval, a.queue, a.owner with
    | none, op :: rest, some o =>
      let free : Bool := match s.block? o with | some b => b.phase == .running && foreground s b | none => false
      if free && !arrWaits s op then
        drainArray n (arrStep s core { a with queue := rest } op) core
      else s
    | _, _, _ => s

/-- The core of a gang's block. -/
def coreOf (s : State) (g : Gang) : Nat := match s.block? g.block with | some b => b.core | none => 0

/-- An instruction of a gang joins the queue of its core's array. -/
def pushArray (s : State) (g : Gang) (op : ArrOp) : State :=
  let core := coreOf s g
  let a := s.array core
  drainArray 17 (s.setArray core { a with queue := a.queue ++ [op], pushed := some (s.cycle, g.sched.quarter) }) core

/-- An SRD of the array's state of the gang that issues takes its place in the queue, if it cannot act at once and has
none (R314). -/
def takePlace (s : State) (u : Use) : State :=
  match s.cur with
  | none => s
  | some key =>
    match s.gang? key with
    | none => s
    | some g =>
      match g.split?, s.block? g.block with
      | some sp, some b =>
        let a := s.array b.core
        if arrTurn a key sp || a.queue.contains (.hold key sp.uid) ||
            gate s key b g sp { u with arrIdle := false, arr := true } != .go then s
        else pushArray s g (.hold key sp.uid)
      | _, _ => s

/-- The SRD of a gang's current split acts: its place in the queue goes, and what is behind it moves on (R314). -/
def leavePlace (s : State) (key : Nat) (g : Gang) (sp : Split) : State :=
  let core := coreOf s g
  let a := s.array core
  match a.queue with
  | op :: rest => if op = .hold key sp.uid then drainArray 17 (s.setArray core { a with queue := rest }) core else s
  | [] => s

/-- An SRD that finds the queue empty acts at once: no gang of a lower quarter goes before it in this cycle (R314). -/
def servedNow (s : State) (g : Gang) : State :=
  let core := coreOf s g
  let a := s.array core
  if a.queue.isEmpty then s.setArray core { a with pushed := some (s.cycle, g.sched.quarter) } else s

/-- What an array instruction needs: the array, and a place in its queue. -/
def arrUse : Use := { race := true, arr := true }

/-- A precise trap of the issuing gang, with the split's EXM as its lanes (R379). -/
def trapHere (s : State) (key : Nat) (sp : Split) (cause sub size : Nat) (addrs : List DWord) : State :=
  takeTrap s key cause sub 0 sp.exm addrs (some size)

/-- ENGINE_FAULT cause MARG (R284). -/
def eMarg : Nat := 5

/-- RCWIN (R319). -/
def execRcwin (a : KReg) (s : State) : Out :=
  issue s { arrUse with k := [a] } 8 fun s key g sp =>
    let n := (g.kget a).toNat
    if n = 0 ∨ 1023 < n then trapHere s key sp tEngine eMarg 8 []
    else pushArray (retire s key g sp 8) g (.window n)

/-- RCMODE (R320). -/
def execRcmode (mesh : Bool) (a b : KReg) (s : State) : Out :=
  issue s { arrUse with k := [a, b] } 8 fun s key g sp =>
    pushArray (retire s key g sp 8) g (.mode mesh (g.kget a) (g.kget b))

/-- Bytes of a block's scratchpad window, as a load of one of its gangs with a number reads them (R134, R135). -/
def scratchBytes (s : State) (u key : Nat) (b : Block) (off n : Nat) : List Byte :=
  (List.range n).map fun i => forwardByte s u key ⟨true, scrKey b.core b.bank (b.scrbase + off + i), 0, 0⟩ 0

-- What an access of the matrix engine or the Millrace reads, word by word (R290, R321).

/-- The words of 4 bytes in each piece of an access, or one for a smaller piece. -/
def EngOp.per (x : EngOp) : Nat := max 1 (x.size / 4)

/-- A word of an access: what has been read of it already, or what its gang reads there now (R134, R135). -/
def engWord (s : State) (u : Nat) (x : EngOp) (k : Nat) : List Byte :=
  match x.got.find? (·.1 == k) with
  | some e => e.2
  | none =>
    match x.locs[k / x.per]? with
    | some l => (List.range (min x.size 4)).map fun i => forwardByte s u x.gang l (4 * (k % x.per) + i)
    | none => []

/-- All that an access reads (R134, R135); a store of the gang that it takes a byte of is marked (R127). -/
def engRead (s : State) (u : Nat) (x : EngOp) : State × List Byte :=
  (x.locs.foldl (fun s l => markRead s u x.gang x.split ⟨0, 0, l, x.size, 0, 0⟩) s,
    (List.range (x.locs.length * x.per)).flatMap (engWord s u x))

/-- Bytes cut into rows. -/
def rowsOf (size : Nat) : Nat → List Byte → List (List Byte)
  | 0, _ => []
  | n + 1, bs => bs.take size :: rowsOf size n (bs.drop size)

/-- RCLD (R321). -/
def execRcld (mesh : Bool) (kb : KReg) (disp : BitVec 32) (kn : KReg) (s : State) : Out :=
  issueWhen s { arrUse with k := [kb, kn], reads := true } 12
    (fun s _ g _ _ => decide (engBounced s g.block < engineEntries)) fun s key g sp =>
    let n := g.kget kn
    let first := bitsOf n 6 0
    let count := bitsOf n 14 8 + 1
    let a := g.kget kb + sx32 disp
    let row := if mesh then 256 else 128
    if bitsOf n 63 15 ≠ 0 ∨ bitOf n 7 ∨ (if mesh then 64 else 128) < first + count then
      trapHere s key sp tEngine eMarg 12 []
    else if a.toNat % 4 ≠ 0 then trapHere s key sp tProtection pAlign 12 [a]
    else match s.block? g.block with
      | none => s
      | some b =>
        let win := 256 * b.need.scratch
        if win < a.toNat + count * row then
          trapHere s key sp tProtection pBound 12 [if a.toNat < win then dw win else a]
        else
          let eas := (List.range count).map fun j => a + dw (j * row)
          let u := s.uid
          let op : EngOp := { gang := key, split := sp.uid, goal := .codes mesh first, batch := 0, space := .scratch,
                              size := row, eas := eas,
                              locs := eas.map fun a => ⟨true, scrKey b.core b.bank (b.scrbase + a.toNat), 0, 0⟩,
                              deps := [], bounces := 0, bounced := false, cause := 0, since := s.cycle }
          if g.sched.defer then
            pushArray (retire ({ s with uid := u + 1 } : State) key g sp 12 |>.setEngOp u (some op)) g (.await u)
          else
            let r := engRead s u op
            pushArray (retire r.1 key g sp 12) g (.load mesh first (rowsOf row count r.2))

/-- RCGO (R322). -/
def execRcgo (a b : VReg) (s : State) : Out :=
  issue s { arrUse with v := [a, b] } 8 fun s key g sp =>
    pushArray (retire s key g sp 8) g (.go (g.vget a) (g.vget b))

/-- RCCAP (R323): a long operation whose values the array gives when the instruction's turn comes. -/
def execRccap (sel : CapSel) (d : VReg) (la : Nat) (s : State) : Out :=
  issue s { arrUse with v := [d], long := true } 8 fun s key g sp =>
    let u := s.uid
    let op : LongOp := { gang := key, split := sp.uid, vs := [], ks := [], flags := [], en := 0, array := true }
    let s := { s with uid := u + 1, longs := tput none s.longs u (some op) }
    pushArray (retire s key g (openWindow sp u la false [d] []) 8) g (.cap sel u sp.exm d)

/-- RCCLR (R324). -/
def execRcclr (s : State) : Out :=
  issue s arrUse 8 fun s key g sp =>
    pushArray (retire s key g sp 8) g .clear

/-- The array's evaluation or reset ends, if its time has come, and the queue goes on (R314, R322, R324). -/
def endArray (s : State) (core kind : Nat) : State :=
  let a := s.array core
  match a.eval with
  | some (k, t) =>
    if k = kind ∧ t ≤ s.cycle then drainArray 17 (s.setArray core (finishEval a)) core else s
  | none => s

/-- EVALUATION_END (R322). -/
def execEvaluationEnd (core : Nat) (s : State) : Out := .next (endArray s core 1)

/-- RESET_END (R324). -/
def execResetEnd (core : Nat) (s : State) : Out := .next (endArray s core 2)

end Sys2Proof.Machine
end

