-- ==== Sys2Proof/Machine/Scheduler.lean ====
section
/-! DEFINITION. The gang scheduler of a quarter (R158 to R161) and the fairness timer (R162, R163). -/

namespace Sys2Proof.Machine

/-- Whether a gang is waiting (R158): none of its splits can issue, by its own state and by what the scheduler has seen of
their next instructions. -/
def gangWaiting (s : State) (g : Gang) : Bool :=
  g.hold != .none || g.stopped.isSome || !gangForeground s (g.block * 16) ||
    !(match s.block? g.block with | some b => b.phase == .running | none => false) ||
    g.splitList.all fun e => e.2.wait != .ready || g.sched.stuck.contains e.2.uid ||
      e.2.windows.any fun w => !w.done && w.left == 0

/-- The gangs that share the quarter and the bank of a gang. -/
def quarterGangs (s : State) (key : Nat) : List (Nat × Gang) :=
  match s.gang? key with
  | none => []
  | some g =>
    match s.block? g.block with
    | none => []
    | some b => (tentries s.gangs).filter fun e =>
        e.2.sched.quarter == g.sched.quarter && (match s.block? e.2.block with
          | some c => c.core == b.core && c.bank == b.bank && c.resident
          | none => false)

/-- Whether a gang wins a place over another (R158): higher PRI, then the longer wait. DESIGN CHOICE (log 75): then the lower
slot. -/
def placeBefore (a b : Gang) : Bool :=
  decide (b.regs.pri < a.regs.pri) || (a.regs.pri == b.regs.pri && (decide (a.sched.waitSince < b.sched.waitSince) ||
    (a.sched.waitSince == b.sched.waitSince && decide (a.sched.slot < b.sched.slot))))

/-- The best of a list of gangs by an order. -/
def bestGang (better : Gang → Gang → Bool) : List (Nat × Gang) → Option (Nat × Gang)
  | [] => none
  | x :: r => match bestGang better r with
    | some y => if better x.2 y.2 then some x else some y
    | none => some x

/-- A gang put into the active set or out of it. -/
def setActive (s : State) (key : Nat) (a : Bool) : State :=
  s.modGang key fun g => { g with sched := { g.sched with
    active := a, waitSince := s.cycle, boost := false, entered := if a then some s.cycle else none } }

/-- One step of the refill of a quarter (R158): a ready pending gang takes a free place, or, in a new cycle, the place of a
waiting gang. -/
def refillOnce (s : State) (fresh : Bool) (key : Nat) : State :=
  let q := quarterGangs s key
  match bestGang placeBefore (q.filter fun e => !e.2.sched.active && !gangWaiting s e.2) with
  | none => s
  | some p =>
    let act := q.filter fun e => e.2.sched.active
    if act.length < 8 then setActive s p.1 true
    else match act.find? fun e => fresh && gangWaiting s e.2 with
      | some w => setActive (setActive s w.1 false) p.1 true
      | none => s

/-- The active set of a quarter kept full (R158). -/
def refill (fresh : Bool) : Nat → State → Nat → State
  | 0, s, _ => s
  | n + 1, s, key => refill fresh n (refillOnce s fresh key) key

/-- A gang gives its active place to a ready pending gang, if there is one (R197). -/
def giveWay (s : State) (key : Nat) : State :=
  match bestGang placeBefore ((quarterGangs s key).filter fun e => !e.2.sched.active && !gangWaiting s e.2 && e.1 != key) with
  | some p => setActive (setActive s key false) p.1 true
  | none => s

/-- Whether the current split holds a reservation (R163). -/
def holdsResv (g : Gang) : Bool :=
  match g.split? with
  | some sp => (sp.resv.toList ++ sp.spent).any fun r => !r.elems.isEmpty
  | none => false

/-- The current split's reservations cleared. -/
def clearCurResv (g : Gang) : Gang :=
  match g.split? with
  | some sp => g.setSplit sp.noResv
  | none => g

/-- The fairness timer has expired (R162, R163): the gang switches, unless a reservation defers the switch; a
deferral of 64 instructions ends it and the reservation. -/
def fairExpire (g : Gang) : Gang :=
  if (nextReady g).isNone then g
  else if !holdsResv g then switchSplit g
  else match g.fairDefer with
    | none => { g with fairDefer := some 0 }
    | some n => if n < 64 then g else switchSplit (clearCurResv g)

/-- Whether the fairness timer has expired (R162): it has counted 256 instructions, or it is treated as expired and a
reservation has deferred the switch (R163, R197). -/
def fairOver (g : Gang) : Bool := decide (256 ≤ g.fair) || g.fairDefer.isSome

/-- Whether the fairness timer has expired and its switch is due (R162, R163). -/
def fairDue (g : Gang) : Bool :=
  fairOver g && (nextReady g).isSome &&
    (!holdsResv g || (match g.fairDefer with | none => true | some n => decide (64 ≤ n)))

/-- FAIRNESS_TIMER (R162, R163). -/
def execFairnessTimer (gang : Nat) (s : State) : Out :=
  .next (s.modGang gang fun g => if fairOver g then fairExpire g else g)

/-- ISSUE_BOOST (R160): a ready active gang that has not issued for 4096 cycles. -/
def execIssueBoost (gang : Nat) (s : State) : Out :=
  .next (s.modGang gang fun g =>
    if g.sched.active && !gangWaiting s g && decide (g.sched.lastIssue + 4096 ≤ s.cycle) then
      { g with sched := { g.sched with boost := true } } else g)

/-- Whether an active gang is displaced before another (R160): lower PRI, then the later issue. -/
def displacedBefore (a b : Gang) : Bool :=
  decide (a.regs.pri < b.regs.pri) || (a.regs.pri == b.regs.pri && decide (b.sched.lastIssue < a.sched.lastIssue))

/-- ENTRY_BOOST (R160): a ready pending gang that has waited 4096 cycles takes the place of the active gang with
the lowest PRI. -/
def execEntryBoost (gang : Nat) (s : State) : Out :=
  match s.gang? gang with
  | none => .next s
  | some g =>
    if !g.sched.active && !gangWaiting s g && decide (g.sched.waitSince + 4096 ≤ s.cycle) then
      let act := (quarterGangs s gang).filter fun e => e.2.sched.active
      if act.length < 8 then .next (setActive s gang true)
      else match bestGang displacedBefore act with
        | some v => .next (setActive (setActive s v.1 false) gang true)
        | none => .next s
    else .next s

end Sys2Proof.Machine
end

