-- ==== Sys2Proof/Machine/Control.lean ====
section
/-! DEFINITION. Control, synchronisation and waiting instructions (R43, R177 to R184, R189 to R199). -/

namespace Sys2Proof.Machine

/-- NOP (R43). -/
def execNop (s : State) : Out := localOp s {} 8 fun _ g sp => (g, sp)

/-- A split that takes a branch to a target. -/
def takeBranch (g : Gang) (sp : Split) (target : DWord) : Split :=
  { countBranch g sp sp.pc target with pc := target }

/-- The target of a branch (R50). -/
def branchTarget (sp : Split) (off : BitVec 32) : DWord := sp.pc + sx32 off

/-- BRA (R178). -/
def execBra (off : BitVec 32) (s : State) : Out :=
  issue s {} 12 fun s key g sp => commit s key g (takeBranch g sp (branchTarget sp off))

/-- Whether a condition of BRC holds (R179). -/
def brHolds (c : BrCond) (x y : DWord) : Bool :=
  match c with
  | .eq => x == y
  | .ne => x != y
  | .lt => x.slt y
  | .ge => !x.slt y
  | .ltu => decide (x.toNat < y.toNat)
  | .geu => decide (y.toNat ≤ x.toNat)

/-- The second operand of BRC (R179). -/
def brOperand (g : Gang) : KSrc → DWord
  | .reg k => g.kget k
  | .imm i => i.signExtend 64

/-- BRC (R179). -/
def execBrc (c : BrCond) (a : KReg) (y : KSrc) (off : BitVec 32) (s : State) : Out :=
  issue s { k := a :: (match y with | .reg k => [k] | .imm _ => []) } 12 fun s key g sp =>
    if brHolds c (g.kget a) (brOperand g y) then commit s key g (takeBranch g sp (branchTarget sp off))
    else retire s key g sp 12

/-- The part of a split's reservation set that some lanes hold. -/
def resvPart (m : Lanes) (r : Resv) : Resv := { r with elems := r.elems.filter fun e => inLanes m e.1 }

/-- The part of a split's pending effects that some lanes perform. -/
def effPart (m : Lanes) (l : List PendEff) : List PendEff :=
  (l.map fun e => { e with lanes := e.lanes &&& m }).filter fun e => e.lanes != 0

/-- One side of a division (R34, R180): what it inherits of the parent, with its lanes and its place. DESIGN CHOICE (log 68):
it keeps its lanes' part of the reservation sets. -/
def divide (sp : Split) (id : Nat) (taken : Bool) (lanes exm : Lanes) (pc : DWord) : Split :=
  { sp with pc := pc, lanes := lanes, exm := exm, path := sp.path ++ [⟨id, taken⟩],
            resv := sp.resv.map (resvPart lanes), spent := sp.spent.map (resvPart lanes), eff := effPart lanes sp.eff }

/-- The requests that a split has outstanding: what a split divided from it comes after (R124). -/
def outstandingOf (s : State) (key : Nat) (sp : Split) : List Nat :=
  ((tentries s.reqs).filter fun e => e.2.gang == key && e.2.split == sp.uid).map (·.1) ++
    ((tentries s.rreqs).filter fun e => e.2.gang == key && e.2.split == sp.uid).map (·.1) ++
    sp.elder.filter fun u => (s.req? u).isSome || (s.rreq? u).isSome

/-- What a split has read of stores that have not performed, the split divided from it has read too (R124, R127). -/
def inheritReads (s : State) (key old new : Nat) : State :=
  { s with reqs := s.reqs.map fun e => (e.1, e.2.map fun r =>
      if r.gang = key ∧ r.readers.contains old then { r with readers := r.readers ++ [new] } else r) }

/-- BRD (R34, R180). DESIGN CHOICE (log 71): the side with the lowest lane keeps the entry of the split, and the other takes the
lowest free one. -/
def execBrd (neg : Bool) (a : MReg) (off : BitVec 32) (s : State) : Out :=
  issue s {} 12 fun s key g sp =>
    let taken := sp.exm &&& (if neg then ~~~(g.mget a) else g.mget a)
    let target := branchTarget sp off
    if taken = sp.exm then commit s key g (takeBranch g sp target)
    else if taken = 0 then retire s key g sp 12
    else
      let id := s.uid
      let elder := outstandingOf s key sp
      let t0 := divide sp id true taken taken target
      let t := { countBranch g t0 sp.pc target with pc := target }
      let n := divide sp id false (sp.lanes &&& ~~~taken) (sp.exm &&& ~~~taken) (sp.pc + 12)
      match tfree g.splits 8 0 with
      | some j =>
        let s := inheritReads { s with uid := id + 2 } key sp.uid (id + 1)
        if lowest t.lanes < lowest n.lanes then
          commit s key (g.putSplit j (some { n with uid := id + 1, elder := elder })) t
        else commit s key (g.putSplit j (some { t with uid := id + 1, elder := elder })) n
      | none =>
        if 56 ≤ g.deferred.length then trapHere s key sp tConvergence 0 12 []
        else
          let s := inheritReads { s with uid := id + 2 } key sp.uid (id + 1)
          commit s key { g with deferred := g.deferred ++ [{ n with uid := id + 1, elder := elder }] } t

/-- Whether a vote holds (R181, R279). -/
def voteHolds (v : Vote) (x exm : Lanes) : Bool :=
  match v with
  | .any => x != 0
  | .all => x == exm
  | .none => x == 0

/-- BRV (R181). -/
def execBrv (v : Vote) (a : MReg) (off : BitVec 32) (s : State) : Out :=
  issue s {} 12 fun s key g sp =>
    if voteHolds v (g.mget a &&& sp.exm) sp.exm then commit s key g (takeBranch g sp (branchTarget sp off))
    else retire s key g sp 12

/-- CALL (R182). -/
def execCall (d : KReg) (off : BitVec 32) (s : State) : Out :=
  issue s { k := [d] } 12 fun s key g sp =>
    commit s key (g.kset d (sp.pc + 12)) { sp with pc := branchTarget sp off }

/-- RET (R40, R182). -/
def execRet (a : KReg) (s : State) : Out :=
  issue s { k := [a] } 8 fun s key g sp =>
    if (g.kget a).toNat % 4 ≠ 0 then trapHere s key sp tIllegal 0 8 []
    else commit s key g { sp with pc := g.kget a }

/-- MERGE (R34, R183, R374). -/
def execMerge (s : State) : Out :=
  issue s { close := true } 8 fun s key g sp => mergeSplit s key g g.cur { sp with wd := 0 }

/-- The end of an invocation whose lanes have all exited while held lanes remain (R374). -/
def endInvocation (s : State) (g : Gang) (sp : Split) (inv : Inv) : Gang × Split :=
  let e := inv.cont.exm &&& sp.lanes
  let sp := { sp with pc := inv.cont.pc, chain := sp.chain.dropLast, exm := if e = 0 then sp.lanes else e }
  match liveRec s g inv.token with
  | some (i, r) =>
    let g := restoreWindow g r
    (if r.kind = .one then freeRec g i else g, sp)
  | none => (g, sp)

/-- What is left of a split after an EXIT of some of its lanes (R184, R374). -/
def afterExit (s : State) (g : Gang) (sp : Split) : Gang × Split :=
  if sp.exm ≠ 0 then (g, { sp with pc := sp.pc + 8 })
  else match sp.chain.getLast? with
    | some inv => endInvocation s g sp inv
    | none => (g, { sp with pc := sp.pc + 8, exm := sp.lanes })

/-- EXIT (R184, R374). DEDUCED (log 72): without an active lane it leaves the watchdog's count as it is. -/
def execExit (p : Pred) (s : State) : Out :=
  issue s { close := true } 8 fun s key g sp =>
    let m := activeLanes g sp p
    if m = 0 then retire s key g sp 8
    else dropLanes (commit s key g { sp with wd := 0 }) key g.cur m (afterExit s)

/-- MOVX (R189). -/
def execMovx (f : MovxForm) (s : State) : Out :=
  match f with
  | .toM d => localOp s {} 8 fun _ g sp => (g.mset d sp.exm, sp)
  | .toK d => localOp s { k := [d] } 8 fun _ g sp => (g.kset d sp.exm, sp)
  | .ofM a => issue s {} 8 fun s key g sp =>
      if g.mget a &&& sp.lanes = 0 then trapHere s key sp tConvergence 0 8 []
      else retire s key g { sp with exm := g.mget a &&& sp.lanes } 8
  | .ofK a => issue s { k := [a] } 8 fun s key g sp =>
      if g.kget a &&& sp.lanes = 0 then trapHere s key sp tConvergence 0 8 []
      else retire s key g { sp with exm := g.kget a &&& sp.lanes } 8

/-- TRAP (R191): the recorded PC is that of the next instruction. -/
def execTrap (code : BitVec 8) (s : State) : Out :=
  issue s { close := true } 8 fun s key g sp =>
    takeTrap (retire s key g sp 8) key tTrap code.toNat (dw code.toNat) sp.exm [] (some 0)

/-- BAR (R133, R192). -/
def execBar (s : State) : Out :=
  issue s { close := true } 8 fun s key g sp =>
    if !g.deferred.isEmpty then trapHere s key sp tConvergence 0 8 []
    else checkBar (commit s key g { sp with wait := .atBar, wd := 0 }) g.block

/-- CJOIN (R193, R195). -/
def execCjoin (c : Nat) (s : State) : Out :=
  issue s {} 8 fun s key g sp =>
    let s := retire s key g sp 8
    match s.block? g.block with
    | none => s
    | some b =>
      let k := crewKey b c
      let x := s.crew k
      if x.members.any (·.1 == key) then s
      else s.setCrew k { x with members := x.members ++ [(key, if Crew.pendingBar s c x then x.gen + 1 else x.gen, s.cycle)] }

/-- CLEAVE (R193, R195). -/
def execCleave (c : Nat) (s : State) : Out :=
  issue s {} 8 fun s key g sp =>
    let s := retire s key g sp 8
    match s.block? g.block with
    | none => s
    | some b => leaveCrew s key b c

/-- CBAR (R133, R194): a gang that is no member passes, behind a `fence.ar.core`. -/
def execCbar (c : Nat) (s : State) : Out :=
  issue s { close := true } 8 fun s key g sp =>
    if !g.deferred.isEmpty then trapHere s key sp tConvergence 0 8 []
    else match s.block? g.block with
      | none => s
      | some b =>
        let x := s.crew (crewKey b c)
        if x.members.any (·.1 == key) then
          checkCrew 3 (commit s key g { sp with wait := .atCbar c, wd := 0 }) (crewKey b c) c
        else retire (dropAhead s fun k _ => k == key) key g (applyFence s key .ar { sp with wd := 0 }) 8

/-- SETPRI (R196). -/
def execSetpri (p : Nat) (s : State) : Out :=
  localOp s {} 8 fun _ g sp => ({ g with regs := { g.regs with pri := p } }, sp)

/-- YIELD (R162, R164, R197). -/
def execYieldTurn (s : State) : Out :=
  issue s {} 8 fun s key g sp =>
    let g := { g with sched := { g.sched with waitSince := s.cycle } }
    giveWay ((retire s key g { sp with wd := 0 } 8).modGang key fairExpire) key

/-- WAITC (R89, R198). -/
def execWaitc (n m : Nat) (s : State) : Out :=
  issueWhen s {} 8 (fun _ _ g _ _ => decide (g.regs.lcnt ≤ n) && decide (g.regs.scnt ≤ m)) fun s key g sp =>
    retire s key g sp 8

/-- SLEEP (R199). -/
def execSleep (a : KReg) (s : State) : Out :=
  issue s { k := [a] } 8 fun s key g sp =>
    let n := min (g.kget a).toNat 4294967295
    retire s key g (if n = 0 then sp else { sp with wait := .asleep (s.cycle + n) }) 8

/-- SLEEP_EXPIRY (R199): the time is up. -/
def execSleepExpiry (gang split : Nat) (s : State) : Out :=
  .next (s.modGang gang fun g =>
    match tget none g.splits split with
    | some sp => (match sp.wait with
        | .asleep t => if t ≤ s.cycle then g.putSplit split (some { sp with wait := .ready }) else g
        | _ => g)
    | none => g)

end Sys2Proof.Machine
end

