-- ==== Sys2Proof/Machine/Uniform.lean ====
section
/-! DEFINITION. Uniform registers, masks and system registers (R38, R185 to R188, R190, R313). -/

namespace Sys2Proof.Machine

/-- A uniform operation of two registers (R186). -/
def kOp (s : State) (d a b : KReg) (f : DWord → DWord → DWord) : Out :=
  localOp s { k := [d, a, b] } 8 fun _ g sp => (g.kset d (f (g.kget a) (g.kget b)), sp)

/-- A uniform operation of a register and an immediate (R186). -/
def kOpImm (s : State) (d a : KReg) (imm : BitVec 32) (f : DWord → DWord → DWord) : Out :=
  localOp s { k := [d, a] } 12 fun _ g sp => (g.kset d (f (g.kget a) (sx32 imm)), sp)

/-- Bits [127:64] of a product (R186). -/
def mulHigh (sgn : Bool) (x y : DWord) : DWord :=
  if sgn then BitVec.ofInt 64 (x.toInt * y.toInt / 18446744073709551616)
  else dw (x.toNat * y.toNat / 18446744073709551616)

/-- The lesser of two words (R186). -/
def minWord (sgn : Bool) (x y : DWord) : DWord :=
  if (if sgn then decide (y.toInt < x.toInt) else decide (y.toNat < x.toNat)) then y else x

/-- The greater of two words (R186). -/
def maxWord (sgn : Bool) (x y : DWord) : DWord :=
  if (if sgn then decide (x.toInt < y.toInt) else decide (x.toNat < y.toNat)) then y else x

/-- A shift amount: bits [5:0] (R186). -/
def shiftOf (y : DWord) : Nat := y.toNat % 64

/-- MOVK (R185). -/
def execMovk (f : MovkForm) (d : KReg) (imm : BitVec 32) (s : State) : Out :=
  localOp s { k := [d] } 12 fun _ g sp =>
    (g.kset d (match f with
      | .sext => sx32 imm
      | .zext => imm.zeroExtend 64
      | .high => imm ++ (g.kget d).truncate 32), sp)

/-- ADDK (R186). -/
def execAddk (d a b : KReg) (s : State) : Out := kOp s d a b fun x y => x + y

/-- SUBK (R186). -/
def execSubk (d a b : KReg) (s : State) : Out := kOp s d a b fun x y => x - y

/-- MULK (R186). -/
def execMulk (d a b : KReg) (s : State) : Out := kOp s d a b fun x y => x * y

/-- ANDK (R186). -/
def execAndk (d a b : KReg) (s : State) : Out := kOp s d a b fun x y => x &&& y

/-- ORK (R186). -/
def execOrk (d a b : KReg) (s : State) : Out := kOp s d a b fun x y => x ||| y

/-- XORK (R186). -/
def execXork (d a b : KReg) (s : State) : Out := kOp s d a b fun x y => x ^^^ y

/-- SHLK (R186). -/
def execShlk (d a b : KReg) (s : State) : Out := kOp s d a b fun x y => x <<< shiftOf y

/-- SHRK (R186). -/
def execShrk (d a b : KReg) (s : State) : Out := kOp s d a b fun x y => x >>> shiftOf y

/-- SARK (R186). -/
def execSark (d a b : KReg) (s : State) : Out := kOp s d a b fun x y => x.sshiftRight (shiftOf y)

/-- MULHK (R186). -/
def execMulhk (sgn : Bool) (d a b : KReg) (s : State) : Out := kOp s d a b (mulHigh sgn)

/-- MINK (R186). -/
def execMink (sgn : Bool) (d a b : KReg) (s : State) : Out := kOp s d a b (minWord sgn)

/-- MAXK (R186). -/
def execMaxk (sgn : Bool) (d a b : KReg) (s : State) : Out := kOp s d a b (maxWord sgn)

/-- ADDK_IMM (R186). -/
def execAddkImm (d a : KReg) (imm : BitVec 32) (s : State) : Out := kOpImm s d a imm fun x y => x + y

/-- SUBK_IMM (R186). -/
def execSubkImm (d a : KReg) (imm : BitVec 32) (s : State) : Out := kOpImm s d a imm fun x y => x - y

/-- MULK_IMM (R186). -/
def execMulkImm (d a : KReg) (imm : BitVec 32) (s : State) : Out := kOpImm s d a imm fun x y => x * y

/-- ANDK_IMM (R186). -/
def execAndkImm (d a : KReg) (imm : BitVec 32) (s : State) : Out := kOpImm s d a imm fun x y => x &&& y

/-- ORK_IMM (R186). -/
def execOrkImm (d a : KReg) (imm : BitVec 32) (s : State) : Out := kOpImm s d a imm fun x y => x ||| y

/-- XORK_IMM (R186). -/
def execXorkImm (d a : KReg) (imm : BitVec 32) (s : State) : Out := kOpImm s d a imm fun x y => x ^^^ y

/-- SHLK_IMM (R186). -/
def execShlkImm (d a : KReg) (imm : BitVec 32) (s : State) : Out := kOpImm s d a imm fun x y => x <<< shiftOf y

/-- SHRK_IMM (R186). -/
def execShrkImm (d a : KReg) (imm : BitVec 32) (s : State) : Out := kOpImm s d a imm fun x y => x >>> shiftOf y

/-- SARK_IMM (R186). -/
def execSarkImm (d a : KReg) (imm : BitVec 32) (s : State) : Out := kOpImm s d a imm fun x y => x.sshiftRight (shiftOf y)

/-- MULHK_IMM (R186). -/
def execMulhkImm (sgn : Bool) (d a : KReg) (imm : BitVec 32) (s : State) : Out := kOpImm s d a imm (mulHigh sgn)

/-- MINK_IMM (R186). -/
def execMinkImm (sgn : Bool) (d a : KReg) (imm : BitVec 32) (s : State) : Out := kOpImm s d a imm (minWord sgn)

/-- MAXK_IMM (R186). -/
def execMaxkImm (sgn : Bool) (d a : KReg) (imm : BitVec 32) (s : State) : Out := kOpImm s d a imm (maxWord sgn)

/-- KTOV (R187). -/
def execKtov (p : Pred) (t : Ty) (d : VReg) (a : KReg) (s : State) : Out :=
  localOp s { v := vr t d, k := [a] } 8 fun _ g sp =>
    ({ g with regs := g.regs.putLanes t.wide d (activeLanes g sp p) fun _ => (g.kget a).toNat }, sp)

/-- VTOK (R187). -/
def execVtok (t : Ty) (d : KReg) (a : VReg) (lane : Nat) (s : State) : Out :=
  localOp s { v := vr t a, k := [d] } 8 fun _ g sp => (g.kset d (dw (g.regs.lane t a lane)), sp)

/-- KTOM (R187). -/
def execKtom (d : MReg) (a : KReg) (s : State) : Out :=
  localOp s { k := [a] } 8 fun _ g sp => (g.mset d (g.kget a), sp)

/-- MTOK (R187). -/
def execMtok (d : KReg) (a : MReg) (s : State) : Out :=
  localOp s { k := [d] } 8 fun _ g sp => (g.kset d (g.mget a), sp)

/-- MAND (R188). -/
def execMand (d a b : MReg) (s : State) : Out :=
  localOp s {} 8 fun _ g sp => (g.mset d (g.mget a &&& g.mget b), sp)

/-- MOR (R188). -/
def execMor (d a b : MReg) (s : State) : Out :=
  localOp s {} 8 fun _ g sp => (g.mset d (g.mget a ||| g.mget b), sp)

/-- MXOR (R188). -/
def execMxor (d a b : MReg) (s : State) : Out :=
  localOp s {} 8 fun _ g sp => (g.mset d (g.mget a ^^^ g.mget b), sp)

/-- MNOT (R188). -/
def execMnot (d a : MReg) (s : State) : Out :=
  localOp s {} 8 fun _ g sp => (g.mset d (~~~(g.mget a)), sp)

/-- MPOPC (R188). -/
def execMpopc (d : KReg) (a : MReg) (s : State) : Out :=
  localOp s { k := [d] } 8 fun _ g sp => (g.kset d (dw (popcount (g.mget a))), sp)

/-- The index of the lowest set bit; all ones of an empty mask (R188). -/
def firstBit (m : Lanes) : DWord := if m = 0 then BitVec.allOnes 64 else dw (lowest m)

/-- MFIRST (R188). -/
def execMfirst (d : KReg) (a : MReg) (s : State) : Out :=
  localOp s { k := [d] } 8 fun _ g sp => (g.kset d (firstBit (g.mget a)), sp)

-- System registers.

/-- Bits of the tags of a block's window (R38). -/
def tagWindow (b : Block) : DWord := if 64 ≤ b.need.tags then BitVec.allOnes 64 else dw (2 ^ b.need.tags - 1)

/-- BLOCKID (R38). -/
def blockIdOf (b : Block) : DWord :=
  dw ((if b.wide then 9223372036854775808 else 0) + b.z % 2097152 * 4398046511104 + b.y % 2097152 * 2097152 + b.x % 2097152)

/-- RCSTAT (R313). -/
def rcstatOf (a : Array) : DWord :=
  dw (a.bits + (if a.dirty then 256 else 0) + (if a.eval.isSome then 512 else 0) + (if a.capv then 1024 else 0))

/-- ENERGY: millijoules of the virtual partition the gang runs on (R38, R351). -/
def energyOf (s : State) (b : Block) : DWord :=
  dw (tget 0 s.energy.counters (meterKey s b.ctx b.core) / 1000)

/-- The value of a system register (R38, R190). -/
def readSys (s : State) (g : Gang) (r : SysReg) : DWord :=
  match s.block? g.block with
  | none => 0
  | some b =>
    let c := s.ctx? b.ctx
    match r with
    | .lanew => 64
    | .gangid => dw g.idx
    | .blockid => blockIdOf b
    | .corenum => dw (corenum s b)
    | .clusternum => dw (corenum s b / 8)
    | .stamp => s.stamp + (match c with | some c => c.stoff | none => 0)
    | .ctxid => dw b.ctx
    | .fsr => g.regs.fsr
    | .fcr => g.regs.fcr
    | .pri => dw g.regs.pri
    | .wdlim => dw g.regs.wdlim
    | .twin => dw (s.array b.core).twin
    | .rcstat => rcstatOf (s.array b.core)
    | .hsp => dw g.frames.length
    | .tagbase => dw b.tagbase
    | .tagready => b.ready &&& tagWindow b
    | .scrbase => if b.need.scratch = 0 then 0 else dw b.scrbase
    | .errq => (match c with | some c => c.errBase + dw c.errHead | none => 0)
    | .errcnt => (match c with
        | some c => dw (c.errCount + if c.errOvf then 9223372036854775808 else 0) | none => 0)
    | .lcnt => dw g.regs.lcnt
    | .scnt => dw g.regs.scnt
    | .energy => energyOf s b

/-- Whether a system register belongs to the Millrace (R38). -/
def arrayReg : SysReg → Bool
  | .twin => true
  | .rcstat => true
  | _ => false

/-- SRD of one of the Millrace's registers (R190, R314): it takes its place in the array's queue, waits there until it has
nothing before it, and reads. -/
def srdArray (d : KReg) (r : SysReg) (s : State) : Out :=
  let u : Use := { k := [d], race := true, arrIdle := true }
  issue (takePlace s u) u 8 fun s key g sp =>
    leavePlace (servedNow (retire s key (g.kset d (readSys s g r)) sp 8) g) key g sp

/-- SRD (R190). -/
def execSrd (d : KReg) (r : SysReg) (s : State) : Out :=
  if arrayReg r then srdArray d r s
  else localOp s { k := [d] } 8 fun s g sp => (g.kset d (readSys s g r), sp)

/-- SWR of FSR, FCR, PRI and WDLIM (R38, R190); any other register is read-only and the write takes ILLEGAL. -/
def execSwr (r : SysReg) (a : KReg) (s : State) : Out :=
  issue s { k := [a] } 8 fun s key g sp =>
    let x := g.kget a
    let put (regs : Regs) : State := retire s key { g with regs := regs } sp 8
    match r with
    | .fsr => put { g.regs with fsr := fsrWrite x }
    | .fcr => put { g.regs with fcr := fcrWrite x }
    | .pri => if 15 < x.toNat then trapHere s key sp tIllegal 0 8 [] else put { g.regs with pri := x.toNat }
    | .wdlim => if 4294967295 < x.toNat then trapHere s key sp tIllegal 0 8 [] else put { g.regs with wdlim := x.toNat }
    | _ => trapHere s key sp tIllegal 0 8 []

/-- SWR to ERRQ (R223): BASE, CLROVF, and HEAD forward past consumed entries. -/
def execSwrErrq (a : KReg) (s : State) : Out :=
  issue s { k := [a] } 8 fun s key g sp =>
    let x := g.kget a
    let s := retire s key g sp 8
    match s.block? g.block with
    | none => s
    | some b => s.modCtx b.ctx fun c =>
        let d := (bitsOf x 7 0 + 256 - c.errHead) % 256
        let n := min d c.errCount
        { c with errBase := dw (bitsOf x 63 14 * 16384), errOvf := c.errOvf && !bitOf x 12,
                 errHead := (c.errHead + n) % 256, errCount := c.errCount - n }

/-- SWR to TWIN (R313, R319). -/
def execSwrTwin (a : KReg) (s : State) : Out :=
  issue s { k := [a], race := true, arr := true } 8 fun s key g sp =>
    let n := (g.kget a).toNat
    if n = 0 ∨ 1023 < n then trapHere s key sp tIllegal 0 8 []
    else pushArray (retire s key g sp 8) g (.window n)

/-- SWR to RCSTAT (R313): a 1 clears a W1C bit. -/
def execSwrRcstat (a : KReg) (s : State) : Out :=
  issue s { k := [a], race := true, arr := true } 8 fun s key g sp =>
    pushArray (retire s key g sp 8) g (.stat (g.kget a))

end Sys2Proof.Machine
end

