-- ==== Sys2Proof/Machine/VecInt.lean ====
section
/-! DEFINITION. Integer, logic, bit-field, compare, select and move instructions (R246, R249 to R259). -/

namespace Sys2Proof.Machine

/-- What a lane instruction of two sources names. -/
def use2 (t : Ty) (d a b : VReg) : Use := { v := vr t d ++ vr t a ++ vr t b }

/-- What a lane instruction of one source names. -/
def use1 (t : Ty) (d a : VReg) : Use := { v := vr t d ++ vr t a }

/-- An exact integer result written to its element (R250): modulo 2^N, or clamped under SAT. -/
def intResult (t : Ty) (sat : Bool) (i : Int) : Nat × Nat :=
  if sat then
    let r := clampInt t i
    (wrapInt t r.1, if r.2 then fSAT else 0)
  else (wrapInt t i, 0)

/-- Element results of R249 and R251. -/
def iAdd (t : Ty) (sat : Bool) (a b : Nat) : Nat × Nat := intResult t sat (intOf t a + intOf t b)
def iSub (t : Ty) (sat : Bool) (a b : Nat) : Nat × Nat := intResult t sat (intOf t a - intOf t b)
def iMin (t : Ty) (a b : Nat) : Nat × Nat := (if intOf t b < intOf t a then b else a, 0)
def iMax (t : Ty) (a b : Nat) : Nat × Nat := (if intOf t a < intOf t b then b else a, 0)
def iAbs (t : Ty) (sat : Bool) (a : Nat) : Nat × Nat := intResult t sat (intOf t a).natAbs
def iNeg (t : Ty) (sat : Bool) (a : Nat) : Nat × Nat := intResult t sat (-(intOf t a))
def iMul (t : Ty) (a b : Nat) : Nat × Nat := (wrapInt t (intOf t a * intOf t b), 0)
def iMulh (t : Ty) (a b : Nat) : Nat × Nat := (wrapInt t (intOf t a * intOf t b / 2 ^ t.shape.1), 0)
def iMad (t : Ty) (a b c : Nat) : Nat × Nat := (wrapInt t (intOf t a * intOf t b + intOf t c), 0)

/-- Shifts and the rotation of an element of N bits by s (R252). -/
def shlElt (n a s : Nat) : Nat := a * 2 ^ s % 2 ^ n
def shrElt (_n a s : Nat) : Nat := a / 2 ^ s
def sarElt (n a s : Nat) : Nat := ((sgnOf n a / 2 ^ s) % (2 ^ n : Int)).toNat
def rotElt (n a s : Nat) : Nat := (a * 2 ^ s % 2 ^ n) ||| (a / 2 ^ (n - s))

/-- A shift of every element of a lane by the amounts of another lane (R252). -/
def shiftLane (t : Ty) (f : Nat → Nat → Nat → Nat) (a b : Nat) : Nat × Nat :=
  elt2 t (fun x y => (f t.shape.1 x (y % t.shape.1), 0)) a b

/-- A shift of every element of a lane by one amount (R258). -/
def shiftLaneImm (t : Ty) (f : Nat → Nat → Nat → Nat) (a s : Nat) : Nat × Nat :=
  elt1 t (fun x => (f t.shape.1 x (s % t.shape.1), 0)) a

/-- The operand that IMM32 stands for (R258). -/
def immOperand (t : Ty) (imm : BitVec 32) : Nat :=
  match t with
  | .s64 => (sx32 imm).toNat
  | _ => imm.toNat

/-- VLOP3 of 32 bits (R253). -/
def lop3 (lut : BitVec 8) (a b c : Nat) : Nat :=
  (List.range 32).foldr (fun j n => 2 * n +
    (if lut.getLsbD (a / 2 ^ j % 2 + 2 * (b / 2 ^ j % 2) + 4 * (c / 2 ^ j % 2)) then 1 else 0)) 0

/-- POS and LEN of a bit field (R254). -/
def fieldPos (b : Nat) : Nat := b % 32
def fieldLen (b : Nat) : Nat := min (b / 256 % 64) 32

/-- VBFX (R254). -/
def bfExtract (sgn : Bool) (a b : Nat) : Nat :=
  let n := fieldLen b
  let f := a / 2 ^ fieldPos b % 2 ^ n
  if n = 0 then 0 else if sgn && decide (2 ^ (n - 1) ≤ f) then f + (4294967296 - 2 ^ n) else f

/-- VBFI (R254). -/
def bfInsert (a b c : Nat) : Nat :=
  let m := (2 ^ fieldLen b - 1) * 2 ^ fieldPos b % 4294967296
  let x := a % 2 ^ fieldLen b * 2 ^ fieldPos b % 4294967296
  (c &&& (4294967295 - m)) ||| x

/-- The number of 1 bits of 32 (R254). -/
def popc32 (a : Nat) : Nat := ((List.range 32).filter fun i => a.testBit i).length

/-- The leading zeros of 32 bits (R254). -/
def clz32 (a : Nat) : Nat := ((List.range 32).find? fun i => a.testBit (31 - i)).getD 32

/-- The bits of 32 in reverse (R254). -/
def brev32 (a : Nat) : Nat := (List.range 32).foldl (fun n i => 2 * n + (if a.testBit i then 1 else 0)) 0

/-- One byte of VPRMB (R255). -/
def permByte (a b sel : Nat) : Nat :=
  let x := (a + b * 4294967296) / 256 ^ (sel % 8) % 256
  match sel / 8 % 4 with
  | 0 => x
  | 1 => 0
  | _ => if 128 ≤ x then 255 else 0

/-- VPRMB (R255). -/
def permBytes (a b sel : Nat) : Nat :=
  permByte a b (sel % 256) + permByte a b (sel / 256 % 256) * 256 + permByte a b (sel / 65536 % 256) * 65536 +
    permByte a b (sel / 16777216 % 256) * 16777216

/-- Whether a condition of VCMP holds (R256). -/
def vHolds (c : VCond) (t : Ty) (a b : Nat) : Bool :=
  match c with
  | .eq => a == b
  | .ne => a != b
  | .lt => decide (intOf t a < intOf t b)
  | .le => decide (intOf t a ≤ intOf t b)
  | .gt => decide (intOf t b < intOf t a)
  | .ge => decide (intOf t b ≤ intOf t a)

/-- How a compare's bit combines with a third mask (R256). -/
def combine (g : Gang) (cb : Comb) (l : Nat) (r : Bool) : Bool :=
  match cb with
  | .plain => r
  | .and m => r && inLanes (g.mget m) l
  | .or m => r || inLanes (g.mget m) l

/-- A compare's mask (R256): 0 outside the active lanes. -/
def cmpMask (g : Gang) (m : Lanes) (cb : Comb) (f : Nat → Bool) : Lanes :=
  laneSet fun l => inLanes m l && combine g cb l (f l)

/-- VADD (R249, R250). -/
def execVadd (p : Pred) (sat : Bool) (t : Ty) (d a b : VReg) (s : State) : Out :=
  vecOp s (use2 t d a b) p t.wide d 8 fun g l => elt2 t (iAdd t sat) (g.lane t a l) (g.lane t b l)

/-- VSUB (R249, R250). -/
def execVsub (p : Pred) (sat : Bool) (t : Ty) (d a b : VReg) (s : State) : Out :=
  vecOp s (use2 t d a b) p t.wide d 8 fun g l => elt2 t (iSub t sat) (g.lane t a l) (g.lane t b l)

/-- VMIN (R249). -/
def execVmin (p : Pred) (t : Ty) (d a b : VReg) (s : State) : Out :=
  vecOp s (use2 t d a b) p t.wide d 8 fun g l => elt2 t (iMin t) (g.lane t a l) (g.lane t b l)

/-- VMAX (R249). -/
def execVmax (p : Pred) (t : Ty) (d a b : VReg) (s : State) : Out :=
  vecOp s (use2 t d a b) p t.wide d 8 fun g l => elt2 t (iMax t) (g.lane t a l) (g.lane t b l)

/-- VABS (R249, R250). -/
def execVabs (p : Pred) (sat : Bool) (t : Ty) (d a : VReg) (s : State) : Out :=
  vecOp s (use1 t d a) p t.wide d 8 fun g l => elt1 t (iAbs t sat) (g.lane t a l)

/-- VNEG (R249, R250). -/
def execVneg (p : Pred) (sat : Bool) (t : Ty) (d a : VReg) (s : State) : Out :=
  vecOp s (use1 t d a) p t.wide d 8 fun g l => elt1 t (iNeg t sat) (g.lane t a l)

/-- VMUL (R251). -/
def execVmul (p : Pred) (t : Ty) (d a b : VReg) (s : State) : Out :=
  vecOp s (use2 t d a b) p t.wide d 8 fun g l => elt2 t (iMul t) (g.lane t a l) (g.lane t b l)

/-- VMULH (R251). -/
def execVmulh (p : Pred) (t : Ty) (d a b : VReg) (s : State) : Out :=
  vecOp s (use2 t d a b) p t.wide d 8 fun g l => elt2 t (iMulh t) (g.lane t a l) (g.lane t b l)

/-- VMAD (R251). -/
def execVmad (p : Pred) (t : Ty) (d a b c : VReg) (s : State) : Out :=
  vecOp s { v := vr t d ++ vr t a ++ vr t b ++ vr t c } p t.wide d 8 fun g l =>
    elt3 t (iMad t) (g.lane t a l) (g.lane t b l) (g.lane t c l)

/-- VSHL (R252). -/
def execVshl (p : Pred) (t : Ty) (d a b : VReg) (s : State) : Out :=
  vecOp s (use2 t d a b) p t.wide d 8 fun g l => shiftLane t shlElt (g.lane t a l) (g.lane t b l)

/-- VSHR (R252). -/
def execVshr (p : Pred) (t : Ty) (d a b : VReg) (s : State) : Out :=
  vecOp s (use2 t d a b) p t.wide d 8 fun g l => shiftLane t shrElt (g.lane t a l) (g.lane t b l)

/-- VSAR (R252). -/
def execVsar (p : Pred) (t : Ty) (d a b : VReg) (s : State) : Out :=
  vecOp s (use2 t d a b) p t.wide d 8 fun g l => shiftLane t sarElt (g.lane t a l) (g.lane t b l)

/-- VROT (R252). -/
def execVrot (p : Pred) (t : Ty) (d a b : VReg) (s : State) : Out :=
  vecOp s (use2 t d a b) p t.wide d 8 fun g l => shiftLane t rotElt (g.lane t a l) (g.lane t b l)

/-- VAND (R253). -/
def execVand (p : Pred) (d a b : VReg) (s : State) : Out :=
  vecOp s { v := [d, a, b] } p false d 8 fun g l => (g.lane1 a l &&& g.lane1 b l, 0)

/-- VOR (R253). -/
def execVor (p : Pred) (d a b : VReg) (s : State) : Out :=
  vecOp s { v := [d, a, b] } p false d 8 fun g l => (g.lane1 a l ||| g.lane1 b l, 0)

/-- VXOR (R253). -/
def execVxor (p : Pred) (d a b : VReg) (s : State) : Out :=
  vecOp s { v := [d, a, b] } p false d 8 fun g l => (g.lane1 a l ^^^ g.lane1 b l, 0)

/-- VNOT (R253). -/
def execVnot (p : Pred) (d a : VReg) (s : State) : Out :=
  vecOp s { v := [d, a] } p false d 8 fun g l => (4294967295 - g.lane1 a l, 0)

/-- VLOP3 (R253). -/
def execVlop3 (p : Pred) (lut : BitVec 8) (d a b c : VReg) (s : State) : Out :=
  vecOp s { v := [d, a, b, c] } p false d 8 fun g l => (lop3 lut (g.lane1 a l) (g.lane1 b l) (g.lane1 c l), 0)

/-- VBFX (R254). -/
def execVbfx (p : Pred) (t : Ty) (d a b : VReg) (s : State) : Out :=
  vecOp s { v := [d, a, b] } p false d 8 fun g l => (bfExtract (tySigned t) (g.lane1 a l) (g.lane1 b l), 0)

/-- VBFI (R254). -/
def execVbfi (p : Pred) (d a b c : VReg) (s : State) : Out :=
  vecOp s { v := [d, a, b, c] } p false d 8 fun g l => (bfInsert (g.lane1 a l) (g.lane1 b l) (g.lane1 c l), 0)

/-- VPOPC (R254). -/
def execVpopc (p : Pred) (d a : VReg) (s : State) : Out :=
  vecOp s { v := [d, a] } p false d 8 fun g l => (popc32 (g.lane1 a l), 0)

/-- VCLZ (R254). -/
def execVclz (p : Pred) (d a : VReg) (s : State) : Out :=
  vecOp s { v := [d, a] } p false d 8 fun g l => (clz32 (g.lane1 a l), 0)

/-- VBREV (R254). -/
def execVbrev (p : Pred) (d a : VReg) (s : State) : Out :=
  vecOp s { v := [d, a] } p false d 8 fun g l => (brev32 (g.lane1 a l), 0)

/-- VPRMB (R255). -/
def execVprmb (p : Pred) (d a b : VReg) (sel : BitVec 32) (s : State) : Out :=
  vecOp s { v := [d, a, b] } p false d 12 fun g l => (permBytes (g.lane1 a l) (g.lane1 b l) sel.toNat, 0)

/-- VCMP (R256). With an empty active set it writes mD, as R256 says and R46 does not (log 25). -/
def execVcmp (p : Pred) (c : VCond) (cb : Comb) (t : Ty) (d : MReg) (a b : VReg) (s : State) : Out :=
  localOp s { v := vr t a ++ vr t b } 8 fun _ g sp =>
    (g.mset d (cmpMask g (activeLanes g sp p) cb fun l => vHolds c t (g.regs.lane t a l) (g.regs.lane t b l)), sp)

/-- VSEL (R257). -/
def execVsel (p : Pred) (t : Ty) (d a b : VReg) (c : MReg) (s : State) : Out :=
  vecOp s (use2 t d a b) p t.wide d 8 fun g l => (if inLanes (g.mget c) l then g.lane t a l else g.lane t b l, 0)

/-- VMOV (R257). -/
def execVmov (p : Pred) (t : Ty) (d a : VReg) (s : State) : Out :=
  vecOp s (use1 t d a) p t.wide d 8 fun g l => (g.lane t a l, 0)

/-- VMOVI (R257). -/
def execVmovi (p : Pred) (t : Ty) (d : VReg) (imm : BitVec 32) (s : State) : Out :=
  vecOp s { v := vr t d } p t.wide d 12 fun _ _ => (immOperand t imm, 0)

/-- VADD_IMM (R258). -/
def execVaddImm (p : Pred) (sat : Bool) (t : Ty) (d a : VReg) (imm : BitVec 32) (s : State) : Out :=
  vecOp s (use1 t d a) p t.wide d 12 fun g l => elt2 t (iAdd t sat) (g.lane t a l) (immOperand t imm)

/-- VSUB_IMM (R258). -/
def execVsubImm (p : Pred) (sat : Bool) (t : Ty) (d a : VReg) (imm : BitVec 32) (s : State) : Out :=
  vecOp s (use1 t d a) p t.wide d 12 fun g l => elt2 t (iSub t sat) (g.lane t a l) (immOperand t imm)

/-- VMIN_IMM (R258). -/
def execVminImm (p : Pred) (t : Ty) (d a : VReg) (imm : BitVec 32) (s : State) : Out :=
  vecOp s (use1 t d a) p t.wide d 12 fun g l => elt2 t (iMin t) (g.lane t a l) (immOperand t imm)

/-- VMAX_IMM (R258). -/
def execVmaxImm (p : Pred) (t : Ty) (d a : VReg) (imm : BitVec 32) (s : State) : Out :=
  vecOp s (use1 t d a) p t.wide d 12 fun g l => elt2 t (iMax t) (g.lane t a l) (immOperand t imm)

/-- VMUL_IMM (R258). -/
def execVmulImm (p : Pred) (t : Ty) (d a : VReg) (imm : BitVec 32) (s : State) : Out :=
  vecOp s (use1 t d a) p t.wide d 12 fun g l => elt2 t (iMul t) (g.lane t a l) (immOperand t imm)

/-- VMULH_IMM (R258). -/
def execVmulhImm (p : Pred) (t : Ty) (d a : VReg) (imm : BitVec 32) (s : State) : Out :=
  vecOp s (use1 t d a) p t.wide d 12 fun g l => elt2 t (iMulh t) (g.lane t a l) (immOperand t imm)

/-- VAND_IMM (R258). -/
def execVandImm (p : Pred) (d a : VReg) (imm : BitVec 32) (s : State) : Out :=
  vecOp s { v := [d, a] } p false d 12 fun g l => (g.lane1 a l &&& imm.toNat, 0)

/-- VOR_IMM (R258). -/
def execVorImm (p : Pred) (d a : VReg) (imm : BitVec 32) (s : State) : Out :=
  vecOp s { v := [d, a] } p false d 12 fun g l => (g.lane1 a l ||| imm.toNat, 0)

/-- VXOR_IMM (R258). -/
def execVxorImm (p : Pred) (d a : VReg) (imm : BitVec 32) (s : State) : Out :=
  vecOp s { v := [d, a] } p false d 12 fun g l => (g.lane1 a l ^^^ imm.toNat, 0)

/-- VSHL_IMM (R258). -/
def execVshlImm (p : Pred) (t : Ty) (d a : VReg) (imm : BitVec 32) (s : State) : Out :=
  vecOp s (use1 t d a) p t.wide d 12 fun g l => shiftLaneImm t shlElt (g.lane t a l) imm.toNat

/-- VSHR_IMM (R258). -/
def execVshrImm (p : Pred) (t : Ty) (d a : VReg) (imm : BitVec 32) (s : State) : Out :=
  vecOp s (use1 t d a) p t.wide d 12 fun g l => shiftLaneImm t shrElt (g.lane t a l) imm.toNat

/-- VSAR_IMM (R258). -/
def execVsarImm (p : Pred) (t : Ty) (d a : VReg) (imm : BitVec 32) (s : State) : Out :=
  vecOp s (use1 t d a) p t.wide d 12 fun g l => shiftLaneImm t sarElt (g.lane t a l) imm.toNat

/-- VROT_IMM (R258). -/
def execVrotImm (p : Pred) (t : Ty) (d a : VReg) (imm : BitVec 32) (s : State) : Out :=
  vecOp s (use1 t d a) p t.wide d 12 fun g l => shiftLaneImm t rotElt (g.lane t a l) imm.toNat

/-- VCSUB (R259). -/
def execVcsub (p : Pred) (t : Ty) (d a b : VReg) (m : Option MReg) (s : State) : Out :=
  localOp s (use2 t d a b) 8 fun _ g sp =>
    let act := activeLanes g sp p
    let ge (l : Nat) : Bool := decide (g.regs.lane t b l ≤ g.regs.lane t a l)
    let regs := g.regs.putLanes t.wide d act fun l =>
      if ge l then g.regs.lane t a l - g.regs.lane t b l else g.regs.lane t a l
    let g' := { g with regs := regs }
    (match m with | some c => g'.mset c (laneSet fun l => inLanes act l && ge l) | none => g', sp)

end Sys2Proof.Machine
end

