-- ==== Sys2Proof/Machine/VecFp.lean ====
section
/-! DEFINITION. Floating-point, conversion and MX instructions (R260 to R274), and the long-latency ones among
them with the completion of their results (R57, R241, R243). -/

namespace Sys2Proof.Machine

/-- The format of a floating-point type; f32 where there is none. -/
def fmtOf (t : Ty) : Fmt := (tyFmt t).getD fmtF32

/-- A floating-point operation on an element of two operands under RM and FCR (R248). -/
def fpElt2 (g : Regs) (rm : Rm) (t : Ty) (f : Fmt → RMode → Bool → FV → FV → Nat × Nat) (a b : Nat) : Nat × Nat :=
  let fm := fmtOf t
  f fm (resolveRm g rm) (ftzOf g) (operand fm (ftzOf g) a) (operand fm (ftzOf g) b)

/-- Element results of R260. -/
def fpAdd (g : Regs) (rm : Rm) (t : Ty) (a b : Nat) : Nat × Nat := fpElt2 g rm t fAdd a b
def fpSub (g : Regs) (rm : Rm) (t : Ty) (a b : Nat) : Nat × Nat := fpElt2 g rm t (fun f m z x y => fAdd f m z x y.neg) a b
def fpMul (g : Regs) (rm : Rm) (t : Ty) (a b : Nat) : Nat × Nat := fpElt2 g rm t fMul a b
def fpMin (g : Regs) (t : Ty) (a b : Nat) : Nat × Nat := fMinMax (fmtOf t) false (ftzOf g) a b
def fpMax (g : Regs) (t : Ty) (a b : Nat) : Nat × Nat := fMinMax (fmtOf t) true (ftzOf g) a b

/-- FFMA of one element (R262). -/
def fpFma (g : Regs) (nc np : Bool) (rm : Rm) (t : Ty) (a b c : Nat) : Nat × Nat :=
  let fm := fmtOf t
  let z := ftzOf g
  let x := operand fm z a
  let w := operand fm z c
  fFma fm (resolveRm g rm) z (if np then x.neg else x) (operand fm z b) (if nc then w.neg else w)

/-- A long-latency lane instruction (R57, R241): values and flags of the active lanes, written at completion. -/
def longOp (s : State) (u : Use) (p : Pred) (d la size : Nat) (f : Regs → Nat → Nat × Nat) : Out :=
  issue s { u with long := true } size fun s key g sp =>
    let m := activeLanes g sp p
    startLong s key g sp la size [d] [] (longLanes false d m fun l => (f g.regs l).1) []
      ((laneList m).map fun l => (l, (f g.regs l).2))

/-- FADD (R260). -/
def execFadd (p : Pred) (rm : Rm) (t : Ty) (d a b : VReg) (s : State) : Out :=
  vecOp s (use2 t d a b) p false d 8 fun g l => elt2 t (fpAdd g rm t) (g.lane t a l) (g.lane t b l)

/-- FSUB (R260). -/
def execFsub (p : Pred) (rm : Rm) (t : Ty) (d a b : VReg) (s : State) : Out :=
  vecOp s (use2 t d a b) p false d 8 fun g l => elt2 t (fpSub g rm t) (g.lane t a l) (g.lane t b l)

/-- FMUL (R260). -/
def execFmul (p : Pred) (rm : Rm) (t : Ty) (d a b : VReg) (s : State) : Out :=
  vecOp s (use2 t d a b) p false d 8 fun g l => elt2 t (fpMul g rm t) (g.lane t a l) (g.lane t b l)

/-- FMIN (R261). -/
def execFmin (p : Pred) (t : Ty) (d a b : VReg) (s : State) : Out :=
  vecOp s (use2 t d a b) p false d 8 fun g l => elt2 t (fpMin g t) (g.lane t a l) (g.lane t b l)

/-- FMAX (R261). -/
def execFmax (p : Pred) (t : Ty) (d a b : VReg) (s : State) : Out :=
  vecOp s (use2 t d a b) p false d 8 fun g l => elt2 t (fpMax g t) (g.lane t a l) (g.lane t b l)

/-- FFMA (R262). -/
def execFfma (p : Pred) (nc np : Bool) (rm : Rm) (t : Ty) (d a b c : VReg) (s : State) : Out :=
  vecOp s { v := [d, a, b, c] } p false d 8 fun g l =>
    elt3 t (fpFma g nc np rm t) (g.lane t a l) (g.lane t b l) (g.lane t c l)

/-- FCMP (R263). -/
def execFcmp (p : Pred) (c : FCond) (cb : Comb) (d : MReg) (a b : VReg) (s : State) : Out :=
  localOp s { v := [a, b] } 8 fun _ g sp =>
    let m := activeLanes g sp p
    let r (l : Nat) : Bool × Nat := fCompare c (ftzOf g.regs) (g.regs.lane1 a l) (g.regs.lane1 b l)
    finishFlags (g.mset d (cmpMask g m cb fun l => (r l).1)) sp ((laneList m).map fun l => (l, (r l).2))

/-- FRCP (R264, R265; log 8). -/
def execFrcp (p : Pred) (d a : VReg) (la : Nat) (s : State) : Out :=
  longOp s { v := [d, a] } p d la 8 fun g l => sfRcp (ftzOf g) (g.lane1 a l)

/-- FRSQ (R264, R265; log 8). -/
def execFrsq (p : Pred) (d a : VReg) (la : Nat) (s : State) : Out :=
  longOp s { v := [d, a] } p d la 8 fun g l => sfRsq (ftzOf g) (g.lane1 a l)

/-- FEXP2 (R264, R265; log 8). -/
def execFexp2 (p : Pred) (d a : VReg) (la : Nat) (s : State) : Out :=
  longOp s { v := [d, a] } p d la 8 fun g l => sfExp2 (ftzOf g) (g.lane1 a l)

/-- FLOG2 (R264, R265; log 8). -/
def execFlog2 (p : Pred) (d a : VReg) (la : Nat) (s : State) : Out :=
  longOp s { v := [d, a] } p d la 8 fun g l => sfLog2 (ftzOf g) (g.lane1 a l)

/-- FSIN (R264, R265; log 8). -/
def execFsin (p : Pred) (d a : VReg) (la : Nat) (s : State) : Out :=
  longOp s { v := [d, a] } p d la 8 fun g l => sfTrig false (ftzOf g) (g.lane1 a l)

/-- FCOS (R264, R265; log 8). -/
def execFcos (p : Pred) (d a : VReg) (la : Nat) (s : State) : Out :=
  longOp s { v := [d, a] } p d la 8 fun g l => sfTrig true (ftzOf g) (g.lane1 a l)

/-- FSQRT (R264, R265). -/
def execFsqrt (p : Pred) (rm : Rm) (d a : VReg) (la : Nat) (s : State) : Out :=
  longOp s { v := [d, a] } p d la 8 fun g l => sfSqrt (resolveRm g rm) (ftzOf g) (g.lane1 a l)

/-- FDIV (R266). -/
def execFdiv (p : Pred) (rm : Rm) (d a b : VReg) (la : Nat) (s : State) : Out :=
  longOp s { v := [d, a, b] } p d la 8 fun g l => fpElt2 g rm .f32 fDivide (g.lane1 a l) (g.lane1 b l)

/-- FCLASS (R267). -/
def execFclass (p : Pred) (t : Ty) (d a : VReg) (s : State) : Out :=
  vecOp s { v := [d, a] } p false d 8 fun g l => elt1 t (fun x => (fClass (fmtOf t) x, 0)) (g.lane t a l)

/-- FRND (R268). -/
def execFrnd (p : Pred) (exact : Bool) (rm : Rm) (t : Ty) (d a : VReg) (s : State) : Out :=
  vecOp s { v := [d, a] } p false d 8 fun g l =>
    elt1 t (fRound (fmtOf t) (resolveRm g rm) (ftzOf g) exact) (g.lane t a l)

/-- Element `i` of width `w` of a lane's content replaced (R270). -/
def putElt (w x i v : Nat) : Nat := x - elt w x i * 2 ^ (w * i) + v % 2 ^ w * 2 ^ (w * i)

/-- CVT (R269, R270): one element per lane; the other elements of the destination keep their values. -/
def execCvt (p : Pred) (rm : Rm) (sat nosat : Bool) (dt t : Ty) (d a : VReg) (spos dpos : Nat) (s : State) : Out :=
  vecOp s { v := vr dt d ++ vr t a } p dt.wide d 8 fun g l =>
    let r := convert t dt (resolveRm g rm) sat nosat (ftzOf g) (elt t.shape.1 (g.lane t a l) spos)
    (if dt.shape.2 = 1 then r.1 else putElt dt.shape.1 (g.lane dt d l) dpos r.1, r.2)

/-- The 32 codes of a block of QMX: lanes outside the active set count as +0 (R271). -/
def qmxBlock (g : Regs) (m : Lanes) (a b : Nat) : List Nat :=
  (List.range 32).map fun i => if inLanes m (32 * b + i) then g.lane1 a (32 * b + i) else 0

/-- The codes of a lane's elements packed into its content. -/
def packCodes (w : Nat) : List Nat → Nat
  | [] => 0
  | x :: r => x % 2 ^ w + 2 ^ w * packCodes w r

/-- Whether a block of 32 lanes has an active one. -/
def blockActive (m : Lanes) (b : Nat) : Bool := (List.range 32).any fun i => inLanes m (32 * b + i)

/-- QMX (R245, R271): two blocks of 32 lanes. -/
def execQmx (p : Pred) (t : Ty) (d : VReg) (ks : KReg) (a : VReg) (bias : BitVec 8) (la : Nat) (s : State) : Out :=
  issue s { v := [d, a], k := [ks], long := true } 12 fun s key g sp =>
    let m := activeLanes g sp p
    let q (b : Nat) : Nat × List Nat × Nat :=
      if blockActive m b then quantise (fmtOf t) bias.toInt (qmxBlock g.regs m a b) else (0, List.replicate 32 0, 0)
    let q0 := q 0
    let q1 := q 1
    let e := t.shape.2
    let put (l : Nat) : Nat := packCodes t.shape.1 (((if l < 32 then q0.2.1 else q1.2.1).drop (l % 32 * e)).take e)
    let w := laneSet fun l => inLanes m l && decide (l % 32 < 32 / e)
    startLong s key g sp la 12 [d] [ks] (longLanes false d w put) [(ks, dw (q0.1 + 256 * q1.1))]
      ((laneList m).map fun l => (l, if l < 32 then q0.2.2 else q1.2.2))

/-- DQMX (R272). -/
def execDqmx (p : Pred) (t : Ty) (d : VReg) (ks : KReg) (a : VReg) (s : State) : Out :=
  localOp s { v := [d, a], k := [ks] } 12 fun _ g sp =>
    let m := activeLanes g sp p
    let e := t.shape.2
    let r (l : Nat) : Nat × Nat :=
      let b := l / 32
      dequantise (fmtOf t) (bitsOf (g.kget ks) (8 * b + 7) (8 * b))
        (elt t.shape.1 (g.regs.lane1 a (32 * b + l % 32 / e)) (l % 32 % e))
    finishFlags { g with regs := g.regs.putLanes false d m fun l => (r l).1 } sp ((laneList m).map fun l => (l, (r l).2))

/-- FADD_IMM (R273). -/
def execFaddImm (p : Pred) (rm : Rm) (t : Ty) (d a : VReg) (imm : BitVec 32) (s : State) : Out :=
  vecOp s (use1 t d a) p false d 12 fun g l => elt2 t (fpAdd g rm t) (g.lane t a l) imm.toNat

/-- FSUB_IMM (R273). -/
def execFsubImm (p : Pred) (rm : Rm) (t : Ty) (d a : VReg) (imm : BitVec 32) (s : State) : Out :=
  vecOp s (use1 t d a) p false d 12 fun g l => elt2 t (fpSub g rm t) (g.lane t a l) imm.toNat

/-- FMUL_IMM (R273). -/
def execFmulImm (p : Pred) (rm : Rm) (t : Ty) (d a : VReg) (imm : BitVec 32) (s : State) : Out :=
  vecOp s (use1 t d a) p false d 12 fun g l => elt2 t (fpMul g rm t) (g.lane t a l) imm.toNat

/-- FMIN_IMM (R273). -/
def execFminImm (p : Pred) (t : Ty) (d a : VReg) (imm : BitVec 32) (s : State) : Out :=
  vecOp s (use1 t d a) p false d 12 fun g l => elt2 t (fpMin g t) (g.lane t a l) imm.toNat

/-- FMAX_IMM (R273). -/
def execFmaxImm (p : Pred) (t : Ty) (d a : VReg) (imm : BitVec 32) (s : State) : Out :=
  vecOp s (use1 t d a) p false d 12 fun g l => elt2 t (fpMax g t) (g.lane t a l) imm.toNat

/-- FFMA_IMM (R273). -/
def execFfmaImm (p : Pred) (nc np : Bool) (rm : Rm) (t : Ty) (d a : VReg) (imm : BitVec 32) (c : VReg) (s : State) : Out :=
  vecOp s { v := [d, a, c] } p false d 12 fun g l =>
    elt3 t (fpFma g nc np rm t) (g.lane t a l) imm.toNat (g.lane t c l)

/-- FSTAT (R274). -/
def execFstat (clr : Bool) (d : KReg) (s : State) : Out :=
  localOp s { k := [d], drain := true } 8 fun _ g sp =>
    let g' := g.kset d g.regs.fsr
    (if clr then { g' with regs := { g'.regs with fsr := 0 } } else g', sp)

/-- FPX raised to whatever splits of a gang hold the lanes that set an enabled flag (R58, R243): a division in the window may
have parted them. -/
def spreadFpx (g : Gang) (en : Nat) (fl : List (Nat × Nat)) : Gang :=
  let fix (sp : Split) : Split := raiseFpx sp en (fl.filter fun e => inLanes sp.lanes e.1)
  { g with splits := g.splits.map fun e => (e.1, e.2.map fix), deferred := g.deferred.map fix }

/-- LONG_LATENCY_COMPLETE (R57, R60, R241, R243): the results of some lanes are written; with the last of them
the uniform result is written, the flags are merged, FPX is raised and the window is done. -/
def execLongLatencyComplete (op : Nat) (lanes : Lanes) (s : State) : Out :=
  .next (match s.long? op with
    | none => s
    | some x =>
      if x.array then s else
      let now := x.vs.filter fun e => inLanes lanes e.2.1
      let rest := x.vs.filter fun e => !inLanes lanes e.2.1
      let s := s.modGang x.gang fun g => { g with
        regs := now.foldl (fun (r : Regs) e => r.vlanes e.1 (laneSet (· == e.2.1)) fun _ => e.2.2) g.regs }
      if !rest.isEmpty then s.setLong op (some { x with vs := rest })
      else
        let s := s.modGang x.gang fun g =>
          let g := x.ks.foldl (fun (g : Gang) e => g.kset e.1 e.2) g
          let g := mergeFsr g (allFlags x.flags)
          closeWindow (spreadFpx g x.en x.flags) op
        s.setLong op none)

end Sys2Proof.Machine
end

