-- ==== Sys2Proof/Machine/Cross.lean ====
section
/-! DEFINITION. Cross-lane instructions (R275 to R280) and the pair word (R61 to R64, R281). -/

namespace Sys2Proof.Machine

/-- The width of a segment by its code (R275). -/
def segWidth (w : Nat) : Nat := 2 ^ (w + 1)

/-- The lane that SHFL reads for a lane (R276). -/
def shuffleFrom (mode : ShMode) (w l o : Nat) : Nat :=
  let j := l % w
  match mode with
  | .idx => l - j + o % w
  | .xor => l - j + (j ^^^ o) % w
  | .up => if o ≤ j then l - o else l
  | .down => if j + o < w then l + o else l

/-- SHFL (R276). -/
def execShfl (p : Pred) (mode : ShMode) (w : Nat) (t : Ty) (d a : VReg) (o : ShSrc) (s : State) : Out :=
  vecOp s { v := vr t d ++ vr t a ++ (match o with | .reg b => vr t b | .imm _ => []) } p t.wide d 8 fun g l =>
    let n := match o with
      | .reg b => g.lane1 b l % 256
      | .imm i => i.toNat
    (g.lane t a (shuffleFrom mode (segWidth w) l n), 0)

/-- The identity of a reduction (R277). -/
def redIdentity (op : RedOp) (t : Ty) : Nat :=
  let n := t.shape.1
  match op with
  | .add | .or | .xor => 0
  | .min => if tySigned t then 2 ^ (n - 1) - 1 else 2 ^ n - 1
  | .max => if tySigned t then 2 ^ (n - 1) else 0
  | .and => 2 ^ n - 1
  | .fadd => 0x80000000
  | .fmin => 0x7F800000
  | .fmax => 0xFF800000

/-- One application of a reduction's operation, with its flags (R277). -/
def redApply (g : Regs) (op : RedOp) (t : Ty) (a b : Nat) : Nat × Nat :=
  match op with
  | .add => iAdd t false a b
  | .min => iMin t a b
  | .max => iMax t a b
  | .and => (a &&& b, 0)
  | .or => (a ||| b, 0)
  | .xor => (a ^^^ b, 0)
  | .fadd => fpAdd g .dyn t a b
  | .fmin => fpMin g t a b
  | .fmax => fpMax g t a b

/-- An application in a tree: with two identities it sets no flag (R277). -/
def redNode (g : Regs) (op : RedOp) (t : Ty) (a b : Nat) : Nat × Nat :=
  let r := redApply g op t a b
  let i := redIdentity op t
  (r.1, if a = i ∧ b = i then 0 else r.2)

/-- A stage of a tree: new values and the flags so far. -/
def treeStage (x : List Nat × Nat) (f : List Nat → Nat → Nat × Nat) : List Nat × Nat :=
  let r := (List.range x.1.length).map (f x.1)
  (r.map (·.1), r.foldl (fun n e => n ||| e.2) x.2)

/-- VRED's tree on one segment of `2 ^ n` values (R277). -/
def redTree (g : Regs) (op : RedOp) (t : Ty) (n : Nat) (vs : List Nat) : List Nat × Nat :=
  (List.range n).foldl (fun x i => treeStage x fun t0 j =>
    let lo := if j.testBit i then j - 2 ^ i else j
    redNode g op t (t0.getD lo 0) (t0.getD (lo + 2 ^ i) 0)) (vs, 0)

/-- VSCAN's tree on one segment of `2 ^ n` values (R277). -/
def scanTree (g : Regs) (op : RedOp) (t : Ty) (excl : Bool) (n : Nat) (vs : List Nat) : List Nat × Nat :=
  let start := if excl then (redIdentity op t :: vs).take vs.length else vs
  (List.range n).foldl (fun x i => treeStage x fun t0 j =>
    if 2 ^ i ≤ j then redNode g op t (t0.getD (j - 2 ^ i) 0) (t0.getD j 0) else (t0.getD j 0, 0)) (start, 0)

/-- The values of a segment: inactive lanes count as the identity (R277). -/
def segValues (g : Regs) (op : RedOp) (t : Ty) (w : Nat) (m : Lanes) (a base : Nat) : List Nat :=
  (List.range w).map fun j => if inLanes m (base + j) then g.lane t a (base + j) else redIdentity op t

/-- A reduction or a scan (R277): every active lane of a segment takes the segment's flags. -/
def redOp (s : State) (p : Pred) (op : RedOp) (w : Nat) (t : Ty) (d a : VReg) (la : Nat)
    (tree : Regs → List Nat → List Nat × Nat) : Out :=
  issue s { use1 t d a with long := true } 8 fun s key g sp =>
    let m := activeLanes g sp p
    let n := segWidth w
    let segs := (List.range (64 / n)).map fun i => tree g.regs (segValues g.regs op t n m a (i * n))
    let seg (l : Nat) : List Nat × Nat := segs.getD (l / n) ([], 0)
    startLong s key g sp la 8 (vr t d) [] (longLanes t.wide d m fun l => (seg l).1.getD (l % n) 0) []
      ((laneList m).map fun l => (l, (seg l).2))

/-- VRED (R277). -/
def execVred (p : Pred) (op : RedOp) (w : Nat) (t : Ty) (d a : VReg) (la : Nat) (s : State) : Out :=
  redOp s p op w t d a la fun g vs => redTree g op t (w + 1) vs

/-- VSCAN (R277). -/
def execVscan (p : Pred) (excl : Bool) (op : RedOp) (w : Nat) (t : Ty) (d a : VReg) (la : Nat) (s : State) : Out :=
  redOp s p op w t d a la fun g vs => scanTree g op t excl (w + 1) vs

/-- The active lanes of a lane's segment that hold the same bits (R278). -/
def matchSet (g : Regs) (m : Lanes) (t : Ty) (w a l : Nat) : List Nat :=
  (laneList m).filter fun k => k / w == l / w && g.lane t a k == g.lane t a l

/-- MATCH (R278). -/
def execMatchLanes (p : Pred) (o : MatchOut) (w : Nat) (t : Ty) (d a : VReg) (la : Nat) (s : State) : Out :=
  issue s { v := d :: vr t a, long := true } 8 fun s key g sp =>
    let m := activeLanes g sp p
    let f (l : Nat) : Nat :=
      let e := matchSet g.regs m t (segWidth w) a l
      match o with
      | .rank => (e.filter (· < l)).length
      | .count => e.length
      | .last => if e.any (l < ·) then 0 else 1
    startLong s key g sp la 8 [d] [] (longLanes false d m f) [] []

/-- The ballot of a register (R279). -/
def ballotOf (g : Regs) (m : Lanes) (a : VReg) : Lanes := laneSet fun l => inLanes m l && g.lane1 a l != 0

/-- BALLOT (R279). -/
def execBallot (p : Pred) (d : BallotDst) (a : VReg) (s : State) : Out :=
  localOp s { v := [a], k := match d with | .mask _ => [] | .uni k => [k] } 8 fun _ g sp =>
    let v := ballotOf g.regs (activeLanes g sp p) a
    (match d with | .mask m => g.mset m v | .uni k => g.kset k v, sp)

/-- VOTE (R279). -/
def execVote (p : Pred) (v : Vote) (d : KReg) (a : VReg) (s : State) : Out :=
  localOp s { v := [a], k := [d] } 8 fun _ g sp =>
    let m := activeLanes g sp p
    let b := ballotOf g.regs m a
    let holds := match v with
      | .any => b != 0
      | .all => b == m
      | .none => b == 0
    (g.kset d (if holds then 1 else 0), sp)

/-- VLANE (R280). -/
def execVlane (p : Pred) (o : LaneOut) (d : VReg) (s : State) : Out :=
  localOp s { v := [d] } 8 fun _ g sp =>
    let m := activeLanes g sp p
    let f (l : Nat) : Nat := match o with
      | .idx => l
      | .blk => 64 * g.idx + l
      | .rank => ((laneList m).filter (· < l)).length
    ({ g with regs := g.regs.putLanes false d m f }, sp)

/-- One lane of a pair slot, as its equivalent instruction computes it (R281). -/
def slotLane (x : PairSlot) (g : Regs) (l : Nat) : Nat × Nat :=
  let a := g.lane1 x.a l
  let b := g.lane1 x.b l
  let c := g.lane1 x.c l
  match x.op with
  | .vadd sat => elt2 x.t (iAdd x.t sat) a b
  | .vsub sat => elt2 x.t (iSub x.t sat) a b
  | .vmin => elt2 x.t (iMin x.t) a b
  | .vmax => elt2 x.t (iMax x.t) a b
  | .vmul => elt2 x.t (iMul x.t) a b
  | .vmulh => elt2 x.t (iMulh x.t) a b
  | .vmad => elt3 x.t (iMad x.t) a b c
  | .vand => (a &&& b, 0)
  | .vor => (a ||| b, 0)
  | .vxor => (a ^^^ b, 0)
  | .vnot => (4294967295 - a, 0)
  | .vlop3 lut => (lop3 lut a b c, 0)
  | .vsel => (if inLanes (g.mget x.c) l then a else b, 0)
  | .vmov => (a, 0)
  | .vmovi => (((BitVec.ofNat 8 x.c).signExtend 32).toNat, 0)
  | .fadd rm => elt2 x.t (fpAdd g rm x.t) a b
  | .fsub rm => elt2 x.t (fpSub g rm x.t) a b
  | .fmul rm => elt2 x.t (fpMul g rm x.t) a b
  | .ffma nc np rm => elt3 x.t (fpFma g nc np rm x.t) a b c
  | .fmin => elt2 x.t (fpMin g x.t) a b
  | .fmax => elt2 x.t (fpMax g x.t) a b

/-- PAIR (R61 to R64): both slots read before either writes, their flags are united, and FPX is raised once. -/
def execPair (s0 s1 : PairSlot) (s : State) : Out :=
  localOp s { v := s0.d :: s1.d :: (s0.reads ++ s1.reads) } 16 fun _ g sp =>
    let m0 := activeLanes g sp s0.p
    let m1 := activeLanes g sp s1.p
    let fl := (List.range 64).map fun l =>
      (l, (if inLanes m0 l then (slotLane s0 g.regs l).2 else 0) ||| (if inLanes m1 l then (slotLane s1 g.regs l).2 else 0))
    let r0 := g.regs.putLanes false s0.d m0 fun l => (slotLane s0 g.regs l).1
    finishFlags { g with regs := r0.putLanes false s1.d m1 fun l => (slotLane s1 g.regs l).1 } sp fl

end Sys2Proof.Machine
end

