-- ==== Sys2Proof/Decode.lean ====
section
/-! DEFINITION. The decoder of Gaoft words (R40 to R66), total on every bit pattern and refusing by name,
and after it the encoder, written from the same field tables. The events of the opcode table have no word. -/

namespace Sys2Proof

/-- The fields of a 64- or 96-bit word: the header of R45, format F64 (R47) and IMM32 (R50). -/
structure Fields where
  len : Nat
  maj : Nat
  la : Nat := 0
  p : Pred := ⟨0, false⟩
  d : Nat := 0
  a : Nat := 0
  b : Nat := 0
  c : Nat := 0
  t : Nat := 0
  fn : Nat := 0
  imm : Nat := 0
  deriving DecidableEq, Repr

/-- A bit as a number. -/
def bit (b : Bool) : Nat := if b then 1 else 0

/-- The fields of a word, from bit 0 upward. -/
def Fields.ofNat (w : Nat) : Fields :=
  { len := w % 4, maj := w / 4 % 128, la := w / 512 % 16, p := ⟨w / 8192 % 8, w / 65536 % 2 == 1⟩,
    d := w / 131072 % 256, a := w / 33554432 % 256, b := w / 8589934592 % 256,
    c := w / 2199023255552 % 256, t := w / 562949953421312 % 16, fn := w / 9007199254740992 % 2048,
    imm := w / 18446744073709551616 % 4294967296 }

/-- The word with these fields. -/
def Fields.toNat (f : Fields) : Nat :=
  f.len + 4 * f.maj + 512 * f.la + 8192 * f.p.pm + 65536 * bit f.p.pn + 131072 * f.d + 33554432 * f.a
    + 8589934592 * f.b + 2199023255552 * f.c + 562949953421312 * f.t + 9007199254740992 * f.fn
    + 18446744073709551616 * f.imm

/-- What a decoding step answers. -/
abbrev Dec := Except Reject Instr

/-- An instruction under a condition, or a refusal. -/
def want (ok : Bool) (e : Reject) (x : Dec) : Dec := if ok then x else .error e

/-- An instruction whose unused fields, listed, must all be zero (R49). -/
def zeros (fs : List Nat) (i : Instr) : Dec := want (fs.all (· == 0)) .unusedField (.ok i)

/-- Goes on with a field value if the code names one. -/
def known {α : Type} (o : Option α) (e : Reject) (k : α → Dec) : Dec :=
  match o with
  | some x => k x
  | none => .error e

/-- The entry of a code list. -/
def pick {α : Type} (l : List α) (n : Nat) : Option α := l[n]?

/-- IMM32. -/
def Fields.imm32 (f : Fields) : BitVec 32 := BitVec.ofNat 32 f.imm

/-- The type codes in order (R51). -/
def tyList : List Ty := [.b32, .s32, .n32, .f32, .bf16x2, .f16x2, .s16x2, .n16x2,
  .e4m3x4, .e5m2x4, .e2m1x8, .d8x4, .s64, .n64, .s8x4, .n8x4]
/-- The space codes in order (R54). -/
def spaceList : List Space := [.global, .scratch, .peer, .engine, .accum]
/-- The scope codes in order (R55). -/
def scopeList : List Scope := [.gang, .core, .cluster, .tenant, .device, .system]
/-- The ordering codes in order (R53). -/
def ordList : List MemOrd := [.plain, .acq, .rel, .ar]
/-- The width codes in order (R94). -/
def widthList : List Width := [.full, .w8, .w16]
/-- The atomic operation codes in order (R103). -/
def aopList : List Aop := [.add, .and, .or, .xor, .min, .max, .xchg, .cas, .incw]
/-- The rounding-mode codes in order (R248). -/
def rmList : List Rm := [.dyn, .rne, .rz, .rd, .ru]
/-- The branch conditions in order (R179). -/
def brList : List BrCond := [.eq, .ne, .lt, .ge, .ltu, .geu]
/-- The votes in order (R181). -/
def voteList : List Vote := [.any, .all, .none]
/-- The compare conditions in order (R256). -/
def vcondList : List VCond := [.eq, .ne, .lt, .le, .gt, .ge]
/-- The floating-point conditions in order (R263). -/
def fcondList : List FCond := [.eq, .ne, .lt, .le, .gt, .ge, .un, .ord]
/-- The reduction codes in order (R277). -/
def redList : List RedOp := [.add, .min, .max, .and, .or, .xor, .fadd, .fmin, .fmax]
/-- The system registers with their numbers (R38). -/
def sysList : List (Nat × SysReg) :=
  [(0x000, .lanew), (0x001, .gangid), (0x002, .blockid), (0x003, .corenum), (0x004, .clusternum),
   (0x005, .stamp), (0x006, .ctxid), (0x020, .fsr), (0x021, .fcr), (0x030, .pri), (0x031, .wdlim),
   (0x040, .twin), (0x041, .rcstat), (0x050, .hsp), (0x060, .tagbase), (0x061, .tagready),
   (0x062, .scrbase), (0x070, .errq), (0x071, .errcnt), (0x080, .lcnt), (0x081, .scnt), (0x090, .energy)]

/-- The type of a word. -/
def Fields.ty (f : Fields) (k : Ty → Dec) : Dec := known (pick tyList f.t) .badType k

/-- Signed and unsigned 64-bit types as a sign flag (R186). -/
def Fields.sgn64 (f : Fields) (k : Bool → Dec) : Dec :=
  if f.t = 12 then k true else if f.t = 13 then k false else .error .badType

/-- A rounding-mode code (R248). -/
def withRm (n : Nat) (k : Rm → Dec) : Dec := known (pick rmList n) .badFn k

/-- The index register of a memory operand and the zero rule of B (R53). -/
def Fields.index (f : Fields) (k : Option VReg → Dec) : Dec :=
  if f.fn / 256 % 2 = 1 then k (some f.b) else want (f.b == 0) .unusedField (k none)

/-- FN of a memory form, taken apart: OPX, ORD, SCOPE and SPACE (R53 to R55). -/
def Fields.mem (f : Fields) (k : Nat → MemOrd → Scope → Space → MemArg → Dec) : Dec :=
  known (pick ordList (f.fn / 64 % 4)) .badFn fun o =>
  known (pick scopeList (f.fn / 8 % 8)) .badScope fun sc =>
  known (pick spaceList (f.fn % 8)) .badSpace fun sp =>
  f.index fun ix => k (f.fn / 512) o sc sp ⟨f.a, ix, f.imm32⟩

/-- The combining mask of a compare (R256). -/
def Fields.comb (f : Fields) (k : Comb → Dec) : Dec :=
  match f.fn / 8 with
  | 0 => want (f.c == 0) .unusedField (k .plain)
  | 1 => k (.and f.c)
  | 2 => k (.or f.c)
  | _ => .error .badFn

/-- Majors 0x00 to 0x09: control (R177 to R185). -/
def decControl (f : Fields) : Dec :=
  match f.maj with
  | 0x00 => zeros [f.fn, f.t, f.d, f.a, f.b, f.c] .nop
  | 0x01 => zeros [f.fn, f.t, f.d, f.a, f.b, f.c] (.exit f.p)
  | 0x02 => zeros [f.fn, f.t, f.d, f.a, f.b, f.c] (.bra f.imm32)
  | 0x03 =>
    known (pick brList (f.fn % 8)) .badFn fun cond =>
    match f.fn / 8 with
    | 0 => zeros [f.t, f.d, f.c] (.brc cond f.a (.reg f.b) f.imm32)
    | 1 => zeros [f.t, f.d, f.b] (.brc cond f.a (.imm (BitVec.ofNat 8 f.c)) f.imm32)
    | _ => .error .badFn
  | 0x04 => want (f.fn < 2) .badFn (zeros [f.t, f.d, f.b, f.c] (.brd (f.fn == 1) f.a f.imm32))
  | 0x05 => known (pick voteList f.fn) .badFn fun v => zeros [f.t, f.d, f.b, f.c] (.brv v f.a f.imm32)
  | 0x06 => zeros [f.fn, f.t, f.a, f.b, f.c] (.call f.d f.imm32)
  | 0x07 => zeros [f.fn, f.t, f.d, f.b, f.c] (.ret f.a)
  | 0x08 => zeros [f.fn, f.t, f.d, f.a, f.b, f.c] .merge
  | 0x09 => known (pick [MovkForm.sext, .zext, .high] f.fn) .badFn fun m =>
      zeros [f.t, f.a, f.b, f.c] (.movk m f.d f.imm32)
  | _ => .error .reservedMajor

/-- Major 0x0A: the uniform ALU on registers (R186). -/
def decAlu (f : Fields) : Dec :=
  match f.fn with
  | 0 => zeros [f.t, f.c] (.addk f.d f.a f.b)
  | 1 => zeros [f.t, f.c] (.subk f.d f.a f.b)
  | 2 => zeros [f.t, f.c] (.mulk f.d f.a f.b)
  | 3 => f.sgn64 fun s => zeros [f.c] (.mulhk s f.d f.a f.b)
  | 4 => zeros [f.t, f.c] (.andk f.d f.a f.b)
  | 5 => zeros [f.t, f.c] (.ork f.d f.a f.b)
  | 6 => zeros [f.t, f.c] (.xork f.d f.a f.b)
  | 7 => zeros [f.t, f.c] (.shlk f.d f.a f.b)
  | 8 => zeros [f.t, f.c] (.shrk f.d f.a f.b)
  | 9 => zeros [f.t, f.c] (.sark f.d f.a f.b)
  | 10 => f.sgn64 fun s => zeros [f.c] (.mink s f.d f.a f.b)
  | 11 => f.sgn64 fun s => zeros [f.c] (.maxk s f.d f.a f.b)
  | _ => .error .badFn

/-- Major 0x0B: the uniform ALU with an immediate (R186). -/
def decAluImm (f : Fields) : Dec :=
  match f.fn with
  | 0 => zeros [f.t, f.b, f.c] (.addkImm f.d f.a f.imm32)
  | 1 => zeros [f.t, f.b, f.c] (.subkImm f.d f.a f.imm32)
  | 2 => zeros [f.t, f.b, f.c] (.mulkImm f.d f.a f.imm32)
  | 3 => f.sgn64 fun s => zeros [f.b, f.c] (.mulhkImm s f.d f.a f.imm32)
  | 4 => zeros [f.t, f.b, f.c] (.andkImm f.d f.a f.imm32)
  | 5 => zeros [f.t, f.b, f.c] (.orkImm f.d f.a f.imm32)
  | 6 => zeros [f.t, f.b, f.c] (.xorkImm f.d f.a f.imm32)
  | 7 => zeros [f.t, f.b, f.c] (.shlkImm f.d f.a f.imm32)
  | 8 => zeros [f.t, f.b, f.c] (.shrkImm f.d f.a f.imm32)
  | 9 => zeros [f.t, f.b, f.c] (.sarkImm f.d f.a f.imm32)
  | 10 => f.sgn64 fun s => zeros [f.b, f.c] (.minkImm s f.d f.a f.imm32)
  | 11 => f.sgn64 fun s => zeros [f.b, f.c] (.maxkImm s f.d f.a f.imm32)
  | _ => .error .badFn

/-- Majors 0x0C to 0x0F: moves, masks and system registers (R187 to R190). -/
def decMove (f : Fields) : Dec :=
  match f.maj with
  | 0x0C =>
    match f.fn with
    | 0 => f.ty fun t => zeros [f.b, f.c] (.ktov f.p t f.d f.a)
    | 1 => f.ty fun t => zeros [f.b] (.vtok t f.d f.a f.c)
    | 2 => zeros [f.t, f.b, f.c] (.ktom f.d f.a)
    | 3 => zeros [f.t, f.b, f.c] (.mtok f.d f.a)
    | _ => .error .badFn
  | 0x0D =>
    match f.fn with
    | 0 => zeros [f.t, f.c] (.mand f.d f.a f.b)
    | 1 => zeros [f.t, f.c] (.mor f.d f.a f.b)
    | 2 => zeros [f.t, f.c] (.mxor f.d f.a f.b)
    | 3 => zeros [f.t, f.b, f.c] (.mnot f.d f.a)
    | 4 => zeros [f.t, f.b, f.c] (.mpopc f.d f.a)
    | 5 => zeros [f.t, f.b, f.c] (.mfirst f.d f.a)
    | _ => .error .badFn
  | 0x0E =>
    match f.fn with
    | 0 => zeros [f.t, f.a, f.b, f.c] (.movx (.toM f.d))
    | 1 => zeros [f.t, f.d, f.b, f.c] (.movx (.ofM f.a))
    | 2 => zeros [f.t, f.a, f.b, f.c] (.movx (.toK f.d))
    | 3 => zeros [f.t, f.d, f.b, f.c] (.movx (.ofK f.a))
    | _ => .error .badFn
  | 0x0F =>
    match sysList.find? (fun e => e.1 == f.b + 256 * f.c) with
    | none => .error .badSysReg
    | some (_, r) =>
      match f.fn with
      | 0 => zeros [f.t, f.a] (.srd f.d r)
      | 1 =>
        match r with
        | .twin => zeros [f.t, f.d] (.swrTwin f.a)
        | .rcstat => zeros [f.t, f.d] (.swrRcstat f.a)
        | .errq => zeros [f.t, f.d] (.swrErrq f.a)
        | r => zeros [f.t, f.d] (.swr r f.a)
      | _ => .error .badFn
  | _ => .error .reservedMajor

/-- Majors 0x10 to 0x18: synchronisation (R191 to R199). -/
def decSync (f : Fields) : Dec :=
  match f.maj with
  | 0x10 => zeros [f.fn, f.t, f.d, f.a, f.b] (.trap (BitVec.ofNat 8 f.c))
  | 0x11 => zeros [f.fn, f.t, f.d, f.a, f.b, f.c] .bar
  | 0x12 => zeros [f.fn, f.t, f.d, f.a, f.b] (.cjoin f.c)
  | 0x13 => zeros [f.fn, f.t, f.d, f.a, f.b] (.cleave f.c)
  | 0x14 => zeros [f.fn, f.t, f.d, f.a, f.b] (.cbar f.c)
  | 0x15 => zeros [f.fn, f.t, f.d, f.a, f.b] (.setpri f.c)
  | 0x16 => zeros [f.fn, f.t, f.d, f.a, f.b, f.c] .yieldTurn
  | 0x17 => zeros [f.fn, f.t, f.d, f.a] (.waitc f.b f.c)
  | 0x18 => zeros [f.fn, f.t, f.d, f.b, f.c] (.sleep f.a)
  | _ => .error .reservedMajor

/-- Majors 0x19 to 0x1F: effects (R362 to R372). -/
def decEffect (f : Fields) : Dec :=
  match f.maj with
  | 0x19 => zeros [f.fn, f.t] (.hpush f.d f.a f.b f.c f.imm32)
  | 0x1A => zeros [f.fn, f.t, f.d, f.a, f.b, f.c] .hpop
  | 0x1B => known (pick [TokKind.one, .many, .none] f.fn) .badFn fun k =>
      zeros [f.t] (.perform f.p k f.d f.a f.b f.c)
  | 0x1C => zeros [f.fn, f.t, f.d, f.c] (.resume f.a f.b)
  | 0x1D => zeros [f.fn, f.t, f.d, f.c] (.fwd f.a f.b)
  | 0x1E => zeros [f.fn, f.t, f.d, f.b, f.c] (.tkdrop f.a)
  | 0x1F => zeros [f.fn, f.t, f.b, f.c] (.tkstat f.d f.a)
  | _ => .error .reservedMajor

/-- Majors 0x20 to 0x27 and 0x29: memory forms (R94 to R108). -/
def decMem (f : Fields) : Dec :=
  f.mem fun opx o sc sp m =>
  match f.maj with
  | 0x20 => known (pick widthList opx) .badFn fun w => f.ty fun t =>
      zeros [f.c] (.ld f.p w t o sc sp f.d m f.la)
  | 0x21 => known (pick widthList opx) .badFn fun w => f.ty fun t =>
      zeros [f.d] (.st f.p w t o sc sp m f.c)
  | 0x22 => known (pick widthList opx) .badFn fun w => f.ty fun t =>
      zeros [f.c] (.ldk w t o sc sp f.d m f.la)
  | 0x23 => known (pick widthList opx) .badFn fun w => f.ty fun t =>
      zeros [f.d] (.stk w t o sc sp m f.c)
  | 0x24 => want (opx < 2) .badFn <| known (pick aopList f.c) .badFn fun op => f.ty fun t =>
      .ok (.atom f.p op (opx == 1) t o sc sp f.d m f.la)
  | 0x25 => want (opx == 0) .badFn <| known (pick aopList f.c) .badFn fun op => f.ty fun t =>
      .ok (.atomk op t o sc sp f.d m f.la)
  | 0x26 => want (opx == 0) .badFn <| want (sp == .global) .badSpace <| f.ty fun t =>
      zeros [f.c] (.lr f.p t o sc f.d m f.la)
  | 0x27 => want (opx == 0) .badFn <| want (sp == .global) .badSpace <| f.ty fun t =>
      .ok (.sc f.p t o sc f.d m f.c f.la)
  | 0x29 => known (pick [PrefLevel.l1, .ds, .l1w] opx) .badFn fun l =>
      want (sp == .global) .badSpace <| want (o == .plain && sc == .gang) .badScope <|
      zeros [f.d, f.c, f.t] (.pref f.p l m)
  | _ => .error .reservedMajor

/-- Majors 0x28 and 0x2A to 0x2D: FENCE, tags and guards (R107, R119 to R122). -/
def decTag (f : Fields) : Dec :=
  match f.maj with
  | 0x28 =>
    known (pick scopeList (f.fn / 8 % 8)) .badScope fun sc =>
    want (f.fn % 8 == 0) .unusedField <|
    match f.fn / 64 with
    | 1 => zeros [f.t, f.d, f.a, f.b, f.c] (.fence .acq sc)
    | 2 => zeros [f.t, f.d, f.a, f.b, f.c] (.fence .rel sc)
    | 3 => zeros [f.t, f.d, f.a, f.b, f.c] (.fence .ar sc)
    | 11 => zeros [f.t, f.d, f.a, f.b, f.c] (.fence .sc sc)
    | _ => .error .badFn
  | 0x2A => want (f.fn < 2) .badFn (zeros [f.t, f.b, f.c] (.twait (f.fn == 1) f.d f.a))
  | 0x2B => zeros [f.fn, f.t, f.b, f.c] (.tfirst f.d f.a)
  | 0x2C => zeros [f.fn, f.t, f.b, f.c] (.tclr f.d f.a)
  | 0x2D =>
    match f.fn with
    | 0 => zeros [f.t, f.b, f.c] (.gset f.d (.reg f.a))
    | 1 => zeros [f.t, f.a, f.b, f.c] (.gset f.d .setFalse)
    | 2 => zeros [f.t, f.a, f.b, f.c] (.gset f.d .setTrue)
    | 3 => zeros [f.t, f.a, f.b, f.c] (.gset f.d .setUnresolved)
    | _ => .error .badFn
  | _ => .error .reservedMajor

/-- The peer operand (R205, R214). -/
def Fields.peer (f : Fields) : PeerArg := if f.fn / 4 % 2 = 1 then .vec f.a else .uni f.a

/-- Majors 0x30 to 0x33: the fabric (R214 to R220). -/
def decFabric (f : Fields) : Dec :=
  match f.maj with
  | 0x33 =>
    match f.fn with
    | 0 => zeros [f.t, f.d, f.a, f.b, f.c] (.rfence false)
    | 512 => zeros [f.t, f.d, f.a, f.b, f.c] (.rfence true)
    | _ => .error .badFn
  | m =>
    known (pick ordList (f.fn / 64 % 4)) .badFn fun o =>
    want (f.fn / 8 % 8 == (if o == .plain then 0 else 5)) .badScope <|
    want (f.fn % 4 == 0) .unusedField <|
    f.index fun ix =>
    f.ty fun t =>
    match m with
    | 0x30 => known (pick widthList (f.fn / 512)) .badFn fun w =>
        zeros [f.c] (.rld f.p w t o f.d f.peer ix f.imm32 f.la)
    | 0x31 => known (pick widthList (f.fn / 512)) .badFn fun w =>
        zeros [f.d] (.rst f.p w t o f.c f.peer ix f.imm32)
    | 0x32 => want (f.fn / 512 == 0) .badFn <| known (pick aopList f.c) .badFn fun op =>
        .ok (.ratom f.p op t o f.d f.peer ix f.imm32 f.la)
    | _ => .error .reservedMajor

/-- Majors 0x34 to 0x38: integer and logic (R249 to R254). -/
def decInt (f : Fields) : Dec :=
  f.ty fun t =>
  match f.maj with
  | 0x34 =>
    let sat := f.fn / 8 == 1
    want (f.fn < 16) .badFn <|
    match f.fn % 8 with
    | 0 => zeros [f.c] (.vadd f.p sat t f.d f.a f.b)
    | 1 => zeros [f.c] (.vsub f.p sat t f.d f.a f.b)
    | 2 => want (!sat) .badFn (zeros [f.c] (.vmin f.p t f.d f.a f.b))
    | 3 => want (!sat) .badFn (zeros [f.c] (.vmax f.p t f.d f.a f.b))
    | 4 => zeros [f.c, f.b] (.vabs f.p sat t f.d f.a)
    | 5 => zeros [f.c, f.b] (.vneg f.p sat t f.d f.a)
    | _ => .error .badFn
  | 0x35 =>
    match f.fn with
    | 0 => zeros [f.c] (.vmul f.p t f.d f.a f.b)
    | 1 => zeros [f.c] (.vmulh f.p t f.d f.a f.b)
    | 2 => .ok (.vmad f.p t f.d f.a f.b f.c)
    | _ => .error .badFn
  | 0x36 =>
    match f.fn with
    | 0 => zeros [f.c] (.vshl f.p t f.d f.a f.b)
    | 1 => zeros [f.c] (.vshr f.p t f.d f.a f.b)
    | 2 => zeros [f.c] (.vsar f.p t f.d f.a f.b)
    | 3 => zeros [f.c] (.vrot f.p t f.d f.a f.b)
    | _ => .error .badFn
  | 0x37 =>
    want (t == .b32) .badType <|
    match f.fn % 8 with
    | 0 => want (f.fn / 8 == 0) .badFn (zeros [f.c] (.vand f.p f.d f.a f.b))
    | 1 => want (f.fn / 8 == 0) .badFn (zeros [f.c] (.vor f.p f.d f.a f.b))
    | 2 => want (f.fn / 8 == 0) .badFn (zeros [f.c] (.vxor f.p f.d f.a f.b))
    | 3 => want (f.fn / 8 == 0) .badFn (zeros [f.c, f.b] (.vnot f.p f.d f.a))
    | 4 => .ok (.vlop3 f.p (BitVec.ofNat 8 (f.fn / 8)) f.d f.a f.b f.c)
    | _ => .error .badFn
  | 0x38 =>
    match f.fn with
    | 0 => zeros [f.c] (.vbfx f.p t f.d f.a f.b)
    | 1 => want (t == .b32) .badType (.ok (.vbfi f.p f.d f.a f.b f.c))
    | 2 => want (t == .b32) .badType (zeros [f.b, f.c] (.vpopc f.p f.d f.a))
    | 3 => want (t == .b32) .badType (zeros [f.b, f.c] (.vclz f.p f.d f.a))
    | 4 => want (t == .b32) .badType (zeros [f.b, f.c] (.vbrev f.p f.d f.a))
    | _ => .error .badFn
  | _ => .error .reservedMajor

/-- Major 0x3E: integer forms with an immediate (R258). -/
def decIntImm (f : Fields) : Dec :=
  f.ty fun t =>
  let sat := f.fn / 16 == 1
  want (f.fn < 32) .badFn <|
  want (!sat || f.fn % 16 < 2) .badFn <|
  match f.fn % 16 with
  | 0 => zeros [f.b, f.c] (.vaddImm f.p sat t f.d f.a f.imm32)
  | 1 => zeros [f.b, f.c] (.vsubImm f.p sat t f.d f.a f.imm32)
  | 2 => zeros [f.b, f.c] (.vminImm f.p t f.d f.a f.imm32)
  | 3 => zeros [f.b, f.c] (.vmaxImm f.p t f.d f.a f.imm32)
  | 4 => zeros [f.b, f.c] (.vmulImm f.p t f.d f.a f.imm32)
  | 5 => want (t == .b32) .badType (zeros [f.b, f.c] (.vandImm f.p f.d f.a f.imm32))
  | 6 => want (t == .b32) .badType (zeros [f.b, f.c] (.vorImm f.p f.d f.a f.imm32))
  | 7 => want (t == .b32) .badType (zeros [f.b, f.c] (.vxorImm f.p f.d f.a f.imm32))
  | 8 => zeros [f.b, f.c] (.vshlImm f.p t f.d f.a f.imm32)
  | 9 => zeros [f.b, f.c] (.vshrImm f.p t f.d f.a f.imm32)
  | 10 => zeros [f.b, f.c] (.vsarImm f.p t f.d f.a f.imm32)
  | 11 => zeros [f.b, f.c] (.vrotImm f.p t f.d f.a f.imm32)
  | 12 => zeros [f.b, f.c] (.vmulhImm f.p t f.d f.a f.imm32)
  | _ => .error .badFn

/-- Majors 0x39 to 0x3D and 0x3F: byte permute, compare, select, move and VCSUB (R255 to R259). -/
def decSelect (f : Fields) : Dec :=
  match f.maj with
  | 0x39 => zeros [f.fn, f.t, f.c] (.vprmb f.p f.d f.a f.b f.imm32)
  | 0x3A => known (pick vcondList (f.fn % 8)) .badFn fun c => f.comb fun cb => f.ty fun t =>
      .ok (.vcmp f.p c cb t f.d f.a f.b)
  | 0x3B => f.ty fun t => zeros [f.fn] (.vsel f.p t f.d f.a f.b f.c)
  | 0x3C => f.ty fun t => zeros [f.fn, f.b, f.c] (.vmov f.p t f.d f.a)
  | 0x3D => f.ty fun t => zeros [f.fn, f.a, f.b, f.c] (.vmovi f.p t f.d f.imm32)
  | 0x3F => f.ty fun t =>
    match f.fn with
    | 0 => zeros [f.c] (.vcsub f.p t f.d f.a f.b none)
    | 1 => .ok (.vcsub f.p t f.d f.a f.b (some f.c))
    | _ => .error .badFn
  | _ => .error .reservedMajor

/-- Majors 0x40 to 0x46: floating point (R260 to R268). -/
def decFp (f : Fields) : Dec :=
  f.ty fun t =>
  match f.maj with
  | 0x40 =>
    withRm (f.fn / 8) fun rm =>
    match f.fn % 8 with
    | 0 => zeros [f.c] (.fadd f.p rm t f.d f.a f.b)
    | 1 => zeros [f.c] (.fsub f.p rm t f.d f.a f.b)
    | 2 => zeros [f.c] (.fmul f.p rm t f.d f.a f.b)
    | 3 => want (rm == .dyn) .badFn (zeros [f.c] (.fmin f.p t f.d f.a f.b))
    | 4 => want (rm == .dyn) .badFn (zeros [f.c] (.fmax f.p t f.d f.a f.b))
    | _ => .error .badFn
  | 0x41 =>
    withRm (f.fn / 8 % 8) fun rm =>
    want (f.fn % 8 == 0 && f.fn < 256) .unusedField
      (.ok (.ffma f.p (f.fn / 128 == 1) (f.fn / 64 % 2 == 1) rm t f.d f.a f.b f.c))
  | 0x42 => known (pick fcondList (f.fn % 8)) .badFn fun c => f.comb fun cb =>
      want (t == .f32) .badType (.ok (.fcmp f.p c cb f.d f.a f.b))
  | 0x43 =>
    withRm (f.fn / 8) fun rm =>
    want (t == .f32) .badType <|
    want (rm == .dyn || f.fn % 8 == 2) .badFn <|
    match f.fn % 8 with
    | 0 => zeros [f.b, f.c] (.frcp f.p f.d f.a f.la)
    | 1 => zeros [f.b, f.c] (.frsq f.p f.d f.a f.la)
    | 2 => zeros [f.b, f.c] (.fsqrt f.p rm f.d f.a f.la)
    | 3 => zeros [f.b, f.c] (.fexp2 f.p f.d f.a f.la)
    | 4 => zeros [f.b, f.c] (.flog2 f.p f.d f.a f.la)
    | 5 => zeros [f.b, f.c] (.fsin f.p f.d f.a f.la)
    | 6 => zeros [f.b, f.c] (.fcos f.p f.d f.a f.la)
    | _ => .error .badFn
  | 0x44 =>
    withRm (f.fn / 8) fun rm =>
    want (t == .f32) .badType (zeros [f.fn % 8, f.c] (.fdiv f.p rm f.d f.a f.b f.la))
  | 0x45 => zeros [f.fn, f.b, f.c] (.fclass f.p t f.d f.a)
  | 0x46 =>
    withRm (f.fn / 8 % 8) fun rm =>
    want (f.fn / 64 < 2) .badFn (zeros [f.fn % 8, f.b, f.c] (.frnd f.p (f.fn / 64 == 1) rm t f.d f.a))
  | _ => .error .reservedMajor

/-- Majors 0x47 to 0x4B: conversions, MX and FSTAT (R269 to R274). -/
def decCvt (f : Fields) : Dec :=
  match f.maj with
  | 0x47 =>
    withRm (f.fn / 16 % 8) fun rm =>
    f.ty fun t =>
    known (pick tyList (f.fn % 16)) .badType fun dt =>
    zeros [f.fn / 512, f.b, f.c / 128, f.c / 8 % 2]
      (.cvt f.p rm (f.fn / 128 % 2 == 1) (f.fn / 256 % 2 == 1) dt t f.d f.a (f.c % 8) (f.c / 16))
  | 0x48 => f.ty fun t =>
      zeros [f.fn, f.b, f.imm / 256] (.qmx f.p t f.d f.c f.a (BitVec.ofNat 8 f.imm) f.la)
  | 0x49 => f.ty fun t => zeros [f.fn, f.b, f.imm] (.dqmx f.p t f.d f.c f.a)
  | 0x4A =>
    f.ty fun t =>
    withRm (f.fn / 8 % 8) fun rm =>
    want (f.fn < 256) .badFn <|
    want (f.fn < 64 || f.fn % 8 == 5) .badFn <|
    match f.fn % 8 with
    | 0 => zeros [f.b, f.c] (.faddImm f.p rm t f.d f.a f.imm32)
    | 1 => zeros [f.b, f.c] (.fsubImm f.p rm t f.d f.a f.imm32)
    | 2 => zeros [f.b, f.c] (.fmulImm f.p rm t f.d f.a f.imm32)
    | 3 => want (rm == .dyn) .badFn (zeros [f.b, f.c] (.fminImm f.p t f.d f.a f.imm32))
    | 4 => want (rm == .dyn) .badFn (zeros [f.b, f.c] (.fmaxImm f.p t f.d f.a f.imm32))
    | 5 => zeros [f.b] (.ffmaImm f.p (f.fn / 128 == 1) (f.fn / 64 % 2 == 1) rm t f.d f.a f.imm32 f.c)
    | _ => .error .badFn
  | 0x4B => want (f.fn < 2) .badFn (zeros [f.t, f.a, f.b, f.c] (.fstat (f.fn == 1) f.d))
  | _ => .error .reservedMajor

/-- Majors 0x50 to 0x56: cross-lane (R275 to R280). -/
def decCross (f : Fields) : Dec :=
  match f.maj with
  | 0x50 => f.ty fun t =>
    known (pick [ShMode.idx, .xor, .up, .down] (f.fn % 4)) .badFn fun mo =>
    want (f.fn / 4 % 2 == 0) .unusedField <|
    match f.fn / 64 with
    | 0 => zeros [f.c] (.shfl f.p mo (f.fn / 8 % 8) t f.d f.a (.reg f.b))
    | 1 => zeros [f.b] (.shfl f.p mo (f.fn / 8 % 8) t f.d f.a (.imm (BitVec.ofNat 8 f.c)))
    | _ => .error .badFn
  | 0x51 => f.ty fun t => known (pick redList (f.fn % 16)) .badFn fun op =>
      zeros [f.fn / 128, f.b, f.c] (.vred f.p op (f.fn / 16 % 8) t f.d f.a f.la)
  | 0x52 => f.ty fun t => known (pick redList (f.fn % 16)) .badFn fun op =>
      zeros [f.fn / 256, f.b, f.c] (.vscan f.p (f.fn / 128 % 2 == 1) op (f.fn / 16 % 8) t f.d f.a f.la)
  | 0x53 => f.ty fun t => known (pick [MatchOut.rank, .count, .last] (f.fn % 4)) .badFn fun o =>
      zeros [f.fn / 32, f.b, f.c] (.matchLanes f.p o (f.fn / 4 % 8) t f.d f.a f.la)
  | 0x54 =>
    match f.fn with
    | 0 => zeros [f.t, f.b, f.c] (.ballot f.p (.mask f.d) f.a)
    | 1 => zeros [f.t, f.b, f.c] (.ballot f.p (.uni f.d) f.a)
    | _ => .error .badFn
  | 0x55 => known (pick voteList f.fn) .badFn fun v => zeros [f.t, f.b, f.c] (.vote f.p v f.d f.a)
  | 0x56 => known (pick [LaneOut.idx, .blk, .rank] f.fn) .badFn fun o =>
      zeros [f.t, f.a, f.b, f.c] (.vlane f.p o f.d)
  | _ => .error .reservedMajor

/-- Majors 0x58 to 0x5E: the matrix engine (R286 to R302). -/
def decMatrix (f : Fields) : Dec :=
  match f.maj with
  | 0x58 => f.ty fun t =>
      zeros [f.fn / 4, f.a, f.b, f.imm / 2147483648]
        (.mres (f.fn / 2 % 2 == 1) (f.fn % 2 == 1) t f.d f.c (f.imm % 1024) (f.imm / 1024 % 2048)
          (f.imm / 2097152 % 1024))
  | 0x59 => zeros [f.fn, f.t, f.d, f.a, f.b] (.mrel (BitVec.ofNat 8 f.c))
  | 0x5A => known (pick spaceList (f.fn % 8)) .badSpace fun sp =>
      zeros [f.fn / 8 % 64, f.t]
        (.mld (f.fn / 1024 == 1) (f.fn / 512 % 2 == 1) sp f.d f.a f.imm32 f.b (BitVec.ofNat 8 f.c))
  | 0x5B => want (f.fn == 1) .badSpace (zeros [f.t, f.b, f.c] (.mgath f.d f.a f.imm32))
  | 0x5C => zeros [f.fn / 4, f.t, f.c, f.imm / 4194304]
      (.mma (f.fn / 2 % 2 == 1) (f.fn % 2 == 1) f.d f.a f.b (f.imm % 256) (f.imm / 256 % 256) (f.imm / 65536))
  | 0x5D => zeros [f.fn, f.t, f.a, f.b, f.c] (.mbatch f.d)
  | 0x5E => zeros [f.fn, f.t, f.b, f.c] (.mwait f.d f.a)
  | _ => .error .reservedMajor

/-- Major 0x5F: the accumulator instructions (R304 to R309). -/
def decAccum (f : Fields) : Dec :=
  let sat := f.fn / 16 % 2 == 1
  let nosat := f.fn / 8 % 2 == 1
  match f.fn / 512 with
  | 0 => zeros [f.fn, f.la, f.t, f.d, f.b, f.c, f.imm] (.aclr f.a)
  | 1 => withRm (f.fn / 32 % 8) fun rm => f.ty fun t =>
      zeros [f.fn % 8, f.fn / 256 % 2, f.a, f.b, f.c, f.imm / 2048]
        (.ard rm sat nosat t f.d (f.imm % 32) (f.imm / 32) f.la)
  | 2 => want (f.fn % 8 == 4) .badSpace <| f.index fun ix => f.ty fun t =>
      zeros [f.fn / 8 % 32, f.la, f.d] (.awr t ⟨f.a, ix, f.imm32⟩ f.c)
  | 3 => want (f.fn % 8 == 4) .badSpace <| withRm (f.fn / 32 % 8) fun rm => f.ty fun t =>
      zeros [f.fn / 256 % 2, f.la, f.b] (.ast rm sat nosat t f.d f.a f.imm32 f.c)
  | _ => .error .badFn

/-- Majors 0x60 to 0x65: the Millrace (R318). -/
def decRace (f : Fields) : Dec :=
  match f.maj with
  | 0x60 => zeros [f.fn, f.t, f.d, f.b, f.c] (.rcwin f.a)
  | 0x61 => want (f.fn < 2) .badFn (zeros [f.t, f.d, f.c] (.rcmode (f.fn == 1) f.a f.b))
  | 0x62 => want (f.fn % 8 == 1) .badSpace <| want (f.fn < 16) .badFn
      (zeros [f.t, f.d, f.b] (.rcld (f.fn / 8 == 1) f.a f.imm32 f.c))
  | 0x63 => zeros [f.fn, f.t, f.d, f.c] (.rcgo f.a f.b)
  | 0x64 =>
    match f.fn with
    | 0 => zeros [f.t, f.a, f.b, f.c] (.rccap .lo f.d f.la)
    | 1 => zeros [f.t, f.a, f.b, f.c] (.rccap .hi f.d f.la)
    | 2 => zeros [f.t, f.a, f.b, f.c] (.rccap .bot f.d f.la)
    | 3 => zeros [f.t, f.a, f.b, f.c] (.rccap .right f.d f.la)
    | 4 => zeros [f.t, f.a, f.b] (.rccap (.row f.c) f.d f.la)
    | _ => .error .badFn
  | 0x65 => zeros [f.fn, f.t, f.d, f.a, f.b, f.c] .rcclr
  | _ => .error .reservedMajor

/-- The LEN code of each major, or none for a reserved one (R66). -/
def majLen (maj : Nat) : Option Nat :=
  if maj ≤ 0x01 then some 0
  else if maj ≤ 0x06 then some 1
  else if maj ≤ 0x08 then some 0
  else if maj = 0x09 then some 1
  else if maj = 0x0B then some 1
  else if maj ≤ 0x18 then some 0
  else if maj = 0x19 then some 1
  else if maj ≤ 0x1F then some 0
  else if maj ≤ 0x27 then some 1
  else if maj = 0x29 then some 1
  else if maj ≤ 0x2D then some 0
  else if maj ≤ 0x2F then none
  else if maj ≤ 0x32 then some 1
  else if maj ≤ 0x38 then some 0
  else if maj = 0x39 then some 1
  else if maj ≤ 0x3C then some 0
  else if maj ≤ 0x3E then some 1
  else if maj ≤ 0x47 then some 0
  else if maj ≤ 0x4A then some 1
  else if maj = 0x4B then some 0
  else if maj ≤ 0x4F then none
  else if maj ≤ 0x56 then some 0
  else if maj = 0x57 then none
  else if maj = 0x58 then some 1
  else if maj = 0x59 then some 0
  else if maj ≤ 0x5C then some 1
  else if maj ≤ 0x5E then some 0
  else if maj = 0x5F then some 1
  else if maj ≤ 0x61 then some 0
  else if maj = 0x62 then some 1
  else if maj ≤ 0x65 then some 0
  else if maj = 0x68 then some 2
  else none

/-- The majors that may carry a lookahead (R56, R66); ATOM and ARD only in the forms their decoders admit. -/
def majLa (maj : Nat) : Bool :=
  [0x20, 0x22, 0x24, 0x25, 0x26, 0x27, 0x30, 0x32, 0x43, 0x44, 0x48, 0x51, 0x52, 0x53, 0x5F, 0x64].contains maj

/-- The words that take the lane predicate (R46, R66): of major 0x0C only KTOV. -/
def majLane (maj fn : Nat) : Bool :=
  [0x01, 0x1B, 0x20, 0x21, 0x24, 0x26, 0x27, 0x29, 0x30, 0x31, 0x32].contains maj
    || (0x34 ≤ maj && maj ≤ 0x4A) || (0x50 ≤ maj && maj ≤ 0x56) || (maj == 0x0C && fn == 0)

/-- The instruction of a 64- or 96-bit word, before the operand checks. -/
def build (f : Fields) : Dec :=
  want (majLa f.maj || f.la == 0) .badLa <|
  want (majLane f.maj f.fn || (f.p.pm == 0 && !f.p.pn)) .badPred <|
  if f.maj ≤ 0x09 then decControl f
  else if f.maj = 0x0A then decAlu f
  else if f.maj = 0x0B then decAluImm f
  else if f.maj ≤ 0x0F then decMove f
  else if f.maj ≤ 0x18 then decSync f
  else if f.maj ≤ 0x1F then decEffect f
  else if f.maj ≤ 0x27 ∨ f.maj = 0x29 then decMem f
  else if f.maj ≤ 0x2D then decTag f
  else if f.maj ≤ 0x33 then decFabric f
  else if f.maj ≤ 0x38 then decInt f
  else if f.maj = 0x3E then decIntImm f
  else if f.maj ≤ 0x3F then decSelect f
  else if f.maj ≤ 0x46 then decFp f
  else if f.maj ≤ 0x4B then decCvt f
  else if f.maj ≤ 0x56 then decCross f
  else if f.maj ≤ 0x5E then decMatrix f
  else if f.maj = 0x5F then decAccum f
  else decRace f

/-- The operation of a pair slot from OP and MOD (R62, R281). -/
def pairOpOf (op m : Nat) : Option PairOp :=
  match op with
  | 0x00 => if m < 2 then some (.vadd (m == 1)) else none
  | 0x01 => if m < 2 then some (.vsub (m == 1)) else none
  | 0x02 => if m = 0 then some .vmin else none
  | 0x03 => if m = 0 then some .vmax else none
  | 0x04 => if m = 0 then some .vmul else none
  | 0x05 => if m = 0 then some .vmulh else none
  | 0x06 => if m = 0 then some .vmad else none
  | 0x10 => if m = 0 then some .vand else none
  | 0x11 => if m = 0 then some .vor else none
  | 0x12 => if m = 0 then some .vxor else none
  | 0x13 => if m = 0 then some .vnot else none
  | 0x14 => some (.vlop3 (BitVec.ofNat 8 m))
  | 0x18 => if m = 0 then some .vsel else none
  | 0x19 => if m = 0 then some .vmov else none
  | 0x1A => if m = 0 then some .vmovi else none
  | 0x20 => (pick rmList m).map .fadd
  | 0x21 => (pick rmList m).map .fsub
  | 0x22 => (pick rmList m).map .fmul
  | 0x23 => if m < 32 then (pick rmList (m % 8)).map (.ffma (m / 16 == 1) (m / 8 % 2 == 1)) else none
  | 0x24 => if m = 0 then some .fmin else none
  | 0x25 => if m = 0 then some .fmax else none
  | _ => none

/-- One slot of a pair word from its 54 bits (R61). -/
def slotOf (w : Nat) : Option PairSlot :=
  match pairOpOf (w % 64) (w / 70368744177664 % 256), pick tyList (w / 4398046511104 % 16) with
  | some op, some t =>
    some { p := ⟨w / 64 % 8, w / 512 % 2 == 1⟩, op, t, d := w / 1024 % 256, a := w / 262144 % 256,
           b := w / 67108864 % 256, c := w / 17179869184 % 256 }
  | _, _ => none

/-- A pair word (R61): LA, PM, PN and bits [127:125] zero, and two slots. -/
def decPair (w : Nat) : Dec :=
  want (w / 512 % 256 == 0 && w / 42535295865117307932921825928971026432 == 0) .unusedField <|
  match slotOf (w / 131072 % 18014398509481984), slotOf (w / 2361183241434822606848 % 18014398509481984) with
  | some s0, some s1 => .ok (.pair s0 s1)
  | _, _ => .error .pairOp

/-- The operand checks of R65, step 4, on a decoded instruction. -/
def checked (x : Dec) : Dec :=
  match x with
  | .error e => .error e
  | .ok i =>
    match i.check with
    | none => .ok i
    | some e => .error e

/-- The instruction of a 128-bit window on memory whose lowest bits are the instruction (R40, R65):
bits above the instruction's own length are not looked at. -/
def decode (w : Nat) : Dec :=
  if w % 4 = 3 then .error .badLen
  else match majLen (w / 4 % 128) with
    | none => .error .reservedMajor
    | some n =>
      if n ≠ w % 4 then .error .wrongLength
      else if n = 2 then checked (decPair (w % 340282366920938463463374607431768211456))
      else if n = 0 then checked (build (Fields.ofNat (w % 18446744073709551616)))
      else checked (build (Fields.ofNat (w % 79228162514264337593543950336)))

/-- The number that bytes, least significant first, stand for (R2). -/
def leNat : List Byte → Nat
  | [] => 0
  | b :: r => b.toNat + 256 * leNat r

/-- The instruction whose bytes begin a list; bytes that are missing read as zero. -/
def decodeBytes (bs : List Byte) : Dec := decode (leNat bs)

/-- The length in bytes that LEN names (R40). -/
def lenBytes (w : Nat) : Nat := if w % 4 = 0 then 8 else if w % 4 = 1 then 12 else 16

/-- The length in bytes of an instruction's word. -/
def Instr.size : Instr → Nat
  | .pair _ _ => 16
  | .bra _ | .brc .. | .brd .. | .brv .. | .call .. | .movk .. => 12
  | .addkImm .. | .subkImm .. | .mulkImm .. | .mulhkImm .. | .andkImm .. | .orkImm .. | .xorkImm ..
  | .shlkImm .. | .shrkImm .. | .sarkImm .. | .minkImm .. | .maxkImm .. => 12
  | .hpush .. | .ld .. | .st .. | .ldk .. | .stk .. | .atom .. | .atomk .. | .lr .. | .sc .. | .pref .. => 12
  | .rld .. | .rst .. | .ratom .. | .vprmb .. | .vmovi .. => 12
  | .vaddImm .. | .vsubImm .. | .vminImm .. | .vmaxImm .. | .vmulImm .. | .vandImm .. | .vorImm ..
  | .vxorImm .. | .vshlImm .. | .vshrImm .. | .vsarImm .. | .vrotImm .. | .vmulhImm .. => 12
  | .qmx .. | .dqmx .. | .faddImm .. | .fsubImm .. | .fmulImm .. | .fminImm .. | .fmaxImm .. | .ffmaImm .. => 12
  | .mres .. | .mld .. | .mgath .. | .mma .. | .aclr .. | .ard .. | .awr .. | .ast .. | .rcld .. => 12
  | _ => 8

/-- The instruction that the decoder reads from a word numbered as the opcode table numbers bits. -/
def decodeTableWord (nbits w : Nat) : Option Instr :=
  match decode (w % 2 ^ nbits) with
  | .ok i => some i
  | .error _ => none

-- The encoder.

/-- The code of a type (R51). -/
def Ty.code : Ty → Nat
  | .b32 => 0 | .s32 => 1 | .n32 => 2 | .f32 => 3 | .bf16x2 => 4 | .f16x2 => 5 | .s16x2 => 6 | .n16x2 => 7
  | .e4m3x4 => 8 | .e5m2x4 => 9 | .e2m1x8 => 10 | .d8x4 => 11 | .s64 => 12 | .n64 => 13 | .s8x4 => 14
  | .n8x4 => 15
/-- The code of a space (R54). -/
def Space.code : Space → Nat
  | .global => 0 | .scratch => 1 | .peer => 2 | .engine => 3 | .accum => 4
/-- The code of a scope (R55). -/
def Scope.code : Scope → Nat
  | .gang => 0 | .core => 1 | .cluster => 2 | .tenant => 3 | .device => 4 | .system => 5
/-- The code of an ordering modifier (R53). -/
def MemOrd.code : MemOrd → Nat
  | .plain => 0 | .acq => 1 | .rel => 2 | .ar => 3
/-- The code of a width (R94). -/
def Width.code : Width → Nat
  | .full => 0 | .w8 => 1 | .w16 => 2
/-- The code of an atomic operation (R103). -/
def Aop.code : Aop → Nat
  | .add => 0 | .and => 1 | .or => 2 | .xor => 3 | .min => 4 | .max => 5 | .xchg => 6 | .cas => 7 | .incw => 8
/-- The code of a rounding mode (R248). -/
def Rm.code : Rm → Nat
  | .dyn => 0 | .rne => 1 | .rz => 2 | .rd => 3 | .ru => 4
/-- The code of a branch condition (R179). -/
def BrCond.code : BrCond → Nat
  | .eq => 0 | .ne => 1 | .lt => 2 | .ge => 3 | .ltu => 4 | .geu => 5
/-- The code of a vote (R181). -/
def Vote.code : Vote → Nat
  | .any => 0 | .all => 1 | .none => 2
/-- The code of a compare condition (R256). -/
def VCond.code : VCond → Nat
  | .eq => 0 | .ne => 1 | .lt => 2 | .le => 3 | .gt => 4 | .ge => 5
/-- The code of a floating-point condition (R263). -/
def FCond.code : FCond → Nat
  | .eq => 0 | .ne => 1 | .lt => 2 | .le => 3 | .gt => 4 | .ge => 5 | .un => 6 | .ord => 7
/-- The code of a reduction (R277). -/
def RedOp.code : RedOp → Nat
  | .add => 0 | .min => 1 | .max => 2 | .and => 3 | .or => 4 | .xor => 5 | .fadd => 6 | .fmin => 7 | .fmax => 8
/-- The number of a system register (R38). -/
def SysReg.code : SysReg → Nat
  | .lanew => 0x000 | .gangid => 0x001 | .blockid => 0x002 | .corenum => 0x003 | .clusternum => 0x004
  | .stamp => 0x005 | .ctxid => 0x006 | .fsr => 0x020 | .fcr => 0x021 | .pri => 0x030 | .wdlim => 0x031
  | .twin => 0x040 | .rcstat => 0x041 | .hsp => 0x050 | .tagbase => 0x060 | .tagready => 0x061
  | .scrbase => 0x062 | .errq => 0x070 | .errcnt => 0x071 | .lcnt => 0x080 | .scnt => 0x081 | .energy => 0x090

/-- COMB and its mask (R256). -/
def Comb.code : Comb → Nat × Nat
  | .plain => (0, 0)
  | .and m => (1, m)
  | .or m => (2, m)

/-- IX with field B (R53). -/
def ixB (ix : Option VReg) : Nat × Nat :=
  match ix with
  | none => (0, 0)
  | some v => (256, v)

/-- The fields every memory form shares (R53). -/
def memF (maj opx : Nat) (o : MemOrd) (sc : Scope) (sp : Space) (m : MemArg) : Fields :=
  { len := 1, maj, a := m.base, b := (ixB m.index).2, imm := m.disp.toNat,
    fn := 512 * opx + (ixB m.index).1 + 64 * o.code + 8 * sc.code + sp.code }

/-- The fields every fabric access shares (R214). -/
def fabF (maj opx : Nat) (o : MemOrd) (pa : PeerArg) (ix : Option VReg) (disp : BitVec 32) : Fields :=
  { len := 1, maj, a := (match pa with | .uni k => k | .vec v => v), b := (ixB ix).2, imm := disp.toNat,
    fn := 512 * opx + (ixB ix).1 + 64 * o.code + (if o = .plain then 0 else 40)
      + (match pa with | .uni _ => 0 | .vec _ => 4) }

/-- A lane instruction of 64 bits. -/
def lane64 (maj fn : Nat) (p : Pred) (t : Ty) (d a b c : Nat) : Fields :=
  { len := 0, maj, fn, p, t := t.code, d, a, b, c }

/-- A lane instruction of 96 bits. -/
def lane96 (maj fn : Nat) (p : Pred) (t : Ty) (d a b c : Nat) (imm : BitVec 32) : Fields :=
  { len := 1, maj, fn, p, t := t.code, d, a, b, c, imm := imm.toNat }

/-- A uniform ALU word on registers (R186). -/
def aluF (op t d a b : Nat) : Fields := { len := 0, maj := 0x0A, fn := op, t, d, a, b }

/-- A uniform ALU word with an immediate (R186). -/
def aluI (op t d a : Nat) (imm : BitVec 32) : Fields :=
  { len := 1, maj := 0x0B, fn := op, t, d, a, imm := imm.toNat }

/-- The 64-bit type of a signed or unsigned uniform operation (R186). -/
def sgnT (s : Bool) : Nat := if s then 12 else 13

/-- The code of ARD's and AST's modifiers (R304). -/
def ardFn (op : Nat) (rm : Rm) (sat nosat : Bool) : Nat :=
  512 * op + 32 * rm.code + 16 * bit sat + 8 * bit nosat

/-- The code of a shuffle mode (R276). -/
def ShMode.code : ShMode → Nat
  | .idx => 0 | .xor => 1 | .up => 2 | .down => 3

/-- The fields of an instruction's 64- or 96-bit word; none for an event of the device or a pair. -/
def Instr.fields : Instr → Option Fields
  | .nop => some { len := 0, maj := 0x00 }
  | .exit p => some { len := 0, maj := 0x01, p }
  | .bra off => some { len := 1, maj := 0x02, imm := off.toNat }
  | .brc c a (.reg k) off => some { len := 1, maj := 0x03, fn := c.code, a, b := k, imm := off.toNat }
  | .brc c a (.imm i) off => some { len := 1, maj := 0x03, fn := 8 + c.code, a, c := i.toNat, imm := off.toNat }
  | .brd n a off => some { len := 1, maj := 0x04, fn := bit n, a, imm := off.toNat }
  | .brv v a off => some { len := 1, maj := 0x05, fn := v.code, a, imm := off.toNat }
  | .call d off => some { len := 1, maj := 0x06, d, imm := off.toNat }
  | .ret a => some { len := 0, maj := 0x07, a }
  | .merge => some { len := 0, maj := 0x08 }
  | .movk m d i => some {
      len := 1, maj := 0x09, d, imm := i.toNat,
      fn := match m with | .sext => 0 | .zext => 1 | .high => 2 }
  | .addk d a b => some (aluF 0 0 d a b)
  | .subk d a b => some (aluF 1 0 d a b)
  | .mulk d a b => some (aluF 2 0 d a b)
  | .mulhk s d a b => some (aluF 3 (sgnT s) d a b)
  | .andk d a b => some (aluF 4 0 d a b)
  | .ork d a b => some (aluF 5 0 d a b)
  | .xork d a b => some (aluF 6 0 d a b)
  | .shlk d a b => some (aluF 7 0 d a b)
  | .shrk d a b => some (aluF 8 0 d a b)
  | .sark d a b => some (aluF 9 0 d a b)
  | .mink s d a b => some (aluF 10 (sgnT s) d a b)
  | .maxk s d a b => some (aluF 11 (sgnT s) d a b)
  | .addkImm d a i => some (aluI 0 0 d a i)
  | .subkImm d a i => some (aluI 1 0 d a i)
  | .mulkImm d a i => some (aluI 2 0 d a i)
  | .mulhkImm s d a i => some (aluI 3 (sgnT s) d a i)
  | .andkImm d a i => some (aluI 4 0 d a i)
  | .orkImm d a i => some (aluI 5 0 d a i)
  | .xorkImm d a i => some (aluI 6 0 d a i)
  | .shlkImm d a i => some (aluI 7 0 d a i)
  | .shrkImm d a i => some (aluI 8 0 d a i)
  | .sarkImm d a i => some (aluI 9 0 d a i)
  | .minkImm s d a i => some (aluI 10 (sgnT s) d a i)
  | .maxkImm s d a i => some (aluI 11 (sgnT s) d a i)
  | .ktov p t d a => some { len := 0, maj := 0x0C, p, t := t.code, d, a }
  | .vtok t d a l => some { len := 0, maj := 0x0C, fn := 1, t := t.code, d, a, c := l }
  | .ktom d a => some { len := 0, maj := 0x0C, fn := 2, d, a }
  | .mtok d a => some { len := 0, maj := 0x0C, fn := 3, d, a }
  | .mand d a b => some { len := 0, maj := 0x0D, fn := 0, d, a, b }
  | .mor d a b => some { len := 0, maj := 0x0D, fn := 1, d, a, b }
  | .mxor d a b => some { len := 0, maj := 0x0D, fn := 2, d, a, b }
  | .mnot d a => some { len := 0, maj := 0x0D, fn := 3, d, a }
  | .mpopc d a => some { len := 0, maj := 0x0D, fn := 4, d, a }
  | .mfirst d a => some { len := 0, maj := 0x0D, fn := 5, d, a }
  | .movx (.toM d) => some { len := 0, maj := 0x0E, fn := 0, d }
  | .movx (.ofM a) => some { len := 0, maj := 0x0E, fn := 1, a }
  | .movx (.toK d) => some { len := 0, maj := 0x0E, fn := 2, d }
  | .movx (.ofK a) => some { len := 0, maj := 0x0E, fn := 3, a }
  | .srd d r => some { len := 0, maj := 0x0F, d, b := r.code }
  | .swr r a => some { len := 0, maj := 0x0F, fn := 1, a, b := r.code }
  | .swrErrq a => some { len := 0, maj := 0x0F, fn := 1, a, b := 0x70 }
  | .swrTwin a => some { len := 0, maj := 0x0F, fn := 1, a, b := 0x40 }
  | .swrRcstat a => some { len := 0, maj := 0x0F, fn := 1, a, b := 0x41 }
  | .trap code => some { len := 0, maj := 0x10, c := code.toNat }
  | .bar => some { len := 0, maj := 0x11 }
  | .cjoin c => some { len := 0, maj := 0x12, c }
  | .cleave c => some { len := 0, maj := 0x13, c }
  | .cbar c => some { len := 0, maj := 0x14, c }
  | .setpri c => some { len := 0, maj := 0x15, c }
  | .yieldTurn => some { len := 0, maj := 0x16 }
  | .waitc n m => some { len := 0, maj := 0x17, b := n, c := m }
  | .sleep a => some { len := 0, maj := 0x18, a }
  | .hpush vp ks kt ki off => some { len := 1, maj := 0x19, d := vp, a := ks, b := kt, c := ki, imm := off.toNat }
  | .hpop => some { len := 0, maj := 0x1A }
  | .perform p k d a kw id => some {
      len := 0, maj := 0x1B, p, d, a, b := kw, c := id,
      fn := match k with | .one => 0 | .many => 1 | .none => 2 }
  | .resume kt vs => some { len := 0, maj := 0x1C, a := kt, b := vs }
  | .fwd kt va => some { len := 0, maj := 0x1D, a := kt, b := va }
  | .tkdrop a => some { len := 0, maj := 0x1E, a }
  | .tkstat d a => some { len := 0, maj := 0x1F, d, a }
  | .ld p w t o s sp d m la => some { memF 0x20 w.code o s sp m with p, t := t.code, d, la }
  | .st p w t o s sp m c => some { memF 0x21 w.code o s sp m with p, t := t.code, c }
  | .ldk w t o s sp d m la => some { memF 0x22 w.code o s sp m with t := t.code, d, la }
  | .stk w t o s sp m c => some { memF 0x23 w.code o s sp m with t := t.code, c }
  | .atom p op r t o s sp d m la => some { memF 0x24 (bit r) o s sp m with p, t := t.code, d, c := op.code, la }
  | .atomk op t o s sp d m la => some { memF 0x25 0 o s sp m with t := t.code, d, c := op.code, la }
  | .lr p t o s d m la => some { memF 0x26 0 o s .global m with p, t := t.code, d, la }
  | .sc p t o s d m c la => some { memF 0x27 0 o s .global m with p, t := t.code, d, c, la }
  | .pref p l m => some { memF 0x29 (match l with | .l1 => 0 | .ds => 1 | .l1w => 2) .plain .gang .global m with p }
  | .fence k s => some {
      len := 0, maj := 0x28,
      fn := 8 * s.code + 64 * (match k with | .acq => 1 | .rel => 2 | .ar => 3 | .sc => 11) }
  | .twait al d a => some { len := 0, maj := 0x2A, fn := bit al, d, a }
  | .tfirst d a => some { len := 0, maj := 0x2B, d, a }
  | .tclr d a => some { len := 0, maj := 0x2C, d, a }
  | .gset n (.reg a) => some { len := 0, maj := 0x2D, d := n, a }
  | .gset n .setFalse => some { len := 0, maj := 0x2D, fn := 1, d := n }
  | .gset n .setTrue => some { len := 0, maj := 0x2D, fn := 2, d := n }
  | .gset n .setUnresolved => some { len := 0, maj := 0x2D, fn := 3, d := n }
  | .rld p w t o d pa ix disp la => some { fabF 0x30 w.code o pa ix disp with p, t := t.code, d, la }
  | .rst p w t o c pa ix disp => some { fabF 0x31 w.code o pa ix disp with p, t := t.code, c }
  | .ratom p op t o d pa ix disp la => some { fabF 0x32 0 o pa ix disp with p, t := t.code, d, c := op.code, la }
  | .rfence chk => some { len := 0, maj := 0x33, fn := 512 * bit chk }
  | .vadd p s t d a b => some (lane64 0x34 (8 * bit s) p t d a b 0)
  | .vsub p s t d a b => some (lane64 0x34 (8 * bit s + 1) p t d a b 0)
  | .vmin p t d a b => some (lane64 0x34 2 p t d a b 0)
  | .vmax p t d a b => some (lane64 0x34 3 p t d a b 0)
  | .vabs p s t d a => some (lane64 0x34 (8 * bit s + 4) p t d a 0 0)
  | .vneg p s t d a => some (lane64 0x34 (8 * bit s + 5) p t d a 0 0)
  | .vmul p t d a b => some (lane64 0x35 0 p t d a b 0)
  | .vmulh p t d a b => some (lane64 0x35 1 p t d a b 0)
  | .vmad p t d a b c => some (lane64 0x35 2 p t d a b c)
  | .vshl p t d a b => some (lane64 0x36 0 p t d a b 0)
  | .vshr p t d a b => some (lane64 0x36 1 p t d a b 0)
  | .vsar p t d a b => some (lane64 0x36 2 p t d a b 0)
  | .vrot p t d a b => some (lane64 0x36 3 p t d a b 0)
  | .vand p d a b => some (lane64 0x37 0 p .b32 d a b 0)
  | .vor p d a b => some (lane64 0x37 1 p .b32 d a b 0)
  | .vxor p d a b => some (lane64 0x37 2 p .b32 d a b 0)
  | .vnot p d a => some (lane64 0x37 3 p .b32 d a 0 0)
  | .vlop3 p lut d a b c => some (lane64 0x37 (8 * lut.toNat + 4) p .b32 d a b c)
  | .vbfx p t d a b => some (lane64 0x38 0 p t d a b 0)
  | .vbfi p d a b c => some (lane64 0x38 1 p .b32 d a b c)
  | .vpopc p d a => some (lane64 0x38 2 p .b32 d a 0 0)
  | .vclz p d a => some (lane64 0x38 3 p .b32 d a 0 0)
  | .vbrev p d a => some (lane64 0x38 4 p .b32 d a 0 0)
  | .vprmb p d a b sel => some (lane96 0x39 0 p .b32 d a b 0 sel)
  | .vcmp p c cb t d a b => some (lane64 0x3A (8 * cb.code.1 + c.code) p t d a b cb.code.2)
  | .vsel p t d a b c => some (lane64 0x3B 0 p t d a b c)
  | .vmov p t d a => some (lane64 0x3C 0 p t d a 0 0)
  | .vmovi p t d i => some (lane96 0x3D 0 p t d 0 0 0 i)
  | .vaddImm p s t d a i => some (lane96 0x3E (16 * bit s) p t d a 0 0 i)
  | .vsubImm p s t d a i => some (lane96 0x3E (16 * bit s + 1) p t d a 0 0 i)
  | .vminImm p t d a i => some (lane96 0x3E 2 p t d a 0 0 i)
  | .vmaxImm p t d a i => some (lane96 0x3E 3 p t d a 0 0 i)
  | .vmulImm p t d a i => some (lane96 0x3E 4 p t d a 0 0 i)
  | .vandImm p d a i => some (lane96 0x3E 5 p .b32 d a 0 0 i)
  | .vorImm p d a i => some (lane96 0x3E 6 p .b32 d a 0 0 i)
  | .vxorImm p d a i => some (lane96 0x3E 7 p .b32 d a 0 0 i)
  | .vshlImm p t d a i => some (lane96 0x3E 8 p t d a 0 0 i)
  | .vshrImm p t d a i => some (lane96 0x3E 9 p t d a 0 0 i)
  | .vsarImm p t d a i => some (lane96 0x3E 10 p t d a 0 0 i)
  | .vrotImm p t d a i => some (lane96 0x3E 11 p t d a 0 0 i)
  | .vmulhImm p t d a i => some (lane96 0x3E 12 p t d a 0 0 i)
  | .vcsub p t d a b none => some (lane64 0x3F 0 p t d a b 0)
  | .vcsub p t d a b (some m) => some (lane64 0x3F 1 p t d a b m)
  | .fadd p rm t d a b => some (lane64 0x40 (8 * rm.code) p t d a b 0)
  | .fsub p rm t d a b => some (lane64 0x40 (8 * rm.code + 1) p t d a b 0)
  | .fmul p rm t d a b => some (lane64 0x40 (8 * rm.code + 2) p t d a b 0)
  | .fmin p t d a b => some (lane64 0x40 3 p t d a b 0)
  | .fmax p t d a b => some (lane64 0x40 4 p t d a b 0)
  | .ffma p nc np rm t d a b c => some (lane64 0x41 (128 * bit nc + 64 * bit np + 8 * rm.code) p t d a b c)
  | .fcmp p c cb d a b => some (lane64 0x42 (8 * cb.code.1 + c.code) p .f32 d a b cb.code.2)
  | .frcp p d a la => some { lane64 0x43 0 p .f32 d a 0 0 with la }
  | .frsq p d a la => some { lane64 0x43 1 p .f32 d a 0 0 with la }
  | .fsqrt p rm d a la => some { lane64 0x43 (8 * rm.code + 2) p .f32 d a 0 0 with la }
  | .fexp2 p d a la => some { lane64 0x43 3 p .f32 d a 0 0 with la }
  | .flog2 p d a la => some { lane64 0x43 4 p .f32 d a 0 0 with la }
  | .fsin p d a la => some { lane64 0x43 5 p .f32 d a 0 0 with la }
  | .fcos p d a la => some { lane64 0x43 6 p .f32 d a 0 0 with la }
  | .fdiv p rm d a b la => some { lane64 0x44 (8 * rm.code) p .f32 d a b 0 with la }
  | .fclass p t d a => some (lane64 0x45 0 p t d a 0 0)
  | .frnd p x rm t d a => some (lane64 0x46 (64 * bit x + 8 * rm.code) p t d a 0 0)
  | .cvt p rm s n dt t d a sp dp =>
      some (lane64 0x47 (256 * bit n + 128 * bit s + 16 * rm.code + dt.code) p t d a 0 (16 * dp + sp))
  | .qmx p t d ks a bias la => some { lane96 0x48 0 p t d a 0 ks 0 with imm := bias.toNat, la }
  | .dqmx p t d ks a => some (lane96 0x49 0 p t d a 0 ks 0)
  | .faddImm p rm t d a i => some (lane96 0x4A (8 * rm.code) p t d a 0 0 i)
  | .fsubImm p rm t d a i => some (lane96 0x4A (8 * rm.code + 1) p t d a 0 0 i)
  | .fmulImm p rm t d a i => some (lane96 0x4A (8 * rm.code + 2) p t d a 0 0 i)
  | .fminImm p t d a i => some (lane96 0x4A 3 p t d a 0 0 i)
  | .fmaxImm p t d a i => some (lane96 0x4A 4 p t d a 0 0 i)
  | .ffmaImm p nc np rm t d a i c =>
      some (lane96 0x4A (128 * bit nc + 64 * bit np + 8 * rm.code + 5) p t d a 0 c i)
  | .fstat clr d => some { len := 0, maj := 0x4B, fn := bit clr, d }
  | .shfl p mo w t d a (.reg b) => some (lane64 0x50 (8 * w + mo.code) p t d a b 0)
  | .shfl p mo w t d a (.imm o) => some (lane64 0x50 (64 + 8 * w + mo.code) p t d a 0 o.toNat)
  | .vred p op w t d a la => some { lane64 0x51 (16 * w + op.code) p t d a 0 0 with la }
  | .vscan p x op w t d a la => some { lane64 0x52 (128 * bit x + 16 * w + op.code) p t d a 0 0 with la }
  | .matchLanes p o w t d a la =>
      some { lane64 0x53 (4 * w + (match o with | .rank => 0 | .count => 1 | .last => 2)) p t d a 0 0 with la }
  | .ballot p (.mask d) a => some (lane64 0x54 0 p .b32 d a 0 0)
  | .ballot p (.uni d) a => some (lane64 0x54 1 p .b32 d a 0 0)
  | .vote p v d a => some (lane64 0x55 v.code p .b32 d a 0 0)
  | .vlane p o d => some (lane64 0x56 (match o with | .idx => 0 | .blk => 1 | .rank => 2) p .b32 d 0 0 0)
  | .mres mx recv t d id base len sbase => some {
      len := 1, maj := 0x58, fn := 2 * bit mx + bit recv,
      t := t.code, d, c := id, imm := base + 1024 * len + 2097152 * sbase }
  | .mrel m => some { len := 0, maj := 0x59, c := m.toNat }
  | .mld scl mc sp id kb disp ks cm => some {
      len := 1, maj := 0x5A, d := id, a := kb, b := ks, c := cm.toNat,
      fn := 1024 * bit scl + 512 * bit mc + sp.code, imm := disp.toNat }
  | .mgath id kb disp => some { len := 1, maj := 0x5B, fn := 1, d := id, a := kb, imm := disp.toNat }
  | .mma skip z tile ra rb a0 b0 k => some {
      len := 1, maj := 0x5C, fn := 2 * bit skip + bit z, d := tile,
      a := ra, b := rb, imm := a0 + 256 * b0 + 65536 * k }
  | .mbatch d => some { len := 0, maj := 0x5D, d }
  | .mwait d a => some { len := 0, maj := 0x5E, d, a }
  | .aclr a => some { len := 1, maj := 0x5F, a }
  | .ard rm s n t d tile row la => some {
      len := 1, maj := 0x5F, fn := ardFn 1 rm s n, t := t.code, d, la,
      imm := tile + 32 * row }
  | .awr t m c => some {
      len := 1, maj := 0x5F, fn := 1028 + (ixB m.index).1, t := t.code, a := m.base,
      b := (ixB m.index).2, c, imm := m.disp.toNat }
  | .ast rm s n t km kb disp kr => some {
      len := 1, maj := 0x5F, fn := ardFn 3 rm s n + 4, t := t.code,
      d := km, a := kb, c := kr, imm := disp.toNat }
  | .rcwin a => some { len := 0, maj := 0x60, a }
  | .rcmode mesh a b => some { len := 0, maj := 0x61, fn := bit mesh, a, b }
  | .rcld mesh kb disp kn => some { len := 1, maj := 0x62, fn := 8 * bit mesh + 1, a := kb, c := kn, imm := disp.toNat }
  | .rcgo a b => some { len := 0, maj := 0x63, a, b }
  | .rccap .lo d la => some { len := 0, maj := 0x64, fn := 0, d, la }
  | .rccap .hi d la => some { len := 0, maj := 0x64, fn := 1, d, la }
  | .rccap .bot d la => some { len := 0, maj := 0x64, fn := 2, d, la }
  | .rccap .right d la => some { len := 0, maj := 0x64, fn := 3, d, la }
  | .rccap (.row r) d la => some { len := 0, maj := 0x64, fn := 4, d, c := r, la }
  | .rcclr => some { len := 0, maj := 0x65 }
  | _ => none

/-- OP and MOD of a pair operation (R281). -/
def PairOp.code : PairOp → Nat × Nat
  | .vadd s => (0x00, bit s)
  | .vsub s => (0x01, bit s)
  | .vmin => (0x02, 0)
  | .vmax => (0x03, 0)
  | .vmul => (0x04, 0)
  | .vmulh => (0x05, 0)
  | .vmad => (0x06, 0)
  | .vand => (0x10, 0)
  | .vor => (0x11, 0)
  | .vxor => (0x12, 0)
  | .vnot => (0x13, 0)
  | .vlop3 lut => (0x14, lut.toNat)
  | .vsel => (0x18, 0)
  | .vmov => (0x19, 0)
  | .vmovi => (0x1A, 0)
  | .fadd rm => (0x20, rm.code)
  | .fsub rm => (0x21, rm.code)
  | .fmul rm => (0x22, rm.code)
  | .ffma nc np rm => (0x23, 16 * bit nc + 8 * bit np + rm.code)
  | .fmin => (0x24, 0)
  | .fmax => (0x25, 0)

/-- The 54 bits of a slot (R61). -/
def PairSlot.toNat (s : PairSlot) : Nat :=
  s.op.code.1 + 64 * s.p.pm + 512 * bit s.p.pn + 1024 * s.d + 262144 * s.a + 67108864 * s.b
    + 17179869184 * s.c + 4398046511104 * s.t.code + 70368744177664 * s.op.code.2

/-- The word of an instruction, or none for an event of the device. -/
def encode (i : Instr) : Option Nat :=
  match i with
  | .pair s0 s1 => some (418 + 131072 * s0.toNat + 2361183241434822606848 * s1.toNat)
  | i => i.fields.map Fields.toNat

/-- The bytes of a word of an instruction, least significant first (R2). -/
def leBytes : Nat → Nat → List Byte
  | 0, _ => []
  | n + 1, w => BitVec.ofNat 8 w :: leBytes n (w / 256)

end Sys2Proof
end

