-- ==== Sys2Proof/Machine/Hub.lean ====
section
/-! DEFINITION. The hub's own reads and writes in a context's address space (R25 to R27, R33, R82 to R86,
R153, R382), copy tags becoming ready (R91), and the launch completion record (R33). -/

namespace Sys2Proof.Machine

/-- What a hub access finds: a place, a wait with the state it leaves, or a failure with its cause. -/
inductive HubRes where
  | ok (l : Loc)
  | wait (s : State)
  | bad (sub : Nat)

/-- The unit number of the hub in the TLB. -/
def hubUnit : Nat := 256

/-- Whether a reader or writer of the hub waits for a page already. -/
def hubWaiting (s : State) (kind key : Nat) : Bool := s.waits.any fun w => w.kind == kind && w.key == key

/-- A PAGE record posted for a reader or writer of the hub, which then waits to be served (R382, R384). -/
def hubPark (s : State) (r : FRec) (ctx kind key aux stage : Nat) (pages : List Nat) : State :=
  if hubWaiting s kind key then s
  else
    let q := postPage s r ctx stage aux pages
    { q.1 with waits := q.1.waits ++ [⟨kind, key, q.2.1, q.2.2⟩] }

/-- The record about a reader or writer of the hub (R382): one for a block's regions names the block. -/
def hubRec (s : State) (ctx kind key : Nat) : FRec :=
  match kind, s.block? key with
  | 2, some b => { baseRec s 0 ctx with block := b.index }
  | _, _ => baseRec s 0 ctx

/-- The translation of one hub access (R82 to R86): a miss starts a walk, an absent page is reported once. -/
def hubAccess (s : State) (ctx : Nat) (rd w : Bool) (va : DWord) (kind key aux : Nat) : HubRes :=
  match checkGlobal s hubUnit ctx rd w va with
  | .ok l => if placeOpen s (ctxVf s ctx) l 1 then .ok l else .wait s
  | .miss v => .wait (startWalk s hubUnit ctx v)
  | .absent st pg => .wait (hubPark s (hubRec s ctx kind key) ctx kind key aux st [pg])
  | .bad sub => .bad sub

/-- A sector of memory taken at its home by the hub for a context: its slot is charged (R344 to R346, R352). -/
def hubSlot (s : State) (ctx sec : Nat) : State :=
  chargeSlots (arrivalServed s (ctxVf s ctx) (32 * sec) 1) ctx 0 (32 * sec) 1

/-- Bytes written by the hub at a place (R27, R33, R127, R348, R402). -/
def hubWrite (s : State) (l : Loc) (ctx : Nat) (bs : List Byte) : State :=
  markDirty (writeHome ((runSectors l.addr bs.length).foldl (fun s sec => hubSlot s ctx sec) s) l.addr bs) ctx l.gpa

/-- The sectors of a run of device memory read by the hub for a context (R344, R402): the state, and the first poisoned one. -/
def readSectors (s : State) (ctx a n : Nat) : State × Option Nat :=
  (runSectors a n).foldl (fun (acc : State × Option Nat) sec =>
    let r := sectorRead acc.1 sec
    (hubSlot r.1 ctx sec, match acc.2 with | some x => some x | none => if r.2 then some sec else none)) (s, none)

/-- A number as bytes, least significant first. -/
def toBytes : Nat → Nat → List Byte
  | 0, _ => []
  | n + 1, v => BitVec.ofNat 8 v :: toBytes n (v / 256)

-- Copy tags.

/-- A bit of a block's tags. -/
def tagBit (t : Nat) : BitVec 64 := BitVec.ofNat 64 (2 ^ t)

/-- Whether the tags that a TWAIT waits for let it go on (R119). -/
def tagsDone (b : Block) (all : Bool) (m : DWord) : Bool :=
  if all then b.ready &&& m == m else b.ready &&& m != 0 || m == 0

/-- The splits of a gang that wait at a TWAIT whose tags let them go on (R119, R135). -/
def wakeTags (b : Block) (g : Gang) : Gang :=
  { g with
    splits := g.splits.map fun e => (e.1, e.2.map fun sp => match sp.wait with
      | .atTags all m _ _ => if tagsDone b all m then { sp with wait := .ready, pc := sp.pc + 8 } else sp
      | _ => sp),
    regs := g.splitList.foldl (fun r e => match e.2.wait with
      | .atTags all m asked d => if tagsDone b all m then r.kset d (b.ready &&& asked) else r
      | _ => r) g.regs }

/-- The splits of a block that wait at a TWAIT looked at again. -/
def wakeBlock (s : State) (n : Nat) : State :=
  match s.block? n with
  | none => s
  | some b => (blockGangs b n).foldl (fun s k => s.modGang k (wakeTags b)) (dropAhead s fun k _ => k / 16 == n)


/-- The boxes of a shape (R92). -/
def Shape.boxes (x : Shape) : Nat := (x.x * x.y * x.z + 2047) / 2048

/-- The operation, the tag, the guard and the flags of a command (R110). -/
def Cmd.op (c : Cmd) : Nat := bitsOf c.c3 3 0
def Cmd.tag (c : Cmd) : Nat := bitsOf c.c3 37 32
def Cmd.guard (c : Cmd) : Nat := bitsOf c.c3 47 44
def Cmd.acq (c : Cmd) : Bool := bitOf c.c3 48
def Cmd.rel (c : Cmd) : Bool := bitOf c.c3 52

/-- The tag of a command becomes ready (R91), with or without its TDISC and TFAULT bits; splits that wait for it go on. -/
def tagReady (s : State) (n : Nat) (c : Cmd) (disc fault : Bool) : State :=
  let t := c.tag
  wakeBlock (s.modBlock n fun b => { b with
    busy := b.busy &&& ~~~(tagBit t), ready := b.ready ||| tagBit t,
    tdisc := if disc then b.tdisc ||| tagBit t else b.tdisc,
    tfault := if fault then b.tfault ||| tagBit t else b.tfault,
    past := tput none b.past t (some c) }) n

/-- Whether everything a command writes has been written (R92). -/
def Cmd.written (c : Cmd) : Bool :=
  if c.op ≤ 1 then (List.range c.shape.boxes).all (c.boxes.contains ·) else !c.boxes.isEmpty

/-- The commands of a gang's stream that come before one (R116). -/
def earlierCmds (s : State) (key u : Nat) : List (Nat × Cmd) :=
  (tentries s.cmds).filter fun e => e.2.gang == key && decide (e.1 < u)

/-- Whether a command is at the head of its stream (R116): every earlier one has started. -/
def atHead (s : State) (u : Nat) (c : Cmd) : Bool := (earlierCmds s c.gang u).all fun e => e.2.started

/-- A command that has come to the head of its stream begins to count its hold limit (R118, R167). DESIGN CHOICE (log 73): its
guard's state is not recorded yet, so one that waits there for its ACQ is held by a later `gset.u` (R122). -/
def noteHeads (s : State) (key : Nat) : State :=
  ((tentries s.cmds).filter fun e => e.2.gang == key && !e.2.head && atHead s e.1 e.2).foldl
    (fun s e => s.setCmd e.1 (some { e.2 with head := true, since := if e.2.bounced then e.2.since else s.cycle })) s

/-- A command changed, and those behind it that are at the head now. -/
def putCmd (s : State) (u key : Nat) (c : Option Cmd) : State := noteHeads (s.setCmd u c) key

/-- The 4-byte words that the boxes of a copy have read in the running patrol period: whether a word of a virtual page is one of
them (R113, R405). -/
def Cmd.readsWord (c : Cmd) (va : Nat) : Bool :=
  (List.range c.shape.z).any fun (z : Nat) => (List.range c.shape.y).any fun (y : Nat) =>
    let row := (c.c0 + BitVec.ofInt 64 (z * c.shape.szs + y * c.shape.sys)).toNat
    decide (row ≤ va) && decide (va < row + c.shape.x) &&
      c.fresh.contains (((z * c.shape.y + y) * c.shape.x + (va - row)) / 2048)

/-- The virtual pages that a copy may read. -/
def Cmd.pages (c : Cmd) : List Nat :=
  ((List.range c.shape.z).flatMap fun (z : Nat) => (List.range c.shape.y).flatMap fun (y : Nat) =>
    let row := (c.c0 + BitVec.ofInt 64 (z * c.shape.szs + y * c.shape.sys)).toNat
    (List.range (c.shape.x / 65536 + 2)).map fun i => row / 65536 + i).eraseDups

/-- The pages a checkpoint copy has read in full in this period, counted as checkpointed unless they have been patrolled (R405). -/
def countCkpt (s : State) (b : Block) (c : Cmd) : State :=
  if !bitOf c.c3 40 || c.op != 0 || bitsOf c.c3 31 29 != 0 then s
  else
    let full := c.pages.filter fun p => (List.range 16384).all fun i => c.readsWord (p * 65536 + 4 * i)
    full.foldl (fun s p => match s.tlbGet b.core b.ctx p with
      | some (.page pa _ _ _ _) =>
        if isHbm pa && !s.mem.patrolPages.contains (pa / 65536) then { s with mem := { s.mem with ckptPages := insertNat (pa / 65536) s.mem.ckptPages } } else s
      | _ => s) s

/-- A command completes if all it writes is written and its release has performed (R92, R116); a command that
has failed ends once its running boxes have (R117). -/
def tryComplete (s : State) (u : Nat) : State :=
  match s.cmd? u with
  | none => s
  | some c =>
    match s.block? (c.gang / 16) with
    | none => s
    | some b =>
      match c.failed with
      | some (cause, box, addr) =>
        if !c.running.isEmpty then s
        else
          let s := putCmd (tagReady s (c.gang / 16) c false true) u c.gang none
          let aux := dw (c.tag + box * 65536)
          match s.gang? c.gang with
          | some g =>
            if g.live = 0 then takeTrap s c.gang tEngine cause aux 0 [addr] (some 0)
            else pendTrap s c.gang { cause := tEngine, sub := cause, aux := aux, lanes := 0, addr := addr }
          | none => s
      | none =>
        if c.written && (!c.rel || (earlierCmds s c.gang u).isEmpty) then
          putCmd (countCkpt (tagReady s (c.gang / 16) c false false) b c) u c.gang none
        else s

-- The completion record.

/-- STATUS codes (R33). -/
def stOk : Nat := 0
def stKilled : Nat := 1
def stInvalid : Nat := 2
def stNoFit : Nat := 3
def stRegion : Nat := 4
def stCancelled : Nat := 5
def stDiscarded : Nat := 6
def stWait : Nat := 7

/-- The STATUS of a launch (R33). -/
def Launch.status (l : Launch) : Nat :=
  match l.ended with
  | some x => x
  | none => if 0 < l.klanes then stKilled else stOk

/-- The bytes of a completion record (R33). -/
def completionBytes (s : State) (l : Launch) : List Byte :=
  let done := match s.ctx? l.ctx with | some c => s.stamp + c.stoff | none => s.stamp
  toBytes 4 l.status ++ toBytes 4 (min l.kblocks 4294967295) ++ toBytes 8 (min l.klanes 18446744073709551615) ++
    toBytes 8 (l.kfirst % 18446744073709551616) ++ toBytes 8 done.toNat ++
    toBytes 4 (l.kfirst / 18446744073709551616 % 4294967296) ++ toBytes 28 0

/-- A LAUNCH command whose launch is over (R33, R115). -/
def endLaunchCmd (s : State) (l : Launch) (fault : Bool) : State :=
  match l.cmd with
  | none => s
  | some (n, u) =>
    if fault then
      match s.cmd? u with
      | some c => putCmd (tagReady s n c (l.status = stDiscarded) true) u c.gang none
      | none => s
    else
      match s.cmd? u with
      | some c =>
        if l.status = stDiscarded then putCmd (tagReady s n c true false) u c.gang none
        else tryComplete (s.setCmd u (some { c with boxes := [0] })) u
      | none => s

/-- A NOTICE about a launch (R382): the record and completion addresses, and the failing address if there is one. -/
def launchNotice (s : State) (l : Launch) (cause : Nat) (block : Option Nat) (fail : Option DWord) : State :=
  let ring := ringOf s l.ctx
  postRec s ring { baseRec s ring l.ctx with
    cause := cause, sub := l.status, block := block.getD (2 ^ 96 - 1),
    addrs := [l.record, l.compl] ++ (match fail with | some a => [a] | none => []) }

/-- Whether nothing of a launch is left to run (R33). -/
def Launch.over (l : Launch) : Bool :=
  match l.body with
  | none => l.ended.isSome
  | some r => l.retired == l.placedN && (l.ended.isSome || l.placedN == (r.gx + 1) * (r.gy + 1) * (r.gz + 1))

/-- The completion record of a launch that is over, written if its page is there (R33). -/
def completeLaunch (s : State) (u : Nat) : State :=
  match s.launch? u with
  | none => s
  | some l =>
    if !l.over || l.written then s else
    let va := dw (l.compl.toNat / 64 * 64)
    match hubAccess s l.ctx false true va 3 u 5 with
    | .ok p =>
      let s := hubWrite s p l.ctx (completionBytes s l)
      endLaunchCmd { s with launches := tput none s.launches u none } l false
    | .wait s => s
    | .bad _ =>
      let s := launchNotice s l 10 none (some va)
      endLaunchCmd { s with launches := tput none s.launches u none } l true

/-- Every launch that is over, tried again (R33). -/
def completeLaunches (s : State) : State :=
  ((tentries s.launches).filter fun e => e.2.over).foldl (fun s e => completeLaunch s e.1) s

end Sys2Proof.Machine
end

