-- ==== Sys2Proof/Machine/Engine.lean ====
section
/-! DEFINITION. The engine window and the copy engine (R91 to R93, R109 to R118), tags (R119 to R121) and guards
(R122, R123). -/

namespace Sys2Proof.Machine

/-- ENGINE_FAULT subcauses of copies (R379). -/
def ePermission : Nat := 16
def eMalformed : Nat := 17
def eBound : Nat := 18
def ePoison : Nat := 19

/-- The ENGINE_FAULT subcause for a failing address of a copy (R117). -/
def copyCause (sub : Nat) : Nat :=
  if sub = pPermission then ePermission else if sub = pMalformed then eMalformed else eBound

/-- A signed 32-bit word of the scratchpad. -/
def scrInt (s : State) (k : Nat) : Int := sgnOf 32 (s.readScr k 4)

/-- The shape record of a command, if it is valid (R113). -/
def readShape (s : State) (b : Block) (off : DWord) : Option Shape :=
  if off.toNat % 32 ≠ 0 ∨ 256 * b.need.scratch < off.toNat + 32 then none
  else
    let k := scrKey b.core b.bank (b.scrbase + off.toNat)
    let x := s.readScr k 4
    let y := s.readScr (k + 4) 4
    let z := s.readScr (k + 8) 4
    let sh : Shape := { x, y, z, sys := scrInt s (k + 16), szs := scrInt s (k + 20),
                        dys := scrInt s (k + 24), dzs := scrInt s (k + 28) }
    if decide (x < 4) || decide (65536 < x) || x % 4 != 0 || y == 0 || decide (65536 < y) || z == 0 || decide (65536 < z)
        || s.readScr (k + 12) 4 != 0 || sh.sys % 4 != 0 || sh.szs % 4 != 0 || sh.dys % 4 != 0 || sh.dzs % 4 != 0
        || decide (8388608 < x * y * z) then none
    else some sh

/-- The shape of a command that has none. -/
def noShape : Shape := { x := 0, y := 0, z := 0, sys := 0, szs := 0, dys := 0, dzs := 0 }

/-- Whether ATYPE is allowed for the operation (R110). -/
def atypeOk (op t : Nat) : Bool := if op = 1 then decide (1 ≤ t) && decide (t ≤ 5) else t == 0

/-- Whether CMD3's own fields make a GO malformed (R112). -/
def badCmd3 (s : State) (b : Block) (c3 : DWord) : Bool :=
  let op := bitsOf c3 3 0
  let ss := bitsOf c3 31 29
  let ds := bitsOf c3 28 26
  let scopeBad (flag : Bool) (sc : Nat) : Bool := flag && (decide (5 < sc) || decide (policy s b < sc))
  bitsOf c3 63 56 != 0 || bitsOf c3 43 41 != 0 || bitsOf c3 39 38 != 0 || bitsOf c3 25 12 != 0 || bitsOf c3 7 4 != 0
    || decide (3 < op) || decide (2 < ss) || decide (2 < ds) || (op == 2 && (ss != 0 || ds != 0)) || (op == 3 && ss != 0)
    || !atypeOk op (bitsOf c3 11 8) || decide (b.need.guards < bitsOf c3 47 44)
    || scopeBad (bitOf c3 48) (bitsOf c3 51 49) || scopeBad (bitOf c3 52) (bitsOf c3 55 53)
    || decide (b.need.tags ≤ bitsOf c3 37 32)

/-- The decision of a GO (R112): STATUS bits, and the shape of an accepted command. -/
def decideGo (s : State) (b : Block) (w : EngWin) : Nat × Shape :=
  let c0 := tget 0 w.cmd 0
  let c1 := tget 0 w.cmd 1
  let c3 := tget 0 w.cmd 3
  let op := bitsOf c3 3 0
  if w.written ≠ 15 then (4, noShape)
  else if badCmd3 s b c3 then (16, noShape)
  else
    let sh := if op ≤ 1 then
        (if c0.toNat % 4 = 0 ∧ c1.toNat % 4 = 0 then readShape s b (tget 0 w.cmd 2) else none)
      else if op = 3 ∧ c1.toNat % 8 ≠ 0 then none else some noShape
    match sh with
    | none => (16, noShape)
    | some sh => if b.busy.getLsbD (bitsOf c3 37 32) then (8, noShape) else (2, sh)

/-- A GO decided (R111, R112): an accepted command enters its stream. -/
def performGo (s : State) (u : Nat) (r : Req) (g : Gang) (b : Block) : State :=
  let d := decideGo s b g.win
  let c3 := tget 0 g.win.cmd 3
  let tag := bitsOf c3 37 32
  let old := bitsOf g.win.status 11 6
  let win := { g.win with written := 0, status := dw ((if d.1 = 2 then tag else old) * 64 + d.1) }
  let s := (s.setGang r.gang { g with win := win }).setReq u none
  if d.1 ≠ 2 then s
  else
    let c : Cmd := { gang := r.gang, split := r.split, c0 := tget 0 g.win.cmd 0, c1 := tget 0 g.win.cmd 1, c3,
                     shape := d.2, c2 := tget 0 g.win.cmd 2, prio := g.regs.pri, deps := (pendingOf s r.gang).filter (· < u), passed := false,
                     started := false, running := [], boxes := [], failed := none, bounces := 0, bounced := false,
                     cause := 0, since := s.cycle, queued := false }
    let n := s.uid
    let s := s.modBlock g.block fun b => { b with
      busy := b.busy ||| tagBit tag, ready := b.ready &&& ~~~(tagBit tag),
      tdisc := b.tdisc &&& ~~~(tagBit tag), tfault := b.tfault &&& ~~~(tagBit tag) }
    noteHeads { s with uid := n + 1, cmds := tput none s.cmds n (some c) } r.gang

/-- CMD3 as it reads (R5, R110): its Reserved fields read as zero. -/
def shownCmd3 (x : DWord) : DWord := x &&& 0x00FFF13FFC000F0F

/-- What an LDK of the engine window reads (R109, R111); GO is write-only and reads as zero. -/
def readWindow (g : Gang) (b : Block) (off : Nat) : DWord :=
  if off = 0x18 then shownCmd3 (tget 0 g.win.cmd 3)
  else if off < 0x18 then tget 0 g.win.cmd (off / 8)
  else if off = 0x28 then g.win.status
  else if off = 0x30 then b.tdisc
  else if off = 0x38 then b.tfault
  else 0

/-- Whether a freed slot of a resource may go to an entry (R172): it is held for the first aged entry that is not saved. -/
def slotFor (s : State) (key u : Nat) : Bool :=
  match (tget [] s.aged key).find? fun x => x == u || !entrySaved s x with
  | some x => x == u
  | none => true

/-- Whether the engine queue of a core's cluster has a place for a GO (R118, R172): it is not full, and the place is not held
for an aged entry. -/
def goRoom (s : State) (core u : Nat) : Bool :=
  !s.core.engFull.contains (clusterOf core) && slotFor s (2 + 16 * clusterOf core) u

/-- The entries in the replay store of a gang's command stream (R168). -/
def streamBounced (s : State) (key : Nat) : Nat :=
  ((tentries s.cmds).filter fun e => e.2.gang == key && e.2.bounced).length

/-- Whether a request is a GO (R112). -/
def isGo (r : Req) : Bool := r.space == .engine && r.kind == .store && r.elems.any fun e => e.ea == 0x20

/-- An access to the engine window takes effect, if nothing holds it (R112, R118, R134). -/
def performEngine (s : State) (u : Nat) : State :=
  match s.req? u with
  | none => s
  | some r =>
    match s.gang? r.gang, s.block? (r.gang / 16) with
    | some g, some b =>
      if r.space != .engine || r.bounced || !depsDone s r.deps || replayHeld s u r || !gangRuns s r.gang then s
      else match r.elems with
        | [] => s
        | e :: _ =>
          match r.kind with
          | .store =>
            if e.ea = 0x20 then
              if engineEntries ≤ streamBounced s r.gang then s
              else if goRoom s b.core u then performGo s u r g b
              else bounceReq s u 2
            else
              let i := e.ea.toNat / 8
              (s.setGang r.gang { g with win := { g.win with
                cmd := tput 0 g.win.cmd i e.data, written := g.win.written ||| 2 ^ i } }).setReq u none
          | _ =>
            finishReq (s.setGang r.gang (writeDest g r.dest 0 (readWindow g b e.ea.toNat))) u r
    | _, _ => s

-- Commands at work.

/-- The resource at which a command bounces (R172): the device launch queue of its context, the queue past the engine's in which
its next access stands, or the engine queue of its cluster. -/
def cmdKey (s : State) (c : Cmd) (cause : Nat) : Nat :=
  if cause = 2 then 10 + 16 * (1024 + keyCtx s c.gang)
  else match c.way with
    | some p => (if p.stage = 3 then 4 else 5) + 16 * stageKey (keyCore s c.gang) p.sec p.stage
    | none => 2 + 16 * clusterOf (keyCore s c.gang)

/-- A record about a command of a gang by its cluster's engine (R382, R396). -/
def engineRec (s : State) (c : Cmd) (g : Gang) (b : Block) : FRec :=
  { gangRec s 0 c.gang g with pc := BitVec.allOnes 64, src := 0x100 + clusterOf b.core }

/-- A command bounced to its stream's replay store (R118, R171 to R173). -/
def bounceCmd (s : State) (u cause : Nat) : State :=
  match s.cmd? u with
  | none => s
  | some c =>
    let n := c.bounces + 1
    let s := (leaveQueues s c.gang (c.way.toList.map Place.stand)).setCmd u (some { c with
      bounced := true, cause := cause, since := s.cycle, bounces := if n = 256 then 8 else n })
    let s := ageAt s (cmdKey s c cause) u n
    if n = 256 then raiseBounceLimit s c.gang c.split 1 else s

/-- Whether the guard of a command lets it proceed (R122). -/
def guardOpen (g : Gang) (c : Cmd) : Bool := c.guard == 0 || c.passed || g.regs.gget c.guard == .isTrue

/-- Whether a command may work now (R79, R116, R118, R122, R407). -/
def canStart (s : State) (u : Nat) (c : Cmd) (g : Gang) (b : Block) : Bool :=
  gangRuns s c.gang && !c.bounced && atHead s u c && guardOpen g c
    && s.pf.ready.contains (.engine (clusterOf b.core))
    && (!c.acq || ((earlierCmds s c.gang u).isEmpty && depsDone s c.deps))

/-- A discarded command (R122): its tag is ready with TDISC; a LAUNCH has its completion record written first. -/
def discardCmd (s : State) (u : Nat) : State :=
  match s.cmd? u with
  | none => s
  | some c =>
    if c.op = 2 then
      match s.block? (c.gang / 16) with
      | none => s
      | some b =>
        let l : Launch := { ctx := b.ctx, queue := 1024 + b.ctx, record := c.c0, compl := c.c1, prio := c.prio, body := none,
                            waits := [], next := 0, retired := 0, placedN := 0, ended := some stDiscarded, kblocks := 0,
                            klanes := 0, kfirst := 2 ^ 96 - 1, cmd := some (c.gang / 16, u), written := false }
        let n := s.uid
        let s := putCmd s u c.gang (some { c with started := true, queued := true })
        completeLaunch { s with uid := n + 1, launches := tput none s.launches n (some l) } n
    else putCmd (tagReady s (c.gang / 16) c true false) u c.gang none

/-- The guard of a command at its queue head or in its replay store recorded (R122). -/
def recordGuard (s : State) (u : Nat) : State :=
  match s.cmd? u with
  | none => s
  | some c =>
    match s.gang? c.gang with
    | none => s
    | some g =>
      if c.started || c.guard == 0 || !(atHead s u c || c.bounced) then s
      else match g.regs.gget c.guard with
        | .unresolved => s
        | .isTrue => s.setCmd u (some { c with passed := true, bounced := c.bounced && c.cause != 3 })
        | .isFalse => if c.passed then s else discardCmd s u

/-- The guards of all of a gang's commands recorded, in stream order. -/
def recordGuards (s : State) (key : Nat) : State :=
  ((tentries s.cmds).filter fun e => e.2.gang == key).foldl (fun s e => recordGuard s e.1) s

/-- The space code of an engine command (R110). -/
def cmdSpace (n : Nat) : Space := if n = 0 then .global else if n = 1 then .scratch else .peer

/-- The addresses of word `p` of a copy, by its position in destination order (R92, R113). -/
def wordAddrs (c : Cmd) (p : Nat) : DWord × DWord :=
  let x := p % c.shape.x
  let y := p / c.shape.x % c.shape.y
  let z := p / (c.shape.x * c.shape.y)
  (c.c0 + BitVec.ofInt 64 (z * c.shape.szs + y * c.shape.sys + x),
   c.c1 + BitVec.ofInt 64 (z * c.shape.dzs + y * c.shape.dys + x))

/-- The words of a box by their number, with their addresses at both ends (R92). -/
def boxWords (c : Cmd) (box : Nat) : List (Nat × DWord × DWord) :=
  let total := c.shape.x * c.shape.y * c.shape.z
  (List.range 512).filterMap fun i =>
    let p := box * 2048 + 4 * i
    if p < total then some (i, wordAddrs c p) else none

/-- Whether a destination word is written by an earlier box of the command that has not written all (R127): the writes of one
command to a byte keep destination order. -/
def earlierWrites (c : Cmd) (box : Nat) : Bool :=
  (List.range box).any fun k => !c.boxes.contains k && !(c.running.contains k && !c.todo.any (·.1 == k)) &&
    (boxWords c k).any fun w => (boxWords c box).any fun x => x.2.2 == w.2.2

/-- The distinct device-memory sectors of places. -/
def globSectors (ls : List Loc) : List Nat := ((ls.filter fun l => !l.scr).map fun l => l.addr / 32).eraseDups

/-- Whether places of 4 bytes cover a sector. -/
def coversAll (ls : List Loc) (sec : Nat) : Bool :=
  (List.range 8).all fun i => ls.any fun l => !l.scr && l.addr == sec * 32 + 4 * i

/-- The sectors of a list read (R402), through the ECC whatever a cache holds for a checkpoint copy (R405): the state, and the
first poisoned one. -/
def readList (s : State) (ckpt : Bool) (secs : List Nat) : State × Option Nat :=
  secs.foldl (fun (acc : State × Option Nat) sec =>
    let r := if ckpt then dramRead acc.1 sec else sectorRead acc.1 sec
    (r.1, match acc.2 with | some x => some x | none => if r.2 then some sec else none)) (s, none)

/-- A command that fails at a box: it starts no further box (R117). -/
def failCmd (s : State) (u cause box : Nat) (addr : DWord) : State :=
  match s.cmd? u with
  | none => s
  | some c => tryComplete (putCmd s u c.gang (some { c with started := true, failed := some (cause, box, addr) })) u

/-- An access of a command to the home of an address as the channel sees it (R345, R346): in its queue, or arriving now. -/
def cmdWaiter (s : State) (u : Nat) (c : Cmd) (a cost : Nat) : Option Waiter :=
  placeWaiter s c.gang u cost ((c.way.filter fun p => p.atChan (channelOf a)).getD ⟨2 * (a / 32), 2, s.cycle, s.uid⟩)

/-- Whether the home of a place takes an access of a command now (R172, R345, R401, R407). -/
def cmdOpen (s : State) (u : Nat) (c : Cmd) (l : Loc) : Bool :=
  l.scr || (homeReady s l && agedLets s (homeKeys l.addr) u c.gang true &&
    (!isHbm l.addr || (match cmdWaiter s u c l.addr 1 with
      | some w => weirOpen s (channelOf l.addr) w
      | none => !chanClosed s (channelOf l.addr))))

/-- A sector that a command reads or writes at its home: its slots are charged (R344, R345). -/
def cmdSlots (s : State) (u : Nat) (c : Cmd) (b : Block) (a n : Nat) : State :=
  let s := match cmdWaiter s u c a n with
    | some w => if isHbm a then weirServed s (channelOf a) w else s
    | none => s
  chargeSlots s b.ctx b.core a n

/-- The slots that the sectors of a box cost (R344): one for each sector read or written, and two for each element added
into one. -/
def chargeBox (s : State) (u : Nat) (c : Cmd) (b : Block) (src dst : List Loc) : State :=
  let s := (globSectors src).foldl (fun s x => cmdSlots s u c b (x * 32) 1) s
  (globSectors dst).foldl (fun s x =>
    let words := (dst.filter fun l => !l.scr && l.addr / 32 == x).length
    let n := match addType c with | none => 1 | some t => 2 * words * t.shape.2
    dropCopies (cmdSlots s u c b (x * 32) n) (x / 4) none) s

/-- The access of a command leaves the queue in which it stands (R167). -/
def leaveWay (s : State) (c : Cmd) : State := leaveQueues s c.gang (c.way.toList.map Place.stand)

/-- A box begins (R92, R114, R117, R403): every address is checked before any write, and its words are left to move. -/
def beginBox (s : State) (u box : Nat) (c : Cmd) (g : Gang) (b : Block) : State :=
  let ws := (boxWords c box).map (·.2)
  let ss := cmdSpace (bitsOf c.c3 31 29)
  let ds := cmdSpace (bitsOf c.c3 28 26)
  let add := addType c
  let cs := ws.flatMap fun w => [checkElem s b ss true false 4 w.1, checkElem s b ds add.isSome true 4 w.2]
  match decideChecks (ws.flatMap fun w => [(0, w.1), (0, w.2)]) cs with
  | .protect sub _ ea => failCmd s u (copyCause sub) box ea
  | .walk vs => bounceCmd (startWalks s b.core b.ctx vs) u 0
  | .park st pages => bounceCmd (hubPark s (engineRec s c g b) b.ctx 4 u 1 st pages) u 1
  | .proceed ls =>
    if !ls.all (cmdOpen s u c) then s
    else
      let src := (ls.zipIdx).filterMap fun e => if e.2 % 2 = 0 then some e.1 else none
      let dst := (ls.zipIdx).filterMap fun e => if e.2 % 2 = 1 then some e.1 else none
      let whole := if add.isSome then [] else (globSectors dst).filter (coversAll dst)
      let rd := globSectors src ++ (globSectors dst).filter fun x => !whole.contains x
      let r := readList s (bitOf c.c3 40) rd
      match r.2 with
      | some sec => failCmd r.1 u ePoison box (dw (sec * 32))
      | none =>
        putCmd (chargeBox (leaveWay (whole.foldl clearPoison r.1) c) u c b src dst) u c.gang (some { c with
          started := true, passed := true, running := c.running ++ [box], fresh := c.fresh ++ [box], way := none,
          todo := c.todo.filter (·.1 != box) ++ [(box, (src.zip dst).map fun e => ⟨e.1, e.2, none⟩)] })

/-- A place of an address of a command, if its check finds one. -/
def cmdLoc (s : State) (b : Block) (sp : Space) (a : DWord) : Option Loc :=
  match checkElem s b sp false false 4 a with
  | .ok l => some l
  | _ => none

/-- The next box of a command: the first that has not begun. -/
def nextBox (c : Cmd) : Option Nat := (List.range c.shape.boxes).find? fun k => !c.boxes.contains k && !c.running.contains k

/-- Where a command goes on: the first word of the next box of a copy, or the word of a SIGNAL. -/
def cmdPlace (s : State) (c : Cmd) (b : Block) : Option Loc :=
  if c.op = 3 then cmdLoc s b (cmdSpace (bitsOf c.c3 28 26)) c.c1
  else if 1 < c.op then none
  else (nextBox c).bind fun k => cmdLoc s b (cmdSpace (bitsOf c.c3 31 29)) (wordAddrs c (2048 * k)).1

/-- The sectors of device memory that a command reads or writes next: those of its next box, or of a SIGNAL's word. -/
def cmdSectors (s : State) (c : Cmd) (b : Block) : List Nat :=
  if c.op = 3 then globSectors (cmdPlace s c b).toList
  else if 1 < c.op then []
  else match nextBox c with
    | none => []
    | some k => globSectors ((boxWords c k).flatMap fun w =>
        (cmdLoc s b (cmdSpace (bitsOf c.c3 31 29)) w.2.1).toList ++ (cmdLoc s b (cmdSpace (bitsOf c.c3 28 26)) w.2.2).toList)

/-- An access of an engine in its next queue (R166, R167): the die store of its home, then the memory controller's or the CXL
port's. It stands in one queue at a time. -/
def nextWay (s : State) (way : Option Place) (sec : Nat) : Option Place :=
  let go (stage : Nat) : Option Place := some { sec := sec, stage := stage, since := s.cycle, order := s.uid }
  match way with
  | none => go 1
  | some p => if p.sec == sec && p.stage == 1 then go (if isHbm (sec / 2 * 32) then 2 else 3) else none

/-- The next access of a command, or of the matrix engine or the Millrace, moves on to its next queue (R166, R167). -/
def advanceWay (s : State) (u sec : Nat) : State :=
  if sec % 2 = 1 then s else
  match s.cmd? u, s.engOp? u with
  | some c, _ =>
    match s.gang? c.gang, s.block? (c.gang / 16) with
    | some g, some b =>
      if !canStart s u c g b || c.failed.isSome || !(cmdSectors s c b).contains (sec / 2) then s
      else match nextWay s c.way sec with
        | some p => ({ leaveWay s c with uid := s.uid + 1 } : State).setCmd u (some { c with way := some p })
        | none => s
    | _, _ => s
  | none, some x =>
    if x.bounced || !gangRuns s x.gang || !depsDone s x.deps || !(globalSectors x.locs).contains (sec / 2)
        || l1Holds s (keyCore s x.gang) x.writes false (sec / 2) then s
    else match nextWay s x.way sec with
      | some p => ({ leaveQueues s x.gang (x.way.toList.map Place.stand) with uid := s.uid + 1 } : State).setEngOp u
          (some { x with way := some p })
      | none => s
  | none, none => s

/-- Words in destination order parted into those that are asked for and the rest (R127): a word stays behind an earlier one to
the same place. -/
def partWords (pick : Nat → Bool) : Nat → List CopyWord → List CopyWord → List CopyWord × List CopyWord
  | _, [], rest => ([], rest)
  | n, w :: l, rest =>
    if pick n && !rest.any fun x => x.dst == w.dst then
      let r := partWords pick (n + 1) l rest
      (w :: r.1, r.2)
    else partWords pick (n + 1) l (rest ++ [w])

/-- The words of a running box that are left, or those of them that are asked for, moved (R92, R135). -/
def moveWords (s : State) (u box : Nat) (pick : Option (List Nat)) : State :=
  match s.cmd? u with
  | none => s
  | some c =>
    match c.todo.find? (·.1 == box) with
    | none => s
    | some (_, ws) =>
      let p := match pick with
        | none => (ws, [])
        | some l => partWords (fun i => l.contains i) 0 ws []
      let others := c.todo.filter fun e => e.1 != box
      (writeWords (addType c) s p.1).setCmd u (some { c with
        todo := if p.2.isEmpty then others else others ++ [(box, p.2)] })

/-- A box of a COPY or COPY_ADD, if the engine may run it now (R92, R116, R127): it begins, and its words move, all that
are left or those that are asked for by their place among them. -/
def startBox (s : State) (u box op : Nat) (pick : Option (List Nat)) : State :=
  match s.cmd? u with
  | none => s
  | some c =>
    match s.gang? c.gang, s.block? (c.gang / 16) with
    | some g, some b =>
      if c.op != op then s
      else if c.running.contains box then
        if gangRuns s c.gang then moveWords s u box pick else s
      else if c.guard != 0 && !c.passed && !c.started && atHead s u c && g.regs.gget c.guard == .isFalse then discardCmd s u
      else if !canStart s u c g b || c.failed.isSome || c.boxes.contains box || earlierWrites c box
          || decide (4 ≤ c.running.length) || decide (c.shape.boxes ≤ box) then s
      else moveWords (beginBox s u box c g b) u box pick
    | _, _ => s

/-- An engine moves some words of a box (R92, R135): which of them, and in which order, no rule says. -/
def copyWords (s : State) (u box : Nat) (words : List Nat) : State :=
  match s.cmd? u with
  | some c => if c.op ≤ 1 then startBox s u box c.op (some words) else s
  | none => s

/-- An engine reads some words of a box before it writes any of them (R92, R135): the reads and the writes of one command are
unordered among themselves. -/
def readWords (s : State) (u box : Nat) (words : List Nat) : State :=
  let s := copyWords s u box []
  match s.cmd? u with
  | none => s
  | some c =>
    match c.todo.find? (·.1 == box) with
    | none => s
    | some (_, ws) =>
      if !gangRuns s c.gang then s
      else
        let q := ws.zipIdx.foldl (fun (acc : State × List CopyWord) e =>
          if words.contains e.2 then
            let r := readWord acc.1 e.1
            (r.1, acc.2 ++ [{ e.1 with val := some r.2 }])
          else (acc.1, acc.2 ++ [e.1])) (s, [])
        q.1.setCmd u (some { c with todo := c.todo.map fun e => if e.1 = box then (box, q.2) else e })

/-- COPY: the engine runs a box (R92, R114). -/
def execCopy (cmd box : Nat) (s : State) : Out := .next (startBox s cmd box 0 none)

/-- COPY_ADD: the engine runs a box (R92, R114). -/
def execCopyAdd (cmd box : Nat) (s : State) : Out := .next (startBox s cmd box 1 none)

/-- A box's writes have performed and its bit is set (R92). -/
def execBoxComplete (cmd box : Nat) (s : State) : Out :=
  .next (match s.cmd? cmd with
    | some c =>
      if c.running.contains box && !c.todo.any (·.1 == box) then
        tryComplete (s.setCmd cmd (some { c with running := c.running.filter (· != box), boxes := c.boxes ++ [box] })) cmd
      else s
    | none => s)

/-- COMMAND_COMPLETE (R92, R116): the release performs and the tag becomes ready. -/
def execCommandComplete (cmd : Nat) (s : State) : Out := .next (tryComplete s cmd)

/-- LAUNCH at its stream's head (R39, R115, R155): it enters the device launch queue if a place is free. -/
def execLaunch (cmd : Nat) (s : State) : Out :=
  .next (match s.cmd? cmd with
    | none => s
    | some c =>
      match s.gang? c.gang, s.block? (c.gang / 16) with
      | some g, some b =>
        if c.op != 2 || c.queued then s
        else if c.guard != 0 && !c.passed && atHead s cmd c && g.regs.gget c.guard == .isFalse then discardCmd s cmd
        else if !canStart s cmd c g b then s
        else match s.ctx? b.ctx with
          | none => s
          | some x =>
            if 64 ≤ x.devq.length || !slotFor s (cmdKey s c 2) cmd then s
            else putCmd (unage (s.setCtx b.ctx { x with devq := x.devq ++ [cmd] }) cmd) cmd c.gang
              (some { c with started := true, passed := true, queued := true })
      | _, _ => s)

/-- SIGNAL (R115, R116): one 8-byte store; with REL it performs once every earlier command has completed. -/
def execSignal (cmd : Nat) (s : State) : Out :=
  .next (match s.cmd? cmd with
    | none => s
    | some c =>
      match s.gang? c.gang, s.block? (c.gang / 16) with
      | some g, some b =>
        if c.op != 3 || !c.boxes.isEmpty || c.failed.isSome then s
        else if c.guard != 0 && !c.passed && atHead s cmd c && g.regs.gget c.guard == .isFalse then discardCmd s cmd
        else if !canStart s cmd c g b || (c.rel && !(earlierCmds s c.gang cmd).isEmpty) then s
        else
          let ck := checkElem s b (cmdSpace (bitsOf c.c3 28 26)) false true 8 c.c1
          match decideChecks [(0, c.c1)] [ck] with
          | .protect sub _ ea => failCmd s cmd (copyCause sub) 0 ea
          | .walk vs => bounceCmd (startWalks s b.core b.ctx vs) cmd 0
          | .park st pages =>
            bounceCmd (hubPark s (engineRec s c g b) b.ctx 4 cmd 1 st pages) cmd 1
          | .proceed [] => s
          | .proceed (l :: _) =>
            if !cmdOpen s cmd c l then s
            else
              let r := readList s false (globSectors [l])
              match r.2 with
              | some sec => failCmd r.1 cmd ePoison 0 (dw (sec * 32))
              | none =>
                let s := if l.scr then r.1 else dropCopies (cmdSlots (leaveWay r.1 c) cmd c b l.addr 1) (l.addr / 128) none
                tryComplete (putCmd (writeElem s l 8 c.c0.toNat) cmd c.gang
                  (some { c with started := true, passed := true, boxes := [0], way := none })) cmd
      | _, _ => s)

/-- A pending trap of a cause taken at the gang's instruction boundary (R117, R379, R403). -/
def takePending (s : State) (key cause : Nat) : State :=
  match s.gang? key, s.block? (key / 16) with
  | some g, some b =>
    match g.split?, g.traps with
    | some sp, t :: rest =>
      if t.cause = cause ∧ g.stopped.isNone ∧ b.phase = .running ∧ g.hold = .none ∧ gangForeground s key then
        takeTrap (s.setGang key { g with traps := rest }) key t.cause t.sub t.aux (if t.lanes = 0 then sp.exm else t.lanes)
          [t.addr] (some 0)
      else s
    | _, _ => s
  | _, _ => s

/-- ENGINE_FAULT of a copy, an MLD or an MGATH (R117, R403). -/
def execEngineFault (gang : Nat) (s : State) : Out := .next (takePending s gang tEngine)

/-- POISON: the trap of an access that met a poisoned sector (R403). -/
def execPoison (gang : Nat) (s : State) : Out := .next (takePending s gang tProtection)

-- Tags and guards.

/-- A TWAIT that goes on (R119, R135): kD has the tags that are ready, and what its gang has read early is forgotten. -/
def endTwait (s : State) (key : Nat) (g : Gang) (sp : Split) (b : Block) (asked : DWord) (d : Nat) : State :=
  retire (dropAhead s fun k _ => k == key) key (g.kset d (b.ready &&& asked)) { sp with wait := .ready } 8

/-- Whether a GO of a gang has not been decided (R112). -/
def goPending (s : State) (key : Nat) : Bool := (tentries s.reqs).any fun e => e.2.gang == key && isGo e.2

/-- TWAIT (R119): the mask M is fixed when it issues, which it does once the gang's GOs before it have been decided (R398; log
74); the split waits for it in the state. -/
def execTwait (all : Bool) (d a : KReg) (s : State) : Out :=
  issueWhen s { k := [d, a] } 8 (fun s key _ _ _ => !goPending s key) fun s key g sp =>
    match s.block? g.block with
    | none => s
    | some b =>
      let asked := g.kget a &&& tagWindow b
      let m := asked &&& (b.busy ||| b.ready)
      if tagsDone b all m then endTwait s key g sp b asked d
      else s.setGang key (switchSplit (g.setSplit { sp with wait := .atTags all m asked d }))

/-- TFIRST (R120). -/
def execTfirst (d a : KReg) (s : State) : Out :=
  localOp s { k := [d, a] } 8 fun s g sp =>
    match s.block? g.block with
    | none => (g, sp)
    | some b => (g.kset d (firstBit (b.ready &&& g.kget a &&& tagWindow b)), sp)

/-- TCLR (R121). -/
def execTclr (d a : KReg) (s : State) : Out :=
  issue s { k := [d, a] } 8 fun s key g sp =>
    match s.block? g.block with
    | none => s
    | some b =>
      let m := g.kget a &&& tagWindow b
      let clr := m &&& b.ready
      let s := s.setBlock g.block { b with
        ready := b.ready &&& ~~~clr, tdisc := b.tdisc &&& ~~~clr, tfault := b.tfault &&& ~~~clr,
        past := b.past.filter fun e => !bitOf clr e.1 }
      retire s key (g.kset d (m &&& b.busy)) sp 8

/-- What GSET sets (R122). -/
def gsetValue (g : Gang) : GsetSrc → Guard
  | .reg a => if g.kget a = 0 then .isFalse else .isTrue
  | .setFalse => .isFalse
  | .setTrue => .isTrue
  | .setUnresolved => .unresolved

/-- GSET (R122): the commands at their heads and in replay stores record the new state. -/
def execGset (n : Nat) (src : GsetSrc) (s : State) : Out :=
  issue s { k := (match src with | .reg a => [a] | _ => []), guard := n } 8 fun s key g sp =>
    recordGuards (retire s key { g with regs := g.regs.gset n (gsetValue g src) } sp 8) key

end Sys2Proof.Machine
end

