-- ==== Sys2Proof/Machine/Memory.lean ====
section
/-! DEFINITION. The memory instructions (R94 to R108): loads, stores, atomics, LR and SC, fences and PREF. -/

namespace Sys2Proof.Machine

/-- The registers that a value of a width and type takes. -/
def widthRegs (w : Width) (t : Ty) (r : Nat) : List Nat := if w = .full then vr t r else [r]

/-- LD (R99). -/
def execLd (p : Pred) (w : Width) (t : Ty) (o : MemOrd) (sc : Scope) (sp : Space) (d : VReg) (m : MemArg) (la : Nat)
    (s : State) : Out :=
  issue s { v := vr t d ++ (memUse m).1, k := (memUse m).2, scope := some sc, count := 1, throttled := true, long := true }
    12 fun s key g x =>
    sendReq s key g x { blankReq with
      kind := .load (tySigned t), space := sp, scope := sc, ord := o, dest := .vec d t.wide, counted := 1,
      elems := laneElems (activeLanes g x p) (effAddr g.regs m) (widthBytes w t) (fun _ => 0) (fun _ => 0) }
      la (vr t d) []

/-- ST (R100). -/
def execSt (p : Pred) (w : Width) (t : Ty) (o : MemOrd) (sc : Scope) (sp : Space) (m : MemArg) (c : VReg)
    (s : State) : Out :=
  issue s { v := widthRegs w t c ++ (memUse m).1, k := (memUse m).2, scope := some sc, count := 2, throttled := true }
    12 fun s key g x =>
    sendReq s key g x { blankReq with
      kind := .store, space := sp, scope := sc, ord := o, counted := 2,
      elems := laneElems (activeLanes g x p) (effAddr g.regs m) (widthBytes w t)
        (fun l => dw (g.regs.lane t c l)) (fun _ => 0) }
      0 [] []

/-- The one element of a uniform access (R101). -/
def uniElem (ea : DWord) (size : Nat) (data cmp : DWord) : List Elem :=
  [{ lane := 0, ea := ea, loc := ⟨false, 0, 0, 0⟩, size := size, data := data, cmp := cmp }]

/-- An access to the engine window sent (R101, R109): its traps are precise, and it takes effect at once if
nothing is before it. -/
def sendEngine (s : State) (key : Nat) (g : Gang) (x : Split) (r : Req) (ea : DWord) (la : Nat) (dk : List Nat) : State :=
  if 0x40 ≤ ea.toNat ∨ ea.toNat % 8 ≠ 0 then trapHere s key x tProtection pBound 12 [ea]
  else if r.kind = .store ∧ 0x28 ≤ ea.toNat then trapHere s key x tProtection 5 12 [ea]
  else
    let u := s.uid
    let r := { r with gang := key, split := x.uid, pc := x.pc, uni := true, space := .engine, checked := true }
    let r := { r with deps := depsFor s key x r, elder := x.elder, chained := r.storeLike && chainOpen s key u }
    let long := r.dest != .none
    let x := if long then openWindow x u la false [] dk else x
    let g := if long then { g with regs := { g.regs with lcnt := g.regs.lcnt + 1 } } else g
    let s := { s with uid := u + 1, reqs := tput none s.reqs u (some r) }
    performEngine (retire s key g x 12) u

/-- LDK (R101, R109). -/
def execLdk (w : Width) (t : Ty) (o : MemOrd) (sc : Scope) (sp : Space) (d : KReg) (m : MemArg) (la : Nat)
    (s : State) : Out :=
  issue s { k := [d, m.base], scope := (if sp = .engine then none else some sc), count := 1, throttled := true,
            long := true } 12 fun s key g x =>
    let ea := g.kget m.base + sx32 m.disp
    let r := { blankReq with
      uni := true, kind := .load (tySigned t), space := sp, scope := sc, ord := o, dest := .uni d, counted := 1,
      elems := uniElem ea (widthBytes w t) 0 0 }
    if sp = .engine then sendEngine s key g x r ea la [d] else sendReq s key g x r la [] [d]

/-- STK (R101, R109). -/
def execStk (w : Width) (t : Ty) (o : MemOrd) (sc : Scope) (sp : Space) (m : MemArg) (c : KReg) (s : State) : Out :=
  issue s { k := [c, m.base], scope := (if sp = .engine then none else some sc),
            count := (if sp = .engine then 0 else 2), throttled := true } 12 fun s key g x =>
    let ea := g.kget m.base + sx32 m.disp
    let r := { blankReq with
      uni := true, kind := .store, space := sp, scope := sc, ord := o, counted := (if sp = .engine then 0 else 2),
      elems := uniElem ea (widthBytes w t) (g.kget c) 0 }
    if sp = .engine then sendEngine s key g x r ea 0 [] else sendReq s key g x r 0 [] []

/-- The registers that ATOM names in its operand D (R102). -/
def atomRegs (op : Aop) (t : Ty) (d : Nat) : List Nat :=
  vr t d ++ (if op = .cas then vr t (d + (if t.wide then 2 else 1)) else [])

/-- ATOM (R102 to R104). -/
def execAtom (p : Pred) (op : Aop) (ret : Bool) (t : Ty) (o : MemOrd) (sc : Scope) (sp : Space) (d : VReg) (m : MemArg)
    (la : Nat) (s : State) : Out :=
  issue s { v := atomRegs op t d ++ (memUse m).1, k := (memUse m).2, scope := some sc, count := (if ret then 1 else 2),
            throttled := true, long := ret } 12 fun s key g x =>
    let new := if op = .cas then d + (if t.wide then 2 else 1) else d
    sendReq s key g x { blankReq with
      kind := .atom op t ret, space := sp, scope := sc, ord := o, dest := (if ret then .vec d t.wide else .none),
      counted := (if ret then 1 else 2),
      elems := laneElems (activeLanes g x p) (effAddr g.regs m) (widthBytes .full t)
        (fun l => dw (g.regs.lane t new l)) (fun l => dw (g.regs.lane t d l)) }
      la (if ret then vr t d else []) []

/-- ATOMK (R102 to R104). -/
def execAtomk (op : Aop) (t : Ty) (o : MemOrd) (sc : Scope) (sp : Space) (d : KReg) (m : MemArg) (la : Nat)
    (s : State) : Out :=
  issue s { k := [d, m.base] ++ (if op = .cas then [d + 1] else []), scope := some sc, count := 1, throttled := true,
            long := true } 12 fun s key g x =>
    sendReq s key g x { blankReq with
      uni := true, kind := .atom op t true, space := sp, scope := sc, ord := o, dest := .uni d, counted := 1,
      elems := uniElem (g.kget m.base + sx32 m.disp) (widthBytes .full t)
        (g.kget (if op = .cas then d + 1 else d)) (g.kget d) }
      la [] [d]

/-- LR (R105). -/
def execLr (p : Pred) (t : Ty) (o : MemOrd) (sc : Scope) (d : VReg) (m : MemArg) (la : Nat) (s : State) : Out :=
  issue s { v := vr t d ++ (memUse m).1, k := (memUse m).2, scope := some sc, count := 1, throttled := true, long := true }
    12 fun s key g x =>
    sendReq s key g x { blankReq with
      kind := .lr, scope := sc, ord := o, dest := .vec d t.wide, counted := 1,
      elems := laneElems (activeLanes g x p) (effAddr g.regs m) (widthBytes .full t) (fun _ => 0) (fun _ => 0) }
      la (vr t d) []

/-- SC (R106). -/
def execSc (p : Pred) (t : Ty) (o : MemOrd) (scp : Scope) (d : VReg) (m : MemArg) (c : VReg) (la : Nat)
    (s : State) : Out :=
  issue s { v := d :: vr t c ++ (memUse m).1, k := (memUse m).2, scope := some scp, count := 1, throttled := true,
            long := true } 12 fun s key g x =>
    sendReq s key g x { blankReq with
      kind := .sc, scope := scp, ord := o, dest := .vec d false, counted := 1,
      elems := laneElems (activeLanes g x p) (effAddr g.regs m) (widthBytes .full t)
        (fun l => dw (g.regs.lane t c l)) (fun _ => 0) }
      la [d] []

/-- FENCE (R107). -/
def execFence (k : FenceKind) (sc : Scope) (s : State) : Out :=
  issue s { scope := some sc } 8 fun s key g x =>
    retire (if k = .rel then s else dropAhead s fun y _ => y == key) key g (applyFence s key k x) 8

/-- A sector moved closer by a PREF (R108): into its die store, or into the core's L1, shared or owned, where its home takes the
access now and there is room; a poisoned one stays where it is. -/
def prefSector (s : State) (b : Block) (lvl : PrefLevel) (sec : Nat) : State :=
  let own := lvl == .l1w
  let l1 := lvl != .ds
  let here := if l1 then l1Holds s b.core own false sec else (tget 0 s.mem.store (sec / 4)).testBit (sec % 4)
  if here || !placeOpen s (ctxVf s b.ctx) ⟨false, 32 * sec, 0, 0⟩ 1 || (l1 && !l1Room s b.core (sec / 4)) then s
  else
    let r := sectorRead s sec
    if r.2 then r.1
    else
      let s := arrivalServed r.1 (ctxVf s b.ctx) (32 * sec) 1
      if l1 then fillL1 s b.core b.ctx own false sec else chargeSlots s b.ctx b.core (32 * sec) 1

/-- PREF (R108): a lane that misses starts a walk, and the line of one that hits is moved closer; no value that a program sees
changes. -/
def execPref (p : Pred) (lvl : PrefLevel) (m : MemArg) (s : State) : Out :=
  issue s { v := (memUse m).1, k := (memUse m).2, throttled := true } 12 fun s key g x =>
    let s' := match s.block? g.block with
      | none => s
      | some b => (laneList (activeLanes g x p)).foldl (fun s l =>
          match checkGlobal s b.core b.ctx true false (effAddr g.regs m l) with
          | .miss v => startWalk s b.core b.ctx v
          | .ok x => (List.range 4).foldl (fun s i => prefSector s b lvl (x.addr / 128 * 4 + i)) s
          | _ => s) s
    retire s' key g x 12

end Sys2Proof.Machine
end

