-- ==== Sys2Proof/Machine/Fabric.lean ====
section
/-! DEFINITION. The Sails fabric (R204 to R226): remote accesses of a gang with their credits, statuses and
failures, the requests that other devices make of this one, the planes, and launch packets. -/

namespace Sys2Proof.Machine

/-- PROTECTION subcauses of R215. -/
def pBadPeer : Nat := 9
def pNoPeer : Nat := 10

/-- The code of a failure cause (R222). -/
def causeCode : RCause → Nat
  | .noWindow => 1
  | .bound => 2
  | .permission => 3
  | .targetFault => 4
  | .dataErr => 5
  | .peerLost => 6
  | .peerDown => 7

/-- A request before its lanes are known. -/
def blankRemote : RReq :=
  { gang := 0, split := 0, kind := .load, sgn := false, size := 4, dest := .none, dev := 0, peer := 0, ftid := 0, elems := [],
    group := 0, acq := false, plane := 0, sent := 0, status := none, results := [], written := [], deps := [], bounces := 0,
    bounced := false, cause := 0, since := 0 }

/-- Whether a request failed, and why. -/
def RReq.failure (r : RReq) : Option RCause :=
  match r.status with
  | some (.fail c) => some c
  | _ => none

/-- Whether a request returns values (R217, R219). -/
def RReq.returns (r : RReq) : Bool :=
  match r.kind with
  | .store _ => false
  | _ => true

/-- Whether a request is an atomic (R219). -/
def RReq.isAtom (r : RReq) : Bool :=
  match r.kind with
  | .atom _ _ _ => true
  | _ => false

/-- The requests of one instruction. -/
def groupOf (s : State) (grp : Nat) : List (Nat × RReq) := (tentries s.rreqs).filter fun e => e.2.group == grp

-- Planes (R208, R209).

/-- The logical plane of a window offset (R208). -/
def logicalPlane (off : Nat) : Nat := off / 128 % 4

/-- The physical plane toward a device for a window offset (R208). -/
def planeFor (s : State) (dev off : Nat) : Nat := tget 0xE4 s.fab.maps dev / 4 ^ logicalPlane off % 4

/-- A plane's link: retrainings, speed, width and state (R210). -/
def linkOf (s : State) (p : Nat) : Nat × Nat × Nat × Nat := tget (0, 0, 0, 0) s.fab.fplink p

/-- Credits in use toward a device on a plane changed (R211). -/
def moveCredit (s : State) (dev p : Nat) (f : Nat → Nat) : State :=
  { s with fab := { s.fab with credits := tmod 0 s.fab.credits (dev * 4 + p) f } }

/-- Whether a new request may be sent to a device on a plane now (R209, R211, R407). -/
def planeOpen (s : State) (dev p : Nat) : Bool :=
  s.pf.ready.contains (.port p) && (linkOf s p).2.2.2 == 2 && !s.fab.dead.contains (dev, p) && !(s.fab.repair.any fun x => x.1 == dev) &&
    decide (tget 0 s.fab.credits (dev * 4 + p) < 8)

-- Failures (R222 to R224).

/-- A place that the hub writes in a context's space, translated at once (R223). -/
def hubPlace (s : State) (ctx : Nat) (va : DWord) : Chk :=
  match s.ctx? ctx with
  | none => .bad pMalformed
  | some c =>
    match (s.tlbGet hubUnit ctx (va.toNat / 65536)).getD (translate s c (va.toNat / 65536)) with
    | .malformed _ w _ => .bad (if w then pMalformed else pPermission)
    | .absent st pg _ w _ => if w then .absent st pg else .bad pPermission
    | .page pa gpa _ w _ =>
      if w then .ok ⟨false, pa / 65536 * 65536 + va.toNat % 65536, gpa / 65536 * 65536 + va.toNat % 65536, ctx⟩
      else .bad pPermission

/-- Whether the hub can translate a place in a context's space and write there now (R345, R346, R401, R407). -/
def hubOpen (s : State) (ctx : Nat) (va : DWord) : Bool :=
  match s.ctx? ctx with
  | none => true
  | some c =>
    ((s.tlbGet hubUnit ctx (va.toNat / 65536)).isSome || translateReady s c (va.toNat / 65536)) &&
      (match hubPlace s ctx va with
        | .ok l => placeOpen s (ctxVf s ctx) l 1
        | _ => true)

/-- The bytes of an error queue entry (R223). -/
def errorBytes (s : State) (b : Block) (g : Gang) (c : Context) (r : RReq) (lane off code : Nat) : List Byte :=
  toBytes 8 (s.stamp + c.stoff).toNat ++ toBytes 8 off ++ toBytes 2 r.peer ++ toBytes 1 code ++ toBytes 1 lane ++
    toBytes 2 (0x200 + r.plane) ++ toBytes 2 (corenum s b * 16 + g.idx) ++ toBytes 8 (b.index % 2 ^ 64) ++
    toBytes 8 (b.index / 2 ^ 64 % 2 ^ 32) ++ toBytes 24 0

/-- Where the next entry of a context's error queue goes (R223). -/
def errorPlace (c : Context) : DWord := c.errBase + dw (64 * ((c.errHead + c.errCount) % 256))

/-- Whether a failed store of a gang may be recorded now (R223, R407): the entries of one STAMP come in the order of the planes,
and the place of the entry takes a write. -/
def errorTurn (s : State) (key plane : Nat) : Bool :=
  (s.fab.lastErr.1 != s.stamp.toNat || decide (s.fab.lastErr.2 ≤ plane)) &&
    (match s.ctx? (keyCtx s key) with
      | some c => c.errBase == 0 || hubOpen s (keyCtx s key) (errorPlace c)
      | none => true)

/-- An entry of the error queue lost (R223). -/
def loseError (s : State) (ctx : Nat) : State := s.modCtx ctx fun c => { c with errOvf := true }

/-- One failed element of a remote store recorded (R223, R224). -/
def recordError (s : State) (r : RReq) (lane off code : Nat) : State :=
  let s := { s with fab := { s.fab with lastErr := (s.stamp.toNat, r.plane) } }
  let s := s.modGang r.gang fun g => { g with regs := { g.regs with errs := g.regs.errs + 1 } }
  match s.block? (r.gang / 16), s.gang? r.gang with
  | some b, some g =>
    match s.ctx? b.ctx with
    | none => s
    | some c =>
      if c.errBase = 0 ∨ 256 ≤ c.errCount then loseError s b.ctx
      else
        let va := errorPlace c
        match hubPlace s b.ctx va with
        | .ok l =>
          let s := hubWrite s l b.ctx (errorBytes s b g c r lane off code)
          let s := s.modCtx b.ctx fun c => { c with errCount := c.errCount + 1 }
          if g.frames.any (fun f => bitOf f.set 3) then
            s.modGang r.gang fun g => g.modSplit r.split fun sp =>
              addEffect sp 3 sp.exm (flatPayload (BitVec.allOnes 64) (c.errCount + 1))
          else s
        | _ =>
          let ring := ringOf s b.ctx
          loseError (postRec s ring { gangRec s ring r.gang g with
            src := 0x200 + r.plane, cls := 3, cause := 4, pc := BitVec.allOnes 64, addrs := [va] }) b.ctx
  | _, _ => s

-- Statuses.

/-- The requests of a group removed. -/
def dropGroup (s : State) (grp : Nat) : State :=
  { s with rreqs := s.rreqs.filter fun e => match e.2 with | some r => r.group != grp | none => false }

/-- The lanes of a list of requests. -/
def lanesOfReqs (l : List RReq) : Lanes := laneSet fun x => l.any fun r => r.elems.any fun e => e.1 == x

/-- REMOTE_LOAD_FAIL (R217, R219, R222): the failing lanes with peer, offset and cause, and the applied lanes of
an atomic with their old values; the instruction has not executed, the counts are as before it, and its split is the one that
traps (R65). The record's address
is the window offset of the lowest failing lane (log 30). -/
def remoteFail (s : State) (key grp : Nat) (rs : List RReq) : State :=
  let bad := rs.filter fun r => r.failure.isSome
  let lanes := lanesOfReqs bad
  let first := bad.find? fun r => r.elems.any fun e => e.1 == lowest lanes
  let off := match first with
    | some r => (r.elems.find? fun e => e.1 == lowest lanes).elim 0 (·.2)
    | none => 0
  let sub := match first with | some r => (r.failure.map causeCode).getD 0 | none => 0
  let s := (lowerCount (dropGroup s grp) key 1).modGang key fun g => (unstepGang g).turnTo (rs.headD blankRemote).split
  let s := takeTrap s key tRemoteLoad sub 0 lanes [dw off] (some 12)
  let t := rs.foldl (fun (t : Tab LaneDetail) r => r.elems.foldl (fun t e =>
    match r.failure with
    | some c => tset t e.1 (failDetail (dw e.2) r.peer (causeCode c))
    | none => if r.isAtom then
        tset t e.1 ⟨dw e.2, (r.results.find? fun x => x.1 == e.1).elim 0 (·.2), r.peer, 0, 6⟩ else t) t) []
  s.modGang key fun g => { g with detail := t }

/-- Whether all the values of a request have arrived. -/
def RReq.full (r : RReq) : Bool := r.elems.all fun e => r.results.any fun x => x.1 == e.1

/-- The values that a request has written. -/
def writeRemote (g : Gang) (r : RReq) : Gang :=
  r.results.foldl (fun g x =>
    if r.written.contains x.1 then g else writeDest g r.dest x.1 (extendTo64 r.size r.sgn x.2)) g

/-- A group of a returning form after its decision (R217): values are written as they arrive, and with the last of
them the instruction is complete. -/
def returnGroup (s : State) (key grp : Nat) : State :=
  let rs := groupOf s grp
  let s := s.modGang key fun g => rs.foldl (fun g e => writeRemote g e.2) g
  if rs.all (·.2.full) then
    (lowerCount (dropGroup s grp) key 1).modGang key fun g => closeWindow g grp
  else rs.foldl (fun s e => s.setRreq e.1 (some { e.2 with written := e.2.results.map (·.1) })) s

/-- The registers that a group writes. -/
def destRegs : Dest → List Nat × List Nat
  | .none => ([], [])
  | .uni k => ([], [k])
  | .vec d w => (if w then [d, d + 1] else [d], [])

/-- What follows from a status or a value of a group (R216 to R219). -/
def settleGroup (s : State) (key grp : Nat) : State :=
  let rs := groupOf s grp
  match rs with
  | [] => s
  | (_, r) :: _ =>
    if !r.returns then
      if rs.all (·.2.final) then lowerCount (dropGroup s grp) key 2 else s
    else
      match s.gang? key with
      | none => s
      | some g =>
        match g.hold with
        | .remote n la =>
          if n ≠ grp then s
          else if !rs.all (·.2.final) then s
          else if rs.any (fun e => e.2.failure.isSome) then
            if rs.all fun e => e.2.failure.isSome || !e.2.isAtom || e.2.full then remoteFail s key grp (rs.map (·.2)) else s
          else
            let g := { g with hold := .none }
            let g := g.modSplit r.split fun sp =>
              let sp := stepWindows sp {}
              openWindow { sp with pc := sp.pc + 12 } grp la false (destRegs r.dest).1 (destRegs r.dest).2
            let s := countDue (s.setGang key g) key (keyCtx s key)
            let s := if r.acq then dropAhead s fun k _ => k == key else s
            returnGroup s key grp
        | _ => returnGroup s key grp

/-- The resource at which a remote request bounces (R172, R213): the credits toward its device on its plane. -/
def creditKey (s : State) (r : RReq) : Nat := 7 + 16 * (r.dev * 4 + planeFor s r.dev ((r.elems.headD (0, 0)).2))

/-- Whether the next credit may go to a request (R172, R213): none is held for an aged one before it. -/
def creditFor (s : State) (u : Nat) (r : RReq) : Bool :=
  match tget [] s.aged (creditKey s r) with
  | [] => true
  | x :: _ => x == u

/-- A remote request bounced (R167, R171 to R173, R213). -/
def bounceRemote (s : State) (u cause : Nat) : State :=
  match s.rreq? u with
  | none => s
  | some r =>
    let n := r.bounces + 1
    let s := s.setRreq u (some { r with bounced := true, cause := cause, since := s.cycle, sent := 0, status := none,
                                        bounces := if n = 256 then 8 else n })
    let s := if r.storeLike then chainAfter s r.gang u else s
    let s := ageAt s (creditKey s r) u n
    if n = 256 then raiseBounceLimit s r.gang r.split 0 else s

/-- A plane map with every entry that names one plane rewritten to another (R209). -/
def remap (m old new : Nat) : Nat :=
  (List.range 4).foldr (fun i n => 4 * n + (if m / 4 ^ i % 4 = old then new else m / 4 ^ i % 4)) 0

/-- The lowest-numbered plane toward a device that is neither dead nor down (R209). -/
def survivor (s : State) (dev : Nat) : Option Nat :=
  (List.range 4).find? fun p => !s.fab.dead.contains (dev, p) && (linkOf s p).2.2.2 == 2

/-- A plane dead toward a device (R209): nothing new is sent there until an epilogue is in. -/
def killPlane (s : State) (dev plane : Nat) : State :=
  if s.fab.dead.contains (dev, plane) then s
  else { s with fab := { s.fab with dead := s.fab.dead ++ [(dev, plane)], repair := s.fab.repair ++ [(dev, plane, s.cycle, false)] } }

/-- The remaps of a device whose epilogues are in, made once every outstanding access to it has performed (R136, R209). -/
def finishRepair (s : State) (dev : Nat) : State :=
  match survivor s dev with
  | none => s
  | some p =>
    let due := s.fab.repair.filter fun x => x.1 == dev && x.2.2.2
    if due.isEmpty || (tentries s.rreqs).any (fun e => e.2.dev == dev && e.2.sent != 0 && !e.2.final) then s
    else { s with fab := { s.fab with
      repair := s.fab.repair.filter fun x => !(x.1 == dev && x.2.2.2),
      maps := tput 0xE4 s.fab.maps dev (due.foldl (fun m x => remap m x.2.1 p) (tget 0xE4 s.fab.maps dev)) } }

/-- A status of a request taken in (R207, R213, R218, R223). -/
def takeStatus (s : State) (u : Nat) (st : RStatus) (data : List (Nat × DWord)) : State :=
  match s.rreq? u with
  | none => s
  | some r =>
    let s := if r.sent = 0 then s else moveCredit s r.dev r.plane (· - 1)
    if (s.gang? r.gang).isNone then finishRepair (s.setRreq u none) r.dev else
    (fun s => finishRepair s r.dev) <| match st with
    | .retry => bounceRemote s u 5
    | .ok =>
      let s := unage (s.setRreq u (some { r with status := some .ok, results := data })) u
      settleGroup s r.gang r.group
    | .fail c =>
      let s := unage (s.setRreq u (some { r with status := some (.fail c) })) u
      let s := if r.returns then s else r.elems.foldl (fun s e => recordError s r e.1 e.2 (causeCode c)) s
      settleGroup s r.gang r.group

/-- Whether a bounced older request holds a remote request back (R134, R136): one of its split carries it, and a store follows
the stores before it. -/
def carried (s : State) (u : Nat) (r : RReq) : Bool :=
  (r.chained && chainOpen s r.gang u) || (tentries s.rreqs).any fun x =>
    decide (x.1 < u) && x.2.gang == r.gang && x.2.split == r.split && x.2.group != r.group && x.2.bounced

/-- Whether the link of a plane has entered DOWN, or the two ends do not agree (R209, R210). -/
def linkLost (s : State) (p : Nat) : Bool := (linkOf s p).2.2.2 == 3 || s.fab.fell.contains p

/-- A request sent, if it may be (R208, R209, R211): toward a device marked unreachable it fails, and a plane that is lost is
dead toward its device. -/
def trySend (s : State) (u : Nat) : State :=
  match s.rreq? u with
  | none => s
  | some r =>
    let p := planeFor s r.dev ((r.elems.headD (0, 0)).2)
    if r.sent ≠ 0 || r.bounced || r.final || !depsDone s r.deps || carried s u r || gangStopped s r.gang then s
    else if s.fab.lost.contains r.dev then
      if r.returns || errorTurn s r.gang p then takeStatus (s.setRreq u (some { r with plane := p })) u (.fail .peerDown) [] else s
    else if linkLost s p then killPlane s r.dev p
    else if planeOpen s r.dev p && creditFor s u r then
      let s := carryLink (moveCredit (unage s u) r.dev p (· + 1)) p (keyCtx s r.gang) (keyCore s r.gang)
      { s with uid := s.uid + 1, rreqs := tput none s.rreqs u (some { r with plane := p, sent := s.uid }) }
    else s

/-- Every request that waits to be sent, tried in order. -/
def sendWaiting (s : State) : State := (tentries s.rreqs).foldl (fun s e => trySend s e.1) s

-- The instructions (R214 to R220).

/-- The peer and the base that a lane's handle gives, and whether its reserved bits are zero (R205, R215). -/
def handleOf (g : Regs) (pa : PeerArg) (l : Nat) : Nat × DWord × Bool :=
  match pa with
  | .uni k => let h := g.kget k; (bitsOf h 9 0, dw (bitsOf h 63 16), bitsOf h 15 10 == 0)
  | .vec v => let h := g.lane1 v l; (h % 1024, 0, decide (h < 1024))

/-- The window offset of a lane (R215). -/
def windowOff (g : Regs) (pa : PeerArg) (ix : Option VReg) (disp : BitVec 32) (l : Nat) : DWord :=
  (handleOf g pa l).2.1 + (match ix with | some v => dw (g.lane1 v l) | none => 0) + sx32 disp

/-- The entry of a peer in a context's peer table (R204, R339): the device and the FTID. -/
def peerEntry (s : State) (ctx v : Nat) : Option (Nat × Nat) :=
  match s.ctx? ctx with
  | none => none
  | some c =>
    let e := dw (s.readPhys (c.peert + 8 * v) 8)
    if bitOf e 63 && bitsOf e 62 42 == 0 && bitsOf e 31 16 == 0 then some (bitsOf e 41 32, bitsOf e 15 0) else none

/-- The local checks of R215 over the active lanes: the first that fails, with the lanes that fail it. -/
def localCheck (s : State) (ctx : Nat) (g : Regs) (m : Lanes) (pa : PeerArg) (ix : Option VReg) (disp : BitVec 32)
    (size : Nat) : Option (Nat × Lanes) :=
  let off (l : Nat) : DWord := windowOff g pa ix disp l
  let tests : List (Nat × (Nat → Bool)) :=
    [(pBadPeer, fun l => !(handleOf g pa l).2.2), (pNoPeer, fun l => (peerEntry s ctx (handleOf g pa l).1).isNone),
     (pBound, fun l => bitsOf (off l) 63 48 != 0), (pAlign, fun l => (off l).toNat % size != 0)]
  (tests.map fun t => (t.1, laneSet fun l => inLanes m l && t.2 l)).find? fun t => t.2 != 0

/-- The part of a kind that some lanes have. -/
def kindPart (k : RKind) (ls : List Nat) : RKind :=
  match k with
  | .load => .load
  | .store d => .store (d.filter fun x => ls.contains x.1)
  | .atom op t o => .atom op t (o.filter fun x => ls.contains x.1)

/-- What a remote access waits for (R97, R107, R221): the split's fences, and for a release everything of the gang. -/
def remoteDeps (s : State) (key : Nat) (sp : Split) (k : RKind) (o : MemOrd) : List Nat :=
  let reads := match k with | .store _ => false | _ => true
  let writes := match k with | .load => false | _ => true
  ((if reads then sp.ldDeps else []) ++ (if writes then sp.stDeps else []) ++
    (if o == .rel || o == .ar then pendingOf s key else [])).eraseDups

/-- The older remote requests of a split to the line of a request, toward the same device (R136, R221). -/
def lineDeps (s : State) (key : Nat) (sp : Split) (r : RReq) : List Nat :=
  ((tentries s.rreqs).filter fun x => x.2.gang == key && (x.2.split == sp.uid || sp.elder.contains x.1) && !x.2.final &&
    x.2.dev == r.dev && x.2.ftid == r.ftid &&
    (x.2.elems.headD (0, 0)).2 / 128 == (r.elems.headD (0, 0)).2 / 128).map (·.1)

/-- The requests of a remote access: by peer in ascending order, then by sector (R87, R211, R216). -/
def splitRemote (g : Regs) (m : Lanes) (pa : PeerArg) (ix : Option VReg) (disp : BitVec 32) : List (Nat × List (Nat × Nat)) :=
  let es := (laneList m).map fun l => ((handleOf g pa l).1, l, (windowOff g pa ix disp l).toNat)
  let peers := (es.map (·.1)).foldl (fun l p => insertNat p l) []
  peers.flatMap fun p =>
    let mine := (es.filter fun e => e.1 == p).map (·.2)
    ((mine.map fun e => e.2 / 32).eraseDups).map fun sec => (p, mine.filter fun e => e.2 / 32 == sec)

/-- A remote access sent (R214 to R219). A returning form holds its gang until its statuses are in; a store
retires at once. -/
def sendRemote (s : State) (key : Nat) (g : Gang) (sp : Split) (m : Lanes) (pa : PeerArg) (ix : Option VReg)
    (disp : BitVec 32) (o : MemOrd) (r : RReq) (la : Nat) : State :=
  let ret := r.returns
  if m = 0 then retire s key g (if ret then openWindow sp 0 la true (destRegs r.dest).1 (destRegs r.dest).2 else sp) 12
  else
    match s.block? g.block with
    | none => s
    | some b =>
      match localCheck s b.ctx g.regs m pa ix disp r.size with
      | some (sub, bad) =>
        let off (l : Nat) : DWord := windowOff g.regs pa ix disp l
        (takeTrap s key tProtection sub 0 bad [off (lowest bad)] (some 12)).modGang key fun g' =>
          { g' with detail := (laneList bad).map fun l => (l, failDetail (off l) (handleOf g.regs pa l).1 sub) }
      | none =>
        let parts := splitRemote g.regs m pa ix disp
        let grp := s.uid
        let deps := remoteDeps s key sp r.kind o
        let rs := parts.zipIdx.map fun p =>
          let e := (peerEntry s b.ctx p.1.1).getD (0, 0)
          let q : RReq := { r with gang := key, split := sp.uid, dev := e.1, ftid := e.2, peer := p.1.1, elems := p.1.2,
                                   kind := kindPart r.kind (p.1.2.map (·.1)), group := grp, acq := o == .acq || o == .ar,
                                   chained := r.storeLike && chainOpen s key grp, since := s.cycle }
          (grp + p.2, { q with deps := deps ++ lineDeps s key sp q })
        let g := if ret then { g with hold := .remote grp la, regs := { g.regs with lcnt := g.regs.lcnt + 1 } }
          else { g with regs := { g.regs with scnt := g.regs.scnt + 1 } }
        let s := if ret then s.setGang key g else retire s key g sp 12
        let s := rs.foldl (fun (s : State) e => s.setRreq e.1 (some e.2)) { s with uid := grp + parts.length }
        rs.foldl (fun s e => trySend s e.1) s

/-- What a fabric access names and needs (R214). -/
def remoteUse (v : List Nat) (pa : PeerArg) (ix : Option VReg) (count : Nat) (long : Bool) : Use :=
  { v := v ++ (match pa with | .vec p => [p] | .uni _ => []) ++ (match ix with | some i => [i] | none => []),
    k := match pa with | .uni k => [k] | .vec _ => [],
    scope := some .system, count := count, throttled := true, long := long }

/-- Whether the entries of the peer table that a remote access reads can be reached (R406, R407). -/
def peersReady (s : State) (b : Block) (g : Regs) (m : Lanes) (pa : PeerArg) : Bool :=
  match s.ctx? b.ctx with
  | some c => (laneList m).all fun l => placesReady s (c.peert + 8 * (handleOf g pa l).1) 8
  | none => true

/-- The prologue of a remote access: it waits until the peer table can be read. -/
def issueRemote (s : State) (u : Use) (p : Pred) (pa : PeerArg) (body : State → Nat → Gang → Split → State) : Out :=
  issueWhen s u 12 (fun s _ g sp b => peersReady s b g.regs (activeLanes g sp p) pa) body

/-- RLD (R217). -/
def execRld (p : Pred) (w : Width) (t : Ty) (o : MemOrd) (d : VReg) (pa : PeerArg) (ix : Option VReg) (disp : BitVec 32)
    (la : Nat) (s : State) : Out :=
  issueRemote s (remoteUse (vr t d) pa ix 1 true) p pa fun s key g sp =>
    sendRemote s key g sp (activeLanes g sp p) pa ix disp o { blankRemote with
      kind := .load, sgn := tySigned t, size := widthBytes w t, dest := .vec d t.wide } la

/-- RST (R218). -/
def execRst (p : Pred) (w : Width) (t : Ty) (o : MemOrd) (c : VReg) (pa : PeerArg) (ix : Option VReg) (disp : BitVec 32)
    (s : State) : Out :=
  issueRemote s (remoteUse (widthRegs w t c) pa ix 2 false) p pa fun s key g sp =>
    let m := activeLanes g sp p
    let n := widthBytes w t
    sendRemote s key g sp m pa ix disp o { blankRemote with
      size := n, kind := .store ((laneList m).map fun l => (l, toBytes n (g.regs.lane t c l))) } 0

/-- RATOM (R219). -/
def execRatom (p : Pred) (op : Aop) (t : Ty) (o : MemOrd) (d : VReg) (pa : PeerArg) (ix : Option VReg) (disp : BitVec 32)
    (la : Nat) (s : State) : Out :=
  issueRemote s (remoteUse (atomRegs op t d) pa ix 1 true) p pa fun s key g sp =>
    let m := activeLanes g sp p
    let new := if op = .cas then d + (if t.wide then 2 else 1) else d
    sendRemote s key g sp m pa ix disp o { blankRemote with
      size := widthBytes .full t, dest := .vec d t.wide,
      kind := .atom op t ((laneList m).map fun l => (l, dw (g.regs.lane t new l), dw (g.regs.lane t d l))) } la

/-- RFENCE (R220). -/
def execRfence (chk : Bool) (s : State) : Out :=
  issueWhen s { scope := some .system } 8
    (fun s key _ _ _ => (tentries s.rreqs).all fun e => e.2.gang != key || e.2.final) fun s key g sp =>
    if chk && g.regs.errs != 0 then
      trapHere (s.modGang key fun g => { g with regs := { g.regs with errs := 0 } }) key sp tRemoteStore 0 8 []
    else retire (dropAhead s fun k _ => k == key) key g (applyFence s key .ar sp) 8

-- Answers and planes.

/-- The outstanding requests to a device. -/
def toDevice (s : State) (dev : Nat) : List Nat :=
  ((tentries s.rreqs).filter fun e => e.2.dev == dev && !e.2.final).map (·.1)

/-- PLANE_DEAD (R209, step 1). -/
def execPlaneDead (dev plane : Nat) (s : State) : Out := .next (killPlane s dev plane)

/-- The requests that a dead plane has not brought to its device: they are sent again after the remap, but for those of an
owner that no longer exists. -/
def unsend (s : State) (dev plane last : Nat) : State :=
  { s with rreqs := s.rreqs.filterMap fun e => match e.2 with
      | some r =>
        if r.dev = dev ∧ r.plane = plane ∧ r.sent ≠ 0 ∧ !r.final ∧ last < r.sent then
          if (s.gang? r.gang).isNone then none else some (e.1, some { r with sent := 0, since := s.cycle })
        else some e
      | none => some e }

/-- EPILOGUE (R136, R209, steps 2 to 4): what the target has not received of the dead plane is to be sent again, and the map
is rewritten once what it has received has been answered. -/
def execEpilogue (dev plane last : Nat) (s : State) : Out :=
  .next (if (survivor s dev).isNone || !s.fab.repair.any (fun x => x.1 == dev && x.2.1 == plane && !x.2.2.2) then s
    else
      let s := unsend s dev plane last
      let s := { s with fab := { s.fab with
        repair := s.fab.repair.map fun x => if x.1 = dev ∧ x.2.1 = plane then (x.1, x.2.1, x.2.2.1, true) else x } }
      let left := ((tentries s.rreqs).filter fun e => e.2.dev == dev && e.2.plane == plane && e.2.sent != 0 && !e.2.final).length
      sendWaiting (finishRepair (moveCredit s dev plane fun _ => left) dev))

/-- The shortest FABRIC hold limit of the partitions, in cycles (R166). -/
def fabricLimit (s : State) : Nat := 16 * (List.range 8).foldl (fun n p => min n (s.part p).fabric) 65535

/-- Requests in the order in which their planes report (R223): by plane, and then as they were issued. -/
def byPlane (s : State) (l : List Nat) : List Nat :=
  (List.range 4).flatMap fun p => l.filter fun u => match s.rreq? u with | some r => r.plane == p | none => false

/-- The requests to a device that have not been sent, with the planes on which they would go. -/
def noteUnsent (s : State) (dev : Nat) : State :=
  { s with rreqs := s.rreqs.map fun e => (e.1, e.2.map fun r =>
      if r.dev = dev ∧ r.sent = 0 then { r with plane := planeFor s dev ((r.elems.headD (0, 0)).2) } else r) }

/-- PEER_LOST (R209): with no epilogue in time, every outstanding request to the device fails and the device is
marked unreachable, as soon as the failures may be recorded (R223). -/
def execPeerLost (dev : Nat) (s : State) : Out :=
  .next (let s' := noteUnsent s dev
    if !s.fab.repair.any (fun x => x.1 == dev && !x.2.2.2 && decide (x.2.2.1 + fabricLimit s ≤ s.cycle)) ||
        (toDevice s' dev).any (fun u => match s'.rreq? u with
          | some r => !r.returns && !errorTurn s r.gang r.plane
          | none => false) then s
    else
      let s := s'
      let s := { s with fab := { s.fab with
        lost := insertNat dev s.fab.lost, repair := s.fab.repair.filter fun x => x.1 != dev } }
      (byPlane s (toDevice s dev)).foldl (fun s u => takeStatus s u (.fail .peerLost) []) s)

/-- PEER_REACHABLE (R209): the management controller marks a device reachable again that was marked unreachable, its planes with
it. -/
def execPeerReachable (dev : Nat) (s : State) : Out :=
  .next (if s.fab.lost.contains dev then
    sendWaiting { s with fab := { s.fab with
      lost := s.fab.lost.filter (· != dev), dead := s.fab.dead.filter fun x => x.1 != dev } }
  else s)

/-- The devices that requests on a plane may go to: those that the contexts' peer tables name, and those that have requests
outstanding. -/
def peersOf (s : State) : List Nat :=
  ((tentries s.ctxs).flatMap fun c => (List.range 1024).filterMap fun v => (peerEntry s c.1 v).map (·.1)) ++
    (tentries s.rreqs).map (·.2.dev) |>.eraseDups

/-- A plane dead toward every peer that is reached through its link (R209, R210). -/
def killLink (s : State) (plane : Nat) : State := (peersOf s).foldl (fun s d => killPlane s d plane) s

/-- A Sails link that goes down, trains or is disabled (R209, R210): 0, 1 or 4. One in MISMATCH is only trained again. A link
that enters DOWN is dead toward every peer. -/
def setLink (s : State) (plane st : Nat) : State :=
  let old := linkOf s plane
  if 4 ≤ plane ∨ ¬ (st = 0 ∨ st = 1 ∨ st = 4) ∨ (old.2.2.2 = 3 ∧ st ≠ 1) then s
  else
    let s := { s with fab := { s.fab with fplink := tput (0, 0, 0, 0) s.fab.fplink plane (old.1, old.2.1, old.2.2.1, st) } }
    if st = 0 ∧ old.2.2.2 ≠ 0 then killLink { s with fab := { s.fab with fell := insertNat plane s.fab.fell } } plane else s

/-- LINK_TRAINING (R210): both ends agree and the link is up, or it is in MISMATCH and the plane is dead toward every peer.
DESIGN CHOICE (log 57): SPEED and WIDTH keep their old values in MISMATCH, and a training that brings the link up ends the
plane's death toward every device whose repair is over. -/
def execLinkTraining (plane : Nat) (here there : LinkView) (s : State) : Out :=
  .next (
    let old := linkOf s plane
    let again := min (old.1 + (if s.fab.trained.contains plane then 1 else 0)) 65535
    let s := { s with fab := { s.fab with trained := insertNat plane s.fab.trained } }
    let w := if here.width = 8 then 1 else 0
    if here = there then
      sendWaiting { s with fab := { s.fab with
        fplink := tput (0, 0, 0, 0) s.fab.fplink plane (again, here.speed, w, 2), fell := s.fab.fell.filter (· != plane),
        dead := s.fab.dead.filter fun x => x.2 != plane || s.fab.repair.any fun y => y.1 == x.1 && y.2.1 == plane } }
    else
      killLink { s with fab := { s.fab with fplink := tput (0, 0, 0, 0) s.fab.fplink plane (again, old.2.1, old.2.2.1, 3) } } plane)

-- Requests from other devices (R206, R207).

/-- A window table entry (R206): VBASE, SIZE, CTXID and PERM. -/
def windowEntry (s : State) (ftid : Nat) : Option (DWord × Nat × Nat × Nat) :=
  if s.pf.wtbase = 0 then none
  else
    let a := s.pf.wtbase + 16 * ftid
    let size := s.readPhys (a + 8) 4
    let perm := s.readPhys (a + 14) 1
    if perm < 128 ∨ size = 0 then none else some (dw (s.readPhys a 8), size, s.readPhys (a + 12) 2, perm)

/-- An answer sent to another device. -/
def answerRemote (s : State) (tag : Nat) (st : RStatus) (data : List (Nat × DWord)) : State :=
  { s with fab := { s.fab with out := s.fab.out ++ [(tag, st, data)] } }

/-- The elements of a remote request performed at their places, in ascending lane order (R207, R219). -/
def performRemote (s : State) (r : RemoteIn) (es : List (Nat × Loc)) : State × List (Nat × DWord) :=
  es.foldl (fun (acc : State × List (Nat × DWord)) e =>
    let s := acc.1
    match r.kind with
    | .load => (s, acc.2 ++ [(e.1, dw (s.readLoc e.2 r.size))])
    | .store d =>
      match d.find? fun x => x.1 == e.1 with
      | some x => (writeElem s e.2 r.size (leValue (fun i => x.2.getD i 0) r.size), acc.2)
      | none => acc
    | .atom op t ops =>
      match ops.find? fun x => x.1 == e.1 with
      | some x =>
        let old := s.readLoc e.2 r.size
        (writeElem s e.2 r.size (atomNew op t r.size old (x.2.1.toNat % 256 ^ r.size) (x.2.2.toNat % 256 ^ r.size)),
          acc.2 ++ [(e.1, dw old)])
      | none => acc) (s, [])

/-- A request to a window of this device (R207): the checks in order, and what is answered. DESIGN CHOICE (log 58): a window
whose CTXID names no context finds no translation, and every request to it is answered RETRY. One that the queues here have
`held` for their limits has RETRY where the row for it stands; else nothing is answered while a queue holds it. DESIGN CHOICE
(log 39): the record of an absent page is that of a walker complex, the one of the plane's number. -/
def serveRemote (s : State) (r : RemoteIn) (held : Bool) : Option (State × RStatus × List (Nat × DWord)) :=
  if s.pf.wtbase != 0 && !placesReady s (s.pf.wtbase + 16 * r.ftid) 16 then (if held then some (s, .retry, []) else none)
  else match windowEntry s r.ftid with
    | none => some (s, .fail .noWindow, [])
    | some (base, size, ctx, perm) =>
      let rd := match r.kind with | .store _ => false | _ => true
      let w := match r.kind with | .load => false | _ => true
      let atom := match r.kind with | .atom _ _ _ => true | _ => false
      if r.elems.any fun e => decide (size * 65536 ≤ e.2) then some (s, .fail .bound, [])
      else if (if atom then !perm.testBit 2 else if w then !perm.testBit 1 else !perm.testBit 0) then
        some (s, .fail .permission, [])
      else
        let cs := r.elems.map fun e => checkGlobal s hubUnit ctx rd w (base + dw e.2)
        match decideChecks (r.elems.map fun e => (e.1, base + dw e.2)) cs with
        | .protect _ _ _ => some (s, .fail .targetFault, [])
        | .walk vs => some (startWalks s hubUnit ctx vs, .retry, [])
        | .park st pages =>
          some ((postPage s { baseRec s 0 ctx with src := 0x240 + r.plane % 4 } ctx st (4 + r.ftid * 65536) pages).1, .retry, [])
        | .proceed ls =>
          let n := if atom then 2 * r.elems.length else 1
          if held then some (s, .retry, [])
          else if !ls.all fun l => placeOpen s (ctxVf s ctx) l n then none
          else
            let es := r.elems.zip ls |>.map fun x => (x.1.1, x.2)
            let whole := !rd && coversSector (es.map fun e => ⟨e.1, 0, e.2, r.size, 0, 0⟩)
            let sec := sectorOf ((ls.headD ⟨false, 0, 0, 0⟩).addr)
            let x := if whole then (clearPoison s sec, false) else sectorRead s sec
            if x.2 then some (x.1, .fail .dataErr, [])
            else
              let s := chargeSlots (arrivalServed x.1 (ctxVf s ctx) (sec * 32) n) ctx 0 (sec * 32) n
              let s := carryLink (if w then dropCopies s (sec / 4) none else s) (r.plane % 4) ctx 0
              let q := performRemote s r es
              some (q.1, .ok, q.2)

/-- A request of another device served and answered (R207). -/
def takeRemote (s : State) (r : RemoteIn) (held : Bool) : State :=
  match serveRemote s r held with
  | some q => answerRemote q.1 r.tag q.2.1 q.2.2
  | none => s

/-- REMOTE_REQUEST (R207). -/
def execRemoteRequest (r : RemoteIn) (s : State) : Out := .next (takeRemote s r false)

/-- Another device's request that the queues here have held for their limits (R207). -/
def holdRemote (s : State) (i : Instr) : State :=
  match i with
  | .remoteRequest r => takeRemote s r true
  | _ => s

/-- A request of this device as its own hub receives it on the loopback path (R204). -/
def loopback (u : Nat) (r : RReq) : RemoteIn :=
  { src := r.dev, plane := r.plane, tag := u, ftid := r.ftid, size := r.size, elems := r.elems, kind := r.kind }

/-- REMOTE_RESPONSE (R204, R207, R213, R217 to R219): the status of a request, or values of lanes that follow an OK. A request
to the device itself is served here; a RETRY stands for queues that have held it for their limits. -/
def execRemoteResponse (req : Nat) (lanes : Lanes) (st : RStatus) (data : List (Nat × DWord)) (s : State) : Out :=
  .next (
    let s := trySend s req
    match s.rreq? req with
    | none => s
    | some r =>
      let mine := data.filter fun x => inLanes lanes x.1 && r.elems.any (fun e => e.1 == x.1) &&
        !r.results.any (fun y => y.1 == x.1)
      if r.sent = 0 then s
      else if r.final then
        if r.failure.isSome || !r.returns || s.fab.self == some r.dev then s
        else settleGroup (s.setRreq req (some { r with results := r.results ++ mine })) r.gang r.group
      else if !r.returns && !errorTurn s r.gang r.plane then s
      else if s.fab.self == some r.dev then
        match serveRemote s (loopback req r) (st == .retry) with
        | some q => sendWaiting (takeStatus q.1 req q.2.1 q.2.2)
        | none => s
      else sendWaiting (takeStatus s req st (if r.returns then mine else [])))

-- Launch packets (R225).

/-- A packet discarded (R402): the FTID's rejection count rises, and the sender has its NAK. -/
def rejectPacket (s : State) (ftid : Nat) : State :=
  let a := s.pf.ltbase + 512 * ftid + 0x1C
  let n := s.readPhys a 4
  let s := if s.pf.ltbase = 0 then s else writeHome s a (toBytes 4 (min (n + 1) 4294967295))
  { s with fab := { s.fab with naks := s.fab.naks ++ [1] } }

/-- Whether a queue's context is of the virtual function of an FTID (R225): that of the context which the FTID's window entry
names (log 59). -/
def tenantOwns (s : State) (ftid ctx : Nat) : Bool :=
  match s.ctx? ctx, (windowEntry s ftid).bind fun w => s.ctx? w.2.2.1 with
  | some c, some d => c.vf == d.vf
  | _, _ => false

/-- Whether the launch table accepts a packet (R225). -/
def packetOk (s : State) (k : Packet) : Bool :=
  let a := s.pf.ltbase + 512 * k.ftid + 32 * k.keyId
  let ctl := dw (s.readPhys (a + 0x18) 4)
  let q := s.queue k.queue
  s.pf.ltbase != 0 && decide (k.keyId < 16) && k.rsv0 == 0 && k.rsv1 == 0 && bitOf ctl 31 && decide (k.queue = bitsOf ctl 9 0) &&
    q.en && !q.halt && tenantOwns s k.ftid q.ctx &&
    k.record.toNat % 128 == 0 && decide (s.readPhys a 8 ≤ k.record.toNat) && decide (k.record.toNat ≤ s.readPhys (a + 8) 8) &&
    k.compl.toNat % 64 == 0 && k.key == dw (s.readPhys (a + 0x10) 8)

/-- Whether a packet's port, the launch table, the window table and its entry's ring slot can be reached (R345, R401, R407): until
then it waits. -/
def packetOpen (s : State) (k : Packet) : Bool :=
  let q := s.queue k.queue
  (s.pf.ready.contains (.port 8) || s.pf.ready.contains (.port 9)) &&
    (s.pf.ltbase == 0 || placesReady s (s.pf.ltbase + 512 * k.ftid) 512) &&
    (s.pf.wtbase == 0 || placesReady s (s.pf.wtbase + 16 * k.ftid) 16) &&
    (!packetOk s k || hubOpen s q.ctx (q.qbase + dw (64 * (q.tail.toNat % 2 ^ q.log2n))))

/-- The link that has carried a packet's 64 bytes (R352): either 800GbE port that is ready. -/
def carryPacket (s : State) (ctx : Nat) : State :=
  let link := if s.pf.ready.contains (.port 8) then 8 else 9
  carryLink (carryLink s link ctx 0) link ctx 0

/-- LAUNCH_PACKET (R225): accepted into its queue's ring, or answered with a NAK: 1 access error, 2 RNR, 3
operational error. -/
def execLaunchPacket (k : Packet) (s : State) : Out :=
  .next (
    if !packetOpen s k then s
    else if !packetOk s k then rejectPacket s k.ftid
    else
      let s := carryPacket s (s.queue k.queue).ctx
      let q := s.queue k.queue
      let nak (s : State) (n : Nat) : State := { s with fab := { s.fab with naks := s.fab.naks ++ [n] } }
      if (q.tail - q.head).toNat = 2 ^ q.log2n then nak s 2
      else
        let va := q.qbase + dw (64 * (q.tail.toNat % 2 ^ q.log2n))
        match hubPlace s q.ctx va with
        | .ok l =>
          let s := hubWrite s l q.ctx (toBytes 8 k.record.toNat ++ toBytes 8 k.compl.toNat ++ toBytes 48 0)
          s.setQueue k.queue { q with tail := q.tail + 1, pending := true }
        | .absent st pg => nak (postPage s (baseRec s 0 q.ctx) q.ctx st 5 [pg]).1 3
        | _ => nak (notice s 64 q.ctx 9 0 (dw k.queue) [va]) 3)

end Sys2Proof.Machine
end

