-- ==== Sys2Proof/Machine/Matrix.lean ====
section
/-! DEFINITION. The matrix engine (R282 to R309): reservations, the filling of panels, the multiplication with
its exact chunk sums, batches, and the accumulator instructions. An instruction of the matrix stream takes its
effect when it issues; multicast deliveries and batches complete later. -/

namespace Sys2Proof.Machine

/-- Causes of ENGINE_FAULT (R284). -/
def eNores : Nat := 1
def eMfmt : Nat := 2
def eMrange : Nat := 3
def eMtile : Nat := 4

/-- A precise ENGINE_FAULT of the issuing gang (R284). -/
def engTrap (s : State) (key : Nat) (sp : Split) (cause size : Nat) : State := trapHere s key sp tEngine cause size []

/-- What an instruction of the matrix engine needs (R282). -/
def matUse : Use := { coll := true }

/-- The units of an operand-buffer bank and the tiles of an accumulator bank (R284, R285). -/
def bankUnits (s : State) (b : Block) : Nat := if (s.part (partOf b.core)).shadow then 512 else 1024
def bankTiles (s : State) (b : Block) : Nat := if (s.part (partOf b.core)).shadow then 16 else 32

/-- A reservation of a gang. -/
def Gang.reserv (g : Gang) (id : Nat) : Option Reserv := tget none g.mat.res id

-- The operand buffer.

/-- Bytes of the operand buffer in which a gang's quarter and bank lie. -/
def obase (b : Block) (idx : Nat) : Nat := opKey b.core (quarterOf b idx) b.bank 0

/-- The first byte of chunk j, line l of a reservation (R285). -/
def chunkByte (r : Reserv) (j l : Nat) : Nat := 64 * r.base + j * 64 * r.t.chunkUnits + l * r.t.chunkUnits

/-- The scale byte of chunk j, line l (R285). -/
def scaleByte (r : Reserv) (j l : Nat) : Nat := 64 * r.sbase + 64 * j + l

/-- Bytes written to rising places of the operand buffer. -/
def writeOp (s : State) (l : List (Nat × Byte)) : State := l.foldr (fun e s => s.setObyte e.1 e.2) s

/-- A range of operand-buffer bytes cleared. -/
def clearOp (s : State) (a n : Nat) : State :=
  { s with core := { s.core with opbuf := s.core.opbuf.filter fun e => !(decide (a ≤ e.1) && decide (e.1 < a + n)) } }

/-- Presence bits set or cleared (R287, R293). -/
def setPresence (p : BitVec 64) (c n : Nat) (f : Nat → Bool) : BitVec 64 :=
  laneSet fun j => if decide (c ≤ j) && decide (j < c + n) then f j else p.getLsbD j

/-- A gang's reservation changed. -/
def Gang.setReserv (g : Gang) (id : Nat) (r : Option Reserv) : Gang :=
  { g with mat := { g.mat with res := tput none g.mat.res id r } }

-- The open batch.

/-- A batch with nothing in it yet. -/
def blankBatch : Batch := { split := 0, flags := 0, fpx := 0, drop := 0, gerr := false }

/-- An instruction joins the gang's open batch (R300): its flags, those enabled at issue, and a gather error. -/
def joinBatch (g : Gang) (flags : Nat) (gerr : Bool) : Gang :=
  let b := g.mat.opened.getD blankBatch
  { g with mat := { g.mat with opened := some { b with
      flags := b.flags ||| flags, fpx := b.fpx ||| (flags &&& enabledFlags g.regs), gerr := b.gerr || gerr } } }

/-- A batch of a gang changed, open or closed. -/
def Gang.modBatch (g : Gang) (n : Nat) (f : Batch → Batch) : Gang :=
  if g.mat.top < n then { g with mat := { g.mat with opened := g.mat.opened.map f } }
  else { g with mat := { g.mat with closed := g.mat.closed.map fun e => if e.1 = n then (e.1, e.2.map f) else e } }

-- Reservations.

/-- The ranges that a reservation takes, in units: where each begins and its length (R287). -/
def reservRanges (r : Reserv) : List (Nat × Nat) := (r.base, r.len) :: (if r.mx then [(r.sbase, r.ncap)] else [])

/-- Whether two ranges share a place: an empty one shares none. -/
def rangesMeet (a b : Nat × Nat) : Bool :=
  a.2 != 0 && b.2 != 0 && decide (a.1 < b.1 + b.2) && decide (b.1 < a.1 + a.2)

/-- The reservations that gangs of a core's quarter and bank hold, with their ids (R287). -/
def heldReservs (s : State) (core quarter bank : Nat) : List (Nat × Reserv) :=
  (tentries s.gangs).flatMap fun e =>
    match s.block? e.2.block with
    | some b => if b.core == core && b.bank == bank && b.resident && quarterOf b e.2.idx == quarter then tentries e.2.mat.res else []
    | none => []

/-- The status that MRES writes (R287). -/
def mresStatus (s : State) (b : Block) (g : Gang) (id : Nat) (r : Reserv) : Nat :=
  let held := heldReservs s b.core (quarterOf b g.idx) b.bank
  let mine := reservRanges r
  if (g.reserv id).isSome then 3
  else if mine.any fun x => decide (bankUnits s b < x.1 + x.2) then 1
  else if (r.mx && rangesMeet (r.base, r.len) (r.sbase, r.ncap)) ||
      held.any (fun h => (reservRanges h.2).any fun x => mine.any (rangesMeet x)) then 2
  else if r.recv && held.any (fun h => h.1 == id && h.2.recv) then 4
  else 0

/-- MRES (R286, R287). -/
def execMres (mx recv : Bool) (t : Ty) (d : KReg) (id base len sbase : Nat) (s : State) : Out :=
  issue s { matUse with k := [d] } 12 fun s key g sp =>
    match s.block? g.block with
    | none => s
    | some b =>
      let r : Reserv := { t := t, mx := mx, recv := recv, base := base, len := len, sbase := sbase,
                          ncap := len / t.chunkUnits, presence := BitVec.allOnes 64 }
      let st := mresStatus s b g id r
      if st ≠ 0 then retire s key (g.kset d (dw st)) sp 12
      else
        let o := obase b g.idx
        let s := clearOp s (o + 64 * base) (64 * len)
        let s := if mx then writeOp s ((List.range (64 * r.ncap)).map fun i => (o + 64 * sbase + i, 0x7F)) else s
        retire s key ((g.setReserv id (some r)).kset d 0) sp 12

/-- MREL (R288). -/
def execMrel (mask : BitVec 8) (s : State) : Out :=
  issue s matUse 8 fun s key g sp =>
    retire s key { g with mat := { g.mat with res := g.mat.res.filter fun e => !mask.getLsbD e.1 } } sp 8

-- Memory that a matrix instruction touches at issue.

/-- The checks of an instruction of the engine decided over all its addresses (R85, R86, R290): they pass, it
traps, or the gang holds it back for a walk or an absent page. -/
def touch (s : State) (key : Nat) (g : Gang) (sp : Split) (b : Block) (space : Space) (w : Bool) (size len : Nat)
    (eas : List DWord) (k : List Loc → State) : State :=
  match decideChecks (eas.map fun a => (0, a)) (eas.map fun a => checkElem s b space (!w) w size a) with
  | .proceed ls => k ls
  | .protect sub _ ea => takeTrap s key tProtection sub 0 sp.exm [ea] (some len)
  | .walk vs => (startWalks s b.core b.ctx vs).modGang key fun g => { g with hold := .walk 0 }
  | .park st pages =>
    let q := postPage s { gangRec s 0 key g with lanes := sp.exm } b.ctx st 0 pages
    q.1.modGang key fun g => { g with hold := .park 0 q.2.1 q.2.2 s.cycle false }

/-- Whether an engine may take an instruction of a gang that touches memory: its overflow area has a place (R170), and, where
the engine acts at issue, what the translated addresses name is ready (R345, R407). -/
def homesReady (s : State) (key : Nat) (g : Gang) (b : Block) (space : Space) (w : Bool) (size : Nat) (eas : List DWord) : Bool :=
  decide (engBounced s g.block < engineEntries) && (g.sched.defer || space != .global ||
    engOpen s key 0 none w (eas.filterMap fun a => match checkElem s b space (!w) w size a with
      | .ok l => some l
      | _ => none))

/-- The sectors of locations read by an engine for a gang (R80, R345): those found poisoned are named (R402, R403). -/
def readSectorsOf (s : State) (key : Nat) (ls : List Loc) : State × List Nat :=
  (globalSectors ls).foldl (fun (x : State × List Nat) sec =>
    if l1Holds x.1 (keyCore s key) false false sec then x
    else
      let r := sectorRead x.1 sec
      if r.2 then (r.1, x.2 ++ [sec]) else (takeSector r.1 key false false sec, x.2)) (s, [])

/-- The lanes of a gang's split that records about it name (R382). -/
def splitExm (s : State) (key split : Nat) : Lanes :=
  match s.gang? key with
  | some g => ((g.splitList.map (·.2) ++ g.deferred).find? fun sp => sp.uid == split).elim 0 (·.exm)
  | none => 0

/-- An instruction of a gang whose accesses wait at the engine's queue (R168, R283): the engine's own entry; `stores` is what
its multicast deliveries wait for (R107, R292). -/
def enterEngine (s : State) (key split : Nat) (goal : EngGoal) (batch : Nat) (space : Space) (size : Nat) (eas : List DWord)
    (locs : List Loc) (stores : List Nat) : State :=
  let x : EngOp :=
    { gang := key, split := split, goal := goal, batch := batch, space := space, size := size, eas := eas, locs := locs,
      deps := [], bounces := 0, bounced := false, cause := 0, since := s.cycle, stores := stores }
  ({ s with uid := s.uid + 1 + (x.copies s.uid).length } : State).setEngOp s.uid (some x)

/-- The source addresses of an MLD, line by line and chunk by chunk, in pieces of `size` bytes (R289). -/
def mldAddrs (a : DWord) (lstr nch size per : Nat) : List DWord :=
  (List.range 64).flatMap fun l => (List.range nch).flatMap fun j =>
    (List.range per).map fun i => a + dw (l * lstr + j * (size * per) + i * size)

/-- Where the bytes of an MLD land in a reservation, in the same order (R285, R289). -/
def mldPlaces (r : Reserv) (scl : Bool) (c0 nch : Nat) : List Nat :=
  (List.range 64).flatMap fun l => (List.range nch).flatMap fun j =>
    if scl then [scaleByte r (c0 + j) l]
    else (List.range r.t.chunkUnits).map fun i => chunkByte r (c0 + j) l + i

/-- What an MLD's uniform operands say (R289). -/
structure MldArgs where
  a : DWord
  lstr : Nat
  c0 : Nat
  nch : Nat

def mldArgs (g : Gang) (kb : KReg) (disp : BitVec 32) (ks : KReg) : MldArgs :=
  let k := g.kget ks
  { a := g.kget kb + sx32 disp, lstr := bitsOf k 31 0, c0 := bitsOf k 39 32, nch := bitsOf k 47 40 }

/-- The cause that an MLD's operands give, if any (R289). -/
def mldCause (g : Gang) (scl : Bool) (id : Nat) (k : DWord) (x : MldArgs) : Option Nat :=
  match g.reserv id with
  | none => some eNores
  | some r =>
    if bitsOf k 63 48 ≠ 0 ∨ x.nch = 0 ∨ 64 < x.nch ∨ (!scl ∧ (x.a.toNat % 4 ≠ 0 ∨ x.lstr % 4 ≠ 0)) then some eMarg
    else if scl && !r.mx then some eMfmt
    else if r.ncap < x.c0 + x.nch then some eMrange
    else none

/-- The addresses an MLD reads with their size. -/
def mldReads (r : Reserv) (scl : Bool) (x : MldArgs) : Nat × List DWord :=
  if scl then (1, mldAddrs x.a x.lstr x.nch 1 1) else (4, mldAddrs x.a x.lstr x.nch 4 (r.t.chunkUnits / 4))

/-- Bytes loaded into a reservation, with its presence bits (R289). -/
def fillReserv (s : State) (key id : Nat) (b : Block) (scl : Bool) (c0 nch : Nat) (bytes : List Byte) : State :=
  match s.gang? key with
  | none => s
  | some g =>
    match g.reserv id with
    | none => s
    | some r =>
      let o := obase b g.idx
      let s := writeOp s (((mldPlaces r scl c0 nch).map (o + ·)).zip bytes)
      s.setGang key (g.setReserv id (some { r with presence := setPresence r.presence c0 nch fun _ => true }))

/-- The multicast copies of an MLD: one for each named position but the issuer's own (R291). -/
def mldCopies (x : EngOp) (u : Nat) (b : Block) (r : Reserv) (scl : Bool) (id c0 nch : Nat) (cmask : BitVec 8)
    (bytes : List Byte) : List Delivery :=
  ((List.range 8).filter fun p => cmask.getLsbD p && p != b.core % 8).map fun p =>
    { uid := u + 1 + p, gang := x.gang, batch := x.batch, core := b.core / 8 * 8 + p, pos := p, id := id, t := r.t, mx := r.mx,
      c0 := c0, nch := nch, scale := scl, bytes := bytes, deps := x.stores }

/-- The reads of an MLD made, and its bytes in the reservation (R289 to R292): the copies of a multicast are on their way, each
with a number of its own, as a store of the gang; poison leaves an ENGINE_FAULT (R403). -/
def fillFrom (s : State) (u : Nat) (x : EngOp) (b : Block) (scl mc : Bool) (id c0 nch : Nat) (cmask : BitVec 8) : State :=
  let q := readSectorsOf s x.gang x.locs
  match q.2 with
  | sec :: _ =>
    endTraps (pendTrap q.1 x.gang { cause := tEngine, sub := ePoison, aux := 0, lanes := splitExm s x.gang x.split,
                                    addr := dw (sec * 32) }) x.gang
  | [] =>
    let r := engRead q.1 u x
    let s := fillReserv r.1 x.gang id b scl c0 nch r.2
    match mc, (s.gang? x.gang).bind (·.reserv id) with
    | true, some p => { s with deliveries := s.deliveries ++ mldCopies x u b p scl id c0 nch cmask r.2 }
    | _, _ => s

/-- MLD (R289 to R291). -/
def execMld (scl mc : Bool) (space : Space) (id : Nat) (kb : KReg) (disp : BitVec 32) (ks : KReg) (cmask : BitVec 8)
    (s : State) : Out :=
  issueWhen s { matUse with k := [kb, ks], reads := true } 12
    (fun s key g _ b =>
      let x := mldArgs g kb disp ks
      match mldCause g scl id (g.kget ks) x, g.reserv id with
      | none, some r => homesReady s key g b space false (mldReads r scl x).1 (mldReads r scl x).2
      | _, _ => true)
    fun s key g sp =>
      let x := mldArgs g kb disp ks
      match mldCause g scl id (g.kget ks) x with
      | some c => engTrap s key sp c 12
      | none =>
        match g.reserv id, s.block? g.block with
        | some r, some b =>
          let e := mldReads r scl x
          touch s key g sp b space false e.1 12 e.2 fun ls =>
            let u := s.uid
            let s := enterEngine (retire s key (joinBatch g 0 false) sp 12) key sp.uid (.fill scl mc id x.c0 x.nch cmask)
              (g.mat.top + 1) space e.1 e.2 ls (waitingOf s sp.stDeps)
            match g.sched.defer, s.engOp? u with
            | false, some op => fillFrom (s.setEngOp u none) u op b scl mc id x.c0 x.nch cmask
            | _, _ => s
        | _, _ => s

/-- The gang of a context that holds a fitting receiving reservation in the quarter a delivery targets (R291). -/
def receiverOf (s : State) (x : Delivery) (ctx quarter bank : Nat) : Option (Nat × Block) :=
  ((tentries s.gangs).filterMap fun e =>
    match s.block? e.2.block with
    | some b =>
      match e.2.reserv x.id with
      | some r =>
        if b.core == x.core && b.ctx == ctx && b.resident && quarterOf b e.2.idx == quarter && b.bank == bank
            && r.recv && r.t == x.t && r.mx == x.mx && decide (x.c0 + x.nch ≤ r.ncap)
        then some (e.1, b) else none
      | none => none
    | none => none).head?

/-- A discarded delivery noted in the batch of its MLD (R291, R302). -/
def noteDrop (g : Gang) (x : Delivery) : Gang :=
  g.modBatch x.batch fun b => { b with drop := b.drop ||| BitVec.ofNat 8 (2 ^ x.pos) }

/-- The gang that receives a delivery now, with its block (R291). -/
def deliveryTo (s : State) (x : Delivery) : Option (Nat × Block) :=
  match s.block? (x.gang / 16) with
  | none => none
  | some b =>
    receiverOf s x b.ctx (quarterOf b (x.gang % 16)) (if (s.part (partOf x.core)).shadow then (s.part (partOf x.core)).fg else 0)

/-- The bytes of a delivery with their places in the receiver's reservation. -/
def deliveryBytes (r : Reserv) (x : Delivery) : List (Nat × Byte) := (mldPlaces r x.scale x.c0 x.nch).zip x.bytes

/-- A delivery written to its receiver, but for the words that have arrived before, or discarded (R291, R292). -/
def deliver (s : State) (x : Delivery) : State :=
  match deliveryTo s x with
  | some (k, b) =>
    match s.gang? k with
    | none => s
    | some g => match g.reserv x.id with
      | none => s
      | some r =>
        let o := obase b g.idx
        let s := writeOp s (((deliveryBytes r x).filter fun e => !x.landed.contains (e.1 / 4)).map fun e => (o + e.1, e.2))
        s.setGang k (g.setReserv x.id (some { r with presence := setPresence r.presence x.c0 x.nch fun _ => true }))
  | none => s.modGang x.gang fun g => noteDrop g x

/-- Whether a delivery may arrive (R107, R133, R292): the accesses that come before it have performed. -/
def mayArrive (s : State) (x : Delivery) : Bool := depsDone s x.deps && (gangRuns s x.gang || x.deps.isEmpty)

/-- MULTICAST_DELIVERY (R291, R292): the oldest delivery of a gang that may arrive does. -/
def execMulticastDelivery (gang : Nat) (s : State) : Out :=
  .next (match s.deliveries.find? fun x => x.gang == gang && mayArrive s x with
    | none => s
    | some x => deliver { s with deliveries := s.deliveries.erase x } x)

/-- Some words of a delivery arrive before the rest (R292): until the batch is complete, each word is old or new. -/
def deliverWords (s : State) (u : Nat) (words : List Nat) : State :=
  match s.deliveries.find? fun x => x.uid == u && mayArrive s x with
  | none => s
  | some x =>
    match deliveryTo s x with
    | none => s
    | some (k, b) =>
      match (s.gang? k).bind fun g => (g.reserv x.id).map fun r => (obase b g.idx, r) with
      | none => s
      | some (o, r) =>
        let s := writeOp s (((deliveryBytes r x).filter fun e => words.contains (e.1 / 4) && !x.landed.contains (e.1 / 4)).map
          fun e => (o + e.1, e.2))
        { s with deliveries := s.deliveries.map fun y => if y = x then { y with landed := y.landed ++ words } else y }

-- MGATH.

/-- A 4-byte word of a block's window, or nothing outside it (R294). -/
def winWord (s : State) (u key : Nat) (b : Block) (off : Nat) : Option Nat :=
  if off + 4 ≤ 256 * b.need.scratch then some (leValue (fun i => (scratchBytes s u key b off 4).getD i 0) 4) else none

/-- The element of a row's entry `e` (R293, R294): nothing for a column outside the panel; whether something
lay outside the window. -/
def gatherEntry (s : State) (u key : Nat) (b : Block) (cols vals cbase size e : Nat) : Option (Nat × List Byte) × Bool :=
  match winWord s u key b (cols + 4 * e) with
  | none => (none, true)
  | some c =>
    let n := (c + 4294967296 - cbase) % 4294967296
    if 64 ≤ n then (none, false)
    else if 256 * b.need.scratch < vals + e * size + size then (none, true)
    else (some (n, scratchBytes s u key b (vals + e * size) size), false)

/-- The entries of row k (R293, R294): line and bytes of each, in order, and whether the row had an error. Entries
whose column words all lie beyond the window are one error together. -/
def gatherRow (s : State) (u key : Nat) (b : Block) (rowp cols vals cbase size k : Nat) : List (Nat × List Byte) × Bool :=
  match winWord s u key b (rowp + 4 * k), winWord s u key b (rowp + 4 * k + 4) with
  | some p, some q =>
    if q < p then ([], true)
    else
      let top := (256 * b.need.scratch - cols) / 4
      let n := min q top - p
      let es := (List.range n).map fun i => gatherEntry s u key b cols vals cbase size (p + i)
      (es.filterMap (·.1), es.any (·.2) || decide (p + n < q))
  | _, _ => ([], true)

/-- The entries of a panel gathered into a reservation of a gang (R293, R294): the state, and whether something was
skipped. -/
def gatherInto (s : State) (u key : Nat) (b : Block) (g : Gang) (id : Nat) (r : Reserv) (rowp cols vals cbase rows c0 : Nat) :
    State × Gang × Bool :=
  let size := if r.t = .bf16x2 then 2 else 1
  let nc := (rows + 31) / 32
  let got := (List.range rows).map fun k => gatherRow s u key b rowp cols vals cbase size k
  let o := obase b g.idx
  let s1 := clearOp s (o + chunkByte r c0 0) (nc * 64 * r.t.chunkUnits)
  let s1 := got.zipIdx.foldl (fun (s : State) e => e.1.1.foldl (fun s x =>
    x.2.zipIdx.foldl (fun (s : State) y =>
      s.setObyte (o + chunkByte r (c0 + e.2 / 32) x.1 + e.2 % 32 * size + y.2) y.1) s) s) s1
  let hit (j : Nat) : Bool := (got.drop ((j - c0) * 32)).take 32 |>.any fun e => !e.1.isEmpty
  (s1, g.setReserv id (some { r with presence := setPresence r.presence c0 nc hit }), got.any (·.2))

/-- The bytes of a block's window that an engine reads marked in the stores of its gang that they come from (R127). -/
def markWindow (s : State) (u key sp : Nat) (b : Block) : State :=
  if b.need.scratch = 0 then s
  else markRead s u key sp ⟨0, 0, ⟨true, scrKey b.core b.bank b.scrbase, 0, 0⟩, 256 * b.need.scratch, 0, 0⟩

/-- MGATH (R293, R294). -/
def execMgath (id : Nat) (kb : KReg) (disp : BitVec 32) (s : State) : Out :=
  issueWhen s { matUse with k := [kb], reads := true } 12
    (fun s key g _ b => homesReady s key g b .scratch false 4 [])
    fun s key g sp =>
    let a := g.kget kb + sx32 disp
    match s.block? g.block, g.reserv id with
    | some b, some r =>
      let win := 256 * b.need.scratch
      let d (o n : Nat) : Nat := leValue (fun i => (scratchBytes s s.uid key b (a.toNat + o) n).getD i 0) n
      let size := if r.t = .bf16x2 then 2 else 1
      let rows := d 0x0C 4
      let c0 := d 0x14 4
      let nc := (rows + 31) / 32
      if r.t = .e2m1x8 then engTrap s key sp eMfmt 12
      else if a.toNat % 32 ≠ 0 then trapHere s key sp tProtection pAlign 12 [a]
      else if win < a.toNat + 32 then trapHere s key sp tProtection pBound 12 [a]
      else if d 0 4 % 4 ≠ 0 ∨ d 4 4 % 4 ≠ 0 ∨ d 8 4 % size ≠ 0 ∨ rows = 0 ∨ 2048 < rows ∨ d 0x18 8 ≠ 0 then
        engTrap s key sp eMarg 12
      else if r.ncap < c0 + nc then engTrap s key sp eMrange 12
      else
        let s := markWindow s s.uid key sp.uid b
        if g.sched.defer then
          enterEngine (retire s key (joinBatch g 0 false) sp 12) key sp.uid
            (.gather id (d 0 4) (d 4 4) (d 8 4) (d 0x10 4) rows c0) (g.mat.top + 1) .scratch 4 [] [] []
        else
          let x := gatherInto s s.uid key b g id r (d 0 4) (d 4 4) (d 8 4) (d 0x10 4) rows c0
          retire x.1 key (joinBatch x.2.1 0 x.2.2) sp 12
    | _, _ => engTrap s key sp eNores 12

-- MMA.

/-- An element's code of chunk j, line l (R285). -/
def elemCode (s : State) (o : Nat) (r : Reserv) (j l i : Nat) : Nat :=
  let a := o + chunkByte r j l
  match r.t with
  | .bf16x2 => (s.obyte (a + 2 * i)).toNat + 256 * (s.obyte (a + 2 * i + 1)).toNat
  | .e2m1x8 => (s.obyte (a + i / 2)).toNat / 16 ^ (i % 2) % 16
  | _ => (s.obyte (a + i)).toNat

/-- The value of an operand's code (R227, R229, R232). -/
def opValue (t : Ty) (x : Nat) : FV := if t = .d8x4 then d8Value x else unpack ((tyFmt t).getD fmtBf16) x

/-- A line of a chunk: its elements, NaN where the scale code is 0xFF, and its scale exponent (R244, R296). -/
def lineOf (s : State) (o : Nat) (r : Reserv) (j l : Nat) : List FV × Int :=
  let vs := (List.range 32).map fun i => opValue r.t (elemCode s o r j l i)
  if r.mx then
    let c := (s.obyte (o + scaleByte r j l)).toNat
    if c = 0xFF then (vs.map fun v => .nan v.snan, 0) else (vs, (c : Int) - 127)
  else (vs, 0)

/-- An exact product; `.nan true` stands for a NaN that sets IV (R296). -/
def exactMul (a b : FV) : FV :=
  match a, b with
  | .nan s, y => .nan (s || y.snan)
  | x, .nan t => .nan (t || x.snan)
  | .inf s, .inf t => .inf (s != t)
  | .inf s, .fin t n _ => if n = 0 then .nan true else .inf (s != t)
  | .fin s n _, .inf t => if n = 0 then .nan true else .inf (s != t)
  | .fin s n d, .fin t m e => .fin (s != t) (n * m) (d * e)

/-- An exact sum of signed fractions, with as small a denominator as one of them gives. -/
def addFrac (a : Int × Nat) (b : Int × Nat) : Int × Nat :=
  if a.2 = b.2 then (a.1 + b.1, a.2)
  else if b.2 % a.2 = 0 then (a.1 * (b.2 / a.2 : Nat) + b.1, b.2)
  else if a.2 % b.2 = 0 then (a.1 + b.1 * (a.2 / b.2 : Nat), a.2)
  else (a.1 * b.2 + b.1 * a.2, a.2 * b.2)

/-- The chunk sum of two lines (R296): an f32 code and its flags. -/
def chunkSum (a b : List FV × Int) : Nat × Nat :=
  let ps := List.zipWith exactMul a.1 b.1
  let pinf := ps.any (· == .inf false)
  let ninf := ps.any (· == .inf true)
  if ps.any FV.isNan || (pinf && ninf) then (fmtF32.qnan, if ps.any FV.snan || (pinf && ninf) then fIV else 0)
  else if pinf || ninf then (fmtF32.sign ninf + fmtF32.infCode, 0)
  else
    let t := ps.foldl (fun acc p => match p with
      | .fin s n d => if n = 0 then acc else addFrac acc (if s then -(n : Int) else n, d)
      | _ => acc) (0, 1)
    if t.1 = 0 then (fmtF32.sign (ps.all fun p => match p with | .fin s n _ => s && n == 0 | _ => false), 0)
    else
      let k := pow2 (a.2 + b.2)
      roundTo fmtF32 .rne false false (decide (t.1 < 0)) (t.1.natAbs * k.1) (t.2 * k.2)

/-- Whether an f32 code is finite. -/
def finite32 (x : Nat) : Bool := x / 8388608 % 256 != 255

/-- One chunk added to a tile element (R297): the pair and the flags of the update. -/
def tileStep (p : Word × Word) (x : Nat) : (Word × Word) × Nat :=
  let s := p.1.toNat
  let r := fAdd fmtF32 .rne false (unpack fmtF32 s) (unpack fmtF32 x)
  match unpack fmtF32 s, unpack fmtF32 x, unpack fmtF32 r.1 with
  | .fin sa na da, .fin sb nb db, .fin sc nc dc =>
    let sum := sumQ sa na da sb nb db
    let e := addFrac sum (if sc then (nc : Int) else -(nc : Int), dc)
    let c := fAdd fmtF32 .rne false (unpack fmtF32 p.2.toNat) (.fin (decide (e.1 < 0)) e.1.natAbs e.2)
    ((BitVec.ofNat 32 r.1, BitVec.ofNat 32 c.1), c.2)
  | _, _, _ => ((BitVec.ofNat 32 r.1, 0), r.2)

/-- One chunk of an MMA on a whole tile (R297): the tile and the flags. -/
def mmaChunk (as bs : List (List FV × Int)) (t : List (Word × Word) × Nat) : List (Word × Word) × Nat :=
  let r := t.1.zipIdx.map fun e =>
    let x := chunkSum (as.getD (e.2 / 64) ([], 0)) (bs.getD (e.2 % 64) ([], 0))
    let u := tileStep e.1 x.1
    (u.1, x.2 ||| u.2)
  (r.map (·.1), r.foldl (fun n e => n ||| e.2) t.2)

/-- The chunks of an MMA in increasing order (R297). -/
def mmaTile (s : State) (o : Nat) (ra rb : Reserv) (skip : Bool) (a0 b0 kc : Nat) (t : List (Word × Word)) :
    List (Word × Word) × Nat :=
  (List.range kc).foldl (fun acc j =>
    if skip && !(ra.presence.getLsbD (a0 + j) && rb.presence.getLsbD (b0 + j)) then acc
    else mmaChunk ((List.range 64).map (lineOf s o ra (a0 + j))) ((List.range 64).map (lineOf s o rb (b0 + j))) acc) (t, 0)

/-- Whether the formats of two panels combine (R295). -/
def formatsMeet (a b : Ty) : Bool :=
  let eight : List Ty := [.e4m3x4, .e5m2x4, .d8x4]
  (a == .bf16x2 && b == .bf16x2) || (a == .e2m1x8 && b == .e2m1x8) || (eight.contains a && eight.contains b)

/-- The key of a gang's tile. -/
def gangTile (b : Block) (idx tile : Nat) : Nat := tileKey b.core (quarterOf b idx) b.bank tile

/-- MMA (R295 to R299). -/
def execMma (skip z : Bool) (tile ra rb a0 b0 kcm1 : Nat) (s : State) : Out :=
  issue s matUse 12 fun s key g sp =>
    match s.block? g.block, g.reserv ra, g.reserv rb with
    | some b, some pa, some pb =>
      if pa.ncap < a0 + kcm1 + 1 ∨ pb.ncap < b0 + kcm1 + 1 then engTrap s key sp eMrange 12
      else if bankTiles s b ≤ tile then engTrap s key sp eMtile 12
      else if !formatsMeet pa.t pb.t then engTrap s key sp eMfmt 12
      else
        let k := gangTile b g.idx tile
        let r := mmaTile s (obase b g.idx) pa pb skip a0 b0 (kcm1 + 1) (if z then zeroTile else s.tile k)
        retire (s.setTile k g.block r.1) key (joinBatch g r.2 false) sp 12
    | _, _, _ => engTrap s key sp eNores 12

-- Batches.

/-- MBATCH (R300): a batch with nothing in it is complete at once if no earlier one is open. -/
def execMbatch (d : KReg) (s : State) : Out :=
  issue s { matUse with k := [d] } 8 fun s key g sp =>
    let n := g.mat.top + 1
    let mat := match g.mat.opened with
      | some b => { g.mat with opened := none, top := n, closed := tput none g.mat.closed n (some { b with split := sp.uid }) }
      | none =>
        if g.mat.closed.isEmpty then { g.mat with top := n }
        else { g.mat with top := n, closed := tput none g.mat.closed n (some { blankBatch with split := sp.uid }) }
    retire s key ({ g with mat := mat }.kset d (dw n)) sp 8

/-- BATCH_COMPLETE (R301, R302): a gang's lowest batch is complete once its deliveries have arrived. Its flags fold
into FSR, FPX goes to the split that closed it, and its status is collected. -/
def execBatchComplete (gang : Nat) (s : State) : Out :=
  .next (match s.gang? gang with
    | none => s
    | some g =>
      match tentries g.mat.closed with
      | [] => s
      | (n, b) :: _ =>
        if s.deliveries.any (fun x => x.gang == gang && x.batch == n) || (engPending s gang).any (fun x => x.2.batch == n) then s
        else
          let mat := { g.mat with
            closed := tput none g.mat.closed n none, drop := g.mat.drop ||| b.drop, gerr := g.mat.gerr || b.gerr }
          let mat := if g.live = 0 && mat.closed.isEmpty then { mat with res := [] } else mat
          let g := mergeFsr { g with mat := mat } b.flags
          s.setGang gang (if b.fpx = 0 then g else g.modSplit b.split fun sp =>
            addEffect sp 1 0 (flatPayload (BitVec.allOnes 64) b.fpx) true))

/-- Whether every batch up to a number has completed (R302). -/
def batchesDone (g : Gang) (n : Nat) : Bool :=
  (tentries g.mat.closed).all fun e => decide (min n g.mat.top < e.1)

/-- MWAIT (R302). -/
def execMwait (d a : KReg) (s : State) : Out :=
  issueWhen s { k := [d, a] } 8 (fun _ _ g _ _ => batchesDone g (g.kget a).toNat) fun s key g sp =>
    let v := g.mat.drop.toNat + if g.mat.gerr then 256 else 0
    retire s key ({ g with mat := { g.mat with drop := 0, gerr := false } }.kset d (dw v)) sp 8

-- The accumulator instructions.

/-- ACLR (R306). -/
def execAclr (a : KReg) (s : State) : Out :=
  issue s { matUse with k := [a] } 12 fun s key g sp =>
    match s.block? g.block with
    | none => s
    | some b =>
      let m := (g.kget a).toNat
      if 2 ^ bankTiles s b ≤ m then engTrap s key sp eMarg 12
      else
        let s := ((List.range 32).filter fun t => m.testBit t).foldl
          (fun s t => s.setTile (gangTile b g.idx t) g.block zeroTile) s
        retire s key (joinBatch g 0 false) sp 12

/-- A tile element as ARD and AST give it (R307): its code and flags. -/
def tileOut (t : Ty) (m : RMode) (sat nosat : Bool) (p : Word × Word) : Nat × Nat :=
  if t.wide then (p.1.toNat + 4294967296 * p.2.toNat, 0)
  else
    let v := fAdd fmtF32 .rne false (f32 p.1) (f32 p.2)
    if t = .f32 then
      if sat && v.1 % 2147483648 == fmtF32.infCode then
        (v.1 - fmtF32.infCode + fmtF32.maxCode, v.2 ||| fSAT)
      else v
    else
      let c := convert .f32 t m sat nosat false v.1
      (c.1, v.2 ||| c.2)

/-- A tile's element at a row and a column. -/
def tileElem (t : List (Word × Word)) (row col : Nat) : Word × Word := t.getD (64 * row + col) (0, 0)

/-- ARD (R307). -/
def execArd (rm : Rm) (sat nosat : Bool) (t : Ty) (d : VReg) (tile row : Nat) (la : Nat) (s : State) : Out :=
  issue s { matUse with v := vr t d, long := true } 12 fun s key g sp =>
    match s.block? g.block with
    | none => s
    | some b =>
      if bankTiles s b ≤ tile then engTrap s key sp eMtile 12
      else
        let x := s.tile (gangTile b g.idx tile)
        let f (l : Nat) : Nat × Nat :=
          packElts t.shape.1 (fun i => tileOut t (resolveRm g.regs rm) sat nosat (tileElem x (row + i) l)) t.shape.2
        startLong s key g sp la 12 (vr t d) [] (longLanes t.wide d sp.exm fun l => (f l).1) []
          ((laneList sp.exm).map fun l => (l, (f l).2))

/-- The check of an accumulator address (R305, R309): its PROTECTION subcause, if it fails. -/
def accCheck (s : State) (b : Block) (ea : DWord) (align : Nat) : Option Nat :=
  if ea.toNat % align ≠ 0 then some pAlign
  else if bankTiles s b ≤ ea.toNat / 32768 then some pBound
  else none

/-- AWR (R308). -/
def execAwr (t : Ty) (m : MemArg) (c : VReg) (s : State) : Out :=
  issue s { matUse with v := vr t c ++ (memUse m).1, k := (memUse m).2 } 12 fun s key g sp =>
    match s.block? g.block with
    | none => s
    | some b =>
      let bad := (laneList sp.exm).filterMap fun l => (accCheck s b (effAddr g.regs m l) 8).map fun c => (l, c)
      match bad with
      | (l, sub) :: _ =>
        takeTrap s key tProtection sub 0 (laneSet fun x => bad.any fun e => e.1 == x) [effAddr g.regs m l] (some 12)
      | [] =>
        let s := (laneList sp.exm).foldl (fun s l =>
          let ea := (effAddr g.regs m l).toNat
          let k := gangTile b g.idx (ea / 32768)
          let p := (lane (g.vget c) l, if t.wide then lane (g.vget (c + 1)) l else 0)
          s.setTile k g.block ((s.tile k).set (ea / 8 % 4096) p)) s
        retire s key (joinBatch g 0 false) sp 12

/-- Whether the accesses before them have performed, so that a split's stores at CORE scope may act at issue (R97, R107, R127,
R129, R133, R134): its fences and barriers, and what the gang has pending. -/
def storeReady (s : State) (key : Nat) (sp : Split) : Bool :=
  depsDone s sp.stDeps && (tentries s.reqs).all fun e => e.2.gang != key || e.2.allPerformed

/-- The destination space that AST's uniform operand names (R309). -/
def astSpace (kr : DWord) : Space :=
  match bitsOf kr 41 40 with
  | 0 => .global
  | 1 => .scratch
  | _ => .peer

/-- One sector's part of what an AST writes (R81, R309, R402): poison stops a part write, a whole write clears it. -/
def astSector (s : State) (key : Nat) (exm : Lanes) (es : List (Loc × Nat)) (size : Nat) : State :=
  let write (s : State) : State := es.foldl (fun s y => writeElem s y.1 size y.2) s
  match es with
  | [] => s
  | e :: _ =>
    let s := dropAhead s fun k y => k == key && y == e.1.sector
    if e.1.scr then write s
    else
      let sec := sectorOf e.1.addr
      let core := keyCore s key
      let whole := ((es.map fun x => x.1.addr).eraseDups).length * size == 32
      let here := l1Holds s core true whole sec
      let x := if whole then (clearPoison s sec, false) else if here then (s, false) else sectorRead s sec
      if x.2 then pendTrap x.1 key { cause := tProtection, sub := 11, aux := 0, lanes := exm, addr := dw (sec * 32) }
      else dirtyL1 (write (takeSector x.1 key true whole sec)) core (keyCtx s key) sec

/-- The elements of an AST written, sector by sector. -/
def astWrite (s : State) (key : Nat) (exm : Lanes) (size : Nat) (es : List (Loc × Nat)) : State :=
  (((es.map fun e => e.1.sector).eraseDups).map fun k => es.filter fun e => e.1.sector == k).foldl
    (fun s l => astSector s key exm l size) s

/-- AST (R309): its writes are stores of the split at CORE scope, made when it issues. -/
def execAst (rm : Rm) (sat nosat : Bool) (t : Ty) (km : KReg) (kb : KReg) (disp : BitVec 32) (kr : KReg) (s : State) : Out :=
  let size := if t.wide then 8 else 4
  let per := 64 / (if t.wide then 1 else t.shape.2)
  let addrs (g : Gang) : List DWord :=
    let k := g.kget kr
    (List.range (bitsOf k 37 32 + 1)).flatMap fun (i : Nat) => (List.range per).map fun w =>
      g.kget km + BitVec.ofInt 64 (i * ((k.truncate 32 : BitVec 32)).toInt) + dw (w * size)
  issueWhen s { matUse with k := [km, kb, kr] } 12
    (fun s key g sp b => storeReady s key sp && homesReady s key g b (astSpace (g.kget kr)) true size (addrs g))
    fun s key g sp =>
      match s.block? g.block with
      | none => s
      | some b =>
        let ea := g.kget kb + sx32 disp
        let k := g.kget kr
        let nr := bitsOf k 37 32 + 1
        let row := ea.toNat / 512 % 64
        match accCheck s b ea 512 with
        | some sub => trapHere s key sp tProtection sub 12 [ea]
        | none =>
          if bitsOf k 41 40 = 3 ∨ bitsOf k 39 38 ≠ 0 ∨ bitsOf k 63 42 ≠ 0 ∨ 64 < row + nr
              ∨ (g.kget km).toNat % size ≠ 0 ∨ bitsOf k 31 0 % size ≠ 0 then engTrap s key sp eMarg 12
          else touch s key g sp b (astSpace k) true size 12 (addrs g) fun ls =>
            let x := s.tile (gangTile b g.idx (ea.toNat / 32768))
            let out (i c : Nat) : Nat × Nat := tileOut t (resolveRm g.regs rm) sat nosat (tileElem x (row + i) c)
            let e := if t.wide then 1 else t.shape.2
            let word (i w : Nat) : Nat × Nat := packElts t.shape.1 (fun j => out i (w * e + j)) e
            let data := (List.range nr).map fun i => (List.range per).map (word i)
            let fl := data.foldl (fun n r => r.foldl (fun n x => n ||| x.2) n) 0
            let s := retire s key (joinBatch g fl false) sp 12
            let out := data.flatMap fun r => r.map (·.1)
            if g.sched.defer then
              enterEngine s key sp.uid (.rows out sp.exm) (g.mat.top + 1) (astSpace k) size (addrs g) ls []
            else astWrite s key sp.exm size (ls.zip out)

-- The engine's own entries (R168, R283).

/-- Whether no aged entry of a resource on its way goes before an engine's (R172). -/
def engAged (s : State) (u : Nat) (x : EngOp) : Bool :=
  agedLets s ((5 + 16 * keyCore s x.gang) :: ((globalSectors x.locs).filter fun sec =>
    !l1Holds s (keyCore s x.gang) x.writes false sec).flatMap fun sec => homeKeys (32 * sec)) u x.gang x.writes

/-- Whether an access of an engine reads word by word, the words in any order (R290, R321). -/
def EngOp.byWords (x : EngOp) : Bool :=
  match x.goal with
  | .fill .. => true
  | .codes .. => true
  | _ => false

/-- Some words of an entry of an engine are read before the rest (R290, R321): a later store of the gang gives each word its old
value or its new one. -/
def fetchWords (s : State) (u : Nat) (words : List Nat) : State :=
  match s.engOp? u with
  | none => s
  | some x =>
    let ws := words.eraseDups.filter fun k => decide (k < x.locs.length * x.per) && !x.got.any (·.1 == k)
    let ls := ws.filterMap fun k => x.locs[k / x.per]?
    if !x.byWords || ws.isEmpty || !engReady s u x || !engAged s u x || (globalSectors ls).any s.poisoned then s
    else
      let q := readSectorsOf s x.gang ls
      if !q.2.isEmpty then q.1
      else
        let s := ls.foldl (fun s l => markRead s u x.gang x.split ⟨0, 0, l, x.size, 0, 0⟩) q.1
        s.setEngOp u (some { x with got := x.got ++ ws.map fun k => (k, engWord s u x k) })

/-- An entry of an engine performs, if it can: its reads are put where they belong, or its rows are written (R168, R283, R289,
R293, R309, R321). -/
def performEng (s : State) (u : Nat) : State :=
  match s.engOp? u with
  | none => s
  | some x =>
    match s.gang? x.gang, s.block? (x.gang / 16) with
    | some g, some b =>
      if !engReady s u x || !engAged s u x then s
      else
        let s := ((unage (leaveQueues s x.gang (x.way.toList.map Place.stand)) u)).setEngOp u none
        match x.goal with
        | .fill scl mc id c0 nch cmask => fillFrom s u x b scl mc id c0 nch cmask
        | .rows data exm => astWrite s x.gang exm x.size (x.locs.zip data)
        | .gather id rowp cols vals cbase rows c0 =>
          match g.reserv id with
          | some r =>
            let q := gatherInto (markWindow s u x.gang x.split b) u x.gang b g id r rowp cols vals cbase rows c0
            q.1.setGang x.gang (q.2.1.modBatch x.batch fun k => { k with gerr := k.gerr || q.2.2 })
          | none => s
        | .codes mesh first =>
          let q := engRead s u x
          let a := q.1.array b.core
          drainArray 17 (q.1.setArray b.core { a with
            queue := a.queue.map fun op => if op = .await u then .load mesh first (rowsOf x.size x.eas.length q.2) else op }) b.core
    | _, _ => s

/-- A sector performs, an access to the engine window does, or one of an engine (REQUEST_PERFORM; R80, R112, R128, R168). -/
def execRequestPerform (req sector : Nat) (s : State) : Out :=
  .next (match s.req? req with
    | some r => if r.space = .engine then performEngine s req else performSector s req sector
    | none => performEng s req)

end Sys2Proof.Machine
end

