-- ==== Sys2Proof/Machine/Dispatcher.lean ====
section
/-! DEFINITION. Queues and the dispatcher (R20 to R33, R39, R151 to R157): kicks, taking and validating a launch,
wait conditions, placement, region staging, the start of gangs and the retirement of blocks. -/

namespace Sys2Proof.Machine

-- Kicks.

/-- The virtual function of a queue's context. -/
def queueVf (s : State) (q : HQueue) : Option Nat := (s.ctx? q.ctx).map (·.vf)

/-- The queues of a virtual function in ascending hardware number (R152): those whose CTXID names a context of it (R151),
enabled or not. -/
def vfQueues (s : State) (vf : Nat) : List Nat := (List.range 1024).filter fun n => queueVf s (s.queue n) == some vf

/-- Whether an enabled launch table entry names a queue (R226): CTL of an entry with EN = 1 has a byte that is
listed in memory. -/
def scaleOut (s : State) (q : Nat) : Bool :=
  s.pf.ltbase != 0 && s.mem.bytes.any fun e =>
    decide (s.pf.ltbase ≤ e.1) && decide (e.1 < s.pf.ltbase + 33554432) && (e.1 - s.pf.ltbase) % 32 == 0x1B &&
      bitOf (dw (s.readPhys (e.1 - 3) 4)) 31 && bitsOf (dw (s.readPhys (e.1 - 3) 4)) 9 0 == q

/-- KICK (R152, R154, R226): only an 8-byte write to the word of an owned queue does anything. -/
def execKick (vf word size : Nat) (v : DWord) (s : State) : Out :=
  .next (match (vfQueues s vf)[word]? with
    | none => s
    | some n =>
      if size ≠ 8 || scaleOut s n then s
      else s.setQueue n { s.queue n with tail := v.truncate 32, pending := true })

-- Contexts at work.

/-- Whether a context runs on a partition and may be given new blocks there (R154, R341, R342). -/
def runsOn (s : State) (ctx p : Nat) : Bool :=
  match (s.part p).turn with
  | some t => t.ctx == some ctx && t.draining.isNone && !(s.part p).urgent && (s.part p).flip.isNone
  | none => false

/-- Whether a context is scheduled and RUNNING (R154, R380). -/
def scheduled (s : State) (ctx : Nat) : Bool :=
  match s.ctx? ctx with
  | some c => c.state == .running && !c.stopping && (List.range 8).any (runsOn s ctx)
  | none => false

/-- The blocks of a launch's grid. -/
def LRec.total (r : LRec) : Nat := (r.gx + 1) * (r.gy + 1) * (r.gz + 1)

/-- Whether a launch still holds its queue (R156): it is not validated, or has a block left to place. -/
def Launch.holds (l : Launch) : Bool :=
  l.ended.isNone && (match l.body with | none => true | some r => decide (l.next < r.total))

/-- The launch at the front of a queue, if it still holds it. -/
def frontOf (s : State) (q : Nat) : Option (Nat × Launch) :=
  (tentries s.launches).find? fun e => e.2.queue == q && e.2.holds

-- Validation (R25).

/-- A launch that ends before or while its blocks run (R25, R26): its status and its NOTICE. -/
def endLaunch (s : State) (u st cause : Nat) (fail : Option DWord) : State :=
  match s.launch? u with
  | none => s
  | some l =>
    let l := { l with ended := some st }
    completeLaunch (launchNotice (s.setLaunch u l) l cause none fail) u

/-- The fields of a launch record at a place (R23), Reserved ones among them. -/
structure RawRec where
  entry : Nat
  args : Nat
  gx : Nat
  gy : Nat
  gz : Nat
  shape : DWord
  cfg : DWord
  wdlim : Nat
  counts : DWord
  regtab : Nat
  rsv : Nat
  waits : List (DWord × DWord)

def readRecord (s : State) (a : Nat) : RawRec :=
  { entry := s.readPhys a 8, args := s.readPhys (a + 8) 8, gx := s.readPhys (a + 16) 4, gy := s.readPhys (a + 20) 4,
    gz := s.readPhys (a + 24) 4, shape := dw (s.readPhys (a + 28) 4), cfg := dw (s.readPhys (a + 32) 8),
    wdlim := s.readPhys (a + 40) 4, counts := dw (s.readPhys (a + 44) 4), regtab := s.readPhys (a + 48) 8,
    rsv := s.readPhys (a + 56) 8,
    waits := (List.range 4).map fun i => (dw (s.readPhys (a + 64 + 16 * i) 8), dw (s.readPhys (a + 72 + 16 * i) 8)) }

def RawRec.nreg (r : RawRec) : Nat := bitsOf r.counts 6 3
def RawRec.nwait (r : RawRec) : Nat := bitsOf r.counts 2 0
def RawRec.scratch (r : RawRec) : Nat := bitsOf r.cfg 42 31

/-- The number of lanes of a shape (R21, R25). -/
def shapeLanes (x : DWord) : Nat := (bitsOf x 9 0 + 1) * (bitsOf x 19 10 + 1) * (bitsOf x 29 20 + 1)

/-- Whether a record breaks R25, its regions aside. -/
def badRecord (r : RawRec) : Bool :=
  bitsOf r.shape 31 30 != 0 || bitsOf r.cfg 63 60 != 0 || bitsOf r.cfg 14 0 != 0 || bitsOf r.counts 31 7 != 0 || r.rsv != 0 ||
    r.entry % 8 != 0 || decide (1024 < shapeLanes r.shape) || bitsOf r.cfg 23 15 == 0 || decide (256 < bitsOf r.cfg 23 15) ||
    decide (bitsOf r.cfg 30 24 < 4) || decide (64 < bitsOf r.cfg 30 24) || decide (2048 < r.scratch) ||
    decide (64 < bitsOf r.cfg 49 43) || decide (8 < r.nreg) || decide (4 < r.nwait) ||
    ((r.waits.take r.nwait).any fun w => decide (6 ≤ bitsOf w.1 2 0)) || (r.nreg != 0 && r.regtab % 16 != 0)

/-- The resources that a record asks for (R23). -/
def RawRec.need (r : RawRec) : Need :=
  { vregs := bitsOf r.cfg 23 15, kregs := bitsOf r.cfg 30 24, scratch := r.scratch, tags := bitsOf r.cfg 49 43,
    guards := bitsOf r.cfg 53 50, race := bitOf r.cfg 54, shadow := bitOf r.cfg 55, prio := bitsOf r.cfg 59 56, wdlim := r.wdlim }

/-- Whether regions break R24. -/
def badRegions (need : Need) (l : List Region) : Bool :=
  (l.any fun r => r.gaddr % 4 != 0 || r.len == 0 || r.len % 4 != 0 || r.soff % 4 != 0 ||
    decide (256 * need.scratch < r.soff + r.len)) ||
  (l.zipIdx.any fun a => l.zipIdx.any fun b => decide (a.2 < b.2) && rangesMeet (a.1.soff, a.1.len) (b.1.soff, b.1.len))

/-- The gangs of a block by its lane count (R21). -/
def gangCount (lanes : Nat) : Nat := (lanes + 63) / 64

/-- The gangs that fall to the quarter at a distance from q0 (R28). -/
def quarterShare (gangs i : Nat) : Nat := (gangs + 3 - i) / 4

/-- The slots, vector registers and scratchpad bytes of a quarter's or core's bank (R28). -/
def bankSlots (shadow : Bool) : Nat := if shadow then 8 else 16
def bankRegs (shadow : Bool) : Nat := if shadow then 512 else 1024
def bankScratch (shadow : Bool) : Nat := if shadow then 262144 else 524288

/-- Whether an empty core of a partition could hold a block (R25, R28). -/
def couldFit (s : State) (p : Nat) (need : Need) (gangs : Nat) : Bool :=
  let sh := (s.part p).shadow
  (!sh || need.shadow) && decide (quarterShare gangs 0 ≤ bankSlots sh) &&
    decide (need.vregs * quarterShare gangs 0 ≤ bankRegs sh) && decide (256 * need.scratch ≤ bankScratch sh) &&
    decide (need.tags ≤ 64)

/-- The partitions of a context (R338). -/
def partsOf (s : State) (ctx : Nat) : List Nat :=
  match s.ctx? ctx with
  | some c => (List.range 8).filter fun p => (s.vf c.vf).vpart.getLsbD p
  | none => []

/-- The region table read at a place. -/
def readRegions (s : State) (ps : List Nat) : List Region :=
  ps.map fun a => { gaddr := s.readPhys a 8, len := s.readPhys (a + 8) 4, soff := s.readPhys (a + 12) 4 }

/-- The accesses to the entries of a region table, in order, until one waits or fails; with the state that they leave. -/
def tablePlaces (ctx u : Nat) : State → List DWord → List Nat → State × (List Nat ⊕ HubRes × DWord)
  | s, [], acc => (s, .inl acc)
  | s, a :: r, acc =>
    match hubAccess s ctx true false a 1 u 5 with
    | .ok l =>
      let q := readSectors s ctx l.addr 16
      if q.2.isSome then (q.1, .inr (.bad 11, a)) else tablePlaces ctx u q.1 r (acc ++ [l.addr])
    | x => (s, .inr (x, a))

/-- The rest of a launch's validation once its record and region table are read (R25). -/
def acceptLaunch (s : State) (u : Nat) (l : Launch) (r : RawRec) (regions : List Region) : State :=
  let lanes := shapeLanes r.shape
  if badRegions r.need regions then endLaunch s u stInvalid 1 none
  else if !(partsOf s l.ctx).any (fun p => couldFit s p r.need (gangCount lanes)) then endLaunch s u stNoFit 1 none
  else
    let body : LRec := { entry := dw r.entry, args := dw r.args, gx := r.gx, gy := r.gy, gz := r.gz,
                         bx := bitsOf r.shape 9 0, bky := bitsOf r.shape 19 10, bz := bitsOf r.shape 29 20,
                         need := r.need, regions := regions }
    let waits := (r.waits.take r.nwait).map fun w =>
      { addr := w.1.toNat / 8 * 8, op := bitsOf w.1 2 0, value := w.2, latched := false : WaitCond }
    s.setLaunch u { l with body := some body, waits := waits }

/-- A launch validated as far as its reads go (R25): an absent page leaves it waiting. -/
def validate (s : State) (u : Nat) : State :=
  match s.launch? u with
  | none => s
  | some l =>
    if l.body.isSome || l.ended.isSome then s
    else if l.record.toNat % 128 ≠ 0 then endLaunch s u stInvalid 1 none
    else match hubAccess s l.ctx true false l.record 1 u 5 with
      | .wait s => s
      | .bad _ => endLaunch s u stInvalid 1 (some l.record)
      | .ok p =>
        let rd := readSectors s l.ctx p.addr 128
        if rd.2.isSome then endLaunch rd.1 u stInvalid 1 (some l.record)
        else
          let r := readRecord rd.1 p.addr
          if badRecord r then endLaunch rd.1 u stInvalid 1 none
          else
            let q := tablePlaces l.ctx u rd.1 ((List.range r.nreg).map fun i => dw (r.regtab + 16 * i)) []
            match q.2 with
            | .inl ps => acceptLaunch q.1 u l r (readRegions q.1 ps)
            | .inr (.wait s, _) => s
            | .inr (_, a) => endLaunch q.1 u stInvalid 1 (some a)

/-- A launch before its record is read. -/
def newLaunch (ctx queue : Nat) (record compl : DWord) (prio : Nat) (cmd : Option (Nat × Nat)) : Launch :=
  { ctx, queue, record, compl, prio, body := none, waits := [], next := 0, retired := 0, placedN := 0, ended := none,
    kblocks := 0, klanes := 0, kfirst := 2 ^ 96 - 1, cmd, written := false }

/-- A queue halted with its NOTICE on the physical function's ring (R153). -/
def haltQueue (s : State) (n cause : Nat) (addrs : List DWord) : State :=
  let q := s.queue n
  notice (s.setQueue n { q with halt := true, pending := false }) 64 q.ctx cause 0 (dw n) addrs

/-- The next entry of a host queue taken (R152 to R154, R39). -/
def takeHost (s : State) (n : Nat) : State :=
  let q := s.queue n
  let waiting := (q.tail - q.head).toNat
  if !q.en || q.halt || !scheduled s q.ctx then s
  else if waiting = 0 then s
  else if 2 ^ q.log2n < waiting then haltQueue s n 3 []
  else
    let va := q.qbase + dw (64 * (q.head.toNat % 2 ^ q.log2n))
    match hubAccess s q.ctx true false va 0 n 5 with
    | .wait s => s
    | .bad _ => haltQueue s n 9 [va]
    | .ok p =>
      let rd := readSectors s q.ctx p.addr 64
      if rd.2.isSome then haltQueue rd.1 n 9 [va]
      else
        let s := rd.1.setQueue n { q with head := q.head + 1 }
        let u := s.uid
        let l := newLaunch q.ctx n (dw (s.readPhys p.addr 8)) (dw (s.readPhys (p.addr + 8) 8)) q.qpri none
        let s := { s with uid := u + 1, launches := tput none s.launches u (some l) }
        if s.readPhys (p.addr + 16) 48 ≠ 0 then endLaunch s u stInvalid 1 none else validate s u

/-- The next entry of a context's device launch queue taken (R115, R155). -/
def takeDevice (s : State) (ctx : Nat) : State :=
  match s.ctx? ctx with
  | none => s
  | some c =>
    match c.devq with
    | [] => s
    | u :: rest =>
      if !scheduled s ctx then s
      else
        let s := s.setCtx ctx { c with devq := rest }
        match s.cmd? u with
        | none => s
        | some x =>
          let n := s.uid
          let l := newLaunch ctx (1024 + ctx) x.c0 x.c1 x.prio (some (x.gang / 16, u))
          validate { s with uid := n + 1, launches := tput none s.launches n (some l) } n

/-- A host queue of a scheduled context examined (R154): its pending bit is cleared, the front launch goes on being validated,
or the next entry is taken. -/
def examine (s : State) (q : Nat) : State :=
  let s := if scheduled s (s.queue q).ctx then s.setQueue q { s.queue q with pending := false } else s
  match frontOf s q with
  | some (u, _) => validate s u
  | none => takeHost s q

/-- The queues of a context that have a pending bit examined in ascending number, as the context is scheduled (R154). -/
def examineAll (s : State) (ctx : Nat) : State :=
  ((s.queues.filter fun e => decide (e.1 < 1024) && e.2.ctx == ctx && e.2.pending).map (·.1)).foldl examine s

/-- Whether the dispatcher is ready (R407): until then it does none of its work. -/
def dispatcherReady (s : State) : Bool := s.pf.ready.contains (.port 11)

/-- TAKE_ENTRY (R25, R153 to R156): the front launch goes on being validated, or the next entry is taken. Queue
1024 + c is the device launch queue of context c. -/
def execTakeEntry (q : Nat) (s : State) : Out :=
  .next (if !dispatcherReady s then s else if q < 1024 then examine s q
    else match frontOf s q with
      | some (u, _) => validate s u
      | none => takeDevice s (q - 1024))

-- Wait conditions (R26).

/-- Whether a wait condition holds for a word (R23, Table 4). -/
def waitHolds (w : WaitCond) (x : DWord) : Bool :=
  match w.op with
  | 0 => x == w.value
  | 1 => x != w.value
  | 2 => decide (w.value.toNat ≤ x.toNat)
  | 3 => decide (x.toNat < w.value.toNat)
  | 4 => !x.slt w.value
  | _ => x.slt w.value

/-- One wait condition of a launch read again. -/
def pollOne (s : State) (u i : Nat) : State :=
  match s.launch? u with
  | none => s
  | some l =>
    match l.waits[i]? with
    | none => s
    | some w =>
      if w.latched || l.ended.isSome then s
      else match hubAccess s l.ctx true false (dw w.addr) 1 u 5 with
        | .wait s => s
        | .bad _ => endLaunch s u stWait 7 (some (dw w.addr))
        | .ok p =>
          let rd := readSectors s l.ctx p.addr 8
          if rd.2.isSome then endLaunch rd.1 u stWait 7 (some (dw w.addr))
          else if waitHolds w (dw (rd.1.readPhys p.addr 8)) then
            rd.1.setLaunch u { l with waits := l.waits.set i { w with latched := true } }
          else rd.1

/-- WAIT_CONDITION_POLL (R26): the unlatched conditions of a launch read in order. -/
def execWaitConditionPoll (l : Nat) (s : State) : Out :=
  .next (if dispatcherReady s then (List.range 4).foldl (fun s i => pollOne s l i) s else s)

-- Placement (R28 to R30, R157).

/-- The resident blocks of a core's bank. -/
def bankBlocks (s : State) (core bank : Nat) : List (Nat × Block) :=
  (tentries s.blocks).filter fun e => e.2.core == core && e.2.bank == bank && e.2.resident

/-- The gangs that a block has in a quarter. -/
def Block.inQuarter (b : Block) (q : Nat) : Nat := ((List.range b.ngangs).filter fun g => (b.q0 + g) % 4 == q).length

/-- Whether slots and registers of a core's bank suffice for a block with a first quarter (R28). -/
def quartersFit (s : State) (core bank : Nat) (need : Need) (gangs q0 : Nat) : Bool :=
  let sh := (s.part (partOf core)).shadow
  let bs := bankBlocks s core bank
  (List.range 4).all fun i =>
    let q := (q0 + i) % 4
    let mine := quarterShare gangs i
    decide ((bs.map fun e => e.2.inQuarter q).sum + mine ≤ bankSlots sh) &&
      decide ((bs.map fun e => e.2.inQuarter q * e.2.need.vregs).sum + mine * need.vregs ≤ bankRegs sh)

/-- Whether a scratchpad window is free in a core's bank (R28). -/
def scratchFits (s : State) (core bank units base : Nat) : Bool :=
  base % 256 == 0 && decide (base + 256 * units ≤ bankScratch (s.part (partOf core)).shadow) &&
    (bankBlocks s core bank).all fun e => !rangesMeet (e.2.scrbase, 256 * e.2.need.scratch) (base, 256 * units)

/-- Whether a tag window is free on a core (R28, R389). -/
def tagsFit (s : State) (core n base : Nat) : Bool :=
  decide (base + n ≤ 64) && ((tentries s.blocks).filter fun e => e.2.core == core && e.2.resident).all fun e =>
    !rangesMeet (e.2.tagbase, e.2.need.tags) (base, n)

/-- Whether the array of a core is free (R28, R312). -/
def arrayFree (s : State) (core : Nat) : Bool := (s.array core).owner.isNone

/-- Where scratchpad windows may begin: the start of the bank and the ends of windows. -/
def windowStarts (s : State) (core bank : Nat) : List Nat :=
  0 :: (bankBlocks s core bank).map fun e => e.2.scrbase + 256 * e.2.need.scratch

/-- Whether the parked instruction of a gang has been served (R384, R387). -/
def gangServed (g : Gang) : Bool :=
  match g.hold with
  | .park _ _ _ _ served => served
  | _ => true

/-- Whether every parked entry of a block has been served (R117, R384, R387): none waits for a page of its own. -/
def entriesServed (s : State) (n : Nat) : Bool :=
  s.waits.all fun w => !((w.kind == 4 || w.kind == 6) && entryOf s n w.key)

/-- The bank that a partition gives to new blocks. -/
def placeBank (s : State) (p : Nat) : Nat := if (s.part p).shadow then (s.part p).fg else 0

/-- Whether the slots of a block's gangs are free on its core (R387). -/
def slotsFree (s : State) (n : Nat) (b : Block) (bank : Nat) : Bool :=
  (blockGangs b n).all fun k =>
    match s.gang? k with
    | none => true
    | some g => !(tentries s.gangs).any fun e => e.2.sched.quarter == g.sched.quarter && e.2.sched.slot == g.sched.slot &&
        e.2.block != n && (match s.block? e.2.block with
          | some c => c.core == b.core && c.bank == bank && c.resident
          | none => false)

/-- Whether the resources that a swapped-out block had are free on its core (R30, R387). -/
def placeFree (s : State) (n : Nat) (b : Block) (bank : Nat) : Bool :=
  slotsFree s n b bank && quartersFit s b.core bank b.need b.ngangs b.q0 &&
    scratchFits s b.core bank b.need.scratch b.scrbase && tagsFit s b.core b.need.tags b.tagbase &&
    (!b.need.race || arrayFree s b.core)

/-- Whether a swapped-out block is ready to return (R387). -/
def readyBlock (s : State) (n : Nat) (b : Block) : Bool :=
  match b.phase with
  | .swapped trap resumed => (!trap || resumed) && entriesServed s n && (blockGangs b n).all fun k =>
      match s.gang? k with
      | some g => gangServed g
      | none => true
  | _ => false

/-- Whether a block fits a core at the moment, at some position (R28): not while a block that is ready to return there waits
for its resources (R387). -/
def fitsCore (s : State) (core bank : Nat) (need : Need) (gangs : Nat) : Bool :=
  s.pf.ready.contains (.core core) && couldFit s (partOf core) need gangs &&
    ((List.range 4).any fun q => quartersFit s core bank need gangs q) &&
    ((windowStarts s core bank).any fun a => scratchFits s core bank need.scratch a) &&
    ((List.range 65).any fun t => tagsFit s core need.tags t) && (!need.race || arrayFree s core) &&
    !((tentries s.blocks).any fun e => e.2.core == core && readyBlock s e.1 e.2 && !placeFree s e.1 e.2 bank)

/-- The number of gangs resident on a core. -/
def residentGangs (s : State) (core : Nat) : Nat :=
  (((tentries s.blocks).filter fun e => e.2.core == core && e.2.resident).map fun e => e.2.ngangs).sum

/-- The cores on which the next block of a launch fits, in ascending number. -/
def fittingCores (s : State) (l : Launch) (r : LRec) : List Nat :=
  (((partsOf s l.ctx).filter (runsOn s l.ctx)).flatMap fun p => (List.range 32).map (32 * p + ·)).filter fun c =>
    fitsCore s c (placeBank s (partOf c)) r.need (gangCount ((r.bx + 1) * (r.bky + 1) * (r.bz + 1)))

/-- The core with the fewest resident gangs, the lowest of equals (R157). -/
def leastCore (s : State) : List Nat → Option Nat
  | [] => none
  | c :: r =>
    match leastCore s r with
    | some d => if residentGangs s c ≤ residentGangs s d then some c else some d
    | none => some c

/-- The launches that compete (R156, R157): one whose block has fitted no core has stopped until a block of its context retires
or is swapped out. -/
def competing (s : State) : List (Nat × Launch × LRec) :=
  (tentries s.launches).filterMap fun e =>
    match e.2.body with
    | some r =>
      if e.2.holds && e.2.waits.all (·.latched) && scheduled s e.2.ctx && !e.2.barred then some (e.1, e.2, r) else none
    | none => none

/-- The order of a queue after the one last served (R157). -/
def queueTurn (s : State) (q : Nat) : Nat := (q + 66560 - 1 - s.pf.lastServed % 66560) % 66560

/-- The priority with which a launch competes (R157). -/
def Launch.rank (s : State) (l : Launch) : Nat := if l.queue < 1024 then (s.queue l.queue).qpri else l.prio

/-- The launch that is served (R157). -/
def servedLaunch (s : State) : List (Nat × Launch × LRec) → Option (Nat × Launch × LRec)
  | [] => none
  | x :: r =>
    match servedLaunch s r with
    | none => some x
    | some y =>
      let a := Launch.rank s x.2.1
      let b := Launch.rank s y.2.1
      if b < a ∨ (a = b ∧ queueTurn s x.2.1.queue ≤ queueTurn s y.2.1.queue) then some x else some y

/-- The lowest free slots of a quarter's bank for so many gangs (R28). DESIGN CHOICE (log 75): the spec fixes the quarter of a
gang and no slot in it. -/
def freeSlots (s : State) (core bank q n : Nat) : List Nat :=
  let used := (tentries s.gangs).filterMap fun e =>
    match s.block? e.2.block with
    | some b => if b.core == core && b.bank == bank && b.resident && quarterOf b e.2.idx == q then some e.2.sched.slot else none
    | none => none
  ((List.range 16).filter fun i => !used.contains i).take n

/-- The existing lanes of a gang of a block (R21). -/
def existingLanes (lanes idx : Nat) : Lanes := laneSet fun l => decide (64 * idx + l < lanes)

/-- The registers of a gang at its start (R32). -/
def startRegs (need : Need) (k : Tab DWord) : Regs :=
  { v := [], k := k, m := [], g := [], fsr := 0, fcr := 0, pri := need.prio, wdlim := need.wdlim, lcnt := 0, scnt := 0, errs := 0 }

/-- The matrix side of a gang at its start. -/
def startMat : MatSt := { res := [], opened := none, closed := [], top := 0, drop := 0, gerr := false }

/-- A gang in its slot before it starts. DESIGN CHOICE (log 75): it has not issued since cycle 0 (R160). -/
def placedGang (block idx quarter slot : Nat) (need : Need) : Gang :=
  { block, idx, live := 0, regs := startRegs need [], frames := [], recs := [], serials := [], tag := 0, splits := [], cur := 0,
    deferred := [], fair := 0, fairDefer := none, win := { cmd := [], written := 0, status := 0 }, mat := startMat, hold := .none,
    stopped := none, detail := [], traps := [],
    sched := { quarter, slot, active := false, boost := false, lastIssue := 0, waitSince := 0 } }

/-- The next block of a launch put on a core (R28 to R30, R312): its slots and windows are taken, its scratchpad
window holds zeros, and an array it owns is as placement leaves it. -/
def placeBlock (s : State) (u : Nat) (l : Launch) (r : LRec) (core q0 scr tag : Nat) : State :=
  let lanes := (r.bx + 1) * (r.bky + 1) * (r.bz + 1)
  let n := s.uid
  let bank := placeBank s (partOf core)
  let b : Block := { launch := u, index := l.next, ctx := l.ctx, core, q0, bank, ngangs := gangCount lanes, need := r.need, scrbase := scr,
                     tagbase := tag, x := l.next % (r.gx + 1), y := l.next / (r.gx + 1) % (r.gy + 1),
                     z := l.next / ((r.gx + 1) * (r.gy + 1)), wide := decide (2 ^ 21 < max (r.gx + 1) (max (r.gy + 1) (r.gz + 1))), phase := .staging 0 0,
                     busy := 0, ready := 0, tdisc := 0, tfault := 0, killed := 0, image := none }
  let slots := (List.range 4).map fun q => (q, freeSlots s core bank q 16)
  let gangs := (List.range b.ngangs).map fun i =>
    let q := (q0 + i) % 4
    (n * 16 + i, placedGang n i q (((slots.getD q (0, [])).2).getD (i / 4) 0) r.need)
  let base := scrKey core bank scr
  let s := { s with
    uid := n + 1, pf := { s.pf with lastServed := l.queue },
    core := { s.core with scratch := s.core.scratch.filter fun e =>
      !(decide (base ≤ e.1) && decide (e.1 < base + 256 * r.need.scratch)) } }
  let s := (s.setBlock n b).setLaunch u { l with next := l.next + 1, placedN := l.placedN + 1 }
  let s := if r.need.race then s.setArray core { arrayDefault with owner := some n } else s
  let s := s.setPart (partOf core) { s.part (partOf core) with owners := tput none (s.part (partOf core)).owners bank (some l.ctx) }
  gangs.foldl (fun (s : State) e => s.setGang e.1 e.2) s

/-- PLACEMENT (R157): the served launch's next block goes to the core with the fewest gangs; the core chooses the
first quarter and the windows among those that are free. A launch whose block fits nowhere stops competing. -/
def execPlacement (q0 scr tag : Nat) (s : State) : Out :=
  .next (match if dispatcherReady s then servedLaunch s (competing s) else none with
    | none => s
    | some (u, l, r) =>
      match leastCore s (fittingCores s l r) with
      | none => s.setLaunch u { l with barred := true }
      | some core =>
        let bank := placeBank s (partOf core)
        let gangs := gangCount ((r.bx + 1) * (r.bky + 1) * (r.bz + 1))
        if q0 < 4 ∧ quartersFit s core bank r.need gangs q0 ∧ scratchFits s core bank r.need.scratch scr
            ∧ tagsFit s core r.need.tags tag then placeBlock s u l r core q0 scr tag
        else s)

-- Staging, start and retirement.

/-- A block and its gangs out of the machine; a remote request on its way stays until its response brings the credit back
(R211). -/
def removeBlock (s : State) (n : Nat) : State :=
  let mine (k : Nat) : Bool := k / 16 == n
  let s := departs s (entryOf s n)
  { s with
    waits := s.waits.filter fun w => !((w.kind == 2 && w.key == n) || ((w.kind == 4 || w.kind == 6) && entryOf s n w.key)),
    blocks := tput none s.blocks n none,
    gangs := s.gangs.filter fun e => !mine e.1,
    reqs := s.reqs.filter fun e => match e.2 with | some r => !mine r.gang | none => false,
    rreqs := s.rreqs.filter fun e => match e.2 with | some r => !mine r.gang || (r.sent != 0 && !r.final) | none => false,
    longs := s.longs.filter fun e => match e.2 with | some r => !mine r.gang | none => false,
    cmds := s.cmds.filter fun e => match e.2 with | some r => !mine r.gang | none => false,
    deliveries := s.deliveries.filter fun x => !mine x.gang,
    engOps := s.engOps.filter fun e => match e.2 with | some x => !mine x.gang | none => false,
    ahead := s.ahead.filter fun x => !mine x.gang,
    core := { s.core with arrays := s.core.arrays.filter fun e => e.2.owner != some n,
                          owners := s.core.owners.filter fun e => e.2 != n + 1 },
    cur := match s.cur with | some k => if mine k then none else some k | none => none }

/-- A block of a launch is gone, and a launch that is over is completed (R33). -/
def blockGone (s : State) (n : Nat) (b : Block) : State :=
  let s := unbar (removeBlock s n) b.ctx
  match s.launch? b.launch with
  | none => s
  | some l => completeLaunch (s.setLaunch b.launch { l with retired := l.retired + 1 }) b.launch

/-- A block retires (R33): its killed lanes count in its launch's completion record. -/
def blockRetired (s : State) (n : Nat) (b : Block) : State :=
  let s := match s.launch? b.launch with
    | some l => if b.killed = 0 then s else s.setLaunch b.launch { l with
        kblocks := l.kblocks + 1, klanes := l.klanes + b.killed, kfirst := min l.kfirst b.index }
    | none => s
  blockGone s n b

/-- A region that cannot be staged (R27): the launch ends with REGION_FAULT and the block does not start. -/
def regionFault (s : State) (n : Nat) (b : Block) (addr : DWord) : State :=
  match s.launch? b.launch with
  | none => s
  | some l =>
    let l := { l with ended := some (l.ended.getD stRegion) }
    blockGone (launchNotice (s.setLaunch b.launch l) l 7 (some b.index) (some addr)) n b

/-- The next piece of a region staged (R27): the words up to the next sector boundary. -/
def stagePiece (s : State) (n : Nat) (b : Block) (r : Region) (i off : Nat) : State :=
  let va := dw (r.gaddr + off)
  match hubAccess s b.ctx true false va 2 n 3 with
  | .wait s => s
  | .bad _ => regionFault s n b va
  | .ok p =>
    let len := min (32 - p.addr % 32) (r.len - off)
    let rd := sectorRead (arrivalServed s (ctxVf s b.ctx) p.addr 1) (p.addr / 32)
    if rd.2 then regionFault rd.1 n b va
    else
      let s := rd.1.writeScr (scrKey b.core b.bank (b.scrbase + r.soff + off)) ((List.range len).map fun j => rd.1.byte (p.addr + j))
      let s := chargeSlots s b.ctx b.core p.addr 1
      s.setBlock n { b with phase := if off + len < r.len then .staging i (off + len) else .staging (i + 1) 0 }

/-- The record of a block's launch. -/
def launchRec (s : State) (b : Block) : Option LRec := (s.launch? b.launch).bind (·.body)

/-- REGION_STAGING (R27). -/
def execRegionStaging (b : Nat) (s : State) : Out :=
  .next (match if dispatcherReady s then s.block? b else none with
    | none => s
    | some x =>
      match x.phase, launchRec s x with
      | .staging i off, some r =>
        match r.regions[i]? with
        | some g => stagePiece s b x g i off
        | none => s
      | _, _ => s)

/-- The uniform registers of a gang at its start (R32). -/
def startKregs (b : Block) (r : LRec) (idx : Nat) : Tab DWord :=
  tput 0 (tput 0 (tput 0 [] 1 r.args) 2 (dw (b.y * 4294967296 + b.x))) 3 (dw (idx * 4294967296 + b.z))

/-- The first split of a gang (R32). -/
def firstSplit (uid : Nat) (entry : DWord) (m : Lanes) : Split :=
  { uid, pc := entry, lanes := m, exm := m, wait := .ready, path := [], wd := 0, windows := [], chain := [], eff := [], resv := none,
    spent := [], ldDeps := [], stDeps := [], elder := [] }

/-- A gang begins at ENTRY (R32, R369). -/
def startGang (s : State) (b : Block) (r : LRec) (k : Nat) : State :=
  match s.gang? k, s.ctx? b.ctx with
  | some g, some c =>
    let m := existingLanes ((r.bx + 1) * (r.bky + 1) * (r.bz + 1)) g.idx
    let u := s.uid
    let s := { s with uid := u + 1 }
    let s := s.setCtx b.ctx { c with tagcnt := (c.tagcnt + 1) % 65536 }
    s.setGang k { g with live := m, tag := c.tagcnt, regs := startRegs r.need (startKregs b r g.idx),
                         splits := tput none [] 0 (some (firstSplit u r.entry m)), cur := 0,
                         sched := { g.sched with waitSince := s.cycle } }
  | _, _ => s

/-- GANG_START (R27, R32): a block whose regions are staged starts its gangs. DESIGN CHOICE (log 61): one that was placed before
another block of its launch met a REGION_FAULT starts too. -/
def execGangStart (b : Nat) (s : State) : Out :=
  .next (match if dispatcherReady s then s.block? b else none with
    | none => s
    | some x =>
      match x.phase, launchRec s x with
      | .staging i _, some r =>
        if i < r.regions.length then s
        else (blockGangs x b).foldl (fun s k => startGang s x r k) (s.setBlock b { x with phase := .running })
      | _, _ => s)

/-- Whether a gang has nothing left to do for its block to retire (R33). DESIGN CHOICE (log 62): every engine command of the
gang counts, a LAUNCH whose launch is not complete among them. -/
def gangDone (s : State) (k : Nat) : Bool :=
  (match s.gang? k with
    | some g => g.live == 0 && g.mat.closed.isEmpty && g.mat.opened.isNone
    | none => true) &&
  (tentries s.reqs).all (fun e => e.2.gang != k || !e.2.storeLike || e.2.allPerformed) &&
  (tentries s.rreqs).all (fun e => e.2.gang != k || e.2.final) && (tentries s.cmds).all (fun e => e.2.gang != k) && (engPending s k).isEmpty

/-- BLOCK_RETIRE (R33). -/
def execBlockRetire (b : Nat) (s : State) : Out :=
  .next (match s.block? b with
    | none => s
    | some x =>
      let a := s.array x.core
      if x.phase = .running && (blockGangs x b).all (gangDone s) &&
          !(x.need.race && a.owner == some b && a.eval.isSome) then blockRetired s b x
      else s)

end Sys2Proof.Machine
end

