-- ==== Sys2Proof/Machine/Replay.lean ====
section
/-! DEFINITION. The replay stores (R86, R166 to R175): walks that complete, hold limits, backoffs and slots that
free, the park limit, and the return of a swapped-out block with the reissue of its entries (R387, R394). -/

namespace Sys2Proof.Machine

/-- Whether a PEER access that has passed its checks goes to a window whose block is out (R79). -/
def peerGone (s : State) (r : Req) : Bool :=
  r.space == .peer && r.checked && r.elems.any fun e => !r.performed.contains e.loc.sector && placeAway s (keyCtx s r.gang) e.loc

/-- A bounced request reissued (R171, R175): its checks are decided anew, and it joins the tail of the queue it left. One to a
window whose block is out waits for that block (R79). -/
def reissueReq (s : State) (u : Nat) : State :=
  match s.req? u with
  | none => s
  | some r =>
    if !r.bounced || !gangRuns s r.gang || peerGone s r then s
    else if r.space = .engine then s.setReq u (some { r with bounced := false, since := s.cycle })
    else checkReq s u

/-- The channel time of a reissued command charged to the partition of its owner (R174). DESIGN CHOICE (log 76): one slot, for
the first word of its next box; the spec gives no amount for a command that has not begun a box. -/
def chargeCmd (s : State) (c : Cmd) (b : Block) : State :=
  match cmdPlace s c b with
  | some l => if l.scr then s else chargeUser s (meterKey s b.ctx b.core) l.addr 1
  | none => s

/-- The place of an entry's next access at the tail of the queue that it left (R171), if the access still goes there. -/
def rejoin (s : State) (way : Option Place) (secs : List Nat) : Option Place :=
  way.bind fun p => if secs.contains (p.sec / 2) then some { p with since := s.cycle, order := s.uid } else none

/-- A bounced command that works again (R118, R171, R174). It leaves the aged list when it has its slot, or bounces
elsewhere (R172). -/
def reissueCmd (s : State) (u : Nat) : State :=
  match s.cmd? u with
  | some c =>
    match s.block? (c.gang / 16) with
    | some b =>
      if gangRuns s c.gang then
        ({ chargeCmd (if c.cause = 2 then s else unage s u) c b with uid := s.uid + 1 } : State).setCmd u (some { c with
          bounced := false, since := s.cycle, way := rejoin s c.way (cmdSectors s c b) })
      else s
    | none => s
  | none => s

/-- A bounced remote request that is sent again when it can be (R171, R174, R213, R388): the planes carry it once more, and
it is charged again as it goes. -/
def reissueRemote (s : State) (u : Nat) : State :=
  match s.rreq? u with
  | some r => if gangRuns s r.gang then trySend (s.setRreq u (some { r with bounced := false, since := s.cycle })) u else s
  | none => s

/-- The resource at which an engine's entry bounces (R172): the queue in which it stands past the core's port, or that. -/
def engKey (s : State) (x : EngOp) : Nat :=
  match x.way with
  | some p => (if p.stage = 3 then 4 else 5) + 16 * stageKey (keyCore s x.gang) p.sec p.stage
  | none => 5 + 16 * keyCore s x.gang

/-- An entry of an engine bounced (R168, R171 to R173). -/
def bounceEng (s : State) (u cause : Nat) : State :=
  match s.engOp? u with
  | none => s
  | some x =>
    let n := x.bounces + 1
    let s := (leaveQueues s x.gang (x.way.toList.map Place.stand)).setEngOp u (some { x with
      bounced := true, cause := cause, since := s.cycle, bounces := if n = 256 then 8 else n })
    let s := ageAt s (engKey s x) u n
    if n = 256 then raiseBounceLimit s x.gang x.split 1 else s

/-- What a check of a reissued engine access counts for: a place in a scratchpad stays as it was, and a page that no longer
allows the access counts as absent (log 13). -/
def engCheck (s : State) (b : Block) (x : EngOp) : List Chk :=
  (x.eas.zip x.locs).map fun e =>
    match checkElem s b x.space (!x.writes) x.writes x.size e.1 with
    | .bad _ => if x.space = .global then .absent 0 (e.1.toNat / 65536 * 65536) else .ok e.2
    | c => c

/-- A bounced entry of an engine reissued (R86, R171, R174): its places are translated anew. -/
def reissueEng (s : State) (u : Nat) : State :=
  match s.engOp? u, s.block? ((s.engOp? u).elim 0 (·.gang) / 16) with
  | some x, some b =>
    if !x.bounced || !gangRuns s x.gang then s
    else match decideChecks (x.eas.map fun a => (0, a)) (engCheck s b x) with
      | .proceed ls =>
        let s := (globalSectors ls).foldl (fun s sec => chargeUser s (meterKey s b.ctx b.core) (32 * sec) 1) s
        ({ s with uid := s.uid + 1 } : State).setEngOp u (some { x with
          bounced := false, locs := ls, since := s.cycle, way := rejoin s x.way (globalSectors ls) })
      | .walk vs => bounceEng (startWalks s b.core b.ctx vs) u 0
      | .park st pages =>
        match s.gang? x.gang with
        | some g => hubPark (bounceEng s u 1)
            { gangRec s 0 x.gang g with pc := BitVec.allOnes 64, lanes := splitExm s x.gang x.split } b.ctx 6 u 2 st pages
        | none => s
      | .protect _ _ _ => s
  | _, _ => s

/-- An entry of a gang or of its engines reissued. -/
def reissueEntry (s : State) (u : Nat) : State :=
  if (s.engOp? u).isSome then reissueEng s u
  else if (s.cmd? u).isSome then reissueCmd s u
  else reissueReq s u

-- Walks (R86).

/-- Whether a walk for one of a request's pages is still running. -/
def walkPending (s : State) (b : Block) (r : Req) : Bool :=
  r.elems.any fun e => s.walks.contains (b.core, b.ctx, e.ea.toNat / 65536)

/-- The requests that a completed walk of a core lets go on, oldest first. -/
def walkers (s : State) (core ctx : Nat) : List Nat :=
  ((tentries s.reqs).filter fun e => e.2.bounced && e.2.cause == 0 && (match s.block? (e.2.gang / 16) with
    | some b => b.core == core && b.ctx == ctx && !walkPending s b e.2
    | none => false)).map (·.1)

/-- The entries of a core's engines that a completed walk lets go on. -/
def engWalkers (s : State) (core ctx : Nat) : List Nat :=
  ((tentries s.engOps).filter fun e => e.2.bounced && e.2.cause == 0 && (match s.block? (e.2.gang / 16) with
    | some b => b.core == core && b.ctx == ctx && !e.2.eas.any fun a => s.walks.contains (core, ctx, a.toNat / 65536)
    | none => false)).map (·.1)

/-- The commands bounced for one cause that belong to a core and a context. -/
def cmdsBounced (s : State) (core ctx cause : Nat) : List Nat :=
  ((tentries s.cmds).filter fun e => e.2.bounced && e.2.cause == cause && (match s.block? (e.2.gang / 16) with
    | some b => b.core == core && b.ctx == ctx
    | none => false)).map (·.1)

/-- A gang that held its instruction back for a walk issues it again. -/
def Gang.unhold (g : Gang) : Gang := if g.hold = .walk 0 then { g with hold := .none } else g

/-- The gangs of a context on a core issue again. -/
def unholdGangs (s : State) (core ctx : Nat) : State :=
  ((tentries s.gangs).filter fun e => match s.block? e.2.block with
    | some b => b.core == core && b.ctx == ctx
    | none => false).foldl (fun s e => s.modGang e.1 Gang.unhold) s

/-- What goes on when a walk of a unit completes: fetches, requests and commands of a core, completion records of
the hub. -/
def afterWalk (s : State) (u ctx : Nat) : State :=
  if u = hubUnit then completeLaunches s
  else
    let s := (walkers s u ctx).foldl reissueReq (unholdGangs s u ctx)
    let s := (engWalkers s u ctx).foldl reissueEng s
    (cmdsBounced s u ctx 0).foldl reissueCmd s

/-- Whether a walker complex is ready for a unit (R407): that of a core's die, or any one for the hub. -/
def walkerReady (s : State) (u : Nat) : Bool :=
  if u = hubUnit then (List.range 4).any fun d => s.pf.ready.contains (.engine (32 + d))
  else s.pf.ready.contains (.engine (32 + u / 64))

/-- WALK_COMPLETE (R82 to R84, R86), once the homes of the tables that it reads are ready (R406). -/
def execWalkComplete (u ctx vpn : Nat) (s : State) : Out :=
  .next (
    if !s.walks.contains (u, ctx, vpn) || !walkerReady s u then s
    else
      match s.ctx? ctx with
      | none => { s with walks := s.walks.filter (· != (u, ctx, vpn)) }
      | some c =>
        if !translateReady s c vpn then s
        else
        let s := { s with walks := s.walks.filter (· != (u, ctx, vpn)) }
        afterWalk { s with tlb := tput none s.tlb (tlbKey u ctx vpn) (some (translate s c vpn)) } u ctx)

-- Hold limits (R166, R167).

/-- The part of a gang's block, and its limit for engine queues (R166). -/
def portLimit (s : State) (key : Nat) : Nat :=
  match s.block? (key / 16) with
  | some b => 16 * (s.part (partOf b.core)).core
  | none => 0

/-- The FABRIC limit of a gang's partition (R166). -/
def gangFabric (s : State) (key : Nat) : Nat :=
  match s.block? (key / 16) with
  | some b => 16 * (s.part (partOf b.core)).fabric
  | none => 0

/-- Why a command at its queue head does not advance (R118, R155, R167). -/
def headCause (s : State) (c : Cmd) : Nat :=
  match s.gang? c.gang, s.block? (c.gang / 16) with
  | some g, some b =>
    if !guardOpen g c then 3
    else if c.op == 2 && (match s.ctx? b.ctx with | some x => decide (64 ≤ x.devq.length) | none => false) then 2
    else 5
  | _, _ => 5

/-- The limit, in cycles, of the walkers' queue for a gang's core (R166). -/
def walkLimit (s : State) (key : Nat) : Nat := 16 * (s.part (partOf (keyCore s key))).die

/-- Whether an entry has waited at a walker for the limit (R19, R166). -/
def walkOver (s : State) (key : Nat) (bounced : Bool) (cause since : Nat) : Bool :=
  bounced && cause == 0 && gangForeground s key && decide (since + walkLimit s key ≤ s.cycle)

/-- Why an access of a command or an engine bounces whose time in a queue past the engine's is over (R167): 4 at a CXL port, 5 at
another; none while it is not. -/
def wayOver (s : State) (key : Nat) (way : Option Place) : Option Nat :=
  way.bind fun p => if gangRuns s key && headOver s key p.stand then some (if p.stage = 3 then 4 else 5) else none

/-- HOLD_LIMIT_EXPIRY (R19, R118, R166, R167, R213): a request, a command or an engine's access that has stood at the head of a
queue for that queue's limit bounces, from a walker's queue too. -/
def execHoldLimitExpiry (id : Nat) (s : State) : Out :=
  .next (match s.req? id, s.cmd? id, s.rreq? id, s.engOp? id with
    | some r, _, _, _ =>
      if walkOver s r.gang r.bounced r.cause r.since then bounceReq s id 5
      else match heldOut s id r with
        | some (_, stage) => bounceReq s id (if stage = 3 then 4 else 5)
        | none => s
    | none, some c, _, _ =>
      if walkOver s c.gang c.bounced c.cause c.since then bounceCmd s id 5
      else if c.bounced || c.queued || c.failed.isSome || !c.running.isEmpty || !atHead s id c then s
      else if c.way.isSome then (wayOver s c.gang c.way).elim s (bounceCmd s id)
      else if c.since + portLimit s c.gang ≤ s.cycle then bounceCmd s id (headCause s c)
      else s
    | none, none, some r, _ =>
      if r.sent == 0 && !r.bounced && !r.final && depsDone s r.deps && !carried s id r
          && decide (r.since + gangFabric s r.gang ≤ s.cycle) then bounceRemote s id 4
      else s
    | none, none, none, some x =>
      if walkOver s x.gang x.bounced x.cause x.since then bounceEng s id 5
      else if x.bounced || !depsDone s x.deps then s
      else if x.way.isSome then (wayOver s x.gang x.way).elim s (bounceEng s id)
      else if x.since + portLimit s x.gang ≤ s.cycle then bounceEng s id 5
      else s
    | none, none, none, none => s)

/-- The backoff after a number of bounces (R171), in cycles of the reference clock (log 56). -/
def backoff (n : Nat) : Nat := 256 * min n 8

/-- Whether the backoff of an entry is over (R171). -/
def dueBack (s : State) (bounced : Bool) (cause since n : Nat) : Bool :=
  bounced && cause == 5 && decide (since + backoff n ≤ s.cycle)

/-- The entries of the replay stores that one of a gang belongs to, whose backoff is over: a store reissues the oldest first
(R171). The three stores are the gang's, its command stream's and its block's engines'. -/
def backDue (s : State) (store key : Nat) : List Nat :=
  if store = 0 then
    ((tentries s.reqs).filter fun e => e.2.gang == key && dueBack s e.2.bounced e.2.cause e.2.since e.2.bounces).map (·.1) ++
    ((tentries s.rreqs).filter fun e => e.2.gang == key && dueBack s e.2.bounced e.2.cause e.2.since e.2.bounces).map (·.1)
  else if store = 1 then
    ((tentries s.cmds).filter fun e => e.2.gang == key && dueBack s e.2.bounced e.2.cause e.2.since e.2.bounces).map (·.1)
  else
    ((tentries s.engOps).filter fun e => e.2.gang / 16 == key / 16 &&
      dueBack s e.2.bounced e.2.cause e.2.since e.2.bounces).map (·.1)

/-- Whether no older one of those is there. -/
def firstDue (s : State) (store key id : Nat) : Bool := !(backDue s store key).any fun u => decide (u < id)

/-- BACKOFF_EXPIRY (R171). -/
def execBackoffExpiry (id : Nat) (s : State) : Out :=
  .next (match s.req? id, s.cmd? id, s.rreq? id, s.engOp? id with
    | some r, _, _, _ =>
      if dueBack s r.bounced r.cause r.since r.bounces && firstDue s 0 r.gang id then reissueReq s id else s
    | none, some c, _, _ =>
      if dueBack s c.bounced c.cause c.since c.bounces && firstDue s 1 c.gang id then reissueCmd s id else s
    | none, none, some r, _ =>
      if dueBack s r.bounced r.cause r.since r.bounces && firstDue s 0 r.gang id then reissueRemote s id else s
    | none, none, none, some x =>
      if dueBack s x.bounced x.cause x.since x.bounces && firstDue s 2 x.gang id then reissueEng s id else s
    | none, none, none, none => s)

/-- Whether the device launch queue of a command's context has a place. -/
def devqFree (s : State) (c : Cmd) : Bool :=
  match s.block? (c.gang / 16) with
  | some b => (match s.ctx? b.ctx with | some x => decide (x.devq.length < 64) | none => false)
  | none => false

/-- Whether no older request of a gang waits for a slot of the same resource (R171); a slot held for an aged entry is its own. -/
def firstAt (s : State) (key id : Nat) (r : Req) : Bool :=
  (tget [] s.aged key).head? == some id || !(tentries s.reqs).any fun e => decide (e.1 < id) && e.2.gang == r.gang &&
    e.2.bounced && e.2.cause == r.cause && e.2.key == key

/-- Whether no older command of a stream, no older entry of a block's engines, or no older remote request of a gang, waits for
such a slot (R171). -/
def firstCmd (s : State) (key id : Nat) (c : Cmd) : Bool :=
  (tget [] s.aged key).head? == some id || !(tentries s.cmds).any fun e => decide (e.1 < id) && e.2.gang == c.gang &&
    e.2.bounced && e.2.cause == c.cause && cmdKey s e.2 e.2.cause == key
def firstEng (s : State) (key id : Nat) (x : EngOp) : Bool :=
  (tget [] s.aged key).head? == some id || !(tentries s.engOps).any fun e => decide (e.1 < id) && e.2.gang / 16 == x.gang / 16 &&
    e.2.bounced && e.2.cause == x.cause && engKey s e.2 == key
def firstRemote (s : State) (key id : Nat) (r : RReq) : Bool :=
  (tget [] s.aged key).head? == some id || !(tentries s.rreqs).any fun e => decide (e.1 < id) && e.2.gang == r.gang &&
    e.2.bounced && e.2.cause == r.cause && creditKey s e.2 == key

/-- SLOT_FREE_REISSUE (R167, R171, R172): a slot of an engine queue, of a CXL port or of a device launch queue frees, or a
credit toward a device; it goes to the first aged entry, else the oldest of a store is reissued. -/
def execSlotFreeReissue (id : Nat) (s : State) : Out :=
  .next (match s.req? id, s.cmd? id, s.rreq? id, s.engOp? id with
    | some r, _, _, _ =>
      if r.bounced && firstAt s r.key id r && ((r.cause == 2 && goRoom s (keyCore s r.gang) id) ||
          (r.cause == 4 && slotFor s r.key id)) then reissueReq s id
      else s
    | none, some c, _, _ =>
      if c.bounced && ((c.cause == 2 && devqFree s c) || c.cause == 4) && slotFor s (cmdKey s c c.cause) id
          && firstCmd s (cmdKey s c c.cause) id c then reissueCmd s id
      else s
    | none, none, some r, _ =>
      if r.bounced && r.cause == 4 && creditFor s id r && planeOpen s r.dev (planeFor s r.dev ((r.elems.headD (0, 0)).2)) &&
          firstRemote s (creditKey s r) id r then reissueRemote s id
      else s
    | none, none, none, some x =>
      if x.bounced && x.cause == 4 && slotFor s (engKey s x) id && firstEng s (engKey s x) id x then reissueEng s id else s
    | none, none, none, none => s)

-- Parks and swapped-out blocks (R86, R387).

/-- Since when a gang, or an entry of it that waits alone, has been parked: the earliest (R86). -/
def parkedSince (s : State) (key : Nat) (g : Gang) : List Nat :=
  (match g.hold with | .park _ _ _ since _ => [since] | _ => []) ++
    (s.waits.filterMap fun w => if w.kind = 6 then
      (match s.req? w.key, s.engOp? w.key with
        | some r, _ => if r.gang = key then some r.since else none
        | none, some x => if x.gang = key then some x.since else none
        | none, none => none) else none)

/-- A gang with an entry parked past the limit takes its whole block out (R86, R387). -/
def parkOut (s : State) (gang : Nat) : State :=
  match s.gang? gang with
  | none => s
  | some g =>
    match s.block? g.block with
    | some b =>
      if b.phase == .running && (parkedSince s gang g).any fun since =>
          decide (since + 16 * (s.part (partOf b.core)).park ≤ s.cycle) then
        (swapOut s g.block (.swapped false false)).modCtx b.ctx fun c => { c with npark := c.npark + 1 }
      else s
    | none => s

/-- PARK_LIMIT_EXPIRY (R86, R387). -/
def execParkLimitExpiry (gang : Nat) (s : State) : Out := .next (parkOut s gang)

/-- The bytes of a context's save area by offset (R391). -/
def areaBytes (s : State) (base parts : Nat) : List (Nat × Byte) :=
  (s.mem.bytes.filter fun e => decide (base ≤ e.1) && decide (e.1 < base + 0x20000 + 0x50000000 * parts)).map
    fun e => (e.1 - base, e.2)

/-- The integrity check of a save area (R391, R392): its bytes are those that the spill engine wrote last, if it wrote
any (log 11). -/
def areaIntact (s : State) (ctx : Nat) : Bool :=
  match s.ctx? ctx, tget none s.areas ctx with
  | some c, some a => areaBytes s c.save c.parts == a.bytes
  | some _, none => true
  | none, _ => false

/-- A context that stays stopped (R391, R392): every block of it is taken out, and nothing of it goes on. -/
def haltCtx (s : State) (ctx : Nat) : State :=
  (((tentries s.blocks).filter fun e => e.2.ctx == ctx).foldl (fun s e => swapOut s e.1 .stopped) s).modCtx ctx
    fun c => { c with state := .stopped }

/-- A restore refused (R392): a NOTICE with cause MIGRATE_SHAPE, and the context stays stopped. -/
def refuseRestore (s : State) (ctx : Nat) : State := haltCtx (notice s 64 ctx 6 0 0 []) ctx

/-- Whether a swapped-out block can return now (R30, R387). -/
def canReturn (s : State) (n : Nat) (b : Block) (bank : Nat) : Bool :=
  readyBlock s n b && placeFree s n b bank

/-- A block back in its slots and windows, its images still to be filled. -/
def returnBlock (s : State) (n : Nat) (b : Block) (bank : Nat) : State :=
  let s := if b.need.race then s.setArray b.core { arrayDefault with owner := some n } else s
  s.setBlock n { b with phase := .returned, bank := bank }

/-- BLOCK_RETURN (R30, R387): a ready block returns to its core, slots and windows once they are free and its
context runs there. -/
def execBlockReturn (b : Nat) (s : State) : Out :=
  .next (match s.block? b with
    | none => s
    | some x =>
      let bank := placeBank s (partOf x.core)
      if runsOn s x.ctx (partOf x.core) && canReturn s b x bank then returnBlock s b x bank else s)

-- Restore (R394).

/-- The images of a block filled back into the stores of its core (R393). -/
def fillImage (s : State) (n : Nat) (b : Block) (img : Image) : State :=
  let tile (k : Nat) : Nat := tileKey b.core (k / 64 % 4) b.bank (k % 32)
  let byte (k : Nat) : Nat := opKey b.core (k / 131072 % 4) b.bank (k % 65536)
  let base := scrKey b.core b.bank b.scrbase
  let s := img.scratch.foldl (fun (s : State) e => s.setSbyte (base + e.1) e.2) s
  let s := img.tiles.foldl (fun (s : State) e => s.setTile (tile e.1) n e.2) s
  let s := img.opbuf.foldl (fun (s : State) e => s.setObyte (byte e.1) e.2) s
  match img.array with
  | some a => s.setArray b.core { a with owner := some n }
  | none => s

/-- A parked gang whose page has been served issues or reissues (R384, R394). -/
def unpark (s : State) (key : Nat) : State :=
  match s.gang? key with
  | none => s
  | some g =>
    match g.hold with
    | .park 0 _ _ _ true => s.modGang key fun g => { g with hold := .none }
    | .park u _ _ _ true => reissueReq s u
    | .walk 0 => s.modGang key Gang.unhold
    | _ => s

/-- Whether the page for which a request holds its gang has been served (R384). -/
def heldServed (s : State) (u : Nat) (r : Req) : Bool :=
  match s.gang? r.gang with
  | some g => (match g.hold with | .park v _ _ _ true => v == u | _ => false)
  | none => false

/-- Whether a bounced request of a block that runs again is reissued then (R171, R384, R394): a walk that has ended, a swap, or
a page that has been served; not a backoff. -/
def dueReq (s : State) (u : Nat) (b : Block) (r : Req) : Bool :=
  r.bounced && (r.cause == 6 || (r.cause == 0 && !walkPending s b r) ||
    (r.cause == 1 && (if r.checked then !reqWaiting s u else heldServed s u r)))

/-- Whether a request of a restored block must find its place again: it addresses a scratchpad. -/
def replaced (r : Req) : Bool := r.checked && !r.bounced && !r.allPerformed && (r.space == .scratch || r.space == .peer)

/-- Whether a request is a load that was not complete when its block was saved (R394). -/
def loadAtSave (r : Req) : Bool := r.loadLike && (!r.bounced || r.cause == 6)

/-- The PEER accesses of other blocks that wait for a block of their context to be back (R79). -/
def peersFor (s : State) (n ctx : Nat) : List Nat :=
  ((tentries s.reqs).filter fun e => e.2.gang / 16 != n && e.2.bounced && e.2.cause == 6 && e.2.space == .peer &&
    keyCtx s e.2.gang == ctx).map (·.1)

/-- The entries of a block that is in the foreground again reissued (R171, R394): the loads that were not complete when it was
saved, then the served and bounced entries, the oldest first; then its commands, its engines' entries and its array's queue, and
last its gangs' fetches. -/
def reissueBlock (s : State) (n : Nat) : State :=
  match s.block? n with
  | none => s
  | some b =>
    if b.phase != .running || !foreground s b then s
    else
      let rs := (tentries s.reqs).filter fun e => e.2.gang / 16 == n && (dueReq s e.1 b e.2 || replaced e.2)
      let again (s : State) (e : Nat × Req) : State := if e.2.bounced then reissueReq s e.1 else checkReq s e.1
      let s := (rs.filter fun e => loadAtSave e.2).foldl again s
      let s := (rs.filter fun e => !loadAtSave e.2).foldl again s
      let s := (peersFor s n b.ctx).foldl reissueReq s
      let cs := (tentries s.cmds).filter fun e => e.2.gang / 16 == n && e.2.bounced && (e.2.cause == 0 || e.2.cause == 6)
      let s := cs.foldl (fun s e => reissueCmd s e.1) s
      let es := (tentries s.engOps).filter fun e => e.2.gang / 16 == n && e.2.bounced && e.2.cause != 5 &&
        !hubWaiting s 6 e.1
      let s := es.foldl (fun s e => reissueEng s e.1) s
      let s := if b.need.race then drainArray 17 s b.core else s
      (blockGangs b n).foldl unpark s

/-- Whether an entry has a place in some aged list. -/
def isAged (s : State) (u : Nat) : Bool := s.aged.any fun e => e.2.contains u

/-- The resource at which a bounced entry waits, and its bounces (R172). -/
def entryAge (s : State) (u : Nat) : Option (Nat × Nat) :=
  match s.req? u, s.engOp? u, s.cmd? u, s.rreq? u with
  | some r, _, _, _ => if r.bounced then some (r.key, r.bounces) else none
  | none, some x, _, _ => if x.bounced then some (engKey s x, x.bounces) else none
  | none, none, some c, _ => if c.bounced then some (cmdKey s c c.cause, c.bounces) else none
  | none, none, none, some r => if r.bounced then some (creditKey s r, r.bounces) else none
  | none, none, none, none => none

/-- A restored entry, if it is aged, at the tail of its list, unless it has its place there (R175). -/
def ageEntry (s : State) (u : Nat) : State :=
  match entryAge s u with
  | some (key, n) => if isAged s u then s else ageAt s key u n
  | none => s

/-- The aged entries of a restored block that have lost a held slot at the tails of their lists (R175). -/
def reage (s : State) (n : Nat) : State :=
  (((tentries s.reqs).map (·.1) ++ (tentries s.engOps).map (·.1) ++ (tentries s.cmds).map (·.1) ++
    (tentries s.rreqs).map (·.1)).filter (entryOf s n)).foldl ageEntry s

/-- The steps of a restore after the integrity check (R394). -/
def restoreBlock (s : State) (n : Nat) (b : Block) : State :=
  let img := b.image.getD ⟨[], [], [], none, none⟩
  let s := countSpill (fillImage s n b img) b.core b.ctx (256 * b.need.scratch + 0x80000 * b.ngangs)
  let ph : Phase := match img.staging with | some x => .staging x.1 x.2 | none => .running
  reissueBlock (reage (s.setBlock n { b with phase := ph, image := none }) n) n

/-- RESTORE (R392, R394): the images are filled, then the replay stores, the loads, the commands, the engines and the
gangs go on. An area that the check refuses leaves the context stopped. -/
def execRestore (b : Nat) (s : State) : Out :=
  .next (match s.block? b with
    | none => s
    | some x =>
      if x.phase != .returned then s
      else if areaIntact s x.ctx then restoreBlock s b x
      else refuseRestore s x.ctx)

end Sys2Proof.Machine
end

