-- ==== Sys2Proof/Machine/Spill.lean ====
section
/-! DEFINITION. What the spill engine writes to a context's save area (R391 to R393): every part whose place the spec
gives. Within a part whose layout it does not give, the order of the fields is this model's; the control state, whose
layout is the device's own, stays with the block in the state (log 11). -/

namespace Sys2Proof.Machine

/-- Where the images of a save area begin (R391). -/
def coreImageAt (n : Nat) : Nat := 0x20000 + 0x800000 * n
def gangImageAt (parts g : Nat) : Nat := 0x20000 + 0x10000000 * parts + 0x80000 * g

/-- Whether a context's save area is aligned and backed (R391). -/
def areaOk (c : Context) : Bool := c.save % 131072 == 0 && backed c.save (0x20000 + 0x50000000 * c.parts)

/-- Bytes at an offset, as the places of those that are not zero. -/
def piece (off : Nat) (bs : List Byte) : List (Nat × Byte) :=
  (bs.zipIdx).filterMap fun e => if e.1 = unwritten then none else some (off + e.2, e.1)

/-- A byte of memory itself. -/
def putByte (s : State) (a : Nat) (x : Byte) : State :=
  { s with mem := { s.mem with bytes := tput unwritten s.mem.bytes a x } }

/-- A range of device memory written over the reserved spill path: zeros but for the bytes listed (R169, R402: its poison is
gone). No cache keeps anything of it. -/
def putRange (s : State) (base len : Nat) (e : List (Nat × Byte)) : State :=
  let out (a : Nat) : Bool := !(decide (base ≤ a) && decide (a < base + len))
  let s := { s with
    mem := { s.mem with
      bytes := s.mem.bytes.filter fun x => out x.1,
      stale := s.mem.stale.filter fun x => out x.1,
      poison := s.mem.poison.filter fun x => out (32 * x),
      oldPoison := s.mem.oldPoison.filter fun x => out (32 * x) },
    core := { s.core with l1 := s.core.l1.filter fun x => out (x.1 % 35184372088832 * 128) } }
  e.foldl (fun (s : State) x => putByte s (base + x.1) x.2) s

/-- The time that the context of a partition's foreground bank has been there, counted for its virtual partition (R352). -/
def creditTime (s : State) (p : Nat) : State :=
  let x := s.part p
  let s := match (tget none x.owners x.fg).bind fun c => (s.ctx? c).map fun d => 8 * d.vf + vpartIndex s d.vf p with
    | some u => { s with energy := { s.energy with
        times := tmod 0 s.energy.times (p * 1024 + u) (· + (s.cycle - max x.metered s.energy.since)) } }
    | none => s
  s.setPart p { x with metered := s.cycle }

/-- Numbers as 8-byte words. -/
def words (l : List Nat) : List Byte := l.flatMap fun x => toBytes 8 x

/-- The 32 bytes of a handler frame (R361). -/
def frameBytes (f : Frame) : List Byte := words [f.set.toNat, f.pc.toNat, f.vp + 256 * f.kt + 65536 * f.ki, 0]

/-- The entry of a request in a replay overflow area (R168): its lanes, addresses, data, bounce count and cause. -/
def reqBytes (u : Nat) (r : Req) : List Byte :=
  words [u, r.bounces, r.cause, r.elems.length] ++ r.elems.flatMap fun e => words [e.lane, e.ea.toNat, e.data.toNat, e.cmp.toNat]

/-- The entry of a remote request. -/
def rreqBytes (u : Nat) (r : RReq) : List Byte :=
  words [u, r.bounces, r.cause, r.elems.length] ++ r.elems.flatMap fun e => words [e.1, e.2, match r.kind with
    | .store d => (d.find? fun x => x.1 == e.1).elim 0 fun x => leValue (fun i => x.2.getD i 0) r.size
    | .atom _ _ o => (o.find? fun x => x.1 == e.1).elim 0 (·.2.1.toNat)
    | .load => 0, match r.kind with
    | .atom _ _ o => (o.find? fun x => x.1 == e.1).elim 0 (·.2.2.toNat)
    | _ => 0]

/-- The entry of a command. -/
def cmdBytes (u : Nat) (c : Cmd) : List Byte :=
  words [u, c.bounces, c.cause, c.c0.toNat, c.c1.toNat, c.c2.toNat, c.c3.toNat, c.boxes.length] ++ words c.boxes

/-- The entry of an engine's access. -/
def engBytes (u : Nat) (x : EngOp) : List Byte := words ([u, x.bounces, x.cause, x.eas.length] ++ x.eas.map (·.toNat))

/-- Entries in an area of a size, each in its own part of it. -/
def overflow (base part n : Nat) (l : List (List Byte)) : List (Nat × Byte) :=
  ((l.take n).zipIdx).flatMap fun e => piece (base + part * e.2) (e.1.take part)

/-- The 17 KiB of a continuation record (R364, R368): its fields, the saved uniform registers, and from 1 KiB on the saved
vector registers. -/
def recPieces (base : Nat) (r : Rec) : List (Nat × Byte) :=
  let kind := match r.kind with | .one => 0 | .many => 1 | .none => 2
  piece base (words [kind, r.id, r.frame, r.result.elim 0 (· + 1), r.cont.pc.toNat, r.cont.exm.toNat, r.cont.lanes.toNat,
      r.cont.perf.toNat, r.resumes, r.serial, r.savedK.length, r.savedV.length] ++
      r.savedK.flatMap fun k => words [k.1, k.2.toNat]) ++
    (r.savedV.zipIdx).flatMap fun v => piece (base + 1024 + 256 * v.2) (v.1.2.flatMap fun x => toBytes 4 x.toNat)

/-- The replay stores of a gang in its image (R168, R392): its own, and its command stream's. -/
def gangOverflow (s : State) (k : Nat) : List (Nat × Byte) :=
  overflow 0x13000 4096 16
    (((tentries s.reqs).filter fun e => e.2.gang == k && (e.2.bounced || e.2.chained)).map (fun e => reqBytes e.1 e.2) ++
      ((tentries s.rreqs).filter fun e => e.2.gang == k && (e.2.bounced || e.2.chained)).map fun e => rreqBytes e.1 e.2) ++
    overflow 0x23000 4096 4 (((tentries s.cmds).filter fun e => e.2.gang == k && e.2.bounced).map fun e => cmdBytes e.1 e.2)

/-- The registers and tables of a gang image (R392). -/
def gangPieces (g : Gang) (errq : DWord) : List (Nat × Byte) :=
  let exm : Lanes := match g.split? with | some sp => sp.exm | none => 0
  let slots : List Nat := [g.regs.fsr.toNat, g.regs.fcr.toNat, g.regs.pri, g.regs.wdlim, g.regs.lcnt, g.regs.scnt, g.frames.length, errq.toNat]
  (g.regs.v.flatMap fun r => piece (256 * r.1) (r.2.flatMap fun x => toBytes 4 x.toNat)) ++
    (g.regs.k.flatMap fun r => piece (0x10000 + 8 * r.1) (toBytes 8 r.2.toNat)) ++
    piece 0x10200 (toBytes 8 exm.toNat ++ (List.range 7).flatMap fun i => toBytes 8 (g.mget (i + 1)).toNat) ++
    piece 0x10240 (slots.flatMap fun x => toBytes 8 x) ++
    (g.detail.flatMap fun d => piece (0x12000 + 32 * d.1)
      (toBytes 8 d.2.addr.toNat ++ toBytes 8 d.2.old.toNat ++ toBytes 2 d.2.peer ++ toBytes 1 d.2.cause ++ toBytes 1 d.2.flags)) ++
    piece 0x12800 (g.frames.flatMap frameBytes) ++
    (tentries g.recs).flatMap fun r => recPieces (0x27000 + 0x4400 * r.1) r.2

/-- A gang's image written to its slot of the save area (R391, R392). -/
def spillGang (s : State) (c : Context) (n k : Nat) : State :=
  match s.gang? k with
  | none => s
  | some g =>
    putRange s (c.save + gangImageAt c.parts (64 * n + 16 * g.sched.quarter + g.sched.slot)) 0x80000
      (gangPieces g (c.errBase + dw c.errHead) ++ gangOverflow s k)

/-- A copy tag in a core image (R393): the command registers, the shape record, the state with TDISC and TFAULT, and the
completed-box bitmap, of its command or of the one that made it ready. -/
def tagPieces (s : State) (n : Nat) (b : Block) (t : Nat) : List (Nat × Byte) :=
  let st := (if b.busy.getLsbD t then 1 else 0) + (if b.ready.getLsbD t then 2 else 0) + (if b.tdisc.getLsbD t then 4 else 0) +
    (if b.tfault.getLsbD t then 8 else 0)
  let base := 0x4D0000 + 1024 * (b.tagbase + t)
  match (match (tentries s.cmds).find? fun e => e.2.gang / 16 == n && e.2.tag == t with
    | some e => some e.2
    | none => tget none b.past t) with
  | some c =>
    piece base (words [c.c0.toNat, c.c1.toNat, c.c2.toNat, c.c3.toNat, c.shape.x, c.shape.y, c.shape.z, (dw 0 + BitVec.ofInt 64 c.shape.sys).toNat,
      (BitVec.ofInt 64 c.shape.szs).toNat, (BitVec.ofInt 64 c.shape.dys).toNat, (BitVec.ofInt 64 c.shape.dzs).toNat, st]) ++
    piece (base + 512) ((List.range 512).map fun i =>
      BitVec.ofNat 8 ((List.range 8).foldr (fun j a => 2 * a + if c.boxes.contains (8 * i + j) then 1 else 0) 0))
  | none => piece (base + 88) (words [st])

/-- An instruction in the array's queue as bytes. -/
def arrOpBytes (op : ArrOp) : List Byte :=
  match op with
  | .window n => words [1, n]
  | .mode mesh a b => words [2, if mesh then 1 else 0, a.toNat, b.toNat]
  | .load mesh first rows => words [3, if mesh then 1 else 0, first, rows.length] ++ rows.flatten
  | .await u => words [4, u]
  | .hold g sp => words [5, g, sp]
  | .go a b => words [6] ++ (a ++ b).flatMap fun x => toBytes 4 x.toNat
  | .cap sel u m d => words [7, match sel with | .lo => 0 | .hi => 1 | .bot => 2 | .right => 3 | .row r => 4 + r, u, m.toNat, d]
  | .clear => words [8]
  | .stat c => words [9, c.toNat]

/-- The Millrace's part of a core image (R393): the mode, the delays, TWIN, RCSTAT, the capture buffer and the queue. -/
def arrayPieces (a : Array) : List (Nat × Byte) :=
  piece 0x4E0000 (words [if a.mesh then 1 else 0, a.combine.toNat % 2 ^ 64, a.combine.toNat / 2 ^ 64, a.twin, a.bits,
      if a.dirty then 1 else 0, if a.capv then 1 else 0, if a.capMesh then 1 else 0, a.queue.length]) ++
    (a.codes.flatMap fun c => piece (0x4E1000 + c.1) [BitVec.ofNat 8 c.2]) ++
    piece 0x4E8000 (a.capture.flatMap fun x => toBytes 2 x) ++ overflow 0x4EC000 1024 16 (a.queue.map arrOpBytes)

/-- A number below 64 that tells the blocks of a core's bank apart: the quarter and the slot of its first gang (R28). -/
def blockRank (s : State) (n : Nat) : Nat := (s.gang? (n * 16)).elim 0 fun g => 16 * (g.sched.quarter % 4) + g.sched.slot % 16

/-- A batch in a core image (R300 to R302). -/
def batchWords (b : Batch) : List Nat := [1 + 2 * b.flags + 512 * b.fpx + 131072 * b.drop.toNat + if b.gerr then 2 ^ 32 else 0]

/-- Where the matrix state of a gang lies in a core image: by its quarter and slot. -/
def matrixAt (g : Gang) : Nat := 0x4C0000 + 1024 * (16 * (g.sched.quarter % 4) + g.sched.slot % 16)

/-- The reservations, the batches and the stream queue of a gang in a core image (R393): a matrix instruction that has issued
has acted, or it is the entry of the gang that waits in the engine's queue (log 26). -/
def matrixPieces (s : State) (n : Nat) (g : Gang) : List (Nat × Byte) :=
  ((tentries g.mat.res).flatMap fun r => piece (matrixAt g + 32 * (r.1 % 8)) (words
    [1 + 2 * r.2.t.code + (if r.2.mx then 64 else 0) + (if r.2.recv then 128 else 0),
      r.2.base + 2 ^ 16 * r.2.len + 2 ^ 32 * r.2.sbase + 2 ^ 48 * r.2.ncap, r.2.presence.toNat])) ++
    piece (matrixAt g + 256) (words ([g.mat.top, g.mat.drop.toNat, if g.mat.gerr then 1 else 0, g.mat.closed.length] ++
      (g.mat.opened.elim [0] batchWords) ++
      (((tentries g.mat.closed).take 28).flatMap fun e => e.1 :: batchWords e.2))) ++
    piece (matrixAt g + 744) ((((tentries s.engOps).filter fun e => e.2.gang == 16 * n + g.idx).flatMap fun e =>
      engBytes e.1 e.2).take 280)

/-- The gangs of a block. -/
def gangsIn (s : State) (n : Nat) (b : Block) : List Gang := (blockGangs b n).filterMap s.gang?

/-- The crews of a core and the arrivals at its block's barrier (R36, R195, R393), crew by crew. -/
def crewPieces (s : State) (n : Nat) (b : Block) : List (Nat × Byte) :=
  ((List.range 32).flatMap fun c =>
    let x := s.crew (crewKey b c)
    if x = crewDefault then [] else
    piece (0x4F0000 + 96 * c) (words [x.members.length, x.left.length, x.gen,
      x.members.foldl (fun a m => a + 2 ^ (m.1 % 16)) 0])) ++
    piece (0x4F0C00 + 8 * blockRank s n) (words [(blockGangs b n).foldl (fun a k => a + match s.gang? k with
      | some g => if arrivedBar g then 2 ^ (k % 16) else 0
      | none => 0) 0])

/-- The replay store of a block's engines in its core image (R168, R393). -/
def engineOverflow (s : State) (n : Nat) : List (Nat × Byte) :=
  overflow (0x500000 + 16384 * blockRank s n) 4096 engineEntries
    (((tentries s.engOps).filter fun e => e.2.gang / 16 == n && e.2.bounced).map fun e => engBytes e.1 e.2)

/-- What of a block's state in a core is in no store of bytes (R389, R393). -/
def corePieces (s : State) (n : Nat) (b : Block) (img : Image) : List (Nat × Byte) :=
  (gangsIn s n b).flatMap (matrixPieces s n) ++ (List.range b.need.tags).flatMap (tagPieces s n b) ++ crewPieces s n b ++
    engineOverflow s n ++ (match img.array with | some a => arrayPieces a | none => [])

/-- The ranges of a core image that those pieces are written over. -/
def coreRanges (s : State) (n : Nat) (b : Block) (img : Image) : List (Nat × Nat) :=
  (gangsIn s n b).map (fun g => (matrixAt g, 1024)) ++
    [(0x4D0000 + 1024 * b.tagbase, 1024 * b.need.tags), (0x4F0000, 0xC00), (0x4F0C00 + 8 * blockRank s n, 8),
      (0x500000 + 16384 * blockRank s n, 16384)] ++ (if img.array.isSome then [(0x4E0000, 0x10000)] else [])

/-- The stores of a block written to its core's image (R393). -/
def spillStores (s : State) (c : Context) (k n : Nat) (b : Block) (img : Image) : State :=
  let base := c.save + coreImageAt n
  let s := putRange s (base + b.scrbase) (256 * b.need.scratch) (img.scratch.filter fun e => e.2 != unwritten)
  let s := img.tiles.foldl (fun s t =>
    putRange s (base + 0x80000 + 0x100000 * (t.1 / 64 % 4) + 32768 * (t.1 % 32)) 32768
      (piece 0 (t.2.flatMap fun x => toBytes 4 x.1.toNat ++ toBytes 4 x.2.toNat))) s
  let s := img.opbuf.foldl (fun (s : State) e => putByte s (base + 0x480000 + 0x10000 * (e.1 / 131072 % 4) + e.1 % 65536) e.2) s
  let s := (coreRanges s k b img).foldl (fun s r => putRange s (base + r.1) r.2 []) s
  (corePieces s k b img).foldl (fun (s : State) e => putByte s (base + e.1) e.2) s

/-- The images of a swapped-out block written (R387, R391). -/
def spillBlock (s : State) (c : Context) (n : Nat) (b : Block) : State :=
  match b.image with
  | none => s
  | some img =>
    let v := corenum s b
    let s := countSpill s b.core b.ctx (256 * b.need.scratch + 0x80000 * b.ngangs)
    (blockGangs b n).foldl (fun s k => spillGang s c v k) (spillStores s c n v b img)

/-- The code of a context's state (R391). -/
def stateCode : CtxState → Nat
  | .running => 0
  | .trapped => 1
  | .killed => 2
  | .stopped => 3

/-- The hardware queues that a context owns, in ascending number (R151). -/
def ctxQueues (s : State) (ctx : Nat) : List Nat := (List.range 1024).filter fun n =>
  (s.ctx? ctx).isSome && (s.queue n).ctx == ctx

/-- The dispatcher list of a status block (R391): for each queue that a context owns, then for its device launch
queue, the record address and the grid position of the launch at the front. -/
def dispatcherList (s : State) (ctx : Nat) : List Byte :=
  let qs := ctxQueues s ctx ++ [1024 + ctx]
  qs.flatMap fun q =>
    match frontOf s q with
    | some (_, l) => toBytes 8 l.record.toNat ++ toBytes 16 l.next ++ toBytes 8 0
    | none => toBytes 32 0

/-- The integrity tag of a save area, over everything in it but the tag itself (R391; log 11). -/
def areaTag (s : State) (c : Context) : DWord :=
  Config.integrityTag (((areaBytes s c.save c.parts).filter fun e => !(decide (0x30 ≤ e.1) && decide (e.1 < 0x38))).flatMap
    fun e => toBytes 8 e.1 ++ [e.2])

/-- A context's status block written, and the fabric requester's replay overflow after it, which holds nothing (R168, R391; log
26). -/
def writeStatus (s : State) (ctx : Nat) : State :=
  match s.ctx? ctx with
  | none => s
  | some c =>
    if !areaOk c then s
    else
      let fields : List Nat := [stateCode c.state, c.wrdcnt.toNat, c.gen, c.tagcnt, c.ntrap, c.npark]
      let s := putRange s c.save 0x20000 (piece 0 (fields.flatMap fun x => toBytes 8 x) ++ piece 0x1000 (dispatcherList s ctx))
      s.writePhys (c.save + 0x30) 8 (areaTag s c).toNat

/-- The gangs, the launches and the entries that belong to a context's blocks. -/
def ctxBlocks (s : State) (ctx : Nat) : List (Nat × Block) := (tentries s.blocks).filter fun e => e.2.ctx == ctx

/-- What the save area of a context stands for, as it is now. -/
def snapshot (s : State) (ctx : Nat) (c : Context) : Saved :=
  let bs := ctxBlocks s ctx
  let mine (gang : Nat) : Bool := bs.any fun b => b.1 == gang / 16
  { top := s.uid, bytes := areaBytes s c.save c.parts, ctx := c, devq := c.devq,
    blocks := bs.map fun e => (e.1, { e.2 with core := corenum s e.2 }),
    gangs := (tentries s.gangs).filter fun e => mine e.1,
    launches := (tentries s.launches).filter fun e => e.2.ctx == ctx,
    reqs := (tentries s.reqs).filter fun e => mine e.2.gang,
    rreqs := (tentries s.rreqs).filter fun e => mine e.2.gang,
    longs := (tentries s.longs).filter fun e => mine e.2.gang,
    cmds := (tentries s.cmds).filter fun e => mine e.2.gang,
    engOps := (tentries s.engOps).filter fun e => mine e.2.gang,
    queues := (ctxQueues s ctx).map fun q => (q, s.queue q),
    aged := (s.aged.flatMap (·.2)).filter fun u => (entryBlock s u).any fun n => bs.any fun b => b.1 == n,
    waits := s.waits.filter fun w => (w.kind == 2 && bs.any (fun b => b.1 == w.key)) ||
      ((w.kind == 4 || w.kind == 6) && (entryBlock s w.key).any fun n => bs.any fun b => b.1 == n),
    deliveries := s.deliveries.filter fun x => mine x.gang,
    crews := (s.core.crews.filter fun e => e.1 / 8192 == ctx).map fun e =>
      (32 * vpartIndex s c.vf (partOf (e.1 / 32 % 256)) + e.1 / 32 % 32, e.1 % 32, e.2) }

/-- The status block written, and what the area stands for kept with its bytes. -/
def sealArea (s : State) (ctx : Nat) : State :=
  let s := writeStatus s ctx
  match s.ctx? ctx with
  | none => s
  | some c => { s with areas := tput none s.areas ctx (some (snapshot s ctx c)) }

/-- Whether what a block had in flight has landed (R388): the returns of its requests, its remote responses, and the deliveries
of its engine that nothing holds back. -/
def settled (s : State) (n : Nat) : Bool :=
  (tentries s.reqs).all (fun e => e.2.gang / 16 != n || e.2.dest == .none || e.2.performed.all (e.2.returned.contains ·)) &&
    (tentries s.rreqs).all (fun e => e.2.gang / 16 != n || e.2.sent == 0 || e.2.final) &&
    s.deliveries.all fun x => x.gang / 16 != n || !mayArrive s x

/-- The swapped-out blocks of a context written to its save area (R387, R391), with what of their accesses has not performed in
their replay stores (R394); an area that cannot be written leaves the context stopped, with a NOTICE. -/
def spillCtx (s : State) (ctx : Nat) : State :=
  match s.ctx? ctx with
  | none => s
  | some c =>
    if !areaOk c then haltCtx (notice s 64 ctx 5 0 0 []) ctx
    else
      let s := ((ctxBlocks s ctx).filter fun e => !e.2.resident).foldl (fun s e => bounceRest s e.1) s
      sealArea ((ctxBlocks s ctx).foldl (fun s e => spillBlock s c e.1 e.2) s) ctx

end Sys2Proof.Machine
end

