-- ==== Sys2Proof/Machine/FaultService.lean ====
section
/-! DEFINITION. The host fault service and context control (R339, R359, R381 to R386, R391 to R394): fault rings,
service of absent pages, and CTXCTL with LCANCEL. -/

namespace Sys2Proof.Machine

-- Fault rings (R382, R383).

/-- The 128 bytes of a fault record (R382). -/
def recordBytes (r : FRec) : List Byte :=
  let addrs := r.addrs.take 8
  toBytes 8 r.stamp.toNat ++ toBytes 4 r.seq ++ toBytes 2 r.src ++ toBytes 2 r.ctx ++ toBytes 1 r.cls ++ toBytes 1 r.cause ++
    toBytes 1 r.sub ++ toBytes 1 addrs.length ++ toBytes 2 r.gang ++ toBytes 1 r.stage ++ toBytes 1 0 ++ toBytes 8 r.pc.toNat ++
    toBytes 8 (r.block % 2 ^ 64) ++ toBytes 8 r.lanes.toNat ++ toBytes 8 r.aux.toNat ++ toBytes 8 (r.block / 2 ^ 64 % 2 ^ 32) ++
    (addrs.flatMap fun a => toBytes 8 a.toNat) ++ toBytes (8 * (8 - addrs.length)) 0

/-- Whether a ring has space for a record (R383). -/
def Ring.space (r : Ring) : Bool := r.base != 0 && decide ((r.tail - r.head).toNat < r.capacity)

/-- A page of the fault service: 0 to 63 of the VFs, 64 of the PF. -/
def isPage (n : Nat) : Bool := decide (n < 65)

/-- Whole aligned sectors written by the hub (R402: their poison is gone; R105: reservations of the line are lost). -/
def writeRecord (s : State) (a : Nat) (bs : List Byte) : State :=
  let s := dropCopies s (a / 128) none
  clearLine ((List.range (bs.length / 32)).foldl (fun s i => clearPoison (storeSector s (a / 32 + i)) (a / 32 + i))
    (s.writeBytes a bs)) (2 * (a / 128))

/-- FAULT_RECORD_WRITE (R383): the oldest pending record goes to the ring, and TAIL advances. The record's STAMP has passed, so no
other of that STAMP can still come before it (R396), and its home takes the write (R401, R406). -/
def execFaultRecordWrite (ring : Nat) (s : State) : Out :=
  .next (
    let r := s.ring ring
    match r.pend with
    | [] => s
    | x :: rest =>
      if r.space && x.dev != s.stamp && placeOpen s none ⟨false, r.base + 128 * (r.tail.toNat % r.capacity), 0, 0⟩ 1 then
        (writeRecord s (r.base + 128 * (r.tail.toNat % r.capacity)) (recordBytes x)).setRing ring { r with pend := rest, tail := r.tail + 1 }
      else s)

/-- FHEAD_WRITE (R383). -/
def execFheadWrite (ring : Nat) (v : DWord) (s : State) : Out :=
  .next (if isPage ring then s.setRing ring { s.ring ring with head := v.truncate 32 } else s)

/-- FRING_WRITE (R383): BASE and SIZE of a VF's ring or of the PF's. -/
def execFringWrite (ring : Nat) (v : DWord) (s : State) : Out :=
  .next (if isPage ring then
    s.setRing ring { s.ring ring with base := v.toNat / 4096 * 4096, size := min (v.toNat % 16) 8 } else s)

/-- FSTAT_WRITE (R383): a 1 in bit 63 clears OVF, or ERR of CTXSTAT. -/
def execFstatWrite (page : Nat) (errReg : Bool) (v : DWord) (s : State) : Out :=
  .next (if isPage page && bitOf v 63 then
    (if errReg then s.setRing page { s.ring page with err := false } else s.setRing page { s.ring page with ovf := false })
  else s)

-- Service of absent pages (R384).

/-- Whether a served SEQ names a record of a ring. -/
def seqNamed (v : DWord) (seq : Nat) : Bool := bitsOf v 31 0 == 4294967295 || bitsOf v 31 0 == seq

/-- A parked gang whose record is served: its entry is marked. -/
def serveGang (ring : Nat) (v : DWord) (g : Gang) : Gang :=
  match g.hold with
  | .park u r seq since _ => if r = ring ∧ seqNamed v seq then { g with hold := .park u r seq since true } else g
  | _ => g

/-- A reader or writer of the hub, or a command, that a served record let go on (R384): a command of a block that does
not run waits for nothing more, and is reissued when its block is restored (R394). -/
def serveWait (s : State) (w : HubWait) : State :=
  if w.kind = 4 then
    match s.cmd? w.key with
    | some c =>
      if c.bounced && c.cause == 1 then
        (if gangRuns s c.gang then reissueCmd s w.key else s.setCmd w.key (some { c with cause := 6 }))
      else s
    | none => s
  else if w.kind = 6 then
    match s.req? w.key with
    | some r => if r.bounced && r.cause == 1 then reissueReq s w.key else s
    | none => reissueEng s w.key
  else s

/-- Whether a gang waits for a page that FSERVE names: its fetch, or an entry of it that waits alone. -/
def servesGang (s : State) (ring : Nat) (v : DWord) (key : Nat) (g : Gang) : Bool :=
  (match g.hold with | .park _ r seq _ _ => r == ring && seqNamed v seq | _ => false) ||
    s.waits.any fun w => w.kind == 6 && w.ring == ring && seqNamed v w.seq && (match s.req? w.key, s.engOp? w.key with
      | some r, _ => r.gang == key
      | none, some x => x.gang == key
      | none, none => false)

/-- FSERVE (R384): the entries that the record named are served; those whose owner runs in the foreground are
reissued. A gang whose park limit is over in this cycle has left with its block (R395). -/
def execFserve (ring : Nat) (v : DWord) (s : State) : Out :=
  .next (
    let s := ((tentries s.gangs).filter fun e => servesGang s ring v e.1 e.2).foldl (fun s e => parkOut s e.1) s
    let ws := s.waits.filter fun w => w.ring == ring && seqNamed v w.seq
    let s := { s with
      waits := s.waits.filter fun w => !(w.ring == ring && seqNamed v w.seq),
      gangs := s.gangs.map fun e => (e.1, e.2.map (serveGang ring v)) }
    let s := ws.foldl serveWait s
    let parked := (tentries s.gangs).filter fun e => (match e.2.hold with | .park _ _ _ _ true => true | _ => false) && gangRuns s e.1
    let s := parked.foldl (fun s e => unpark s e.1) s
    completeLaunches s)

-- Context control (R385).

/-- The physical function's fault page. -/
def pfPage : Nat := 64

/-- A request on a fault page refused (R385, R386). -/
def refusePage (s : State) (page : Nat) : State :=
  if isPage page then s.setRing page { s.ring page with err := true } else s

/-- The context that a fault page may name (R383). -/
def pageCtx (s : State) (page ctx : Nat) : Option Context :=
  match s.ctx? ctx with
  | some c => if page = pfPage ∨ c.vf = page then some c else none
  | none => none

/-- The blocks of a context that a trap took out. -/
def trappedBlocks (s : State) (ctx : Nat) : List (Nat × Block) :=
  (ctxBlocks s ctx).filter fun e => match e.2.phase with | .swapped true _ => true | _ => false

/-- The stopped gangs of a context. -/
def stoppedGangs (s : State) (ctx : Nat) : List (Nat × Gang) :=
  (tentries s.gangs).filter fun e => e.2.stopped.isSome && (match s.block? e.2.block with | some b => b.ctx == ctx | none => false)

/-- A gang goes on after its trap (R385): at its recorded PC, or past the trapping instruction. -/
def releaseTrap (skip : Bool) (g : Gang) : Gang :=
  match g.stopped, g.split? with
  | some t, some sp => { g.setPc (if skip then sp.pc + dw (t.skip.getD 0) else sp.pc) with stopped := none }
  | _, _ => { g with stopped := none }

/-- RESUME or SKIP (R385, R392): the trapped blocks may return, and the context runs. -/
def resumeCtx (s : State) (ctx : Nat) (skip : Bool) : State :=
  if !areaIntact s ctx then refuseRestore s ctx
  else
    let s := (stoppedGangs s ctx).foldl (fun s e => s.modGang e.1 (releaseTrap skip)) s
    let s := (trappedBlocks s ctx).foldl (fun s e => s.modBlock e.1 fun b => { b with phase := .swapped true true }) s
    let s := s.modCtx ctx fun c => { c with state := .running }
    if (tget none s.areas ctx).isSome then sealArea s ctx else writeStatus s ctx

/-- CTXCTL RESUME (R385). -/
def execCtxctlResume (page ctx : Nat) (s : State) : Out :=
  .next (match pageCtx s page ctx with
    | some c => if c.state = .trapped && !c.stopping then resumeCtx s ctx false else refusePage s page
    | none => refusePage s page)

/-- CTXCTL SKIP (R385): refused whole if one trapping gang has no instruction to skip. -/
def execCtxctlSkip (page ctx : Nat) (s : State) : Out :=
  .next (match pageCtx s page ctx with
    | some c =>
      if c.state = .trapped && !c.stopping && (stoppedGangs s ctx).all fun e => match e.2.stopped with | some t => t.skip.isSome | none => true then
        resumeCtx s ctx true
      else refusePage s page
    | none => refusePage s page)

/-- The status of a launch that is cancelled (R33): one that ended before any block was placed keeps its own. -/
def cancelStatus (l : Launch) : Nat :=
  match l.ended with
  | some st => if st = stInvalid ∨ st = stNoFit ∨ st = stDiscarded ∨ st = stWait then st else stCancelled
  | none => stCancelled

/-- A launch cancelled (R385, R386): nothing more of it is placed. -/
def cancelLaunch (s : State) (u : Nat) : State :=
  match s.launch? u with
  | some l => completeLaunch (s.setLaunch u { l with ended := some (cancelStatus l) }) u
  | none => s

/-- A context killed (R385): its blocks end, entries that have not performed are discarded, and every launch completes
with STATUS CANCELLED. Its blocks have not retired, so their killed lanes count in no completion record (R33). -/
def killCtx (s : State) (ctx : Nat) : State :=
  let bs := ctxBlocks s ctx
  let s := unageAll s fun u => bs.any fun b => entryOf s b.1 u
  let s := ((tentries s.launches).filter fun e => e.2.ctx == ctx && !e.2.written).foldl
    (fun (s : State) (e : Nat × Launch) => s.setLaunch e.1 { e.2 with ended := some (cancelStatus e.2) }) s
  let s := bs.foldl (fun s b => blockGone s b.1 b.2) s
  let s := { s with core := { s.core with crews := s.core.crews.filter fun e => e.1 / 8192 != ctx } }
  let s := (List.range 8).foldl (fun (s : State) p =>
    let s := creditTime s p
    s.setPart p { s.part p with owners := (s.part p).owners.filter fun o => o.2 != some ctx }) s
  let s := s.modCtx ctx fun c => { c with state := .killed, devq := [], stopping := false }
  writeStatus (((tentries s.launches).filter fun e => e.2.ctx == ctx).foldl (fun s e => cancelLaunch s e.1) s) ctx

/-- CTXCTL KILL (R385). -/
def execCtxctlKill (page ctx : Nat) (s : State) : Out :=
  .next (match pageCtx s page ctx with
    | some _ => killCtx s ctx
    | none => refusePage s page)

/-- A STOP that comes to its end (R350, R385): once all that its blocks had in flight has landed (R388), remote requests on their
way too, its images are written and its state is STOPPED. -/
def endStop (s : State) (ctx : Nat) : State :=
  if !(ctxBlocks s ctx).all fun e => settled s e.1 then s
  else spillCtx (s.modCtx ctx fun c => { c with state := .stopped, stopping := false }) ctx

/-- A context stopped (R385): its deliveries in flight that nothing holds back arrive, every block is swapped out, and its images
are written. -/
def stopCtx (s : State) (ctx : Nat) : State :=
  let mine (k : Nat) : Bool := (s.block? (k / 16)).elim false fun b => b.ctx == ctx
  let s := (s.deliveries.filter fun x => mine x.gang && mayArrive s x).foldl (fun s x => deliver { s with deliveries := s.deliveries.erase x } x) s
  let s := (ctxBlocks s ctx).foldl (fun s e => swapOut s e.1 .stopped) s
  endStop (s.modCtx ctx fun c => { c with stopping := true }) ctx

/-- The contexts whose STOP waits. -/
def endStops (s : State) : State := (tentries s.ctxs).foldl (fun s e => if e.2.stopping then endStop s e.1 else s) s

/-- CTXCTL STOP (R385): on the physical function's page only. -/
def execCtxctlStop (page ctx : Nat) (s : State) : Out :=
  .next (match pageCtx s page ctx with
    | some c => if page = pfPage ∧ (c.state = .running ∨ c.state = .trapped) ∧ !c.stopping then stopCtx s ctx else refusePage s page
    | none => refusePage s page)

/-- The address of a context's descriptor from its context table entry, if the entry is used (R359). -/
def descriptorAt (s : State) (ctx : Nat) : Option Nat :=
  if s.pf.ctxtab = 0 then none
  else
    let e := dw (s.readPhys (s.pf.ctxtab + 8 * ctx) 8)
    if bitOf e 63 then some (bitsOf e 51 6 * 64) else none

/-- Whether the context table entry and the descriptor of a context can be read (R406). -/
def descriptorReady (s : State) (ctx : Nat) : Bool :=
  s.pf.ctxtab == 0 || (placesReady s (s.pf.ctxtab + 8 * ctx) 8 && (match descriptorAt s ctx with
    | some a => placesReady s a 64
    | none => true))

/-- Whether what a context keeps in memory can be reached (R406): its save area, which lies in every channel or behind every port,
and its dirty bitmap. -/
def storesReady (s : State) (c : Context) : Bool :=
  (!areaOk c || (if isHbm c.save
    then decide (512 ≤ (s.pf.ready.filter fun f => match f with | .chan _ => true | _ => false).length)
    else (List.range 4).all fun i => s.pf.ready.contains (.port (4 + i)))) &&
  (!c.dten || (List.range (min (c.dirtyn / 8 + 1) 131072 / 32 + 1)).all fun i => homeReady s ⟨false, c.dirty + 32 * i, 0, 0⟩)

/-- A context's descriptor read (R339), over what the context holds already; none if it is refused. -/
def readDescriptor (s : State) (a : Nat) (c : Context) : Option Context :=
  let vf := s.readPhys (a + 2) 1
  let flags := s.readPhys (a + 3) 1
  let parts := s.readPhys (a + 4) 1
  let groot := s.readPhys (a + 8) 8
  let hroot := s.readPhys (a + 0x10) 8
  if s.readPhys (a + 5) 3 ≠ 0 ∨ s.readPhys (a + 0x34) 4 ≠ 0 ∨ 1 < flags ∨ groot % 1024 ≠ 0 ∨ hroot % 1024 ≠ 0 ∨ parts = 0
      ∨ parts ≠ ((List.range 8).filter fun p => (s.vf vf).vpart.getLsbD p).length then none
  else
    some { c with
      vf := vf, dten := flags == 1, parts := parts, groot := groot, hroot := hroot, stoff := dw (s.readPhys (a + 0x18) 8),
      peert := s.readPhys (a + 0x20) 8, dirty := s.readPhys (a + 0x28) 8, dirtyn := s.readPhys (a + 0x30) 4,
      save := s.readPhys (a + 0x38) 8 }

/-- A context before anything has happened in it (R60, R223, R385). -/
def freshCtx : Context :=
  { vf := 0, state := .running, dten := false, parts := 0, groot := 0, hroot := 0, stoff := 0, peert := 0, dirty := 0, dirtyn := 0,
    save := 0, wrdcnt := 0, gen := 0, tagcnt := 0, ntrap := 0, npark := 0, devq := [], errBase := 0, errHead := 0, errCount := 0,
    errOvf := false }

/-- A NOTICE about a descriptor (R339), and the operation refused. -/
def badDescriptor (s : State) (page ctx : Nat) : State := refusePage (notice s 64 ctx 5 0 0 []) page

/-- A created context (R359, R385): a new generation, and a status block. -/
def createCtx (s : State) (ctx : Nat) (c : Context) : State :=
  let gen := (tget 0 s.energy.gens ctx + 1) % 65536
  let s := { s with energy := { s.energy with gens := tput 0 s.energy.gens ctx gen }, areas := tput none s.areas ctx none }
  writeStatus (s.setCtx ctx { c with gen := gen }) ctx

/-- CTXCTL CREATE (R385): it takes effect once the memory that it reads and writes is ready (R406). -/
def execCtxctlCreate (page ctx : Nat) (s : State) : Out :=
  .next (
    let fresh := match s.ctx? ctx with | none => true | some c => c.state == .killed
    if page ≠ pfPage || !fresh then refusePage s page
    else if !descriptorReady s ctx then s
    else match descriptorAt s ctx with
      | none => badDescriptor s page ctx
      | some a =>
        match readDescriptor s a freshCtx with
        | none => badDescriptor s page ctx
        | some c => if storesReady s c then createCtx s ctx c else s)

/-- The physical core of a virtual core of a virtual function (R338). -/
def physCore (s : State) (vf n : Nat) : Nat :=
  32 * (((List.range 8).filter fun p => (s.vf vf).vpart.getLsbD p).getD (n / 32) 0) + n % 32

/-- Whether saved blocks may be restored under a virtual function's partitions (R350). -/
def shapeFits (s : State) (vf : Nat) (sv : Saved) : Bool :=
  sv.blocks.all fun e => e.2.need.shadow || !(s.part (partOf (physCore s vf e.2.core))).shadow

/-- A saved block, to be returned when its context runs. -/
def startBlock (s : State) (ctx vf : Nat) (b : Block) : Block :=
  { b with ctx := ctx, core := physCore s vf b.core, phase := .swapped false false }

/-- Saved entries put back. -/
def putAll {α : Type} [DecidableEq α] (t : Tab (Option α)) (l : List (Nat × α)) : Tab (Option α) :=
  l.foldl (fun t e => tput none t e.1 (some e.2)) t

-- The numbers of an area that another context or another device wrote, raised so that they name nothing here.

/-- A number that may be 0 for none. -/
def shiftNum (d n : Nat) : Nat := if n = 0 then 0 else n + d

def shiftWindow (d : Nat) (w : Window) : Window := { w with op := shiftNum d w.op }

def shiftResv (d : Nat) (r : Resv) : Resv := { r with lr := r.lr + d, sc := shiftNum d r.sc }

/-- DESIGN CHOICE (log 77): a SLEEP's wake cycle counts on the clock of the device that restores it, as it stands. -/
def shiftSplit (d : Nat) (sp : Split) : Split :=
  { sp with
    uid := sp.uid + d, path := sp.path.map fun x => { x with id := x.id + d }, windows := sp.windows.map (shiftWindow d),
    resv := sp.resv.map (shiftResv d), spent := sp.spent.map (shiftResv d),
    ldDeps := sp.ldDeps.map (· + d), stDeps := sp.stDeps.map (· + d), elder := sp.elder.map (· + d) }

def shiftHold (d : Nat) (h : Hold) : Hold :=
  match h with
  | .none => .none
  | .walk n => .walk (shiftNum d n)
  | .park n ring seq since served => .park (shiftNum d n) ring seq since served
  | .remote grp la => .remote (grp + d) la

def shiftGang (d : Nat) (g : Gang) : Gang :=
  let batch (b : Batch) : Batch := { b with split := b.split + d }
  { g with
    block := g.block + d, splits := g.splits.map fun e => (e.1, e.2.map (shiftSplit d)), deferred := g.deferred.map (shiftSplit d),
    hold := shiftHold d g.hold,
    mat := { g.mat with opened := g.mat.opened.map batch, closed := g.mat.closed.map fun e => (e.1, e.2.map batch) },
    sched := { g.sched with stuck := g.sched.stuck.map (· + d), raised := g.sched.raised.map (· + d),
                            before := g.sched.before.map (shiftWindow d) } }

def shiftArray (d : Nat) (a : Array) : Array :=
  { a with owner := a.owner.map (· + d), queue := a.queue.map fun op => match op with
      | .await u => .await (u + d)
      | .hold k sp => .hold (k + 16 * d) (sp + d)
      | .cap sel u m v => .cap sel (u + d) m v
      | x => x }

def shiftCmd (d : Nat) (c : Cmd) : Cmd := { c with gang := c.gang + 16 * d, split := c.split + d, deps := c.deps.map (· + d) }

/-- What a save area stands for, with its numbers raised. -/
def Saved.shift (d : Nat) (sv : Saved) : Saved :=
  { sv with
    devq := sv.devq.map (· + d),
    blocks := sv.blocks.map fun e => (e.1 + d, { e.2 with
      launch := e.2.launch + d, past := e.2.past.map fun p => (p.1, p.2.map (shiftCmd d)),
      image := e.2.image.map fun (i : Image) => { i with array := i.array.map (shiftArray d) } }),
    gangs := sv.gangs.map fun e => (e.1 + 16 * d, shiftGang d e.2),
    launches := sv.launches.map fun e => (e.1 + d, { e.2 with cmd := e.2.cmd.map fun x => (x.1 + d, x.2 + d) }),
    reqs := sv.reqs.map fun e => (e.1 + d, { e.2 with
      gang := e.2.gang + 16 * d, split := e.2.split + d, deps := e.2.deps.map (· + d), elder := e.2.elder.map (· + d),
      readers := e.2.readers.map (· + d) }),
    rreqs := sv.rreqs.map fun e => (e.1 + d, { e.2 with
      gang := e.2.gang + 16 * d, split := e.2.split + d, group := e.2.group + d, deps := e.2.deps.map (· + d) }),
    longs := sv.longs.map fun e => (e.1 + d, { e.2 with gang := e.2.gang + 16 * d, split := e.2.split + d }),
    cmds := sv.cmds.map fun e => (e.1 + d, shiftCmd d e.2),
    engOps := sv.engOps.map fun e => (e.1 + d, { e.2 with
      gang := e.2.gang + 16 * d, split := e.2.split + d, deps := e.2.deps.map (· + d), stores := e.2.stores.map (· + d) }),
    aged := sv.aged.map (· + d),
    waits := sv.waits.map fun w => { w with key := w.key + d },
    deliveries := sv.deliveries.map fun x => { x with uid := x.uid + d, gang := x.gang + 16 * d, deps := x.deps.map (· + d) },
    crews := sv.crews.map fun e => (e.1, e.2.1, { e.2.2 with
      members := e.2.2.members.map fun m => (m.1 + 16 * d, m.2), left := e.2.2.left.map (· + 16 * d) }) }

/-- The queues of a context as they were saved (R154, R350): HEAD, TAIL and the pending bits, queue by queue in ascending
number. -/
def putQueues (s : State) (ctx : Nat) (l : List (Nat × HQueue)) : State :=
  ((ctxQueues s ctx).zip l).foldl (fun s e => s.setQueue e.1 { s.queue e.1 with
    head := e.2.2.head, tail := e.2.2.tail, pending := e.2.2.pending }) s

/-- The queue here that stands for a saved one (R350): that of the same rank among the context's, or its device launch queue. -/
def queueHere (s : State) (ctx : Nat) (l : List (Nat × HQueue)) (q : Nat) : Nat :=
  if 1024 ≤ q then 1024 + ctx else ((ctxQueues s ctx)[(l.map (·.1)).idxOf q]?).getD q

/-- The resource here that stands for a saved request's (R172, R338): that of its own core or cluster, or the same one. -/
def keyHere (s : State) (gang key : Nat) : Nat :=
  if key % 16 = 2 then 2 + 16 * clusterOf (keyCore s gang)
  else if key / 16 < 256 then key % 16 + 16 * keyCore s gang
  else key

/-- The crews of a context as they were saved (R36, R195). -/
def putCrews (s : State) (ctx vf : Nat) (l : List (Nat × Nat × Crew)) : State :=
  l.foldl (fun s e => s.setCrew ((ctx * 256 + physCore s vf e.1) * 32 + e.2.1 % 32) e.2.2) s

/-- The blocks of a context that is STOPPED here made ready to return, each at its virtual core (R338, R385): they, their gangs and
their entries are those of the STOP, with the served marks that have come since (R384). -/
def startHere (s : State) (ctx vf : Nat) (sv : Saved) : State :=
  let s := sv.blocks.foldl (fun (s : State) e => s.modBlock e.1 fun b => startBlock s ctx vf { b with core := e.2.core }) s
  let s := sv.gangs.foldl (fun (s : State) e => s.modGang e.1 fun g => { g with stopped := none }) s
  putCrews { s with core := { s.core with crews := s.core.crews.filter fun e => e.1 / 8192 != ctx } } ctx vf sv.crews

/-- What a save area stands for put into the state (R385, R394), for a context that has nothing here: its blocks, gangs, launches
and entries, its crews and queues, its aged entries in their order (R175), and what waits to be served (R384). -/
def startAway (s : State) (ctx vf : Nat) (sv : Saved) : State :=
  let s := { s with
    blocks := putAll s.blocks (sv.blocks.map fun (e : Nat × Block) => (e.1, startBlock s ctx vf e.2)),
    launches := putAll s.launches (sv.launches.map fun (e : Nat × Launch) =>
      (e.1, { e.2 with ctx := ctx, queue := queueHere s ctx sv.queues e.2.queue })) }
  let ringHere (r : Nat) : Nat := if r < 64 then vf else r
  let s := { s with
    gangs := putAll s.gangs (sv.gangs.map fun (e : Nat × Gang) => (e.1, { e.2 with
      stopped := none, hold := (match e.2.hold with | .park u r seq _ b => .park u (ringHere r) seq s.cycle b | h => h) })),
    reqs := putAll s.reqs (sv.reqs.map fun (e : Nat × Req) => (e.1, { e.2 with key := keyHere s e.2.gang e.2.key })),
    rreqs := putAll s.rreqs sv.rreqs, longs := putAll s.longs sv.longs, cmds := putAll s.cmds sv.cmds,
    engOps := putAll s.engOps sv.engOps, deliveries := s.deliveries ++ sv.deliveries,
    waits := s.waits ++ sv.waits.map fun w => { w with ring := ringHere w.ring } }
  let s := sv.aged.foldl ageEntry s
  putQueues (putCrews s ctx vf sv.crews) ctx sv.queues

/-- What a STOPPED context has here gone (R385): its area is another one. -/
def dropCtx (s : State) (ctx : Nat) : State :=
  let s := (ctxBlocks s ctx).foldl (fun s e => removeBlock (unageAll s (entryOf s e.1)) e.1) s
  { s with
    launches := s.launches.filter fun e => match e.2 with | some l => l.ctx != ctx || l.ended.isSome | none => false
    core := { s.core with crews := s.core.crews.filter fun e => e.1 / 8192 != ctx } }

/-- A stopped context started from its save area (R385, R394): one that is STOPPED here from what it left; else with the numbers
of the area as they are, if it is the context's own, or with fresh ones. -/
def startCtx (s : State) (ctx : Nat) (c : Context) (live own : Bool) (sv : Saved) : State :=
  let sv := sv.shift (if own then 0 else s.uid)
  let s := if own then s else { s with uid := s.uid + sv.top }
  let gen := s.readPhys (c.save + 0x10) 2
  let c := { c with
    state := .running, gen := gen, tagcnt := s.readPhys (c.save + 0x18) 8, wrdcnt := dw (s.readPhys (c.save + 8) 8),
    ntrap := s.readPhys (c.save + 0x20) 8, npark := s.readPhys (c.save + 0x28) 8, devq := if live then c.devq else sv.devq }
  let s := ({ s with energy := { s.energy with gens := tput 0 s.energy.gens ctx gen } } : State).setCtx ctx c
  sealArea (if live then startHere s ctx c.vf sv else startAway (dropCtx s ctx) ctx c.vf sv) ctx

/-- A START that its area forbids (R350, R385, R392). -/
def badShape (s : State) (page ctx : Nat) : State := refusePage (notice s 64 ctx 6 0 0 []) page

/-- An area that another context's spill, or another device's, wrote with the same bytes. -/
def foreignArea (s : State) (bs : List (Nat × Byte)) : Option (Bool × Saved) :=
  match s.imports.find? fun e => e.2.bytes == bs with
  | some e => some (false, e.2)
  | none => ((tentries s.areas).find? fun e => e.2.bytes == bs).map fun e => (false, e.2)

/-- What a save area stands for (R350, R385, R392): its bytes are those that a spill engine wrote, here for the context itself
or for another, or on another device; whether it is the context's own. Of a context that is not STOPPED here, the status
block says STOPPED. -/
def savedArea (s : State) (ctx : Nat) (stopped : Bool) (c : Context) : Option (Bool × Saved) :=
  let bs := areaBytes s c.save c.parts
  if !areaOk c || !(stopped || s.readPhys c.save 8 == 3) then none
  else match tget none s.areas ctx with
    | some sv => if sv.bytes == bs then some (true, sv) else foreignArea s bs
    | none => foreignArea s bs

-- Migration (R350).

/-- Whether what a save area stands for is in order: its gangs are those of their blocks, its launches' blocks have at most
1024 lanes (R25), and its numbers are below its bound. -/
def Saved.ok (sv : Saved) : Bool :=
  (sv.gangs.all fun e => e.1 / 16 == e.2.block) &&
    (sv.launches.all fun e => match e.2.body with
      | some r => decide ((r.bx + 1) * (r.bky + 1) * (r.bz + 1) ≤ 1024)
      | none => true) &&
    ((sv.blocks.map (·.1) ++ sv.launches.map (·.1) ++ sv.reqs.map (·.1) ++ sv.rreqs.map (·.1) ++ sv.longs.map (·.1) ++
      sv.cmds.map (·.1) ++ sv.engOps.map (·.1)).all fun u => decide (u < sv.top)) &&
    sv.gangs.all fun e => decide (e.1 / 16 < sv.top)

/-- The physical function writes a save area that the spill engine of another device produced (R350, R392): its bytes are in
memory at the area's place, and what they stand for is known. -/
def importArea (s : State) (base : Nat) (sv : Saved) : State :=
  if !sv.ok || !areaOk { sv.ctx with save := base } then s
  else
    let s := putRange s base (0x20000 + 0x50000000 * sv.ctx.parts) sv.bytes
    { s with imports := s.imports ++ [(base, { sv with bytes := areaBytes s base sv.ctx.parts })] }

/-- CTXCTL START (R385): it takes effect once the memory that it reads and writes is ready (R406). -/
def execCtxctlStart (page ctx : Nat) (s : State) : Out :=
  .next (
    let may := match s.ctx? ctx with | none => true | some c => c.state == .killed || c.state == .stopped
    if page ≠ pfPage || !may then refusePage s page
    else if !descriptorReady s ctx then s
    else match descriptorAt s ctx with
      | none => badDescriptor s page ctx
      | some a =>
        match readDescriptor s a freshCtx with
        | none => badDescriptor s page ctx
        | some d =>
          if !storesReady s d then s else
          let here := (s.ctx? ctx).filter fun c => c.state == .stopped
          match savedArea s ctx here.isSome d with
          | none => badShape s page ctx
          | some (own, sv) =>
            match readDescriptor s a (if own then here.getD sv.ctx else sv.ctx) with
            | none => badDescriptor s page ctx
            | some c =>
              if sv.ctx.parts = c.parts && shapeFits s c.vf sv && !s.energy.refused.contains c.vf then
                startCtx s ctx c (own && here.isSome) own sv
              else badShape s page ctx)

-- LCANCEL (R386).

/-- LCANCEL (R386): every launch that the page may name, has the completion address and has no record yet. -/
def execLcancel (page : Nat) (v : DWord) (s : State) : Out :=
  .next (
    let ls := (tentries s.launches).filter fun e => !e.2.written && e.2.compl.toNat / 64 == v.toNat / 64 &&
      (page == pfPage || (match s.ctx? e.2.ctx with | some c => c.vf == page | none => false))
    if ls.isEmpty then refusePage s page else ls.foldl (fun s e => cancelLaunch s e.1) s)

end Sys2Proof.Machine
end

