-- ==== Sys2Proof/Machine/Weir.lean ====
section
/-! DEFINITION. The Weir's time slices (R341, R342, R359) and the shadow swap (R388 to R390): turns and their
allowances, drains, urgent swaps, flips, spills and fills. -/

namespace Sys2Proof.Machine

/-- Microseconds in cycles of the reference clock (R3). -/
def us (n : Nat) : Nat := 2000 * n

/-- Whether a number names a partition. -/
def isPart (p : Nat) : Bool := decide (p < 8)

-- Work (R341, R359).

/-- The resident blocks of a partition. -/
def partBlocks (s : State) (p : Nat) : List (Nat × Block) :=
  (tentries s.blocks).filter fun e => partOf e.2.core == p && e.2.resident

/-- Whether a context has a block resident on a partition. -/
def residentOn (s : State) (ctx p : Nat) : Bool := (partBlocks s p).any fun e => e.2.ctx == ctx

/-- Whether the launch at the front of a queue waits for nothing (R156). -/
def frontReady (s : State) (q : Nat) : Bool :=
  match frontOf s q with
  | some (_, l) => l.body.isNone || l.waits.all (·.latched)
  | none => false

/-- Whether a queue of a context has a launch to place or an entry to take (R156). -/
def queueWork (s : State) (ctx : Nat) : Bool :=
  (s.queues.any fun e => decide (e.1 < 1024) && e.2.en && !e.2.halt && e.2.ctx == ctx &&
    (if (frontOf s e.1).isSome then frontReady s e.1 else e.2.tail != e.2.head)) ||
  frontReady s (1024 + ctx) ||
  ((frontOf s (1024 + ctx)).isNone && (match s.ctx? ctx with | some c => !c.devq.isEmpty | none => false))

/-- Whether a context has a swapped-out block that is ready to return to a partition (R387). -/
def readyOn (s : State) (ctx p : Nat) : Bool :=
  (tentries s.blocks).any fun e => e.2.ctx == ctx && partOf e.2.core == p && readyBlock s e.1 e.2

/-- Whether a context has work on a partition (R341, R359). -/
def ctxWork (s : State) (ctx p : Nat) : Bool :=
  residentOn s ctx p || (match s.ctx? ctx with
    | some c => c.state == .running && (s.vf c.vf).vpart.getLsbD p && (queueWork s ctx || readyOn s ctx p)
    | none => false)

/-- The entries of a virtual function's schedule table (R359), once it can be read (R406). -/
def schedTable (s : State) (vf : Nat) : List (Nat × DWord) :=
  let v := s.vf vf
  if v.vsBase = 0 || !placesReady s v.vsBase (8 * v.vsCount) then [] else (List.range v.vsCount).map fun i => (i, dw (s.readPhys (v.vsBase + 8 * i) 8))

/-- Whether a used entry is skipped because of its Reserved bits or its context (R359). -/
def schedBad (s : State) (vf : Nat) (e : DWord) : Bool :=
  bitsOf e 62 48 != 0 || bitsOf e 31 16 != 0 ||
    (match s.ctx? (bitsOf e 47 32) with | some c => c.vf != vf || c.state == .killed | none => true)

/-- The next entry of a virtual function's table, as it was read, whose context has work on a partition: its index, its
context and its QUANT (R359). -/
def nextEntry (s : State) (table : List (Nat × DWord)) (vf p : Nat) : Option (Nat × Nat × Nat) :=
  let es := table.filter fun e => bitOf e.2 63 && !schedBad s vf e.2
  let last := tget 0 (s.part p).lastEnt vf
  let order := (es.filter fun e => decide (last ≤ e.1)) ++ es.filter fun e => decide (e.1 < last)
  (order.find? fun e => ctxWork s (bitsOf e.2 47 32) p).map fun e => (e.1, bitsOf e.2 47 32, max 1 (bitsOf e.2 15 0))

/-- WEIRERR.SCHED after a table has been read (R359). -/
def noteSched (s : State) (vf : Nat) : State :=
  if (schedTable s vf).any fun e => bitOf e.2 63 && schedBad s vf e.2 then
    { s with pf := { s.pf with errSched := true, errVf := vf } } else s

/-- The virtual functions that own a partition, in ascending order (R338). -/
def ownersOf (s : State) (p : Nat) : List Nat := (s.vfs.filter fun e => decide (e.1 < 64) && e.2.vpart.getLsbD p).map (·.1)

/-- Whether a virtual function has work on a partition and a slice to spend there. -/
def vfWork (s : State) (vf p : Nat) : Bool := decide (0 < (s.vf vf).slice) && (nextEntry s (schedTable s vf) vf p).isSome

-- Turns (R341).

/-- Whether a turn has spent its allowance (R341). -/
def WTurn.spent (t : WTurn) (now : Nat) : Bool := decide ((t.since : Int) + t.allowance ≤ now)

/-- Time that is charged to no virtual function (R342): the turn and its QUANT begin later by as much. -/
def WTurn.skipTime (t : WTurn) (n : Nat) : WTurn := { t with since := t.since + n, quantSince := t.quantSince + n }

/-- A turn between two contexts from some time on (R342, R359). -/
def WTurn.hold (t : WTurn) (now : Nat) : WTurn := { t with draining := some now }

/-- A partition's turn ends (R341): the bank pays what was used beyond the slice, and what ran beyond the allowance is
debt (R342). -/
def endTurn (s : State) (p : Nat) : State :=
  let x := s.part p
  match x.turn with
  | none => s
  | some t =>
    let ran := s.cycle - t.since
    let used := tget 0 x.used t.vf + ran
    let slice := us (s.vf t.vf).slice
    s.setPart p { x with
      turn := none,
      used := tput 0 x.used t.vf used,
      bank := if slice < used then tmod 0 x.bank t.vf fun b => b - ((used - slice : Nat) : Int) else x.bank,
      debt := tput 0 x.debt t.vf ((ran : Int) - t.allowance).toNat }

/-- The allowance of a turn (R341). -/
def allowance (v : VfRegs) (bank : Int) (debt : Nat) : Int :=
  min ((us v.slice : Int) + bank) (max (us v.burst) (us v.slice) : Nat) - debt

/-- A turn begins (R341): its debt is taken from its allowance. The schedule table is read once (R359), and the queues of the
context that is scheduled are examined (R154). -/
def beginTurn (s : State) (p vf idx ctx quant : Nat) : State :=
  let x := s.part p
  let s := s.setPart p { x with
    turn := some { vf, ctx := some ctx, since := s.cycle, table := schedTable s vf,
                   allowance := allowance (s.vf vf) (tget 0 x.bank vf) (tget 0 x.debt vf),
                   quantSince := s.cycle, quant, draining := none },
    debt := tput 0 x.debt vf 0, served := insertNat vf x.served, lastEnt := tput 0 x.lastEnt vf (idx + 1) }
  examineAll s ctx

-- Banks (R388 to R390).

/-- The context that holds a bank. -/
def bankOwner (s : State) (p bank : Nat) : Option Nat := tget none (s.part p).owners bank

/-- The resident blocks in a bank of a partition. -/
def bankResident (s : State) (p bank : Nat) : List (Nat × Block) := (partBlocks s p).filter fun e => e.2.bank == bank

/-- A bank given to a context: what another context left there, which has been spilled, is overwritten; the fill is
complete at once if the context has no block to bring back (R390). -/
def takeBank (s : State) (p bank ctx : Nat) : State :=
  let s := creditTime s p
  let s := if bankOwner s p bank = some ctx then s
    else (bankResident s p bank).foldl (fun s e => swapOut s e.1 (.swapped false false)) s
  let x := s.part p
  s.setPart p { x with owners := tput none x.owners bank (some ctx), filled := !readyOn s ctx p }

/-- The background bank. -/
def backBank (s : State) (p : Nat) : Nat := 1 - (s.part p).fg

/-- Whether the background bank may be given to a context: it holds the context, or nothing that is not saved. -/
def backFree (s : State) (p ctx : Nat) : Bool :=
  bankOwner s p (backBank s p) == some ctx || (bankResident s p (backBank s p)).isEmpty || (s.part p).spilled

/-- What the flip does to a block of the outgoing bank (R79, R105, R175, R388): its PEER accesses bounce, its running boxes
finish, its entries lose the slots held for them, and its reservations and what it has read early are gone. -/
def flipBlock (s : State) (n : Nat) (b : Block) : State :=
  let s := settleCmds (clearWays (bouncePeer s n) n) n
  let s := dropAhead (loseSlots s (entryOf s n)) fun k _ => k / 16 == n
  (blockGangs b n).foldl (fun s k => s.modGang k clearResvs) s

/-- The bank flip of a partition (R388): the work of the outgoing bank settles, and for 384 cycles nothing issues. -/
def flipBank (s : State) (p : Nat) (incoming : Option Nat) : State :=
  let out := bankResident s p (s.part p).fg
  let s := out.foldl (fun s e => flipBlock s e.1 e.2) (creditTime s p)
  let x := s.part p
  s.setPart p { x with fg := 1 - x.fg, spilled := out.isEmpty, urgent := false,
                       flip := some { since := s.cycle, old := bankOwner s p x.fg, incoming := incoming } }

/-- A context's bank brought to the foreground, if that can be done now: it is there, the background bank is the context's
and is flipped to (R390), its place is empty, or the background bank is given to it and flipped to. Without shadow mode the
partition must be empty of other contexts, and saved. -/
def adoptCtx (s : State) (p ctx : Nat) : Option State :=
  let x := s.part p
  if !x.shadow then
    if x.spilled && (partBlocks s p).all (fun e => e.2.ctx == ctx) then
      let s := creditTime s p
      some (s.setPart p { s.part p with owners := tput none x.owners 0 (some ctx), filled := true })
    else none
  else if bankOwner s p x.fg == some ctx then some s
  else if bankOwner s p (backBank s p) != some ctx && (bankResident s p x.fg).isEmpty then some (takeBank s p x.fg ctx)
  else if backFree s p ctx then some (flipBank (takeBank s p (backBank s p) ctx) p (some ctx))
  else none

/-- The virtual functions that have had no turn in the round (R341). -/
def unserved (s : State) (p : Nat) : List Nat := (ownersOf s p).filter fun v => !(s.part p).served.contains v

/-- The virtual function that the Weir serves next on a partition, with its entry (R341). -/
def nextVf (s : State) (p : Nat) : Option (Nat × Nat × Nat × Nat) :=
  match (unserved s p).find? fun v => vfWork s v p with
  | none => none
  | some v => (nextEntry s (schedTable s v) v p).map fun e => (v, e)

/-- WEIRERR.SCHED of the virtual functions whose tables the Weir reads to find the one it serves next (R359). -/
def noteRead (s : State) (p : Nat) : State :=
  let l := unserved s p
  ((l.takeWhile fun v => !vfWork s v p) ++ (l.dropWhile fun v => !vfWork s v p).take 1).foldl noteSched s

/-- The next turn of a partition, if a virtual function has work. -/
def nextTurn (s : State) (p : Nat) : State :=
  let s := noteRead s p
  match nextVf s p with
  | none => s
  | some (vf, idx, ctx, quant) =>
    match adoptCtx s p ctx with
    | some s => beginTurn s p vf idx ctx quant
    | none => s

/-- The next context within a turn, or the next turn (R359). -/
def nextContext (s : State) (p : Nat) (t : WTurn) : State :=
  match (if t.spent s.cycle then none else nextEntry s t.table t.vf p) with
  | none => nextTurn (endTurn s p) p
  | some (idx, ctx, quant) =>
    match adoptCtx s p ctx with
    | none => s
    | some s =>
      let x := s.part p
      examineAll (s.setPart p { x with
        turn := some { t with ctx := some ctx, quantSince := s.cycle, quant, draining := none },
        lastEnt := tput 0 x.lastEnt t.vf (idx + 1) }) ctx

/-- TURN_START (R341, R359): a partition with no turn, or whose context has drained or has no work left, serves the
next one. -/
def execTurnStart (part : Nat) (s : State) : Out :=
  .next (
    let x := s.part part
    if !isPart part || x.flip.isSome || x.urgent then s
    else match x.turn with
      | none => nextTurn s part
      | some t =>
        match t.ctx with
        | none => if x.shadow || x.spilled then nextContext s part t else s
        | some c =>
          if residentOn s c part || (t.draining.isNone && ctxWork s c part) then s else nextContext s part t)

/-- A turn's context begins to drain (R342). -/
def drainTurn (s : State) (p : Nat) (t : WTurn) : State :=
  s.setPart p { s.part p with turn := some { t with draining := some s.cycle } }

/-- SLICE_END (R342): the allowance is spent. -/
def execSliceEnd (part : Nat) (s : State) : Out :=
  .next (match (s.part part).turn with
    | some t =>
      if t.draining.isNone && (s.part part).flip.isNone && t.spent s.cycle then drainTurn s part t else s
    | none => s)

/-- QUANT_EXPIRY (R359): the next entry's context is served, once this one has drained if it is another. -/
def execQuantExpiry (part : Nat) (s : State) : Out :=
  .next (match (s.part part).turn with
    | some t =>
      if t.draining.isSome || (s.part part).flip.isSome || decide (s.cycle < t.quantSince + us t.quant) then s
      else match nextEntry s t.table t.vf part with
        | some (idx, ctx, quant) =>
          if some ctx = t.ctx then
            s.setPart part { s.part part with
              turn := some { t with quantSince := s.cycle, quant }, lastEnt := tput 0 (s.part part).lastEnt t.vf (idx + 1) }
          else if (match t.ctx with | some c => residentOn s c part | none => false) then drainTurn s part t
          else nextContext s part t
        | none => s
    | none => s)

/-- ROUND_END (R341): after PROUND, with every virtual function that has work served, unused slices are banked. -/
def execRoundEnd (part : Nat) (s : State) : Out :=
  .next (
    let x := s.part part
    if !isPart part || x.turn.isSome || decide (s.cycle < x.roundStart + us x.pround) || (nextVf s part).isSome then s
    else
      let bank := (ownersOf s part).foldl (fun t v =>
        let r := s.vf v
        let used := tget 0 x.used v
        if used < us r.slice then
          tput 0 t v (min (tget 0 t v + ((us r.slice - used : Nat) : Int)) (r.bankcap * us r.slice : Nat))
        else t) x.bank
      s.setPart part { x with bank := bank, used := [], served := [], roundStart := s.cycle })

-- Urgent pre-emption (R342, R388).

/-- A context taken out at once: its turn ends, but where it only makes way for the next entry of its virtual function's
table the turn goes on with that (R342, R359). -/
def leaveTurn (s : State) (p : Nat) : State :=
  match (s.part p).turn with
  | some t =>
    if t.draining.isSome && !t.spent s.cycle then
      s.setPart p { s.part p with turn := some { t with ctx := none, draining := some s.cycle } }
    else endTurn s p
  | none => s

/-- The foreground context of a partition pre-empted at once: with shadow mode its gangs stop and the bank is to flip;
without it its blocks are swapped out, and the spill engine saves them before the next turn. -/
def goUrgent (s : State) (p : Nat) : State :=
  let x := s.part p
  if x.flip.isSome then s
  else if x.shadow then s.setPart p { x with urgent := true }
  else
    let out := partBlocks s p
    let s := leaveTurn (out.foldl (fun s e => swapOut s e.1 (.swapped false false)) s) p
    s.setPart p { s.part p with spilled := out.isEmpty && (s.part p).spilled }

/-- URGENT (R342): the physical function writes PCTL.URGENT. -/
def execUrgent (part : Nat) (s : State) : Out := .next (if isPart part then goUrgent s part else s)

/-- DRAIN_LIMIT_EXPIRY (R342): blocks remain after DRAIN. -/
def execDrainLimitExpiry (part : Nat) (s : State) : Out :=
  .next (match (s.part part).turn with
    | some t =>
      match t.draining, t.ctx with
      | some d, some c =>
        if (s.part part).flip.isNone && decide (d + 16 * (s.part part).drain ≤ s.cycle) && residentOn s c part then
          goUrgent s part
        else s
      | _, _ => s
    | none => s)

/-- The context that a partition serves next: of the turn that goes on, or of the next one (R341, R359). -/
def upNext (s : State) (p : Nat) : Option Nat :=
  match (match (s.part p).turn with | some t => nextEntry s t.table t.vf p | none => none) with
  | some e => some e.2.1
  | none => (nextVf s p).map (·.2.2.1)

/-- SHADOW_SWAP (R342, R388, R390): the foreground bank of every core of the partition flips to the context that is
served next, if the background bank can be given to it, else to the one it holds. A context that is served again has its
bank back by a second flip. -/
def execShadowSwap (part : Nat) (s : State) : Out :=
  .next (
    let x := s.part part
    if !isPart part || !x.shadow || !x.urgent || x.flip.isSome then s
    else
      let s := leaveTurn s part
      match upNext s part with
      | some ctx =>
        if bankOwner s part x.fg != some ctx && backFree s part ctx then flipBank (takeBank s part (backBank s part) ctx) part (some ctx)
        else flipBank s part (bankOwner s part (backBank s part))
      | none => flipBank s part (bankOwner s part (backBank s part)))

/-- The blocks in a partition's foreground go on with their entries (R388, R394). -/
def resumeBank (s : State) (p : Nat) : State := (partBlocks s p).foldl (fun s e => reissueBlock s e.1) s

/-- FLIP_COMPLETE (R388): 384 cycles after the flip, of the reference clock (log 56). The time of the flip is charged to no
virtual function (R342), and the queues of the context that is scheduled are examined (R154). -/
def execFlipComplete (part : Nat) (s : State) : Out :=
  .next (
    let x := s.part part
    match x.flip with
    | some f =>
      if f.since + 384 ≤ s.cycle then
        let s := s.setPart part { x with flip := none, turn := x.turn.map fun t => t.skipTime (s.cycle - f.since) }
        let s := match x.turn.bind (·.ctx) with | some c => examineAll s c | none => s
        resumeBank s part
      else s
    | none => s)

/-- The contexts whose blocks on a partition the spill engine has to save: those swapped out, and those in the
background bank. -/
def spillBlocks (s : State) (p : Nat) : List (Nat × Block) :=
  (tentries s.blocks).filter fun e => partOf e.2.core == p &&
    (!e.2.resident || ((s.part p).shadow && e.2.bank == backBank s p))

/-- A block in the background bank written to the save area as it stands (R388), with what of its accesses has not performed in
its replay stores (R394). -/
def spillResident (s : State) (e : Nat × Block) : State :=
  match s.ctx? e.2.ctx with
  | some c =>
    if e.2.resident && areaOk c then
      let s := bounceRest s e.1
      spillBlock s c e.1 { e.2 with image := some (captureImage s e.1 e.2) }
    else s
  | none => s

/-- The spill of a partition without shadow mode ends (R342): its time is charged to no virtual function. -/
def spillTime (s : State) (p : Nat) : State :=
  let x := s.part p
  if x.shadow || x.spilled then s
  else s.setPart p { x with turn := x.turn.map fun t =>
    match t.ctx, t.draining with
    | none, some d => (t.skipTime (s.cycle - d)).hold s.cycle
    | _, _ => t }

/-- SPILL_COMPLETE (R388, R391): the saved bank and the swapped-out blocks are in their save areas, once all that writes them
has landed; a STOP that waited for that ends too (R385). -/
def execSpillComplete (part : Nat) (s : State) : Out :=
  .next (
    if !isPart part || !(spillBlocks s part).all fun e => settled s e.1 then endStops s
    else
      let s := spillTime s part
      let bs := spillBlocks s part
      let s := bs.foldl spillResident s
      let s := ((bs.map fun e => e.2.ctx).eraseDups).foldl spillCtx s
      endStops (s.setPart part { s.part part with spilled := true }))

/-- A block brought back by a fill of its bank (R390, R392, R394). -/
def fillBlock (s : State) (bank n : Nat) : State :=
  match s.block? n with
  | none => s
  | some b =>
    if !canReturn s n b bank then s
    else if !areaIntact s b.ctx then refuseRestore s b.ctx
    else
      let s := returnBlock s n b bank
      match s.block? n with
      | some b => restoreBlock s n b
      | none => s

/-- FILL_COMPLETE (R390): the blocks of the foreground bank's context are back, and its gangs may issue; the entries of those
that were there already are reissued too (R79, R325, R394). -/
def execFillComplete (part : Nat) (s : State) : Out :=
  .next (
    let x := s.part part
    if x.filled then s
    else
      let s := s.setPart part { x with filled := true }
      match bankOwner s part x.fg with
      | none => s
      | some c =>
        let bs := (tentries s.blocks).filter fun e => e.2.ctx == c && partOf e.2.core == part && readyBlock s e.1 e.2
        resumeBank (bs.foldl (fun s e => fillBlock s x.fg e.1) s) part)

end Sys2Proof.Machine
end

