-- ==== Sys2Proof/Machine/Hypervisor.lean ====
section
/-! DEFINITION. The physical function's registers for virtual functions and floors (R126, R338, R343 to R345, R358),
translation invalidation (R347) and the dirty bitmap (R349). -/

namespace Sys2Proof.Machine

/-- A write of what the digest of a function's measurement covers (R357): the digest changes with every one. -/
def noteCfg (s : State) : State := { s with pf := { s.pf with cfgWrites := s.pf.cfgWrites + 1 } }

-- Virtual functions (R126, R338).

/-- Whether a context of a virtual function is resident on a partition, in either bank (R338). -/
def vfResident (s : State) (vf p : Nat) : Bool :=
  ((partBlocks s p).any fun e => match s.ctx? e.2.ctx with | some c => c.vf == vf | none => false) ||
    (match (s.part p).turn with | some t => t.vf == vf | none => false)

/-- Whether a virtual function has a context (R338, R359). -/
def vfHasCtx (s : State) (vf : Nat) : Bool := (tentries s.ctxs).any fun e => e.2.vf == vf && e.2.state != .killed

/-- Whether a number names a virtual function. -/
def isVf (v : Nat) : Bool := decide (v < 64)

/-- VPART_WRITE (R338): ignored, with WEIRERR.OWN, where it would take a partition from a resident context or give a
virtual function that has contexts none, or more than eight. -/
def execVpartWrite (vf : Nat) (v : DWord) (s : State) : Out :=
  .next (
    if !isVf vf then s
    else
      let s := (List.range 8).foldl creditTime (noteCfg s)
      let x := s.vf vf
      let new : BitVec 8 := v.truncate 8
      if ((List.range 8).any fun p => x.vpart.getLsbD p && !new.getLsbD p && vfResident s vf p) ||
          ((new == 0 || decide (8 < popcount v)) && vfHasCtx s vf) then
        { s with pf := { s.pf with errOwn := true, errVf := vf } }
      else s.setVf vf { x with vpart := new })

/-- VPOL_WRITE (R126): a scope narrower than TENANT stores TENANT; 6 and 7 are ignored. -/
def execVpolWrite (vf : Nat) (v : DWord) (s : State) : Out :=
  .next (
    if !isVf vf then s
    else
      let s := noteCfg s
      if bitsOf v 2 0 < 6 then s.setVf vf { s.vf vf with vpol := max 3 (bitsOf v 2 0) } else s)

-- Floors (R343, R345).

/-- The sum of a channel's floors without one virtual function's. -/
def otherFloors (s : State) (chan vf : Nat) : Nat :=
  ((s.pf.floors.filter fun e => e.1 / 64 == chan && e.1 != chan * 64 + vf).map (·.2)).sum

/-- One floor admitted or ignored (R343). -/
def setFloor (s : State) (chan vf n : Nat) : State :=
  if 2764 < otherFloors s chan vf + n then { s with pf := { s.pf with errAdmit := true, errChan := chan, errVf := vf } }
  else { s with pf := { s.pf with floors := tput 0 s.pf.floors (chan * 64 + vf) n } }

/-- FLOOR_WRITE (R343, R358): the entries of four virtual functions, each on its own, in ascending order. -/
def execFloorWrite (chan group : Nat) (v : DWord) (s : State) : Out :=
  .next (if chan < 512 ∧ group < 16 then
    (List.range 4).foldl (fun s i => setFloor s chan (4 * group + i) (bitsOf v (16 * i + 11) (16 * i))) (noteCfg s)
  else s)

/-- Whether a virtual function has requests waiting at a channel (R345). -/
def vfWaiting (s : State) (chan vf : Nat) : Bool :=
  (waitersAt s chan).any (·.vf == vf)

/-- Whether a closure of a channel fell in the windows that are settled now (R345, R401). -/
def closureIn (s : State) (chan : Nat) : Bool :=
  tget 0 s.mem.calcnt chan != 0 && decide (tget 0 s.mem.calat chan < s.cycle / 2048 * 2048) &&
    decide (2048 * tget 0 s.pf.windowAt chan < tget 0 s.mem.calat chan + 2000)

/-- A virtual function's recalibration deficit after a window (R345): what it missed of its floor in a window with a
closure, less what it has had beyond its floor. -/
def settleDeficit (s : State) (chan vf : Nat) : State :=
  let key := chan * 64 + vf
  let floor := tget 0 s.pf.floors key
  let used := tget 0 s.pf.slots key
  let short := if closureIn s chan && vfWaiting s chan vf then floor - used else 0
  { s with pf := { s.pf with deficit := tmod 0 s.pf.deficit key fun d => d - (used - floor) + short } }

/-- WEIR_WINDOW (R345): a window of 2048 cycles of a channel has ended. -/
def execWeirWindow (chan : Nat) (s : State) : Out :=
  .next (
    if chan < 512 ∧ tget 0 s.pf.windowAt chan < s.cycle / 2048 then
      let s := (List.range 64).foldl (fun s vf => settleDeficit s chan vf) s
      { s with pf := { s.pf with
        slots := s.pf.slots.filter fun e => e.1 / 64 != chan,
        windowAt := tput 0 s.pf.windowAt chan (s.cycle / 2048) } }
    else s)

-- Invalidation (R347).

/-- A write to INVCTL (R347): GO starts an invalidation unless one is running or STAGE is 3. -/
def writeInvctl (s : State) (v : DWord) : State :=
  let clr := { s with pf := { s.pf with invErr := s.pf.invErr && !bitOf v 61 } }
  if bitOf v 63 && s.pf.invRun.isSome then { s with pf := { s.pf with invErr := true } }
  else
    let set := { clr.pf with invStage := bitsOf v 60 59, invCtx := bitsOf v 47 32, invPages := bitsOf v 31 0 }
    if !bitOf v 63 then { s with pf := set }
    else if bitsOf v 60 59 = 3 then { s with pf := { set with invErr := true } }
    else { s with pf := { set with invRun := some (bitsOf v 60 59, bitsOf v 47 32, s.pf.invaddr, bitsOf v 31 0) } }

/-- INVCTL_GO (R347). -/
def execInvctlGo (v : DWord) (s : State) : Out := .next (writeInvctl s v)

/-- Whether an invalidation covers a page, by its virtual and its guest physical number (R347). -/
def invCovers (stage base pages vpn gpn : Nat) : Bool :=
  stage == 2 || pages == 0 ||
    (if stage = 0 then decide (base / 65536 ≤ vpn) && decide (vpn < base / 65536 + pages)
     else decide (base / 65536 ≤ gpn) && decide (gpn < base / 65536 + pages))

/-- The guest physical page of a TLB entry, if it names one. -/
def xlatGpn : Xlat → Option Nat
  | .page _ gpa _ _ _ => some (gpa / 65536)
  | .absent 1 pg _ _ _ => some (pg / 65536)
  | _ => none

/-- Whether an invalidation drops a TLB entry: one that names no guest physical page goes whatever the range. -/
def invDrops (stage ctx base pages : Nat) (e : Nat × Option Xlat) : Bool :=
  e.1 / 281474976710656 % 65536 == ctx &&
    (match e.2.bind xlatGpn with
      | some g => invCovers stage base pages (e.1 % 281474976710656) g
      | none => stage != 0 || invCovers stage base pages (e.1 % 281474976710656) 0)

/-- Whether an access that used a dropped entry has neither performed nor been bounced (R347). -/
def invUser (stage ctx base pages : Nat) (r : Req) : Bool :=
  r.checked && !r.bounced && r.space == .global && r.elems.any fun e =>
    e.loc.ctx == ctx && !r.performed.contains e.loc.sector && invCovers stage base pages (e.ea.toNat / 65536) (e.loc.gpa / 65536)

/-- Whether an engine's access that used a dropped entry is left (R347). -/
def invEngine (s : State) (stage ctx base pages : Nat) : Bool :=
  (tentries s.engOps).any (fun e => !e.2.bounced && e.2.space == .global && (e.2.eas.zip e.2.locs).any fun a =>
      a.2.ctx == ctx && invCovers stage base pages (a.1.toNat / 65536) (a.2.gpa / 65536)) ||
    (tentries s.cmds).any fun e => e.2.todo.any fun b => b.2.any fun w => [w.1, w.2].any fun l =>
      !l.scr && l.ctx == ctx && (stage == 0 || invCovers stage base pages 0 (l.gpa / 65536))

/-- A descriptor that is refused when it is read again (R339): a NOTICE, and the context, its blocks swapped out, is scheduled
no more (log 64). -/
def unschedule (s : State) (ctx : Nat) (c : Context) : State :=
  let s := notice s 64 ctx 5 0 0 []
  if c.state == .stopped || c.stopping then s else stopCtx s ctx

/-- A context's descriptor read again (R339). -/
def rereadDescriptor (s : State) (ctx : Nat) : State :=
  match s.ctx? ctx, descriptorAt s ctx with
  | some c, some a =>
    if c.state == .killed then s
    else match readDescriptor s a c with
      | some d => s.setCtx ctx d
      | none => unschedule s ctx c
  | some c, none => if c.state == .killed then s else unschedule s ctx c
  | none, _ => s

/-- INVALIDATION_DONE (R347): every entry for the range is dropped, once no access that used one is left. -/
def execInvalidationDone (s : State) : Out :=
  .next (match s.pf.invRun with
    | none => s
    | some (stage, ctx, base, pages) =>
      if ((tentries s.reqs).any fun e => invUser stage ctx base pages e.2) || invEngine s stage ctx base pages
          || (pages == 0 && !descriptorReady s ctx) then s
      else
        let s := { s with pf := { s.pf with invRun := none }, tlb := s.tlb.filter fun e => !invDrops stage ctx base pages e }
        if pages = 0 then rereadDescriptor s ctx else s)

-- The dirty bitmap (R349).

/-- The address of the word that DTSEL selects. -/
def dirtyWord (s : State) : Option Nat :=
  (s.ctx? (bitsOf s.pf.dtsel 47 32)).map fun c => c.dirty + 8 * bitsOf s.pf.dtsel 25 0

/-- Whether the home of the selected word takes an access now (R401, R406). -/
def dtOpen (s : State) : Bool :=
  match dirtyWord s with
  | none => true
  | some a => placeOpen s none ⟨false, a, 0, 0⟩ 1

/-- DTWORD (R349): a read returns the selected word and clears it in one step. DESIGN CHOICE (log 78): of a poisoned sector the
word is a value that the spec does not state, and nothing is cleared (R402). -/
def execDtword (s : State) : Out :=
  .next (match dirtyWord s with
    | none => { s with pf := { s.pf with dtword := 0 } }
    | some a =>
      if !dtOpen s then s
      else
        let r := sectorRead s (sectorOf a)
        let v := if r.2 then Config.freeValue s.uid else dw (s.readPhys a 8)
        let s := if r.2 then { r.1 with uid := s.uid + 1 } else writeHome s a (toBytes 8 0)
        { s with pf := { s.pf with dtword := v } })

end Sys2Proof.Machine
end

