-- ==== Sys2Proof/Machine/Energy.lean ====
section
/-! DEFINITION. Meters, energy records and attestation (R18, R351 to R357). Counters hold microjoules, so that
nothing below a millijoule is lost (R351). -/

namespace Sys2Proof.Machine

/-- The counter of the physical function. -/
def pfUser : Nat := 512

/-- Energy added to a user's counter. -/
def addEnergy (s : State) (u n : Nat) : State :=
  { s with energy := { s.energy with counters := tmod 0 s.energy.counters u (· + n) } }

/-- An amount shared in proportion to weights; what rounding leaves goes to the last user, and with no user all of it
to the physical function. -/
def shareOut (s : State) (n : Nat) (ws : List (Nat × Nat)) : State :=
  let total := (ws.map (·.2)).sum
  match ws with
  | [] => addEnergy s pfUser n
  | _ =>
    let parts := ws.map fun w => (w.1, n * w.2 / total)
    let rest := n - (parts.map (·.2)).sum
    let s := parts.foldl (fun s w => addEnergy s w.1 w.2) s
    addEnergy s ((parts.getLast?).elim pfUser (·.1)) rest

/-- The users of a metered unit with their weights: the entries of a table under one key. -/
def usersOf (t : Tab Nat) (k : Nat) : List (Nat × Nat) := (t.filter fun e => e.1 / 1024 == k).map fun e => (e.1 % 1024, e.2)

/-- The weights of the static power (R352): 32 cores of a partition shared by the virtual functions that own it, or the
physical function's. The unit is 1/840 of a core, which 1 to 8 owners divide. -/
def idleShares (s : State) : List (Nat × Nat) :=
  (List.range 8).flatMap fun p =>
    match ownersOf s p with
    | [] => [(pfUser, 32 * 840)]
    | vs => vs.map fun v => (8 * v + vpartIndex s v p, 32 * 840 / vs.length)

/-- One domain's energy of an interval attributed (R352, Table 6). -/
def assignEnergy (s : State) (d : Domain × Nat) : State :=
  match d.1 with
  | .part p => shareOut s d.2 (usersOf s.energy.times p)
  | .chan c => shareOut s d.2 (usersOf s.energy.slots c)
  | .store i => shareOut s d.2 (usersOf s.energy.accesses i)
  | .link n => shareOut s d.2 (usersOf s.energy.carried n)
  | .spill p => shareOut s d.2 (usersOf s.energy.spills p)
  | .idle => shareOut s d.2 (idleShares s)

/-- METER_INTERVAL (R352): 10 microseconds have passed, and each domain's energy is attributed. -/
def execMeterInterval (e : List (Domain × Nat)) (s : State) : Out :=
  .next (
    if s.cycle < s.energy.since + us 10 || !s.pf.ready.contains (.port 13) then s
    else
      let s := (List.range 8).foldl creditTime s
      let s := e.foldl assignEnergy s
      { s with energy := { s.energy with since := s.cycle, times := [], accesses := [], carried := [], slots := [], spills := [] } })

-- Energy records (R354).

/-- A place of a request block or a record: translated in a context's space, or physical on the PF's page. -/
def meterPlace (s : State) (page ctx : Nat) (w : Bool) (va : DWord) : Option Loc :=
  if page = pfPage then
    if backed va.toNat 1 then some ⟨false, va.toNat, va.toNat, 65536⟩ else none
  else
    match s.ctx? ctx with
    | none => none
    | some c =>
      match (s.tlbGet hubUnit ctx (va.toNat / 65536)).getD (translate s c (va.toNat / 65536)) with
      | .page pa gpa _ pw prd =>
        if (w && !pw) || (!w && !prd) then none
        else some ⟨false, pa / 65536 * 65536 + va.toNat % 65536, gpa / 65536 * 65536 + va.toNat % 65536, ctx⟩
      | _ => none

/-- The bytes of a request block, if all of them can be read (R354). -/
def readMeter (s : State) (page ctx : Nat) (va : DWord) : Option (List Byte) :=
  let ls := (List.range 64).map fun i => meterPlace s page ctx false (va + dw i)
  if ls.all fun l => match l with | some l => !s.poisoned (sectorOf l.addr) | none => false then
    some (ls.map fun l => match l with | some l => s.byte l.addr | none => 0)
  else none

/-- Bytes cut into pieces that lie in one sector each, with their offsets: the first one has so much room. -/
def sectorPieces : Nat → Nat → Nat → List Byte → List (Nat × List Byte)
  | 0, _, _, _ => []
  | n + 1, off, room, bs => (off, bs.take room) :: sectorPieces n (off + room) 32 (bs.drop room)

/-- A record written, if every page of it can be written (R354), and no poisoned sector in part (R402). -/
def writeMeter (s : State) (page ctx : Nat) (va : DWord) (bs : List Byte) : Option State :=
  let ps := (sectorPieces (bs.length / 32 + 2) 0 (32 - va.toNat % 32) bs).filter fun p => !p.2.isEmpty
  let place (p : Nat × List Byte) : Option Loc :=
    (meterPlace s page ctx true (va + dw p.1)).filter fun l => p.2.length == 32 || !s.poisoned (sectorOf l.addr)
  if ps.any (fun p => (place p).isNone) then none
  else some (ps.foldl (fun s p => match place p with | some l => hubWrite s l l.ctx p.2 | none => s) s)

/-- Bytes cut or filled to a length. -/
def fit (n : Nat) (bs : List Byte) : List Byte := (List.range n).map fun i => bs.getD i 0

/-- The signed part of an energy record (R354, Table 7). -/
def recordHead (status vf idx kind part src counter : Nat) (stamp : DWord) (seq : Nat) (nonce : List Byte) : List Byte :=
  [status, vf, idx, kind, part, 0].map (BitVec.ofNat 8) ++ toBytes 2 src ++ toBytes 8 counter ++ toBytes 8 stamp.toNat ++
    toBytes 8 seq ++ fit 32 nonce

/-- A record with both signatures, or with zeros in their place (R8, R354). -/
def signRecord (ok : Bool) (head : List Byte) : List Byte :=
  if ok then head ++ fit 384 (Config.rsaSign head) ++ fit 16224 (Config.slhSign head) else head ++ toBytes 16608 0

/-- A NOTICE that an energy request has no record (R354), from the security engine, which completes it (R396). -/
def energyNotice (s : State) (page ctx : Nat) : State :=
  postRec s page { baseRec s page ctx with src := 0x260, cause := 8 }

/-- The number in bytes of a block. -/
def blockValue (bs : List Byte) (off n : Nat) : Nat := leValue (fun i => bs.getD (off + i) 0) n

/-- Whether a request block breaks R354. -/
def badBlock (bs : List Byte) : Bool :=
  (List.range 64).any (fun i => (decide (1 ≤ i ∧ i < 8) || decide (48 ≤ i)) && bs.getD i 0 != 0) || blockValue bs 8 8 % 64 != 0

/-- The physical partition of a virtual one. -/
def physPart (s : State) (vf idx : Nat) : Nat := physCore s vf (32 * idx) / 32

/-- Whose counters a request block reads (R354): those of its page's virtual function, and on the physical function's page
those of the one that the block names, or the physical function's own (log 14). -/
def readingUser (page : Nat) (bs : List Byte) : Nat := if page = pfPage then min (Config.meterVf bs) 64 else page

/-- The STATUS of a reading (R354, R356). The physical function's own counter has INDEX 0 (log 14). -/
def readingStatus (s : State) (who idx : Nat) : Nat :=
  if !isVf who then (if idx = 0 then 0 else 1)
  else if ((List.range 8).filter fun p => (s.vf who).vpart.getLsbD p).length ≤ idx then 1
  else if s.energy.moved.contains (8 * who + idx) then 3 else 0

/-- A record of a request (R354): its SEQ is the device's next. For the physical function's own counter VF, PART and SRCNUM are
values that the spec does not give (log 14). -/
def readingBytes (s : State) (who idx status : Nat) (nonce : List Byte) : List Byte :=
  let pf := !isVf who
  let free := (Config.freeValue s.uid).toNat
  let part := if pf then free / 256 % 256 else if status = 1 then 0 else physPart s who idx
  signRecord (status == 0) (recordHead status (if pf then free % 256 else who) idx 0 part
    (if pf then free / 65536 % 65536 else 0x250 + part)
    (if status = 0 then tget 0 s.energy.counters (if pf then pfUser else 8 * who + idx) / 1000 else 0) s.stamp (s.energy.seq + 1) nonce)

/-- Whether what a request of a page reads can be reached: its translation where no TLB holds it, and the homes of its bytes (R401,
R406). -/
def meterReach (s : State) (page ctx : Nat) (w : Bool) (va : DWord) (n : Nat) : Bool :=
  (List.range n).all fun i =>
    let a := va + dw i
    (page == pfPage || (s.tlbGet hubUnit ctx (a.toNat / 65536)).isSome || (match s.ctx? ctx with
      | some c => translateReady s c (a.toNat / 65536)
      | none => true)) &&
    (match meterPlace s page ctx w a with
      | some l => placeOpen s (ctxVf s ctx) l 1
      | none => true)

/-- Whether a request can be answered now (R354, R406): its block, and the place of the record that the block names. -/
def meterOpen (s : State) (page ctx : Nat) (va : DWord) : Bool :=
  meterReach s page ctx false va 64 && (match readMeter s page ctx va with
    | some bs => (List.range 521).all fun i => meterReach s page ctx true (dw (blockValue bs 8 8 + 32 * i)) 1
    | none => true)

/-- The sectors of a request block read at their homes (R344 to R346). -/
def blockSlots (s : State) (page ctx : Nat) (va : DWord) : State :=
  let ls := (List.range 64).filterMap fun i => meterPlace s page ctx false (va + dw i)
  (((ls.map fun l => (l.ctx, sectorOf l.addr))).eraseDups).foldl (fun s x => hubSlot (sectorRead s x.2).1 x.1 x.2) s

/-- A request answered (R354). -/
def answerMeter (s : State) (page ctx : Nat) (va : DWord) (busy : Bool) : State :=
  let s := blockSlots s page ctx va
  match readMeter s page ctx va with
  | none => energyNotice s page ctx
  | some bs =>
    let idx := blockValue bs 0 1
    let who := readingUser page bs
    let status := if badBlock bs then 2 else if busy then 4 else readingStatus s who idx
    let rec1 := readingBytes s who idx status ((List.range 32).map fun i => bs.getD (16 + i) 0)
    match writeMeter s page ctx (dw (blockValue bs 8 8)) rec1 with
    | none => energyNotice s page ctx
    | some s => { s with uid := s.uid + 1, energy := { s.energy with seq := s.energy.seq + 1 } }

/-- ENREQ (R354): a request waits for the security engine; a seventeenth is answered BUSY. -/
def execEnreq (page : Nat) (v : DWord) (s : State) : Out :=
  .next (
    if !isPage page then s
    else
      let x := s.vf page
      let known := page == pfPage || (match s.ctx? x.enctx with | some c => c.vf == page && c.state != .killed | none => false)
      if !known then energyNotice s page 0xFFFF
      else if 16 ≤ x.enreq.length then (if meterOpen s page x.enctx v then answerMeter s page x.enctx v true else s)
      else s.setVf page { x with enreq := x.enreq ++ [(x.enctx, v)] })

/-- ENCTX (R354). -/
def execEnctx (vf : Nat) (v : DWord) (s : State) : Out :=
  .next (if isVf vf then s.setVf vf { s.vf vf with enctx := bitsOf v 15 0 } else s)

/-- ENERGY_RECORD (R354): the oldest request of a meter page is completed. -/
def execEnergyRecord (page : Nat) (s : State) : Out :=
  .next (
    let x := s.vf page
    match x.enreq with
    | [] => s
    | (ctx, a) :: rest =>
      if s.pf.ready.contains (.port 12) && meterOpen s page ctx a then answerMeter (s.setVf page { x with enreq := rest }) page ctx a false else s)

-- Migration of counters (R356).

/-- The export record of a virtual partition (R356). -/
def exportBytes (s : State) (vf idx : Nat) : List Byte :=
  let part := physPart s vf idx
  signRecord true (recordHead 0 vf idx 1 part (0x250 + part) (tget 0 s.energy.counters (8 * vf + idx) / 1000) s.stamp
    (s.energy.seq + 1) [])

/-- One virtual partition's counter exported: readings of it give MOVED from now on. -/
def exportOne (s : State) (vf idx : Nat) : State :=
  { s with energy := { s.energy with
    exports := s.energy.exports ++ [exportBytes s vf idx], seq := s.energy.seq + 1,
    moved := insertNat (8 * vf + idx) s.energy.moved } }

/-- ENERGY_EXPORT (R350, R356): one record for each virtual partition of a stopped context. -/
def execEnergyExport (ctx : Nat) (s : State) : Out :=
  .next (match s.ctx? ctx with
    | some c => if c.state = .stopped then (List.range c.parts).foldl (fun s i => exportOne s c.vf i) s else s
    | none => s)

/-- ENERGY_IMPORT (R8, R356): accepted only if both signatures verify and SEQ is new; else the restore of the virtual
function is refused. -/
def execEnergyImport (r : ExportRec) (s : State) : Out :=
  .next (
    let key := 8 * r.vf + r.index
    if r.sigR && r.sigS && decide (tget 0 s.energy.seen r.src < r.seq) then
      let t := tget 0 s.energy.counters key / 1000
      let s := addEnergy s key (1000 * (r.counter - t))
      { s with energy := { s.energy with
        seen := tput 0 s.energy.seen r.src r.seq, moved := s.energy.moved.filter (· != key),
        refused := s.energy.refused.filter (· != r.vf) } }
    else { s with energy := { s.energy with refused := insertNat r.vf s.energy.refused } })

/-- POWER_LIMIT (R18): the clock of all cores, in MHz, no higher than 2000. -/
def execPowerLimit (mhz : Nat) (s : State) : Out :=
  .next (if 0 < mhz ∧ mhz ≤ 2000 then { s with pf := { s.pf with mhz := mhz } } else s)

-- SPDM (R7, R357).

/-- The configuration that measurement 5 covers (R357): VPART, VPOL and VWEIR of each virtual function, PCTL.SHADOW of
each partition and the floor tables, and the number of writes to them, so that every write changes the digest. -/
def configBytes (s : State) : List Byte :=
  ((List.range 64).flatMap fun v =>
    let x := s.vf v
    toBytes 1 x.vpart.toNat ++ toBytes 1 x.vpol ++ toBytes 2 x.burst ++ toBytes 1 x.bankcap ++ toBytes 2 x.slice) ++
  ((List.range 8).map fun p => if (s.part p).shadow then 1 else 0) ++
  ((List.range 512).flatMap fun c => (List.range 64).flatMap fun v => toBytes 2 (tget 0 s.pf.floors (c * 64 + v))) ++
  toBytes 8 s.pf.cfgWrites

/-- A firmware image as it runs (R8): the one accepted last, else the one that the device came with. -/
def firmwareOf (s : State) (i : Nat) : List Byte :=
  match s.energy.images.find? fun e => e.1 == i with
  | some e => e.2
  | none => Config.firmware i

/-- A firmware image is offered (R8): accepted only if both its signatures verify, else rejected as a whole. -/
def offerFirmware (s : State) (i : Nat) (image : List Byte) (rsa slh : Bool) : State :=
  if rsa && slh && decide (i < 4) then
    { s with energy := { s.energy with images := (i, image) :: s.energy.images.filter fun e => e.1 != i } }
  else s

/-- The five measurement blocks (R357). -/
def measurements (s : State) : List Byte :=
  ((List.range 4).flatMap fun i => fit 48 (Config.sha384 (firmwareOf s i))) ++ fit 48 (Config.sha384 (configBytes s))

/-- A message with both signatures (R8). -/
def signedMsg (bs : List Byte) : List Byte := bs ++ fit 384 (Config.rsaSign bs) ++ fit 16224 (Config.slhSign bs)

/-- The certificate chain: the device's identity, with both signatures (R8). -/
def certificate : List Byte := signedMsg (Config.firmware 4)

/-- The capabilities that the responder has (R7; their bits are those of the standard, log 15): certificates, challenges and
signed measurements. -/
def spdmCaps : BitVec 32 := 0x16

/-- The algorithms that the responder takes from an offer (R7): RSASSA-PSS with 3072 bits, and SHA-384. -/
def spdmAsym : BitVec 32 := 8
def spdmHash : BitVec 32 := 2

/-- The state a request of the responder needs: 1 after GET_VERSION, 2 after GET_CAPABILITIES, 3 after
NEGOTIATE_ALGORITHMS; the state it leaves; and the response (R357; the codes are those of SPDM, log 15). What a requester
offers and Table 2 of R7 does not list is not taken up; with no algorithm in common the negotiation comes to nothing. -/
def spdmAnswer (s : State) (r : Spdm) : Nat × Nat × List Byte :=
  let code (n : Nat) : List Byte := [0x13, BitVec.ofNat 8 n]
  match r with
  | .getVersion => (0, 1, [0x10, 0x04, 0x00, 0x13])
  | .getCapabilities _ => (1, 2, code 0x61 ++ toBytes 4 spdmCaps.toNat)
  | .negotiateAlgorithms asym hash =>
    (2, if asym &&& spdmAsym = 0 ∨ hash &&& spdmHash = 0 then 2 else 3,
      code 0x63 ++ toBytes 4 (asym &&& spdmAsym).toNat ++ toBytes 4 (hash &&& spdmHash).toNat)
  | .getDigests => (3, 3, code 0x01 ++ fit 48 (Config.sha384 certificate))
  | .getCertificate => (3, 3, code 0x02 ++ certificate)
  | .challenge nonce => (3, 3, signedMsg (code 0x03 ++ toBytes 32 nonce.toNat ++ measurements s))
  | .getMeasurements nonce => (3, 3, signedMsg (code 0x60 ++ measurements s ++ toBytes 32 nonce.toNat))
  | .other _ => (4, 0, [])

/-- SPDM_REQUEST (R7, R357): answered in the order the standard prescribes; anything else is declined with an ERROR. -/
def execSpdmRequest (r : Spdm) (s : State) : Out :=
  .next (
    let a := spdmAnswer s r
    let err : List Byte := [0x13, 0x7F, if a.1 = 4 then 0x07 else 0x04]
    if !s.pf.ready.contains (.port 12) then s
    else if s.energy.spdm < a.1 then { s with energy := { s.energy with spdmOut := s.energy.spdmOut ++ [err] } }
    else { s with energy := { s.energy with
      spdm := if a.1 = 3 then s.energy.spdm else a.2.1, spdmOut := s.energy.spdmOut ++ [a.2.2] } })

end Sys2Proof.Machine
end

