-- ==== Sys2Proof/Machine/Device.lean ====
section
/-! DEFINITION. Main memory and its upkeep (R401 to R405), resets (R406, R408) and readiness (R407). -/

namespace Sys2Proof.Machine

-- Recalibration (R345, R401).

/-- MCAL.INTERVAL of a channel, in milliseconds (R401). -/
def calInterval (s : State) (chan : Nat) : Nat := tget 32 s.mem.calint chan

/-- RECALIBRATION (R401): at the end of its interval a channel closes for a microsecond, 3000 slots. -/
def execRecalibration (chan : Nat) (s : State) : Out :=
  .next (
    if chan < 512 ∧ s.pf.ready.contains (.chan chan) ∧ tget 0 s.mem.calat chan + us 1000 * calInterval s chan ≤ s.cycle then
      { s with mem := { s.mem with
        calcnt := tput 0 s.mem.calcnt chan (min (tget 0 s.mem.calcnt chan + 1) 65535),
        calat := tput 0 s.mem.calat chan s.cycle } }
    else s)

-- Error history and scrub (R404, R405).

/-- The history of a page. -/
def pageErr (s : State) (page : Nat) : PageErr := tget ⟨0, 0⟩ s.mem.hist page

/-- Whether a row of a page is replaced in the repair map (R404). -/
def spared (s : State) (page : Nat) : Bool :=
  !s.mem.replaced.isEmpty && (List.range 2048).any fun i => s.mem.replaced.contains (Config.dramRow (page * 2048 + i))

/-- PEQDATA_CLR (R404): CLR clears CORR and UNCORR of the page that PEQADDR names. -/
def execPeqdataClr (v : DWord) (s : State) : Out :=
  .next (if bitOf v 63 then
    { s with mem := { s.mem with
      hist := tput ⟨0, 0⟩ s.mem.hist s.mem.peqaddr ⟨0, 0⟩, badRows := s.mem.badRows.filter fun e => e.1 != s.mem.peqaddr } }
  else s)

/-- The number of 64 KiB pages of HBM (R400). -/
def hbmPages : Nat := 0xC00000

/-- The length of a patrol period in cycles. -/
def periodCycles (s : State) : Nat := us 1000000 * s.mem.period

/-- Whether the last tenth of the patrol period has begun (R405). -/
def lastTenth (s : State) : Bool := decide (s.mem.periodStart + periodCycles s * 9 / 10 ≤ s.cycle)

/-- Whether every channel that carries a page is ready (R406). -/
def pageReady (s : State) (page : Nat) : Bool :=
  (List.range 256).all fun i => s.pf.ready.contains (.chan (channelOf (page * 65536 + 256 * i)))

/-- Whether no channel that carries a page is closed (R401). -/
def pageOpen (s : State) (page : Nat) : Bool := (List.range 256).all fun i => !chanClosed s (channelOf (page * 65536 + 256 * i))

/-- PATROL_READ (R401, R405): a page that was not checkpointed is read in full, once, in the last tenth of the period. -/
def execPatrolRead (page : Nat) (s : State) : Out :=
  .next (
    if page < hbmPages ∧ lastTenth s ∧ !s.mem.ckptPages.contains page ∧ !s.mem.patrolPages.contains page ∧
        pageReady s page ∧ pageOpen s page then
      let s := (List.range 2048).foldl (fun s i => (dramRead s (page * 2048 + i)).1) s
      { s with mem := { s.mem with patrolPages := insertNat page s.mem.patrolPages } }
    else s)

/-- The pages of HBM whose channels are all ready (R406): those of even numbers share theirs, and those of odd numbers. -/
def readyPages (s : State) : Nat := ([0, 1].filter (pageReady s)).length * (hbmPages / 2)

/-- The patrol reads of a period that are left at its end (R405): a sector of a page that has not been read is, if an error waits
there; nothing else changes. -/
def patrolRest (s : State) : State :=
  s.mem.errors.foldl (fun t e =>
    let page := e.1 / 2048
    if page < hbmPages && !s.mem.ckptPages.contains page && !s.mem.patrolPages.contains page && pageReady s page
    then (dramRead t e.1).1 else t) s

/-- SCRUB_PERIOD (R405): a patrol period ends, with every page read that can be, and its counts are shown. -/
def execScrubPeriod (s : State) : Out :=
  .next (
    if s.mem.periodStart + periodCycles s ≤ s.cycle then
      let t := patrolRest s
      { t with
        mem := { t.mem with
          ckpt := s.mem.ckptPages.length, patrol := readyPages s - s.mem.ckptPages.length, ckptPages := [], patrolPages := [],
          periodStart := s.cycle },
        cmds := s.cmds.map fun e => (e.1, e.2.map fun c => { c with fresh := [] }) }
    else s)

-- Resets (R355, R359, R406 to R408).

/-- The repair map after a warm reset (R404): a row of an uncorrectable event of its page, or with 64 corrected events, is
replaced, whichever pages have a part in it. -/
def repairRows (s : State) : List Nat :=
  (s.mem.replaced ++ s.mem.badRows.map (·.2) ++ (s.mem.rows.filter fun e => decide (64 ≤ e.2)).map (·.1)).eraseDups

/-- The bytes that memory itself holds (R406): what only a cache held of them is lost. -/
def keptBytes (s : State) : Tab Byte :=
  s.mem.stale.foldl (fun t e => match e.2 with | some x => tput unwritten t e.1 x | none => t) s.mem.bytes

/-- WARM_RESET (R406): memory as it stands without the caches, with its poison, its history and the repair map, what the save areas
in it stand for, the energy counters with their sequence numbers, the generation counters, the firmware and STAMP stay; all else is
as after a cold reset. -/
def execWarmReset (s : State) : Out :=
  .next { State.reset with
    agenda := s.agenda, cycle := s.cycle, uid := s.uid,
    mem := { MemSt.reset with
      bytes := keptBytes s, poison := s.mem.oldPoison.foldl (fun l x => insertNat x l) s.mem.poison, errors := s.mem.errors,
      hist := s.mem.hist, rows := s.mem.rows, badRows := s.mem.badRows, replaced := repairRows s, periodStart := s.cycle },
    areas := s.areas, imports := s.imports,
    energy := { EnergySt.reset with
      counters := s.energy.counters, moved := s.energy.moved, seq := s.energy.seq, seen := s.energy.seen, since := s.cycle,
      refused := s.energy.refused, gens := s.energy.gens, images := s.energy.images } }

/-- COLD_RESET (R407): bring-up begins anew; the agenda is the environment's and stays. -/
def execColdReset (s : State) : Out := .next { State.reset with agenda := s.agenda }

/-- Whether a readiness bit exists (R407, Table 4). -/
def isFn : FnId → Bool
  | .core n => decide (n < 256)
  | .chan c => decide (c < 512)
  | .port b => decide (b < 14)
  | .engine b => decide (b < 40)

/-- READINESS (R407): a function sets its bit in the readiness map, or in the failure map and then never the other. -/
def execReadiness (f : FnId) (good : Bool) (s : State) : Out :=
  .next (
    if !isFn f || s.pf.ready.contains f || s.pf.failed.contains f then s
    else if good then { s with pf := { s.pf with ready := s.pf.ready ++ [f] } }
    else { s with pf := { s.pf with failed := s.pf.failed ++ [f] } })

/-- The contexts of a virtual function. -/
def ctxsOf (s : State) (vf : Nat) : List Nat := ((tentries s.ctxs).filter fun e => e.2.vf == vf).map (·.1)

/-- FUNCTION_LEVEL_RESET (R408): as KILL on each of the VF's contexts, and its pending kicks are cleared. -/
def execFunctionLevelReset (vf : Nat) (s : State) : Out :=
  .next (
    if !isVf vf then s
    else
      let qs := vfQueues s vf
      let s := (ctxsOf s vf).foldl killCtx s
      qs.foldl (fun (s : State) q => s.setQueue q { s.queue q with pending := false }) s)

end Sys2Proof.Machine
end

