-- ==== Sys2Proof/Machine/Effects.lean ====
section
/-! DEFINITION. Effects, handlers, invocations and resumption tokens (R360 to R378), and what the device does
with a system effect (R165, R375, R376). -/

namespace Sys2Proof.Machine

/-- PROTECTION subcauses of this chapter (R379). -/
def pHstack : Nat := 6
def pWindow : Nat := 7
def pTokens : Nat := 8

/-- Whether a gang has one split and an empty deferral stack (R362). -/
def wholeGang (g : Gang) : Bool := g.splitList.length == 1 && g.deferred.isEmpty

/-- Whether a frame is shadowed by an invocation chain (R364). -/
def shadowed (chain : List Inv) (i : Nat) : Bool := chain.any fun e => decide (e.frame ≤ i) && decide (i < e.base)

/-- The innermost unshadowed frame below a bound that names an effect (R364). -/
def searchFrame (frames : List Frame) (chain : List Inv) (id : Nat) : Nat → Option Nat
  | 0 => none
  | n + 1 =>
    match frames[n]? with
    | some f => if !shadowed chain n && bitOf f.set id then some n else searchFrame frames chain id n
    | none => searchFrame frames chain id n

/-- The identity value (R367). -/
def identityOf (kind frame id : Nat) : DWord := dw (kind * 1073741824 + frame * 65536 + id)

/-- The payload, the token and the identity written to a frame's registers (R366, R371). -/
def landEffect (g : Gang) (f : Nat) (fr : Frame) (m : Lanes) (payload : VVal) (tok : DWord) (kind id : Nat) : Gang :=
  let regs := g.regs.vlanes fr.vp m (lane payload)
  { g with regs := (regs.kset fr.kt tok).kset fr.ki (identityOf kind f id) }

/-- The lowest free continuation record (R368). -/
def freeRecord (g : Gang) : Option Nat := tfree g.recs 16 0

/-- A record allocated, and its token (R366, R369). -/
def allocRec (s : State) (g : Gang) (i : Nat) (r : Rec) : Gang × DWord :=
  let n := (tget 0 g.serials i + 1) % 65536
  ({ g with recs := tput none g.recs i (some { r with serial := n }), serials := tput 0 g.serials i n },
    mkToken (genOf s g) g.tag (kindCode r.kind) i n)

/-- A split that enters a handler (R366). -/
def enterHandler (sp : Split) (hsp f id : Nat) (fr : Frame) (tok : DWord) (c : Cont) : Split :=
  { sp with chain := sp.chain ++ [{ frame := f, base := hsp, token := tok, id := id, cont := c }],
            exm := c.perf, pc := fr.pc, resv := none, spent := [] }

/-- HPUSH (R362). -/
def execHpush (vp : VReg) (ks kt ki : KReg) (off : BitVec 32) (s : State) : Out :=
  issue s { v := [vp], k := [ks, kt, ki] } 12 fun s key g sp =>
    if !wholeGang g then trapHere s key sp tConvergence 0 12 []
    else if 64 ≤ g.frames.length then trapHere s key sp tProtection pHstack 12 []
    else retire s key { g with frames := g.frames ++ [{ set := g.kget ks, pc := branchTarget sp off, vp, kt, ki }] } sp 12

/-- HPOP (R363). -/
def execHpop (s : State) : Out :=
  issue s {} 8 fun s key g sp =>
    let top := g.frames.length - 1
    if !wholeGang g then trapHere s key sp tConvergence 0 8 []
    else if g.frames.isEmpty || shadowed sp.chain top then trapHere s key sp tProtection pHstack 8 []
    else retire s key { g with
      frames := g.frames.dropLast,
      recs := g.recs.filter fun e => (match e.2 with | some r => r.frame != top | none => true) } sp 8

/-- Whether a save-window descriptor breaks R368. -/
def badWindow (need : Need) (w : DWord) : Bool :=
  bitsOf w 63 30 != 0 || bitsOf w 23 22 != 0 || decide (64 < bitsOf w 15 8) || decide (32 < bitsOf w 29 24)
    || decide (need.vregs < bitsOf w 7 0 + bitsOf w 15 8) || decide (need.kregs < bitsOf w 21 16 + bitsOf w 29 24)

/-- The registers that a save window copies (R368). -/
def windowCopy (g : Gang) (w : DWord) : List (Nat × VVal) × List (Nat × DWord) :=
  ((List.range (bitsOf w 15 8)).map fun i => (bitsOf w 7 0 + i, g.vget (bitsOf w 7 0 + i)),
   (List.range (bitsOf w 29 24)).map fun i => (bitsOf w 21 16 + i, g.kget (bitsOf w 21 16 + i)))

/-- The resources of a gang's block. -/
def needOf (s : State) (g : Gang) : Need :=
  match s.block? g.block with
  | some b => b.need
  | none => ⟨0, 0, 0, 0, 0, false, false, 0, 0⟩

/-- PERFORM (R365, R366). -/
def execPerform (p : Pred) (kind : TokKind) (d a : VReg) (kw : KReg) (id : Nat) (s : State) : Out :=
  issue s { v := [d, a], k := [kw], close := true } 8 fun s key g sp =>
    let m := activeLanes g sp p
    if m = 0 then retire s key g sp 8
    else match searchFrame g.frames sp.chain id g.frames.length with
      | none => trapHere s key sp tUnhandled 0 8 []
      | some f =>
        match g.frames[f]? with
        | none => trapHere s key sp tUnhandled 0 8 []
        | some fr =>
          let cont : Cont := { pc := sp.pc + 8, exm := sp.exm, lanes := sp.lanes, perf := m }
          let enter (g' : Gang) (tok : DWord) : State :=
            commit s key (landEffect g' f fr m (g.vget a) tok (kindCode kind) id)
              (enterHandler sp g.frames.length f id fr tok cont)
          if kind = .none then enter g (mkToken (genOf s g) g.tag 2 0 0)
          else if badWindow (needOf s g) (g.kget kw) then trapHere s key sp tProtection pWindow 8 []
          else match freeRecord g with
            | none => trapHere s key sp tProtection pTokens 8 []
            | some i =>
              let w := windowCopy g (g.kget kw)
              let r := allocRec s g i { kind, id, frame := f, result := some d, cont, chain := sp.chain,
                                        savedV := w.1, savedK := w.2, resumes := 0, serial := 0 }
              enter r.1 r.2

/-- A split back at a continuation (R370): EXM as at the PERFORM, the chain as before it. -/
def resumeSplit (g : Gang) (sp : Split) (r : Rec) : Split :=
  let e := r.cont.exm &&& g.live
  { sp with exm := if e = 0 then r.cont.lanes &&& g.live else e, chain := r.chain, pc := r.cont.pc }

/-- A record used by a RESUME (R370, R373). -/
def usedRec (g : Gang) (i : Nat) (r : Rec) : Gang :=
  if r.kind = .one then freeRec g i
  else { g with recs := tput none g.recs i (some { r with resumes := min (r.resumes + 1) 65535 }) }

/-- RESUME (R370). -/
def execResume (kt : KReg) (vs : VReg) (s : State) : Out :=
  issue s { v := [vs], k := [kt], close := true } 8 fun s key g sp =>
    match liveRec s g (g.kget kt) with
    | none => trapHere s key sp tStale 0 8 []
    | some (i, r) =>
      if sp.lanes ≠ r.cont.lanes &&& g.live then trapHere s key sp tConvergence 0 8 []
      else
        let g1 := restoreWindow g r
        let g2 := match r.result with
          | some d => { g1 with regs := g1.regs.vlanes d (r.cont.perf &&& g.live) (lane (g.vget vs)) }
          | none => g1
        let g3 := usedRec g2 i r
        s.setGang key (settleSplits 64 (g3.setSplit (resumeSplit g sp r)))

/-- The lanes of a split killed by the watchdog (R165, R374), with its fault record. -/
def killSplit (s : State) (key i : Nat) : State :=
  match s.gang? key with
  | none => s
  | some g =>
    match tget none g.splits i with
    | none => s
    | some sp =>
      let m := if sp.chain.isEmpty then sp.exm else sp.lanes
      let s := s.modBlock g.block fun b => { b with killed := b.killed + popcount m }
      let ring := match s.block? g.block with | some b => ringOf s b.ctx | none => 64
      let s := postRec s ring { gangRec s ring key g with pc := sp.pc, cls := 2, lanes := m }
      dropLanes s key i m fun g sp => (g, { sp with exm := sp.lanes })

/-- What a system effect does that no frame handles (R375). -/
def defaultEffect (s : State) (key : Nat) (g : Gang) (sp : Split) (id : Nat) : State :=
  if id = 2 then killSplit s key g.cur
  else if id = 4 then
    let ring := match s.block? g.block with | some b => ringOf s b.ctx | none => 64
    postRec s ring { gangRec s ring key g with cause := 2, lanes := sp.exm }
  else s

/-- The lanes that perform a system effect (R375). -/
def effectLanes (sp : Split) (e : PendEff) : Lanes :=
  if e.id = 1 then (e.lanes &&& sp.lanes) ||| (if e.whole then sp.exm else 0) else sp.exm

/-- The payload of a system effect when it is raised (R375): ERRCNT.COUNT is that of the moment. -/
def effectPayload (s : State) (g : Gang) (e : PendEff) : VVal :=
  if e.id = 3 then
    match (s.block? g.block).bind fun b => s.ctx? b.ctx with
    | some c => flatPayload (BitVec.allOnes 64) c.errCount
    | none => e.payload
  else e.payload

/-- The place in the Millrace's queue that a split's SRD has taken, given up (R314). -/
def dropHold (s : State) (key uid : Nat) : State :=
  match s.block? (key / 16) with
  | some b =>
    let a := s.array b.core
    if a.queue.contains (.hold key uid) then s.setArray b.core { a with queue := a.queue.filter (· != .hold key uid) } else s
  | none => s

/-- A pending system effect delivered to a gang's current split (R375, R376). -/
def deliverEffect (s : State) (key : Nat) (g : Gang) (sp : Split) (e : PendEff) : State :=
  let sp := { sp with eff := sp.eff.filter (·.id != e.id) }
  let g := { g with sched := { g.sched with raised := sp.uid :: g.sched.raised.filter (· != sp.uid) } }
  let s := dropHold s key sp.uid
  let m := effectLanes sp e
  let s0 := commit s key g sp
  if m = 0 then s0
  else match searchFrame g.frames sp.chain e.id g.frames.length, freeRecord g with
    | some f, some i =>
      match g.frames[f]? with
      | none => defaultEffect s0 key g sp e.id
      | some fr =>
        let cont : Cont := { pc := sp.pc, exm := sp.exm, lanes := sp.lanes, perf := m }
        let r := allocRec s g i { kind := .one, id := e.id, frame := f, result := none, cont, chain := sp.chain,
                                  savedV := [], savedK := [], resumes := 0, serial := 0 }
        commit s key (landEffect r.1 f fr m (effectPayload s g e) r.2 0 e.id) (enterHandler sp g.frames.length f e.id fr r.2 cont)
    | _, _ => defaultEffect s0 key g sp e.id

/-- FWD (R371). -/
def execFwd (kt : KReg) (va : VReg) (s : State) : Out :=
  issue s { v := [va], k := [kt], close := true } 8 fun s key g sp =>
    match sp.chain.getLast? with
    | none => trapHere s key sp tConvergence 0 8 []
    | some inv =>
      let tok := g.kget kt
      if sp.exm ≠ inv.cont.perf &&& g.live then trapHere s key sp tConvergence 0 8 []
      else if tok ≠ inv.token ∨ (bitsOf tok 31 30 ≠ 2 ∧ (liveRec s g tok).isNone) then trapHere s key sp tStale 0 8 []
      else
        let other := sp.chain.dropLast
        match searchFrame g.frames other inv.id (min inv.frame g.frames.length) with
        | some f =>
          match g.frames[f]? with
          | none => trapHere s key sp tUnhandled 0 8 []
          | some fr =>
            let g1 := match liveRec s g tok with
              | some (i, r) => { g with recs := tput none g.recs i (some { r with frame := f }) }
              | none => g
            let g2 := landEffect g1 f fr sp.exm (g.vget va) tok (bitsOf tok 31 30) inv.id
            commit s key g2 { sp with chain := other ++ [{ inv with frame := f, base := g.frames.length }], pc := fr.pc }
        | none =>
          if 16 ≤ inv.id then trapHere s key sp tUnhandled 0 8 []
          else match liveRec s g tok with
            | none => trapHere s key sp tStale 0 8 []
            | some (i, r) =>
              if sp.lanes ≠ r.cont.lanes &&& g.live then trapHere s key sp tConvergence 0 8 []
              else if inv.id = 2 then (defaultEffect (commit s key g sp) key g sp 2).modGang key fun g => freeRec g i
              else
                let s1 := defaultEffect (commit s key g sp) key g sp inv.id
                s1.setGang key (settleSplits 64 ((usedRec (restoreWindow g r) i r).setSplit (resumeSplit g sp r)))

/-- TKDROP (R372). -/
def execTkdrop (a : KReg) (s : State) : Out :=
  issue s { k := [a] } 8 fun s key g sp =>
    match liveRec s g (g.kget a) with
    | none => trapHere s key sp tStale 0 8 []
    | some (i, _) => retire s key (freeRec g i) sp 8

/-- What TKSTAT reads of a live token (R372). -/
def tokenStatus (r : Rec) : DWord :=
  dw (r.frame * 4294967296 + r.resumes * 65536 + r.id * 256 + kindCode r.kind * 16 + 1)

/-- TKSTAT (R372). -/
def execTkstat (d a : KReg) (s : State) : Out :=
  localOp s { k := [d, a] } 8 fun s g sp =>
    (g.kset d (match liveRec s g (g.kget a) with | some (_, r) => tokenStatus r | none => 0), sp)

/-- Whether a gang's current split is at an instruction boundary where the device may act on it. -/
def atBoundary (s : State) (g : Gang) (sp : Split) : Bool :=
  sp.wait == .ready && g.hold == .none && g.stopped.isNone && gangForeground s (g.block * 16) &&
    (match s.block? g.block with | some b => b.phase == .running | none => false)

/-- A pending effect of the kind asked for delivered at the current split's boundary, if it is the next one. -/
def deliverNext (s : State) (key : Nat) (dog : Bool) : State :=
  match s.gang? key with
  | none => s
  | some g =>
    match g.split? with
    | none => s
    | some sp =>
      match sp.eff with
      | e :: _ => if atBoundary s g sp && !g.sched.raised.contains sp.uid && (e.id == 2) == dog then deliverEffect s key g sp e else s
      | [] => s

/-- WATCHDOG (R165). -/
def execWatchdog (gang : Nat) (s : State) : Out := .next (deliverNext s gang true)

/-- SYSTEM_EFFECT (R375, R376): the pending effect of the lowest ID. -/
def execSystemEffect (gang : Nat) (s : State) : Out := .next (deliverNext s gang false)

end Sys2Proof.Machine
end

