-- ==== Sys2Proof/Machine/Registers.lean ====
section
/-! DEFINITION. Writes to the physical function's registers by offset (R151, R166, R338, R340, R358, R401, R404,
R405): the registers that have no row of their own in the opcode table, and the others through the meanings of theirs. -/

namespace Sys2Proof.Machine

/-- The state that a meaning which always goes on leaves. -/
def after (s : State) (o : Out) : State :=
  match o with
  | .next t => t
  | _ => s

/-- A field of which 0 stores 1 (R166, R340, R401). -/
def atLeast1 (n : Nat) : Nat := max 1 n

/-- PHOLD and PPARK (R166), PCTL and PDRAIN (R340) of a partition. -/
def writePart (s : State) (p r : Nat) (v : DWord) : State :=
  let x := s.part p
  if r = 0x00 then
    s.setPart p { x with fabric := atLeast1 (bitsOf v 63 48), memc := atLeast1 (bitsOf v 47 32),
                         die := atLeast1 (bitsOf v 31 16), core := atLeast1 (bitsOf v 15 0) }
  else if r = 0x08 then s.setPart p { x with park := atLeast1 (bitsOf v 15 0) }
  else if r = 0x10 then
    let s := (noteCfg s).setPart p { x with
      shadow := if (partBlocks s p).isEmpty then bitOf v 16 else x.shadow, pround := max 100 (bitsOf v 15 0) }
    if bitOf v 63 then goUrgent s p else s
  else if r = 0x18 then s.setPart p { x with drain := atLeast1 (bitsOf v 15 0) }
  else s

/-- VWEIR and VSCHED of a virtual function (R338), and through their own rows VPART, VPOL and FRING. -/
def writeVf (s : State) (vf r : Nat) (v : DWord) : State :=
  let x := s.vf vf
  if r = 0x00 then after s (execVpartWrite vf v s)
  else if r = 0x08 then after s (execVpolWrite vf v s)
  else if r = 0x10 then
    (noteCfg s).setVf vf { x with burst := bitsOf v 47 32, bankcap := min (bitsOf v 19 16) 4, slice := bitsOf v 15 0 }
  else if r = 0x18 then after s (execFringWrite vf v s)
  else if r = 0x20 then s.setVf vf { x with vsBase := v.toNat / 4096 * 4096, vsCount := min (bitsOf v 6 0) 64 }
  else s

/-- QCTL and QBASE of a hardware queue (R151): HALT is cleared by writing 1, HEAD is read-only. -/
def writeQueue (s : State) (q r : Nat) (v : DWord) : State :=
  let x := s.queue q
  if r = 0 then
    let n := bitsOf v 55 52
    s.setQueue q { x with en := bitOf v 63, halt := x.halt && !bitOf v 62, qpri := bitsOf v 59 56,
                          log2n := if n < 6 then 6 else n, ctx := bitsOf v 47 32 }
  else s.setQueue q { x with qbase := dw (v.toNat / 64 * 64) }

/-- WEIRERR (R358): a 1 clears its bit. -/
def writeWeirerr (s : State) (v : DWord) : State :=
  { s with pf := { s.pf with errOwn := s.pf.errOwn && !bitOf v 0, errAdmit := s.pf.errAdmit && !bitOf v 1,
                             errSched := s.pf.errSched && !bitOf v 2 } }

/-- CTXCTL by its operation code (R383, R385). -/
def writeCtxctl (s : State) (page : Nat) (v : DWord) : State :=
  let ctx := bitsOf v 15 0
  match bitsOf v 63 61 with
  | 0 => s
  | 1 => after s (execCtxctlResume page ctx s)
  | 2 => after s (execCtxctlSkip page ctx s)
  | 3 => after s (execCtxctlKill page ctx s)
  | 4 => after s (execCtxctlStop page ctx s)
  | 5 => after s (execCtxctlStart page ctx s)
  | 6 => after s (execCtxctlCreate page ctx s)
  | _ => refusePage s page

/-- The registers of a fault page by their offset (R383). -/
def writeFaultPage (s : State) (page r : Nat) (v : DWord) : State :=
  if r = 0x00 then after s (execFheadWrite page v s)
  else if r = 0x10 then after s (execFstatWrite page false v s)
  else if r = 0x18 then after s (execFserve page v s)
  else if r = 0x20 then writeCtxctl s page v
  else if r = 0x28 then after s (execFstatWrite page true v s)
  else if r = 0x30 then after s (execLcancel page v s)
  else s

/-- The single registers of BAR0 from 0x2000 on (R358). -/
def writeSingle (s : State) (off : Nat) (v : DWord) : State :=
  if off = 0x2000 then after s (execFringWrite pfPage v s)
  else if off = 0x2008 then writeWeirerr s v
  else if off = 0x2010 then { s with pf := { s.pf with invaddr := v.toNat / 65536 * 65536 } }
  else if off = 0x2018 then writeInvctl s v
  else if off = 0x2020 then { s with pf := { s.pf with dtsel := dw (bitsOf v 47 32 * 4294967296 + bitsOf v 25 0) } }
  else if off = 0x2030 then { s with pf := { s.pf with ctxtab := bitsOf v 51 19 * 2 ^ 19 } }
  else if off = 0x2038 then { s with pf := { s.pf with wtbase := bitsOf v 51 20 * 2 ^ 20 } }
  else if off = 0x2040 then { s with pf := { s.pf with ltbase := bitsOf v 51 25 * 2 ^ 25 } }
  else if off = 0x2048 then { s with mem := { s.mem with period := max 3600 (bitsOf v 63 32) } }
  else if off = 0x2058 then { s with mem := { s.mem with peqaddr := bitsOf v 35 0 } }
  else if off = 0x2060 then after s (execPeqdataClr v s)
  else s

/-- REGISTER_WRITE (R358): 8-byte writes only, at the offsets of Table 8; all else, and every read-only register, is
left as it is. -/
def execRegisterWrite (off size : Nat) (v : DWord) (s : State) : Out :=
  .next (
    if size ≠ 8 ∨ off % 8 ≠ 0 then s
    else if off < 0x1000 then writeFaultPage s pfPage off v
    else if off = 0x1000 then after s (execEnreq pfPage v s)
    else if off < 0x3000 then writeSingle s off v
    else if 0x8000 ≤ off ∧ off < 0x9000 then writeVf s ((off - 0x8000) / 64) (off % 64) v
    else if 0x9000 ≤ off ∧ off < 0x9800 then writePart s ((off - 0x9000) / 256) (off % 256) v
    else if 0xA000 ≤ off ∧ off < 0xE000 then writeQueue s ((off - 0xA000) / 16) (off % 16) v
    else if 0x10000 ≤ off ∧ off < 0x20000 then
      after s (execFloorWrite ((off - 0x10000) / 128) (off % 128 / 8) v s)
    else if 0x20000 ≤ off ∧ off < 0x21000 then
      { s with mem := { s.mem with calint := tput 32 s.mem.calint ((off - 0x20000) / 8) (atLeast1 (bitsOf v 15 0)) } }
    else s)

end Sys2Proof.Machine
end

