-- ==== Sys2Proof/Machine/Fetch.lean ====
section
/-! DEFINITION. Fetching an instruction (R40 to R42, R65, R82 to R86): what the gang finds at its PC, and the traps that
come before any instruction is there. -/

namespace Sys2Proof.Machine

/-- What a fetch finds. -/
inductive Fetched where
  | instr (i : Instr)
  | illegal (len : Option Nat)
  | boundary
  | bad (sub : Nat)
  | miss (vpn : Nat)
  | absent (stage page : Nat)
  | wait
  deriving DecidableEq, Repr

/-- The bytes at a place of device memory. -/
def State.bytesAt (s : State) (a n : Nat) : List Byte := (List.range n).map fun i => s.byte (a + i)

/-- What the bytes of a fetch block are at an address (R40, R41, R65): `pa` is the physical address of `pc`. -/
def fetchAt (s : State) (pc : DWord) (pa : Nat) : Fetched :=
  let l := (s.byte pa).toNat
  if l % 4 = 3 then .illegal none
  else
    let n := lenBytes l
    if pc.toNat % 32 + n > 32 then .boundary
    else match decodeBytes (s.bytesAt pa n) with
      | .ok i => .instr i
      | .error _ => .illegal (some n)

/-- A fetch of a block at an address (R65, R83, R85). -/
def fetch (s : State) (b : Block) (pc : DWord) : Fetched :=
  match s.tlbGet b.core b.ctx (pc.toNat / 65536) with
  | none => .miss (pc.toNat / 65536)
  | some (.malformed x _ _) => .bad (if x then pMalformed else pPermission)
  | some (.absent st pg x _ _) => if x then .absent st pg else .bad pPermission
  | some (.page pa gpa x _ _) =>
    let l : Loc := ⟨false, pa / 65536 * 65536 + pc.toNat % 65536, gpa / 65536 * 65536 + pc.toNat % 65536, b.ctx⟩
    if !x then .bad pPermission
    else if s.core.icache.contains (b.core, l.addr / 32) || placeOpen s (ctxVf s b.ctx) l 1 then fetchAt s pc l.addr else .wait

/-- The sectors that an instruction cache holds (R12). -/
def icacheSectors : Nat := 4096

/-- A sector put into the instruction cache of a core, where the oldest makes room (R12; log 65). -/
def putIcache (l : List (Nat × Nat)) (core sec : Nat) : List (Nat × Nat) :=
  let mine := l.filter fun e => e.1 == core
  let l := if icacheSectors ≤ mine.length then (match mine with | e :: _ => l.erase e | [] => l) else l
  l ++ [(core, sec)]

/-- A fetch that misses in the instruction cache reads the sector at its home (R12, R42, R344 to R346, R401). -/
def fillIcache (s : State) (b : Block) (pc : DWord) : State :=
  match s.tlbGet b.core b.ctx (pc.toNat / 65536) with
  | some (.page pa _ x _ _) =>
    let a := pa / 65536 * 65536 + pc.toNat % 65536
    if !x || s.core.icache.contains (b.core, a / 32) || !placeOpen s (ctxVf s b.ctx) ⟨false, a, 0, 0⟩ 1 then s
    else
      let s := chargeSlots (arrivalServed (sectorRead s (a / 32)).1 (ctxVf s b.ctx) a 1) b.ctx b.core a 1
      { s with core := { s.core with icache := putIcache s.core.icache b.core (a / 32) } }
  | _ => s

/-- What a gang's current split finds at its PC. -/
def fetchGang (s : State) (key : Nat) : Option (Gang × Split × Block × Fetched) :=
  match s.gang? key with
  | none => none
  | some g =>
    match g.split?, s.block? g.block with
    | some sp, some b => some (g, sp, b, fetch s b sp.pc)
    | _, _ => none

/-- The length that SKIP adds after an illegal word at the PC (R385); none where LEN is 3. -/
def illegalSkip (s : State) (key : Nat) : Option (Option Nat) :=
  match fetchGang s key with
  | some (_, _, _, .illegal n) => some n
  | _ => none

/-- ILLEGAL_INSTRUCTION (R40, R65, R66): the word at the PC is not an instruction. -/
def execIllegalInstruction (s : State) : Out :=
  issueWhen s {} 0 (fun s key _ _ _ => (illegalSkip s key).isSome) fun s key _ sp =>
    takeTrap s key tIllegal 0 0 sp.exm [] ((illegalSkip s key).getD none)

/-- A trap of the fetch itself (R41, R379): nothing is there to skip (R385). -/
def fetchTrap (s : State) (cause sub : Nat) (addrs : List DWord) : Out :=
  issue s {} 0 fun s key _ sp => takeTrap s key cause sub 0 sp.exm addrs none

/-- The gang holds its fetch until a walk has ended (R85). -/
def fetchWalk (s : State) (key : Nat) (b : Block) (vpn : Nat) : State :=
  (startWalk s b.core b.ctx vpn).modGang key fun g => { g with hold := .walk 0 }

/-- The gang parks at an instruction on an absent page (R86). -/
def fetchPark (s : State) (key : Nat) (g : Gang) (sp : Split) (b : Block) (stage page : Nat) : State :=
  let q := postPage s { gangRec s 0 key g with lanes := sp.exm } b.ctx stage 0 [page]
  q.1.modGang key fun g => { g with hold := .park 0 q.2.1 q.2.2 s.cycle false }

/-- What a gang issues (R65, R162, R376, R379): first a pending effect, a trap left for the boundary or the fairness
timer's switch, else the instruction at its PC, or what the fetch met instead. -/
inductive Slot where
  | run (i : Instr)
  | trap (cause sub : Nat) (addrs : List DWord)
  | walk (vpn : Nat)
  | park (stage page : Nat)
  | idle
  deriving DecidableEq, Repr

/-- Whether a gang's current split is at a boundary where the device may act for it. -/
def slotOpen (s : State) (g : Gang) (sp : Split) : Bool := atBoundary s g sp

/-- What an issue of a gang does. -/
def slotFor1 (s : State) (key : Nat) (g : Gang) (sp : Split) (f : Fetched) : Slot :=
  if slotOpen s g sp && !sp.eff.isEmpty && !g.sched.raised.contains sp.uid then
    .run (if (sp.eff.head?).elim false (·.id == 2) then .watchdog key else .systemEffect key)
  else if slotOpen s g sp && !g.traps.isEmpty then
    .run (if (g.traps.head?).elim false (·.cause == tEngine) then .engineFault key else .poison key)
  else if slotOpen s g sp && fairDue g then .run (.fairnessTimer key)
  else match f with
    | .instr i => .run i
    | .illegal _ => .run .illegalInstruction
    | .boundary => .trap tBoundary 0 [sp.pc]
    | .bad sub => .trap tProtection sub [sp.pc]
    | .miss v => if slotOpen s g sp then .walk v else .idle
    | .absent st pg => if slotOpen s g sp then .park st pg else .idle
    | .wait => .idle

/-- What the gang of a key does with an issue slot. -/
def slotOf1 (s : State) (key : Nat) : Slot :=
  match fetchGang s key with
  | some (g, sp, _, f) => if g.sched.active then slotFor1 s key g sp f else .idle
  | none => .idle

/-- The state when a gang holds its fetch. -/
def holdFetch (s : State) (key : Nat) (x : Slot) : State :=
  match fetchGang s key with
  | some (g, sp, b, _) =>
    match x with
    | .walk v => fetchWalk s key b v
    | .park st pg => fetchPark s key g sp b st pg
    | _ => s
  | none => s

/-- Whether an instruction may stand in the agenda: it is an event of the opcode table, with no word of its own. -/
def isEvent (i : Instr) : Bool := (encode i).isNone

/-- Whether a gang may issue in this cycle (R158, R159): it has not issued in it, nor come into the active set in it. -/
def cycleOpen (s : State) (g : Gang) : Bool := g.sched.issued != some s.cycle && g.sched.entered != some s.cycle

/-- The turn that an empty agenda stands for: the gang that issued last issues again, or a cycle passes. -/
def defaultTurn (s : State) : Turn :=
  match s.cur with
  | some k => if (s.gang? k).elim true (cycleOpen s) then .issue k else .elapse 1
  | none => .elapse 1

/-- The next turn and the state without it. -/
def nextTurnOf (s : State) : Turn × State :=
  match s.agenda with
  | t :: rest => (t, { s with agenda := rest })
  | [] => (defaultTurn s, s)

/-- Where a test instruction lies: its gang's key. -/
def testKey (s : State) : Nat := s.uid * 16

/-- The resources of a test block: all that a block may have. -/
def testNeed : Need :=
  { vregs := 256, kregs := 64, scratch := 2048, tags := 64, guards := 15, race := true, shadow := false, prio := 0, wdlim := 0 }

/-- A running block of context 0 on core 0. -/
def testBlock : Block :=
  { launch := 0, index := 0, ctx := 0, core := 0, q0 := 0, bank := 0, ngangs := 1, need := testNeed, scrbase := 0, tagbase := 0,
    x := 0, y := 0, z := 0, wide := false, phase := .running, busy := 0, ready := 0, tdisc := 0, tfault := 0, killed := 0, image := none }

/-- A gang with one split of 64 lanes at address 0. -/
def testGang (n : Nat) : Gang :=
  { placedGang n 0 0 0 testNeed with
    live := BitVec.allOnes 64, splits := [(0, some (firstSplit 1 0 (BitVec.allOnes 64)))],
    sched := { quarter := 0, slot := 0, active := true, boost := false, lastIssue := 0, waitSince := 0 } }

/-- The state with a word of `n` bytes at physical address 0, mapped to virtual page 0 of context 0 on core 0, and a
gang that issues it next. -/
def placeWord (s : State) (n w : Nat) : State :=
  let k := s.uid
  let s := { s with
    agenda := [.issue (16 * k)], uid := k + 1, cur := some (16 * k),
    mem := { s.mem with poison := s.mem.poison.filter (· != 0) },
    tlb := tput none s.tlb (tlbKey 0 0 0) (some (.page 0 0 true true true)),
    pf := { s.pf with ready := .engine 36 :: .chan 0 :: s.pf.ready } }
  let s := ((s.setBlock k testBlock).setGang (16 * k) (testGang k)).setCtx 0 { freshCtx with parts := 1 }
  let s := (s.setVf 0 { vfDefault with vpol := 5, vpart := 1 }).setPart 0 partDefault
  let s := (s.setArray 0 { arrayDefault with owner := some k }).writePhys 0 n w
  { s with core := { s.core with icache := (0, 0) :: s.core.icache.filter (· != (0, 0)) } }

end Sys2Proof.Machine
end

