-- ==== Sys2Proof/Machine/Dispatch.lean ====
section
/-! DEFINITION. One arm for each constructor of `Instr`. -/

namespace Sys2Proof.Machine

/-- What an instruction or an event does to the machine. -/
def exec (i : Instr) (s : State) : Host.Outcome State Fault Refusal :=
  match i with
  | .nop => Sys2Proof.Machine.execNop s
  | .exit p => Sys2Proof.Machine.execExit p s
  | .bra off => Sys2Proof.Machine.execBra off s
  | .brc c a y off => Sys2Proof.Machine.execBrc c a y off s
  | .brd neg a off => Sys2Proof.Machine.execBrd neg a off s
  | .brv v a off => Sys2Proof.Machine.execBrv v a off s
  | .call d off => Sys2Proof.Machine.execCall d off s
  | .ret a => Sys2Proof.Machine.execRet a s
  | .merge => Sys2Proof.Machine.execMerge s
  | .movk f d imm => Sys2Proof.Machine.execMovk f d imm s
  | .addk d a b => Sys2Proof.Machine.execAddk d a b s
  | .subk d a b => Sys2Proof.Machine.execSubk d a b s
  | .mulk d a b => Sys2Proof.Machine.execMulk d a b s
  | .mulhk sgn d a b => Sys2Proof.Machine.execMulhk sgn d a b s
  | .andk d a b => Sys2Proof.Machine.execAndk d a b s
  | .ork d a b => Sys2Proof.Machine.execOrk d a b s
  | .xork d a b => Sys2Proof.Machine.execXork d a b s
  | .shlk d a b => Sys2Proof.Machine.execShlk d a b s
  | .shrk d a b => Sys2Proof.Machine.execShrk d a b s
  | .sark d a b => Sys2Proof.Machine.execSark d a b s
  | .mink sgn d a b => Sys2Proof.Machine.execMink sgn d a b s
  | .maxk sgn d a b => Sys2Proof.Machine.execMaxk sgn d a b s
  | .addkImm d a imm => Sys2Proof.Machine.execAddkImm d a imm s
  | .subkImm d a imm => Sys2Proof.Machine.execSubkImm d a imm s
  | .mulkImm d a imm => Sys2Proof.Machine.execMulkImm d a imm s
  | .mulhkImm sgn d a imm => Sys2Proof.Machine.execMulhkImm sgn d a imm s
  | .andkImm d a imm => Sys2Proof.Machine.execAndkImm d a imm s
  | .orkImm d a imm => Sys2Proof.Machine.execOrkImm d a imm s
  | .xorkImm d a imm => Sys2Proof.Machine.execXorkImm d a imm s
  | .shlkImm d a imm => Sys2Proof.Machine.execShlkImm d a imm s
  | .shrkImm d a imm => Sys2Proof.Machine.execShrkImm d a imm s
  | .sarkImm d a imm => Sys2Proof.Machine.execSarkImm d a imm s
  | .minkImm sgn d a imm => Sys2Proof.Machine.execMinkImm sgn d a imm s
  | .maxkImm sgn d a imm => Sys2Proof.Machine.execMaxkImm sgn d a imm s
  | .ktov p t d a => Sys2Proof.Machine.execKtov p t d a s
  | .vtok t d a lane => Sys2Proof.Machine.execVtok t d a lane s
  | .ktom d a => Sys2Proof.Machine.execKtom d a s
  | .mtok d a => Sys2Proof.Machine.execMtok d a s
  | .mand d a b => Sys2Proof.Machine.execMand d a b s
  | .mor d a b => Sys2Proof.Machine.execMor d a b s
  | .mxor d a b => Sys2Proof.Machine.execMxor d a b s
  | .mnot d a => Sys2Proof.Machine.execMnot d a s
  | .mpopc d a => Sys2Proof.Machine.execMpopc d a s
  | .mfirst d a => Sys2Proof.Machine.execMfirst d a s
  | .movx f => Sys2Proof.Machine.execMovx f s
  | .srd d r => Sys2Proof.Machine.execSrd d r s
  | .swr r a => Sys2Proof.Machine.execSwr r a s
  | .swrErrq a => Sys2Proof.Machine.execSwrErrq a s
  | .swrTwin a => Sys2Proof.Machine.execSwrTwin a s
  | .swrRcstat a => Sys2Proof.Machine.execSwrRcstat a s
  | .trap code => Sys2Proof.Machine.execTrap code s
  | .bar => Sys2Proof.Machine.execBar s
  | .cjoin c => Sys2Proof.Machine.execCjoin c s
  | .cleave c => Sys2Proof.Machine.execCleave c s
  | .cbar c => Sys2Proof.Machine.execCbar c s
  | .setpri p => Sys2Proof.Machine.execSetpri p s
  | .yieldTurn => Sys2Proof.Machine.execYieldTurn s
  | .waitc n m => Sys2Proof.Machine.execWaitc n m s
  | .sleep a => Sys2Proof.Machine.execSleep a s
  | .sleepExpiry gang split => Sys2Proof.Machine.execSleepExpiry gang split s
  | .hpush vp ks kt ki off => Sys2Proof.Machine.execHpush vp ks kt ki off s
  | .hpop => Sys2Proof.Machine.execHpop s
  | .perform p kind d a kw id => Sys2Proof.Machine.execPerform p kind d a kw id s
  | .resume kt vs => Sys2Proof.Machine.execResume kt vs s
  | .fwd kt va => Sys2Proof.Machine.execFwd kt va s
  | .tkdrop a => Sys2Proof.Machine.execTkdrop a s
  | .tkstat d a => Sys2Proof.Machine.execTkstat d a s
  | .ld p w t o sc sp d m la => Sys2Proof.Machine.execLd p w t o sc sp d m la s
  | .st p w t o sc sp m c => Sys2Proof.Machine.execSt p w t o sc sp m c s
  | .ldk w t o sc sp d m la => Sys2Proof.Machine.execLdk w t o sc sp d m la s
  | .stk w t o sc sp m c => Sys2Proof.Machine.execStk w t o sc sp m c s
  | .atom p op ret t o sc sp d m la => Sys2Proof.Machine.execAtom p op ret t o sc sp d m la s
  | .atomk op t o sc sp d m la => Sys2Proof.Machine.execAtomk op t o sc sp d m la s
  | .lr p t o sc d m la => Sys2Proof.Machine.execLr p t o sc d m la s
  | .sc p t o scp d m c la => Sys2Proof.Machine.execSc p t o scp d m c la s
  | .fence k sc => Sys2Proof.Machine.execFence k sc s
  | .pref p lvl m => Sys2Proof.Machine.execPref p lvl m s
  | .twait all d a => Sys2Proof.Machine.execTwait all d a s
  | .tfirst d a => Sys2Proof.Machine.execTfirst d a s
  | .tclr d a => Sys2Proof.Machine.execTclr d a s
  | .gset n src => Sys2Proof.Machine.execGset n src s
  | .copy cmd box => Sys2Proof.Machine.execCopy cmd box s
  | .copyAdd cmd box => Sys2Proof.Machine.execCopyAdd cmd box s
  | .launch cmd => Sys2Proof.Machine.execLaunch cmd s
  | .signal cmd => Sys2Proof.Machine.execSignal cmd s
  | .boxComplete cmd box => Sys2Proof.Machine.execBoxComplete cmd box s
  | .commandComplete cmd => Sys2Proof.Machine.execCommandComplete cmd s
  | .engineFault gang => Sys2Proof.Machine.execEngineFault gang s
  | .poison gang => Sys2Proof.Machine.execPoison gang s
  | .rld p w t o d pa ix disp la => Sys2Proof.Machine.execRld p w t o d pa ix disp la s
  | .rst p w t o c pa ix disp => Sys2Proof.Machine.execRst p w t o c pa ix disp s
  | .ratom p op t o d pa ix disp la => Sys2Proof.Machine.execRatom p op t o d pa ix disp la s
  | .rfence chk => Sys2Proof.Machine.execRfence chk s
  | .remoteRequest r => Sys2Proof.Machine.execRemoteRequest r s
  | .remoteResponse req lanes st data => Sys2Proof.Machine.execRemoteResponse req lanes st data s
  | .planeDead dev plane => Sys2Proof.Machine.execPlaneDead dev plane s
  | .epilogue dev plane last => Sys2Proof.Machine.execEpilogue dev plane last s
  | .peerLost dev => Sys2Proof.Machine.execPeerLost dev s
  | .linkTraining plane here there => Sys2Proof.Machine.execLinkTraining plane here there s
  | .launchPacket k => Sys2Proof.Machine.execLaunchPacket k s
  | .vadd p sat t d a b => Sys2Proof.Machine.execVadd p sat t d a b s
  | .vsub p sat t d a b => Sys2Proof.Machine.execVsub p sat t d a b s
  | .vmin p t d a b => Sys2Proof.Machine.execVmin p t d a b s
  | .vmax p t d a b => Sys2Proof.Machine.execVmax p t d a b s
  | .vabs p sat t d a => Sys2Proof.Machine.execVabs p sat t d a s
  | .vneg p sat t d a => Sys2Proof.Machine.execVneg p sat t d a s
  | .vmul p t d a b => Sys2Proof.Machine.execVmul p t d a b s
  | .vmulh p t d a b => Sys2Proof.Machine.execVmulh p t d a b s
  | .vmad p t d a b c => Sys2Proof.Machine.execVmad p t d a b c s
  | .vshl p t d a b => Sys2Proof.Machine.execVshl p t d a b s
  | .vshr p t d a b => Sys2Proof.Machine.execVshr p t d a b s
  | .vsar p t d a b => Sys2Proof.Machine.execVsar p t d a b s
  | .vrot p t d a b => Sys2Proof.Machine.execVrot p t d a b s
  | .vand p d a b => Sys2Proof.Machine.execVand p d a b s
  | .vor p d a b => Sys2Proof.Machine.execVor p d a b s
  | .vxor p d a b => Sys2Proof.Machine.execVxor p d a b s
  | .vnot p d a => Sys2Proof.Machine.execVnot p d a s
  | .vlop3 p lut d a b c => Sys2Proof.Machine.execVlop3 p lut d a b c s
  | .vbfx p t d a b => Sys2Proof.Machine.execVbfx p t d a b s
  | .vbfi p d a b c => Sys2Proof.Machine.execVbfi p d a b c s
  | .vpopc p d a => Sys2Proof.Machine.execVpopc p d a s
  | .vclz p d a => Sys2Proof.Machine.execVclz p d a s
  | .vbrev p d a => Sys2Proof.Machine.execVbrev p d a s
  | .vprmb p d a b sel => Sys2Proof.Machine.execVprmb p d a b sel s
  | .vcmp p c cb t d a b => Sys2Proof.Machine.execVcmp p c cb t d a b s
  | .vsel p t d a b c => Sys2Proof.Machine.execVsel p t d a b c s
  | .vmov p t d a => Sys2Proof.Machine.execVmov p t d a s
  | .vmovi p t d imm => Sys2Proof.Machine.execVmovi p t d imm s
  | .vaddImm p sat t d a imm => Sys2Proof.Machine.execVaddImm p sat t d a imm s
  | .vsubImm p sat t d a imm => Sys2Proof.Machine.execVsubImm p sat t d a imm s
  | .vminImm p t d a imm => Sys2Proof.Machine.execVminImm p t d a imm s
  | .vmaxImm p t d a imm => Sys2Proof.Machine.execVmaxImm p t d a imm s
  | .vmulImm p t d a imm => Sys2Proof.Machine.execVmulImm p t d a imm s
  | .vandImm p d a imm => Sys2Proof.Machine.execVandImm p d a imm s
  | .vorImm p d a imm => Sys2Proof.Machine.execVorImm p d a imm s
  | .vxorImm p d a imm => Sys2Proof.Machine.execVxorImm p d a imm s
  | .vshlImm p t d a imm => Sys2Proof.Machine.execVshlImm p t d a imm s
  | .vshrImm p t d a imm => Sys2Proof.Machine.execVshrImm p t d a imm s
  | .vsarImm p t d a imm => Sys2Proof.Machine.execVsarImm p t d a imm s
  | .vrotImm p t d a imm => Sys2Proof.Machine.execVrotImm p t d a imm s
  | .vmulhImm p t d a imm => Sys2Proof.Machine.execVmulhImm p t d a imm s
  | .vcsub p t d a b m => Sys2Proof.Machine.execVcsub p t d a b m s
  | .fadd p rm t d a b => Sys2Proof.Machine.execFadd p rm t d a b s
  | .fsub p rm t d a b => Sys2Proof.Machine.execFsub p rm t d a b s
  | .fmul p rm t d a b => Sys2Proof.Machine.execFmul p rm t d a b s
  | .fmin p t d a b => Sys2Proof.Machine.execFmin p t d a b s
  | .fmax p t d a b => Sys2Proof.Machine.execFmax p t d a b s
  | .ffma p nc np rm t d a b c => Sys2Proof.Machine.execFfma p nc np rm t d a b c s
  | .fcmp p c cb d a b => Sys2Proof.Machine.execFcmp p c cb d a b s
  | .frcp p d a la => Sys2Proof.Machine.execFrcp p d a la s
  | .frsq p d a la => Sys2Proof.Machine.execFrsq p d a la s
  | .fsqrt p rm d a la => Sys2Proof.Machine.execFsqrt p rm d a la s
  | .fexp2 p d a la => Sys2Proof.Machine.execFexp2 p d a la s
  | .flog2 p d a la => Sys2Proof.Machine.execFlog2 p d a la s
  | .fsin p d a la => Sys2Proof.Machine.execFsin p d a la s
  | .fcos p d a la => Sys2Proof.Machine.execFcos p d a la s
  | .fdiv p rm d a b la => Sys2Proof.Machine.execFdiv p rm d a b la s
  | .fclass p t d a => Sys2Proof.Machine.execFclass p t d a s
  | .frnd p exact rm t d a => Sys2Proof.Machine.execFrnd p exact rm t d a s
  | .cvt p rm sat nosat dt t d a spos dpos => Sys2Proof.Machine.execCvt p rm sat nosat dt t d a spos dpos s
  | .qmx p t d ks a bias la => Sys2Proof.Machine.execQmx p t d ks a bias la s
  | .dqmx p t d ks a => Sys2Proof.Machine.execDqmx p t d ks a s
  | .faddImm p rm t d a imm => Sys2Proof.Machine.execFaddImm p rm t d a imm s
  | .fsubImm p rm t d a imm => Sys2Proof.Machine.execFsubImm p rm t d a imm s
  | .fmulImm p rm t d a imm => Sys2Proof.Machine.execFmulImm p rm t d a imm s
  | .fminImm p t d a imm => Sys2Proof.Machine.execFminImm p t d a imm s
  | .fmaxImm p t d a imm => Sys2Proof.Machine.execFmaxImm p t d a imm s
  | .ffmaImm p nc np rm t d a imm c => Sys2Proof.Machine.execFfmaImm p nc np rm t d a imm c s
  | .fstat clr d => Sys2Proof.Machine.execFstat clr d s
  | .shfl p mode w t d a o => Sys2Proof.Machine.execShfl p mode w t d a o s
  | .vred p op w t d a la => Sys2Proof.Machine.execVred p op w t d a la s
  | .vscan p excl op w t d a la => Sys2Proof.Machine.execVscan p excl op w t d a la s
  | .matchLanes p o w t d a la => Sys2Proof.Machine.execMatchLanes p o w t d a la s
  | .ballot p d a => Sys2Proof.Machine.execBallot p d a s
  | .vote p v d a => Sys2Proof.Machine.execVote p v d a s
  | .vlane p o d => Sys2Proof.Machine.execVlane p o d s
  | .pair s0 s1 => Sys2Proof.Machine.execPair s0 s1 s
  | .mres mx recv t d id base len sbase => Sys2Proof.Machine.execMres mx recv t d id base len sbase s
  | .mrel mask => Sys2Proof.Machine.execMrel mask s
  | .mld scl mc sp id kb disp ks cmask => Sys2Proof.Machine.execMld scl mc sp id kb disp ks cmask s
  | .multicastDelivery gang => Sys2Proof.Machine.execMulticastDelivery gang s
  | .mgath id kb disp => Sys2Proof.Machine.execMgath id kb disp s
  | .mma skip z tile ra rb a0 b0 kcm1 => Sys2Proof.Machine.execMma skip z tile ra rb a0 b0 kcm1 s
  | .mbatch d => Sys2Proof.Machine.execMbatch d s
  | .batchComplete gang => Sys2Proof.Machine.execBatchComplete gang s
  | .mwait d a => Sys2Proof.Machine.execMwait d a s
  | .aclr a => Sys2Proof.Machine.execAclr a s
  | .ard rm sat nosat t d tile row la => Sys2Proof.Machine.execArd rm sat nosat t d tile row la s
  | .awr t m c => Sys2Proof.Machine.execAwr t m c s
  | .ast rm sat nosat t km kb disp kr => Sys2Proof.Machine.execAst rm sat nosat t km kb disp kr s
  | .rcwin a => Sys2Proof.Machine.execRcwin a s
  | .rcmode mesh a b => Sys2Proof.Machine.execRcmode mesh a b s
  | .rcld mesh kb disp kn => Sys2Proof.Machine.execRcld mesh kb disp kn s
  | .rcgo a b => Sys2Proof.Machine.execRcgo a b s
  | .evaluationEnd core => Sys2Proof.Machine.execEvaluationEnd core s
  | .rccap x d la => Sys2Proof.Machine.execRccap x d la s
  | .rcclr => Sys2Proof.Machine.execRcclr s
  | .resetEnd core => Sys2Proof.Machine.execResetEnd core s
  | .kick vf word size v => Sys2Proof.Machine.execKick vf word size v s
  | .takeEntry q => Sys2Proof.Machine.execTakeEntry q s
  | .waitConditionPoll l => Sys2Proof.Machine.execWaitConditionPoll l s
  | .placement q0 scr tag => Sys2Proof.Machine.execPlacement q0 scr tag s
  | .regionStaging b => Sys2Proof.Machine.execRegionStaging b s
  | .gangStart b => Sys2Proof.Machine.execGangStart b s
  | .blockRetire b => Sys2Proof.Machine.execBlockRetire b s
  | .walkComplete u ctx vpn => Sys2Proof.Machine.execWalkComplete u ctx vpn s
  | .loadDataReturn req sector => Sys2Proof.Machine.execLoadDataReturn req sector s
  | .requestPerform req sector => Sys2Proof.Machine.execRequestPerform req sector s
  | .holdLimitExpiry id => Sys2Proof.Machine.execHoldLimitExpiry id s
  | .backoffExpiry id => Sys2Proof.Machine.execBackoffExpiry id s
  | .slotFreeReissue id => Sys2Proof.Machine.execSlotFreeReissue id s
  | .parkLimitExpiry gang => Sys2Proof.Machine.execParkLimitExpiry gang s
  | .blockReturn b => Sys2Proof.Machine.execBlockReturn b s
  | .fairnessTimer gang => Sys2Proof.Machine.execFairnessTimer gang s
  | .issueBoost gang => Sys2Proof.Machine.execIssueBoost gang s
  | .entryBoost gang => Sys2Proof.Machine.execEntryBoost gang s
  | .watchdog gang => Sys2Proof.Machine.execWatchdog gang s
  | .systemEffect gang => Sys2Proof.Machine.execSystemEffect gang s
  | .faultRecordWrite ring => Sys2Proof.Machine.execFaultRecordWrite ring s
  | .fheadWrite ring v => Sys2Proof.Machine.execFheadWrite ring v s
  | .fringWrite ring v => Sys2Proof.Machine.execFringWrite ring v s
  | .fserve ring v => Sys2Proof.Machine.execFserve ring v s
  | .ctxctlResume page ctx => Sys2Proof.Machine.execCtxctlResume page ctx s
  | .ctxctlSkip page ctx => Sys2Proof.Machine.execCtxctlSkip page ctx s
  | .ctxctlKill page ctx => Sys2Proof.Machine.execCtxctlKill page ctx s
  | .ctxctlStop page ctx => Sys2Proof.Machine.execCtxctlStop page ctx s
  | .ctxctlStart page ctx => Sys2Proof.Machine.execCtxctlStart page ctx s
  | .ctxctlCreate page ctx => Sys2Proof.Machine.execCtxctlCreate page ctx s
  | .lcancel page v => Sys2Proof.Machine.execLcancel page v s
  | .restore b => Sys2Proof.Machine.execRestore b s
  | .shadowSwap part => Sys2Proof.Machine.execShadowSwap part s
  | .flipComplete part => Sys2Proof.Machine.execFlipComplete part s
  | .spillComplete part => Sys2Proof.Machine.execSpillComplete part s
  | .fillComplete part => Sys2Proof.Machine.execFillComplete part s
  | .urgent part => Sys2Proof.Machine.execUrgent part s
  | .turnStart part => Sys2Proof.Machine.execTurnStart part s
  | .sliceEnd part => Sys2Proof.Machine.execSliceEnd part s
  | .drainLimitExpiry part => Sys2Proof.Machine.execDrainLimitExpiry part s
  | .roundEnd part => Sys2Proof.Machine.execRoundEnd part s
  | .quantExpiry part => Sys2Proof.Machine.execQuantExpiry part s
  | .vpartWrite vf v => Sys2Proof.Machine.execVpartWrite vf v s
  | .vpolWrite vf v => Sys2Proof.Machine.execVpolWrite vf v s
  | .floorWrite chan group v => Sys2Proof.Machine.execFloorWrite chan group v s
  | .registerWrite off size v => Sys2Proof.Machine.execRegisterWrite off size v s
  | .weirWindow chan => Sys2Proof.Machine.execWeirWindow chan s
  | .invctlGo v => Sys2Proof.Machine.execInvctlGo v s
  | .invalidationDone => Sys2Proof.Machine.execInvalidationDone s
  | .dtword => Sys2Proof.Machine.execDtword s
  | .enreq page v => Sys2Proof.Machine.execEnreq page v s
  | .enctx vf v => Sys2Proof.Machine.execEnctx vf v s
  | .energyRecord page => Sys2Proof.Machine.execEnergyRecord page s
  | .meterInterval e => Sys2Proof.Machine.execMeterInterval e s
  | .energyImport r => Sys2Proof.Machine.execEnergyImport r s
  | .powerLimit mhz => Sys2Proof.Machine.execPowerLimit mhz s
  | .recalibration chan => Sys2Proof.Machine.execRecalibration chan s
  | .peqdataClr v => Sys2Proof.Machine.execPeqdataClr v s
  | .patrolRead page => Sys2Proof.Machine.execPatrolRead page s
  | .scrubPeriod => Sys2Proof.Machine.execScrubPeriod s
  | .warmReset => Sys2Proof.Machine.execWarmReset s
  | .coldReset => Sys2Proof.Machine.execColdReset s
  | .readiness f good => Sys2Proof.Machine.execReadiness f good s
  | .functionLevelReset vf => Sys2Proof.Machine.execFunctionLevelReset vf s
  | .illegalInstruction => Sys2Proof.Machine.execIllegalInstruction s
  | .longLatencyComplete op lanes => Sys2Proof.Machine.execLongLatencyComplete op lanes s
  | .peerReachable dev => Sys2Proof.Machine.execPeerReachable dev s
  | .energyExport ctx => Sys2Proof.Machine.execEnergyExport ctx s
  | .spdmRequest r => Sys2Proof.Machine.execSpdmRequest r s
  | .fstatWrite page errReg v => Sys2Proof.Machine.execFstatWrite page errReg v s

end Sys2Proof.Machine
end

