-- ==== Sys2Proof/Machine/Arbiter.lean ====
section
/-! DEFINITION. The choice of the gang that issues (R158 to R162): what the scheduler sees of the splits of a quarter, the units,
and the gang of highest effective priority for each. -/

namespace Sys2Proof.Machine

/-- The unit that an instruction issues to (R159). The spec names the units and places the pair word; the rest is read from
their names (log 63). -/
def unitOf (i : Instr) : IssueUnit :=
  match i with
  | .frcp .. | .frsq .. | .fsqrt .. | .fexp2 .. | .flog2 .. | .fsin .. | .fcos .. | .fdiv .. => .special
  | .shfl .. | .vred .. | .vscan .. | .matchLanes .. | .ballot .. | .vote .. | .vlane .. => .cross
  | .ld .. | .st .. | .ldk .. | .stk .. | .atom .. | .atomk .. | .lr .. | .sc .. | .fence .. | .pref .. | .rld .. | .rst ..
  | .ratom .. | .rfence .. => .memory
  | .mres .. | .mrel .. | .mld .. | .mgath .. | .mma .. | .mbatch .. | .mwait .. | .aclr .. | .ard .. | .awr .. | .ast ..
  | .rcwin .. | .rcmode .. | .rcld .. | .rcgo .. | .rccap .. | .rcclr => .matrix
  | .nop | .exit .. | .bra .. | .brc .. | .brd .. | .brv .. | .call .. | .ret .. | .merge | .movk .. | .addk .. | .subk ..
  | .mulk .. | .mulhk .. | .andk .. | .ork .. | .xork .. | .shlk .. | .shrk .. | .sark .. | .mink .. | .maxk .. | .addkImm ..
  | .subkImm .. | .mulkImm .. | .mulhkImm .. | .andkImm .. | .orkImm .. | .xorkImm .. | .shlkImm .. | .shrkImm ..
  | .sarkImm .. | .minkImm .. | .maxkImm .. | .ktom .. | .mtok .. | .mand .. | .mor .. | .mxor .. | .mnot .. | .mpopc ..
  | .mfirst .. | .movx .. | .srd .. | .swr .. | .swrErrq .. | .swrTwin .. | .swrRcstat .. | .trap .. | .bar | .cjoin ..
  | .cleave .. | .cbar .. | .setpri .. | .yieldTurn | .waitc .. | .sleep .. | .hpush .. | .hpop | .perform .. | .resume ..
  | .fwd .. | .tkdrop .. | .tkstat .. | .twait .. | .tfirst .. | .tclr .. | .gset .. | .fstat .. => .uniform
  | _ => .vector

/-- Whether a gang's issue would go on (R158): its slot holds something, and an instruction in it does not stall. -/
def wouldIssue (s : State) (key : Nat) : Bool :=
  let s := { s with cur := some key }
  match slotOf1 s key, s.gang? key with
  | .run i, some g =>
    match exec i s with
    | .next t => t.gang? key != some (switchSplit g)
    | _ => false
  | .trap _ _ _, some _ => true
  | _, _ => false

/-- Whether a split of a gang could issue if the gang were in the active set and turned to it (R158, R162). -/
def splitCan (s : State) (key : Nat) (g : Gang) (i : Nat) : Bool :=
  let g := { g with cur := i, fair := 0, fairDefer := none, sched := { g.sched with
    stuck := [], active := true, issued := none, entered := none } }
  wouldIssue (s.setGang key g) key

/-- What the scheduler sees of a gang (R158, R162): the splits whose next instruction cannot issue; a gang whose current split
is one of them, or waits at a point of its own, turns to its next ready split. -/
def look (s : State) (key : Nat) : State :=
  s.modGang key fun g =>
    let bad := ((g.splitList).filter fun e => e.2.wait == .ready && !splitCan s key g e.1).map fun e => e.2.uid
    let g := { g with sched := { g.sched with stuck := bad } }
    match g.split? with
    | some sp => if sp.wait != .ready || bad.contains sp.uid then switchSplit g else g
    | none => g

/-- Whether a gang has its quarter to itself, with one split: there is nothing to choose. -/
def alone (s : State) (key : Nat) : Bool :=
  decide ((quarterGangs s key).length ≤ 1) && (match s.gang? key with | some g => decide (g.splitList.length ≤ 1) | none => true)

/-- The quarter of a gang arranged (R158, R162): what the scheduler sees of its gangs, and its active set kept full; in a new
cycle the waiting gangs make way. -/
def arrange (s : State) (fresh : Bool) (key : Nat) : State :=
  if alone s key then (match s.gang? key with
    | some g =>
      if g.sched.active then s
      else refill fresh 16 (s.setGang key { g with sched := { g.sched with stuck := [] } }) key
    | none => s)
  else refill fresh 16 ((quarterGangs s key).foldl (fun s e => look s e.1) s) key

/-- The quarter in which a gang of a resident block lies: its core, its bank and its number (R28). -/
def quarterId (s : State) (g : Gang) : Option (Nat × Nat × Nat) :=
  (s.block? g.block).bind fun b => if b.resident then some (b.core, b.bank, g.sched.quarter) else none

/-- One gang of every quarter that has any. -/
def quarterReps (s : State) : List Nat :=
  ((tentries s.gangs).foldl (fun (acc : List (Nat × Option (Nat × Nat × Nat))) e =>
    let q := quarterId s e.2
    if q.isNone || acc.any (fun x => x.2 == q) then acc else acc ++ [(e.1, q)]) []).map (·.1)

/-- Cycles of the reference clock pass (R3). In the first of them every quarter's active set follows what has come to wait in
the cycle before it, or is ready again (R158, R162); nothing happens in the others. -/
def passTime (s : State) (n : Nat) : State :=
  match n with
  | 0 => s
  | m + 1 =>
    let t := (quarterReps s).foldl (fun t k => arrange t true k) { s with cycle := s.cycle + 1 }
    { t with cycle := t.cycle + m }

/-- A gang's effective priority (R159, R160). -/
def Gang.effPri (g : Gang) : Nat := if g.sched.boost then 15 else g.regs.pri

/-- Whether a gang comes before another for a unit (R159, R160): higher effective priority, then the longer time without an
issue. -/
def issueBefore (a b : Gang) : Bool :=
  decide (b.effPri < a.effPri) || (a.effPri == b.effPri && decide (a.sched.lastIssue < b.sched.lastIssue))

/-- The unit that a gang's next instruction uses, if it has one. -/
def nextUnit (s : State) (key : Nat) : Option IssueUnit :=
  match slotOf1 s key with
  | .run i => if isEvent i then none else some (unitOf i)
  | _ => none

/-- Whether a gang may issue now to a unit (R159): fewer than 4 instructions have issued in its quarter in this cycle, none of
them to the unit, and no other active gang that is ready and has an instruction for the unit comes first. -/
def unitFree (s : State) (key : Nat) (g : Gang) (u : IssueUnit) : Bool :=
  let others := (quarterGangs s key).filter fun e => e.1 != key
  let done := others.filter fun e => e.2.sched.issued == some s.cycle
  decide (done.length < 4) && done.all (fun e => e.2.sched.unit != u) &&
    others.all fun e => !(e.2.sched.active && cycleOpen s e.2 && issueBefore e.2 g && nextUnit s e.1 == some u && wouldIssue s e.1)

/-- Whether a gang may issue now (R158, R159); what is no instruction of its own takes no unit. -/
def mayIssue (s : State) (key : Nat) : Bool :=
  match s.gang? key with
  | none => false
  | some g => cycleOpen s g && (match nextUnit s key with | some u => unitFree s key g u | none => true)

/-- The gang of a key is the one that issues (R158 to R162): its quarter is arranged, its instruction cache takes the sector at
its PC, and its instruction's unit is noted. -/
def issuer (s : State) (key : Nat) : State :=
  let s := { arrange s false key with cur := some key }
  let s := match s.gang? key with
    | some g => (match g.split?, s.block? g.block with | some sp, some b => fillIcache s b sp.pc | _, _ => s)
    | none => s
  match nextUnit s key with
  | some u => if mayIssue s key then s.modGang key fun g => { g with sched := { g.sched with unit := u } } else s
  | none => s

end Sys2Proof.Machine
end

