-- ==== Sys2Proof/Machine/Mmio.lean ====
section
/-! DEFINITION. Reads of the register pages that the host maps (R4, R5, R151, R152, R154, R210, R338, R340, R343, R347, R354,
R358, R383, R401, R404, R405, R407, R408): the value, and what the read itself does. Reserved and write-only fields read
zero. -/

namespace Sys2Proof.Machine

/-- A bit as a number. -/
def bit (b : Bool) : Nat := if b then 1 else 0

/-- WEIRERR (R358). -/
def readWeirerr (s : State) : Nat :=
  s.pf.errChan * 2 ^ 32 + s.pf.errVf % 64 * 2 ^ 16 + 4 * bit s.pf.errSched + 2 * bit s.pf.errAdmit + bit s.pf.errOwn

/-- INVCTL (R347): GO reads zero, and DONE is set while no invalidation runs. -/
def readInvctl (s : State) : Nat :=
  2 ^ 62 * bit s.pf.invRun.isNone + 2 ^ 61 * bit s.pf.invErr + 2 ^ 59 * s.pf.invStage + 2 ^ 32 * s.pf.invCtx + s.pf.invPages

/-- FRING or PFRING (R383). -/
def readFring (r : Ring) : Nat := r.base + r.size

/-- PEQDATA (R404): CLR reads zero. -/
def readPeqdata (s : State) : Nat :=
  let e := pageErr s s.mem.peqaddr
  2 ^ 48 * bit (spared s s.mem.peqaddr) + 2 ^ 40 * e.uncorr + 2 ^ 24 * e.corr

/-- A page that holds a fault ring's registers (R383): FSERVE, CTXCTL and LCANCEL are written only. -/
def readFaultPage (s : State) (page off : Nat) : Nat :=
  let r := s.ring page
  if off = 0x00 then r.head.toNat
  else if off = 0x08 then r.tail.toNat
  else if off = 0x10 then 2 ^ 63 * bit r.ovf + min r.pend.length 64
  else if off = 0x28 then 2 ^ 63 * bit r.err
  else 0

/-- A meter page (R354): ENREQ reads zero, ENSTAT counts the pending requests, and ENCTX reads as it was written (log 63). -/
def readMeterPage (s : State) (page off : Nat) : Nat :=
  if off = 0x08 then (s.vf page).enreq.length % 32
  else if off = 0x10 ∧ page ≠ pfPage then (s.vf page).enctx
  else 0

/-- A virtual function's block (R338). -/
def readVf (s : State) (vf r : Nat) : Nat :=
  let x := s.vf vf
  if r = 0x00 then x.vpart.toNat
  else if r = 0x08 then x.vpol
  else if r = 0x10 then 2 ^ 32 * x.burst + 2 ^ 16 * x.bankcap + x.slice
  else if r = 0x18 then readFring (s.ring vf)
  else if r = 0x20 then x.vsBase + x.vsCount
  else 0

/-- A partition's control block (R166, R340): URGENT reads zero. -/
def readPart (s : State) (p r : Nat) : Nat :=
  let x := s.part p
  if r = 0x00 then 2 ^ 48 * x.fabric + 2 ^ 32 * x.memc + 2 ^ 16 * x.die + x.core
  else if r = 0x08 then x.park
  else if r = 0x10 then 2 ^ 16 * bit x.shadow + x.pround
  else if r = 0x18 then x.drain
  else 0

/-- A queue's descriptor (R151). -/
def readQueue (s : State) (q r : Nat) : Nat :=
  let x := s.queue q
  if r = 0 then
    2 ^ 63 * bit x.en + 2 ^ 62 * bit x.halt + 2 ^ 56 * x.qpri + 2 ^ 52 * x.log2n + 2 ^ 32 * x.ctx + x.head.toNat
  else if r = 8 then x.qbase.toNat
  else 0

/-- Flags from a number on as a word, the first in its lowest bit. -/
def flagWord (f : Nat → Bool) (base n : Nat) : Nat := (List.range n).foldr (fun i a => 2 * a + bit (f (base + i))) 0

/-- A word of the readiness map or of the failure map (R407, Table 4). -/
def readMap (l : List FnId) (off : Nat) : Nat :=
  if off < 0x20 then flagWord (fun i => l.contains (.core i)) (8 * off) 64
  else if off < 0x60 then flagWord (fun i => l.contains (.chan i)) (8 * (off - 0x20)) 64
  else if off = 0x60 then flagWord (fun i => l.contains (.port i)) 0 14
  else if off = 0x68 then flagWord (fun i => l.contains (.engine i)) 0 40
  else 0

/-- FPLINK of a plane (R210). -/
def readFplink (s : State) (p : Nat) : Nat :=
  let x := linkOf s p
  2 ^ 16 * x.1 + 2 ^ 8 * x.2.1 + 2 ^ 4 * x.2.2.1 + x.2.2.2

/-- The single registers of BAR0 from 0x2000 on (R358), DTWORD apart. -/
def readSingle (s : State) (off : Nat) : Nat :=
  if off = 0x2000 then readFring (s.ring pfPage)
  else if off = 0x2008 then readWeirerr s
  else if off = 0x2010 then s.pf.invaddr
  else if off = 0x2018 then readInvctl s
  else if off = 0x2020 then s.pf.dtsel.toNat
  else if off = 0x2030 then s.pf.ctxtab
  else if off = 0x2038 then s.pf.wtbase
  else if off = 0x2040 then s.pf.ltbase
  else if off = 0x2048 then 2 ^ 32 * s.mem.period
  else if off = 0x2050 then 2 ^ 32 * s.mem.ckpt + s.mem.patrol
  else if off = 0x2058 then s.mem.peqaddr
  else if off = 0x2060 then readPeqdata s
  else 0

/-- An 8-byte register of BAR0 (R358, Table 8), DTWORD apart; an offset that the table does not name reads zero. -/
def readBar0 (s : State) (off : Nat) : Nat :=
  if off < 0x1000 then readFaultPage s pfPage off
  else if off < 0x2000 then readMeterPage s pfPage (off - 0x1000)
  else if off < 0x3000 then readSingle s off
  else if off < 0x3080 then readMap s.pf.ready (off - 0x3000)
  else if off < 0x3100 then readMap s.pf.failed (off - 0x3080)
  else if 0x4000 ≤ off ∧ off < 0x4020 then readFplink s ((off - 0x4000) / 8)
  else if 0x8000 ≤ off ∧ off < 0x9000 then readVf s ((off - 0x8000) / 64) (off % 64)
  else if 0x9000 ≤ off ∧ off < 0x9800 then readPart s ((off - 0x9000) / 256) (off % 256)
  else if 0xA000 ≤ off ∧ off < 0xE000 then readQueue s ((off - 0xA000) / 16) (off % 16)
  else if 0x10000 ≤ off ∧ off < 0x20000 then
    (List.range 4).foldr (fun i a =>
      2 ^ 16 * a + tget 0 s.pf.floors ((off - 0x10000) / 128 * 64 + 4 * (off % 128 / 8) + i)) 0
  else if 0x20000 ≤ off ∧ off < 0x21000 then
    2 ^ 32 * tget 0 s.mem.calcnt ((off - 0x20000) / 8) + calInterval s ((off - 0x20000) / 8)
  else if 0x21000 ≤ off ∧ off < 0x21080 then flagWord (fun q => (s.queue q).pending) (8 * (off - 0x21000)) 64
  else 0

/-- A word of a kick page (R152): HEAD and TAIL of the queue it belongs to; zero for a word of no queue. -/
def readKick (s : State) (vf word : Nat) : Nat :=
  match (vfQueues s vf)[word]? with
  | some n => 2 ^ 32 * (s.queue n).head.toNat + (s.queue n).tail.toNat
  | none => 0

/-- The value that the host's read of a page returns (R358): zero where it is not 8 bytes at an aligned offset (log 63). -/
def mmioValue (s : State) (page : MmioPage) (off size : Nat) : DWord :=
  if size ≠ 8 ∨ off % 8 ≠ 0 then 0
  else match page with
    | .bar0 => if off = 0x2028 then s.pf.dtword else dw (readBar0 s off)
    | .kick vf => dw (readKick s vf (off / 8))
    | .fault vf => if isVf vf then dw (readFaultPage s vf off) else 0
    | .meter vf => if isVf vf then dw (readMeterPage s vf off) else 0
    | .vf n =>
      if !isVf n then 0
      else if off < 0x2000 then dw (readKick s n (off / 8))
      else if off < 0x3000 then dw (readMeterPage s n (off - 0x2000))
      else dw (readFaultPage s n (off - 0x3000))

/-- The host reads a register page (R4, R152, R358, R408): a read of DTWORD takes the selected word and clears it (R349), once its
home takes the access (R401, R406), and no other read changes anything. -/
def mmioRead (s : State) (page : MmioPage) (off size : Nat) : State :=
  let word : Bool := page == .bar0 && off == 0x2028 && size == 8
  if word && !dtOpen s then s
  else
    let s := if word then after s (execDtword s) else s
    { s with mmioOut := s.mmioOut ++ [mmioValue s page off size] }

/-- The host writes a register in the 16 KiB of a virtual function's BAR0 (R408): the kick page, the meter page, and the fault page
with 8-byte writes at aligned offsets. -/
def writeVfBar0 (s : State) (vf off size : Nat) (v : DWord) : State :=
  if !isVf vf || off % 8 != 0 then s
  else if off < 0x2000 then after s (execKick vf (off / 8) size v s)
  else if size ≠ 8 then s
  else if off = 0x2000 then after s (execEnreq vf v s)
  else if off = 0x2010 then after s (execEnctx vf v s)
  else if 0x3000 ≤ off then writeFaultPage s vf (off - 0x3000) v
  else s

end Sys2Proof.Machine
end

