-- ==== Sys2Proof/Machine/Outside.lean ====
section
/-! DEFINITION. What the surroundings do between the steps of the device: a line leaves an L1 (R81, R105), symbols of a sector
go wrong (R402), and the host reads and writes memory through its port (R125, R127). -/

namespace Sys2Proof.Machine

/-- A line of device memory leaves the L1 of a core (R81): what is changed of it is written back, and the reservations that
splits of that core hold on it at GANG or CORE scope are cleared (R105). -/
def lineLeaves (s : State) (core line : Nat) : State :=
  let s := match s.l1? core line with
    | some x => (if x.dirty = 0 then s else writeBackL1 s line x).setL1 core line none
    | none => s
  clearCoreLine s core line

/-- Whether an L1 holds a sector changed. -/
def changedL1 (s : State) (sec : Nat) : Bool :=
  s.core.l1.any fun e => e.1 % 35184372088832 == sec / 4 && (match e.2 with | some x => x.dirty.testBit (sec % 4) | none => false)

/-- A line leaves its die store (R15, R80): memory takes what no L1 holds changed, and the store holds nothing of it. -/
def writeBackLine (s : State) (line : Nat) : State :=
  let kept (sec : Nat) : Bool := sec / 4 != line || changedL1 s sec
  { s with mem := { s.mem with
    stale := s.mem.stale.filter fun e => kept (e.1 / 32),
    oldPoison := s.mem.oldPoison.filter kept,
    store := tput 0 s.mem.store line 0 } }

/-- Whether a gang may read a sector ahead of a load (R97, R127, R130, R134): no acquire, fence or atomic of it is open, and no
request of it that has not performed touches the sector. -/
def mayAhead (s : State) (key sector : Nat) : Bool :=
  gangRuns s key && sector % 2 == 0 && placeOpen s (keyVf s key) ⟨false, 16 * sector, 0, 0⟩ 1 && !s.poisoned (sector / 2) &&
    (match s.gang? key with
      | some g => g.splitList.all (fun e => depsDone s e.2.ldDeps) && g.deferred.all fun sp => depsDone s sp.ldDeps
      | none => false) &&
    !(tentries s.reqs).any fun e => e.2.gang == key && !e.2.allPerformed &&
      ((match e.2.kind with | .atom _ _ _ => true | .sc => true | _ => false) || (sectorsOf e.2).contains sector)

/-- A sector that a gang reads early at its home (R130, R202): a load at CLUSTER scope or wider that finds it performed then. -/
def loadAhead (s : State) (key sector : Nat) : State :=
  if mayAhead s key sector then
    let s := arrivalServed s (keyVf s key) (16 * sector) 1
    let s := chargeSlots (sectorRead s (sector / 2)).1 (keyCtx s key) (keyCore s key) (16 * sector) 1
    { s with ahead := s.ahead.filter (fun x => !(x.gang == key && x.sector == sector)) ++
        [{ gang := key, sector := sector, bytes := (List.range 32).map fun i => s.byte (16 * sector + i) }] }
  else s

/-- The engine queue of a cluster fills up with other work, or has room again (R118). -/
def setFull (s : State) (cluster : Nat) (full : Bool) : State :=
  let rest := s.core.engFull.filter (· != cluster)
  { s with core := { s.core with engFull := if full then cluster :: rest else rest } }

/-- The management controller gives the device its physical ID, of 10 bits (R204). -/
def setDevice (s : State) (n : Nat) : State := if n < 1024 then { s with fab := { s.fab with self := some n } } else s

/-- The engine's accesses for a gang wait at their queue from now on, or act as they issue (R283). -/
def setDefer (s : State) (key : Nat) (on : Bool) : State := s.modGang key fun g => { g with sched := { g.sched with defer := on } }

/-- Symbols of a sector go wrong, which its next read corrects or finds uncorrectable (R402). -/
def symbolsFail (s : State) (sec n : Nat) : State :=
  if backed (32 * sec) 32 then { s with mem := { s.mem with errors := tput 0 s.mem.errors sec (tget 0 s.mem.errors sec + n) } } else s

/-- Whether the host's port is ready, and the home of a sector takes an access from it now (R172, R401, R407). -/
def hostOpen (s : State) (sec : Nat) : Bool := s.pf.ready.contains (.port 10) && placeOpen s none ⟨false, 32 * sec, 0, 0⟩ 1

/-- The part of a host write that lies in one sector (R402). -/
def hostSector (s : State) (a : Nat) (bs : List Byte) (sec : Nat) : State :=
  if hostOpen s sec then writeSector (chargeUser s 512 (32 * sec) 1) a bs sec else s

/-- The host writes bytes at a physical address (log 55). -/
def hostWrite (s : State) (a : Nat) (bs : List Byte) : State :=
  if bs.isEmpty || !backed a bs.length then s
  else (runSectors a bs.length).foldl (fun s sec => hostSector s a bs sec) s

/-- The host reads bytes at a physical address (log 55): what the reads of R402 change is all that the device keeps of it. -/
def hostRead (s : State) (a n : Nat) : State :=
  if n = 0 || !backed a n then s
  else (runSectors a n).foldl (fun s sec =>
    if hostOpen s sec then
      storeSector (chargeUser (recallOwned (sectorRead s sec).1 (sec / 4)) 512 (32 * sec) 1) sec
    else s) s

end Sys2Proof.Machine
end

