-- ==== Sys2Proof/Machine/Step.lean ====
section
/-! DEFINITION. One step of the device: the next turn of the agenda (log 2), or what an empty agenda stands for. -/

namespace Sys2Proof.Machine

/-- A turn taken. An event that is not one of the device's changes nothing but the agenda, and an issue by a gang that has
nothing to issue, or that may not issue now, nothing but what the scheduler sees. -/
def turnStep (s : State) (t : Turn) : Out :=
  match t with
  | .elapse n => .next (passTime s n)
  | .leave core line => .next (lineLeaves s core line)
  | .upset sec n => .next (symbolsFail s sec n)
  | .hostWrite a bs => .next (hostWrite s a bs)
  | .hostRead a n => .next (hostRead s a n)
  | .writeBack line => .next (writeBackLine s line)
  | .mmioRead page off size => .next (mmioRead s page off size)
  | .vfWrite vf off size v => .next (writeVfBar0 s vf off size v)
  | .advance req sec => .next (if (s.req? req).isSome then advanceSector s req sec else advanceWay s req sec)
  | .loadAhead key sec => .next (loadAhead s key sec)
  | .copyWords cmd box words => .next (copyWords s cmd box words)
  | .readWords cmd box words => .next (readWords s cmd box words)
  | .fetchWords entry words => .next (fetchWords s entry words)
  | .deliverWords delivery words => .next (deliverWords s delivery words)
  | .performLanes req n => .next (performLanes s req n)
  | .engineFull cluster full => .next (setFull s cluster full)
  | .deferEngine key on => .next (setDefer s key on)
  | .firmware i image rsa slh => .next (offerFirmware s i image rsa slh)
  | .deviceId n => .next (setDevice s n)
  | .linkState plane st => .next (setLink s plane st)
  | .remoteHeld i => .next (holdRemote s i)
  | .importArea base sv => .next (importArea s base sv)
  | .event i => if isEvent i then exec i s else .next s
  | .issue key =>
    let s := issuer s key
    if mayIssue s key then
      match slotOf1 s key with
      | .run i => exec i s
      | .trap cause sub addrs => fetchTrap s cause sub addrs
      | x => .next (holdFetch s key x)
    else .next s

/-- One step of the machine. -/
def step (s : State) : Out := turnStep (nextTurnOf s).2 (nextTurnOf s).1

/-- A state whose next step fetches and runs the instruction with the given word: the word, and the zeros above it up to
16 bytes, lie at the PC of a gang of its own (log 16). -/
def State.withFetchWord (s : State) (nbits w : Nat) : State := placeWord s 16 (w % 2 ^ nbits)

end Sys2Proof.Machine
end

