-- ==== Sys2Proof/Safety.lean ====
section
/-! DEFINITION. What a safe run is, and the terms in which the statements speak: the canonical form of the stores,
when a gang may issue an instruction, and what an instruction leaves as it was. -/

namespace Sys2Proof.Machine

/-- The canonical form of device memory: addresses strictly rising, none listed with what an unlisted one reads as. -/
def Memory.wf (m : Tab Byte) : Bool := twf unwritten m

/-- The stores of bytes, and the floors, are in their canonical form. -/
structure Canon (s : State) : Prop where
  memory : Memory.wf s.mem.bytes = true
  scratch : twf 0 s.core.scratch = true
  floors : twf 0 s.pf.floors = true

/-- A gang's key names its block (the model's own numbering): of the gangs that are there, and of those that a save area
holds; and a launch's blocks have at most 1024 lanes (R25), so that 16 numbers a block suffice. -/
structure Keyed (s : State) : Prop where
  gangs : ∀ e ∈ tentries s.gangs, e.1 / 16 = e.2.block
  lanes : ∀ e ∈ tentries s.launches, ∀ r, e.2.body = some r → (r.bx + 1) * (r.bky + 1) * (r.bz + 1) ≤ 1024
  savedGangs : ∀ a ∈ tentries s.areas, ∀ e ∈ a.2.gangs, e.1 / 16 = e.2.block
  savedLanes : ∀ a ∈ tentries s.areas, ∀ e ∈ a.2.launches, ∀ r, e.2.body = some r →
    (r.bx + 1) * (r.bky + 1) * (r.bz + 1) ≤ 1024
  importGangs : ∀ a ∈ s.imports, ∀ e ∈ a.2.gangs, e.1 / 16 = e.2.block
  importLanes : ∀ a ∈ s.imports, ∀ e ∈ a.2.launches, ∀ r, e.2.body = some r →
    (r.bx + 1) * (r.bky + 1) * (r.bz + 1) ≤ 1024

/-- The gang of a key issues for its current split (R34, R65, R162): its block runs on the foreground bank, and
neither a trap, a translation hold, a park nor a wait holds the gang or the split back. -/
structure Issues (s : State) (key : Nat) (g : Gang) (sp : Split) (b : Block) : Prop where
  cur : s.cur = some key
  gang : s.gang? key = some g
  home : key / 16 = g.block
  split : g.split? = some sp
  block : s.block? g.block = some b
  running : b.phase = .running
  fore : foreground s b = true
  hold : g.hold = .none
  going : g.stopped = none
  ready : sp.wait = .ready

/-- Nothing in what an instruction names and needs stops it (R38, R55, R57 to R59, R65, R89, R122, R126, R135,
R170, R282, R314). -/
structure Clear (s : State) (key : Nat) (b : Block) (g : Gang) (sp : Split) (u : Use) : Prop where
  vregs : ∀ r ∈ u.v, r < b.need.vregs
  kregs : ∀ r ∈ u.k, r < b.need.kregs
  race : u.race = true → b.need.race = true
  guard : u.guard ≤ b.need.guards
  scope : ∀ x, u.scope = some x → scopeCode x ≤ policy s b
  lcnt : u.count = 1 → g.regs.lcnt < 63
  scnt : u.count = 2 → g.regs.scnt < 63
  replay : u.throttled = true → replayCount s key < 16
  reads : u.reads = true → coreReadReady s key sp = true
  queue : u.arr = true → (s.array b.core).queue.length < 16 ∧ arrLate s b g = false
  array : u.arrIdle = true → arrTurn (s.array b.core) key sp = true ∧
    ((s.array b.core).queue = [] → arrLate s b g = false)
  coll : u.coll = true → collective g sp = true ∧ engPending s key = [] ∧ depsDone s sp.ldDeps = true
  windows : ∀ w ∈ sp.windows, w.done = false → 0 < w.left ∧ u.close = false ∧ u.drain = false
  long : u.long = true → (sp.windows.filter fun w => !w.done).length < 8

/-- The state with the sectors that a gang has read early forgotten (R97, R107, R127, R133). -/
def forgetAhead (s : State) (key : Nat) : State := { s with ahead := s.ahead.filter fun x => x.gang != key }

/-- No split of a gang waits at a TWAIT (R119). -/
def NoTwait (g : Gang) : Prop := ∀ e ∈ g.splitList, ∀ all m asked d, e.2.wait ≠ .atTags all m asked d

/-- A gang's step leaves everything outside the gang as it was: every byte of memory and of the scratchpads, every
other gang, every block, and every context but for its count of reads in windows (R60). -/
structure Quiet (s t : State) (key : Nat) : Prop where
  memory : ∀ a, t.byte a = s.byte a
  scratch : ∀ a, t.sbyte a = s.sbyte a
  gangs : ∀ k, k ≠ key → t.gang? k = s.gang? k
  ctxs : ∀ c, t.ctx? c = none ↔ s.ctx? c = none
  ctx : ∀ c x, s.ctx? c = some x → ∃ n, t.ctx? c = some { x with wrdcnt := n }
  rest : ∃ x y, t = { s with gangs := x, ctxs := y }

/-- The registers that an instruction is not listed to write keep their values; so do the guards, FCR, PRI, WDLIM, LCNT
and SCNT (R37, R38). FSR is not spoken of. -/
structure RegsKeep (r q : Regs) (vd kd md : List Nat) : Prop where
  v : ∀ i, i ∉ vd → q.vget i = r.vget i
  k : ∀ i, i ∉ kd → q.kget i = r.kget i
  m : ∀ i, i ∉ md → q.mget i = r.mget i
  rest : ∃ v k m x, q = { r with v := v, k := k, m := m, fsr := x }

/-- The gang `g` becomes `g'` and its current split `sp` becomes `sp'`: of its registers nothing is said; its other splits
and all else that it holds stay; only its scheduling counts move. -/
structure GangFrame (s t : State) (key : Nat) (g g' : Gang) (sp' : Split) : Prop where
  gang : t.gang? key = some g'
  split : g'.split? = some sp'
  quiet : Quiet s t key
  others : ∀ i, i ≠ g.cur → tget none g'.splits i = tget none g.splits i
  rest : ∃ r l n f i, g' = { g with regs := r, splits := l, fair := n, fairDefer := f, sched := i }

/-- As `GangFrame`, and the registers keep their values but for the listed ones and FSR. -/
structure GangStep (s t : State) (key : Nat) (g g' : Gang) (sp' : Split) (vd kd md : List Nat) : Prop
    extends GangFrame s t key g g' sp' where
  regs : RegsKeep g.regs g'.regs vd kd md

/-- The split goes on at `pc` with all else as it was; its lookahead windows move on by one instruction. -/
def Goes (sp sp' : Split) (pc : DWord) : Prop := ∃ w, sp' = { sp with pc := pc, windows := w }

/-- The instruction `i`, which names and needs what `u` says, completes wherever the gang issues and nothing stops it;
it writes only the listed registers, and the gang and its split after it are as `post` says. -/
def Steps (i : Instr) (u : Use) (vd kd md : List Nat)
    (post : State → Block → Gang → Split → Gang → Split → Prop) : Prop :=
  ∀ s key g sp b, Issues s key g sp b → Clear s key b g sp u →
    ∃ t g' sp', exec i s = .next t ∧ GangStep s t key g g' sp' vd kd md ∧ post s b g sp g' sp'

/-- The instruction `i` of `size` bytes completes, moves the PC past itself, leaves FSR as it is, and what the registers
hold after it, against the gang and the split before it, is as `post` says. -/
def Completes (i : Instr) (size : Nat) (u : Use) (vd kd md : List Nat)
    (post : State → Block → Gang → Split → Regs → Prop) : Prop :=
  Steps i u vd kd md fun s b g sp g' sp' =>
    Goes sp sp' (sp.pc + dw size) ∧ g'.regs.fsr = g.regs.fsr ∧ post s b g sp g'.regs

/-- A split after a taken branch (R164, R165): at the target; a branch to an address no greater than its own adds one to
the watchdog's count, and at WDLIM the count returns to zero and WATCHDOG (ID 2) is pending for the lanes of EXM. -/
structure Branched (g : Gang) (sp sp' : Split) (target : DWord) : Prop where
  free : g.regs.wdlim = 0 ∨ sp.pc.toNat < target.toNat → Goes sp sp' target
  counted : g.regs.wdlim ≠ 0 → target.toNat ≤ sp.pc.toNat → sp.wd + 1 < g.regs.wdlim →
    Goes { sp with wd := sp.wd + 1 } sp' target
  limit : g.regs.wdlim ≠ 0 → target.toNat ≤ sp.pc.toNat → g.regs.wdlim ≤ sp.wd + 1 →
    Goes { sp with wd := 0 } { sp' with eff := sp.eff } target ∧
      ∃ e ∈ sp'.eff, e.id = 2 ∧ ∀ l < 64, inLanes sp.exm l = true → inLanes e.lanes l = true

/-- The record `r` has been posted to a ring (R383, R396): it stands behind every record that waits there but those of this
device STAMP with higher source numbers, whose first SEQ it takes, or else the ring's next; those each take the next SEQ. -/
def Posted (s t : State) (ring : Nat) (r : FRec) : Prop :=
  ∃ l m, (s.ring ring).pend = l ++ m ∧ (∀ e ∈ m, e.dev = s.stamp ∧ r.src < e.src) ∧
    (∀ e, l.getLast? = some e → ¬(e.dev = s.stamp ∧ r.src < e.src)) ∧
    (t.ring ring).pend = l ++ r :: m.map (fun e => { e with seq := nextSeq e.seq }) ∧ r.dev = s.stamp ∧
    r.seq = (match m with | [] => (s.ring ring).seq | e :: _ => e.seq) ∧ (t.ring ring).seq = nextSeq (s.ring ring).seq

/-- A gang has taken a trap (R379, R380): it has stopped with its PC at `pc`, its registers as they were; its block is
swapped out, its context TRAPPED with NTRAP raised, and the record is posted to the virtual function's ring. Memory is as it was but for what running boxes of its block still write (R387). -/
structure Trapped (s t : State) (key : Nat) (g : Gang) (b : Block) (pc : DWord) (cause sub : Nat) (aux : DWord)
    (lanes : Lanes) (skip : Option Nat) : Prop where
  gang : ∃ g' sp', t.gang? key = some g' ∧ g'.split? = some sp' ∧ sp'.pc = pc ∧ sp'.resv = none ∧ g'.regs = g.regs ∧
    g'.live = g.live ∧ g'.stopped = some ⟨cause, sub, skip⟩
  block : ∃ b', t.block? g.block = some b' ∧ b'.phase = .swapped true false
  ctx : ∀ c, s.ctx? b.ctx = some c → ∃ c', t.ctx? b.ctx = some c' ∧ c'.state = .trapped ∧ c'.ntrap = c.ntrap + 1
  record : ∃ r, Posted s t (ringOf s b.ctx) r ∧ r.cls = 0 ∧ r.cause = cause ∧ r.sub = sub ∧ r.aux = aux ∧ r.lanes = lanes ∧ r.pc = pc ∧ r.ctx = b.ctx ∧
    r.block = b.index ∧ r.gang = corenum s b * 16 + g.idx
  memory : (∀ e ∈ tentries s.cmds, e.2.gang / 16 = g.block → e.2.running = []) → ∀ a, t.byte a = s.byte a

/-- The instruction writes uniform register `d`: what it holds after, against the registers before, is as `post` says;
k0 stays zero (R37). -/
def GivesK (i : Instr) (size : Nat) (u : Use) (d : Nat) (post : State → Block → Gang → Split → DWord → Prop) : Prop :=
  Completes i size u [] [d] [] fun s b g sp q => q.kget 0 = 0 ∧ (d ≠ 0 → post s b g sp (q.kget d))

/-- The instruction writes mask register `d`; m0 stays all ones (R37). -/
def GivesM (i : Instr) (size : Nat) (u : Use) (d : Nat) (post : Gang → Split → Lanes → Prop) : Prop :=
  Completes i size u [] [] [d] fun _ _ g sp q => q.mget 0 = BitVec.allOnes 64 ∧ (d ≠ 0 → post g sp (q.mget d))

/-- A uniform operation of two registers (R186): `op x y r` says that `r` is its result on `x` and `y`. -/
def UniformOf2 (i : Instr) (d a b : Nat) (op : DWord → DWord → DWord → Prop) : Prop :=
  GivesK i 8 { k := [d, a, b] } d fun _ _ g _ r => op (g.kget a) (g.kget b) r

/-- A uniform operation of a register and an immediate, which is extended with its sign (R186). -/
def UniformOfImm (i : Instr) (d a : Nat) (imm : BitVec 32) (op : DWord → DWord → DWord → Prop) : Prop :=
  GivesK i 12 { k := [d, a] } d fun _ _ g _ r => op (g.kget a) (BitVec.ofInt 64 imm.toInt) r

-- The operations of R186 on numbers.

def uSum (x y r : DWord) : Prop := r.toNat = (x.toNat + y.toNat) % 2 ^ 64
def uDiff (x y r : DWord) : Prop := (r.toNat : Int) = ((x.toNat : Int) - y.toNat) % 2 ^ 64
def uProd (x y r : DWord) : Prop := r.toNat = x.toNat * y.toNat % 2 ^ 64
def uHigh (sgn : Bool) (x y r : DWord) : Prop :=
  if sgn then r.toInt = x.toInt * y.toInt / 2 ^ 64 else r.toNat = x.toNat * y.toNat / 2 ^ 64
def uAnd (x y r : DWord) : Prop := ∀ i < 64, r.getLsbD i = (x.getLsbD i && y.getLsbD i)
def uOr (x y r : DWord) : Prop := ∀ i < 64, r.getLsbD i = (x.getLsbD i || y.getLsbD i)
def uXor (x y r : DWord) : Prop := ∀ i < 64, r.getLsbD i = (x.getLsbD i ^^ y.getLsbD i)
def uShl (x y r : DWord) : Prop := r.toNat = x.toNat * 2 ^ (y.toNat % 64) % 2 ^ 64
def uShr (x y r : DWord) : Prop := r.toNat = x.toNat / 2 ^ (y.toNat % 64)
def uSar (x y r : DWord) : Prop := r.toInt = x.toInt / 2 ^ (y.toNat % 64)
def uMin (sgn : Bool) (x y r : DWord) : Prop :=
  if sgn then r.toInt = min x.toInt y.toInt else r.toNat = min x.toNat y.toNat
def uMax (sgn : Bool) (x y r : DWord) : Prop :=
  if sgn then r.toInt = max x.toInt y.toInt else r.toNat = max x.toNat y.toNat

-- Lane instructions.

/-- The registers a vector destination takes: one, or a pair (R52). -/
def dests (t : Ty) (d : Nat) : List Nat := if t.wide then [d, d + 1] else [d]

/-- What an instruction's flags do (R239, R241, R243): `sets l i` says that lane `l` sets flag `i`. They are ORed into FSR
over the active lanes, and FPX (ID 1) is pending for the lanes that set an enabled one. -/
structure FlagsMerge (g g' : Gang) (sp sp' : Split) (act : Lanes) (sets : Nat → Nat → Prop) : Prop where
  fsr : ∀ i < 64, g'.regs.fsr.getLsbD i = true ↔
    g.regs.fsr.getLsbD i = true ∨ (i < 7 ∧ ∃ l < 64, inLanes act l = true ∧ sets l i)
  fpx : ∀ l < 64, inLanes act l = true → (∃ i < 7, sets l i ∧ g.regs.fcr.getLsbD (8 + i) = true) →
    ∃ e ∈ sp'.eff, e.id = 1 ∧ inLanes e.lanes l = true
  none : (∀ l < 64, inLanes act l = true → ∀ i < 7, sets l i → g.regs.fcr.getLsbD (8 + i) = false) → sp'.eff = sp.eff

/-- A lane instruction that is not long-latency and sets flags: in each active lane the destination is as `post` says, the
others keep it. -/
def LaneOpFlags (i : Instr) (size : Nat) (u : Use) (p : Pred) (t : Ty) (d : Nat) (post : Gang → Nat → Nat → Prop)
    (sets : Gang → Nat → Nat → Prop) : Prop :=
  Steps i u (dests t d) [] [] fun _ _ g sp g' sp' =>
    (∃ e, Goes { sp with eff := e } sp' (sp.pc + dw size)) ∧
    FlagsMerge g g' sp sp' (activeLanes g sp p) (sets g) ∧
    ∀ l < 64, if inLanes (activeLanes g sp p) l then post g l (g'.regs.lane t d l)
      else g'.regs.lane t d l = g.regs.lane t d l

/-- A lane instruction that is not long-latency and sets no flag. -/
def LaneOp (i : Instr) (size : Nat) (u : Use) (p : Pred) (t : Ty) (d : Nat) (post : Gang → Nat → Nat → Prop) : Prop :=
  Steps i u (dests t d) [] [] fun _ _ g sp g' sp' =>
    Goes sp sp' (sp.pc + dw size) ∧ g'.regs.fsr = g.regs.fsr ∧
    ∀ l < 64, if inLanes (activeLanes g sp p) l then post g l (g'.regs.lane t d l)
      else g'.regs.lane t d l = g.regs.lane t d l

/-- Each element of the result is related to the same elements of the sources (R51, R246). -/
def Elements (t : Ty) (rel : Nat → Nat → Prop) (r : Nat) : Prop := ∀ i < t.shape.2, rel i (elt t.shape.1 r i)

/-- The least and the greatest integer of an integer type (R228). -/
def tyMin (t : Ty) : Int := if tySigned t then -2 ^ (t.shape.1 - 1) else 0
def tyMax (t : Ty) : Int := if tySigned t then 2 ^ (t.shape.1 - 1) - 1 else 2 ^ t.shape.1 - 1

/-- An exact result written to its element (R250): modulo 2^N, or clamped under SAT. -/
def IntWritten (t : Ty) (sat : Bool) (exact : Int) (r : Nat) : Prop :=
  if sat then intOf t r = max (tyMin t) (min (tyMax t) exact) else (r : Int) = exact % 2 ^ t.shape.1

/-- A lane sets SAT (bit 5 of FSR) when an exact result lies outside the range (R250). -/
def SatSets (t : Ty) (sat : Bool) (exact : Nat → Int) (i : Nat) : Prop :=
  sat = true ∧ i = 5 ∧ ∃ e < t.shape.2, exact e < tyMin t ∨ tyMax t < exact e

/-- The operand that IMM32 stands for in a type (R258). -/
def immLane (t : Ty) (imm : BitVec 32) : Nat := if t = .s64 then (BitVec.ofInt 64 imm.toInt).toNat else imm.toNat

/-- Element `i` of a lane of a register as an integer (R51, R228). -/
def intAt (g : Gang) (t : Ty) (r l i : Nat) : Int := intOf t (elt t.shape.1 (g.regs.lane t r l) i)

/-- An element of a lane of a register. -/
def eltAt (g : Gang) (t : Ty) (r l i : Nat) : Nat := elt t.shape.1 (g.regs.lane t r l) i

-- Floating point.

/-- A value as a rational; NaNs and infinities have none. -/
def FV.toRat : FV → Option ℚ
  | .fin neg n d => some ((if neg then -1 else 1) * (n : ℚ) / d)
  | _ => none

/-- A floating-point lane instruction (R246, R248): each element of the result is the code, and each lane's flags the union
of the flags, that `f` gives for the elements of the sources. -/
def FloatOp (i : Instr) (size : Nat) (u : Use) (p : Pred) (t : Ty) (d : Nat) (f : Gang → Nat → Nat → Nat × Nat) : Prop :=
  LaneOpFlags i size u p t d (fun g l => Elements t fun e r => r = (f g l e).1 % 2 ^ t.shape.1)
    fun g l b => ∃ e < t.shape.2, (f g l e).2.testBit b = true

/-- A long-latency instruction with a vector result (R57, R241): at issue nothing is written; the PC moves on, and unless no
lane is active a long operation holds each active lane's value and its flags, and the split's new window, of `la` further
instructions, names the destination until it is complete. -/
def StartsLong (i : Instr) (size : Nat) (u : Use) (p : Pred) (ty : Ty) (d la : Nat) (f : Gang → Nat → Nat × Nat) : Prop :=
  ∀ s key g sp b, Issues s key g sp b → Clear s key b g sp { u with long := true } →
    ∃ t g' sp', exec i s = .next t ∧ t.gang? key = some g' ∧ g'.split? = some sp' ∧ g'.regs = g.regs ∧
      sp'.pc = sp.pc + dw size ∧ sp'.exm = sp.exm ∧ sp'.lanes = sp.lanes ∧ sp'.wait = .ready ∧
      (∀ a, t.byte a = s.byte a) ∧ (∀ a, t.sbyte a = s.sbyte a) ∧
      (activeLanes g sp p = 0 → t.longs = s.longs) ∧
      (activeLanes g sp p ≠ 0 → ∃ x, t.long? s.uid = some x ∧ x.gang = key ∧ x.split = sp.uid ∧ x.ks = [] ∧
        x.vs = (laneList (activeLanes g sp p)).flatMap (fun l =>
          if ty.wide then [(d, l, BitVec.ofNat 32 (f g l).1), (d + 1, l, BitVec.ofNat 32 ((f g l).1 / 2 ^ 32))]
          else [(d, l, BitVec.ofNat 32 (f g l).1)]) ∧
        x.flags = (laneList (activeLanes g sp p)).map (fun l => (l, (f g l).2)) ∧
        ∃ w ∈ sp'.windows, w.op = s.uid ∧ w.left = la ∧ w.done = false ∧ w.dv = dests ty d ∧ w.dk = [])

/-- An instruction of the matrix stream has issued: the PC is past it, only the uniform registers listed may differ, no flag
is set (R300), and no byte of memory or of a scratchpad has changed. Of the gang's matrix side nothing is said. -/
def MatMoves (s t : State) (key : Nat) (g g' : Gang) (sp : Split) (size : Nat) (kd : List Nat) : Prop :=
  t.gang? key = some g' ∧ (∃ sp', g'.split? = some sp' ∧ Goes sp sp' (sp.pc + dw size)) ∧
    RegsKeep g.regs g'.regs [] kd [] ∧ g'.regs.fsr = g.regs.fsr ∧ (∀ a, t.byte a = s.byte a) ∧ (∀ a, t.sbyte a = s.sbyte a) ∧
    ∀ k, k ≠ key → t.gang? k = s.gang? k

/-- An instruction of the Millrace (R314): it joins the queue of its core's array behind a running evaluation or reset, and where
its block owns the array and nothing is before it, it takes its effect at once. -/
def JoinsArray (i : Instr) (size : Nat) (u : Use) (ok : State → Block → Gang → Prop) (op : State → Block → Gang → ArrOp)
    (eff : State → Block → Gang → Array → Array) : Prop :=
  ∀ s key g sp b, Issues s key g sp b → Clear s key b g sp u → ok s b g →
    let a := s.array b.core
    let p := some (s.cycle, g.sched.quarter)
    let moved := fun (t : State) => (∃ g' sp', t.gang? key = some g' ∧ g'.split? = some sp' ∧ g'.regs = g.regs ∧
      sp'.pc = sp.pc + dw size ∧ sp'.exm = sp.exm ∧ sp'.lanes = sp.lanes) ∧ (∀ x, t.byte x = s.byte x) ∧
      (∀ x, t.sbyte x = s.sbyte x) ∧ ∀ c, c ≠ b.core → t.array c = s.array c
    (a.owner = some g.block → a.queue = [] → a.eval = none →
      ∃ t, exec i s = .next t ∧ moved t ∧ t.array b.core = eff s b g { a with pushed := p }) ∧
    (a.eval ≠ none → ∃ t, exec i s = .next t ∧ moved t ∧ t.array b.core = { a with queue := a.queue ++ [op s b g], pushed := p })

/-- The instruction that a pair slot stands for (R281). -/
def slotInstr (x : PairSlot) : Instr :=
  match x.op with
  | .vadd sat => .vadd x.p sat x.t x.d x.a x.b
  | .vsub sat => .vsub x.p sat x.t x.d x.a x.b
  | .vmin => .vmin x.p x.t x.d x.a x.b
  | .vmax => .vmax x.p x.t x.d x.a x.b
  | .vmul => .vmul x.p x.t x.d x.a x.b
  | .vmulh => .vmulh x.p x.t x.d x.a x.b
  | .vmad => .vmad x.p x.t x.d x.a x.b x.c
  | .vand => .vand x.p x.d x.a x.b
  | .vor => .vor x.p x.d x.a x.b
  | .vxor => .vxor x.p x.d x.a x.b
  | .vnot => .vnot x.p x.d x.a
  | .vlop3 lut => .vlop3 x.p lut x.d x.a x.b x.c
  | .vsel => .vsel x.p x.t x.d x.a x.b x.c
  | .vmov => .vmov x.p x.t x.d x.a
  | .vmovi => .vmovi x.p x.t x.d ((BitVec.ofNat 8 x.c).signExtend 32)
  | .fadd rm => .fadd x.p rm x.t x.d x.a x.b
  | .fsub rm => .fsub x.p rm x.t x.d x.a x.b
  | .fmul rm => .fmul x.p rm x.t x.d x.a x.b
  | .ffma nc np rm => .ffma x.p nc np rm x.t x.d x.a x.b x.c
  | .fmin => .fmin x.p x.t x.d x.a x.b
  | .fmax => .fmax x.p x.t x.d x.a x.b

-- Memory requests.

/-- The check of an element of a request (R78, R83, R86, R95). -/
def chkOf (s : State) (b : Block) (r : Req) (e : Elem) : Chk :=
  checkElem s b r.space (match r.kind with | .store => false | _ => true) r.storeLike e.size e.ea

/-- A memory instruction (R57, R65, R85 to R89, R97, R129). With no active lane it only moves on. Where every lane passes
its checks, its request stands in the state, with its places, its counter is one higher, its window is open, and it waits
for what the split's fences and acquires, and for a release everything of the gang, have outstanding. A lane that fails
takes PROTECTION with the first one's subcause; else a lane that misses holds the gang for a walk, and else an absent page
parks it with a record. No byte changes at issue. -/
def Sends (i : Instr) (u : Use) (rq : Gang → Split → Req) (la : Nat) (dv dk : List Nat) : Prop :=
  ∀ s key g sp b, Issues s key g sp b → Clear s key b g sp u →
    let r := rq g sp
    let cs := r.elems.map (chkOf s b r)
    let good := ∀ e ∈ r.elems, ∀ x, chkOf s b r e ≠ .bad x
    (r.elems = [] → ∃ t g' sp', exec i s = .next t ∧
      GangFrame (if r.ord = .acq ∨ r.ord = .ar then forgetAhead s key else s) t key g g' sp' ∧ g'.regs = g.regs ∧ sp'.pc = sp.pc + 12 ∧
      sp'.lanes = sp.lanes ∧ sp'.exm = sp.exm ∧ sp'.wait = .ready) ∧
    (r.elems ≠ [] → (∀ e ∈ r.elems, ∃ l, chkOf s b r e = .ok l) →
      ∃ t g' sp' q, exec i s = .next t ∧ t.gang? key = some g' ∧ g'.split? = some sp' ∧
        g'.regs = { g.regs with lcnt := g.regs.lcnt + (if r.counted = 1 then 1 else 0),
                                scnt := g.regs.scnt + if r.counted = 2 then 1 else 0 } ∧
        sp'.pc = sp.pc + 12 ∧ sp'.lanes = sp.lanes ∧ sp'.exm = sp.exm ∧ (∀ k, k ≠ key → t.gang? k = s.gang? k) ∧
        (∀ a, t.byte a = s.byte a) ∧ (∀ a, t.sbyte a = s.sbyte a) ∧
        t.req? s.uid = some q ∧ q.gang = key ∧ q.split = sp.uid ∧ q.kind = r.kind ∧ q.space = r.space ∧ q.scope = r.scope ∧
        q.ord = r.ord ∧ q.dest = r.dest ∧ q.uni = r.uni ∧ q.checked = true ∧ q.performed = [] ∧ q.bounced = false ∧
        q.elems.map (fun e => (e.lane, e.ea, e.size, e.data, e.cmp)) =
          r.elems.map (fun e => (e.lane, e.ea, e.size, e.data, e.cmp)) ∧
        (∀ e ∈ q.elems, chkOf s b r e = .ok e.loc) ∧
        (r.dest ≠ .none → ∃ w ∈ sp'.windows, w.op = s.uid ∧ w.left = la ∧ w.done = false ∧ w.dv = dv ∧ w.dk = dk) ∧
        (r.loadLike = true → ∀ x ∈ sp.ldDeps, x ∈ q.deps) ∧ (r.storeLike = true → ∀ x ∈ sp.stDeps, x ∈ q.deps) ∧
        (r.ord = .rel ∨ r.ord = .ar → ∀ x ∈ pendingOf s key, x ∈ q.deps) ∧
        (r.ord = .acq ∨ r.ord = .ar → s.uid ∈ sp'.ldDeps ∧ s.uid ∈ sp'.stDeps)) ∧
    (∀ (n : Nat) e sub, r.elems[n]? = some e → chkOf s b r e = .bad sub →
        (∀ m < n, ∀ f, r.elems[m]? = some f → ∀ x, chkOf s b r f ≠ .bad x) →
        (∀ x ∈ g.splitList.map (·.2) ++ g.deferred, x.uid = sp.uid → x = sp) →
      ∃ t lanes, exec i s = .next t ∧ Trapped s t key g b sp.pc 3 sub 0 lanes (some 12) ∧ (r.uni = true → lanes = sp.exm) ∧
        (r.uni = false → ∀ l < 64, inLanes lanes l = true ↔ ∃ f ∈ r.elems, f.lane = l ∧ ∃ x, chkOf s b r f = .bad x)) ∧
    (good → (∃ e ∈ r.elems, ∃ v, chkOf s b r e = .miss v) →
      ∃ t g' q, exec i s = .next t ∧ t.gang? key = some g' ∧ g'.hold = .walk s.uid ∧ t.req? s.uid = some q ∧
        q.bounced = true ∧ q.checked = false ∧ (∀ a, t.byte a = s.byte a) ∧
        ∀ e ∈ r.elems, ∀ v, chkOf s b r e = .miss v → (b.core, b.ctx, v) ∈ t.walks) ∧
    (good → (∀ e ∈ r.elems, ∀ v, chkOf s b r e ≠ .miss v) → (∃ e ∈ r.elems, ∃ st pg, st < 2 ∧ chkOf s b r e = .absent st pg) →
      let st := if absentPages cs 0 = [] then 1 else 0
      let ring := if st = 0 then ringOf s b.ctx else 64
      ∃ t g' x, exec i s = .next t ∧ t.gang? key = some g' ∧ g'.hold = .park s.uid ring x.seq s.cycle false ∧
        (∀ a, t.byte a = s.byte a) ∧ Posted s t ring x ∧ x.cls = 1 ∧ x.stage = st ∧
        x.pc = sp.pc ∧ x.ctx = b.ctx ∧ x.addrs = ((absentPages cs st).take 8).map dw)

-- The engine window.

/-- The field [hi:lo] of a register. -/
def field (x : DWord) (hi lo : Nat) : Nat := x.toNat / 2 ^ lo % 2 ^ (hi + 1 - lo)

/-- The fields of CMD3 that make a GO malformed (R110, R112). -/
def Cmd3Bad (s : State) (b : Block) (c3 : DWord) : Prop :=
  let op := field c3 3 0
  let atype := field c3 11 8
  field c3 63 56 ≠ 0 ∨ field c3 43 41 ≠ 0 ∨ field c3 39 38 ≠ 0 ∨ field c3 25 12 ≠ 0 ∨ field c3 7 4 ≠ 0 ∨ 3 < op ∨
    2 < field c3 31 29 ∨ 2 < field c3 28 26 ∨ (op = 2 ∧ (field c3 31 29 ≠ 0 ∨ field c3 28 26 ≠ 0)) ∨
    (op = 3 ∧ field c3 31 29 ≠ 0) ∨ (if op = 1 then atype = 0 ∨ 5 < atype else atype ≠ 0) ∨
    b.need.guards < field c3 47 44 ∨ (c3.getLsbD 48 = true ∧ (5 < field c3 51 49 ∨ policy s b < field c3 51 49)) ∨
    (c3.getLsbD 52 = true ∧ (5 < field c3 55 53 ∨ policy s b < field c3 55 53)) ∨ b.need.tags ≤ field c3 37 32

/-- A copy's shape record and addresses are valid, and a SIGNAL's address is (R112, R113). -/
def PlacesValid (s : State) (b : Block) (op : Nat) (c0 c1 c2 : DWord) : Prop :=
  if op ≤ 1 then
    let w := fun i => s.readScr (scrKey b.core b.bank (b.scrbase + c2.toNat) + 4 * i) 4
    c0.toNat % 4 = 0 ∧ c1.toNat % 4 = 0 ∧ c2.toNat % 32 = 0 ∧ c2.toNat + 32 ≤ 256 * b.need.scratch ∧
      4 ≤ w 0 ∧ w 0 ≤ 65536 ∧ w 0 % 4 = 0 ∧ 1 ≤ w 1 ∧ w 1 ≤ 65536 ∧ 1 ≤ w 2 ∧ w 2 ≤ 65536 ∧ w 3 = 0 ∧
      w 4 % 4 = 0 ∧ w 5 % 4 = 0 ∧ w 6 % 4 = 0 ∧ w 7 % 4 = 0 ∧ w 0 * w 1 * w 2 ≤ 8388608
  else op = 3 → c1.toNat % 8 = 0

/-- A fabric access (R211, R215 to R218). It waits until the peer table's entries can be read (R406). With no active lane it only
moves on; a lane that fails a check of R215 takes PROTECTION; else there is one request for each peer and sector, of the lanes
that fall to it, with the device and the FTID of the peer's entry. A form that returns values holds the gang at the instruction, LCNT one higher; a store moves on, SCNT one
higher. -/
def SendsRemote (i : Instr) (u : Use) (p : Pred) (pa : PeerArg) (ix : Option VReg) (disp : BitVec 32) (size : Nat) (ret : Bool)
    (la : Nat) (dest : Dest) (kind : Gang → List Nat → RKind) : Prop :=
  ∀ s key g sp b, Issues s key g sp b → Clear s key b g sp u →
    let m := activeLanes g sp p
    let chk := localCheck s b.ctx g.regs m pa ix disp size
    (m = 0 → ∃ t g' sp', exec i s = .next t ∧ GangFrame s t key g g' sp' ∧ g'.regs = g.regs ∧ sp'.pc = sp.pc + 12 ∧
      sp'.lanes = sp.lanes ∧ sp'.exm = sp.exm ∧ sp'.wait = .ready) ∧
    (peersReady s b g.regs m pa = false → ∃ t g', exec i s = .next t ∧ Quiet s t key ∧ t.gang? key = some g' ∧ g'.regs = g.regs ∧
      g'.splits = g.splits) ∧
    (peersReady s b g.regs m pa = true → ∀ sub bad, m ≠ 0 → chk = some (sub, bad) → ∃ t, exec i s = .next t ∧ Trapped s t key g b sp.pc 3 sub 0 bad (some 12)) ∧
    (peersReady s b g.regs m pa = true → m ≠ 0 → chk = none → s.fab.lost = [] →
      ∃ t g' sp', exec i s = .next t ∧ t.gang? key = some g' ∧ g'.split? = some sp' ∧ (∀ a, t.byte a = s.byte a) ∧
        (∀ k, k ≠ key → t.gang? k = s.gang? k) ∧ sp'.lanes = sp.lanes ∧ sp'.exm = sp.exm ∧
        g'.regs = { g.regs with lcnt := g.regs.lcnt + (if ret then 1 else 0), scnt := g.regs.scnt + if ret then 0 else 1 } ∧
        (ret = true → g'.hold = .remote s.uid la ∧ sp'.pc = sp.pc) ∧ (ret = false → g'.hold = .none ∧ sp'.pc = sp.pc + 12) ∧
        ∀ (j : Nat) part, (splitRemote g.regs m pa ix disp)[j]? = some part → ∃ q, t.rreq? (s.uid + j) = some q ∧ q.gang = key ∧
          q.split = sp.uid ∧ q.peer = part.1 ∧ q.elems = part.2 ∧ q.group = s.uid ∧ q.size = size ∧ q.dest = dest ∧
          q.status = none ∧ q.kind = kind g (part.2.map (·.1)) ∧
          ∀ e, peerEntry s b.ctx part.1 = some e → q.dev = e.1 ∧ q.ftid = e.2)

/-- A byte of the dirty bitmap that a write to a place marks (R348). -/
def DirtyAt (s : State) (l : Loc) (a : Nat) : Prop :=
  l.scr = false ∧ ∃ c, s.ctx? l.ctx = some c ∧ c.dten = true ∧ l.gpa / 65536 < c.dirtyn ∧ a = c.dirty + l.gpa / 65536 / 8

/-- An element covers a byte: of device memory, or of a scratchpad. -/
def Covers (e : Elem) (scr : Bool) (a : Nat) : Prop := e.loc.scr = scr ∧ e.loc.addr ≤ a ∧ a < e.loc.addr + e.size

/-- Request `u` may perform its sector `sec` (R80, R90, R97, R127, R134), with those that perform together with it: the
elements `es`, none of them poisoned (R402). -/
structure Performs (s : State) (u sec : Nat) (r : Req) (es : List Elem) : Prop where
  here : s.req? u = some r
  space : r.space ≠ .engine
  first : canPerform s u r sec = true
  all : ∀ x ∈ performGroup r sec, canPerform s u r x = true
  elems : es = r.elems.filter fun e => (performGroup r sec).contains e.loc.sector && !r.lanesDone.contains e.lane
  clean : sec % 2 = 0 → ∀ x ∈ performGroup r sec, s.poisoned (x / 2) = false ∧ tget 0 s.mem.errors (x / 2) < 2

/-- The registers of every gang keep their values but for LCNT and SCNT. -/
def RegsStay (s t : State) : Prop :=
  ∀ k g, s.gang? k = some g → ∃ g' n m, t.gang? k = some g' ∧ g'.regs = { g.regs with lcnt := n, scnt := m }

end Sys2Proof.Machine
end

