-- ==== Sys2Proof/Certificates/Slice0/Obligations.lean ====
section
/-! DEFINITION. The statements for the provers, in the order of the spec's files. -/

open Sys2Proof Sys2Proof.Machine

/-- R186, the register forms and the immediate forms, whose second operand is the immediate extended with its sign: every
result on 64 bits, k0 ignoring its write, nothing else changed, no flag set; the operations that the table leaves out, a type
that does not match, and an immediate shift amount above 63 are no instruction; and the rule's three words. -/
def Obligations.UniformOperations : Prop :=
  (∀ (d a : Nat) (imm : BitVec 32),
    UniformOfImm (.addkImm d a imm) d a imm uSum ∧ UniformOfImm (.subkImm d a imm) d a imm uDiff ∧
    UniformOfImm (.mulkImm d a imm) d a imm uProd ∧ (∀ sgn, UniformOfImm (.mulhkImm sgn d a imm) d a imm (uHigh sgn)) ∧
    UniformOfImm (.andkImm d a imm) d a imm uAnd ∧ UniformOfImm (.orkImm d a imm) d a imm uOr ∧
    UniformOfImm (.xorkImm d a imm) d a imm uXor ∧ UniformOfImm (.shlkImm d a imm) d a imm uShl ∧
    UniformOfImm (.shrkImm d a imm) d a imm uShr ∧ UniformOfImm (.sarkImm d a imm) d a imm uSar ∧
    (∀ sgn, UniformOfImm (.minkImm sgn d a imm) d a imm (uMin sgn)) ∧
    (∀ sgn, UniformOfImm (.maxkImm sgn d a imm) d a imm (uMax sgn))) ∧
  (∀ w < 2 ^ 64, w % 512 = 0x28 →
    let op := w / 2 ^ 53 % 16
    let t := w / 2 ^ 49 % 16
    (12 ≤ op ∨ if op = 3 ∨ op = 10 ∨ op = 11 then t ≠ 12 ∧ t ≠ 13 else t ≠ 0) → ∃ e, decode w = .error e) ∧
  (∀ w < 2 ^ 96, w % 512 = 0x2D →
    let op := w / 2 ^ 53 % 16
    let t := w / 2 ^ 49 % 16
    (12 ≤ op ∨ (if op = 3 ∨ op = 10 ∨ op = 11 then t ≠ 12 ∧ t ≠ 13 else t ≠ 0) ∨ (7 ≤ op ∧ op ≤ 9 ∧ 64 ≤ w / 2 ^ 64)) →
      ∃ e, decode w = .error e) ∧
  decode 0x0C0A080028 = .ok (.addk 4 5 6) ∧ decode 0x10_00000000_0808002D = .ok (.addkImm 4 4 16) ∧
  decode 0x158000E0C0A0028 = .ok (.mink true 5 6 7) ∧
  ∀ d a b : Nat,
    UniformOf2 (.addk d a b) d a b uSum ∧ UniformOf2 (.subk d a b) d a b uDiff ∧
    UniformOf2 (.mulk d a b) d a b uProd ∧ (∀ sgn, UniformOf2 (.mulhk sgn d a b) d a b (uHigh sgn)) ∧
    UniformOf2 (.andk d a b) d a b uAnd ∧ UniformOf2 (.ork d a b) d a b uOr ∧ UniformOf2 (.xork d a b) d a b uXor ∧
    UniformOf2 (.shlk d a b) d a b uShl ∧ UniformOf2 (.shrk d a b) d a b uShr ∧ UniformOf2 (.sark d a b) d a b uSar ∧
    (∀ sgn, UniformOf2 (.mink sgn d a b) d a b (uMin sgn)) ∧ (∀ sgn, UniformOf2 (.maxk sgn d a b) d a b (uMax sgn))

/-- R185, R187, R188, R189: the moves to a uniform register, with the value each gives, and the writes of a mask register;
m0 ignores its write and reads all ones; and the forms that the tables leave out, or whose unused B is not zero, are no
instruction. -/
def Obligations.MovesAndMasks : Prop :=
  (∀ d imm, GivesK (.movk .sext d imm) 12 { k := [d] } d fun _ _ _ _ r => r.toInt = imm.toInt) ∧
  (∀ d imm, GivesK (.movk .zext d imm) 12 { k := [d] } d fun _ _ _ _ r => r.toNat = imm.toNat) ∧
  (∀ d imm, GivesK (.movk .high d imm) 12 { k := [d] } d fun _ _ g _ r =>
    r.toNat = imm.toNat * 2 ^ 32 + (g.kget d).toNat % 2 ^ 32) ∧
  (∀ (t : Ty) (d a l : Nat), GivesK (.vtok t d a l) 8 { v := vr t a, k := [d] } d fun _ _ g _ r =>
    r.toNat = (lane (g.vget a) l).toNat + if t.wide then 2 ^ 32 * (lane (g.vget (a + 1)) l).toNat else 0) ∧
  (∀ d a, GivesK (.mtok d a) 8 { k := [d] } d fun _ _ g _ r => r = g.mget a) ∧
  (∀ d, GivesK (.movx (.toK d)) 8 { k := [d] } d fun _ _ _ sp r => r = sp.exm) ∧
  (∀ d a, GivesK (.mpopc d a) 8 { k := [d] } d fun _ _ g _ r =>
    r.toNat = ((List.range 64).filter fun l => (g.mget a).getLsbD l).length) ∧
  (∀ d a, GivesK (.mfirst d a) 8 { k := [d] } d fun _ _ g _ r =>
    if g.mget a = 0 then r = BitVec.allOnes 64
    else (g.mget a).getLsbD r.toNat = true ∧ ∀ l < r.toNat, (g.mget a).getLsbD l = false) ∧
  (∀ d a b, GivesM (.mand d a b) 8 {} d fun g _ r => ∀ l < 64, r.getLsbD l = ((g.mget a).getLsbD l && (g.mget b).getLsbD l)) ∧
  (∀ d a b, GivesM (.mor d a b) 8 {} d fun g _ r => ∀ l < 64, r.getLsbD l = ((g.mget a).getLsbD l || (g.mget b).getLsbD l)) ∧
  (∀ d a b, GivesM (.mxor d a b) 8 {} d fun g _ r => ∀ l < 64, r.getLsbD l = ((g.mget a).getLsbD l ^^ (g.mget b).getLsbD l)) ∧
  (∀ d a, GivesM (.mnot d a) 8 {} d fun g _ r => ∀ l < 64, r.getLsbD l = !(g.mget a).getLsbD l) ∧
  (∀ d a, GivesM (.ktom d a) 8 { k := [a] } d fun g _ r => r = g.kget a) ∧
  (∀ d, GivesM (.movx (.toM d)) 8 {} d fun _ sp r => r = sp.exm) ∧
  (∀ w < 2 ^ 64, w % 512 = 0x34 → 6 ≤ w / 2 ^ 53 % 8 ∨ (w / 2 ^ 53 % 8 = 3 ∧ w / 2 ^ 33 % 256 ≠ 0) → ∃ e, decode w = .error e) ∧
  (∀ w < 2 ^ 96, w % 512 = 0x25 → w / 2 ^ 53 % 4 = 3 → ∃ e, decode w = .error e)

/-- R190, R38, R314: SRD writes the register's value to a uniform register and changes nothing else; of the Millrace's registers
when its place in the array's queue has come, which it then gives up; where the queue is empty the array only keeps the cycle and
the quarter of the gang, which say what of this cycle is too late to go before it. -/
def Obligations.SystemRegisterReads : Prop :=
  (∀ d, GivesK (.srd d .lanew) 8 { k := [d] } d fun _ _ _ _ r => r.toNat = 64) ∧
  (∀ d, GivesK (.srd d .gangid) 8 { k := [d] } d fun _ _ g _ r => r.toNat = g.idx % 2 ^ 64) ∧
  (∀ d, GivesK (.srd d .blockid) 8 { k := [d] } d fun _ b _ _ r =>
    r.toNat = (if b.wide then 2 ^ 63 else 0) + b.z % 2 ^ 21 * 2 ^ 42 + b.y % 2 ^ 21 * 2 ^ 21 + b.x % 2 ^ 21) ∧
  (∀ d, GivesK (.srd d .corenum) 8 { k := [d] } d fun s b _ _ r => r.toNat = corenum s b % 2 ^ 64) ∧
  (∀ d, GivesK (.srd d .clusternum) 8 { k := [d] } d fun s b _ _ r => r.toNat = corenum s b / 8 % 2 ^ 64) ∧
  (∀ d, GivesK (.srd d .stamp) 8 { k := [d] } d fun s b _ _ r =>
    ∀ c, s.ctx? b.ctx = some c → r.toNat = (s.cycle / 2 + c.stoff.toNat) % 2 ^ 64) ∧
  (∀ d, GivesK (.srd d .ctxid) 8 { k := [d] } d fun _ b _ _ r => r.toNat = b.ctx % 2 ^ 64) ∧
  (∀ d, GivesK (.srd d .fsr) 8 { k := [d] } d fun _ _ g _ r => r = g.regs.fsr) ∧
  (∀ d, GivesK (.srd d .fcr) 8 { k := [d] } d fun _ _ g _ r => r = g.regs.fcr) ∧
  (∀ d, GivesK (.srd d .pri) 8 { k := [d] } d fun _ _ g _ r => r.toNat = g.regs.pri % 2 ^ 64) ∧
  (∀ d, GivesK (.srd d .wdlim) 8 { k := [d] } d fun _ _ g _ r => r.toNat = g.regs.wdlim % 2 ^ 64) ∧
  (∀ d, GivesK (.srd d .hsp) 8 { k := [d] } d fun _ _ g _ r => r.toNat = g.frames.length % 2 ^ 64) ∧
  (∀ d, GivesK (.srd d .tagbase) 8 { k := [d] } d fun _ b _ _ r => r.toNat = b.tagbase % 2 ^ 64) ∧
  (∀ d, GivesK (.srd d .tagready) 8 { k := [d] } d fun _ b _ _ r =>
    ∀ i < 64, r.getLsbD i = (b.ready.getLsbD i && decide (i < b.need.tags))) ∧
  (∀ d, GivesK (.srd d .scrbase) 8 { k := [d] } d fun _ b _ _ r =>
    r.toNat = if b.need.scratch = 0 then 0 else b.scrbase % 2 ^ 64) ∧
  (∀ d, GivesK (.srd d .errq) 8 { k := [d] } d fun s b _ _ r =>
    ∀ c, s.ctx? b.ctx = some c → r.toNat = (c.errBase.toNat + c.errHead) % 2 ^ 64) ∧
  (∀ d, GivesK (.srd d .errcnt) 8 { k := [d] } d fun s b _ _ r =>
    ∀ c, s.ctx? b.ctx = some c → r.toNat = (c.errCount + if c.errOvf then 2 ^ 63 else 0) % 2 ^ 64) ∧
  (∀ d, GivesK (.srd d .lcnt) 8 { k := [d] } d fun _ _ g _ r => r.toNat = g.regs.lcnt % 2 ^ 64) ∧
  (∀ d, GivesK (.srd d .scnt) 8 { k := [d] } d fun _ _ g _ r => r.toNat = g.regs.scnt % 2 ^ 64) ∧
  (∀ d, GivesK (.srd d .energy) 8 { k := [d] } d fun s b _ _ r =>
    r.toNat = tget 0 s.energy.counters (meterKey s b.ctx b.core) / 1000 % 2 ^ 64) ∧
  (∀ d r s key g sp b, r = SysReg.twin ∨ r = SysReg.rcstat → Issues s key g sp b →
      Clear s key b g sp { k := [d], race := true, arrIdle := true } →
    let a := s.array b.core
    let x := if r = .twin then a.twin else a.bits + (if a.dirty then 2 ^ 8 else 0) + if a.capv then 2 ^ 10 else 0
    let given := fun (g' : Gang) (sp' : Split) => Goes sp sp' (sp.pc + 8) ∧ g'.regs.fsr = g.regs.fsr ∧ g'.kget 0 = 0 ∧
      (d ≠ 0 → (g'.kget d).toNat = x % 2 ^ 64)
    (a.queue = [] → ∃ t g' sp', exec (.srd d r) s = .next t ∧
      GangStep (s.setArray b.core { a with pushed := some (s.cycle, g.sched.quarter) }) t key g g' sp' [] [d] [] ∧ given g' sp') ∧
    (∀ rest, a.queue = .hold key sp.uid :: rest →
      ∃ t g' sp', exec (.srd d r) s = .next t ∧ t.gang? key = some g' ∧ g'.split? = some sp' ∧
        RegsKeep g.regs g'.regs [] [d] [] ∧ given g' sp' ∧ (∀ a, t.byte a = s.byte a) ∧ (∀ a, t.sbyte a = s.sbyte a) ∧
        ∀ c, c ≠ b.core → t.array c = s.array c))

/-- R38, R190, R196, R239, R242: SWR and SETPRI write the gang's own registers, reserved bits staying zero; a PRI above
15 and a WDLIM above 2^32 − 1 take the ILLEGAL trap. R223: SWR of ERRQ sets the queue's base, clears OVF and moves HEAD past at
most the entries that are there.
The model's choices: log 23. -/
def Obligations.SystemRegisterWrites : Prop :=
  (∀ a, Steps (.swr .fsr a) { k := [a] } [] [] [] fun _ _ g sp g' sp' =>
    Goes sp sp' (sp.pc + 8) ∧ g'.regs = { g.regs with fsr := g.kget a &&& 0x7F }) ∧
  (∀ a, ∀ s key g sp b, Issues s key g sp b → Clear s key b g sp { k := [a] } →
    ∃ t g' sp', exec (.swr .fcr a) s = .next t ∧ GangFrame s t key g g' sp' ∧
      Goes sp sp' (sp.pc + 8) ∧ g'.regs = { g.regs with fcr := g.kget a &&& 0x7F07 }) ∧
  (∀ a, ∀ s key g sp b, Issues s key g sp b → Clear s key b g sp { k := [a] } → (g.kget a).toNat ≤ 15 →
    ∃ t g' sp', exec (.swr .pri a) s = .next t ∧ GangFrame s t key g g' sp' ∧
      Goes sp sp' (sp.pc + 8) ∧ g'.regs = { g.regs with pri := (g.kget a).toNat }) ∧
  (∀ a, ∀ s key g sp b, Issues s key g sp b → Clear s key b g sp { k := [a] } → (g.kget a).toNat < 2 ^ 32 →
    ∃ t g' sp', exec (.swr .wdlim a) s = .next t ∧ GangFrame s t key g g' sp' ∧
      Goes sp sp' (sp.pc + 8) ∧ g'.regs = { g.regs with wdlim := (g.kget a).toNat }) ∧
  (∀ p, ∀ s key g sp b, Issues s key g sp b → Clear s key b g sp {} →
    ∃ t g' sp', exec (.setpri p) s = .next t ∧ GangFrame s t key g g' sp' ∧
      Goes sp sp' (sp.pc + 8) ∧ g'.regs = { g.regs with pri := p }) ∧
  (∀ a, ∀ s key g sp b, Issues s key g sp b → Clear s key b g sp { k := [a] } → 15 < (g.kget a).toNat →
    ∃ t, exec (.swr .pri a) s = .next t ∧ Trapped s t key g b sp.pc 1 0 0 sp.exm (some 8)) ∧
  (∀ a, ∀ s key g sp b, Issues s key g sp b → Clear s key b g sp { k := [a] } → 2 ^ 32 ≤ (g.kget a).toNat →
    ∃ t, exec (.swr .wdlim a) s = .next t ∧ Trapped s t key g b sp.pc 1 0 0 sp.exm (some 8)) ∧
  (∀ a, ∀ s key g sp b c, Issues s key g sp b → Clear s key b g sp { k := [a] } → s.ctx? b.ctx = some c →
    let x := (g.kget a).toNat
    let n := min ((x % 256 + 256 - c.errHead) % 256) c.errCount
    ∃ t g' sp' c' m, exec (.swrErrq a) s = .next t ∧ t.gang? key = some g' ∧ g'.split? = some sp' ∧ g'.regs = g.regs ∧
      Goes sp sp' (sp.pc + 8) ∧ (∀ y, t.byte y = s.byte y) ∧ (∀ y, t.sbyte y = s.sbyte y) ∧ t.ctx? b.ctx = some c' ∧
      c' = { c with errBase := dw (x / 2 ^ 14 * 2 ^ 14), errOvf := c.errOvf && !(g.kget a).getLsbD 12,
                    errHead := (c.errHead + n) % 256, errCount := c.errCount - n, wrdcnt := m })

/-- R178, R179, R181, R182, R164: where a branch goes, and that a taken backward one is counted; RET takes the ILLEGAL
trap, its own address kept, when its register is not a multiple of 4. -/
def Obligations.Branches : Prop :=
  (∀ off : BitVec 32, Steps (.bra off) {} [] [] [] fun _ _ g sp g' sp' =>
    g'.regs = g.regs ∧ Branched g sp sp' (sp.pc + BitVec.ofInt 64 off.toInt)) ∧
  (∀ c a y (off : BitVec 32), Steps (.brc c a y off) { k := a :: match y with | .reg k => [k] | .imm _ => [] } [] [] []
    fun _ _ g sp g' sp' =>
      let x := g.kget a
      let z := match y with | .reg k => g.kget k | .imm i => BitVec.ofInt 64 i.toInt
      g'.regs = g.regs ∧
      ((match c with
        | .eq => x = z | .ne => x ≠ z | .lt => x.toInt < z.toInt | .ge => z.toInt ≤ x.toInt
        | .ltu => x.toNat < z.toNat | .geu => z.toNat ≤ x.toNat) →
        Branched g sp sp' (sp.pc + BitVec.ofInt 64 off.toInt)) ∧
      ((match c with
        | .eq => x ≠ z | .ne => x = z | .lt => z.toInt ≤ x.toInt | .ge => x.toInt < z.toInt
        | .ltu => z.toNat ≤ x.toNat | .geu => x.toNat < z.toNat) → Goes sp sp' (sp.pc + 12))) ∧
  (∀ v a (off : BitVec 32), Steps (.brv v a off) {} [] [] [] fun _ _ g sp g' sp' =>
      let some1 := ∃ l < 64, inLanes sp.exm l = true ∧ inLanes (g.mget a) l = true
      let all1 := ∀ l < 64, inLanes sp.exm l = true → inLanes (g.mget a) l = true
      g'.regs = g.regs ∧
      ((match v with | .any => some1 | .all => all1 | .none => ¬some1) →
        Branched g sp sp' (sp.pc + BitVec.ofInt 64 off.toInt)) ∧
      ((match v with | .any => ¬some1 | .all => ¬all1 | .none => some1) → Goes sp sp' (sp.pc + 12))) ∧
  (∀ d (off : BitVec 32), Steps (.call d off) { k := [d] } [] [d] [] fun _ _ _ sp g' sp' =>
    Goes sp sp' (sp.pc + BitVec.ofInt 64 off.toInt) ∧ g'.kget 0 = 0 ∧ (d ≠ 0 → g'.kget d = sp.pc + 12)) ∧
  (∀ a, ∀ s key g sp b, Issues s key g sp b → Clear s key b g sp { k := [a] } → (g.kget a).toNat % 4 = 0 →
    ∃ t g' sp', exec (.ret a) s = .next t ∧ GangStep s t key g g' sp' [] [] [] ∧ g'.regs = g.regs ∧
      Goes sp sp' (g.kget a)) ∧
  (∀ a, ∀ s key g sp b, Issues s key g sp b → Clear s key b g sp { k := [a] } → (g.kget a).toNat % 4 ≠ 0 →
    ∃ t lanes, exec (.ret a) s = .next t ∧ Trapped s t key g b sp.pc 1 0 0 lanes (some 8))

/-- R34, R180: BRD sends a whole split one way, or divides it: the taken lanes at the target, the others with the held
lanes at the next instruction, siblings, the one with the lowest lane current; with the split table full the others go to
the deferral stack, and a full stack takes ILL_CONVERGENCE.
The model's choices: log 23. -/
def Obligations.Division : Prop :=
  ∀ (neg : Bool) (a : MReg) (off : BitVec 32) s key g sp b, Issues s key g sp b → Clear s key b g sp {} →
    let taken := sp.exm &&& if neg then ~~~(g.mget a) else g.mget a
    let target := sp.pc + BitVec.ofInt 64 off.toInt
    (taken = sp.exm → ∃ t g' sp', exec (.brd neg a off) s = .next t ∧
      GangStep s t key g g' sp' [] [] [] ∧ g'.regs = g.regs ∧ Branched g sp sp' target) ∧
    (taken ≠ sp.exm → taken = 0 → ∃ t g' sp', exec (.brd neg a off) s = .next t ∧
      GangStep s t key g g' sp' [] [] [] ∧ g'.regs = g.regs ∧ Goes sp sp' (sp.pc + 12)) ∧
    (∀ j, taken ≠ sp.exm → taken ≠ 0 → j < 8 → tget none g.splits j = none →
        (∀ i < j, tget none g.splits i ≠ none) →
      ∃ t g' cur other, exec (.brd neg a off) s = .next t ∧ t.gang? key = some g' ∧ g'.regs = g.regs ∧
        g'.split? = some cur ∧ g'.cur = g.cur ∧ tget none g'.splits j = some other ∧
        (∀ i, i ≠ j → i ≠ g.cur → tget none g'.splits i = tget none g.splits i) ∧
        (∀ x, t.byte x = s.byte x) ∧ lowest cur.lanes ≤ lowest other.lanes ∧
        cur.path.dropLast = sp.path ∧ other.path = siblingPath cur.path ∧
        ∃ yes no, ((cur = yes ∧ other = no) ∨ (cur = no ∧ other = yes)) ∧
          yes.lanes = taken ∧ yes.exm = taken ∧ yes.pc = target ∧
          no.lanes = sp.lanes &&& ~~~taken ∧ no.exm = sp.exm &&& ~~~taken ∧ no.pc = sp.pc + 12 ∧
          no.wd = sp.wd ∧ yes.wait = .ready ∧ no.wait = .ready) ∧
    (taken ≠ sp.exm → taken ≠ 0 → (∀ i < 8, tget none g.splits i ≠ none) → g.deferred.length < 56 →
      ∃ t g' cur no, exec (.brd neg a off) s = .next t ∧ t.gang? key = some g' ∧ g'.regs = g.regs ∧
        g'.split? = some cur ∧ cur.lanes = taken ∧ cur.exm = taken ∧ cur.pc = target ∧
        g'.deferred = g.deferred ++ [no] ∧ no.lanes = sp.lanes &&& ~~~taken ∧ no.exm = sp.exm &&& ~~~taken ∧
        no.pc = sp.pc + 12 ∧ (∀ x, t.byte x = s.byte x)) ∧
    (taken ≠ sp.exm → taken ≠ 0 → (∀ i < 8, tget none g.splits i ≠ none) → 56 ≤ g.deferred.length →
      ∃ t, exec (.brd neg a off) s = .next t ∧ Trapped s t key g b sp.pc 5 0 0 sp.exm (some 12))

/-- R43, R162, R164, R189, R197 to R199: NOP moves the PC on; MOVX replaces EXM by its operand within the split's lanes, and takes
ILL_CONVERGENCE with EXM unchanged when nothing is left; SLEEP of 0 continues at once, and otherwise waits for at most
2^32 − 1 cycles; WAITC continues once the counts are low enough and otherwise lets the next ready split issue; YIELD moves the
PC on, resets the watchdog's count and treats the fairness timer as expired.
The model's choices: log 23. -/
def Obligations.MovxSleepWait : Prop :=
  Steps .nop {} [] [] [] (fun _ _ g sp g' sp' => g'.regs = g.regs ∧ Goes sp sp' (sp.pc + 8)) ∧
  (∀ a s key g sp b, Issues s key g sp b → Clear s key b g sp {} → g.mget a &&& sp.lanes ≠ 0 →
    ∃ t g' sp', exec (.movx (.ofM a)) s = .next t ∧ GangFrame s t key g g' sp' ∧ g'.regs = g.regs ∧
      Goes { sp with exm := g.mget a &&& sp.lanes } sp' (sp.pc + 8)) ∧
  (∀ a s key g sp b, Issues s key g sp b → Clear s key b g sp { k := [a] } → g.kget a &&& sp.lanes ≠ 0 →
    ∃ t g' sp', exec (.movx (.ofK a)) s = .next t ∧ GangFrame s t key g g' sp' ∧ g'.regs = g.regs ∧
      Goes { sp with exm := g.kget a &&& sp.lanes } sp' (sp.pc + 8)) ∧
  (∀ a s key g sp b, Issues s key g sp b → Clear s key b g sp {} → g.mget a &&& sp.lanes = 0 →
    ∃ t, exec (.movx (.ofM a)) s = .next t ∧ Trapped s t key g b sp.pc 5 0 0 sp.exm (some 8)) ∧
  (∀ a s key g sp b, Issues s key g sp b → Clear s key b g sp { k := [a] } → g.kget a &&& sp.lanes = 0 →
    ∃ t, exec (.movx (.ofK a)) s = .next t ∧ Trapped s t key g b sp.pc 5 0 0 sp.exm (some 8)) ∧
  (∀ a, Steps (.sleep a) { k := [a] } [] [] [] fun s _ g sp g' sp' => g'.regs = g.regs ∧
    Goes { sp with wait := if g.kget a = 0 then .ready else .asleep (s.cycle + min (g.kget a).toNat (2 ^ 32 - 1)) } sp'
      (sp.pc + 8)) ∧
  (∀ s key g i sp n, s.gang? key = some g → tget none g.splits i = some sp → sp.wait = .asleep n → n ≤ s.cycle →
    ∃ t g', exec (.sleepExpiry key i) s = .next t ∧ t.gang? key = some g' ∧ Quiet s t key ∧ g'.regs = g.regs ∧
      tget none g'.splits i = some { sp with wait := .ready } ∧
      ∀ j, j ≠ i → tget none g'.splits j = tget none g.splits j) ∧
  (∀ n m s key g sp b, Issues s key g sp b → Clear s key b g sp {} → g.regs.lcnt ≤ n → g.regs.scnt ≤ m →
    ∃ t g' sp', exec (.waitc n m) s = .next t ∧ GangFrame s t key g g' sp' ∧ g'.regs = g.regs ∧ Goes sp sp' (sp.pc + 8)) ∧
  (∀ n m s key g sp b, Issues s key g sp b → Clear s key b g sp {} → n < g.regs.lcnt ∨ m < g.regs.scnt →
    ∃ t g', exec (.waitc n m) s = .next t ∧ Quiet s t key ∧ t.gang? key = some g' ∧ g'.regs = g.regs ∧
      g'.splits = g.splits ∧ g'.cur = (nextReady g).getD g.cur) ∧
  (∀ s key g sp b, Issues s key g sp b → Clear s key b g sp {} →
    ∃ t g' sp', exec .yieldTurn s = .next t ∧ t.gang? key = some g' ∧ g'.regs = g.regs ∧
      (∀ a, t.byte a = s.byte a) ∧ tget none g'.splits g.cur = some sp' ∧ sp'.pc = sp.pc + 8 ∧ sp'.wd = 0 ∧
      sp'.lanes = sp.lanes ∧ sp'.exm = sp.exm ∧ (sp.resv = none → sp.spent = [] → g'.cur = (nextReady g).getD g.cur))

/-- R22, R34, R123, R164, R183, R184: a split with no sibling passes MERGE with its held lanes back in EXM; one whose sibling is
not at a MERGE waits; two siblings at a MERGE join, after the MERGE of the one with the lowest lane. EXIT takes its active
lanes out of the split, of EXM and of the gang; without active lanes it only moves on; lanes of EXM that stay go on, an EXM left
empty takes the held lanes; a split left without lanes frees its entry, the others stay as they are, but that the one that waits at
a MERGE for it passes; and a gang with no live lane left has no unresolved guard.
The model's choices: log 17, and that EXIT without active lanes leaves the watchdog's count alone, log 72. -/
def Obligations.MergingAndExiting : Prop :=
  (∀ s key g sp b, Issues s key g sp b → Clear s key b g sp { close := true } → sp.path = [] →
    ∃ t g' sp', exec .merge s = .next t ∧ GangFrame s t key g g' sp' ∧ g'.regs = g.regs ∧
      Goes { sp with exm := sp.lanes, wd := 0 } sp' (sp.pc + 8)) ∧
  (∀ s key g sp b j x, Issues s key g sp b → Clear s key b g sp { close := true } →
      tableSibs g sp = [(j, x)] → deferredSibs g sp = [] → x.wait ≠ .atMerge → sp.chain.isPrefixOf x.chain = true →
    ∃ t g' sp', exec .merge s = .next t ∧ GangFrame s t key g g' sp' ∧ g'.regs = g.regs ∧
      Goes { sp with wait := .atMerge, wd := 0 } sp' sp.pc) ∧
  (∀ s key g sp b j x, Issues s key g sp b → Clear s key b g sp { close := true } →
      tableSibs g sp = [(j, x)] → deferredSibs g sp = [] → j ≠ g.cur → x.wait = .atMerge →
      x.path = siblingPath sp.path → x.chain = sp.chain →
    ∃ t g' n, exec .merge s = .next t ∧ t.gang? key = some g' ∧ g'.regs = g.regs ∧ (∀ a, t.byte a = s.byte a) ∧
      g'.cur = (if lowest x.lanes < lowest sp.lanes then j else g.cur) ∧ g'.split? = some n ∧
      tget none g'.splits (if lowest x.lanes < lowest sp.lanes then g.cur else j) = none ∧
      n.lanes = sp.lanes ||| x.lanes ∧ n.exm = sp.lanes ||| x.lanes ∧
      n.pc = (if lowest x.lanes < lowest sp.lanes then x.pc else sp.pc) + 8 ∧
      n.wait = .ready ∧ n.wd = 0 ∧ n.path = sp.path.dropLast) ∧
  (∀ (p : Pred) s key g sp b, Issues s key g sp b → Clear s key b g sp { close := true } →
    let m := sp.exm &&& if p.pn then ~~~(g.mget p.pm) else g.mget p.pm
    (m = 0 → ∃ t g' sp', exec (.exit p) s = .next t ∧ GangFrame s t key g g' sp' ∧ g'.regs = g.regs ∧
      Goes sp sp' (sp.pc + 8)) ∧
    (m ≠ 0 → sp.exm &&& ~~~m ≠ 0 → sp.lanes &&& ~~~m ≠ 0 → g.live &&& ~~~m ≠ 0 →
      ∃ t g' sp', exec (.exit p) s = .next t ∧ t.gang? key = some g' ∧ g'.split? = some sp' ∧ g'.regs = g.regs ∧
        g'.live = g.live &&& ~~~m ∧ sp'.lanes = sp.lanes &&& ~~~m ∧ sp'.exm = sp.exm &&& ~~~m ∧ sp'.pc = sp.pc + 8 ∧
        sp'.wd = 0 ∧ ∀ a, t.byte a = s.byte a) ∧
    (m ≠ 0 → sp.exm &&& ~~~m = 0 → sp.lanes &&& ~~~m ≠ 0 → g.live &&& ~~~m ≠ 0 → sp.chain = [] →
      ∃ t g' sp', exec (.exit p) s = .next t ∧ t.gang? key = some g' ∧ g'.split? = some sp' ∧ g'.regs = g.regs ∧
        g'.live = g.live &&& ~~~m ∧ sp'.lanes = sp.lanes &&& ~~~m ∧ sp'.exm = sp.lanes &&& ~~~m ∧ sp'.pc = sp.pc + 8 ∧
        ∀ a, t.byte a = s.byte a) ∧
    (m ≠ 0 → sp.lanes &&& ~~~m = 0 → g.live &&& ~~~m ≠ 0 → g.deferred = [] → twf none g.splits = true →
      ∃ t g', exec (.exit p) s = .next t ∧ t.gang? key = some g' ∧ g'.regs = g.regs ∧ g'.live = g.live &&& ~~~m ∧
        tget none g'.splits g.cur = none ∧ (∀ a, t.byte a = s.byte a) ∧
        (∀ i x, i ≠ g.cur → tget none g.splits i = some x → x.wait = .ready →
          tget none g'.splits i = some x ∧ g'.split?.isSome = true) ∧
        ∀ j x, tget none g.splits j = some x → j ≠ g.cur → x.wait = .atMerge → tableSibs g x = [(g.cur, sp)] →
          (∀ e ∈ g.splitList, e.2.wait = .atMerge → e.1 = j) →
          tget none g'.splits j = some { x with
            pc := x.pc + 8, exm := x.lanes, wait := .ready, path := x.path.dropLast, wd := 0, windows := [] }) ∧
    (m ≠ 0 → sp.lanes &&& ~~~m = 0 → g.live &&& ~~~m = 0 → g.traps = [] →
      ∃ t g', exec (.exit p) s = .next t ∧ t.gang? key = some g' ∧ g'.live = 0 ∧
        (∀ n, 1 ≤ n → n ≤ 15 → g'.regs.gget n = if g.regs.gget n = .unresolved then .isFalse else g.regs.gget n) ∧
        (∀ i, g'.kget i = g.kget i ∧ g'.vget i = g.vget i ∧ g'.mget i = g.mget i) ∧ ∀ a, t.byte a = s.byte a))

/-- R36, R133, R192 to R195: a split waits at BAR until every gang of the block has arrived, and then all go on, behind
every access that the block's gangs had outstanding; CJOIN and CLEAVE change a crew's members; CBAR waits for the
members, and a gang that is no member passes; the last member's arrival lets the splits of all of them go on, behind every access
that they had outstanding, and the generation rises; a barrier that is pending leaves the members that joined in the cycle of an
arrival, and have not arrived, to the next generation.
The model's choices: log 23. -/
def Obligations.Barriers : Prop :=
  (∀ s key g sp b k h, Issues s key g sp b → Clear s key b g sp { close := true } → g.deferred = [] →
      k ∈ s.gangsOf g.block → k ≠ key → s.gang? k = some h → arrivedBar h = false →
    ∃ t g' sp', exec .bar s = .next t ∧ GangFrame s t key g g' sp' ∧ g'.regs = g.regs ∧
      Goes { sp with wait := .atBar, wd := 0 } sp' sp.pc) ∧
  (∀ s key g sp b, Issues s key g sp b → Clear s key b g sp { close := true } → g.deferred = [] →
      key ∈ s.gangsOf g.block → (∀ e ∈ g.splitList, e.1 ≠ g.cur → e.2.wait = .atBar) →
      (∀ k ∈ s.gangsOf g.block, k ≠ key → ∀ h, s.gang? k = some h → arrivedBar h = true) →
    ∃ t, exec .bar s = .next t ∧ (∀ a, t.byte a = s.byte a) ∧
      ∃ g' sp', t.gang? key = some g' ∧ g'.split? = some sp' ∧ g'.regs = g.regs ∧ sp'.wait = .ready ∧
        sp'.pc = sp.pc + 8 ∧ sp'.wd = 0 ∧
        (∀ k ∈ s.gangsOf g.block, ∀ u ∈ pendingOf s k, performedUid s u = false → u ∈ sp'.ldDeps ∧ u ∈ sp'.stDeps) ∧
        ∀ k ∈ s.gangsOf g.block, k ≠ key → ∀ h i x, s.gang? k = some h → tget none h.splits i = some x → x.wait = .atBar →
          ∃ h' x', t.gang? k = some h' ∧ tget none h'.splits i = some x' ∧ x'.wait = .ready) ∧
  (∀ s key g sp b, Issues s key g sp b → Clear s key b g sp { close := true } → g.deferred ≠ [] →
    ∃ t, exec .bar s = .next t ∧ Trapped s t key g b sp.pc 5 0 0 sp.exm (some 8)) ∧
  (∀ c s key g sp b, Issues s key g sp b → Clear s key b g sp {} →
    ∃ t g' sp', exec (.cjoin c) s = .next t ∧ t.gang? key = some g' ∧ g'.split? = some sp' ∧ g'.regs = g.regs ∧
      Goes sp sp' (sp.pc + 8) ∧ (∀ a, t.byte a = s.byte a) ∧
      let x := s.crew (crewKey b c)
      let y := t.crew (crewKey b c)
      (∃ n, (key, n) ∈ y.members) ∧ y.gen = x.gen ∧ ∀ e, e.1 ≠ key → (e ∈ y.members ↔ e ∈ x.members)) ∧
  (∀ c s key g sp b, Issues s key g sp b → Clear s key b g sp {} →
    ∃ t g' sp', exec (.cleave c) s = .next t ∧ t.gang? key = some g' ∧ g'.split? = some sp' ∧ g'.regs = g.regs ∧
      sp'.pc = sp.pc + 8 ∧ sp'.exm = sp.exm ∧ sp'.lanes = sp.lanes ∧ (∀ a, t.byte a = s.byte a) ∧
      let x := s.crew (crewKey b c)
      let y := t.crew (crewKey b c)
      (∀ k, k ∈ y.members.map (·.1) ↔ k ∈ x.members.map (·.1) ∧ k ≠ key) ∧
      ∀ e, e.2.2 ≠ s.cycle → (e ∈ y.members ↔ e ∈ x.members ∧ e.1 ≠ key)) ∧
  (∀ c s key g sp b, Issues s key g sp b → Clear s key b g sp { close := true } → g.deferred = [] →
      (∀ e ∈ (s.crew (crewKey b c)).members, e.1 ≠ key) →
    ∃ t g' sp', exec (.cbar c) s = .next t ∧ GangFrame (forgetAhead s key) t key g g' sp' ∧ g'.regs = g.regs ∧ sp'.pc = sp.pc + 8 ∧
      sp'.wait = .ready ∧ sp'.wd = 0 ∧ sp'.exm = sp.exm) ∧
  (∀ c s key g sp b n m h, Issues s key g sp b → Clear s key b g sp { close := true } → g.deferred = [] →
      (key, n) ∈ (s.crew (crewKey b c)).members → m ∈ (s.crew (crewKey b c)).members → m.1 ≠ key →
      m.2.1 ≤ (s.crew (crewKey b c)).gen → m.2.2 ≠ s.cycle → s.gang? m.1 = some h → arrivedCbar c h = false →
    ∃ t g' sp', exec (.cbar c) s = .next t ∧ t.gang? key = some g' ∧ g'.split? = some sp' ∧ g'.regs = g.regs ∧
      Goes { sp with wait := .atCbar c, wd := 0 } sp' sp.pc ∧
      let x := s.crew (crewKey b c)
      let y := t.crew (crewKey b c)
      let all1 := g.live ≠ 0 ∧ ∀ e ∈ g.splitList, e.1 ≠ g.cur → e.2.wait = .atCbar c
      y.gen = x.gen ∧ y.left = x.left ∧ y.members.map (·.1) = x.members.map (·.1) ∧
      (∀ e, e.2.2 ≠ s.cycle → (e ∈ y.members ↔ e ∈ x.members)) ∧
      (all1 → n.1 ≤ x.gen → ∀ e ∈ x.members, e.1 ≠ key → e.2.2 = s.cycle → e.2.1 ≤ x.gen → memberArrived s c e.1 = false →
        (e.1, x.gen + 1, e.2.2) ∈ y.members)) ∧
  (∀ c s key g sp b n, Issues s key g sp b → Clear s key b g sp { close := true } → g.deferred = [] → g.live ≠ 0 →
      (∀ e ∈ g.splitList, e.1 ≠ g.cur → e.2.wait = .atCbar c) →
    let x := s.crew (crewKey b c)
    (key, n) ∈ x.members → n.1 ≤ x.gen →
      (∀ m ∈ x.members, m.1 ≠ key → m.2.1 ≤ x.gen → memberArrived s c m.1 = true ∨ m.2.2 = s.cycle) →
    ∃ t g' sp', exec (.cbar c) s = .next t ∧ t.gang? key = some g' ∧ g'.split? = some sp' ∧ g'.regs = g.regs ∧
      sp'.wait = .ready ∧ sp'.pc = sp.pc + 8 ∧ sp'.wd = 0 ∧ (∀ a, t.byte a = s.byte a) ∧
      (t.crew (crewKey b c)).gen = x.gen + 1 ∧ (t.crew (crewKey b c)).left = [] ∧
      (∀ i y, i ≠ g.cur → tget none g.splits i = some y →
        ∃ y', tget none g'.splits i = some y' ∧ y'.wait = .ready ∧ y'.pc = y.pc + 8) ∧
      (∀ u ∈ pendingOf s key, performedUid s u = false → u ∈ sp'.ldDeps ∧ u ∈ sp'.stDeps) ∧
      ∀ m ∈ x.members, m.1 ≠ key → m.2.1 ≤ x.gen → memberArrived s c m.1 = true →
        (∀ u ∈ pendingOf s m.1, performedUid s u = false → u ∈ sp'.ldDeps ∧ u ∈ sp'.stDeps) ∧
        ∀ h i y, s.gang? m.1 = some h → tget none h.splits i = some y →
          ∃ h' y', t.gang? m.1 = some h' ∧ tget none h'.splits i = some y' ∧ y'.wait = .ready ∧ y'.pc = y.pc + 8)

/-- R37, R38, R59, R65, R126, R191, R282, R379, R380: TRAP stops the gang with cause TRAP and its code, the recorded PC being
the next instruction's. What an instruction names decides whether it may run: a register beyond the block's, or the
Millrace without RACE, takes ILLEGAL; a scope wider than VPOL allows takes the SCOPE trap; a matrix instruction of a
divided gang takes ILL_CONVERGENCE.
The model's choices: log 23. -/
def Obligations.Trapping : Prop :=
  (∀ (code : BitVec 8) s key g sp b, Issues s key g sp b → Clear s key b g sp { close := true } →
    ∃ t, exec (.trap code) s = .next t ∧
      Trapped s t key g b (sp.pc + 8) 11 code.toNat (BitVec.ofNat 64 code.toNat) sp.exm (some 0)) ∧
  (∀ s key g sp b, Issues s key g sp b → (∀ w ∈ sp.windows, w.done = true) →
    (∀ d a c, b.need.kregs ≤ d ∨ b.need.kregs ≤ a ∨ b.need.kregs ≤ c →
      ∃ t, exec (.addk d a c) s = .next t ∧ Trapped s t key g b sp.pc 1 0 0 sp.exm (some 8)) ∧
    (∀ p sat ty d a c, ty.wide = false → b.need.vregs ≤ d ∨ b.need.vregs ≤ a ∨ b.need.vregs ≤ c →
      ∃ t, exec (.vadd p sat ty d a c) s = .next t ∧ Trapped s t key g b sp.pc 1 0 0 sp.exm (some 8)) ∧
    (∀ a, b.need.race = false →
      ∃ t, exec (.swrTwin a) s = .next t ∧ Trapped s t key g b sp.pc 1 0 0 sp.exm (some 8)) ∧
    (∀ k sc, policy s b < scopeCode sc →
      ∃ t, exec (.fence k sc) s = .next t ∧ Trapped s t key g b sp.pc 4 0 0 sp.exm (some 8)) ∧
    (∀ d, d < b.need.kregs → collective g sp = false → engPending s key = [] → depsDone s sp.ldDeps = true →
      ∃ t, exec (.mbatch d) s = .next t ∧ Trapped s t key g b sp.pc 5 0 0 sp.exm (some 8)))

/-- R361, R362, R363: HPUSH adds a frame with its set, its code and its registers; HPOP removes the top one and frees the
records it made; a divided gang takes ILL_CONVERGENCE, a full or empty or shadowed stack PROTECTION.
The model's choices: log 23. -/
def Obligations.HandlerStack : Prop :=
  (∀ vp ks kt ki (off : BitVec 32) s key g sp b, Issues s key g sp b → Clear s key b g sp { v := [vp], k := [ks, kt, ki] } →
    (wholeGang g = true → g.frames.length < 64 →
      ∃ t g' sp', exec (.hpush vp ks kt ki off) s = .next t ∧ Quiet s t key ∧ t.gang? key = some g' ∧
        g'.split? = some sp' ∧ g'.regs = g.regs ∧ g'.recs = g.recs ∧ Goes sp sp' (sp.pc + 12) ∧
        g'.frames = g.frames ++ [⟨g.kget ks, sp.pc + BitVec.ofInt 64 off.toInt, vp, kt, ki⟩]) ∧
    (wholeGang g = false →
      ∃ t, exec (.hpush vp ks kt ki off) s = .next t ∧ Trapped s t key g b sp.pc 5 0 0 sp.exm (some 12)) ∧
    (wholeGang g = true → 64 ≤ g.frames.length →
      ∃ t, exec (.hpush vp ks kt ki off) s = .next t ∧ Trapped s t key g b sp.pc 3 6 0 sp.exm (some 12))) ∧
  (∀ s key g sp b, Issues s key g sp b → Clear s key b g sp {} →
    (wholeGang g = true → g.frames ≠ [] →
        (∀ e ∈ sp.chain, ¬(e.frame ≤ g.frames.length - 1 ∧ g.frames.length - 1 < e.base)) →
      ∃ t g' sp', exec .hpop s = .next t ∧ Quiet s t key ∧ t.gang? key = some g' ∧ g'.split? = some sp' ∧
        g'.regs = g.regs ∧ Goes sp sp' (sp.pc + 8) ∧ g'.frames = g.frames.dropLast ∧
        ∀ i r, tget none g'.recs i = some r → r.frame ≠ g.frames.length - 1) ∧
    (wholeGang g = false → ∃ t, exec .hpop s = .next t ∧ Trapped s t key g b sp.pc 5 0 0 sp.exm (some 8)) ∧
    (wholeGang g = true → g.frames = [] ∨
        (∃ e ∈ sp.chain, e.frame ≤ g.frames.length - 1 ∧ g.frames.length - 1 < e.base) →
      ∃ t, exec .hpop s = .next t ∧ Trapped s t key g b sp.pc 3 6 0 sp.exm (some 8)))

/-- R364, R365, R366, R367, R368, R369: PERFORM enters the innermost unshadowed frame that names the effect: the payload, the
token and the identity are in the frame's registers, EXM is the performing lanes, and the lowest free record holds the
continuation; without an active lane it only moves on, and without a frame it takes UNHANDLED_EFFECT.
The model's choices: log 23. -/
def Obligations.Performing : Prop :=
  ∀ (p : Pred) kind d a kw id s key g sp b, Issues s key g sp b →
      Clear s key b g sp { v := [d, a], k := [kw], close := true } →
    let m := sp.exm &&& if p.pn then ~~~(g.mget p.pm) else g.mget p.pm
    (m = 0 → ∃ t g' sp', exec (.perform p kind d a kw id) s = .next t ∧ GangFrame s t key g g' sp' ∧ g'.regs = g.regs ∧
      Goes sp sp' (sp.pc + 8)) ∧
    (m ≠ 0 → (∀ (n : Nat) fr, g.frames[n]? = some fr → fr.set.getLsbD id = true → shadowed sp.chain n = true) →
      ∃ t, exec (.perform p kind d a kw id) s = .next t ∧ Trapped s t key g b sp.pc 7 0 0 sp.exm (some 8)) ∧
    (∀ f fr, m ≠ 0 → g.frames[f]? = some fr → fr.set.getLsbD id = true → shadowed sp.chain f = false →
        (∀ (n : Nat) fr', f < n → g.frames[n]? = some fr' → fr'.set.getLsbD id = true → shadowed sp.chain n = true) →
      (kind = .none → ∃ t g' sp', exec (.perform p kind d a kw id) s = .next t ∧ Quiet s t key ∧
        t.gang? key = some g' ∧ g'.split? = some sp' ∧ sp'.pc = fr.pc ∧ sp'.exm = m ∧ sp'.lanes = sp.lanes ∧
        g'.recs = g.recs ∧ (∀ l < 64, lane (g'.vget fr.vp) l = if inLanes m l then lane (g.vget a) l else lane (g.vget fr.vp) l) ∧
        (∀ r, r ≠ fr.vp → g'.vget r = g.vget r) ∧ (∀ r, r ≠ fr.kt → r ≠ fr.ki → g'.kget r = g.kget r)) ∧
      (∀ i, kind ≠ .none → badWindow b.need (g.kget kw) = false → i < 16 → tget none g.recs i = none →
          (∀ j < i, tget none g.recs j ≠ none) →
        ∃ t g' sp' r, exec (.perform p kind d a kw id) s = .next t ∧ Quiet s t key ∧
          t.gang? key = some g' ∧ g'.split? = some sp' ∧ sp'.pc = fr.pc ∧ sp'.exm = m ∧ sp'.lanes = sp.lanes ∧
          (∀ l < 64, lane (g'.vget fr.vp) l = if inLanes m l then lane (g.vget a) l else lane (g.vget fr.vp) l) ∧
          (∀ q, q ≠ fr.vp → g'.vget q = g.vget q) ∧ (∀ q, q ≠ fr.kt → q ≠ fr.ki → g'.kget q = g.kget q) ∧
          (fr.ki ≠ 0 → g'.kget fr.ki = identityOf (kindCode kind) f id) ∧
          tget none g'.recs i = some r ∧ (∀ j, j ≠ i → tget none g'.recs j = tget none g.recs j) ∧
          (fr.kt ≠ 0 → fr.kt ≠ fr.ki → g'.kget fr.kt = mkToken (genOf s g) g.tag (kindCode kind) i r.serial) ∧
          r.kind = kind ∧ r.id = id ∧ r.frame = f ∧ r.result = some d ∧ r.chain = sp.chain ∧ r.resumes = 0 ∧
          r.cont = ⟨sp.pc + 8, sp.exm, sp.lanes, m⟩))

/-- R369, R370, R372, R373: RESUME goes back to the continuation with the result in its lanes and uses the token up; TKDROP
frees the record; TKSTAT reads it, or 0; a token that is not live takes STALE_TOKEN.
The model's choices: log 23. -/
def Obligations.Tokens : Prop :=
  (∀ kt vs s key g sp b, Issues s key g sp b → Clear s key b g sp { v := [vs], k := [kt], close := true } →
    (∀ i r d, liveRec s g (g.kget kt) = some (i, r) → r.result = some d → r.savedV = [] → r.savedK = [] →
        sp.lanes = r.cont.lanes &&& g.live →
      ∃ t g' sp', exec (.resume kt vs) s = .next t ∧ Quiet s t key ∧ t.gang? key = some g' ∧ g'.split? = some sp' ∧
        sp'.pc = r.cont.pc ∧ sp'.chain = r.chain ∧ sp'.lanes = sp.lanes ∧
        (r.cont.exm &&& g.live ≠ 0 → sp'.exm = r.cont.exm &&& g.live) ∧
        (∀ l < 64, lane (g'.vget d) l =
          if inLanes (r.cont.perf &&& g.live) l then lane (g.vget vs) l else lane (g.vget d) l) ∧
        (∀ q, q ≠ d → g'.vget q = g.vget q) ∧ (∀ q, g'.kget q = g.kget q) ∧
        tget none g'.recs i = if r.kind = .one then none else some { r with resumes := min (r.resumes + 1) 65535 }) ∧
    (liveRec s g (g.kget kt) = none →
      ∃ t, exec (.resume kt vs) s = .next t ∧ Trapped s t key g b sp.pc 6 0 0 sp.exm (some 8))) ∧
  (∀ a s key g sp b, Issues s key g sp b → Clear s key b g sp { k := [a] } →
    (∀ i r, liveRec s g (g.kget a) = some (i, r) →
      ∃ t g' sp', exec (.tkdrop a) s = .next t ∧ Quiet s t key ∧ t.gang? key = some g' ∧ g'.split? = some sp' ∧
        g'.regs = g.regs ∧ Goes sp sp' (sp.pc + 8) ∧ tget none g'.recs i = none ∧
        ∀ j, j ≠ i → tget none g'.recs j = tget none g.recs j) ∧
    (liveRec s g (g.kget a) = none →
      ∃ t, exec (.tkdrop a) s = .next t ∧ Trapped s t key g b sp.pc 6 0 0 sp.exm (some 8))) ∧
  (∀ d a, GivesK (.tkstat d a) 8 { k := [d, a] } d fun s _ g _ r =>
    (liveRec s g (g.kget a) = none → r = 0) ∧
    ∀ i x, liveRec s g (g.kget a) = some (i, x) →
      r.toNat = (x.frame * 2 ^ 32 + x.resumes * 2 ^ 16 + x.id * 2 ^ 8 + kindCode x.kind * 2 ^ 4 + 1) % 2 ^ 64)

/-- R371: FWD by the performing lanes with the invocation's own token enters the next outer frame that names the effect. -/
def Obligations.Forwarding : Prop :=
  ∀ kt va s key g sp b inv i r f fr, Issues s key g sp b → Clear s key b g sp { v := [va], k := [kt], close := true } →
      sp.chain.getLast? = some inv → sp.exm = inv.cont.perf &&& g.live → g.kget kt = inv.token →
      liveRec s g inv.token = some (i, r) →
      searchFrame g.frames sp.chain.dropLast inv.id (min inv.frame g.frames.length) = some f → g.frames[f]? = some fr →
    ∃ t g' sp', exec (.fwd kt va) s = .next t ∧ Quiet s t key ∧ t.gang? key = some g' ∧ g'.split? = some sp' ∧
      sp'.pc = fr.pc ∧ sp'.exm = sp.exm ∧
      sp'.chain = sp.chain.dropLast ++ [{ inv with frame := f, base := g.frames.length }] ∧
      tget none g'.recs i = some { r with frame := f } ∧
      (∀ l < 64, lane (g'.vget fr.vp) l = if inLanes sp.exm l then lane (g.vget va) l else lane (g.vget fr.vp) l) ∧
      (fr.ki ≠ 0 → g'.kget fr.ki = identityOf (bitsOf inv.token 31 30) f inv.id) ∧
      (∀ q, q ≠ fr.vp → g'.vget q = g.vget q) ∧ (∀ q, q ≠ fr.kt → q ≠ fr.ki → g'.kget q = g.kget q)

/-- R165, R374 to R376: at the current split's boundary the first pending effect is delivered: WATCHDOG that no frame handles kills
the lanes of EXM, inside a handler all the split's, counts them and records them; an effect that a frame handles, WATCHDOG,
REMOTE_ERR and BOUNCE_LIMIT too, enters the frame with its payload, that of REMOTE_ERR the error queue's count of the moment; FPX
and REMOTE_ERR that no frame handles are dropped, and BOUNCE_LIMIT becomes a NOTICE. One effect is raised at a boundary: after it
the split's next one waits for another. -/
def Obligations.SystemEffects : Prop :=
  ∀ s key g sp b e rest, s.gang? key = some g → g.split? = some sp → s.block? g.block = some b →
      atBoundary s g sp = true → sp.eff = e :: rest → (∀ x ∈ rest, x.id ≠ e.id) →
    let m := if e.id = 1 then (e.lanes &&& sp.lanes) ||| if e.whole then sp.exm else 0 else sp.exm
    let s0 := dropHold s key sp.uid
    let ring := ringOf s b.ctx
    let found := searchFrame g.frames sp.chain e.id g.frames.length
    let turn : Instr := if e.id = 2 then .watchdog key else .systemEffect key
    (sp.uid ∈ g.sched.raised → exec (.watchdog key) s = .next s ∧ exec (.systemEffect key) s = .next s) ∧
    (sp.uid ∉ g.sched.raised →
    (e.id = 2 → sp.exm ≠ 0 → found = none → g.traps = [] →
      let dead := if sp.chain = [] then sp.exm else sp.lanes
      ∃ t g' b', exec (.watchdog key) s = .next t ∧ t.gang? key = some g' ∧ g'.live = g.live &&& ~~~dead ∧
        t.block? g.block = some b' ∧ b'.killed = b.killed + popcount dead ∧ (∀ a, t.byte a = s.byte a) ∧
        ((s.ring ring).pend.length < 64 → ∃ r, Posted s t ring r ∧ r.cls = 2 ∧ r.lanes = dead ∧ r.pc = sp.pc ∧ r.ctx = b.ctx)) ∧
    (e.id = 1 ∨ e.id = 3 → m ≠ 0 → found = none →
      ∃ t g' sp', exec (.systemEffect key) s = .next t ∧ Quiet s0 t key ∧ t.gang? key = some g' ∧ g'.regs = g.regs ∧
        g'.split? = some sp' ∧ sp' = { sp with eff := rest }) ∧
    (e.id = 4 → m ≠ 0 → found = none →
      ∃ t g' sp', exec (.systemEffect key) s = .next t ∧ t.gang? key = some g' ∧ g'.regs = g.regs ∧
        g'.split? = some sp' ∧ sp' = { sp with eff := rest } ∧ (∀ a, t.byte a = s.byte a) ∧
        ((s.ring ring).pend.length < 64 →
          ∃ r, Posted s t ring r ∧ r.cls = 3 ∧ r.cause = 2 ∧ r.lanes = sp.exm ∧ r.pc = sp.pc ∧ r.ctx = b.ctx)) ∧
    (∀ f fr i, 1 ≤ e.id → e.id ≤ 4 → m ≠ 0 → found = some f → g.frames[f]? = some fr → freeRecord g = some i →
      ∃ t g' sp' r, exec turn s = .next t ∧ Quiet s0 t key ∧ t.gang? key = some g' ∧
        g'.split? = some sp' ∧ sp'.pc = fr.pc ∧ sp'.exm = m ∧ sp'.eff = rest ∧
        (∀ l < 64, lane (g'.vget fr.vp) l = if inLanes m l then
            (match e.id, s.ctx? b.ctx with
              | 3, some c => BitVec.ofNat 32 c.errCount
              | _, _ => lane e.payload l)
          else lane (g.vget fr.vp) l) ∧
        (fr.ki ≠ 0 → g'.kget fr.ki = identityOf 0 f e.id) ∧
        tget none g'.recs i = some r ∧ r.kind = .one ∧ r.id = e.id ∧ r.result = none ∧
        r.cont = ⟨sp.pc, sp.exm, sp.lanes, m⟩))

/-- R249, R250, R251: the integer arithmetic of every element of every active lane, exact and then modulo 2^N, or clamped
under SAT with the SAT flag; a SAT on VMIN, VMAX or a 64-bit type is no instruction. -/
def Obligations.VectorArithmetic : Prop :=
  (∀ w < 2 ^ 64, w % 512 = 0xD0 → w / 2 ^ 56 % 2 = 1 →
    w / 2 ^ 53 % 8 = 2 ∨ w / 2 ^ 53 % 8 = 3 ∨ w / 2 ^ 49 % 16 = 12 ∨ w / 2 ^ 49 % 16 = 13 → ∃ e, decode w = .error e) ∧
  (∀ p sat t d a b, LaneOpFlags (.vadd p sat t d a b) 8 { v := vr t d ++ vr t a ++ vr t b } p t d
    (fun g l => Elements t fun i r => IntWritten t sat (intAt g t a l i + intAt g t b l i) r)
    (fun g l => SatSets t sat fun i => intAt g t a l i + intAt g t b l i)) ∧
  (∀ p sat t d a b, LaneOpFlags (.vsub p sat t d a b) 8 { v := vr t d ++ vr t a ++ vr t b } p t d
    (fun g l => Elements t fun i r => IntWritten t sat (intAt g t a l i - intAt g t b l i) r)
    (fun g l => SatSets t sat fun i => intAt g t a l i - intAt g t b l i)) ∧
  (∀ p sat t d a, LaneOpFlags (.vabs p sat t d a) 8 { v := vr t d ++ vr t a } p t d
    (fun g l => Elements t fun i r => IntWritten t sat |intAt g t a l i| r)
    (fun g l => SatSets t sat fun i => |intAt g t a l i|)) ∧
  (∀ p sat t d a, LaneOpFlags (.vneg p sat t d a) 8 { v := vr t d ++ vr t a } p t d
    (fun g l => Elements t fun i r => IntWritten t sat (-intAt g t a l i) r)
    (fun g l => SatSets t sat fun i => -intAt g t a l i)) ∧
  (∀ p t d a b, LaneOp (.vmin p t d a b) 8 { v := vr t d ++ vr t a ++ vr t b } p t d
    fun g l => Elements t fun i r => intOf t r = min (intAt g t a l i) (intAt g t b l i)) ∧
  (∀ p t d a b, LaneOp (.vmax p t d a b) 8 { v := vr t d ++ vr t a ++ vr t b } p t d
    fun g l => Elements t fun i r => intOf t r = max (intAt g t a l i) (intAt g t b l i)) ∧
  (∀ p t d a b, LaneOp (.vmul p t d a b) 8 { v := vr t d ++ vr t a ++ vr t b } p t d
    fun g l => Elements t fun i r => (r : Int) = intAt g t a l i * intAt g t b l i % 2 ^ t.shape.1) ∧
  (∀ p t d a b, LaneOp (.vmulh p t d a b) 8 { v := vr t d ++ vr t a ++ vr t b } p t d
    fun g l => Elements t fun i r =>
      (r : Int) = intAt g t a l i * intAt g t b l i / 2 ^ t.shape.1 % 2 ^ t.shape.1) ∧
  (∀ p t d a b c, LaneOp (.vmad p t d a b c) 8 { v := vr t d ++ vr t a ++ vr t b ++ vr t c } p t d
    fun g l => Elements t fun i r =>
      (r : Int) = (intAt g t a l i * intAt g t b l i + intAt g t c l i) % 2 ^ t.shape.1)

/-- R258: the same operations with IMM32, which is the operand's 32 bits, or extended for a 64-bit type. -/
def Obligations.VectorImmediates : Prop :=
  (∀ p sat t d a imm, LaneOpFlags (.vaddImm p sat t d a imm) 12 { v := vr t d ++ vr t a } p t d
    (fun g l => Elements t fun i r => IntWritten t sat (intAt g t a l i + intOf t (elt t.shape.1 (immLane t imm) i)) r)
    (fun g l => SatSets t sat fun i => intAt g t a l i + intOf t (elt t.shape.1 (immLane t imm) i))) ∧
  (∀ p sat t d a imm, LaneOpFlags (.vsubImm p sat t d a imm) 12 { v := vr t d ++ vr t a } p t d
    (fun g l => Elements t fun i r => IntWritten t sat (intAt g t a l i - intOf t (elt t.shape.1 (immLane t imm) i)) r)
    (fun g l => SatSets t sat fun i => intAt g t a l i - intOf t (elt t.shape.1 (immLane t imm) i))) ∧
  (∀ p t d a imm, LaneOp (.vminImm p t d a imm) 12 { v := vr t d ++ vr t a } p t d
    fun g l => Elements t fun i r => intOf t r = min (intAt g t a l i) (intOf t (elt t.shape.1 (immLane t imm) i))) ∧
  (∀ p t d a imm, LaneOp (.vmaxImm p t d a imm) 12 { v := vr t d ++ vr t a } p t d
    fun g l => Elements t fun i r => intOf t r = max (intAt g t a l i) (intOf t (elt t.shape.1 (immLane t imm) i))) ∧
  (∀ p t d a imm, LaneOp (.vmulImm p t d a imm) 12 { v := vr t d ++ vr t a } p t d
    fun g l => Elements t fun i r =>
      (r : Int) = intAt g t a l i * intOf t (elt t.shape.1 (immLane t imm) i) % 2 ^ t.shape.1) ∧
  (∀ p t d a imm, LaneOp (.vmulhImm p t d a imm) 12 { v := vr t d ++ vr t a } p t d
    fun g l => Elements t fun i r =>
      (r : Int) = intAt g t a l i * intOf t (elt t.shape.1 (immLane t imm) i) / 2 ^ t.shape.1 % 2 ^ t.shape.1) ∧
  (∀ p d a imm, LaneOp (.vandImm p d a imm) 12 { v := [d, a] } p .b32 d
    fun g l r => ∀ j < 32, r.testBit j = ((lane (g.vget a) l).getLsbD j && imm.getLsbD j)) ∧
  (∀ p d a imm, LaneOp (.vorImm p d a imm) 12 { v := [d, a] } p .b32 d
    fun g l r => ∀ j < 32, r.testBit j = ((lane (g.vget a) l).getLsbD j || imm.getLsbD j)) ∧
  (∀ p d a imm, LaneOp (.vxorImm p d a imm) 12 { v := [d, a] } p .b32 d
    fun g l r => ∀ j < 32, r.testBit j = ((lane (g.vget a) l).getLsbD j ^^ imm.getLsbD j))

/-- R252, R258: shifts and rotations of every element, by each lane's own amounts modulo N or by one amount. -/
def Obligations.VectorShifts : Prop :=
  (∀ p t d a b, LaneOp (.vshl p t d a b) 8 { v := vr t d ++ vr t a ++ vr t b } p t d
    fun g l => Elements t fun i r => r = eltAt g t a l i * 2 ^ (eltAt g t b l i % t.shape.1) % 2 ^ t.shape.1) ∧
  (∀ p t d a b, LaneOp (.vshr p t d a b) 8 { v := vr t d ++ vr t a ++ vr t b } p t d
    fun g l => Elements t fun i r => r = eltAt g t a l i / 2 ^ (eltAt g t b l i % t.shape.1)) ∧
  (∀ p t d a b, LaneOp (.vsar p t d a b) 8 { v := vr t d ++ vr t a ++ vr t b } p t d
    fun g l => Elements t fun i r => ∀ j < t.shape.1, r.testBit j =
      (eltAt g t a l i).testBit (min (j + eltAt g t b l i % t.shape.1) (t.shape.1 - 1))) ∧
  (∀ p t d a b, LaneOp (.vrot p t d a b) 8 { v := vr t d ++ vr t a ++ vr t b } p t d
    fun g l => Elements t fun i r => ∀ j < t.shape.1, r.testBit ((j + eltAt g t b l i % t.shape.1) % t.shape.1) =
      (eltAt g t a l i).testBit j) ∧
  (∀ p t d a imm, LaneOp (.vshlImm p t d a imm) 12 { v := vr t d ++ vr t a } p t d
    fun g l => Elements t fun i r => r = eltAt g t a l i * 2 ^ (imm.toNat % t.shape.1) % 2 ^ t.shape.1) ∧
  (∀ p t d a imm, LaneOp (.vshrImm p t d a imm) 12 { v := vr t d ++ vr t a } p t d
    fun g l => Elements t fun i r => r = eltAt g t a l i / 2 ^ (imm.toNat % t.shape.1)) ∧
  (∀ p t d a imm, LaneOp (.vsarImm p t d a imm) 12 { v := vr t d ++ vr t a } p t d
    fun g l => Elements t fun i r => ∀ j < t.shape.1, r.testBit j =
      (eltAt g t a l i).testBit (min (j + imm.toNat % t.shape.1) (t.shape.1 - 1))) ∧
  (∀ p t d a imm, LaneOp (.vrotImm p t d a imm) 12 { v := vr t d ++ vr t a } p t d
    fun g l => Elements t fun i r => ∀ j < t.shape.1, r.testBit ((j + imm.toNat % t.shape.1) % t.shape.1) =
      (eltAt g t a l i).testBit j)

/-- R253, R254, R255: the bitwise operations, bit by bit, and the bit fields, counts, reversal and byte permutation. -/
def Obligations.VectorBits : Prop :=
  (∀ p d a b, LaneOp (.vand p d a b) 8 { v := [d, a, b] } p .b32 d
    fun g l r => ∀ j < 32, r.testBit j = ((lane (g.vget a) l).getLsbD j && (lane (g.vget b) l).getLsbD j)) ∧
  (∀ p d a b, LaneOp (.vor p d a b) 8 { v := [d, a, b] } p .b32 d
    fun g l r => ∀ j < 32, r.testBit j = ((lane (g.vget a) l).getLsbD j || (lane (g.vget b) l).getLsbD j)) ∧
  (∀ p d a b, LaneOp (.vxor p d a b) 8 { v := [d, a, b] } p .b32 d
    fun g l r => ∀ j < 32, r.testBit j = ((lane (g.vget a) l).getLsbD j ^^ (lane (g.vget b) l).getLsbD j)) ∧
  (∀ p d a, LaneOp (.vnot p d a) 8 { v := [d, a] } p .b32 d
    fun g l r => ∀ j < 32, r.testBit j = !(lane (g.vget a) l).getLsbD j) ∧
  (∀ p lut d a b c, LaneOp (.vlop3 p lut d a b c) 8 { v := [d, a, b, c] } p .b32 d
    fun g l r => ∀ j < 32, r.testBit j = lut.getLsbD
      (((lane (g.vget a) l).getLsbD j).toNat + 2 * ((lane (g.vget b) l).getLsbD j).toNat +
        4 * ((lane (g.vget c) l).getLsbD j).toNat)) ∧
  (∀ p t d a b, LaneOp (.vbfx p t d a b) 8 { v := [d, a, b] } p .b32 d
    fun g l r =>
      let pos := (lane (g.vget b) l).toNat % 32
      let len := min ((lane (g.vget b) l).toNat / 256 % 64) 32
      ∀ j < 32, r.testBit j =
        if j < len then (lane (g.vget a) l).getLsbD (pos + j)
        else decide (0 < len) && tySigned t && (lane (g.vget a) l).getLsbD (pos + len - 1)) ∧
  (∀ p d a b c, LaneOp (.vbfi p d a b c) 8 { v := [d, a, b, c] } p .b32 d
    fun g l r =>
      let pos := (lane (g.vget b) l).toNat % 32
      let len := min ((lane (g.vget b) l).toNat / 256 % 64) 32
      ∀ j < 32, r.testBit j =
        if pos ≤ j ∧ j < pos + len then (lane (g.vget a) l).getLsbD (j - pos) else (lane (g.vget c) l).getLsbD j) ∧
  (∀ p d a, LaneOp (.vpopc p d a) 8 { v := [d, a] } p .b32 d
    fun g l r => r = ((List.range 32).filter fun j => (lane (g.vget a) l).getLsbD j).length) ∧
  (∀ p d a, LaneOp (.vclz p d a) 8 { v := [d, a] } p .b32 d
    fun g l r => r ≤ 32 ∧ (∀ j < r, (lane (g.vget a) l).getLsbD (31 - j) = false) ∧
      (r < 32 → (lane (g.vget a) l).getLsbD (31 - r) = true)) ∧
  (∀ p d a, LaneOp (.vbrev p d a) 8 { v := [d, a] } p .b32 d
    fun g l r => ∀ j < 32, r.testBit j = (lane (g.vget a) l).getLsbD (31 - j)) ∧
  (∀ p d a b sel, LaneOp (.vprmb p d a b sel) 12 { v := [d, a, b] } p .b32 d
    fun g l r => ∀ k < 4,
      let s := sel.toNat / 256 ^ k % 256
      let x := (if s % 8 < 4 then (lane (g.vget a) l).toNat / 256 ^ (s % 8) else
        (lane (g.vget b) l).toNat / 256 ^ (s % 8 - 4)) % 256
      r / 256 ^ k % 256 = match s / 8 % 4 with | 0 => x | 1 => 0 | _ => if 128 ≤ x then 255 else 0)

/-- R187, R256, R257, R259: compares to a mask, selection, moves, and the conditional subtraction with its mask.
The model's choices: log 25. -/
def Obligations.VectorCompareSelect : Prop :=
  (∀ p c cb t d a b, t.shape.2 = 1 → Completes (.vcmp p c cb t d a b) 8 { v := vr t a ++ vr t b } [] [] [d] fun _ _ g sp q =>
    q.mget 0 = BitVec.allOnes 64 ∧ (d ≠ 0 → ∀ l < 64, inLanes (q.mget d) l = true ↔
      inLanes (activeLanes g sp p) l = true ∧
      let x := intOf t (g.regs.lane t a l)
      let y := intOf t (g.regs.lane t b l)
      let r := match c with | .eq => x = y | .ne => x ≠ y | .lt => x < y | .le => x ≤ y | .gt => y < x | .ge => y ≤ x
      match cb with
      | .plain => r
      | .and m => r ∧ inLanes (g.mget m) l = true
      | .or m => r ∨ inLanes (g.mget m) l = true)) ∧
  (∀ p t d a b c, LaneOp (.vsel p t d a b c) 8 { v := vr t d ++ vr t a ++ vr t b } p t d
    fun g l r => r = if inLanes (g.mget c) l then g.regs.lane t a l else g.regs.lane t b l) ∧
  (∀ p t d a, LaneOp (.vmov p t d a) 8 { v := vr t d ++ vr t a } p t d fun g l r => r = g.regs.lane t a l) ∧
  (∀ p t d imm, LaneOp (.vmovi p t d imm) 12 { v := vr t d } p t d fun _ _ r => r = immLane t imm) ∧
  (∀ p t d a, LaneOp (.ktov p t d a) 8 { v := vr t d, k := [a] } p t d
    fun g _ r => r = (g.kget a).toNat % if t.wide then 2 ^ 64 else 2 ^ 32) ∧
  (∀ p t d a b, LaneOp (.vcsub p t d a b none) 8 { v := vr t d ++ vr t a ++ vr t b } p t d
    fun g l r => r = if g.regs.lane t b l ≤ g.regs.lane t a l then g.regs.lane t a l - g.regs.lane t b l
      else g.regs.lane t a l) ∧
  (∀ p t d a b m, Completes (.vcsub p t d a b (some m)) 8 { v := vr t d ++ vr t a ++ vr t b } (dests t d) [] [m]
    fun _ _ g sp q =>
      (∀ l < 64, q.lane t d l = if inLanes (activeLanes g sp p) l ∧ g.regs.lane t b l ≤ g.regs.lane t a l then
        g.regs.lane t a l - g.regs.lane t b l else if inLanes (activeLanes g sp p) l then g.regs.lane t a l
        else g.regs.lane t d l) ∧
      (m ≠ 0 → ∀ l < 64, inLanes (q.mget m) l = true ↔
        inLanes (activeLanes g sp p) l = true ∧ g.regs.lane t b l ≤ g.regs.lane t a l))

/-- R246, R248, R260, R261, R262, R273: the floating-point arithmetic of every element, under the mode that the instruction or
FCR names, with its flags merged; an immediate is the operand's 32 bits. -/
def Obligations.FloatArithmetic : Prop :=
  (∀ p rm t d a b, t.wide = false → FloatOp (.fadd p rm t d a b) 8 { v := [d, a, b] } p t d
    fun g l e => fpAdd g.regs rm t (eltAt g t a l e) (eltAt g t b l e)) ∧
  (∀ p rm t d a b, t.wide = false → FloatOp (.fsub p rm t d a b) 8 { v := [d, a, b] } p t d
    fun g l e => fpSub g.regs rm t (eltAt g t a l e) (eltAt g t b l e)) ∧
  (∀ p rm t d a b, t.wide = false → FloatOp (.fmul p rm t d a b) 8 { v := [d, a, b] } p t d
    fun g l e => fpMul g.regs rm t (eltAt g t a l e) (eltAt g t b l e)) ∧
  (∀ p t d a b, t.wide = false → FloatOp (.fmin p t d a b) 8 { v := [d, a, b] } p t d
    fun g l e => fpMin g.regs t (eltAt g t a l e) (eltAt g t b l e)) ∧
  (∀ p t d a b, t.wide = false → FloatOp (.fmax p t d a b) 8 { v := [d, a, b] } p t d
    fun g l e => fpMax g.regs t (eltAt g t a l e) (eltAt g t b l e)) ∧
  (∀ p nc np rm t d a b c, t.wide = false → FloatOp (.ffma p nc np rm t d a b c) 8 { v := [d, a, b, c] } p t d
    fun g l e => fpFma g.regs nc np rm t (eltAt g t a l e) (eltAt g t b l e) (eltAt g t c l e)) ∧
  (∀ p rm t d a imm, t.wide = false → FloatOp (.faddImm p rm t d a imm) 12 { v := [d, a] } p t d
    fun g l e => fpAdd g.regs rm t (eltAt g t a l e) (elt t.shape.1 imm.toNat e)) ∧
  (∀ p rm t d a imm, t.wide = false → FloatOp (.fsubImm p rm t d a imm) 12 { v := [d, a] } p t d
    fun g l e => fpSub g.regs rm t (eltAt g t a l e) (elt t.shape.1 imm.toNat e)) ∧
  (∀ p rm t d a imm, t.wide = false → FloatOp (.fmulImm p rm t d a imm) 12 { v := [d, a] } p t d
    fun g l e => fpMul g.regs rm t (eltAt g t a l e) (elt t.shape.1 imm.toNat e)) ∧
  (∀ p t d a imm, t.wide = false → FloatOp (.fminImm p t d a imm) 12 { v := [d, a] } p t d
    fun g l e => fpMin g.regs t (eltAt g t a l e) (elt t.shape.1 imm.toNat e)) ∧
  (∀ p t d a imm, t.wide = false → FloatOp (.fmaxImm p t d a imm) 12 { v := [d, a] } p t d
    fun g l e => fpMax g.regs t (eltAt g t a l e) (elt t.shape.1 imm.toNat e)) ∧
  (∀ p nc np rm t d a imm c, t.wide = false → FloatOp (.ffmaImm p nc np rm t d a imm c) 12 { v := [d, a, c] } p t d
    fun g l e => fpFma g.regs nc np rm t (eltAt g t a l e) (elt t.shape.1 imm.toNat e) (eltAt g t c l e))

/-- R233, R238, R240: rounding to nearest even in f32, f16, bf16 and E5M2. Where the result does not overflow, it is a code
whose value is as near to the exact one as that of any finite code; NX says whether it differs; and a tie between two
codes goes to the even one. -/
def Obligations.RoundsToNearest : Prop :=
  ∀ f ∈ [fmtF32, fmtF16, fmtBf16, fmtE5M2], ∀ (neg : Bool) (num den : Nat), 0 < num → 0 < den →
    let r := roundTo f .rne false false neg num den
    let x : ℚ := (if neg then -1 else 1) * num / den
    r.2.testBit 2 = false →
      ∃ v, (unpack f r.1).toRat = some v ∧ r.1 < 2 ^ (1 + f.e + f.p) ∧
        (r.2.testBit 4 = true ↔ v ≠ x) ∧
        ∀ y < 2 ^ (1 + f.e + f.p), ∀ w, (unpack f y).toRat = some w →
          |v - x| ≤ |w - x| ∧ (|v - x| = |w - x| → w ≠ v → r.1 % 2 = 0)

/-- R233, R235, R236, R240: the four modes on a number of units of 2^q: nearest with ties to even, toward zero, down and up,
and whether the value changed. Addition and multiplication at their special values: a NaN operand gives the canonical NaN,
with IV if it signals; ∞ − ∞ and 0 × ∞ give it with IV; an exact zero sum of opposite signs is −0 under RD only; otherwise
one rounding of the exact sum or product. -/
def Obligations.FloatArithmeticRules : Prop :=
  (∀ (m : RMode) (neg : Bool) (num den : Nat) (q : Int), 0 < den →
    let r := roundUnits m neg num den q
    let x : ℚ := num / den / 2 ^ q
    (r.2 = true ↔ (r.1 : ℚ) ≠ x) ∧ |(r.1 : ℚ) - x| < 1 ∧
    (m = .rne → |(r.1 : ℚ) - x| ≤ 1 / 2 ∧ (|(r.1 : ℚ) - x| = 1 / 2 → r.1 % 2 = 0)) ∧
    (m = .rz → (r.1 : ℚ) ≤ x) ∧
    (m = .rd → if neg then x ≤ r.1 else (r.1 : ℚ) ≤ x) ∧
    (m = .ru → if neg then (r.1 : ℚ) ≤ x else x ≤ r.1)) ∧
  (∀ (f : Fmt) (m : RMode) (ftz : Bool),
    (∀ (k : Bool) (y : FV), fAdd f m ftz (.nan k) y = (f.qnan, if k || y.snan then 1 else 0) ∧
      fAdd f m ftz y (.nan k) = (f.qnan, if k || y.snan then 1 else 0) ∧
      fMul f m ftz (.nan k) y = (f.qnan, if k || y.snan then 1 else 0) ∧
      fMul f m ftz y (.nan k) = (f.qnan, if k || y.snan then 1 else 0)) ∧
    (∀ a b, fAdd f m ftz (.inf a) (.inf b) = if a = b then (f.sign a + f.infCode, 0) else (f.qnan, 1)) ∧
    (∀ a n x y, fAdd f m ftz (.inf a) (.fin n x y) = (f.sign a + f.infCode, 0) ∧
      fAdd f m ftz (.fin n x y) (.inf a) = (f.sign a + f.infCode, 0)) ∧
    (∀ a n x y, fMul f m ftz (.inf a) (.fin n x y) = (if x = 0 then (f.qnan, 1) else (f.sign (a != n) + f.infCode, 0)) ∧
      fMul f m ftz (.fin n x y) (.inf a) = (if x = 0 then (f.qnan, 1) else (f.sign (n != a) + f.infCode, 0))) ∧
    (∀ a b, fMul f m ftz (.inf a) (.inf b) = (f.sign (a != b) + f.infCode, 0)) ∧
    (∀ a (x y : Nat) n (u v : Nat), 0 < y → 0 < v →
      let sum : ℚ := (if a then -1 else 1) * x / y + (if n then -1 else 1) * u / v
      (sum = 0 → fAdd f m ftz (.fin a x y) (.fin n u v) = (f.sign (if a = n then a else decide (m = .rd)), 0)) ∧
      (sum ≠ 0 → ∃ num den : Nat, 0 < den ∧ (num : ℚ) / den = |sum| ∧
        fAdd f m ftz (.fin a x y) (.fin n u v) = roundTo f m ftz false (decide (sum < 0)) num den)) ∧
    (∀ a x y n u v, fMul f m ftz (.fin a x y) (.fin n u v) = roundTo f m ftz false (a != n) (x * u) (y * v)))

/-- R256, R263, R267, R268, R269, R270, R272, R274: the compare to a mask with its flags, the class, the rounding to integral
values, the conversion of one element, the dequantisation, and FSTAT, which reads FSR and with CLR clears it.
The model's choices: that FCMP writes its mask without an active lane too, log 25. -/
def Obligations.FloatOthers : Prop :=
  (∀ p c cb d a b, Steps (.fcmp p c cb d a b) { v := [a, b] } [] [] [d] fun _ _ g sp g' sp' =>
    let r := fun l => fCompare c (ftzOf g.regs) (lane (g.vget a) l).toNat (lane (g.vget b) l).toNat
    (∃ e, Goes { sp with eff := e } sp' (sp.pc + 8)) ∧ g'.mget 0 = BitVec.allOnes 64 ∧
    (d ≠ 0 → ∀ l < 64, inLanes (g'.mget d) l = true ↔ inLanes (activeLanes g sp p) l = true ∧
      match cb with
      | .plain => (r l).1 = true
      | .and m => (r l).1 = true ∧ inLanes (g.mget m) l = true
      | .or m => (r l).1 = true ∨ inLanes (g.mget m) l = true) ∧
    FlagsMerge g g' sp sp' (activeLanes g sp p) fun l i => (r l).2.testBit i = true) ∧
  (∀ p t d a, t.wide = false → LaneOp (.fclass p t d a) 8 { v := [d, a] } p t d
    fun g l => Elements t fun e r => r = fClass (fmtOf t) (eltAt g t a l e) % 2 ^ t.shape.1) ∧
  (∀ p exact rm t d a, t.wide = false → FloatOp (.frnd p exact rm t d a) 8 { v := [d, a] } p t d
    fun g l e => fRound (fmtOf t) (resolveRm g.regs rm) (ftzOf g.regs) exact (eltAt g t a l e)) ∧
  (∀ p rm sat nosat dt t d a spos dpos, dpos < dt.shape.2 →
    LaneOpFlags (.cvt p rm sat nosat dt t d a spos dpos) 8 { v := vr dt d ++ vr t a } p dt d
      (fun g l => Elements dt fun e r => r =
        if e = dpos then (convert t dt (resolveRm g.regs rm) sat nosat (ftzOf g.regs) (eltAt g t a l spos)).1 % 2 ^ dt.shape.1
        else eltAt g dt d l e)
      fun g l i => (convert t dt (resolveRm g.regs rm) sat nosat (ftzOf g.regs) (eltAt g t a l spos)).2.testBit i = true) ∧
  (∀ p t d ks a, t.wide = false → LaneOpFlags (.dqmx p t d ks a) 12 { v := [d, a], k := [ks] } p .f32 d
    (fun g l r => r = (dequantise (fmtOf t) ((g.kget ks).toNat / 2 ^ (8 * (l / 32)) % 2 ^ 8)
      (eltAt g t a (32 * (l / 32) + l % 32 / t.shape.2) (l % 32 % t.shape.2))).1 % 2 ^ 32)
    fun g l i => (dequantise (fmtOf t) ((g.kget ks).toNat / 2 ^ (8 * (l / 32)) % 2 ^ 8)
      (eltAt g t a (32 * (l / 32) + l % 32 / t.shape.2) (l % 32 % t.shape.2))).2.testBit i = true) ∧
  (∀ clr d, Steps (.fstat clr d) { k := [d], drain := true } [] [d] [] fun _ _ g sp g' sp' =>
    Goes sp sp' (sp.pc + 8) ∧ g'.kget 0 = 0 ∧ (d ≠ 0 → g'.kget d = g.regs.fsr) ∧
    g'.regs.fsr = if clr then 0 else g.regs.fsr)

/-- R57, R60, R241, R243, R264, R265, R266, R271: the long-latency floating-point instructions fix their results and flags at issue
and write nothing yet; when the last lanes of one return, its values stand in its registers, its flags are in FSR, its window
is done and it is no longer outstanding; other registers and lanes keep theirs. QMX's codes go, packed, to the active ones of the
first lanes of each block, its scales to kS, and a block's flags to each of its active lanes.
The model's choices: log 8, and that QMX writes kS without an active lane too, log 25. -/
def Obligations.FloatLongLatency : Prop :=
  (∀ p d a la, StartsLong (.frcp p d a la) 8 { v := [d, a] } p .f32 d la
    fun g l => sfRcp (ftzOf g.regs) (lane (g.vget a) l).toNat) ∧
  (∀ p d a la, StartsLong (.frsq p d a la) 8 { v := [d, a] } p .f32 d la
    fun g l => sfRsq (ftzOf g.regs) (lane (g.vget a) l).toNat) ∧
  (∀ p rm d a la, StartsLong (.fsqrt p rm d a la) 8 { v := [d, a] } p .f32 d la
    fun g l => sfSqrt (resolveRm g.regs rm) (ftzOf g.regs) (lane (g.vget a) l).toNat) ∧
  (∀ p d a la, StartsLong (.fexp2 p d a la) 8 { v := [d, a] } p .f32 d la
    fun g l => sfExp2 (ftzOf g.regs) (lane (g.vget a) l).toNat) ∧
  (∀ p d a la, StartsLong (.flog2 p d a la) 8 { v := [d, a] } p .f32 d la
    fun g l => sfLog2 (ftzOf g.regs) (lane (g.vget a) l).toNat) ∧
  (∀ p d a la, StartsLong (.fsin p d a la) 8 { v := [d, a] } p .f32 d la
    fun g l => sfTrig false (ftzOf g.regs) (lane (g.vget a) l).toNat) ∧
  (∀ p d a la, StartsLong (.fcos p d a la) 8 { v := [d, a] } p .f32 d la
    fun g l => sfTrig true (ftzOf g.regs) (lane (g.vget a) l).toNat) ∧
  (∀ p rm d a b la, StartsLong (.fdiv p rm d a b la) 8 { v := [d, a, b] } p .f32 d la
    fun g l => fpElt2 g.regs rm .f32 fDivide (lane (g.vget a) l).toNat (lane (g.vget b) l).toNat) ∧
  (∀ p t d ks a bias la s key g sp b, Issues s key g sp b → Clear s key b g sp { v := [d, a], k := [ks], long := true } →
    ∃ t' g' sp' x, exec (.qmx p t d ks a bias la) s = .next t' ∧ t'.gang? key = some g' ∧ g'.split? = some sp' ∧
      g'.regs = g.regs ∧ sp'.pc = sp.pc + 12 ∧ (∀ a, t'.byte a = s.byte a) ∧ t'.long? s.uid = some x ∧
      x.gang = key ∧ x.split = sp.uid ∧
      (∃ w ∈ sp'.windows, w.op = s.uid ∧ w.left = la ∧ w.done = false ∧ w.dv = [d] ∧ w.dk = [ks]) ∧
      ∃ q : Nat → Nat × List Nat × Nat,
        (∀ c < 2, q c = if (∃ i < 32, inLanes (activeLanes g sp p) (32 * c + i) = true) then
          quantise (fmtOf t) bias.toInt ((List.range 32).map fun i =>
            if inLanes (activeLanes g sp p) (32 * c + i) then (lane (g.vget a) (32 * c + i)).toNat else 0)
          else (0, List.replicate 32 0, 0)) ∧
        x.ks = [(ks, BitVec.ofNat 64 ((q 0).1 + 256 * (q 1).1))] ∧
        x.flags = (laneList (activeLanes g sp p)).map (fun l => (l, (q (l / 32)).2.2)) ∧
        (∀ l, (∃ r, (d, l, r) ∈ x.vs) ↔ inLanes (activeLanes g sp p) l = true ∧ l % 32 < 32 / t.shape.2) ∧
        (t.wide = false → ∀ v ∈ x.vs, v.1 = d ∧ ∀ j < t.shape.2, elt t.shape.1 v.2.2.toNat j =
          (q (v.2.1 / 32)).2.1.getD (v.2.1 % 32 * t.shape.2 + j) 0 % 2 ^ t.shape.1)) ∧
  (∀ (op : Nat) (lanes : Lanes) s x g, s.long? op = some x → x.array = false → s.gang? x.gang = some g →
      (∀ e ∈ x.vs, e.2.1 < 64 ∧ inLanes lanes e.2.1 = true) → (x.vs.map fun e => (e.1, e.2.1)).Nodup →
    ∃ t g', exec (.longLatencyComplete op lanes) s = .next t ∧ Quiet s { t with longs := s.longs } x.gang ∧
      t.gang? x.gang = some g' ∧ t.long? op = none ∧ (∀ o, o ≠ op → t.long? o = s.long? o) ∧
      (∀ e ∈ x.vs, lane (g'.vget e.1) e.2.1 = e.2.2) ∧
      (∀ r l, l < 64 → (∀ e ∈ x.vs, ¬(e.1 = r ∧ e.2.1 = l)) → lane (g'.vget r) l = lane (g.vget r) l) ∧
      (∀ k, (∀ e ∈ x.ks, e.1 ≠ k) → g'.kget k = g.kget k) ∧
      (∀ i < 7, g'.regs.fsr.getLsbD i = true ↔ g.regs.fsr.getLsbD i = true ∨ ∃ e ∈ x.flags, e.2.testBit i = true) ∧
      ∀ i sp', tget none g'.splits i = some sp' → ∀ w ∈ sp'.windows, w.op = op → w.done = true)

/-- R275, R276, R278, R279, R280: SHFL reads the source lane of its mode within its segment, active or not; BALLOT, VOTE and
VLANE; MATCH fixes ranks, counts or last marks among the active lanes of its segment that hold the same bits.
The model's choices: log 25. -/
def Obligations.CrossLane : Prop :=
  (∀ p mode w t d a o, LaneOp (.shfl p mode w t d a o) 8
    { v := vr t d ++ vr t a ++ match o with | .reg b => vr t b | .imm _ => [] } p t d fun g l r =>
      let n := 2 ^ (w + 1)
      let x := match o with | .reg b => (lane (g.vget b) l).toNat % 256 | .imm i => i.toNat
      let from1 := match mode with
        | .idx => l / n * n + x % n
        | .xor => l / n * n + (l % n ^^^ x) % n
        | .up => if x ≤ l % n then l - x else l
        | .down => if l % n + x < n then l + x else l
      r = g.regs.lane t a from1) ∧
  (∀ p d a, GivesM (.ballot p (.mask d) a) 8 { v := [a] } d fun g sp r => ∀ l < 64, inLanes r l = true ↔
    inLanes (activeLanes g sp p) l = true ∧ lane (g.vget a) l ≠ 0) ∧
  (∀ p d a, GivesK (.ballot p (.uni d) a) 8 { v := [a], k := [d] } d fun _ _ g sp r => ∀ l < 64, inLanes r l = true ↔
    inLanes (activeLanes g sp p) l = true ∧ lane (g.vget a) l ≠ 0) ∧
  (∀ p v d a, GivesK (.vote p v d a) 8 { v := [a], k := [d] } d fun _ _ g sp r =>
    let yes := ∃ l < 64, inLanes (activeLanes g sp p) l = true ∧ lane (g.vget a) l ≠ 0
    let all := ∀ l < 64, inLanes (activeLanes g sp p) l = true → lane (g.vget a) l ≠ 0
    let holds := match v with | .any => yes | .all => all | .none => ¬yes
    (holds → r = 1) ∧ (¬holds → r = 0)) ∧
  (∀ p o d, LaneOp (.vlane p o d) 8 { v := [d] } p .b32 d fun g l r => o ≠ .rank →
    r = (match o with | .blk => 64 * g.idx + l | _ => l) % 2 ^ 32) ∧
  (∀ p d, Completes (.vlane p .rank d) 8 { v := [d] } [d] [] [] fun _ _ g sp q =>
    ∀ l < 64, inLanes (activeLanes g sp p) l = true →
      (lane (q.vget d) l).toNat = ((List.range l).filter fun k => inLanes (activeLanes g sp p) k).length) ∧
  (∀ p o w t d a la s key g sp b, Issues s key g sp b → Clear s key b g sp { v := d :: vr t a, long := true } →
      activeLanes g sp p ≠ 0 →
    ∃ t' g' sp' x, exec (.matchLanes p o w t d a la) s = .next t' ∧ t'.gang? key = some g' ∧ g'.split? = some sp' ∧
      g'.regs = g.regs ∧ sp'.pc = sp.pc + 8 ∧ (∀ a, t'.byte a = s.byte a) ∧ t'.long? s.uid = some x ∧ x.gang = key ∧
      x.flags = [] ∧ (∃ y ∈ sp'.windows, y.op = s.uid ∧ y.left = la ∧ y.done = false ∧ y.dv = [d]) ∧
      x.vs = (laneList (activeLanes g sp p)).map fun l =>
        let same := (laneList (activeLanes g sp p)).filter fun k =>
          decide (k / 2 ^ (w + 1) = l / 2 ^ (w + 1)) && decide (g.regs.lane t a k = g.regs.lane t a l)
        (d, l, match o with
          | .rank => BitVec.ofNat 32 (same.filter (· < l)).length
          | .count => BitVec.ofNat 32 same.length
          | .last => if same.any (l < ·) then 0 else 1))

/-- R277, R57: VRED and VSCAN fix at issue, for each active lane, its place's value in its segment's tree, inactive lanes
counting as the operation's identity; every active lane carries its segment's flags. On integers the trees give what a sum
in lane order gives: a reduction the sum of its segment in every place, a scan the sum up to its place, an exclusive one the
sum before it, all modulo 2^N.
The model's choices: log 25. -/
def Obligations.Reductions : Prop :=
  (∀ p op w t d a la s key g sp b, Issues s key g sp b → Clear s key b g sp { v := vr t d ++ vr t a, long := true } → w < 6 →
      activeLanes g sp p ≠ 0 →
    ∃ t' g' sp' x, exec (.vred p op w t d a la) s = .next t' ∧ t'.gang? key = some g' ∧ g'.split? = some sp' ∧
      g'.regs = g.regs ∧ sp'.pc = sp.pc + 8 ∧ (∀ a, t'.byte a = s.byte a) ∧ t'.long? s.uid = some x ∧ x.gang = key ∧
      (∃ y ∈ sp'.windows, y.op = s.uid ∧ y.left = la ∧ y.done = false ∧ y.dv = dests t d) ∧
      ∀ l < 64, inLanes (activeLanes g sp p) l = true → ∃ vs fl,
        redTree g.regs op t (w + 1) ((List.range (2 ^ (w + 1))).map fun j =>
          if inLanes (activeLanes g sp p) (l / 2 ^ (w + 1) * 2 ^ (w + 1) + j) then
            g.regs.lane t a (l / 2 ^ (w + 1) * 2 ^ (w + 1) + j) else redIdentity op t) = (vs, fl) ∧
        (d, l, BitVec.ofNat 32 (vs.getD (l % 2 ^ (w + 1)) 0)) ∈ x.vs ∧ (l, fl) ∈ x.flags) ∧
  (∀ p excl op w t d a la s key g sp b, Issues s key g sp b → Clear s key b g sp { v := vr t d ++ vr t a, long := true } →
      w < 6 → activeLanes g sp p ≠ 0 →
    ∃ t' g' sp' x, exec (.vscan p excl op w t d a la) s = .next t' ∧ t'.gang? key = some g' ∧ g'.split? = some sp' ∧
      g'.regs = g.regs ∧ sp'.pc = sp.pc + 8 ∧ (∀ a, t'.byte a = s.byte a) ∧ t'.long? s.uid = some x ∧ x.gang = key ∧
      (∃ y ∈ sp'.windows, y.op = s.uid ∧ y.left = la ∧ y.done = false ∧ y.dv = dests t d) ∧
      ∀ l < 64, inLanes (activeLanes g sp p) l = true → ∃ vs fl,
        scanTree g.regs op t excl (w + 1) ((List.range (2 ^ (w + 1))).map fun j =>
          if inLanes (activeLanes g sp p) (l / 2 ^ (w + 1) * 2 ^ (w + 1) + j) then
            g.regs.lane t a (l / 2 ^ (w + 1) * 2 ^ (w + 1) + j) else redIdentity op t) = (vs, fl) ∧
        (d, l, BitVec.ofNat 32 (vs.getD (l % 2 ^ (w + 1)) 0)) ∈ x.vs ∧ (l, fl) ∈ x.flags) ∧
  (∀ (g : Regs) (t : Ty) (n : Nat) (vs : List Nat), vs.length = 2 ^ n → (∀ v ∈ vs, v < 2 ^ t.shape.1) →
    (∀ j < 2 ^ n, ((redTree g .add t n vs).1.getD j 0 : Int) = (vs.map (intOf t)).sum % 2 ^ t.shape.1) ∧
    (∀ j < 2 ^ n, ((scanTree g .add t false n vs).1.getD j 0 : Int) = ((vs.take (j + 1)).map (intOf t)).sum % 2 ^ t.shape.1) ∧
    (∀ j < 2 ^ n, ((scanTree g .add t true n vs).1.getD j 0 : Int) = ((vs.take j).map (intOf t)).sum % 2 ^ t.shape.1))

/-- R61 to R64, R281: a pair word gives each slot's destination what the slot's instruction alone would give it, both slots
reading before either writes, and FSR the flags of both. -/
def Obligations.PairWord : Prop :=
  ∀ (s0 s1 : PairSlot) s key g sp b, Issues s key g sp b →
      Clear s key b g sp { v := s0.d :: s1.d :: (s0.reads ++ s1.reads) } → s0.t.wide = false → s1.t.wide = false →
      s0.d ≠ s1.d →
    ∃ t g' sp' t0 g0 t1 g1, exec (.pair s0 s1) s = .next t ∧ GangStep s t key g g' sp' [s0.d, s1.d] [] [] ∧
      (∃ e, Goes { sp with eff := e } sp' (sp.pc + 16)) ∧
      exec (slotInstr s0) s = .next t0 ∧ t0.gang? key = some g0 ∧ exec (slotInstr s1) s = .next t1 ∧
      t1.gang? key = some g1 ∧ g'.vget s0.d = g0.vget s0.d ∧ g'.vget s1.d = g1.vget s1.d ∧
      g'.regs.fsr = g0.regs.fsr ||| g1.regs.fsr


/-- R94, R99 to R102, R105, R106: what each memory instruction asks for. A lane's address is the base register plus the index
lane extended with its sign plus the displacement; the active lanes stand in ascending order.
The model's choices: log 23, 24, 25. -/
def Obligations.AccessesIssue : Prop :=
  (∀ p w t o sc spc d m la, Sends (.ld p w t o sc spc d m la)
    { v := vr t d ++ (memUse m).1, k := (memUse m).2, scope := some sc, count := 1, throttled := true, long := true }
    (fun g sp => { blankReq with
      kind := .load (tySigned t), space := spc, scope := sc, ord := o, dest := .vec d t.wide, counted := 1,
      elems := laneElems (activeLanes g sp p) (effAddr g.regs m) (widthBytes w t) (fun _ => 0) (fun _ => 0) })
    la (vr t d) []) ∧
  (∀ p w t o sc spc m c, Sends (.st p w t o sc spc m c)
    { v := widthRegs w t c ++ (memUse m).1, k := (memUse m).2, scope := some sc, count := 2, throttled := true }
    (fun g sp => { blankReq with
      kind := .store, space := spc, scope := sc, ord := o, counted := 2,
      elems := laneElems (activeLanes g sp p) (effAddr g.regs m) (widthBytes w t)
        (fun l => dw (g.regs.lane t c l)) (fun _ => 0) }) 0 [] []) ∧
  (∀ w t o sc spc d m la, spc ≠ .engine → Sends (.ldk w t o sc spc d m la)
    { k := [d, m.base], scope := some sc, count := 1, throttled := true, long := true }
    (fun g _ => { blankReq with
      uni := true, kind := .load (tySigned t), space := spc, scope := sc, ord := o, dest := .uni d, counted := 1,
      elems := uniElem (g.kget m.base + sx32 m.disp) (widthBytes w t) 0 0 }) la [] [d]) ∧
  (∀ w t o sc spc m c, spc ≠ .engine → Sends (.stk w t o sc spc m c)
    { k := [c, m.base], scope := some sc, count := 2, throttled := true }
    (fun g _ => { blankReq with
      uni := true, kind := .store, space := spc, scope := sc, ord := o, counted := 2,
      elems := uniElem (g.kget m.base + sx32 m.disp) (widthBytes w t) (g.kget c) 0 }) 0 [] []) ∧
  (∀ p op ret t o sc spc d m la, Sends (.atom p op ret t o sc spc d m la)
    { v := atomRegs op t d ++ (memUse m).1, k := (memUse m).2, scope := some sc, count := (if ret then 1 else 2),
      throttled := true, long := ret }
    (fun g sp => { blankReq with
      kind := .atom op t ret, space := spc, scope := sc, ord := o, dest := (if ret then .vec d t.wide else .none),
      counted := (if ret then 1 else 2),
      elems := laneElems (activeLanes g sp p) (effAddr g.regs m) (widthBytes .full t)
        (fun l => dw (g.regs.lane t (if op = .cas then d + (if t.wide then 2 else 1) else d) l))
        (fun l => dw (g.regs.lane t d l)) }) la (if ret then vr t d else []) []) ∧
  (∀ op t o sc spc d m la, Sends (.atomk op t o sc spc d m la)
    { k := [d, m.base] ++ (if op = .cas then [d + 1] else []), scope := some sc, count := 1, throttled := true, long := true }
    (fun g _ => { blankReq with
      uni := true, kind := .atom op t true, space := spc, scope := sc, ord := o, dest := .uni d, counted := 1,
      elems := uniElem (g.kget m.base + sx32 m.disp) (widthBytes .full t)
        (g.kget (if op = .cas then d + 1 else d)) (g.kget d) }) la [] [d]) ∧
  (∀ p t o sc d m la, Sends (.lr p t o sc d m la)
    { v := vr t d ++ (memUse m).1, k := (memUse m).2, scope := some sc, count := 1, throttled := true, long := true }
    (fun g sp => { blankReq with
      kind := .lr, scope := sc, ord := o, dest := .vec d t.wide, counted := 1,
      elems := laneElems (activeLanes g sp p) (effAddr g.regs m) (widthBytes .full t) (fun _ => 0) (fun _ => 0) })
    la (vr t d) []) ∧
  (∀ p t o sc d m c la, Sends (.sc p t o sc d m c la)
    { v := d :: vr t c ++ (memUse m).1, k := (memUse m).2, scope := some sc, count := 1, throttled := true, long := true }
    (fun g sp => { blankReq with
      kind := .sc, scope := sc, ord := o, dest := .vec d false, counted := 1,
      elems := laneElems (activeLanes g sp p) (effAddr g.regs m) (widthBytes .full t)
        (fun l => dw (g.regs.lane t c l)) (fun _ => 0) }) la [d] [])

/-- R107, R108, R119 to R122: FENCE adds the gang's outstanding accesses to what the split's later loads and stores wait for;
PREF changes no byte and no register, starts the walks of the lanes that miss, and moves the line of one that hits into the die
store or the core's L1, shared or owned, where its home takes the access now and there is room; TWAIT waits for the gang's GOs to
be decided, continues once one of its tags, or all, is ready and writes those that are, and otherwise waits, its mask fixed, and
lets the next ready split issue; TFIRST writes the lowest ready tag; TCLR frees ready tags and writes those busy; GSET sets a
guard, and the gang's commands that name it, at the head of the stream or in the replay store, proceed on true, are discarded on
false and stay as they are while it is unresolved.
The model's choices: log 18, 36, 37, 74. -/
def Obligations.FencesTagsGuards : Prop :=
  (∀ k sc s key g sp b, Issues s key g sp b → Clear s key b g sp { scope := some sc } →
    ∃ t g' sp', exec (.fence k sc) s = .next t ∧
      GangFrame (if k = .rel then s else forgetAhead s key) t key g g' sp' ∧ g'.regs = g.regs ∧
      sp'.pc = sp.pc + 8 ∧ sp'.exm = sp.exm ∧ sp'.lanes = sp.lanes ∧ sp'.wait = .ready ∧
      ∀ x, performedUid s x = false →
        (x ∈ sp'.ldDeps ↔ x ∈ sp.ldDeps ∨
          match k with | .acq => x ∈ pendingLoads s key | .rel => False | .ar => x ∈ pendingLoads s key | .sc => x ∈ pendingOf s key) ∧
        (x ∈ sp'.stDeps ↔ x ∈ sp.stDeps ∨
          match k with | .acq => x ∈ pendingLoads s key | _ => x ∈ pendingOf s key)) ∧
  (∀ p lvl m s key g sp b, Issues s key g sp b →
      Clear s key b g sp { v := (memUse m).1, k := (memUse m).2, throttled := true } →
    ∃ t g' sp', exec (.pref p lvl m) s = .next t ∧ t.gang? key = some g' ∧ g'.split? = some sp' ∧ g'.regs = g.regs ∧
      Goes sp sp' (sp.pc + 12) ∧ (∀ a, t.byte a = s.byte a) ∧ (∀ a, t.sbyte a = s.sbyte a) ∧ t.blocks = s.blocks ∧
      (∀ k h, s.gang? k = some h → ∃ h', t.gang? k = some h' ∧ h'.regs = h.regs ∧ h'.live = h.live) ∧
      (∀ x ∈ s.walks, x ∈ t.walks) ∧
      (∀ l < 64, inLanes (activeLanes g sp p) l = true → ∀ v, checkGlobal s b.core b.ctx true false (effAddr g.regs m l) = .miss v →
        (b.core, b.ctx, v) ∈ t.walks) ∧
      ∀ l x, laneList (activeLanes g sp p) = [l] → checkGlobal s b.core b.ctx true false (effAddr g.regs m l) = .ok x →
          x.scr = false → homeReady s x = true → (∀ k ∈ homeKeys x.addr, tget [] s.aged k = []) →
          (isHbm x.addr = true → waitersAt s (channelOf x.addr) = [] ∧ chanClosed s (channelOf x.addr) = false) →
          (∀ i < 4, s.poisoned (x.addr / 128 * 4 + i) = false ∧ tget 0 s.mem.errors (x.addr / 128 * 4 + i) < 2) →
        (lvl = .ds → ∀ i < 4, (tget 0 t.mem.store (x.addr / 128)).testBit i = true) ∧
        (lvl ≠ .ds → l1Room s b.core (x.addr / 128) = true → ∃ y, t.l1? b.core (x.addr / 128) = some y ∧
          (∀ i < 4, y.filled.testBit i = true) ∧ (lvl = .l1w → y.owned = true))) ∧
  (∀ all d a s key g sp b, Issues s key g sp b → Clear s key b g sp { k := [d, a] } → goPending s key = true →
    ∃ t g', exec (.twait all d a) s = .next t ∧ Quiet s t key ∧ t.gang? key = some g' ∧ g'.regs = g.regs ∧
      g'.splits = g.splits ∧ g'.cur = (nextReady g).getD g.cur) ∧
  (∀ all d a s key g sp b, Issues s key g sp b → Clear s key b g sp { k := [d, a] } → goPending s key = false →
    let asked := g.kget a &&& tagWindow b
    let m := asked &&& (b.busy ||| b.ready)
    let ok := if all then b.ready &&& m = m else b.ready &&& m ≠ 0 ∨ m = 0
    (ok → ∃ t g' sp', exec (.twait all d a) s = .next t ∧ GangStep (forgetAhead s key) t key g g' sp' [] [d] [] ∧
      g'.regs.fsr = g.regs.fsr ∧ Goes sp sp' (sp.pc + 8) ∧ g'.kget 0 = 0 ∧ (d ≠ 0 → g'.kget d = b.ready &&& asked)) ∧
    (¬ok → ∃ t g' sp', exec (.twait all d a) s = .next t ∧ Quiet s t key ∧ t.gang? key = some g' ∧ g'.regs = g.regs ∧
      tget none g'.splits g.cur = some sp' ∧ Goes { sp with wait := .atTags all m asked d } sp' sp.pc ∧
      (∀ i, i ≠ g.cur → tget none g'.splits i = tget none g.splits i) ∧ g'.cur = (nextReady g).getD g.cur)) ∧
  (∀ d a, GivesK (.tfirst d a) 8 { k := [d, a] } d fun _ b g _ r =>
    let m := b.ready &&& g.kget a &&& tagWindow b
    if m = 0 then r = BitVec.allOnes 64 else m.getLsbD r.toNat = true ∧ ∀ i < r.toNat, m.getLsbD i = false) ∧
  (∀ d a s key g sp b, Issues s key g sp b → Clear s key b g sp { k := [d, a] } →
    let m := g.kget a &&& tagWindow b
    ∃ t g' sp' b', exec (.tclr d a) s = .next t ∧ t.gang? key = some g' ∧ g'.split? = some sp' ∧ Goes sp sp' (sp.pc + 8) ∧
      RegsKeep g.regs g'.regs [] [d] [] ∧ g'.regs.fsr = g.regs.fsr ∧ g'.kget 0 = 0 ∧ (d ≠ 0 → g'.kget d = m &&& b.busy) ∧
      (∀ x, t.byte x = s.byte x) ∧ t.block? g.block = some b' ∧ b'.busy = b.busy ∧ b'.ready = b.ready &&& ~~~m ∧
      (∀ i < 64, (m &&& b.ready).getLsbD i = true → b'.tdisc.getLsbD i = false ∧ b'.tfault.getLsbD i = false) ∧
      (∀ i < 64, (m &&& b.ready).getLsbD i = false → b'.tdisc.getLsbD i = b.tdisc.getLsbD i ∧
        b'.tfault.getLsbD i = b.tfault.getLsbD i)) ∧
  (∀ n src s key g sp b, Issues s key g sp b →
      Clear s key b g sp { k := (match src with | .reg a => [a] | _ => []), guard := n } →
    let v : Guard := match src with
      | .reg a => if g.kget a = 0 then .isFalse else .isTrue
      | .setFalse => .isFalse
      | .setTrue => .isTrue
      | .setUnresolved => .unresolved
    ((∀ e ∈ tentries s.cmds, e.2.gang ≠ key) →
      ∃ t g' sp', exec (.gset n src) s = .next t ∧ GangFrame s t key g g' sp' ∧ Goes sp sp' (sp.pc + 8) ∧
        (∀ i, g'.vget i = g.vget i ∧ g'.kget i = g.kget i ∧ g'.mget i = g.mget i) ∧ g'.regs.fsr = g.regs.fsr ∧
        (∀ i, i ≠ n → g'.regs.gget i = g.regs.gget i) ∧ g'.regs.gget n = v) ∧
    (n ≠ 0 → v ≠ .isFalse → (∀ e ∈ tentries s.cmds, e.2.gang = key → e.2.guard = n ∨ e.2.guard = 0) →
      ∃ t g' sp', exec (.gset n src) s = .next t ∧ t.gang? key = some g' ∧ g'.split? = some sp' ∧ Goes sp sp' (sp.pc + 8) ∧
        g'.regs = { g.regs with g := g'.regs.g } ∧ g'.regs.gget n = v ∧ (∀ i, i ≠ n → g'.regs.gget i = g.regs.gget i) ∧
        (∀ a, t.byte a = s.byte a) ∧ (v = .unresolved → t.cmds = s.cmds) ∧
        (v = .isTrue → ∀ u c, s.cmd? u = some c → c.gang = key → c.guard = n → c.started = false →
            atHead s u c = true ∨ c.bounced = true →
          ∃ c', t.cmd? u = some c' ∧ c' = { c with passed := true, bounced := c'.bounced } ∧
            (c'.bounced = true ↔ c.bounced = true ∧ c.cause ≠ 3))) ∧
    (∀ u c, n ≠ 0 → v = .isFalse → (tentries s.cmds).filter (fun e => e.2.gang == key) = [(u, c)] → s.cmd? u = some c →
        c.guard = n → c.started = false → c.passed = false → c.op ≠ 2 → atHead s u c = true ∨ c.bounced = true →
      ∃ t g' b', exec (.gset n src) s = .next t ∧ t.gang? key = some g' ∧ g'.regs.gget n = v ∧ t.cmd? u = none ∧
        (∀ a, t.byte a = s.byte a) ∧ t.block? g.block = some b' ∧ b'.busy.getLsbD c.tag = false ∧
        b'.ready.getLsbD c.tag = true ∧ b'.tdisc.getLsbD c.tag = true))

/-- R5, R109 to R112, R118: the engine window. An access beyond it or misaligned takes PROTECTION with BOUND, a store to a
read-only register ENGINE_RO. With nothing of the gang outstanding, a store fills its CMD register at once and a load has its
value, the Reserved fields of CMD3 zero; a GO that finds its engine queue full bounces; any other is decided by the first row of
R112 that holds, INCOMPLETE (4), BADCMD (16), BUSYTAG (8) or ACCEPTED (2): STATUS keeps the tag of the last accepted one, the
written bits are clear, and only an accepted GO makes its tag busy, clears the tag's other bits and enters the stream.
The model's choices: log 12, 19, 23. -/
def Obligations.EngineWindow : Prop :=
  ∀ s key g sp b, Issues s key g sp b →
    (∀ w t o sc m c, Clear s key b g sp { k := [c, m.base], throttled := true } →
      let ea := g.kget m.base + sx32 m.disp
      (0x40 ≤ ea.toNat ∨ ea.toNat % 8 ≠ 0 →
        ∃ t', exec (.stk w t o sc .engine m c) s = .next t' ∧ Trapped s t' key g b sp.pc 3 1 0 sp.exm (some 12)) ∧
      (ea.toNat < 0x40 → ea.toNat % 8 = 0 → 0x28 ≤ ea.toNat →
        ∃ t', exec (.stk w t o sc .engine m c) s = .next t' ∧ Trapped s t' key g b sp.pc 3 5 0 sp.exm (some 12)) ∧
      (pendingOf s key = [] → sp.ldDeps = [] → sp.stDeps = [] → chainOpen s key s.uid = false → ea.toNat % 8 = 0 →
        (ea.toNat < 0x20 →
          ∃ t' g' sp', exec (.stk w t o sc .engine m c) s = .next t' ∧ t'.gang? key = some g' ∧ g'.split? = some sp' ∧
            g'.regs = g.regs ∧ sp'.pc = sp.pc + 12 ∧ (∀ a, t'.byte a = s.byte a) ∧
            tget 0 g'.win.cmd (ea.toNat / 8) = g.kget c ∧
            (∀ i, i ≠ ea.toNat / 8 → tget 0 g'.win.cmd i = tget 0 g.win.cmd i) ∧
            g'.win.written = g.win.written ||| 2 ^ (ea.toNat / 8) ∧ g'.win.status = g.win.status) ∧
        (ea.toNat = 0x20 → streamBounced s key < 4 → goRoom s b.core s.uid = false →
          ∃ t' q, exec (.stk w t o sc .engine m c) s = .next t' ∧ (∀ a, t'.byte a = s.byte a) ∧ t'.cmds = s.cmds ∧
            t'.req? s.uid = some q ∧ q.bounced = true ∧ q.cause = 2 ∧ q.bounces = 1) ∧
        (ea.toNat = 0x20 → streamBounced s key < 4 → goRoom s b.core s.uid = true →
          let c0 := tget 0 g.win.cmd 0
          let c1 := tget 0 g.win.cmd 1
          let c3 := tget 0 g.win.cmd 3
          let tag := field c3 37 32
          let good := ¬Cmd3Bad s b c3 ∧ PlacesValid s b (field c3 3 0) c0 c1 (tget 0 g.win.cmd 2)
          ∃ t' g' sp' d, exec (.stk w t o sc .engine m c) s = .next t' ∧ t'.gang? key = some g' ∧ g'.split? = some sp' ∧
            g'.regs = g.regs ∧ sp'.pc = sp.pc + 12 ∧ (∀ a, t'.byte a = s.byte a) ∧ g'.win.written = 0 ∧ g'.win.cmd = g.win.cmd ∧
            g'.win.status = dw (64 * (if d = 2 then tag else field g.win.status 11 6) + d) ∧
            (g.win.written ≠ 15 → d = 4) ∧ (g.win.written = 15 → ¬good → d = 16) ∧
            (g.win.written = 15 → good → b.busy.getLsbD tag = true → d = 8) ∧
            (g.win.written = 15 → good → b.busy.getLsbD tag = false → d = 2) ∧
            (d ≠ 2 → t'.cmds = s.cmds ∧ t'.block? g.block = some b) ∧
            (d = 2 → ∃ x b', t'.cmd? (s.uid + 1) = some x ∧ x.gang = key ∧ x.c0 = c0 ∧ x.c1 = c1 ∧
              x.c2 = tget 0 g.win.cmd 2 ∧ x.c3 = c3 ∧ x.started = false ∧ t'.block? g.block = some b' ∧
              b'.busy = b.busy ||| tagBit tag ∧ b'.ready = b.ready &&& ~~~(tagBit tag) ∧
              b'.tdisc = b.tdisc &&& ~~~(tagBit tag) ∧ b'.tfault = b.tfault &&& ~~~(tagBit tag))))) ∧
    (∀ w t o sc d m la, Clear s key b g sp { k := [d, m.base], count := 1, throttled := true, long := true } →
      let ea := g.kget m.base + sx32 m.disp
      (0x40 ≤ ea.toNat ∨ ea.toNat % 8 ≠ 0 →
        ∃ t', exec (.ldk w t o sc .engine d m la) s = .next t' ∧ Trapped s t' key g b sp.pc 3 1 0 sp.exm (some 12)) ∧
      (pendingOf s key = [] → sp.ldDeps = [] → sp.stDeps = [] → chainOpen s key s.uid = false → ea.toNat % 8 = 0 → ea.toNat < 0x40 →
        ∃ t' g' sp', exec (.ldk w t o sc .engine d m la) s = .next t' ∧ t'.gang? key = some g' ∧ g'.split? = some sp' ∧
          sp'.pc = sp.pc + 12 ∧ (∀ a, t'.byte a = s.byte a) ∧ (∀ i, i ≠ d → g'.kget i = g.kget i) ∧ g'.regs.lcnt = g.regs.lcnt ∧
          (d ≠ 0 → g'.kget d =
            if ea.toNat < 0x18 then tget 0 g.win.cmd (ea.toNat / 8)
            else if ea.toNat = 0x18 then tget 0 g.win.cmd 3 &&& 0x00FFF13FFC000F0F else if ea.toNat = 0x20 then 0
            else if ea.toNat = 0x28 then g.win.status else if ea.toNat = 0x30 then b.tdisc else b.tfault)))


/-- R80, R90, R94, R100, R128, R348: a store performs: each byte it covers, in memory or a scratchpad, holds the byte that its
last element in lane order gives; every other byte is as it was, but for the bitmap byte of a written page, whose bit is
set where its sector is not poisoned (R402). The host's write puts its bytes in their place and changes no other (R125, R127),
where no sector of it is poisoned (R402) and each home is open when it is reached (R401, R407); symbols that go wrong in a
sector change no byte.
The model's choices: log 36, 55. -/
def Obligations.StoresPerform : Prop :=
  (∀ s rest a bs, s.agenda = .hostWrite a bs :: rest → bs ≠ [] → backed a bs.length = true →
      (∀ sec ∈ runSectors a bs.length, hostOpen (hostWrite s a (bs.take (32 * sec - a))) sec = true ∧
        s.poisoned sec = false ∧ tget 0 s.mem.errors sec < 2) →
    ∃ t, step s = .next t ∧ t.agenda = rest ∧ RegsStay s t ∧ (∀ x, t.sbyte x = s.sbyte x) ∧
      ∀ x, t.byte x = if a ≤ x ∧ x < a + bs.length then bs.getD (x - a) 0 else s.byte x) ∧
  (∀ s rest sec n, s.agenda = .upset sec n :: rest → backed (32 * sec) 32 = true →
    ∃ t, step s = .next t ∧ (∀ a, t.byte a = s.byte a) ∧ tget 0 t.mem.errors sec = tget 0 s.mem.errors sec + n) ∧
  ∀ u sec s r es, Performs s u sec r es → r.kind = .store →
    ∃ t, exec (.requestPerform u sec) s = .next t ∧ RegsStay s t ∧
      (∀ a, (∀ e ∈ es, ¬Covers e false a ∧ ¬DirtyAt s e.loc a) → t.byte a = s.byte a) ∧
      (∀ a, (∀ e ∈ es, ¬Covers e true a) → t.sbyte a = s.sbyte a) ∧
      (∀ pre e post a, es = pre ++ e :: post → Covers e false a → (∀ f ∈ post, ¬Covers f false a) →
        (∀ f ∈ es, ¬DirtyAt s f.loc a) → t.byte a = BitVec.ofNat 8 (e.data.toNat / 256 ^ (a - e.loc.addr))) ∧
      (∀ pre e post a, es = pre ++ e :: post → Covers e true a → (∀ f ∈ post, ¬Covers f true a) →
        t.sbyte a = BitVec.ofNat 8 (e.data.toNat / 256 ^ (a - e.loc.addr))) ∧
      (∀ e ∈ es, ∀ a, DirtyAt s e.loc a → (∀ f ∈ es, ¬Covers f false a) → s.poisoned (a / 32) = false →
        tget 0 s.mem.errors (a / 32) < 2 →
        (t.byte a).getLsbD (e.loc.gpa / 65536 % 8) = true)

/-- R106: the store of an SC happens, and its lane answers 0, exactly where the reservation that it took with it as it issued
holds the lane's address; else it answers 1 and changes no byte. R87, R88, R94, R99, R105, R134: a load's or an LR's sector
performs: it changes no byte and no register, and what it has read is the bytes of its place, where no older store of its
gang is outstanding; a plain load at CLUSTER scope or wider may have those that its gang read there early (R130, R202); an LR
adds each lane to its reservation, whether an SC has taken that or not. Its data is not yet returned. When a line leaves the
L1 of a core (R81), the splits of its gangs hold no reservation on it at GANG or CORE scope any more, and no register and no
byte changes.
The model's choices: log 36, 50, 67, 68, 71. -/
def Obligations.LoadsPerform : Prop :=
  (∀ s rest core line, s.agenda = .leave core line :: rest →
    ∃ t, step s = .next t ∧ t.agenda = rest ∧ RegsStay s t ∧ (∀ a, t.byte a = s.byte a) ∧ (∀ a, t.sbyte a = s.sbyte a) ∧
      ∀ key g b, t.gang? key = some g → s.block? (key / 16) = some b →
        (b.core = core → ∀ sp ∈ g.splitList.map (·.2) ++ g.deferred, ∀ rv ∈ sp.resv.toList ++ sp.spent, rv.core = true →
          ∀ e ∈ rv.elems, e.2.2.line ≠ 2 * line) ∧ (b.core ≠ core → s.gang? key = some g)) ∧
  (∀ u sec s r e, Performs s u sec r [e] → r.kind = .sc → r.dest ≠ .none → sec ∉ r.returned →
    let held := fun c : Bool => ∃ g sp rv, s.gang? r.gang = some g ∧ sp ∈ g.splitList.map (·.2) ++ g.deferred ∧
      rv ∈ sp.spent ∧ rv.sc = u ∧ (c = true → rv.core = true → Scope.atCore r.scope = true) ∧
      ∃ x ∈ rv.elems, x.1 = e.lane ∧ x.2.1 = e.ea ∧ x.2.2.line = e.loc.line
    ∃ t q, exec (.requestPerform u sec) s = .next t ∧ RegsStay s t ∧ t.req? u = some q ∧
      (held true → q.results = r.results ++ [(e.lane, 0)] ∧ (∀ a, ¬Covers e false a → ¬DirtyAt s e.loc a → t.byte a = s.byte a) ∧
        ((∀ a, Covers e false a → ¬DirtyAt s e.loc a) → t.readLoc e.loc e.size = e.data.toNat % 256 ^ e.size)) ∧
      (¬held false → q.results = r.results ++ [(e.lane, 1)] ∧ (∀ a, t.byte a = s.byte a) ∧ ∀ a, t.sbyte a = s.sbyte a)) ∧
  ∀ u sec s r es, Performs s u sec r es → (∃ b, r.kind = .load b) ∨ r.kind = .lr → r.dest ≠ .none → sec ∉ r.returned →
    ∃ t q vs, exec (.requestPerform u sec) s = .next t ∧ RegsStay s t ∧ (∀ a, t.byte a = s.byte a) ∧
      (∀ a, t.sbyte a = s.sbyte a) ∧ t.req? u = some q ∧ q.results = r.results ++ vs ∧
      q.performed = r.performed ++ performGroup r sec ∧ q.returned = r.returned ∧ vs.map (·.1) = es.map (·.lane) ∧
      ((∀ x ∈ tentries s.reqs, x.1 < u → x.2.gang = r.gang → x.2.kind ≠ .store) →
        (∀ x ∈ s.ahead, x.gang = r.gang → x.sector ∉ performGroup r sec) →
        vs = es.map fun e => (e.lane, dw (s.readLoc e.loc e.size))) ∧
      (∀ x b e, s.ahead = [x] → x.gang = r.gang → es = [e] → x.sector = e.loc.sector → r.kind = .load b → r.ord = .plain →
        scopeCode r.scope ≥ 2 → vs = [(e.lane, dw (leValue (fun i => x.bytes.getD (e.loc.addr % 32 + i) 0) e.size))]) ∧
      (r.kind = .lr → ∀ g sp, s.gang? r.gang = some g → g.split? = some sp →
        let add := fun rv : Resv => if rv.lr = u then { rv with elems := rv.elems ++
          (es.filter fun e => rv.sc ≠ 0 ∨ inLanes sp.lanes e.lane = true).map fun e => (e.lane, e.ea, e.loc) } else rv
        ∃ g' sp', t.gang? r.gang = some g' ∧ g'.split? = some sp' ∧ sp'.resv = sp.resv.map add ∧ sp'.spent = sp.spent.map add)

/-- R88, R94, R99, R106: a narrow value is the number itself or extended with its sign; the returned data of a sector stands in
its lanes of the destination, extended as the instruction says; all other lanes and registers keep theirs, no byte changes,
and with the last sector the request leaves, its counter falls and its window is done.
The model's choices: log 7. -/
def Obligations.LoadsReturn : Prop :=
  (∀ (v : DWord) (n : Nat), n = 1 ∨ n = 2 ∨ n = 4 → v.toNat < 256 ^ n →
    (extendTo64 n false v).toNat = v.toNat ∧
    (extendTo64 n true v).toInt = if 2 * v.toNat < 256 ^ n then (v.toNat : Int) else v.toNat - 256 ^ n) ∧
  ∀ u sec s r g, s.req? u = some r → s.gang? r.gang = some g → sec ∈ r.performed → sec ∉ r.returned →
      (∀ e ∈ secElems r sec, e.lane < 64 ∧ ∃ v, r.results.find? (fun x => x.1 == e.lane) = some v) →
      ((secElems r sec).map (·.lane)).Nodup →
    ∃ t g', exec (.loadDataReturn u sec) s = .next t ∧ t.gang? r.gang = some g' ∧ (∀ a, t.byte a = s.byte a) ∧
      (∀ a, t.sbyte a = s.sbyte a) ∧ (∀ k, k ≠ r.gang → t.gang? k = s.gang? k) ∧
      (∀ d wide, r.dest = .vec d wide →
        (∀ e ∈ secElems r sec, ∀ v, r.results.find? (fun x => x.1 == e.lane) = some (e.lane, v) →
          lane (g'.vget d) e.lane = BitVec.ofNat 32 (resultWord u r e v).toNat ∧
          (wide = true → lane (g'.vget (d + 1)) e.lane = BitVec.ofNat 32 ((resultWord u r e v).toNat / 2 ^ 32))) ∧
        (∀ i, ∀ l < 64, (i ≠ d ∧ (wide = true → i ≠ d + 1) ∨ ∀ e ∈ secElems r sec, e.lane ≠ l) →
          lane (g'.vget i) l = lane (g.vget i) l) ∧ ∀ i, g'.kget i = g.kget i) ∧
      (∀ d e v, r.dest = .uni d → secElems r sec = [e] → r.results.find? (fun x => x.1 == e.lane) = some (e.lane, v) →
        (d ≠ 0 → g'.kget d = resultWord u r e v) ∧ (∀ i, i ≠ d → g'.kget i = g.kget i) ∧ ∀ i, g'.vget i = g.vget i) ∧
      (r.allPerformed = true → (∀ x ∈ sectorsOf r, x = sec ∨ x ∈ r.returned) →
        t.req? u = none ∧ g'.regs.lcnt = g.regs.lcnt - (if r.counted = 1 then 1 else 0) ∧
        ∀ i sp, tget none g'.splits i = some sp → ∀ w ∈ sp.windows, w.op = u → w.done = true)

/-- R102 to R104: the integer operations (the sum modulo its width, the bitwise ones, the lesser and the greater as the type
counts, exchange, compare and swap, the wrapping increment); and an atomic performs: its elements act one after another in
lane order, each reading the place, writing the operation's new value and answering the old one; all other bytes stay, but
for the dirty bitmap. On a scratchpad its first lanes may perform before the rest, each once (R90, R337).
The model's choices: log 36, 69. -/
def Obligations.AtomicsPerform : Prop :=
  (∀ (ty : Ty) (old x c : Nat), ty = .s32 ∨ ty = .n32 ∨ ty = .s64 ∨ ty = .n64 →
    let n := widthBytes .full ty
    old < 256 ^ n → x < 256 ^ n → c < 256 ^ n →
    let sg := fun y : Nat => if tySigned ty = true ∧ 256 ^ n ≤ 2 * y then (y : Int) - 256 ^ n else y
    atomNew .add ty n old x c = (old + x) % 256 ^ n ∧
    (∀ i, (atomNew .and ty n old x c).testBit i = (old.testBit i && x.testBit i)) ∧
    (∀ i, (atomNew .or ty n old x c).testBit i = (old.testBit i || x.testBit i)) ∧
    (∀ i, (atomNew .xor ty n old x c).testBit i = (old.testBit i ^^ x.testBit i)) ∧
    sg (atomNew .min ty n old x c) = min (sg old) (sg x) ∧ sg (atomNew .max ty n old x c) = max (sg old) (sg x) ∧
    atomNew .xchg ty n old x c = x ∧ (atomNew .cas ty n old x c = if old = c then x else old) ∧
    (atomNew .incw ty n old x c = if x ≤ old then 0 else old + 1)) ∧
  (∀ rest n u sec s r es op ty ret, s.agenda = .performLanes u n :: rest → Performs s u sec r es → r.kind = .atom op ty ret →
      (sectorsOf r).find? (fun x => x % 2 == 1 && !r.performed.contains x) = some sec →
      (∀ e ∈ es, e.size = widthBytes .full ty) →
      (∀ e ∈ es, ∀ f ∈ es, overlaps e f = true → e.loc.addr = f.loc.addr) →
    let same := fun (e f : Elem) => f.loc.scr == e.loc.scr && f.loc.addr == e.loc.addr
    let next := fun (v : Nat) (e : Elem) => atomNew op ty e.size v (e.data.toNat % 256 ^ e.size) (e.cmp.toNat % 256 ^ e.size)
    ∃ t q, step s = .next t ∧ t.agenda = rest ∧ RegsStay s t ∧ t.req? u = some q ∧ q.performed = r.performed ∧
      q.lanesDone = r.lanesDone ++ (es.take n).map (·.lane) ∧ q.results.length = r.results.length + (es.take n).length ∧
      (∀ e ∈ es.take n, t.readLoc e.loc e.size = ((es.take n).filter (same e)).foldl next (s.readLoc e.loc e.size)) ∧
      (∀ a, t.byte a = s.byte a) ∧ ∀ a, (∀ e ∈ es.take n, ¬Covers e true a) → t.sbyte a = s.sbyte a) ∧
  ∀ u sec s r es op ty ret, Performs s u sec r es → r.kind = .atom op ty ret →
      (∀ e ∈ es, e.size = widthBytes .full ty) →
      (∀ e ∈ es, ∀ f ∈ es, overlaps e f = true → e.loc.addr = f.loc.addr) →
      (∀ e ∈ es, ∀ f ∈ es, ∀ a, Covers e false a → ¬DirtyAt s f.loc a) → r.dest ≠ .none → sec ∉ r.returned →
    let same := fun (e f : Elem) => f.loc.scr == e.loc.scr && f.loc.addr == e.loc.addr
    let next := fun (v : Nat) (e : Elem) => atomNew op ty e.size v (e.data.toNat % 256 ^ e.size) (e.cmp.toNat % 256 ^ e.size)
    ∃ t q, exec (.requestPerform u sec) s = .next t ∧ RegsStay s t ∧ t.req? u = some q ∧
      q.results.length = r.results.length + es.length ∧
      (∀ e ∈ es, t.readLoc e.loc e.size = (es.filter (same e)).foldl next (s.readLoc e.loc e.size)) ∧
      (∀ pre e post, es = pre ++ e :: post → q.results[r.results.length + pre.length]? =
        some (e.lane, dw ((pre.filter (same e)).foldl next (s.readLoc e.loc e.size)))) ∧
      (∀ a, (∀ e ∈ es, ¬Covers e false a ∧ ¬DirtyAt s e.loc a) → t.byte a = s.byte a) ∧
      (∀ a, (∀ e ∈ es, ¬Covers e true a) → t.sbyte a = s.sbyte a)


/-- R86, R134, R166, R167, R171, R172, R173, R406: a walk that completes puts its translation in the TLB, and gangs that held
back for it issue again; it waits until the homes of the tables that it reads are ready; a request that has stood at a queue's
head for that queue's limit, since it came or since the head before it left, bounces, not before, its count going from 256
back to 8, and a store carries the gang's later ones with it (R134); after 256 cycles for each bounce, at most 2048, it joins
the tails of the queues it left, the oldest first; a request, a GO or a command that found a queue full goes on when a slot
frees.
The model's choices: log 12, 13, 37, 40, 56. -/
def Obligations.WalksAndBounces : Prop :=
  (∀ u ctx vpn s c, s.ctx? ctx = some c → translateReady s c vpn = false → exec (.walkComplete u ctx vpn) s = .next s) ∧
  (∀ u ctx vpn s c, (u, ctx, vpn) ∈ s.walks → walkerReady s u = true → s.ctx? ctx = some c → translateReady s c vpn = true → u < 256 →
      (∀ e ∈ tentries s.reqs, e.2.bounced = false) → (∀ e ∈ tentries s.cmds, e.2.bounced = false) →
      (∀ e ∈ tentries s.engOps, e.2.bounced = false) →
    ∃ t, exec (.walkComplete u ctx vpn) s = .next t ∧ (∀ a, t.byte a = s.byte a) ∧
      t.tlbGet u ctx vpn = some (translate s c vpn) ∧
      (∀ a b p, (a, b, p) ≠ (u, ctx, vpn) → ((a, b, p) ∈ t.walks ↔ (a, b, p) ∈ s.walks)) ∧ (u, ctx, vpn) ∉ t.walks ∧
      ∀ k g b, s.gang? k = some g → s.block? g.block = some b → b.core = u → b.ctx = ctx → g.hold = .walk 0 →
        ∃ g', t.gang? k = some g' ∧ g' = { g with hold := .none }) ∧
  (∀ id s r b, s.req? id = some r → s.block? (r.gang / 16) = some b → r.bounced = false →
    let p := s.part (b.core / 32)
    let late := fun x : Stand => (∀ y ∈ inQueue s (queueOf s r.gang x.sec x.stage), y.before x = false) ∧
      max x.since (tget 0 s.leftAt (queueOf s r.gang x.sec x.stage)) +
        16 * (match x.stage with | 0 => p.core | 1 => p.die | 2 => p.memc | _ => p.fabric) ≤ s.cycle
    (∀ x ∈ standing s id r, late x → (∀ y ∈ standing s id r, late y → y.stage = x.stage) →
      ∃ t q, exec (.holdLimitExpiry id) s = .next t ∧ (∀ a, t.byte a = s.byte a) ∧ t.req? id = some q ∧
        q = { r with bounced := true, cause := if x.stage = 3 then 4 else 5, since := s.cycle, key := q.key,
                     bounces := if r.bounces + 1 = 256 then 8 else r.bounces + 1 } ∧
        (∃ y ∈ standing s id r, late y ∧ q.key = q.cause + 16 * stageKey b.core y.sec y.stage) ∧
        (r.kind = .store → ∀ v y, id < v → s.req? v = some y → y.gang = r.gang → y.kind = .store → y.allPerformed = false →
          ∃ z, t.req? v = some z ∧ z.chained = true)) ∧
    ((∀ x ∈ standing s id r, ¬late x) → exec (.holdLimitExpiry id) s = .next s)) ∧
  (∀ id s r b, s.req? id = some r → s.block? (r.gang / 16) = some b → r.bounced = true → r.cause = 5 → r.space ≠ .engine →
      gangRuns s r.gang = true → peerGone s r = false → (∀ u ∈ backDue s 0 r.gang, id ≤ u) →
      (∀ e ∈ r.elems, ∃ l, chkOf s b r e = .ok l) →
    (r.since + 256 * min r.bounces 8 ≤ s.cycle → ∃ t q, exec (.backoffExpiry id) s = .next t ∧
      (∀ a, t.byte a = s.byte a) ∧ t.req? id = some q ∧ q.bounced = false ∧ q.checked = true ∧ q.since = s.cycle ∧
      q.bounces = r.bounces ∧ q.performed = r.performed ∧ q.results = r.results ∧
      ∀ p ∈ q.places, p.since = s.cycle ∧ s.uid ≤ p.order ∧ ∃ y ∈ r.places, y.sec = p.sec ∧ y.stage = p.stage) ∧
    (s.cycle < r.since + 256 * min r.bounces 8 → exec (.backoffExpiry id) s = .next s)) ∧
  (∀ id s r b, s.req? id = some r → s.block? (r.gang / 16) = some b → r.bounced = true → r.cause = 4 → r.space ≠ .engine →
      gangRuns s r.gang = true → peerGone s r = false → firstAt s r.key id r = true → slotFor s r.key id = true →
      (∀ e ∈ r.elems, ∃ l, chkOf s b r e = .ok l) →
    ∃ t q, exec (.slotFreeReissue id) s = .next t ∧ (∀ a, t.byte a = s.byte a) ∧ t.req? id = some q ∧ q.bounced = false ∧
      q.since = s.cycle ∧ q.bounces = r.bounces ∧ q.performed = r.performed) ∧
  (∀ id s r, s.req? id = some r → r.bounced = true → r.cause = 2 → r.space = .engine → gangRuns s r.gang = true →
      firstAt s r.key id r = true → goRoom s (keyCore s r.gang) id = true →
    ∃ t, exec (.slotFreeReissue id) s = .next t ∧ (∀ a, t.byte a = s.byte a) ∧
      t.req? id = some { r with bounced := false, since := s.cycle }) ∧
  (∀ id s c, s.req? id = none → s.cmd? id = some c → c.bounced = true → gangRuns s c.gang = true →
      c.cause = 2 ∧ devqFree s c = true ∨ c.cause = 4 → slotFor s (cmdKey s c c.cause) id = true →
      firstCmd s (cmdKey s c c.cause) id c = true →
    ∃ t w, exec (.slotFreeReissue id) s = .next t ∧ (∀ a, t.byte a = s.byte a) ∧
      t.cmd? id = some { c with bounced := false, since := s.cycle, way := w } ∧
      ∀ p, w = some p → p.since = s.cycle ∧ p.order = s.uid ∧ ∃ y, c.way = some y ∧ y.sec = p.sec ∧ y.stage = p.stage)

/-- R30, R86, R387, R392, R394: a gang parked past the limit takes its whole block out, its image kept, and its context counts
it; a ready block returns to its slots and windows when they are free; a restore puts its scratchpad bytes back, and it
runs or goes on staging; where the check refuses its area, every block of its context is out and the context stays stopped.
The model's choices: log 11, 53. -/
def Obligations.SwappingBlocks : Prop :=
  (∀ k s g b u ring seq since srv c, s.gang? k = some g → g.hold = .park u ring seq since srv → s.block? g.block = some b →
      b.phase = .running → s.ctx? b.ctx = some c → since + 16 * (s.part (b.core / 32)).park ≤ s.cycle →
      (∀ e ∈ tentries s.cmds, e.2.gang / 16 = g.block → e.2.running = []) →
    ∃ t b' img, exec (.parkLimitExpiry k) s = .next t ∧ (∀ a, t.byte a = s.byte a) ∧ t.block? g.block = some b' ∧
      b' = { b with phase := .swapped false false, image := some img } ∧
      (∀ off x, (off, x) ∈ img.scratch ↔ (scrKey b.core b.bank b.scrbase + off, x) ∈ s.core.scratch ∧ off < 256 * b.need.scratch) ∧
      (∀ off < 256 * b.need.scratch, t.sbyte (scrKey b.core b.bank b.scrbase + off) = 0) ∧
      ∃ c', t.ctx? b.ctx = some c' ∧ c' = { c with npark := c.npark + 1 }) ∧
  (∀ n s b, s.block? n = some b → runsOn s b.ctx (b.core / 32) = true → canReturn s n b (placeBank s (b.core / 32)) = true →
    ∃ t, exec (.blockReturn n) s = .next t ∧ (∀ a, t.byte a = s.byte a) ∧ (∀ k, t.gang? k = s.gang? k) ∧
      t.block? n = some { b with phase := .returned, bank := placeBank s (b.core / 32) } ∧
      (b.need.race = true → t.array b.core = { arrayDefault with owner := some n })) ∧
  (∀ n s b img, s.block? n = some b → b.phase = .returned → b.image = some img → areaIntact s b.ctx = true →
      b.need.race = false → img.array = none →
      (∀ k ∈ blockGangs b n, ∀ g, s.gang? k = some g → g.hold = .none) →
      (∀ e ∈ tentries s.reqs, e.2.gang / 16 ≠ n ∧ (e.2.bounced = true → e.2.space = .peer → e.2.cause ≠ 6)) →
      (∀ e ∈ tentries s.cmds, e.2.gang / 16 ≠ n) →
      (∀ e ∈ tentries s.rreqs, e.2.gang / 16 ≠ n) → (∀ e ∈ tentries s.engOps, e.2.gang / 16 ≠ n) → (img.scratch.map (·.1)).Nodup →
    ∃ t, exec (.restore n) s = .next t ∧ (∀ a, t.byte a = s.byte a) ∧
      t.block? n = some { b with
        phase := (match img.staging with | some x => .staging x.1 x.2 | none => .running), image := none } ∧
      (∀ e ∈ img.scratch, t.sbyte (scrKey b.core b.bank b.scrbase + e.1) = e.2) ∧
      ∀ k, t.gang? k = s.gang? k) ∧
  (∀ n s b c, s.block? n = some b → b.phase = .returned → s.ctx? b.ctx = some c → areaIntact s b.ctx = false →
    ∃ t c', exec (.restore n) s = .next t ∧ t.ctx? b.ctx = some c' ∧ c'.state = .stopped ∧
      ∀ m x, t.block? m = some x → x.ctx = b.ctx → x.phase = .stopped)


/-- R92, R114, R116: a box of a COPY or a COPY_ADD that the engine may run, its addresses translated and its memory ready, clean
and served by the Weir, run as a whole: every destination word holds its source word, or the sum of its type with it; every
other byte is as it was, but for the dirty bitmap; and the box runs. R117: a failing address stops the command before any
write of the box, its tag ready with TFAULT once no box runs, and ENGINE_FAULT is left for the gang.
The model's choices: log 21, 24. -/
def Obligations.Copies : Prop :=
  ∀ u box s c g b (add : Bool), s.cmd? u = some c → s.gang? c.gang = some g → s.block? (c.gang / 16) = some b →
      c.op = (if add then 1 else 0) → canStart s u c g b = true → c.failed = none → box ∉ c.running → box ∉ c.boxes →
      earlierWrites c box = false → c.running.length < 4 → box < c.shape.boxes →
    let i : Instr := if add then .copyAdd u box else .copy u box
    let ws := (boxWords c box).map (·.2)
    let from1 := fun w : DWord × DWord => checkElem s b (cmdSpace (bitsOf c.c3 31 29)) true false 4 w.1
    let to1 := fun w : DWord × DWord => checkElem s b (cmdSpace (bitsOf c.c3 28 26)) add true 4 w.2
    let far := fun x y : Loc => x.scr ≠ y.scr ∨ x.addr + 4 ≤ y.addr ∨ y.addr + 4 ≤ x.addr
    let inside := fun (x : Loc) (a : Nat) => x.scr = false ∧ x.addr ≤ a ∧ a < x.addr + 4
    let clean := fun x : Loc => cmdOpen s u c x = true ∧
      (x.scr = true ∨ s.poisoned (x.addr / 32) = false ∧ tget 0 s.mem.errors (x.addr / 32) < 2)
    (ws.Nodup → (∀ w ∈ ws, ∃ x y, from1 w = .ok x ∧ to1 w = .ok y ∧ clean x ∧ clean y) →
        (∀ w ∈ ws, ∀ v ∈ ws, ∀ x y, from1 w = .ok x → to1 v = .ok y → far x y) →
        (∀ w ∈ ws, ∀ v ∈ ws, w ≠ v → ∀ x y, to1 w = .ok x → to1 v = .ok y → far x y) →
        (∀ w ∈ ws, ∀ v ∈ ws, ∀ x y a, to1 w = .ok x → DirtyAt s x a → (from1 v = .ok y ∨ to1 v = .ok y) → ¬inside y a) →
      ∃ t q, exec i s = .next t ∧ RegsStay s t ∧ t.cmd? u = some q ∧ q.started = true ∧ q.passed = true ∧
        q.running = c.running ++ [box] ∧ q.boxes = c.boxes ∧ q.failed = none ∧ (∀ e ∈ q.todo, e ∈ c.todo ∧ e.1 ≠ box) ∧
        (∀ w ∈ ws, ∀ x y, from1 w = .ok x → to1 w = .ok y → t.readLoc y 4 = match addType c with
          | some ty => atomNew .add ty 4 (s.readLoc y 4) (s.readLoc x 4) 0
          | none => s.readLoc x 4) ∧
        ∀ a, (∀ w ∈ ws, ∀ y, to1 w = .ok y → ¬inside y a ∧ ¬DirtyAt s y a) → t.byte a = s.byte a) ∧
    (∀ sub l ea, decideChecks (ws.flatMap fun w => [(0, w.1), (0, w.2)]) (ws.flatMap fun w => [from1 w, to1 w]) = .protect sub l ea →
        c.running = [] → g.live ≠ 0 → NoTwait g →
      ∃ t g' b', exec i s = .next t ∧ (∀ a, t.byte a = s.byte a) ∧ t.cmd? u = none ∧ t.gang? c.gang = some g' ∧
        g'.regs = g.regs ∧ g'.traps = g.traps ++ [⟨10, copyCause sub, dw (c.tag + box * 65536), 0, ea⟩] ∧
        t.block? (c.gang / 16) = some b' ∧ b'.busy = b.busy &&& ~~~(tagBit c.tag) ∧ b'.ready = b.ready ||| tagBit c.tag ∧
        b'.tfault = b.tfault ||| tagBit c.tag)

/-- R39, R92, R115, R116, R117, R155, R379, R403: a box that is written counts, and with the last one, no release waiting, the
command is over and its tag ready, and a split that waits at a TWAIT for it goes on (R119); a LAUNCH joins the device launch
queue; a SIGNAL stores its 8 bytes and is over; and the oldest trap left for a gang is taken at its next boundary.
The model's choices: log 20, 21, 23. -/
def Obligations.CommandsComplete : Prop :=
  (∀ u box s c b, s.cmd? u = some c → s.block? (c.gang / 16) = some b → box ∈ c.running → c.failed = none →
      (∀ e ∈ c.todo, e.1 ≠ box) →
    let c' := { c with running := c.running.filter (· != box), boxes := c.boxes ++ [box] }
    (c'.written = true → (c.rel = true → earlierCmds s c.gang u = []) →
      ∃ t b', exec (.boxComplete u box) s = .next t ∧ (∀ a, t.byte a = s.byte a) ∧ t.cmd? u = none ∧
        t.block? (c.gang / 16) = some b' ∧ b'.busy = b.busy &&& ~~~(tagBit c.tag) ∧ b'.ready = b.ready ||| tagBit c.tag ∧
        b'.tdisc = b.tdisc ∧ b'.tfault = b.tfault) ∧
    (c'.written = false →
      ∃ t, exec (.boxComplete u box) s = .next t ∧ (∀ a, t.byte a = s.byte a) ∧ t.cmd? u = some c' ∧
        t.block? (c.gang / 16) = some b)) ∧
  (∀ u s c b, s.cmd? u = some c → s.block? (c.gang / 16) = some b → c.failed = none → c.written = true →
      (c.rel = true → earlierCmds s c.gang u = []) →
    ∃ t b', exec (.commandComplete u) s = .next t ∧ (∀ a, t.byte a = s.byte a) ∧ t.cmd? u = none ∧
      t.block? (c.gang / 16) = some b' ∧ b'.busy = b.busy &&& ~~~(tagBit c.tag) ∧ b'.ready = b.ready ||| tagBit c.tag ∧
      ∀ k ∈ blockGangs b (c.gang / 16), ∀ g i sp all m asked d, s.gang? k = some g → g.splits = [(i, some sp)] →
          sp.wait = .atTags all m asked d →
        (if all then b'.ready &&& m = m else b'.ready &&& m ≠ 0 ∨ m = 0) →
        ∃ h, t.gang? k = some h ∧ h.splits = [(i, some { sp with wait := .ready, pc := sp.pc + 8 })] ∧
          (d ≠ 0 → h.kget d = b'.ready &&& asked) ∧ ∀ j, j ≠ d → h.kget j = g.kget j) ∧
  (∀ u s c g b x, s.cmd? u = some c → s.gang? c.gang = some g → s.block? (c.gang / 16) = some b → c.op = 2 →
      c.queued = false → canStart s u c g b = true → s.ctx? b.ctx = some x → x.devq.length < 64 →
      slotFor s (cmdKey s c 2) u = true →
    ∃ t q, exec (.launch u) s = .next t ∧ (∀ a, t.byte a = s.byte a) ∧ t.ctx? b.ctx = some { x with devq := x.devq ++ [u] } ∧
      t.cmd? u = some q ∧ q = { c with started := true, passed := true, queued := true, head := q.head, since := q.since }) ∧
  (∀ u s c g b l, s.cmd? u = some c → s.gang? c.gang = some g → s.block? (c.gang / 16) = some b → c.op = 3 → c.boxes = [] →
      c.failed = none → canStart s u c g b = true → (c.rel = true → earlierCmds s c.gang u = []) →
      checkElem s b (cmdSpace (bitsOf c.c3 28 26)) false true 8 c.c1 = .ok l → cmdOpen s u c l = true →
      (∀ k h, s.gang? k = some h → NoTwait h) →
      (l.scr = true ∨ s.poisoned (l.addr / 32) = false ∧ tget 0 s.mem.errors (l.addr / 32) < 2) →
      (∀ a, DirtyAt s l a → a < l.addr ∨ l.addr + 8 ≤ a) →
    ∃ t b', exec (.signal u) s = .next t ∧ RegsStay s t ∧ t.readLoc l 8 = c.c0.toNat ∧ t.cmd? u = none ∧
      (∀ a, (l.scr = true ∨ a < l.addr ∨ l.addr + 8 ≤ a) → ¬DirtyAt s l a → t.byte a = s.byte a) ∧
      t.block? (c.gang / 16) = some b' ∧ b'.busy = b.busy &&& ~~~(tagBit c.tag) ∧ b'.ready = b.ready ||| tagBit c.tag) ∧
  (∀ s key g sp b x rest, Issues s key g sp b → g.traps = x :: rest →
    let lanes := if x.lanes = 0 then sp.exm else x.lanes
    (x.cause = 10 → ∃ t, exec (.engineFault key) s = .next t ∧ Trapped s t key g b sp.pc 10 x.sub x.aux lanes (some 0)) ∧
    (x.cause = 3 → ∃ t, exec (.poison key) s = .next t ∧ Trapped s t key g b sp.pc 3 x.sub x.aux lanes (some 0)))


/-- R211, R214 to R221: RLD, RST, RATOM and RFENCE at issue. RFENCE waits until every remote request of the gang has its final
status; with CHK and errors counted it takes REMOTE_STORE_FAIL, the count back at 0; else it orders as `fence.ar`.
The model's choices: log 23. -/
def Obligations.FabricInstructions : Prop :=
  (∀ p w t o d pa ix disp la, SendsRemote (.rld p w t o d pa ix disp la) (remoteUse (vr t d) pa ix 1 true) p pa ix disp
    (widthBytes w t) true la (.vec d t.wide) fun _ _ => .load) ∧
  (∀ p w t o c pa ix disp, SendsRemote (.rst p w t o c pa ix disp) (remoteUse (widthRegs w t c) pa ix 2 false) p pa ix disp
    (widthBytes w t) false 0 .none fun g ls => .store (ls.map fun l => (l, toBytes (widthBytes w t) (g.regs.lane t c l)))) ∧
  (∀ p op t o d pa ix disp la, SendsRemote (.ratom p op t o d pa ix disp la) (remoteUse (atomRegs op t d) pa ix 1 true) p pa ix disp
    (widthBytes .full t) true la (.vec d t.wide) fun g ls => .atom op t (ls.map fun l =>
      (l, dw (g.regs.lane t (if op = .cas then d + (if t.wide then 2 else 1) else d) l), dw (g.regs.lane t d l)))) ∧
  (∀ chk s key g sp b, Issues s key g sp b → Clear s key b g sp { scope := some .system } →
    let done := ∀ e ∈ tentries s.rreqs, e.2.gang = key → e.2.final = true
    (done → (chk = true → g.regs.errs = 0) →
      ∃ t g' sp', exec (.rfence chk) s = .next t ∧ GangFrame (forgetAhead s key) t key g g' sp' ∧ g'.regs = g.regs ∧ sp'.pc = sp.pc + 8 ∧
        sp'.exm = sp.exm ∧ sp'.lanes = sp.lanes ∧ sp'.wait = .ready ∧
        ∀ x, performedUid s x = false → (x ∈ pendingLoads s key → x ∈ sp'.ldDeps) ∧ (x ∈ pendingOf s key → x ∈ sp'.stDeps)) ∧
    (done → chk = true → g.regs.errs ≠ 0 →
      ∃ t, exec (.rfence chk) s = .next t ∧
        Trapped s t key { g with regs := { g.regs with errs := 0 } } b sp.pc 9 0 0 sp.exm (some 8)) ∧
    (¬done → ∃ t g', exec (.rfence chk) s = .next t ∧ Quiet s t key ∧ t.gang? key = some g' ∧ g'.regs = g.regs ∧
      g'.splits = g.splits ∧ g'.cur = (nextReady g).getD g.cur))

/-- R207, R213, R216 to R219, R222, R223: what a status does to an instruction of one request. A store that is done lowers SCNT;
one that failed also counts its elements; RETRY bounces the request; a load with all its values goes on, its lanes written;
one that failed takes REMOTE_LOAD_FAIL with its lanes and the cause's code, at the split that issued it (R65).
The model's choices: log 30, 31, 33. -/
def Obligations.FabricStatuses : Prop :=
  ∀ u s r g b lanes data, s.rreq? u = some r → s.gang? r.gang = some g → s.block? (r.gang / 16) = some b → r.gang / 16 = g.block →
      r.sent ≠ 0 → r.final = false → groupOf s r.group = [(u, r)] → s.fab.lost = [] → s.fab.self ≠ some r.dev →
      errorTurn s r.gang r.plane = true →
    let code := fun c : RCause => match c with
      | .noWindow => 1 | .bound => 2 | .permission => 3 | .targetFault => 4 | .dataErr => 5 | .peerLost => 6 | .peerDown => 7
    (r.returns = false →
      ∃ t g', exec (.remoteResponse u lanes .ok data) s = .next t ∧ (∀ a, t.byte a = s.byte a) ∧ t.rreq? u = none ∧
        t.gang? r.gang = some g' ∧ g'.regs = { g.regs with scnt := g.regs.scnt - 1 }) ∧
    (∀ c, r.returns = false →
      ∃ t g', exec (.remoteResponse u lanes (.fail c) data) s = .next t ∧ t.rreq? u = none ∧ t.gang? r.gang = some g' ∧
        g'.regs = { g.regs with scnt := g.regs.scnt - 1, errs := g.regs.errs + r.elems.length } ∧
        ∀ x, s.ctx? b.ctx = some x → x.errBase = 0 → r.elems ≠ [] →
          (∀ a, t.byte a = s.byte a) ∧ ∃ y, t.ctx? b.ctx = some y ∧ y = { x with errOvf := true }) ∧
    (∃ t q, exec (.remoteResponse u lanes .retry data) s = .next t ∧ (∀ a, t.byte a = s.byte a) ∧ t.rreq? u = some q ∧
      q = { r with bounced := true, cause := 5, since := s.cycle, sent := 0, status := none,
                   bounces := if r.bounces + 1 = 256 then 8 else r.bounces + 1 }) ∧
    (∀ sp la d wide, r.returns = true → g.hold = .remote r.group la → g.split? = some sp → sp.uid = r.split →
        r.dest = .vec d wide → r.results = [] → r.written = [] → data.map (·.1) = r.elems.map (·.1) →
        (data.map (·.1)).Nodup → (∀ x ∈ data, x.1 < 64 ∧ inLanes lanes x.1 = true) →
      ∃ t g' sp', exec (.remoteResponse u lanes .ok data) s = .next t ∧ (∀ a, t.byte a = s.byte a) ∧ t.rreq? u = none ∧
        t.gang? r.gang = some g' ∧ g'.split? = some sp' ∧ g'.hold = .none ∧ g'.regs.lcnt = g.regs.lcnt - 1 ∧
        sp'.pc = sp.pc + 12 ∧ sp'.exm = sp.exm ∧
        (∀ x ∈ data, lane (g'.vget d) x.1 = BitVec.ofNat 32 (extendTo64 r.size r.sgn x.2).toNat ∧
          (wide = true → lane (g'.vget (d + 1)) x.1 = BitVec.ofNat 32 ((extendTo64 r.size r.sgn x.2).toNat / 2 ^ 32))) ∧
        (∀ i, i ≠ d → (wide = true → i ≠ d + 1) → g'.vget i = g.vget i) ∧ ∀ i, g'.kget i = g.kget i) ∧
    (∀ c i sp la, r.returns = true → g.hold = .remote r.group la → (i, sp) ∈ g.splitList → sp.uid = r.split →
        (∀ e ∈ g.splitList, e.2.uid = r.split → e.2 = sp) → r.elems ≠ [] → (∀ e ∈ r.elems, e.1 < 64) →
      ∃ t, exec (.remoteResponse u lanes (.fail c) data) s = .next t ∧
        Trapped s t r.gang { g with regs := { g.regs with lcnt := g.regs.lcnt - 1 } } b sp.pc 8
          (code c) 0 (laneSet fun l => r.elems.any fun e => e.1 == l) (some 12))

/-- R136, R206 to R210, R225: the checks that a request from another device meets, in order, and what it reads or writes; one
that finds nothing in its way but queues that hold it for their limits has RETRY; it waits until the window table can be read
(R406). A dead plane, its epilogue, after which, once what was received of the device's requests is answered, the map names the
lowest live plane in the dead one's place; a lost peer, whose outstanding requests fail with PEER_LOST, and a reachable one; the
training of a link, RETRAINS counting each after the first; and a launch packet that the table refuses, that finds its queue
full, or that joins it, once what it needs can be reached (R407).
The model's choices: log 31, 32, 33, 57, 58, 59. -/
def Obligations.FabricEvents : Prop :=
  let reach := fun (s : State) (n : Nat) => s.pf.wtbase = 0 ∨ placesReady s (s.pf.wtbase + 16 * n) 16 = true
  (∀ r s, ¬reach s r.ftid → exec (.remoteRequest r) s = .next s) ∧
  (∀ r s, reach s r.ftid → windowEntry s r.ftid = none → exec (.remoteRequest r) s =
    .next { s with fab := { s.fab with out := s.fab.out ++ [(r.tag, .fail .noWindow, [])] } }) ∧
  (∀ r s rest base size ctx perm l e, s.agenda = .remoteHeld (.remoteRequest r) :: rest → reach s r.ftid →
      windowEntry s r.ftid = some (base, size, ctx, perm) → r.elems = [e] → r.kind = .load →
    (size * 65536 ≤ e.2 → step s =
      .next { s with agenda := rest, fab := { s.fab with out := s.fab.out ++ [(r.tag, .fail .bound, [])] } }) ∧
    (e.2 < size * 65536 → perm.testBit 0 = true → checkGlobal s 256 ctx true false (base + dw e.2) = .ok l → step s =
      .next { s with agenda := rest, fab := { s.fab with out := s.fab.out ++ [(r.tag, .retry, [])] } })) ∧
  (∀ r s base size ctx perm, reach s r.ftid → windowEntry s r.ftid = some (base, size, ctx, perm) →
    ((∃ e ∈ r.elems, size * 65536 ≤ e.2) → exec (.remoteRequest r) s =
      .next { s with fab := { s.fab with out := s.fab.out ++ [(r.tag, .fail .bound, [])] } }) ∧
    ((∀ e ∈ r.elems, e.2 < size * 65536) →
      perm.testBit (match r.kind with | .load => 0 | .store _ => 1 | .atom _ _ _ => 2) = false →
      exec (.remoteRequest r) s =
        .next { s with fab := { s.fab with out := s.fab.out ++ [(r.tag, .fail .permission, [])] } }) ∧
    (∀ l e, r.elems = [e] → e.2 < size * 65536 → r.kind = .load → perm.testBit 0 = true →
        checkGlobal s 256 ctx true false (base + dw e.2) = .ok l → placeOpen s (ctxVf s ctx) l 1 = true →
        s.poisoned (l.addr / 32) = false → tget 0 s.mem.errors (l.addr / 32) < 2 →
      ∃ t, exec (.remoteRequest r) s = .next t ∧ (∀ a, t.byte a = s.byte a) ∧
        t.fab.out = s.fab.out ++ [(r.tag, .ok, [(e.1, dw (s.readLoc l r.size))])]) ∧
    (∀ l e bs, r.elems = [e] → e.2 < size * 65536 → r.kind = .store [(e.1, bs)] → bs.length = r.size → perm.testBit 1 = true →
        checkGlobal s 256 ctx false true (base + dw e.2) = .ok l → placeOpen s (ctxVf s ctx) l 1 = true →
        s.poisoned (l.addr / 32) = false → tget 0 s.mem.errors (l.addr / 32) < 2 →
        (∀ a, DirtyAt s l a → a < l.addr ∨ l.addr + r.size ≤ a) →
      ∃ t, exec (.remoteRequest r) s = .next t ∧ t.fab.out = s.fab.out ++ [(r.tag, .ok, [])] ∧
        (∀ i x, bs[i]? = some x → t.byte (l.addr + i) = x) ∧
        ∀ a, (a < l.addr ∨ l.addr + r.size ≤ a) → ¬DirtyAt s l a → t.byte a = s.byte a)) ∧
  (∀ dev p s, exec (.planeDead dev p) s = .next (if s.fab.dead.contains (dev, p) then s else
    { s with fab := { s.fab with
      dead := s.fab.dead ++ [(dev, p)], repair := s.fab.repair ++ [(dev, p, s.cycle, false)] } })) ∧
  (∀ dev p q last s, s.fab.lost = [] → (dev, p) ∈ s.fab.dead → (∃ c, (dev, p, c, false) ∈ s.fab.repair) →
      q < 4 → (dev, q) ∉ s.fab.dead → (linkOf s q).2.2.2 = 2 →
      (∀ i < q, (dev, i) ∈ s.fab.dead ∨ (linkOf s i).2.2.2 ≠ 2) →
    let left := fun e : Nat × RReq => e.2.dev = dev ∧ e.2.sent ≠ 0 ∧ e.2.final = false ∧ (e.2.plane = p → e.2.sent ≤ last)
    ((∃ e ∈ tentries s.rreqs, left e) → ∃ t, exec (.epilogue dev p last) s = .next t ∧ (∀ a, t.byte a = s.byte a) ∧
      ∀ off, planeFor t dev off = planeFor s dev off) ∧
    ((∀ e ∈ tentries s.rreqs, ¬left e) → (∀ e ∈ tentries s.rreqs, e.2.dev ≠ dev ∨ e.2.sent = 0 ∨ e.2.final = true) →
      ∃ t, exec (.epilogue dev p last) s = .next t ∧ (∀ a, t.byte a = s.byte a) ∧
      (∀ c f, (dev, p, c, f) ∉ t.fab.repair) ∧ ∀ off,
        let due := planeFor s dev off = p ∨ ∃ c, (dev, planeFor s dev off, c, true) ∈ s.fab.repair
        (due → planeFor t dev off = q) ∧ (¬due → planeFor t dev off = planeFor s dev off))) ∧
  (∀ dev s p c, twf none s.rreqs = true → (dev, p, c, false) ∈ s.fab.repair → c + fabricLimit s ≤ s.cycle →
      (∀ u r, s.rreq? u = some r → r.dev = dev → r.final = false → r.plane < 4 ∧ (r.returns = false →
        errorTurn s r.gang (if r.sent = 0 then planeFor s dev ((r.elems.headD (0, 0)).2) else r.plane) = true)) →
    ∃ t, exec (.peerLost dev) s = .next t ∧ dev ∈ t.fab.lost ∧ (∀ q c' f, (dev, q, c', f) ∉ t.fab.repair) ∧
      (toDevice s dev = [] → ∀ a, t.byte a = s.byte a) ∧
      ∀ u r q, s.rreq? u = some r → r.dev = dev → r.final = false → t.rreq? u = some q → q.status = some (.fail .peerLost)) ∧
  (∀ dev s, dev ∉ s.fab.lost → exec (.peerReachable dev) s = .next s) ∧
  (∀ dev s, dev ∈ s.fab.lost → tentries s.rreqs = [] → ∃ t, exec (.peerReachable dev) s = .next t ∧ (∀ a, t.byte a = s.byte a) ∧
    dev ∉ t.fab.lost ∧ (∀ p, (dev, p) ∉ t.fab.dead) ∧ t.fab.credits = s.fab.credits ∧
    ∀ d, d ≠ dev → (d ∈ t.fab.lost ↔ d ∈ s.fab.lost)) ∧
  (∀ p here there s, tentries s.rreqs = [] →
    let n := min ((linkOf s p).1 + if p ∈ s.fab.trained then 1 else 0) 65535
    ∃ t, exec (.linkTraining p here there) s = .next t ∧ (∀ a, t.byte a = s.byte a) ∧ p ∈ t.fab.trained ∧
      (here = there → linkOf t p = (n, here.speed, if here.width = 8 then 1 else 0, 2)) ∧
      (here ≠ there → linkOf t p = (n, (linkOf s p).2.1, (linkOf s p).2.2.1, 3))) ∧
  (∀ k s, packetOpen s k = false → exec (.launchPacket k) s = .next s) ∧
  (∀ k s, packetOpen s k = true → packetOk s k = false →
    let a := s.pf.ltbase + 512 * k.ftid + 28
    (∀ sec ∈ runSectors a 4, s.poisoned sec = false ∧ tget 0 s.mem.errors sec < 2) →
    ∃ t, exec (.launchPacket k) s = .next t ∧ t.fab.naks = s.fab.naks ++ [1] ∧ t.queues = s.queues ∧
    (s.pf.ltbase = 0 → ∀ a, t.byte a = s.byte a) ∧
    (s.pf.ltbase ≠ 0 → t.readPhys a 4 = min (s.readPhys a 4 + 1) (2 ^ 32 - 1) ∧ ∀ x, (x < a ∨ a + 4 ≤ x) → t.byte x = s.byte x)) ∧
  (∀ k s, packetOpen s k = true → packetOk s k = true →
      ((s.queue k.queue).tail - (s.queue k.queue).head).toNat = 2 ^ (s.queue k.queue).log2n →
    ∃ t, exec (.launchPacket k) s = .next t ∧ t.fab.naks = s.fab.naks ++ [2] ∧ t.queues = s.queues ∧ ∀ a, t.byte a = s.byte a) ∧
  (∀ k s l, packetOpen s k = true → packetOk s k = true →
      let q := s.queue k.queue
      (q.tail - q.head).toNat ≠ 2 ^ q.log2n → hubPlace s q.ctx (q.qbase + dw (64 * (q.tail.toNat % 2 ^ q.log2n))) = .ok l →
      (∀ a, DirtyAt s l a → a < l.addr ∨ l.addr + 64 ≤ a) →
      (∀ sec ∈ runSectors l.addr 64, s.poisoned sec = false ∧ tget 0 s.mem.errors sec < 2) →
    ∃ t, exec (.launchPacket k) s = .next t ∧ t.queue k.queue = { q with tail := q.tail + 1, pending := true } ∧
      t.readPhys l.addr 8 = k.record.toNat ∧ t.readPhys (l.addr + 8) 8 = k.compl.toNat ∧
      (∀ i, 16 ≤ i → i < 64 → t.byte (l.addr + i) = 0) ∧
      ∀ a, (a < l.addr ∨ l.addr + 64 ≤ a) → ¬DirtyAt s l a → t.byte a = s.byte a)


/-- R284, R287, R288, R289, R291, R293, R294: the panels of the matrix engine. MRES writes its status and, with OK, records the
reservation over zeros (scales 0x7F); MREL releases ids; MLD fills lines and chunks from memory and sets their presence
bits; a delivery, once it may arrive, fills its receiver, some words before the rest (R292), or is noted as dropped; MGATH zeroes its chunks, places its elements and sets the
presence of the chunks hit; each names its ENGINE_FAULT.
The model's choices: log 23, 26, 29. -/
def Obligations.MatrixPanels : Prop :=
  (∀ mx recv t d id base len sbase s key g sp b, Issues s key g sp b → Clear s key b g sp { coll := true, k := [d] } →
    let r : Reserv := ⟨t, mx, recv, base, len, sbase, len / t.chunkUnits, BitVec.allOnes 64⟩
    let st := mresStatus s b g id r
    (g.reserv id ≠ none → st = 3) ∧ (g.reserv id = none → bankUnits s b < base + len → st = 1) ∧
    (st ≠ 0 → ∃ t' g', exec (.mres mx recv t d id base len sbase) s = .next t' ∧ MatMoves s t' key g g' sp 12 [d] ∧
      g'.mat = g.mat ∧ g'.kget 0 = 0 ∧ (d ≠ 0 → (g'.kget d).toNat = st) ∧ ∀ a, t'.obyte a = s.obyte a) ∧
    (st = 0 → ∃ t' g', exec (.mres mx recv t d id base len sbase) s = .next t' ∧ MatMoves s t' key g g' sp 12 [d] ∧
      g'.reserv id = some r ∧ (∀ i, i ≠ id → g'.reserv i = g.reserv i) ∧ g'.kget d = 0 ∧
      (∀ i < 64 * len, t'.obyte (obase b g.idx + 64 * base + i) = 0) ∧
      (mx = true → ∀ i < 64 * (len / t.chunkUnits), t'.obyte (obase b g.idx + 64 * sbase + i) = 0x7F))) ∧
  (∀ mask s key g sp b, Issues s key g sp b → Clear s key b g sp { coll := true } →
    ∃ t g', exec (.mrel mask) s = .next t ∧ MatMoves s t key g g' sp 8 [] ∧
      ∀ i, g'.reserv i = if mask.getLsbD i then none else g.reserv i) ∧
  (∀ scl mc spc id kb disp ks cmask s key g sp b, Issues s key g sp b →
      Clear s key b g sp { coll := true, k := [kb, ks], reads := true } →
    let x := mldArgs g kb disp ks
    (∀ c, mldCause g scl id (g.kget ks) x = some c →
      ∃ t, exec (.mld scl mc spc id kb disp ks cmask) s = .next t ∧ Trapped s t key g b sp.pc 10 c 0 sp.exm (some 12)) ∧
    (∀ r, mldCause g scl id (g.kget ks) x = none → g.reserv id = some r →
        let eas := (mldReads r scl x).2
        let sz := (mldReads r scl x).1
        homesReady s key g b spc false sz eas = true → g.sched.defer = false →
        (∀ a ∈ eas, ∃ l, checkElem s b spc true false sz a = .ok l ∧
          (l.scr = true ∨ s.poisoned (l.addr / 32) = false ∧ tget 0 s.mem.errors (l.addr / 32) < 2)) →
        (∀ e ∈ tentries s.reqs, e.2.gang = key → e.2.kind ≠ .store) → (mldPlaces r scl x.c0 x.nch).Nodup →
      ∃ t g' r', exec (.mld scl mc spc id kb disp ks cmask) s = .next t ∧ MatMoves s t key g g' sp 12 [] ∧
        g'.reserv id = some r' ∧ (∀ j < 64, r'.presence.getLsbD j =
          if x.c0 ≤ j ∧ j < x.c0 + x.nch then true else r.presence.getLsbD j) ∧ g'.mat.opened ≠ none ∧
        (∀ k pl a l, (mldPlaces r scl x.c0 x.nch)[k]? = some pl → eas[k / sz]? = some a →
          checkElem s b spc true false sz a = .ok l → t.obyte (obase b g.idx + pl) = s.lbyte l (k % sz)) ∧
        (mc = false → t.deliveries = s.deliveries) ∧
        (mc = true → ∀ p < 8, cmask.getLsbD p = true → p ≠ b.core % 8 →
          ∃ y ∈ t.deliveries, y.gang = key ∧ y.core = b.core / 8 * 8 + p ∧ y.id = id ∧ y.c0 = x.c0 ∧ y.nch = x.nch))) ∧
  (∀ rest u words s x k rb h r, s.agenda = .deliverWords u words :: rest →
      s.deliveries.find? (fun y => y.uid == u && mayArrive s y) = some x → deliveryTo s x = some (k, rb) → s.gang? k = some h →
      h.reserv x.id = some r → (mldPlaces r x.scale x.c0 x.nch).Nodup →
    ∃ t, step s = .next t ∧ t.agenda = rest ∧ (∀ a, t.byte a = s.byte a) ∧ (∀ j, t.gang? j = s.gang? j) ∧
      ∀ (j : Nat) pl y, (mldPlaces r x.scale x.c0 x.nch)[j]? = some pl → x.bytes[j]? = some y →
        t.obyte (obase rb h.idx + pl) = if pl / 4 ∈ words ∧ pl / 4 ∉ x.landed then y else s.obyte (obase rb h.idx + pl)) ∧
  (∀ key s x b g, s.deliveries.find? (fun y => y.gang == key && mayArrive s y) = some x → s.block? (key / 16) = some b →
      s.gang? key = some g →
    let bank := if (s.part (x.core / 32)).shadow then (s.part (x.core / 32)).fg else 0
    (∀ k rb h r, receiverOf s x b.ctx (quarterOf b (key % 16)) bank = some (k, rb) → s.gang? k = some h → h.reserv x.id = some r →
        (mldPlaces r x.scale x.c0 x.nch).Nodup →
      ∃ t h', exec (.multicastDelivery key) s = .next t ∧ (∀ a, t.byte a = s.byte a) ∧ t.deliveries = s.deliveries.erase x ∧
        t.gang? k = some h' ∧ h'.regs = h.regs ∧
        (∀ (j : Nat) pl y, (mldPlaces r x.scale x.c0 x.nch)[j]? = some pl → x.bytes[j]? = some y →
          t.obyte (obase rb h.idx + pl) = if pl / 4 ∈ x.landed then s.obyte (obase rb h.idx + pl) else y)) ∧
    (receiverOf s x b.ctx (quarterOf b (key % 16)) bank = none → ∀ bt, g.mat.top < x.batch → g.mat.opened = some bt →
      ∃ t g', exec (.multicastDelivery key) s = .next t ∧ (∀ a, t.byte a = s.byte a) ∧ (∀ a, t.obyte a = s.obyte a) ∧
        t.deliveries = s.deliveries.erase x ∧ t.gang? key = some g' ∧ g'.regs = g.regs ∧
        g'.mat.opened = some { bt with drop := bt.drop ||| BitVec.ofNat 8 (2 ^ x.pos) })) ∧
  (∀ id kb disp s key g sp b, Issues s key g sp b → Clear s key b g sp { coll := true, k := [kb], reads := true } →
      engBounced s g.block < engineEntries → g.sched.defer = false →
    let i := Instr.mgath id kb disp
    let a := g.kget kb + sx32 disp
    let d := fun (o n : Nat) => leValue (fun j => (scratchBytes s s.uid key b (a.toNat + o) n).getD j 0) n
    (g.reserv id = none → ∃ t, exec i s = .next t ∧ Trapped s t key g b sp.pc 10 1 0 sp.exm (some 12)) ∧
    (∀ r, g.reserv id = some r →
      let size := if r.t = .bf16x2 then 2 else 1
      let nc := (d 0x0C 4 + 31) / 32
      let bad := d 0 4 % 4 ≠ 0 ∨ d 4 4 % 4 ≠ 0 ∨ d 8 4 % size ≠ 0 ∨ d 0x0C 4 = 0 ∨ 2048 < d 0x0C 4 ∨ d 0x18 8 ≠ 0
      (r.t = .e2m1x8 → ∃ t, exec i s = .next t ∧ Trapped s t key g b sp.pc 10 2 0 sp.exm (some 12)) ∧
      (r.t ≠ .e2m1x8 → a.toNat % 32 ≠ 0 → ∃ t, exec i s = .next t ∧ Trapped s t key g b sp.pc 3 4 0 sp.exm (some 12)) ∧
      (r.t ≠ .e2m1x8 → a.toNat % 32 = 0 → 256 * b.need.scratch < a.toNat + 32 →
        ∃ t, exec i s = .next t ∧ Trapped s t key g b sp.pc 3 1 0 sp.exm (some 12)) ∧
      (r.t ≠ .e2m1x8 → a.toNat % 32 = 0 → a.toNat + 32 ≤ 256 * b.need.scratch → bad →
        ∃ t, exec i s = .next t ∧ Trapped s t key g b sp.pc 10 5 0 sp.exm (some 12)) ∧
      (r.t ≠ .e2m1x8 → a.toNat % 32 = 0 → a.toNat + 32 ≤ 256 * b.need.scratch → ¬bad → r.ncap < d 0x14 4 + nc →
        ∃ t, exec i s = .next t ∧ Trapped s t key g b sp.pc 10 3 0 sp.exm (some 12)) ∧
      (r.t ≠ .e2m1x8 → a.toNat % 32 = 0 → a.toNat + 32 ≤ 256 * b.need.scratch → ¬bad → d 0x14 4 + nc ≤ r.ncap →
        let row := fun k => gatherRow s s.uid key b (d 0 4) (d 4 4) (d 8 4) (d 0x10 4) size k
        let at1 := fun k n => obase b g.idx + chunkByte r (d 0x14 4 + k / 32) n + k % 32 * size
        ∃ t g' r', exec i s = .next t ∧ MatMoves s t key g g' sp 12 [] ∧ g'.reserv id = some r' ∧
          (∀ j < 64, r'.presence.getLsbD j = true ↔ if d 0x14 4 ≤ j ∧ j < d 0x14 4 + nc then
            ∃ k < d 0x0C 4, k / 32 = j - d 0x14 4 ∧ (row k).1 ≠ [] else r.presence.getLsbD j = true) ∧
          (∀ k < d 0x0C 4, ∀ n < 64, ∀ m < size, (∀ e ∈ (row k).1, e.1 ≠ n) → t.obyte (at1 k n + m) = 0) ∧
          (∀ k < d 0x0C 4, ∀ pre n bs post m x, (row k).1 = pre ++ (n, bs) :: post → (∀ e ∈ post, e.1 ≠ n) →
            bs[m]? = some x → t.obyte (at1 k n + m) = x) ∧
          ∃ bt, g'.mat.opened = some bt ∧ ((∃ k < d 0x0C 4, (row k).2 = true) → bt.gerr = true))))

/-- R296 to R298, R300 to R302, R305 to R309: a chunk sum of finite elements is one rounding of the exact sum of its products, scaled;
MMA adds the chunks to its tile and its flags to the open batch; MBATCH closes a batch under its number; a batch whose
deliveries are in merges its flags and its status; MWAIT waits for the batches up to a number, writes the status and
clears it; ACLR, AWR, ARD and AST clear, write, read and store tiles; each names its traps.
The model's choices: log 23, 26, 27, 28, 29. -/
def Obligations.MatrixArithmetic : Prop :=
  (∀ (xs ys : List (Bool × Nat × Nat)) (ea eb : Int), (∀ x ∈ xs ++ ys, 0 < x.2.2) → xs.length = ys.length →
    let fv := fun x : Bool × Nat × Nat => FV.fin x.1 x.2.1 x.2.2
    let q := fun x : Bool × Nat × Nat => (if x.1 then -1 else 1) * (x.2.1 : ℚ) / x.2.2
    let sum : ℚ := ((xs.zip ys).map fun e => q e.1 * q e.2).sum * 2 ^ (ea + eb)
    let r := chunkSum (xs.map fv, ea) (ys.map fv, eb)
    (sum = 0 → r.2 = 0 ∧ r.1 % 2 ^ 31 = 0) ∧
    (sum ≠ 0 → ∃ num den : Nat, 0 < den ∧ (num : ℚ) / den = |sum| ∧
      r = roundTo fmtF32 .rne false false (decide (sum < 0)) num den)) ∧
  (∀ skip z tile ra rb a0 b0 kcm1 s key g sp b, Issues s key g sp b → Clear s key b g sp { coll := true } →
    let i := Instr.mma skip z tile ra rb a0 b0 kcm1
    (g.reserv ra = none ∨ g.reserv rb = none → ∃ t, exec i s = .next t ∧ Trapped s t key g b sp.pc 10 1 0 sp.exm (some 12)) ∧
    (∀ pa pb, g.reserv ra = some pa → g.reserv rb = some pb →
      let inside := a0 + kcm1 + 1 ≤ pa.ncap ∧ b0 + kcm1 + 1 ≤ pb.ncap
      (¬inside → ∃ t, exec i s = .next t ∧ Trapped s t key g b sp.pc 10 3 0 sp.exm (some 12)) ∧
      (inside → bankTiles s b ≤ tile → ∃ t, exec i s = .next t ∧ Trapped s t key g b sp.pc 10 4 0 sp.exm (some 12)) ∧
      (inside → tile < bankTiles s b → formatsMeet pa.t pb.t = false →
        ∃ t, exec i s = .next t ∧ Trapped s t key g b sp.pc 10 2 0 sp.exm (some 12)) ∧
      (inside → tile < bankTiles s b → formatsMeet pa.t pb.t = true →
        let k := gangTile b g.idx tile
        let r := mmaTile s (obase b g.idx) pa pb skip a0 b0 (kcm1 + 1) (if z then zeroTile else s.tile k)
        ∃ t g' bt, exec i s = .next t ∧ MatMoves s t key g g' sp 12 [] ∧ t.tile k = r.1 ∧
          (∀ j, j ≠ k → t.tile j = s.tile j) ∧ (∀ a, t.obyte a = s.obyte a) ∧ g'.mat.opened = some bt ∧
          bt.flags = (g.mat.opened.getD blankBatch).flags ||| r.2))) ∧
  (∀ d s key g sp b, Issues s key g sp b → Clear s key b g sp { coll := true, k := [d] } →
    ∃ t g', exec (.mbatch d) s = .next t ∧ MatMoves s t key g g' sp 8 [d] ∧ g'.mat.top = g.mat.top + 1 ∧ g'.mat.opened = none ∧
      g'.kget 0 = 0 ∧ (d ≠ 0 → g'.kget d = dw (g.mat.top + 1)) ∧
      (∀ bt, g.mat.opened = some bt → tget none g'.mat.closed (g.mat.top + 1) = some { bt with split := sp.uid }) ∧
      ∀ n, n ≠ g.mat.top + 1 → tget none g'.mat.closed n = tget none g.mat.closed n) ∧
  (∀ key s g n bt rest, s.gang? key = some g → tentries g.mat.closed = (n, bt) :: rest → n ∉ rest.map (·.1) →
      (∀ x ∈ s.deliveries, x.gang = key → x.batch ≠ n) → (∀ e ∈ engPending s key, e.2.batch ≠ n) →
    ∃ t g', exec (.batchComplete key) s = .next t ∧ (∀ a, t.byte a = s.byte a) ∧ t.gang? key = some g' ∧
      g'.regs = { g.regs with fsr := g.regs.fsr ||| dw (bt.flags % 128) } ∧ tget none g'.mat.closed n = none ∧
      g'.mat.drop = g.mat.drop ||| bt.drop ∧ g'.mat.gerr = (g.mat.gerr || bt.gerr)) ∧
  (∀ d a s key g sp b, Issues s key g sp b → Clear s key b g sp { k := [d, a] } →
    let done := ∀ e ∈ tentries g.mat.closed, min (g.kget a).toNat g.mat.top < e.1
    (done → ∃ t g', exec (.mwait d a) s = .next t ∧ MatMoves s t key g g' sp 8 [d] ∧ g'.mat.drop = 0 ∧ g'.mat.gerr = false ∧
      g'.kget 0 = 0 ∧ (d ≠ 0 → (g'.kget d).toNat = g.mat.drop.toNat + if g.mat.gerr then 256 else 0)) ∧
    (¬done → ∃ t g', exec (.mwait d a) s = .next t ∧ Quiet s t key ∧ t.gang? key = some g' ∧ g'.regs = g.regs ∧
      g'.mat = g.mat ∧ g'.splits = g.splits ∧ g'.cur = (nextReady g).getD g.cur)) ∧
  (∀ a s key g sp b, Issues s key g sp b → Clear s key b g sp { coll := true, k := [a] } →
    (2 ^ bankTiles s b ≤ (g.kget a).toNat →
      ∃ t, exec (.aclr a) s = .next t ∧ Trapped s t key g b sp.pc 10 5 0 sp.exm (some 12)) ∧
    ((g.kget a).toNat < 2 ^ bankTiles s b →
      ∃ t g', exec (.aclr a) s = .next t ∧ MatMoves s t key g g' sp 12 [] ∧
        (∀ i < 32, (g.kget a).getLsbD i = true → t.tile (gangTile b g.idx i) = zeroTile) ∧
        ∀ j, (∀ i < 32, (g.kget a).getLsbD i = true → j ≠ gangTile b g.idx i) → t.tile j = s.tile j)) ∧
  (∀ rm sat nosat t d tile row la s key g sp b, Issues s key g sp b →
      Clear s key b g sp { coll := true, v := vr t d, long := true } →
    (bankTiles s b ≤ tile →
      ∃ t', exec (.ard rm sat nosat t d tile row la) s = .next t' ∧ Trapped s t' key g b sp.pc 10 4 0 sp.exm (some 12)) ∧
    (tile < bankTiles s b → sp.exm ≠ 0 →
      let f := fun l => packElts t.shape.1 (fun i => tileOut t (resolveRm g.regs rm) sat nosat
        (tileElem (s.tile (gangTile b g.idx tile)) (row + i) l)) t.shape.2
      ∃ t' g' sp' x, exec (.ard rm sat nosat t d tile row la) s = .next t' ∧ t'.gang? key = some g' ∧ g'.split? = some sp' ∧
        g'.regs = g.regs ∧ sp'.pc = sp.pc + 12 ∧ (∀ a, t'.byte a = s.byte a) ∧ (∀ k, t'.tile k = s.tile k) ∧
        t'.long? s.uid = some x ∧ x.gang = key ∧ x.flags = (laneList sp.exm).map (fun l => (l, (f l).2)) ∧
        x.vs = (laneList sp.exm).flatMap (fun l =>
          if t.wide then [(d, l, BitVec.ofNat 32 (f l).1), (d + 1, l, BitVec.ofNat 32 ((f l).1 / 2 ^ 32))]
          else [(d, l, BitVec.ofNat 32 (f l).1)]) ∧
        ∃ w ∈ sp'.windows, w.op = s.uid ∧ w.left = la ∧ w.done = false ∧ w.dv = dests t d)) ∧
  (∀ t m c s key g sp b, Issues s key g sp b →
      Clear s key b g sp { coll := true, v := vr t c ++ (memUse m).1, k := (memUse m).2 } →
    let ea := fun l => (effAddr g.regs m l).toNat
    let bad := fun l => ea l % 8 ≠ 0 ∨ bankTiles s b ≤ ea l / 32768
    (∀ l < 64, inLanes sp.exm l = true → bad l → (∀ k < l, inLanes sp.exm k = true → ¬bad k) →
      ∃ t', exec (.awr t m c) s = .next t' ∧ Trapped s t' key g b sp.pc 3 (if ea l % 8 ≠ 0 then 4 else 1) 0
        (laneSet fun k => inLanes sp.exm k && (decide (ea k % 8 ≠ 0) || decide (bankTiles s b ≤ ea k / 32768))) (some 12)) ∧
    ((∀ l < 64, inLanes sp.exm l = true → ¬bad l ∧ (s.tile (gangTile b g.idx (ea l / 32768))).length = 4096) →
        (∀ l < 64, ∀ k < 64, inLanes sp.exm l = true → inLanes sp.exm k = true → l ≠ k → ea l ≠ ea k) →
      ∃ t' g', exec (.awr t m c) s = .next t' ∧ MatMoves s t' key g g' sp 12 [] ∧
        (∀ l < 64, inLanes sp.exm l = true → (t'.tile (gangTile b g.idx (ea l / 32768))).getD (ea l / 8 % 4096) (0, 0) =
          (lane (g.vget c) l, if t.wide then lane (g.vget (c + 1)) l else 0)) ∧
        ∀ k i, (∀ l < 64, inLanes sp.exm l = true → k ≠ gangTile b g.idx (ea l / 32768) ∨ i ≠ ea l / 8 % 4096) →
          (t'.tile k).getD i (0, 0) = (s.tile k).getD i (0, 0))) ∧
  (∀ rm sat nosat t km kb disp kr s key g sp b, Issues s key g sp b → Clear s key b g sp { coll := true, k := [km, kb, kr] } →
      storeReady s key sp = true →
    let i := Instr.ast rm sat nosat t km kb disp kr
    let ea := (g.kget kb + sx32 disp).toNat
    let k := g.kget kr
    let size := if t.wide then 8 else 4
    let e := if t.wide then 1 else t.shape.2
    let per := 64 / e
    let nr := bitsOf k 37 32 + 1
    let addr := fun (j w : Nat) => g.kget km + BitVec.ofInt 64 (j * (BitVec.ofNat 32 k.toNat).toInt) + dw (w * size)
    let place := fun j w => checkElem s b (astSpace k) false true size (addr j w)
    let fine := bitsOf k 41 40 ≠ 3 ∧ bitsOf k 39 38 = 0 ∧ bitsOf k 63 42 = 0 ∧ ea / 512 % 64 + nr ≤ 64 ∧
      (g.kget km).toNat % size = 0 ∧ bitsOf k 31 0 % size = 0
    let value := fun (j w : Nat) => (packElts t.shape.1 (fun n => tileOut t (resolveRm g.regs rm) sat nosat
      (tileElem (s.tile (gangTile b g.idx (ea / 32768))) (ea / 512 % 64 + j) (w * e + n))) e).1
    homesReady s key g b (astSpace k) true size ((List.range nr).flatMap fun j => (List.range per).map (addr j)) = true →
    (ea % 512 ≠ 0 → ∃ t', exec i s = .next t' ∧ Trapped s t' key g b sp.pc 3 4 0 sp.exm (some 12)) ∧
    (ea % 512 = 0 → bankTiles s b ≤ ea / 32768 →
      ∃ t', exec i s = .next t' ∧ Trapped s t' key g b sp.pc 3 1 0 sp.exm (some 12)) ∧
    (ea % 512 = 0 → ea / 32768 < bankTiles s b → ¬fine →
      ∃ t', exec i s = .next t' ∧ Trapped s t' key g b sp.pc 10 5 0 sp.exm (some 12)) ∧
    (ea % 512 = 0 → ea / 32768 < bankTiles s b → fine → g.sched.defer = false →
        (∀ j < nr, ∀ w < per, ∃ l, place j w = .ok l ∧
          (l.scr = true ∨ s.poisoned (l.addr / 32) = false ∧ tget 0 s.mem.errors (l.addr / 32) < 2)) →
        (∀ j < nr, ∀ w < per, ∀ j' < nr, ∀ w' < per, (j, w) ≠ (j', w') → ∀ x y, place j w = .ok x → place j' w' = .ok y →
          x.scr ≠ y.scr ∨ x.addr + size ≤ y.addr ∨ y.addr + size ≤ x.addr) →
        (∀ j < nr, ∀ w < per, ∀ j' < nr, ∀ w' < per, ∀ x y a, place j w = .ok x → place j' w' = .ok y → DirtyAt s x a →
          y.scr = true ∨ a < y.addr ∨ y.addr + size ≤ a) →
      ∃ t' g' sp', exec i s = .next t' ∧ t'.gang? key = some g' ∧ g'.split? = some sp' ∧ g'.regs = g.regs ∧ sp'.pc = sp.pc + 12 ∧
        (∀ q, t'.tile q = s.tile q) ∧ (∀ j < nr, ∀ w < per, ∀ l, place j w = .ok l → t'.readLoc l size = value j w) ∧
        ∀ a, (∀ j < nr, ∀ w < per, ∀ l, place j w = .ok l →
          (l.scr = true ∨ a < l.addr ∨ l.addr + size ≤ a) ∧ ¬DirtyAt s l a) → t'.byte a = s.byte a))


/-- R38, R312 to R314, R319 to R325: the instructions of the Millrace. RCWIN and SWR to TWIN set the window and trap outside 1 to
1023; RCMODE sets the mode, a change of which opens every cell; RCLD checks its operands, its address and its window and
loads its rows; RCGO on an array that is not reset only sets NOTRESET; RCCAP writes the capture or, without one, 1023 with
NOCAP; RCCLR begins a reset; SWR to RCSTAT clears bits; and the end of an evaluation or a reset shows its result, not
before its time.
The model's choices: log 23, 26, 56. -/
def Obligations.MillraceInstructions : Prop :=
  (∀ a, JoinsArray (.rcwin a) 8 { k := [a], race := true, arr := true } (fun _ _ g => 1 ≤ (g.kget a).toNat ∧ (g.kget a).toNat ≤ 1023)
    (fun _ _ g => .window (g.kget a).toNat) fun _ _ g x => { x with twin := (g.kget a).toNat }) ∧
  (∀ a, JoinsArray (.swrTwin a) 8 { k := [a], race := true, arr := true } (fun _ _ g => 1 ≤ (g.kget a).toNat ∧ (g.kget a).toNat ≤ 1023)
    (fun _ _ g => .window (g.kget a).toNat) fun _ _ g x => { x with twin := (g.kget a).toNat }) ∧
  (∀ a, JoinsArray (.swrRcstat a) 8 { k := [a], race := true, arr := true } (fun _ _ _ => True) (fun _ _ g => .stat (g.kget a))
    fun _ _ g x => { x with bits := x.bits &&& (31 - (g.kget a).toNat % 32) }) ∧
  (∀ mesh a c, JoinsArray (.rcmode mesh a c) 8 { k := [a, c], race := true, arr := true } (fun _ _ _ => True)
    (fun _ _ g => .mode mesh (g.kget a) (g.kget c)) fun _ _ g x =>
      { x with mesh := mesh, codes := if x.mesh = mesh then x.codes else [],
               combine := if mesh then x.combine else g.kget c ++ g.kget a }) ∧
  (∀ a c, JoinsArray (.rcgo a c) 8 { v := [a, c], race := true, arr := true } (fun _ _ _ => True)
    (fun _ _ g => .go (g.vget a) (g.vget c)) fun s _ g x =>
      if x.dirty then { x with bits := x.bits ||| 2, capv := false }
      else arrGo x (g.vget a) (g.vget c) (s.cycle + ticks s (x.twin + 8))) ∧
  JoinsArray .rcclr 8 { race := true, arr := true } (fun _ _ _ => True) (fun _ _ _ => .clear)
    (fun s _ _ x => { x with eval := some (2, s.cycle + ticks s 8) }) ∧
  (∀ a s key g sp b, Issues s key g sp b → Clear s key b g sp { k := [a], race := true, arr := true } →
      (g.kget a).toNat = 0 ∨ 1023 < (g.kget a).toNat →
    (∃ t, exec (.rcwin a) s = .next t ∧ Trapped s t key g b sp.pc 10 5 0 sp.exm (some 8)) ∧
    ∃ t, exec (.swrTwin a) s = .next t ∧ Trapped s t key g b sp.pc 1 0 0 sp.exm (some 8)) ∧
  (∀ mesh kb disp kn s key g sp b, Issues s key g sp b →
      Clear s key b g sp { k := [kb, kn], race := true, arr := true, reads := true } →
    let n := g.kget kn
    let a := g.kget kb + sx32 disp
    let bad := bitsOf n 63 15 ≠ 0 ∨ bitOf n 7 = true ∨ (if mesh then 64 else 128) < bitsOf n 6 0 + (bitsOf n 14 8 + 1)
    let stop := fun cause sub => engBounced s g.block < engineEntries →
      ∃ t, exec (.rcld mesh kb disp kn) s = .next t ∧ Trapped s t key g b sp.pc cause sub 0 sp.exm (some 12)
    (bad → stop 10 5) ∧ (¬bad → a.toNat % 4 ≠ 0 → stop 3 4) ∧
    (¬bad → a.toNat % 4 = 0 → 256 * b.need.scratch < a.toNat + (bitsOf n 14 8 + 1) * (if mesh then 256 else 128) → stop 3 1)) ∧
  (∀ mesh kb disp kn, JoinsArray (.rcld mesh kb disp kn) 12 { k := [kb, kn], race := true, arr := true, reads := true }
    (fun s b g =>
      let n := g.kget kn
      let a := g.kget kb + sx32 disp
      engBounced s g.block < engineEntries ∧ g.sched.defer = false ∧ bitsOf n 63 15 = 0 ∧ bitOf n 7 = false ∧
        bitsOf n 6 0 + (bitsOf n 14 8 + 1) ≤ (if mesh then 64 else 128) ∧ a.toNat % 4 = 0 ∧
        a.toNat + (bitsOf n 14 8 + 1) * (if mesh then 256 else 128) ≤ 256 * b.need.scratch)
    (fun s b g => .load mesh (bitsOf (g.kget kn) 6 0) ((List.range (bitsOf (g.kget kn) 14 8 + 1)).map fun j =>
      scratchBytes s s.uid (s.cur.getD 0) b ((g.kget kb + sx32 disp).toNat + j * (if mesh then 256 else 128)) (if mesh then 256 else 128)))
    fun s b g x =>
      if x.mesh ≠ mesh then { x with bits := x.bits ||| 1 } else
      arrLoad x mesh (bitsOf (g.kget kn) 6 0) ((List.range (bitsOf (g.kget kn) 14 8 + 1)).map fun j =>
        scratchBytes s s.uid (s.cur.getD 0) b ((g.kget kb + sx32 disp).toNat + j * (if mesh then 256 else 128)) (if mesh then 256 else 128))) ∧
  (∀ sel d la s key g sp b, Issues s key g sp b → Clear s key b g sp { v := [d], race := true, arr := true, long := true } →
      let a := s.array b.core
      a.owner = some g.block → a.queue = [] → a.eval = none →
    ∃ t g' sp' x, exec (.rccap sel d la) s = .next t ∧ t.gang? key = some g' ∧ g'.split? = some sp' ∧ g'.regs = g.regs ∧
      sp'.pc = sp.pc + 8 ∧ (∀ y, t.byte y = s.byte y) ∧ t.long? s.uid = some x ∧ x.gang = key ∧ x.array = false ∧ x.ks = [] ∧
      x.flags = [] ∧ (∃ w ∈ sp'.windows, w.op = s.uid ∧ w.left = la ∧ w.done = false ∧ w.dv = [d]) ∧
      (a.capv = true → a.capMesh = selMesh sel → t.array b.core = { a with pushed := some (s.cycle, g.sched.quarter) } ∧
        x.vs = (laneList sp.exm).map fun l => (d, l, BitVec.ofNat 32 (a.capture.getD (selIndex sel l) 1023))) ∧
      (¬(a.capv = true ∧ a.capMesh = selMesh sel) →
        t.array b.core = { a with bits := a.bits ||| 16, pushed := some (s.cycle, g.sched.quarter) } ∧
        x.vs = (laneList sp.exm).map fun l => (d, l, BitVec.ofNat 32 1023))) ∧
  (∀ core s a e, a = s.array core → a.queue = [] →
    (a.eval = some (1, e) → e ≤ s.cycle → ∃ t, exec (.evaluationEnd core) s = .next t ∧ (∀ y, t.byte y = s.byte y) ∧
      t.array core = { a with eval := none, capture := a.pending, pending := [], bits := a.bits ||| a.pendBits,
                              pendBits := 0, capv := true }) ∧
    (a.eval = some (2, e) → e ≤ s.cycle → ∃ t, exec (.resetEnd core) s = .next t ∧ (∀ y, t.byte y = s.byte y) ∧
      t.array core = { a with eval := none, dirty := false }) ∧
    (∀ k, a.eval = some (k, e) → s.cycle < e →
      exec (.evaluationEnd core) s = .next s ∧ exec (.resetEnd core) s = .next s))

/-- R310, R311, R316, R317, R322: what an evaluation computes. An input below the window arrives at its time, any other never; a
crossbar output is the least of its cells' inputs plus their delays, or with COMBINE the greatest once all have arrived;
a mesh cell is the least of its three sources plus their delays; and the capture holds the times below the window and
1023 for the rest. -/
def Obligations.MillraceEvaluation : Prop :=
  ∀ (a : Array) (va vb : VVal), va.length = 64 → vb.length = 64 →
    let time := fun x : Word => if x.toNat % 1024 < a.twin then some (x.toNat % 1024) else none
    let input := fun i => time (if i < 64 then va.getD i 0 else vb.getD (i - 64) 0)
    let u := arrEval a va vb
    (∀ ends, a.dirty = false → (arrGo a va vb ends).pending = u.map (fun t => match t with
        | some t => if t < a.twin then t else 1023
        | none => 1023) ∧
      (arrGo a va vb ends).eval = some (1, ends) ∧ (arrGo a va vb ends).dirty = true ∧ (arrGo a va vb ends).capv = false) ∧
    (a.mesh = false → u.length = 128 ∧ ∀ o < 128,
      let sums := { t : Nat | ∃ e ∈ a.codes, e.1 / 128 = o ∧ ∃ y, input (e.1 % 128) = some y ∧ t = y + e.2 }
      (a.combine.getLsbD o = false → ∀ t, u.getD o none = some t ↔ IsLeast sums t) ∧
      (a.combine.getLsbD o = true → ∀ t, u.getD o none = some t ↔
        IsGreatest sums t ∧ ∀ e ∈ a.codes, e.1 / 128 = o → input (e.1 % 128) ≠ none)) ∧
    (a.mesh = true → u.length = 4096 ∧ ∀ y < 64, ∀ x < 64,
      let cell := fun (y x : Nat) => u.getD (64 * y + x) none
      let north := if y = 0 then input x else cell (y - 1) x
      let west := if x = 0 then input (64 + y) else cell y (x - 1)
      let corner := if y = 0 then (if x = 0 then none else input (x - 1)) else if x = 0 then input (64 + (y - 1)) else cell (y - 1) (x - 1)
      let code := fun i => tget 127 a.codes ((y * 64 + x) * 3 + i)
      let sums := { t : Nat | ∃ i v, (i, v) ∈ [(0, north), (1, west), (2, corner)] ∧ code i < 64 ∧ ∃ w, v = some w ∧ t = w + code i }
      ∀ t, cell y x = some t ↔ IsLeast sums t)

/-- R25, R26, R29, R152 to R157: an 8-byte kick of an owned word sets TAIL and the pending bit, any other kick nothing. A queue
with more entries than it holds halts with a notice; else HEAD passes the entry that was read. A launch record that can be
read and breaks no rule is taken; a false one completes at once with INVALID_RECORD. A wait condition is latched once its
word satisfies it. The launch of highest priority, of equals the next in turn, has its next block put, with its scratchpad
window zero, on the core with the fewest gangs, the lowest of equals; one that fits nowhere competes no more until a block of
its context gives up its resources. A dispatcher that is not ready does nothing of this (R407).
The model's choices: log 34, 35, 75. -/
def Obligations.Launches : Prop :=
  (∀ vf word size v s,
    (∀ n, (vfQueues s vf)[word]? = some n → size = 8 → scaleOut s n = false →
      ∃ t, exec (.kick vf word size v) s = .next t ∧ (∀ a, t.byte a = s.byte a) ∧
        t.queue n = { s.queue n with tail := v.truncate 32, pending := true } ∧ ∀ m, m ≠ n → t.queue m = s.queue m) ∧
    ((vfQueues s vf)[word]? = none ∨ size ≠ 8 → exec (.kick vf word size v) s = .next s)) ∧
  (∀ n s, dispatcherReady s = false → exec (.takeEntry n) s = .next s ∧ exec (.waitConditionPoll n) s = .next s ∧
    (∀ q0 scr tag, exec (.placement q0 scr tag) s = .next s) ∧ exec (.regionStaging n) s = .next s ∧
    exec (.gangStart n) s = .next s) ∧
  (∀ n s, frontOf s n = none → n < 1024 → dispatcherReady s = true →
    let q := s.queue n
    let w := (q.tail - q.head).toNat
    let va := q.qbase + dw (64 * (q.head.toNat % 2 ^ q.log2n))
    q.en = true → q.halt = false → scheduled s q.ctx = true →
      (w = 0 → ∃ t, exec (.takeEntry n) s = .next t ∧ t.queue n = { q with pending := false } ∧ ∀ a, t.byte a = s.byte a) ∧
      (2 ^ q.log2n < w → ∃ t, exec (.takeEntry n) s = .next t ∧ t.queue n = { q with halt := true, pending := false } ∧
        (∀ a, t.byte a = s.byte a) ∧ ((s.ring 64).pend.length < 64 →
          ∃ r, Posted s t 64 r ∧ r.cls = 3 ∧ r.cause = 3 ∧ r.aux = dw n)) ∧
      (w ≠ 0 → w ≤ 2 ^ q.log2n → ∀ p, hubAccess s q.ctx true false va 0 n 5 = .ok p → (readSectors s q.ctx p.addr 64).2 = none →
        ∃ t, exec (.takeEntry n) s = .next t ∧ t.queue n = { q with head := q.head + 1, pending := false })) ∧
  (∀ n s u l p, frontOf s n = some (u, l) → s.launch? u = some l → l.body = none → l.record.toNat % 128 = 0 →
      dispatcherReady s = true → hubAccess s l.ctx true false l.record 1 u 5 = .ok p → (readSectors s l.ctx p.addr 128).2 = none →
    let r := readRecord s p.addr
    (badRecord r = false → r.nreg = 0 → (∃ x ∈ partsOf s l.ctx, couldFit s x r.need (gangCount (shapeLanes r.shape)) = true) →
      ∃ t l' x, exec (.takeEntry n) s = .next t ∧ (∀ a, t.byte a = s.byte a) ∧ t.launch? u = some l' ∧ l'.body = some x ∧
        x.entry.toNat = s.readPhys p.addr 8 ∧ x.args.toNat = s.readPhys (p.addr + 8) 8 ∧ x.gx = s.readPhys (p.addr + 16) 4 ∧
        x.gy = s.readPhys (p.addr + 20) 4 ∧ x.gz = s.readPhys (p.addr + 24) 4 ∧ x.regions = [] ∧ l'.next = l.next ∧
        (x.bx + 1) * (x.bky + 1) * (x.bz + 1) ≤ 1024 ∧ l'.waits.length = r.nwait ∧ l'.ended = none) ∧
    (badRecord r = true → l.cmd = none → l.written = false → ∀ c,
        hubAccess (readSectors s l.ctx p.addr 128).1 l.ctx false true (dw (l.compl.toNat / 64 * 64)) 3 u 5 = .ok c →
        (∀ a, DirtyAt s c a → a < c.addr ∨ c.addr + 64 ≤ a) →
      ∃ t, exec (.takeEntry n) s = .next t ∧ t.launch? u = none ∧ t.readPhys c.addr 4 = 2 ∧
        ((s.ring (ringOf s l.ctx)).pend.length < 64 → ∃ x, Posted s t (ringOf s l.ctx) x ∧
          x.cls = 3 ∧ x.cause = 1 ∧ x.sub = 2 ∧ x.addrs = [l.record, l.compl]))) ∧
  (∀ u s l w p, s.launch? u = some l → l.waits = [w] → w.latched = false → l.ended = none → w.addr % 8 = 0 →
      dispatcherReady s = true → hubAccess s l.ctx true false (dw w.addr) 1 u 5 = .ok p → (readSectors s l.ctx p.addr 8).2 = none →
    let x := s.readPhys p.addr 8
    let sx : Int := (dw x).toInt
    ∃ t k, exec (.waitConditionPoll u) s = .next t ∧ (∀ a, t.byte a = s.byte a) ∧
      t.launch? u = some { l with waits := [{ w with latched := k }] } ∧
      (w.op = 0 → (k = true ↔ x = w.value.toNat)) ∧ (w.op = 1 → (k = true ↔ x ≠ w.value.toNat)) ∧
      (w.op = 2 → (k = true ↔ w.value.toNat ≤ x)) ∧ (w.op = 3 → (k = true ↔ x < w.value.toNat)) ∧
      (w.op = 4 → (k = true ↔ w.value.toInt ≤ sx)) ∧ (w.op = 5 → (k = true ↔ sx < w.value.toInt))) ∧
  (∀ q0 scr tag s u l r, servedLaunch s (competing s) = some (u, l, r) → fittingCores s l r = [] → dispatcherReady s = true →
    exec (.placement q0 scr tag) s = .next (s.setLaunch u { l with barred := true })) ∧
  (∀ q0 scr tag s u l r core, dispatcherReady s = true → servedLaunch s (competing s) = some (u, l, r) → leastCore s (fittingCores s l r) = some core →
      q0 < 4 → quartersFit s core (placeBank s (core / 32)) r.need (gangCount ((r.bx + 1) * (r.bky + 1) * (r.bz + 1))) q0 = true →
      scratchFits s core (placeBank s (core / 32)) r.need.scratch scr = true → tagsFit s core r.need.tags tag = true →
    (∀ x ∈ competing s, Launch.rank s x.2.1 < Launch.rank s l ∨
      (Launch.rank s x.2.1 = Launch.rank s l ∧ queueTurn s l.queue ≤ queueTurn s x.2.1.queue)) ∧
    (∀ c ∈ fittingCores s l r, residentGangs s core < residentGangs s c ∨ (residentGangs s core = residentGangs s c ∧ core ≤ c)) ∧
    ∃ t b, exec (.placement q0 scr tag) s = .next t ∧ (∀ a, t.byte a = s.byte a) ∧ t.block? s.uid = some b ∧ b.launch = u ∧
      b.index = l.next ∧ b.ctx = l.ctx ∧ b.core = core ∧ b.q0 = q0 ∧ b.scrbase = scr ∧ b.tagbase = tag ∧ b.need = r.need ∧
      b.phase = .staging 0 0 ∧ b.x ≤ r.gx ∧ b.y ≤ r.gy ∧ l.next = b.x + (r.gx + 1) * (b.y + (r.gy + 1) * b.z) ∧
      b.ngangs = ((r.bx + 1) * (r.bky + 1) * (r.bz + 1) + 63) / 64 ∧
      t.launch? u = some { l with next := l.next + 1, placedN := l.placedN + 1 } ∧ t.pf.lastServed = l.queue ∧
      (∀ o < 256 * r.need.scratch, t.sbyte (scrKey core b.bank scr + o) = 0) ∧
      ∀ i < b.ngangs, ∃ g, t.gang? (16 * s.uid + i) = some g ∧ g.block = s.uid ∧ g.idx = i ∧ g.sched.quarter = (q0 + i) % 4)

/-- R27, R32, R33, R40, R65, R158, R160, R162, R163: a piece of a region staged, up to the next sector boundary, stands in the
block's own scratchpad window and nowhere else; a block whose regions are staged starts its gangs with the state of R32's
table; a block that has nothing left to do leaves the machine with its gangs, and the last block of a launch writes STATUS OK
where no lane was killed, the launches of its context competing again (R157). The fairness timer of 256 instructions hands the gang to its next ready split; a ready active gang
that has not issued for 4096 cycles is boosted, and a ready pending one that has waited 4096 enters the active set, in the
place of an active gang of lowest PRI when the set is full; and a word that is no instruction traps.
The model's choices: log 22, 23, 35, 56, 61, 62, 75. -/
def Obligations.BlocksAndScheduling : Prop :=
  (∀ n s b i off r g p, dispatcherReady s = true → s.block? n = some b → b.phase = .staging i off → launchRec s b = some r → r.regions[i]? = some g →
      off < g.len → hubAccess s b.ctx true false (dw (g.gaddr + off)) 2 n 3 = .ok p → (sectorRead s (p.addr / 32)).2 = false →
    let len := min (32 - p.addr % 32) (g.len - off)
    let at1 := scrKey b.core b.bank (b.scrbase + g.soff + off)
    ∃ t, exec (.regionStaging n) s = .next t ∧ (∀ a, t.byte a = s.byte a) ∧ 0 < len ∧
      (∀ j < len, t.sbyte (at1 + j) = s.byte (p.addr + j)) ∧ (∀ a, (a < at1 ∨ at1 + len ≤ a) → t.sbyte a = s.sbyte a) ∧
      t.block? n = some { b with phase := if off + len < g.len then .staging i (off + len) else .staging (i + 1) 0 }) ∧
  (∀ n s b i off r g x, dispatcherReady s = true → s.block? n = some b → b.phase = .staging i off → launchRec s b = some r → r.regions[i]? = some g →
      hubAccess s b.ctx true false (dw (g.gaddr + off)) 2 n 3 = .bad x →
    ∃ t, exec (.regionStaging n) s = .next t ∧ t.block? n = none ∧
      ∀ l, t.launch? b.launch = some l → l.ended.isSome = true ∧ l.holds = false) ∧
  (∀ n s b i off r c, dispatcherReady s = true → s.block? n = some b → b.phase = .staging i off → launchRec s b = some r → r.regions.length ≤ i →
      s.ctx? b.ctx = some c →
    ∃ t, exec (.gangStart n) s = .next t ∧ (∀ a, t.byte a = s.byte a) ∧ (∀ a, t.sbyte a = s.sbyte a) ∧
      t.block? n = some { b with phase := .running } ∧ ∀ k ∈ blockGangs b n, ∀ g, s.gang? k = some g →
        ∃ g' sp, t.gang? k = some g' ∧ g'.split? = some sp ∧ g'.splitList.length = 1 ∧ g'.frames = g.frames ∧
          sp.pc = r.entry ∧ sp.exm = g'.live ∧ sp.lanes = g'.live ∧ sp.wait = .ready ∧
          (∀ l < 64, inLanes g'.live l = true ↔ 64 * g.idx + l < (r.bx + 1) * (r.bky + 1) * (r.bz + 1)) ∧
          (∀ v, g'.vget v = vzero) ∧ (∀ m, g'.mget m = if m = 0 then BitVec.allOnes 64 else 0) ∧
          (∀ j, g'.regs.gget j = .unresolved) ∧ g'.kget 1 = r.args ∧ (g'.kget 2).toNat = (b.y * 2 ^ 32 + b.x) % 2 ^ 64 ∧
          (g'.kget 3).toNat = (g.idx * 2 ^ 32 + b.z) % 2 ^ 64 ∧ (∀ j, j = 0 ∨ 4 ≤ j → g'.kget j = 0) ∧
          g'.regs.fsr = 0 ∧ g'.regs.fcr = 0 ∧ g'.regs.pri = r.need.prio ∧ g'.regs.wdlim = r.need.wdlim ∧
          g'.regs.lcnt = 0 ∧ g'.regs.scnt = 0) ∧
  (∀ n s b, s.block? n = some b → b.phase = .running → (∀ k ∈ blockGangs b n, gangDone s k = true) →
      (b.need.race = true → (s.array b.core).owner = some n → (s.array b.core).eval = none) →
    ∃ t, exec (.blockRetire n) s = .next t ∧ t.block? n = none ∧ (∀ k, k / 16 = n → t.gang? k = none) ∧
      (∀ c, (t.array c).owner ≠ some n) ∧
      ∀ l r c, s.launch? b.launch = some l → l.body = some r → l.ended = none → l.written = false → l.cmd = none → l.kblocks = 0 →
        l.klanes = 0 → b.killed = 0 → l.placedN = l.retired + 1 → l.placedN = (r.gx + 1) * (r.gy + 1) * (r.gz + 1) →
        hubAccess (removeBlock s n) l.ctx false true (dw (l.compl.toNat / 64 * 64)) 3 b.launch 5 = .ok c →
        (∀ a, DirtyAt s c a → a < c.addr ∨ c.addr + 64 ≤ a) →
          t.launch? b.launch = none ∧ t.readPhys c.addr 8 = 0 ∧
          ∀ v x, v ≠ b.launch → s.launch? v = some x →
            t.launch? v = some { x with barred := if x.ctx = b.ctx then false else x.barred }) ∧
  (∀ k s g, s.gang? k = some g →
    ∃ t, exec (.fairnessTimer k) s = .next t ∧ (∀ a, t.byte a = s.byte a) ∧ (∀ j, j ≠ k → t.gang? j = s.gang? j) ∧
      (256 ≤ g.fair ∨ g.fairDefer ≠ none → ∀ i, nextReady g = some i →
        (holdsResv g = false → t.gang? k = some { g with cur := i, fair := 0, fairDefer := none }) ∧
        (holdsResv g = true → g.fairDefer = none → t.gang? k = some { g with fairDefer := some 0 }) ∧
        (holdsResv g = true → ∀ n < 64, g.fairDefer = some n → t.gang? k = some g) ∧
        (holdsResv g = true → ∀ n, 64 ≤ n → g.fairDefer = some n → ∃ g' i', t.gang? k = some g' ∧ g'.cur = i' ∧ nextReady g = some i' ∧
          g'.fair = 0 ∧ g'.fairDefer = none ∧ g'.regs = g.regs ∧ ∀ sp, tget none g'.splits g.cur = some sp → sp.resv = none ∧ sp.spent = [])) ∧
      (nextReady g = none → t.gang? k = some g) ∧
      (g.fair < 256 → g.fairDefer = none → t.gang? k = some g)) ∧
  (∀ k s g, s.gang? k = some g → ∃ t, exec (.issueBoost k) s = .next t ∧ (∀ a, t.byte a = s.byte a) ∧
    (∀ j, j ≠ k → t.gang? j = s.gang? j) ∧
    t.gang? k = some { g with sched := { g.sched with boost := g.sched.boost ||
      (g.sched.active && !gangWaiting s g && decide (g.sched.lastIssue + 4096 ≤ s.cycle)) } }) ∧
  (∀ k s g, s.gang? k = some g → g.sched.active = false → gangWaiting s g = false → g.sched.waitSince + 4096 ≤ s.cycle →
    let act := (quarterGangs s k).filter fun e => e.2.sched.active
    ∃ t g', exec (.entryBoost k) s = .next t ∧ (∀ a, t.byte a = s.byte a) ∧ t.gang? k = some g' ∧ g'.sched.active = true ∧
      g'.regs = g.regs ∧ g'.splits = g.splits ∧
      (act.length < 8 → ∀ j, j ≠ k → t.gang? j = s.gang? j) ∧
      (8 ≤ act.length → ∃ v ∈ act, (∀ x ∈ act, v.2.regs.pri ≤ x.2.regs.pri) ∧ (∀ j, j ≠ k → j ≠ v.1 → t.gang? j = s.gang? j) ∧
        (v.1 ≠ k → ∀ x, s.gang? v.1 = some x → ∃ h, t.gang? v.1 = some h ∧ h.sched.active = false))) ∧
  (∀ s key g sp b n, Issues s key g sp b → Clear s key b g sp {} → fetch s b sp.pc = .illegal n →
    ∃ t, exec .illegalInstruction s = .next t ∧ Trapped s t key g b sp.pc 1 0 0 sp.exm n)

/-- R382 to R384, R386, R395, R396: the oldest pending record of a ring with space is written at TAIL, field by field, and TAIL
advances, once its STAMP has passed and its home takes it; FHEAD, FRING and the bits that a 1 clears; FSERVE lets a gang go on
that was parked for the record it names, at once if it runs in the foreground, and no other; one whose park limit is over in
the same cycle has left with its block; LCANCEL completes a launch that has no block with STATUS CANCELLED, or with the status
of an end that came before any block was placed, and sets ERR when nothing matches.
The model's choices: log 39, 43. -/
def Obligations.FaultRings : Prop :=
  (∀ n s x rest,
    let r := s.ring n
    let a := r.base + 128 * (r.tail.toNat % r.capacity)
    r.pend = x :: rest → r.base ≠ 0 → (r.tail - r.head).toNat < r.capacity → x.dev ≠ s.stamp →
    placeOpen s none ⟨false, a, 0, 0⟩ 1 = true →
    ∃ t, exec (.faultRecordWrite n) s = .next t ∧ t.ring n = { r with pend := rest, tail := r.tail + 1 } ∧
      (∀ m, m ≠ n → t.ring m = s.ring m) ∧ (∀ y, (y < a ∨ a + 128 ≤ y) → t.byte y = s.byte y) ∧
      t.readPhys a 8 = x.stamp.toNat ∧ t.readPhys (a + 8) 4 = x.seq % 2 ^ 32 ∧ t.readPhys (a + 12) 2 = x.src % 2 ^ 16 ∧
      t.readPhys (a + 14) 2 = x.ctx % 2 ^ 16 ∧ t.readPhys (a + 16) 1 = x.cls % 256 ∧ t.readPhys (a + 17) 1 = x.cause % 256 ∧
      t.readPhys (a + 18) 1 = x.sub % 256 ∧ t.readPhys (a + 19) 1 = min x.addrs.length 8 ∧
      t.readPhys (a + 20) 2 = x.gang % 2 ^ 16 ∧ t.readPhys (a + 22) 1 = x.stage % 256 ∧ t.readPhys (a + 23) 1 = 0 ∧
      t.readPhys (a + 24) 8 = x.pc.toNat ∧ t.readPhys (a + 32) 8 = x.block % 2 ^ 64 ∧ t.readPhys (a + 40) 8 = x.lanes.toNat ∧
      t.readPhys (a + 48) 8 = x.aux.toNat ∧ t.readPhys (a + 56) 8 = x.block / 2 ^ 64 % 2 ^ 32 ∧
      ∀ i < 8, t.readPhys (a + 64 + 8 * i) 8 = ((x.addrs[i]?).getD 0).toNat) ∧
  (∀ n s, (s.ring n).pend = [] ∨ (s.ring n).base = 0 ∨ (s.ring n).capacity ≤ ((s.ring n).tail - (s.ring n).head).toNat ∨
      (∃ x rest, (s.ring n).pend = x :: rest ∧ x.dev = s.stamp) →
    exec (.faultRecordWrite n) s = .next s) ∧
  (∀ n (v : DWord) s, n < 65 →
    (∃ t, exec (.fheadWrite n v) s = .next t ∧ (∀ a, t.byte a = s.byte a) ∧ t.ring n = { s.ring n with head := v.truncate 32 }) ∧
    (∃ t, exec (.fringWrite n v) s = .next t ∧ (∀ a, t.byte a = s.byte a) ∧
      t.ring n = { s.ring n with base := v.toNat / 2 ^ 12 * 2 ^ 12, size := min (v.toNat % 16) 8 }) ∧
    (∃ t, exec (.fstatWrite n false v) s = .next t ∧ (∀ a, t.byte a = s.byte a) ∧
      t.ring n = { s.ring n with ovf := (s.ring n).ovf && !v.getLsbD 63 }) ∧
    ∃ t, exec (.fstatWrite n true v) s = .next t ∧ (∀ a, t.byte a = s.byte a) ∧
      t.ring n = { s.ring n with err := (s.ring n).err && !v.getLsbD 63 }) ∧
  (∀ n v s k g seq since, s.gang? k = some g → g.hold = .park 0 n seq since false → s.waits = [] →
      (∀ e ∈ tentries s.launches, e.2.over = false) →
      (∀ e ∈ tentries s.gangs, e.1 ≠ k → ∀ u r q c x, e.2.hold ≠ .park u r q c x) →
    let late := ∃ b, s.block? g.block = some b ∧ b.phase = .running ∧ since + 16 * (s.part (b.core / 32)).park ≤ s.cycle
    (late → v.toNat % 2 ^ 32 = seq → ∃ t h b, exec (.fserve n v) s = .next t ∧ t.gang? k = some h ∧
      h.hold = .park 0 n seq since true ∧ t.block? g.block = some b ∧ b.phase = .swapped false false) ∧
    (¬late → ∃ t, exec (.fserve n v) s = .next t ∧ (∀ a, t.byte a = s.byte a) ∧
      (v.toNat % 2 ^ 32 = seq ∨ v.toNat % 2 ^ 32 = 2 ^ 32 - 1 → t.gang? k = some
        (if gangRuns s k then { g with hold := .none } else { g with hold := .park 0 n seq since true })) ∧
      (v.toNat % 2 ^ 32 ≠ seq → v.toNat % 2 ^ 32 ≠ 2 ^ 32 - 1 → t.gang? k = some g))) ∧
  (∀ page (v : DWord) s,
    let may := fun (l : Launch) => l.written = false ∧ l.compl.toNat / 64 = v.toNat / 64 ∧
      (page = 64 ∨ ∃ c, s.ctx? l.ctx = some c ∧ c.vf = page)
    (page < 65 → (∀ e ∈ tentries s.launches, ¬may e.2) →
      ∃ t, exec (.lcancel page v) s = .next t ∧ (∀ a, t.byte a = s.byte a) ∧ t.ring page = { s.ring page with err := true }) ∧
    (∀ u l c, s.launch? u = some l → may l → (∀ e ∈ tentries s.launches, e.1 ≠ u → ¬may e.2) → l.retired = l.placedN → l.cmd = none →
        hubAccess s l.ctx false true (dw (l.compl.toNat / 64 * 64)) 3 u 5 = .ok c →
        (∀ a, DirtyAt s c a → a < c.addr ∨ c.addr + 64 ≤ a) →
      ∃ t, exec (.lcancel page v) s = .next t ∧ t.launch? u = none ∧ t.readPhys c.addr 4 =
        match l.ended with
        | some st => if st ∈ [2, 3, 6, 7] then st else 5
        | none => 5))

/-- R339, R359, R385, R392, R394, R408: RESUME and SKIP let a trapped context's gangs go on, at the recorded PC or behind the
trapping instruction; KILL ends its blocks and cancels its launches; STOP swaps its blocks out and saves it, once no remote
request of it is on its way and what has performed for it has returned; START brings a saved one back, from its own area or
from another's, CREATE makes one with a new generation, both once the memory that they need is ready (R406); what is refused
sets ERR; and a function level reset kills each context of its VF and clears its pending kicks, the VF's registers staying.
The model's choices: log 11, 38, 42, 43, 60. -/
def Obligations.ContextControl : Prop :=
  (∀ page ctx s c, s.ctx? ctx = some c → page = 64 ∨ c.vf = page → c.state = .trapped → c.stopping = false → areaIntact s ctx = true →
    ∀ skip : Bool, (skip = true → ∀ e ∈ stoppedGangs s ctx, ∀ x, e.2.stopped = some x → x.skip.isSome = true) →
    ∃ t, exec (if skip then .ctxctlSkip page ctx else .ctxctlResume page ctx) s = .next t ∧
      (∃ c', t.ctx? ctx = some c' ∧ c' = { c with state := .running }) ∧
      (∀ k g sp x b, s.gang? k = some g → g.split? = some sp → g.stopped = some x → s.block? g.block = some b → b.ctx = ctx →
        ∃ g' sp', t.gang? k = some g' ∧ g'.split? = some sp' ∧ g'.stopped = none ∧ g'.regs = g.regs ∧
          sp'.pc = (if skip then sp.pc + dw (x.skip.getD 0) else sp.pc) ∧ sp'.exm = sp.exm ∧ sp'.lanes = sp.lanes) ∧
      ∀ n b r, s.block? n = some b → b.ctx = ctx → b.phase = .swapped true r →
        ∃ b', t.block? n = some b' ∧ b'.phase = .swapped true true) ∧
  (∀ page ctx s c, page < 65 → s.ctx? ctx = some c → c.state ≠ .trapped →
    ∃ t, exec (.ctxctlResume page ctx) s = .next t ∧ exec (.ctxctlSkip page ctx) s = .next t ∧ (∀ a, t.byte a = s.byte a) ∧
      t.ctx? ctx = some c ∧ t.ring page = { s.ring page with err := true }) ∧
  (∀ page ctx s c, s.ctx? ctx = some c → page = 64 ∨ c.vf = page →
    ∃ t c', exec (.ctxctlKill page ctx) s = .next t ∧ t.ctx? ctx = some c' ∧ c'.state = .killed ∧ c'.devq = [] ∧ c'.vf = c.vf ∧ c'.gen = c.gen ∧
      (∀ n b, s.block? n = some b → b.ctx = ctx → t.block? n = none ∧ ∀ k, k / 16 = n → t.gang? k = none) ∧
      ∀ u l, t.launch? u = some l → l.ctx = ctx → l.ended = some 5 ∨
        ∃ st x, st ∈ [2, 3, 6, 7] ∧ l.ended = some st ∧ s.launch? u = some x ∧ x.ended = some st) ∧
  (∀ ctx s c, s.ctx? ctx = some c → c.state = .running ∨ c.state = .trapped → c.stopping = false → areaOk c = true →
    let mine := fun k => ∃ b, s.block? (k / 16) = some b ∧ b.ctx = ctx
    let away := (∃ e ∈ tentries s.rreqs, e.2.sent ≠ 0 ∧ e.2.final = false ∧ mine e.2.gang) ∨
      ∃ e ∈ tentries s.reqs, e.2.dest ≠ .none ∧ (∃ x ∈ e.2.performed, x ∉ e.2.returned) ∧ mine e.2.gang
    ∃ t c', exec (.ctxctlStop 64 ctx) s = .next t ∧ t.ctx? ctx = some c' ∧
      (¬away → c' = { c with state := .stopped } ∧ t.readPhys c.save 8 = 3) ∧ (away → c' = { c with stopping := true }) ∧
      ∀ n b, s.block? n = some b → b.ctx = ctx → ∃ b', t.block? n = some b' ∧ b'.phase = .stopped) ∧
  (∀ ctx s a c, s.ctx? ctx = none ∨ (∃ x, s.ctx? ctx = some x ∧ x.state = .killed) →
      descriptorReady s ctx = true → descriptorAt s ctx = some a → readDescriptor s a freshCtx = some c → storesReady s c = true →
    ∃ t c', exec (.ctxctlCreate 64 ctx) s = .next t ∧ t.ctx? ctx = some c' ∧
      c' = { c with gen := (tget 0 s.energy.gens ctx + 1) % 2 ^ 16 } ∧ c'.state = .running ∧
      tget 0 t.energy.gens ctx = (tget 0 s.energy.gens ctx + 1) % 2 ^ 16) ∧
  (∀ ctx s, s.ctx? ctx = none → descriptorReady s ctx = false →
    exec (.ctxctlCreate 64 ctx) s = .next s ∧ exec (.ctxctlStart 64 ctx) s = .next s) ∧
  (∀ ctx s a d own sv c, s.ctx? ctx = none ∨ (∃ x, s.ctx? ctx = some x ∧ (x.state = .killed ∨ x.state = .stopped)) →
      descriptorReady s ctx = true → descriptorAt s ctx = some a → readDescriptor s a freshCtx = some d → storesReady s d = true →
    let here := (s.ctx? ctx).filter fun x => x.state == .stopped
    savedArea s ctx here.isSome d = some (own, sv) →
      (own = true → here.isSome = true → ∀ e ∈ sv.blocks, (s.block? e.1).isSome = true) →
      readDescriptor s a (if own then here.getD sv.ctx else sv.ctx) = some c → sv.ctx.parts = c.parts →
      shapeFits s c.vf sv = true → c.vf ∉ s.energy.refused → (sv.blocks.map (·.1)).Nodup →
    ∃ t c', exec (.ctxctlStart 64 ctx) s = .next t ∧ t.ctx? ctx = some c' ∧ c'.state = .running ∧
      c'.gen = s.readPhys (c.save + 16) 2 ∧ c'.tagcnt = s.readPhys (c.save + 24) 8 ∧ tget 0 t.energy.gens ctx = c'.gen ∧
      ∀ e ∈ sv.blocks, ∃ b, t.block? (e.1 + if own then 0 else s.uid) = some b ∧ b.ctx = ctx ∧ b.phase = .swapped false false ∧
        b.core = physCore s c.vf e.2.core) ∧
  (∀ page ctx s, page < 64 → ∃ t, exec (.ctxctlStart page ctx) s = .next t ∧ exec (.ctxctlCreate page ctx) s = .next t ∧
    exec (.ctxctlStop page ctx) s = .next t ∧ t.ctxs = s.ctxs ∧ (∀ a, t.byte a = s.byte a) ∧
    t.ring page = { s.ring page with err := true }) ∧
  (∀ vf s, vf < 64 → ∃ t, exec (.functionLevelReset vf) s = .next t ∧ t.vfs = s.vfs ∧
    (∀ x c, s.ctx? x = some c → c.vf = vf → ∃ c', t.ctx? x = some c' ∧ c'.state = .killed) ∧
    ∀ q ∈ vfQueues s vf, (t.queue q).pending = false)

/-- R338, R341, R342, R359, R388 to R390: a turn starts for the virtual function that is next, with min(slice + bank, max(burst,
slice)) less its debt as allowance; it drains once that is spent, or once QUANT has passed and another context is next; a
round ends by banking what was not used, up to BANKCAP slices; an urgent pre-emption stops the foreground bank at once with
shadow mode, and swaps every block out without; the swap flips the banks, for 384 cycles; and a spill, which leaves what has
not performed in the replay stores (R394), or a fill is complete for good.
The model's choices: log 38, 44, 56, 60. -/
def Obligations.WeirAndShadow : Prop :=
  (∀ p s vf idx ctx quant, p < 8 →
    let x := s.part p
    x.turn = none → x.flip = none → x.urgent = false → nextVf s p = some (vf, idx, ctx, quant) →
      (x.shadow = false ∧ x.spilled = true ∧ ∀ e ∈ partBlocks s p, e.2.ctx = ctx) ∨
        (x.shadow = true ∧ tget none x.owners x.fg = some ctx) →
      (∀ q, (s.queue q).ctx = ctx → (s.queue q).pending = false) →
    let slice := 2000 * (s.vf vf).slice
    ∃ t w, exec (.turnStart p) s = .next t ∧ (∀ a, t.byte a = s.byte a) ∧ (t.part p).turn = some w ∧ w.vf = vf ∧ w.ctx = some ctx ∧
      w.since = s.cycle ∧ w.quantSince = s.cycle ∧ w.quant = quant ∧ w.draining = none ∧ w.table = schedTable s vf ∧
      w.allowance = min ((slice : Int) + tget 0 x.bank vf) (max (2000 * (s.vf vf).burst) slice : Nat) - (tget 0 x.debt vf : Nat) ∧
      tget 0 (t.part p).debt vf = 0 ∧ vf ∈ (t.part p).served ∧ tget 0 (t.part p).lastEnt vf = idx + 1) ∧
  (∀ p s w, (s.part p).turn = some w → w.draining = none → (s.part p).flip = none →
    ((w.since : Int) + w.allowance ≤ s.cycle → ∃ t, exec (.sliceEnd p) s = .next t ∧
      t.part p = { s.part p with turn := some { w with draining := some s.cycle } } ∧ (∀ a, t.byte a = s.byte a) ∧
      ∀ q, q ≠ p → t.part q = s.part q) ∧
    ((s.cycle : Int) < w.since + w.allowance → exec (.sliceEnd p) s = .next s)) ∧
  (∀ p s w d c, (s.part p).turn = some w → w.draining = some d → w.ctx = some c → residentOn s c p = true →
    (d + 16 * (s.part p).drain ≤ s.cycle → (s.part p).flip = none → (s.part p).shadow = true →
      ∃ t, exec (.drainLimitExpiry p) s = .next t ∧ t.part p = { s.part p with urgent := true } ∧ ∀ a, t.byte a = s.byte a) ∧
    (s.cycle < d + 16 * (s.part p).drain → exec (.drainLimitExpiry p) s = .next s)) ∧
  (∀ p s w idx ctx quant, (s.part p).turn = some w → w.draining = none → (s.part p).flip = none →
      w.quantSince + 2000 * w.quant ≤ s.cycle → nextEntry s w.table w.vf p = some (idx, ctx, quant) →
    (w.ctx = some ctx → ∃ t, exec (.quantExpiry p) s = .next t ∧
      (t.part p).turn = some { w with quantSince := s.cycle, quant := quant } ∧ tget 0 (t.part p).lastEnt w.vf = idx + 1) ∧
    (∀ c, w.ctx = some c → c ≠ ctx → residentOn s c p = true → ∃ t, exec (.quantExpiry p) s = .next t ∧
      t.part p = { s.part p with turn := some { w with draining := some s.cycle } })) ∧
  (∀ p s, p < 8 →
    let x := s.part p
    x.turn = none → x.roundStart + 2000 * x.pround ≤ s.cycle → nextVf s p = none → (ownersOf s p).Nodup →
    ∃ t, exec (.roundEnd p) s = .next t ∧ (∀ a, t.byte a = s.byte a) ∧ (t.part p).roundStart = s.cycle ∧ (t.part p).served = [] ∧
      (t.part p).used = [] ∧ (∀ v, v ∉ ownersOf s p → tget 0 (t.part p).bank v = tget 0 x.bank v) ∧
      ∀ v ∈ ownersOf s p,
        let slice := 2000 * (s.vf v).slice
        let used := tget 0 x.used v
        tget 0 (t.part p).bank v =
          if used < slice then min (tget 0 x.bank v + (slice - used : Nat)) ((s.vf v).bankcap * slice : Nat) else tget 0 x.bank v) ∧
  (∀ p s w, (s.part p).turn = some w → (s.part p).flip = none → (s.part p).urgent = false → p < 8 →
      (∀ c, w.ctx = some c → residentOn s c p = false ∧ (w.draining = none → ctxWork s c p = false)) →
      (s.part p).shadow = true ∨ (s.part p).spilled = true → (w.since : Int) + w.allowance ≤ s.cycle → nextVf s p = none →
    let used := tget 0 (s.part p).used w.vf + (s.cycle - w.since)
    let slice := 2000 * (s.vf w.vf).slice
    ∃ t, exec (.turnStart p) s = .next t ∧ (∀ a, t.byte a = s.byte a) ∧ (t.part p).turn = none ∧ tget 0 (t.part p).used w.vf = used ∧
      tget 0 (t.part p).bank w.vf = tget 0 (s.part p).bank w.vf - (used - slice : Nat) ∧
      ((tget 0 (t.part p).debt w.vf : Nat) : Int) = ((s.cycle - w.since : Nat) : Int) - w.allowance) ∧
  (∀ p s, p < 8 → (s.part p).flip = none → (∀ e ∈ tentries s.cmds, e.2.running = []) →
    let gone := fun (t : State) => ∀ w, (s.part p).turn = some w →
      (t.part p).turn = if w.draining ≠ none ∧ (s.cycle : Int) < w.since + w.allowance then
        some { w with ctx := none, draining := some s.cycle } else none
    ((s.part p).shadow = true → ∃ t, exec (.urgent p) s = .next t ∧ t.part p = { s.part p with urgent := true } ∧
      ∀ a, t.byte a = s.byte a) ∧
    ((s.part p).shadow = false → ∃ t, exec (.urgent p) s = .next t ∧ gone t ∧ (∀ a, t.byte a = s.byte a) ∧
      ∀ n b, s.block? n = some b → b.core / 32 = p → b.resident = true →
        ∃ b', t.block? n = some b' ∧ b'.phase = .swapped false false ∧ b'.index = b.index ∧ b'.core = b.core)) ∧
  (∀ p s, p < 8 → (s.part p).shadow = true → (s.part p).urgent = true → (s.part p).flip = none →
      (∀ e ∈ tentries s.cmds, e.2.running = []) →
    ∃ t f, exec (.shadowSwap p) s = .next t ∧ (∀ a, t.byte a = s.byte a) ∧ (t.part p).fg = 1 - (s.part p).fg ∧
      (t.part p).urgent = false ∧ (t.part p).flip = some f ∧ f.since = s.cycle ∧ ∀ w, (s.part p).turn = some w →
        (t.part p).turn = if w.draining ≠ none ∧ (s.cycle : Int) < w.since + w.allowance then
          some { w with ctx := none, draining := some s.cycle } else none) ∧
  (∀ p s f, (s.part p).flip = some f →
    (f.since + 384 ≤ s.cycle → ∃ t, exec (.flipComplete p) s = .next t ∧ (t.part p).flip = none ∧
      (t.part p).turn = (s.part p).turn.map fun w =>
        { w with since := w.since + (s.cycle - f.since), quantSince := w.quantSince + (s.cycle - f.since) }) ∧
    (s.cycle < f.since + 384 → exec (.flipComplete p) s = .next s)) ∧
  (∀ p s, p < 8 → (∀ e ∈ spillBlocks s p, settled s e.1 = true) → (∀ e ∈ tentries s.ctxs, e.2.stopping = false) →
    ∃ t, exec (.spillComplete p) s = .next t ∧ (t.part p).spilled = true ∧
    ∀ ctx c, s.ctx? ctx = some c → areaOk c = true → (∃ e ∈ spillBlocks s p, e.2.ctx = ctx) →
      (∀ e ∈ spillBlocks s p, e.2.ctx = ctx) →
        let code := fun st : CtxState => match st with | .running => 0 | .trapped => 1 | .killed => 2 | .stopped => 3
        t.readPhys c.save 8 = code c.state ∧ t.readPhys (c.save + 16) 8 = c.gen % 2 ^ 64 ∧
          t.readPhys (c.save + 24) 8 = c.tagcnt % 2 ^ 64 ∧
          ∀ e ∈ spillBlocks s p, ∀ u r, s.req? u = some r → r.gang / 16 = e.1 → r.checked = true → r.bounced = false →
            r.allPerformed = false → r.space ≠ .engine → ∃ q, t.req? u = some q ∧ q.bounced = true ∧ q.cause = 6) ∧
  (∀ p s, ((s.part p).filled = true → exec (.fillComplete p) s = .next s) ∧
    ((s.part p).filled = false → (∀ e ∈ tentries s.cmds, e.2.running = []) →
      ∃ t, exec (.fillComplete p) s = .next t ∧ (t.part p).filled = true ∧ ∀ a, t.byte a = s.byte a))

/-- R151, R152, R166, R338, R339, R340, R343, R345, R347, R349, R358, R408: VPART is stored, or ignored with OWN where it
would take a partition from a resident context; VPOL stores at least TENANT; a floor is stored or ignored with ADMIT where a
channel's floors would exceed 2764; registers are written at their offsets by 8-byte writes only; a window that ends clears
its slots; an invalidation drops every translation of its range, and only those, once no access that used one is left, and a
whole one reads the descriptor again, once its home is ready; a read of a register page gives one value, zero where it is not
8 bytes at an aligned offset and where the register is written only, a kick page HEAD and TAIL of the queue that owns the word,
and the BAR0 of a virtual function its kick, meter and fault pages at their places, where writes reach them too; and DTWORD
returns a word and clears it, once the word's home takes the access, but clears nothing in a poisoned sector.
The model's choices: log 34, 46, 63, 64, 78. -/
def Obligations.HypervisorRegisters : Prop :=
  (∀ vf (v : DWord) s, vf < 64 →
    let new : BitVec 8 := v.truncate 8
    let taken := ∃ p < 8, (s.vf vf).vpart.getLsbD p = true ∧ new.getLsbD p = false ∧ vfResident s vf p = true
    let many := 8 < (List.range 64).countP fun i => v.getLsbD i
    (¬taken → (new ≠ 0 ∧ ¬many) ∨ vfHasCtx s vf = false → ∃ t, exec (.vpartWrite vf v) s = .next t ∧ (∀ a, t.byte a = s.byte a) ∧
      t.vf vf = { s.vf vf with vpart := new } ∧ ∀ u, u ≠ vf → t.vf u = s.vf u) ∧
    (taken ∨ ((new = 0 ∨ many) ∧ vfHasCtx s vf = true) → ∃ t, exec (.vpartWrite vf v) s = .next t ∧ (∀ a, t.byte a = s.byte a) ∧
      t.vfs = s.vfs ∧ t.pf.errOwn = true ∧ t.pf.errVf = vf)) ∧
  (∀ vf (v : DWord) s, vf < 64 →
    (v.toNat % 8 < 6 → ∃ t, exec (.vpolWrite vf v) s = .next t ∧ (∀ a, t.byte a = s.byte a) ∧
      t.vf vf = { s.vf vf with vpol := max 3 (v.toNat % 8) }) ∧
    (6 ≤ v.toNat % 8 → ∃ t, exec (.vpolWrite vf v) s = .next t ∧ (∀ a, t.byte a = s.byte a) ∧ t.vfs = s.vfs)) ∧
  (∀ chan g i (v : DWord) s, chan < 512 → g < 16 → i < 4 → twf 0 s.pf.floors = true →
    let vf := 4 * g + i
    let key := chan * 64 + vf
    let n := v.toNat / 2 ^ (16 * i) % 2 ^ 12
    (∀ j < 4, j ≠ i → v.toNat / 2 ^ (16 * j) % 2 ^ 12 = tget 0 s.pf.floors (chan * 64 + (4 * g + j))) →
      otherFloors s chan vf + tget 0 s.pf.floors key ≤ 2764 →
    (otherFloors s chan vf + n ≤ 2764 → ∃ t, exec (.floorWrite chan g v) s = .next t ∧ (∀ a, t.byte a = s.byte a) ∧
      tget 0 t.pf.floors key = n ∧ ∀ k, k ≠ key → tget 0 t.pf.floors k = tget 0 s.pf.floors k) ∧
    (2764 < otherFloors s chan vf + n → ∃ t, exec (.floorWrite chan g v) s = .next t ∧ t.pf.floors = s.pf.floors ∧
      t.pf.errAdmit = true ∧ t.pf.errChan = chan ∧ t.pf.errVf = vf)) ∧
  (∀ off size (v : DWord) s, size ≠ 8 → exec (.registerWrite off size v) s = .next s) ∧
  (∀ vf (v : DWord) s, vf < 64 → ∃ t, exec (.registerWrite (0x8010 + 64 * vf) 8 v) s = .next t ∧ (∀ a, t.byte a = s.byte a) ∧
    t.vf vf = { s.vf vf with slice := v.toNat % 2 ^ 16, bankcap := min (v.toNat / 2 ^ 16 % 16) 4,
                             burst := v.toNat / 2 ^ 32 % 2 ^ 16 }) ∧
  (∀ p (v : DWord) s, p < 8 → ∃ t, exec (.registerWrite (0x9000 + 256 * p) 8 v) s = .next t ∧ (∀ a, t.byte a = s.byte a) ∧
    t.part p = { s.part p with core := max 1 (v.toNat % 2 ^ 16), die := max 1 (v.toNat / 2 ^ 16 % 2 ^ 16),
                               memc := max 1 (v.toNat / 2 ^ 32 % 2 ^ 16), fabric := max 1 (v.toNat / 2 ^ 48 % 2 ^ 16) }) ∧
  (∀ q (v : DWord) s, q < 1024 → ∃ t, exec (.registerWrite (0xA000 + 16 * q) 8 v) s = .next t ∧ (∀ a, t.byte a = s.byte a) ∧
    t.queue q = { s.queue q with en := v.getLsbD 63, halt := (s.queue q).halt && !v.getLsbD 62, qpri := v.toNat / 2 ^ 56 % 16,
                                 log2n := max 6 (v.toNat / 2 ^ 52 % 16), ctx := v.toNat / 2 ^ 32 % 2 ^ 16 }) ∧
  (∀ (v : DWord) s, ∃ t, exec (.registerWrite 0x2008 8 v) s = .next t ∧ (∀ a, t.byte a = s.byte a) ∧
    t.pf = { s.pf with errOwn := s.pf.errOwn && !v.getLsbD 0, errAdmit := s.pf.errAdmit && !v.getLsbD 1,
                       errSched := s.pf.errSched && !v.getLsbD 2 }) ∧
  (∀ chan s, chan < 512 → tget 0 s.pf.windowAt chan < s.cycle / 2048 →
    ∃ t, exec (.weirWindow chan) s = .next t ∧ (∀ a, t.byte a = s.byte a) ∧ tget 0 t.pf.windowAt chan = s.cycle / 2048 ∧
      ∀ vf < 64, tget 0 t.pf.slots (chan * 64 + vf) = 0 ∧
        let closed := tget 0 s.mem.calcnt chan ≠ 0 ∧ tget 0 s.mem.calat chan < 2048 * (s.cycle / 2048) ∧
          2048 * tget 0 s.pf.windowAt chan < tget 0 s.mem.calat chan + 2000
        let floor := tget 0 s.pf.floors (chan * 64 + vf)
        let used := tget 0 s.pf.slots (chan * 64 + vf)
        tget 0 t.pf.deficit (chan * 64 + vf) = tget 0 s.pf.deficit (chan * 64 + vf) - (used - floor) +
          if closed ∧ vfWaiting s chan vf = true then floor - used else 0) ∧
  (∀ (v : DWord) s, v.getLsbD 63 = true →
    (s.pf.invRun ≠ none → ∃ t, exec (.invctlGo v) s = .next t ∧ t.pf = { s.pf with invErr := true }) ∧
    (s.pf.invRun = none → v.toNat / 2 ^ 59 % 4 ≠ 3 → ∃ t, exec (.invctlGo v) s = .next t ∧ (∀ a, t.byte a = s.byte a) ∧
      t.pf.invRun = some (v.toNat / 2 ^ 59 % 4, v.toNat / 2 ^ 32 % 2 ^ 16, s.pf.invaddr, v.toNat % 2 ^ 32))) ∧
  (∀ s stage ctx base, s.pf.invRun = some (stage, ctx, base, 0) → descriptorReady s ctx = false →
      exec .invalidationDone s = .next s) ∧
  (∀ s stage ctx base pages, s.pf.invRun = some (stage, ctx, base, pages) → ctx < 2 ^ 16 →
      (∀ e ∈ tentries s.reqs, invUser stage ctx base pages e.2 = false) → invEngine s stage ctx base pages = false →
      (pages = 0 → descriptorReady s ctx = true) →
    let bad := ∃ c, s.ctx? ctx = some c ∧ c.state ≠ .killed ∧ ∀ a, descriptorAt s ctx = some a → readDescriptor s a c = none
    ∃ t, exec .invalidationDone s = .next t ∧ t.pf.invRun = none ∧ (pages ≠ 0 ∨ ¬bad → ∀ a, t.byte a = s.byte a) ∧
      (pages = 0 → ∀ c a d, s.ctx? ctx = some c → c.state ≠ .killed → descriptorAt s ctx = some a → readDescriptor s a c = some d →
        t.ctx? ctx = some d) ∧
      (pages = 0 → bad → ∃ c, t.ctx? ctx = some c ∧ (c.state = .stopped ∨ c.stopping = true)) ∧
      (pages = 0 ∨ stage = 2 → ∀ u vpn, vpn < 2 ^ 48 → t.tlbGet u ctx vpn = none) ∧
      (pages ≠ 0 → stage = 0 → ∀ u vpn, vpn < 2 ^ 48 → base / 2 ^ 16 ≤ vpn → vpn < base / 2 ^ 16 + pages → t.tlbGet u ctx vpn = none) ∧
      (pages ≠ 0 → stage = 0 → ∀ u vpn, vpn < 2 ^ 48 → (vpn < base / 2 ^ 16 ∨ base / 2 ^ 16 + pages ≤ vpn) →
        t.tlbGet u ctx vpn = s.tlbGet u ctx vpn) ∧
      ∀ u c vpn, c < 2 ^ 16 → c ≠ ctx → vpn < 2 ^ 48 → t.tlbGet u c vpn = s.tlbGet u c vpn) ∧
  (∀ s rest, s.agenda = .mmioRead .bar0 0x2028 8 :: rest → dtOpen { s with agenda := rest } = false →
    step s = .next { s with agenda := rest }) ∧
  (∀ s rest page off size, s.agenda = .mmioRead page off size :: rest →
      (page = .bar0 → off = 0x2028 → dtOpen { s with agenda := rest } = true) →
    ∃ t x, step s = .next t ∧ t.mmioOut = s.mmioOut ++ [x] ∧
      (page ≠ .bar0 ∨ off ≠ 0x2028 → t = { s with agenda := rest, mmioOut := s.mmioOut ++ [x] }) ∧
      (size ≠ 8 ∨ off % 8 ≠ 0 → x = 0) ∧
      (size = 8 → off % 8 = 0 →
        (∀ vf, page = .fault vf → off ∈ [0x18, 0x20, 0x30] → x = 0) ∧
        (∀ vf, page = .meter vf → off = 0 → x = 0) ∧
        (page = .bar0 → off ∈ [0x18, 0x20, 0x30, 0x1000] → x = 0) ∧
        (∀ vf, page = .kick vf → (vfQueues s vf)[off / 8]? = none → x = 0) ∧
        (∀ vf n, page = .kick vf → (vfQueues s vf)[off / 8]? = some n →
          x = (s.queue n).head ++ (s.queue n).tail) ∧
        (∀ vf, vf < 64 → page = .fault vf → off = 0 → x.toNat = (s.ring vf).head.toNat) ∧
        (∀ vf, vf < 64 → page = .fault vf → off = 8 → x.toNat = (s.ring vf).tail.toNat) ∧
        (∀ vf, vf < 64 → page = .vf vf →
          (off < 0x2000 → x = mmioValue s (.kick vf) off 8) ∧
          (0x2000 ≤ off → off < 0x3000 → x = mmioValue s (.meter vf) (off - 0x2000) 8) ∧
          (0x3000 ≤ off → x = mmioValue s (.fault vf) (off - 0x3000) 8)) ∧
        (page = .bar0 → off = 0x2028 → ∀ c, s.ctx? (s.pf.dtsel.toNat / 2 ^ 32 % 2 ^ 16) = some c →
          let a := c.dirty + 8 * (s.pf.dtsel.toNat % 2 ^ 26)
          a % 8 = 0 → (sectorRead s (a / 32)).2 = false →
          x.toNat = s.readPhys a 8 ∧ t.readPhys a 8 = 0 ∧ ∀ y, (y < a ∨ a + 8 ≤ y) → t.byte y = s.byte y))) ∧
  (∀ s rest vf off size (v : DWord), vf < 64 → s.agenda = .vfWrite vf off size v :: rest →
    let w := { s with agenda := rest }
    (off % 8 ≠ 0 → step s = .next w) ∧
    (off % 8 = 0 →
      (off < 0x2000 → step s = exec (.kick vf (off / 8) size v) w) ∧
      (0x2000 ≤ off → size ≠ 8 → step s = .next w) ∧
      (size = 8 → (off = 0x2000 → step s = exec (.enreq vf v) w) ∧ (off = 0x2010 → step s = exec (.enctx vf v) w) ∧
        (off = 0x3000 → step s = exec (.fheadWrite vf v) w) ∧ (off = 0x3018 → step s = exec (.fserve vf v) w) ∧
        (off = 0x3030 → step s = exec (.lcancel vf v) w)))) ∧
  (∀ s c, s.ctx? (s.pf.dtsel.toNat / 2 ^ 32 % 2 ^ 16) = some c →
    let a := c.dirty + 8 * (s.pf.dtsel.toNat % 2 ^ 26)
    (dtOpen s = false → exec .dtword s = .next s) ∧
    (a % 8 = 0 → dtOpen s = true → ∃ t, exec .dtword s = .next t ∧
      ((sectorRead s (a / 32)).2 = false → t.pf.dtword.toNat = s.readPhys a 8 ∧ t.readPhys a 8 = 0 ∧
        ∀ x, (x < a ∨ a + 8 ≤ x) → t.byte x = s.byte x) ∧
      ((sectorRead s (a / 32)).2 = true → ∀ x, t.byte x = s.byte x)))

/-- R7, R8, R18, R352, R354, R356, R357, R401, R404 to R407: an energy request waits, and is answered by a record with the counter, the
next SEQ and both signatures; a metered unit's energy goes to its one user, or to the physical function; a counter leaves
and arrives without a step back, and a false record refuses the restore; SPDM answers in its order; a firmware image runs from
then on if both its signatures verify and is rejected as a whole otherwise; a channel closes for recalibration at its interval;
CLR, a patrol read, which waits for its channels, and a patrol period, at whose end every page that can be has been read; a warm
reset keeps memory, its history, what the save areas in it stand for and the counters, and puts the rows of uncorrectable events
and of 64 corrected ones into the repair map; a function is ready or failed, never both.
The model's choices: log 9 (the opaque signatures, and the answers of the two verifications as data of the turn), 14, 15, 46, 47, 48. -/
def Obligations.MetersAndUpkeep : Prop :=
  (∀ page (v : DWord) s, page < 64 →
    let x := s.vf page
    (∀ c, s.ctx? x.enctx = some c → c.vf = page → c.state ≠ .killed → x.enreq.length < 16 →
      ∃ t, exec (.enreq page v) s = .next t ∧ (∀ a, t.byte a = s.byte a) ∧ t.vf page = { x with enreq := x.enreq ++ [(x.enctx, v)] }) ∧
    (s.ctx? x.enctx = none → ∃ t, exec (.enreq page v) s = .next t ∧ t.vf page = x ∧ (∀ a, t.byte a = s.byte a) ∧
      ((s.ring page).pend.length < 64 → ∃ r, Posted s t page r ∧ r.cls = 3 ∧ r.cause = 8 ∧ r.src = 0x260)) ∧
    (∀ c, s.ctx? x.enctx = some c → c.vf = page → c.state ≠ .killed → 16 ≤ x.enreq.length → meterOpen s page x.enctx v = false →
      exec (.enreq page v) s = .next s) ∧
    (∀ a rest, x.enreq = a :: rest → .port 12 ∉ s.pf.ready ∨ meterOpen s page a.1 a.2 = false →
      exec (.energyRecord page) s = .next s) ∧
    ∃ t, exec (.enctx page v) s = .next t ∧ (∀ a, t.byte a = s.byte a) ∧ t.vf page = { x with enctx := v.toNat % 2 ^ 16 }) ∧
  (∀ s c a rest bs, (s.vf 64).enreq = (c, a) :: rest → .port 12 ∈ s.pf.ready → meterOpen s 64 c a = true →
      readMeter (blockSlots s 64 c a) 64 c a = some bs → badBlock bs = false → s.ctx? 65536 = none →
    let d := blockValue bs 8 8
    let idx := blockValue bs 0 1
    let u := Config.meterVf bs
    let user := if u < 64 then 8 * u + idx else 512
    (if u < 64 then idx < ((List.range 8).filter fun p => (s.vf u).vpart.getLsbD p).length ∧ user ∉ s.energy.moved else idx = 0) →
    d + 16672 ≤ 2 ^ 64 → (∀ i < 521, backed (d + 32 * i) 1 = true) →
    ∃ t, exec (.energyRecord 64) s = .next t ∧ (t.vf 64).enreq = rest ∧ t.energy.seq = s.energy.seq + 1 ∧
      t.energy.counters = s.energy.counters ∧ t.readPhys d 1 = 0 ∧ t.readPhys (d + 3) 1 = 0 ∧
      t.readPhys (d + 8) 8 = tget 0 s.energy.counters user / 1000 % 2 ^ 64 ∧ t.readPhys (d + 16) 8 = s.cycle / 2 % 2 ^ 64 ∧
      t.readPhys (d + 24) 8 = (s.energy.seq + 1) % 2 ^ 64 ∧ (∀ i < 32, t.byte (d + 32 + i) = bs.getD (16 + i) 0) ∧
      (∀ i < 384, t.byte (d + 64 + i) = (Config.rsaSign ((List.range 64).map fun j => t.byte (d + j))).getD i 0) ∧
      (∀ i < 16224, t.byte (d + 448 + i) = (Config.slhSign ((List.range 64).map fun j => t.byte (d + j))).getD i 0) ∧
      ∀ x, (x < d ∨ d + 16672 ≤ x) → t.byte x = s.byte x) ∧
  (∀ s c n, s.energy.since + 20000 ≤ s.cycle → .port 13 ∈ s.pf.ready →
    (∀ u w, usersOf s.energy.slots c = [(u, w)] → 0 < w → ∃ t, exec (.meterInterval [(.chan c, n)]) s = .next t ∧
      (∀ a, t.byte a = s.byte a) ∧ tget 0 t.energy.counters u = tget 0 s.energy.counters u + n ∧
      (∀ v, v ≠ u → tget 0 t.energy.counters v = tget 0 s.energy.counters v) ∧ t.energy.since = s.cycle ∧ t.energy.slots = []) ∧
    (usersOf s.energy.slots c = [] → ∃ t, exec (.meterInterval [(.chan c, n)]) s = .next t ∧
      tget 0 t.energy.counters 512 = tget 0 s.energy.counters 512 + n)) ∧
  (∀ (r : ExportRec) s,
    let key := 8 * r.vf + r.index
    let old := tget 0 s.energy.counters key
    (r.sigR = true → r.sigS = true → tget 0 s.energy.seen r.src < r.seq → ∃ t, exec (.energyImport r) s = .next t ∧
      (∀ a, t.byte a = s.byte a) ∧ tget 0 t.energy.counters key / 1000 = max (old / 1000) r.counter ∧
      (r.counter ≤ old / 1000 → tget 0 t.energy.counters key = old) ∧ tget 0 t.energy.seen r.src = r.seq ∧
      r.vf ∉ t.energy.refused) ∧
    (r.sigR = false ∨ r.sigS = false ∨ r.seq ≤ tget 0 s.energy.seen r.src → ∃ t, exec (.energyImport r) s = .next t ∧
      t.energy.counters = s.energy.counters ∧ r.vf ∈ t.energy.refused)) ∧
  (∀ ctx s c, s.ctx? ctx = some c → c.state = .stopped → c.parts = 1 → ∃ t x, exec (.energyExport ctx) s = .next t ∧
    (∀ a, t.byte a = s.byte a) ∧ t.energy.exports = s.energy.exports ++ [x] ∧ t.energy.seq = s.energy.seq + 1 ∧
    8 * c.vf ∈ t.energy.moved ∧ leValue (fun i => x.getD (8 + i) 0) 8 = tget 0 s.energy.counters (8 * c.vf) / 1000 % 2 ^ 64) ∧
  (∀ n s, 0 < n → n ≤ 2000 → exec (.powerLimit n) s = .next { s with pf := { s.pf with mhz := n } }) ∧
  (∀ s, .port 12 ∈ s.pf.ready →
    (∃ t, exec (.spdmRequest .getVersion) s = .next t ∧ t.energy.spdm = 1 ∧ t.energy.spdmOut.length = s.energy.spdmOut.length + 1) ∧
    (s.energy.spdm = 1 → ∀ flags, ∃ t, exec (.spdmRequest (.getCapabilities flags)) s = .next t ∧ t.energy.spdm = 2) ∧
    (s.energy.spdm = 2 → ∀ asym hash, ∃ t, exec (.spdmRequest (.negotiateAlgorithms asym hash)) s = .next t ∧
      t.energy.spdm = if asym &&& spdmAsym = 0 ∨ hash &&& spdmHash = 0 then 2 else 3) ∧
    ∀ r, 3 ≤ (spdmAnswer s r).1 → s.energy.spdm < 3 → ∃ t, exec (.spdmRequest r) s = .next t ∧ t.energy.spdm = s.energy.spdm) ∧
  (∀ s rest i image rsa slh, s.agenda = .firmware i image rsa slh :: rest →
    (rsa = true → slh = true → i < 4 → ∃ t, step s = .next t ∧ (∀ a, t.byte a = s.byte a) ∧ firmwareOf t i = image ∧
      ∀ j, j ≠ i → firmwareOf t j = firmwareOf s j) ∧
    (rsa = false ∨ slh = false → step s = .next { s with agenda := rest })) ∧
  (∀ chan s, chan < 512 → .chan chan ∈ s.pf.ready → tget 0 s.mem.calat chan + 2000000 * tget 32 s.mem.calint chan ≤ s.cycle →
    ∃ t, exec (.recalibration chan) s = .next t ∧ (∀ a, t.byte a = s.byte a) ∧
      tget 0 t.mem.calcnt chan = min (tget 0 s.mem.calcnt chan + 1) 65535 ∧ tget 0 t.mem.calat chan = s.cycle ∧
      chanClosed t chan = true) ∧
  (∀ (v : DWord) s, v.getLsbD 63 = true → ∃ t, exec (.peqdataClr v) s = .next t ∧ (∀ a, t.byte a = s.byte a) ∧
    (pageErr t s.mem.peqaddr).corr = 0 ∧ (pageErr t s.mem.peqaddr).uncorr = 0 ∧
    ∀ p, spared t p = spared s p) ∧
  (∀ page s, page < hbmPages → lastTenth s = true → page ∉ s.mem.ckptPages → page ∉ s.mem.patrolPages → pageReady s page = true →
    (pageOpen s page = false → exec (.patrolRead page) s = .next s) ∧
    (pageOpen s page = true → ∃ t, exec (.patrolRead page) s = .next t ∧ (∀ a, t.byte a = s.byte a) ∧ page ∈ t.mem.patrolPages ∧
      ∀ i < 2048, (tget 0 t.mem.errors (2048 * page + i) = 1 → s.poisoned (2048 * page + i) = true) ∧
        (2 ≤ tget 0 s.mem.errors (2048 * page + i) → t.poisoned (2048 * page + i) = true))) ∧
  (∀ s, s.mem.periodStart + 2000000000 * s.mem.period ≤ s.cycle → ∃ t, exec .scrubPeriod s = .next t ∧ (∀ a, t.byte a = s.byte a) ∧
    t.mem.ckpt = s.mem.ckptPages.length ∧ t.mem.patrol = readyPages s - s.mem.ckptPages.length ∧ t.mem.ckptPages = [] ∧
    t.mem.patrolPages = [] ∧ t.mem.periodStart = s.cycle ∧
    ∀ sec, sec / 2048 < hbmPages → pageReady s (sec / 2048) = true → sec / 2048 ∉ s.mem.ckptPages → sec / 2048 ∉ s.mem.patrolPages →
      2 ≤ tget 0 s.mem.errors sec → t.poisoned sec = true) ∧
  (∀ s, (s.mem.stale.map (·.1)).Nodup → ∃ t, exec .warmReset s = .next t ∧
    (∀ a, t.byte a = match tget none s.mem.stale a with | some x => x | none => s.byte a) ∧
    (∀ x, x ∈ t.mem.poison ↔ x ∈ s.mem.poison ∨ x ∈ s.mem.oldPoison) ∧ t.mem.store = [] ∧ t.mem.stale = [] ∧
    t.energy.counters = s.energy.counters ∧ t.cycle = s.cycle ∧ (∀ p, pageErr t p = pageErr s p) ∧ t.areas = s.areas ∧
    (∀ row, row ∈ t.mem.replaced ↔ row ∈ s.mem.replaced ∨ (∃ p, (p, row) ∈ s.mem.badRows) ∨ ∃ n, 64 ≤ n ∧ (row, n) ∈ s.mem.rows) ∧ t.gangs = [] ∧ t.ctxs = [] ∧ t.tlb = [] ∧ t.rings = [] ∧ t.vfs = [] ∧
    t.parts = [] ∧ t.queues = [] ∧ t.pf = State.reset.pf ∧ t.core = State.reset.core ∧ t.energy.spdm = 0) ∧
  (∀ s, exec .coldReset s = .next { State.reset with agenda := s.agenda }) ∧
  (∀ f s, isFn f = true → f ∉ s.pf.ready → f ∉ s.pf.failed →
    exec (.readiness f true) s = .next { s with pf := { s.pf with ready := s.pf.ready ++ [f] } } ∧
    exec (.readiness f false) s = .next { s with pf := { s.pf with failed := s.pf.failed ++ [f] } })

/-- R338, R340, R343, R347, R383, R405, R407, R166, R151: after a cold reset nothing is ready, no context and no work exists, every
register has the value that its table gives, but CTXTAB, for which R358 gives none and the model takes zero (log 4), and the
stores are in their canonical form.
The model's choices: log 3, 4, 51. -/
def Obligations.ResetState : Prop :=
  Canon State.reset ∧ Keyed State.reset ∧ State.reset.pf.ready = [] ∧ State.reset.pf.failed = [] ∧ State.reset.tlb = [] ∧
  State.reset.walks = [] ∧ State.reset.ahead = [] ∧ State.reset.areas = [] ∧ State.reset.mem.replaced = [] ∧
  State.reset.mem.badRows = [] ∧ State.reset.core.l1 = [] ∧ State.reset.core.icache = [] ∧ State.reset.mem.store = [] ∧
  (∀ c, State.reset.ctx? c = none) ∧ (∀ k, State.reset.gang? k = none) ∧
  (∀ n, State.reset.block? n = none) ∧ (∀ u, State.reset.launch? u = none ∧ State.reset.req? u = none) ∧
  (∀ v, let x := State.reset.vf v
    x.vpart = 0 ∧ x.vpol = 3 ∧ x.burst = 3000 ∧ x.bankcap = 2 ∧ x.slice = 1000 ∧ x.vsBase = 0 ∧ x.vsCount = 0 ∧ x.enctx = 0xFFFF) ∧
  (∀ p, let x := State.reset.part p
    x.fabric = 2000 ∧ x.memc = 1000 ∧ x.die = 128 ∧ x.core = 32 ∧ x.park = 2500 ∧ x.shadow = false ∧ x.pround = 4000 ∧
    x.drain = 12500 ∧ x.turn = none) ∧
  (∀ q, let x := State.reset.queue q
    x.en = false ∧ x.halt = false ∧ x.qpri = 0 ∧ x.log2n = 6 ∧ x.ctx = 0 ∧ x.head = 0 ∧ x.pending = false) ∧
  (∀ n, let x := State.reset.ring n
    x.base = 0 ∧ x.size = 0 ∧ x.head = 0 ∧ x.tail = 0 ∧ x.ovf = false ∧ x.err = false ∧ x.pend = [] ∧ x.seq = 1) ∧
  (∀ k, tget 0 State.reset.pf.floors k = 0) ∧ State.reset.pf.invRun = none ∧ State.reset.pf.ctxtab = 0 ∧
  State.reset.mem.period = 86400 ∧ ∀ c, tget 32 State.reset.mem.calint c = 32 ∧ tget 0 State.reset.mem.calcnt c = 0

/-- R2, R40, R41, R65, R158, R159, R162: where a gang may issue and nothing waits for its boundary, and the bytes at its PC, on an
executable page that its instruction cache or a ready home gives, decode within the 32-byte block to an instruction, a step is
that instruction's own effect on the state that names the gang as the one that issues; that state differs from the one before
in what the scheduler sees and the fetch charges, and a gang alone in its quarter may issue once a cycle. A gang that may not
issue leaves that state. A step whose turn is a row without a word is that row's own effect, and a turn of time passes its
cycles and changes nothing else but what the schedulers see.
The model's choices: log 2 (the agenda), 22 (the active set and its moments), 45 (a fetch that waits for its home and runs what a
poisoned sector holds), 49, 65 (the instruction cache). -/
def Obligations.StepRunsDecoded : Prop :=
  (∀ s rest n, s.agenda = .elapse n :: rest →
    ∃ t, step s = .next t ∧ t = { s with agenda := rest, cycle := s.cycle + n, gangs := t.gangs } ∧ (n = 0 → t.gangs = s.gangs) ∧
      (∀ k g, s.gang? k = some g → ∃ c f d x, t.gang? k = some { g with cur := c, fair := f, fairDefer := d, sched := x }) ∧
      ((∀ e ∈ tentries s.gangs, (quarterGangs s e.1).length ≤ 1 ∧ e.2.splitList.length ≤ 1 ∧ e.2.sched.active = true) →
        t.gangs = s.gangs)) ∧
  (∀ s rest i, s.agenda = .event i :: rest → encode i = none → step s = exec i { s with agenda := rest }) ∧
  ∀ s key rest, s.agenda = .issue key :: rest →
    let u := issuer { s with agenda := rest } key
    (u.cur = some key ∧ u.agenda = rest ∧ u.cycle = s.cycle ∧ (∀ a, u.byte a = s.byte a) ∧ (∀ a, u.sbyte a = s.sbyte a) ∧
      u.blocks = s.blocks ∧ u.ctxs = s.ctxs ∧ u.tlb = s.tlb ∧ u.reqs = s.reqs ∧ u.launches = s.launches ∧
      ∀ k g, s.gang? k = some g → ∃ c f d x, u.gang? k = some { g with cur := c, fair := f, fairDefer := d, sched := x }) ∧
    (∀ g, quarterGangs s key = [(key, g)] → s.gang? key = some g → g.splitList.length ≤ 1 → g.sched.active = true →
        cycleOpen s g = true →
      mayIssue u key = true ∧ ∃ x, u.gang? key = some { g with sched := { g.sched with unit := x } }) ∧
    (mayIssue u key = false → step s = .next u) ∧
    ∀ g sp b pa gpa w rd i, mayIssue u key = true → u.gang? key = some g → g.split? = some sp →
        u.block? g.block = some b → g.sched.active = true → sp.eff = [] → g.traps = [] → fairDue g = false →
        u.tlbGet b.core b.ctx (sp.pc.toNat / 2 ^ 16) = some (.page pa gpa true w rd) →
      let a := pa / 2 ^ 16 * 2 ^ 16 + sp.pc.toNat % 2 ^ 16
      (b.core, a / 32) ∈ u.core.icache ∨
          placeOpen u (ctxVf u b.ctx) ⟨false, a, gpa / 2 ^ 16 * 2 ^ 16 + sp.pc.toNat % 2 ^ 16, b.ctx⟩ 1 = true →
        (s.byte a).toNat % 4 ≠ 3 →
      let n := lenBytes (s.byte a).toNat
      decodeBytes ((List.range n).map fun j => s.byte (a + j)) = .ok i → sp.pc.toNat % 32 + n ≤ 32 →
      step s = exec i u

/-- R43 to R64 and the words that the spec's files write out: each of these words decodes to the instruction that the spec names
beside it. -/
def Obligations.DecodeWords : Prop :=
  decode 0x4 = .ok (.exit ⟨0, false⟩) ∧
  decode 0x0C0A080028 = .ok (.addk 4 5 6) ∧
  decode 0x10_00000000_0808002D = .ok (.addkImm 4 4 16) ∧
  decode 0x158000E0C0A0028 = .ok (.mink true 5 6 7) ∧
  decode 0x0A060030 = .ok (.ktov ⟨0, false⟩ .b32 3 5) ∧
  decode 0x200A000E0C0030 = .ok (.vtok .b32 6 7 5) ∧
  decode 0x100000E003C = .ok (.srd 7 .lcnt) ∧
  decode 0xE0000000040 = .ok (.trap 7) ∧
  decode 0x60000000048 = .ok (.cjoin 3) ∧
  decode 0xFFFFFFC0_01401400_0A00000D = .ok (.brc .lt 5 (.imm 10) (-64)) ∧
  decode 0x20012100800D0 = .ok (.vadd ⟨0, false⟩ false .s32 4 8 9) ∧
  decode 0x20012100960D0 = .ok (.vadd ⟨3, true⟩ false .s32 4 8 9) ∧
  decode 0x40_2C000004_08120681 = .ok (.ld ⟨0, false⟩ .full .b32 .acq .device .global 9 ⟨4, some 2, 0x40⟩ 3) ∧
  decode 0x640400040A060891 = .ok (.atom ⟨0, false⟩ .add true .n32 .plain .device .global 3 ⟨5, some 2, 0⟩ 4) ∧
  decode 0x40_2D000004_120806C1 = .ok (.rld ⟨0, false⟩ .full .b32 .acq 4 (.uni 9) (some 2) 0x40 3) ∧
  decode 0x141414040000000C0A0800E5 = .ok (.vprmb ⟨0, false⟩ 4 5 6 0x14141404) ∧
  decode 0x1816000070 = .ok (.resume 11 12) ∧
  decode 0x40_00001816_14280065 = .ok (.hpush 20 10 11 12 0x40) ∧
  decode 0x800A0000180590 = .ok (.rccap (.row 5) 12 2) ∧
  decode 0x20016100C0000_08005040280001A2 = .ok (.pair ⟨⟨0, false⟩, .vadd false, .s32, 5, 8, 10, 0⟩ ⟨⟨0, false⟩, .vadd false, .s32, 6, 8, 11, 0⟩) ∧
  decode 0x3 = .error .badLen ∧ decode 0x1FC = .error .reservedMajor

/-- R40 to R65: decoding the word of a well-formed instruction gives the instruction back, with every operand at every value its
encoding admits, and the word is no longer than the instruction. -/
def Obligations.DecodeOfEncode : Prop :=
  ∀ (i : Instr) (w : Nat), i.wf = true → encode i = some w → decode w = .ok i ∧ w < 2 ^ (8 * i.size)

/-- R40, R49, R65: a word that decodes decodes to a well-formed instruction, whose word it is: no bit of a word goes unread. -/
def Obligations.EncodeOfDecode : Prop :=
  ∀ (w : Nat) (i : Instr), decode w = .ok i → i.wf = true ∧ encode i = some (w % 2 ^ (8 * i.size))

/-- Every step keeps the canonical form of the stores: addresses strictly rise, and nothing is listed that reads as an
unlisted place does (the model's own form of R12 and R13's stores).
The model's choices: log 3. -/
def Obligations.StepKeepsStores : Prop := ∀ s t, Canon s → step s = .next t → Canon t

/-- R20, R21, R25: every step keeps the numbering of gangs by their blocks, and no launch is taken whose blocks have more than 1024
lanes.
The model's choices: log 51. -/
def Obligations.StepKeepsKeys : Prop := ∀ s t, Keyed s → step s = .next t → Keyed t
end

