-- ==== Sys2Proof/Laws/Dispatch.lean ====
section
/-! SUPPORT. The arms of `exec`, one equation for each constructor of `Instr`. -/

namespace Sys2Proof.Machine

@[simp] theorem exec_nop (σ : State) :
    exec (.nop) σ = execNop σ := rfl
@[simp] theorem exec_exit (p : Pred) (σ : State) :
    exec (.exit p) σ = execExit p σ := rfl
@[simp] theorem exec_bra (off : BitVec 32) (σ : State) :
    exec (.bra off) σ = execBra off σ := rfl
@[simp] theorem exec_brc (c : BrCond) (a : KReg) (y : KSrc) (off : BitVec 32) (σ : State) :
    exec (.brc c a y off) σ = execBrc c a y off σ := rfl
@[simp] theorem exec_brd (neg : Bool) (a : MReg) (off : BitVec 32) (σ : State) :
    exec (.brd neg a off) σ = execBrd neg a off σ := rfl
@[simp] theorem exec_brv (v : Vote) (a : MReg) (off : BitVec 32) (σ : State) :
    exec (.brv v a off) σ = execBrv v a off σ := rfl
@[simp] theorem exec_call (d : KReg) (off : BitVec 32) (σ : State) :
    exec (.call d off) σ = execCall d off σ := rfl
@[simp] theorem exec_ret (a : KReg) (σ : State) :
    exec (.ret a) σ = execRet a σ := rfl
@[simp] theorem exec_merge (σ : State) :
    exec (.merge) σ = execMerge σ := rfl
@[simp] theorem exec_movk (f : MovkForm) (d : KReg) (imm : BitVec 32) (σ : State) :
    exec (.movk f d imm) σ = execMovk f d imm σ := rfl
@[simp] theorem exec_addk (d a b : KReg) (σ : State) :
    exec (.addk d a b) σ = execAddk d a b σ := rfl
@[simp] theorem exec_subk (d a b : KReg) (σ : State) :
    exec (.subk d a b) σ = execSubk d a b σ := rfl
@[simp] theorem exec_mulk (d a b : KReg) (σ : State) :
    exec (.mulk d a b) σ = execMulk d a b σ := rfl
@[simp] theorem exec_mulhk (sgn : Bool) (d a b : KReg) (σ : State) :
    exec (.mulhk sgn d a b) σ = execMulhk sgn d a b σ := rfl
@[simp] theorem exec_andk (d a b : KReg) (σ : State) :
    exec (.andk d a b) σ = execAndk d a b σ := rfl
@[simp] theorem exec_ork (d a b : KReg) (σ : State) :
    exec (.ork d a b) σ = execOrk d a b σ := rfl
@[simp] theorem exec_xork (d a b : KReg) (σ : State) :
    exec (.xork d a b) σ = execXork d a b σ := rfl
@[simp] theorem exec_shlk (d a b : KReg) (σ : State) :
    exec (.shlk d a b) σ = execShlk d a b σ := rfl
@[simp] theorem exec_shrk (d a b : KReg) (σ : State) :
    exec (.shrk d a b) σ = execShrk d a b σ := rfl
@[simp] theorem exec_sark (d a b : KReg) (σ : State) :
    exec (.sark d a b) σ = execSark d a b σ := rfl
@[simp] theorem exec_mink (sgn : Bool) (d a b : KReg) (σ : State) :
    exec (.mink sgn d a b) σ = execMink sgn d a b σ := rfl
@[simp] theorem exec_maxk (sgn : Bool) (d a b : KReg) (σ : State) :
    exec (.maxk sgn d a b) σ = execMaxk sgn d a b σ := rfl
@[simp] theorem exec_addkImm (d a : KReg) (imm : BitVec 32) (σ : State) :
    exec (.addkImm d a imm) σ = execAddkImm d a imm σ := rfl
@[simp] theorem exec_subkImm (d a : KReg) (imm : BitVec 32) (σ : State) :
    exec (.subkImm d a imm) σ = execSubkImm d a imm σ := rfl
@[simp] theorem exec_mulkImm (d a : KReg) (imm : BitVec 32) (σ : State) :
    exec (.mulkImm d a imm) σ = execMulkImm d a imm σ := rfl
@[simp] theorem exec_mulhkImm (sgn : Bool) (d a : KReg) (imm : BitVec 32) (σ : State) :
    exec (.mulhkImm sgn d a imm) σ = execMulhkImm sgn d a imm σ := rfl
@[simp] theorem exec_andkImm (d a : KReg) (imm : BitVec 32) (σ : State) :
    exec (.andkImm d a imm) σ = execAndkImm d a imm σ := rfl
@[simp] theorem exec_orkImm (d a : KReg) (imm : BitVec 32) (σ : State) :
    exec (.orkImm d a imm) σ = execOrkImm d a imm σ := rfl
@[simp] theorem exec_xorkImm (d a : KReg) (imm : BitVec 32) (σ : State) :
    exec (.xorkImm d a imm) σ = execXorkImm d a imm σ := rfl
@[simp] theorem exec_shlkImm (d a : KReg) (imm : BitVec 32) (σ : State) :
    exec (.shlkImm d a imm) σ = execShlkImm d a imm σ := rfl
@[simp] theorem exec_shrkImm (d a : KReg) (imm : BitVec 32) (σ : State) :
    exec (.shrkImm d a imm) σ = execShrkImm d a imm σ := rfl
@[simp] theorem exec_sarkImm (d a : KReg) (imm : BitVec 32) (σ : State) :
    exec (.sarkImm d a imm) σ = execSarkImm d a imm σ := rfl
@[simp] theorem exec_minkImm (sgn : Bool) (d a : KReg) (imm : BitVec 32) (σ : State) :
    exec (.minkImm sgn d a imm) σ = execMinkImm sgn d a imm σ := rfl
@[simp] theorem exec_maxkImm (sgn : Bool) (d a : KReg) (imm : BitVec 32) (σ : State) :
    exec (.maxkImm sgn d a imm) σ = execMaxkImm sgn d a imm σ := rfl
@[simp] theorem exec_ktov (p : Pred) (t : Ty) (d : VReg) (a : KReg) (σ : State) :
    exec (.ktov p t d a) σ = execKtov p t d a σ := rfl
@[simp] theorem exec_vtok (t : Ty) (d : KReg) (a : VReg) (lane : Nat) (σ : State) :
    exec (.vtok t d a lane) σ = execVtok t d a lane σ := rfl
@[simp] theorem exec_ktom (d : MReg) (a : KReg) (σ : State) :
    exec (.ktom d a) σ = execKtom d a σ := rfl
@[simp] theorem exec_mtok (d : KReg) (a : MReg) (σ : State) :
    exec (.mtok d a) σ = execMtok d a σ := rfl
@[simp] theorem exec_mand (d a b : MReg) (σ : State) :
    exec (.mand d a b) σ = execMand d a b σ := rfl
@[simp] theorem exec_mor (d a b : MReg) (σ : State) :
    exec (.mor d a b) σ = execMor d a b σ := rfl
@[simp] theorem exec_mxor (d a b : MReg) (σ : State) :
    exec (.mxor d a b) σ = execMxor d a b σ := rfl
@[simp] theorem exec_mnot (d a : MReg) (σ : State) :
    exec (.mnot d a) σ = execMnot d a σ := rfl
@[simp] theorem exec_mpopc (d : KReg) (a : MReg) (σ : State) :
    exec (.mpopc d a) σ = execMpopc d a σ := rfl
@[simp] theorem exec_mfirst (d : KReg) (a : MReg) (σ : State) :
    exec (.mfirst d a) σ = execMfirst d a σ := rfl
@[simp] theorem exec_movx (f : MovxForm) (σ : State) :
    exec (.movx f) σ = execMovx f σ := rfl
@[simp] theorem exec_srd (d : KReg) (r : SysReg) (σ : State) :
    exec (.srd d r) σ = execSrd d r σ := rfl
@[simp] theorem exec_swr (r : SysReg) (a : KReg) (σ : State) :
    exec (.swr r a) σ = execSwr r a σ := rfl
@[simp] theorem exec_swrErrq (a : KReg) (σ : State) :
    exec (.swrErrq a) σ = execSwrErrq a σ := rfl
@[simp] theorem exec_swrTwin (a : KReg) (σ : State) :
    exec (.swrTwin a) σ = execSwrTwin a σ := rfl
@[simp] theorem exec_swrRcstat (a : KReg) (σ : State) :
    exec (.swrRcstat a) σ = execSwrRcstat a σ := rfl
@[simp] theorem exec_trap (code : BitVec 8) (σ : State) :
    exec (.trap code) σ = execTrap code σ := rfl
@[simp] theorem exec_bar (σ : State) :
    exec (.bar) σ = execBar σ := rfl
@[simp] theorem exec_cjoin (c : Nat) (σ : State) :
    exec (.cjoin c) σ = execCjoin c σ := rfl
@[simp] theorem exec_cleave (c : Nat) (σ : State) :
    exec (.cleave c) σ = execCleave c σ := rfl
@[simp] theorem exec_cbar (c : Nat) (σ : State) :
    exec (.cbar c) σ = execCbar c σ := rfl
@[simp] theorem exec_setpri (p : Nat) (σ : State) :
    exec (.setpri p) σ = execSetpri p σ := rfl
@[simp] theorem exec_yieldTurn (σ : State) :
    exec (.yieldTurn) σ = execYieldTurn σ := rfl
@[simp] theorem exec_waitc (n m : Nat) (σ : State) :
    exec (.waitc n m) σ = execWaitc n m σ := rfl
@[simp] theorem exec_sleep (a : KReg) (σ : State) :
    exec (.sleep a) σ = execSleep a σ := rfl
@[simp] theorem exec_sleepExpiry (gang split : Nat) (σ : State) :
    exec (.sleepExpiry gang split) σ = execSleepExpiry gang split σ := rfl
@[simp] theorem exec_hpush (vp : VReg) (ks kt ki : KReg) (off : BitVec 32) (σ : State) :
    exec (.hpush vp ks kt ki off) σ = execHpush vp ks kt ki off σ := rfl
@[simp] theorem exec_hpop (σ : State) :
    exec (.hpop) σ = execHpop σ := rfl
@[simp] theorem exec_perform (p : Pred) (kind : TokKind) (d a : VReg) (kw : KReg) (id : Nat) (σ : State) :
    exec (.perform p kind d a kw id) σ = execPerform p kind d a kw id σ := rfl
@[simp] theorem exec_resume (kt : KReg) (vs : VReg) (σ : State) :
    exec (.resume kt vs) σ = execResume kt vs σ := rfl
@[simp] theorem exec_fwd (kt : KReg) (va : VReg) (σ : State) :
    exec (.fwd kt va) σ = execFwd kt va σ := rfl
@[simp] theorem exec_tkdrop (a : KReg) (σ : State) :
    exec (.tkdrop a) σ = execTkdrop a σ := rfl
@[simp] theorem exec_tkstat (d a : KReg) (σ : State) :
    exec (.tkstat d a) σ = execTkstat d a σ := rfl
@[simp] theorem exec_ld (p : Pred) (w : Width) (t : Ty) (o : MemOrd) (sc : Scope) (sp : Space) (d : VReg) (m : MemArg) (la : Nat) (σ : State) :
    exec (.ld p w t o sc sp d m la) σ = execLd p w t o sc sp d m la σ := rfl
@[simp] theorem exec_st (p : Pred) (w : Width) (t : Ty) (o : MemOrd) (sc : Scope) (sp : Space) (m : MemArg) (c : VReg) (σ : State) :
    exec (.st p w t o sc sp m c) σ = execSt p w t o sc sp m c σ := rfl
@[simp] theorem exec_ldk (w : Width) (t : Ty) (o : MemOrd) (sc : Scope) (sp : Space) (d : KReg) (m : MemArg) (la : Nat) (σ : State) :
    exec (.ldk w t o sc sp d m la) σ = execLdk w t o sc sp d m la σ := rfl
@[simp] theorem exec_stk (w : Width) (t : Ty) (o : MemOrd) (sc : Scope) (sp : Space) (m : MemArg) (c : KReg) (σ : State) :
    exec (.stk w t o sc sp m c) σ = execStk w t o sc sp m c σ := rfl
@[simp] theorem exec_atom (p : Pred) (op : Aop) (ret : Bool) (t : Ty) (o : MemOrd) (sc : Scope) (sp : Space) (d : VReg) (m : MemArg) (la : Nat) (σ : State) :
    exec (.atom p op ret t o sc sp d m la) σ = execAtom p op ret t o sc sp d m la σ := rfl
@[simp] theorem exec_atomk (op : Aop) (t : Ty) (o : MemOrd) (sc : Scope) (sp : Space) (d : KReg) (m : MemArg) (la : Nat) (σ : State) :
    exec (.atomk op t o sc sp d m la) σ = execAtomk op t o sc sp d m la σ := rfl
@[simp] theorem exec_lr (p : Pred) (t : Ty) (o : MemOrd) (sc : Scope) (d : VReg) (m : MemArg) (la : Nat) (σ : State) :
    exec (.lr p t o sc d m la) σ = execLr p t o sc d m la σ := rfl
@[simp] theorem exec_sc (p : Pred) (t : Ty) (o : MemOrd) (scp : Scope) (d : VReg) (m : MemArg) (c : VReg) (la : Nat) (σ : State) :
    exec (.sc p t o scp d m c la) σ = execSc p t o scp d m c la σ := rfl
@[simp] theorem exec_fence (k : FenceKind) (sc : Scope) (σ : State) :
    exec (.fence k sc) σ = execFence k sc σ := rfl
@[simp] theorem exec_pref (p : Pred) (lvl : PrefLevel) (m : MemArg) (σ : State) :
    exec (.pref p lvl m) σ = execPref p lvl m σ := rfl
@[simp] theorem exec_twait (all : Bool) (d a : KReg) (σ : State) :
    exec (.twait all d a) σ = execTwait all d a σ := rfl
@[simp] theorem exec_tfirst (d a : KReg) (σ : State) :
    exec (.tfirst d a) σ = execTfirst d a σ := rfl
@[simp] theorem exec_tclr (d a : KReg) (σ : State) :
    exec (.tclr d a) σ = execTclr d a σ := rfl
@[simp] theorem exec_gset (n : Nat) (src : GsetSrc) (σ : State) :
    exec (.gset n src) σ = execGset n src σ := rfl
@[simp] theorem exec_copy (cmd box : Nat) (σ : State) :
    exec (.copy cmd box) σ = execCopy cmd box σ := rfl
@[simp] theorem exec_copyAdd (cmd box : Nat) (σ : State) :
    exec (.copyAdd cmd box) σ = execCopyAdd cmd box σ := rfl
@[simp] theorem exec_launch (cmd : Nat) (σ : State) :
    exec (.launch cmd) σ = execLaunch cmd σ := rfl
@[simp] theorem exec_signal (cmd : Nat) (σ : State) :
    exec (.signal cmd) σ = execSignal cmd σ := rfl
@[simp] theorem exec_boxComplete (cmd box : Nat) (σ : State) :
    exec (.boxComplete cmd box) σ = execBoxComplete cmd box σ := rfl
@[simp] theorem exec_commandComplete (cmd : Nat) (σ : State) :
    exec (.commandComplete cmd) σ = execCommandComplete cmd σ := rfl
@[simp] theorem exec_engineFault (gang : Nat) (σ : State) :
    exec (.engineFault gang) σ = execEngineFault gang σ := rfl
@[simp] theorem exec_poison (gang : Nat) (σ : State) :
    exec (.poison gang) σ = execPoison gang σ := rfl
@[simp] theorem exec_rld (p : Pred) (w : Width) (t : Ty) (o : MemOrd) (d : VReg) (pa : PeerArg) (ix : Option VReg) (disp : BitVec 32) (la : Nat) (σ : State) :
    exec (.rld p w t o d pa ix disp la) σ = execRld p w t o d pa ix disp la σ := rfl
@[simp] theorem exec_rst (p : Pred) (w : Width) (t : Ty) (o : MemOrd) (c : VReg) (pa : PeerArg) (ix : Option VReg) (disp : BitVec 32) (σ : State) :
    exec (.rst p w t o c pa ix disp) σ = execRst p w t o c pa ix disp σ := rfl
@[simp] theorem exec_ratom (p : Pred) (op : Aop) (t : Ty) (o : MemOrd) (d : VReg) (pa : PeerArg) (ix : Option VReg) (disp : BitVec 32) (la : Nat) (σ : State) :
    exec (.ratom p op t o d pa ix disp la) σ = execRatom p op t o d pa ix disp la σ := rfl
@[simp] theorem exec_rfence (chk : Bool) (σ : State) :
    exec (.rfence chk) σ = execRfence chk σ := rfl
@[simp] theorem exec_remoteRequest (r : RemoteIn) (σ : State) :
    exec (.remoteRequest r) σ = execRemoteRequest r σ := rfl
@[simp] theorem exec_remoteResponse (req : Nat) (lanes : Lanes) (st : RStatus) (data : List (Nat × DWord)) (σ : State) :
    exec (.remoteResponse req lanes st data) σ = execRemoteResponse req lanes st data σ := rfl
@[simp] theorem exec_planeDead (dev plane : Nat) (σ : State) :
    exec (.planeDead dev plane) σ = execPlaneDead dev plane σ := rfl
@[simp] theorem exec_epilogue (dev plane last : Nat) (σ : State) :
    exec (.epilogue dev plane last) σ = execEpilogue dev plane last σ := rfl
@[simp] theorem exec_peerLost (dev : Nat) (σ : State) :
    exec (.peerLost dev) σ = execPeerLost dev σ := rfl
@[simp] theorem exec_linkTraining (plane : Nat) (here there : LinkView) (σ : State) :
    exec (.linkTraining plane here there) σ = execLinkTraining plane here there σ := rfl
@[simp] theorem exec_launchPacket (k : Packet) (σ : State) :
    exec (.launchPacket k) σ = execLaunchPacket k σ := rfl
@[simp] theorem exec_vadd (p : Pred) (sat : Bool) (t : Ty) (d a b : VReg) (σ : State) :
    exec (.vadd p sat t d a b) σ = execVadd p sat t d a b σ := rfl
@[simp] theorem exec_vsub (p : Pred) (sat : Bool) (t : Ty) (d a b : VReg) (σ : State) :
    exec (.vsub p sat t d a b) σ = execVsub p sat t d a b σ := rfl
@[simp] theorem exec_vmin (p : Pred) (t : Ty) (d a b : VReg) (σ : State) :
    exec (.vmin p t d a b) σ = execVmin p t d a b σ := rfl
@[simp] theorem exec_vmax (p : Pred) (t : Ty) (d a b : VReg) (σ : State) :
    exec (.vmax p t d a b) σ = execVmax p t d a b σ := rfl
@[simp] theorem exec_vabs (p : Pred) (sat : Bool) (t : Ty) (d a : VReg) (σ : State) :
    exec (.vabs p sat t d a) σ = execVabs p sat t d a σ := rfl
@[simp] theorem exec_vneg (p : Pred) (sat : Bool) (t : Ty) (d a : VReg) (σ : State) :
    exec (.vneg p sat t d a) σ = execVneg p sat t d a σ := rfl
@[simp] theorem exec_vmul (p : Pred) (t : Ty) (d a b : VReg) (σ : State) :
    exec (.vmul p t d a b) σ = execVmul p t d a b σ := rfl
@[simp] theorem exec_vmulh (p : Pred) (t : Ty) (d a b : VReg) (σ : State) :
    exec (.vmulh p t d a b) σ = execVmulh p t d a b σ := rfl
@[simp] theorem exec_vmad (p : Pred) (t : Ty) (d a b c : VReg) (σ : State) :
    exec (.vmad p t d a b c) σ = execVmad p t d a b c σ := rfl
@[simp] theorem exec_vshl (p : Pred) (t : Ty) (d a b : VReg) (σ : State) :
    exec (.vshl p t d a b) σ = execVshl p t d a b σ := rfl
@[simp] theorem exec_vshr (p : Pred) (t : Ty) (d a b : VReg) (σ : State) :
    exec (.vshr p t d a b) σ = execVshr p t d a b σ := rfl
@[simp] theorem exec_vsar (p : Pred) (t : Ty) (d a b : VReg) (σ : State) :
    exec (.vsar p t d a b) σ = execVsar p t d a b σ := rfl
@[simp] theorem exec_vrot (p : Pred) (t : Ty) (d a b : VReg) (σ : State) :
    exec (.vrot p t d a b) σ = execVrot p t d a b σ := rfl
@[simp] theorem exec_vand (p : Pred) (d a b : VReg) (σ : State) :
    exec (.vand p d a b) σ = execVand p d a b σ := rfl
@[simp] theorem exec_vor (p : Pred) (d a b : VReg) (σ : State) :
    exec (.vor p d a b) σ = execVor p d a b σ := rfl
@[simp] theorem exec_vxor (p : Pred) (d a b : VReg) (σ : State) :
    exec (.vxor p d a b) σ = execVxor p d a b σ := rfl
@[simp] theorem exec_vnot (p : Pred) (d a : VReg) (σ : State) :
    exec (.vnot p d a) σ = execVnot p d a σ := rfl
@[simp] theorem exec_vlop3 (p : Pred) (lut : BitVec 8) (d a b c : VReg) (σ : State) :
    exec (.vlop3 p lut d a b c) σ = execVlop3 p lut d a b c σ := rfl
@[simp] theorem exec_vbfx (p : Pred) (t : Ty) (d a b : VReg) (σ : State) :
    exec (.vbfx p t d a b) σ = execVbfx p t d a b σ := rfl
@[simp] theorem exec_vbfi (p : Pred) (d a b c : VReg) (σ : State) :
    exec (.vbfi p d a b c) σ = execVbfi p d a b c σ := rfl
@[simp] theorem exec_vpopc (p : Pred) (d a : VReg) (σ : State) :
    exec (.vpopc p d a) σ = execVpopc p d a σ := rfl
@[simp] theorem exec_vclz (p : Pred) (d a : VReg) (σ : State) :
    exec (.vclz p d a) σ = execVclz p d a σ := rfl
@[simp] theorem exec_vbrev (p : Pred) (d a : VReg) (σ : State) :
    exec (.vbrev p d a) σ = execVbrev p d a σ := rfl
@[simp] theorem exec_vprmb (p : Pred) (d a b : VReg) (sel : BitVec 32) (σ : State) :
    exec (.vprmb p d a b sel) σ = execVprmb p d a b sel σ := rfl
@[simp] theorem exec_vcmp (p : Pred) (c : VCond) (cb : Comb) (t : Ty) (d : MReg) (a b : VReg) (σ : State) :
    exec (.vcmp p c cb t d a b) σ = execVcmp p c cb t d a b σ := rfl
@[simp] theorem exec_vsel (p : Pred) (t : Ty) (d a b : VReg) (c : MReg) (σ : State) :
    exec (.vsel p t d a b c) σ = execVsel p t d a b c σ := rfl
@[simp] theorem exec_vmov (p : Pred) (t : Ty) (d a : VReg) (σ : State) :
    exec (.vmov p t d a) σ = execVmov p t d a σ := rfl
@[simp] theorem exec_vmovi (p : Pred) (t : Ty) (d : VReg) (imm : BitVec 32) (σ : State) :
    exec (.vmovi p t d imm) σ = execVmovi p t d imm σ := rfl
@[simp] theorem exec_vaddImm (p : Pred) (sat : Bool) (t : Ty) (d a : VReg) (imm : BitVec 32) (σ : State) :
    exec (.vaddImm p sat t d a imm) σ = execVaddImm p sat t d a imm σ := rfl
@[simp] theorem exec_vsubImm (p : Pred) (sat : Bool) (t : Ty) (d a : VReg) (imm : BitVec 32) (σ : State) :
    exec (.vsubImm p sat t d a imm) σ = execVsubImm p sat t d a imm σ := rfl
@[simp] theorem exec_vminImm (p : Pred) (t : Ty) (d a : VReg) (imm : BitVec 32) (σ : State) :
    exec (.vminImm p t d a imm) σ = execVminImm p t d a imm σ := rfl
@[simp] theorem exec_vmaxImm (p : Pred) (t : Ty) (d a : VReg) (imm : BitVec 32) (σ : State) :
    exec (.vmaxImm p t d a imm) σ = execVmaxImm p t d a imm σ := rfl
@[simp] theorem exec_vmulImm (p : Pred) (t : Ty) (d a : VReg) (imm : BitVec 32) (σ : State) :
    exec (.vmulImm p t d a imm) σ = execVmulImm p t d a imm σ := rfl
@[simp] theorem exec_vandImm (p : Pred) (d a : VReg) (imm : BitVec 32) (σ : State) :
    exec (.vandImm p d a imm) σ = execVandImm p d a imm σ := rfl
@[simp] theorem exec_vorImm (p : Pred) (d a : VReg) (imm : BitVec 32) (σ : State) :
    exec (.vorImm p d a imm) σ = execVorImm p d a imm σ := rfl
@[simp] theorem exec_vxorImm (p : Pred) (d a : VReg) (imm : BitVec 32) (σ : State) :
    exec (.vxorImm p d a imm) σ = execVxorImm p d a imm σ := rfl
@[simp] theorem exec_vshlImm (p : Pred) (t : Ty) (d a : VReg) (imm : BitVec 32) (σ : State) :
    exec (.vshlImm p t d a imm) σ = execVshlImm p t d a imm σ := rfl
@[simp] theorem exec_vshrImm (p : Pred) (t : Ty) (d a : VReg) (imm : BitVec 32) (σ : State) :
    exec (.vshrImm p t d a imm) σ = execVshrImm p t d a imm σ := rfl
@[simp] theorem exec_vsarImm (p : Pred) (t : Ty) (d a : VReg) (imm : BitVec 32) (σ : State) :
    exec (.vsarImm p t d a imm) σ = execVsarImm p t d a imm σ := rfl
@[simp] theorem exec_vrotImm (p : Pred) (t : Ty) (d a : VReg) (imm : BitVec 32) (σ : State) :
    exec (.vrotImm p t d a imm) σ = execVrotImm p t d a imm σ := rfl
@[simp] theorem exec_vmulhImm (p : Pred) (t : Ty) (d a : VReg) (imm : BitVec 32) (σ : State) :
    exec (.vmulhImm p t d a imm) σ = execVmulhImm p t d a imm σ := rfl
@[simp] theorem exec_vcsub (p : Pred) (t : Ty) (d a b : VReg) (m : Option MReg) (σ : State) :
    exec (.vcsub p t d a b m) σ = execVcsub p t d a b m σ := rfl
@[simp] theorem exec_fadd (p : Pred) (rm : Rm) (t : Ty) (d a b : VReg) (σ : State) :
    exec (.fadd p rm t d a b) σ = execFadd p rm t d a b σ := rfl
@[simp] theorem exec_fsub (p : Pred) (rm : Rm) (t : Ty) (d a b : VReg) (σ : State) :
    exec (.fsub p rm t d a b) σ = execFsub p rm t d a b σ := rfl
@[simp] theorem exec_fmul (p : Pred) (rm : Rm) (t : Ty) (d a b : VReg) (σ : State) :
    exec (.fmul p rm t d a b) σ = execFmul p rm t d a b σ := rfl
@[simp] theorem exec_fmin (p : Pred) (t : Ty) (d a b : VReg) (σ : State) :
    exec (.fmin p t d a b) σ = execFmin p t d a b σ := rfl
@[simp] theorem exec_fmax (p : Pred) (t : Ty) (d a b : VReg) (σ : State) :
    exec (.fmax p t d a b) σ = execFmax p t d a b σ := rfl
@[simp] theorem exec_ffma (p : Pred) (nc np : Bool) (rm : Rm) (t : Ty) (d a b c : VReg) (σ : State) :
    exec (.ffma p nc np rm t d a b c) σ = execFfma p nc np rm t d a b c σ := rfl
@[simp] theorem exec_fcmp (p : Pred) (c : FCond) (cb : Comb) (d : MReg) (a b : VReg) (σ : State) :
    exec (.fcmp p c cb d a b) σ = execFcmp p c cb d a b σ := rfl
@[simp] theorem exec_frcp (p : Pred) (d a : VReg) (la : Nat) (σ : State) :
    exec (.frcp p d a la) σ = execFrcp p d a la σ := rfl
@[simp] theorem exec_frsq (p : Pred) (d a : VReg) (la : Nat) (σ : State) :
    exec (.frsq p d a la) σ = execFrsq p d a la σ := rfl
@[simp] theorem exec_fsqrt (p : Pred) (rm : Rm) (d a : VReg) (la : Nat) (σ : State) :
    exec (.fsqrt p rm d a la) σ = execFsqrt p rm d a la σ := rfl
@[simp] theorem exec_fexp2 (p : Pred) (d a : VReg) (la : Nat) (σ : State) :
    exec (.fexp2 p d a la) σ = execFexp2 p d a la σ := rfl
@[simp] theorem exec_flog2 (p : Pred) (d a : VReg) (la : Nat) (σ : State) :
    exec (.flog2 p d a la) σ = execFlog2 p d a la σ := rfl
@[simp] theorem exec_fsin (p : Pred) (d a : VReg) (la : Nat) (σ : State) :
    exec (.fsin p d a la) σ = execFsin p d a la σ := rfl
@[simp] theorem exec_fcos (p : Pred) (d a : VReg) (la : Nat) (σ : State) :
    exec (.fcos p d a la) σ = execFcos p d a la σ := rfl
@[simp] theorem exec_fdiv (p : Pred) (rm : Rm) (d a b : VReg) (la : Nat) (σ : State) :
    exec (.fdiv p rm d a b la) σ = execFdiv p rm d a b la σ := rfl
@[simp] theorem exec_fclass (p : Pred) (t : Ty) (d a : VReg) (σ : State) :
    exec (.fclass p t d a) σ = execFclass p t d a σ := rfl
@[simp] theorem exec_frnd (p : Pred) (exact : Bool) (rm : Rm) (t : Ty) (d a : VReg) (σ : State) :
    exec (.frnd p exact rm t d a) σ = execFrnd p exact rm t d a σ := rfl
@[simp] theorem exec_cvt (p : Pred) (rm : Rm) (sat nosat : Bool) (dt t : Ty) (d a : VReg) (spos dpos : Nat) (σ : State) :
    exec (.cvt p rm sat nosat dt t d a spos dpos) σ = execCvt p rm sat nosat dt t d a spos dpos σ := rfl
@[simp] theorem exec_qmx (p : Pred) (t : Ty) (d : VReg) (ks : KReg) (a : VReg) (bias : BitVec 8) (la : Nat) (σ : State) :
    exec (.qmx p t d ks a bias la) σ = execQmx p t d ks a bias la σ := rfl
@[simp] theorem exec_dqmx (p : Pred) (t : Ty) (d : VReg) (ks : KReg) (a : VReg) (σ : State) :
    exec (.dqmx p t d ks a) σ = execDqmx p t d ks a σ := rfl
@[simp] theorem exec_faddImm (p : Pred) (rm : Rm) (t : Ty) (d a : VReg) (imm : BitVec 32) (σ : State) :
    exec (.faddImm p rm t d a imm) σ = execFaddImm p rm t d a imm σ := rfl
@[simp] theorem exec_fsubImm (p : Pred) (rm : Rm) (t : Ty) (d a : VReg) (imm : BitVec 32) (σ : State) :
    exec (.fsubImm p rm t d a imm) σ = execFsubImm p rm t d a imm σ := rfl
@[simp] theorem exec_fmulImm (p : Pred) (rm : Rm) (t : Ty) (d a : VReg) (imm : BitVec 32) (σ : State) :
    exec (.fmulImm p rm t d a imm) σ = execFmulImm p rm t d a imm σ := rfl
@[simp] theorem exec_fminImm (p : Pred) (t : Ty) (d a : VReg) (imm : BitVec 32) (σ : State) :
    exec (.fminImm p t d a imm) σ = execFminImm p t d a imm σ := rfl
@[simp] theorem exec_fmaxImm (p : Pred) (t : Ty) (d a : VReg) (imm : BitVec 32) (σ : State) :
    exec (.fmaxImm p t d a imm) σ = execFmaxImm p t d a imm σ := rfl
@[simp] theorem exec_ffmaImm (p : Pred) (nc np : Bool) (rm : Rm) (t : Ty) (d a : VReg) (imm : BitVec 32) (c : VReg) (σ : State) :
    exec (.ffmaImm p nc np rm t d a imm c) σ = execFfmaImm p nc np rm t d a imm c σ := rfl
@[simp] theorem exec_fstat (clr : Bool) (d : KReg) (σ : State) :
    exec (.fstat clr d) σ = execFstat clr d σ := rfl
@[simp] theorem exec_shfl (p : Pred) (mode : ShMode) (w : Nat) (t : Ty) (d a : VReg) (o : ShSrc) (σ : State) :
    exec (.shfl p mode w t d a o) σ = execShfl p mode w t d a o σ := rfl
@[simp] theorem exec_vred (p : Pred) (op : RedOp) (w : Nat) (t : Ty) (d a : VReg) (la : Nat) (σ : State) :
    exec (.vred p op w t d a la) σ = execVred p op w t d a la σ := rfl
@[simp] theorem exec_vscan (p : Pred) (excl : Bool) (op : RedOp) (w : Nat) (t : Ty) (d a : VReg) (la : Nat) (σ : State) :
    exec (.vscan p excl op w t d a la) σ = execVscan p excl op w t d a la σ := rfl
@[simp] theorem exec_matchLanes (p : Pred) (o : MatchOut) (w : Nat) (t : Ty) (d a : VReg) (la : Nat) (σ : State) :
    exec (.matchLanes p o w t d a la) σ = execMatchLanes p o w t d a la σ := rfl
@[simp] theorem exec_ballot (p : Pred) (d : BallotDst) (a : VReg) (σ : State) :
    exec (.ballot p d a) σ = execBallot p d a σ := rfl
@[simp] theorem exec_vote (p : Pred) (v : Vote) (d : KReg) (a : VReg) (σ : State) :
    exec (.vote p v d a) σ = execVote p v d a σ := rfl
@[simp] theorem exec_vlane (p : Pred) (o : LaneOut) (d : VReg) (σ : State) :
    exec (.vlane p o d) σ = execVlane p o d σ := rfl
@[simp] theorem exec_pair (s0 s1 : PairSlot) (σ : State) :
    exec (.pair s0 s1) σ = execPair s0 s1 σ := rfl
@[simp] theorem exec_mres (mx recv : Bool) (t : Ty) (d : KReg) (id base len sbase : Nat) (σ : State) :
    exec (.mres mx recv t d id base len sbase) σ = execMres mx recv t d id base len sbase σ := rfl
@[simp] theorem exec_mrel (mask : BitVec 8) (σ : State) :
    exec (.mrel mask) σ = execMrel mask σ := rfl
@[simp] theorem exec_mld (scl mc : Bool) (sp : Space) (id : Nat) (kb : KReg) (disp : BitVec 32) (ks : KReg) (cmask : BitVec 8) (σ : State) :
    exec (.mld scl mc sp id kb disp ks cmask) σ = execMld scl mc sp id kb disp ks cmask σ := rfl
@[simp] theorem exec_multicastDelivery (gang : Nat) (σ : State) :
    exec (.multicastDelivery gang) σ = execMulticastDelivery gang σ := rfl
@[simp] theorem exec_mgath (id : Nat) (kb : KReg) (disp : BitVec 32) (σ : State) :
    exec (.mgath id kb disp) σ = execMgath id kb disp σ := rfl
@[simp] theorem exec_mma (skip z : Bool) (tile ra rb a0 b0 kcm1 : Nat) (σ : State) :
    exec (.mma skip z tile ra rb a0 b0 kcm1) σ = execMma skip z tile ra rb a0 b0 kcm1 σ := rfl
@[simp] theorem exec_mbatch (d : KReg) (σ : State) :
    exec (.mbatch d) σ = execMbatch d σ := rfl
@[simp] theorem exec_batchComplete (gang : Nat) (σ : State) :
    exec (.batchComplete gang) σ = execBatchComplete gang σ := rfl
@[simp] theorem exec_mwait (d a : KReg) (σ : State) :
    exec (.mwait d a) σ = execMwait d a σ := rfl
@[simp] theorem exec_aclr (a : KReg) (σ : State) :
    exec (.aclr a) σ = execAclr a σ := rfl
@[simp] theorem exec_ard (rm : Rm) (sat nosat : Bool) (t : Ty) (d : VReg) (tile row : Nat) (la : Nat) (σ : State) :
    exec (.ard rm sat nosat t d tile row la) σ = execArd rm sat nosat t d tile row la σ := rfl
@[simp] theorem exec_awr (t : Ty) (m : MemArg) (c : VReg) (σ : State) :
    exec (.awr t m c) σ = execAwr t m c σ := rfl
@[simp] theorem exec_ast (rm : Rm) (sat nosat : Bool) (t : Ty) (km : KReg) (kb : KReg) (disp : BitVec 32) (kr : KReg) (σ : State) :
    exec (.ast rm sat nosat t km kb disp kr) σ = execAst rm sat nosat t km kb disp kr σ := rfl
@[simp] theorem exec_rcwin (a : KReg) (σ : State) :
    exec (.rcwin a) σ = execRcwin a σ := rfl
@[simp] theorem exec_rcmode (mesh : Bool) (a b : KReg) (σ : State) :
    exec (.rcmode mesh a b) σ = execRcmode mesh a b σ := rfl
@[simp] theorem exec_rcld (mesh : Bool) (kb : KReg) (disp : BitVec 32) (kn : KReg) (σ : State) :
    exec (.rcld mesh kb disp kn) σ = execRcld mesh kb disp kn σ := rfl
@[simp] theorem exec_rcgo (a b : VReg) (σ : State) :
    exec (.rcgo a b) σ = execRcgo a b σ := rfl
@[simp] theorem exec_evaluationEnd (core : Nat) (σ : State) :
    exec (.evaluationEnd core) σ = execEvaluationEnd core σ := rfl
@[simp] theorem exec_rccap (x : CapSel) (d : VReg) (la : Nat) (σ : State) :
    exec (.rccap x d la) σ = execRccap x d la σ := rfl
@[simp] theorem exec_rcclr (σ : State) :
    exec (.rcclr) σ = execRcclr σ := rfl
@[simp] theorem exec_resetEnd (core : Nat) (σ : State) :
    exec (.resetEnd core) σ = execResetEnd core σ := rfl
@[simp] theorem exec_kick (vf word size : Nat) (v : DWord) (σ : State) :
    exec (.kick vf word size v) σ = execKick vf word size v σ := rfl
@[simp] theorem exec_takeEntry (q : Nat) (σ : State) :
    exec (.takeEntry q) σ = execTakeEntry q σ := rfl
@[simp] theorem exec_waitConditionPoll (l : Nat) (σ : State) :
    exec (.waitConditionPoll l) σ = execWaitConditionPoll l σ := rfl
@[simp] theorem exec_placement (q0 scr tag : Nat) (σ : State) :
    exec (.placement q0 scr tag) σ = execPlacement q0 scr tag σ := rfl
@[simp] theorem exec_regionStaging (b : Nat) (σ : State) :
    exec (.regionStaging b) σ = execRegionStaging b σ := rfl
@[simp] theorem exec_gangStart (b : Nat) (σ : State) :
    exec (.gangStart b) σ = execGangStart b σ := rfl
@[simp] theorem exec_blockRetire (b : Nat) (σ : State) :
    exec (.blockRetire b) σ = execBlockRetire b σ := rfl
@[simp] theorem exec_walkComplete (u ctx vpn : Nat) (σ : State) :
    exec (.walkComplete u ctx vpn) σ = execWalkComplete u ctx vpn σ := rfl
@[simp] theorem exec_loadDataReturn (req sector : Nat) (σ : State) :
    exec (.loadDataReturn req sector) σ = execLoadDataReturn req sector σ := rfl
@[simp] theorem exec_requestPerform (req sector : Nat) (σ : State) :
    exec (.requestPerform req sector) σ = execRequestPerform req sector σ := rfl
@[simp] theorem exec_holdLimitExpiry (id : Nat) (σ : State) :
    exec (.holdLimitExpiry id) σ = execHoldLimitExpiry id σ := rfl
@[simp] theorem exec_backoffExpiry (id : Nat) (σ : State) :
    exec (.backoffExpiry id) σ = execBackoffExpiry id σ := rfl
@[simp] theorem exec_slotFreeReissue (id : Nat) (σ : State) :
    exec (.slotFreeReissue id) σ = execSlotFreeReissue id σ := rfl
@[simp] theorem exec_parkLimitExpiry (gang : Nat) (σ : State) :
    exec (.parkLimitExpiry gang) σ = execParkLimitExpiry gang σ := rfl
@[simp] theorem exec_blockReturn (b : Nat) (σ : State) :
    exec (.blockReturn b) σ = execBlockReturn b σ := rfl
@[simp] theorem exec_fairnessTimer (gang : Nat) (σ : State) :
    exec (.fairnessTimer gang) σ = execFairnessTimer gang σ := rfl
@[simp] theorem exec_issueBoost (gang : Nat) (σ : State) :
    exec (.issueBoost gang) σ = execIssueBoost gang σ := rfl
@[simp] theorem exec_entryBoost (gang : Nat) (σ : State) :
    exec (.entryBoost gang) σ = execEntryBoost gang σ := rfl
@[simp] theorem exec_watchdog (gang : Nat) (σ : State) :
    exec (.watchdog gang) σ = execWatchdog gang σ := rfl
@[simp] theorem exec_systemEffect (gang : Nat) (σ : State) :
    exec (.systemEffect gang) σ = execSystemEffect gang σ := rfl
@[simp] theorem exec_faultRecordWrite (ring : Nat) (σ : State) :
    exec (.faultRecordWrite ring) σ = execFaultRecordWrite ring σ := rfl
@[simp] theorem exec_fheadWrite (ring : Nat) (v : DWord) (σ : State) :
    exec (.fheadWrite ring v) σ = execFheadWrite ring v σ := rfl
@[simp] theorem exec_fringWrite (ring : Nat) (v : DWord) (σ : State) :
    exec (.fringWrite ring v) σ = execFringWrite ring v σ := rfl
@[simp] theorem exec_fserve (ring : Nat) (v : DWord) (σ : State) :
    exec (.fserve ring v) σ = execFserve ring v σ := rfl
@[simp] theorem exec_ctxctlResume (page ctx : Nat) (σ : State) :
    exec (.ctxctlResume page ctx) σ = execCtxctlResume page ctx σ := rfl
@[simp] theorem exec_ctxctlSkip (page ctx : Nat) (σ : State) :
    exec (.ctxctlSkip page ctx) σ = execCtxctlSkip page ctx σ := rfl
@[simp] theorem exec_ctxctlKill (page ctx : Nat) (σ : State) :
    exec (.ctxctlKill page ctx) σ = execCtxctlKill page ctx σ := rfl
@[simp] theorem exec_ctxctlStop (page ctx : Nat) (σ : State) :
    exec (.ctxctlStop page ctx) σ = execCtxctlStop page ctx σ := rfl
@[simp] theorem exec_ctxctlStart (page ctx : Nat) (σ : State) :
    exec (.ctxctlStart page ctx) σ = execCtxctlStart page ctx σ := rfl
@[simp] theorem exec_ctxctlCreate (page ctx : Nat) (σ : State) :
    exec (.ctxctlCreate page ctx) σ = execCtxctlCreate page ctx σ := rfl
@[simp] theorem exec_lcancel (page : Nat) (v : DWord) (σ : State) :
    exec (.lcancel page v) σ = execLcancel page v σ := rfl
@[simp] theorem exec_restore (b : Nat) (σ : State) :
    exec (.restore b) σ = execRestore b σ := rfl
@[simp] theorem exec_shadowSwap (part : Nat) (σ : State) :
    exec (.shadowSwap part) σ = execShadowSwap part σ := rfl
@[simp] theorem exec_flipComplete (part : Nat) (σ : State) :
    exec (.flipComplete part) σ = execFlipComplete part σ := rfl
@[simp] theorem exec_spillComplete (part : Nat) (σ : State) :
    exec (.spillComplete part) σ = execSpillComplete part σ := rfl
@[simp] theorem exec_fillComplete (part : Nat) (σ : State) :
    exec (.fillComplete part) σ = execFillComplete part σ := rfl
@[simp] theorem exec_urgent (part : Nat) (σ : State) :
    exec (.urgent part) σ = execUrgent part σ := rfl
@[simp] theorem exec_turnStart (part : Nat) (σ : State) :
    exec (.turnStart part) σ = execTurnStart part σ := rfl
@[simp] theorem exec_sliceEnd (part : Nat) (σ : State) :
    exec (.sliceEnd part) σ = execSliceEnd part σ := rfl
@[simp] theorem exec_drainLimitExpiry (part : Nat) (σ : State) :
    exec (.drainLimitExpiry part) σ = execDrainLimitExpiry part σ := rfl
@[simp] theorem exec_roundEnd (part : Nat) (σ : State) :
    exec (.roundEnd part) σ = execRoundEnd part σ := rfl
@[simp] theorem exec_quantExpiry (part : Nat) (σ : State) :
    exec (.quantExpiry part) σ = execQuantExpiry part σ := rfl
@[simp] theorem exec_vpartWrite (vf : Nat) (v : DWord) (σ : State) :
    exec (.vpartWrite vf v) σ = execVpartWrite vf v σ := rfl
@[simp] theorem exec_vpolWrite (vf : Nat) (v : DWord) (σ : State) :
    exec (.vpolWrite vf v) σ = execVpolWrite vf v σ := rfl
@[simp] theorem exec_floorWrite (chan group : Nat) (v : DWord) (σ : State) :
    exec (.floorWrite chan group v) σ = execFloorWrite chan group v σ := rfl
@[simp] theorem exec_registerWrite (off size : Nat) (v : DWord) (σ : State) :
    exec (.registerWrite off size v) σ = execRegisterWrite off size v σ := rfl
@[simp] theorem exec_weirWindow (chan : Nat) (σ : State) :
    exec (.weirWindow chan) σ = execWeirWindow chan σ := rfl
@[simp] theorem exec_invctlGo (v : DWord) (σ : State) :
    exec (.invctlGo v) σ = execInvctlGo v σ := rfl
@[simp] theorem exec_invalidationDone (σ : State) :
    exec (.invalidationDone) σ = execInvalidationDone σ := rfl
@[simp] theorem exec_dtword (σ : State) :
    exec (.dtword) σ = execDtword σ := rfl
@[simp] theorem exec_enreq (page : Nat) (v : DWord) (σ : State) :
    exec (.enreq page v) σ = execEnreq page v σ := rfl
@[simp] theorem exec_enctx (vf : Nat) (v : DWord) (σ : State) :
    exec (.enctx vf v) σ = execEnctx vf v σ := rfl
@[simp] theorem exec_energyRecord (page : Nat) (σ : State) :
    exec (.energyRecord page) σ = execEnergyRecord page σ := rfl
@[simp] theorem exec_meterInterval (e : List (Domain × Nat)) (σ : State) :
    exec (.meterInterval e) σ = execMeterInterval e σ := rfl
@[simp] theorem exec_energyImport (r : ExportRec) (σ : State) :
    exec (.energyImport r) σ = execEnergyImport r σ := rfl
@[simp] theorem exec_powerLimit (mhz : Nat) (σ : State) :
    exec (.powerLimit mhz) σ = execPowerLimit mhz σ := rfl
@[simp] theorem exec_recalibration (chan : Nat) (σ : State) :
    exec (.recalibration chan) σ = execRecalibration chan σ := rfl
@[simp] theorem exec_peqdataClr (v : DWord) (σ : State) :
    exec (.peqdataClr v) σ = execPeqdataClr v σ := rfl
@[simp] theorem exec_patrolRead (page : Nat) (σ : State) :
    exec (.patrolRead page) σ = execPatrolRead page σ := rfl
@[simp] theorem exec_scrubPeriod (σ : State) :
    exec (.scrubPeriod) σ = execScrubPeriod σ := rfl
@[simp] theorem exec_warmReset (σ : State) :
    exec (.warmReset) σ = execWarmReset σ := rfl
@[simp] theorem exec_coldReset (σ : State) :
    exec (.coldReset) σ = execColdReset σ := rfl
@[simp] theorem exec_readiness (f : FnId) (good : Bool) (σ : State) :
    exec (.readiness f good) σ = execReadiness f good σ := rfl
@[simp] theorem exec_functionLevelReset (vf : Nat) (σ : State) :
    exec (.functionLevelReset vf) σ = execFunctionLevelReset vf σ := rfl
@[simp] theorem exec_illegalInstruction (σ : State) :
    exec (.illegalInstruction) σ = execIllegalInstruction σ := rfl
@[simp] theorem exec_longLatencyComplete (op : Nat) (lanes : Lanes) (σ : State) :
    exec (.longLatencyComplete op lanes) σ = execLongLatencyComplete op lanes σ := rfl
@[simp] theorem exec_peerReachable (dev : Nat) (σ : State) :
    exec (.peerReachable dev) σ = execPeerReachable dev σ := rfl
@[simp] theorem exec_energyExport (ctx : Nat) (σ : State) :
    exec (.energyExport ctx) σ = execEnergyExport ctx σ := rfl
@[simp] theorem exec_spdmRequest (r : Spdm) (σ : State) :
    exec (.spdmRequest r) σ = execSpdmRequest r σ := rfl
@[simp] theorem exec_fstatWrite (page : Nat) (errReg : Bool) (v : DWord) (σ : State) :
    exec (.fstatWrite page errReg v) σ = execFstatWrite page errReg v σ := rfl

end Sys2Proof.Machine
end

