-- ==== Sys2Proof/Laws/Table.lean ====
section
/-! SUPPORT. The laws of sparse tables: reading after writing, and that every operation keeps the canonical form. -/

namespace Sys2Proof.Machine

variable {α : Type}

theorem tget_tdel_self (d : α) (t : Tab α) (k : Nat) : tget d (tdel t k) k = d := by
  induction t with
  | nil => rfl
  | cons e r ih =>
    obtain ⟨j, x⟩ := e
    by_cases h : k = j
    · simpa [tdel, h] using h ▸ ih
    · simp [tdel, tget, h, ih]

theorem tget_tdel_ne (d : α) (t : Tab α) {k i : Nat} (h : i ≠ k) : tget d (tdel t k) i = tget d t i := by
  induction t with
  | nil => rfl
  | cons e r ih =>
    obtain ⟨j, x⟩ := e
    by_cases hk : k = j
    · subst hk; simp [tdel, tget, h, ih]
    · simp [tdel, hk, tget, ih]

theorem tget_tins_self (d : α) (t : Tab α) (k : Nat) (v : α) (h : ∀ x, (k, x) ∉ t) : tget d (tins t k v) k = v := by
  induction t with
  | nil => simp [tins, tget]
  | cons e r ih =>
    obtain ⟨j, x⟩ := e
    have hj : k ≠ j := fun e => h x (by simp [e])
    by_cases hk : k < j
    · simp [tins, hk, tget]
    · simp only [tins, hk, if_false, tget, hj]
      exact ih fun y hy => h y (List.mem_cons_of_mem _ hy)

theorem tget_tins_ne (d : α) (t : Tab α) {k i : Nat} (v : α) (h : i ≠ k) : tget d (tins t k v) i = tget d t i := by
  induction t with
  | nil => simp [tins, tget, h]
  | cons e r ih =>
    obtain ⟨j, x⟩ := e
    by_cases hk : k < j
    · simp [tins, hk, tget, h]
    · simp [tins, hk, tget, ih]

theorem not_mem_tdel (t : Tab α) (k : Nat) (x : α) : (k, x) ∉ tdel t k := by
  induction t with
  | nil => simp [tdel]
  | cons e r ih =>
    obtain ⟨j, y⟩ := e
    by_cases h : k = j
    · simpa [tdel, h] using h ▸ ih
    · simp [tdel, h, ih]

@[simp] theorem tget_tset_self (d : α) (t : Tab α) (k : Nat) (v : α) : tget d (tset t k v) k = v :=
  tget_tins_self d _ k v (not_mem_tdel t k)

theorem tget_tset_ne (d : α) (t : Tab α) {k i : Nat} (v : α) (h : i ≠ k) : tget d (tset t k v) i = tget d t i := by
  rw [tset, tget_tins_ne d _ v h, tget_tdel_ne d t h]

@[simp] theorem tget_tput_self [DecidableEq α] (d : α) (t : Tab α) (k : Nat) (v : α) : tget d (tput d t k v) k = v := by
  unfold tput
  split
  · next h => rw [tget_tdel_self, h]
  · exact tget_tset_self d t k v

theorem tget_tput_ne [DecidableEq α] (d : α) (t : Tab α) {k i : Nat} (v : α) (h : i ≠ k) :
    tget d (tput d t k v) i = tget d t i := by
  unfold tput
  split
  · exact tget_tdel_ne d t h
  · exact tget_tset_ne d t v h

/-- Reading an entry after a write of one, in one equation. -/
theorem tget_tput [DecidableEq α] (d : α) (t : Tab α) (k i : Nat) (v : α) :
    tget d (tput d t k v) i = if i = k then v else tget d t i := by
  split
  · next h => rw [h, tget_tput_self]
  · next h => exact tget_tput_ne d t v h

-- The canonical form.

theorem tsorted_mono (t : Tab α) {a b : Nat} (h : a ≤ b) (w : tsorted b t = true) : tsorted a t = true := by
  cases t with
  | nil => rfl
  | cons e r =>
    simp only [tsorted, Bool.and_eq_true, decide_eq_true_eq] at w ⊢
    exact ⟨by omega, w.2⟩

theorem tsorted_tdel (t : Tab α) (k : Nat) {b : Nat} (w : tsorted b t = true) : tsorted b (tdel t k) = true := by
  induction t generalizing b with
  | nil => rfl
  | cons e r ih =>
    obtain ⟨j, x⟩ := e
    simp only [tsorted, Bool.and_eq_true, decide_eq_true_eq] at w
    by_cases h : k = j
    · simpa [tdel, h] using tsorted_mono _ (by omega) (h ▸ ih w.2)
    · simp [tdel, h, tsorted, w.1, ih w.2]

theorem tsorted_tins (t : Tab α) (k : Nat) (v : α) {b : Nat} (hb : b ≤ k) (n : ∀ x, (k, x) ∉ t)
    (w : tsorted b t = true) : tsorted b (tins t k v) = true := by
  induction t generalizing b with
  | nil => simp [tins, tsorted, hb]
  | cons e r ih =>
    obtain ⟨j, x⟩ := e
    have hj : k ≠ j := fun e => n x (by simp [e])
    simp only [tsorted, Bool.and_eq_true, decide_eq_true_eq] at w
    by_cases h : k < j
    · simp [tins, h, tsorted, hb, w.2]
    · simp only [tins, h, if_false, tsorted, Bool.and_eq_true, decide_eq_true_eq]
      exact ⟨w.1, ih (by omega) (fun y hy => n y (List.mem_cons_of_mem _ hy)) w.2⟩

theorem mem_of_mem_tdel (t : Tab α) (k : Nat) {e : Nat × α} (h : e ∈ tdel t k) : e ∈ t := by
  induction t with
  | nil => exact h
  | cons x r ih =>
    obtain ⟨j, y⟩ := x
    by_cases hk : k = j
    · simp only [tdel, hk, if_true] at h
      exact List.mem_cons_of_mem _ (ih (hk ▸ h))
    · simp only [tdel, hk, if_false, List.mem_cons] at h
      exact h.elim (fun e => by simp [e]) fun e => List.mem_cons_of_mem _ (ih e)

theorem mem_tins (t : Tab α) (k : Nat) (v : α) {e : Nat × α} (h : e ∈ tins t k v) : e = (k, v) ∨ e ∈ t := by
  induction t with
  | nil => simpa [tins] using h
  | cons x r ih =>
    obtain ⟨j, y⟩ := x
    by_cases hk : k < j
    · simpa [tins, hk] using h
    · simp only [tins, hk, if_false, List.mem_cons] at h
      rcases h with h | h
      · exact .inr (by simp [h])
      · exact (ih h).imp id fun h => List.mem_cons_of_mem _ h

variable [DecidableEq α] {d : α}

theorem twf_nil : twf d ([] : Tab α) = true := rfl

theorem twf_tdel {t : Tab α} (k : Nat) (w : twf d t = true) : twf d (tdel t k) = true := by
  simp only [twf, Bool.and_eq_true, List.all_eq_true] at w ⊢
  exact ⟨tsorted_tdel t k w.1, fun e he => w.2 e (mem_of_mem_tdel t k he)⟩

/-- A write keeps the canonical form. -/
theorem twf_tput {t : Tab α} (k : Nat) (v : α) (w : twf d t = true) : twf d (tput d t k v) = true := by
  unfold tput
  split
  · exact twf_tdel k w
  · next h =>
    have wd := twf_tdel k w
    simp only [twf, Bool.and_eq_true, List.all_eq_true] at wd ⊢
    refine ⟨tsorted_tins _ k v (Nat.zero_le _) (not_mem_tdel t k) wd.1, fun e he => ?_⟩
    rcases mem_tins _ k v he with rfl | he
    · simpa using h
    · exact wd.2 e he

omit [DecidableEq α] in
theorem tsorted_filter (t : Tab α) (p : Nat × α → Bool) {b : Nat} (w : tsorted b t = true) :
    tsorted b (t.filter p) = true := by
  induction t generalizing b with
  | nil => rfl
  | cons e r ih =>
    obtain ⟨j, x⟩ := e
    simp only [tsorted, Bool.and_eq_true, decide_eq_true_eq] at w
    by_cases h : p (j, x)
    · simp [List.filter, h, tsorted, w.1, ih w.2]
    · simpa [List.filter, h] using tsorted_mono _ (by omega) (ih w.2)

/-- Leaving entries out keeps the canonical form. -/
theorem twf_filter {t : Tab α} (p : Nat × α → Bool) (w : twf d t = true) : twf d (t.filter p) = true := by
  simp only [twf, Bool.and_eq_true, List.all_eq_true] at w ⊢
  exact ⟨tsorted_filter t p w.1, fun e he => w.2 e (List.mem_of_mem_filter he)⟩

omit [DecidableEq α] in
/-- Below its first key a table reads as its default. -/
theorem tget_of_tsorted_lt {t : Tab α} {b i : Nat} (w : tsorted b t = true) (h : i < b) : tget d t i = d := by
  induction t generalizing b with
  | nil => rfl
  | cons e r ih =>
    obtain ⟨j, x⟩ := e
    simp only [tsorted, Bool.and_eq_true, decide_eq_true_eq] at w
    have : i ≠ j := by omega
    simp only [tget, this, if_false]
    exact ih w.2 (by omega)

end Sys2Proof.Machine
end

