-- ==== Sys2Proof/Laws/State.lean ====
section
/-! SUPPORT. The laws of the state's updates: what each leaves alone, and what is read after it. -/

namespace Sys2Proof.Machine

variable (s : State)

-- State.setGang

@[simp] theorem setGang_agenda (k : Nat) (x : Gang) : (s.setGang k x).agenda = s.agenda := rfl
@[simp] theorem setGang_cycle (k : Nat) (x : Gang) : (s.setGang k x).cycle = s.cycle := rfl
@[simp] theorem setGang_uid (k : Nat) (x : Gang) : (s.setGang k x).uid = s.uid := rfl
@[simp] theorem setGang_cur (k : Nat) (x : Gang) : (s.setGang k x).cur = s.cur := rfl
@[simp] theorem setGang_mem (k : Nat) (x : Gang) : (s.setGang k x).mem = s.mem := rfl
@[simp] theorem setGang_tlb (k : Nat) (x : Gang) : (s.setGang k x).tlb = s.tlb := rfl
@[simp] theorem setGang_walks (k : Nat) (x : Gang) : (s.setGang k x).walks = s.walks := rfl
@[simp] theorem setGang_core (k : Nat) (x : Gang) : (s.setGang k x).core = s.core := rfl
@[simp] theorem setGang_blocks (k : Nat) (x : Gang) : (s.setGang k x).blocks = s.blocks := rfl
@[simp] theorem setGang_ctxs (k : Nat) (x : Gang) : (s.setGang k x).ctxs = s.ctxs := rfl
@[simp] theorem setGang_launches (k : Nat) (x : Gang) : (s.setGang k x).launches = s.launches := rfl
@[simp] theorem setGang_reqs (k : Nat) (x : Gang) : (s.setGang k x).reqs = s.reqs := rfl
@[simp] theorem setGang_longs (k : Nat) (x : Gang) : (s.setGang k x).longs = s.longs := rfl
@[simp] theorem setGang_cmds (k : Nat) (x : Gang) : (s.setGang k x).cmds = s.cmds := rfl
@[simp] theorem setGang_rreqs (k : Nat) (x : Gang) : (s.setGang k x).rreqs = s.rreqs := rfl
@[simp] theorem setGang_deliveries (k : Nat) (x : Gang) : (s.setGang k x).deliveries = s.deliveries := rfl
@[simp] theorem setGang_queues (k : Nat) (x : Gang) : (s.setGang k x).queues = s.queues := rfl
@[simp] theorem setGang_rings (k : Nat) (x : Gang) : (s.setGang k x).rings = s.rings := rfl
@[simp] theorem setGang_vfs (k : Nat) (x : Gang) : (s.setGang k x).vfs = s.vfs := rfl
@[simp] theorem setGang_parts (k : Nat) (x : Gang) : (s.setGang k x).parts = s.parts := rfl
@[simp] theorem setGang_waits (k : Nat) (x : Gang) : (s.setGang k x).waits = s.waits := rfl
@[simp] theorem setGang_aged (k : Nat) (x : Gang) : (s.setGang k x).aged = s.aged := rfl
@[simp] theorem setGang_pf (k : Nat) (x : Gang) : (s.setGang k x).pf = s.pf := rfl
@[simp] theorem setGang_fab (k : Nat) (x : Gang) : (s.setGang k x).fab = s.fab := rfl
@[simp] theorem setGang_energy (k : Nat) (x : Gang) : (s.setGang k x).energy = s.energy := rfl
@[simp] theorem setGang_areas (k : Nat) (x : Gang) : (s.setGang k x).areas = s.areas := rfl
@[simp] theorem setGang_engOps (k : Nat) (x : Gang) : (s.setGang k x).engOps = s.engOps := rfl
@[simp] theorem setGang_ahead (k : Nat) (x : Gang) : (s.setGang k x).ahead = s.ahead := rfl
@[simp] theorem setGang_imports (k : Nat) (x : Gang) : (s.setGang k x).imports = s.imports := rfl
@[simp] theorem setGang_mmioOut (k : Nat) (x : Gang) : (s.setGang k x).mmioOut = s.mmioOut := rfl
@[simp] theorem setGang_leftAt (k : Nat) (x : Gang) : (s.setGang k x).leftAt = s.leftAt := rfl

-- State.setBlock

@[simp] theorem setBlock_agenda (k : Nat) (x : Block) : (s.setBlock k x).agenda = s.agenda := rfl
@[simp] theorem setBlock_cycle (k : Nat) (x : Block) : (s.setBlock k x).cycle = s.cycle := rfl
@[simp] theorem setBlock_uid (k : Nat) (x : Block) : (s.setBlock k x).uid = s.uid := rfl
@[simp] theorem setBlock_cur (k : Nat) (x : Block) : (s.setBlock k x).cur = s.cur := rfl
@[simp] theorem setBlock_mem (k : Nat) (x : Block) : (s.setBlock k x).mem = s.mem := rfl
@[simp] theorem setBlock_tlb (k : Nat) (x : Block) : (s.setBlock k x).tlb = s.tlb := rfl
@[simp] theorem setBlock_walks (k : Nat) (x : Block) : (s.setBlock k x).walks = s.walks := rfl
@[simp] theorem setBlock_core (k : Nat) (x : Block) : (s.setBlock k x).core = s.core := rfl
@[simp] theorem setBlock_gangs (k : Nat) (x : Block) : (s.setBlock k x).gangs = s.gangs := rfl
@[simp] theorem setBlock_ctxs (k : Nat) (x : Block) : (s.setBlock k x).ctxs = s.ctxs := rfl
@[simp] theorem setBlock_launches (k : Nat) (x : Block) : (s.setBlock k x).launches = s.launches := rfl
@[simp] theorem setBlock_reqs (k : Nat) (x : Block) : (s.setBlock k x).reqs = s.reqs := rfl
@[simp] theorem setBlock_longs (k : Nat) (x : Block) : (s.setBlock k x).longs = s.longs := rfl
@[simp] theorem setBlock_cmds (k : Nat) (x : Block) : (s.setBlock k x).cmds = s.cmds := rfl
@[simp] theorem setBlock_rreqs (k : Nat) (x : Block) : (s.setBlock k x).rreqs = s.rreqs := rfl
@[simp] theorem setBlock_deliveries (k : Nat) (x : Block) : (s.setBlock k x).deliveries = s.deliveries := rfl
@[simp] theorem setBlock_queues (k : Nat) (x : Block) : (s.setBlock k x).queues = s.queues := rfl
@[simp] theorem setBlock_rings (k : Nat) (x : Block) : (s.setBlock k x).rings = s.rings := rfl
@[simp] theorem setBlock_vfs (k : Nat) (x : Block) : (s.setBlock k x).vfs = s.vfs := rfl
@[simp] theorem setBlock_parts (k : Nat) (x : Block) : (s.setBlock k x).parts = s.parts := rfl
@[simp] theorem setBlock_waits (k : Nat) (x : Block) : (s.setBlock k x).waits = s.waits := rfl
@[simp] theorem setBlock_aged (k : Nat) (x : Block) : (s.setBlock k x).aged = s.aged := rfl
@[simp] theorem setBlock_pf (k : Nat) (x : Block) : (s.setBlock k x).pf = s.pf := rfl
@[simp] theorem setBlock_fab (k : Nat) (x : Block) : (s.setBlock k x).fab = s.fab := rfl
@[simp] theorem setBlock_energy (k : Nat) (x : Block) : (s.setBlock k x).energy = s.energy := rfl
@[simp] theorem setBlock_areas (k : Nat) (x : Block) : (s.setBlock k x).areas = s.areas := rfl
@[simp] theorem setBlock_engOps (k : Nat) (x : Block) : (s.setBlock k x).engOps = s.engOps := rfl
@[simp] theorem setBlock_ahead (k : Nat) (x : Block) : (s.setBlock k x).ahead = s.ahead := rfl
@[simp] theorem setBlock_imports (k : Nat) (x : Block) : (s.setBlock k x).imports = s.imports := rfl
@[simp] theorem setBlock_mmioOut (k : Nat) (x : Block) : (s.setBlock k x).mmioOut = s.mmioOut := rfl
@[simp] theorem setBlock_leftAt (k : Nat) (x : Block) : (s.setBlock k x).leftAt = s.leftAt := rfl

-- State.setCtx

@[simp] theorem setCtx_agenda (k : Nat) (x : Context) : (s.setCtx k x).agenda = s.agenda := rfl
@[simp] theorem setCtx_cycle (k : Nat) (x : Context) : (s.setCtx k x).cycle = s.cycle := rfl
@[simp] theorem setCtx_uid (k : Nat) (x : Context) : (s.setCtx k x).uid = s.uid := rfl
@[simp] theorem setCtx_cur (k : Nat) (x : Context) : (s.setCtx k x).cur = s.cur := rfl
@[simp] theorem setCtx_mem (k : Nat) (x : Context) : (s.setCtx k x).mem = s.mem := rfl
@[simp] theorem setCtx_tlb (k : Nat) (x : Context) : (s.setCtx k x).tlb = s.tlb := rfl
@[simp] theorem setCtx_walks (k : Nat) (x : Context) : (s.setCtx k x).walks = s.walks := rfl
@[simp] theorem setCtx_core (k : Nat) (x : Context) : (s.setCtx k x).core = s.core := rfl
@[simp] theorem setCtx_gangs (k : Nat) (x : Context) : (s.setCtx k x).gangs = s.gangs := rfl
@[simp] theorem setCtx_blocks (k : Nat) (x : Context) : (s.setCtx k x).blocks = s.blocks := rfl
@[simp] theorem setCtx_launches (k : Nat) (x : Context) : (s.setCtx k x).launches = s.launches := rfl
@[simp] theorem setCtx_reqs (k : Nat) (x : Context) : (s.setCtx k x).reqs = s.reqs := rfl
@[simp] theorem setCtx_longs (k : Nat) (x : Context) : (s.setCtx k x).longs = s.longs := rfl
@[simp] theorem setCtx_cmds (k : Nat) (x : Context) : (s.setCtx k x).cmds = s.cmds := rfl
@[simp] theorem setCtx_rreqs (k : Nat) (x : Context) : (s.setCtx k x).rreqs = s.rreqs := rfl
@[simp] theorem setCtx_deliveries (k : Nat) (x : Context) : (s.setCtx k x).deliveries = s.deliveries := rfl
@[simp] theorem setCtx_queues (k : Nat) (x : Context) : (s.setCtx k x).queues = s.queues := rfl
@[simp] theorem setCtx_rings (k : Nat) (x : Context) : (s.setCtx k x).rings = s.rings := rfl
@[simp] theorem setCtx_vfs (k : Nat) (x : Context) : (s.setCtx k x).vfs = s.vfs := rfl
@[simp] theorem setCtx_parts (k : Nat) (x : Context) : (s.setCtx k x).parts = s.parts := rfl
@[simp] theorem setCtx_waits (k : Nat) (x : Context) : (s.setCtx k x).waits = s.waits := rfl
@[simp] theorem setCtx_aged (k : Nat) (x : Context) : (s.setCtx k x).aged = s.aged := rfl
@[simp] theorem setCtx_pf (k : Nat) (x : Context) : (s.setCtx k x).pf = s.pf := rfl
@[simp] theorem setCtx_fab (k : Nat) (x : Context) : (s.setCtx k x).fab = s.fab := rfl
@[simp] theorem setCtx_energy (k : Nat) (x : Context) : (s.setCtx k x).energy = s.energy := rfl
@[simp] theorem setCtx_areas (k : Nat) (x : Context) : (s.setCtx k x).areas = s.areas := rfl
@[simp] theorem setCtx_engOps (k : Nat) (x : Context) : (s.setCtx k x).engOps = s.engOps := rfl
@[simp] theorem setCtx_ahead (k : Nat) (x : Context) : (s.setCtx k x).ahead = s.ahead := rfl
@[simp] theorem setCtx_imports (k : Nat) (x : Context) : (s.setCtx k x).imports = s.imports := rfl
@[simp] theorem setCtx_mmioOut (k : Nat) (x : Context) : (s.setCtx k x).mmioOut = s.mmioOut := rfl
@[simp] theorem setCtx_leftAt (k : Nat) (x : Context) : (s.setCtx k x).leftAt = s.leftAt := rfl

-- State.setLaunch

@[simp] theorem setLaunch_agenda (k : Nat) (x : Launch) : (s.setLaunch k x).agenda = s.agenda := rfl
@[simp] theorem setLaunch_cycle (k : Nat) (x : Launch) : (s.setLaunch k x).cycle = s.cycle := rfl
@[simp] theorem setLaunch_uid (k : Nat) (x : Launch) : (s.setLaunch k x).uid = s.uid := rfl
@[simp] theorem setLaunch_cur (k : Nat) (x : Launch) : (s.setLaunch k x).cur = s.cur := rfl
@[simp] theorem setLaunch_mem (k : Nat) (x : Launch) : (s.setLaunch k x).mem = s.mem := rfl
@[simp] theorem setLaunch_tlb (k : Nat) (x : Launch) : (s.setLaunch k x).tlb = s.tlb := rfl
@[simp] theorem setLaunch_walks (k : Nat) (x : Launch) : (s.setLaunch k x).walks = s.walks := rfl
@[simp] theorem setLaunch_core (k : Nat) (x : Launch) : (s.setLaunch k x).core = s.core := rfl
@[simp] theorem setLaunch_gangs (k : Nat) (x : Launch) : (s.setLaunch k x).gangs = s.gangs := rfl
@[simp] theorem setLaunch_blocks (k : Nat) (x : Launch) : (s.setLaunch k x).blocks = s.blocks := rfl
@[simp] theorem setLaunch_ctxs (k : Nat) (x : Launch) : (s.setLaunch k x).ctxs = s.ctxs := rfl
@[simp] theorem setLaunch_reqs (k : Nat) (x : Launch) : (s.setLaunch k x).reqs = s.reqs := rfl
@[simp] theorem setLaunch_longs (k : Nat) (x : Launch) : (s.setLaunch k x).longs = s.longs := rfl
@[simp] theorem setLaunch_cmds (k : Nat) (x : Launch) : (s.setLaunch k x).cmds = s.cmds := rfl
@[simp] theorem setLaunch_rreqs (k : Nat) (x : Launch) : (s.setLaunch k x).rreqs = s.rreqs := rfl
@[simp] theorem setLaunch_deliveries (k : Nat) (x : Launch) : (s.setLaunch k x).deliveries = s.deliveries := rfl
@[simp] theorem setLaunch_queues (k : Nat) (x : Launch) : (s.setLaunch k x).queues = s.queues := rfl
@[simp] theorem setLaunch_rings (k : Nat) (x : Launch) : (s.setLaunch k x).rings = s.rings := rfl
@[simp] theorem setLaunch_vfs (k : Nat) (x : Launch) : (s.setLaunch k x).vfs = s.vfs := rfl
@[simp] theorem setLaunch_parts (k : Nat) (x : Launch) : (s.setLaunch k x).parts = s.parts := rfl
@[simp] theorem setLaunch_waits (k : Nat) (x : Launch) : (s.setLaunch k x).waits = s.waits := rfl
@[simp] theorem setLaunch_aged (k : Nat) (x : Launch) : (s.setLaunch k x).aged = s.aged := rfl
@[simp] theorem setLaunch_pf (k : Nat) (x : Launch) : (s.setLaunch k x).pf = s.pf := rfl
@[simp] theorem setLaunch_fab (k : Nat) (x : Launch) : (s.setLaunch k x).fab = s.fab := rfl
@[simp] theorem setLaunch_energy (k : Nat) (x : Launch) : (s.setLaunch k x).energy = s.energy := rfl
@[simp] theorem setLaunch_areas (k : Nat) (x : Launch) : (s.setLaunch k x).areas = s.areas := rfl
@[simp] theorem setLaunch_engOps (k : Nat) (x : Launch) : (s.setLaunch k x).engOps = s.engOps := rfl
@[simp] theorem setLaunch_ahead (k : Nat) (x : Launch) : (s.setLaunch k x).ahead = s.ahead := rfl
@[simp] theorem setLaunch_imports (k : Nat) (x : Launch) : (s.setLaunch k x).imports = s.imports := rfl
@[simp] theorem setLaunch_mmioOut (k : Nat) (x : Launch) : (s.setLaunch k x).mmioOut = s.mmioOut := rfl
@[simp] theorem setLaunch_leftAt (k : Nat) (x : Launch) : (s.setLaunch k x).leftAt = s.leftAt := rfl

-- State.setReq

@[simp] theorem setReq_agenda (k : Nat) (x : Option Req) : (s.setReq k x).agenda = s.agenda := rfl
@[simp] theorem setReq_cycle (k : Nat) (x : Option Req) : (s.setReq k x).cycle = s.cycle := rfl
@[simp] theorem setReq_uid (k : Nat) (x : Option Req) : (s.setReq k x).uid = s.uid := rfl
@[simp] theorem setReq_cur (k : Nat) (x : Option Req) : (s.setReq k x).cur = s.cur := rfl
@[simp] theorem setReq_mem (k : Nat) (x : Option Req) : (s.setReq k x).mem = s.mem := rfl
@[simp] theorem setReq_tlb (k : Nat) (x : Option Req) : (s.setReq k x).tlb = s.tlb := rfl
@[simp] theorem setReq_walks (k : Nat) (x : Option Req) : (s.setReq k x).walks = s.walks := rfl
@[simp] theorem setReq_core (k : Nat) (x : Option Req) : (s.setReq k x).core = s.core := rfl
@[simp] theorem setReq_gangs (k : Nat) (x : Option Req) : (s.setReq k x).gangs = s.gangs := rfl
@[simp] theorem setReq_blocks (k : Nat) (x : Option Req) : (s.setReq k x).blocks = s.blocks := rfl
@[simp] theorem setReq_ctxs (k : Nat) (x : Option Req) : (s.setReq k x).ctxs = s.ctxs := rfl
@[simp] theorem setReq_launches (k : Nat) (x : Option Req) : (s.setReq k x).launches = s.launches := rfl
@[simp] theorem setReq_longs (k : Nat) (x : Option Req) : (s.setReq k x).longs = s.longs := rfl
@[simp] theorem setReq_cmds (k : Nat) (x : Option Req) : (s.setReq k x).cmds = s.cmds := rfl
@[simp] theorem setReq_rreqs (k : Nat) (x : Option Req) : (s.setReq k x).rreqs = s.rreqs := rfl
@[simp] theorem setReq_deliveries (k : Nat) (x : Option Req) : (s.setReq k x).deliveries = s.deliveries := rfl
@[simp] theorem setReq_queues (k : Nat) (x : Option Req) : (s.setReq k x).queues = s.queues := rfl
@[simp] theorem setReq_rings (k : Nat) (x : Option Req) : (s.setReq k x).rings = s.rings := rfl
@[simp] theorem setReq_vfs (k : Nat) (x : Option Req) : (s.setReq k x).vfs = s.vfs := rfl
@[simp] theorem setReq_parts (k : Nat) (x : Option Req) : (s.setReq k x).parts = s.parts := rfl
@[simp] theorem setReq_waits (k : Nat) (x : Option Req) : (s.setReq k x).waits = s.waits := rfl
@[simp] theorem setReq_aged (k : Nat) (x : Option Req) : (s.setReq k x).aged = s.aged := rfl
@[simp] theorem setReq_pf (k : Nat) (x : Option Req) : (s.setReq k x).pf = s.pf := rfl
@[simp] theorem setReq_fab (k : Nat) (x : Option Req) : (s.setReq k x).fab = s.fab := rfl
@[simp] theorem setReq_energy (k : Nat) (x : Option Req) : (s.setReq k x).energy = s.energy := rfl
@[simp] theorem setReq_areas (k : Nat) (x : Option Req) : (s.setReq k x).areas = s.areas := rfl
@[simp] theorem setReq_engOps (k : Nat) (x : Option Req) : (s.setReq k x).engOps = s.engOps := rfl
@[simp] theorem setReq_ahead (k : Nat) (x : Option Req) : (s.setReq k x).ahead = s.ahead := rfl
@[simp] theorem setReq_imports (k : Nat) (x : Option Req) : (s.setReq k x).imports = s.imports := rfl
@[simp] theorem setReq_mmioOut (k : Nat) (x : Option Req) : (s.setReq k x).mmioOut = s.mmioOut := rfl
@[simp] theorem setReq_leftAt (k : Nat) (x : Option Req) : (s.setReq k x).leftAt = s.leftAt := rfl

-- State.setLong

@[simp] theorem setLong_agenda (k : Nat) (x : Option LongOp) : (s.setLong k x).agenda = s.agenda := rfl
@[simp] theorem setLong_cycle (k : Nat) (x : Option LongOp) : (s.setLong k x).cycle = s.cycle := rfl
@[simp] theorem setLong_uid (k : Nat) (x : Option LongOp) : (s.setLong k x).uid = s.uid := rfl
@[simp] theorem setLong_cur (k : Nat) (x : Option LongOp) : (s.setLong k x).cur = s.cur := rfl
@[simp] theorem setLong_mem (k : Nat) (x : Option LongOp) : (s.setLong k x).mem = s.mem := rfl
@[simp] theorem setLong_tlb (k : Nat) (x : Option LongOp) : (s.setLong k x).tlb = s.tlb := rfl
@[simp] theorem setLong_walks (k : Nat) (x : Option LongOp) : (s.setLong k x).walks = s.walks := rfl
@[simp] theorem setLong_core (k : Nat) (x : Option LongOp) : (s.setLong k x).core = s.core := rfl
@[simp] theorem setLong_gangs (k : Nat) (x : Option LongOp) : (s.setLong k x).gangs = s.gangs := rfl
@[simp] theorem setLong_blocks (k : Nat) (x : Option LongOp) : (s.setLong k x).blocks = s.blocks := rfl
@[simp] theorem setLong_ctxs (k : Nat) (x : Option LongOp) : (s.setLong k x).ctxs = s.ctxs := rfl
@[simp] theorem setLong_launches (k : Nat) (x : Option LongOp) : (s.setLong k x).launches = s.launches := rfl
@[simp] theorem setLong_reqs (k : Nat) (x : Option LongOp) : (s.setLong k x).reqs = s.reqs := rfl
@[simp] theorem setLong_cmds (k : Nat) (x : Option LongOp) : (s.setLong k x).cmds = s.cmds := rfl
@[simp] theorem setLong_rreqs (k : Nat) (x : Option LongOp) : (s.setLong k x).rreqs = s.rreqs := rfl
@[simp] theorem setLong_deliveries (k : Nat) (x : Option LongOp) : (s.setLong k x).deliveries = s.deliveries := rfl
@[simp] theorem setLong_queues (k : Nat) (x : Option LongOp) : (s.setLong k x).queues = s.queues := rfl
@[simp] theorem setLong_rings (k : Nat) (x : Option LongOp) : (s.setLong k x).rings = s.rings := rfl
@[simp] theorem setLong_vfs (k : Nat) (x : Option LongOp) : (s.setLong k x).vfs = s.vfs := rfl
@[simp] theorem setLong_parts (k : Nat) (x : Option LongOp) : (s.setLong k x).parts = s.parts := rfl
@[simp] theorem setLong_waits (k : Nat) (x : Option LongOp) : (s.setLong k x).waits = s.waits := rfl
@[simp] theorem setLong_aged (k : Nat) (x : Option LongOp) : (s.setLong k x).aged = s.aged := rfl
@[simp] theorem setLong_pf (k : Nat) (x : Option LongOp) : (s.setLong k x).pf = s.pf := rfl
@[simp] theorem setLong_fab (k : Nat) (x : Option LongOp) : (s.setLong k x).fab = s.fab := rfl
@[simp] theorem setLong_energy (k : Nat) (x : Option LongOp) : (s.setLong k x).energy = s.energy := rfl
@[simp] theorem setLong_areas (k : Nat) (x : Option LongOp) : (s.setLong k x).areas = s.areas := rfl
@[simp] theorem setLong_engOps (k : Nat) (x : Option LongOp) : (s.setLong k x).engOps = s.engOps := rfl
@[simp] theorem setLong_ahead (k : Nat) (x : Option LongOp) : (s.setLong k x).ahead = s.ahead := rfl
@[simp] theorem setLong_imports (k : Nat) (x : Option LongOp) : (s.setLong k x).imports = s.imports := rfl
@[simp] theorem setLong_mmioOut (k : Nat) (x : Option LongOp) : (s.setLong k x).mmioOut = s.mmioOut := rfl
@[simp] theorem setLong_leftAt (k : Nat) (x : Option LongOp) : (s.setLong k x).leftAt = s.leftAt := rfl

-- State.setCmd

@[simp] theorem setCmd_agenda (k : Nat) (x : Option Cmd) : (s.setCmd k x).agenda = s.agenda := rfl
@[simp] theorem setCmd_cycle (k : Nat) (x : Option Cmd) : (s.setCmd k x).cycle = s.cycle := rfl
@[simp] theorem setCmd_uid (k : Nat) (x : Option Cmd) : (s.setCmd k x).uid = s.uid := rfl
@[simp] theorem setCmd_cur (k : Nat) (x : Option Cmd) : (s.setCmd k x).cur = s.cur := rfl
@[simp] theorem setCmd_mem (k : Nat) (x : Option Cmd) : (s.setCmd k x).mem = s.mem := rfl
@[simp] theorem setCmd_tlb (k : Nat) (x : Option Cmd) : (s.setCmd k x).tlb = s.tlb := rfl
@[simp] theorem setCmd_walks (k : Nat) (x : Option Cmd) : (s.setCmd k x).walks = s.walks := rfl
@[simp] theorem setCmd_core (k : Nat) (x : Option Cmd) : (s.setCmd k x).core = s.core := rfl
@[simp] theorem setCmd_gangs (k : Nat) (x : Option Cmd) : (s.setCmd k x).gangs = s.gangs := rfl
@[simp] theorem setCmd_blocks (k : Nat) (x : Option Cmd) : (s.setCmd k x).blocks = s.blocks := rfl
@[simp] theorem setCmd_ctxs (k : Nat) (x : Option Cmd) : (s.setCmd k x).ctxs = s.ctxs := rfl
@[simp] theorem setCmd_launches (k : Nat) (x : Option Cmd) : (s.setCmd k x).launches = s.launches := rfl
@[simp] theorem setCmd_reqs (k : Nat) (x : Option Cmd) : (s.setCmd k x).reqs = s.reqs := rfl
@[simp] theorem setCmd_longs (k : Nat) (x : Option Cmd) : (s.setCmd k x).longs = s.longs := rfl
@[simp] theorem setCmd_rreqs (k : Nat) (x : Option Cmd) : (s.setCmd k x).rreqs = s.rreqs := rfl
@[simp] theorem setCmd_deliveries (k : Nat) (x : Option Cmd) : (s.setCmd k x).deliveries = s.deliveries := rfl
@[simp] theorem setCmd_queues (k : Nat) (x : Option Cmd) : (s.setCmd k x).queues = s.queues := rfl
@[simp] theorem setCmd_rings (k : Nat) (x : Option Cmd) : (s.setCmd k x).rings = s.rings := rfl
@[simp] theorem setCmd_vfs (k : Nat) (x : Option Cmd) : (s.setCmd k x).vfs = s.vfs := rfl
@[simp] theorem setCmd_parts (k : Nat) (x : Option Cmd) : (s.setCmd k x).parts = s.parts := rfl
@[simp] theorem setCmd_waits (k : Nat) (x : Option Cmd) : (s.setCmd k x).waits = s.waits := rfl
@[simp] theorem setCmd_aged (k : Nat) (x : Option Cmd) : (s.setCmd k x).aged = s.aged := rfl
@[simp] theorem setCmd_pf (k : Nat) (x : Option Cmd) : (s.setCmd k x).pf = s.pf := rfl
@[simp] theorem setCmd_fab (k : Nat) (x : Option Cmd) : (s.setCmd k x).fab = s.fab := rfl
@[simp] theorem setCmd_energy (k : Nat) (x : Option Cmd) : (s.setCmd k x).energy = s.energy := rfl
@[simp] theorem setCmd_areas (k : Nat) (x : Option Cmd) : (s.setCmd k x).areas = s.areas := rfl
@[simp] theorem setCmd_engOps (k : Nat) (x : Option Cmd) : (s.setCmd k x).engOps = s.engOps := rfl
@[simp] theorem setCmd_ahead (k : Nat) (x : Option Cmd) : (s.setCmd k x).ahead = s.ahead := rfl
@[simp] theorem setCmd_imports (k : Nat) (x : Option Cmd) : (s.setCmd k x).imports = s.imports := rfl
@[simp] theorem setCmd_mmioOut (k : Nat) (x : Option Cmd) : (s.setCmd k x).mmioOut = s.mmioOut := rfl
@[simp] theorem setCmd_leftAt (k : Nat) (x : Option Cmd) : (s.setCmd k x).leftAt = s.leftAt := rfl

-- State.setRreq

@[simp] theorem setRreq_agenda (k : Nat) (x : Option RReq) : (s.setRreq k x).agenda = s.agenda := rfl
@[simp] theorem setRreq_cycle (k : Nat) (x : Option RReq) : (s.setRreq k x).cycle = s.cycle := rfl
@[simp] theorem setRreq_uid (k : Nat) (x : Option RReq) : (s.setRreq k x).uid = s.uid := rfl
@[simp] theorem setRreq_cur (k : Nat) (x : Option RReq) : (s.setRreq k x).cur = s.cur := rfl
@[simp] theorem setRreq_mem (k : Nat) (x : Option RReq) : (s.setRreq k x).mem = s.mem := rfl
@[simp] theorem setRreq_tlb (k : Nat) (x : Option RReq) : (s.setRreq k x).tlb = s.tlb := rfl
@[simp] theorem setRreq_walks (k : Nat) (x : Option RReq) : (s.setRreq k x).walks = s.walks := rfl
@[simp] theorem setRreq_core (k : Nat) (x : Option RReq) : (s.setRreq k x).core = s.core := rfl
@[simp] theorem setRreq_gangs (k : Nat) (x : Option RReq) : (s.setRreq k x).gangs = s.gangs := rfl
@[simp] theorem setRreq_blocks (k : Nat) (x : Option RReq) : (s.setRreq k x).blocks = s.blocks := rfl
@[simp] theorem setRreq_ctxs (k : Nat) (x : Option RReq) : (s.setRreq k x).ctxs = s.ctxs := rfl
@[simp] theorem setRreq_launches (k : Nat) (x : Option RReq) : (s.setRreq k x).launches = s.launches := rfl
@[simp] theorem setRreq_reqs (k : Nat) (x : Option RReq) : (s.setRreq k x).reqs = s.reqs := rfl
@[simp] theorem setRreq_longs (k : Nat) (x : Option RReq) : (s.setRreq k x).longs = s.longs := rfl
@[simp] theorem setRreq_cmds (k : Nat) (x : Option RReq) : (s.setRreq k x).cmds = s.cmds := rfl
@[simp] theorem setRreq_deliveries (k : Nat) (x : Option RReq) : (s.setRreq k x).deliveries = s.deliveries := rfl
@[simp] theorem setRreq_queues (k : Nat) (x : Option RReq) : (s.setRreq k x).queues = s.queues := rfl
@[simp] theorem setRreq_rings (k : Nat) (x : Option RReq) : (s.setRreq k x).rings = s.rings := rfl
@[simp] theorem setRreq_vfs (k : Nat) (x : Option RReq) : (s.setRreq k x).vfs = s.vfs := rfl
@[simp] theorem setRreq_parts (k : Nat) (x : Option RReq) : (s.setRreq k x).parts = s.parts := rfl
@[simp] theorem setRreq_waits (k : Nat) (x : Option RReq) : (s.setRreq k x).waits = s.waits := rfl
@[simp] theorem setRreq_aged (k : Nat) (x : Option RReq) : (s.setRreq k x).aged = s.aged := rfl
@[simp] theorem setRreq_pf (k : Nat) (x : Option RReq) : (s.setRreq k x).pf = s.pf := rfl
@[simp] theorem setRreq_fab (k : Nat) (x : Option RReq) : (s.setRreq k x).fab = s.fab := rfl
@[simp] theorem setRreq_energy (k : Nat) (x : Option RReq) : (s.setRreq k x).energy = s.energy := rfl
@[simp] theorem setRreq_areas (k : Nat) (x : Option RReq) : (s.setRreq k x).areas = s.areas := rfl
@[simp] theorem setRreq_engOps (k : Nat) (x : Option RReq) : (s.setRreq k x).engOps = s.engOps := rfl
@[simp] theorem setRreq_ahead (k : Nat) (x : Option RReq) : (s.setRreq k x).ahead = s.ahead := rfl
@[simp] theorem setRreq_imports (k : Nat) (x : Option RReq) : (s.setRreq k x).imports = s.imports := rfl
@[simp] theorem setRreq_mmioOut (k : Nat) (x : Option RReq) : (s.setRreq k x).mmioOut = s.mmioOut := rfl
@[simp] theorem setRreq_leftAt (k : Nat) (x : Option RReq) : (s.setRreq k x).leftAt = s.leftAt := rfl

-- State.setVf

@[simp] theorem setVf_agenda (k : Nat) (x : VfRegs) : (s.setVf k x).agenda = s.agenda := rfl
@[simp] theorem setVf_cycle (k : Nat) (x : VfRegs) : (s.setVf k x).cycle = s.cycle := rfl
@[simp] theorem setVf_uid (k : Nat) (x : VfRegs) : (s.setVf k x).uid = s.uid := rfl
@[simp] theorem setVf_cur (k : Nat) (x : VfRegs) : (s.setVf k x).cur = s.cur := rfl
@[simp] theorem setVf_mem (k : Nat) (x : VfRegs) : (s.setVf k x).mem = s.mem := rfl
@[simp] theorem setVf_tlb (k : Nat) (x : VfRegs) : (s.setVf k x).tlb = s.tlb := rfl
@[simp] theorem setVf_walks (k : Nat) (x : VfRegs) : (s.setVf k x).walks = s.walks := rfl
@[simp] theorem setVf_core (k : Nat) (x : VfRegs) : (s.setVf k x).core = s.core := rfl
@[simp] theorem setVf_gangs (k : Nat) (x : VfRegs) : (s.setVf k x).gangs = s.gangs := rfl
@[simp] theorem setVf_blocks (k : Nat) (x : VfRegs) : (s.setVf k x).blocks = s.blocks := rfl
@[simp] theorem setVf_ctxs (k : Nat) (x : VfRegs) : (s.setVf k x).ctxs = s.ctxs := rfl
@[simp] theorem setVf_launches (k : Nat) (x : VfRegs) : (s.setVf k x).launches = s.launches := rfl
@[simp] theorem setVf_reqs (k : Nat) (x : VfRegs) : (s.setVf k x).reqs = s.reqs := rfl
@[simp] theorem setVf_longs (k : Nat) (x : VfRegs) : (s.setVf k x).longs = s.longs := rfl
@[simp] theorem setVf_cmds (k : Nat) (x : VfRegs) : (s.setVf k x).cmds = s.cmds := rfl
@[simp] theorem setVf_rreqs (k : Nat) (x : VfRegs) : (s.setVf k x).rreqs = s.rreqs := rfl
@[simp] theorem setVf_deliveries (k : Nat) (x : VfRegs) : (s.setVf k x).deliveries = s.deliveries := rfl
@[simp] theorem setVf_queues (k : Nat) (x : VfRegs) : (s.setVf k x).queues = s.queues := rfl
@[simp] theorem setVf_rings (k : Nat) (x : VfRegs) : (s.setVf k x).rings = s.rings := rfl
@[simp] theorem setVf_parts (k : Nat) (x : VfRegs) : (s.setVf k x).parts = s.parts := rfl
@[simp] theorem setVf_waits (k : Nat) (x : VfRegs) : (s.setVf k x).waits = s.waits := rfl
@[simp] theorem setVf_aged (k : Nat) (x : VfRegs) : (s.setVf k x).aged = s.aged := rfl
@[simp] theorem setVf_pf (k : Nat) (x : VfRegs) : (s.setVf k x).pf = s.pf := rfl
@[simp] theorem setVf_fab (k : Nat) (x : VfRegs) : (s.setVf k x).fab = s.fab := rfl
@[simp] theorem setVf_energy (k : Nat) (x : VfRegs) : (s.setVf k x).energy = s.energy := rfl
@[simp] theorem setVf_areas (k : Nat) (x : VfRegs) : (s.setVf k x).areas = s.areas := rfl
@[simp] theorem setVf_engOps (k : Nat) (x : VfRegs) : (s.setVf k x).engOps = s.engOps := rfl
@[simp] theorem setVf_ahead (k : Nat) (x : VfRegs) : (s.setVf k x).ahead = s.ahead := rfl
@[simp] theorem setVf_imports (k : Nat) (x : VfRegs) : (s.setVf k x).imports = s.imports := rfl
@[simp] theorem setVf_mmioOut (k : Nat) (x : VfRegs) : (s.setVf k x).mmioOut = s.mmioOut := rfl
@[simp] theorem setVf_leftAt (k : Nat) (x : VfRegs) : (s.setVf k x).leftAt = s.leftAt := rfl

-- State.setPart

@[simp] theorem setPart_agenda (k : Nat) (x : Part) : (s.setPart k x).agenda = s.agenda := rfl
@[simp] theorem setPart_cycle (k : Nat) (x : Part) : (s.setPart k x).cycle = s.cycle := rfl
@[simp] theorem setPart_uid (k : Nat) (x : Part) : (s.setPart k x).uid = s.uid := rfl
@[simp] theorem setPart_cur (k : Nat) (x : Part) : (s.setPart k x).cur = s.cur := rfl
@[simp] theorem setPart_mem (k : Nat) (x : Part) : (s.setPart k x).mem = s.mem := rfl
@[simp] theorem setPart_tlb (k : Nat) (x : Part) : (s.setPart k x).tlb = s.tlb := rfl
@[simp] theorem setPart_walks (k : Nat) (x : Part) : (s.setPart k x).walks = s.walks := rfl
@[simp] theorem setPart_core (k : Nat) (x : Part) : (s.setPart k x).core = s.core := rfl
@[simp] theorem setPart_gangs (k : Nat) (x : Part) : (s.setPart k x).gangs = s.gangs := rfl
@[simp] theorem setPart_blocks (k : Nat) (x : Part) : (s.setPart k x).blocks = s.blocks := rfl
@[simp] theorem setPart_ctxs (k : Nat) (x : Part) : (s.setPart k x).ctxs = s.ctxs := rfl
@[simp] theorem setPart_launches (k : Nat) (x : Part) : (s.setPart k x).launches = s.launches := rfl
@[simp] theorem setPart_reqs (k : Nat) (x : Part) : (s.setPart k x).reqs = s.reqs := rfl
@[simp] theorem setPart_longs (k : Nat) (x : Part) : (s.setPart k x).longs = s.longs := rfl
@[simp] theorem setPart_cmds (k : Nat) (x : Part) : (s.setPart k x).cmds = s.cmds := rfl
@[simp] theorem setPart_rreqs (k : Nat) (x : Part) : (s.setPart k x).rreqs = s.rreqs := rfl
@[simp] theorem setPart_deliveries (k : Nat) (x : Part) : (s.setPart k x).deliveries = s.deliveries := rfl
@[simp] theorem setPart_queues (k : Nat) (x : Part) : (s.setPart k x).queues = s.queues := rfl
@[simp] theorem setPart_rings (k : Nat) (x : Part) : (s.setPart k x).rings = s.rings := rfl
@[simp] theorem setPart_vfs (k : Nat) (x : Part) : (s.setPart k x).vfs = s.vfs := rfl
@[simp] theorem setPart_waits (k : Nat) (x : Part) : (s.setPart k x).waits = s.waits := rfl
@[simp] theorem setPart_aged (k : Nat) (x : Part) : (s.setPart k x).aged = s.aged := rfl
@[simp] theorem setPart_pf (k : Nat) (x : Part) : (s.setPart k x).pf = s.pf := rfl
@[simp] theorem setPart_fab (k : Nat) (x : Part) : (s.setPart k x).fab = s.fab := rfl
@[simp] theorem setPart_energy (k : Nat) (x : Part) : (s.setPart k x).energy = s.energy := rfl
@[simp] theorem setPart_areas (k : Nat) (x : Part) : (s.setPart k x).areas = s.areas := rfl
@[simp] theorem setPart_engOps (k : Nat) (x : Part) : (s.setPart k x).engOps = s.engOps := rfl
@[simp] theorem setPart_ahead (k : Nat) (x : Part) : (s.setPart k x).ahead = s.ahead := rfl
@[simp] theorem setPart_imports (k : Nat) (x : Part) : (s.setPart k x).imports = s.imports := rfl
@[simp] theorem setPart_mmioOut (k : Nat) (x : Part) : (s.setPart k x).mmioOut = s.mmioOut := rfl
@[simp] theorem setPart_leftAt (k : Nat) (x : Part) : (s.setPart k x).leftAt = s.leftAt := rfl

-- State.setRing

@[simp] theorem setRing_agenda (k : Nat) (x : Ring) : (s.setRing k x).agenda = s.agenda := rfl
@[simp] theorem setRing_cycle (k : Nat) (x : Ring) : (s.setRing k x).cycle = s.cycle := rfl
@[simp] theorem setRing_uid (k : Nat) (x : Ring) : (s.setRing k x).uid = s.uid := rfl
@[simp] theorem setRing_cur (k : Nat) (x : Ring) : (s.setRing k x).cur = s.cur := rfl
@[simp] theorem setRing_mem (k : Nat) (x : Ring) : (s.setRing k x).mem = s.mem := rfl
@[simp] theorem setRing_tlb (k : Nat) (x : Ring) : (s.setRing k x).tlb = s.tlb := rfl
@[simp] theorem setRing_walks (k : Nat) (x : Ring) : (s.setRing k x).walks = s.walks := rfl
@[simp] theorem setRing_core (k : Nat) (x : Ring) : (s.setRing k x).core = s.core := rfl
@[simp] theorem setRing_gangs (k : Nat) (x : Ring) : (s.setRing k x).gangs = s.gangs := rfl
@[simp] theorem setRing_blocks (k : Nat) (x : Ring) : (s.setRing k x).blocks = s.blocks := rfl
@[simp] theorem setRing_ctxs (k : Nat) (x : Ring) : (s.setRing k x).ctxs = s.ctxs := rfl
@[simp] theorem setRing_launches (k : Nat) (x : Ring) : (s.setRing k x).launches = s.launches := rfl
@[simp] theorem setRing_reqs (k : Nat) (x : Ring) : (s.setRing k x).reqs = s.reqs := rfl
@[simp] theorem setRing_longs (k : Nat) (x : Ring) : (s.setRing k x).longs = s.longs := rfl
@[simp] theorem setRing_cmds (k : Nat) (x : Ring) : (s.setRing k x).cmds = s.cmds := rfl
@[simp] theorem setRing_rreqs (k : Nat) (x : Ring) : (s.setRing k x).rreqs = s.rreqs := rfl
@[simp] theorem setRing_deliveries (k : Nat) (x : Ring) : (s.setRing k x).deliveries = s.deliveries := rfl
@[simp] theorem setRing_queues (k : Nat) (x : Ring) : (s.setRing k x).queues = s.queues := rfl
@[simp] theorem setRing_vfs (k : Nat) (x : Ring) : (s.setRing k x).vfs = s.vfs := rfl
@[simp] theorem setRing_parts (k : Nat) (x : Ring) : (s.setRing k x).parts = s.parts := rfl
@[simp] theorem setRing_waits (k : Nat) (x : Ring) : (s.setRing k x).waits = s.waits := rfl
@[simp] theorem setRing_aged (k : Nat) (x : Ring) : (s.setRing k x).aged = s.aged := rfl
@[simp] theorem setRing_pf (k : Nat) (x : Ring) : (s.setRing k x).pf = s.pf := rfl
@[simp] theorem setRing_fab (k : Nat) (x : Ring) : (s.setRing k x).fab = s.fab := rfl
@[simp] theorem setRing_energy (k : Nat) (x : Ring) : (s.setRing k x).energy = s.energy := rfl
@[simp] theorem setRing_areas (k : Nat) (x : Ring) : (s.setRing k x).areas = s.areas := rfl
@[simp] theorem setRing_engOps (k : Nat) (x : Ring) : (s.setRing k x).engOps = s.engOps := rfl
@[simp] theorem setRing_ahead (k : Nat) (x : Ring) : (s.setRing k x).ahead = s.ahead := rfl
@[simp] theorem setRing_imports (k : Nat) (x : Ring) : (s.setRing k x).imports = s.imports := rfl
@[simp] theorem setRing_mmioOut (k : Nat) (x : Ring) : (s.setRing k x).mmioOut = s.mmioOut := rfl
@[simp] theorem setRing_leftAt (k : Nat) (x : Ring) : (s.setRing k x).leftAt = s.leftAt := rfl

-- State.setQueue

@[simp] theorem setQueue_agenda (k : Nat) (x : HQueue) : (s.setQueue k x).agenda = s.agenda := rfl
@[simp] theorem setQueue_cycle (k : Nat) (x : HQueue) : (s.setQueue k x).cycle = s.cycle := rfl
@[simp] theorem setQueue_uid (k : Nat) (x : HQueue) : (s.setQueue k x).uid = s.uid := rfl
@[simp] theorem setQueue_cur (k : Nat) (x : HQueue) : (s.setQueue k x).cur = s.cur := rfl
@[simp] theorem setQueue_mem (k : Nat) (x : HQueue) : (s.setQueue k x).mem = s.mem := rfl
@[simp] theorem setQueue_tlb (k : Nat) (x : HQueue) : (s.setQueue k x).tlb = s.tlb := rfl
@[simp] theorem setQueue_walks (k : Nat) (x : HQueue) : (s.setQueue k x).walks = s.walks := rfl
@[simp] theorem setQueue_core (k : Nat) (x : HQueue) : (s.setQueue k x).core = s.core := rfl
@[simp] theorem setQueue_gangs (k : Nat) (x : HQueue) : (s.setQueue k x).gangs = s.gangs := rfl
@[simp] theorem setQueue_blocks (k : Nat) (x : HQueue) : (s.setQueue k x).blocks = s.blocks := rfl
@[simp] theorem setQueue_ctxs (k : Nat) (x : HQueue) : (s.setQueue k x).ctxs = s.ctxs := rfl
@[simp] theorem setQueue_launches (k : Nat) (x : HQueue) : (s.setQueue k x).launches = s.launches := rfl
@[simp] theorem setQueue_reqs (k : Nat) (x : HQueue) : (s.setQueue k x).reqs = s.reqs := rfl
@[simp] theorem setQueue_longs (k : Nat) (x : HQueue) : (s.setQueue k x).longs = s.longs := rfl
@[simp] theorem setQueue_cmds (k : Nat) (x : HQueue) : (s.setQueue k x).cmds = s.cmds := rfl
@[simp] theorem setQueue_rreqs (k : Nat) (x : HQueue) : (s.setQueue k x).rreqs = s.rreqs := rfl
@[simp] theorem setQueue_deliveries (k : Nat) (x : HQueue) : (s.setQueue k x).deliveries = s.deliveries := rfl
@[simp] theorem setQueue_rings (k : Nat) (x : HQueue) : (s.setQueue k x).rings = s.rings := rfl
@[simp] theorem setQueue_vfs (k : Nat) (x : HQueue) : (s.setQueue k x).vfs = s.vfs := rfl
@[simp] theorem setQueue_parts (k : Nat) (x : HQueue) : (s.setQueue k x).parts = s.parts := rfl
@[simp] theorem setQueue_waits (k : Nat) (x : HQueue) : (s.setQueue k x).waits = s.waits := rfl
@[simp] theorem setQueue_aged (k : Nat) (x : HQueue) : (s.setQueue k x).aged = s.aged := rfl
@[simp] theorem setQueue_pf (k : Nat) (x : HQueue) : (s.setQueue k x).pf = s.pf := rfl
@[simp] theorem setQueue_fab (k : Nat) (x : HQueue) : (s.setQueue k x).fab = s.fab := rfl
@[simp] theorem setQueue_energy (k : Nat) (x : HQueue) : (s.setQueue k x).energy = s.energy := rfl
@[simp] theorem setQueue_areas (k : Nat) (x : HQueue) : (s.setQueue k x).areas = s.areas := rfl
@[simp] theorem setQueue_engOps (k : Nat) (x : HQueue) : (s.setQueue k x).engOps = s.engOps := rfl
@[simp] theorem setQueue_ahead (k : Nat) (x : HQueue) : (s.setQueue k x).ahead = s.ahead := rfl
@[simp] theorem setQueue_imports (k : Nat) (x : HQueue) : (s.setQueue k x).imports = s.imports := rfl
@[simp] theorem setQueue_mmioOut (k : Nat) (x : HQueue) : (s.setQueue k x).mmioOut = s.mmioOut := rfl
@[simp] theorem setQueue_leftAt (k : Nat) (x : HQueue) : (s.setQueue k x).leftAt = s.leftAt := rfl

-- State.setCrew

@[simp] theorem setCrew_agenda (k : Nat) (x : Crew) : (s.setCrew k x).agenda = s.agenda := rfl
@[simp] theorem setCrew_cycle (k : Nat) (x : Crew) : (s.setCrew k x).cycle = s.cycle := rfl
@[simp] theorem setCrew_uid (k : Nat) (x : Crew) : (s.setCrew k x).uid = s.uid := rfl
@[simp] theorem setCrew_cur (k : Nat) (x : Crew) : (s.setCrew k x).cur = s.cur := rfl
@[simp] theorem setCrew_mem (k : Nat) (x : Crew) : (s.setCrew k x).mem = s.mem := rfl
@[simp] theorem setCrew_tlb (k : Nat) (x : Crew) : (s.setCrew k x).tlb = s.tlb := rfl
@[simp] theorem setCrew_walks (k : Nat) (x : Crew) : (s.setCrew k x).walks = s.walks := rfl
@[simp] theorem setCrew_gangs (k : Nat) (x : Crew) : (s.setCrew k x).gangs = s.gangs := rfl
@[simp] theorem setCrew_blocks (k : Nat) (x : Crew) : (s.setCrew k x).blocks = s.blocks := rfl
@[simp] theorem setCrew_ctxs (k : Nat) (x : Crew) : (s.setCrew k x).ctxs = s.ctxs := rfl
@[simp] theorem setCrew_launches (k : Nat) (x : Crew) : (s.setCrew k x).launches = s.launches := rfl
@[simp] theorem setCrew_reqs (k : Nat) (x : Crew) : (s.setCrew k x).reqs = s.reqs := rfl
@[simp] theorem setCrew_longs (k : Nat) (x : Crew) : (s.setCrew k x).longs = s.longs := rfl
@[simp] theorem setCrew_cmds (k : Nat) (x : Crew) : (s.setCrew k x).cmds = s.cmds := rfl
@[simp] theorem setCrew_rreqs (k : Nat) (x : Crew) : (s.setCrew k x).rreqs = s.rreqs := rfl
@[simp] theorem setCrew_deliveries (k : Nat) (x : Crew) : (s.setCrew k x).deliveries = s.deliveries := rfl
@[simp] theorem setCrew_queues (k : Nat) (x : Crew) : (s.setCrew k x).queues = s.queues := rfl
@[simp] theorem setCrew_rings (k : Nat) (x : Crew) : (s.setCrew k x).rings = s.rings := rfl
@[simp] theorem setCrew_vfs (k : Nat) (x : Crew) : (s.setCrew k x).vfs = s.vfs := rfl
@[simp] theorem setCrew_parts (k : Nat) (x : Crew) : (s.setCrew k x).parts = s.parts := rfl
@[simp] theorem setCrew_waits (k : Nat) (x : Crew) : (s.setCrew k x).waits = s.waits := rfl
@[simp] theorem setCrew_aged (k : Nat) (x : Crew) : (s.setCrew k x).aged = s.aged := rfl
@[simp] theorem setCrew_pf (k : Nat) (x : Crew) : (s.setCrew k x).pf = s.pf := rfl
@[simp] theorem setCrew_fab (k : Nat) (x : Crew) : (s.setCrew k x).fab = s.fab := rfl
@[simp] theorem setCrew_energy (k : Nat) (x : Crew) : (s.setCrew k x).energy = s.energy := rfl
@[simp] theorem setCrew_areas (k : Nat) (x : Crew) : (s.setCrew k x).areas = s.areas := rfl
@[simp] theorem setCrew_engOps (k : Nat) (x : Crew) : (s.setCrew k x).engOps = s.engOps := rfl
@[simp] theorem setCrew_ahead (k : Nat) (x : Crew) : (s.setCrew k x).ahead = s.ahead := rfl
@[simp] theorem setCrew_imports (k : Nat) (x : Crew) : (s.setCrew k x).imports = s.imports := rfl
@[simp] theorem setCrew_mmioOut (k : Nat) (x : Crew) : (s.setCrew k x).mmioOut = s.mmioOut := rfl
@[simp] theorem setCrew_leftAt (k : Nat) (x : Crew) : (s.setCrew k x).leftAt = s.leftAt := rfl

-- State.setArray

@[simp] theorem setArray_agenda (k : Nat) (x : Array) : (s.setArray k x).agenda = s.agenda := rfl
@[simp] theorem setArray_cycle (k : Nat) (x : Array) : (s.setArray k x).cycle = s.cycle := rfl
@[simp] theorem setArray_uid (k : Nat) (x : Array) : (s.setArray k x).uid = s.uid := rfl
@[simp] theorem setArray_cur (k : Nat) (x : Array) : (s.setArray k x).cur = s.cur := rfl
@[simp] theorem setArray_mem (k : Nat) (x : Array) : (s.setArray k x).mem = s.mem := rfl
@[simp] theorem setArray_tlb (k : Nat) (x : Array) : (s.setArray k x).tlb = s.tlb := rfl
@[simp] theorem setArray_walks (k : Nat) (x : Array) : (s.setArray k x).walks = s.walks := rfl
@[simp] theorem setArray_gangs (k : Nat) (x : Array) : (s.setArray k x).gangs = s.gangs := rfl
@[simp] theorem setArray_blocks (k : Nat) (x : Array) : (s.setArray k x).blocks = s.blocks := rfl
@[simp] theorem setArray_ctxs (k : Nat) (x : Array) : (s.setArray k x).ctxs = s.ctxs := rfl
@[simp] theorem setArray_launches (k : Nat) (x : Array) : (s.setArray k x).launches = s.launches := rfl
@[simp] theorem setArray_reqs (k : Nat) (x : Array) : (s.setArray k x).reqs = s.reqs := rfl
@[simp] theorem setArray_longs (k : Nat) (x : Array) : (s.setArray k x).longs = s.longs := rfl
@[simp] theorem setArray_cmds (k : Nat) (x : Array) : (s.setArray k x).cmds = s.cmds := rfl
@[simp] theorem setArray_rreqs (k : Nat) (x : Array) : (s.setArray k x).rreqs = s.rreqs := rfl
@[simp] theorem setArray_deliveries (k : Nat) (x : Array) : (s.setArray k x).deliveries = s.deliveries := rfl
@[simp] theorem setArray_queues (k : Nat) (x : Array) : (s.setArray k x).queues = s.queues := rfl
@[simp] theorem setArray_rings (k : Nat) (x : Array) : (s.setArray k x).rings = s.rings := rfl
@[simp] theorem setArray_vfs (k : Nat) (x : Array) : (s.setArray k x).vfs = s.vfs := rfl
@[simp] theorem setArray_parts (k : Nat) (x : Array) : (s.setArray k x).parts = s.parts := rfl
@[simp] theorem setArray_waits (k : Nat) (x : Array) : (s.setArray k x).waits = s.waits := rfl
@[simp] theorem setArray_aged (k : Nat) (x : Array) : (s.setArray k x).aged = s.aged := rfl
@[simp] theorem setArray_pf (k : Nat) (x : Array) : (s.setArray k x).pf = s.pf := rfl
@[simp] theorem setArray_fab (k : Nat) (x : Array) : (s.setArray k x).fab = s.fab := rfl
@[simp] theorem setArray_energy (k : Nat) (x : Array) : (s.setArray k x).energy = s.energy := rfl
@[simp] theorem setArray_areas (k : Nat) (x : Array) : (s.setArray k x).areas = s.areas := rfl
@[simp] theorem setArray_engOps (k : Nat) (x : Array) : (s.setArray k x).engOps = s.engOps := rfl
@[simp] theorem setArray_ahead (k : Nat) (x : Array) : (s.setArray k x).ahead = s.ahead := rfl
@[simp] theorem setArray_imports (k : Nat) (x : Array) : (s.setArray k x).imports = s.imports := rfl
@[simp] theorem setArray_mmioOut (k : Nat) (x : Array) : (s.setArray k x).mmioOut = s.mmioOut := rfl
@[simp] theorem setArray_leftAt (k : Nat) (x : Array) : (s.setArray k x).leftAt = s.leftAt := rfl

-- State.setByte

@[simp] theorem setByte_agenda (k : Nat) (x : Byte) : (s.setByte k x).agenda = s.agenda := rfl
@[simp] theorem setByte_cycle (k : Nat) (x : Byte) : (s.setByte k x).cycle = s.cycle := rfl
@[simp] theorem setByte_uid (k : Nat) (x : Byte) : (s.setByte k x).uid = s.uid := rfl
@[simp] theorem setByte_cur (k : Nat) (x : Byte) : (s.setByte k x).cur = s.cur := rfl
@[simp] theorem setByte_tlb (k : Nat) (x : Byte) : (s.setByte k x).tlb = s.tlb := rfl
@[simp] theorem setByte_walks (k : Nat) (x : Byte) : (s.setByte k x).walks = s.walks := rfl
@[simp] theorem setByte_core (k : Nat) (x : Byte) : (s.setByte k x).core = s.core := rfl
@[simp] theorem setByte_gangs (k : Nat) (x : Byte) : (s.setByte k x).gangs = s.gangs := rfl
@[simp] theorem setByte_blocks (k : Nat) (x : Byte) : (s.setByte k x).blocks = s.blocks := rfl
@[simp] theorem setByte_ctxs (k : Nat) (x : Byte) : (s.setByte k x).ctxs = s.ctxs := rfl
@[simp] theorem setByte_launches (k : Nat) (x : Byte) : (s.setByte k x).launches = s.launches := rfl
@[simp] theorem setByte_reqs (k : Nat) (x : Byte) : (s.setByte k x).reqs = s.reqs := rfl
@[simp] theorem setByte_longs (k : Nat) (x : Byte) : (s.setByte k x).longs = s.longs := rfl
@[simp] theorem setByte_cmds (k : Nat) (x : Byte) : (s.setByte k x).cmds = s.cmds := rfl
@[simp] theorem setByte_rreqs (k : Nat) (x : Byte) : (s.setByte k x).rreqs = s.rreqs := rfl
@[simp] theorem setByte_deliveries (k : Nat) (x : Byte) : (s.setByte k x).deliveries = s.deliveries := rfl
@[simp] theorem setByte_queues (k : Nat) (x : Byte) : (s.setByte k x).queues = s.queues := rfl
@[simp] theorem setByte_rings (k : Nat) (x : Byte) : (s.setByte k x).rings = s.rings := rfl
@[simp] theorem setByte_vfs (k : Nat) (x : Byte) : (s.setByte k x).vfs = s.vfs := rfl
@[simp] theorem setByte_parts (k : Nat) (x : Byte) : (s.setByte k x).parts = s.parts := rfl
@[simp] theorem setByte_waits (k : Nat) (x : Byte) : (s.setByte k x).waits = s.waits := rfl
@[simp] theorem setByte_aged (k : Nat) (x : Byte) : (s.setByte k x).aged = s.aged := rfl
@[simp] theorem setByte_pf (k : Nat) (x : Byte) : (s.setByte k x).pf = s.pf := rfl
@[simp] theorem setByte_fab (k : Nat) (x : Byte) : (s.setByte k x).fab = s.fab := rfl
@[simp] theorem setByte_energy (k : Nat) (x : Byte) : (s.setByte k x).energy = s.energy := rfl
@[simp] theorem setByte_areas (k : Nat) (x : Byte) : (s.setByte k x).areas = s.areas := rfl
@[simp] theorem setByte_engOps (k : Nat) (x : Byte) : (s.setByte k x).engOps = s.engOps := rfl
@[simp] theorem setByte_ahead (k : Nat) (x : Byte) : (s.setByte k x).ahead = s.ahead := rfl
@[simp] theorem setByte_imports (k : Nat) (x : Byte) : (s.setByte k x).imports = s.imports := rfl
@[simp] theorem setByte_mmioOut (k : Nat) (x : Byte) : (s.setByte k x).mmioOut = s.mmioOut := rfl
@[simp] theorem setByte_leftAt (k : Nat) (x : Byte) : (s.setByte k x).leftAt = s.leftAt := rfl

-- State.setSbyte

@[simp] theorem setSbyte_agenda (k : Nat) (x : Byte) : (s.setSbyte k x).agenda = s.agenda := rfl
@[simp] theorem setSbyte_cycle (k : Nat) (x : Byte) : (s.setSbyte k x).cycle = s.cycle := rfl
@[simp] theorem setSbyte_uid (k : Nat) (x : Byte) : (s.setSbyte k x).uid = s.uid := rfl
@[simp] theorem setSbyte_cur (k : Nat) (x : Byte) : (s.setSbyte k x).cur = s.cur := rfl
@[simp] theorem setSbyte_mem (k : Nat) (x : Byte) : (s.setSbyte k x).mem = s.mem := rfl
@[simp] theorem setSbyte_tlb (k : Nat) (x : Byte) : (s.setSbyte k x).tlb = s.tlb := rfl
@[simp] theorem setSbyte_walks (k : Nat) (x : Byte) : (s.setSbyte k x).walks = s.walks := rfl
@[simp] theorem setSbyte_gangs (k : Nat) (x : Byte) : (s.setSbyte k x).gangs = s.gangs := rfl
@[simp] theorem setSbyte_blocks (k : Nat) (x : Byte) : (s.setSbyte k x).blocks = s.blocks := rfl
@[simp] theorem setSbyte_ctxs (k : Nat) (x : Byte) : (s.setSbyte k x).ctxs = s.ctxs := rfl
@[simp] theorem setSbyte_launches (k : Nat) (x : Byte) : (s.setSbyte k x).launches = s.launches := rfl
@[simp] theorem setSbyte_reqs (k : Nat) (x : Byte) : (s.setSbyte k x).reqs = s.reqs := rfl
@[simp] theorem setSbyte_longs (k : Nat) (x : Byte) : (s.setSbyte k x).longs = s.longs := rfl
@[simp] theorem setSbyte_cmds (k : Nat) (x : Byte) : (s.setSbyte k x).cmds = s.cmds := rfl
@[simp] theorem setSbyte_rreqs (k : Nat) (x : Byte) : (s.setSbyte k x).rreqs = s.rreqs := rfl
@[simp] theorem setSbyte_deliveries (k : Nat) (x : Byte) : (s.setSbyte k x).deliveries = s.deliveries := rfl
@[simp] theorem setSbyte_queues (k : Nat) (x : Byte) : (s.setSbyte k x).queues = s.queues := rfl
@[simp] theorem setSbyte_rings (k : Nat) (x : Byte) : (s.setSbyte k x).rings = s.rings := rfl
@[simp] theorem setSbyte_vfs (k : Nat) (x : Byte) : (s.setSbyte k x).vfs = s.vfs := rfl
@[simp] theorem setSbyte_parts (k : Nat) (x : Byte) : (s.setSbyte k x).parts = s.parts := rfl
@[simp] theorem setSbyte_waits (k : Nat) (x : Byte) : (s.setSbyte k x).waits = s.waits := rfl
@[simp] theorem setSbyte_aged (k : Nat) (x : Byte) : (s.setSbyte k x).aged = s.aged := rfl
@[simp] theorem setSbyte_pf (k : Nat) (x : Byte) : (s.setSbyte k x).pf = s.pf := rfl
@[simp] theorem setSbyte_fab (k : Nat) (x : Byte) : (s.setSbyte k x).fab = s.fab := rfl
@[simp] theorem setSbyte_energy (k : Nat) (x : Byte) : (s.setSbyte k x).energy = s.energy := rfl
@[simp] theorem setSbyte_areas (k : Nat) (x : Byte) : (s.setSbyte k x).areas = s.areas := rfl
@[simp] theorem setSbyte_engOps (k : Nat) (x : Byte) : (s.setSbyte k x).engOps = s.engOps := rfl
@[simp] theorem setSbyte_ahead (k : Nat) (x : Byte) : (s.setSbyte k x).ahead = s.ahead := rfl
@[simp] theorem setSbyte_imports (k : Nat) (x : Byte) : (s.setSbyte k x).imports = s.imports := rfl
@[simp] theorem setSbyte_mmioOut (k : Nat) (x : Byte) : (s.setSbyte k x).mmioOut = s.mmioOut := rfl
@[simp] theorem setSbyte_leftAt (k : Nat) (x : Byte) : (s.setSbyte k x).leftAt = s.leftAt := rfl

-- State.setTile

@[simp] theorem setTile_agenda (k n : Nat) (x : List (Word × Word)) : (s.setTile k n x).agenda = s.agenda := rfl
@[simp] theorem setTile_cycle (k n : Nat) (x : List (Word × Word)) : (s.setTile k n x).cycle = s.cycle := rfl
@[simp] theorem setTile_uid (k n : Nat) (x : List (Word × Word)) : (s.setTile k n x).uid = s.uid := rfl
@[simp] theorem setTile_cur (k n : Nat) (x : List (Word × Word)) : (s.setTile k n x).cur = s.cur := rfl
@[simp] theorem setTile_mem (k n : Nat) (x : List (Word × Word)) : (s.setTile k n x).mem = s.mem := rfl
@[simp] theorem setTile_tlb (k n : Nat) (x : List (Word × Word)) : (s.setTile k n x).tlb = s.tlb := rfl
@[simp] theorem setTile_walks (k n : Nat) (x : List (Word × Word)) : (s.setTile k n x).walks = s.walks := rfl
@[simp] theorem setTile_gangs (k n : Nat) (x : List (Word × Word)) : (s.setTile k n x).gangs = s.gangs := rfl
@[simp] theorem setTile_blocks (k n : Nat) (x : List (Word × Word)) : (s.setTile k n x).blocks = s.blocks := rfl
@[simp] theorem setTile_ctxs (k n : Nat) (x : List (Word × Word)) : (s.setTile k n x).ctxs = s.ctxs := rfl
@[simp] theorem setTile_launches (k n : Nat) (x : List (Word × Word)) : (s.setTile k n x).launches = s.launches := rfl
@[simp] theorem setTile_reqs (k n : Nat) (x : List (Word × Word)) : (s.setTile k n x).reqs = s.reqs := rfl
@[simp] theorem setTile_longs (k n : Nat) (x : List (Word × Word)) : (s.setTile k n x).longs = s.longs := rfl
@[simp] theorem setTile_cmds (k n : Nat) (x : List (Word × Word)) : (s.setTile k n x).cmds = s.cmds := rfl
@[simp] theorem setTile_rreqs (k n : Nat) (x : List (Word × Word)) : (s.setTile k n x).rreqs = s.rreqs := rfl
@[simp] theorem setTile_deliveries (k n : Nat) (x : List (Word × Word)) : (s.setTile k n x).deliveries = s.deliveries := rfl
@[simp] theorem setTile_queues (k n : Nat) (x : List (Word × Word)) : (s.setTile k n x).queues = s.queues := rfl
@[simp] theorem setTile_rings (k n : Nat) (x : List (Word × Word)) : (s.setTile k n x).rings = s.rings := rfl
@[simp] theorem setTile_vfs (k n : Nat) (x : List (Word × Word)) : (s.setTile k n x).vfs = s.vfs := rfl
@[simp] theorem setTile_parts (k n : Nat) (x : List (Word × Word)) : (s.setTile k n x).parts = s.parts := rfl
@[simp] theorem setTile_waits (k n : Nat) (x : List (Word × Word)) : (s.setTile k n x).waits = s.waits := rfl
@[simp] theorem setTile_aged (k n : Nat) (x : List (Word × Word)) : (s.setTile k n x).aged = s.aged := rfl
@[simp] theorem setTile_pf (k n : Nat) (x : List (Word × Word)) : (s.setTile k n x).pf = s.pf := rfl
@[simp] theorem setTile_fab (k n : Nat) (x : List (Word × Word)) : (s.setTile k n x).fab = s.fab := rfl
@[simp] theorem setTile_energy (k n : Nat) (x : List (Word × Word)) : (s.setTile k n x).energy = s.energy := rfl
@[simp] theorem setTile_areas (k n : Nat) (x : List (Word × Word)) : (s.setTile k n x).areas = s.areas := rfl
@[simp] theorem setTile_engOps (k n : Nat) (x : List (Word × Word)) : (s.setTile k n x).engOps = s.engOps := rfl
@[simp] theorem setTile_ahead (k n : Nat) (x : List (Word × Word)) : (s.setTile k n x).ahead = s.ahead := rfl
@[simp] theorem setTile_imports (k n : Nat) (x : List (Word × Word)) : (s.setTile k n x).imports = s.imports := rfl
@[simp] theorem setTile_mmioOut (k n : Nat) (x : List (Word × Word)) : (s.setTile k n x).mmioOut = s.mmioOut := rfl
@[simp] theorem setTile_leftAt (k n : Nat) (x : List (Word × Word)) : (s.setTile k n x).leftAt = s.leftAt := rfl

-- State.setObyte

@[simp] theorem setObyte_agenda (k : Nat) (x : Byte) : (s.setObyte k x).agenda = s.agenda := rfl
@[simp] theorem setObyte_cycle (k : Nat) (x : Byte) : (s.setObyte k x).cycle = s.cycle := rfl
@[simp] theorem setObyte_uid (k : Nat) (x : Byte) : (s.setObyte k x).uid = s.uid := rfl
@[simp] theorem setObyte_cur (k : Nat) (x : Byte) : (s.setObyte k x).cur = s.cur := rfl
@[simp] theorem setObyte_mem (k : Nat) (x : Byte) : (s.setObyte k x).mem = s.mem := rfl
@[simp] theorem setObyte_tlb (k : Nat) (x : Byte) : (s.setObyte k x).tlb = s.tlb := rfl
@[simp] theorem setObyte_walks (k : Nat) (x : Byte) : (s.setObyte k x).walks = s.walks := rfl
@[simp] theorem setObyte_gangs (k : Nat) (x : Byte) : (s.setObyte k x).gangs = s.gangs := rfl
@[simp] theorem setObyte_blocks (k : Nat) (x : Byte) : (s.setObyte k x).blocks = s.blocks := rfl
@[simp] theorem setObyte_ctxs (k : Nat) (x : Byte) : (s.setObyte k x).ctxs = s.ctxs := rfl
@[simp] theorem setObyte_launches (k : Nat) (x : Byte) : (s.setObyte k x).launches = s.launches := rfl
@[simp] theorem setObyte_reqs (k : Nat) (x : Byte) : (s.setObyte k x).reqs = s.reqs := rfl
@[simp] theorem setObyte_longs (k : Nat) (x : Byte) : (s.setObyte k x).longs = s.longs := rfl
@[simp] theorem setObyte_cmds (k : Nat) (x : Byte) : (s.setObyte k x).cmds = s.cmds := rfl
@[simp] theorem setObyte_rreqs (k : Nat) (x : Byte) : (s.setObyte k x).rreqs = s.rreqs := rfl
@[simp] theorem setObyte_deliveries (k : Nat) (x : Byte) : (s.setObyte k x).deliveries = s.deliveries := rfl
@[simp] theorem setObyte_queues (k : Nat) (x : Byte) : (s.setObyte k x).queues = s.queues := rfl
@[simp] theorem setObyte_rings (k : Nat) (x : Byte) : (s.setObyte k x).rings = s.rings := rfl
@[simp] theorem setObyte_vfs (k : Nat) (x : Byte) : (s.setObyte k x).vfs = s.vfs := rfl
@[simp] theorem setObyte_parts (k : Nat) (x : Byte) : (s.setObyte k x).parts = s.parts := rfl
@[simp] theorem setObyte_waits (k : Nat) (x : Byte) : (s.setObyte k x).waits = s.waits := rfl
@[simp] theorem setObyte_aged (k : Nat) (x : Byte) : (s.setObyte k x).aged = s.aged := rfl
@[simp] theorem setObyte_pf (k : Nat) (x : Byte) : (s.setObyte k x).pf = s.pf := rfl
@[simp] theorem setObyte_fab (k : Nat) (x : Byte) : (s.setObyte k x).fab = s.fab := rfl
@[simp] theorem setObyte_energy (k : Nat) (x : Byte) : (s.setObyte k x).energy = s.energy := rfl
@[simp] theorem setObyte_areas (k : Nat) (x : Byte) : (s.setObyte k x).areas = s.areas := rfl
@[simp] theorem setObyte_engOps (k : Nat) (x : Byte) : (s.setObyte k x).engOps = s.engOps := rfl
@[simp] theorem setObyte_ahead (k : Nat) (x : Byte) : (s.setObyte k x).ahead = s.ahead := rfl
@[simp] theorem setObyte_imports (k : Nat) (x : Byte) : (s.setObyte k x).imports = s.imports := rfl
@[simp] theorem setObyte_mmioOut (k : Nat) (x : Byte) : (s.setObyte k x).mmioOut = s.mmioOut := rfl
@[simp] theorem setObyte_leftAt (k : Nat) (x : Byte) : (s.setObyte k x).leftAt = s.leftAt := rfl

-- State.setEngOp

@[simp] theorem setEngOp_agenda (k : Nat) (x : Option EngOp) : (s.setEngOp k x).agenda = s.agenda := rfl
@[simp] theorem setEngOp_cycle (k : Nat) (x : Option EngOp) : (s.setEngOp k x).cycle = s.cycle := rfl
@[simp] theorem setEngOp_uid (k : Nat) (x : Option EngOp) : (s.setEngOp k x).uid = s.uid := rfl
@[simp] theorem setEngOp_cur (k : Nat) (x : Option EngOp) : (s.setEngOp k x).cur = s.cur := rfl
@[simp] theorem setEngOp_mem (k : Nat) (x : Option EngOp) : (s.setEngOp k x).mem = s.mem := rfl
@[simp] theorem setEngOp_tlb (k : Nat) (x : Option EngOp) : (s.setEngOp k x).tlb = s.tlb := rfl
@[simp] theorem setEngOp_walks (k : Nat) (x : Option EngOp) : (s.setEngOp k x).walks = s.walks := rfl
@[simp] theorem setEngOp_core (k : Nat) (x : Option EngOp) : (s.setEngOp k x).core = s.core := rfl
@[simp] theorem setEngOp_gangs (k : Nat) (x : Option EngOp) : (s.setEngOp k x).gangs = s.gangs := rfl
@[simp] theorem setEngOp_blocks (k : Nat) (x : Option EngOp) : (s.setEngOp k x).blocks = s.blocks := rfl
@[simp] theorem setEngOp_ctxs (k : Nat) (x : Option EngOp) : (s.setEngOp k x).ctxs = s.ctxs := rfl
@[simp] theorem setEngOp_launches (k : Nat) (x : Option EngOp) : (s.setEngOp k x).launches = s.launches := rfl
@[simp] theorem setEngOp_reqs (k : Nat) (x : Option EngOp) : (s.setEngOp k x).reqs = s.reqs := rfl
@[simp] theorem setEngOp_longs (k : Nat) (x : Option EngOp) : (s.setEngOp k x).longs = s.longs := rfl
@[simp] theorem setEngOp_cmds (k : Nat) (x : Option EngOp) : (s.setEngOp k x).cmds = s.cmds := rfl
@[simp] theorem setEngOp_rreqs (k : Nat) (x : Option EngOp) : (s.setEngOp k x).rreqs = s.rreqs := rfl
@[simp] theorem setEngOp_deliveries (k : Nat) (x : Option EngOp) : (s.setEngOp k x).deliveries = s.deliveries := rfl
@[simp] theorem setEngOp_queues (k : Nat) (x : Option EngOp) : (s.setEngOp k x).queues = s.queues := rfl
@[simp] theorem setEngOp_rings (k : Nat) (x : Option EngOp) : (s.setEngOp k x).rings = s.rings := rfl
@[simp] theorem setEngOp_vfs (k : Nat) (x : Option EngOp) : (s.setEngOp k x).vfs = s.vfs := rfl
@[simp] theorem setEngOp_parts (k : Nat) (x : Option EngOp) : (s.setEngOp k x).parts = s.parts := rfl
@[simp] theorem setEngOp_waits (k : Nat) (x : Option EngOp) : (s.setEngOp k x).waits = s.waits := rfl
@[simp] theorem setEngOp_aged (k : Nat) (x : Option EngOp) : (s.setEngOp k x).aged = s.aged := rfl
@[simp] theorem setEngOp_pf (k : Nat) (x : Option EngOp) : (s.setEngOp k x).pf = s.pf := rfl
@[simp] theorem setEngOp_fab (k : Nat) (x : Option EngOp) : (s.setEngOp k x).fab = s.fab := rfl
@[simp] theorem setEngOp_energy (k : Nat) (x : Option EngOp) : (s.setEngOp k x).energy = s.energy := rfl
@[simp] theorem setEngOp_areas (k : Nat) (x : Option EngOp) : (s.setEngOp k x).areas = s.areas := rfl
@[simp] theorem setEngOp_ahead (k : Nat) (x : Option EngOp) : (s.setEngOp k x).ahead = s.ahead := rfl
@[simp] theorem setEngOp_imports (k : Nat) (x : Option EngOp) : (s.setEngOp k x).imports = s.imports := rfl
@[simp] theorem setEngOp_mmioOut (k : Nat) (x : Option EngOp) : (s.setEngOp k x).mmioOut = s.mmioOut := rfl
@[simp] theorem setEngOp_leftAt (k : Nat) (x : Option EngOp) : (s.setEngOp k x).leftAt = s.leftAt := rfl

-- State.setL1

@[simp] theorem setL1_agenda (k l : Nat) (x : Option L1Line) : (s.setL1 k l x).agenda = s.agenda := rfl
@[simp] theorem setL1_cycle (k l : Nat) (x : Option L1Line) : (s.setL1 k l x).cycle = s.cycle := rfl
@[simp] theorem setL1_uid (k l : Nat) (x : Option L1Line) : (s.setL1 k l x).uid = s.uid := rfl
@[simp] theorem setL1_cur (k l : Nat) (x : Option L1Line) : (s.setL1 k l x).cur = s.cur := rfl
@[simp] theorem setL1_mem (k l : Nat) (x : Option L1Line) : (s.setL1 k l x).mem = s.mem := rfl
@[simp] theorem setL1_tlb (k l : Nat) (x : Option L1Line) : (s.setL1 k l x).tlb = s.tlb := rfl
@[simp] theorem setL1_walks (k l : Nat) (x : Option L1Line) : (s.setL1 k l x).walks = s.walks := rfl
@[simp] theorem setL1_gangs (k l : Nat) (x : Option L1Line) : (s.setL1 k l x).gangs = s.gangs := rfl
@[simp] theorem setL1_blocks (k l : Nat) (x : Option L1Line) : (s.setL1 k l x).blocks = s.blocks := rfl
@[simp] theorem setL1_ctxs (k l : Nat) (x : Option L1Line) : (s.setL1 k l x).ctxs = s.ctxs := rfl
@[simp] theorem setL1_launches (k l : Nat) (x : Option L1Line) : (s.setL1 k l x).launches = s.launches := rfl
@[simp] theorem setL1_reqs (k l : Nat) (x : Option L1Line) : (s.setL1 k l x).reqs = s.reqs := rfl
@[simp] theorem setL1_longs (k l : Nat) (x : Option L1Line) : (s.setL1 k l x).longs = s.longs := rfl
@[simp] theorem setL1_cmds (k l : Nat) (x : Option L1Line) : (s.setL1 k l x).cmds = s.cmds := rfl
@[simp] theorem setL1_rreqs (k l : Nat) (x : Option L1Line) : (s.setL1 k l x).rreqs = s.rreqs := rfl
@[simp] theorem setL1_deliveries (k l : Nat) (x : Option L1Line) : (s.setL1 k l x).deliveries = s.deliveries := rfl
@[simp] theorem setL1_queues (k l : Nat) (x : Option L1Line) : (s.setL1 k l x).queues = s.queues := rfl
@[simp] theorem setL1_rings (k l : Nat) (x : Option L1Line) : (s.setL1 k l x).rings = s.rings := rfl
@[simp] theorem setL1_vfs (k l : Nat) (x : Option L1Line) : (s.setL1 k l x).vfs = s.vfs := rfl
@[simp] theorem setL1_parts (k l : Nat) (x : Option L1Line) : (s.setL1 k l x).parts = s.parts := rfl
@[simp] theorem setL1_waits (k l : Nat) (x : Option L1Line) : (s.setL1 k l x).waits = s.waits := rfl
@[simp] theorem setL1_aged (k l : Nat) (x : Option L1Line) : (s.setL1 k l x).aged = s.aged := rfl
@[simp] theorem setL1_pf (k l : Nat) (x : Option L1Line) : (s.setL1 k l x).pf = s.pf := rfl
@[simp] theorem setL1_fab (k l : Nat) (x : Option L1Line) : (s.setL1 k l x).fab = s.fab := rfl
@[simp] theorem setL1_energy (k l : Nat) (x : Option L1Line) : (s.setL1 k l x).energy = s.energy := rfl
@[simp] theorem setL1_areas (k l : Nat) (x : Option L1Line) : (s.setL1 k l x).areas = s.areas := rfl
@[simp] theorem setL1_engOps (k l : Nat) (x : Option L1Line) : (s.setL1 k l x).engOps = s.engOps := rfl
@[simp] theorem setL1_ahead (k l : Nat) (x : Option L1Line) : (s.setL1 k l x).ahead = s.ahead := rfl
@[simp] theorem setL1_imports (k l : Nat) (x : Option L1Line) : (s.setL1 k l x).imports = s.imports := rfl
@[simp] theorem setL1_mmioOut (k l : Nat) (x : Option L1Line) : (s.setL1 k l x).mmioOut = s.mmioOut := rfl
@[simp] theorem setL1_leftAt (k l : Nat) (x : Option L1Line) : (s.setL1 k l x).leftAt = s.leftAt := rfl

-- What is read after an update.

@[simp] theorem setGang_gang_self (k : Nat) (x : Gang) : (s.setGang k x).gang? k = some x :=
  tget_tput_self none s.gangs k (some x)
theorem setGang_gang (k i : Nat) (x : Gang) : (s.setGang k x).gang? i = if i = k then some x else s.gang? i :=
  tget_tput none s.gangs k i (some x)
@[simp] theorem setBlock_block_self (k : Nat) (x : Block) : (s.setBlock k x).block? k = some x :=
  tget_tput_self none s.blocks k (some x)
theorem setBlock_block (k i : Nat) (x : Block) : (s.setBlock k x).block? i = if i = k then some x else s.block? i :=
  tget_tput none s.blocks k i (some x)
@[simp] theorem setCtx_ctx_self (k : Nat) (x : Context) : (s.setCtx k x).ctx? k = some x :=
  tget_tput_self none s.ctxs k (some x)
theorem setCtx_ctx (k i : Nat) (x : Context) : (s.setCtx k x).ctx? i = if i = k then some x else s.ctx? i :=
  tget_tput none s.ctxs k i (some x)
@[simp] theorem setLaunch_launch_self (k : Nat) (x : Launch) : (s.setLaunch k x).launch? k = some x :=
  tget_tput_self none s.launches k (some x)
theorem setLaunch_launch (k i : Nat) (x : Launch) : (s.setLaunch k x).launch? i = if i = k then some x else s.launch? i :=
  tget_tput none s.launches k i (some x)
@[simp] theorem setReq_req_self (k : Nat) (x : Option Req) : (s.setReq k x).req? k = x := tget_tput_self ..
theorem setReq_req (k i : Nat) (x : Option Req) : (s.setReq k x).req? i = if i = k then x else s.req? i := tget_tput ..
@[simp] theorem setLong_long_self (k : Nat) (x : Option LongOp) : (s.setLong k x).long? k = x := tget_tput_self ..
theorem setLong_long (k i : Nat) (x : Option LongOp) : (s.setLong k x).long? i = if i = k then x else s.long? i := tget_tput ..
@[simp] theorem setCmd_cmd_self (k : Nat) (x : Option Cmd) : (s.setCmd k x).cmd? k = x := tget_tput_self ..
theorem setCmd_cmd (k i : Nat) (x : Option Cmd) : (s.setCmd k x).cmd? i = if i = k then x else s.cmd? i := tget_tput ..
@[simp] theorem setRreq_rreq_self (k : Nat) (x : Option RReq) : (s.setRreq k x).rreq? k = x := tget_tput_self ..
theorem setRreq_rreq (k i : Nat) (x : Option RReq) : (s.setRreq k x).rreq? i = if i = k then x else s.rreq? i := tget_tput ..
@[simp] theorem setEngOp_engOp_self (k : Nat) (x : Option EngOp) : (s.setEngOp k x).engOp? k = x := tget_tput_self ..
theorem setEngOp_engOp (k i : Nat) (x : Option EngOp) : (s.setEngOp k x).engOp? i = if i = k then x else s.engOp? i := tget_tput ..
@[simp] theorem setVf_vf_self (k : Nat) (x : VfRegs) : (s.setVf k x).vf k = x := tget_tput_self ..
theorem setVf_vf (k i : Nat) (x : VfRegs) : (s.setVf k x).vf i = if i = k then x else s.vf i := tget_tput ..
@[simp] theorem setPart_part_self (k : Nat) (x : Part) : (s.setPart k x).part k = x := tget_tput_self ..
theorem setPart_part (k i : Nat) (x : Part) : (s.setPart k x).part i = if i = k then x else s.part i := tget_tput ..
@[simp] theorem setRing_ring_self (k : Nat) (x : Ring) : (s.setRing k x).ring k = x := tget_tput_self ..
theorem setRing_ring (k i : Nat) (x : Ring) : (s.setRing k x).ring i = if i = k then x else s.ring i := tget_tput ..
@[simp] theorem setQueue_queue_self (k : Nat) (x : HQueue) : (s.setQueue k x).queue k = x := tget_tput_self ..
theorem setQueue_queue (k i : Nat) (x : HQueue) : (s.setQueue k x).queue i = if i = k then x else s.queue i := tget_tput ..
@[simp] theorem setCrew_crew_self (k : Nat) (x : Crew) : (s.setCrew k x).crew k = x := tget_tput_self ..
theorem setCrew_crew (k i : Nat) (x : Crew) : (s.setCrew k x).crew i = if i = k then x else s.crew i := tget_tput ..
@[simp] theorem setArray_array_self (k : Nat) (x : Array) : (s.setArray k x).array k = x := tget_tput_self ..
theorem setArray_array (k i : Nat) (x : Array) : (s.setArray k x).array i = if i = k then x else s.array i := tget_tput ..
@[simp] theorem setByte_byte_self (k : Nat) (x : Byte) : (s.setByte k x).byte k = x := tget_tput_self ..
theorem setByte_byte (k i : Nat) (x : Byte) : (s.setByte k x).byte i = if i = k then x else s.byte i := tget_tput ..
@[simp] theorem setSbyte_sbyte_self (k : Nat) (x : Byte) : (s.setSbyte k x).sbyte k = x := tget_tput_self ..
theorem setSbyte_sbyte (k i : Nat) (x : Byte) : (s.setSbyte k x).sbyte i = if i = k then x else s.sbyte i := tget_tput ..
@[simp] theorem setObyte_obyte_self (k : Nat) (x : Byte) : (s.setObyte k x).obyte k = x := tget_tput_self ..
theorem setObyte_obyte (k i : Nat) (x : Byte) : (s.setObyte k x).obyte i = if i = k then x else s.obyte i := tget_tput ..
@[simp] theorem setTile_tile_self (k n : Nat) (x : List (Word × Word)) : (s.setTile k n x).tile k = x := tget_tput_self ..
theorem setTile_tile (k n i : Nat) (x : List (Word × Word)) :
    (s.setTile k n x).tile i = if i = k then x else s.tile i := tget_tput ..

-- The other reads after State.setGang.

@[simp] theorem setGang_block' (k : Nat) (x : Gang) (i : Nat) : (s.setGang k x).block? i = s.block? i := rfl
@[simp] theorem setGang_ctx' (k : Nat) (x : Gang) (i : Nat) : (s.setGang k x).ctx? i = s.ctx? i := rfl
@[simp] theorem setGang_launch' (k : Nat) (x : Gang) (i : Nat) : (s.setGang k x).launch? i = s.launch? i := rfl
@[simp] theorem setGang_req' (k : Nat) (x : Gang) (i : Nat) : (s.setGang k x).req? i = s.req? i := rfl
@[simp] theorem setGang_long' (k : Nat) (x : Gang) (i : Nat) : (s.setGang k x).long? i = s.long? i := rfl
@[simp] theorem setGang_cmd' (k : Nat) (x : Gang) (i : Nat) : (s.setGang k x).cmd? i = s.cmd? i := rfl
@[simp] theorem setGang_rreq' (k : Nat) (x : Gang) (i : Nat) : (s.setGang k x).rreq? i = s.rreq? i := rfl
@[simp] theorem setGang_engOp' (k : Nat) (x : Gang) (i : Nat) : (s.setGang k x).engOp? i = s.engOp? i := rfl
@[simp] theorem setGang_vf' (k : Nat) (x : Gang) (i : Nat) : (s.setGang k x).vf i = s.vf i := rfl
@[simp] theorem setGang_part' (k : Nat) (x : Gang) (i : Nat) : (s.setGang k x).part i = s.part i := rfl
@[simp] theorem setGang_ring' (k : Nat) (x : Gang) (i : Nat) : (s.setGang k x).ring i = s.ring i := rfl
@[simp] theorem setGang_queue' (k : Nat) (x : Gang) (i : Nat) : (s.setGang k x).queue i = s.queue i := rfl
@[simp] theorem setGang_byte' (k : Nat) (x : Gang) (i : Nat) : (s.setGang k x).byte i = s.byte i := rfl
@[simp] theorem setGang_array' (k : Nat) (x : Gang) (i : Nat) : (s.setGang k x).array i = s.array i := rfl
@[simp] theorem setGang_crew' (k : Nat) (x : Gang) (i : Nat) : (s.setGang k x).crew i = s.crew i := rfl
@[simp] theorem setGang_obyte' (k : Nat) (x : Gang) (i : Nat) : (s.setGang k x).obyte i = s.obyte i := rfl
@[simp] theorem setGang_sbyte' (k : Nat) (x : Gang) (i : Nat) : (s.setGang k x).sbyte i = s.sbyte i := rfl
@[simp] theorem setGang_tile' (k : Nat) (x : Gang) (i : Nat) : (s.setGang k x).tile i = s.tile i := rfl

-- The other reads after State.setBlock.

@[simp] theorem setBlock_gang' (k : Nat) (x : Block) (i : Nat) : (s.setBlock k x).gang? i = s.gang? i := rfl
@[simp] theorem setBlock_ctx' (k : Nat) (x : Block) (i : Nat) : (s.setBlock k x).ctx? i = s.ctx? i := rfl
@[simp] theorem setBlock_launch' (k : Nat) (x : Block) (i : Nat) : (s.setBlock k x).launch? i = s.launch? i := rfl
@[simp] theorem setBlock_req' (k : Nat) (x : Block) (i : Nat) : (s.setBlock k x).req? i = s.req? i := rfl
@[simp] theorem setBlock_long' (k : Nat) (x : Block) (i : Nat) : (s.setBlock k x).long? i = s.long? i := rfl
@[simp] theorem setBlock_cmd' (k : Nat) (x : Block) (i : Nat) : (s.setBlock k x).cmd? i = s.cmd? i := rfl
@[simp] theorem setBlock_rreq' (k : Nat) (x : Block) (i : Nat) : (s.setBlock k x).rreq? i = s.rreq? i := rfl
@[simp] theorem setBlock_engOp' (k : Nat) (x : Block) (i : Nat) : (s.setBlock k x).engOp? i = s.engOp? i := rfl
@[simp] theorem setBlock_vf' (k : Nat) (x : Block) (i : Nat) : (s.setBlock k x).vf i = s.vf i := rfl
@[simp] theorem setBlock_part' (k : Nat) (x : Block) (i : Nat) : (s.setBlock k x).part i = s.part i := rfl
@[simp] theorem setBlock_ring' (k : Nat) (x : Block) (i : Nat) : (s.setBlock k x).ring i = s.ring i := rfl
@[simp] theorem setBlock_queue' (k : Nat) (x : Block) (i : Nat) : (s.setBlock k x).queue i = s.queue i := rfl
@[simp] theorem setBlock_byte' (k : Nat) (x : Block) (i : Nat) : (s.setBlock k x).byte i = s.byte i := rfl
@[simp] theorem setBlock_array' (k : Nat) (x : Block) (i : Nat) : (s.setBlock k x).array i = s.array i := rfl
@[simp] theorem setBlock_crew' (k : Nat) (x : Block) (i : Nat) : (s.setBlock k x).crew i = s.crew i := rfl
@[simp] theorem setBlock_obyte' (k : Nat) (x : Block) (i : Nat) : (s.setBlock k x).obyte i = s.obyte i := rfl
@[simp] theorem setBlock_sbyte' (k : Nat) (x : Block) (i : Nat) : (s.setBlock k x).sbyte i = s.sbyte i := rfl
@[simp] theorem setBlock_tile' (k : Nat) (x : Block) (i : Nat) : (s.setBlock k x).tile i = s.tile i := rfl

-- The other reads after State.setCtx.

@[simp] theorem setCtx_gang' (k : Nat) (x : Context) (i : Nat) : (s.setCtx k x).gang? i = s.gang? i := rfl
@[simp] theorem setCtx_block' (k : Nat) (x : Context) (i : Nat) : (s.setCtx k x).block? i = s.block? i := rfl
@[simp] theorem setCtx_launch' (k : Nat) (x : Context) (i : Nat) : (s.setCtx k x).launch? i = s.launch? i := rfl
@[simp] theorem setCtx_req' (k : Nat) (x : Context) (i : Nat) : (s.setCtx k x).req? i = s.req? i := rfl
@[simp] theorem setCtx_long' (k : Nat) (x : Context) (i : Nat) : (s.setCtx k x).long? i = s.long? i := rfl
@[simp] theorem setCtx_cmd' (k : Nat) (x : Context) (i : Nat) : (s.setCtx k x).cmd? i = s.cmd? i := rfl
@[simp] theorem setCtx_rreq' (k : Nat) (x : Context) (i : Nat) : (s.setCtx k x).rreq? i = s.rreq? i := rfl
@[simp] theorem setCtx_engOp' (k : Nat) (x : Context) (i : Nat) : (s.setCtx k x).engOp? i = s.engOp? i := rfl
@[simp] theorem setCtx_vf' (k : Nat) (x : Context) (i : Nat) : (s.setCtx k x).vf i = s.vf i := rfl
@[simp] theorem setCtx_part' (k : Nat) (x : Context) (i : Nat) : (s.setCtx k x).part i = s.part i := rfl
@[simp] theorem setCtx_ring' (k : Nat) (x : Context) (i : Nat) : (s.setCtx k x).ring i = s.ring i := rfl
@[simp] theorem setCtx_queue' (k : Nat) (x : Context) (i : Nat) : (s.setCtx k x).queue i = s.queue i := rfl
@[simp] theorem setCtx_byte' (k : Nat) (x : Context) (i : Nat) : (s.setCtx k x).byte i = s.byte i := rfl
@[simp] theorem setCtx_array' (k : Nat) (x : Context) (i : Nat) : (s.setCtx k x).array i = s.array i := rfl
@[simp] theorem setCtx_crew' (k : Nat) (x : Context) (i : Nat) : (s.setCtx k x).crew i = s.crew i := rfl
@[simp] theorem setCtx_obyte' (k : Nat) (x : Context) (i : Nat) : (s.setCtx k x).obyte i = s.obyte i := rfl
@[simp] theorem setCtx_sbyte' (k : Nat) (x : Context) (i : Nat) : (s.setCtx k x).sbyte i = s.sbyte i := rfl
@[simp] theorem setCtx_tile' (k : Nat) (x : Context) (i : Nat) : (s.setCtx k x).tile i = s.tile i := rfl

-- The other reads after State.setReq.

@[simp] theorem setReq_gang' (k : Nat) (x : Option Req) (i : Nat) : (s.setReq k x).gang? i = s.gang? i := rfl
@[simp] theorem setReq_block' (k : Nat) (x : Option Req) (i : Nat) : (s.setReq k x).block? i = s.block? i := rfl
@[simp] theorem setReq_ctx' (k : Nat) (x : Option Req) (i : Nat) : (s.setReq k x).ctx? i = s.ctx? i := rfl
@[simp] theorem setReq_launch' (k : Nat) (x : Option Req) (i : Nat) : (s.setReq k x).launch? i = s.launch? i := rfl
@[simp] theorem setReq_long' (k : Nat) (x : Option Req) (i : Nat) : (s.setReq k x).long? i = s.long? i := rfl
@[simp] theorem setReq_cmd' (k : Nat) (x : Option Req) (i : Nat) : (s.setReq k x).cmd? i = s.cmd? i := rfl
@[simp] theorem setReq_rreq' (k : Nat) (x : Option Req) (i : Nat) : (s.setReq k x).rreq? i = s.rreq? i := rfl
@[simp] theorem setReq_engOp' (k : Nat) (x : Option Req) (i : Nat) : (s.setReq k x).engOp? i = s.engOp? i := rfl
@[simp] theorem setReq_vf' (k : Nat) (x : Option Req) (i : Nat) : (s.setReq k x).vf i = s.vf i := rfl
@[simp] theorem setReq_part' (k : Nat) (x : Option Req) (i : Nat) : (s.setReq k x).part i = s.part i := rfl
@[simp] theorem setReq_ring' (k : Nat) (x : Option Req) (i : Nat) : (s.setReq k x).ring i = s.ring i := rfl
@[simp] theorem setReq_queue' (k : Nat) (x : Option Req) (i : Nat) : (s.setReq k x).queue i = s.queue i := rfl
@[simp] theorem setReq_byte' (k : Nat) (x : Option Req) (i : Nat) : (s.setReq k x).byte i = s.byte i := rfl
@[simp] theorem setReq_array' (k : Nat) (x : Option Req) (i : Nat) : (s.setReq k x).array i = s.array i := rfl
@[simp] theorem setReq_crew' (k : Nat) (x : Option Req) (i : Nat) : (s.setReq k x).crew i = s.crew i := rfl
@[simp] theorem setReq_obyte' (k : Nat) (x : Option Req) (i : Nat) : (s.setReq k x).obyte i = s.obyte i := rfl
@[simp] theorem setReq_sbyte' (k : Nat) (x : Option Req) (i : Nat) : (s.setReq k x).sbyte i = s.sbyte i := rfl
@[simp] theorem setReq_tile' (k : Nat) (x : Option Req) (i : Nat) : (s.setReq k x).tile i = s.tile i := rfl

-- The other reads after State.setLong.

@[simp] theorem setLong_gang' (k : Nat) (x : Option LongOp) (i : Nat) : (s.setLong k x).gang? i = s.gang? i := rfl
@[simp] theorem setLong_block' (k : Nat) (x : Option LongOp) (i : Nat) : (s.setLong k x).block? i = s.block? i := rfl
@[simp] theorem setLong_ctx' (k : Nat) (x : Option LongOp) (i : Nat) : (s.setLong k x).ctx? i = s.ctx? i := rfl
@[simp] theorem setLong_launch' (k : Nat) (x : Option LongOp) (i : Nat) : (s.setLong k x).launch? i = s.launch? i := rfl
@[simp] theorem setLong_req' (k : Nat) (x : Option LongOp) (i : Nat) : (s.setLong k x).req? i = s.req? i := rfl
@[simp] theorem setLong_cmd' (k : Nat) (x : Option LongOp) (i : Nat) : (s.setLong k x).cmd? i = s.cmd? i := rfl
@[simp] theorem setLong_rreq' (k : Nat) (x : Option LongOp) (i : Nat) : (s.setLong k x).rreq? i = s.rreq? i := rfl
@[simp] theorem setLong_engOp' (k : Nat) (x : Option LongOp) (i : Nat) : (s.setLong k x).engOp? i = s.engOp? i := rfl
@[simp] theorem setLong_vf' (k : Nat) (x : Option LongOp) (i : Nat) : (s.setLong k x).vf i = s.vf i := rfl
@[simp] theorem setLong_part' (k : Nat) (x : Option LongOp) (i : Nat) : (s.setLong k x).part i = s.part i := rfl
@[simp] theorem setLong_ring' (k : Nat) (x : Option LongOp) (i : Nat) : (s.setLong k x).ring i = s.ring i := rfl
@[simp] theorem setLong_queue' (k : Nat) (x : Option LongOp) (i : Nat) : (s.setLong k x).queue i = s.queue i := rfl
@[simp] theorem setLong_byte' (k : Nat) (x : Option LongOp) (i : Nat) : (s.setLong k x).byte i = s.byte i := rfl
@[simp] theorem setLong_array' (k : Nat) (x : Option LongOp) (i : Nat) : (s.setLong k x).array i = s.array i := rfl
@[simp] theorem setLong_crew' (k : Nat) (x : Option LongOp) (i : Nat) : (s.setLong k x).crew i = s.crew i := rfl
@[simp] theorem setLong_obyte' (k : Nat) (x : Option LongOp) (i : Nat) : (s.setLong k x).obyte i = s.obyte i := rfl
@[simp] theorem setLong_sbyte' (k : Nat) (x : Option LongOp) (i : Nat) : (s.setLong k x).sbyte i = s.sbyte i := rfl
@[simp] theorem setLong_tile' (k : Nat) (x : Option LongOp) (i : Nat) : (s.setLong k x).tile i = s.tile i := rfl

-- The other reads after State.setCmd.

@[simp] theorem setCmd_gang' (k : Nat) (x : Option Cmd) (i : Nat) : (s.setCmd k x).gang? i = s.gang? i := rfl
@[simp] theorem setCmd_block' (k : Nat) (x : Option Cmd) (i : Nat) : (s.setCmd k x).block? i = s.block? i := rfl
@[simp] theorem setCmd_ctx' (k : Nat) (x : Option Cmd) (i : Nat) : (s.setCmd k x).ctx? i = s.ctx? i := rfl
@[simp] theorem setCmd_launch' (k : Nat) (x : Option Cmd) (i : Nat) : (s.setCmd k x).launch? i = s.launch? i := rfl
@[simp] theorem setCmd_req' (k : Nat) (x : Option Cmd) (i : Nat) : (s.setCmd k x).req? i = s.req? i := rfl
@[simp] theorem setCmd_long' (k : Nat) (x : Option Cmd) (i : Nat) : (s.setCmd k x).long? i = s.long? i := rfl
@[simp] theorem setCmd_rreq' (k : Nat) (x : Option Cmd) (i : Nat) : (s.setCmd k x).rreq? i = s.rreq? i := rfl
@[simp] theorem setCmd_engOp' (k : Nat) (x : Option Cmd) (i : Nat) : (s.setCmd k x).engOp? i = s.engOp? i := rfl
@[simp] theorem setCmd_vf' (k : Nat) (x : Option Cmd) (i : Nat) : (s.setCmd k x).vf i = s.vf i := rfl
@[simp] theorem setCmd_part' (k : Nat) (x : Option Cmd) (i : Nat) : (s.setCmd k x).part i = s.part i := rfl
@[simp] theorem setCmd_ring' (k : Nat) (x : Option Cmd) (i : Nat) : (s.setCmd k x).ring i = s.ring i := rfl
@[simp] theorem setCmd_queue' (k : Nat) (x : Option Cmd) (i : Nat) : (s.setCmd k x).queue i = s.queue i := rfl
@[simp] theorem setCmd_byte' (k : Nat) (x : Option Cmd) (i : Nat) : (s.setCmd k x).byte i = s.byte i := rfl
@[simp] theorem setCmd_array' (k : Nat) (x : Option Cmd) (i : Nat) : (s.setCmd k x).array i = s.array i := rfl
@[simp] theorem setCmd_crew' (k : Nat) (x : Option Cmd) (i : Nat) : (s.setCmd k x).crew i = s.crew i := rfl
@[simp] theorem setCmd_obyte' (k : Nat) (x : Option Cmd) (i : Nat) : (s.setCmd k x).obyte i = s.obyte i := rfl
@[simp] theorem setCmd_sbyte' (k : Nat) (x : Option Cmd) (i : Nat) : (s.setCmd k x).sbyte i = s.sbyte i := rfl
@[simp] theorem setCmd_tile' (k : Nat) (x : Option Cmd) (i : Nat) : (s.setCmd k x).tile i = s.tile i := rfl

-- The other reads after State.setRreq.

@[simp] theorem setRreq_gang' (k : Nat) (x : Option RReq) (i : Nat) : (s.setRreq k x).gang? i = s.gang? i := rfl
@[simp] theorem setRreq_block' (k : Nat) (x : Option RReq) (i : Nat) : (s.setRreq k x).block? i = s.block? i := rfl
@[simp] theorem setRreq_ctx' (k : Nat) (x : Option RReq) (i : Nat) : (s.setRreq k x).ctx? i = s.ctx? i := rfl
@[simp] theorem setRreq_launch' (k : Nat) (x : Option RReq) (i : Nat) : (s.setRreq k x).launch? i = s.launch? i := rfl
@[simp] theorem setRreq_req' (k : Nat) (x : Option RReq) (i : Nat) : (s.setRreq k x).req? i = s.req? i := rfl
@[simp] theorem setRreq_long' (k : Nat) (x : Option RReq) (i : Nat) : (s.setRreq k x).long? i = s.long? i := rfl
@[simp] theorem setRreq_cmd' (k : Nat) (x : Option RReq) (i : Nat) : (s.setRreq k x).cmd? i = s.cmd? i := rfl
@[simp] theorem setRreq_engOp' (k : Nat) (x : Option RReq) (i : Nat) : (s.setRreq k x).engOp? i = s.engOp? i := rfl
@[simp] theorem setRreq_vf' (k : Nat) (x : Option RReq) (i : Nat) : (s.setRreq k x).vf i = s.vf i := rfl
@[simp] theorem setRreq_part' (k : Nat) (x : Option RReq) (i : Nat) : (s.setRreq k x).part i = s.part i := rfl
@[simp] theorem setRreq_ring' (k : Nat) (x : Option RReq) (i : Nat) : (s.setRreq k x).ring i = s.ring i := rfl
@[simp] theorem setRreq_queue' (k : Nat) (x : Option RReq) (i : Nat) : (s.setRreq k x).queue i = s.queue i := rfl
@[simp] theorem setRreq_byte' (k : Nat) (x : Option RReq) (i : Nat) : (s.setRreq k x).byte i = s.byte i := rfl
@[simp] theorem setRreq_array' (k : Nat) (x : Option RReq) (i : Nat) : (s.setRreq k x).array i = s.array i := rfl
@[simp] theorem setRreq_crew' (k : Nat) (x : Option RReq) (i : Nat) : (s.setRreq k x).crew i = s.crew i := rfl
@[simp] theorem setRreq_obyte' (k : Nat) (x : Option RReq) (i : Nat) : (s.setRreq k x).obyte i = s.obyte i := rfl
@[simp] theorem setRreq_sbyte' (k : Nat) (x : Option RReq) (i : Nat) : (s.setRreq k x).sbyte i = s.sbyte i := rfl
@[simp] theorem setRreq_tile' (k : Nat) (x : Option RReq) (i : Nat) : (s.setRreq k x).tile i = s.tile i := rfl

-- The other reads after State.setRing.

@[simp] theorem setRing_gang' (k : Nat) (x : Ring) (i : Nat) : (s.setRing k x).gang? i = s.gang? i := rfl
@[simp] theorem setRing_block' (k : Nat) (x : Ring) (i : Nat) : (s.setRing k x).block? i = s.block? i := rfl
@[simp] theorem setRing_ctx' (k : Nat) (x : Ring) (i : Nat) : (s.setRing k x).ctx? i = s.ctx? i := rfl
@[simp] theorem setRing_launch' (k : Nat) (x : Ring) (i : Nat) : (s.setRing k x).launch? i = s.launch? i := rfl
@[simp] theorem setRing_req' (k : Nat) (x : Ring) (i : Nat) : (s.setRing k x).req? i = s.req? i := rfl
@[simp] theorem setRing_long' (k : Nat) (x : Ring) (i : Nat) : (s.setRing k x).long? i = s.long? i := rfl
@[simp] theorem setRing_cmd' (k : Nat) (x : Ring) (i : Nat) : (s.setRing k x).cmd? i = s.cmd? i := rfl
@[simp] theorem setRing_rreq' (k : Nat) (x : Ring) (i : Nat) : (s.setRing k x).rreq? i = s.rreq? i := rfl
@[simp] theorem setRing_engOp' (k : Nat) (x : Ring) (i : Nat) : (s.setRing k x).engOp? i = s.engOp? i := rfl
@[simp] theorem setRing_vf' (k : Nat) (x : Ring) (i : Nat) : (s.setRing k x).vf i = s.vf i := rfl
@[simp] theorem setRing_part' (k : Nat) (x : Ring) (i : Nat) : (s.setRing k x).part i = s.part i := rfl
@[simp] theorem setRing_queue' (k : Nat) (x : Ring) (i : Nat) : (s.setRing k x).queue i = s.queue i := rfl
@[simp] theorem setRing_byte' (k : Nat) (x : Ring) (i : Nat) : (s.setRing k x).byte i = s.byte i := rfl
@[simp] theorem setRing_array' (k : Nat) (x : Ring) (i : Nat) : (s.setRing k x).array i = s.array i := rfl
@[simp] theorem setRing_crew' (k : Nat) (x : Ring) (i : Nat) : (s.setRing k x).crew i = s.crew i := rfl
@[simp] theorem setRing_obyte' (k : Nat) (x : Ring) (i : Nat) : (s.setRing k x).obyte i = s.obyte i := rfl
@[simp] theorem setRing_sbyte' (k : Nat) (x : Ring) (i : Nat) : (s.setRing k x).sbyte i = s.sbyte i := rfl
@[simp] theorem setRing_tile' (k : Nat) (x : Ring) (i : Nat) : (s.setRing k x).tile i = s.tile i := rfl

-- The other reads after State.setArray.

@[simp] theorem setArray_gang' (k : Nat) (x : Array) (i : Nat) : (s.setArray k x).gang? i = s.gang? i := rfl
@[simp] theorem setArray_block' (k : Nat) (x : Array) (i : Nat) : (s.setArray k x).block? i = s.block? i := rfl
@[simp] theorem setArray_ctx' (k : Nat) (x : Array) (i : Nat) : (s.setArray k x).ctx? i = s.ctx? i := rfl
@[simp] theorem setArray_launch' (k : Nat) (x : Array) (i : Nat) : (s.setArray k x).launch? i = s.launch? i := rfl
@[simp] theorem setArray_req' (k : Nat) (x : Array) (i : Nat) : (s.setArray k x).req? i = s.req? i := rfl
@[simp] theorem setArray_long' (k : Nat) (x : Array) (i : Nat) : (s.setArray k x).long? i = s.long? i := rfl
@[simp] theorem setArray_cmd' (k : Nat) (x : Array) (i : Nat) : (s.setArray k x).cmd? i = s.cmd? i := rfl
@[simp] theorem setArray_rreq' (k : Nat) (x : Array) (i : Nat) : (s.setArray k x).rreq? i = s.rreq? i := rfl
@[simp] theorem setArray_engOp' (k : Nat) (x : Array) (i : Nat) : (s.setArray k x).engOp? i = s.engOp? i := rfl
@[simp] theorem setArray_vf' (k : Nat) (x : Array) (i : Nat) : (s.setArray k x).vf i = s.vf i := rfl
@[simp] theorem setArray_part' (k : Nat) (x : Array) (i : Nat) : (s.setArray k x).part i = s.part i := rfl
@[simp] theorem setArray_ring' (k : Nat) (x : Array) (i : Nat) : (s.setArray k x).ring i = s.ring i := rfl
@[simp] theorem setArray_queue' (k : Nat) (x : Array) (i : Nat) : (s.setArray k x).queue i = s.queue i := rfl
@[simp] theorem setArray_byte' (k : Nat) (x : Array) (i : Nat) : (s.setArray k x).byte i = s.byte i := rfl
@[simp] theorem setArray_crew' (k : Nat) (x : Array) (i : Nat) : (s.setArray k x).crew i = s.crew i := rfl
@[simp] theorem setArray_obyte' (k : Nat) (x : Array) (i : Nat) : (s.setArray k x).obyte i = s.obyte i := rfl
@[simp] theorem setArray_sbyte' (k : Nat) (x : Array) (i : Nat) : (s.setArray k x).sbyte i = s.sbyte i := rfl
@[simp] theorem setArray_tile' (k : Nat) (x : Array) (i : Nat) : (s.setArray k x).tile i = s.tile i := rfl

-- The other reads after State.setByte.

@[simp] theorem setByte_gang' (k : Nat) (x : Byte) (i : Nat) : (s.setByte k x).gang? i = s.gang? i := rfl
@[simp] theorem setByte_block' (k : Nat) (x : Byte) (i : Nat) : (s.setByte k x).block? i = s.block? i := rfl
@[simp] theorem setByte_ctx' (k : Nat) (x : Byte) (i : Nat) : (s.setByte k x).ctx? i = s.ctx? i := rfl
@[simp] theorem setByte_launch' (k : Nat) (x : Byte) (i : Nat) : (s.setByte k x).launch? i = s.launch? i := rfl
@[simp] theorem setByte_req' (k : Nat) (x : Byte) (i : Nat) : (s.setByte k x).req? i = s.req? i := rfl
@[simp] theorem setByte_long' (k : Nat) (x : Byte) (i : Nat) : (s.setByte k x).long? i = s.long? i := rfl
@[simp] theorem setByte_cmd' (k : Nat) (x : Byte) (i : Nat) : (s.setByte k x).cmd? i = s.cmd? i := rfl
@[simp] theorem setByte_rreq' (k : Nat) (x : Byte) (i : Nat) : (s.setByte k x).rreq? i = s.rreq? i := rfl
@[simp] theorem setByte_engOp' (k : Nat) (x : Byte) (i : Nat) : (s.setByte k x).engOp? i = s.engOp? i := rfl
@[simp] theorem setByte_vf' (k : Nat) (x : Byte) (i : Nat) : (s.setByte k x).vf i = s.vf i := rfl
@[simp] theorem setByte_part' (k : Nat) (x : Byte) (i : Nat) : (s.setByte k x).part i = s.part i := rfl
@[simp] theorem setByte_ring' (k : Nat) (x : Byte) (i : Nat) : (s.setByte k x).ring i = s.ring i := rfl
@[simp] theorem setByte_queue' (k : Nat) (x : Byte) (i : Nat) : (s.setByte k x).queue i = s.queue i := rfl
@[simp] theorem setByte_array' (k : Nat) (x : Byte) (i : Nat) : (s.setByte k x).array i = s.array i := rfl
@[simp] theorem setByte_crew' (k : Nat) (x : Byte) (i : Nat) : (s.setByte k x).crew i = s.crew i := rfl
@[simp] theorem setByte_obyte' (k : Nat) (x : Byte) (i : Nat) : (s.setByte k x).obyte i = s.obyte i := rfl
@[simp] theorem setByte_sbyte' (k : Nat) (x : Byte) (i : Nat) : (s.setByte k x).sbyte i = s.sbyte i := rfl
@[simp] theorem setByte_tile' (k : Nat) (x : Byte) (i : Nat) : (s.setByte k x).tile i = s.tile i := rfl

-- The other reads after State.setSbyte.

@[simp] theorem setSbyte_gang' (k : Nat) (x : Byte) (i : Nat) : (s.setSbyte k x).gang? i = s.gang? i := rfl
@[simp] theorem setSbyte_block' (k : Nat) (x : Byte) (i : Nat) : (s.setSbyte k x).block? i = s.block? i := rfl
@[simp] theorem setSbyte_ctx' (k : Nat) (x : Byte) (i : Nat) : (s.setSbyte k x).ctx? i = s.ctx? i := rfl
@[simp] theorem setSbyte_launch' (k : Nat) (x : Byte) (i : Nat) : (s.setSbyte k x).launch? i = s.launch? i := rfl
@[simp] theorem setSbyte_req' (k : Nat) (x : Byte) (i : Nat) : (s.setSbyte k x).req? i = s.req? i := rfl
@[simp] theorem setSbyte_long' (k : Nat) (x : Byte) (i : Nat) : (s.setSbyte k x).long? i = s.long? i := rfl
@[simp] theorem setSbyte_cmd' (k : Nat) (x : Byte) (i : Nat) : (s.setSbyte k x).cmd? i = s.cmd? i := rfl
@[simp] theorem setSbyte_rreq' (k : Nat) (x : Byte) (i : Nat) : (s.setSbyte k x).rreq? i = s.rreq? i := rfl
@[simp] theorem setSbyte_engOp' (k : Nat) (x : Byte) (i : Nat) : (s.setSbyte k x).engOp? i = s.engOp? i := rfl
@[simp] theorem setSbyte_vf' (k : Nat) (x : Byte) (i : Nat) : (s.setSbyte k x).vf i = s.vf i := rfl
@[simp] theorem setSbyte_part' (k : Nat) (x : Byte) (i : Nat) : (s.setSbyte k x).part i = s.part i := rfl
@[simp] theorem setSbyte_ring' (k : Nat) (x : Byte) (i : Nat) : (s.setSbyte k x).ring i = s.ring i := rfl
@[simp] theorem setSbyte_queue' (k : Nat) (x : Byte) (i : Nat) : (s.setSbyte k x).queue i = s.queue i := rfl
@[simp] theorem setSbyte_byte' (k : Nat) (x : Byte) (i : Nat) : (s.setSbyte k x).byte i = s.byte i := rfl
@[simp] theorem setSbyte_array' (k : Nat) (x : Byte) (i : Nat) : (s.setSbyte k x).array i = s.array i := rfl
@[simp] theorem setSbyte_crew' (k : Nat) (x : Byte) (i : Nat) : (s.setSbyte k x).crew i = s.crew i := rfl
@[simp] theorem setSbyte_obyte' (k : Nat) (x : Byte) (i : Nat) : (s.setSbyte k x).obyte i = s.obyte i := rfl
@[simp] theorem setSbyte_tile' (k : Nat) (x : Byte) (i : Nat) : (s.setSbyte k x).tile i = s.tile i := rfl

-- Registers.

theorem kget_kset (r : Regs) (d i : Nat) (x : DWord) :
    (r.kset d x).kget i = if i = d ∧ d ≠ 0 then x else r.kget i := by
  unfold Regs.kset Regs.kget
  by_cases hd : d = 0
  · simp [hd]
  · by_cases hi : i = 0
    · simp [hi, Ne.symm hd]
    · simp [hd, hi, tget_tput]

theorem mget_mset (r : Regs) (d i : Nat) (x : Lanes) :
    (r.mset d x).mget i = if i = d ∧ d ≠ 0 then x else r.mget i := by
  unfold Regs.mset Regs.mget
  by_cases hd : d = 0
  · simp [hd]
  · by_cases hi : i = 0
    · simp [hi, Ne.symm hd]
    · simp [hd, hi, tget_tput]

@[simp] theorem kget_zero (r : Regs) : r.kget 0 = 0 := rfl
@[simp] theorem mget_zero (r : Regs) : r.mget 0 = BitVec.allOnes 64 := rfl

theorem vget_vset (r : Regs) (d i : Nat) (x : VVal) : (r.vset d x).vget i = if i = d then x else r.vget i :=
  tget_tput ..

theorem gget_gset (r : Regs) (d i : Nat) (x : Guard) : (r.gset d x).gget i = if i = d then x else r.gget i :=
  tget_tput ..

@[simp] theorem vset_kget (r : Regs) (d i : Nat) (x : VVal) : (r.vset d x).kget i = r.kget i := rfl
@[simp] theorem vset_mget (r : Regs) (d i : Nat) (x : VVal) : (r.vset d x).mget i = r.mget i := rfl

@[simp] theorem kset_vget (r : Regs) (d i : Nat) (x : DWord) : (r.kset d x).vget i = r.vget i := by
  unfold Regs.kset; split <;> rfl
@[simp] theorem kset_mget (r : Regs) (d i : Nat) (x : DWord) : (r.kset d x).mget i = r.mget i := by
  unfold Regs.kset; split <;> rfl
@[simp] theorem mset_vget (r : Regs) (d i : Nat) (x : Lanes) : (r.mset d x).vget i = r.vget i := by
  unfold Regs.mset; split <;> rfl
@[simp] theorem mset_kget (r : Regs) (d i : Nat) (x : Lanes) : (r.mset d x).kget i = r.kget i := by
  unfold Regs.mset; split <;> rfl

/-- A lane of a value built from its lanes. -/
theorem lane_lanes64 (f : Nat → Word) (l : Nat) : lane (lanes64 f) l = if l < 64 then f l else 0 := by
  unfold lane lanes64
  by_cases h : l < 64
  · simp [h]
  · simp [h]

/-- The lanes of a set take their new values, the others keep theirs (R46). -/
theorem lane_vlanes (r : Regs) (d : Nat) (m : Lanes) (f : Nat → Word) (l : Nat) (h : l < 64) :
    lane ((r.vlanes d m f).vget d) l = if inLanes m l then f l else lane (r.vget d) l := by
  simp [Regs.vlanes, vget_vset, lane_lanes64, h]

theorem vget_vlanes_ne (r : Regs) {d i : Nat} (m : Lanes) (f : Nat → Word) (h : i ≠ d) :
    (r.vlanes d m f).vget i = r.vget i := by
  simp [Regs.vlanes, vget_vset, h]

@[simp] theorem vlanes_kget (r : Regs) (d i : Nat) (m : Lanes) (f : Nat → Word) : (r.vlanes d m f).kget i = r.kget i := rfl
@[simp] theorem vlanes_mget (r : Regs) (d i : Nat) (m : Lanes) (f : Nat → Word) : (r.vlanes d m f).mget i = r.mget i := rfl

end Sys2Proof.Machine
end

