-- ==== Sys2Proof/Laws/Prologue.lean ====
section
/-! SUPPORT. What the prologue of every instruction does, said once (R65): when it lets an instruction through, what
state follows, and what a local instruction leaves alone. -/

namespace Sys2Proof.Machine

variable {s : State} {key : Nat} {g : Gang} {sp : Split} {b : Block} {u : Use}

/-- Nothing holds back, and nothing traps, an instruction that issues and is clear. -/
theorem gate_go (h : Issues s key g sp b) (c : Clear s key b g sp u) : gate s key b g sp u = .go := by
  have hw : windowsHold sp u = false := by
    simp only [windowsHold, Bool.or_eq_false_iff, List.any_eq_false, Bool.and_eq_true, Bool.or_eq_true,
      Bool.not_eq_true', beq_iff_eq, not_and, Bool.and_eq_false_iff, decide_eq_false_iff_not, not_le]
    refine ⟨fun w hw hd => ?_, ?_⟩
    · obtain ⟨h1, h2, h3⟩ := c.windows w hw hd
      simp [h2, h3, Nat.pos_iff_ne_zero.mp h1]
    · by_cases hl : u.long = true
      · exact .inr (c.long hl)
      · exact .inl (by simpa using hl)
  have hv : u.v.any (b.need.vregs ≤ ·) = false := by
    simpa [List.any_eq_false] using fun r hr => c.vregs r hr
  have hk : u.k.any (b.need.kregs ≤ ·) = false := by
    simpa [List.any_eq_false] using fun r hr => c.kregs r hr
  have hr : (u.race && !b.need.race) = false := by
    cases hu : u.race <;> simp [c.race, hu]
  have hg : decide (b.need.guards < u.guard) = false := by simpa using c.guard
  have h1 : (u.count == 1 && decide (63 ≤ g.regs.lcnt)) = false := by
    by_cases hc : u.count = 1
    · simpa [hc] using c.lcnt hc
    · simp [hc]
  have h2 : (u.count == 2 && decide (63 ≤ g.regs.scnt)) = false := by
    by_cases hc : u.count = 2
    · simpa [hc] using c.scnt hc
    · simp [hc]
  have h3 : (u.throttled && decide (16 ≤ replayCount s key)) = false := by
    cases hu : u.throttled
    · rfl
    · simpa using c.replay hu
  have h4 : (u.reads && !coreReadReady s key sp) = false := by
    cases hu : u.reads <;> simp [c.reads, hu]
  have h5 : (u.arr && (decide (16 ≤ (s.array b.core).queue.length) || arrLate s b g)) = false := by
    cases hu : u.arr
    · rfl
    · simpa using c.queue hu
  have h6 : (u.arrIdle && (!arrTurn (s.array b.core) key sp || ((s.array b.core).queue.isEmpty && arrLate s b g))) = false := by
    cases hu : u.arrIdle
    · rfl
    · obtain ⟨h1, h2⟩ := c.array hu
      cases hq : (s.array b.core).queue <;> simp_all
  have h7 : (u.coll && !collective g sp) = false := by
    cases hu : u.coll
    · rfl
    · simp [(c.coll hu).1]
  have h8 : (u.coll && (!(engPending s key).isEmpty || !depsDone s sp.ldDeps)) = false := by
    cases hu : u.coll
    · rfl
    · simp [(c.coll hu).2.1, (c.coll hu).2.2]
  unfold gate
  cases hx : u.scope with
  | none => simp only [h.running, h.fore, h.hold, h.going, h.ready, hw, hv, hk, hr, hg, h1, h2, h3, h4, h5, h6, h7, h8]; rfl
  | some x =>
    have hs := Nat.not_lt.mpr (c.scope x hx)
    simp only [h.running, h.fore, h.hold, h.going, h.ready, hw, hv, hk, hr, hg, hs, h1, h2, h3, h4, h5, h6, h7, h8]; rfl

/-- An instruction that issues and is clear, and whose own condition holds, has its effect, and is counted if it names
a register that is still to be written (R60). -/
theorem issueWhen_next (h : Issues s key g sp b) (c : Clear s key b g sp u) {skip : Nat}
    {ready : State → Nat → Gang → Split → Block → Bool} {body : State → Nat → Gang → Split → State}
    (hr : ready s key g sp b = true) :
    issueWhen s u skip ready body =
      .next (if namesPending sp u then settleRead (body s key (stepGang s g sp) (stepWindows sp u)) key b.ctx
        else body s key (stepGang s g sp) (stepWindows sp u)) := by
  simp only [issueWhen, h.cur, h.gang, h.split, h.block, gate_go h c, hr, if_true]

/-- An instruction with no condition of its own. -/
theorem issue_next (h : Issues s key g sp b) (c : Clear s key b g sp u) {skip : Nat}
    {body : State → Nat → Gang → Split → State} :
    issue s u skip body =
      .next (if namesPending sp u then settleRead (body s key (stepGang s g sp) (stepWindows sp u)) key b.ctx
        else body s key (stepGang s g sp) (stepWindows sp u)) :=
  issueWhen_next h c rfl

/-- A read in a window counts at once where the gang goes on (R60). -/
theorem settleRead_now {r : State} {g : Gang} (c : Nat) (hg : r.gang? key = some g) (hs : g.stopped = none)
    (hh : g.hold = .none) : settleRead r key c = countRead r c := by
  simp [settleRead, readCount, hg, hs, hh]

/-- A read of an instruction that has trapped does not count (R60, R65). -/
theorem settleRead_stopped {r : State} {g : Gang} (c : Nat) (hg : r.gang? key = some g) (hs : g.stopped.isSome = true) :
    settleRead r key c = r := by
  simp [settleRead, readCount, hg, hs]

/-- Counting a read in a window changes nothing but one context's count (R60). -/
theorem countRead_only (s : State) (c : Nat) : ∃ x, countRead s c = { s with ctxs := x } := by
  unfold countRead State.modCtx
  split
  · exact ⟨_, rfl⟩
  · exact ⟨s.ctxs, rfl⟩

theorem countRead_ctx (s : State) (c i : Nat) (x : Context) (h : s.ctx? i = some x) :
    ∃ n, (countRead s c).ctx? i = some { x with wrdcnt := n } := by
  unfold countRead State.modCtx
  split
  · next y hy =>
    by_cases hi : i = c
    · subst hi
      obtain rfl : x = y := by simpa [h] using hy
      rw [setCtx_ctx, if_pos rfl]
      by_cases hw : x.wrdcnt = BitVec.allOnes 64
      · exact ⟨x.wrdcnt, congrArg some (if_pos hw)⟩
      · exact ⟨x.wrdcnt + 1, congrArg some (if_neg hw)⟩
    · exact ⟨x.wrdcnt, by rw [setCtx_ctx, if_neg hi, h]⟩
  · exact ⟨x.wrdcnt, h⟩

theorem countRead_none (s : State) (c i : Nat) : (countRead s c).ctx? i = none ↔ s.ctx? i = none := by
  unfold countRead State.modCtx
  split
  · next y hy =>
    rw [setCtx_ctx]
    split
    · next hi => simp [hi, hy]
    · rfl
  · rfl

/-- A gang put back leaves everything outside it as it was. -/
theorem quiet_setGang (s : State) (key : Nat) (g : Gang) : Quiet s (s.setGang key g) key where
  memory := fun _ => rfl
  scratch := fun _ => rfl
  gangs := fun k hk => by rw [setGang_gang, if_neg hk]
  ctxs := fun _ => Iff.rfl
  ctx := fun _ x hx => ⟨x.wrdcnt, hx⟩
  rest := ⟨_, s.ctxs, rfl⟩

/-- A count of a read in a window adds nothing to what changed. -/
theorem quiet_countRead {s t : State} {key : Nat} (h : Quiet s t key) (c : Nat) : Quiet s (countRead t c) key where
  memory := fun a => by rw [← h.memory a]; unfold countRead State.modCtx; split <;> rfl
  scratch := fun a => by rw [← h.scratch a]; unfold countRead State.modCtx; split <;> rfl
  gangs := fun k hk => by rw [← h.gangs k hk]; unfold countRead State.modCtx; split <;> rfl
  ctxs := fun i => (countRead_none t c i).trans (h.ctxs i)
  ctx := fun i x hx => by
    obtain ⟨n, hn⟩ := h.ctx i x hx
    obtain ⟨m, hm⟩ := countRead_ctx t c i _ hn
    exact ⟨m, hm⟩
  rest := by
    obtain ⟨x, y, e⟩ := h.rest
    obtain ⟨z, e'⟩ := countRead_only t c
    exact ⟨x, z, by rw [e', e]⟩

@[simp] theorem countRead_gang (s : State) (c k : Nat) : (countRead s c).gang? k = s.gang? k := by
  unfold countRead State.modCtx
  split <;> rfl

@[simp] theorem stepGang_regs (s : State) (g : Gang) (sp : Split) : (stepGang s g sp).regs = g.regs := rfl
@[simp] theorem stepGang_cur (s : State) (g : Gang) (sp : Split) : (stepGang s g sp).cur = g.cur := rfl
@[simp] theorem stepGang_splits (s : State) (g : Gang) (sp : Split) : (stepGang s g sp).splits = g.splits := rfl
@[simp] theorem stepGang_live (s : State) (g : Gang) (sp : Split) : (stepGang s g sp).live = g.live := rfl
@[simp] theorem stepGang_block (s : State) (g : Gang) (sp : Split) : (stepGang s g sp).block = g.block := rfl
@[simp] theorem stepGang_hold (s : State) (g : Gang) (sp : Split) : (stepGang s g sp).hold = g.hold := rfl
@[simp] theorem stepGang_stopped (s : State) (g : Gang) (sp : Split) : (stepGang s g sp).stopped = g.stopped := rfl
@[simp] theorem stepWindows_exm (sp : Split) (u : Use) : (stepWindows sp u).exm = sp.exm := by
  unfold stepWindows; split <;> rfl
@[simp] theorem stepWindows_lanes (sp : Split) (u : Use) : (stepWindows sp u).lanes = sp.lanes := by
  unfold stepWindows; split <;> rfl
@[simp] theorem stepWindows_pc (sp : Split) (u : Use) : (stepWindows sp u).pc = sp.pc := by
  unfold stepWindows; split <;> rfl
@[simp] theorem stepWindows_eff (sp : Split) (u : Use) : (stepWindows sp u).eff = sp.eff := by
  unfold stepWindows; split <;> rfl

/-- A split's windows after one more instruction are all that its step changes. -/
theorem stepWindows_only (sp : Split) (u : Use) : ∃ w, stepWindows sp u = { sp with windows := w } := by
  unfold stepWindows
  split <;> exact ⟨_, rfl⟩

theorem setSplit_split (g : Gang) (sp : Split) : (g.setSplit sp).split? = some sp :=
  tget_tput_self none g.splits g.cur (some sp)

theorem setSplit_other (g : Gang) (sp : Split) {i : Nat} (h : i ≠ g.cur) :
    tget none (g.setSplit sp).splits i = tget none g.splits i :=
  tget_tput_ne none g.splits (some sp) h

/-- A LOCAL INSTRUCTION (one that changes its gang's registers and its own split only) completes where it issues and is
clear: the state after it, gang, split and all else. -/
theorem localOp_next (h : Issues s key g sp b) (c : Clear s key b g sp u) (size : Nat)
    (f : State → Gang → Split → Gang × Split) (hh : (f s (stepGang s g sp) (stepWindows sp u)).1.hold = .none)
    (hs : (f s (stepGang s g sp) (stepWindows sp u)).1.stopped = none) :
    ∃ t, localOp s u size f = .next t ∧ Quiet s t key ∧
      t.gang? key = some ((f s (stepGang s g sp) (stepWindows sp u)).1.setSplit
        { (f s (stepGang s g sp) (stepWindows sp u)).2 with
          pc := (f s (stepGang s g sp) (stepWindows sp u)).2.pc + dw size }) := by
  have e := issue_next h c (skip := size) (body := fun s key g sp => retire s key (f s g sp).1 (f s g sp).2 size)
  have n : settleRead (retire s key (f s (stepGang s g sp) (stepWindows sp u)).1
      (f s (stepGang s g sp) (stepWindows sp u)).2 size) key b.ctx = countRead _ b.ctx :=
    settleRead_now b.ctx (setGang_gang_self ..) hs hh
  rw [n] at e
  refine ⟨_, e, ?_, ?_⟩
  · split
    · exact quiet_countRead (quiet_setGang ..) _
    · exact quiet_setGang ..
  · split
    · simp [retire, commit]
    · simp [retire, commit]

/-- Registers that nothing was written to. -/
theorem RegsKeep.refl (r : Regs) (vd kd md : List Nat) : RegsKeep r r vd kd md :=
  ⟨fun _ _ => rfl, fun _ _ => rfl, fun _ _ => rfl, r.v, r.k, r.m, r.fsr, rfl⟩

/-- FSR is not spoken of. -/
theorem RegsKeep.withFsr {r q : Regs} {vd kd md : List Nat} (h : RegsKeep r q vd kd md) (y : DWord) :
    RegsKeep r { q with fsr := y } vd kd md where
  v := h.v
  k := h.k
  m := h.m
  rest := by
    obtain ⟨v, k, m, x, e⟩ := h.rest
    exact ⟨v, k, m, y, by rw [e]⟩

theorem RegsKeep.kset (r : Regs) (d : Nat) (x : DWord) : RegsKeep r (r.kset d x) [] [d] [] where
  v := fun _ _ => by simp
  k := fun i hi => by
    have : i ≠ d := by simpa using hi
    simp [kget_kset, this]
  m := fun _ _ => by simp
  rest := by unfold Regs.kset; split <;> exact ⟨_, _, _, _, rfl⟩

theorem RegsKeep.mset (r : Regs) (d : Nat) (x : Lanes) : RegsKeep r (r.mset d x) [] [] [d] where
  v := fun _ _ => by simp
  k := fun i _ => by simp
  m := fun i hi => by
    have : i ≠ d := by simpa using hi
    simp [mget_mset, this]
  rest := by unfold Regs.mset; split <;> exact ⟨_, _, _, _, rfl⟩

/-- A local instruction that writes registers and leaves its split alone completes as `Completes` says. -/
theorem localOp_completes (h : Issues s key g sp b) (c : Clear s key b g sp u) (size : Nat)
    (f : State → Gang → Split → Regs) {vd kd md : List Nat}
    (hk : RegsKeep g.regs (f s (stepGang s g sp) (stepWindows sp u)) vd kd md)
    (hf : (f s (stepGang s g sp) (stepWindows sp u)).fsr = g.regs.fsr) :
    ∃ t g' sp', localOp s u size (fun s g sp => ({ g with regs := f s g sp }, sp)) = .next t ∧
      GangStep s t key g g' sp' vd kd md ∧ Goes sp sp' (sp.pc + dw size) ∧ g'.regs.fsr = g.regs.fsr ∧
      g'.regs = f s (stepGang s g sp) (stepWindows sp u) := by
  obtain ⟨t, ht, hq, hg⟩ := localOp_next h c size (fun s g sp => ({ g with regs := f s g sp }, sp)) h.hold h.going
  refine ⟨t, _, _, ht, ⟨⟨hg, setSplit_split .., hq, fun i hi => setSplit_other _ _ hi, _, _, _, _, _, rfl⟩, hk⟩, ?_, hf, rfl⟩
  obtain ⟨w, e⟩ := stepWindows_only sp u
  exact ⟨w, by rw [e]⟩

/-- An instruction whose effect is to put back its gang, registers changed, and its split: everything else stays. -/
theorem issue_commit (h : Issues s key g sp b) (c : Clear s key b g sp u) {skip : Nat}
    {body : State → Nat → Gang → Split → State} {r : Regs} {sp1 : Split}
    (hb : body s key (stepGang s g sp) (stepWindows sp u) = commit s key { stepGang s g sp with regs := r } sp1) :
    ∃ t g', issue s u skip body = .next t ∧ GangFrame s t key g g' sp1 ∧ g'.regs = r := by
  have n : settleRead (commit s key { stepGang s g sp with regs := r } sp1) key b.ctx = countRead _ b.ctx :=
    settleRead_now b.ctx (setGang_gang_self ..) h.going h.hold
  refine ⟨_, { stepGang s g sp with regs := r }.setSplit sp1, issue_next h c, ⟨?_, setSplit_split .., ?_,
    fun i hi => setSplit_other _ _ hi, _, _, _, _, _, rfl⟩, rfl⟩
  · rw [hb, n]; split <;> simp [commit]
  · rw [hb, n]
    split
    · exact quiet_countRead (quiet_setGang ..) _
    · exact quiet_setGang ..

/-- A split that moves only in its PC and its windows goes on. -/
theorem goes_stepWindows (sp : Split) (u : Use) (pc : DWord) : Goes sp { stepWindows sp u with pc := pc } pc := by
  obtain ⟨w, e⟩ := stepWindows_only sp u
  exact ⟨w, by rw [e]⟩

end Sys2Proof.Machine
end

