-- ==== Sys2Proof/Laws/Lanes.lean ====
section
/-! SUPPORT. What lane instructions write, said once: elements of a lane's content (R51), lanes of a register or of a pair
(R46, R52), flags merged into FSR and FPX raised (R241, R243). -/

namespace Sys2Proof.Machine

/-- A lane's content packed from its elements fits its elements' bits. -/
theorem packElts_lt (w : Nat) (f : Nat → Nat × Nat) (n : Nat) : (packElts w f n).1 < 2 ^ (w * n) := by
  induction n with
  | zero => simp [packElts]
  | succ n ih =>
    have h : (f n).1 % 2 ^ w < 2 ^ w := Nat.mod_lt _ (Nat.two_pow_pos w)
    have e : 2 ^ (w * (n + 1)) = 2 ^ w * 2 ^ (w * n) := by rw [Nat.mul_add, Nat.pow_add, Nat.mul_one, Nat.mul_comm]
    simp only [packElts, e]
    calc (f n).1 % 2 ^ w * 2 ^ (w * n) + (packElts w f n).1
        < (f n).1 % 2 ^ w * 2 ^ (w * n) + 2 ^ (w * n) := by omega
      _ = ((f n).1 % 2 ^ w + 1) * 2 ^ (w * n) := by ring
      _ ≤ 2 ^ w * 2 ^ (w * n) := Nat.mul_le_mul_right _ h

/-- Element `i` of a packed content is the one that was packed (R51). -/
theorem elt_packElts (w : Nat) (f : Nat → Nat × Nat) (n i : Nat) (h : i < n) :
    elt w (packElts w f n).1 i = (f i).1 % 2 ^ w := by
  induction n with
  | zero => omega
  | succ n ih =>
    have hp := packElts_lt w f n
    simp only [packElts, elt]
    by_cases hi : i = n
    · subst hi
      rw [Nat.mul_comm, Nat.mul_add_div (Nat.two_pow_pos _), Nat.div_eq_of_lt hp]
      simp
    · have hlt : i < n := by omega
      have e : 2 ^ (w * n) = 2 ^ (w * i) * (2 ^ w * 2 ^ (w * (n - i - 1))) := by
        rw [← Nat.pow_add, ← Nat.pow_add]
        congr 1
        have : n = i + (1 + (n - i - 1)) := by omega
        conv => lhs; rw [this]
        ring
      rw [e, show (f n).1 % 2 ^ w * (2 ^ (w * i) * (2 ^ w * 2 ^ (w * (n - i - 1)))) =
        2 ^ (w * i) * (2 ^ w * ((f n).1 % 2 ^ w * 2 ^ (w * (n - i - 1)))) by ring,
        Nat.mul_add_div (Nat.two_pow_pos _), Nat.mul_add_mod]
      exact ih hlt

theorem shape_bits (t : Ty) : t.shape.1 * t.shape.2 = if t.wide then 64 else 32 := by cases t <;> rfl

/-- Elementwise results read back, element by element. -/
theorem elements_eltwise (t : Ty) (f : Nat → Nat × Nat) (rel : Nat → Nat → Prop)
    (h : ∀ i < t.shape.2, rel i ((f i).1 % 2 ^ t.shape.1)) : Elements t rel (eltwise t f).1 := fun i hi => by
  rw [eltwise, elt_packElts _ _ _ _ hi]
  exact h i hi

theorem eltwise_lt (t : Ty) (f : Nat → Nat × Nat) : (eltwise t f).1 < if t.wide then 2 ^ 64 else 2 ^ 32 := by
  have h := packElts_lt t.shape.1 f t.shape.2
  rw [shape_bits] at h
  unfold eltwise
  split <;> simp_all

/-- Lanes of a register or a pair that were written hold what was written (R46, R52). -/
theorem lane_putLanes (r : Regs) (t : Ty) (d : Nat) (m : Lanes) (f : Nat → Nat) (l : Nat) (hl : l < 64) :
    (r.putLanes t.wide d m f).lane t d l =
      if inLanes m l then f l % (if t.wide then 2 ^ 64 else 2 ^ 32) else r.lane t d l := by
  unfold Regs.putLanes Regs.lane
  cases hw : t.wide
  · simp only [Bool.false_eq_true, if_false, lane_vlanes _ _ _ _ _ hl]
    split <;> simp
  · simp only [if_true]
    rw [vget_vlanes_ne _ _ _ (by omega : d ≠ d + 1), lane_vlanes _ _ _ _ _ hl, lane_vlanes _ _ _ _ _ hl]
    rw [vget_vlanes_ne _ _ _ (by omega : d + 1 ≠ d)]
    split
    · simp only [BitVec.toNat_ofNat]
      omega
    · rfl

/-- Writing lanes of a destination writes no other register (R46, R52). -/
theorem RegsKeep.putLanes (r : Regs) (t : Ty) (d : Nat) (m : Lanes) (f : Nat → Nat) :
    RegsKeep r (r.putLanes t.wide d m f) (dests t d) [] [] where
  v := fun i hi => by
    unfold Regs.putLanes
    unfold dests at hi
    split at hi
    · next h =>
      simp only [h, if_true]
      rw [vget_vlanes_ne _ _ _ (by simp at hi; exact hi.2), vget_vlanes_ne _ _ _ (by simp at hi; exact hi.1)]
    · next h =>
      simp only [h]
      exact vget_vlanes_ne _ _ _ (by simpa using hi)
  k := fun i _ => by unfold Regs.putLanes; split <;> rfl
  m := fun i _ => by unfold Regs.putLanes; split <;> rfl
  rest := by unfold Regs.putLanes; split <;> exact ⟨_, _, _, _, rfl⟩

theorem putLanes_fsr (r : Regs) (w : Bool) (d : Nat) (m : Lanes) (f : Nat → Nat) :
    (r.putLanes w d m f).fsr = r.fsr ∧ (r.putLanes w d m f).fcr = r.fcr := by
  unfold Regs.putLanes
  split <;> exact ⟨rfl, rfl⟩

-- Flags.

theorem testBit_allFlags (fl : List (Nat × Nat)) (i : Nat) :
    (allFlags fl).testBit i = fl.any fun e => e.2.testBit i := by
  have : ∀ (n : Nat), (fl.foldl (fun a e => a ||| e.2) n).testBit i = (n.testBit i || fl.any fun e => e.2.testBit i) := by
    induction fl with
    | nil => simp
    | cons e r ih => intro n; simp [ih, Nat.testBit_or, Bool.or_assoc]
  simpa [allFlags] using this 0

/-- The flags of a list of lanes merged into FSR: a bit is set when it was, or when some lane sets it (R241). -/
theorem mergeFsr_bit (g : Gang) (fl : List (Nat × Nat)) (i : Nat) (hi : i < 64) :
    (mergeFsr g (allFlags fl)).regs.fsr.getLsbD i = (g.regs.fsr.getLsbD i || (decide (i < 7) && fl.any fun e => e.2.testBit i)) := by
  have h7 : (0x7F#64).getLsbD i = decide (i < 7) := by
    interval_cases i <;> rfl
  simp only [mergeFsr, fsrWrite, dw, BitVec.getLsbD_or, BitVec.getLsbD_and, h7, BitVec.getLsbD_ofNat, hi, decide_true,
    Bool.true_and, testBit_allFlags]
  rw [Bool.and_comm]

theorem addEffect_only (sp : Split) (id : Nat) (m : Lanes) (x : VVal) : ∃ e, addEffect sp id m x = { sp with eff := e } := by
  unfold addEffect
  split <;> exact ⟨_, rfl⟩

theorem mem_insertEff (e : PendEff) (l : List PendEff) : e ∈ insertEff e l := by
  induction l with
  | nil => simp [insertEff]
  | cons x r ih =>
    simp only [insertEff]
    split <;> simp [ih]

/-- An effect raised is pending for its lanes (R376). -/
theorem addEffect_mem (sp : Split) (id : Nat) (m : Lanes) (x : VVal) :
    ∃ e ∈ (addEffect sp id m x).eff, e.id = id ∧ ∀ l, inLanes m l = true → inLanes e.lanes l = true := by
  unfold addEffect
  split
  · exact ⟨_, mem_insertEff _ _, rfl, fun l h => h⟩
  · next e he =>
    have hi : e.id = id := by simpa using List.find?_some he
    refine ⟨_, List.mem_map.mpr ⟨e, List.mem_of_find?_eq_some he, if_pos hi⟩, hi, fun l h => ?_⟩
    simp [inLanes, inLanes] at h ⊢
    simp [h]

theorem testBit_laneSet_aux (f : Nat → Bool) (n k i : Nat) :
    ((List.range' k n).foldr (fun l a => 2 * a + if f l then 1 else 0) 0).testBit i = (decide (i < n) && f (k + i)) := by
  induction n generalizing k i with
  | zero => simp
  | succ n ih =>
    rw [List.range'_succ, List.foldr_cons]
    cases i with
    | zero => cases f k <;> simp [Nat.testBit_zero]
    | succ i =>
      rw [Nat.testBit_succ]
      have : (2 * (List.range' (k + 1) n).foldr (fun l a => 2 * a + if f l then 1 else 0) 0 + if f k then 1 else 0) / 2 =
          (List.range' (k + 1) n).foldr (fun l a => 2 * a + if f l then 1 else 0) 0 := by split <;> omega
      rw [this, ih]
      simp [show k + 1 + i = k + (i + 1) by omega]

/-- A set of lanes built from a test. -/
@[simp] theorem inLanes_laneSet (f : Nat → Bool) (l : Nat) : inLanes (laneSet f) l = (decide (l < 64) && f l) := by
  have := testBit_laneSet_aux f 64 0 l
  rw [← List.range_eq_range'] at this
  simp only [inLanes, laneSet, BitVec.getLsbD_ofNat, this]
  by_cases h : l < 64 <;> simp [h]

theorem mem_laneList (m : Lanes) (l : Nat) : l ∈ laneList m ↔ l < 64 ∧ inLanes m l = true := by
  simp [laneList]

theorem raiseFpx_only (sp : Split) (en : Nat) (fl : List (Nat × Nat)) : ∃ e, raiseFpx sp en fl = { sp with eff := e } := by
  unfold raiseFpx
  dsimp only
  split
  · exact ⟨_, rfl⟩
  · exact addEffect_only ..

/-- THE FLAGS OF A LANE INSTRUCTION, whole (R241, R243): what `FlagsMerge` says of `finishFlags`. -/
theorem finishFlags_merge {g g1 : Gang} {sp sp1 : Split} {act : Lanes} {f : Nat → Nat} (hf : g1.regs.fsr = g.regs.fsr)
    (hc : g1.regs.fcr = g.regs.fcr) (he : sp1.eff = sp.eff) :
    FlagsMerge g (finishFlags g1 sp1 ((laneList act).map fun l => (l, f l))).1 sp
      (finishFlags g1 sp1 ((laneList act).map fun l => (l, f l))).2 act fun l i => (f l).testBit i = true := by
  have hen : ∀ i < 7, (enabledFlags g1.regs).testBit i = g.regs.fcr.getLsbD (8 + i) := fun i hi => by
    simp only [enabledFlags, bitsOf, hc, Nat.testBit_mod_two_pow, Nat.testBit_div_two_pow]
    simp [hi, BitVec.getLsbD, Nat.add_comm]
  have hen' : ∀ i, ¬i < 7 → (enabledFlags g1.regs).testBit i = false := fun i hi => by
    simp only [enabledFlags, bitsOf, Nat.testBit_mod_two_pow]
    simp [hi]
  have hit : ∀ x : Nat, (x &&& enabledFlags g1.regs != 0) = true ↔ ∃ i < 7, x.testBit i = true ∧ g.regs.fcr.getLsbD (8 + i) = true := by
    intro x
    rw [bne_iff_ne, ne_eq, ← not_iff_not, not_not]
    constructor
    · rintro h ⟨i, hi, h1, h2⟩
      have := congrArg (fun y => y.testBit i) h
      simp [h1, hen i hi, h2] at this
    · intro h
      apply Nat.eq_of_testBit_eq
      intro i
      rw [Nat.testBit_and, Nat.zero_testBit]
      by_cases hi : i < 7
      · rw [hen i hi]
        by_contra hx
        simp only [Bool.not_eq_false, Bool.and_eq_true] at hx
        exact h ⟨i, hi, hx.1, hx.2⟩
      · rw [hen' i hi, Bool.and_false]
  constructor
  · intro i hi
    simp only [finishFlags]
    rw [mergeFsr_bit _ _ _ hi, hf]
    simp only [Bool.or_eq_true, Bool.and_eq_true, decide_eq_true_eq, List.any_map, List.any_eq_true, mem_laneList,
      Function.comp_apply]
    constructor
    · rintro (h | ⟨h, l, ⟨h1, h2⟩, h3⟩)
      · exact .inl h
      · exact .inr ⟨h, l, h1, h2, h3⟩
    · rintro (h | ⟨h, l, h1, h2, h3⟩)
      · exact .inl h
      · exact .inr ⟨h, l, ⟨h1, h2⟩, h3⟩
  · intro l hl ha hs
    have hx := (hit (f l)).mpr hs
    simp only [finishFlags, raiseFpx]
    have hm : (l, f l) ∈ ((laneList act).map fun l => (l, f l)).filter fun e => e.2 &&& enabledFlags g1.regs != 0 := by
      rw [List.mem_filter]
      exact ⟨List.mem_map.mpr ⟨l, (mem_laneList act l).mpr ⟨hl, ha⟩, rfl⟩, hx⟩
    rw [if_neg (by rw [List.isEmpty_iff]; intro h; rw [h] at hm; exact absurd hm (by simp))]
    obtain ⟨e, h1, h2, h3⟩ := addEffect_mem sp1 1 (laneSet fun l' => (((laneList act).map fun l => (l, f l)).filter
      fun e => e.2 &&& enabledFlags g1.regs != 0).any fun e => e.1 == l') _
    refine ⟨e, h1, h2, h3 l ?_⟩
    simp only [inLanes_laneSet, hl, decide_true, Bool.true_and, List.any_eq_true]
    exact ⟨_, hm, by simp⟩
  · intro h
    simp only [finishFlags, raiseFpx]
    rw [if_pos ?_, he]
    rw [List.isEmpty_iff, List.filter_eq_nil_iff]
    intro e hm
    obtain ⟨l, hl, rfl⟩ := List.mem_map.mp hm
    rw [mem_laneList] at hl
    intro hx
    obtain ⟨i, hi, h1, h2⟩ := (hit _).mp hx
    rw [h l hl.1 hl.2 i hi h1] at h2
    exact absurd h2 (by simp)

/-- A LANE INSTRUCTION that is not long-latency, whole: its destination lanes, its flags and nothing else. -/
theorem vecOp_flags {i : Instr} {size : Nat} {u : Use} {p : Pred} {t : Ty} {d : Nat} {f : Regs → Nat → Nat × Nat}
    {post : Gang → Nat → Nat → Prop} {sets : Gang → Nat → Nat → Prop}
    (he : ∀ s, exec i s = vecOp s u p t.wide d size f)
    (hp : ∀ g l, post g l ((f g.regs l).1 % if t.wide then 2 ^ 64 else 2 ^ 32))
    (hs : ∀ g l i, i < 7 → ((f g.regs l).2.testBit i = true ↔ sets g l i)) :
    LaneOpFlags i size u p t d post sets := by
  intro s key g sp b h c
  have ha : activeLanes (stepGang s g sp) (stepWindows sp u) p = activeLanes g sp p := by
    simp [activeLanes, Gang.mget]
  obtain ⟨s', hs', hq, hg⟩ := localOp_next h c size (fun _ g sp =>
    finishFlags { g with regs := g.regs.putLanes t.wide d (activeLanes g sp p) fun l => (f g.regs l).1 } sp
      ((laneList (activeLanes g sp p)).map fun l => (l, (f g.regs l).2))) h.hold h.going
  simp only [ha, stepGang_regs] at hg
  have hfm := finishFlags_merge (g := g) (sp := sp) (act := activeLanes g sp p) (f := fun l => (f g.regs l).2)
    (g1 := { stepGang s g sp with regs := g.regs.putLanes t.wide d (activeLanes g sp p) fun l => (f g.regs l).1 })
    (sp1 := stepWindows sp u) (putLanes_fsr ..).1 (putLanes_fsr ..).2 (stepWindows_eff ..)
  obtain ⟨e, hr⟩ := raiseFpx_only (stepWindows sp u)
    (enabledFlags (g.regs.putLanes t.wide d (activeLanes g sp p) fun l => (f g.regs l).1))
    ((laneList (activeLanes g sp p)).map fun l => (l, (f g.regs l).2))
  obtain ⟨w, hw⟩ := stepWindows_only sp u
  have hk := RegsKeep.putLanes g.regs t d (activeLanes g sp p) fun l => (f g.regs l).1
  refine ⟨s', _, _, (he s).trans hs', ⟨⟨hg, setSplit_split .., hq, fun i hi => setSplit_other _ _ hi, _, _, _, _, _, rfl⟩,
    hk.withFsr _⟩, ?_, ?_, ?_⟩
  · refine ⟨e, w, ?_⟩
    change ({ raiseFpx _ _ _ with pc := (raiseFpx _ _ _).pc + dw size } : Split) = _
    rw [hr, hw]
  · have hiff : ∀ l i, i < 7 → ((f g.regs l).2.testBit i = true ↔ sets g l i) := hs g
    refine ⟨fun i hi => (hfm.fsr i hi).trans ?_, fun l hl ha hx => ?_, fun hx => ?_⟩
    · refine or_congr Iff.rfl (and_congr_right fun h7 => ?_)
      exact exists_congr fun l => and_congr_right fun _ => and_congr_right fun _ => hiff l i h7
    · obtain ⟨i, hi, h1, h2⟩ := hx
      exact hfm.fpx l hl ha ⟨i, hi, (hiff l i hi).mpr h1, h2⟩
    · exact hfm.none fun l hl ha i hi hb => hx l hl ha i hi ((hiff l i hi).mp hb)
  · intro l hl
    have := lane_putLanes g.regs t d (activeLanes g sp p) (fun l => (f g.regs l).1) l hl
    have e2 : ∀ (r : Regs) (y : DWord), Regs.lane { r with fsr := y } t d l = r.lane t d l := fun _ _ => rfl
    simp only [finishFlags, mergeFsr, Gang.setSplit, e2, this]
    split
    · exact hp g l
    · rfl

/-- A lane instruction that sets no flag. -/
theorem vecOp_plain {i : Instr} {size : Nat} {u : Use} {p : Pred} {t : Ty} {d : Nat} {f : Regs → Nat → Nat × Nat}
    {post : Gang → Nat → Nat → Prop} (he : ∀ s, exec i s = vecOp s u p t.wide d size f)
    (hp : ∀ g l, post g l ((f g.regs l).1 % if t.wide then 2 ^ 64 else 2 ^ 32))
    (hs : ∀ g l, (f g l).2 = 0) : LaneOp i size u p t d post := by
  intro s key g sp b h c
  obtain ⟨s', g', sp', h1, h2, ⟨e, w, h3⟩, h4, h5⟩ :=
    vecOp_flags (sets := fun _ _ _ => False) he hp (fun g l i _ => by simp [hs]) s key g sp b h c
  refine ⟨s', g', sp', h1, h2, ⟨w, ?_⟩, ?_, h5⟩
  · have := h4.none fun l _ _ i _ hf => hf.elim
    rw [h3] at this ⊢
    simp only at this ⊢
    rw [this]
  · apply BitVec.eq_of_getLsbD_eq
    intro i hi
    have := h4.fsr i hi
    simp only [and_false, exists_false, or_false] at this
    exact Bool.eq_iff_iff.mpr this

end Sys2Proof.Machine
end

