-- ==== Sys2Proof/Laws/Memory.lean ====
section
/-! SUPPORT. Memory and the scratchpads: every operation on their bytes keeps the canonical form, what a byte reads as
after each, and that reset's stores have the form (R2, R12, R13). -/

namespace Sys2Proof.Machine

theorem reset_memory_wf : Memory.wf State.reset.mem.bytes = true := rfl

theorem reset_canon : Canon State.reset := ⟨rfl, rfl, rfl⟩

/-- A state with the same stores is as canonical. -/
theorem Canon.of_eq {s t : State} (w : Canon s) (m : t.mem.bytes = s.mem.bytes) (c : t.core.scratch = s.core.scratch)
    (f : t.pf.floors = s.pf.floors) : Canon t :=
  ⟨by rw [m]; exact w.memory, by rw [c]; exact w.scratch, by rw [f]; exact w.floors⟩

theorem Canon.setByte {s : State} (w : Canon s) (a : Nat) (x : Byte) : Canon (s.setByte a x) :=
  ⟨twf_tput a x w.memory, w.scratch, w.floors⟩

theorem Canon.setSbyte {s : State} (w : Canon s) (a : Nat) (x : Byte) : Canon (s.setSbyte a x) :=
  ⟨w.memory, twf_tput a x w.scratch, w.floors⟩

theorem Canon.setLbyte {s : State} (w : Canon s) (l : Loc) (i : Nat) (x : Byte) : Canon (s.setLbyte l i x) := by
  unfold State.setLbyte
  split
  · exact w.setSbyte ..
  · exact w.setByte ..

theorem Canon.writeBytes {s : State} (w : Canon s) (a : Nat) (l : List Byte) : Canon (s.writeBytes a l) := by
  induction l generalizing s a with
  | nil => exact w
  | cons b r ih => exact ih (w.setByte a b) (a + 1)

theorem Canon.writePhys {s : State} (w : Canon s) (a n v : Nat) : Canon (s.writePhys a n v) := by
  induction n generalizing s a v with
  | zero => exact w
  | succ n ih => exact ih (w.setByte a _) (a + 1) (v / 256)

theorem Canon.writeLoc {s : State} (w : Canon s) (l : Loc) (i n v : Nat) : Canon (s.writeLoc l i n v) := by
  induction n generalizing s i v with
  | zero => exact w
  | succ n ih => exact ih (w.setLbyte l i _) (i + 1) (v / 256)

theorem Canon.writeScr {s : State} (w : Canon s) (a : Nat) (l : List Byte) : Canon (s.writeScr a l) := by
  induction l generalizing s a with
  | nil => exact w
  | cons b r ih => exact ih (w.setSbyte a b) (a + 1)

theorem Canon.clearPoison {s : State} (w : Canon s) (sec : Nat) : Canon (clearPoison s sec) := w.of_eq rfl rfl rfl

theorem Canon.foldl {α : Type} {f : State → α → State} (hf : ∀ s x, Canon s → Canon (f s x)) {s : State} (w : Canon s) (l : List α) :
    Canon (l.foldl f s) := by
  induction l generalizing s with
  | nil => exact w
  | cons x r ih => exact ih (hf s x w)

-- Charges and the caches change no byte.

theorem Canon.chargeUser {s : State} (w : Canon s) (u a n : Nat) : Canon (chargeUser s u a n) := by
  unfold Sys2Proof.Machine.chargeUser
  dsimp only
  split <;> exact w.of_eq rfl rfl rfl

theorem Canon.writeBackL1 {s : State} (w : Canon s) (line : Nat) (x : L1Line) : Canon (writeBackL1 s line x) := w.chargeUser ..

theorem Canon.setL1 {s : State} (w : Canon s) (core line : Nat) (x : Option L1Line) : Canon (s.setL1 core line x) :=
  w.of_eq rfl rfl rfl

theorem Canon.recallOwned {s : State} (w : Canon s) (line : Nat) : Canon (recallOwned s line) := by
  refine w.foldl (fun s e w => ?_) _
  repeat' split
  all_goals first | exact w | exact w.setL1 .. | exact (w.writeBackL1 ..).setL1 ..

theorem Canon.clearCoreLine {s : State} (w : Canon s) (core line : Nat) : Canon (clearCoreLine s core line) := w.of_eq rfl rfl rfl

theorem Canon.dropCopies {s : State} (w : Canon s) (line : Nat) (keep : Option Nat) : Canon (dropCopies s line keep) := by
  unfold Sys2Proof.Machine.dropCopies
  refine Canon.of_eq (w.foldl (fun s e w => ?_) _) rfl rfl rfl
  split
  · refine Canon.clearCoreLine ?_ ..
    split <;> first | exact w.setL1 .. | exact (w.writeBackL1 ..).setL1 ..
  · exact w

theorem Canon.storeSector {s : State} (w : Canon s) (sec : Nat) : Canon (storeSector s sec) := w.of_eq rfl rfl rfl

theorem Canon.chargeSlots {s : State} (w : Canon s) (ctx core a n : Nat) : Canon (chargeSlots s ctx core a n) :=
  ((w.chargeUser ..).recallOwned _).storeSector _

theorem Canon.clearLine {s : State} (w : Canon s) (line : Nat) : Canon (clearLine s line) := w.of_eq rfl rfl rfl

theorem Canon.putByte {s : State} (w : Canon s) (a : Nat) (x : Byte) : Canon (putByte s a x) :=
  ⟨twf_tput a x w.memory, w.scratch, w.floors⟩

/-- Reading a sector changes no byte, whatever it finds. -/
theorem sectorRead_stores (s : State) (sec : Nat) : (sectorRead s sec).1.mem.bytes = s.mem.bytes ∧
    (sectorRead s sec).1.core = s.core ∧ (sectorRead s sec).1.pf = s.pf := by
  unfold sectorRead dramRead
  dsimp only
  repeat' split
  all_goals exact ⟨rfl, rfl, rfl⟩

theorem Canon.sectorRead {s : State} (w : Canon s) (sec : Nat) : Canon (sectorRead s sec).1 :=
  have h := sectorRead_stores s sec
  w.of_eq h.1 (by rw [h.2.1]) (by rw [h.2.2])

/-- A write at the home, sector by sector. -/
theorem Canon.writeSector {s : State} (w : Canon s) (a : Nat) (bs : List Byte) (sec : Nat) : Canon (writeSector s a bs sec) := by
  unfold Sys2Proof.Machine.writeSector
  dsimp only
  have go : ∀ x : State × Bool, Canon x.1 → ∀ line lo l sec,
      Canon (if x.2 = true then x.1 else Sys2Proof.Machine.clearLine (Sys2Proof.Machine.storeSector
        ((Sys2Proof.Machine.dropCopies x.1 (sec / 4) none).writeBytes lo l) sec) line) := fun x h line lo l sec => by
    split
    · exact h
    · exact (((h.dropCopies ..).writeBytes ..).storeSector _).clearLine _
  refine go _ ?_ _ _ _ sec
  split
  · exact w.clearPoison _
  · exact w.sectorRead _

theorem Canon.writeHome {s : State} (w : Canon s) (a : Nat) (bs : List Byte) : Canon (writeHome s a bs) :=
  w.foldl (fun _ sec w => w.writeSector a bs sec) _

theorem Canon.markDirty {s : State} (w : Canon s) (c a : Nat) : Canon (markDirty s c a) := by
  unfold Sys2Proof.Machine.markDirty
  split
  · exact w
  · dsimp only
    split
    · exact w.writeHome ..
    · exact w

theorem Canon.writeElem {s : State} (w : Canon s) (l : Loc) (size v : Nat) : Canon (writeElem s l size v) := by
  unfold Sys2Proof.Machine.writeElem
  dsimp only
  split
  · exact (w.writeLoc ..).clearLine _
  · exact ((w.writeLoc ..).clearLine _).markDirty ..

theorem Canon.readWord {s : State} (w : Canon s) (x : CopyWord) : Canon (readWord s x).1 := by
  unfold Sys2Proof.Machine.readWord
  split
  · exact w
  · split
    · exact w
    · exact w.recallOwned _

theorem Canon.writeWords {s : State} (w : Canon s) (add : Option Ty) (l : List CopyWord) : Canon (writeWords add s l) := by
  induction l generalizing s with
  | nil => exact w
  | cons x r ih =>
    refine ih (Canon.writeElem ?_ ..)
    split
    · exact w.readWord x
    · exact (w.readWord x).dropCopies ..

theorem Canon.putRange {s : State} (w : Canon s) (base len : Nat) (e : List (Nat × Byte)) : Canon (putRange s base len e) := by
  unfold Sys2Proof.Machine.putRange
  dsimp only
  refine Canon.foldl (fun s x w => w.putByte _ x.2) ?_ e
  exact ⟨twf_filter _ w.memory, w.scratch, w.floors⟩

theorem Canon.lineLeaves {s : State} (w : Canon s) (core line : Nat) : Canon (lineLeaves s core line) := by
  unfold Sys2Proof.Machine.lineLeaves
  dsimp only
  repeat' split
  · exact (w.setL1 core line none).of_eq rfl rfl rfl
  · next x _ _ => exact ((w.writeBackL1 line x).setL1 core line none).of_eq rfl rfl rfl
  · exact w.of_eq rfl rfl rfl

theorem Canon.writeBackLine {s : State} (w : Canon s) (line : Nat) : Canon (writeBackLine s line) := w.of_eq rfl rfl rfl

theorem Canon.symbolsFail {s : State} (w : Canon s) (sec n : Nat) : Canon (symbolsFail s sec n) := by
  unfold Sys2Proof.Machine.symbolsFail
  split
  · exact w.of_eq rfl rfl rfl
  · exact w

theorem Canon.hostWrite {s : State} (w : Canon s) (a : Nat) (bs : List Byte) : Canon (hostWrite s a bs) := by
  unfold Sys2Proof.Machine.hostWrite
  split
  · exact w
  · refine w.foldl (fun s sec w => ?_) _
    unfold hostSector
    split
    · exact (w.chargeUser _ _ _).writeSector ..
    · exact w

theorem Canon.hostRead {s : State} (w : Canon s) (a n : Nat) : Canon (hostRead s a n) := by
  unfold Sys2Proof.Machine.hostRead
  split
  · exact w
  · refine w.foldl (fun s sec w => ?_) _
    split
    · exact (((w.sectorRead sec).recallOwned _).chargeUser _ _ _).storeSector _
    · exact w

-- What a byte reads as after a write.

/-- The bytes of a list stand from the address on, and every other byte is as it was. -/
theorem writeBytes_byte (s : State) (a : Nat) (l : List Byte) (i : Nat) : (s.writeBytes a l).byte i =
    if a ≤ i ∧ i < a + l.length then l.getD (i - a) 0 else s.byte i := by
  induction l generalizing s a with
  | nil => simp [State.writeBytes]
  | cons b r ih =>
    simp only [State.writeBytes, ih, setByte_byte, List.length_cons]
    by_cases e : i = a
    · subst e; simp
    · by_cases h : a + 1 ≤ i ∧ i < a + 1 + r.length
      · rw [if_pos h, if_pos (by omega), show i - a = (i - (a + 1)) + 1 by omega, List.getD_cons_succ]
      · rw [if_neg h, if_neg e, if_neg (by omega)]

/-- Byte `i` of a number written to memory is its `i`-th byte, least significant first (R2). -/
theorem writePhys_byte (s : State) (a n v i : Nat) : (s.writePhys a n v).byte i =
    if a ≤ i ∧ i < a + n then BitVec.ofNat 8 (v / 256 ^ (i - a)) else s.byte i := by
  induction n generalizing s a v with
  | zero => simp [State.writePhys]
  | succ n ih =>
    simp only [State.writePhys, ih, setByte_byte]
    by_cases e : i = a
    · subst e; simp
    · by_cases h : a + 1 ≤ i ∧ i < a + 1 + n
      · rw [if_pos h, if_pos (by omega), show i - a = (i - (a + 1)) + 1 by omega, Nat.pow_succ', Nat.div_div_eq_div_mul]
      · rw [if_neg h, if_neg e, if_neg (by omega)]

/-- The number in bytes written least significant first is the number, cut to their width. -/
theorem leValue_bytes (f : Nat → Byte) (v n : Nat) (h : ∀ i < n, f i = BitVec.ofNat 8 (v / 256 ^ i)) :
    leValue f n = v % 256 ^ n := by
  induction n with
  | zero => simp [leValue, Nat.mod_one]
  | succ n ih =>
    rw [leValue, ih fun i hi => h i (by omega), h n (by omega), Nat.pow_succ, Nat.mod_mul, BitVec.toNat_ofNat]

/-- What is read back after a write is what was written, cut to the width. -/
theorem readPhys_writePhys (s : State) (a n v : Nat) : (s.writePhys a n v).readPhys a n = v % 256 ^ n := by
  refine leValue_bytes _ v n fun i hi => ?_
  rw [writePhys_byte, if_pos (by omega), Nat.add_sub_cancel_left]

/-- A write elsewhere leaves what is read. -/
theorem readPhys_writePhys_ne (s : State) {a n v b m : Nat} (h : b + m ≤ a ∨ a + n ≤ b) :
    (s.writePhys a n v).readPhys b m = s.readPhys b m := by
  have e : ∀ i < m, (s.writePhys a n v).byte (b + i) = s.byte (b + i) := fun i hi => by
    rw [writePhys_byte, if_neg (by omega)]
  unfold State.readPhys
  clear h
  induction m with
  | zero => rfl
  | succ m ih => rw [leValue, leValue, ih fun i hi => e i (by omega), e m (by omega)]

/-- Byte `i` of a location after a number is written to it. -/
theorem writeLoc_lbyte (s : State) (l : Loc) (k n v i : Nat) : (s.writeLoc l k n v).lbyte l i =
    if k ≤ i ∧ i < k + n then BitVec.ofNat 8 (v / 256 ^ (i - k)) else s.lbyte l i := by
  have one (s : State) (x : Byte) (k : Nat) : (s.setLbyte l k x).lbyte l i = if i = k then x else s.lbyte l i := by
    unfold State.setLbyte State.lbyte
    split <;> simp [setByte_byte, setSbyte_sbyte]
  induction n generalizing s k v with
  | zero => simp [State.writeLoc]
  | succ n ih =>
    simp only [State.writeLoc, ih, one]
    by_cases e : i = k
    · subst e; simp
    · by_cases h : k + 1 ≤ i ∧ i < k + 1 + n
      · rw [if_pos h, if_pos (by omega), show i - k = (i - (k + 1)) + 1 by omega, Nat.pow_succ', Nat.div_div_eq_div_mul]
      · rw [if_neg h, if_neg e, if_neg (by omega)]

/-- What is read back from a location is what was written to it, cut to the width. -/
theorem readLoc_writeLoc (s : State) (l : Loc) (n v : Nat) : (s.writeLoc l 0 n v).readLoc l n = v % 256 ^ n := by
  refine leValue_bytes _ v n fun i hi => ?_
  rw [writeLoc_lbyte, if_pos (by omega), Nat.sub_zero]

end Sys2Proof.Machine
end

