-- ==== Sys2Proof/Laws/Trap.lean ====
section
/-! SUPPORT. What taking a trap does, said once (R379, R380, R387). -/

namespace Sys2Proof.Machine

/-- What waits for records takes their new numbers, and nothing else changes (R384, R396). -/
theorem bumpSeqs_only (s : State) (ring : Nat) (l : List Nat) : ∃ x y, bumpSeqs s ring l = { s with waits := x, gangs := y } := by
  unfold bumpSeqs
  split <;> exact ⟨_, _, rfl⟩

theorem recsAfter_split (s : State) (x : Ring) (r : FRec) :
    x.pend = x.pend.take (x.pend.length - (recsAfter s x r).length) ++ recsAfter s x r ∧
      (∀ e ∈ recsAfter s x r, e.dev = s.stamp ∧ r.src < e.src) ∧
      ∀ e, (x.pend.take (x.pend.length - (recsAfter s x r).length)).getLast? = some e → ¬(e.dev = s.stamp ∧ r.src < e.src) := by
  let p : FRec → Bool := fun e => e.dev == s.stamp && decide (r.src < e.src)
  have hp (e : FRec) : p e = true ↔ e.dev = s.stamp ∧ r.src < e.src := by simp [p]
  have key : x.pend = (x.pend.reverse.dropWhile p).reverse ++ (x.pend.reverse.takeWhile p).reverse := by
    rw [← List.reverse_append, List.takeWhile_append_dropWhile, List.reverse_reverse]
  have hl : x.pend.take (x.pend.length - (recsAfter s x r).length) = (x.pend.reverse.dropWhile p).reverse := by
    conv => lhs; arg 2; rw [key]
    refine List.take_left' ?_
    have := congrArg List.length key
    simp only [List.length_append, List.length_reverse] at this
    show _ = x.pend.length - (x.pend.reverse.takeWhile p).reverse.length
    simp only [List.length_reverse]
    omega
  rw [hl]
  refine ⟨key, fun e he => (hp e).mp (List.mem_takeWhile_imp (List.mem_reverse.mp he)), fun e he => ?_⟩
  rw [List.getLast?_reverse] at he
  rw [← hp]
  intro h
  have := List.head?_dropWhile_not p x.pend.reverse
  rw [he] at this
  simp [h] at this

/-- A record that is not lost for want of room (R383) is posted, and nothing changes but the ring and what waits for its
records. -/
theorem postRec_posted (s : State) (ring : Nat) (r : FRec) (h : r.cls < 2 ∨ (s.ring ring).pend.length < 64) :
    ∃ x y z q, postRec s ring r = { s with rings := x, waits := y, gangs := z } ∧
      Posted s (postRec s ring r) ring { r with seq := q, dev := s.stamp } := by
  have hc : (decide (2 ≤ r.cls) && decide (64 ≤ (s.ring ring).pend.length) &&
      decide ((s.ring ring).capacity ≤ ((s.ring ring).tail - (s.ring ring).head).toNat)) = false := by
    rcases h with h | h
    · have : decide (2 ≤ r.cls) = false := by simpa using h
      simp [this]
    · have : decide (64 ≤ (s.ring ring).pend.length) = false := by simpa using h
      simp [this]
  obtain ⟨x, y, e⟩ := bumpSeqs_only s ring ((recsAfter s (s.ring ring) r).map (·.seq))
  obtain ⟨h1, h2, h3⟩ := recsAfter_split s (s.ring ring) r
  unfold postRec
  simp only [hc, Bool.false_eq_true, if_false, e]
  refine ⟨_, _, _, recSeq s (s.ring ring) r, rfl, _, _, h1, h2, h3, ?_, rfl, ?_, ?_⟩
  · exact congrArg Ring.pend (setRing_ring_self { s with waits := x, gangs := y } ring _)
  · rfl
  · exact congrArg Ring.seq (setRing_ring_self { s with waits := x, gangs := y } ring _)

/-- Changing gangs one after another changes only gangs. -/
theorem modGang_only (s : State) (k : Nat) (f : Gang → Gang) : ∃ x, s.modGang k f = { s with gangs := x } := by
  unfold State.modGang
  split
  · exact ⟨_, rfl⟩
  · exact ⟨s.gangs, rfl⟩

theorem foldl_modGang_only (l : List Nat) (f : Gang → Gang) (s : State) :
    ∃ x, l.foldl (fun s k => s.modGang k f) s = { s with gangs := x } := by
  induction l generalizing s with
  | nil => exact ⟨s.gangs, rfl⟩
  | cons k r ih =>
    obtain ⟨x, e⟩ := modGang_only s k f
    rw [List.foldl_cons, e]
    exact ih { s with gangs := x }

theorem modGang_gang (s : State) (k i : Nat) (f : Gang → Gang) :
    (s.modGang k f).gang? i = if i = k then (s.gang? i).map f else s.gang? i := by
  unfold State.modGang
  split
  · next g hg =>
    rw [setGang_gang]
    split
    · next h => rw [h, hg]; rfl
    · rfl
  · next hg =>
    split
    · next h => rw [h, hg]; rfl
    · rfl

/-- A gang after several were changed: as before, or changed a number of times. -/
theorem foldl_modGang_gang (l : List Nat) (f : Gang → Gang) (p : Gang → Prop) (hp : ∀ g, p g → p (f g)) (s : State)
    (i : Nat) (g : Gang) (hg : s.gang? i = some g) (h : p g) :
    ∃ g', (l.foldl (fun s k => s.modGang k f) s).gang? i = some g' ∧ p g' := by
  induction l generalizing s g with
  | nil => exact ⟨g, hg, h⟩
  | cons k r ih =>
    rw [List.foldl_cons]
    by_cases hi : i = k
    · exact ih (s.modGang k f) (f g) (by rw [modGang_gang, if_pos hi, hg]; rfl) (hp g h)
    · exact ih (s.modGang k f) g (by rw [modGang_gang, if_neg hi, hg]) h

theorem tget_map {α β : Type} (f : Option α → Option β) (hf : f none = none) (t : Tab (Option α)) (k : Nat) :
    tget none (t.map fun e => (e.1, f e.2)) k = f (tget none t k) := by
  induction t with
  | nil => simp [tget, hf]
  | cons e r ih =>
    obtain ⟨j, x⟩ := e
    simp only [List.map_cons, tget]
    split
    · rfl
    · exact ih

/-- A change of the reservation sets of a split, and of nothing else of it (R105). -/
def ResvOnly (f : Split → Split) : Prop := ∀ sp, ∃ q, f sp = { sp with resv := (f sp).resv, spent := q } ∧ (sp.resv = none → (f sp).resv = none)

theorem mapSplits_split (f : Split → Split) (g : Gang) : (g.mapSplits f).split? = g.split?.map f :=
  tget_map (Option.map f) rfl g.splits g.cur

theorem ResvOnly.noResv : ResvOnly Split.noResv := fun _ => ⟨[], rfl, fun _ => rfl⟩

theorem ResvOnly.mapResv (f : Resv → Resv) : ResvOnly fun sp => sp.mapResv f :=
  fun sp => ⟨_, rfl, fun h => by simp [Split.mapResv, h]⟩

/-- What the end of running boxes and of reservations leaves alone: the contexts, the rings and the blocks, and of a gang
whatever does not depend on the reservations that its splits hold. -/
structure Keeps (s t : State) : Prop where
  ctxs : t.ctxs = s.ctxs
  rings : t.rings = s.rings
  blocks : t.blocks = s.blocks
  gang : ∀ (p : Gang → Prop), (∀ f g, ResvOnly f → p g → p (g.mapSplits f)) → ∀ k g, s.gang? k = some g → p g →
    ∃ g', t.gang? k = some g' ∧ p g'

theorem Keeps.of_eq {s t : State} (c : t.ctxs = s.ctxs) (r : t.rings = s.rings) (b : t.blocks = s.blocks)
    (g : t.gangs = s.gangs) : Keeps s t :=
  ⟨c, r, b, fun _ _ k x hx hp => ⟨x, by rw [State.gang?, g]; exact hx, hp⟩⟩

theorem Keeps.refl (s : State) : Keeps s s := .of_eq rfl rfl rfl rfl

theorem Keeps.trans {s t u : State} (a : Keeps s t) (b : Keeps t u) : Keeps s u where
  ctxs := b.ctxs.trans a.ctxs
  rings := b.rings.trans a.rings
  blocks := b.blocks.trans a.blocks
  gang := fun p hp k g hg h => by
    obtain ⟨g', h1, h2⟩ := a.gang p hp k g hg h
    exact b.gang p hp k g' h1 h2

theorem Keeps.foldl {α : Type} {f : State → α → State} (hf : ∀ s x, Keeps s (f s x)) (l : List α) (s : State) :
    Keeps s (l.foldl f s) := by
  induction l generalizing s with
  | nil => exact .refl s
  | cons x r ih => exact (hf s x).trans (ih (f s x))

/-- Reservations of gangs changed, of some and not of others, and nothing else. -/
theorem Keeps.of_gangs {s : State} {h : Nat → Gang → Gang} (hh : ∀ k g, h k g = g ∨ ∃ f, ResvOnly f ∧ h k g = g.mapSplits f) :
    Keeps s { s with gangs := s.gangs.map fun e => (e.1, e.2.map fun g => h e.1 g) } where
  ctxs := rfl
  rings := rfl
  blocks := rfl
  gang := fun p hp k g hg hpg => by
    have hk : p (h k g) := by
      rcases hh k g with e | ⟨f, hf, e⟩
      · rw [e]; exact hpg
      · rw [e]; exact hp f g hf hpg
    refine ⟨h k g, ?_, hk⟩
    have go : ∀ t : Tab (Option Gang), tget none t k = some g →
        tget none (t.map fun e => (e.1, e.2.map fun g => h e.1 g)) k = some (h k g) := fun t ht => by
      induction t with
      | nil => exact absurd ht (by simp [tget])
      | cons e r ih =>
        obtain ⟨j, x⟩ := e
        simp only [List.map_cons, tget] at ht ⊢
        split at ht
        · next hj => rw [if_pos hj, ht, hj]; rfl
        · next hj => rw [if_neg hj]; exact ih ht
    exact go s.gangs hg

theorem keeps_clearLine (s : State) (line : Nat) : Keeps s (clearLine s line) :=
  .of_gangs fun _ _ => .inr ⟨_, .mapResv (Resv.dropLine line), rfl⟩

theorem keeps_clearCoreLine (s : State) (core line : Nat) : Keeps s (clearCoreLine s core line) := by
  refine Keeps.of_gangs (h := fun k g =>
    if (match s.block? (k / 16) with | some b => b.core == core | none => false) = true then
      g.mapSplits fun sp => sp.mapResv fun r => if r.core then r.dropLine (2 * line) else r
    else g) fun k g => ?_
  split_ifs
  · exact .inr ⟨_, .mapResv _, rfl⟩
  · exact .inl rfl

theorem keeps_chargeUser (s : State) (u a n : Nat) : Keeps s (chargeUser s u a n) := by
  unfold chargeUser
  dsimp only
  split <;> exact .of_eq rfl rfl rfl rfl

theorem keeps_writeBackL1 (s : State) (line : Nat) (x : L1Line) : Keeps s (writeBackL1 s line x) := keeps_chargeUser ..

theorem keeps_dropCopies (s : State) (line : Nat) (keep : Option Nat) : Keeps s (dropCopies s line keep) := by
  unfold dropCopies
  refine (Keeps.foldl (fun s e => ?_) _ s).trans (.of_eq rfl rfl rfl rfl)
  split
  · refine Keeps.trans ?_ (keeps_clearCoreLine ..)
    split
    · exact .of_eq rfl rfl rfl rfl
    · exact (keeps_writeBackL1 ..).trans (.of_eq rfl rfl rfl rfl)
  · exact .refl s

theorem keeps_recallOwned (s : State) (line : Nat) : Keeps s (recallOwned s line) := by
  refine Keeps.foldl (fun s e => ?_) _ s
  repeat' split
  all_goals first | exact .refl s | exact .of_eq rfl rfl rfl rfl | exact (keeps_writeBackL1 ..).trans (.of_eq rfl rfl rfl rfl)

theorem keeps_writeBytes (s : State) (a : Nat) (l : List Byte) : Keeps s (s.writeBytes a l) := by
  induction l generalizing s a with
  | nil => exact .refl s
  | cons b r ih =>
    have h : Keeps s (s.setByte a b) := .of_eq rfl rfl rfl rfl
    exact h.trans (ih (s.setByte a b) (a + 1))

theorem keeps_sectorRead (s : State) (sec : Nat) : Keeps s (sectorRead s sec).1 := by
  unfold sectorRead dramRead
  dsimp only
  repeat' split
  all_goals exact .of_eq rfl rfl rfl rfl

theorem keeps_writeSector (s : State) (a : Nat) (bs : List Byte) (sec : Nat) : Keeps s (writeSector s a bs sec) := by
  unfold writeSector
  dsimp only
  have go : ∀ x : State × Bool, Keeps s x.1 → ∀ line lo l sec, Keeps s (if x.2 = true then x.1 else
      clearLine (storeSector ((dropCopies x.1 (sec / 4) none).writeBytes lo l) sec) line) := fun x h line lo l sec => by
    split
    · exact h
    · have e (s : State) (sec : Nat) : Keeps s (storeSector s sec) := .of_eq rfl rfl rfl rfl
      exact ((h.trans (keeps_dropCopies ..)).trans (keeps_writeBytes ..)).trans ((e _ sec).trans (keeps_clearLine ..))
  refine go _ ?_ _ _ _ sec
  split
  · exact .of_eq rfl rfl rfl rfl
  · exact keeps_sectorRead s sec

theorem keeps_markDirty (s : State) (c a : Nat) : Keeps s (markDirty s c a) := by
  unfold markDirty
  split
  · exact .refl s
  · dsimp only
    split
    · exact .foldl (fun s sec => keeps_writeSector s _ _ sec) _ s
    · exact .refl s

theorem keeps_writeLoc (s : State) (l : Loc) (i n v : Nat) : Keeps s (s.writeLoc l i n v) := by
  induction n generalizing s i v with
  | zero => exact .refl s
  | succ n ih =>
    refine Keeps.trans ?_ (ih (s.setLbyte l i _) (i + 1) (v / 256))
    unfold State.setLbyte
    split <;> exact .of_eq rfl rfl rfl rfl

theorem keeps_writeElem (s : State) (l : Loc) (size v : Nat) : Keeps s (writeElem s l size v) := by
  have h := (keeps_writeLoc s l 0 size v).trans (keeps_clearLine _ l.line)
  unfold writeElem
  dsimp only
  split
  · exact h
  · exact h.trans (keeps_markDirty ..)

theorem keeps_writeWords (add : Option Ty) (l : List CopyWord) (s : State) : Keeps s (writeWords add s l) := by
  induction l generalizing s with
  | nil => exact .refl s
  | cons x r ih =>
    refine Keeps.trans (Keeps.trans ?_ (keeps_writeElem ..)) (ih _)
    have h : Keeps s (readWord s x).1 := by
      unfold readWord
      repeat' split
      all_goals first | exact .refl s | exact keeps_recallOwned ..
    split
    · exact h
    · exact h.trans (keeps_dropCopies ..)

theorem keeps_settleCmd (s : State) (u : Nat) (c : Cmd) : Keeps s (settleCmd s u c) := by
  unfold settleCmd
  exact (Keeps.foldl (fun s (x : Nat × List CopyWord) => keeps_writeWords _ x.2 s) c.todo s).trans (.of_eq rfl rfl rfl rfl)

theorem keeps_settleCmds (s : State) (n : Nat) : Keeps s (settleCmds s n) :=
  .foldl (fun s (e : Nat × Cmd) => keeps_settleCmd s e.1 e.2) _ s

/-- Entries leave their queues: only the times of the queues change (R167). -/
theorem departs_only {s t : State} {f : Nat → Bool} (h : departs s f = t) : ∃ x, t = { s with leftAt := x } := by
  subst h
  unfold departs
  generalize placesNow s = all
  dsimp only
  generalize all.filter _ = l
  suffices h : ∀ (l : List (Nat × Nat × Place)) (t : State), (∃ x, t = { s with leftAt := x }) → ∃ x, l.foldl (fun t e =>
      let q := queueOf s e.2.1 e.2.2.sec e.2.2.stage
      if all.any fun x => !f x.1 && queueOf s x.2.1 x.2.2.sec x.2.2.stage == q &&
          (decide (x.2.2.since < e.2.2.since) || (x.2.2.since == e.2.2.since && decide (x.2.2.order < e.2.2.order))) then t
      else { t with leftAt := tput 0 t.leftAt q s.cycle }) t = { s with leftAt := x } from h l s ⟨s.leftAt, rfl⟩
  intro l
  induction l with
  | nil => exact fun t h => h
  | cons e r ih =>
    intro t ⟨x, ht⟩
    rw [List.foldl_cons]
    refine ih _ ?_
    dsimp only
    split
    · exact ⟨x, ht⟩
    · exact ⟨_, by rw [ht]⟩

/-- Requests bounced for a save: what changes is the requests and the times of the queues (R79, R388). -/
theorem bounceSwap_only (s : State) (f : Req → Bool) : ∃ x y, bounceSwap s f = { s with leftAt := x, reqs := y } := by
  unfold bounceSwap
  dsimp only
  generalize h : departs s _ = t
  obtain ⟨x, rfl⟩ := departs_only h
  exact ⟨_, _, rfl⟩

theorem bouncePeer_only (s : State) (n : Nat) : ∃ x y, bouncePeer s n = { s with leftAt := x, reqs := y } := by
  unfold bouncePeer
  split
  · exact ⟨_, _, rfl⟩
  · exact bounceSwap_only ..

theorem bounceRest_only (s : State) (n : Nat) : ∃ x y z, bounceRest s n = { s with leftAt := x, reqs := y, engOps := z } := by
  obtain ⟨x, y, e⟩ := bounceSwap_only s fun r => r.gang / 16 == n && r.space != .engine
  exact ⟨x, y, _, by rw [bounceRest, e]⟩

/-- The accesses of a block leave the queues (R167). -/
theorem clearWays_only (s : State) (n : Nat) : ∃ x z, clearWays s n = { s with
    leftAt := x, engOps := z,
    cmds := s.cmds.map fun e => (e.1, e.2.map fun c => if c.gang / 16 = n then { c with way := none } else c) } := by
  unfold clearWays
  generalize h : departs s _ = t
  obtain ⟨x, rfl⟩ := departs_only h
  exact ⟨_, _, rfl⟩

/-- Taking back a block's entries: only entries and the times of the queues change (R387, R388). -/
theorem saveEntries_only (s : State) (n : Nat) (ph : Phase) : ∃ x y z, saveEntries s n ph = { s with
    leftAt := x, reqs := y, engOps := z,
    cmds := s.cmds.map fun e => (e.1, e.2.map fun c => if c.gang / 16 = n then { c with way := none } else c) } := by
  unfold saveEntries
  split
  · obtain ⟨x, y, z, e⟩ := bounceRest_only s n
    obtain ⟨x', z', e'⟩ := clearWays_only (bounceRest s n) n
    rw [e', e]; exact ⟨_, _, _, rfl⟩
  · obtain ⟨x, y, e⟩ := bouncePeer_only s n
    obtain ⟨x', z', e'⟩ := clearWays_only (bouncePeer s n) n
    rw [e', e]; exact ⟨_, _, _, rfl⟩

/-- A block none of whose commands has a box that runs. -/
def BoxesDone (s : State) (n : Nat) : Prop := ∀ e ∈ tentries s.cmds, e.2.gang / 16 = n → e.2.running = []

theorem settleCmds_none (s : State) (n : Nat) (h : BoxesDone s n) : settleCmds s n = s := by
  unfold settleCmds
  rw [List.filter_eq_nil_iff.mpr fun e he => by
    by_cases hn : e.2.gang / 16 = n
    · simp [h e he hn]
    · simp [hn]]
  rfl

/-- No box of a block runs after its entries are taken back, if none ran before. -/
theorem BoxesDone.saveEntries {s : State} {n : Nat} (h : BoxesDone s n) (ph : Phase) : BoxesDone (saveEntries s n ph) n := by
  obtain ⟨x, y, z, e⟩ := saveEntries_only s n ph
  rw [e]
  intro i hi hn
  simp only [tentries, List.filterMap_map, List.mem_filterMap, Function.comp_apply, Option.map_map, Option.map_eq_some_iff] at hi
  obtain ⟨e, he, c, hc, rfl⟩ := hi
  have := h (e.1, c) (List.mem_filterMap.mpr ⟨e, he, by simp [hc]⟩)
  dsimp only at hn ⊢
  by_cases hc : c.gang / 16 = n
  · simpa [hc] using this hc
  · simp [hc] at hn

theorem freeArray_only (s : State) (n : Nat) (b : Block) : ∃ c, freeArray s n b = { s with core := c } := by
  unfold freeArray
  split <;> exact ⟨_, rfl⟩

theorem freeStores_only (s : State) (n : Nat) (b : Block) (img : Image) : ∃ c, freeStores s n b img = { s with core := c } := by
  obtain ⟨c, e⟩ := freeArray_only s n b
  unfold freeStores
  rw [e]
  exact ⟨_, rfl⟩

/-- A swap-out, in its parts: of a block that is out already only the phase changes, and what still stands in its array; else
its work settles, its image is kept and its stores are freed (R387). -/
theorem swapOut_cases (s : State) (n : Nat) (ph : Phase) :
    (swapOut s n ph = s ∧ s.block? n = none) ∨ ∃ b, s.block? n = some b ∧
      ((∃ c x y z, swapOut s n ph = { s with
          core := c, leftAt := x, reqs := y, engOps := z, blocks := tput none s.blocks n (some { b with phase := ph }) }) ∨
        ∃ c l u o img v, swapOut s n ph = { settleCmds (saveEntries s n ph) n with
            core := c, launches := l, aged := u, ahead := o, gangs := v,
            blocks := tput none (settleCmds (saveEntries s n ph) n).blocks n (some { b with phase := ph, image := some img }) } ∧
          ∃ t : State, t.gangs = (settleCmds (saveEntries s n ph) n).gangs ∧
            v = ((blockGangs b n).foldl (fun s k => s.modGang k clearResvs) t).gangs) := by
  unfold swapOut
  split
  · next h => exact .inl ⟨rfl, h⟩
  · next b h =>
    refine .inr ⟨b, h, ?_⟩
    split
    · refine .inl ?_
      have go : ∀ t : State, (∃ c, t = { s with core := c }) → ∃ c x y z,
          (if ph = .stopped then bounceRest t n else t).setBlock n { b with phase := ph } = { s with
            core := c, leftAt := x, reqs := y, engOps := z, blocks := tput none s.blocks n (some { b with phase := ph }) } := by
        rintro t ⟨c, rfl⟩
        split
        · obtain ⟨x, y, z, e⟩ := bounceRest_only { s with core := c } n
          rw [e]; exact ⟨_, _, _, _, rfl⟩
        · exact ⟨_, _, _, _, rfl⟩
      refine go _ ?_
      split
      · exact freeArray_only ..
      · exact ⟨_, rfl⟩
    · refine .inr ?_
      generalize settleCmds (saveEntries s n ph) n = t
      dsimp only
      have hd (f g) : ∃ u o, dropAhead (loseSlots t f) g = { t with aged := u, ahead := o } := ⟨_, _, rfl⟩
      obtain ⟨u, o, e⟩ := hd (entryOf t n) fun k _ => k / 16 == n
      rw [e]
      generalize captureImage _ n b = img
      obtain ⟨c, e⟩ := freeStores_only { t with aged := u, ahead := o } n b img
      rw [e]
      have hu (t : State) : ∃ l, unbar t b.ctx = { t with launches := l } := ⟨_, rfl⟩
      obtain ⟨l, e⟩ := hu (({ t with aged := u, ahead := o, core := c } : State).setBlock n { b with phase := ph, image := some img })
      rw [e]
      generalize hw : ({ State.setBlock _ _ _ with launches := l } : State) = w
      obtain ⟨v, hv⟩ := foldl_modGang_only (blockGangs b n) clearResvs w
      refine ⟨c, l, u, o, img, v, ?_, w, ?_, ?_⟩
      · rw [hv, ← hw]; rfl
      · rw [← hw]; rfl
      · rw [hv]

/-- Swapping a block out keeps contexts and rings (R387), and of a gang whatever does not depend on its reservations. -/
theorem swapOut_keeps (s : State) (n : Nat) (ph : Phase) : (swapOut s n ph).ctxs = s.ctxs ∧ (swapOut s n ph).rings = s.rings ∧
    ∀ (p : Gang → Prop), (∀ f g, ResvOnly f → p g → p (g.mapSplits f)) → ∀ k g, s.gang? k = some g → p g →
      ∃ g', (swapOut s n ph).gang? k = some g' ∧ p g' := by
  rcases swapOut_cases s n ph with ⟨e, -⟩ | ⟨b, -, ⟨c, x, y, z, e⟩ | ⟨c, l, u, o, img, v, e, t, ht, hv⟩⟩
  · rw [e]; exact ⟨rfl, rfl, fun _ _ k g hg h => ⟨g, hg, h⟩⟩
  · rw [e]; exact ⟨rfl, rfl, fun _ _ k g hg h => ⟨g, hg, h⟩⟩
  · have hk : Keeps s (settleCmds (saveEntries s n ph) n) := by
      refine Keeps.trans ?_ (keeps_settleCmds ..)
      obtain ⟨x, y, z, e⟩ := saveEntries_only s n ph
      rw [e]; exact .of_eq rfl rfl rfl rfl
    rw [e]
    refine ⟨hk.ctxs, hk.rings, fun p hp k g hg h => ?_⟩
    obtain ⟨g', h4, h5⟩ := hk.gang p hp k g hg h
    unfold State.gang? at h4
    rw [← ht] at h4
    have := foldl_modGang_gang (blockGangs b n) clearResvs p (fun g => hp _ g .noResv) t k g' h4 h5
    unfold State.gang? at this ⊢
    rw [← hv] at this
    exact this

/-- A block swapped out is in the phase it was sent to. -/
theorem swapOut_block (s : State) (n : Nat) (b : Block) (h : s.block? n = some b) (ph : Phase) :
    ∃ b', (swapOut s n ph).block? n = some b' ∧ b'.phase = ph := by
  rcases swapOut_cases s n ph with ⟨-, e⟩ | ⟨b', hb, ⟨c, x, y, z, e⟩ | ⟨c, l, u, o, img, v, e, -⟩⟩
  · rw [h] at e; contradiction
  · rw [e]
    exact ⟨_, tget_tput_self none _ n (some _), rfl⟩
  · rw [e]
    exact ⟨_, tget_tput_self none _ n (some _), rfl⟩

/-- Swapping a block out leaves memory as it is, but for what its running boxes still write (R387). -/
theorem swapOut_mem (s : State) (n : Nat) (ph : Phase) (h : BoxesDone s n) : (swapOut s n ph).mem = s.mem := by
  rcases swapOut_cases s n ph with ⟨e, -⟩ | ⟨b, -, ⟨c, x, y, z, e⟩ | ⟨c, l, u, o, img, v, e, -⟩⟩
  · rw [e]
  · rw [e]
  · rw [e, settleCmds_none _ n (h.saveEntries ph)]
    obtain ⟨x, y, z, e⟩ := saveEntries_only s n ph
    show (saveEntries s n ph).mem = _
    rw [e]

/-- TAKING A TRAP, whole (R379, R380): what `Trapped` says. -/
theorem takeTrap_trapped {s : State} {key : Nat} {g : Gang} {sp : Split} {b : Block} (hg : s.gang? key = some g)
    (hs : g.split? = some sp) (hb : s.block? g.block = some b) (cause sub : Nat) (aux : DWord) (lanes : Lanes)
    (addrs : List DWord) (skip : Option Nat) :
    Trapped s (takeTrap s key cause sub aux lanes addrs skip) key g b sp.pc cause sub aux lanes skip := by
  have e : takeTrap s key cause sub aux lanes addrs skip =
      (swapOut ((postRec s (ringOf s b.ctx)
        { gangRec s (ringOf s b.ctx) key g with cls := 0, cause, sub, aux, lanes, addrs }).setGang key
          { clearResvs g with stopped := some ⟨cause, sub, skip⟩, hold := .none, detail := detailOf cause sub lanes addrs })
        g.block (.swapped true false)).modCtx b.ctx fun c => { c with state := .trapped, ntrap := c.ntrap + 1 } := by
    simp only [takeTrap, hg, hb]
  obtain ⟨x, y, z, q, e1, hp⟩ := postRec_posted s (ringOf s b.ctx)
    { gangRec s (ringOf s b.ctx) key g with cls := 0, cause, sub, aux, lanes, addrs } (.inl Nat.zero_lt_two)
  rw [e1] at hp
  rw [e1] at e
  generalize hm : (({ s with rings := x, waits := y, gangs := z } : State).setGang key _) = m at e
  have hmc : m.ctxs = s.ctxs := by rw [← hm]; rfl
  have hmm : m.mem = s.mem := by rw [← hm]; rfl
  have hmb : m.block? g.block = some b := by rw [← hm]; exact hb
  have hmg : m.gang? key = some { clearResvs g with
      stopped := some ⟨cause, sub, skip⟩, hold := .none, detail := detailOf cause sub lanes addrs } := by
    rw [← hm]; exact setGang_gang_self ..
  have hc : ∀ i, (swapOut m g.block (.swapped true false)).ctx? i = s.ctx? i := fun i => by
    unfold State.ctx?; rw [(swapOut_keeps ..).1, hmc]
  have ht : ∀ (x : State) (f : Context → Context),
      (x.modCtx b.ctx f).mem = x.mem ∧ (x.modCtx b.ctx f).rings = x.rings ∧ (x.modCtx b.ctx f).gangs = x.gangs ∧
        (x.modCtx b.ctx f).blocks = x.blocks := fun x f => by
    unfold State.modCtx; split <;> exact ⟨rfl, rfl, rfl, rfl⟩
  rw [e]
  refine ⟨?_, ?_, ?_, ?_, ?_⟩
  · obtain ⟨g', h1, ⟨sp', h2, h3, h4⟩, h5⟩ := (swapOut_keeps m g.block (.swapped true false)).2.2
      (fun x => (∃ sp', x.split? = some sp' ∧ sp'.pc = sp.pc ∧ sp'.resv = none) ∧ x.regs = g.regs ∧ x.live = g.live ∧
        x.stopped = some ⟨cause, sub, skip⟩)
      (fun f x hf ⟨⟨sp', h1, h2, h3⟩, hx⟩ => by
        obtain ⟨q, hq, hn⟩ := hf sp'
        refine ⟨⟨f sp', by rw [mapSplits_split, h1]; rfl, ?_, hn h3⟩, hx⟩
        rw [hq]; exact h2) key _ hmg
      ⟨⟨sp.noResv, (mapSplits_split Split.noResv g).trans (by rw [hs]; rfl), rfl, rfl⟩, rfl, rfl, rfl⟩
    refine ⟨g', sp', ?_, h2, h3, h4, h5⟩
    rw [State.gang?, (ht _ _).2.2.1]; exact h1
  · obtain ⟨b', h1, h2⟩ := swapOut_block m g.block b hmb (.swapped true false)
    exact ⟨b', by rw [State.block?, (ht _ _).2.2.2]; exact h1, h2⟩
  · intro c h
    refine ⟨{ c with state := .trapped, ntrap := c.ntrap + 1 }, ?_, rfl, rfl⟩
    have : (swapOut m g.block (.swapped true false)).ctx? b.ctx = some c := by rw [hc, h]
    simp only [State.modCtx, this, setCtx_ctx_self]
  · have hr : ((swapOut m g.block (.swapped true false)).modCtx b.ctx
        fun c => { c with state := .trapped, ntrap := c.ntrap + 1 }).rings = x := by
      rw [(ht _ _).2.1, (swapOut_keeps ..).2.1, ← hm]; rfl
    obtain ⟨l, m, h1, h2, h3, h4, h5, h6, h7⟩ := hp
    refine ⟨{ gangRec s (ringOf s b.ctx) key g with
      cls := 0, cause, sub, aux, lanes, addrs, seq := q, dev := s.stamp }, ⟨l, m, h1, h2, h3, ?_, h5, h6, ?_⟩, by
        simp [gangRec, hb, hs, baseRec]⟩
    · unfold State.ring at h4 ⊢; rw [hr]; exact h4
    · unfold State.ring at h7 ⊢; rw [hr]; exact h7
  · intro hd a
    show tget _ _ _ = tget _ _ _
    rw [(ht _ _).1, swapOut_mem, hmm]
    intro e he
    exact hd e (by rw [← hm] at he; exact he)

/-- An instruction whose effect is a trap takes it, and nothing else happens. -/
theorem issue_trap {s : State} {key : Nat} {g : Gang} {sp : Split} {b : Block} {u : Use}
    (h : Issues s key g sp b) (c : Clear s key b g sp u) {size : Nat} {body : State → Nat → Gang → Split → State}
    {cause sub : Nat} {aux : DWord} {lanes : Lanes} {addrs : List DWord} {skip : Option Nat}
    (hb : body s key (stepGang s g sp) (stepWindows sp u) = takeTrap s key cause sub aux lanes addrs skip) :
    ∃ t, issue s u size body = .next t ∧ Trapped s t key g b sp.pc cause sub aux lanes skip := by
  refine ⟨_, issue_next h c, ?_⟩
  have ht := takeTrap_trapped h.gang h.split h.block cause sub aux lanes addrs skip
  obtain ⟨g', sp', h1, -, -, -, -, -, h2⟩ := ht.gang
  rw [hb, settleRead_stopped b.ctx h1 (by rw [h2]; rfl)]
  simpa using ht

end Sys2Proof.Machine
end

