-- ==== Sys2Proof/Laws/Uniform.lean ====
section
/-! SUPPORT. What the uniform operations give, said once for each shared operation (R185 to R188). -/

namespace Sys2Proof.Machine

/-- A local instruction that writes one uniform register gives it the value it computes. -/
theorem localOp_givesK {i : Instr} {size : Nat} {u : Use} {d : Nat} {f : State → Gang → Split → DWord}
    {post : State → Block → Gang → Split → DWord → Prop}
    (he : ∀ s, exec i s = localOp s u size fun s g sp => (g.kset d (f s g sp), sp))
    (hp : ∀ s key g sp b, Issues s key g sp b → post s b g sp (f s (stepGang s g sp) (stepWindows sp u))) :
    GivesK i size u d post := by
  intro s key g sp b h c
  obtain ⟨t, g', sp', ht, hg, hs, hf, hr⟩ :=
    localOp_completes h c size (fun s g sp => g.regs.kset d (f s g sp)) (vd := []) (kd := [d]) (md := [])
      (RegsKeep.kset ..) (by simp [Regs.kset]; split <;> rfl)
  refine ⟨t, g', sp', (he s).trans ht, hg, hs, hf, rfl, fun hd => ?_⟩
  have e : g'.regs.kget d = f s (stepGang s g sp) (stepWindows sp u) := by simp [hr, kget_kset, hd]
  simpa [e] using hp s key g sp b h

/-- A local instruction that writes one mask register gives it the value it computes. -/
theorem localOp_givesM {i : Instr} {size : Nat} {u : Use} {d : Nat} {f : Gang → Split → Lanes}
    {post : Gang → Split → Lanes → Prop}
    (he : ∀ s, exec i s = localOp s u size fun _ g sp => (g.mset d (f g sp), sp))
    (hp : ∀ s g sp, post g sp (f (stepGang s g sp) (stepWindows sp u))) :
    GivesM i size u d post := by
  intro s key g sp b h c
  obtain ⟨t, g', sp', ht, hg, hs, hf, hr⟩ :=
    localOp_completes h c size (fun _ g sp => g.regs.mset d (f g sp)) (vd := []) (kd := []) (md := [d])
      (RegsKeep.mset ..) (by simp [Regs.mset]; split <;> rfl)
  refine ⟨t, g', sp', (he s).trans ht, hg, hs, hf, rfl, fun hd => ?_⟩
  have e : g'.regs.mget d = f (stepGang s g sp) (stepWindows sp u) := by simp [hr, mget_mset, hd]
  simpa [e] using hp s g sp

/-- A uniform operation of two registers gives the result that its function satisfies. -/
theorem kOp_gives {i : Instr} {d a b : Nat} {f : DWord → DWord → DWord} {op : DWord → DWord → DWord → Prop}
    (he : ∀ s, exec i s = kOp s d a b f) (hp : ∀ x y, op x y (f x y)) : UniformOf2 i d a b op :=
  localOp_givesK (f := fun _ g _ => f (g.kget a) (g.kget b)) he fun _ _ _ _ _ _ => hp _ _

/-- A uniform operation with an immediate likewise. -/
theorem kOpImm_gives {i : Instr} {d a : Nat} {imm : BitVec 32} {f : DWord → DWord → DWord}
    {op : DWord → DWord → DWord → Prop}
    (he : ∀ s, exec i s = kOpImm s d a imm f) (hp : ∀ x y, op x y (f x y)) : UniformOfImm i d a imm op :=
  localOp_givesK (f := fun _ g _ => f (g.kget a) (sx32 imm)) he fun _ _ g _ _ _ => hp (g.kget a) (sx32 imm)

end Sys2Proof.Machine
end

