-- ==== Sys2Proof/Tests/Slice0.lean ====
section
/-! SUPPORT. Tests: ill-formed terms that the checks refuse, words of the spec that decode to their instructions, one step
of an instruction on a small state, and, for each statement, a state that meets its hypotheses. -/

open Sys2Proof Sys2Proof.Machine

namespace Sys2Proof.Tests

set_option Elab.async false

-- A small state: one gang of 64 lanes that issues next.

/-- The gang's state, with the gang changed by `f`. -/
def gangState (f : Gang → Gang) : State := (placeWord State.reset 16 0).modGang 16 f

/-- The state as it is. -/
def w0 : State := gangState id

/-- The state with the homes of some addresses ready. -/
def readyAt (s : State) (l : List Nat) : State :=
  { s with pf := { s.pf with ready := s.pf.ready ++ l.flatMap fun a => [.engine (36 + a / 256 % 4), .chan (channelOf a)] } }

/-- The state with every channel and every die store ready. -/
def allReady (s : State) : State :=
  { s with pf := { s.pf with ready := s.pf.ready ++ (List.range 4).map (fun i => .engine (36 + i)) ++ (List.range 512).map .chan } }

/-- The state with uniform registers set. -/
def kState (l : List (Nat × DWord)) : State := gangState fun g => l.foldl (fun g e => g.kset e.1 e.2) g

/-- The gang's current split changed. -/
def onSplit (f : Split → Split) (g : Gang) : Gang := match g.split? with | some sp => g.setSplit (f sp) | none => g

/-- The state with the current split changed. -/
def spState (f : Split → Split) : State := gangState (onSplit f)

/-- Whether nothing that an instruction names or needs stops it. -/
def clearB (s : State) (key : Nat) (b : Block) (g : Gang) (sp : Split) (u : Use) : Bool :=
  u.v.all (fun r => decide (r < b.need.vregs)) && (u.k.all (fun r => decide (r < b.need.kregs)) && ((!u.race || b.need.race) &&
  (decide (u.guard ≤ b.need.guards) && ((match u.scope with | some x => decide (scopeCode x ≤ policy s b) | none => true) &&
  ((u.count != 1 || decide (g.regs.lcnt < 63)) && ((u.count != 2 || decide (g.regs.scnt < 63)) &&
  ((!u.throttled || decide (replayCount s key < 16)) && ((!u.reads || coreReadReady s key sp) &&
  ((!u.arr || (decide ((s.array b.core).queue.length < 16) && !arrLate s b g)) &&
  ((!u.arrIdle || (arrTurn (s.array b.core) key sp && (!decide ((s.array b.core).queue = []) || !arrLate s b g))) &&
  ((!u.coll || (collective g sp && (decide (engPending s key = []) && depsDone s sp.ldDeps))) &&
  (sp.windows.all (fun w => w.done || (decide (0 < w.left) && (!u.close && !u.drain))) &&
  (!u.long || decide ((sp.windows.filter fun w => !w.done).length < 8))))))))))))))

theorem clearB_clear {s : State} {key : Nat} {b : Block} {g : Gang} {sp : Split} {u : Use} (h : clearB s key b g sp u = true) :
    Clear s key b g sp u := by
  simp only [clearB, Bool.and_eq_true] at h
  obtain ⟨a1, a2, a3, a4, a5, a6, a7, a8, a9, a10, a11, a12, a13, a14⟩ := h
  refine ⟨by simpa using a1, by simpa using a2, ?_, by simpa using a4, ?_, ?_, ?_, ?_, ?_, ?_, ?_, ?_, ?_, ?_⟩
  · intro e; simpa [e] using a3
  · intro x e; simpa [e] using a5
  · intro e; simpa [e] using a6
  · intro e; simpa [e] using a7
  · intro e; simpa [e] using a8
  · intro e; simpa [e] using a9
  · intro e; simpa [e] using a10
  · intro e
    simp only [e, Bool.not_true, Bool.false_or, Bool.and_eq_true] at a11
    exact ⟨a11.1, fun h => by simpa [h] using a11.2⟩
  · intro e; simpa [e] using a12
  · intro w hw e
    have := List.all_eq_true.mp a13 w hw
    simpa [e] using this
  · intro e; simpa [e] using a14

/-- In the state `s` a gang issues, what `u` says is at hand, and `p` holds of the gang, its split and its block. -/
def Meets (s : State) (u : Use) (p : Gang → Split → Block → Prop) : Prop :=
  ∃ key g sp b, Issues s key g sp b ∧ Clear s key b g sp u ∧ p g sp b

/-- The same, to be evaluated. -/
def meetsB (s : State) (u : Use) (p : Gang → Split → Block → Bool) : Bool :=
  match s.cur with
  | none => false
  | some key =>
    match s.gang? key with
    | none => false
    | some g =>
      match g.split?, s.block? g.block with
      | some sp, some b =>
        decide (key / 16 = g.block) && (decide (b.phase = .running) && (foreground s b && (decide (g.hold = .none) &&
          (decide (g.stopped = none) && (decide (sp.wait = .ready) && (clearB s key b g sp u && p g sp b))))))
      | _, _ => false

theorem meets {s : State} {u : Use} {p : Gang → Split → Block → Prop} (q : Gang → Split → Block → Bool)
    (h : meetsB s u q = true) (hp : ∀ g sp b, q g sp b = true → p g sp b) : Meets s u p := by
  unfold meetsB at h
  split at h
  · cases h
  · split at h
    · cases h
    · split at h
      · simp only [Bool.and_eq_true, decide_eq_true_eq] at h
        obtain ⟨c1, c2, c3, c4, c5, c6, c7, c8⟩ := h
        exact ⟨_, _, _, _, ⟨‹_›, ‹_›, c1, ‹_›, ‹_›, c2, c3, c4, c5, c6⟩, clearB_clear c7, hp _ _ _ c8⟩
      · cases h

/-- As `meets`, for a `p` that can be decided. -/
theorem meetsD {s : State} {u : Use} {p : Gang → Split → Block → Prop} [∀ g sp b, Decidable (p g sp b)]
    (h : meetsB s u (fun g sp b => decide (p g sp b)) = true) : Meets s u p :=
  meets _ h fun _ _ _ => of_decide_eq_true

/-- Nothing more is asked. -/
def any : Gang → Split → Block → Prop := fun _ _ _ => True

theorem meetsAny {s : State} {u : Use} (h : meetsB s u (fun _ _ _ => true) = true) : Meets s u any :=
  meets _ h fun _ _ _ _ => trivial

-- Witnesses: for each statement a state, and operands, that meet its hypotheses, each clause by itself.

theorem meets_UniformOperations : Meets w0 { k := [1, 2, 3] } any ∧ Meets w0 { k := [63, 0] } any ∧
    (∃ w, w < 2 ^ 64 ∧ w % 512 = 0x28 ∧ 12 ≤ w / 2 ^ 53 % 16) ∧ (∃ w, w < 2 ^ 64 ∧ w % 512 = 0x28 ∧ w / 2 ^ 53 % 16 = 3 ∧ w / 2 ^ 49 % 16 = 0) ∧
    ∃ w, w < 2 ^ 96 ∧ w % 512 = 0x2D ∧ w / 2 ^ 53 % 16 = 7 ∧ w / 2 ^ 49 % 16 = 0 ∧ 64 ≤ w / 2 ^ 64 :=
  ⟨meetsAny (by decide +kernel), meetsAny (by decide +kernel), ⟨0x28 + 12 * 2 ^ 53, by decide⟩, ⟨0x28 + 3 * 2 ^ 53, by decide⟩,
    ⟨0x2D + 7 * 2 ^ 53 + 64 * 2 ^ 64, by decide⟩⟩

theorem meets_MovesAndMasks : Meets w0 { v := [254, 255], k := [63] } any ∧ Meets w0 { k := [0] } any ∧ Meets w0 {} any ∧
    (∃ w, w < 2 ^ 64 ∧ w % 512 = 0x34 ∧ 6 ≤ w / 2 ^ 53 % 8) ∧
    (∃ w, w < 2 ^ 64 ∧ w % 512 = 0x34 ∧ w / 2 ^ 53 % 8 = 3 ∧ w / 2 ^ 33 % 256 ≠ 0) ∧
    ∃ w, w < 2 ^ 96 ∧ w % 512 = 0x25 ∧ w / 2 ^ 53 % 4 = 3 :=
  ⟨meetsAny (by decide +kernel), meetsAny (by decide +kernel), meetsAny (by decide +kernel), ⟨0x34 + 6 * 2 ^ 53, by decide⟩,
    ⟨0x34 + 3 * 2 ^ 53 + 2 ^ 33, by decide⟩, ⟨0x25 + 3 * 2 ^ 53, by decide⟩⟩

theorem meets_SystemRegisterReads : Meets w0 { k := [1] } (fun _ _ b => (w0.ctx? b.ctx).isSome = true) ∧
    Meets w0 { k := [1], race := true, arrIdle := true } (fun _ _ b => (w0.array b.core).queue = []) ∧
    Meets (w0.setArray 0 { w0.array 0 with queue := [.hold 16 1] }) { k := [1], race := true, arrIdle := true } (fun _ sp b =>
      ((w0.setArray 0 { w0.array 0 with queue := [.hold 16 1] }).array b.core).queue = [.hold 16 sp.uid]) :=
  ⟨meetsD (by decide +kernel), meetsD (by decide +kernel), meetsD (by decide +kernel)⟩

theorem meets_SystemRegisterWrites : Meets (kState [(1, 15)]) { k := [1] } (fun g _ _ => (g.kget 1).toNat ≤ 15) ∧
    Meets (kState [(1, 0xFFFFFFFF)]) { k := [1] } (fun g _ _ => (g.kget 1).toNat < 2 ^ 32) ∧
    Meets (kState [(1, 16)]) { k := [1] } (fun g _ _ => 15 < (g.kget 1).toNat) ∧
    Meets (kState [(1, 0x100000000)]) { k := [1] } (fun g _ _ => 2 ^ 32 ≤ (g.kget 1).toNat) ∧
    Meets w0 {} any ∧ Meets w0 { k := [1] } (fun _ _ b => (w0.ctx? b.ctx).isSome = true) :=
  ⟨meetsD (by decide +kernel), meetsD (by decide +kernel), meetsD (by decide +kernel), meetsD (by decide +kernel),
    meetsAny (by decide +kernel), meetsD (by decide +kernel)⟩

theorem meets_Branches : Meets w0 {} any ∧ Meets w0 { k := [1, 2] } any ∧
    Meets (kState [(60, 0x100)]) { k := [60] } (fun g _ _ => (g.kget 60).toNat % 4 = 0) ∧
    Meets (kState [(60, 0x102)]) { k := [60] } (fun g _ _ => (g.kget 60).toNat % 4 ≠ 0) :=
  ⟨meetsAny (by decide +kernel), meetsAny (by decide +kernel), meetsD (by decide +kernel), meetsD (by decide +kernel)⟩

/-- A gang whose split table is full, its splits of 8 lanes each, the first at address 0, with mask m1 on lanes 0 to 3. -/
def fullGang (deferred : Nat) (g : Gang) : Gang :=
  { g with
    splits := (List.range 8).map fun i => (i, some (firstSplit (i + 1) 0 (laneSet fun l => l / 8 == i))),
    deferred := (List.range deferred).map fun i => firstSplit (i + 20) 0 0,
    regs := g.regs.mset 1 0xF }

/-- The gang with mask m1 set. -/
def mState (m : Lanes) : State := gangState fun g => { g with regs := g.regs.mset 1 m }

theorem meets_Division :
    Meets (mState (BitVec.allOnes 64)) {} (fun g sp _ => sp.exm &&& g.mget 1 = sp.exm) ∧
    Meets (mState 0) {} (fun g sp _ => sp.exm &&& g.mget 1 ≠ sp.exm ∧ sp.exm &&& g.mget 1 = 0) ∧
    Meets (mState 5) {} (fun g sp _ => sp.exm &&& g.mget 1 ≠ sp.exm ∧ sp.exm &&& g.mget 1 ≠ 0 ∧
      tget none g.splits 1 = none ∧ ∀ i < 1, tget none g.splits i ≠ none) ∧
    Meets (gangState (fullGang 55)) {} (fun g sp _ => sp.exm &&& g.mget 1 ≠ sp.exm ∧ sp.exm &&& g.mget 1 ≠ 0 ∧
      (∀ i < 8, tget none g.splits i ≠ none) ∧ g.deferred.length < 56) ∧
    Meets (gangState (fullGang 56)) {} (fun g sp _ => sp.exm &&& g.mget 1 ≠ sp.exm ∧ sp.exm &&& g.mget 1 ≠ 0 ∧
      (∀ i < 8, tget none g.splits i ≠ none) ∧ 56 ≤ g.deferred.length) :=
  ⟨meetsD (by decide +kernel), meetsD (by decide +kernel), meetsD (by decide +kernel), meetsD (by decide +kernel),
    meetsD (by decide +kernel)⟩

theorem meets_MovxSleepWait : Meets w0 {} any ∧
    Meets (mState 3) {} (fun g sp _ => g.mget 1 &&& sp.lanes ≠ 0) ∧ Meets (mState 0) {} (fun g sp _ => g.mget 1 &&& sp.lanes = 0) ∧
    Meets (kState [(1, 3)]) { k := [1] } (fun g sp _ => g.kget 1 &&& sp.lanes ≠ 0) ∧
    Meets w0 { k := [1] } (fun g sp _ => g.kget 1 &&& sp.lanes = 0) ∧
    (∃ g sp, (spState fun sp => { sp with wait := .asleep 0 }).gang? 16 = some g ∧ tget none g.splits 0 = some sp ∧
      sp.wait = .asleep 0 ∧ 0 ≤ w0.cycle) ∧
    Meets w0 {} (fun g _ _ => g.regs.lcnt ≤ 0 ∧ g.regs.scnt ≤ 0) ∧
    Meets (gangState fun g => { g with regs := { g.regs with lcnt := 1 } }) {} (fun g _ _ => 0 < g.regs.lcnt) ∧
    Meets w0 {} (fun _ sp _ => sp.resv = none ∧ sp.spent = []) :=
  ⟨meetsAny (by decide +kernel), meetsD (by decide +kernel), meetsD (by decide +kernel), meetsD (by decide +kernel),
    meetsD (by decide +kernel), ⟨_, _, rfl, rfl, rfl, by decide⟩, meetsD (by decide +kernel), meetsD (by decide +kernel),
    meetsD (by decide +kernel)⟩

/-- Two siblings of 32 lanes each: the current one in entry 0, the other in entry 1, whose wait is `w`. -/
def pairGang (w : SplitWait) (g : Gang) : Gang :=
  { g with splits := [(0, some { firstSplit 1 0 0xFFFFFFFF with path := [⟨1, true⟩] }),
      (1, some { firstSplit 2 0x40 0xFFFFFFFF00000000 with path := [⟨1, false⟩], wait := w })] }

/-- The current split holds 64 lanes and EXM has the low 32 of them; mask m1 is `m`. -/
def heldGang (m : Lanes) (g : Gang) : Gang :=
  { g with splits := [(0, some { firstSplit 1 0 (BitVec.allOnes 64) with exm := 0xFFFFFFFF })], regs := g.regs.mset 1 m }

/-- The lanes that are active under mask `i`. -/
def act (g : Gang) (sp : Split) (i : Nat) : Lanes := sp.exm &&& g.mget i

/-- The only split of the siblings' side, of the table, satisfies `p`. -/
def oneSib (g : Gang) (sp : Split) (p : Nat → Split → Bool) : Bool :=
  decide (deferredSibs g sp = []) && match tableSibs g sp with | [(j, x)] => p j x | _ => false

theorem oneSib_spec {g : Gang} {sp : Split} {p : Nat → Split → Bool} (h : oneSib g sp p = true) :
    deferredSibs g sp = [] ∧ ∃ j x, tableSibs g sp = [(j, x)] ∧ p j x = true := by
  simp only [oneSib, Bool.and_eq_true, decide_eq_true_eq] at h
  refine ⟨h.1, ?_⟩
  have h2 := h.2
  split at h2
  · exact ⟨_, _, ‹_›, h2⟩
  · cases h2

theorem meets_MergingAndExiting : Meets w0 { close := true } (fun _ sp _ => sp.path = []) ∧
    Meets (gangState (pairGang .ready)) { close := true } (fun g sp _ => deferredSibs g sp = [] ∧
      ∃ j x, tableSibs g sp = [(j, x)] ∧ decide (x.wait ≠ .atMerge ∧ sp.chain.isPrefixOf x.chain = true) = true) ∧
    Meets (gangState (pairGang .atMerge)) { close := true } (fun g sp _ => deferredSibs g sp = [] ∧
      ∃ j x, tableSibs g sp = [(j, x)] ∧
        decide (j ≠ g.cur ∧ x.wait = .atMerge ∧ x.path = siblingPath sp.path ∧ x.chain = sp.chain) = true) ∧
    Meets (mState 0) { close := true } (fun g sp _ => sp.exm &&& g.mget 1 = 0) ∧
    Meets (mState 1) { close := true } (fun g sp _ =>
      act g sp 1 ≠ 0 ∧ sp.exm &&& ~~~(act g sp 1) ≠ 0 ∧ sp.lanes &&& ~~~(act g sp 1) ≠ 0 ∧ g.live &&& ~~~(act g sp 1) ≠ 0) ∧
    Meets (gangState (heldGang 0xFFFFFFFF)) { close := true } (fun g sp _ =>
      act g sp 1 ≠ 0 ∧ sp.exm &&& ~~~(act g sp 1) = 0 ∧ sp.lanes &&& ~~~(act g sp 1) ≠ 0 ∧ g.live &&& ~~~(act g sp 1) ≠ 0 ∧ sp.chain = []) ∧
    Meets w0 { close := true } (fun g sp _ =>
      act g sp 0 ≠ 0 ∧ sp.lanes &&& ~~~(act g sp 0) = 0 ∧ g.live &&& ~~~(act g sp 0) = 0 ∧ g.traps = []) ∧
    (∀ w ∈ [SplitWait.ready, .atMerge], meetsB (gangState (pairGang w)) { close := true } (fun g sp _ => decide (
      act g sp 0 ≠ 0 ∧ sp.lanes &&& ~~~(act g sp 0) = 0 ∧ g.live &&& ~~~(act g sp 0) ≠ 0 ∧ g.deferred = [] ∧ twf none g.splits = true ∧
      (tget none g.splits 1).all (fun x => decide (1 ≠ g.cur ∧ x.wait = w ∧ tableSibs g x = [(g.cur, sp)] ∧
        ∀ e ∈ g.splitList, e.2.wait = .atMerge → e.1 = 1)) = true)) = true) :=
  ⟨meetsD (by decide +kernel),
    meets (fun g sp _ => oneSib g sp fun _ x => decide (x.wait ≠ .atMerge ∧ sp.chain.isPrefixOf x.chain = true))
      (by decide +kernel) (fun _ _ _ h => oneSib_spec h),
    meets (fun g sp _ => oneSib g sp fun j x =>
        decide (j ≠ g.cur ∧ x.wait = .atMerge ∧ x.path = siblingPath sp.path ∧ x.chain = sp.chain))
      (by decide +kernel) (fun _ _ _ h => oneSib_spec h),
    meetsD (by decide +kernel), meetsD (by decide +kernel), meetsD (by decide +kernel), meetsD (by decide +kernel), by decide +kernel⟩

/-- The state with a second gang in the block, of key 17. -/
def twoState (f : Gang → Gang) (h : Gang → Gang) : State :=
  ((gangState f).setBlock 1 { testBlock with ngangs := 2 }).setGang 17 (h { testGang 1 with idx := 1 })

/-- Two gangs that joined crew 3 in cycle 5, of which the second waits as `w` says. -/
def crewOf (w : SplitWait) : State :=
  (twoState id (onSplit fun sp => { sp with wait := w })).setCrew (crewKey testBlock 3) { crewDefault with members := [(16, 0, 5), (17, 0, 5)] }

theorem meets_Barriers :
    (Meets (twoState id id) { close := true } (fun g _ _ => g.deferred = [] ∧ 17 ∈ (twoState id id).gangsOf 1) ∧
      ∃ h, (twoState id id).gang? 17 = some h ∧ arrivedBar h = false) ∧
    Meets (twoState id (onSplit fun sp => { sp with wait := .atBar })) { close := true } (fun g _ _ => g.deferred = [] ∧
      16 ∈ (twoState id (onSplit fun sp => { sp with wait := .atBar })).gangsOf g.block ∧
      (∀ e ∈ g.splitList, e.1 ≠ g.cur → e.2.wait = .atBar) ∧
      ∀ k ∈ (twoState id (onSplit fun sp => { sp with wait := .atBar })).gangsOf g.block, k ≠ 16 →
        ((twoState id (onSplit fun sp => { sp with wait := .atBar })).gang? k).all (fun h => arrivedBar h) = true) ∧
    Meets (gangState fun g => { g with deferred := [firstSplit 5 0 0] }) { close := true } (fun g _ _ => g.deferred ≠ []) ∧
    Meets w0 {} any ∧
    Meets w0 { close := true } (fun g _ b => g.deferred = [] ∧ ∀ e ∈ (w0.crew (crewKey b 3)).members, e.1 ≠ 16) ∧
    (Meets (crewOf .ready) { close := true } (fun g _ b => g.deferred = [] ∧
        (crewOf .ready).crew (crewKey b 3) = { crewDefault with members := [(16, 0, 5), (17, 0, 5)] } ∧
        (5 : Nat) ≠ (crewOf .ready).cycle ∧ g.live ≠ 0 ∧ (g.splitList.map (·.1)) = [g.cur]) ∧
      ∃ h, (crewOf .ready).gang? 17 = some h ∧ arrivedCbar 3 h = false) ∧
    Meets (crewOf (.atCbar 3)) { close := true } (fun g _ b => g.deferred = [] ∧ g.live ≠ 0 ∧
      (g.splitList.map (·.1)) = [g.cur] ∧
      (crewOf (.atCbar 3)).crew (crewKey b 3) = { crewDefault with members := [(16, 0, 5), (17, 0, 5)] } ∧
      memberArrived (crewOf (.atCbar 3)) 3 17 = true) :=
  ⟨⟨meetsD (by decide +kernel), ⟨_, rfl, rfl⟩⟩, meetsD (by decide +kernel), meetsD (by decide +kernel), meetsAny (by decide +kernel),
    meetsD (by decide +kernel), ⟨meetsD (by decide +kernel), ⟨_, rfl, rfl⟩⟩, meetsD (by decide +kernel)⟩

/-- The state with the block's needs changed. -/
def needState (f : Need → Need) : State := w0.modBlock 1 fun b => { b with need := f b.need }

theorem meets_Trapping : Meets w0 { close := true } any ∧
    Meets (needState fun n => { n with kregs := 8 }) {} (fun _ sp b => (∀ w ∈ sp.windows, w.done = true) ∧ b.need.kregs ≤ 8) ∧
    Meets (needState fun n => { n with vregs := 8 }) {} (fun _ sp b => (∀ w ∈ sp.windows, w.done = true) ∧ b.need.vregs ≤ 8 ∧
      Ty.wide .s32 = false) ∧
    Meets (needState fun n => { n with race := false }) {} (fun _ sp b => (∀ w ∈ sp.windows, w.done = true) ∧ b.need.race = false) ∧
    Meets (w0.setVf 0 { vfDefault with vpol := 3, vpart := 1 }) {} (fun _ sp b => (∀ w ∈ sp.windows, w.done = true) ∧
      policy (w0.setVf 0 { vfDefault with vpol := 3, vpart := 1 }) b < scopeCode .device) ∧
    Meets (gangState (pairGang .ready)) {} (fun g sp b => (∀ w ∈ sp.windows, w.done = true) ∧ 1 < b.need.kregs ∧ collective g sp = false) :=
  ⟨meetsAny (by decide +kernel), meetsD (by decide +kernel), meetsD (by decide +kernel), meetsD (by decide +kernel),
    meetsD (by decide +kernel), meetsD (by decide +kernel)⟩
/-- A frame for the effects of `set`, its handler at 0x80 with payload v20, token k10 and identity k11. -/
def frameOf (set : DWord) : Frame := ⟨set, 0x80, 20, 10, 11⟩

/-- The state with handler frames. -/
def frameState (fs : List Frame) : State := gangState fun g => { g with frames := fs }

theorem meets_HandlerStack :
    Meets w0 { v := [20], k := [10, 11, 12] } (fun g _ _ => wholeGang g = true ∧ g.frames.length < 64) ∧
    Meets (gangState (pairGang .ready)) { v := [20], k := [10, 11, 12] } (fun g _ _ => wholeGang g = false) ∧
    Meets (frameState (List.replicate 64 (frameOf 0))) { v := [20], k := [10, 11, 12] } (fun g _ _ =>
      wholeGang g = true ∧ 64 ≤ g.frames.length) ∧
    Meets (frameState [frameOf 0]) {} (fun g sp _ => wholeGang g = true ∧ g.frames ≠ [] ∧
      ∀ e ∈ sp.chain, ¬(e.frame ≤ g.frames.length - 1 ∧ g.frames.length - 1 < e.base)) ∧
    Meets w0 {} (fun g _ _ => wholeGang g = true ∧ g.frames = []) :=
  ⟨meetsD (by decide +kernel), meetsD (by decide +kernel), meetsD (by decide +kernel), meetsD (by decide +kernel),
    meetsD (by decide +kernel)⟩

/-- What PERFORM of effect 20 by all lanes finds in a state with one frame, for a record 0 that is free. -/
abbrev performs (g : Gang) (sp : Split) (b : Block) : Prop :=
  act g sp 0 ≠ 0 ∧ g.frames[0]? = some (frameOf 0x100000) ∧ (frameOf 0x100000).set.getLsbD 20 = true ∧ shadowed sp.chain 0 = false ∧
    g.frames.length = 1 ∧ badWindow b.need (g.kget 3) = false ∧ tget none g.recs 0 = none

theorem meets_Performing :
    Meets (mState 0) { v := [4, 5], k := [3], close := true } (fun g sp _ => act g sp 1 = 0) ∧
    Meets w0 { v := [4, 5], k := [3], close := true } (fun g sp _ => act g sp 0 ≠ 0 ∧
      ∀ (n : Nat) fr, g.frames[n]? = some fr → fr.set.getLsbD 20 = true → shadowed sp.chain n = true) ∧
    Meets (frameState [frameOf 0x100000]) { v := [4, 5], k := [3], close := true } performs ∧
    (∀ g sp b, performs g sp b → ∀ (n : Nat) fr, 0 < n → g.frames[n]? = some fr → fr.set.getLsbD 20 = true → shadowed sp.chain n = true) ∧
    TokKind.many ≠ .none :=
  ⟨meetsD (by decide +kernel), meets (fun g sp _ => decide (act g sp 0 ≠ 0 ∧ g.frames = [])) (by decide +kernel)
      (fun _ _ _ h => ⟨(of_decide_eq_true h).1, fun n fr e => by rw [(of_decide_eq_true h).2] at e; simp at e⟩),
    meetsD (by decide +kernel),
    fun g sp b h n fr hn e => (by rw [List.getElem?_eq_none (by have := h.2.2.2.2.1; omega)] at e; cases e), by decide⟩

/-- A record of effect 20 of frame 0, whose continuation is all lanes at 0x48 with the result to v4. -/
def testRec (k : TokKind) : Rec :=
  { kind := k, id := 20, frame := 0, result := some 4,
    cont := ⟨0x48, BitVec.allOnes 64, BitVec.allOnes 64, BitVec.allOnes 64⟩, chain := [], savedV := [], savedK := [], resumes := 0, serial := 1 }

/-- The state with a record 0 and its token in k10. -/
def tokenState (k : TokKind) : State := gangState fun g => { g with
  recs := [(0, some (testRec k))], regs := g.regs.kset 10 (mkToken 0 g.tag (kindCode k) 0 1) }

theorem meets_Tokens :
    Meets (tokenState .one) { v := [5], k := [10], close := true } (fun g sp _ =>
      liveRec (tokenState .one) g (g.kget 10) = some (0, testRec .one) ∧ (testRec .one).result = some 4 ∧ (testRec .one).savedV = [] ∧
      (testRec .one).savedK = [] ∧ sp.lanes = (testRec .one).cont.lanes &&& g.live) ∧
    Meets w0 { v := [5], k := [10], close := true } (fun g _ _ => liveRec w0 g (g.kget 10) = none) ∧
    Meets (tokenState .many) { k := [10] } (fun g _ _ => liveRec (tokenState .many) g (g.kget 10) = some (0, testRec .many)) ∧
    Meets w0 { k := [3, 10] } (fun g _ _ => liveRec w0 g (g.kget 10) = none) :=
  ⟨meetsD (by decide +kernel), meetsD (by decide +kernel), meetsD (by decide +kernel), meetsD (by decide +kernel)⟩

/-- The token of record 0. -/
def token0 (g : Gang) : DWord := mkToken 0 g.tag 0 0 1

/-- A gang in an invocation of effect 20 in frame 1, frame 0 naming the effect too. -/
def fwdGang (g : Gang) : Gang :=
  onSplit (fun sp => { sp with chain := [⟨1, 2, token0 g, 20, (testRec .one).cont⟩] }) { g with
    frames := [frameOf 0x100000, frameOf 0x100000], recs := [(0, some { testRec .one with frame := 1 })], regs := g.regs.kset 10 (token0 g) }

theorem meets_Forwarding : Meets (gangState fwdGang) { v := [20], k := [10], close := true } (fun g sp _ =>
    sp.chain.getLast? = some ⟨1, 2, token0 g, 20, (testRec .one).cont⟩ ∧ sp.exm = (testRec .one).cont.perf &&& g.live ∧
    g.kget 10 = token0 g ∧ liveRec (gangState fwdGang) g (token0 g) = some (0, { testRec .one with frame := 1 }) ∧
    searchFrame g.frames sp.chain.dropLast 20 (min 1 g.frames.length) = some 0 ∧ g.frames[0]? = some (frameOf 0x100000)) :=
  meetsD (by decide +kernel)

/-- The state with one pending effect of all lanes. -/
def effState (id : Nat) (fs : List Frame) : State :=
  gangState fun g => onSplit (fun sp => { sp with eff := [⟨id, BitVec.allOnes 64, vzero, false⟩] }) { g with frames := fs }

/-- The current gang and its split at the boundary, with one pending effect. -/
def effMeets (s : State) (p : Gang → Split → PendEff → Bool) : Bool :=
  match s.gang? 16 with
  | none => false
  | some g => match g.split?, s.block? g.block with
    | some sp, some _ => atBoundary s g sp && (match sp.eff with | [e] => p g sp e | _ => false)
    | _, _ => false

theorem effMeets_spec {s : State} {p : Gang → Split → PendEff → Bool} (h : effMeets s p = true) :
    ∃ g sp b e, s.gang? 16 = some g ∧ g.split? = some sp ∧ s.block? g.block = some b ∧ atBoundary s g sp = true ∧ sp.eff = [e] ∧
      p g sp e = true := by
  unfold effMeets at h
  split at h
  · cases h
  · split at h
    · rw [Bool.and_eq_true] at h
      have h2 := h.2
      split at h2
      · exact ⟨_, _, _, _, ‹_›, ‹_›, ‹_›, h.1, ‹_›, h2⟩
      · cases h2
    · cases h

theorem meets_SystemEffects :
    effMeets ((effState 1 []).modGang 16 fun g => { g with sched := { g.sched with raised := [1] } })
      (fun g sp e => decide (e.id = 1 ∧ sp.uid ∈ g.sched.raised)) = true ∧
    (∀ i ∈ [1, 2, 3, 4], effMeets (effState i []) (fun g sp e => decide (e.id = i ∧ sp.uid ∉ g.sched.raised ∧ sp.exm ≠ 0 ∧
      e.lanes &&& sp.lanes ≠ 0 ∧ searchFrame g.frames sp.chain i g.frames.length = none ∧ g.traps = [])) = true) ∧
    effMeets ((effState 2 []).modGang 16 (onSplit fun sp => { sp with chain := [⟨0, 1, 0, 20, ⟨0x48, sp.exm, sp.lanes, sp.exm⟩⟩] })) (fun g sp e =>
      decide (e.id = 2 ∧ sp.chain ≠ [] ∧ searchFrame g.frames sp.chain 2 g.frames.length = none ∧ g.traps = [])) = true ∧
    (∀ i ∈ [1, 2, 3, 4], effMeets (effState i [frameOf (dw (2 ^ i))]) (fun g sp e => decide (e.id = i ∧ sp.exm ≠ 0 ∧
      e.lanes &&& sp.lanes ≠ 0 ∧ searchFrame g.frames sp.chain i g.frames.length = some 0 ∧
      g.frames[0]? = some (frameOf (dw (2 ^ i))) ∧ freeRecord g = some 0)) = true) ∧
    (((effState 4 []).ring (ringOf (effState 4 []) 0)).pend.length < 64 ∧ (effState 3 []).ctx? 0 = some { freshCtx with parts := 1 }) := by
  decide +kernel

theorem meets_VectorArithmetic : Meets w0 { v := [4, 6, 8, 5, 7, 9] } any ∧
    ∃ w, w < 2 ^ 64 ∧ w % 512 = 0xD0 ∧ w / 2 ^ 56 % 2 = 1 ∧ w / 2 ^ 53 % 8 = 2 :=
  ⟨meetsAny (by decide +kernel), ⟨0xD0 + 2 ^ 56 + 2 * 2 ^ 53, by decide⟩⟩

theorem meets_VectorImmediates : Meets w0 { v := [4, 5, 254, 255] } any := meetsAny (by decide +kernel)
theorem meets_VectorShifts : Meets w0 { v := [4, 5, 6, 7, 8, 9] } any := meetsAny (by decide +kernel)
theorem meets_VectorBits : Meets w0 { v := [4, 5, 6, 7] } any := meetsAny (by decide +kernel)

theorem meets_VectorCompareSelect : Meets w0 { v := [4, 5, 6] } any ∧ Meets w0 { v := [4], k := [5] } any ∧ Ty.s64.shape.2 = 1 :=
  ⟨meetsAny (by decide +kernel), meetsAny (by decide +kernel), rfl⟩

theorem meets_FloatArithmetic : Meets w0 { v := [4, 5, 6, 7] } any ∧ Ty.wide .f16x2 = false := ⟨meetsAny (by decide +kernel), rfl⟩

theorem meets_RoundsToNearest : fmtF16 ∈ [fmtF32, fmtF16, fmtBf16, fmtE5M2] ∧ (0 : Nat) < 1 ∧ (0 : Nat) < 3 ∧
    (roundTo fmtF16 .rne false false false 1 3).2.testBit 2 = false := by
  refine ⟨by simp, ?_⟩
  decide +kernel

theorem meets_FloatArithmeticRules : (0 : Nat) < 3 ∧ (0 : Nat) < 1 := by decide

theorem meets_FloatOthers : Meets w0 { v := [4, 5] } any ∧ Meets w0 { v := [4, 5], k := [3] } any ∧ Ty.wide .e4m3x4 = false ∧
    1 < Ty.f16x2.shape.2 ∧ Meets w0 { k := [3], drain := true } any :=
  ⟨meetsAny (by decide +kernel), meetsAny (by decide +kernel), rfl, by decide, meetsAny (by decide +kernel)⟩

/-- A long-latency instruction in flight, of number 7, with one value and one flag. -/
def testLong : LongOp := { gang := 16, split := 1, vs := [(4, 63, 5)], ks := [], flags := [(63, 1)], en := 0, array := false }

/-- The state with the instruction in flight. -/
def longState : State := w0.setLong 7 (some testLong)

theorem meets_FloatLongLatency : Meets w0 { v := [4, 5, 6], long := true } any ∧ Meets w0 { v := [4, 5], k := [3], long := true } any ∧
    longState.long? 7 = some testLong ∧ testLong.array = false ∧ longState.gang? testLong.gang = some (testGang 1) ∧
    (∀ e ∈ testLong.vs, e.2.1 < 64 ∧ inLanes (BitVec.allOnes 64) e.2.1 = true) ∧ (testLong.vs.map fun e => (e.1, e.2.1)).Nodup :=
  ⟨meetsAny (by decide +kernel), meetsAny (by decide +kernel), rfl, rfl, by decide +kernel, by decide +kernel, by decide⟩

theorem meets_CrossLane : Meets w0 { v := [4, 5, 6, 7] } any ∧ Meets w0 { v := [4], k := [3] } any ∧
    Meets w0 { v := [4, 6, 7], long := true } (fun g sp _ => activeLanes g sp ⟨0, false⟩ ≠ 0) ∧ LaneOut.idx ≠ .rank :=
  ⟨meetsAny (by decide +kernel), meetsAny (by decide +kernel), meetsD (by decide +kernel), by decide⟩

theorem meets_Reductions : Meets w0 { v := [4, 6], long := true } (fun g sp _ => 5 < 6 ∧ activeLanes g sp ⟨0, false⟩ ≠ 0) ∧
    [1, 2, 3, 4].length = 2 ^ 2 ∧ ∀ v ∈ [1, 2, 3, 4], v < 2 ^ Ty.n32.shape.1 :=
  ⟨meetsD (by decide +kernel), by decide⟩

/-- Two slots for a pair word. -/
def slotA : PairSlot := ⟨⟨0, false⟩, .vadd false, .s32, 5, 8, 10, 0⟩
def slotB : PairSlot := ⟨⟨0, false⟩, .vadd false, .s32, 6, 8, 11, 0⟩

theorem meets_PairWord : Meets w0 { v := slotA.d :: slotB.d :: (slotA.reads ++ slotB.reads) } (fun _ _ _ => slotA.t.wide = false ∧
    slotB.t.wide = false ∧ slotA.d ≠ slotB.d) := meetsD (by decide +kernel)


-- Memory instructions.

/-- The state with k5 as a base address, a second page absent at stage 0, and no lane in m1. -/
def addrState (a : Nat) : State :=
  let s := gangState fun g => { g with regs := (g.regs.kset 5 (dw a)).mset 1 0 }
  { s with tlb := tput none s.tlb (tlbKey 0 0 2) (some (.absent 0 0x20000 true true true)) }

/-- What a check answers: a place, a page to be walked, an absent page, a failure. -/
def chkKind : Chk → Nat
  | .ok _ => 0
  | .miss _ => 1
  | .absent 0 _ => 2
  | .absent 1 _ => 2
  | .absent _ _ => 4
  | .bad _ => 3

/-- States that meet the hypotheses of every case of a memory instruction. A uniform one always has its element. -/
structure MeetsSends (u : Use) (rq : Gang → Split → Req) : Prop where
  ok : Meets (addrState 0) u fun g sp b => (rq g sp).elems ≠ [] ∧
    ∀ e ∈ (rq g sp).elems, ∃ l, chkOf (addrState 0) b (rq g sp) e = .ok l
  fails : Meets (addrState 1) u fun g sp b => ∃ e sub, (rq g sp).elems[0]? = some e ∧ chkOf (addrState 1) b (rq g sp) e = .bad sub ∧
    ∀ x ∈ g.splitList.map (·.2) ++ g.deferred, x.uid = sp.uid → x = sp
  misses : Meets (addrState 0x10000) u fun g sp b => (∀ e ∈ (rq g sp).elems, ∀ x, chkOf (addrState 0x10000) b (rq g sp) e ≠ .bad x) ∧
    ∃ e ∈ (rq g sp).elems, ∃ v, chkOf (addrState 0x10000) b (rq g sp) e = .miss v
  absents : Meets (addrState 0x20000) u fun g sp b => (∀ e ∈ (rq g sp).elems, ∀ x, chkOf (addrState 0x20000) b (rq g sp) e ≠ .bad x) ∧
    (∀ e ∈ (rq g sp).elems, ∀ v, chkOf (addrState 0x20000) b (rq g sp) e ≠ .miss v) ∧
    ∃ e ∈ (rq g sp).elems, ∃ st pg, st < 2 ∧ chkOf (addrState 0x20000) b (rq g sp) e = .absent st pg

/-- The elements all answer as `k` says. -/
def allKind (s : State) (rq : Gang → Split → Req) (k : Nat) (g : Gang) (sp : Split) (b : Block) : Bool :=
  match (rq g sp).elems with
  | [] => false
  | e :: l => (e :: l).all (fun e => chkKind (chkOf s b (rq g sp) e) == k) &&
    (g.splitList.map (·.2) ++ g.deferred).all fun x => x.uid != sp.uid || decide (x = sp)

theorem chk_kind {c : Chk} {k : Nat} (h : chkKind c = k) : (k = 0 → ∃ l, c = .ok l) ∧ (k = 1 → ∃ v, c = .miss v) ∧
    (k = 2 → ∃ st pg, st < 2 ∧ c = .absent st pg) ∧ (k = 3 → ∃ x, c = .bad x) ∧ (k ≠ 3 → ∀ x, c ≠ .bad x) ∧
    (k ≠ 1 → ∀ v, c ≠ .miss v) := by
  subst h
  cases c with
  | ok l => simp [chkKind]
  | miss v => simp [chkKind]
  | bad x => simp [chkKind]
  | absent st pg =>
    match st with
    | 0 => simp [chkKind]
    | 1 => simp [chkKind]
    | _ + 2 => simp [chkKind]

theorem allKind_spec {s : State} {rq : Gang → Split → Req} {k : Nat} {g : Gang} {sp : Split} {b : Block}
    (h : allKind s rq k g sp b = true) : (∀ e ∈ (rq g sp).elems, chkKind (chkOf s b (rq g sp) e) = k) ∧
    (∃ e, (rq g sp).elems[0]? = some e ∧ e ∈ (rq g sp).elems) ∧
    ∀ x ∈ g.splitList.map (·.2) ++ g.deferred, x.uid = sp.uid → x = sp := by
  unfold allKind at h
  split at h
  · cases h
  · rename_i e l hl
    simp only [Bool.and_eq_true, List.all_eq_true, beq_iff_eq, Bool.or_eq_true, bne_iff_ne, decide_eq_true_eq] at h
    exact ⟨hl ▸ h.1, ⟨e, by simp [hl]⟩, fun x hx e => (h.2 x hx).resolve_left fun n => n e⟩

theorem meetsSends {u : Use} {rq : Gang → Split → Req} (h0 : meetsB (addrState 0) u (allKind (addrState 0) rq 0) = true)
    (h1 : meetsB (addrState 1) u (allKind (addrState 1) rq 3) = true)
    (h2 : meetsB (addrState 0x10000) u (allKind (addrState 0x10000) rq 1) = true)
    (h3 : meetsB (addrState 0x20000) u (allKind (addrState 0x20000) rq 2) = true) : MeetsSends u rq := by
  refine ⟨meets _ h0 fun g sp b h => ?_, meets _ h1 fun g sp b h => ?_, meets _ h2 fun g sp b h => ?_, meets _ h3 fun g sp b h => ?_⟩ <;>
    obtain ⟨a, ⟨e, e0, em⟩, c⟩ := allKind_spec h
  · exact ⟨by rintro n; simp [n] at em, fun e h => (chk_kind (a e h)).1 rfl⟩
  · obtain ⟨x, hx⟩ := (chk_kind (a e em)).2.2.2.1 rfl
    exact ⟨e, x, e0, hx, c⟩
  · exact ⟨fun e h => (chk_kind (a e h)).2.2.2.2.1 (by decide), e, em, (chk_kind (a e em)).2.1 rfl⟩
  · exact ⟨fun e h => (chk_kind (a e h)).2.2.2.2.1 (by decide), fun e h => (chk_kind (a e h)).2.2.2.2.2 (by decide),
      e, em, (chk_kind (a e em)).2.2.1 rfl⟩

/-- The operand k5. -/
def atK5 : MemArg := ⟨5, none, 0⟩
/-- No predicate; and m1, which holds no lane. -/
def pAll : Pred := ⟨0, false⟩
def pNone : Pred := ⟨1, false⟩

theorem meets_AccessesIssue :
    MeetsSends { v := vr .s32 4 ++ (memUse atK5).1, k := (memUse atK5).2, scope := some .gang, count := 1, throttled := true, long := true }
      (fun g sp => { blankReq with
        kind := .load true, dest := .vec 4 false, counted := 1,
        elems := laneElems (activeLanes g sp pAll) (effAddr g.regs atK5) 4 (fun _ => 0) (fun _ => 0) }) ∧
    MeetsSends { v := widthRegs .full .s32 4 ++ (memUse atK5).1, k := (memUse atK5).2, scope := some .gang, count := 2, throttled := true }
      (fun g sp => { blankReq with
        kind := .store, counted := 2,
        elems := laneElems (activeLanes g sp pAll) (effAddr g.regs atK5) 4 (fun l => dw (g.regs.lane .s32 4 l)) (fun _ => 0) }) ∧
    MeetsSends { k := [3, 5], scope := some .gang, count := 1, throttled := true, long := true }
      (fun g _ => { blankReq with
        uni := true, kind := .load true, dest := .uni 3, counted := 1,
        elems := uniElem (g.kget 5 + sx32 0) 4 0 0 }) ∧
    MeetsSends { k := [3, 5], scope := some .gang, count := 2, throttled := true }
      (fun g _ => { blankReq with
        uni := true, kind := .store, counted := 2, elems := uniElem (g.kget 5 + sx32 0) 4 (g.kget 3) 0 }) ∧
    MeetsSends { v := atomRegs .add .s32 4 ++ (memUse atK5).1, k := (memUse atK5).2, scope := some .gang, count := 1, throttled := true, long := true }
      (fun g sp => { blankReq with
        kind := .atom .add .s32 true, dest := .vec 4 false, counted := 1,
        elems := laneElems (activeLanes g sp pAll) (effAddr g.regs atK5) 4 (fun l => dw (g.regs.lane .s32 4 l))
          (fun l => dw (g.regs.lane .s32 4 l)) }) ∧
    MeetsSends { k := [3, 5] ++ [3 + 1], scope := some .gang, count := 1, throttled := true, long := true }
      (fun g _ => { blankReq with
        uni := true, kind := .atom .cas .s32 true, dest := .uni 3, counted := 1,
        elems := uniElem (g.kget 5 + sx32 0) 4 (g.kget 4) (g.kget 3) }) ∧
    MeetsSends { v := vr .s32 4 ++ (memUse atK5).1, k := (memUse atK5).2, scope := some .gang, count := 1, throttled := true, long := true }
      (fun g sp => { blankReq with
        kind := .lr, dest := .vec 4 false, counted := 1,
        elems := laneElems (activeLanes g sp pAll) (effAddr g.regs atK5) 4 (fun _ => 0) (fun _ => 0) }) ∧
    MeetsSends { v := 4 :: vr .s32 6 ++ (memUse atK5).1, k := (memUse atK5).2, scope := some .gang, count := 1, throttled := true, long := true }
      (fun g sp => { blankReq with
        kind := .sc, dest := .vec 4 false, counted := 1,
        elems := laneElems (activeLanes g sp pAll) (effAddr g.regs atK5) 4 (fun l => dw (g.regs.lane .s32 6 l)) (fun _ => 0) }) ∧
    Meets (addrState 0) { v := vr .s32 4 ++ (memUse atK5).1, k := (memUse atK5).2, scope := some .gang, count := 1, throttled := true, long := true }
      (fun g sp _ => laneElems (activeLanes g sp pNone) (effAddr g.regs atK5) 4 (fun _ => 0) (fun _ => 0) = []) := by
  refine ⟨meetsSends ?_ ?_ ?_ ?_, meetsSends ?_ ?_ ?_ ?_, meetsSends ?_ ?_ ?_ ?_, meetsSends ?_ ?_ ?_ ?_, meetsSends ?_ ?_ ?_ ?_,
    meetsSends ?_ ?_ ?_ ?_, meetsSends ?_ ?_ ?_ ?_, meetsSends ?_ ?_ ?_ ?_, meetsD ?_⟩ <;> decide +kernel

/-- The state with the block changed. -/
def blockState (f : Block → Block) : State := w0.modBlock 1 f

/-- A request of the gang that has not performed. -/
def testReq (k : ReqKind) : Req :=
  { blankReq with
    gang := 16, split := 1, kind := k, dest := .vec 4 false, counted := 1, checked := true,
    elems := [{ lane := 0, ea := 0x40, loc := ⟨false, 0x40, 0x40, 0⟩, size := 4, data := 7, cmp := 0 }] }

/-- The state with the request 9 in flight. -/
def reqState (k : ReqKind) : State := w0.setReq 9 (some (testReq k))

/-- The state of which lane 0 alone is in m1, and one whose command 9 waits behind the guard 1 at the head of its stream. -/
def lineState : State := gangState fun g => { g with regs := (g.regs.kset 5 0x40).mset 1 1 }
def guardCmd : Cmd :=
  { gang := 16, split := 1, c0 := 0x40, c1 := 0x44, c3 := dw (2 ^ 44), shape := ⟨4, 1, 1, 0, 0, 0, 0⟩, prio := 0, deps := [], passed := false,
    started := false, running := [], boxes := [], failed := none, bounces := 0, bounced := false, cause := 0, since := 0, queued := false }
def guardState : State := w0.setCmd 9 (some guardCmd)

/-- The state with a GO of the gang that has not been decided. -/
def goState : State := w0.setReq 9 (some { testReq .store with
  space := .engine, uni := true, elems := [{ lane := 0, ea := 0x20, loc := ⟨false, 0x20, 0x20, 0⟩, size := 8, data := 7, cmp := 0 }] })

theorem meets_FencesTagsGuards :
    (Meets (reqState (.load true)) { scope := some .gang } any ∧ performedUid (reqState (.load true)) 9 = false) ∧
    Meets (addrState 0x10000) { v := (memUse atK5).1, k := (memUse atK5).2, throttled := true } (fun g sp b =>
      ∃ l < 64, inLanes (activeLanes g sp pAll) l = true ∧
        chkKind (checkGlobal (addrState 0x10000) b.core b.ctx true false (effAddr g.regs atK5 l)) = 1) ∧
    Meets lineState { v := (memUse atK5).1, k := (memUse atK5).2, throttled := true } (fun g sp b =>
      laneList (activeLanes g sp pNone) = [0] ∧
      checkGlobal lineState b.core b.ctx true false (effAddr g.regs atK5 0) = .ok ⟨false, 0x40, 0x40, 0⟩ ∧
      (homeReady lineState ⟨false, 0x40, 0x40, 0⟩ && !chanClosed lineState (channelOf 0x40)) = true ∧ lineState.aged = [] ∧
      waitersAt lineState (channelOf 0x40) = [] ∧ (lineState.mem.poison = [] ∧ lineState.mem.errors = []) ∧
      l1Room lineState b.core (0x40 / 128) = true) ∧
    (Meets goState { k := [3, 4] } any ∧ goPending goState 16 = true ∧ goPending w0 16 = false) ∧
    (∀ all : Bool, Meets (blockState fun b => { b with busy := 1, ready := 2 }) { k := [3, 4] } (fun g _ b =>
      let m := g.kget 4 &&& (b.busy ||| b.ready) &&& tagWindow b
      if all = true then b.ready &&& m = m else b.ready &&& m ≠ 0 ∨ m = 0)) ∧
    (∀ all : Bool, Meets ((kState [(4, 3)]).modBlock 1 fun b => { b with busy := 3 }) { k := [3, 4] } (fun g _ b =>
      let m := g.kget 4 &&& (b.busy ||| b.ready) &&& tagWindow b
      ¬(if all = true then b.ready &&& m = m else b.ready &&& m ≠ 0 ∨ m = 0))) ∧
    Meets w0 { k := [3, 4] } any ∧
    Meets ((kState [(4, 3)]).modBlock 1 fun b => { b with busy := 2, ready := 1 }) { k := [3, 4] } (fun g _ b =>
      (g.kget 4 &&& tagWindow b &&& b.ready).getLsbD 0 = true ∧ (g.kget 4 &&& tagWindow b &&& b.ready).getLsbD 1 = false) ∧
    (Meets w0 { k := [5], guard := 1 } any ∧ ∀ e ∈ tentries w0.cmds, e.2.gang ≠ 16) ∧
    (Meets guardState { guard := 1 } any ∧ (∀ e ∈ tentries guardState.cmds, e.2.gang = 16 → e.2.guard = 1 ∨ e.2.guard = 0) ∧
      guardState.cmd? 9 = some guardCmd ∧ guardCmd.guard = 1 ∧ atHead guardState 9 guardCmd = true ∧ guardCmd.op ≠ 2 ∧
      (tentries guardState.cmds).filter (fun e => e.2.gang == 16) = [(9, guardCmd)]) :=
  ⟨⟨meetsAny (by decide +kernel), by decide +kernel⟩, meetsD (by decide +kernel),
    meetsD (by decide +kernel), ⟨meetsAny (by decide +kernel), by decide +kernel⟩,
    fun all => by cases all <;> exact meetsD (by decide +kernel),
    fun all => by cases all <;> exact meetsD (by decide +kernel), meetsAny (by decide +kernel), meetsD (by decide +kernel),
    ⟨meetsAny (by decide +kernel), by decide +kernel⟩, meetsAny (by decide +kernel), by decide +kernel⟩

/-- The state with k5 as a base address, and the engine window's CMD registers written. -/
def winState (a : Nat) (w : Nat) : State :=
  gangState fun g => { g with regs := g.regs.kset 5 (dw a), win := { g.win with written := w } }

/-- The same, the engine queue of the gang's cluster full. -/
def fullState (a : Nat) (w : Nat) : State := let s := winState a w; { s with core := { s.core with engFull := [0] } }

/-- Nothing of the gang is outstanding, and the address is aligned. -/
abbrev winClear (s : State) (g : Gang) (sp : Split) : Prop :=
  pendingOf s 16 = [] ∧ chainOpen s 16 s.uid = false ∧ streamBounced s 16 < 4 ∧ sp.ldDeps = [] ∧ sp.stDeps = [] ∧
    (g.kget 5 + sx32 0).toNat % 8 = 0

/-- What a store to the window names, and a load. -/
def winSt : Use := { k := [3, 5], throttled := true }
def winLd : Use := { k := [3, 5], count := 1, throttled := true, long := true }

/-- The same, CMD3 written with `c`, on a block whose tags `busy` have commands. -/
def goTo (c : DWord) (busy : DWord) : State :=
  gangState (fun g => { g with regs := g.regs.kset 5 0x20, win := { g.win with cmd := [(1, 0x200), (3, c)], written := 15 } })
    |>.modBlock 1 fun b => { b with busy := busy }

theorem meets_EngineWindow :
    Meets (winState 0x40 0) winSt (fun g _ _ => 0x40 ≤ (g.kget 5 + sx32 0).toNat) ∧
    Meets (winState 0x4 0) winSt (fun g _ _ => (g.kget 5 + sx32 0).toNat % 8 ≠ 0) ∧
    Meets (winState 0x28 0) winSt (fun g _ _ => (g.kget 5 + sx32 0).toNat = 0x28) ∧
    Meets (winState 0x18 0) winSt (fun g sp _ => winClear (winState 0x18 0) g sp ∧ (g.kget 5 + sx32 0).toNat = 0x18) ∧
    Meets (winState 0x20 7) winSt (fun g sp _ => winClear (winState 0x20 7) g sp ∧ (g.kget 5 + sx32 0).toNat = 0x20 ∧ g.win.written ≠ 15 ∧
      goRoom (winState 0x20 7) 0 (winState 0x20 7).uid = true) ∧
    Meets (fullState 0x20 15) winSt (fun g sp b => winClear (fullState 0x20 15) g sp ∧ (g.kget 5 + sx32 0).toNat = 0x20 ∧
      goRoom (fullState 0x20 15) b.core (fullState 0x20 15).uid = false) ∧
    Meets (winState 0x20 15) winSt (fun g sp _ => winClear (winState 0x20 15) g sp ∧ (g.kget 5 + sx32 0).toNat = 0x20 ∧ g.win.written = 15 ∧
      goRoom (winState 0x20 15) 0 (winState 0x20 15).uid = true) ∧
    (∀ b ∈ [0, 1], Meets (goTo 3 b) winSt (fun g sp x => winClear (goTo 3 b) g sp ∧ (g.kget 5 + sx32 0).toNat = 0x20 ∧ g.win.written = 15 ∧
      goRoom (goTo 3 b) 0 (goTo 3 b).uid = true ∧ x.busy = b ∧ tget 0 g.win.cmd 3 = 3 ∧ tget 0 g.win.cmd 1 = 0x200 ∧
      3 ≤ policy (goTo 3 b) x ∧ 0 < x.need.tags)) ∧
    Meets (goTo 0x20000003 0) winSt (fun g sp _ => winClear (goTo 0x20000003 0) g sp ∧ (g.kget 5 + sx32 0).toNat = 0x20 ∧
      g.win.written = 15 ∧ tget 0 g.win.cmd 3 = 0x20000003) ∧ field 0x20000003 31 29 ≠ 0 ∧ field 0x20000003 3 0 = 3 ∧
    Meets (winState 0x40 0) winLd (fun g _ _ => 0x40 ≤ (g.kget 5 + sx32 0).toNat) ∧
    Meets (winState 0x38 0) winLd (fun g sp _ => winClear (winState 0x38 0) g sp ∧ (g.kget 5 + sx32 0).toNat < 0x40) ∧
    Meets (winState 0x18 0) winLd (fun g sp _ => winClear (winState 0x18 0) g sp ∧ (g.kget 5 + sx32 0).toNat < 0x20) := by
  refine ⟨meetsD ?_, meetsD ?_, meetsD ?_, meetsD ?_, meetsD ?_, meetsD ?_, meetsD ?_, ?_, meetsD ?_, ?_, ?_, meetsD ?_, meetsD ?_, meetsD ?_⟩
  all_goals try decide +kernel
  intro b h
  simp only [List.mem_cons, List.not_mem_nil, or_false] at h
  rcases h with rfl | rfl <;> exact meetsD (by decide +kernel)

/-- R112: the shape of a copy, and the fields of CMD3 that must be zero. -/
theorem meets_EngineWindow_valid : ¬Cmd3Bad (goTo 3 0) testBlock 3 ∧ PlacesValid (goTo 3 0) testBlock 3 0 0x200 0 ∧
    Cmd3Bad (goTo 3 0) testBlock 0x20000003 ∧ ¬PlacesValid (goTo 3 0) testBlock 3 0 0x201 0 := by
  refine ⟨?_, ?_, ?_, ?_⟩
  · unfold Cmd3Bad
    decide +kernel
  · unfold PlacesValid
    decide +kernel
  · unfold Cmd3Bad
    decide +kernel
  · unfold PlacesValid
    decide +kernel

/-- A store to GO at 0x20 with the four CMD registers holding `c`. -/
def goStatus (c : List (Nat × DWord)) : Option Nat :=
  match exec (.stk .full .s64 .plain .gang .engine ⟨5, none, 0⟩ 3)
    (gangState fun g => { g with regs := g.regs.kset 5 0x20, win := { g.win with cmd := c, written := 15 } }) with
  | .next t => (t.gang? 16).map fun g => bitsOf g.win.status 5 0
  | _ => none

/-- R110 to R112: a SIGNAL (OP 3) is accepted (bit 1); one with a source space is not (bit 4), nor is a COPY whose shape record is zero. -/
theorem test_go_decides : goStatus [(1, 0x200), (3, 3)] = some 2 ∧ goStatus [(1, 0x200), (3, 0x20000003)] = some 16 ∧
    goStatus [(3, 0)] = some 16 := by decide +kernel

-- What requests do when they perform.

theorem meets_StoresPerform : Performs (reqState .store) 9 4 (testReq .store) (testReq .store).elems ∧ (testReq .store).kind = .store := by
  refine ⟨⟨rfl, by decide, ?_, ?_, ?_, ?_⟩, rfl⟩ <;> decide +kernel

/-- The place of the test request's element. -/
def testLoc : Loc := ⟨false, 0x40, 0x40, 0⟩

/-- The set that an LR of number `lr` made at the test request's place, used by the SC `sc`. -/
def testResv (lr sc : Nat) : Resv := { lr := lr, core := false, elems := [(0, 0x40, testLoc)], sc := sc }

/-- The request 9 in flight, the split's reservation at its place, and a set that the request uses. -/
def resvState (k : ReqKind) : State := (spState fun sp => { sp with resv := some (testResv 9 0), spent := [testResv 8 9] }).setReq 9 (some (testReq k))

/-- The gang and the split of that state. -/
def resvSplit : Split := { firstSplit 1 0 (BitVec.allOnes 64) with resv := some (testResv 9 0), spent := [testResv 8 9] }
def resvGang : Gang := { testGang 1 with splits := [(0, some resvSplit)] }

/-- A load at CLUSTER scope of a sector that its gang has read early. -/
def aheadReq : Req := { testReq (.load true) with scope := .cluster }
def aheadState : State := { w0.setReq 9 (some aheadReq) with ahead := [⟨16, 4, List.replicate 32 3⟩] }

theorem meets_LoadsPerform_ahead : Performs aheadState 9 4 aheadReq aheadReq.elems ∧ aheadReq.elems.map (·.loc.sector) = [4] ∧
    aheadReq.ord = .plain ∧ scopeCode aheadReq.scope ≥ 2 := by
  refine ⟨⟨rfl, by decide, ?_, ?_, ?_, ?_⟩, ?_⟩ <;> decide +kernel

theorem meets_LoadsPerform :
    (Performs (resvState .sc) 9 4 (testReq .sc) (testReq .sc).elems ∧ (testReq .sc).elems.length = 1 ∧ (testReq .sc).returned = [] ∧
      ∃ g sp rv, (resvState .sc).gang? 16 = some g ∧ sp ∈ g.splitList.map (·.2) ++ g.deferred ∧ rv ∈ sp.spent ∧ rv.sc = 9 ∧
        (rv.core = true → Scope.atCore (testReq .sc).scope = true) ∧ ∃ x ∈ rv.elems, x.1 = 0 ∧ x.2.1 = 0x40 ∧ x.2.2.line = testLoc.line) ∧
    (Performs (reqState .sc) 9 4 (testReq .sc) (testReq .sc).elems ∧
      ∀ g, (reqState .sc).gang? 16 = some g → ∀ sp ∈ g.splitList.map (·.2) ++ g.deferred, sp.spent = []) ∧
    (Performs (reqState (.load true)) 9 4 (testReq (.load true)) (testReq (.load true)).elems ∧
      ∀ x ∈ tentries (reqState (.load true)).reqs, ¬x.1 < 9) ∧
    (Performs (resvState .lr) 9 4 (testReq .lr) (testReq .lr).elems ∧ ∃ g sp rv, (resvState .lr).gang? 16 = some g ∧
      g.split? = some sp ∧ sp.resv = some rv ∧ rv.lr = 9) := by
  refine ⟨⟨⟨rfl, by decide, ?_, ?_, ?_, ?_⟩, rfl, rfl, resvGang, resvSplit, testResv 8 9, rfl, ?_, List.Mem.head _, rfl, by decide,
      _, List.Mem.head _, rfl, rfl, rfl⟩,
    ⟨⟨rfl, by decide, ?_, ?_, ?_, ?_⟩, ?_⟩, ⟨⟨rfl, by decide, ?_, ?_, ?_, ?_⟩, ?_⟩,
    ⟨⟨rfl, by decide, ?_, ?_, ?_, ?_⟩, resvGang, resvSplit, _, rfl, rfl, rfl, rfl⟩⟩ <;> decide +kernel

/-- A state whose next turn is `t`. -/
def turnTo (s : State) (t : Turn) : State := { s with agenda := [t] }

/-- The state after its next step. -/
def afterStep (s : State) : State := match step s with | .next t => t | _ => s

/-- The host's port ready. -/
def hostState : State := { w0 with pf := { w0.pf with ready := .port 10 :: w0.pf.ready } }

theorem meets_StoresPerform_outside : (turnTo w0 (.hostWrite 0x40 [1, 2])).agenda = [.hostWrite 0x40 [1, 2]] ∧ backed 0x40 2 = true ∧
    (∀ sec ∈ runSectors 0x40 2, let s := turnTo hostState (.hostWrite 0x40 [1, 2])
      hostOpen (hostWrite s 0x40 ([1, 2].take (32 * sec - 0x40))) sec = true ∧ s.poisoned sec = false ∧ tget 0 s.mem.errors sec < 2) ∧
    (turnTo w0 (.upset 2 1)).agenda = [.upset 2 1] ∧ backed (32 * 2) 32 = true := by decide +kernel

/-- The split's reservation at CORE scope on line 0, and the line about to leave the L1 of core 0. -/
def leaveState : State :=
  turnTo (spState fun sp => { sp with resv := some { lr := 9, core := true, elems := [(0, 0x40, testLoc)] } }) (.leave 0 0)

theorem meets_LoadsPerform_leave : leaveState.agenda = [.leave 0 0] ∧ leaveState.block? (16 / 16) = some testBlock ∧ testBlock.core = 0 ∧
    (afterStep leaveState).gang? 16 ≠ none := by decide +kernel

/-- R105: the reservation is gone with its line, and stays where another line leaves or another core's does. -/
theorem test_line_leaves : (([leaveState, { leaveState with agenda := [.leave 0 1] }, { leaveState with agenda := [.leave 1 0] }].map fun s =>
    (((afterStep s).gang? 16).bind (·.split?)).bind fun sp => sp.resv.map fun r => r.elems.length)) = [some 0, some 1, some 1] := by
  decide +kernel

/-- R402: a write of part of a poisoned sector does not happen, and one of the whole sector clears the poison. -/
theorem test_host_writes_poison : (let s := { hostState with mem := { w0.mem with poison := [2] } }
    ([afterStep (turnTo s (.hostWrite 0x40 [9])), afterStep (turnTo s (.hostWrite 0x40 (List.replicate 32 9)))].map fun t =>
      ((t.byte 0x40).toNat, t.mem.poison))) = [(0, [2]), (9, [])] := by decide +kernel

/-- A request that has performed, its data not yet returned. -/
def doneReq (d : Dest) : Req := { testReq (.load true) with dest := d, performed := [4], results := [(0, 7)] }

theorem meets_LoadsReturn : (200 : DWord).toNat < 256 ^ 1 ∧ (∀ d ∈ [Dest.vec 4 true, .vec 4 false, .uni 4],
    (w0.setReq 9 (some (doneReq d))).req? 9 = some (doneReq d) ∧ (w0.setReq 9 (some (doneReq d))).gang? 16 = some (testGang 1) ∧
    4 ∈ (doneReq d).performed ∧ 4 ∉ (doneReq d).returned ∧ (secElems (doneReq d) 4).map (·.lane) = [0] ∧
    (doneReq d).results.find? (fun x => x.1 == 0) = some (0, 7) ∧ (doneReq d).allPerformed = true ∧ sectorsOf (doneReq d) = [4]) := by
  decide +kernel

/-- Two lanes that add to one word. -/
def addReq : Req :=
  { testReq (.atom .add .s32 true) with
    elems := [⟨0, 0x40, testLoc, 4, 7, 0⟩, ⟨1, 0x40, testLoc, 4, 8, 0⟩] }

/-- The context that all tests use marks no bitmap. -/
theorem noDirty {s : State} {x : Context} {l : Loc} {a : Nat} (h : s.ctx? l.ctx = some x) (d : x.dten = false) : ¬DirtyAt s l a := by
  rintro ⟨-, c, hc, hd, -⟩
  rw [h] at hc
  cases hc
  rw [d] at hd
  cases hd

/-- The same on the scratchpad, its sector in the odd numbers. -/
def scrAdd : Req :=
  { addReq with space := .scratch, elems := [⟨0, 0x40, ⟨true, 0x40, 0x40, 0⟩, 4, 7, 0⟩, ⟨1, 0x40, ⟨true, 0x40, 0x40, 0⟩, 4, 8, 0⟩] }

theorem meets_AtomicsPerform_lanes : (let s := turnTo (w0.setReq 9 (some scrAdd)) (.performLanes 9 1)
    Performs s 9 5 scrAdd scrAdd.elems ∧ scrAdd.kind = .atom .add .s32 true ∧
    (sectorsOf scrAdd).find? (fun x => x % 2 == 1 && !scrAdd.performed.contains x) = some 5 ∧
    (∀ e ∈ scrAdd.elems, e.size = widthBytes .full .s32) ∧
    (∀ e ∈ scrAdd.elems, ∀ f ∈ scrAdd.elems, overlaps e f = true → e.loc.addr = f.loc.addr)) := by
  refine ⟨⟨rfl, by decide, ?_, ?_, ?_, ?_⟩, rfl, ?_, by decide, by decide⟩ <;> decide +kernel

/-- R90, R337: the first of two lanes has added, and its sector has not performed. -/
theorem test_lane_by_lane : (let t := afterStep (turnTo (w0.setReq 9 (some scrAdd)) (.performLanes 9 1))
    (t.readScr 0x40 4, (t.req? 9).map fun q => (q.lanesDone, q.performed))) = (7, some ([0], [])) := by decide +kernel

theorem meets_AtomicsPerform : (5 < 256 ^ widthBytes .full .s64 ∧ (Ty.s64 = .s32 ∨ Ty.s64 = .n32 ∨ Ty.s64 = .s64 ∨ Ty.s64 = .n64)) ∧
    Performs (w0.setReq 9 (some addReq)) 9 4 addReq addReq.elems ∧ addReq.kind = .atom .add .s32 true ∧
    (∀ e ∈ addReq.elems, e.size = widthBytes .full .s32) ∧
    (∀ e ∈ addReq.elems, ∀ f ∈ addReq.elems, overlaps e f = true → e.loc.addr = f.loc.addr) ∧
    (∀ e ∈ addReq.elems, ∀ a, ¬DirtyAt (w0.setReq 9 (some addReq)) e.loc a) ∧ 4 ∉ addReq.returned := by
  refine ⟨by decide, ⟨rfl, by decide, ?_, ?_, ?_, ?_⟩, rfl, by decide, by decide, fun e h a => ?_, by decide⟩
  all_goals try decide +kernel
  have : e.loc.ctx = 0 := by revert e; decide
  exact noDirty (x := { freshCtx with parts := 1 }) (by rw [this]; decide +kernel) rfl

/-- The state whose gang holds back for a walk of page 5. -/
def walkState : State :=
  { gangState (fun g => { g with hold := .walk 0 }) with walks := [(0, 0, 5)], pf := { w0.pf with ready := .engine 32 :: w0.pf.ready } }

/-- A bounced request. -/
def bouncedReq (cause : Nat) : Req := { testReq .store with bounced := true, cause := cause, bounces := 3 }
def atCycle (s : State) (n : Nat) : State := { s with cycle := n }

/-- A command of the gang: of operation `op`, one box of one word from 0x40 to 0x44. -/
def testCmd (op : Nat) : Cmd :=
  { gang := 16, split := 1, c0 := 0x40, c1 := 0x44, c3 := dw op, shape := ⟨4, 1, 1, 0, 0, 0, 0⟩, prio := 0, deps := [], passed := false,
    started := false, running := [], boxes := [], failed := none, bounces := 0, bounced := false, cause := 0, since := 0, queued := false }

theorem meets_WalksAndBounces :
    ((0, 0, 5) ∈ walkState.walks ∧ walkerReady walkState 0 = true ∧ walkState.ctx? 0 = some { freshCtx with parts := 1 } ∧
      translateReady walkState { freshCtx with parts := 1 } 5 = true ∧
      translateReady { walkState with pf := { walkState.pf with ready := [] } } { freshCtx with parts := 1 } 5 = false ∧
      (∀ e ∈ tentries walkState.reqs, e.2.bounced = false) ∧ (∀ e ∈ tentries walkState.cmds, e.2.bounced = false) ∧
      (∀ e ∈ tentries walkState.engOps, e.2.bounced = false) ∧
      walkState.gang? 16 = some { testGang 1 with hold := .walk 0 } ∧ walkState.block? 1 = some testBlock) ∧
    (∀ n ∈ [0, 10000], let s := atCycle (reqState .store) n
      s.req? 9 = some (testReq .store) ∧ s.block? 1 = some testBlock ∧ (testReq .store).bounced = false ∧
      standing s 9 (testReq .store) = [⟨4, 0, 0, 9⟩] ∧ (∀ y ∈ inQueue s (queueOf s 16 4 0), y.before ⟨4, 0, 0, 9⟩ = false) ∧
      tget 0 s.leftAt (queueOf s 16 4 0) = 0 ∧ decide (0 + 16 * (s.part (testBlock.core / 32)).core ≤ s.cycle) = (n == 10000)) ∧
    (∀ n ∈ [0, 10000], let s := atCycle (w0.setReq 9 (some (bouncedReq 5))) n
      s.req? 9 = some (bouncedReq 5) ∧ s.block? 1 = some testBlock ∧ (bouncedReq 5).bounced = true ∧ gangRuns s 16 = true ∧
      peerGone s (bouncedReq 5) = false ∧
      (∀ u ∈ backDue s 0 16, 9 ≤ u) ∧
      (∀ e ∈ (bouncedReq 5).elems, chkOf s testBlock (bouncedReq 5) e = .ok testLoc) ∧
      decide ((bouncedReq 5).since + 256 * min (bouncedReq 5).bounces 8 ≤ s.cycle) = (n == 10000)) ∧
    (let r := bouncedReq 4
     let s := w0.setReq 9 (some r)
     s.req? 9 = some r ∧ s.block? 1 = some testBlock ∧ gangRuns s 16 = true ∧ peerGone s r = false ∧ firstAt s r.key 9 r = true ∧ slotFor s r.key 9 = true ∧
     ∀ e ∈ r.elems, chkOf s testBlock r e = .ok testLoc) ∧
    (let r := { bouncedReq 2 with space := .engine }
     let s := w0.setReq 9 (some r)
     s.req? 9 = some r ∧ r.bounced = true ∧ r.cause = 2 ∧ gangRuns s 16 = true ∧ firstAt s r.key 9 r = true ∧
     goRoom s (keyCore s 16) 9 = true) ∧
    (let c := { testCmd 2 with bounced := true, cause := 2 }
     let s := w0.setCmd 9 (some c)
     s.req? 9 = none ∧ s.cmd? 9 = some c ∧ gangRuns s 16 = true ∧ devqFree s c = true ∧ slotFor s (cmdKey s c 2) 9 = true ∧
     firstCmd s (cmdKey s c 2) 9 c = true) ∧
    (let c := { testCmd 0 with bounced := true, cause := 4, way := some ⟨4, 3, 0, 0⟩ }
     let s := w0.setCmd 9 (some c)
     s.req? 9 = none ∧ s.cmd? 9 = some c ∧ gangRuns s 16 = true ∧ slotFor s (cmdKey s c 4) 9 = true ∧ firstCmd s (cmdKey s c 4) 9 c = true) := by
  refine ⟨?_, ?_, ?_, ?_, ?_, ?_, ?_⟩ <;> decide +kernel

/-- The state with one byte in the block's scratchpad, whose gang has been parked since cycle 0. -/
def parkState : State :=
  atCycle ((gangState fun g => { g with hold := .park 0 0 1 0 false }).setSbyte 5 7) 40000

/-- The state in which context 0 has its turn on part 0. -/
def turnState (s : State) (t : WTurn) : State := s.setPart 0 { partDefault with turn := some t }

/-- A block swapped out, and a core image. -/
def swappedBlock : Block := { testBlock with phase := .swapped false false }
def testImage : Image := { scratch := [(5, 7)], tiles := [], opbuf := [], array := none, staging := none }

/-- A context that has a save area, and what the area holds. -/
def areaCtx : Context := { freshCtx with parts := 1, save := 0x20000 }
def testSaved : Saved := ⟨6, [(0, 3)], areaCtx, [(5, swappedBlock)], [], [], [], [], [], [], [], [], [], [], [], [], []⟩

/-- The turn of context 0. -/
def turn0 : WTurn := ⟨0, some 0, 0, 1000000, 0, 1000000, none, []⟩

/-- The block returned to its core, its image to be filled. -/
def returnedBlock : Block :=
  { testBlock with phase := .returned, image := some testImage, need := { testNeed with race := false } }

theorem meets_SwappingBlocks :
    (parkState.gang? 16 = some { testGang 1 with hold := .park 0 0 1 0 false } ∧ parkState.block? 1 = some testBlock ∧
      testBlock.phase = .running ∧ parkState.ctx? 0 = some { freshCtx with parts := 1 } ∧
      0 + 16 * (parkState.part (testBlock.core / 32)).park ≤ parkState.cycle ∧ tentries parkState.cmds = []) ∧
    (let s := ((turnState w0 turn0).setArray 0 arrayDefault).setBlock 1 swappedBlock
     s.block? 1 = some swappedBlock ∧ runsOn s 0 0 = true ∧ canReturn s 1 swappedBlock (placeBank s 0) = true) ∧
    (let s := w0.setBlock 1 returnedBlock
     s.block? 1 = some returnedBlock ∧ returnedBlock.phase = .returned ∧ returnedBlock.image = some testImage ∧
     areaIntact s 0 = true ∧ returnedBlock.need.race = false ∧ testImage.array = none ∧ blockGangs returnedBlock 1 = [16] ∧
     s.gang? 16 = some (testGang 1) ∧ (testGang 1).hold = .none ∧ tentries s.reqs = [] ∧
     (∀ e ∈ tentries s.cmds, e.2.gang / 16 ≠ 1) ∧ (∀ e ∈ tentries s.rreqs, e.2.gang / 16 ≠ 1) ∧
     (∀ e ∈ tentries s.engOps, e.2.gang / 16 ≠ 1) ∧
     (testImage.scratch.map (·.1)).Nodup) ∧
    (let s := { w0.setBlock 1 returnedBlock with areas := [(0, some testSaved)] }
     s.block? 1 = some returnedBlock ∧ (s.ctx? 0).isSome = true ∧ areaIntact s 0 = false) := by
  refine ⟨?_, ?_, ?_, ?_⟩ <;> decide +kernel

/-- The state with a command, the engine of its cluster ready. -/
def cmdState (c : Cmd) : State :=
  { w0.setCmd 9 (some c) with pf := { w0.pf with ready := .engine 0 :: w0.pf.ready } }

/-- What the statement on copies asks of a command of one word. -/
def copyMeets (add : Bool) (c : Cmd) : Bool :=
  let s := cmdState c
  let ok := fun (r w : Bool) ea l => decide (checkElem s testBlock .global r w 4 ea = .ok l) && (cmdOpen s 9 c l &&
    (!s.poisoned (l.addr / 32) && decide (tget 0 s.mem.errors (l.addr / 32) < 2)))
  decide (s.cmd? 9 = some c ∧ s.gang? 16 = some (testGang 1) ∧ s.block? 1 = some testBlock ∧ c.op = (if add then 1 else 0) ∧
    canStart s 9 c (testGang 1) testBlock = true ∧ c.failed = none ∧ c.running = [] ∧ c.boxes = [] ∧ 0 < c.shape.boxes ∧
    boxWords c 0 = [(0, 0x40, 0x44)] ∧ earlierWrites c 0 = false ∧ cmdSpace (bitsOf c.c3 31 29) = .global ∧ cmdSpace (bitsOf c.c3 28 26) = .global) &&
  (ok true false 0x40 testLoc && ok add true 0x44 ⟨false, 0x44, 0x44, 0⟩)

/-- A copy of one word to an address that is not a multiple of 4. -/
def badCopy : Cmd := { testCmd 0 with c1 := 0x45 }

theorem meets_Copies : copyMeets false (testCmd 0) = true ∧ copyMeets true { testCmd 1 with c3 := 0x101 } = true ∧
    (∀ a, ¬DirtyAt (cmdState (testCmd 0)) testLoc a) ∧
    canStart (cmdState badCopy) 9 badCopy (testGang 1) testBlock = true ∧ badCopy.running = [] ∧ (testGang 1).live ≠ 0 ∧
    (testGang 1).splitList.all (fun e => e.2.wait == .ready) = true ∧
    decideChecks (((boxWords badCopy 0).map (·.2)).flatMap fun w => [(0, w.1), (0, w.2)])
      (((boxWords badCopy 0).map (·.2)).flatMap fun w => [checkElem (cmdState badCopy) testBlock .global true false 4 w.1,
        checkElem (cmdState badCopy) testBlock .global false true 4 w.2]) = .protect 4 0 0x45 := by
  have h : (cmdState (testCmd 0)).ctx? testLoc.ctx = some { freshCtx with parts := 1 } := by decide +kernel
  refine ⟨?_, ?_, fun a => noDirty h rfl, ?_⟩ <;> decide +kernel

/-- The state whose gang has a trap left for it. -/
def leftTrap (cause : Nat) : PendTrap := ⟨cause, 1, 0, 0, 0⟩

theorem meets_CommandsComplete :
    (let c := { testCmd 0 with running := [0] }
     (cmdState c).cmd? 9 = some c ∧ (cmdState c).block? 1 = some testBlock ∧ 0 ∈ c.running ∧ c.failed = none ∧ c.todo = [] ∧
     ({ c with running := [], boxes := [0] } : Cmd).written = true ∧ earlierCmds (cmdState c) 16 9 = []) ∧
    (let c := { testCmd 0 with shape := ⟨4096, 1, 1, 0, 0, 0, 0⟩, running := [0] }
     (cmdState c).cmd? 9 = some c ∧ 0 ∈ c.running ∧ ({ c with running := [], boxes := [0] } : Cmd).written = false) ∧
    (let c := { testCmd 0 with boxes := [0] }
     let sp := { firstSplit 1 0 (BitVec.allOnes 64) with wait := .atTags true 1 1 4 }
     let g := { testGang 1 with splits := [(0, some sp)] }
     (cmdState c).cmd? 9 = some c ∧ c.written = true ∧ c.rel = false ∧ ((cmdState c).setGang 16 g).gang? 16 = some g ∧ g.splits = [(0, some sp)] ∧
     16 ∈ blockGangs testBlock 1 ∧ (0 ||| tagBit c.tag) &&& 1 = (1 : DWord)) ∧
    (let c := testCmd 2
     canStart (cmdState c) 9 c (testGang 1) testBlock = true ∧ c.op = 2 ∧ c.queued = false ∧
     (cmdState c).ctx? 0 = some { freshCtx with parts := 1 } ∧ ({ freshCtx with parts := 1 } : Context).devq.length < 64 ∧
     slotFor (cmdState c) (cmdKey (cmdState c) c 2) 9 = true) ∧
    (let c := { testCmd 3 with c1 := 0x48 }
     let l : Loc := ⟨false, 0x48, 0x48, 0⟩
     canStart (cmdState c) 9 c (testGang 1) testBlock = true ∧ c.op = 3 ∧ c.boxes = [] ∧ c.failed = none ∧
     checkElem (cmdState c) testBlock (cmdSpace (bitsOf c.c3 28 26)) false true 8 c.c1 = .ok l ∧
     cmdOpen (cmdState c) 9 c l = true ∧
     (tentries (cmdState c).gangs).all (fun e => e.2.splitList.all fun x => x.2.wait == .ready) = true ∧ (cmdState c).poisoned (l.addr / 32) = false ∧
     tget 0 (cmdState c).mem.errors (l.addr / 32) < 2) ∧
    (∀ cause ∈ [3, 10], Meets (gangState fun g => { g with traps := [leftTrap cause] }) {} (fun g _ _ => g.traps = [leftTrap cause])) := by
  refine ⟨?_, ?_, ?_, ?_, ?_, ?_⟩
  · decide +kernel
  · decide +kernel
  · decide +kernel
  · decide +kernel
  · decide +kernel
  · intro cause h
    simp only [List.mem_cons, List.not_mem_nil, or_false] at h
    rcases h with rfl | rfl <;> exact meetsD (by decide +kernel)

-- The fabric.

/-- The state whose context has device 3 with FTID 5 as its peer 0, and no lane in m1. -/
def peerState (k3 : DWord) : State :=
  let s := gangState fun g => { g with regs := (g.regs.kset 3 k3).mset 1 0 }
  (s.modCtx 0 fun c => { c with peert := 0x1000 }).writePhys 0x1000 8 (2 ^ 63 + 3 * 2 ^ 32 + 5)

/-- What a remote access names: v4 to v7 and the handle in k3. -/
def remUse (count : Nat) (long : Bool) : Use := remoteUse [4, 5] (.uni 3) (some 6) count long

/-- States for each case of a remote access. -/
structure MeetsRemote (u : Use) : Prop where
  none : Meets (peerState 0) u fun g sp _ => activeLanes g sp pNone = 0
  good : Meets (peerState 0) u fun g sp b => activeLanes g sp pAll ≠ 0 ∧
    localCheck (peerState 0) b.ctx g.regs (activeLanes g sp pAll) (.uni 3) (some 6) 0 4 = .none ∧ (peerState 0).fab.lost = []
  noPeer : Meets (peerState 1) u fun g sp b => ∃ x, activeLanes g sp pAll ≠ 0 ∧
    localCheck (peerState 1) b.ctx g.regs (activeLanes g sp pAll) (.uni 3) (some 6) 0 4 = some x

theorem meetsRemote (c : Nat) (l : Bool)
    (h0 : meetsB (peerState 0) (remUse c l) (fun g sp _ => decide (activeLanes g sp pNone = 0)) = true)
    (h1 : meetsB (peerState 0) (remUse c l) (fun g sp b => decide (activeLanes g sp pAll ≠ 0 ∧
      localCheck (peerState 0) b.ctx g.regs (activeLanes g sp pAll) (.uni 3) (some 6) 0 4 = .none ∧ (peerState 0).fab.lost = [])) = true)
    (h2 : meetsB (peerState 1) (remUse c l) (fun g sp b => decide (activeLanes g sp pAll ≠ 0) &&
      (localCheck (peerState 1) b.ctx g.regs (activeLanes g sp pAll) (.uni 3) (some 6) 0 4).isSome) = true) : MeetsRemote (remUse c l) := by
  refine ⟨meetsD h0, meetsD h1, meets _ h2 fun g sp b h => ?_⟩
  rw [Bool.and_eq_true, decide_eq_true_eq] at h
  obtain ⟨x, hx⟩ := Option.isSome_iff_exists.mp h.2
  exact ⟨x, h.1, hx⟩

/-- A remote request of the gang, sent, of lane 2 at window offset 8. -/
def testR (k : RKind) (d : Dest) : RReq :=
  { blankRemote with
    gang := 16, split := 1, kind := k, dest := d, dev := 3, ftid := 5, elems := [(2, 8)], group := 9, sent := 1 }

/-- The state with that request. -/
def remState (r : RReq) (h : Hold) : State := (gangState fun g => { g with hold := h }).setRreq 9 (some r)

theorem meets_FabricInstructions : MeetsRemote (remUse 1 true) ∧ MeetsRemote (remUse 2 false) ∧
    (Meets w0 { scope := some .system } (fun g _ _ => g.regs.errs = 0) ∧ ∀ e ∈ tentries w0.rreqs, e.2.gang = 16 → e.2.final = true) ∧
    (Meets (gangState fun g => { g with regs := { g.regs with errs := 3 } }) { scope := some .system } (fun g _ _ => g.regs.errs ≠ 0)) ∧
    (Meets (remState (testR (.store []) .none) .none) { scope := some .system } any ∧
      ¬∀ e ∈ tentries (remState (testR (.store []) .none) .none).rreqs, e.2.gang = 16 → e.2.final = true) := by
  refine ⟨meetsRemote 1 true ?_ ?_ ?_, meetsRemote 2 false ?_ ?_ ?_, ⟨meetsD ?_, ?_⟩, meetsD ?_, meetsAny ?_, ?_⟩ <;> decide +kernel

/-- What the statement on statuses asks of every request. -/
def remMeets (r : RReq) (h : Hold) : Prop :=
  let s := remState r h
  s.rreq? 9 = some r ∧ s.gang? 16 = some { testGang 1 with hold := h } ∧ s.block? 1 = some testBlock ∧ r.sent ≠ 0 ∧ r.final = false ∧
    groupOf s r.group = [(9, r)] ∧ s.fab.lost = [] ∧ s.fab.self ≠ some r.dev ∧ errorTurn s r.gang r.plane = true

theorem meets_FabricStatuses : remMeets (testR (.store []) .none) .none ∧ (testR (.store []) .none).returns = false ∧
    (w0.ctx? 0).all (fun x => x.errBase == 0) = true ∧
    remMeets (testR .load (.vec 4 true)) (.remote 9 2) ∧ (testR .load (.vec 4 true)).returns = true ∧
    ([(2, 7)] : List (Nat × DWord)).map (·.1) = (testR .load (.vec 4 true)).elems.map (·.1) ∧
    (∀ x ∈ ([(2, 7)] : List (Nat × DWord)), x.1 < 64 ∧ inLanes (BitVec.allOnes 64) x.1 = true) ∧
    (∀ e ∈ (testR .load (.vec 4 true)).elems, e.1 < 64) ∧ (0, firstSplit 1 0 (BitVec.allOnes 64)) ∈ (testGang 1).splitList ∧
    (∀ e ∈ (testGang 1).splitList, e.2.uid = 1 → e.2 = firstSplit 1 0 (BitVec.allOnes 64)) ∧ (testGang 1).split? = some (firstSplit 1 0 (BitVec.allOnes 64)) := by
  unfold remMeets
  decide +kernel

/-- The state in which FTID 1 names a window of one page at 0 in context 0, which may be read and written. -/
def windowState : State :=
  let s := readyAt ((w0.writePhys 0x2018 4 1).writePhys 0x201E 1 131) [0x2000]
  { s with
    pf := { s.pf with wtbase := 0x2000 }, tlb := tput none s.tlb (tlbKey 256 0 0) (some (.page 0 0 true true true)) }

/-- A request from another device. -/
def inReq (off : Nat) (k : RKind) : RemoteIn := ⟨3, 0, 77, 1, 4, [(2, off)], k⟩

/-- Planes that are dead toward device 3, since cycle 0; every link is up. -/
def deadState (l : List (Nat × Nat)) : State :=
  { w0 with fab := { w0.fab with
    dead := l, repair := [(3, 1, 0, false)], fplink := (List.range 4).map fun p => (p, (0, 0, 0, 2)) } }

/-- The same, with a request to the device that was sent on plane 2 and has no final status. -/
def lostReq : RReq := { blankRemote with gang := 16, split := 1, dev := 3, elems := [(2, 8)], group := 9, plane := 2, sent := 1 }
def leftState (p : Nat) : State := (deadState [(3, 0), (3, 1)]).setRreq 9 (some { lostReq with plane := p })

/-- The state in which tenant 1 may launch into queue 0 of context 0. -/
def packetState (tail : BitVec 32) : State :=
  let s := (readyAt (((windowState.writePhys 0x4208 8 0xFFFFF).writePhys 0x4210 8 9).writePhys 0x4218 4 0x80000000) [0x4200, 0x4300, 0x8000]).setQueue 0
    { queueDefault with en := true, tail := tail, log2n := 4, qbase := 0x8000 }
  { s with
    pf := { s.pf with ltbase := 0x4000, ready := s.pf.ready ++ [.port 8, .port 9, .port 11] } }

/-- A packet of the tenant. -/
def testPacket : Packet := ⟨1, 0, 0, 0, 0x80, 0x40, 9, 0⟩

theorem meets_FabricEvents :
    (w0.pf.wtbase = 0 ∧ windowState.pf.wtbase ≠ 0 ∧ placesReady windowState (windowState.pf.wtbase + 16 * 1) 16 = true ∧
      placesReady { windowState with pf := { windowState.pf with ready := [] } } (windowState.pf.wtbase + 16 * 1) 16 = false) ∧
    windowEntry w0 1 = none ∧ windowEntry windowState 1 = some (0, 1, 0, 131) ∧ (∃ e ∈ (inReq 65536 .load).elems, 1 * 65536 ≤ e.2) ∧
    (∀ e ∈ (inReq 0x40 .load).elems, e.2 < 1 * 65536) ∧ Nat.testBit 131 2 = false ∧ Nat.testBit 131 0 = true ∧ Nat.testBit 131 1 = true ∧
    (let l : Loc := ⟨false, 0x40, 0x40, 0⟩
     checkGlobal windowState 256 0 true false (0 + dw 0x40) = .ok l ∧ checkGlobal windowState 256 0 false true (0 + dw 0x40) = .ok l ∧
     placeOpen windowState (ctxVf windowState 0) l 1 = true ∧ windowState.poisoned (l.addr / 32) = false ∧ tget 0 windowState.mem.errors (l.addr / 32) < 2 ∧
     (windowState.ctx? l.ctx).all (fun c => !c.dten) = true) ∧
    (let s := deadState [(3, 0), (3, 1)]
     s.fab.lost = [] ∧ (3, 1) ∈ s.fab.dead ∧ (3, 1, 0, false) ∈ s.fab.repair ∧ (3, 2) ∉ s.fab.dead ∧ (linkOf s 2).2.2.2 = 2 ∧
     (∀ i < 2, (3, i) ∈ s.fab.dead) ∧ tentries s.rreqs = []) ∧
    (let s := leftState 2
     s.fab = (deadState [(3, 0), (3, 1)]).fab ∧
     (tentries s.rreqs).any (fun e => e.2.dev == 3 && (e.2.sent != 0 && (!e.2.final && e.2.plane != 1))) = true) ∧
    (let s := atCycle (deadState []) 1000000
     twf none s.rreqs = true ∧ (3, 1, 0, false) ∈ s.fab.repair ∧ 0 + fabricLimit s ≤ s.cycle ∧ toDevice s 3 = []) ∧
    (let s := atCycle (leftState 2) 1000000
     twf none s.rreqs = true ∧ (3, 1, 0, false) ∈ s.fab.repair ∧ 0 + fabricLimit s ≤ s.cycle ∧
     tentries s.rreqs = [(9, lostReq)] ∧ lostReq.plane < 4 ∧ errorTurn s 16 lostReq.plane = true) ∧
    (let s := { w0 with fab := { w0.fab with lost := [3] } }
     3 ∈ s.fab.lost ∧ 3 ∉ w0.fab.lost ∧ tentries s.rreqs = []) ∧
    tentries w0.rreqs = [] ∧
    packetOpen w0 testPacket = false ∧ packetOpen (packetState 0) testPacket = true ∧ packetOpen (packetState 16) testPacket = true ∧
    packetOpen (packetState 0) { testPacket with key := 8 } = true ∧
    (let s := { w0 with pf := { w0.pf with ready := w0.pf.ready ++ [.port 8, .port 9, .port 11] } }
     packetOpen s testPacket = true ∧ packetOk s testPacket = false ∧ s.pf.ltbase = 0) ∧
    packetOk (packetState 0) { testPacket with key := 8 } = false ∧ (packetState 0).pf.ltbase ≠ 0 ∧
    (∀ sec ∈ runSectors ((packetState 0).pf.ltbase + 512 + 28) 4 ++ runSectors 0x8000 64,
      (packetState 0).poisoned sec = false ∧ tget 0 (packetState 0).mem.errors sec < 2) ∧
    (let q := (packetState 16).queue 0
     packetOk (packetState 16) testPacket = true ∧ (q.tail - q.head).toNat = 2 ^ q.log2n) ∧
    (let q := (packetState 0).queue 0
     packetOk (packetState 0) testPacket = true ∧ (q.tail - q.head).toNat ≠ 2 ^ q.log2n ∧
     hubPlace (packetState 0) q.ctx (q.qbase + dw (64 * (q.tail.toNat % 2 ^ q.log2n))) = .ok ⟨false, 0x8000, 0x8000, 0⟩ ∧
     ((packetState 0).ctx? 0).all (fun c => !c.dten) = true) := by
  refine ⟨?_, ?_, ?_, ?_, ?_, ?_, ?_, ?_, ?_, ?_, ?_, ?_, ?_, ?_, ?_, ?_, ?_, ?_, ?_, ?_, ?_, ?_, ?_, ?_, ?_⟩ <;> decide +kernel

-- The matrix engine.

/-- A reservation of two chunks at unit 0. -/
def testRes (t : Ty) (n : Nat) : Reserv :=
  { t := t, mx := false, recv := false, base := 0, len := n * t.chunkUnits, sbase := 0, ncap := n, presence := 0 }

/-- A gang with reservations, by id, and uniform registers set. -/
def resGang (l : List (Nat × Option Reserv)) (k : List (Nat × DWord)) (g : Gang) : Gang :=
  { g with mat := { g.mat with res := l }, regs := k.foldl (fun r e => r.kset e.1 e.2) g.regs }

/-- The state with that gang. -/
def resState (l : List (Nat × Option Reserv)) (k : List (Nat × DWord)) : State := gangState (resGang l k)

/-- Bytes put into the block's scratchpad, word by word. -/
def scrState (s : State) (l : List (Nat × Nat)) : State :=
  l.foldl (fun s e => s.setSbyte e.1 (BitVec.ofNat 8 e.2)) s

/-- A delivery of one chunk's scales for reservation 2. -/
def testDelivery (core : Nat) : Delivery :=
  { uid := 5, gang := 16, batch := 1, core := core, pos := core, id := 2, t := .e4m3x4, mx := true, c0 := 0, nch := 1, scale := true,
    bytes := List.replicate 64 5 }

/-- A receiving reservation of scaled chunks. -/
def recvRes : Reserv := { testRes .e4m3x4 2 with mx := true, recv := true, sbase := 512 }

/-- A block on core 1 whose gang holds it, and a delivery to core `c` under way. -/
def deliverState (c : Nat) : State :=
  let s := gangState fun g => { g with mat := { g.mat with opened := some blankBatch } }
  let s := (s.setBlock 2 { testBlock with core := 1 }).setGang 32 (resGang [(2, some recvRes)] [] (testGang 2))
  { s with deliveries := [testDelivery c] }

/-- A number of the block's window as an MGATH reads it. -/
def winNum (s : State) (b : Block) (o n : Nat) : Nat := leValue (fun j => (scratchBytes s s.uid 16 b o n).getD j 0) n

/-- The conditions on an MGATH's descriptor at 0. -/
abbrev gathBad (s : State) (b : Block) : Prop :=
  winNum s b 0 4 % 4 ≠ 0 ∨ winNum s b 4 4 % 4 ≠ 0 ∨ winNum s b 8 4 % 2 ≠ 0 ∨ winNum s b 0x0C 4 = 0 ∨ 2048 < winNum s b 0x0C 4 ∨
    winNum s b 0x18 8 ≠ 0

/-- A descriptor of one row with one element, in column 3. -/
def gathState (n : Nat) : State :=
  scrState (resState [(0, some (testRes .bf16x2 n))] []) [(0, 0x40), (4, 0x80), (9, 1), (0xC, 1), (0x44, 1), (0x80, 3), (0x100, 0x80), (0x101, 0x3F)]

/-- The state in which an MLD of scales is set up: one chunk from 0x40, every line from there. -/
def mldState : State := resState [(2, some recvRes)] [(3, 0x10000000000), (5, 0x40)]

/-- The engine has room for the gang, and its accesses act at issue. -/
abbrev engFine (s : State) (g : Gang) : Prop := engBounced s g.block < engineEntries ∧ g.sched.defer = false

theorem meets_MatrixPanels :
    (Meets w0 { coll := true, k := [3] } (fun g _ b => g.reserv 0 = none ∧ bankUnits w0 b < 1024 + 64 ∧
      mresStatus w0 b g 0 ⟨.bf16x2, false, false, 1024, 64, 0, 1, BitVec.allOnes 64⟩ = 1)) ∧
    Meets (resState [(0, some (testRes .bf16x2 2))] []) { coll := true, k := [3] } (fun g _ _ => g.reserv 0 ≠ none) ∧
    Meets w0 { coll := true, k := [3] } (fun g _ b => mresStatus w0 b g 0 ⟨.bf16x2, true, false, 0, 64, 512, 1, BitVec.allOnes 64⟩ = 0) ∧
    Meets w0 { coll := true } any ∧
    Meets w0 { coll := true, k := [5, 3], reads := true } (fun g _ _ => mldCause g false 0 (g.kget 3) (mldArgs g 5 0 3) = some 1) ∧
    (Meets mldState { coll := true, k := [5, 3], reads := true } (fun g _ b =>
        mldCause g true 2 (g.kget 3) (mldArgs g 5 0 3) = none ∧ g.reserv 2 = some recvRes ∧ (mldArgs g 5 0 3).c0 = 0 ∧
        (mldArgs g 5 0 3).nch = 1 ∧ mldReads recvRes true (mldArgs g 5 0 3) = (1, List.replicate 64 0x40) ∧
          checkElem mldState b .global true false 1 0x40 = .ok testLoc ∧ engFine mldState g ∧
          homesReady mldState 16 g b .global false 1 (List.replicate 64 0x40) = true ∧
          mldState.poisoned 2 = false ∧ tget 0 mldState.mem.errors 2 < 2) ∧
      (mldPlaces recvRes true 0 1).Nodup ∧
      ∀ e ∈ tentries w0.reqs, e.2.gang = 16 → e.2.kind ≠ .store) ∧
    ((deliverState 1).deliveries.find? (fun y => y.gang == 16 && mayArrive (deliverState 1) y) = some (testDelivery 1) ∧ (deliverState 1).block? 1 = some testBlock ∧
      receiverOf (deliverState 1) (testDelivery 1) 0 (quarterOf testBlock 0) 0 = some (32, { testBlock with core := 1 }) ∧
      (mldPlaces recvRes true 0 1).Nodup) ∧
    (let s := turnTo (deliverState 1) (.deliverWords 5 [0])
     s.deliveries.find? (fun y => y.uid == 5 && mayArrive s y) = some (testDelivery 1) ∧
     (deliveryTo s (testDelivery 1)).map (·.1) = some 32 ∧ (s.gang? 32).all (fun h => decide (h.reserv 2 = some recvRes)) = true) ∧
    ((receiverOf (deliverState 2) (testDelivery 2) 0 (quarterOf testBlock 0) 0).isNone = true ∧
      ((deliverState 2).gang? 16).all (fun g => decide (g.mat.top < 1 ∧ g.mat.opened = some blankBatch)) = true) ∧
    Meets w0 { coll := true, k := [5], reads := true } (fun g _ _ => engFine w0 g ∧ g.reserv 0 = none) ∧
    Meets (resState [(0, some (testRes .e2m1x8 2))] []) { coll := true, k := [5], reads := true } (fun g _ _ =>
      engFine w0 g ∧ g.reserv 0 = some (testRes .e2m1x8 2)) ∧
    Meets (resState [(0, some (testRes .bf16x2 2))] [(5, 4)]) { coll := true, k := [5], reads := true } (fun g _ _ =>
      engFine w0 g ∧ g.reserv 0 = some (testRes .bf16x2 2) ∧ (g.kget 5 + sx32 0).toNat % 32 ≠ 0) ∧
    Meets (resState [(0, some (testRes .bf16x2 2))] [(5, 0x80000)]) { coll := true, k := [5], reads := true } (fun g _ b =>
      engFine w0 g ∧ g.reserv 0 = some (testRes .bf16x2 2) ∧ (g.kget 5 + sx32 0).toNat % 32 = 0 ∧
      256 * b.need.scratch < (g.kget 5 + sx32 0).toNat + 32) ∧
    Meets (resState [(0, some (testRes .bf16x2 2))] []) { coll := true, k := [5], reads := true } (fun g _ b =>
      engFine w0 g ∧ g.kget 5 + sx32 0 = 0 ∧ gathBad (resState [(0, some (testRes .bf16x2 2))] []) b) ∧
    Meets (gathState 0) { coll := true, k := [5], reads := true } (fun g _ b => engFine w0 g ∧ g.kget 5 + sx32 0 = 0 ∧ ¬gathBad (gathState 0) b ∧
      g.reserv 0 = some (testRes .bf16x2 0) ∧ 0 < winNum (gathState 0) b 0x14 4 + (winNum (gathState 0) b 0x0C 4 + 31) / 32) ∧
    Meets (gathState 2) { coll := true, k := [5], reads := true } (fun g _ b => engFine w0 g ∧ g.kget 5 + sx32 0 = 0 ∧ ¬gathBad (gathState 2) b ∧
      g.reserv 0 = some (testRes .bf16x2 2) ∧ winNum (gathState 2) b 0x14 4 + (winNum (gathState 2) b 0x0C 4 + 31) / 32 ≤ 2 ∧
      (gatherRow (gathState 2) (gathState 2).uid 16 b 0x40 0x80 0x100 0 2 0).1.map (·.1) = [3]) := by
  refine ⟨meetsD ?_, meetsD ?_, meetsD ?_, meetsAny ?_, meetsD ?_, ⟨meetsD ?_, ?_, ?_⟩, ⟨?_, ?_, ?_, ?_⟩, ?_, ⟨?_, ?_⟩,
    meetsD ?_, meetsD ?_, meetsD ?_, meetsD ?_, meetsD ?_, meetsD ?_, meetsD ?_⟩ <;> decide +kernel

/-- The state with v6 holding eight times the lane, and k5 as a base. -/
def laneState (k : Nat) : State :=
  gangState fun g => { g with regs := (g.regs.vset 6 ((List.range 64).map fun l => BitVec.ofNat 32 (8 * l))).kset 5 (dw k) }

/-- The state for an AST of one row: the tile's place in k4, memory's address in k5, what k3 says. -/
def astState (ea : Nat) (k : DWord) : State := kState [(4, dw ea), (5, 0), (3, k)]

/-- The uses of AST, and its operand's conditions. -/
def astUse : Use := { coll := true, k := [5, 4, 3] }
abbrev astFine (g : Gang) (k : DWord) (ea nr size : Nat) : Prop :=
  bitsOf k 41 40 ≠ 3 ∧ bitsOf k 39 38 = 0 ∧ bitsOf k 63 42 = 0 ∧ ea / 512 % 64 + nr ≤ 64 ∧ (g.kget 5).toNat % size = 0 ∧ bitsOf k 31 0 % size = 0

/-- Nothing that AST waits for is there, and the engine can take all of its words. -/
abbrev astReady (s : State) (k : DWord) (g : Gang) (sp : Split) (b : Block) : Prop :=
  storeReady s 16 sp = true ∧ homesReady s 16 g b (astSpace k) true 4 ((List.range 1).flatMap fun j => (List.range 64).map fun w =>
    g.kget 5 + BitVec.ofInt 64 (j * (BitVec.ofNat 32 k.toNat).toInt) + dw (w * 4)) = true

/-- The places of that row: the 64 words from 0. -/
theorem ast_places : (List.range 64).all (fun w =>
    match checkElem (astState 0 0) testBlock .global false true 4 (0 + BitVec.ofInt 64 ((0 : Nat) * (BitVec.ofNat 32 (0 : DWord).toNat).toInt) + dw (w * 4)) with
    | .ok l => decide (l = ⟨false, 4 * w, 4 * w, 0⟩) && (homeReady (astState 0 0) l && (!(astState 0 0).poisoned (l.addr / 32) &&
        decide (tget 0 (astState 0 0).mem.errors (l.addr / 32) < 2)))
    | _ => false) = true := by decide +kernel

theorem meets_MatrixArithmetic :
    ((∀ x ∈ ([(false, 1, 1)] ++ [(true, 1, 2)] : List (Bool × Nat × Nat)), 0 < x.2.2) ∧ ((1 : ℚ) * (-1 / 2)) * 2 ^ ((0 : Int) + 0) ≠ 0 ∧
      ((0 : ℚ) * (-1 / 2)) * 2 ^ ((0 : Int) + 0) = 0) ∧
    Meets w0 { coll := true } (fun g _ _ => g.reserv 0 = none) ∧
    Meets (resState [(0, some (testRes .bf16x2 2)), (1, some (testRes .bf16x2 2))] []) { coll := true } (fun g _ b =>
      g.reserv 0 = some (testRes .bf16x2 2) ∧ g.reserv 1 = some (testRes .bf16x2 2) ∧ ¬(1 + 1 + 1 ≤ (testRes .bf16x2 2).ncap) ∧
      0 + 1 + 1 ≤ (testRes .bf16x2 2).ncap ∧ formatsMeet .bf16x2 .bf16x2 = true ∧
      bankTiles (resState [(0, some (testRes .bf16x2 2)), (1, some (testRes .bf16x2 2))] []) b = 32) ∧
    formatsMeet .bf16x2 .e4m3x4 = false ∧
    Meets (gangState fun g => { g with mat := { g.mat with opened := some blankBatch } }) { coll := true, k := [3] } (fun g _ _ =>
      g.mat.opened = some blankBatch) ∧
    (let s := gangState fun g => { g with mat := { g.mat with closed := [(1, some blankBatch)], top := 1 } }
     s.deliveries = [] ∧ engPending s 16 = [] ∧ (s.gang? 16).all (fun g => tentries g.mat.closed == [(1, blankBatch)]) = true) ∧
    Meets w0 { k := [3, 4] } (fun g _ _ => tentries g.mat.closed = []) ∧
    Meets (gangState fun g => { g with mat := { g.mat with closed := [(1, some blankBatch)], top := 1 }, regs := g.regs.kset 4 1 })
      { k := [3, 4] } (fun g _ _ => ¬∀ e ∈ tentries g.mat.closed, min (g.kget 4).toNat g.mat.top < e.1) ∧
    Meets (kState [(3, 0x100000000)]) { coll := true, k := [3] } (fun g _ b => 2 ^ bankTiles (kState [(3, 0x100000000)]) b ≤ (g.kget 3).toNat) ∧
    Meets (kState [(3, 5)]) { coll := true, k := [3] } (fun g _ b => (g.kget 3).toNat < 2 ^ bankTiles (kState [(3, 5)]) b) ∧
    Meets w0 { coll := true, v := vr .f32 4, long := true } (fun _ sp b => bankTiles w0 b ≤ 32 ∧ 31 < bankTiles w0 b ∧ sp.exm ≠ 0) ∧
    Meets (laneState 4) { coll := true, v := vr .f32 4 ++ (memUse ⟨5, some 6, 0⟩).1, k := [5] } (fun g sp _ =>
      inLanes sp.exm 0 = true ∧ (effAddr g.regs ⟨5, some 6, 0⟩ 0).toNat % 8 ≠ 0) ∧
    Meets (laneState 0x100000) { coll := true, v := vr .f32 4 ++ (memUse ⟨5, some 6, 0⟩).1, k := [5] } (fun g sp b =>
      inLanes sp.exm 0 = true ∧ bankTiles (laneState 0x100000) b ≤ (effAddr g.regs ⟨5, some 6, 0⟩ 0).toNat / 32768) ∧
    (Meets (laneState 0) { coll := true, v := vr .f32 4 ++ (memUse ⟨5, some 6, 0⟩).1, k := [5] } (fun g _ b =>
        (List.range 64).map (fun l => (effAddr g.regs ⟨5, some 6, 0⟩ l).toNat) = (List.range 64).map (8 * ·) ∧ 0 < bankTiles (laneState 0) b) ∧
      zeroTile.length = 4096 ∧ (laneState 0).core.tiles = []) ∧
    Meets (astState 8 0) astUse (fun g sp b => astReady (astState 8 0) 0 g sp b ∧ (g.kget 4 + sx32 0).toNat % 512 ≠ 0) ∧
    Meets (astState 0x100000 0) astUse (fun g sp b => astReady (astState 0x100000 0) 0 g sp b ∧ (g.kget 4 + sx32 0).toNat % 512 = 0 ∧
      bankTiles (astState 0x100000 0) b ≤ (g.kget 4 + sx32 0).toNat / 32768) ∧
    Meets (astState 0 0x30000000000) astUse (fun g sp b => astReady (astState 0 0x30000000000) 0x30000000000 g sp b ∧
      ¬astFine g 0x30000000000 0 1 4) ∧
    Meets (astState 0 0) astUse (fun g sp b => astReady (astState 0 0) 0 g sp b ∧ g.sched.defer = false ∧
      (g.kget 4 + sx32 0).toNat = 0 ∧ astFine g 0 0 1 4 ∧ b = testBlock) := by
  refine ⟨⟨by decide, by norm_num, by norm_num⟩, meetsD ?_, meetsD ?_, ?_, meetsD ?_, ?_, meetsD ?_, meetsD ?_, meetsD ?_, meetsD ?_,
    meetsD ?_, meetsD ?_, meetsD ?_, ⟨meetsD ?_, ?_, ?_⟩, meetsD ?_, meetsD ?_, meetsD ?_, meetsD ?_⟩ <;> decide +kernel

-- The Millrace.

/-- The state with core 0's array changed. -/
def arrState (f : Array → Array) : State := w0.setArray 0 (f (w0.array 0))
def arrK (f : Array → Array) (l : List (Nat × DWord)) : State := (kState l).setArray 0 (f (w0.array 0))

/-- What an instruction of the Millrace needs. -/
def arrUse (v k : List Nat) : Use := { v := v, k := k, race := true, arr := true }

/-- An array that takes an instruction at once, or that evaluates. -/
def arrFree (s : State) (b : Block) (g : Gang) : Bool :=
  decide ((s.array b.core).owner = some g.block ∧ (s.array b.core).queue = [] ∧ (s.array b.core).eval = none)
def arrBusy (a : Array) : Array := { a with eval := some (1, 5) }

/-- The uses of RCLD and the conditions on its operands. -/
def rcldUse : Use := { k := [4, 5], race := true, arr := true, reads := true }
abbrev rcldBad (n : DWord) : Prop := bitsOf n 63 15 ≠ 0 ∨ bitOf n 7 = true ∨ 128 < bitsOf n 6 0 + (bitsOf n 14 8 + 1)

theorem meets_MillraceInstructions :
    (∀ u ∈ [arrUse [] [5], arrUse [] [4, 5], arrUse [4, 5] [], arrUse [] []],
      meetsB (kState [(5, 9)]) u (fun g _ b => arrFree (kState [(5, 9)]) b g && decide (1 ≤ (g.kget 5).toNat ∧ (g.kget 5).toNat ≤ 1023)) = true ∧
      meetsB (arrK arrBusy [(5, 9)]) u (fun _ _ b => decide (((arrK arrBusy [(5, 9)]).array b.core).eval ≠ none)) = true) ∧
    Meets w0 (arrUse [] [5]) (fun g _ _ => (g.kget 5).toNat = 0) ∧
    Meets (kState [(5, 1024)]) (arrUse [] [5]) (fun g _ _ => 1023 < (g.kget 5).toNat) ∧
    Meets (kState [(5, 0x80)]) rcldUse (fun g _ _ => engFine w0 g ∧ rcldBad (g.kget 5)) ∧
    Meets (kState [(4, 2)]) rcldUse (fun g _ _ => engFine w0 g ∧ ¬rcldBad (g.kget 5) ∧ (g.kget 4 + sx32 0).toNat % 4 ≠ 0) ∧
    Meets (kState [(4, 0x80000)]) rcldUse (fun g _ b => engFine w0 g ∧ ¬rcldBad (g.kget 5) ∧ (g.kget 4 + sx32 0).toNat % 4 = 0 ∧
      256 * b.need.scratch < (g.kget 4 + sx32 0).toNat + (bitsOf (g.kget 5) 14 8 + 1) * 128) ∧
    Meets w0 rcldUse (fun g _ b => engFine w0 g ∧ bitsOf (g.kget 5) 63 15 = 0 ∧ bitOf (g.kget 5) 7 = false ∧
      bitsOf (g.kget 5) 6 0 + (bitsOf (g.kget 5) 14 8 + 1) ≤ 128 ∧
      (g.kget 4 + sx32 0).toNat % 4 = 0 ∧ (g.kget 4 + sx32 0).toNat + (bitsOf (g.kget 5) 14 8 + 1) * 128 ≤ 256 * b.need.scratch) ∧
    Meets w0 { v := [4], race := true, arr := true, long := true } (fun g _ b => arrFree w0 b g = true ∧ (w0.array b.core).capv = false) ∧
    Meets (arrState fun a => { a with capv := true, capMesh := true }) { v := [4], race := true, arr := true, long := true } (fun _ _ b =>
      ((arrState fun a => { a with capv := true, capMesh := true }).array b.core).capv = true ∧
      ((arrState fun a => { a with capv := true, capMesh := true }).array b.core).capMesh = selMesh (.row 5)) ∧
    (∀ n ∈ [4, 5], ∀ k ∈ [1, 2], let s := atCycle (arrState fun a => { a with eval := some (k, 5) }) n
      (s.array 0).queue = [] ∧ (s.array 0).eval = some (k, 5) ∧ (5 ≤ s.cycle ∨ s.cycle < 5)) := by
  refine ⟨?_, meetsD ?_, meetsD ?_, meetsD ?_, meetsD ?_, meetsD ?_, meetsD ?_, meetsD ?_, meetsD ?_, ?_⟩ <;> decide +kernel

theorem meets_MillraceEvaluation : vzero.length = 64 ∧ arrayDefault.dirty = false ∧ arrayDefault.mesh = false ∧
    ({ arrayDefault with mesh := true } : Array).mesh = true ∧ ({ arrayDefault with combine := 1 } : Array).combine.getLsbD 0 = true ∧
    arrayDefault.combine.getLsbD 0 = false := by decide +kernel

-- Launches.

/-- The state whose hub reads page 0, whose context runs on part 0, and whose queue 0 is enabled. -/
def hubState (q : HQueue) (f : State → State) : State :=
  let s := f ((turnState w0 turn0).setQueue 0 q)
  { s with
    pf := { s.pf with ready := .port 11 :: s.pf.ready },
    tlb := tput none s.tlb (tlbKey 256 0 0) (some (.page 0 0 true true true)) }

/-- An enabled queue. -/
def testQueue (tail : BitVec 32) : HQueue := { queueDefault with en := true, tail := tail }

/-- Whether the hub's access is answered with a place. -/
def hubOk (r : HubRes) (l : Loc) : Bool := match r with | .ok x => decide (x = l) | _ => false

theorem hubOk_spec {r : HubRes} {l : Loc} (h : hubOk r l = true) : r = .ok l := by
  unfold hubOk at h
  split at h
  · rw [of_decide_eq_true h]
  · cases h

/-- Whether it is refused. -/
def hubBad (r : HubRes) : Bool := match r with | .bad _ => true | _ => false

/-- A launch of queue 0 whose record is at 0x80 and whose completion record is at 0x40. -/
def testLaunch : Launch := newLaunch 0 0 0x80 0x40 0 none

/-- The record of a launch of one block of one lane. -/
def testBody : LRec :=
  { entry := 0, args := 7, gx := 0, gy := 0, gz := 0, bx := 0, bky := 0, bz := 0,
    need := { testNeed with vregs := 4, kregs := 4, scratch := 1, race := false }, regions := [] }

/-- The state with a launch 5. -/
def launchState (l : Launch) (f : State → State) : State := hubState (testQueue 0) fun s => f (s.setLaunch 5 l)

/-- A place of device memory at its own address in context 0. -/
def atPlace (a : Nat) : Loc := ⟨false, a, a, 0⟩

/-- The bytes of R23's record with 4 vector and 4 uniform registers. -/
def recordState : State := launchState testLaunch fun s => s.writePhys 0xA0 8 0x4020000

/-- A wait condition on the word at 0x40, and the state in which a block of the launch can be placed on core 1. -/
def testWait (op : Nat) : WaitCond := ⟨0x40, op, 5, false⟩
def placeState : State :=
  launchState { testLaunch with body := some testBody } fun s => { s with pf := { s.pf with ready := .core 1 :: s.pf.ready } }

theorem meets_Launches :
    (let s := hubState (testQueue 0) id
     (vfQueues s 0)[0]? = some 0 ∧ scaleOut s 0 = false ∧ (vfQueues s 1)[0]? = none) ∧
    (∀ tail ∈ [0, 1, 65], let s := hubState (testQueue (BitVec.ofNat 32 tail)) id
      (frontOf s 0).isNone = true ∧ (s.queue 0).en = true ∧ (s.queue 0).halt = false ∧ scheduled s (s.queue 0).ctx = true ∧
      (s.ring 64).pend.length < 64 ∧ 2 ^ (s.queue 0).log2n = 64 ∧ ((s.queue 0).tail - (s.queue 0).head).toNat = tail ∧
      hubOk (hubAccess s 0 true false (0 + dw (64 * (0 % 2 ^ 6))) 0 0 5) (atPlace 0) = true ∧ (readSectors s 0 0 64).2 = none ∧ dispatcherReady s = true) ∧
    dispatcherReady w0 = false ∧
    (recordState.launch? 5 = some testLaunch ∧ (frontOf recordState 0).map (·.1) = some 5 ∧ testLaunch.body = none ∧
      testLaunch.record.toNat % 128 = 0 ∧ hubOk (hubAccess recordState 0 true false testLaunch.record 1 5 5) (atPlace 0x80) = true ∧
      (readSectors recordState 0 0x80 128).2 = none ∧ badRecord (readRecord recordState 0x80) = false ∧
      (readRecord recordState 0x80).nreg = 0 ∧ 0 ∈ partsOf recordState 0 ∧
      couldFit recordState 0 (readRecord recordState 0x80).need (gangCount (shapeLanes (readRecord recordState 0x80).shape)) = true) ∧
    (let s := launchState testLaunch id
     (frontOf s 0).map (·.1) = some 5 ∧ badRecord (readRecord s 0x80) = true ∧ testLaunch.cmd = none ∧
     hubOk (hubAccess (readSectors s 0 0x80 128).1 0 false true (dw (testLaunch.compl.toNat / 64 * 64)) 3 5 5) (atPlace 0x40) = true ∧
     (s.ctx? 0).all (fun c => !c.dten) = true ∧ (s.ring (ringOf s 0)).pend.length < 64) ∧
    (∀ op ∈ List.range 6, let s := launchState { testLaunch with waits := [testWait op] } id
      s.launch? 5 = some { testLaunch with waits := [testWait op] } ∧ testLaunch.ended = none ∧ (testWait op).addr % 8 = 0 ∧
      hubOk (hubAccess s 0 true false (dw (testWait op).addr) 1 5 5) (atPlace 0x40) = true ∧ (readSectors s 0 0x40 8).2 = none) ∧
    (let s := placeState
     (servedLaunch s (competing s)).map (·.1) = some 5 ∧ leastCore s (fittingCores s { testLaunch with body := some testBody } testBody) = some 1 ∧
     quartersFit s 1 (placeBank s (1 / 32)) testBody.need (gangCount 1) 0 = true ∧
     scratchFits s 1 (placeBank s (1 / 32)) testBody.need.scratch 0 = true ∧ tagsFit s 1 testBody.need.tags 0 = true) ∧
    (let s := launchState { testLaunch with body := some testBody } id
     (servedLaunch s (competing s)).map (·.1) = some 5 ∧ fittingCores s { testLaunch with body := some testBody } testBody = []) := by
  refine ⟨?_, ?_, ?_, ?_, ?_, ?_, ?_, ?_⟩ <;> decide +kernel

-- Blocks and scheduling.

/-- The state whose block 1 belongs to the launch 5 of record `r` and is in a phase. -/
def stageState (r : LRec) (p : Phase) (f : Gang → Gang) : State :=
  launchState { testLaunch with body := some r, next := 1, placedN := 1 } fun s =>
    (s.setBlock 1 { testBlock with launch := 5, phase := p }).modGang 16 f
def stageBlock (p : Phase) : Block := { testBlock with launch := 5, phase := p }

/-- Regions: of 8 bytes from 0x40, and in a page whose translation is malformed. -/
def region1 : Region := ⟨0x40, 8, 0⟩
def regionBad : Region := ⟨0x30000, 8, 0⟩
def malState : State :=
  let s := stageState { testBody with regions := [regionBad] } (.staging 0 0) id
  { s with tlb := tput none s.tlb (tlbKey 256 0 3) (some (.malformed true true true)) }

/-- Two ready siblings, of which the first holds a reservation, the timer spent and the switch deferred as `d` says. -/
def resvPair (d : Option Nat) (g : Gang) : Gang :=
  let g := pairGang .ready { g with fair := 256, fairDefer := d }
  onSplit (fun sp => { sp with resv := some { lr := 1, core := false, elems := [(0, 0x40, testLoc)] } }) g

/-- Twelve gangs in one quarter of the core, ten of them active, in three blocks. -/
def crowdState : State :=
  let s := atCycle ((w0.setBlock 2 testBlock).setBlock 3 testBlock) 5000
  [17, 20, 24, 28, 32, 36, 40, 44, 48, 52].foldl (fun s k => s.setGang k { testGang (k / 16) with idx := k % 16 }) (s.modGang 16 fun g =>
    { g with sched := { g.sched with active := false } })

theorem meets_BlocksAndScheduling :
    (let s := stageState { testBody with regions := [region1] } (.staging 0 0) id
     s.block? 1 = some (stageBlock (.staging 0 0)) ∧ launchRec s (stageBlock (.staging 0 0)) = some { testBody with regions := [region1] } ∧
     0 < region1.len ∧ hubOk (hubAccess s 0 true false (dw (0x40 + 0)) 2 1 3) (atPlace 0x40) = true ∧ (sectorRead s 2).2 = false) ∧
    (malState.block? 1 = some (stageBlock (.staging 0 0)) ∧
      launchRec malState (stageBlock (.staging 0 0)) = some { testBody with regions := [regionBad] } ∧
      hubBad (hubAccess malState 0 true false (dw (0x30000 + 0)) 2 1 3) = true) ∧
    (let s := stageState testBody (.staging 0 0) id
     s.block? 1 = some (stageBlock (.staging 0 0)) ∧ launchRec s (stageBlock (.staging 0 0)) = some testBody ∧ testBody.regions.length ≤ 0 ∧
     s.ctx? 0 = some { freshCtx with parts := 1 }) ∧
    (let s := stageState testBody .running fun g => { g with live := 0 }
     s.block? 1 = some (stageBlock .running) ∧ (∀ k ∈ blockGangs (stageBlock .running) 1, gangDone s k = true) ∧
     (s.array 0).owner = some 1 ∧ (s.array 0).eval = none ∧ testLaunch.written = false ∧ testLaunch.ended = none ∧
     s.launch? 5 = some { testLaunch with body := some testBody, next := 1, placedN := 1 } ∧
     hubOk (hubAccess (removeBlock s 1) 0 false true (dw (testLaunch.compl.toNat / 64 * 64)) 3 5 5) (atPlace 0x40) = true ∧
     (s.ctx? 0).all (fun c => !c.dten) = true) ∧
    (∀ n ∈ [255, 256], (gangState fun g => { g with fair := n }).gang? 16 = some { testGang 1 with fair := n } ∧
      holdsResv { testGang 1 with fair := n } = false ∧ nextReady { testGang 1 with fair := n } = none) ∧
    nextReady (pairGang .ready { testGang 1 with fair := 256 }) ≠ none ∧ holdsResv (pairGang .ready { testGang 1 with fair := 256 }) = false ∧
    (∀ d ∈ [none, some 0, some 64], (gangState (resvPair d)).gang? 16 = some (resvPair d (testGang 1)) ∧ nextReady (resvPair d (testGang 1)) = some 1 ∧
      holdsResv (resvPair d (testGang 1)) = true) ∧
    ((crowdState.gang? 16).all (fun g => !g.sched.active && (!gangWaiting crowdState g && decide (g.sched.waitSince + 4096 ≤ crowdState.cycle))) = true ∧
      8 ≤ ((quarterGangs crowdState 16).filter fun e => e.2.sched.active).length) ∧
    (let s := atCycle (gangState fun g => { g with sched := { g.sched with active := false } }) 5000
     (s.gang? 16).all (fun g => !gangWaiting s g) = true ∧ ((quarterGangs s 16).filter fun e => e.2.sched.active).length = 0) ∧
    Meets (placeWord State.reset 8 3) {} (fun _ sp b => fetch (placeWord State.reset 8 3) b sp.pc = .illegal none) := by
  refine ⟨?_, ?_, ?_, ?_, ?_, ?_, ?_, ?_, ?_, ?_, meetsD ?_⟩ <;> decide +kernel

-- Faults and contexts.

/-- A fault record. -/
def testFrec : FRec := ⟨1, 2, 3, 0, 1, 2, 1, 4, 0, 0x40, 5, 7, 9, [0x20000], 0⟩

/-- The state with a ring at 0x8000, its records pending. -/
def ringState (n : Nat) (l : List FRec) : State := (readyAt (atCycle w0 2) [0x8000]).setRing n { ringDefault with base := 0x8000, pend := l }

/-- The state with a launch that has no block. -/
def cancelState : State := launchState testLaunch id

theorem meets_FaultRings :
    ((ringState 0 [testFrec]).ring 0).pend = [testFrec] ∧ ((ringState 0 [testFrec]).ring 0).base ≠ 0 ∧
    (((ringState 0 [testFrec]).ring 0).tail - ((ringState 0 [testFrec]).ring 0).head).toNat < ((ringState 0 [testFrec]).ring 0).capacity ∧
    (testFrec.dev ≠ (ringState 0 [testFrec]).stamp ∧ placeOpen (ringState 0 [testFrec]) none ⟨false, 0x8000, 0, 0⟩ 1 = true ∧
      testFrec.dev = w0.stamp) ∧
    (w0.ring 0).pend = [] ∧
    (let s := gangState fun g => { g with hold := .park 0 3 7 0 false }
     s.gang? 16 = some { testGang 1 with hold := .park 0 3 7 0 false } ∧ s.waits = [] ∧ tentries s.launches = [] ∧
     (tentries s.gangs).map (·.1) = [16] ∧ gangRuns s 16 = true ∧ s.block? 1 = some testBlock ∧
     0 + 16 * (s.part 0).park ≤ (atCycle s 40000).cycle ∧ s.cycle < 0 + 16 * (s.part 0).park) ∧
    tentries w0.launches = [] ∧
    (cancelState.launch? 5 = some testLaunch ∧ testLaunch.written = false ∧ testLaunch.compl.toNat / 64 = (0x47 : DWord).toNat / 64 ∧
      cancelState.ctx? 0 = some { freshCtx with parts := 1 } ∧ (tentries cancelState.launches).map (·.1) = [5] ∧
      testLaunch.retired = testLaunch.placedN ∧ testLaunch.cmd = none ∧
      hubOk (hubAccess cancelState 0 false true (dw (testLaunch.compl.toNat / 64 * 64)) 3 5 5) (atPlace 0x40) = true) := by
  refine ⟨?_, ?_, ?_, ?_, ?_, ?_, ?_, ?_⟩ <;> decide +kernel

/-- The state whose context is TRAPPED, its block out and its gang stopped. -/
def trappedState : State :=
  ((gangState fun g => { g with stopped := some ⟨1, 0, some 8⟩ }).modBlock 1 fun b => { b with phase := .swapped true false }).modCtx 0 fun c =>
    { c with state := .trapped }

/-- The state in which context 7 can be made or started from what its save area holds. -/
def areaState : State :=
  let s := ((((allReady w0).writePhys 0x1004 1 1).writePhys 0x1038 8 0x20000).writePhys 0x2038 8 (2 ^ 63 + 0x1000)).writePhys 0x20000 1 3
  { s with areas := [(7, some testSaved)], pf := { s.pf with ctxtab := 0x2000 } }

theorem meets_ContextControl :
    (trappedState.ctx? 0 = some { freshCtx with parts := 1, state := .trapped } ∧ areaIntact trappedState 0 = true ∧
      (trappedState.ctx? 0).all (fun c => !c.stopping) = true ∧
      (∀ e ∈ stoppedGangs trappedState 0, ∀ x, e.2.stopped = some x → x.skip.isSome = true) ∧
      (stoppedGangs trappedState 0).map (·.1) = [16] ∧ trappedState.block? 1 = some { testBlock with phase := .swapped true false }) ∧
    w0.ctx? 0 = some { freshCtx with parts := 1 } ∧ ({ freshCtx with parts := 1 } : Context).state = .running ∧
    ((w0.setCtx 0 areaCtx).ctx? 0 = some areaCtx ∧ areaOk areaCtx = true) ∧
    (areaState.ctx? 7 = none ∧ descriptorAt areaState 7 = some 0x1000 ∧ readDescriptor areaState 0x1000 freshCtx = some areaCtx ∧
      descriptorReady areaState 7 = true ∧ storesReady areaState areaCtx = true ∧
      descriptorReady { areaState with pf := { areaState.pf with ready := [] } } 7 = false ∧
      savedArea areaState 7 false areaCtx = some (true, testSaved) ∧ readDescriptor areaState 0x1000 testSaved.ctx = some areaCtx ∧
      testSaved.ctx.parts = areaCtx.parts ∧ shapeFits areaState areaCtx.vf testSaved = true ∧ areaCtx.vf ∉ areaState.energy.refused ∧
      (testSaved.blocks.map (·.1)).Nodup) ∧
    (let s := { areaState with areas := [], imports := [(0x20000, testSaved)] }
     savedArea s 7 false areaCtx = some (false, testSaved)) ∧
    (let s := (w0.setCtx 0 areaCtx).setRreq 9 (some { blankRemote with gang := 16, split := 1, dev := 3, elems := [(2, 8)], group := 9, sent := 1 })
     (tentries s.rreqs).any (fun e => e.2.sent != 0 && (!e.2.final && (s.block? (e.2.gang / 16)).any fun b => b.ctx == 0)) = true ∧
     tentries (w0.setCtx 0 areaCtx).rreqs = []) ∧
    ((doneReq (.vec 4 false)).performed = [4] ∧ (doneReq (.vec 4 false)).returned = []) := by
  refine ⟨?_, ?_, ?_, ?_, ?_, ?_, ?_, ?_⟩ <;> decide +kernel

-- The Weir and the hypervisor's registers.

/-- The state whose VF 0 has a schedule of two entries of context 0, with quantum 5. -/
def schedState (x : Part) : State :=
  ((((readyAt w0 [0x3000]).writePhys 0x3000 8 (2 ^ 63 + 5)).writePhys 0x3008 8 (2 ^ 63 + 2 ^ 32 + 5)).setCtx 1 { freshCtx with parts := 1 }).setVf 0
    { vfDefault with vpol := 5, vpart := 1, vsBase := 0x3000, vsCount := 2 } |>.setPart 0 x

/-- A turn of VF 0, of context `c`. -/
def turnOf (c : Nat) (d : Option Nat) : WTurn := ⟨0, some c, 0, 100, 0, 1, d, [(0, 2 ^ 63 + 5), (1, 2 ^ 63 + 2 ^ 32 + 5)]⟩

theorem meets_WeirAndShadow :
    (let x := (schedState partDefault).part 0
     x.turn = none ∧ x.flip = none ∧ x.urgent = false ∧ x.shadow = false ∧ x.spilled = true ∧ nextVf (schedState partDefault) 0 = some (0, 0, 0, 5) ∧
     (∀ e ∈ partBlocks (schedState partDefault) 0, e.2.ctx = 0) ∧ (schedState partDefault).queues = []) ∧
    (∀ n ∈ [99, 100], ((atCycle (turnState w0 (turnOf 0 none)) n).part 0).turn = some (turnOf 0 none) ∧
      decide ((turnOf 0 none).since + (turnOf 0 none).allowance ≤ (atCycle (turnState w0 (turnOf 0 none)) n).cycle) = (n == 100)) ∧
    (∀ n ∈ [0, 200000], let s := atCycle (w0.setPart 0 { partDefault with turn := some (turnOf 0 (some 0)), shadow := true }) n
      (s.part 0).turn = some (turnOf 0 (some 0)) ∧ residentOn s 0 0 = true ∧ (s.part 0).flip = none ∧ (s.part 0).shadow = true ∧
      decide (0 + 16 * (s.part 0).drain ≤ s.cycle) = (n == 200000)) ∧
    (let s := atCycle (schedState { partDefault with turn := some (turnOf 0 none) }) 5000
     (s.part 0).turn = some (turnOf 0 none) ∧ 0 + 2000 * 1 ≤ s.cycle ∧ nextEntry s (turnOf 0 none).table 0 0 = some (0, 0, 5)) ∧
    (let s := atCycle ((schedState { partDefault with turn := some (turnOf 1 none) }).setBlock 2 { testBlock with ctx := 1 }) 5000
     (s.part 0).turn = some (turnOf 1 none) ∧ nextEntry s (turnOf 1 none).table 0 0 = some (0, 0, 5) ∧ residentOn s 1 0 = true) ∧
    (let s := atCycle w0 8000000
     (s.part 0).turn = none ∧ (s.part 0).roundStart + 2000 * (s.part 0).pround ≤ s.cycle ∧ (nextVf s 0).isNone = true ∧ ownersOf s 0 = [0]) ∧
    (let s := atCycle (turnState w0 ⟨0, none, 0, 100, 0, 1, none, []⟩) 200
     (s.part 0).turn = some ⟨0, none, 0, 100, 0, 1, none, []⟩ ∧ (s.part 0).flip = none ∧ (s.part 0).urgent = false ∧ (s.part 0).spilled = true ∧
     (0 + 100 ≤ s.cycle) ∧ (nextVf s 0).isNone = true) ∧
    ((w0.part 0).flip = none ∧ (w0.part 0).shadow = false ∧ tentries w0.cmds = []) ∧
    (let s := w0.setPart 0 { partDefault with shadow := true, urgent := true }
     (s.part 0).flip = none ∧ (s.part 0).shadow = true ∧ (s.part 0).urgent = true ∧ tentries s.cmds = []) ∧
    (∀ n ∈ [383, 384], let s := atCycle (w0.setPart 0 { partDefault with flip := some ⟨0, none, none⟩ }) n
      (s.part 0).flip = some ⟨0, none, none⟩ ∧ decide (0 + 384 ≤ s.cycle) = (n == 384)) ∧
    (let s := (w0.setCtx 0 areaCtx).setBlock 1 swappedBlock
     s.ctx? 0 = some areaCtx ∧ areaOk areaCtx = true ∧ (spillBlocks s 0).map (·.1) = [1] ∧ settled s 1 = true ∧
     (∀ e ∈ tentries s.ctxs, e.2.stopping = false) ∧ ∀ e ∈ spillBlocks s 0, e.2.ctx = 0) ∧
    (let s := ((w0.setCtx 0 areaCtx).setBlock 1 swappedBlock).setReq 9 (some (testReq (.load true)))
     settled s 1 = true ∧ s.req? 9 = some (testReq (.load true)) ∧ (testReq (.load true)).gang / 16 = 1 ∧
     (testReq (.load true)).allPerformed = false) ∧
    (∀ f : Bool, ((w0.setPart 0 { partDefault with filled := f }).part 0).filled = f) := by
  refine ⟨?_, ?_, ?_, ?_, ?_, ?_, ?_, ?_, ?_, ?_, ?_, ?_, ?_⟩ <;> decide +kernel

/-- The state with an invalidation of context 0 running. -/
def invState (pages stage : Nat) : State := { w0 with pf := { w0.pf with invRun := some (stage, 0, 0, pages) } }

theorem meets_HypervisorRegisters :
    (¬(∃ p < 8, (w0.vf 0).vpart.getLsbD p = true ∧ (3 : BitVec 8).getLsbD p = false ∧ vfResident w0 0 p = true)) ∧ (3 : BitVec 8) ≠ 0 ∧
    ((0 < 8 ∧ (w0.vf 0).vpart.getLsbD 0 = true ∧ (2 : BitVec 8).getLsbD 0 = false ∧ vfResident w0 0 0 = true) ∧ vfHasCtx w0 0 = true) ∧
    (8 < ((List.range 64).countP fun i => (0x1FF : DWord).getLsbD i) ∧ vfHasCtx w0 1 = false) ∧
    (twf 0 w0.pf.floors = true ∧ (∀ j < 4, tget 0 w0.pf.floors (0 * 64 + (4 * 0 + j)) = 0) ∧ otherFloors w0 0 0 + 2764 ≤ 2764 ∧
      2764 < otherFloors w0 0 0 + 2765) ∧
    tget 0 (atCycle w0 2048).pf.windowAt 0 < (atCycle w0 2048).cycle / 2048 ∧
    (w0.pf.invRun = none ∧ (2 ^ 63 : DWord).getLsbD 63 = true ∧ (2 ^ 63 : DWord).toNat / 2 ^ 59 % 4 ≠ 3) ∧
    ((invState 1 0).pf.invRun ≠ none ∧ (∀ e ∈ tentries (invState 1 0).reqs, invUser 0 0 0 1 e.2 = false) ∧
      invEngine (invState 1 0) 0 0 0 1 = false ∧ (invState 0 2).pf.invRun = some (2, 0, 0, 0) ∧ descriptorAt (invState 0 0) 0 = none ∧
      descriptorReady (invState 0 0) 0 = true ∧ descriptorReady { areaState with pf := { areaState.pf with ready := [] } } 7 = false) ∧
    (let s := areaState.setCtx 7 areaCtx
     s.ctx? 7 = some areaCtx ∧ areaCtx.state ≠ .killed ∧ descriptorAt s 7 = some 0x1000 ∧ (readDescriptor s 0x1000 areaCtx).isSome = true) ∧
    ((turnTo w0 (.mmioRead (.kick 0) 0 8)).agenda = [.mmioRead (.kick 0) 0 8] ∧ (vfQueues w0 1)[0]? = none ∧ (vfQueues w0 0)[0]? = some 0) ∧
    (w0.ctx? (w0.pf.dtsel.toNat / 2 ^ 32 % 2 ^ 16) = some { freshCtx with parts := 1 } ∧ dtOpen w0 = true ∧
      (({ freshCtx with parts := 1 } : Context).dirty + 8 * (w0.pf.dtsel.toNat % 2 ^ 26)) = 0 ∧ (sectorRead w0 (0 / 32)).2 = false ∧
      dtOpen { w0 with pf := { w0.pf with ready := [] } } = false ∧
      (sectorRead { w0 with mem := { w0.mem with poison := [0] } } (0 / 32)).2 = true) ∧
    ((turnTo w0 (.vfWrite 0 0x2010 8 5)).agenda = [.vfWrite 0 0x2010 8 5] ∧ (turnTo w0 (.mmioRead (.vf 0) 0x2010 8)).agenda = [.mmioRead (.vf 0) 0x2010 8]) := by
  refine ⟨?_, ?_, ?_, ?_, ?_, ?_, ?_, ?_, ?_, ?_, ?_, ?_⟩ <;> decide +kernel

/-- R408: the meter page of a virtual function at 0x2000 of its BAR0: ENCTX is written and read there, and the kick page at 0. -/
theorem test_vf_bar0 : ((afterStep (turnTo w0 (.vfWrite 0 0x2010 8 5))).vf 0).enctx = 5 ∧
    ((afterStep (turnTo (w0.setVf 0 { vfDefault with enctx := 5 }) (.mmioRead (.vf 0) 0x2010 8))).mmioOut.map (·.toNat)) = [5] ∧
    ((afterStep (turnTo w0 (.vfWrite 0 0 8 7))).queue 0).tail = 7 := by decide +kernel

-- Meters and upkeep.

/-- The physical function's request of a record to 0x10000, the block at 0x400; both readable by it. -/
def meterBlock : List Byte := (List.range 64).map fun i => if i = 10 then 1 else 0
def meterState : State :=
  { ((List.range 64).foldl (fun s v => s.setVf v { vfDefault with vpart := 1 }) ((allReady w0).writePhys 0x408 8 0x10000)).setVf 64
      { vfDefault with enreq := [(65536, 0x400)] } with
      pf := { w0.pf with ready := .port 12 :: .port 13 :: (allReady w0).pf.ready } }

/-- The state of which the meters are read at the end of an interval. -/
def intervalState (slots : Tab Nat) : State :=
  { w0 with cycle := 20000, pf := { w0.pf with ready := [.port 13] }, energy := { w0.energy with slots := slots } }

theorem meets_MetersAndUpkeep :
    (let s := w0.setVf 0 { vfDefault with enctx := 0 }
     s.ctx? (s.vf 0).enctx = some { freshCtx with parts := 1 } ∧ (s.vf 0).enreq.length < 16) ∧
    (w0.ctx? (w0.vf 1).enctx = none ∧ (w0.ring 1).pend.length < 64) ∧
    (let s := w0.setVf 0 { vfDefault with enctx := 0, enreq := List.replicate 16 (0, 0x40) }
     (s.vf 0).enreq.length = 16 ∧ meterOpen { s with pf := { s.pf with ready := [] } } 0 0 0x40 = false) ∧
    ((meterState.vf 64).enreq = [(65536, 0x400)] ∧ FnId.port 12 ∈ meterState.pf.ready ∧ meterOpen meterState 64 65536 0x400 = true ∧
      readMeter (blockSlots meterState 64 65536 0x400) 64 65536 0x400 = some meterBlock ∧
      badBlock meterBlock = false ∧ blockValue meterBlock 0 1 = 0 ∧ meterState.ctx? 65536 = none ∧ blockValue meterBlock 8 8 = 0x10000 ∧
      (∀ u < 64, 0 < ((List.range 8).filter fun p => (meterState.vf u).vpart.getLsbD p).length ∧ 8 * u + 0 ∉ meterState.energy.moved) ∧
      ∀ i < 521, backed (0x10000 + 32 * i) 1 = true) ∧
    ((intervalState [(3 * 1024 + 5, 2)]).energy.since + 20000 ≤ (intervalState [(3 * 1024 + 5, 2)]).cycle ∧
      usersOf (intervalState [(3 * 1024 + 5, 2)]).energy.slots 3 = [(5, 2)] ∧ usersOf (intervalState []).energy.slots 3 = [] ∧
      FnId.port 13 ∈ (intervalState []).pf.ready) ∧
    (let r : ExportRec := ⟨1, 0, 0, 5, 1, true, true⟩
     r.sigR = true ∧ r.sigS = true ∧ tget 0 w0.energy.seen r.src < r.seq ∧ (⟨1, 0, 0, 5, 0, true, true⟩ : ExportRec).seq ≤ tget 0 w0.energy.seen 1) ∧
    (let s := w0.setCtx 0 { freshCtx with parts := 1, state := .stopped }
     s.ctx? 0 = some { freshCtx with parts := 1, state := .stopped }) ∧
    (∀ n ∈ [0, 1, 2], let s := { meterState with energy := { meterState.energy with spdm := n } }
      s.energy.spdm = n ∧ 3 ≤ (spdmAnswer s .getDigests).1) ∧
    (let s := atCycle w0 64000000
     FnId.chan 0 ∈ s.pf.ready ∧ tget 0 s.mem.calat 0 + 2000000 * tget 32 s.mem.calint 0 ≤ s.cycle) ∧
    (let s := { atCycle w0 200000000000000 with
       pf := { w0.pf with ready := (List.range 512).map FnId.chan } }
     0 < hbmPages ∧ lastTenth s = true ∧ 0 ∉ s.mem.ckptPages ∧ 0 ∉ s.mem.patrolPages ∧ pageReady s 0 = true ∧ pageOpen s 0 = true ∧
     s.mem.periodStart + 2000000000 * s.mem.period ≤ s.cycle) ∧
    ((turnTo w0 (.firmware 3 [1] true true)).agenda = [.firmware 3 [1] true true] ∧
      (turnTo w0 (.firmware 3 [1] true false)).agenda = [.firmware 3 [1] true false]) ∧ (w0.mem.stale.map (·.1)).Nodup ∧
    (isFn (.core 255) = true ∧ FnId.core 255 ∉ w0.pf.ready ∧ FnId.core 255 ∉ w0.pf.failed) := by
  refine ⟨?_, ?_, ?_, ?_, ?_, ?_, ?_, ?_, ?_, ?_, ?_, ?_, ?_⟩ <;> decide +kernel

-- Steps, encodings and the forms that every step keeps.

theorem meets_StepRunsDecoded : (turnTo w0 (.elapse 3)).agenda = [.elapse 3] ∧ w0.agenda = [.issue 16] ∧ encode (.scrubPeriod) = none ∧
    (quarterGangs w0 16 = [(16, testGang 1)] ∧ w0.gang? 16 = some (testGang 1) ∧ (testGang 1).splitList.length ≤ 1 ∧
      (testGang 1).sched.active = true ∧ cycleOpen w0 (testGang 1) = true) ∧
    mayIssue (issuer { gangState (fun g => { g with sched := { g.sched with issued := some 0 } }) with agenda := [] } 16) 16 = false ∧
    (let u := issuer { w0 with agenda := [] } 16
     mayIssue u 16 = true ∧ u.block? 1 = some testBlock ∧ u.tlbGet 0 0 (0 / 2 ^ 16) = some (.page 0 0 true true true) ∧
     placeOpen u (ctxVf u 0) ⟨false, 0, 0, 0⟩ 1 = true ∧ (0, 0) ∈ u.core.icache ∧
     (u.gang? 16).all (fun g => decide (g.sched.active = true ∧ g.traps = [] ∧ fairDue g = false ∧
       g.split? = some (firstSplit 1 0 (BitVec.allOnes 64)))) = true) ∧
    ((w0.byte 0).toNat % 4 ≠ 3 ∧ decodeBytes ((List.range (lenBytes (w0.byte 0).toNat)).map fun j => w0.byte (0 + j)) = .ok .nop ∧
      0 % 32 + lenBytes (w0.byte 0).toNat ≤ 32) := by
  refine ⟨?_, ?_, ?_, ?_, ?_, ?_, ?_⟩ <;> decide +kernel

theorem meets_DecodeOfEncode : (Instr.addk 4 5 6).wf = true ∧ encode (.addk 4 5 6) = some 0x0C0A080028 := by decide +kernel

theorem meets_EncodeOfDecode : decode 0x0C0A080028 = .ok (.addk 4 5 6) := by decide +kernel

/-- Whether a step answers a next state. -/
def stepsOn (s : State) : Bool := match step s with | .next _ => true | _ => false

theorem meets_StepKeepsStores : Canon w0 ∧ stepsOn w0 = true :=
  ⟨⟨by decide +kernel, by decide +kernel, by decide +kernel⟩, by decide +kernel⟩

theorem meets_StepKeepsKeys : Keyed w0 ∧ stepsOn w0 = true := by
  refine ⟨⟨?_, ?_, ?_, ?_, ?_, ?_⟩, ?_⟩ <;> decide +kernel

-- Ill-formed terms, each refused by the check that is named (R48 to R63, and the rule of each instruction).

theorem refuses_registers : (Instr.exit ⟨8, false⟩).check = some .badRegister ∧ (Instr.addk 64 0 0).check = some .badRegister ∧
    (Instr.mand 8 0 0).check = some .badRegister ∧ (Instr.vand pAll 256 0 0).check = some .badRegister ∧
    (Instr.vadd pAll false .s32 256 0 0).check = some .badRegister ∧
    (Instr.ld pAll .full .b32 .plain .gang .global 4 ⟨64, none, 0⟩ 0).check = some .badRegister ∧
    (Instr.ld pAll .full .b32 .plain .gang .global 4 ⟨5, some 256, 0⟩ 0).check = some .badRegister ∧
    (Instr.rld pAll .full .b32 .plain 4 (.uni 64) none 0 0).check = some .badRegister ∧
    (Instr.vcmp pAll .eq (.and 8) .s32 1 4 5).check = some .badRegister := by decide +kernel

theorem refuses_pairs : (Instr.vadd pAll false .s64 5 4 6).check = some .badPair ∧
    (Instr.atom pAll .cas true .s32 .plain .gang .global 3 atK5 0).check = some .badPair ∧
    (Instr.atom pAll .cas true .s64 .plain .gang .global 2 atK5 0).check = some .badPair ∧
    (Instr.atom pAll .add true .s64 .plain .gang .global 3 atK5 0).check = some .badPair ∧
    (Instr.atomk .cas .s32 .plain .gang .global 3 atK5 0).check = some .badPair := by decide +kernel

theorem refuses_types : (Instr.vadd pAll false .f32 4 5 6).check = some .badType ∧
    (Instr.ld pAll .w8 .f32 .plain .gang .global 4 atK5 0).check = some .badType ∧
    (Instr.st pAll .w8 .s32 .plain .gang .global atK5 4).check = some .badType ∧
    (Instr.ldk .full .f32 .plain .gang .global 4 atK5 0).check = some .badType ∧
    (Instr.stk .full .f32 .plain .gang .global atK5 4).check = some .badType ∧
    (Instr.ldk .full .s32 .plain .gang .engine 4 atK5 0).check = some .badType ∧
    (Instr.atom pAll .incw true .s32 .plain .gang .global 4 atK5 0).check = some .badType ∧
    (Instr.lr pAll .bf16x2 .plain .gang 4 atK5 0).check = some .badType ∧
    (Instr.vcmp pAll .lt .plain .b32 1 4 5).check = some .badType ∧
    (Instr.cvt pAll .rne false false .f32 .f32 4 5 0 0).check = some .badType := by decide +kernel

theorem refuses_forms : (Instr.bra 2).check = some .badOffset ∧ (Instr.vadd pAll true .s64 4 6 8).check = some .badFn ∧
    (Instr.shfl pAll .idx 6 .b32 4 5 (.imm 0)).check = some .badFn ∧ (Instr.cvt pAll .rne false true .f32 .s32 4 5 0 0).check = some .badFn ∧
    (Instr.cvt pAll .rne true false .d8x4 .s32 4 5 0 0).check = some .badFn ∧
    (Instr.ldk .full .s32 .plain .gang .global 4 ⟨5, some 6, 0⟩ 0).check = some .unusedField ∧
    (Instr.ld pAll .full .b32 .plain .gang .global 4 atK5 16).check = some .badLa ∧
    (Instr.atom pAll .add false .s32 .plain .gang .global 4 atK5 3).check = some .badLa ∧
    (Instr.ld pAll .full .b32 .plain .gang .engine 4 atK5 0).check = some .badSpace ∧
    (Instr.stk .full .s64 .plain .gang .accum atK5 4).check = some .badSpace ∧
    (Instr.ld pAll .full .b32 .rel .gang .global 4 atK5 0).check = some .badScope ∧
    (Instr.st pAll .full .b32 .acq .gang .global atK5 4).check = some .badScope ∧
    (Instr.ldk .full .s64 .plain .device .engine 4 atK5 0).check = some .badScope ∧ (Instr.swr .lcnt 4).check = some .badSysReg := by
  decide +kernel

theorem refuses_immediates : (Instr.vshlImm pAll .s32 4 5 32).check = some .badImmediate ∧
    (Instr.shlkImm 4 5 64).check = some .badImmediate ∧ (Instr.vprmb pAll 4 5 6 0x09).check = some .badImmediate ∧
    (Instr.vtok .b32 4 5 64).check = some .badImmediate ∧ (Instr.cjoin 32).check = some .badImmediate ∧
    (Instr.setpri 16).check = some .badImmediate ∧ (Instr.waitc 64 0).check = some .badImmediate ∧
    (Instr.perform pAll .one 4 5 6 15).check = some .badImmediate ∧ (Instr.gset 0 .setTrue).check = some .badImmediate ∧
    (Instr.cvt pAll .rne false false .f32 .f16x2 4 5 2 0).check = some .badImmediate := by decide +kernel

theorem refuses_pair_words : (Instr.pair { slotA with t := .s64 } slotB).check = some .pairOp ∧
    (Instr.pair { slotA with c := 1 } slotB).check = some .unusedField ∧ (Instr.pair slotA { slotB with d := 9 }).check = some .pairBank ∧
    (Instr.pair slotA { slotB with a := 12, b := 13 }).check = some .pairPorts ∧
    (Instr.pair slotA { slotB with a := 5, b := 8 }).check = some .pairDepends := by decide +kernel

theorem refuses_matrix : (Instr.mres true false .bf16x2 4 0 0 64 512).check = some .badFn ∧ (Instr.mres false false .e2m1x8 4 0 0 64 0).check = some .badFn ∧
    (Instr.mres false false .bf16x2 4 0 0 63 0).check = some .badImmediate ∧ (Instr.mres false false .bf16x2 4 0 0 64 1).check = some .unusedField ∧
    (Instr.mres false false .bf16x2 4 8 0 64 0).check = some .badRegister ∧ (Instr.mld false false .global 0 4 0 5 1).check = some .unusedField ∧
    (Instr.mma false false 32 0 0 0 0 0).check = some .badRegister ∧ (Instr.mma false false 0 0 0 0 0 64).check = some .badImmediate ∧
    (Instr.ard .rne false false .n64 4 0 0 0).check = some .badFn ∧ (Instr.ard .rne false false .f32 4 0 0 0).check = some .badFn ∧
    (Instr.ard .rne false true .bf16x2 4 0 0 0).check = some .badFn ∧ (Instr.ard .dyn false false .bf16x2 4 0 63 0).check = some .badImmediate ∧
    (Instr.rcmode true 1 0).check = some .unusedField ∧ (Instr.rccap (.row 64) 4 0).check = some .badImmediate := by decide +kernel

-- Words that the spec's files write out, each beside the instruction that it is there said to be.

theorem word_control : decode 0 = .ok .nop ∧ decode 0x4004 = .ok (.exit ⟨2, false⟩) ∧ decode 0x14_00000000_00000009 = .ok (.bra 0x14) ∧
    decode 0x220_01800400_0800000D = .ok (.brc .ltu 4 (.imm 2) 0x220) ∧ decode 0x20_00000000_06000011 = .ok (.brd false 3 0x20) ∧
    decode 0x20_00200000_04000015 = .ok (.brv .all 2 0x20) ∧ decode 0x100_00000000_00780019 = .ok (.call 60 0x100) ∧
    decode 0x7800001C = .ok (.ret 60) ∧ decode 0x20 = .ok .merge := by decide +kernel

theorem word_uniform : decode 0x40_00000000_00080025 = .ok (.movk .sext 4 0x40) ∧ decode 0xFF_00800000_0208002D = .ok (.andkImm 4 1 0xFF) ∧
    decode 0x1_00200000_080E002D = .ok (.subkImm 7 4 1) ∧ decode 0x00800008_0E100028 = .ok (.andk 8 7 4) ∧
    decode 0x7_00E00000_080C002D = .ok (.shlkImm 6 4 7) ∧ decode 0x00200030_002C0028 = .ok (.subk 22 0 24) ∧
    decode 0x00C0002C_30300028 = .ok (.xork 24 24 22) := by decide +kernel

theorem word_moves : decode 0x00400000_0E040030 = .ok (.ktom 2 7) ∧ decode 0x00A00000_0A2A0034 = .ok (.mfirst 21 5) ∧
    decode 0x00400000_00280038 = .ok (.movx (.toK 20)) ∧ decode 0x00200060_1200003C = .ok (.swr .pri 9) ∧
    decode 0x00200082_1600003C = .ok (.swrRcstat 11) ∧ decode 0x82_0014003C = .ok (.srd 10 .rcstat) := by decide +kernel

theorem word_system : decode 0x400_00000040 = .ok (.trap 2) ∧ decode 0x44 = .ok .bar ∧ decode 0x600_0000004C = .ok (.cleave 3) ∧
    decode 0x600_00000050 = .ok (.cbar 3) ∧ decode 0x1800_00000054 = .ok (.setpri 12) ∧ decode 0x58 = .ok .yieldTurn ∧
    decode 0x4_0000005C = .ok (.waitc 2 0) ∧ decode 0x10000060 = .ok (.sleep 8) := by decide +kernel

theorem word_effects : decode 0x68 = .ok .hpop ∧ decode 0x00002000_1012406C = .ok (.perform ⟨2, false⟩ .one 9 8 0 16) ∧
    decode 0x00402200_0C10606C = .ok (.perform ⟨3, false⟩ .none 8 6 0 17) ∧ decode 0x28_16000074 = .ok (.fwd 11 20) ∧
    decode 0x16000078 = .ok (.tkdrop 11) ∧ decode 0x161A007C = .ok (.tkstat 13 11) := by decide +kernel

theorem word_memory : decode 0x8_00200000_08120481 = .ok (.ld pAll .full .b32 .plain .gang .scratch 9 ⟨4, none, 8⟩ 2) ∧
    decode 0xFFFFFFF8_20000004_08120281 = .ok (.ld pAll .full .b32 .plain .gang .global 9 ⟨4, some 2, -8⟩ 1) ∧
    decode 0x14001000_0C000085 = .ok (.st pAll .full .b32 .rel .device .global ⟨6, none, 0⟩ 8) ∧
    decode 0x60200E0C_00004085 = .ok (.st ⟨2, false⟩ .w8 .b32 .plain .gang .scratch ⟨0, some 6, 0⟩ 7) ∧
    decode 0x100_00040000_362E0089 = .ok (.ldk .full .n32 .plain .gang .global 23 ⟨27, none, 0x100⟩ 0) ∧
    decode 0x20_007A0000_0000008D = .ok (.stk .full .n64 .plain .gang .engine ⟨0, none, 0x20⟩ 0) := by decide +kernel

theorem word_atomic : decode 0x20240020_1A280091 = .ok (.atom pAll .add false .n32 .plain .gang .scratch 20 ⟨13, some 16, 0⟩ 0) ∧
    decode 0x14000000_000000A0 = .ok (.fence .rel .device) ∧ decode 0x5C000000_000000A0 = .ok (.fence .sc .device) ∧
    decode 0x00200000_0A0E00A8 = .ok (.twait true 7 5) ∧ decode 0x00400000_000600B4 = .ok (.gset 3 .setTrue) := by decide +kernel

theorem word_fabric : decode 0x20040004_120608C9 = .ok (.ratom pAll .add .n32 .plain 3 (.uni 9) (some 2) 0 4) ∧
    decode 0xCC = .ok (.rfence false) ∧ decode 0x40000000_000000CC = .ok (.rfence true) := by decide +kernel

theorem word_vector : decode 0x0024000A_080C00D4 = .ok (.vmulh pAll .n32 6 4 5) ∧ decode 0x0024000C_060A00D8 = .ok (.vshr pAll .n32 5 3 6) ∧
    decode 0xAC800E0C_0A0800DC = .ok (.vlop3 pAll 0xAC 4 5 6 7) ∧ decode 0x00800000_020800E0 = .ok (.vbrev pAll 4 1) ∧
    decode 0x00200014_180800E8 = .ok (.vcmp pAll .ne .plain .b32 4 12 10) ∧ decode 0x181400F0 = .ok (.vmov pAll .b32 10 12) ∧
    decode 0x7F7F7F7F_00000000_000200F5 = .ok (.vmovi pAll .b32 1 0x7F7F7F7F) ∧
    decode 0x2_01040000_000600F9 = .ok (.vshlImm pAll .n32 3 0 2) ∧ decode 0x0024042A_0C0E00FC = .ok (.vcsub pAll .n32 7 6 21 (some 2)) := by
  decide +kernel

theorem word_float : decode 0x02060006_04020100 = .ok (.fadd pAll .rz .f32 1 2 3) ∧
    decode 0x13062000_0410011C = .ok (.cvt pAll .rne true false .e4m3x4 .f32 8 2 0 1) ∧ decode 0x00200000_0012012C = .ok (.fstat true 9) := by
  decide +kernel

theorem word_lanes : decode 0x0D202000_04060140 = .ok (.shfl pAll .xor 5 .b32 3 2 (.imm 16)) ∧
    decode 0x0A040000_141C0144 = .ok (.vred pAll .add 5 .n32 14 10 0) ∧ decode 0x1A040000_14160148 = .ok (.vscan pAll true .add 5 .n32 11 10 0) ∧
    decode 0x02800000_0A0C054C = .ok (.matchLanes pAll .rank 5 .b32 6 5 2) ∧ decode 0x00200000_00020158 = .ok (.vlane pAll .blk 1) := by
  decide +kernel

theorem word_matrix : decode 0x20020000_00500000_00100161 = .ok (.mres true false .e4m3x4 8 0 0 128 256) ∧
    decode 0x2000_0020000C_08020169 = .ok (.mld false false .scratch 1 4 0x2000 6 0) ∧
    decode 0x4000_8020000E_08000169 = .ok (.mld true false .scratch 0 4 0x4000 7 0) ∧
    decode 0x00030000_00200002_000A0171 = .ok (.mma false true 5 0 1 0 0 3) ∧ decode 0x140174 = .ok (.mbatch 10) ∧
    decode 0x14160178 = .ok (.mwait 11 10) ∧ decode 0x5_40060000_0008017D = .ok (.ard .dyn false false .f32 4 5 0 0) := by decide +kernel

theorem word_millrace : decode 0x0E000184 = .ok (.rcmode false 7 0) ∧ decode 0x10000180 = .ok (.rcwin 8) ∧
    decode 0x00201200_00000189 = .ok (.rcld false 0 0 9) ∧ decode 0x16_1400018C = .ok (.rcgo 10 11) ∧
    decode 0x180190 = .ok (.rccap .lo 12 0) ∧ decode 0x194 = .ok .rcclr := by decide +kernel


-- One step of an instruction on values: the expected result stands in the rule named, or follows from it by hand.

/-- The uniform register `d` after `i`, on the uniform registers `l`. -/
def kOut (i : Instr) (l : List (Nat × DWord)) (d : Nat) : Option Nat :=
  match exec i (kState l) with
  | .next t => (t.gang? 16).map fun g => (g.kget d).toNat
  | _ => none

/-- The gang after `i`, its vector registers 5, 6 and 7 holding `a`, `b` and `c`, and k3 holding `k`. -/
def vGang (i : Instr) (a b c : List Word) (k : DWord) : Option Gang :=
  match exec i (gangState fun g => { g with regs := (((g.regs.vset 5 a).vset 6 b).vset 7 c).kset 3 k }) with
  | .next t => t.gang? 16
  | _ => none

/-- Lane 9 of vector register 4 after `i`, each lane of registers 5, 6 and 7 holding `a`, `b` and `c`. -/
def vOut (i : Instr) (a b c : Word) : Option Nat :=
  (vGang i (List.replicate 64 a) (List.replicate 64 b) (List.replicate 64 c) 0).map fun g => g.regs.lane1 4 9

/-- The flags of FSR then. -/
def vFsr (i : Instr) (a b c : Word) : Option Nat :=
  (vGang i (List.replicate 64 a) (List.replicate 64 b) (List.replicate 64 c) 0).map fun g => g.regs.fsr.toNat

/-- Lane `l` of vector register 4 after `i`, where register 5 holds each lane's number. -/
def laneOut (i : Instr) (l : Nat) : Option Nat :=
  (vGang i ((List.range 64).map (BitVec.ofNat 32)) vzero vzero 0).map fun g => g.regs.lane1 4 l

/-- R184: sums wrap, the high half of a product is signed or not, a source may be the destination, and k0 keeps 0. -/
theorem test_uniform_arithmetic :
    kOut (.addk 4 5 6) [(5, BitVec.allOnes 64), (6, 1)] 4 = some 0 ∧ kOut (.subk 4 5 6) [(6, 1)] 4 = some (2 ^ 64 - 1) ∧
    kOut (.mulhk true 4 5 6) [(5, BitVec.allOnes 64), (6, BitVec.allOnes 64)] 4 = some 0 ∧
    kOut (.mulhk false 4 5 6) [(5, BitVec.allOnes 64), (6, BitVec.allOnes 64)] 4 = some (2 ^ 64 - 2) ∧
    kOut (.mink true 4 5 6) [(5, BitVec.allOnes 64), (6, 1)] 4 = some (2 ^ 64 - 1) ∧
    kOut (.maxk false 4 5 6) [(5, BitVec.allOnes 64), (6, 1)] 4 = some (2 ^ 64 - 1) ∧
    kOut (.subk 5 5 6) [(5, 7), (6, 3)] 5 = some 4 ∧ kOut (.addk 0 5 6) [(5, 1), (6, 1)] 0 = some 0 := by decide +kernel

/-- R184: a shift uses the low six bits of its amount, and SARK repeats the sign. -/
theorem test_uniform_shifts :
    kOut (.shlk 4 5 6) [(5, 3), (6, 65)] 4 = some 6 ∧ kOut (.shrk 4 5 6) [(5, 1 <<< 63), (6, 63)] 4 = some 1 ∧
    kOut (.sark 4 5 6) [(5, 1 <<< 63), (6, 63)] 4 = some (2 ^ 64 - 1) := by decide +kernel

/-- R184, R183: an immediate is sign-extended, and the forms of MOVK. -/
theorem test_uniform_immediates :
    kOut (.addkImm 4 5 0xFFFFFFFF) [(5, 1)] 4 = some 0 ∧ kOut (.andkImm 4 5 0xFFFFFFF0) [(5, 0x10000000F)] 4 = some 0x100000000 ∧
    kOut (.movk .sext 4 0x80000000) [] 4 = some 0xFFFFFFFF80000000 ∧ kOut (.movk .zext 4 0x80000000) [] 4 = some 0x80000000 ∧
    kOut (.movk .high 4 7) [(4, 0x123456789)] 4 = some 0x723456789 := by decide +kernel

/-- R187: MPOPC of all 64 lanes, and MFIRST of a mask with no lane and of one with all. -/
theorem test_masks : kOut (.mpopc 4 0) [] 4 = some 64 ∧ kOut (.mfirst 4 1) [] 4 = some (2 ^ 64 - 1) ∧ kOut (.mfirst 4 0) [] 4 = some 0 := by
  decide +kernel

/-- R249 to R251: halves wrap or saturate on their own, and the high half of a product is signed or not. -/
theorem test_vector_sums :
    vOut (.vadd pAll false .s16x2 4 5 6) 0x7FFF0001 0x00010001 0 = some 0x80000002 ∧
    vOut (.vadd pAll true .s16x2 4 5 6) 0x7FFF0001 0x00010001 0 = some 0x7FFF0002 ∧
    vOut (.vsub pAll true .n16x2 4 5 6) 0x00010005 0x00020001 0 = some 0x00000004 ∧
    vOut (.vabs pAll true .s32 4 5) 0x80000000 0 0 = some 0x7FFFFFFF ∧ vOut (.vabs pAll false .s32 4 5) 0x80000000 0 0 = some 0x80000000 ∧
    vOut (.vmulh pAll .s32 4 5 6) 0xFFFFFFFF 2 0 = some 0xFFFFFFFF ∧ vOut (.vmulh pAll .n32 4 5 6) 0xFFFFFFFF 2 0 = some 1 ∧
    vOut (.vmad pAll .s32 4 5 6 7) 3 5 0xFFFFFFFF = some 14 := by decide +kernel

/-- R252 to R255: shifts and rotations, the bit select with 0xAC, bit fields, counts, and the byte permutation of R255. -/
theorem test_vector_bits :
    vOut (.vshl pAll .n32 4 5 6) 3 33 0 = some 6 ∧ vOut (.vsar pAll .s32 4 5 6) 0x80000000 31 0 = some 0xFFFFFFFF ∧
    vOut (.vrot pAll .n32 4 5 6) 0x80000001 4 0 = some 0x18 ∧
    vOut (.vlop3 pAll 0xAC 4 5 6 7) 0xF0F0F0F0 0x12345678 0x9ABCDEF0 = some 0x90B0D0F8 ∧
    vOut (.vbfx pAll .s32 4 5 6) 0xF0 0x404 0 = some 0xFFFFFFFF ∧ vOut (.vbfx pAll .n32 4 5 6) 0xF0 0x404 0 = some 0xF ∧
    vOut (.vbfi pAll 4 5 6 7) 0xF 0x404 0 = some 0xF0 ∧ vOut (.vpopc pAll 4 5) 0xF0 0 0 = some 4 ∧ vOut (.vclz pAll 4 5) 0 0 0 = some 32 ∧
    vOut (.vbrev pAll 4 5) 1 0 0 = some 0x80000000 ∧ vOut (.vprmb pAll 4 5 6 0x14141404) 0 0x80 0 = some 0xFFFFFF80 := by decide +kernel

/-- R259: the row of lane 1 in its table, and a value below the modulus. -/
theorem test_vcsub : vOut (.vcsub pAll .n32 4 5 6 (some 2)) 12290 12289 0 = some 1 ∧ vOut (.vcsub pAll .n32 4 5 6 none) 1688 12289 0 = some 1688 ∧
    vOut (.vcsub pAll .n32 4 5 6 none) 12289 12289 0 = some 0 := by decide +kernel

/-- R260, R233: 1 + 2^-24 to nearest even and upward, 2 times 3 in f16, and the sum of the largest f32 with itself. -/
theorem test_float_sums :
    vOut (.fadd pAll .rne .f32 4 5 6) 0x3F800000 0x33800000 0 = some 0x3F800000 ∧
    vOut (.fadd pAll .ru .f32 4 5 6) 0x3F800000 0x33800000 0 = some 0x3F800001 ∧
    vOut (.fmul pAll .rne .f16x2 4 5 6) 0x40004000 0x42004200 0 = some 0x46004600 ∧
    vOut (.fadd pAll .rz .f32 4 5 6) 0x7F7FFFFF 0x7F7FFFFF 0 = some 0x7F7FFFFF ∧
    vOut (.fadd pAll .rne .f32 4 5 6) 0x7F7FFFFF 0x7F7FFFFF 0 = some 0x7F800000 ∧
    vOut (.ffma pAll true false .rne .f32 4 5 6 7) 0x40000000 0x40400000 0x3F800000 = some 0x40A00000 := by decide +kernel

/-- R261, R235: the other operand of a NaN, the order of the zeros, and the sum of opposite zeros. -/
theorem test_float_special :
    vOut (.fmin pAll .f32 4 5 6) 0x7FC00000 0x3F800000 0 = some 0x3F800000 ∧ vOut (.fmin pAll .f32 4 5 6) 0 0x80000000 0 = some 0x80000000 ∧
    vOut (.fmax pAll .f32 4 5 6) 0 0x80000000 0 = some 0 ∧ vOut (.fadd pAll .rne .f32 4 5 6) 0 0x80000000 0 = some 0 ∧
    vOut (.fadd pAll .rd .f32 4 5 6) 0 0x80000000 0 = some 0x80000000 ∧ vOut (.fmul pAll .rne .f32 4 5 6) 0 0x7F800000 0 = some 0x7FC00000 := by
  decide +kernel

/-- R276: the rows of its table for segments of 8 lanes and the offset 3. -/
theorem test_shfl :
    laneOut (.shfl pAll .xor 2 .b32 4 5 (.imm 3)) 13 = some 14 ∧ laneOut (.shfl pAll .up 2 .b32 4 5 (.imm 3)) 13 = some 10 ∧
    laneOut (.shfl pAll .down 2 .b32 4 5 (.imm 3)) 13 = some 13 ∧ laneOut (.shfl pAll .up 2 .b32 4 5 (.imm 3)) 9 = some 9 ∧
    laneOut (.shfl pAll .down 2 .b32 4 5 (.imm 3)) 9 = some 12 ∧ laneOut (.shfl pAll .xor 2 .b32 4 5 (.imm 3)) 12 = some 15 := by decide +kernel

/-- R279, R280: a ballot leaves out lane 0, whose value is 0, and each lane's number. -/
theorem test_ballot :
    ((vGang (.ballot pAll (.uni 10) 5) ((List.range 64).map (BitVec.ofNat 32)) vzero vzero 0).map fun g => (g.kget 10).toNat) =
      some (2 ^ 64 - 2) ∧
    laneOut (.vlane pAll .idx 4) 37 = some 37 ∧ laneOut (.vlane pAll .rank 4) 37 = some 37 ∧ laneOut (.vlane pAll .blk 4) 37 = some 37 := by
  decide +kernel

/-- R239 to R241: the sticky flags of a rounding, an overflow, an invalid product and a saturation, and none of a sum that wraps. -/
theorem test_flags :
    vFsr (.fadd pAll .rne .f32 4 5 6) 0x3F800000 0x33800000 0 = some 0x10 ∧ vFsr (.fadd pAll .rz .f32 4 5 6) 0x7F7FFFFF 0x7F7FFFFF 0 = some 0x14 ∧
    vFsr (.fmul pAll .rne .f32 4 5 6) 0 0x7F800000 0 = some 1 ∧ vFsr (.vadd pAll true .s16x2 4 5 6) 0x7FFF0001 0x00010001 0 = some 0x20 ∧
    vFsr (.vadd pAll false .s16x2 4 5 6) 0x7FFF0001 0x00010001 0 = some 0 ∧ vFsr (.fmin pAll .f32 4 5 6) 0x7F800001 0 0 = some 1 := by
  decide +kernel

/-- R152, R358: a kick word reads as HEAD and TAIL, and a register read of another size than 8 bytes as zero. -/
theorem test_register_reads : ([8, 4].map fun n =>
    ((afterStep (turnTo (w0.setQueue 0 { queueDefault with head := 5, tail := 7 }) (.mmioRead (.kick 0) 0 n))).mmioOut).map (·.toNat)) =
      [[5 * 2 ^ 32 + 7], [0]] := by decide +kernel

/-- R8: a firmware image runs if both signatures verify, and is rejected as a whole otherwise. -/
theorem test_firmware : ([true, false].map fun v => (afterStep (turnTo w0 (.firmware 3 [1] true v))).energy.images) = [[(3, [1])], []] := by
  decide +kernel

/-- R159: a gang issues once in a cycle. -/
theorem test_once_a_cycle : (let s := { afterStep w0 with agenda := [.issue 16] }
    [s, { s with cycle := 1 }].map fun s => (((afterStep s).gang? 16).bind (·.split?)).map fun sp => sp.pc.toNat) = [some 8, some 16] := by
  decide +kernel

/-- R380: TRAP stops its gang. -/
theorem test_trap : (match exec (.trap 7) w0 with
    | .next t => (t.gang? 16).map fun g => decide (g.stopped = none)
    | _ => none) = some false := by decide +kernel

/-- R87, R2: a store request that performs writes its bytes, the least significant at the lowest address. -/
theorem test_store_performs : (match exec (.requestPerform 9 4) ((reqState .store).setReq 9 (some { testReq .store with
      elems := [{ lane := 0, ea := 0x40, loc := ⟨false, 0x40, 0x40, 0⟩, size := 4, data := 0x01020304, cmp := 0 }] })) with
    | .next t => some ((t.bytesAt 0x3F 6).map (·.toNat))
    | _ => none) = some [0, 4, 3, 2, 1, 0] := by decide +kernel

end Sys2Proof.Tests
end

section
/-! What an access at a home of device memory leaves as it is (R11, R81, R344 to R346, R402). -/

namespace Sys2Proof.Machine

/-- An access at a home touches the memory's own records, the caches, and the counts of slots and of the meters' weights;
no byte of memory or of a scratchpad changes, nor a meter's counter, a list of exported counters or their SEQ. -/
structure HomeOnly (s t : State) : Prop where
  rest : ∃ m c p e, t = { s with mem := m, core := c, pf := p, energy := e }
  bytes : t.mem.bytes = s.mem.bytes
  scratch : t.core.scratch = s.core.scratch
  counters : t.energy.counters = s.energy.counters
  moved : t.energy.moved = s.energy.moved
  seq : t.energy.seq = s.energy.seq

theorem HomeOnly.refl (s : State) : HomeOnly s s := ⟨⟨_, _, _, _, rfl⟩, rfl, rfl, rfl, rfl, rfl⟩

theorem HomeOnly.trans {s t u : State} (a : HomeOnly s t) (b : HomeOnly t u) : HomeOnly s u where
  rest := by
    obtain ⟨m, c, p, e, rfl⟩ := a.rest
    obtain ⟨m', c', p', e', h⟩ := b.rest
    exact ⟨m', c', p', e', h⟩
  bytes := b.bytes.trans a.bytes
  scratch := b.scratch.trans a.scratch
  counters := b.counters.trans a.counters
  moved := b.moved.trans a.moved
  seq := b.seq.trans a.seq

theorem HomeOnly.foldl {α : Type} {f : State → α → State} (hf : ∀ s x, HomeOnly s (f s x)) (l : List α) (s : State) :
    HomeOnly s (l.foldl f s) := by
  induction l generalizing s with
  | nil => exact .refl s
  | cons x r ih => exact (hf s x).trans (ih (f s x))

theorem homeOnly_chargeUser (s : State) (u a n : Nat) : HomeOnly s (chargeUser s u a n) := by
  unfold chargeUser
  dsimp only
  split <;> exact ⟨⟨_, _, _, _, rfl⟩, rfl, rfl, rfl, rfl, rfl⟩

theorem homeOnly_setL1 (s : State) (core line : Nat) (x : Option L1Line) : HomeOnly s (s.setL1 core line x) :=
  ⟨⟨_, _, _, _, rfl⟩, rfl, rfl, rfl, rfl, rfl⟩

theorem homeOnly_recallOwned (s : State) (line : Nat) : HomeOnly s (recallOwned s line) := by
  refine .foldl (fun s e => ?_) _ s
  split
  · split
    · refine HomeOnly.trans ?_ (homeOnly_setL1 ..)
      split
      · exact .refl s
      · exact homeOnly_chargeUser ..
    · exact .refl s
  · exact .refl s

theorem homeOnly_storeSector (s : State) (sec : Nat) : HomeOnly s (storeSector s sec) :=
  ⟨⟨_, _, _, _, rfl⟩, rfl, rfl, rfl, rfl, rfl⟩

theorem homeOnly_chargeSlots (s : State) (ctx core a n : Nat) : HomeOnly s (chargeSlots s ctx core a n) :=
  ((homeOnly_chargeUser ..).trans (homeOnly_recallOwned ..)).trans (homeOnly_storeSector ..)

theorem homeOnly_weirServed (s : State) (chan : Nat) (w : Waiter) : HomeOnly s (weirServed s chan w) := by
  unfold weirServed
  dsimp only
  split
  · exact .refl s
  · split <;> exact ⟨⟨_, _, _, _, rfl⟩, rfl, rfl, rfl, rfl, rfl⟩

theorem homeOnly_arrivalServed (s : State) (vf : Option Nat) (a n : Nat) : HomeOnly s (arrivalServed s vf a n) := by
  unfold arrivalServed
  split
  · split
    · exact homeOnly_weirServed ..
    · exact .refl s
  · exact .refl s

theorem homeOnly_dramRead (s : State) (sec : Nat) : HomeOnly s (dramRead s sec).1 := by
  unfold dramRead
  dsimp only
  repeat' split
  all_goals exact ⟨⟨_, _, _, _, rfl⟩, rfl, rfl, rfl, rfl, rfl⟩

theorem homeOnly_sectorRead (s : State) (sec : Nat) : HomeOnly s (sectorRead s sec).1 := by
  unfold sectorRead
  split
  · exact .refl s
  · exact homeOnly_dramRead ..

theorem homeOnly_hubSlot (s : State) (ctx sec : Nat) : HomeOnly s (hubSlot s ctx sec) :=
  (homeOnly_arrivalServed ..).trans (homeOnly_chargeSlots ..)

theorem homeOnly_fillIcache (s : State) (b : Block) (pc : DWord) : HomeOnly s (fillIcache s b pc) := by
  unfold fillIcache
  split
  · dsimp only
    split
    · exact .refl s
    · exact (((homeOnly_sectorRead ..).trans (homeOnly_arrivalServed ..)).trans (homeOnly_chargeSlots ..)).trans
        ⟨⟨_, _, _, _, rfl⟩, rfl, rfl, rfl, rfl, rfl⟩
  · exact .refl s

end Sys2Proof.Machine
end

section
/-! A step runs what the bytes at the PC decode to (O55): what the scheduler's look at a quarter changes, and what a fetch on
an executable page gives. -/

namespace Sys2Proof.Machine

/-- A gang as the scheduler leaves it (R158, R162): turned to another split, perhaps, and its place in its quarter noted. -/
def Rescheduled (g g' : Gang) : Prop := ∃ c f d x, g' = { g with cur := c, fair := f, fairDefer := d, sched := x }

theorem Rescheduled.refl (g : Gang) : Rescheduled g g := ⟨_, _, _, _, rfl⟩

theorem Rescheduled.trans {g g' g'' : Gang} (a : Rescheduled g g') (b : Rescheduled g' g'') : Rescheduled g g'' := by
  obtain ⟨c, f, d, x, rfl⟩ := a
  obtain ⟨c', f', d', x', rfl⟩ := b
  exact ⟨c', f', d', x', rfl⟩

theorem rescheduled_switchSplit (g : Gang) : Rescheduled g (switchSplit g) := by
  unfold switchSplit
  split <;> exact ⟨_, _, _, _, rfl⟩

/-- The scheduler changes gangs in their scheduling only, and nothing else. -/
structure SchedOnly (s t : State) : Prop where
  rest : ∃ x, t = { s with gangs := x }
  gang : ∀ k g, s.gang? k = some g → ∃ g', t.gang? k = some g' ∧ Rescheduled g g'

theorem SchedOnly.refl (s : State) : SchedOnly s s := ⟨⟨_, rfl⟩, fun _ g h => ⟨g, h, .refl g⟩⟩

theorem SchedOnly.trans {s t u : State} (a : SchedOnly s t) (b : SchedOnly t u) : SchedOnly s u where
  rest := by
    obtain ⟨x, rfl⟩ := a.rest
    exact b.rest
  gang := fun k g h => by
    obtain ⟨g', h1, r1⟩ := a.gang k g h
    obtain ⟨g'', h2, r2⟩ := b.gang k g' h1
    exact ⟨g'', h2, r1.trans r2⟩

theorem SchedOnly.foldl {α : Type} {f : State → α → State} (hf : ∀ s x, SchedOnly s (f s x)) (l : List α) (s : State) :
    SchedOnly s (l.foldl f s) := by
  induction l generalizing s with
  | nil => exact .refl s
  | cons x r ih => exact (hf s x).trans (ih (f s x))

theorem schedOnly_modGang (s : State) (key : Nat) {f : Gang → Gang} (hf : ∀ g, Rescheduled g (f g)) :
    SchedOnly s (s.modGang key f) where
  rest := modGang_only ..
  gang := fun k g h => by
    rw [modGang_gang, h]
    split
    · exact ⟨f g, rfl, hf g⟩
    · exact ⟨g, rfl, .refl g⟩

theorem schedOnly_look (s : State) (key : Nat) : SchedOnly s (look s key) := by
  refine schedOnly_modGang s key fun g => ?_
  dsimp only
  generalize List.map _ _ = bad
  have h : Rescheduled g { g with sched := { g.sched with stuck := bad } } := ⟨_, _, _, _, rfl⟩
  split
  · split
    · exact h.trans (rescheduled_switchSplit _)
    · exact h
  · exact h

theorem schedOnly_setActive (s : State) (key : Nat) (a : Bool) : SchedOnly s (setActive s key a) :=
  schedOnly_modGang s key fun _ => ⟨_, _, _, _, rfl⟩

theorem schedOnly_refillOnce (s : State) (fresh : Bool) (key : Nat) : SchedOnly s (refillOnce s fresh key) := by
  unfold refillOnce
  dsimp only
  split
  · exact .refl s
  · split
    · exact schedOnly_setActive ..
    · split
      · exact (schedOnly_setActive ..).trans (schedOnly_setActive ..)
      · exact .refl s

theorem schedOnly_refill (fresh : Bool) (n : Nat) (s : State) (key : Nat) : SchedOnly s (refill fresh n s key) := by
  induction n generalizing s with
  | zero => exact .refl s
  | succ n ih => exact (schedOnly_refillOnce s fresh key).trans (ih _)

theorem schedOnly_arrange (s : State) (fresh : Bool) (key : Nat) : SchedOnly s (arrange s fresh key) := by
  unfold arrange
  split
  · split
    · next g hg =>
      split
      · exact .refl s
      · refine SchedOnly.trans ?_ (schedOnly_refill ..)
        have e : s.setGang key { g with sched := { g.sched with stuck := [] } } =
            s.modGang key fun g => { g with sched := { g.sched with stuck := [] } } := by simp [State.modGang, hg]
        rw [e]
        exact schedOnly_modGang s key fun _ => ⟨_, _, _, _, rfl⟩
    · exact .refl s
  · exact (SchedOnly.foldl (fun s (e : Nat × Gang) => schedOnly_look s e.1) _ s).trans (schedOnly_refill ..)

/-- Time passes: the cycles, and what the schedulers see in the first of them (R3, R158). -/
theorem passTime_schedOnly (s : State) (n : Nat) : SchedOnly { s with cycle := s.cycle + n } (passTime s n) := by
  cases n with
  | zero => exact .refl s
  | succ m =>
    have h := SchedOnly.foldl (fun t (k : Nat) => schedOnly_arrange t true k) (quarterReps s) { s with cycle := s.cycle + 1 }
    simp only [passTime]
    generalize List.foldl _ _ _ = t at h ⊢
    obtain ⟨⟨x, rfl⟩, hg⟩ := h
    exact ⟨⟨x, by simp only [Nat.add_assoc, Nat.add_comm 1 m]⟩, hg⟩

/-- A gang that is found is an entry of the table. -/
theorem mem_tentries_of_tget {α : Type} {t : Tab (Option α)} {k : Nat} {x : α} (h : tget none t k = some x) :
    (k, x) ∈ tentries t := by
  induction t with
  | nil => exact absurd h (by simp [tget])
  | cons e r ih =>
    obtain ⟨j, y⟩ := e
    rw [tentries, List.filterMap_cons]
    simp only [tget] at h
    split at h
    · next hk => simp [h, hk]
    · have := ih h
      split
      · exact this
      · exact List.mem_cons_of_mem _ this

/-- Where a gang has its quarter to itself, has one split and is active, there is nothing to arrange (R158). -/
theorem arrange_alone {s : State} {key : Nat} (fresh : Bool) (hq : (quarterGangs s key).length ≤ 1)
    (hg : ∀ g, s.gang? key = some g → g.splitList.length ≤ 1 ∧ g.sched.active = true) : arrange s fresh key = s := by
  cases h : s.gang? key with
  | none => simp [arrange, alone, hq, h]
  | some g => simp [arrange, alone, hq, h, hg g h]

/-- A turn of time changes no gang where each has its quarter to itself. -/
theorem passTime_alone (s : State) (n : Nat) (h : ∀ e ∈ tentries s.gangs, (quarterGangs s e.1).length ≤ 1 ∧
    e.2.splitList.length ≤ 1 ∧ e.2.sched.active = true) : (passTime s n).gangs = s.gangs := by
  cases n with
  | zero => rfl
  | succ m =>
    have hk (k : Nat) : arrange { s with cycle := s.cycle + 1 } true k = { s with cycle := s.cycle + 1 } := by
      refine arrange_alone true ?_ fun g hg => (h (k, g) (mem_tentries_of_tget hg)).2
      show (quarterGangs s k).length ≤ 1
      cases hg : s.gang? k with
      | none => simp [quarterGangs, hg]
      | some g => exact (h (k, g) (mem_tentries_of_tget hg)).1
    have hf (l : List Nat) : l.foldl (fun t k => arrange t true k) { s with cycle := s.cycle + 1 } = { s with cycle := s.cycle + 1 } := by
      induction l with
      | nil => rfl
      | cons k r ih => rw [List.foldl_cons, hk, ih]
    simp only [passTime, hf]

-- The state that names the issuing gang.

/-- What naming the issuing gang changes (R158 to R162): gangs in their scheduling, and what a fetch at its home costs. -/
structure NamesIssuer (s u : State) (key : Nat) : Prop where
  cur : u.cur = some key
  agenda : u.agenda = s.agenda
  cycle : u.cycle = s.cycle
  bytes : u.mem.bytes = s.mem.bytes
  scratch : u.core.scratch = s.core.scratch
  blocks : u.blocks = s.blocks
  ctxs : u.ctxs = s.ctxs
  tlb : u.tlb = s.tlb
  reqs : u.reqs = s.reqs
  launches : u.launches = s.launches
  gang : ∀ k g, s.gang? k = some g → ∃ g', u.gang? k = some g' ∧ Rescheduled g g'

/-- The gang named, its quarter arranged and its fetch paid, before the unit of its instruction is noted. -/
def namedGang (s : State) (key : Nat) : State :=
  let s := { arrange s false key with cur := some key }
  match s.gang? key with
  | some g => (match g.split?, s.block? g.block with | some sp, some b => fillIcache s b sp.pc | _, _ => s)
  | none => s

/-- The unit is noted where the gang has an instruction and may issue it (R159). -/
theorem issuer_cases (s : State) (key : Nat) : issuer s key = namedGang s key ∨
    ∃ u, issuer s key = (namedGang s key).modGang key fun g => { g with sched := { g.sched with unit := u } } := by
  have e : issuer s key = match nextUnit (namedGang s key) key with
    | some u => if mayIssue (namedGang s key) key then
        (namedGang s key).modGang key fun g => { g with sched := { g.sched with unit := u } } else namedGang s key
    | none => namedGang s key := rfl
  rw [e]
  split
  · split
    · exact .inr ⟨_, rfl⟩
    · exact .inl rfl
  · exact .inl rfl

theorem namedGang_homeOnly (s : State) (key : Nat) :
    HomeOnly { arrange s false key with cur := some key } (namedGang s key) := by
  unfold namedGang
  dsimp only
  split
  · split
    · exact homeOnly_fillIcache ..
    · exact .refl _
  · exact .refl _

theorem namedGang_names (s : State) (key : Nat) : NamesIssuer s (namedGang s key) key := by
  have h := namedGang_homeOnly s key
  obtain ⟨⟨x, hx⟩, hg⟩ := schedOnly_arrange s false key
  generalize namedGang s key = u at h ⊢
  rw [hx] at h hg
  obtain ⟨m, c, p, e, rfl⟩ := h.rest
  exact ⟨rfl, rfl, rfl, h.bytes, h.scratch, rfl, rfl, rfl, rfl, rfl, hg⟩

theorem NamesIssuer.modGang {s u : State} {key : Nat} (h : NamesIssuer s u key) {f : Gang → Gang}
    (hf : ∀ g, Rescheduled g (f g)) : NamesIssuer s (u.modGang key f) key := by
  obtain ⟨⟨x, hx⟩, hg⟩ := schedOnly_modGang u key hf
  rw [hx] at hg ⊢
  refine ⟨h.cur, h.agenda, h.cycle, h.bytes, h.scratch, h.blocks, h.ctxs, h.tlb, h.reqs, h.launches, fun k g hk => ?_⟩
  obtain ⟨g', h1, r1⟩ := h.gang k g hk
  obtain ⟨g'', h2, r2⟩ := hg k g' h1
  exact ⟨g'', h2, r1.trans r2⟩

theorem issuer_names (s : State) (key : Nat) : NamesIssuer s (issuer s key) key := by
  have h := namedGang_names s key
  rcases issuer_cases s key with e | ⟨u, e⟩ <;> rw [e]
  · exact h
  · exact h.modGang fun _ => ⟨_, _, _, _, rfl⟩

-- A gang that has its quarter to itself.

/-- No other gang shares the quarter of a gang. -/
def NoRival (s : State) (key : Nat) : Prop := ∀ e ∈ quarterGangs s key, e.1 = key

/-- A gang without a rival may issue once a cycle (R159). -/
theorem mayIssue_of_noRival {s : State} {key : Nat} {g : Gang} (hg : s.gang? key = some g) (ho : cycleOpen s g = true)
    (h : NoRival s key) : mayIssue s key = true := by
  have hn : (quarterGangs s key).filter (fun e => e.1 != key) = [] :=
    List.filter_eq_nil_iff.mpr fun e he => by simp [h e he]
  have hu (u : IssueUnit) : unitFree s key g u = true := by simp [unitFree, hn]
  simp only [mayIssue, hg, ho, Bool.true_and]
  split
  · exact hu _
  · rfl

/-- An entry of another key in a table after a write is one from before. -/
theorem mem_tentries_tput_ne {α : Type} [DecidableEq α] {t : Tab (Option α)} {k : Nat} {v : Option α} {e : Nat × α}
    (he : e ∈ tentries (tput none t k v)) (hk : e.1 ≠ k) : e ∈ tentries t := by
  obtain ⟨a, ha, hv⟩ := List.mem_filterMap.mp he
  refine List.mem_filterMap.mpr ⟨a, ?_, hv⟩
  have hak : a.1 = e.1 := by
    obtain ⟨x, -, rfl⟩ := Option.map_eq_some_iff.mp hv
    rfl
  unfold tput at ha
  split at ha
  · exact mem_of_mem_tdel t k ha
  · rcases mem_tins _ k v ha with rfl | h
    · exact absurd hak.symm hk
    · exact mem_of_mem_tdel t k h

/-- A gang that is put back in the same place of its scheduler has no new rival. -/
theorem NoRival.setGang {s : State} {key : Nat} {g g' : Gang} (h : NoRival s key) (hg : s.gang? key = some g)
    (hb : g'.block = g.block) (hq : g'.sched.quarter = g.sched.quarter) : NoRival (s.setGang key g') key := by
  intro e he
  by_contra hk
  refine hk (h e ?_)
  simp only [quarterGangs, setGang_gang_self, hg, hb, setGang_block'] at he ⊢
  split at he
  · exact he
  · simp only [List.mem_filter, hq] at he ⊢
    exact ⟨mem_tentries_tput_ne (t := s.gangs) (v := some g') he.1 hk, he.2⟩

/-- A gang alone in its quarter, with one active split, is named with nothing but the unit of its instruction noted, and may
issue once a cycle (R158, R159). -/
theorem issuer_alone {s : State} {key : Nat} {g : Gang} (hq : quarterGangs s key = [(key, g)]) (hg : s.gang? key = some g)
    (hs : g.splitList.length ≤ 1) (ha : g.sched.active = true) (ho : cycleOpen s g = true) :
    mayIssue (issuer s key) key = true ∧
      ∃ x, (issuer s key).gang? key = some { g with sched := { g.sched with unit := x } } := by
  have harr : arrange s false key = s := arrange_alone false (by simp [hq]) fun g' hg' => by
    obtain rfl : g = g' := by simpa [hg] using hg'
    exact ⟨hs, ha⟩
  have hn := namedGang_homeOnly s key
  rw [harr] at hn
  obtain ⟨m, c, p, e, hn⟩ := hn.rest
  have hg' : (namedGang s key).gang? key = some g := by rw [hn]; exact hg
  have hr : NoRival (namedGang s key) key := by
    have : quarterGangs (namedGang s key) key = quarterGangs s key := by rw [hn]; rfl
    intro e he
    rw [this, hq, List.mem_singleton] at he
    rw [he]
  have hc (g' : Gang) (i : g'.sched.issued = g.sched.issued) (n : g'.sched.entered = g.sched.entered) :
      cycleOpen (namedGang s key) g' = true := by
    rw [hn, cycleOpen, i, n]; exact ho
  rcases issuer_cases s key with e | ⟨u, e⟩
  · rw [e]
    exact ⟨mayIssue_of_noRival hg' (hc g rfl rfl) hr, g.sched.unit, hg'⟩
  · have e' : issuer s key = (namedGang s key).setGang key { g with sched := { g.sched with unit := u } } := by
      rw [e]; simp [State.modGang, hg']
    rw [e']
    refine ⟨mayIssue_of_noRival (setGang_gang_self ..) ?_ (hr.setGang hg' rfl rfl), u, setGang_gang_self ..⟩
    exact hc { g with sched := { g.sched with unit := u } } rfl rfl

-- The fetch.

/-- An active gang for which nothing waits runs the instruction that its current split has fetched (R65, R162, R376). -/
theorem slotOf1_run {s : State} {key : Nat} {g : Gang} {sp : Split} {b : Block} {i : Instr} (hg : s.gang? key = some g)
    (hs : g.split? = some sp) (hb : s.block? g.block = some b) (ha : g.sched.active = true) (he : sp.eff = [])
    (ht : g.traps = []) (hf : fairDue g = false) (hi : fetch s b sp.pc = .instr i) : slotOf1 s key = .run i := by
  simp [slotOf1, fetchGang, hg, hs, hb, hi, ha, slotFor1, he, ht, hf]

/-- Bytes that decode within their fetch block are an instruction (R40, R41, R65). -/
theorem fetchAt_instr {s : State} {pc : DWord} {a : Nat} {i : Instr} (hl : (s.byte a).toNat % 4 ≠ 3)
    (hd : decodeBytes (s.bytesAt a (lenBytes (s.byte a).toNat)) = .ok i)
    (hb : pc.toNat % 32 + lenBytes (s.byte a).toNat ≤ 32) : fetchAt s pc a = .instr i := by
  simp only [fetchAt, if_neg hl, if_neg (Nat.not_lt.mpr hb), hd]

/-- A fetch on an executable page, from the instruction cache or a home that takes it, finds what the bytes there are
(R12, R83, R401). -/
theorem fetch_page {s : State} {b : Block} {pc : DWord} {pa gpa : Nat} {w rd : Bool}
    (ht : s.tlbGet b.core b.ctx (pc.toNat / 65536) = some (.page pa gpa true w rd))
    (hp : (b.core, (pa / 65536 * 65536 + pc.toNat % 65536) / 32) ∈ s.core.icache ∨ placeOpen s (ctxVf s b.ctx)
      ⟨false, pa / 65536 * 65536 + pc.toNat % 65536, gpa / 65536 * 65536 + pc.toNat % 65536, b.ctx⟩ 1 = true) :
    fetch s b pc = fetchAt s pc (pa / 65536 * 65536 + pc.toNat % 65536) := by
  rw [← List.contains_iff_mem, ← Bool.or_eq_true] at hp
  simp only [fetch, ht, Bool.not_true, Bool.false_eq_true, if_false]
  exact if_pos hp

/-- An issue by a gang that may: what its slot holds, if that is an instruction, is executed (R65, R158). -/
theorem step_issue_run {s : State} {key : Nat} {rest : List Turn} {i : Instr} (ha : s.agenda = .issue key :: rest)
    (hm : mayIssue (issuer { s with agenda := rest } key) key = true)
    (hr : slotOf1 (issuer { s with agenda := rest } key) key = .run i) :
    step s = exec i (issuer { s with agenda := rest } key) := by
  simp only [step, nextTurnOf, ha, turnStep, hm, if_true, hr]

/-- An issue by a gang that may not changes only what naming it does (R158). -/
theorem step_issue_held {s : State} {key : Nat} {rest : List Turn} (ha : s.agenda = .issue key :: rest)
    (hm : mayIssue (issuer { s with agenda := rest } key) key = false) :
    step s = .next (issuer { s with agenda := rest } key) := by
  simp [step, nextTurnOf, ha, turnStep, hm]

/-- Settles O55: by what the scheduler and a fetch change, and by the branches of the fetch and of the issue slot. -/
theorem stepRunsDecoded : Obligations.StepRunsDecoded := by
  refine ⟨fun s rest n ha => ?_, fun s rest i ha he => ?_, fun s key rest ha => ?_⟩
  · have hstep : step s = .next (passTime { s with agenda := rest } n) := by simp only [step, nextTurnOf, ha, turnStep]
    obtain ⟨⟨x, hx⟩, hg⟩ := passTime_schedOnly { s with agenda := rest } n
    refine ⟨_, hstep, by rw [hx], fun hn => by subst hn; rfl, fun k g hk => ?_, fun h => ?_⟩
    · obtain ⟨g', h1, c, f, d, y, rfl⟩ := hg k g hk
      exact ⟨c, f, d, y, h1⟩
    · exact passTime_alone { s with agenda := rest } n h
  · simp [step, nextTurnOf, ha, turnStep, isEvent, he]
  · intro u
    have hu : NamesIssuer { s with agenda := rest } u key := issuer_names _ key
    refine ⟨⟨hu.cur, hu.agenda, hu.cycle, fun a => ?_, fun a => ?_, hu.blocks, hu.ctxs, hu.tlb, hu.reqs, hu.launches,
      fun k g hk => ?_⟩, fun g hq hg hs hact ho => ?_, step_issue_held ha, ?_⟩
    · rw [State.byte, hu.bytes]; rfl
    · rw [State.sbyte, hu.scratch]; rfl
    · obtain ⟨g', h1, c, f, d, y, rfl⟩ := hu.gang k g hk
      exact ⟨c, f, d, y, h1⟩
    · exact issuer_alone (s := { s with agenda := rest }) hq hg hs hact ho
    · intro g sp b pa gpa w rd i hm hg hs hb hact heff htr hfd ht a hp hl n hd hn
      have hbyte (x : Nat) : u.byte x = s.byte x := by rw [State.byte, hu.bytes]; rfl
      have hbytes : u.bytesAt a n = (List.range n).map fun j => s.byte (a + j) :=
        List.map_congr_left fun j _ => hbyte (a + j)
      have hf : fetch u b sp.pc = .instr i := by
        rw [fetch_page ht hp]
        refine fetchAt_instr ?_ ?_ ?_
        · rw [hbyte]; exact hl
        · rw [hbyte]; exact hbytes ▸ hd
        · rw [hbyte]; exact hn
      exact step_issue_run ha hm (slotOf1_run hg hs hb hact heff htr hfd hf)

end Sys2Proof.Machine
end

section
/-! The engine window (O31) where the number that the next request takes is in use already. -/

namespace Sys2Proof.Machine

/-- An acquire of gang 16 at another device that has no status yet. -/
def openAcquire : RReq :=
  { gang := 16, split := 1, kind := .load, sgn := false, size := 4, dest := .uni 1, dev := 0, peer := 0, ftid := 0, elems := [],
    group := 2, acq := true, plane := 0, sent := 0, status := none, results := [], written := [], deps := [], bounces := 0,
    bounced := false, cause := 0, since := 0 }

/-- A gang that issues next, in a state whose next number, 2, names a request that has performed and an open acquire of the gang. -/
def numberTaken : State :=
  { placeWord State.reset 16 0 with reqs := [(2, some { blankReq with checked := true })], rreqs := [(2, some openAcquire)] }

/-- A store of k0 to CMD0. -/
def storeCmd0 : Instr := .stk .full .s64 .plain .gang .engine ⟨0, none, 0⟩ 0

theorem numberTaken_issues : Issues numberTaken 16 (testGang 1) (firstSplit 1 0 (BitVec.allOnes 64)) testBlock :=
  ⟨rfl, by decide +kernel, rfl, rfl, by decide +kernel, rfl, by decide +kernel, rfl, rfl, rfl⟩

theorem numberTaken_clear : Clear numberTaken 16 testBlock (testGang 1) (firstSplit 1 0 (BitVec.allOnes 64))
    { k := [0, 0], throttled := true } where
  vregs := by decide
  kregs := by decide
  race := by decide
  guard := by decide
  scope := by simp
  lcnt := by decide
  scnt := by decide
  replay := by decide +kernel
  reads := by decide
  queue := by simp
  array := by simp
  coll := by simp
  windows := by simp [firstSplit]
  long := by simp

/-- The store waits for the acquire, whose number is its own: it stays outstanding, and the register is not written. -/
theorem storeCmd0_held : (match exec storeCmd0 numberTaken with
    | .next t => (t.gang? 16).map fun g => g.win.written
    | _ => none) = some 0 := by decide +kernel

/-- Refutes O31: nothing says that the number the access takes (R87) is free. Where it names both a request that has performed
and an acquire that has not, `pendingOf` is empty though the acquire is open, the store to CMD0 has to wait for itself, and
its register is not filled. -/
theorem not_engineWindow : ¬ Obligations.EngineWindow := by
  intro h
  have hst := ((h _ _ _ _ _ numberTaken_issues).1 .full .s64 .plain .gang ⟨0, none, 0⟩ 0 numberTaken_clear).2.2
    (by decide +kernel) rfl rfl (by decide +kernel) (by decide +kernel)
  obtain ⟨t, g, sp, ht, hg, -, -, -, -, -, -, hw, -⟩ := hst.1 (by decide +kernel)
  have e := storeCmd0_held
  rw [storeCmd0, ht] at e
  simp only [hg, Option.map_some, hw] at e
  exact absurd e (by decide +kernel)

end Sys2Proof.Machine
end

section
/-! Energy records (O53): a record stands at its place byte for byte, and what its writes leave as it is (R351 to R354). -/

namespace Sys2Proof.Machine

-- What writes at homes leave as it is.

/-- The clock, the contexts, the registers of the virtual functions and the meters' counters stay: what no access at a home
touches, be it a write. -/
structure Apart (s t : State) : Prop where
  cycle : t.cycle = s.cycle
  ctxs : t.ctxs = s.ctxs
  vfs : t.vfs = s.vfs
  counters : t.energy.counters = s.energy.counters
  moved : t.energy.moved = s.energy.moved
  seq : t.energy.seq = s.energy.seq

/-- As `Apart`, and no byte of memory changes. -/
structure Still (s t : State) : Prop extends Apart s t where
  bytes : t.mem.bytes = s.mem.bytes

theorem Apart.refl (s : State) : Apart s s := ⟨rfl, rfl, rfl, rfl, rfl, rfl⟩

theorem Apart.trans {s t u : State} (a : Apart s t) (b : Apart t u) : Apart s u :=
  ⟨b.cycle.trans a.cycle, b.ctxs.trans a.ctxs, b.vfs.trans a.vfs, b.counters.trans a.counters, b.moved.trans a.moved,
    b.seq.trans a.seq⟩

theorem Still.refl (s : State) : Still s s := ⟨.refl s, rfl⟩

theorem Still.trans {s t u : State} (a : Still s t) (b : Still t u) : Still s u :=
  ⟨a.toApart.trans b.toApart, b.bytes.trans a.bytes⟩

theorem Still.byte {s t : State} (h : Still s t) (a : Nat) : t.byte a = s.byte a := by rw [State.byte, h.bytes]; rfl

theorem Still.foldl {α : Type} {f : State → α → State} (hf : ∀ s x, Still s (f s x)) (l : List α) (s : State) :
    Still s (l.foldl f s) := by
  induction l generalizing s with
  | nil => exact .refl s
  | cons x r ih => exact (hf s x).trans (ih (f s x))

theorem HomeOnly.still {s t : State} (h : HomeOnly s t) : Still s t := by
  obtain ⟨m, c, p, e, rfl⟩ := h.rest
  exact ⟨⟨rfl, rfl, rfl, h.counters, h.moved, h.seq⟩, h.bytes⟩

theorem still_clearCoreLine (s : State) (core line : Nat) : Still s (clearCoreLine s core line) :=
  ⟨⟨rfl, rfl, rfl, rfl, rfl, rfl⟩, rfl⟩

theorem still_clearLine (s : State) (line : Nat) : Still s (clearLine s line) := ⟨⟨rfl, rfl, rfl, rfl, rfl, rfl⟩, rfl⟩

theorem still_clearPoison (s : State) (sec : Nat) : Still s (clearPoison s sec) := ⟨⟨rfl, rfl, rfl, rfl, rfl, rfl⟩, rfl⟩

theorem still_dropCopies (s : State) (line : Nat) (keep : Option Nat) : Still s (dropCopies s line keep) := by
  unfold dropCopies
  refine (Still.foldl (fun s e => ?_) _ s).trans ⟨⟨rfl, rfl, rfl, rfl, rfl, rfl⟩, rfl⟩
  split
  · refine Still.trans ?_ (still_clearCoreLine ..)
    split
    · exact (homeOnly_setL1 ..).still
    · exact ((homeOnly_chargeUser ..).trans (homeOnly_setL1 ..)).still
  · exact .refl s

theorem apart_writeBytes (s : State) (a : Nat) (l : List Byte) : Apart s (s.writeBytes a l) := by
  induction l generalizing s a with
  | nil => exact .refl s
  | cons b r ih =>
    have h : Apart s (s.setByte a b) := ⟨rfl, rfl, rfl, rfl, rfl, rfl⟩
    exact h.trans (ih (s.setByte a b) (a + 1))

/-- The bytes of a list stand from an address on, and every other byte is as it was. -/
def Holds (s t : State) (a : Nat) (bs : List Byte) : Prop :=
  ∀ x, t.byte x = if a ≤ x ∧ x < a + bs.length then bs.getD (x - a) 0 else s.byte x

theorem Holds.nil (s : State) (a : Nat) : Holds s s a [] := fun x => by rw [if_neg (by simp)]

/-- Bytes written behind others stand with them as one run. -/
theorem Holds.append {s t u : State} {a : Nat} {l r : List Byte} (h : Holds s t a l) (k : Holds t u (a + l.length) r) :
    Holds s u a (l ++ r) := fun x => by
  rw [k x, h x, List.length_append]
  by_cases h1 : a + l.length ≤ x ∧ x < a + l.length + r.length
  · rw [if_pos h1, if_pos (by omega), List.getD_append_right _ _ _ _ (by omega)]
    congr 1; omega
  · rw [if_neg h1]
    by_cases h2 : a ≤ x ∧ x < a + l.length
    · rw [if_pos h2, if_pos (by omega), List.getD_append _ _ _ _ (by omega)]
    · rw [if_neg h2, if_neg (by omega)]

/-- A run of 32 bytes from a multiple of 32 on lies in one sector. -/
theorem runSectors_sector {a : Nat} (h : a % 32 = 0) : runSectors a 32 = [a / 32] := by
  simp [runSectors, h]

/-- A write of a whole sector puts its bytes there, poisoned or not (R402). -/
theorem writeSector_whole (s : State) {a : Nat} {bs : List Byte} (ha : a % 32 = 0) (hl : bs.length = 32) :
    Apart s (writeSector s a bs (a / 32)) ∧ Holds s (writeSector s a bs (a / 32)) a bs := by
  have h1 : max a (32 * (a / 32)) = a := by omega
  have h2 : min (a + bs.length) (32 * (a / 32) + 32) - a = 32 := by omega
  have h3 : (bs.drop (a - a)).take 32 = bs := by simp [← hl]
  have hd := (still_clearPoison s (a / 32)).trans (still_dropCopies _ (a / 32 / 4) none)
  have hc (t : State) := ((homeOnly_storeSector t (a / 32)).still).trans (still_clearLine _ (2 * (a / 32 / 4)))
  simp only [writeSector, h1, h2, h3, if_true, Bool.false_eq_true, if_false]
  refine ⟨(hd.toApart.trans (apart_writeBytes ..)).trans (hc _).toApart, fun x => ?_⟩
  rw [(hc _).byte, writeBytes_byte, hd.byte]

/-- A sector that the hub writes where no context has a dirty bitmap (R27, R348). -/
theorem hubWrite_whole (s : State) {l : Loc} {ctx : Nat} {bs : List Byte} (ha : l.addr % 32 = 0) (hl : bs.length = 32)
    (hc : s.ctx? ctx = none) : Apart s (hubWrite s l ctx bs) ∧ Holds s (hubWrite s l ctx bs) l.addr bs := by
  have h1 := (homeOnly_hubSlot s ctx (l.addr / 32)).still
  obtain ⟨h2, h3⟩ := writeSector_whole (hubSlot s ctx (l.addr / 32)) ha hl
  have e : hubWrite s l ctx bs = writeSector (hubSlot s ctx (l.addr / 32)) l.addr bs (l.addr / 32) := by
    have hn : (writeSector (hubSlot s ctx (l.addr / 32)) l.addr bs (l.addr / 32)).ctx? ctx = none := by
      rw [State.ctx?, h2.ctxs, h1.ctxs]; exact hc
    simp only [hubWrite, writeHome, hl, runSectors_sector ha, List.foldl_cons, List.foldl_nil, markDirty, hn]
  rw [e]
  refine ⟨h1.toApart.trans h2, fun x => ?_⟩
  rw [h3 x, h1.byte]

-- The pieces of a record.

/-- The place of a record's byte in device memory, as the physical function names it (R354). -/
def recordPlace (d off : Nat) : Loc := ⟨false, d + off, d + off, 65536⟩

/-- The pieces that a record is written in. -/
def recordPieces (n off : Nat) (bs : List Byte) : List (Nat × List Byte) :=
  (sectorPieces n off 32 bs).filter fun p => !p.2.isEmpty

theorem recordPieces_nil (n off : Nat) : recordPieces n off [] = [] := by
  induction n generalizing off with
  | zero => rfl
  | succ n ih => simpa [recordPieces, sectorPieces] using ih (off + 32)

theorem recordPieces_cons {n off : Nat} {bs : List Byte} (h : bs ≠ []) :
    recordPieces (n + 1) off bs = (off, bs.take 32) :: recordPieces n (off + 32) (bs.drop 32) := by
  simp [recordPieces, sectorPieces, h]

/-- Whole sectors are cut into whole sectors. -/
theorem mem_recordPieces {n off : Nat} {bs : List Byte} {p : Nat × List Byte} (h : p ∈ recordPieces n off bs)
    (hl : bs.length % 32 = 0) : p.2.length = 32 ∧ ∃ i, p.1 = off + 32 * i ∧ 32 * i + 32 ≤ bs.length := by
  induction n generalizing off bs with
  | zero => exact absurd h (by simp [recordPieces, sectorPieces])
  | succ n ih =>
    by_cases hb : bs = []
    · rw [hb, recordPieces_nil] at h; exact absurd h (by simp)
    · have hp : 32 ≤ bs.length := by
        have := List.length_pos_iff.mpr hb
        omega
      rw [recordPieces_cons hb, List.mem_cons] at h
      rcases h with rfl | h
      · exact ⟨by simp [hp], 0, rfl, by omega⟩
      · obtain ⟨h1, i, h2, h3⟩ := ih h (by rw [List.length_drop]; omega)
        rw [List.length_drop] at h3
        exact ⟨h1, i + 1, by omega, by omega⟩

/-- Whole sectors written one after another stand there as one. -/
theorem writePieces_holds (d : Nat) {n off : Nat} {bs : List Byte} (s : State) (hd : (d + off) % 32 = 0)
    (hl : bs.length % 32 = 0) (hn : bs.length ≤ 32 * n) (hc : s.ctx? 65536 = none) :
    let t := (recordPieces n off bs).foldl (fun s p => hubWrite s (recordPlace d p.1) 65536 p.2) s
    Apart s t ∧ Holds s t (d + off) bs := by
  induction n generalizing off bs s with
  | zero =>
    obtain rfl : bs = [] := List.length_eq_zero_iff.mp (by omega)
    exact ⟨.refl s, .nil s _⟩
  | succ n ih =>
    by_cases hb : bs = []
    · rw [hb, recordPieces_nil]
      exact ⟨.refl s, .nil s _⟩
    · have hp : 32 ≤ bs.length := by
        have := List.length_pos_iff.mpr hb
        omega
      have ht : (bs.take 32).length = 32 := by simp [hp]
      have hr : (bs.drop 32).length = bs.length - 32 := List.length_drop
      obtain ⟨a1, w1⟩ := hubWrite_whole s (l := recordPlace d off) (ctx := 65536) hd ht hc
      obtain ⟨a2, w2⟩ := ih (off := off + 32) (bs := bs.drop 32) (hubWrite s (recordPlace d off) 65536 (bs.take 32))
        (by omega) (by omega) (by omega) (by rw [State.ctx?, a1.ctxs]; exact hc)
      rw [recordPieces_cons hb, List.foldl_cons]
      have hw := w1.append (u := _) (r := bs.drop 32) (by rw [ht]; exact w2)
      rw [List.take_append_drop] at hw
      exact ⟨a1.trans a2, hw⟩

/-- A place on the physical function's meter page is a physical address (R354). -/
theorem meterPlace_pf (s : State) (ctx : Nat) (w : Bool) {d off : Nat} (hb : backed (d + off) 1 = true)
    (h : d + off < 2 ^ 64) : meterPlace s 64 ctx w (dw d + dw off) = some (recordPlace d off) := by
  have e : (dw d + dw off).toNat = d + off := by
    simp only [dw, BitVec.toNat_add, BitVec.toNat_ofNat]
    omega
  simp [meterPlace, pfPage, e, hb, recordPlace]

/-- A record of whole sectors is written on the physical function's page where memory is there for each (R354, R400). -/
theorem writeMeter_pf {s : State} (ctx : Nat) {d : Nat} {bs : List Byte} (hd : d % 32 = 0) (hl : bs.length % 32 = 0)
    (hm : d + bs.length ≤ 2 ^ 64) (hb : ∀ i, 32 * i + 32 ≤ bs.length → backed (d + 32 * i) 1 = true)
    (hc : s.ctx? 65536 = none) :
    ∃ t, writeMeter s 64 ctx (dw d) bs = some t ∧ Apart s t ∧ Holds s t d bs := by
  by_cases hz : bs.length = 0
  · obtain rfl : bs = [] := List.length_eq_zero_iff.mp hz
    refine ⟨s, ?_, .refl s, .nil s d⟩
    simp [writeMeter, sectorPieces]
  have hv : (dw d).toNat = d := by simp only [dw, BitVec.toNat_ofNat]; omega
  have hroom : 32 - (dw d).toNat % 32 = 32 := by omega
  have hp : ∀ p ∈ recordPieces (bs.length / 32 + 2) 0 bs,
      (meterPlace s 64 ctx true (dw d + dw p.1)).filter (fun l => p.2.length == 32 || !s.poisoned (sectorOf l.addr)) =
        some (recordPlace d p.1) := fun p h => by
    obtain ⟨h1, i, h2, h3⟩ := mem_recordPieces h hl
    rw [h2, Nat.zero_add, meterPlace_pf s ctx true (hb i h3) (by omega)]
    simp [h1]
  obtain ⟨h1, h2⟩ := writePieces_holds d (n := bs.length / 32 + 2) (off := 0) (bs := bs) s (by omega) hl (by omega) hc
  refine ⟨_, ?_, h1, h2⟩
  have hany : (recordPieces (bs.length / 32 + 2) 0 bs).any (fun p =>
      ((meterPlace s 64 ctx true (dw d + dw p.1)).filter
        fun l => p.2.length == 32 || !s.poisoned (sectorOf l.addr)).isNone) = false :=
    List.any_eq_false.mpr fun p h => by rw [hp p h]; simp
  simp only [writeMeter, hroom]
  rw [if_neg (by rw [← recordPieces, hany]; simp)]
  refine congrArg some (List.foldl_ext _ _ s fun t p h => ?_)
  rw [hp p h]; rfl

-- What a record says.

@[simp] theorem toBytes_length (n v : Nat) : (toBytes n v).length = n := by
  induction n generalizing v with
  | zero => rfl
  | succ n ih => simp [toBytes, ih]

/-- Byte `i` of a number is its `i`-th, least significant first (R2). -/
theorem toBytes_getD {n v i : Nat} (h : i < n) : (toBytes n v).getD i 0 = BitVec.ofNat 8 (v / 256 ^ i) := by
  induction n generalizing v i with
  | zero => omega
  | succ n ih =>
    cases i with
    | zero => simp [toBytes]
    | succ i => rw [toBytes, List.getD_cons_succ, ih (by omega), Nat.div_div_eq_div_mul, Nat.pow_succ']

@[simp] theorem fit_length (n : Nat) (bs : List Byte) : (fit n bs).length = n := by simp [fit]

theorem fit_getD {n i : Nat} (bs : List Byte) (h : i < n) : (fit n bs).getD i 0 = bs.getD i 0 := by
  simp [fit, List.getD_eq_getElem?_getD, h]

/-- The fields of Table 7 in a record's signed part (R354): the status, the kind, the counter, STAMP, SEQ and the nonce. -/
structure HeadSays (h : List Byte) (status kind counter stamp seq : Nat) (nonce : List Byte) : Prop where
  length : h.length = 64
  status : h.getD 0 0 = BitVec.ofNat 8 status
  kind : h.getD 3 0 = BitVec.ofNat 8 kind
  counter : ∀ i < 8, h.getD (8 + i) 0 = BitVec.ofNat 8 (counter / 256 ^ i)
  stamp : ∀ i < 8, h.getD (16 + i) 0 = BitVec.ofNat 8 (stamp / 256 ^ i)
  seq : ∀ i < 8, h.getD (24 + i) 0 = BitVec.ofNat 8 (seq / 256 ^ i)
  nonce : ∀ i < 32, h.getD (32 + i) 0 = nonce.getD i 0

theorem getD_append_add (l r : List Byte) (i : Nat) {n : Nat} (h : l.length = n) : (l ++ r).getD (n + i) 0 = r.getD i 0 := by
  rw [List.getD_append_right _ _ _ _ (by omega)]
  congr 1; omega

theorem recordHead_says (status vf idx kind part src counter : Nat) (stamp : DWord) (seq : Nat) (nonce : List Byte) :
    HeadSays (recordHead status vf idx kind part src counter stamp seq nonce) status kind counter stamp.toNat seq nonce := by
  unfold recordHead
  refine ⟨by simp, rfl, rfl, fun i hi => ?_, fun i hi => ?_, fun i hi => ?_, fun i hi => ?_⟩
  · rw [List.append_assoc, List.append_assoc, List.append_assoc, getD_append_add _ _ i (by simp),
      List.getD_append _ _ _ _ (by simpa using hi), toBytes_getD hi]
  · rw [List.append_assoc, List.append_assoc, getD_append_add _ _ i (by simp),
      List.getD_append _ _ _ _ (by simpa using hi), toBytes_getD hi]
  · rw [List.append_assoc, getD_append_add _ _ i (by simp), List.getD_append _ _ _ _ (by simpa using hi), toBytes_getD hi]
  · rw [getD_append_add _ _ i (by simp), fit_getD _ hi]

/-- A signed record is its signed part and the two signatures of it (R8, R354). -/
structure RecordSays (r h : List Byte) : Prop where
  length : r.length = 16672
  head : ∀ i < 64, r.getD i 0 = h.getD i 0
  rsa : ∀ i < 384, r.getD (64 + i) 0 = (Config.rsaSign h).getD i 0
  slh : ∀ i < 16224, r.getD (448 + i) 0 = (Config.slhSign h).getD i 0

theorem signRecord_says {h : List Byte} (hl : h.length = 64) : RecordSays (signRecord true h) h := by
  simp only [signRecord, if_true]
  refine ⟨by simp [hl], fun i hi => ?_, fun i hi => ?_, fun i hi => ?_⟩
  · rw [List.append_assoc, List.getD_append _ _ _ _ (by omega)]
  · rw [List.append_assoc, getD_append_add _ _ i hl, List.getD_append _ _ _ _ (by simpa using hi), fit_getD _ hi]
  · rw [getD_append_add _ _ i (by simp [hl]), fit_getD _ hi]

-- The bytes that stand in memory.

/-- What stands in memory, byte by byte. -/
theorem Holds.getD {s t : State} {d : Nat} {bs : List Byte} (h : Holds s t d bs) {i : Nat} (hi : i < bs.length) :
    t.byte (d + i) = bs.getD i 0 := by
  rw [h, if_pos (by omega), Nat.add_sub_cancel_left]

theorem Holds.outside {s t : State} {d : Nat} {bs : List Byte} (h : Holds s t d bs) {x : Nat}
    (hx : x < d ∨ d + bs.length ≤ x) : t.byte x = s.byte x := by
  rw [h, if_neg (by omega)]

-- What the answer to a request reads.

theorem chargeUser_mem (s : State) (u a n : Nat) : (chargeUser s u a n).mem = s.mem := by
  unfold chargeUser
  dsimp only
  split <;> rfl

theorem recallOwned_mem (s : State) (line : Nat) : (recallOwned s line).mem = s.mem := by
  unfold recallOwned
  generalize List.filter _ _ = l
  induction l generalizing s with
  | nil => rfl
  | cons e r ih =>
    rw [List.foldl_cons, ih]
    split
    · split
      · split
        · rfl
        · exact chargeUser_mem ..
      · rfl
    · rfl

theorem arrivalServed_mem (s : State) (vf : Option Nat) (a n : Nat) : (arrivalServed s vf a n).mem = s.mem := by
  unfold arrivalServed weirServed
  dsimp only
  repeat' split
  all_goals rfl

/-- What memory is after an access of the hub depends on memory alone. -/
theorem hubSlot_mem_congr {s t : State} (h : s.mem = t.mem) (ctx sec : Nat) : (hubSlot s ctx sec).mem = (hubSlot t ctx sec).mem := by
  have e (s : State) : (hubSlot s ctx sec).mem = (storeSector s (32 * sec / 32)).mem := by
    simp only [hubSlot, chargeSlots, storeSector, recallOwned_mem, chargeUser_mem, arrivalServed_mem]
  rw [e, e]
  simp only [storeSector, h]

theorem sectorRead_mem_congr {s t : State} (h : s.mem = t.mem) (sec : Nat) :
    (sectorRead s sec).1.mem = (sectorRead t sec).1.mem := by
  simp only [sectorRead, dramRead, State.poisoned, h]
  split_ifs
  exacts [h, rfl, rfl, rfl, rfl, rfl, h]

/-- On the physical function's page the bytes of a request block depend on memory alone. -/
theorem readMeter_pf_congr {s t : State} (h : s.mem = t.mem) (ctx : Nat) (va : DWord) :
    readMeter s 64 ctx va = readMeter t 64 ctx va := by
  simp only [readMeter, meterPlace, pfPage, if_true, State.poisoned, State.byte, h]

/-- So it is after any run of reads. -/
theorem blockReads_mem_congr {s t : State} (h : s.mem = t.mem) (l : List (Nat × Nat)) :
    (l.foldl (fun s x => hubSlot (sectorRead s x.2).1 x.1 x.2) s).mem =
      (l.foldl (fun s x => hubSlot (sectorRead s x.2).1 x.1 x.2) t).mem := by
  induction l generalizing s t with
  | nil => exact h
  | cons x r ih => exact ih (hubSlot_mem_congr (sectorRead_mem_congr h x.2) x.1 x.2)

theorem blockSlots_mem_congr {s t : State} (h : s.mem = t.mem) (ctx : Nat) (va : DWord) :
    (blockSlots s 64 ctx va).mem = (blockSlots t 64 ctx va).mem := by
  simp only [blockSlots, meterPlace, pfPage, if_true]
  exact blockReads_mem_congr h _

theorem blockSlots_homeOnly (s : State) (page ctx : Nat) (va : DWord) : HomeOnly s (blockSlots s page ctx va) :=
  .foldl (fun s (x : Nat × Nat) => (homeOnly_sectorRead s x.2).trans (homeOnly_hubSlot _ x.1 x.2)) _ s

/-- A block with nothing wrong in it names a place at a multiple of 64 (R354). -/
theorem badBlock_align {bs : List Byte} (h : badBlock bs = false) : blockValue bs 8 8 % 64 = 0 := by
  simp only [badBlock, Bool.or_eq_false_iff, bne_eq_false_iff_eq] at h
  exact h.2

/-- Whose counter a request of the physical function's page reads (log 14). -/
def readUser (bs : List Byte) : Nat :=
  if Config.meterVf bs < 64 then 8 * Config.meterVf bs + blockValue bs 0 1 else 512

/-- A good reading of a block: the partition is there and its counter has not left, or it is the physical function's own. -/
def ReadsWell (s : State) (bs : List Byte) : Prop :=
  if Config.meterVf bs < 64 then
    blockValue bs 0 1 < ((List.range 8).filter fun p => (s.vf (Config.meterVf bs)).vpart.getLsbD p).length ∧
      readUser bs ∉ s.energy.moved
  else blockValue bs 0 1 = 0

theorem readingStatus_ok {s : State} {bs : List Byte} (h : ReadsWell s bs) :
    readingStatus s (readingUser 64 bs) (blockValue bs 0 1) = 0 := by
  unfold ReadsWell at h
  by_cases hu : Config.meterVf bs < 64
  · rw [if_pos hu] at h
    obtain ⟨h1, h2⟩ := h
    have hw : readingUser 64 bs = Config.meterVf bs := by simp [readingUser, pfPage, Nat.le_of_lt hu]
    rw [readUser, if_pos hu] at h2
    simp [readingStatus, hw, isVf, hu, Nat.not_le.mpr h1, h2]
  · rw [if_neg hu] at h
    have hw : readingUser 64 bs = 64 := by simp [readingUser, pfPage]; omega
    simp [readingStatus, hw, isVf, h]

/-- The counter that a reading takes is that of the user the block names. -/
theorem readingUser_counter (bs : List Byte) :
    (if (!isVf (readingUser 64 bs)) = true then pfUser else 8 * readingUser 64 bs + blockValue bs 0 1) = readUser bs := by
  unfold readUser readingUser isVf pfUser
  by_cases h : Config.meterVf bs < 64
  · simp [h, pfPage, Nat.le_of_lt h]
  · have : min (Config.meterVf bs) 64 = 64 := by omega
    simp [h, pfPage, this]

/-- The record of a good reading says what R354 lists, with both signatures of it. -/
theorem readingBytes_says (s : State) (bs nonce : List Byte) :
    ∃ h, HeadSays h 0 0 (tget 0 s.energy.counters (readUser bs) / 1000) s.stamp.toNat (s.energy.seq + 1) nonce ∧
      RecordSays (readingBytes s (readingUser 64 bs) (blockValue bs 0 1) 0 nonce) h := by
  obtain ⟨vf, part, src, e⟩ : ∃ vf part src, readingBytes s (readingUser 64 bs) (blockValue bs 0 1) 0 nonce =
      signRecord true (recordHead 0 vf (blockValue bs 0 1) 0 part src (tget 0 s.energy.counters (readUser bs) / 1000) s.stamp
        (s.energy.seq + 1) nonce) := ⟨_, _, _, by rw [← readingUser_counter]; rfl⟩
  have hh := recordHead_says 0 vf (blockValue bs 0 1) 0 part src (tget 0 s.energy.counters (readUser bs) / 1000) s.stamp
    (s.energy.seq + 1) nonce
  exact ⟨_, hh, e ▸ signRecord_says hh.length⟩

/-- A request of the physical function's page whose block reads well is answered by a record that stands at the block's place
(R354). -/
theorem answerMeter_record {s : State} {c : Nat} {a : DWord} {bs : List Byte}
    (hr : readMeter (blockSlots s 64 c a) 64 c a = some bs) (hb : badBlock bs = false) (hc : s.ctx? 65536 = none)
    (hw : ReadsWell s bs) (hm : blockValue bs 8 8 + 16672 ≤ 2 ^ 64)
    (hk : ∀ i < 521, backed (blockValue bs 8 8 + 32 * i) 1 = true) :
    ∃ t r h, answerMeter s 64 c a false = t ∧ t.vfs = s.vfs ∧ t.energy.counters = s.energy.counters ∧
      t.energy.seq = s.energy.seq + 1 ∧ Holds s t (blockValue bs 8 8) r ∧ RecordSays r h ∧
      HeadSays h 0 0 (tget 0 s.energy.counters (readUser bs) / 1000) s.stamp.toNat (s.energy.seq + 1)
        ((List.range 32).map fun i => bs.getD (16 + i) 0) := by
  have hs := (blockSlots_homeOnly s 64 c a).still
  generalize hq : blockSlots s 64 c a = q at hr hs
  have hwq : ReadsWell q bs := by
    unfold ReadsWell State.vf at hw ⊢
    rwa [hs.vfs, hs.moved]
  obtain ⟨h, h1, h2⟩ := readingBytes_says q bs ((List.range 32).map fun i => bs.getD (16 + i) 0)
  have hd := badBlock_align hb
  obtain ⟨t, ht, ha, hh⟩ := writeMeter_pf c (s := q) (d := blockValue bs 8 8) (by omega) (by rw [h2.length])
    (by rw [h2.length]; exact hm) (fun i hi => hk i (by rw [h2.length] at hi; omega)) (by rw [State.ctx?, hs.ctxs]; exact hc)
  rw [hs.counters, State.stamp, hs.cycle, hs.seq] at h1
  refine ⟨{ t with uid := t.uid + 1, energy := { t.energy with seq := t.energy.seq + 1 } }, _, h, ?_, ha.vfs.trans hs.vfs,
    ha.counters.trans hs.counters, congrArg (· + 1) (ha.seq.trans hs.seq), fun x => ?_, h2, h1⟩
  · simp only [answerMeter, hq, hr, hb, Bool.false_eq_true, if_false, readingStatus_ok hwq, ht]
  · rw [← hs.byte]
    exact hh x

end Sys2Proof.Machine
end

section
/-! Energy requests (O53): a request waits at its page, and the security engine answers it (R354). -/

namespace Sys2Proof.Machine

/-- A post changes its ring and what waits for its records alone. -/
theorem postRec_only (s : State) (ring : Nat) (r : FRec) :
    ∃ x y z, postRec s ring r = { s with rings := x, waits := y, gangs := z } := by
  unfold postRec
  dsimp only
  split
  · exact ⟨_, _, _, rfl⟩
  · obtain ⟨x, y, e⟩ := bumpSeqs_only s ring ((recsAfter s (s.ring ring) r).map (·.seq))
    rw [e]
    exact ⟨_, _, _, rfl⟩

/-- A request of an unknown context has a NOTICE in place of a record (R354). -/
theorem energyNotice_posts (s : State) (page ctx : Nat) :
    (energyNotice s page ctx).vf page = s.vf page ∧ (∀ a, (energyNotice s page ctx).byte a = s.byte a) ∧
      ((s.ring page).pend.length < 64 →
        ∃ r, Posted s (energyNotice s page ctx) page r ∧ r.cls = 3 ∧ r.cause = 8 ∧ r.src = 0x260) := by
  obtain ⟨x, y, z, e⟩ := postRec_only s page { baseRec s page ctx with src := 0x260, cause := 8 }
  refine ⟨by rw [energyNotice, e]; rfl, fun a => by rw [energyNotice, e]; rfl, fun h => ?_⟩
  obtain ⟨-, -, -, q, -, hp⟩ := postRec_posted s page { baseRec s page ctx with src := 0x260, cause := 8 } (.inr h)
  exact ⟨_, hp, rfl, rfl, rfl⟩

/-- A request waits behind the others of its page while fewer than 16 do (R354). -/
theorem execEnreq_waits {s : State} {page : Nat} {v : DWord} {c : Context} (hp : page < 64) (hc : s.ctx? (s.vf page).enctx = some c)
    (hv : c.vf = page) (hk : c.state ≠ .killed) (hn : (s.vf page).enreq.length < 16) :
    execEnreq page v s = .next (s.setVf page
      { s.vf page with enreq := (s.vf page).enreq ++ [((s.vf page).enctx, v)] }) := by
  have h1 : isPage page = true := by simp [isPage]; omega
  simp [execEnreq, h1, hc, hv, hk, Nat.not_le.mpr hn]

theorem execEnreq_unknown {s : State} {page : Nat} {v : DWord} (hp : page < 64) (hc : s.ctx? (s.vf page).enctx = none) :
    execEnreq page v s = .next (energyNotice s page 0xFFFF) := by
  have h1 : isPage page = true := by simp [isPage]; omega
  have h2 : page ≠ pfPage := by simp [pfPage]; omega
  simp [execEnreq, h1, h2, hc]

/-- A seventeenth request waits until its block can be reached, for it is answered at once (R354). -/
theorem execEnreq_full {s : State} {page : Nat} {v : DWord} {c : Context} (hc : s.ctx? (s.vf page).enctx = some c)
    (hv : c.vf = page) (hk : c.state ≠ .killed) (hn : 16 ≤ (s.vf page).enreq.length)
    (ho : meterOpen s page (s.vf page).enctx v = false) : execEnreq page v s = .next s := by
  simp [execEnreq, hc, hv, hk, hn, ho]

/-- The first request of a page is answered where the security engine is ready and the block can be reached. -/
theorem execEnergyRecord_cons {s : State} {page c : Nat} {a : DWord} {rest : List (Nat × DWord)}
    (h : (s.vf page).enreq = (c, a) :: rest) :
    execEnergyRecord page s = .next (if .port 12 ∈ s.pf.ready ∧ meterOpen s page c a = true
      then answerMeter (s.setVf page { s.vf page with enreq := rest }) page c a false else s) := by
  simp [execEnergyRecord, h]

theorem execEnctx_isVf {s : State} {page : Nat} {v : DWord} (hp : page < 64) :
    execEnctx page v s = .next (s.setVf page { s.vf page with enctx := v.toNat % 2 ^ 16 }) := by
  have h : isVf page = true := by simpa [isVf] using hp
  simp [execEnctx, h, bitsOf]

/-- What the registers of a virtual function's page do with an energy request (R354). -/
theorem energyRequests (page : Nat) (v : DWord) (s : State) (hp : page < 64) :
    let x := s.vf page
    (∀ c, s.ctx? x.enctx = some c → c.vf = page → c.state ≠ .killed → x.enreq.length < 16 →
      ∃ t, exec (.enreq page v) s = .next t ∧ (∀ a, t.byte a = s.byte a) ∧ t.vf page = { x with enreq := x.enreq ++ [(x.enctx, v)] }) ∧
    (s.ctx? x.enctx = none → ∃ t, exec (.enreq page v) s = .next t ∧ t.vf page = x ∧ (∀ a, t.byte a = s.byte a) ∧
      ((s.ring page).pend.length < 64 → ∃ r, Posted s t page r ∧ r.cls = 3 ∧ r.cause = 8 ∧ r.src = 0x260)) ∧
    (∀ c, s.ctx? x.enctx = some c → c.vf = page → c.state ≠ .killed → 16 ≤ x.enreq.length → meterOpen s page x.enctx v = false →
      exec (.enreq page v) s = .next s) ∧
    (∀ a rest, x.enreq = a :: rest → .port 12 ∉ s.pf.ready ∨ meterOpen s page a.1 a.2 = false →
      exec (.energyRecord page) s = .next s) ∧
    ∃ t, exec (.enctx page v) s = .next t ∧ (∀ a, t.byte a = s.byte a) ∧ t.vf page = { x with enctx := v.toNat % 2 ^ 16 } := by
  refine ⟨fun c hc hv hk hn => ⟨_, execEnreq_waits hp hc hv hk hn, fun _ => rfl, setVf_vf_self ..⟩,
    fun hc => ⟨_, execEnreq_unknown hp hc, energyNotice_posts s page 0xFFFF⟩,
    fun c hc hv hk hn ho => execEnreq_full hc hv hk hn ho, fun a rest ha hr => ?_, ?_⟩
  · refine (execEnergyRecord_cons ha).trans (congrArg _ (if_neg fun h => ?_))
    rcases hr with hr | hr
    · exact hr h.1
    · rw [h.2] at hr; exact absurd hr (by decide)
  · exact ⟨_, execEnctx_isVf hp, fun _ => rfl, setVf_vf_self ..⟩

-- What a program reads of a record in memory.

/-- A number of a record, read where its bytes stand. -/
theorem readPhys_of_bytes {t : State} {a n v : Nat} (h : ∀ i < n, t.byte (a + i) = BitVec.ofNat 8 (v / 256 ^ i)) :
    t.readPhys a n = v % 256 ^ n := leValue_bytes _ v n h

/-- Sixty-four bytes in memory, as a list. -/
theorem bytes_eq_head {t : State} {d : Nat} {h : List Byte} (hl : h.length = 64) (hb : ∀ i < 64, t.byte (d + i) = h.getD i 0) :
    ((List.range 64).map fun j => t.byte (d + j)) = h := by
  refine List.ext_getElem (by simp [hl]) fun i h1 h2 => ?_
  have hi : i < 64 := by simpa using h1
  simp [hb i hi, List.getD_eq_getElem?_getD, h2]

/-- What a signed record says where it stands in memory (Table 7). -/
theorem record_in_memory {s t : State} {d counter stamp seq : Nat} {r h nonce : List Byte} (hh : Holds s t d r)
    (hr : RecordSays r h) (hd : HeadSays h 0 0 counter stamp seq nonce) :
    t.readPhys d 1 = 0 ∧ t.readPhys (d + 3) 1 = 0 ∧ t.readPhys (d + 8) 8 = counter % 2 ^ 64 ∧
      t.readPhys (d + 16) 8 = stamp % 2 ^ 64 ∧ t.readPhys (d + 24) 8 = seq % 2 ^ 64 ∧
      (∀ i < 32, t.byte (d + 32 + i) = nonce.getD i 0) ∧
      (∀ i < 384, t.byte (d + 64 + i) = (Config.rsaSign ((List.range 64).map fun j => t.byte (d + j))).getD i 0) ∧
      (∀ i < 16224, t.byte (d + 448 + i) = (Config.slhSign ((List.range 64).map fun j => t.byte (d + j))).getD i 0) ∧
      ∀ x, (x < d ∨ d + 16672 ≤ x) → t.byte x = s.byte x := by
  have hb {i : Nat} (hi : i < 16672) : t.byte (d + i) = r.getD i 0 := hh.getD (by rw [hr.length]; exact hi)
  have hm {i : Nat} (hi : i < 64) : t.byte (d + i) = h.getD i 0 := (hb (by omega)).trans (hr.head i hi)
  have hn {k v : Nat} (hk : k ≤ 56) (hv : ∀ i < 8, h.getD (k + i) 0 = BitVec.ofNat 8 (v / 256 ^ i)) :
      t.readPhys (d + k) 8 = v % 2 ^ 64 := readPhys_of_bytes fun i hi => by rw [Nat.add_assoc, hm (by omega), hv i hi]
  rw [bytes_eq_head hd.length fun i hi => hm hi]
  refine ⟨?_, ?_, hn (by omega) hd.counter, hn (by omega) hd.stamp, hn (by omega) hd.seq, fun i hi => ?_, fun i hi => ?_,
    fun i hi => ?_, fun x hx => hh.outside (by rwa [hr.length])⟩
  · have h0 : t.byte d = 0 := (hm (i := 0) (by omega)).trans hd.status
    simp [State.readPhys, leValue, h0]
  · have h0 : t.byte (d + 3) = 0 := (hm (by omega)).trans hd.kind
    simp [State.readPhys, leValue, h0]
  · rw [Nat.add_assoc, hm (by omega), hd.nonce i hi]
  · rw [Nat.add_assoc, hb (by omega), hr.rsa i hi]
  · rw [Nat.add_assoc, hb (by omega), hr.slh i hi]

/-- The record that answers a request of the physical function's page (R354). -/
theorem energyRecord_answers {s : State} {c : Nat} {a : DWord} {rest : List (Nat × DWord)} {bs : List Byte}
    (hq : (s.vf 64).enreq = (c, a) :: rest) (hp : .port 12 ∈ s.pf.ready) (ho : meterOpen s 64 c a = true)
    (hr : readMeter (blockSlots s 64 c a) 64 c a = some bs) (hb : badBlock bs = false) (hc : s.ctx? 65536 = none)
    (hw : ReadsWell s bs) (hm : blockValue bs 8 8 + 16672 ≤ 2 ^ 64)
    (hk : ∀ i < 521, backed (blockValue bs 8 8 + 32 * i) 1 = true) :
    ∃ t r h, exec (.energyRecord 64) s = .next t ∧ (t.vf 64).enreq = rest ∧ t.energy.seq = s.energy.seq + 1 ∧
      t.energy.counters = s.energy.counters ∧ Holds s t (blockValue bs 8 8) r ∧ RecordSays r h ∧
      HeadSays h 0 0 (tget 0 s.energy.counters (readUser bs) / 1000) s.stamp.toNat (s.energy.seq + 1)
        ((List.range 32).map fun i => bs.getD (16 + i) 0) := by
  have hr' : readMeter (blockSlots (s.setVf 64 { s.vf 64 with enreq := rest }) 64 c a) 64 c a = some bs := by
    rw [← hr]
    exact readMeter_pf_congr (blockSlots_mem_congr (setVf_mem ..) c a) c a
  have hw' : ReadsWell (s.setVf 64 { s.vf 64 with enreq := rest }) bs := by
    unfold ReadsWell at hw ⊢
    by_cases hu : Config.meterVf bs < 64
    · rw [if_pos hu] at hw ⊢
      rw [setVf_vf, if_neg (by omega)]
      exact hw
    · rwa [if_neg hu] at hw ⊢
  obtain ⟨t, r, h, ht, hv, h1, h2, h3, h4, h5⟩ := answerMeter_record hr' hb hc hw' hm hk
  refine ⟨t, r, h, (execEnergyRecord_cons hq).trans (by rw [if_pos ⟨hp, ho⟩, ht]), ?_, h2, h1, h3, h4, h5⟩
  rw [State.vf, hv]
  exact congrArg VfRegs.enreq (setVf_vf_self ..)

/-- The answer as the bytes that a program reads in memory (Table 7). -/
theorem energyRecord_pf (s : State) (c : Nat) (a : DWord) (rest : List (Nat × DWord)) (bs : List Byte)
    (hq : (s.vf 64).enreq = (c, a) :: rest) (hp : .port 12 ∈ s.pf.ready) (ho : meterOpen s 64 c a = true)
    (hr : readMeter (blockSlots s 64 c a) 64 c a = some bs) (hb : badBlock bs = false) (hc : s.ctx? 65536 = none) :
    let d := blockValue bs 8 8
    let idx := blockValue bs 0 1
    let u := Config.meterVf bs
    let user := if u < 64 then 8 * u + idx else 512
    (if u < 64 then idx < ((List.range 8).filter fun p => (s.vf u).vpart.getLsbD p).length ∧ user ∉ s.energy.moved else idx = 0) →
    d + 16672 ≤ 2 ^ 64 → (∀ i < 521, backed (d + 32 * i) 1 = true) →
    ∃ t, exec (.energyRecord 64) s = .next t ∧ (t.vf 64).enreq = rest ∧ t.energy.seq = s.energy.seq + 1 ∧
      t.energy.counters = s.energy.counters ∧ t.readPhys d 1 = 0 ∧ t.readPhys (d + 3) 1 = 0 ∧
      t.readPhys (d + 8) 8 = tget 0 s.energy.counters user / 1000 % 2 ^ 64 ∧ t.readPhys (d + 16) 8 = s.cycle / 2 % 2 ^ 64 ∧
      t.readPhys (d + 24) 8 = (s.energy.seq + 1) % 2 ^ 64 ∧ (∀ i < 32, t.byte (d + 32 + i) = bs.getD (16 + i) 0) ∧
      (∀ i < 384, t.byte (d + 64 + i) = (Config.rsaSign ((List.range 64).map fun j => t.byte (d + j))).getD i 0) ∧
      (∀ i < 16224, t.byte (d + 448 + i) = (Config.slhSign ((List.range 64).map fun j => t.byte (d + j))).getD i 0) ∧
      ∀ x, (x < d ∨ d + 16672 ≤ x) → t.byte x = s.byte x := by
  intro d idx u user hw hm hk
  obtain ⟨t, r, h, ht, h1, h2, h3, h4, h5, h6⟩ := energyRecord_answers hq hp ho hr hb hc hw hm hk
  obtain ⟨m1, m2, m3, m4, m5, m6, m7, m8, m9⟩ := record_in_memory h4 h5 h6
  refine ⟨t, ht, h1, h2, h3, m1, m2, m3, ?_, m5, fun i hi => ?_, m7, m8, m9⟩
  · rw [m4, State.stamp, dw, BitVec.toNat_ofNat, Nat.mod_mod]
  · rw [m6 i hi]
    simp [List.getD_eq_getElem?_getD, hi]

end Sys2Proof.Machine
end

section
/-! Meters and the device (O53): energy attributed, exported and imported, SPDM, firmware, channels and readiness (R7, R18,
R352, R356, R357, R405 to R407). -/

namespace Sys2Proof.Machine

-- Meters.

/-- Closing a partition's reading moves its time to its user and nothing else. -/
theorem creditTime_only (s : State) (p : Nat) :
    ∃ x y, creditTime s p = { s with parts := x, energy := { s.energy with times := y } } := by
  unfold creditTime
  dsimp only
  split <;> exact ⟨_, _, rfl⟩

theorem creditTimes_only (l : List Nat) (s : State) :
    ∃ x y, l.foldl creditTime s = { s with parts := x, energy := { s.energy with times := y } } := by
  induction l generalizing s with
  | nil => exact ⟨s.parts, s.energy.times, rfl⟩
  | cons p r ih =>
    obtain ⟨x, y, e⟩ := creditTime_only s p
    obtain ⟨x', y', e'⟩ := ih (creditTime s p)
    exact ⟨x', y', by rw [List.foldl_cons, e', e]⟩

theorem addEnergy_counters (s : State) (u n v : Nat) :
    tget 0 (addEnergy s u n).energy.counters v = if v = u then tget 0 s.energy.counters u + n else tget 0 s.energy.counters v :=
  tget_tput ..

/-- The only user of a domain has all of its energy (R352). -/
theorem shareOut_one (s : State) {n u w : Nat} (hw : 0 < w) : shareOut s n [(u, w)] = addEnergy (addEnergy s u n) u 0 := by
  simp [shareOut, Nat.mul_div_cancel n hw]

/-- A domain without a user is the physical function's (R352). -/
theorem shareOut_none (s : State) (n : Nat) : shareOut s n [] = addEnergy s 512 n := rfl

/-- The meters begin a new interval. -/
def metersAnew (s : State) : State :=
  { s with energy := { s.energy with since := s.cycle, times := [], accesses := [], carried := [], slots := [], spills := [] } }

/-- At the end of an interval a channel's energy goes to its users, and the meters begin anew (R352). -/
theorem execMeterInterval_chan {s : State} (c n : Nat) (hi : s.energy.since + 20000 ≤ s.cycle) (hp : .port 13 ∈ s.pf.ready) :
    ∃ x y, execMeterInterval [(.chan c, n)] s = .next (metersAnew
      (shareOut { s with parts := x, energy := { s.energy with times := y } } n (usersOf s.energy.slots c))) := by
  obtain ⟨x, y, e⟩ := creditTimes_only (List.range 8) s
  have hs : ¬s.cycle < s.energy.since + us 10 := Nat.not_lt.mpr hi
  exact ⟨x, y, by simp [execMeterInterval, hs, hp, e, assignEnergy, metersAnew]⟩

/-- A metered unit's energy goes to its one user, or to the physical function (R18, R352). -/
theorem meterInterval_chan (s : State) (c n : Nat) (hi : s.energy.since + 20000 ≤ s.cycle) (hp : .port 13 ∈ s.pf.ready) :
    (∀ u w, usersOf s.energy.slots c = [(u, w)] → 0 < w → ∃ t, exec (.meterInterval [(.chan c, n)]) s = .next t ∧
      (∀ a, t.byte a = s.byte a) ∧ tget 0 t.energy.counters u = tget 0 s.energy.counters u + n ∧
      (∀ v, v ≠ u → tget 0 t.energy.counters v = tget 0 s.energy.counters v) ∧ t.energy.since = s.cycle ∧ t.energy.slots = []) ∧
    (usersOf s.energy.slots c = [] → ∃ t, exec (.meterInterval [(.chan c, n)]) s = .next t ∧
      tget 0 t.energy.counters 512 = tget 0 s.energy.counters 512 + n) := by
  obtain ⟨x, y, e⟩ := execMeterInterval_chan c n hi hp
  refine ⟨fun u w hu hw => ⟨_, e, ?_⟩, fun hu => ⟨_, e, ?_⟩⟩
  · rw [hu, shareOut_one _ hw]
    refine ⟨fun _ => rfl, ?_, fun v hv => ?_, rfl, rfl⟩
    · rw [metersAnew, addEnergy_counters, if_pos rfl, addEnergy_counters, if_pos rfl, Nat.add_zero]
    · rw [metersAnew, addEnergy_counters, if_neg hv, addEnergy_counters, if_neg hv]
  · rw [hu, shareOut_none, metersAnew, addEnergy_counters, if_pos rfl]

-- A context's counters leave and arrive.

theorem mem_insertNat {n x : Nat} {l : List Nat} : x ∈ insertNat n l ↔ x = n ∨ x ∈ l := by
  induction l with
  | nil => simp [insertNat]
  | cons y r ih =>
    unfold insertNat
    split_ifs with h1 h2
    · simp
    · subst h2; simp
    · simp [ih, or_left_comm]

/-- A counter arrives without a step back, and a false record refuses its virtual function's restore (R356). -/
theorem energyImport_record (r : ExportRec) (s : State) :
    let key := 8 * r.vf + r.index
    let old := tget 0 s.energy.counters key
    (r.sigR = true → r.sigS = true → tget 0 s.energy.seen r.src < r.seq → ∃ t, exec (.energyImport r) s = .next t ∧
      (∀ a, t.byte a = s.byte a) ∧ tget 0 t.energy.counters key / 1000 = max (old / 1000) r.counter ∧
      (r.counter ≤ old / 1000 → tget 0 t.energy.counters key = old) ∧ tget 0 t.energy.seen r.src = r.seq ∧
      r.vf ∉ t.energy.refused) ∧
    (r.sigR = false ∨ r.sigS = false ∨ r.seq ≤ tget 0 s.energy.seen r.src → ∃ t, exec (.energyImport r) s = .next t ∧
      t.energy.counters = s.energy.counters ∧ r.vf ∈ t.energy.refused) := by
  intro key old
  refine ⟨fun h1 h2 h3 => ?_, fun h => ?_⟩
  · have hk : tget 0 (addEnergy s key (1000 * (r.counter - old / 1000))).energy.counters key =
        old + 1000 * (r.counter - old / 1000) := by rw [addEnergy_counters, if_pos rfl]
    have hc : (r.sigR && r.sigS && decide (tget 0 s.energy.seen r.src < r.seq)) = true := by simp [h1, h2, h3]
    refine ⟨_, congrArg Host.Outcome.next (if_pos hc), fun _ => rfl, ?_, fun hc => ?_, tget_tput_self .., fun hm => ?_⟩
    · exact (congrArg (· / 1000) hk).trans (by omega)
    · exact hk.trans (by omega)
    · simp at hm
  · have hc : (r.sigR && r.sigS && decide (tget 0 s.energy.seen r.src < r.seq)) = false := by
      rcases h with h | h | h
      · simp [h]
      · simp [h]
      · simp [Nat.not_lt.mpr h]
    refine ⟨{ s with energy := { s.energy with refused := insertNat r.vf s.energy.refused } }, ?_, rfl,
      mem_insertNat.mpr (.inl rfl)⟩
    rw [exec_energyImport, execEnergyImport, if_neg (by rw [hc]; decide)]

/-- A stopped context's counters leave, each in a signed record (R356). -/
theorem execEnergyExport_one {s : State} {ctx : Nat} {c : Context} (hc : s.ctx? ctx = some c) (hs : c.state = .stopped)
    (hp : c.parts = 1) : execEnergyExport ctx s = .next (exportOne s c.vf 0) := by
  simp [execEnergyExport, hc, hs, hp]

/-- An exported record says its counter (R356, Table 7). -/
theorem exportBytes_counter (s : State) (vf idx : Nat) :
    leValue (fun i => (exportBytes s vf idx).getD (8 + i) 0) 8 = tget 0 s.energy.counters (8 * vf + idx) / 1000 % 2 ^ 64 := by
  have hh := recordHead_says 0 vf idx 1 (physPart s vf idx) (0x250 + physPart s vf idx)
    (tget 0 s.energy.counters (8 * vf + idx) / 1000) s.stamp (s.energy.seq + 1) []
  have hr := signRecord_says hh.length
  exact leValue_bytes _ _ 8 fun i hi => (hr.head (8 + i) (by omega)).trans (hh.counter i hi)

theorem energyExport_one (ctx : Nat) (s : State) (c : Context) (hc : s.ctx? ctx = some c) (hs : c.state = .stopped)
    (hp : c.parts = 1) : ∃ t x, exec (.energyExport ctx) s = .next t ∧
    (∀ a, t.byte a = s.byte a) ∧ t.energy.exports = s.energy.exports ++ [x] ∧ t.energy.seq = s.energy.seq + 1 ∧
    8 * c.vf ∈ t.energy.moved ∧ leValue (fun i => x.getD (8 + i) 0) 8 = tget 0 s.energy.counters (8 * c.vf) / 1000 % 2 ^ 64 :=
  ⟨_, _, execEnergyExport_one hc hs hp, fun _ => rfl, rfl, rfl, mem_insertNat.mpr (.inl rfl), exportBytes_counter s c.vf 0⟩

-- The security engine.

/-- A message that is due is answered and moves the connection on (R357). -/
theorem execSpdmRequest_due {s : State} {r : Spdm} (hp : .port 12 ∈ s.pf.ready) (h : (spdmAnswer s r).1 ≤ s.energy.spdm)
    (h3 : (spdmAnswer s r).1 ≠ 3) : execSpdmRequest r s = .next { s with energy := { s.energy with
      spdm := (spdmAnswer s r).2.1, spdmOut := s.energy.spdmOut ++ [(spdmAnswer s r).2.2] } } := by
  simp [execSpdmRequest, hp, Nat.not_lt.mpr h, h3]

/-- A message before its time is answered with an error and leaves the connection as it is (R357). -/
theorem execSpdmRequest_early {s : State} {r : Spdm} (hp : .port 12 ∈ s.pf.ready) (h : s.energy.spdm < (spdmAnswer s r).1) :
    ∃ m, execSpdmRequest r s = .next { s with energy := { s.energy with spdmOut := s.energy.spdmOut ++ [m] } } :=
  ⟨_, by rw [execSpdmRequest, if_neg (by simp [hp]), if_pos h]⟩

/-- SPDM answers in its order (R357). -/
theorem spdm_order (s : State) (hp : .port 12 ∈ s.pf.ready) :
    (∃ t, exec (.spdmRequest .getVersion) s = .next t ∧ t.energy.spdm = 1 ∧ t.energy.spdmOut.length = s.energy.spdmOut.length + 1) ∧
    (s.energy.spdm = 1 → ∀ flags, ∃ t, exec (.spdmRequest (.getCapabilities flags)) s = .next t ∧ t.energy.spdm = 2) ∧
    (s.energy.spdm = 2 → ∀ asym hash, ∃ t, exec (.spdmRequest (.negotiateAlgorithms asym hash)) s = .next t ∧
      t.energy.spdm = if asym &&& spdmAsym = 0 ∨ hash &&& spdmHash = 0 then 2 else 3) ∧
    ∀ r, 3 ≤ (spdmAnswer s r).1 → s.energy.spdm < 3 → ∃ t, exec (.spdmRequest r) s = .next t ∧ t.energy.spdm = s.energy.spdm := by
  refine ⟨⟨_, execSpdmRequest_due hp (Nat.zero_le _) (by simp [spdmAnswer]), rfl, by simp⟩,
    fun h flags => ⟨_, execSpdmRequest_due hp h.ge (by simp [spdmAnswer]), rfl⟩,
    fun h asym hash => ⟨_, execSpdmRequest_due hp h.ge (by simp [spdmAnswer]), rfl⟩, fun r h1 h2 => ?_⟩
  obtain ⟨m, e⟩ := execSpdmRequest_early (r := r) hp (by omega)
  exact ⟨_, e, rfl⟩

-- Firmware.

/-- An image that verifies is the one that runs from then on (R7). -/
theorem firmwareOf_offered (s : State) {i : Nat} (image : List Byte) (hi : i < 4) (j : Nat) :
    firmwareOf (offerFirmware s i image true true) j = if j = i then image else firmwareOf s j := by
  have hc : (true && true && decide (i < 4)) = true := by simp [hi]
  rw [offerFirmware, if_pos hc]
  by_cases h : j = i
  · simp [firmwareOf, h]
  · have hk : ((s.energy.images.filter fun e => e.1 != i).find? fun e => e.1 == j) = s.energy.images.find? fun e => e.1 == j := by
      rw [List.find?_filter]
      congr 1
      funext e
      by_cases he : e.1 = j
      · simp [he, h]
      · simp [he]
    simp [firmwareOf, h, Ne.symm h, hk]

theorem offerFirmware_rejected (s : State) (i : Nat) (image : List Byte) {rsa slh : Bool} (h : rsa = false ∨ slh = false) :
    offerFirmware s i image rsa slh = s := by
  rcases h with rfl | rfl <;> simp [offerFirmware]

/-- A firmware image is taken as a whole or not at all (R7). -/
theorem firmware_offered (s : State) (rest : List Turn) (i : Nat) (image : List Byte) (rsa slh : Bool)
    (ha : s.agenda = .firmware i image rsa slh :: rest) :
    (rsa = true → slh = true → i < 4 → ∃ t, step s = .next t ∧ (∀ a, t.byte a = s.byte a) ∧ firmwareOf t i = image ∧
      ∀ j, j ≠ i → firmwareOf t j = firmwareOf s j) ∧
    (rsa = false ∨ slh = false → step s = .next { s with agenda := rest }) := by
  have e : step s = .next (offerFirmware { s with agenda := rest } i image rsa slh) := by
    rw [step, nextTurnOf, ha]; rfl
  refine ⟨fun h1 h2 hi => ⟨_, e, fun a => ?_, ?_, fun j hj => ?_⟩, fun h => by rw [e, offerFirmware_rejected _ _ _ h]⟩
  · unfold offerFirmware
    split <;> rfl
  · rw [h1, h2, firmwareOf_offered _ _ hi, if_pos rfl]
  · rw [h1, h2, firmwareOf_offered _ _ hi, if_neg hj]
    rfl

-- Limits, channels and functions.

theorem powerLimit_sets (n : Nat) (s : State) (h0 : 0 < n) (h : n ≤ 2000) :
    exec (.powerLimit n) s = .next { s with pf := { s.pf with mhz := n } } := by
  simp [execPowerLimit, h0, h]

/-- A channel closes for its recalibration at its interval (R405, log 47). -/
theorem recalibration_closes (chan : Nat) (s : State) (hc : chan < 512) (hr : .chan chan ∈ s.pf.ready)
    (hi : tget 0 s.mem.calat chan + 2000000 * tget 32 s.mem.calint chan ≤ s.cycle) :
    ∃ t, exec (.recalibration chan) s = .next t ∧ (∀ a, t.byte a = s.byte a) ∧
      tget 0 t.mem.calcnt chan = min (tget 0 s.mem.calcnt chan + 1) 65535 ∧ tget 0 t.mem.calat chan = s.cycle ∧
      chanClosed t chan = true := by
  have h : chan < 512 ∧ s.pf.ready.contains (.chan chan) ∧ tget 0 s.mem.calat chan + us 1000 * calInterval s chan ≤ s.cycle :=
    ⟨hc, by simpa using hr, hi⟩
  refine ⟨_, congrArg Host.Outcome.next (if_pos h), fun _ => rfl, tget_tput_self .., tget_tput_self .., ?_⟩
  simp [chanClosed]

/-- CLR empties the counts of the page that PEQADDR names, and its rows stay in the repair map (R404). -/
theorem peqdataClr_clears (v : DWord) (s : State) (h : v.getLsbD 63 = true) :
    ∃ t, exec (.peqdataClr v) s = .next t ∧ (∀ a, t.byte a = s.byte a) ∧
    (pageErr t s.mem.peqaddr).corr = 0 ∧ (pageErr t s.mem.peqaddr).uncorr = 0 ∧
    ∀ p, spared t p = spared s p := by
  have hb : bitOf v 63 = true := h
  have he (x : Tab PageErr) : tget ⟨0, 0⟩ (tput ⟨0, 0⟩ x s.mem.peqaddr ⟨0, 0⟩) s.mem.peqaddr = (⟨0, 0⟩ : PageErr) := tget_tput_self ..
  exact ⟨_, congrArg Host.Outcome.next (if_pos hb), fun _ => rfl, congrArg PageErr.corr (he _),
    congrArg PageErr.uncorr (he _), fun _ => rfl⟩

theorem coldReset_state (s : State) : exec .coldReset s = .next { State.reset with agenda := s.agenda } := rfl

/-- A function is ready or failed, never both (R407). -/
theorem readiness_once (f : FnId) (s : State) (hf : isFn f = true) (hr : f ∉ s.pf.ready) (hx : f ∉ s.pf.failed) :
    exec (.readiness f true) s = .next { s with pf := { s.pf with ready := s.pf.ready ++ [f] } } ∧
    exec (.readiness f false) s = .next { s with pf := { s.pf with failed := s.pf.failed ++ [f] } } := by
  simp [execReadiness, hf, hr, hx]

end Sys2Proof.Machine
end

section
/-! The upkeep of memory (O53): patrol reads, the patrol's periods and a warm reset (R401, R402, R404, R407). -/

namespace Sys2Proof.Machine

-- What a read in memory does to the sectors.

/-- A read corrects a single error of a sector that is not poisoned and leaves every other count (R402). -/
theorem dramRead_errors (s : State) (x sec : Nat) : tget 0 (dramRead s x).1.mem.errors sec =
    if sec = x ∧ s.poisoned x = false ∧ tget 0 s.mem.errors x = 1 then 0 else tget 0 s.mem.errors sec := by
  unfold dramRead
  dsimp only
  split_ifs with hp h2 h1
  all_goals simp_all [tget_tput]

/-- A read poisons a sector with two errors or more (R402). -/
theorem dramRead_poisoned (s : State) (x sec : Nat) :
    (dramRead s x).1.poisoned sec = true ↔ s.poisoned sec = true ∨ (sec = x ∧ 2 ≤ tget 0 s.mem.errors x) := by
  have hm (p : List Nat) : p.contains sec = true ↔ sec ∈ p := by simp
  unfold dramRead
  dsimp only
  by_cases hp : s.poisoned x = true
  · rw [if_pos hp]
    exact ⟨.inl, fun h => h.elim id fun h => by rw [h.1]; exact hp⟩
  rw [if_neg hp]
  by_cases h2 : 2 ≤ tget 0 s.mem.errors x
  · rw [if_pos h2, State.poisoned, State.poisoned, hm, hm, mem_insertNat]
    simp [h2, or_comm]
  rw [if_neg h2]
  have hs : (sec = x ∧ 2 ≤ tget 0 s.mem.errors x) ↔ False := by simp [h2]
  rw [hs, or_false]
  split <;> rfl

/-- A run of sectors read one after another. -/
def readAll (s : State) (l : List Nat) : State := l.foldl (fun s x => (dramRead s x).1) s

theorem homeOnly_readAll (s : State) (l : List Nat) : HomeOnly s (readAll s l) := .foldl homeOnly_dramRead l s

/-- Poison stays. -/
theorem readAll_keeps_poison {s : State} {sec : Nat} (l : List Nat) (h : s.poisoned sec = true) :
    (readAll s l).poisoned sec = true := by
  induction l generalizing s with
  | nil => exact h
  | cons x r ih => exact ih ((dramRead_poisoned s x sec).mpr (.inl h))

/-- No read leaves one error where there was none or more. -/
theorem readAll_not_one {s : State} {sec : Nat} (l : List Nat) (h : tget 0 s.mem.errors sec ≠ 1) :
    tget 0 (readAll s l).mem.errors sec ≠ 1 := by
  induction l generalizing s with
  | nil => exact h
  | cons x r ih =>
    refine ih ?_
    rw [dramRead_errors]
    split_ifs
    · decide
    · exact h

/-- A read sector with two errors or more is poisoned (R402). -/
theorem readAll_poisons {s : State} {sec : Nat} {l : List Nat} (hl : sec ∈ l) (h : 2 ≤ tget 0 s.mem.errors sec) :
    (readAll s l).poisoned sec = true := by
  induction l generalizing s with
  | nil => exact absurd hl (by simp)
  | cons x r ih =>
    by_cases hx : sec = x
    · exact readAll_keeps_poison r ((dramRead_poisoned s x sec).mpr (.inr ⟨hx, hx ▸ h⟩))
    · refine ih ((List.mem_cons.mp hl).resolve_left hx) ?_
      rwa [dramRead_errors, if_neg fun e => hx e.1]

/-- A read sector keeps one error only if it was poisoned (R402). -/
theorem readAll_corrects {s : State} {sec : Nat} {l : List Nat} (hl : sec ∈ l)
    (h : tget 0 (readAll s l).mem.errors sec = 1) : s.poisoned sec = true := by
  induction l generalizing s with
  | nil => exact absurd hl (by simp)
  | cons x r ih =>
    by_cases hx : sec = x
    · subst hx
      by_contra hp
      refine readAll_not_one r ?_ h
      rw [dramRead_errors]
      split_ifs with he
      · decide
      · exact fun h1 => he ⟨rfl, by simpa using hp, h1⟩
    · have hp := ih ((List.mem_cons.mp hl).resolve_left hx) h
      exact ((dramRead_poisoned s x sec).mp hp).resolve_right fun e => hx e.1

-- Patrol.

/-- The patrol waits for a closed channel (R401). -/
theorem execPatrolRead_closed {page : Nat} {s : State} (h : pageOpen s page = false) : execPatrolRead page s = .next s := by
  unfold execPatrolRead
  rw [if_neg]
  rintro ⟨-, -, -, -, -, ho⟩
  rw [h] at ho
  exact absurd ho (by decide)

/-- A page that is due is read sector by sector (R401). -/
theorem execPatrolRead_due {page : Nat} {s : State} (h1 : page < hbmPages) (h2 : lastTenth s = true) (h3 : page ∉ s.mem.ckptPages)
    (h4 : page ∉ s.mem.patrolPages) (h5 : pageReady s page = true) (h6 : pageOpen s page = true) :
    ∃ l, (∀ i < 2048, 2048 * page + i ∈ l) ∧ execPatrolRead page s = .next { readAll s l with
      mem := { (readAll s l).mem with patrolPages := insertNat page (readAll s l).mem.patrolPages } } := by
  have hc : page < hbmPages ∧ lastTenth s ∧ !s.mem.ckptPages.contains page ∧ !s.mem.patrolPages.contains page ∧
      pageReady s page ∧ pageOpen s page := ⟨h1, h2, by simp [h3], by simp [h4], h5, h6⟩
  have hm (i : Nat) (hi : i < 2048) : i ∈ List.range 2048 := List.mem_range.mpr hi
  unfold execPatrolRead
  generalize List.range 2048 = r at hm ⊢
  refine ⟨r.map (page * 2048 + ·), fun i hi => List.mem_map.mpr ⟨i, hm i hi, by omega⟩, ?_⟩
  rw [if_pos hc, readAll, List.foldl_map]

/-- In the last tenth of a period the patrol reads a page that no scrub command has read and whose channels are open; it waits
for a closed channel (R401, log 48). -/
theorem patrolRead_reads (page : Nat) (s : State) (h1 : page < hbmPages) (h2 : lastTenth s = true) (h3 : page ∉ s.mem.ckptPages)
    (h4 : page ∉ s.mem.patrolPages) (h5 : pageReady s page = true) :
    (pageOpen s page = false → exec (.patrolRead page) s = .next s) ∧
    (pageOpen s page = true → ∃ t, exec (.patrolRead page) s = .next t ∧ (∀ a, t.byte a = s.byte a) ∧ page ∈ t.mem.patrolPages ∧
      ∀ i < 2048, (tget 0 t.mem.errors (2048 * page + i) = 1 → s.poisoned (2048 * page + i) = true) ∧
        (2 ≤ tget 0 s.mem.errors (2048 * page + i) → t.poisoned (2048 * page + i) = true)) := by
  refine ⟨execPatrolRead_closed, fun ho => ?_⟩
  obtain ⟨l, hm, e⟩ := execPatrolRead_due h1 h2 h3 h4 h5 ho
  refine ⟨_, e, (homeOnly_readAll s l).still.byte, mem_insertNat.mpr (.inl rfl), fun i hi => ?_⟩
  exact ⟨readAll_corrects (hm i hi), readAll_poisons (hm i hi)⟩

/-- Whether the end of a period reads a sector: its page is on device memory and ready, and neither a scrub command nor the patrol
has read it. -/
def dueAtEnd (s : State) (sec : Nat) : Bool :=
  decide (sec / 2048 < hbmPages) && !s.mem.ckptPages.contains (sec / 2048) && !s.mem.patrolPages.contains (sec / 2048) &&
    pageReady s (sec / 2048)

/-- The end of a period reads what is left (R401). -/
theorem patrolRest_reads (s : State) : patrolRest s = readAll s ((s.mem.errors.map (·.1)).filter (dueAtEnd s)) := by
  rw [readAll, List.foldl_filter, List.foldl_map]
  rfl

theorem tget_of_not_mem_keys {α : Type} {d : α} {t : Tab α} {k : Nat} (h : k ∉ t.map (·.1)) : tget d t k = d := by
  induction t with
  | nil => rfl
  | cons e r ih =>
    obtain ⟨j, x⟩ := e
    rw [List.map_cons, List.mem_cons, not_or] at h
    rw [tget, if_neg h.1, ih h.2]

/-- A sector with errors has an entry. -/
theorem mem_keys_of_tget {t : Tab Nat} {k : Nat} (h : tget 0 t k ≠ 0) : k ∈ t.map (·.1) := by
  by_contra hk
  exact h (tget_of_not_mem_keys hk)

/-- At the end of a period every page that can be has been read (R401). -/
theorem scrubPeriod_ends (s : State) (h : s.mem.periodStart + 2000000000 * s.mem.period ≤ s.cycle) :
    ∃ t, exec .scrubPeriod s = .next t ∧ (∀ a, t.byte a = s.byte a) ∧
    t.mem.ckpt = s.mem.ckptPages.length ∧ t.mem.patrol = readyPages s - s.mem.ckptPages.length ∧ t.mem.ckptPages = [] ∧
    t.mem.patrolPages = [] ∧ t.mem.periodStart = s.cycle ∧
    ∀ sec, sec / 2048 < hbmPages → pageReady s (sec / 2048) = true → sec / 2048 ∉ s.mem.ckptPages → sec / 2048 ∉ s.mem.patrolPages →
      2 ≤ tget 0 s.mem.errors sec → t.poisoned sec = true := by
  have hp : s.mem.periodStart + periodCycles s ≤ s.cycle := h
  refine ⟨_, congrArg Host.Outcome.next (if_pos hp), fun a => ?_, rfl, rfl, rfl, rfl, rfl, fun sec h1 h2 h3 h4 h5 => ?_⟩
  · have hr := (homeOnly_readAll s ((s.mem.errors.map (·.1)).filter (dueAtEnd s))).still.byte a
    rw [← patrolRest_reads] at hr
    exact hr
  · have hd : dueAtEnd s sec = true := by simp [dueAtEnd, h1, h2, h3, h4]
    have hr : (readAll s ((s.mem.errors.map (·.1)).filter (dueAtEnd s))).poisoned sec = true :=
      readAll_poisons (List.mem_filter.mpr ⟨mem_keys_of_tget (by omega), hd⟩) h5
    rw [← patrolRest_reads] at hr
    exact hr

-- A warm reset.

/-- What memory itself holds of a byte that a cache holds changed takes its place; every other byte stays (R407, log 46). -/
theorem keptBytes_byte (l : Tab (Option Byte)) (hn : (l.map (·.1)).Nodup) (t : Tab Byte) (a : Nat) :
    tget unwritten (l.foldl (fun t e => match e.2 with | some x => tput unwritten t e.1 x | none => t) t) a =
      match tget none l a with | some x => x | none => tget unwritten t a := by
  induction l generalizing t with
  | nil => rfl
  | cons e r ih =>
    obtain ⟨j, x⟩ := e
    rw [List.map_cons, List.nodup_cons] at hn
    rw [List.foldl_cons, ih hn.2]
    by_cases ha : a = j
    · subst ha
      rw [tget_of_not_mem_keys hn.1, tget, if_pos rfl]
      cases x with
      | none => rfl
      | some x => exact tget_tput_self ..
    · rw [tget, if_neg ha]
      cases x with
      | none => rfl
      | some x => dsimp only; rw [tget_tput_ne _ _ _ ha]

theorem mem_foldl_insertNat {x : Nat} (l : List Nat) (p : List Nat) : x ∈ l.foldl (fun p y => insertNat y p) p ↔ x ∈ p ∨ x ∈ l := by
  induction l generalizing p with
  | nil => simp
  | cons y r ih => rw [List.foldl_cons, ih, mem_insertNat, List.mem_cons]; tauto

theorem mem_repairRows (s : State) (row : Nat) : row ∈ repairRows s ↔
    row ∈ s.mem.replaced ∨ (∃ p, (p, row) ∈ s.mem.badRows) ∨ ∃ n, 64 ≤ n ∧ (row, n) ∈ s.mem.rows := by
  simp [repairRows, List.mem_eraseDups, and_comm]

/-- A warm reset keeps memory, its history and the counters, and puts the bad rows into the repair map (R404, R407). -/
theorem warmReset_keeps (s : State) (hn : (s.mem.stale.map (·.1)).Nodup) : ∃ t, exec .warmReset s = .next t ∧
    (∀ a, t.byte a = match tget none s.mem.stale a with | some x => x | none => s.byte a) ∧
    (∀ x, x ∈ t.mem.poison ↔ x ∈ s.mem.poison ∨ x ∈ s.mem.oldPoison) ∧ t.mem.store = [] ∧ t.mem.stale = [] ∧
    t.energy.counters = s.energy.counters ∧ t.cycle = s.cycle ∧ (∀ p, pageErr t p = pageErr s p) ∧ t.areas = s.areas ∧
    (∀ row, row ∈ t.mem.replaced ↔ row ∈ s.mem.replaced ∨ (∃ p, (p, row) ∈ s.mem.badRows) ∨ ∃ n, 64 ≤ n ∧ (row, n) ∈ s.mem.rows) ∧ t.gangs = [] ∧ t.ctxs = [] ∧ t.tlb = [] ∧ t.rings = [] ∧ t.vfs = [] ∧
    t.parts = [] ∧ t.queues = [] ∧ t.pf = State.reset.pf ∧ t.core = State.reset.core ∧ t.energy.spdm = 0 :=
  ⟨_, rfl, fun a => keptBytes_byte s.mem.stale hn s.mem.bytes a, fun _ => mem_foldl_insertNat _ _, rfl, rfl, rfl, rfl, fun _ => rfl, rfl,
    mem_repairRows s, rfl, rfl, rfl, rfl, rfl, rfl, rfl, rfl, rfl, rfl⟩

/-- Settles O53, a clause at a time. -/
theorem metersAndUpkeep : Obligations.MetersAndUpkeep :=
  ⟨energyRequests, energyRecord_pf, meterInterval_chan, energyImport_record, energyExport_one, powerLimit_sets, spdm_order,
    firmware_offered, recalibration_closes, peqdataClr_clears, patrolRead_reads, scrubPeriod_ends, warmReset_keeps, coldReset_state,
    readiness_once⟩

end Sys2Proof.Machine
end

section
/-! Every step keeps the stores in their canonical form (O59), operation by operation in the order of the model. A proof reads
as the operation does: where the operation hands a state on from one operation to the next, the proof chains their lemmas. Here
the parts of the state, fault records, traps and the prologue of every instruction. -/

namespace Sys2Proof.Machine

/-- An answer of the model keeps the stores' form: the state that it gives, where it gives one, is canonical. -/
def CanonOut (o : Out) : Prop := ∀ t, o = .next t → Canon t

theorem CanonOut.next {t : State} (w : Canon t) : CanonOut (.next t) := fun _ e => by cases e; exact w

theorem CanonOut.fault {f : Fault} : CanonOut (.fault f) := fun _ e => by cases e

theorem CanonOut.ite {c : Prop} {dec : Decidable c} {a b : Out} (ha : CanonOut a) (hb : CanonOut b) :
    CanonOut (if c then a else b) := by split <;> assumption

theorem Canon.ite {c : Prop} {dec : Decidable c} {s t : State} (hs : Canon s) (ht : Canon t) :
    Canon (if c then s else t) := by split <;> assumption

theorem Canon.ite_fst {β : Type} {c : Prop} {dec : Decidable c} {p q : State × β} (hp : Canon p.1) (hq : Canon q.1) :
    Canon (if c then p else q).1 := by split <;> assumption

theorem Canon.fold {α : Type} {f : State → α → State} {s : State} {l : List α} (w : Canon s)
    (hf : ∀ s x, Canon s → Canon (f s x)) : Canon (l.foldl f s) := w.foldl hf l

/-- A fold over a state and what is gathered beside it. -/
theorem Canon.fold_fst {α β : Type} {f : State × β → α → State × β} {q : State × β} {l : List α} (w : Canon q.1)
    (hf : ∀ q x, Canon q.1 → Canon (f q x).1) : Canon (l.foldl f q).1 := by
  induction l generalizing q with
  | nil => exact w
  | cons x r ih => exact ih (hf q x w)

theorem forall_mem_some {α : Type} {P : α → Prop} {x : α} (h : P x) : ∀ q ∈ some x, P q := fun _ e => by cases e; exact h

theorem forall_mem_none {α : Type} {P : α → Prop} : ∀ q ∈ (none : Option α), P q := fun _ e => by cases e

theorem forall_mem_ite {α : Type} {P : α → Prop} {c : Prop} {dec : Decidable c} {a b : Option α} (ha : ∀ q ∈ a, P q)
    (hb : ∀ q ∈ b, P q) : ∀ q ∈ (if c then a else b), P q := by split <;> assumption

/-- What is in no store of the memory, the cores or the physical function may change in any way. -/
theorem Canon.rest {s : State} (w : Canon s)
    {agenda cycle uid cur tlb walks gangs blocks ctxs launches reqs longs cmds rreqs deliveries queues rings vfs parts waits
     aged fab energy areas engOps ahead imports mmioOut leftAt} :
    Canon { mem := s.mem, core := s.core, pf := s.pf, agenda, cycle, uid, cur, tlb, walks, gangs, blocks, ctxs, launches,
            reqs, longs, cmds, rreqs, deliveries, queues, rings, vfs, parts, waits, aged, fab, energy, areas, engOps, ahead,
            imports, mmioOut, leftAt } := w.of_eq rfl rfl rfl

-- The parts of the state.

theorem Canon.setGang {s k g} (w : Canon s) : Canon (s.setGang k g) := w.rest

theorem Canon.setBlock {s b x} (w : Canon s) : Canon (s.setBlock b x) := w.rest

theorem Canon.setCtx {s c x} (w : Canon s) : Canon (s.setCtx c x) := w.rest

theorem Canon.setLaunch {s l x} (w : Canon s) : Canon (s.setLaunch l x) := w.rest

theorem Canon.setReq {s u x} (w : Canon s) : Canon (s.setReq u x) := w.rest

theorem Canon.setLong {s u x} (w : Canon s) : Canon (s.setLong u x) := w.rest

theorem Canon.setCmd {s u x} (w : Canon s) : Canon (s.setCmd u x) := w.rest

theorem Canon.setRreq {s u x} (w : Canon s) : Canon (s.setRreq u x) := w.rest

theorem Canon.setEngOp {s u x} (w : Canon s) : Canon (s.setEngOp u x) := w.rest

theorem Canon.modGang {s k f} (w : Canon s) : Canon (s.modGang k f) := by
  unfold Machine.State.modGang
  split
  · exact w.setGang
  · exact w

theorem Canon.modBlock {s b f} (w : Canon s) : Canon (s.modBlock b f) := by
  unfold Machine.State.modBlock
  split
  · exact w.setBlock
  · exact w

theorem Canon.modCtx {s c f} (w : Canon s) : Canon (s.modCtx c f) := by
  unfold Machine.State.modCtx
  split
  · exact w.setCtx
  · exact w

theorem Canon.modReq {s u f} (w : Canon s) : Canon (s.modReq u f) := by
  unfold Machine.State.modReq
  split
  · exact w.setReq
  · exact w

theorem Canon.setVf {s v x} (w : Canon s) : Canon (s.setVf v x) := w.rest

theorem Canon.setPart {s p x} (w : Canon s) : Canon (s.setPart p x) := w.rest

theorem Canon.setRing {s r x} (w : Canon s) : Canon (s.setRing r x) := w.rest

theorem Canon.setQueue {s q x} (w : Canon s) : Canon (s.setQueue q x) := w.rest

theorem Canon.setCrew {s k x} (w : Canon s) : Canon (s.setCrew k x) := w.of_eq rfl rfl rfl

theorem Canon.setArray {s c x} (w : Canon s) : Canon (s.setArray c x) := w.of_eq rfl rfl rfl

theorem Canon.countSpill {s core ctx n} (w : Canon s) : Canon (countSpill s core ctx n) := w.rest

theorem Canon.dramRead {s sec} (w : Canon s) : Canon (dramRead s sec).1 := by
  unfold Machine.dramRead
  dsimp only
  exact .ite_fst (w.of_eq rfl rfl rfl) (.ite_fst (w.of_eq rfl rfl rfl) (.ite_fst (w.of_eq rfl rfl rfl) w))

theorem Canon.carryLink {s link ctx core} (w : Canon s) : Canon (carryLink s link ctx core) := w.rest

theorem Canon.settleCmd {s u c} (w : Canon s) : Canon (settleCmd s u c) :=
  .setCmd (w.fold fun _ _ w => w.writeWords ..)

theorem Canon.settleCmds {s n} (w : Canon s) : Canon (settleCmds s n) := w.fold fun _ _ w => w.settleCmd

-- Fault records, traps and the prologue (R65, R379 to R383).

theorem Canon.bumpSeqs {s ring seqs} (w : Canon s) : Canon (bumpSeqs s ring seqs) := .ite w w.rest

theorem Canon.postRec {s ring r} (w : Canon s) : Canon (postRec s ring r) := .ite w.setRing w.bumpSeqs.setRing

theorem Canon.notice {s ring ctx cause sub aux addrs} (w : Canon s) : Canon (notice s ring ctx cause sub aux addrs) :=
  w.postRec

theorem Canon.setTile {s k block t} (w : Canon s) : Canon (s.setTile k block t) := w.of_eq rfl rfl rfl

theorem Canon.setObyte {s k x} (w : Canon s) : Canon (s.setObyte k x) := w.of_eq rfl rfl rfl

theorem Canon.departs {s f} (w : Canon s) : Canon (departs s f) := w.fold fun _ _ w => .ite w w.rest

theorem Canon.bounceSwap {s f} (w : Canon s) : Canon (bounceSwap s f) := w.departs.rest

theorem Canon.clearWays {s n} (w : Canon s) : Canon (clearWays s n) := w.departs.rest

theorem Canon.bouncePeer {s n} (w : Canon s) : Canon (bouncePeer s n) := by
  unfold Machine.bouncePeer
  split
  · exact w
  · exact w.bounceSwap

theorem Canon.bounceRest {s n} (w : Canon s) : Canon (bounceRest s n) := w.bounceSwap.rest

theorem Canon.unageAll {s f} (w : Canon s) : Canon (unageAll s f) := w.rest

theorem Canon.unage {s u} (w : Canon s) : Canon (unage s u) := w.unageAll

theorem Canon.ageAt {s key u n} (w : Canon s) : Canon (ageAt s key u n) := .ite w w.unage.rest

theorem Canon.dropAhead {s f} (w : Canon s) : Canon (dropAhead s f) := w.rest

theorem Canon.loseSlots {s f} (w : Canon s) : Canon (loseSlots s f) := w.rest

theorem Canon.unbar {s ctx} (w : Canon s) : Canon (unbar s ctx) := w.rest

theorem Canon.freeArray {s n b} (w : Canon s) : Canon (freeArray s n b) := .ite w.setArray w

theorem Canon.freeStores {s n b img} (w : Canon s) : Canon (freeStores s n b img) :=
  have wf : Canon (Machine.freeArray s n b) := w.freeArray
  ⟨wf.memory, twf_filter _ wf.scratch, wf.floors⟩

theorem Canon.saveEntries {s n ph} (w : Canon s) : Canon (saveEntries s n ph) :=
  .clearWays (.ite w.bounceRest w.bouncePeer)

theorem Canon.swapOut {s n ph} (w : Canon s) : Canon (swapOut s n ph) := by
  unfold Machine.swapOut
  split
  · exact w
  · refine .ite ?_ ?_
    · exact .setBlock (.ite (.bounceRest (.ite w.freeArray w)) (.ite w.freeArray w))
    · exact w.saveEntries.settleCmds.loseSlots.dropAhead.freeStores.setBlock.unbar.fold fun _ _ w => w.modGang

theorem Canon.takeTrap {s key cause sub aux lanes addrs skip} (w : Canon s) :
    Canon (takeTrap s key cause sub aux lanes addrs skip) := by
  unfold Machine.takeTrap
  split
  · exact w
  · split
    · exact w
    · exact w.postRec.setGang.swapOut.modCtx

theorem Canon.countRead {s ctx} (w : Canon s) : Canon (countRead s ctx) := w.modCtx

theorem Canon.settleRead {s key ctx} (w : Canon s) : Canon (settleRead s key ctx) := by
  unfold Machine.settleRead
  split
  · exact w
  · exact w.countRead
  · exact w.modGang

theorem Canon.countDue {s key ctx} (w : Canon s) : Canon (countDue s key ctx) := by
  unfold Machine.countDue
  split
  · exact .ite w.modGang.countRead w
  · exact w

theorem Canon.issueWhen {s u skip ready body} (w : Canon s) (h : ∀ key g sp, Canon (body s key g sp)) :
    CanonOut (issueWhen s u skip ready body) := by
  unfold Machine.issueWhen
  split
  · exact .fault
  · split
    · exact .fault
    · split
      · split
        · exact .next w.setGang
        · exact .next w.takeTrap
        · exact .ite (.next (.ite (h _ _ _).settleRead (h _ _ _))) (.next w.setGang)
      · exact .fault

theorem Canon.issue {s u skip body} (w : Canon s) (h : ∀ key g sp, Canon (body s key g sp)) :
    CanonOut (issue s u skip body) := w.issueWhen h

theorem Canon.commit {s key g sp} (w : Canon s) : Canon (commit s key g sp) := w.setGang

theorem Canon.retire {s key g sp size} (w : Canon s) : Canon (retire s key g sp size) := w.commit

theorem Canon.localOp {s u size f} (w : Canon s) : CanonOut (localOp s u size f) := w.issue fun _ _ _ => w.retire

-- Walks and pages that are absent (R84, R85).

theorem Canon.vecOp {s u p wide d size f} (w : Canon s) : CanonOut (vecOp s u p wide d size f) := w.localOp

theorem Canon.startLong {s key g sp la size dv dk vs ks fl} (w : Canon s) :
    Canon (startLong s key g sp la size dv dk vs ks fl) :=
  .ite w.retire w.rest.retire

theorem Canon.startWalk {s unit ctx vpn} (w : Canon s) : Canon (startWalk s unit ctx vpn) := .ite w w.rest

theorem Canon.startWalks {s unit ctx vpns} (w : Canon s) : Canon (startWalks s unit ctx vpns) :=
  w.fold fun _ _ w => w.startWalk

theorem Canon.postPage {s r ctx stage aux pages} (w : Canon s) : Canon (postPage s r ctx stage aux pages).1 := by
  unfold Machine.postPage
  dsimp only
  exact w.postRec

end Sys2Proof.Machine
end

section
/-! Outstanding requests keep the stores' form (R86 to R89, R97, R127 to R137, R166 to R173). -/

namespace Sys2Proof.Machine

theorem Canon.chainAfter {s key u} (w : Canon s) : Canon (chainAfter s key u) := w.rest

theorem Canon.restartChain {s key u} (w : Canon s) : Canon (restartChain s key u) := w.rest

theorem Canon.fillL1 {s core ctx own whole sec} (w : Canon s) : Canon (fillL1 s core ctx own whole sec) := by
  unfold Machine.fillL1
  extract_lets line old t
  have wt : Canon t := .ite w ((w.chargeUser ..).storeSector _)
  exact .setL1 (.ite (wt.dropCopies ..) (.ite wt (wt.recallOwned _))) ..

theorem Canon.dirtyL1 {s core ctx sec} (w : Canon s) : Canon (dirtyL1 s core ctx sec) := by
  unfold Machine.dirtyL1
  split
  · exact w.setL1 ..
  · exact w

theorem Canon.weirServed {s chan me} (w : Canon s) : Canon (weirServed s chan me) :=
  .ite w (.ite (w.of_eq rfl rfl rfl) (w.of_eq rfl rfl rfl))

theorem Canon.arrivalServed {s vf a cost} (w : Canon s) : Canon (arrivalServed s vf a cost) := by
  unfold Machine.arrivalServed
  split
  · exact .ite w.weirServed w
  · exact w

theorem Canon.takeSector {s key wr whole sec} (w : Canon s) : Canon (takeSector s key wr whole sec) := by
  unfold Machine.takeSector
  refine .ite w ?_
  extract_lets t
  have wt : Canon t := by
    unfold t
    split
    · exact .ite w.weirServed w
    · exact w
  exact .ite wt.fillL1 (wt.chargeSlots ..)

theorem Canon.leaveQueues {s gang l} (w : Canon s) : Canon (leaveQueues s gang l) := w.fold fun _ _ w => .ite w.rest w

theorem Canon.advanceSector {s u sec} (w : Canon s) : Canon (advanceSector s u sec) := by
  unfold Machine.advanceSector
  split
  · exact w
  · exact .ite w (.ite w w.leaveQueues.rest.setReq)

theorem Canon.pendTrap {s key t} (w : Canon s) : Canon (pendTrap s key t) := w.modGang

theorem Canon.markRead {s u key sp e} (w : Canon s) : Canon (markRead s u key sp e) := w.rest

theorem Canon.endSc {s key u} (w : Canon s) : Canon (endSc s key u) := w.modGang

theorem Canon.performElems {s u r es} (w : Canon s) : Canon (performElems s u r es).1 := by
  refine Canon.fold_fst w fun q e w => ?_
  dsimp only
  split
  · exact w.markRead
  · exact w.modGang
  · exact w.writeElem ..
  · exact w.writeElem ..
  · exact .ite_fst (w.writeElem ..) w

theorem Canon.lowerCount {s key which} (w : Canon s) : Canon (lowerCount s key which) := w.modGang

theorem Canon.finishReq {s u r} (w : Canon s) : Canon (finishReq s u r) := w.unage.lowerCount.modGang.setReq

theorem Canon.readHome {s l} (w : Canon s) : Canon (readHome s l).1 :=
  Canon.fold_fst w fun _ _ w => w.sectorRead _

theorem Canon.chargeSectors {s u ctx core r l} (w : Canon s) : Canon (chargeSectors s u ctx core r l) := by
  refine .fold w fun s x w => ?_
  split
  · extract_lets t1 t2
    have w1 : Canon t1 := by
      unfold t1
      split
      · exact .ite w.weirServed w
      · exact w
    have w2 : Canon t2 := w1.chargeSlots ..
    exact .ite (w2.dropCopies ..) w2
  · exact w

theorem Canon.fillSectors {s u core ctx r l} (w : Canon s) : Canon (fillSectors s u core ctx r l) := by
  unfold Machine.fillSectors
  refine .fold w fun s x w => ?_
  refine .fillL1 ?_
  split
  · exact .ite w.weirServed w
  · exact w

theorem Canon.pendPoison {s r bad} (w : Canon s) : Canon (pendPoison s r bad) := w.fold fun _ _ w => w.pendTrap

theorem Canon.performSector {s u sec} (w : Canon s) : Canon (performSector s u sec) := by
  unfold Machine.performSector
  split
  · exact w
  · refine .ite w ?_
    extract_lets glob core ctx whole away x s1 good s2 s3 q s4 s5 s6
    have wx : Canon x.1 := .ite_fst w w.readHome
    have w1 : Canon s1 := .ite (wx.clearPoison _) wx
    have w2 : Canon s2 := .ite w1.fillSectors w1.chargeSectors
    have w4 : Canon s4 := w2.pendPoison.leaveQueues.performElems.dropAhead
    have w5 : Canon s5 := .ite (w4.fold fun _ _ w => w.dirtyL1) w4
    have w6 : Canon s6 := .ite w5.dropAhead w5
    split
    · exact w6
    · extract_lets r s7 s8 s9
      have w8 : Canon s8 := .ite w6.setReq.unage w6.setReq
      have w9 : Canon s9 := .ite w8.endSc w8
      exact .ite w9.finishReq w9

theorem Canon.performLanes {s u n} (w : Canon s) : Canon (performLanes s u n) := by
  unfold Machine.performLanes
  split
  · exact w
  · split
    · exact .ite w w.performElems.dropAhead.modReq
    · exact w

theorem Canon.returnSector {s u sec} (w : Canon s) : Canon (returnSector s u sec) := by
  unfold Machine.returnSector
  split
  · exact w
  · exact .ite w (.ite w.modGang.setReq.finishReq w.modGang.setReq)

theorem Canon.raiseBounceLimit {s key split engine} (w : Canon s) : Canon (raiseBounceLimit s key split engine) :=
  w.modGang

theorem Canon.bounceReq {s u cause} (w : Canon s) : Canon (bounceReq s u cause) := by
  unfold Machine.bounceReq
  split
  · exact w
  · extract_lets n key t1 t2 t3 t4
    have w1 : Canon t1 := w.leaveQueues.setReq
    have w2 : Canon t2 := .ite w1.endSc w1
    have w4 : Canon t4 := .ageAt (.ite w2.chainAfter w2)
    exact .ite w4.raiseBounceLimit w4

theorem Canon.takeBack {s u r} (w : Canon s) : Canon (takeBack s u r) := w.lowerCount.modGang.unage.setReq

theorem Canon.parkReq {s u r ring seq} (w : Canon s) : Canon (parkReq s u r ring seq) := .ite w.rest w.modGang

theorem Canon.chargeReissue {s r} (w : Canon s) : Canon (chargeReissue s r) := by
  unfold Machine.chargeReissue
  refine .ite ?_ w
  refine .fold w fun s x w => ?_
  split
  · exact w.chargeUser ..
  · exact w

theorem Canon.checkReq {s u} (w : Canon s) : Canon (checkReq s u) := by
  unfold Machine.checkReq
  split
  · exact w
  split
  · exact w
  extract_lets rd wr cs t1 t2 d
  have w1 : Canon t1 := w.chargeReissue
  have w2 : Canon t2 := .ite w1.restartChain w1
  split
  · extract_lets t3 t4 t5
    have w5 : Canon t5 := w2.setReq.rest.dropAhead
    split
    · exact .ite w5.countDue.modGang w5
    · exact w5
  · exact w.takeBack.takeTrap.modGang
  · exact .ite w.startWalks.bounceReq w.startWalks.bounceReq.modGang
  · split
    · exact w
    · exact .ite w.bounceReq w.postPage.bounceReq.parkReq

theorem Canon.sendReq {s key g sp r la dv dk} (w : Canon s) : Canon (sendReq s key g sp r la dv dk) :=
  .ite (.retire (.ite w.dropAhead w)) w.rest.retire.checkReq

end Sys2Proof.Machine
end

section
/-! What a gang does on its own keeps the stores' form: splits and barriers, the Millrace, the scheduler, control
and the registers. -/

namespace Sys2Proof.Machine

-- Splits, barriers and tokens (R34 to R36, R183, R374).

theorem Canon.renameSplit {s key old new} (w : Canon s) : Canon (renameSplit s key old new) := w.modGang.rest

theorem Canon.mergeSplit {s key g i sp} (w : Canon s) : Canon (mergeSplit s key g i sp) := by
  unfold Machine.mergeSplit
  dsimp only
  refine .ite w.setGang (.ite w.setGang ?_)
  split
  · exact .ite w.dropAhead.setGang.renameSplit w.setGang
  · exact .ite w.dropAhead.setGang.renameSplit (.ite w.setGang w.setGang)
  · exact w.setGang

theorem Canon.releaseGangs {s wr keys} (w : Canon s) : Canon (releaseGangs s wr keys) :=
  w.dropAhead.fold fun _ _ w => w.modGang

theorem Canon.checkBar {s n} (w : Canon s) : Canon (checkBar s n) := .ite w.releaseGangs w

theorem Canon.checkCrew {n s k c} (w : Canon s) : Canon (checkCrew n s k c) := by
  induction n generalizing s with
  | zero => exact w
  | succ n ih => exact .ite w.setCrew (.ite (.ite (ih w.releaseGangs.setCrew) w.setCrew) w)

theorem Canon.leaveCrew {s key b c} (w : Canon s) : Canon (leaveCrew s key b c) := by
  unfold Machine.leaveCrew
  dsimp only
  split
  · exact w
  · exact .checkCrew (.modGang (.ite w.setCrew.dropAhead w.setCrew))

theorem Canon.endTraps {s key} (w : Canon s) : Canon (endTraps s key) := by
  unfold Machine.endTraps
  split
  · exact w
  · split
    · exact .ite w w.setGang.takeTrap
    · exact w

theorem Canon.gangEnded {s key b n} (w : Canon s) : Canon (gangEnded s key b n) := by
  unfold Machine.gangEnded
  exact Canon.endTraps (Canon.checkBar (w.modGang.modGang.fold fun _ _ w => w.leaveCrew))

theorem Canon.dropLanes {s key i m rest} (w : Canon s) : Canon (dropLanes s key i m rest) := by
  unfold Machine.dropLanes
  split
  · exact w
  · split
    · exact .ite w.setGang.gangEnded (w.setGang.checkBar.fold fun _ _ w => w.checkCrew)
    · exact w

-- The Millrace (R310 to R325).

theorem Canon.arrStep {s core a op} (w : Canon s) : Canon (arrStep s core a op) := by
  unfold Machine.arrStep
  split
  · exact w.setArray
  · exact w.setArray
  · exact w.setArray
  · exact w.setArray
  · dsimp only
    split
    · exact w.setArray.setLong
    · exact w.setArray
  · exact w.setArray
  · exact w
  · exact w
  · exact w.setArray

theorem Canon.drainArray {n s core} (w : Canon s) : Canon (drainArray n s core) := by
  induction n generalizing s with
  | zero => exact w
  | succ n ih =>
    unfold Machine.drainArray
    dsimp only
    split
    · exact .ite (ih w.arrStep) w
    · exact w

theorem Canon.pushArray {s g op} (w : Canon s) : Canon (pushArray s g op) := w.setArray.drainArray

theorem Canon.takePlace {s u} (w : Canon s) : Canon (takePlace s u) := by
  unfold Machine.takePlace
  split
  · exact w
  · split
    · exact w
    · split
      · exact .ite w w.pushArray
      · exact w

theorem Canon.leavePlace {s key g sp} (w : Canon s) : Canon (leavePlace s key g sp) := by
  unfold Machine.leavePlace
  dsimp only
  split
  · exact .ite w.setArray.drainArray w
  · exact w

theorem Canon.servedNow {s g} (w : Canon s) : Canon (servedNow s g) := .ite w.setArray w

theorem Canon.trapHere {s key sp cause sub size addrs} (w : Canon s) : Canon (trapHere s key sp cause sub size addrs) :=
  w.takeTrap

theorem Canon.engRead {s u x} (w : Canon s) : Canon (engRead s u x).1 := by
  unfold Machine.engRead
  exact w.fold fun _ _ w => w.markRead

theorem Canon.execRcld {s mesh kb disp kn} (w : Canon s) : CanonOut (execRcld mesh kb disp kn s) := by
  unfold Machine.execRcld
  refine w.issueWhen fun _ _ _ => .ite w.trapHere (.ite w.trapHere ?_)
  split
  · exact w
  · exact .ite w.trapHere (.ite w.rest.retire.setEngOp.pushArray w.engRead.retire.pushArray)

theorem Canon.endArray {s core kind} (w : Canon s) : Canon (endArray s core kind) := by
  unfold Machine.endArray
  dsimp only
  split
  · exact .ite w.setArray.drainArray w
  · exact w

-- The gang scheduler and the fairness timer (R158 to R163).

theorem Canon.setActive {s key a} (w : Canon s) : Canon (setActive s key a) := w.modGang

theorem Canon.refillOnce {s fresh key} (w : Canon s) : Canon (refillOnce s fresh key) := by
  unfold Machine.refillOnce
  dsimp only
  split
  · exact w
  · refine .ite w.setActive ?_
    split
    · exact w.setActive.setActive
    · exact w

theorem Canon.refill {fresh n s key} (w : Canon s) : Canon (refill fresh n s key) := by
  induction n generalizing s with
  | zero => exact w
  | succ n ih => exact ih w.refillOnce

theorem Canon.giveWay {s key} (w : Canon s) : Canon (giveWay s key) := by
  unfold Machine.giveWay
  split
  · exact w.setActive.setActive
  · exact w

theorem Canon.execEntryBoost {s gang} (w : Canon s) : CanonOut (execEntryBoost gang s) := by
  unfold Machine.execEntryBoost
  split
  · exact .next w
  · refine .ite ?_ (.next w)
    refine .ite (.next w.setActive) ?_
    split
    · exact .next w.setActive.setActive
    · exact .next w

-- Control, synchronisation and waiting (R177 to R199).

theorem Canon.inheritReads {s key old new} (w : Canon s) : Canon (inheritReads s key old new) := w.rest

theorem Canon.execBrd {s neg a off} (w : Canon s) : CanonOut (execBrd neg a off s) := by
  unfold Machine.execBrd
  refine w.issue fun _ _ _ => .ite w.commit (.ite w.retire ?_)
  dsimp only
  split
  · exact .ite w.rest.inheritReads.commit w.rest.inheritReads.commit
  · exact .ite w.trapHere w.rest.inheritReads.commit

theorem Canon.execMovx {s f} (w : Canon s) : CanonOut (execMovx f s) := by
  unfold Machine.execMovx
  split
  · exact w.localOp
  · exact w.localOp
  · exact w.issue fun _ _ _ => .ite w.trapHere w.retire
  · exact w.issue fun _ _ _ => .ite w.trapHere w.retire

theorem Canon.execCjoin {s c} (w : Canon s) : CanonOut (execCjoin c s) := by
  unfold Machine.execCjoin
  refine w.issue fun _ _ _ => ?_
  dsimp only
  split
  · exact w.retire
  · exact .ite w.retire w.retire.setCrew

theorem Canon.execCleave {s c} (w : Canon s) : CanonOut (execCleave c s) := by
  unfold Machine.execCleave
  refine w.issue fun _ _ _ => ?_
  dsimp only
  split
  · exact w.retire
  · exact w.retire.leaveCrew

theorem Canon.execCbar {s c} (w : Canon s) : CanonOut (execCbar c s) := by
  unfold Machine.execCbar
  refine w.issue fun _ _ _ => .ite w.trapHere ?_
  split
  · exact w
  · exact .ite w.commit.checkCrew w.dropAhead.retire

-- Uniform, mask and system registers (R38, R185 to R190).

theorem Canon.kOp {s d a b f} (w : Canon s) : CanonOut (kOp s d a b f) := w.localOp

theorem Canon.kOpImm {s d a imm f} (w : Canon s) : CanonOut (kOpImm s d a imm f) := w.localOp

theorem Canon.srdArray {s d r} (w : Canon s) : CanonOut (srdArray d r s) :=
  w.takePlace.issue fun _ _ _ => .leavePlace w.takePlace.retire.servedNow

theorem Canon.execSwr {s r a} (w : Canon s) : CanonOut (execSwr r a s) := by
  unfold Machine.execSwr
  refine w.issue fun _ _ _ => ?_
  dsimp only
  split
  · exact w.retire
  · exact w.retire
  · exact .ite w.trapHere w.retire
  · exact .ite w.trapHere w.retire
  · exact w.trapHere

theorem Canon.execSwrErrq {s a} (w : Canon s) : CanonOut (execSwrErrq a s) := by
  unfold Machine.execSwrErrq
  refine w.issue fun _ _ _ => ?_
  dsimp only
  split
  · exact w.retire
  · exact w.retire.modCtx

-- Long-latency instructions (R58, R274).

theorem Canon.longOp {s u p d la size f} (w : Canon s) : CanonOut (longOp s u p d la size f) :=
  w.issue fun _ _ _ => w.startLong

theorem Canon.execLongLatencyComplete {s op lanes} (w : Canon s) : CanonOut (execLongLatencyComplete op lanes s) := by
  unfold Machine.execLongLatencyComplete
  refine .next ?_
  split
  · exact w
  · exact .ite w (.ite w.modGang.setLong w.modGang.modGang.setLong)

-- Cross-lane instructions and the pair word (R61 to R64, R275 to R281).

theorem Canon.redOp {s p op wr t d a la tree} (w : Canon s) : CanonOut (redOp s p op wr t d a la tree) :=
  w.issue fun _ _ _ => w.startLong

end Sys2Proof.Machine
end

section
/-! The hub, the engines and the memory instructions keep the stores' form (R25 to R33, R91 to R122). -/

namespace Sys2Proof.Machine

-- The hub's own accesses, completions and notices (R25 to R33).

theorem Canon.hubPark {s r ctx kind key aux stage pages} (w : Canon s) : Canon (hubPark s r ctx kind key aux stage pages) :=
  .ite w w.postPage.rest

theorem Canon.hubSlot {s ctx sec} (w : Canon s) : Canon (hubSlot s ctx sec) := w.arrivalServed.chargeSlots ..

theorem Canon.hubWrite {s l ctx bs} (w : Canon s) : Canon (hubWrite s l ctx bs) :=
  .markDirty (.writeHome (w.fold fun _ _ w => w.hubSlot) ..) ..

theorem Canon.readSectors {s ctx a n} (w : Canon s) : Canon (readSectors s ctx a n).1 :=
  Canon.fold_fst w fun _ _ w => (w.sectorRead _).hubSlot

theorem Canon.wakeBlock {s n} (w : Canon s) : Canon (wakeBlock s n) := by
  unfold Machine.wakeBlock
  split
  · exact w
  · exact w.dropAhead.fold fun _ _ w => w.modGang

theorem Canon.tagReady {s n c disc fault} (w : Canon s) : Canon (tagReady s n c disc fault) := w.modBlock.wakeBlock

theorem Canon.noteHeads {s key} (w : Canon s) : Canon (noteHeads s key) := w.fold fun _ _ w => w.setCmd

theorem Canon.putCmd {s u key c} (w : Canon s) : Canon (putCmd s u key c) := w.setCmd.noteHeads

theorem Canon.countCkpt {s b c} (w : Canon s) : Canon (countCkpt s b c) := by
  unfold Machine.countCkpt
  refine .ite w (.fold w fun s x w => ?_)
  split
  · exact .ite (w.of_eq rfl rfl rfl) w
  · exact w

theorem Canon.tryComplete {s u} (w : Canon s) : Canon (tryComplete s u) := by
  unfold Machine.tryComplete
  split
  · exact w
  · split
    · exact w
    · split
      · refine .ite w ?_
        dsimp only
        split
        · exact .ite w.tagReady.putCmd.takeTrap w.tagReady.putCmd.pendTrap
        · exact w.tagReady.putCmd
      · exact .ite w.tagReady.countCkpt.putCmd w

theorem Canon.endLaunchCmd {s l fault} (w : Canon s) : Canon (endLaunchCmd s l fault) := by
  unfold Machine.endLaunchCmd
  split
  · exact w
  · refine .ite ?_ ?_
    · split
      · exact w.tagReady.putCmd
      · exact w
    · split
      · exact .ite w.tagReady.putCmd w.setCmd.tryComplete
      · exact w

theorem Canon.launchNotice {s l cause block fail} (w : Canon s) : Canon (launchNotice s l cause block fail) :=
  w.postRec

theorem Canon.hubAccess_wait {s t ctx rd wr va kind key aux} (w : Canon s)
    (h : hubAccess s ctx rd wr va kind key aux = .wait t) : Canon t := by
  unfold Machine.hubAccess at h
  split at h
  · split at h
    · cases h
    · cases h; exact w
  · cases h; exact w.startWalk
  · cases h; exact w.hubPark
  · cases h

theorem Canon.completeLaunch {s u} (w : Canon s) : Canon (completeLaunch s u) := by
  unfold Machine.completeLaunch
  dsimp only
  split
  · exact w
  · refine .ite w ?_
    split
    · exact w.hubWrite.rest.endLaunchCmd
    · exact w.hubAccess_wait ‹_›
    · exact w.launchNotice.rest.endLaunchCmd

theorem Canon.completeLaunches {s} (w : Canon s) : Canon (completeLaunches s) := w.fold fun _ _ w => w.completeLaunch

-- The copy engine, tags and guards (R91 to R93, R109 to R123).

theorem Canon.performGo {s u r g b} (w : Canon s) : Canon (performGo s u r g b) :=
  .ite w.setGang.setReq w.setGang.setReq.modBlock.rest.noteHeads

theorem Canon.performEngine {s u} (w : Canon s) : Canon (performEngine s u) := by
  unfold Machine.performEngine
  split
  · exact w
  · split
    · refine .ite w ?_
      split
      · exact w
      · split
        · exact .ite (.ite w (.ite w.performGo w.bounceReq)) w.setGang.setReq
        · exact w.setGang.finishReq
    · exact w

theorem Canon.bounceCmd {s u cause} (w : Canon s) : Canon (bounceCmd s u cause) := by
  unfold Machine.bounceCmd
  split
  · exact w
  · exact .ite w.leaveQueues.setCmd.ageAt.raiseBounceLimit w.leaveQueues.setCmd.ageAt

theorem Canon.discardCmd {s u} (w : Canon s) : Canon (discardCmd s u) := by
  unfold Machine.discardCmd
  split
  · exact w
  · refine .ite ?_ w.tagReady.putCmd
    split
    · exact w
    · exact w.putCmd.rest.completeLaunch

theorem Canon.recordGuard {s u} (w : Canon s) : Canon (recordGuard s u) := by
  unfold Machine.recordGuard
  split
  · exact w
  · split
    · exact w
    · refine .ite w ?_
      split
      · exact w
      · exact w.setCmd
      · exact .ite w w.discardCmd

theorem Canon.recordGuards {s key} (w : Canon s) : Canon (recordGuards s key) := w.fold fun _ _ w => w.recordGuard

theorem Canon.readList {s ckpt secs} (w : Canon s) : Canon (readList s ckpt secs).1 :=
  Canon.fold_fst w fun _ _ w => .ite_fst w.dramRead (w.sectorRead _)

theorem Canon.failCmd {s u cause box addr} (w : Canon s) : Canon (failCmd s u cause box addr) := by
  unfold Machine.failCmd
  split
  · exact w
  · exact w.putCmd.tryComplete

theorem Canon.cmdSlots {s u c b a n} (w : Canon s) : Canon (cmdSlots s u c b a n) := by
  unfold Machine.cmdSlots
  dsimp only
  refine .chargeSlots ?_ ..
  split
  · exact .ite w.weirServed w
  · exact w

theorem Canon.chargeBox {s u c b src dst} (w : Canon s) : Canon (chargeBox s u c b src dst) :=
  .fold (w.fold fun _ _ w => w.cmdSlots) fun _ _ w => w.cmdSlots.dropCopies ..

theorem Canon.leaveWay {s c} (w : Canon s) : Canon (leaveWay s c) := w.leaveQueues

theorem Canon.beginBox {s u box c g b} (w : Canon s) : Canon (beginBox s u box c g b) := by
  unfold Machine.beginBox
  dsimp only
  split
  · exact w.failCmd
  · exact w.startWalks.bounceCmd
  · exact w.hubPark.bounceCmd
  · refine .ite w ?_
    split
    · exact w.readList.failCmd
    · exact .putCmd (.chargeBox (.leaveWay (w.readList.fold fun _ _ w => w.clearPoison ..)))

theorem Canon.advanceWay {s u sec} (w : Canon s) : Canon (advanceWay s u sec) := by
  unfold Machine.advanceWay
  refine .ite w ?_
  split
  · split
    · refine .ite w ?_
      split
      · exact w.leaveWay.rest.setCmd
      · exact w
    · exact w
  · refine .ite w ?_
    split
    · exact w.leaveQueues.rest.setEngOp
    · exact w
  · exact w

theorem Canon.moveWords {s u box pick} (w : Canon s) : Canon (moveWords s u box pick) := by
  unfold Machine.moveWords
  split
  · exact w
  · split
    · exact w
    · exact (w.writeWords ..).setCmd

theorem Canon.startBox {s u box op pick} (w : Canon s) : Canon (startBox s u box op pick) := by
  unfold Machine.startBox
  split
  · exact w
  · split
    · exact .ite w (.ite (.ite w.moveWords w) (.ite w.discardCmd (.ite w w.beginBox.moveWords)))
    · exact w

theorem Canon.copyWords {s u box words} (w : Canon s) : Canon (copyWords s u box words) := by
  unfold Machine.copyWords
  split
  · exact .ite w.startBox w
  · exact w

theorem Canon.readWords {s u box words} (w : Canon s) : Canon (readWords s u box words) := by
  unfold Machine.readWords
  extract_lets t
  have wt : Canon t := w.copyWords
  split
  · exact wt
  · split
    · exact wt
    · refine .ite wt (.setCmd (.fold_fst wt fun _ _ w => ?_))
      split
      · exact w.readWord _
      · exact w

theorem Canon.execBoxComplete {s cmd box} (w : Canon s) : CanonOut (execBoxComplete cmd box s) := by
  unfold Machine.execBoxComplete
  refine .next ?_
  split
  · exact .ite w.setCmd.tryComplete w
  · exact w

theorem Canon.execLaunch {s cmd} (w : Canon s) : CanonOut (execLaunch cmd s) := by
  unfold Machine.execLaunch
  refine .next ?_
  split
  · exact w
  · split
    · refine .ite w (.ite w.discardCmd ?_)
      refine .ite w ?_
      split
      · exact w
      · exact .ite w w.setCtx.unage.putCmd
    · exact w

theorem Canon.execSignal {s cmd} (w : Canon s) : CanonOut (execSignal cmd s) := by
  unfold Machine.execSignal
  refine .next ?_
  split
  · exact w
  · split
    · refine .ite w (.ite w.discardCmd ?_)
      refine .ite w ?_
      dsimp only
      split
      · exact w.failCmd
      · exact w.startWalks.bounceCmd
      · exact w.hubPark.bounceCmd
      · exact w
      · refine .ite w ?_
        split
        · exact w.readList.failCmd
        · exact .tryComplete (.putCmd (.writeElem (.ite w.readList (w.readList.leaveWay.cmdSlots.dropCopies ..)) ..))
    · exact w

theorem Canon.takePending {s key cause} (w : Canon s) : Canon (takePending s key cause) := by
  unfold Machine.takePending
  split
  · split
    · exact .ite w.setGang.takeTrap w
    · exact w
  · exact w

theorem Canon.endTwait {s key g sp b asked d} (w : Canon s) : Canon (endTwait s key g sp b asked d) :=
  w.dropAhead.retire

theorem Canon.execTwait {s all d a} (w : Canon s) : CanonOut (execTwait all d a s) := by
  unfold Machine.execTwait
  refine w.issueWhen fun _ _ _ => ?_
  split
  · exact w
  · exact .ite w.endTwait w.setGang

theorem Canon.execTclr {s d a} (w : Canon s) : CanonOut (execTclr d a s) := by
  unfold Machine.execTclr
  refine w.issue fun _ _ _ => ?_
  split
  · exact w
  · exact w.setBlock.retire

-- Memory instructions (R94 to R108).

theorem Canon.sendEngine {s key g x r ea la dk} (w : Canon s) : Canon (sendEngine s key g x r ea la dk) :=
  .ite w.trapHere (.ite w.trapHere w.rest.retire.performEngine)

theorem Canon.prefSector {s b lvl sec} (w : Canon s) : Canon (prefSector s b lvl sec) := by
  unfold Machine.prefSector
  dsimp only
  refine .ite w (.ite (w.sectorRead ..) ?_)
  exact .ite ((w.sectorRead ..).arrivalServed.fillL1) ((w.sectorRead ..).arrivalServed.chargeSlots ..)

theorem Canon.execPref {s p lvl m} (w : Canon s) : CanonOut (execPref p lvl m s) := by
  unfold Machine.execPref
  refine w.issue fun _ _ _ => .retire ?_
  split
  · exact w
  · refine .fold w fun s x w => ?_
    split
    · exact w.startWalk
    · exact w.fold fun _ _ w => w.prefSector
    · exact w

end Sys2Proof.Machine
end

section
/-! The Sails fabric and the matrix engine keep the stores' form (R204 to R226, R282 to R309). -/

namespace Sys2Proof.Machine

-- The Sails fabric (R204 to R226).

theorem Canon.moveCredit {s dev p f} (w : Canon s) : Canon (moveCredit s dev p f) := w.rest

theorem Canon.loseError {s ctx} (w : Canon s) : Canon (loseError s ctx) := w.modCtx

theorem Canon.recordError {s r lane off code} (w : Canon s) : Canon (recordError s r lane off code) := by
  unfold Machine.recordError
  dsimp only
  split
  · split
    · exact w.rest.modGang
    · refine .ite w.rest.modGang.loseError ?_
      split
      · exact .ite w.rest.modGang.hubWrite.modCtx.modGang w.rest.modGang.hubWrite.modCtx
      · exact w.rest.modGang.postRec.loseError
  · exact w.rest.modGang

theorem Canon.dropGroup {s grp} (w : Canon s) : Canon (dropGroup s grp) := w.rest

theorem Canon.remoteFail {s key grp rs} (w : Canon s) : Canon (remoteFail s key grp rs) :=
  w.dropGroup.lowerCount.modGang.takeTrap.modGang

theorem Canon.returnGroup {s key grp} (w : Canon s) : Canon (returnGroup s key grp) :=
  .ite w.modGang.dropGroup.lowerCount.modGang (w.modGang.fold fun _ _ w => w.setRreq)

theorem Canon.settleGroup {s key grp} (w : Canon s) : Canon (settleGroup s key grp) := by
  unfold Machine.settleGroup
  dsimp only
  split
  · exact w
  · refine .ite (.ite w.dropGroup.lowerCount w) ?_
    split
    · exact w
    · split
      · refine .ite w ?_
        exact .ite w (.ite (.ite w.remoteFail w) (.returnGroup (.ite w.setGang.countDue.dropAhead w.setGang.countDue)))
      · exact w.returnGroup

theorem Canon.bounceRemote {s u cause} (w : Canon s) : Canon (bounceRemote s u cause) := by
  unfold Machine.bounceRemote
  split
  · exact w
  · extract_lets n t1 t2 t3
    have w1 : Canon t1 := w.setRreq
    have w3 : Canon t3 := .ageAt (.ite w1.chainAfter w1)
    exact .ite w3.raiseBounceLimit w3

theorem Canon.killPlane {s dev plane} (w : Canon s) : Canon (killPlane s dev plane) := .ite w w.rest

theorem Canon.finishRepair {s dev} (w : Canon s) : Canon (finishRepair s dev) := by
  unfold Machine.finishRepair
  split
  · exact w
  · exact .ite w w.rest

theorem Canon.takeStatus {s u st data} (w : Canon s) : Canon (takeStatus s u st data) := by
  unfold Machine.takeStatus
  split
  · exact w
  · extract_lets t
    have wt : Canon t := .ite w w.moveCredit
    refine .ite wt.setRreq.finishRepair (.finishRepair ?_)
    split
    · exact wt.bounceRemote
    · exact wt.setRreq.unage.settleGroup
    · exact .settleGroup (.ite wt.setRreq.unage (wt.setRreq.unage.fold fun _ _ w => w.recordError))

theorem Canon.trySend {s u} (w : Canon s) : Canon (trySend s u) := by
  unfold Machine.trySend
  split
  · exact w
  · exact .ite w (.ite (.ite w.setRreq.takeStatus w) (.ite w.killPlane (.ite w.unage.moveCredit.carryLink.rest w)))

theorem Canon.sendWaiting {s} (w : Canon s) : Canon (sendWaiting s) := w.fold fun _ _ w => w.trySend

theorem Canon.sendRemote {s key g sp m pa ix disp o r la} (w : Canon s) :
    Canon (sendRemote s key g sp m pa ix disp o r la) := by
  unfold Machine.sendRemote
  dsimp only
  refine .ite w.retire ?_
  split
  · exact w
  · split
    · exact w.takeTrap.modGang
    · exact .fold (.fold (.rest (.ite w.setGang w.retire)) fun _ _ w => w.setRreq) fun _ _ w => w.trySend

theorem Canon.issueRemote {s u p pa body} (w : Canon s) (h : ∀ key g sp, Canon (body s key g sp)) :
    CanonOut (issueRemote s u p pa body) := w.issueWhen h

theorem Canon.unsend {s dev plane last} (w : Canon s) : Canon (unsend s dev plane last) := w.rest

theorem Canon.noteUnsent {s dev} (w : Canon s) : Canon (noteUnsent s dev) := w.rest

theorem Canon.killLink {s plane} (w : Canon s) : Canon (killLink s plane) := w.fold fun _ _ w => w.killPlane

theorem Canon.setLink {s plane st} (w : Canon s) : Canon (setLink s plane st) :=
  .ite w (.ite w.rest.rest.killLink w.rest)

theorem Canon.answerRemote {s tag st data} (w : Canon s) : Canon (answerRemote s tag st data) := w.rest

theorem Canon.performRemote {s r es} (w : Canon s) : Canon (performRemote s r es).1 := by
  refine Canon.fold_fst w fun q e w => ?_
  dsimp only
  split
  · exact w
  · split
    · exact w.writeElem ..
    · exact w
  · split
    · exact w.writeElem ..
    · exact w

theorem Canon.serveRemote_mem {s r held} (w : Canon s) : ∀ q ∈ serveRemote s r held, Canon q.1 := by
  unfold Machine.serveRemote
  refine forall_mem_ite (forall_mem_ite (forall_mem_some w) forall_mem_none) ?_
  split
  · exact forall_mem_some w
  · extract_lets rd wr atom
    refine forall_mem_ite (forall_mem_some w) (forall_mem_ite (forall_mem_some w) ?_)
    split
    · exact forall_mem_some w
    · exact forall_mem_some w.startWalks
    · exact forall_mem_some w.postPage
    · refine forall_mem_ite (forall_mem_some w) (forall_mem_ite forall_mem_none ?_)
      extract_lets es whole sec x t1 t2 q
      have wx : Canon x.1 := .ite_fst (w.clearPoison _) (w.sectorRead _)
      have w1 : Canon t1 := wx.arrivalServed.chargeSlots ..
      have w2 : Canon t2 := .carryLink (.ite (w1.dropCopies ..) w1)
      exact forall_mem_ite (forall_mem_some wx) (forall_mem_some w2.performRemote)

theorem Canon.takeRemote {s r held} (w : Canon s) : Canon (takeRemote s r held) := by
  unfold Machine.takeRemote
  split
  · exact (w.serveRemote_mem _ ‹_›).answerRemote
  · exact w

theorem Canon.holdRemote {s i} (w : Canon s) : Canon (holdRemote s i) := by
  unfold Machine.holdRemote
  split
  · exact w.takeRemote
  · exact w

theorem Canon.execRemoteResponse {s req lanes st data} (w : Canon s) : CanonOut (execRemoteResponse req lanes st data s) := by
  unfold Machine.execRemoteResponse
  extract_lets t
  have wt : Canon t := w.trySend
  refine .next ?_
  split
  · exact wt
  · refine .ite wt (.ite (.ite wt wt.setRreq.settleGroup) (.ite wt (.ite ?_ wt.takeStatus.sendWaiting)))
    split
    · exact (wt.serveRemote_mem _ ‹_›).takeStatus.sendWaiting
    · exact wt

theorem Canon.rejectPacket {s ftid} (w : Canon s) : Canon (rejectPacket s ftid) := .rest (.ite w (w.writeHome ..))

theorem Canon.carryPacket {s ctx} (w : Canon s) : Canon (carryPacket s ctx) := w.carryLink.carryLink

theorem Canon.execLaunchPacket {s k} (w : Canon s) : CanonOut (execLaunchPacket k s) := by
  unfold Machine.execLaunchPacket
  refine .next (.ite w ?_)
  refine .ite w.rejectPacket (.ite w.carryPacket.rest ?_)
  dsimp only
  split
  · exact w.carryPacket.hubWrite.setQueue
  · exact w.carryPacket.postPage.rest
  · exact w.carryPacket.notice.rest

-- The matrix engine (R282 to R309).

theorem Canon.engTrap {s key sp cause size} (w : Canon s) : Canon (engTrap s key sp cause size) := w.trapHere

theorem Canon.writeOp {s l} (w : Canon s) : Canon (writeOp s l) := by
  induction l with
  | nil => exact w
  | cons e l ih => exact ih.setObyte

theorem Canon.clearOp {s a n} (w : Canon s) : Canon (clearOp s a n) := w.of_eq rfl rfl rfl

theorem Canon.execMres {s mx recv t d id base len sbase} (w : Canon s) :
    CanonOut (execMres mx recv t d id base len sbase s) := by
  unfold Machine.execMres
  refine w.issue fun _ _ _ => ?_
  split
  · exact w
  · exact .ite w.retire (.retire (.ite w.clearOp.writeOp w.clearOp))

theorem Canon.touch {s key g sp b space wr size len eas k} (w : Canon s) (h : ∀ ls, Canon (k ls)) :
    Canon (touch s key g sp b space wr size len eas k) := by
  unfold Machine.touch
  split
  · exact h _
  · exact w.takeTrap
  · exact w.startWalks.modGang
  · exact w.postPage.modGang

theorem Canon.readSectorsOf {s key ls} (w : Canon s) : Canon (readSectorsOf s key ls).1 := by
  refine Canon.fold_fst w fun q sec w => ?_
  dsimp only
  split
  · exact w
  · split
    · exact w.sectorRead _
    · exact (w.sectorRead _).takeSector

theorem Canon.enterEngine {s key split goal batch space size eas locs stores} (w : Canon s) :
    Canon (enterEngine s key split goal batch space size eas locs stores) :=
  w.rest.setEngOp

theorem Canon.fillReserv {s key id b scl c0 nch bytes} (w : Canon s) : Canon (fillReserv s key id b scl c0 nch bytes) := by
  unfold Machine.fillReserv
  split
  · exact w
  · split
    · exact w
    · exact w.writeOp.setGang

theorem Canon.fillFrom {s u x b scl mc id c0 nch cmask} (w : Canon s) : Canon (fillFrom s u x b scl mc id c0 nch cmask) := by
  unfold Machine.fillFrom
  dsimp only
  split
  · exact w.readSectorsOf.pendTrap.endTraps
  · split
    · exact w.readSectorsOf.engRead.fillReserv.rest
    · exact w.readSectorsOf.engRead.fillReserv

theorem Canon.execMld {s scl mc space id kb disp ks cmask} (w : Canon s) :
    CanonOut (execMld scl mc space id kb disp ks cmask s) := by
  unfold Machine.execMld
  refine w.issueWhen fun _ _ _ => ?_
  dsimp only
  split
  · exact w.engTrap
  · split
    · refine w.touch fun _ => ?_
      split
      · exact w.retire.enterEngine.setEngOp.fillFrom
      · exact w.retire.enterEngine
    · exact w

theorem Canon.deliver {s x} (w : Canon s) : Canon (deliver s x) := by
  unfold Machine.deliver
  split
  · split
    · exact w
    · split
      · exact w
      · exact w.writeOp.setGang
  · exact w.modGang

theorem Canon.execMulticastDelivery {s gang} (w : Canon s) : CanonOut (execMulticastDelivery gang s) := by
  unfold Machine.execMulticastDelivery
  refine .next ?_
  split
  · exact w
  · exact w.rest.deliver

theorem Canon.deliverWords {s u words} (w : Canon s) : Canon (deliverWords s u words) := by
  unfold Machine.deliverWords
  split
  · exact w
  · split
    · exact w
    · split
      · exact w
      · exact w.writeOp.rest

theorem Canon.gatherInto {s u key b g id r rowp cols vals cbase rows c0} (w : Canon s) :
    Canon (gatherInto s u key b g id r rowp cols vals cbase rows c0).1 :=
  w.clearOp.fold fun _ _ w => w.fold fun _ _ w => w.fold fun _ _ w => w.setObyte

theorem Canon.markWindow {s u key sp b} (w : Canon s) : Canon (markWindow s u key sp b) := .ite w w.markRead

theorem Canon.execMgath {s id kb disp} (w : Canon s) : CanonOut (execMgath id kb disp s) := by
  unfold Machine.execMgath
  refine w.issueWhen fun _ _ _ => ?_
  dsimp only
  split
  · refine .ite w.engTrap (.ite w.trapHere ?_)
    refine .ite w.trapHere ?_
    exact .ite w.engTrap (.ite w.engTrap (.ite w.markWindow.retire.enterEngine w.markWindow.gatherInto.retire))
  · exact w.engTrap

theorem Canon.execMma {s skip z tile ra rb a0 b0 kcm1} (w : Canon s) : CanonOut (execMma skip z tile ra rb a0 b0 kcm1 s) := by
  unfold Machine.execMma
  refine w.issue fun _ _ _ => ?_
  split
  · exact .ite w.engTrap (.ite w.engTrap (.ite w.engTrap w.setTile.retire))
  · exact w.engTrap

theorem Canon.execBatchComplete {s gang} (w : Canon s) : CanonOut (execBatchComplete gang s) := by
  unfold Machine.execBatchComplete
  refine .next ?_
  split
  · exact w
  · split
    · exact w
    · exact .ite w w.setGang

theorem Canon.execAclr {s a} (w : Canon s) : CanonOut (execAclr a s) := by
  unfold Machine.execAclr
  refine w.issue fun _ _ _ => ?_
  split
  · exact w
  · exact .ite w.engTrap (.retire (w.fold fun _ _ w => w.setTile))

theorem Canon.execArd {s rm sat nosat t d tile row la} (w : Canon s) : CanonOut (execArd rm sat nosat t d tile row la s) := by
  unfold Machine.execArd
  refine w.issue fun _ _ _ => ?_
  split
  · exact w
  · exact .ite w.engTrap w.startLong

theorem Canon.execAwr {s t m c} (w : Canon s) : CanonOut (execAwr t m c s) := by
  unfold Machine.execAwr
  refine w.issue fun _ _ _ => ?_
  split
  · exact w
  · dsimp only
    split
    · exact w.takeTrap
    · exact .retire (w.fold fun _ _ w => w.setTile)

theorem Canon.astSector {s key exm es size} (w : Canon s) : Canon (astSector s key exm es size) := by
  unfold Machine.astSector
  extract_lets write whole
  have hw : ∀ {t}, Canon t → Canon (write t) := fun w => w.fold fun _ _ w => w.writeElem ..
  split
  · exact w
  · extract_lets t sec core here x
    have wt : Canon t := w.dropAhead
    have wx : Canon x.1 := .ite_fst (wt.clearPoison _) (.ite_fst wt (wt.sectorRead _))
    exact .ite (hw wt) (.ite wx.pendTrap (hw wx.takeSector).dirtyL1)

theorem Canon.astWrite {s key exm size es} (w : Canon s) : Canon (astWrite s key exm size es) :=
  w.fold fun _ _ w => w.astSector

theorem Canon.execAst {s rm sat nosat t km kb disp kr} (w : Canon s) : CanonOut (execAst rm sat nosat t km kb disp kr s) := by
  unfold Machine.execAst
  dsimp only
  refine w.issueWhen fun _ _ _ => ?_
  split
  · exact w
  · split
    · exact w.trapHere
    · exact .ite w.engTrap (w.touch fun _ => .ite w.retire.enterEngine w.retire.astWrite)

theorem Canon.fetchWords {s u words} (w : Canon s) : Canon (fetchWords s u words) := by
  unfold Machine.fetchWords
  split
  · exact w
  · exact .ite w (.ite w.readSectorsOf (.setEngOp (w.readSectorsOf.fold fun _ _ w => w.markRead)))

theorem Canon.performEng {s u} (w : Canon s) : Canon (performEng s u) := by
  unfold Machine.performEng
  split
  · exact w
  · split
    · refine .ite w ?_
      dsimp only
      split
      · exact w.leaveQueues.unage.setEngOp.fillFrom
      · exact w.leaveQueues.unage.setEngOp.astWrite
      · split
        · exact w.leaveQueues.unage.setEngOp.markWindow.gatherInto.setGang
        · exact w.leaveQueues.unage.setEngOp
      · exact w.leaveQueues.unage.setEngOp.engRead.setArray.drainArray
    · exact w

theorem Canon.execRequestPerform {s req sector} (w : Canon s) : CanonOut (execRequestPerform req sector s) := by
  unfold Machine.execRequestPerform
  refine .next ?_
  split
  · exact .ite w.performEngine w.performSector
  · exact w.performEng

end Sys2Proof.Machine
end

section
/-! The dispatcher and the replay stores keep the stores' form (R20 to R33, R151 to R157, R166 to R175, R387, R394). -/

namespace Sys2Proof.Machine

-- The dispatcher: queues, launches and blocks (R20 to R33, R151 to R157).

theorem Canon.execKick {s vf word size v} (w : Canon s) : CanonOut (execKick vf word size v s) := by
  unfold Machine.execKick
  refine .next ?_
  split
  · exact w
  · exact .ite w w.setQueue

theorem Canon.endLaunch {s u st cause fail} (w : Canon s) : Canon (endLaunch s u st cause fail) := by
  unfold Machine.endLaunch
  split
  · exact w
  · exact w.setLaunch.launchNotice.completeLaunch

theorem Canon.tablePlaces {ctx u s l acc} (w : Canon s) : Canon (tablePlaces ctx u s l acc).1 := by
  induction l generalizing s acc with
  | nil => exact w
  | cons a l ih =>
    unfold Machine.tablePlaces
    split
    · dsimp only
      split
      · exact w.readSectors
      · exact ih w.readSectors
    · exact w

theorem Canon.tablePlaces_wait {ctx u s l acc t a} (w : Canon s) (h : (Machine.tablePlaces ctx u s l acc).2 = .inr (.wait t, a)) :
    Canon t := by
  induction l generalizing s acc with
  | nil => cases h
  | cons b l ih =>
    unfold Machine.tablePlaces at h
    split at h
    · dsimp only at h
      split at h
      · cases h
      · exact ih w.readSectors h
    · injection h with h
      injection h with h
      exact w.hubAccess_wait h

theorem Canon.acceptLaunch {s u l r regions} (w : Canon s) : Canon (acceptLaunch s u l r regions) :=
  .ite w.endLaunch (.ite w.endLaunch w.setLaunch)

theorem Canon.validate {s u} (w : Canon s) : Canon (validate s u) := by
  unfold Machine.validate
  dsimp only
  split
  · exact w
  · refine .ite w (.ite w.endLaunch ?_)
    split
    · exact w.hubAccess_wait ‹_›
    · exact w.endLaunch
    · refine .ite w.readSectors.endLaunch (.ite w.readSectors.endLaunch ?_)
      split
      · exact w.readSectors.tablePlaces.acceptLaunch
      · exact w.readSectors.tablePlaces_wait ‹_›
      · exact w.readSectors.tablePlaces.endLaunch

theorem Canon.haltQueue {s n cause addrs} (w : Canon s) : Canon (haltQueue s n cause addrs) := w.setQueue.notice

theorem Canon.takeHost {s n} (w : Canon s) : Canon (takeHost s n) := by
  unfold Machine.takeHost
  dsimp only
  refine .ite w (.ite w (.ite w.haltQueue ?_))
  split
  · exact w.hubAccess_wait ‹_›
  · exact w.haltQueue
  · exact .ite w.readSectors.haltQueue
      (.ite w.readSectors.setQueue.rest.endLaunch w.readSectors.setQueue.rest.validate)

theorem Canon.takeDevice {s ctx} (w : Canon s) : Canon (takeDevice s ctx) := by
  unfold Machine.takeDevice
  split
  · exact w
  · split
    · exact w
    · refine .ite w ?_
      dsimp only
      split
      · exact w.setCtx
      · exact w.setCtx.rest.validate

theorem Canon.examine {s q} (w : Canon s) : Canon (examine s q) := by
  unfold Machine.examine
  dsimp only
  split
  · exact .validate (.ite w.setQueue w)
  · exact .takeHost (.ite w.setQueue w)

theorem Canon.examineAll {s ctx} (w : Canon s) : Canon (examineAll s ctx) := w.fold fun _ _ w => w.examine

theorem Canon.execTakeEntry {s q} (w : Canon s) : CanonOut (execTakeEntry q s) := by
  unfold Machine.execTakeEntry
  refine .next (.ite w ?_)
  refine .ite w.examine ?_
  split
  · exact w.validate
  · exact w.takeDevice

theorem Canon.pollOne {s u i} (w : Canon s) : Canon (pollOne s u i) := by
  unfold Machine.pollOne
  dsimp only
  split
  · exact w
  · split
    · exact w
    · refine .ite w ?_
      split
      · exact w.hubAccess_wait ‹_›
      · exact w.endLaunch
      · exact .ite w.readSectors.endLaunch (.ite w.readSectors.setLaunch w.readSectors)

theorem Canon.placeBlock {s u l r core q0 scr tag} (w : Canon s) : Canon (placeBlock s u l r core q0 scr tag) := by
  unfold Machine.placeBlock
  extract_lets lanes n bank b slots gangs base c p t1 t2 a t3 q t4
  have w1 : Canon t1 := ⟨w.memory, twf_filter _ w.scratch, w.floors⟩
  have w3 : Canon t3 := .ite w1.setBlock.setLaunch.setArray w1.setBlock.setLaunch
  exact w3.setPart.fold fun _ _ w => w.setGang

theorem Canon.execPlacement {s q0 scr tag} (w : Canon s) : CanonOut (execPlacement q0 scr tag s) := by
  unfold Machine.execPlacement
  refine .next ?_
  split
  · exact w
  · split
    · exact w.setLaunch
    · exact .ite w.placeBlock w

theorem Canon.removeBlock {s n} (w : Canon s) : Canon (removeBlock s n) := w.departs.of_eq rfl rfl rfl

theorem Canon.blockGone {s n b} (w : Canon s) : Canon (blockGone s n b) := by
  unfold Machine.blockGone
  dsimp only
  split
  · exact w.removeBlock.unbar
  · exact w.removeBlock.unbar.setLaunch.completeLaunch

theorem Canon.blockRetired {s n b} (w : Canon s) : Canon (blockRetired s n b) := by
  unfold Machine.blockRetired
  dsimp only
  refine .blockGone ?_
  split
  · exact .ite w w.setLaunch
  · exact w

theorem Canon.regionFault {s n b addr} (w : Canon s) : Canon (regionFault s n b addr) := by
  unfold Machine.regionFault
  split
  · exact w
  · exact w.setLaunch.launchNotice.blockGone

theorem Canon.stagePiece {s n b r i off} (w : Canon s) : Canon (stagePiece s n b r i off) := by
  unfold Machine.stagePiece
  dsimp only
  split
  · exact w.hubAccess_wait ‹_›
  · exact w.regionFault
  · exact .ite (w.arrivalServed.sectorRead _).regionFault
      (((w.arrivalServed.sectorRead _).writeScr _ _).chargeSlots ..).setBlock

theorem Canon.execRegionStaging {s b} (w : Canon s) : CanonOut (execRegionStaging b s) := by
  unfold Machine.execRegionStaging
  refine .next ?_
  split
  · exact w
  · split
    · split
      · exact w.stagePiece
      · exact w
    · exact w

theorem Canon.startGang {s b r k} (w : Canon s) : Canon (startGang s b r k) := by
  unfold Machine.startGang
  split
  · exact w.rest.setCtx.setGang
  · exact w

theorem Canon.execGangStart {s b} (w : Canon s) : CanonOut (execGangStart b s) := by
  unfold Machine.execGangStart
  refine .next ?_
  split
  · exact w
  · split
    · exact .ite w (w.setBlock.fold fun _ _ w => w.startGang)
    · exact w

theorem Canon.execBlockRetire {s b} (w : Canon s) : CanonOut (execBlockRetire b s) := by
  unfold Machine.execBlockRetire
  refine .next ?_
  split
  · exact w
  · exact .ite w.blockRetired w

-- The replay stores, parks and restores (R166 to R175, R387, R394).

theorem Canon.reissueReq {s u} (w : Canon s) : Canon (reissueReq s u) := by
  unfold Machine.reissueReq
  split
  · exact w
  · exact .ite w (.ite w.setReq w.checkReq)

theorem Canon.chargeCmd {s c b} (w : Canon s) : Canon (chargeCmd s c b) := by
  unfold Machine.chargeCmd
  split
  · exact .ite w (w.chargeUser ..)
  · exact w

theorem Canon.reissueCmd {s u} (w : Canon s) : Canon (reissueCmd s u) := by
  unfold Machine.reissueCmd
  split
  · split
    · exact .ite (.setCmd (.rest (.chargeCmd (.ite w w.unage)))) w
    · exact w
  · exact w

theorem Canon.reissueRemote {s u} (w : Canon s) : Canon (reissueRemote s u) := by
  unfold Machine.reissueRemote
  split
  · exact .ite w.setRreq.trySend w
  · exact w

theorem Canon.bounceEng {s u cause} (w : Canon s) : Canon (bounceEng s u cause) := by
  unfold Machine.bounceEng
  split
  · exact w
  · exact .ite w.leaveQueues.setEngOp.ageAt.raiseBounceLimit w.leaveQueues.setEngOp.ageAt

theorem Canon.reissueEng {s u} (w : Canon s) : Canon (reissueEng s u) := by
  unfold Machine.reissueEng
  split
  · refine .ite w ?_
    split
    · exact .setEngOp (.rest (w.fold fun _ _ w => w.chargeUser ..))
    · exact w.startWalks.bounceEng
    · split
      · exact w.bounceEng.hubPark
      · exact w
    · exact w
  · exact w

theorem Canon.unholdGangs {s core ctx} (w : Canon s) : Canon (unholdGangs s core ctx) := w.fold fun _ _ w => w.modGang

theorem Canon.afterWalk {s u ctx} (w : Canon s) : Canon (afterWalk s u ctx) := by
  unfold Machine.afterWalk
  refine .ite w.completeLaunches (.fold ?_ fun _ _ w => w.reissueCmd)
  exact .fold (w.unholdGangs.fold fun _ _ w => w.reissueReq) fun _ _ w => w.reissueEng

theorem Canon.execWalkComplete {s u ctx vpn} (w : Canon s) : CanonOut (execWalkComplete u ctx vpn s) := by
  unfold Machine.execWalkComplete
  refine .next (.ite w ?_)
  split
  · exact w.rest
  · exact .ite w w.rest.rest.afterWalk

theorem Canon.elim {α : Type} {o : Option α} {s : State} {f : α → State} (w : Canon s) (h : ∀ x, Canon (f x)) :
    Canon (o.elim s f) := by
  cases o with
  | none => exact w
  | some x => exact h x

theorem Canon.execHoldLimitExpiry {s id} (w : Canon s) : CanonOut (execHoldLimitExpiry id s) := by
  unfold Machine.execHoldLimitExpiry
  refine .next ?_
  split
  · refine .ite w.bounceReq ?_
    split
    · exact w.bounceReq
    · exact w
  · exact .ite w.bounceCmd (.ite w (.ite (w.elim fun _ => w.bounceCmd) (.ite w.bounceCmd w)))
  · exact .ite w.bounceRemote w
  · exact .ite w.bounceEng (.ite w (.ite (w.elim fun _ => w.bounceEng) (.ite w.bounceEng w)))
  · exact w

theorem Canon.execBackoffExpiry {s id} (w : Canon s) : CanonOut (execBackoffExpiry id s) := by
  unfold Machine.execBackoffExpiry
  refine .next ?_
  split
  · exact .ite w.reissueReq w
  · exact .ite w.reissueCmd w
  · exact .ite w.reissueRemote w
  · exact .ite w.reissueEng w
  · exact w

theorem Canon.execSlotFreeReissue {s id} (w : Canon s) : CanonOut (execSlotFreeReissue id s) := by
  unfold Machine.execSlotFreeReissue
  refine .next ?_
  split
  · exact .ite w.reissueReq w
  · exact .ite w.reissueCmd w
  · exact .ite w.reissueRemote w
  · exact .ite w.reissueEng w
  · exact w

theorem Canon.parkOut {s gang} (w : Canon s) : Canon (parkOut s gang) := by
  unfold Machine.parkOut
  split
  · exact w
  · split
    · exact .ite w.swapOut.modCtx w
    · exact w

theorem Canon.haltCtx {s ctx} (w : Canon s) : Canon (haltCtx s ctx) := .modCtx (w.fold fun _ _ w => w.swapOut)

theorem Canon.refuseRestore {s ctx} (w : Canon s) : Canon (refuseRestore s ctx) := w.notice.haltCtx

theorem Canon.returnBlock {s n b bank} (w : Canon s) : Canon (returnBlock s n b bank) := .setBlock (.ite w.setArray w)

theorem Canon.execBlockReturn {s b} (w : Canon s) : CanonOut (execBlockReturn b s) := by
  unfold Machine.execBlockReturn
  refine .next ?_
  split
  · exact w
  · exact .ite w.returnBlock w

theorem Canon.fillImage {s n b img} (w : Canon s) : Canon (fillImage s n b img) := by
  unfold Machine.fillImage
  extract_lets tile byte base t1 t2 t3
  have w3 : Canon t3 := .fold (.fold (w.fold fun _ _ w => w.setSbyte ..) fun _ _ w => w.setTile) fun _ _ w => w.setObyte
  split
  · exact w3.setArray
  · exact w3

theorem Canon.unpark {s key} (w : Canon s) : Canon (unpark s key) := by
  unfold Machine.unpark
  split
  · exact w
  · split
    · exact w.modGang
    · exact w.reissueReq
    · exact w.modGang
    · exact w

theorem Canon.reissueBlock {s n} (w : Canon s) : Canon (reissueBlock s n) := by
  unfold Machine.reissueBlock
  split
  · exact w
  · refine .ite w ?_
    extract_lets rs again t1 t2 t3 cs t4 es t5 t6
    have wa : ∀ s e, Canon s → Canon (again s e) := fun _ _ w => .ite w.reissueReq w.checkReq
    have w3 : Canon t3 := .fold (.fold (w.fold wa) wa) fun _ _ w => w.reissueReq
    have w5 : Canon t5 := .fold (w3.fold fun _ _ w => w.reissueCmd) fun _ _ w => w.reissueEng
    exact .fold (.ite w5.drainArray w5) fun _ _ w => w.unpark

theorem Canon.ageEntry {s u} (w : Canon s) : Canon (ageEntry s u) := by
  unfold Machine.ageEntry
  split
  · exact .ite w w.ageAt
  · exact w

theorem Canon.reage {s n} (w : Canon s) : Canon (reage s n) := w.fold fun _ _ w => w.ageEntry

theorem Canon.restoreBlock {s n b} (w : Canon s) : Canon (restoreBlock s n b) :=
  w.fillImage.countSpill.setBlock.reage.reissueBlock

theorem Canon.execRestore {s b} (w : Canon s) : CanonOut (execRestore b s) := by
  unfold Machine.execRestore
  refine .next ?_
  split
  · exact w
  · exact .ite w (.ite w.restoreBlock w.refuseRestore)

end Sys2Proof.Machine
end

section
/-! What the host and the hypervisor ask for keeps the stores' form: save areas, the fault service, the Weir and floors (R126,
R338 to R347, R359, R381 to R394). -/

namespace Sys2Proof.Machine

-- Save areas (R391 to R393).

theorem Canon.creditTime {s p} (w : Canon s) : Canon (creditTime s p) := by
  unfold Machine.creditTime
  dsimp only
  refine .setPart ?_
  split
  · exact w.rest
  · exact w

theorem Canon.spillGang {s c n k} (w : Canon s) : Canon (spillGang s c n k) := by
  unfold Machine.spillGang
  split
  · exact w
  · exact w.putRange ..

theorem Canon.spillStores {s c k n b img} (w : Canon s) : Canon (spillStores s c k n b img) := by
  unfold Machine.spillStores
  dsimp only
  refine .fold ?_ fun _ _ w => w.putByte ..
  refine .fold ?_ fun _ _ w => w.putRange ..
  exact .fold ((w.putRange ..).fold fun _ _ w => w.putRange ..) fun _ _ w => w.putByte ..

theorem Canon.spillBlock {s c n b} (w : Canon s) : Canon (spillBlock s c n b) := by
  unfold Machine.spillBlock
  split
  · exact w
  · exact w.countSpill.spillStores.fold fun _ _ w => w.spillGang

theorem Canon.writeStatus {s ctx} (w : Canon s) : Canon (writeStatus s ctx) := by
  unfold Machine.writeStatus
  split
  · exact w
  · exact .ite w ((w.putRange ..).writePhys ..)

theorem Canon.sealArea {s ctx} (w : Canon s) : Canon (sealArea s ctx) := by
  unfold Machine.sealArea
  dsimp only
  split
  · exact w.writeStatus
  · exact w.writeStatus.rest

theorem Canon.spillCtx {s ctx} (w : Canon s) : Canon (spillCtx s ctx) := by
  unfold Machine.spillCtx
  split
  · exact w
  · exact .ite w.notice.haltCtx (.sealArea (.fold (w.fold fun _ _ w => w.bounceRest) fun _ _ w => w.spillBlock))

-- The fault service and context control (R381 to R394).

theorem Canon.writeRecord {s a bs} (w : Canon s) : Canon (writeRecord s a bs) :=
  .clearLine (((w.dropCopies ..).writeBytes ..).fold fun _ _ w => (w.storeSector ..).clearPoison ..) ..

theorem Canon.execFaultRecordWrite {s ring} (w : Canon s) : CanonOut (execFaultRecordWrite ring s) := by
  unfold Machine.execFaultRecordWrite
  refine .next ?_
  dsimp only
  split
  · exact w
  · exact .ite w.writeRecord.setRing w

theorem Canon.execFheadWrite {s ring v} (w : Canon s) : CanonOut (execFheadWrite ring v s) := .next (.ite w.setRing w)

theorem Canon.execFringWrite {s ring v} (w : Canon s) : CanonOut (execFringWrite ring v s) := .next (.ite w.setRing w)

theorem Canon.execFstatWrite {s page errReg v} (w : Canon s) : CanonOut (execFstatWrite page errReg v s) :=
  .next (.ite (.ite w.setRing w.setRing) w)

theorem Canon.serveWait {s wr} (w : Canon s) : Canon (serveWait s wr) := by
  unfold Machine.serveWait
  refine .ite ?_ ?_
  · split
    · exact .ite (.ite w.reissueCmd w.setCmd) w
    · exact w
  · refine .ite ?_ w
    split
    · exact .ite w.reissueReq w
    · exact w.reissueEng

theorem Canon.execFserve {s ring v} (w : Canon s) : CanonOut (execFserve ring v s) := by
  unfold Machine.execFserve
  refine .next (.completeLaunches ?_)
  exact .fold (.fold (.rest (w.fold fun _ _ w => w.parkOut)) fun _ _ w => w.serveWait) fun _ _ w => w.unpark

theorem Canon.refusePage {s page} (w : Canon s) : Canon (refusePage s page) := .ite w.setRing w

theorem Canon.resumeCtx {s ctx skip} (w : Canon s) : Canon (resumeCtx s ctx skip) := by
  refine .ite w.refuseRestore ?_
  extract_lets t1 t2 t3
  have w2 : Canon t2 := .fold (w.fold fun _ _ w => w.modGang) fun _ _ w => w.modBlock
  exact .ite w2.modCtx.sealArea w2.modCtx.writeStatus

theorem Canon.execCtxctlResume {s page ctx} (w : Canon s) : CanonOut (execCtxctlResume page ctx s) := by
  unfold Machine.execCtxctlResume
  refine .next ?_
  split
  · exact .ite w.resumeCtx w.refusePage
  · exact w.refusePage

theorem Canon.execCtxctlSkip {s page ctx} (w : Canon s) : CanonOut (execCtxctlSkip page ctx s) := by
  unfold Machine.execCtxctlSkip
  refine .next ?_
  split
  · exact .ite w.resumeCtx w.refusePage
  · exact w.refusePage

theorem Canon.cancelLaunch {s u} (w : Canon s) : Canon (cancelLaunch s u) := by
  unfold Machine.cancelLaunch
  split
  · exact w.setLaunch.completeLaunch
  · exact w

theorem Canon.killCtx {s ctx} (w : Canon s) : Canon (killCtx s ctx) := by
  unfold Machine.killCtx
  dsimp only
  refine .writeStatus (.fold ?_ fun _ _ w => w.cancelLaunch)
  refine .modCtx (.fold ?_ fun _ _ w => w.creditTime.setPart)
  exact .of_eq (.fold (w.unageAll.fold fun _ _ w => w.setLaunch) fun _ _ w => w.blockGone) rfl rfl rfl

theorem Canon.execCtxctlKill {s page ctx} (w : Canon s) : CanonOut (execCtxctlKill page ctx s) := by
  unfold Machine.execCtxctlKill
  refine .next ?_
  split
  · exact w.killCtx
  · exact w.refusePage

theorem Canon.endStop {s ctx} (w : Canon s) : Canon (endStop s ctx) := .ite w w.modCtx.spillCtx

theorem Canon.stopCtx {s ctx} (w : Canon s) : Canon (stopCtx s ctx) :=
  .endStop (.modCtx (.fold (w.fold fun _ _ w => w.rest.deliver) fun _ _ w => w.swapOut))

theorem Canon.endStops {s} (w : Canon s) : Canon (endStops s) := w.fold fun _ _ w => .ite w.endStop w

theorem Canon.execCtxctlStop {s page ctx} (w : Canon s) : CanonOut (execCtxctlStop page ctx s) := by
  unfold Machine.execCtxctlStop
  refine .next ?_
  split
  · exact .ite w.stopCtx w.refusePage
  · exact w.refusePage

theorem Canon.badDescriptor {s page ctx} (w : Canon s) : Canon (badDescriptor s page ctx) := w.notice.refusePage

theorem Canon.createCtx {s ctx c} (w : Canon s) : Canon (createCtx s ctx c) := w.rest.setCtx.writeStatus

theorem Canon.execCtxctlCreate {s page ctx} (w : Canon s) : CanonOut (execCtxctlCreate page ctx s) := by
  unfold Machine.execCtxctlCreate
  refine .next (.ite w.refusePage ?_)
  refine .ite w ?_
  split
  · exact w.badDescriptor
  · split
    · exact w.badDescriptor
    · exact .ite w.createCtx w

theorem Canon.putQueues {s ctx l} (w : Canon s) : Canon (putQueues s ctx l) := w.fold fun _ _ w => w.setQueue

theorem Canon.putCrews {s ctx vf l} (w : Canon s) : Canon (putCrews s ctx vf l) := w.fold fun _ _ w => w.setCrew

theorem Canon.startHere {s ctx vf sv} (w : Canon s) : Canon (startHere s ctx vf sv) :=
  .putCrews (.of_eq (.fold (w.fold fun _ _ w => w.modBlock) fun _ _ w => w.modGang) rfl rfl rfl)

theorem Canon.startAway {s ctx vf sv} (w : Canon s) : Canon (startAway s ctx vf sv) :=
  .putQueues (.putCrews (w.rest.rest.fold fun _ _ w => w.ageEntry))

theorem Canon.dropCtx {s ctx} (w : Canon s) : Canon (dropCtx s ctx) :=
  .of_eq (w.fold fun _ _ w => w.unageAll.removeBlock) rfl rfl rfl

theorem Canon.startCtx {s ctx c live own sv} (w : Canon s) : Canon (startCtx s ctx c live own sv) := by
  unfold Machine.startCtx
  dsimp only
  refine .sealArea ?_
  exact .ite (.startHere (.setCtx (.rest (.ite w w.rest)))) (.startAway (.dropCtx (.setCtx (.rest (.ite w w.rest)))))

theorem Canon.badShape {s page ctx} (w : Canon s) : Canon (badShape s page ctx) := w.notice.refusePage

theorem Canon.importArea {s base sv} (w : Canon s) : Canon (importArea s base sv) := .ite w ((w.putRange ..).rest)

theorem Canon.execCtxctlStart {s page ctx} (w : Canon s) : CanonOut (execCtxctlStart page ctx s) := by
  unfold Machine.execCtxctlStart
  refine .next (.ite w.refusePage ?_)
  refine .ite w ?_
  split
  · exact w.badDescriptor
  · split
    · exact w.badDescriptor
    · refine .ite w ?_
      dsimp only
      split
      · exact w.badShape
      · split
        · exact w.badDescriptor
        · exact .ite w.startCtx w.badShape

theorem Canon.execLcancel {s page v} (w : Canon s) : CanonOut (execLcancel page v s) :=
  .next (.ite w.refusePage (w.fold fun _ _ w => w.cancelLaunch))

-- Time slices and the shadow swap (R341, R342, R388 to R390).

theorem Canon.noteSched {s vf} (w : Canon s) : Canon (noteSched s vf) := .ite (w.of_eq rfl rfl rfl) w

theorem Canon.endTurn {s p} (w : Canon s) : Canon (endTurn s p) := by
  unfold Machine.endTurn
  dsimp only
  split
  · exact w
  · exact w.setPart

theorem Canon.beginTurn {s p vf idx ctx quant} (w : Canon s) : Canon (beginTurn s p vf idx ctx quant) :=
  w.setPart.examineAll

theorem Canon.takeBank {s p bank ctx} (w : Canon s) : Canon (takeBank s p bank ctx) :=
  .setPart (.ite w.creditTime (w.creditTime.fold fun _ _ w => w.swapOut))

theorem Canon.flipBlock {s n b} (w : Canon s) : Canon (flipBlock s n b) :=
  w.bouncePeer.clearWays.settleCmds.loseSlots.dropAhead.fold fun _ _ w => w.modGang

theorem Canon.flipBank {s p incoming} (w : Canon s) : Canon (flipBank s p incoming) :=
  .setPart (w.creditTime.fold fun _ _ w => w.flipBlock)

theorem Canon.noteRead {s p} (w : Canon s) : Canon (noteRead s p) := w.fold fun _ _ w => w.noteSched

theorem Canon.adoptCtx_some {s t p ctx} (w : Canon s) (h : adoptCtx s p ctx = some t) : Canon t := by
  unfold Machine.adoptCtx at h
  dsimp only at h
  split_ifs at h <;> cases h
  · exact w.creditTime.setPart
  · exact w
  · exact w.takeBank
  · exact w.takeBank.flipBank

theorem Canon.nextTurn {s p} (w : Canon s) : Canon (nextTurn s p) := by
  unfold Machine.nextTurn
  dsimp only
  split
  · exact w.noteRead
  · split
    · exact (w.noteRead.adoptCtx_some ‹_›).beginTurn
    · exact w.noteRead

theorem Canon.nextContext {s p t} (w : Canon s) : Canon (nextContext s p t) := by
  unfold Machine.nextContext
  split
  · exact w.endTurn.nextTurn
  · split
    · exact w
    · exact (w.adoptCtx_some ‹_›).setPart.examineAll

theorem Canon.execTurnStart {s part} (w : Canon s) : CanonOut (execTurnStart part s) := by
  unfold Machine.execTurnStart
  refine .next (.ite w ?_)
  split
  · exact w.nextTurn
  · split
    · exact .ite w.nextContext w
    · exact .ite w w.nextContext

theorem Canon.drainTurn {s p t} (w : Canon s) : Canon (drainTurn s p t) := w.setPart

theorem Canon.execSliceEnd {s part} (w : Canon s) : CanonOut (execSliceEnd part s) := by
  unfold Machine.execSliceEnd
  refine .next ?_
  split
  · exact .ite w.drainTurn w
  · exact w

theorem Canon.execQuantExpiry {s part} (w : Canon s) : CanonOut (execQuantExpiry part s) := by
  unfold Machine.execQuantExpiry
  refine .next ?_
  split
  · refine .ite w ?_
    split
    · exact .ite w.setPart (.ite w.drainTurn w.nextContext)
    · exact w
  · exact w

theorem Canon.leaveTurn {s p} (w : Canon s) : Canon (leaveTurn s p) := by
  unfold Machine.leaveTurn
  split
  · exact .ite w.setPart w.endTurn
  · exact w

theorem Canon.goUrgent {s p} (w : Canon s) : Canon (goUrgent s p) :=
  .ite w (.ite w.setPart (.setPart (.leaveTurn (w.fold fun _ _ w => w.swapOut))))

theorem Canon.execDrainLimitExpiry {s part} (w : Canon s) : CanonOut (execDrainLimitExpiry part s) := by
  unfold Machine.execDrainLimitExpiry
  refine .next ?_
  split
  · split
    · exact .ite w.goUrgent w
    · exact w
  · exact w

theorem Canon.execShadowSwap {s part} (w : Canon s) : CanonOut (execShadowSwap part s) := by
  unfold Machine.execShadowSwap
  refine .next (.ite w ?_)
  dsimp only
  split
  · exact .ite w.leaveTurn.takeBank.flipBank w.leaveTurn.flipBank
  · exact w.leaveTurn.flipBank

theorem Canon.resumeBank {s p} (w : Canon s) : Canon (resumeBank s p) := w.fold fun _ _ w => w.reissueBlock

theorem Canon.execFlipComplete {s part} (w : Canon s) : CanonOut (execFlipComplete part s) := by
  unfold Machine.execFlipComplete
  refine .next ?_
  dsimp only
  split
  · refine .ite ?_ w
    refine .resumeBank ?_
    split
    · exact w.setPart.examineAll
    · exact w.setPart
  · exact w

theorem Canon.spillResident {s e} (w : Canon s) : Canon (spillResident s e) := by
  unfold Machine.spillResident
  split
  · exact .ite w.bounceRest.spillBlock w
  · exact w

theorem Canon.spillTime {s p} (w : Canon s) : Canon (spillTime s p) := .ite w w.setPart

theorem Canon.execSpillComplete {s part} (w : Canon s) : CanonOut (execSpillComplete part s) := by
  unfold Machine.execSpillComplete
  refine .next (.ite w.endStops ?_)
  exact .endStops (.setPart (.fold (w.spillTime.fold fun _ _ w => w.spillResident) fun _ _ w => w.spillCtx))

theorem Canon.fillBlock {s bank n} (w : Canon s) : Canon (fillBlock s bank n) := by
  unfold Machine.fillBlock
  split
  · exact w
  · refine .ite w (.ite w.refuseRestore ?_)
    dsimp only
    split
    · exact w.returnBlock.restoreBlock
    · exact w.returnBlock

theorem Canon.execFillComplete {s part} (w : Canon s) : CanonOut (execFillComplete part s) := by
  unfold Machine.execFillComplete
  refine .next (.ite w ?_)
  dsimp only
  split
  · exact w.setPart
  · exact .resumeBank (w.setPart.fold fun _ _ w => w.fillBlock)

-- The physical function's registers (R126, R338, R343 to R347).

theorem Canon.noteCfg {s} (w : Canon s) : Canon (noteCfg s) := w.of_eq rfl rfl rfl

theorem Canon.execVpartWrite {s vf v} (w : Canon s) : CanonOut (execVpartWrite vf v s) := by
  have h : Canon ((List.range 8).foldl Machine.creditTime (Machine.noteCfg s)) := w.noteCfg.fold fun _ _ w => w.creditTime
  unfold Machine.execVpartWrite
  generalize (List.range 8).foldl Machine.creditTime (Machine.noteCfg s) = t at h
  exact .next (.ite w (.ite (h.of_eq rfl rfl rfl) h.setVf))

theorem Canon.execVpolWrite {s vf v} (w : Canon s) : CanonOut (execVpolWrite vf v s) :=
  .next (.ite w (.ite w.noteCfg.setVf w.noteCfg))

theorem Canon.setFloor {s chan vf n} (w : Canon s) : Canon (setFloor s chan vf n) :=
  .ite (w.of_eq rfl rfl rfl) ⟨w.memory, w.scratch, twf_tput _ _ w.floors⟩

theorem Canon.execFloorWrite {s chan group v} (w : Canon s) : CanonOut (execFloorWrite chan group v s) :=
  .next (.ite (w.noteCfg.fold fun _ _ w => w.setFloor) w)

theorem Canon.settleDeficit {s chan vf} (w : Canon s) : Canon (settleDeficit s chan vf) := w.of_eq rfl rfl rfl

theorem Canon.writeInvctl {s v} (w : Canon s) : Canon (writeInvctl s v) :=
  .ite (w.of_eq rfl rfl rfl) (.ite (w.of_eq rfl rfl rfl) (.ite (w.of_eq rfl rfl rfl) (w.of_eq rfl rfl rfl)))

theorem Canon.unschedule {s ctx c} (w : Canon s) : Canon (unschedule s ctx c) := .ite w.notice w.notice.stopCtx

theorem Canon.rereadDescriptor {s ctx} (w : Canon s) : Canon (rereadDescriptor s ctx) := by
  unfold Machine.rereadDescriptor
  split
  · refine .ite w ?_
    split
    · exact w.setCtx
    · exact w.unschedule
  · exact .ite w w.unschedule
  · exact w

theorem Canon.execInvalidationDone {s} (w : Canon s) : CanonOut (execInvalidationDone s) := by
  unfold Machine.execInvalidationDone
  refine .next ?_
  split
  · exact w
  · exact .ite w (.ite (.rereadDescriptor (w.of_eq rfl rfl rfl)) (w.of_eq rfl rfl rfl))

theorem Canon.execDtword {s} (w : Canon s) : CanonOut (execDtword s) := by
  unfold Machine.execDtword
  refine .next ?_
  split
  · exact w.of_eq rfl rfl rfl
  · exact .ite w (.of_eq (.ite ((w.sectorRead ..).rest) (w.writeHome ..)) rfl rfl rfl)

end Sys2Proof.Machine
end

section
/-! Meters, upkeep, effects and registers keep the stores' form (R18, R351 to R378, R401 to R408). -/

namespace Sys2Proof.Machine

-- Meters, energy records and attestation (R351 to R357).

theorem Canon.addEnergy {s u n} (w : Canon s) : Canon (addEnergy s u n) := w.rest

theorem Canon.shareOut {s n ws} (w : Canon s) : Canon (shareOut s n ws) := by
  unfold Machine.shareOut
  dsimp only
  split
  · exact w.addEnergy
  · exact .addEnergy (w.fold fun _ _ w => w.addEnergy)

theorem Canon.assignEnergy {s d} (w : Canon s) : Canon (assignEnergy s d) := by
  unfold Machine.assignEnergy
  split <;> exact w.shareOut

theorem Canon.energyNotice {s page ctx} (w : Canon s) : Canon (energyNotice s page ctx) := w.postRec

theorem Canon.blockSlots {s page ctx va} (w : Canon s) : Canon (blockSlots s page ctx va) :=
  w.fold fun _ _ w => (w.sectorRead ..).hubSlot

theorem Canon.writeMeter_some {s t page ctx va bs} (w : Canon s) (h : writeMeter s page ctx va bs = some t) : Canon t := by
  unfold Machine.writeMeter at h
  dsimp only at h
  split at h
  · cases h
  · cases h
    refine w.fold fun s p w => ?_
    split
    · exact w.hubWrite
    · exact w

theorem Canon.answerMeter {s page ctx va busy} (w : Canon s) : Canon (answerMeter s page ctx va busy) := by
  unfold Machine.answerMeter
  dsimp only
  split
  · exact w.blockSlots.energyNotice
  · split
    · exact w.blockSlots.energyNotice
    · exact (w.blockSlots.writeMeter_some ‹_›).rest

theorem Canon.execEnreq {s page v} (w : Canon s) : CanonOut (execEnreq page v s) :=
  .next (.ite w (.ite w.energyNotice (.ite (.ite w.answerMeter w) w.setVf)))

theorem Canon.execEnctx {s vf v} (w : Canon s) : CanonOut (execEnctx vf v s) := .next (.ite w.setVf w)

theorem Canon.execEnergyRecord {s page} (w : Canon s) : CanonOut (execEnergyRecord page s) := by
  unfold Machine.execEnergyRecord
  refine .next ?_
  dsimp only
  split
  · exact w
  · exact .ite w.setVf.answerMeter w

theorem Canon.exportOne {s vf idx} (w : Canon s) : Canon (exportOne s vf idx) := w.rest

theorem Canon.execEnergyExport {s ctx} (w : Canon s) : CanonOut (execEnergyExport ctx s) := by
  unfold Machine.execEnergyExport
  refine .next ?_
  split
  · exact .ite (w.fold fun _ _ w => w.exportOne) w
  · exact w

theorem Canon.offerFirmware {s i image rsa slh} (w : Canon s) : Canon (offerFirmware s i image rsa slh) :=
  .ite w.rest w

-- Memory's upkeep, resets and readiness (R401 to R408).

theorem Canon.execPeqdataClr {s v} (w : Canon s) : CanonOut (execPeqdataClr v s) :=
  .next (.ite (w.of_eq rfl rfl rfl) w)

/-- A list of pages read by patrol is set (R404). -/
theorem Canon.setPatrolPages {s : State} {l : List Nat} (w : Canon s) :
    Canon { s with mem := { s.mem with patrolPages := l } } :=
  w.of_eq rfl rfl rfl

theorem Canon.execPatrolRead {s page} (w : Canon s) : CanonOut (execPatrolRead page s) := by
  have h : Canon ((List.range 2048).foldl (fun s i => (Machine.dramRead s (page * 2048 + i)).1) s) :=
    w.fold fun _ _ w => w.dramRead
  unfold Machine.execPatrolRead
  generalize (List.range 2048).foldl (fun s i => (Machine.dramRead s (page * 2048 + i)).1) s = t at h
  exact .next (.ite h.setPatrolPages w)

theorem Canon.patrolRest {s} (w : Canon s) : Canon (patrolRest s) := w.fold fun _ _ w => .ite w.dramRead w

theorem Canon.keptBytes_wf {s} (w : Canon s) : Memory.wf (keptBytes s) = true := by
  unfold Machine.keptBytes
  generalize s.mem.stale = l
  have h := w.memory
  generalize s.mem.bytes = m at h
  induction l generalizing m with
  | nil => exact h
  | cons e l ih =>
    rw [List.foldl_cons]
    split
    · exact ih _ (twf_tput _ _ h)
    · exact ih _ h

theorem Canon.execWarmReset {s} (w : Canon s) : CanonOut (execWarmReset s) := .next ⟨w.keptBytes_wf, rfl, rfl⟩

-- Effects and handlers (R360 to R378).

theorem Canon.execPerform {s p kind d a kw id} (w : Canon s) : CanonOut (execPerform p kind d a kw id s) := by
  unfold Machine.execPerform
  refine w.issue fun _ _ _ => .ite w.retire ?_
  split
  · exact w.trapHere
  · split
    · exact w.trapHere
    · refine .ite w.commit (.ite w.trapHere ?_)
      split
      · exact w.trapHere
      · exact w.commit

theorem Canon.execResume {s kt vs} (w : Canon s) : CanonOut (execResume kt vs s) := by
  unfold Machine.execResume
  refine w.issue fun _ _ _ => ?_
  split
  · exact w.trapHere
  · exact .ite w.trapHere w.setGang

theorem Canon.killSplit {s key i} (w : Canon s) : Canon (killSplit s key i) := by
  unfold Machine.killSplit
  split
  · exact w
  · split
    · exact w
    · exact w.modBlock.postRec.dropLanes

theorem Canon.defaultEffect {s key g sp id} (w : Canon s) : Canon (defaultEffect s key g sp id) :=
  .ite w.killSplit (.ite w.postRec w)

theorem Canon.dropHold {s key uid} (w : Canon s) : Canon (dropHold s key uid) := by
  unfold Machine.dropHold
  split
  · exact .ite w.setArray w
  · exact w

theorem Canon.deliverEffect {s key g sp e} (w : Canon s) : Canon (deliverEffect s key g sp e) := by
  unfold Machine.deliverEffect
  dsimp only
  refine .ite w.dropHold.commit ?_
  split
  · split
    · exact w.dropHold.commit.defaultEffect
    · exact w.dropHold.commit
  · exact w.dropHold.commit.defaultEffect

theorem Canon.execFwd {s kt va} (w : Canon s) : CanonOut (execFwd kt va s) := by
  unfold Machine.execFwd
  refine w.issue fun _ _ _ => ?_
  split
  · exact w.trapHere
  · refine .ite w.trapHere (.ite w.trapHere ?_)
    dsimp only
    split
    · split
      · exact w.trapHere
      · exact w.commit
    · refine .ite w.trapHere ?_
      split
      · exact w.trapHere
      · exact .ite w.trapHere (.ite w.commit.defaultEffect.modGang w.commit.defaultEffect.setGang)

theorem Canon.execTkdrop {s a} (w : Canon s) : CanonOut (execTkdrop a s) := by
  unfold Machine.execTkdrop
  refine w.issue fun _ _ _ => ?_
  split
  · exact w.trapHere
  · exact w.retire

theorem Canon.deliverNext {s key dog} (w : Canon s) : Canon (deliverNext s key dog) := by
  unfold Machine.deliverNext
  split
  · exact w
  · split
    · exact w
    · split
      · exact .ite w.deliverEffect w
      · exact w

-- Registers by offset (R358).

theorem Canon.after {s o} (w : Canon s) (h : CanonOut o) : Canon (after s o) := by
  cases o with
  | next t => exact h t rfl
  | fault => exact w
  | refused => exact w

theorem Canon.writePart {s p r v} (w : Canon s) : Canon (writePart s p r v) :=
  .ite w.setPart (.ite w.setPart (.ite (.ite w.noteCfg.setPart.goUrgent w.noteCfg.setPart) (.ite w.setPart w)))

theorem Canon.writeVf {s vf r v} (w : Canon s) : Canon (writeVf s vf r v) := by
  unfold Machine.writeVf
  dsimp only
  refine .ite (w.after w.execVpartWrite) ?_
  exact .ite (w.after w.execVpolWrite) (.ite w.noteCfg.setVf (.ite (w.after w.execFringWrite) (.ite w.setVf w)))

theorem Canon.writeQueue {s q r v} (w : Canon s) : Canon (writeQueue s q r v) := .ite w.setQueue w.setQueue

theorem Canon.writeWeirerr {s v} (w : Canon s) : Canon (writeWeirerr s v) := w.of_eq rfl rfl rfl

theorem Canon.writeCtxctl {s page v} (w : Canon s) : Canon (writeCtxctl s page v) := by
  unfold Machine.writeCtxctl
  dsimp only
  split
  · exact w
  · exact w.after w.execCtxctlResume
  · exact w.after w.execCtxctlSkip
  · exact w.after w.execCtxctlKill
  · exact w.after w.execCtxctlStop
  · exact w.after w.execCtxctlStart
  · exact w.after w.execCtxctlCreate
  · exact w.refusePage

theorem Canon.writeFaultPage {s page r v} (w : Canon s) : Canon (writeFaultPage s page r v) := by
  unfold Machine.writeFaultPage
  refine .ite (w.after w.execFheadWrite) (.ite (w.after w.execFstatWrite) ?_)
  refine .ite (w.after w.execFserve) ?_
  exact .ite w.writeCtxctl (.ite (w.after w.execFstatWrite) (.ite (w.after w.execLcancel) w))

/-- DTSEL is set (R347). -/
theorem Canon.setDtsel {s : State} {x : DWord} (w : Canon s) : Canon { s with pf := { s.pf with dtsel := x } } :=
  w.of_eq rfl rfl rfl

/-- The length of a patrol period is set (R404). -/
theorem Canon.setPeriod {s : State} {n : Nat} (w : Canon s) : Canon { s with mem := { s.mem with period := n } } :=
  w.of_eq rfl rfl rfl

theorem Canon.writeSingle {s off v} (w : Canon s) : Canon (writeSingle s off v) := by
  refine .ite (w.after w.execFringWrite) (.ite w.writeWeirerr (.ite (w.of_eq rfl rfl rfl) (.ite w.writeInvctl ?_)))
  refine .ite w.setDtsel (.ite (w.of_eq rfl rfl rfl) (.ite (w.of_eq rfl rfl rfl) (.ite (w.of_eq rfl rfl rfl) ?_)))
  exact .ite w.setPeriod (.ite (w.of_eq rfl rfl rfl) (.ite (w.after w.execPeqdataClr) w))

theorem Canon.execRegisterWrite {s off size v} (w : Canon s) : CanonOut (execRegisterWrite off size v s) := by
  unfold Machine.execRegisterWrite
  refine .next (.ite w ?_)
  refine .ite w.writeFaultPage (.ite (w.after w.execEnreq) ?_)
  refine .ite w.writeSingle (.ite w.writeVf ?_)
  exact .ite w.writePart (.ite w.writeQueue (.ite (w.after w.execFloorWrite) (.ite (w.of_eq rfl rfl rfl) w)))

end Sys2Proof.Machine
end

section
/-! Every step keeps the stores in their canonical form (O59): fetching, the choice of the gang that issues, what the surroundings
do, and every instruction. -/

namespace Sys2Proof.Machine

-- Fetching an instruction (R40 to R42, R65, R82 to R86).

theorem Canon.fillIcache {s b pc} (w : Canon s) : Canon (fillIcache s b pc) := by
  unfold Machine.fillIcache
  split
  · exact .ite w (((w.sectorRead ..).arrivalServed.chargeSlots ..).of_eq rfl rfl rfl)
  · exact w

theorem Canon.fetchTrap {s cause sub addrs} (w : Canon s) : CanonOut (fetchTrap s cause sub addrs) :=
  w.issue fun _ _ _ => w.takeTrap

theorem Canon.fetchWalk {s key b vpn} (w : Canon s) : Canon (fetchWalk s key b vpn) := w.startWalk.modGang

theorem Canon.fetchPark {s key g sp b stage page} (w : Canon s) : Canon (fetchPark s key g sp b stage page) :=
  w.postPage.modGang

theorem Canon.holdFetch {s key x} (w : Canon s) : Canon (holdFetch s key x) := by
  unfold Machine.holdFetch
  split
  · split
    · exact w.fetchWalk
    · exact w.fetchPark
    · exact w
  · exact w

theorem Canon.nextTurnOf {s} (w : Canon s) : Canon (nextTurnOf s).2 := by
  unfold Machine.nextTurnOf
  split
  · exact w.rest
  · exact w

-- The choice of the gang that issues (R158 to R162).

theorem Canon.look {s key} (w : Canon s) : Canon (look s key) := w.modGang

theorem Canon.arrange {s fresh key} (w : Canon s) : Canon (arrange s fresh key) := by
  unfold Machine.arrange
  refine .ite ?_ (.refill (w.fold fun _ _ w => w.look))
  split
  · exact .ite w w.setGang.refill
  · exact w

theorem Canon.passTime {s n} (w : Canon s) : Canon (passTime s n) := by
  unfold Machine.passTime
  split
  · exact w
  · exact .rest (w.rest.fold fun _ _ w => w.arrange)

theorem Canon.issuer {s key} (w : Canon s) : Canon (issuer s key) := by
  unfold Machine.issuer
  extract_lets t0 t1 t2
  have w1 : Canon t1 := w.arrange.rest
  have w2 : Canon t2 := by
    unfold t2
    split
    · split
      · exact w1.fillIcache
      · exact w1
    · exact w1
  split
  · exact .ite w2.modGang w2
  · exact w2

-- Register pages (R4, R358).

theorem Canon.mmioRead {s page off size} (w : Canon s) : Canon (mmioRead s page off size) :=
  .ite w (.rest (.ite (w.after w.execDtword) w))

theorem Canon.writeVfBar0 {s vf off size v} (w : Canon s) : Canon (writeVfBar0 s vf off size v) := by
  unfold Machine.writeVfBar0
  refine .ite w (.ite (w.after w.execKick) ?_)
  exact .ite w (.ite (w.after w.execEnreq) (.ite (w.after w.execEnctx) (.ite w.writeFaultPage w)))

-- What the surroundings do between steps.

theorem Canon.loadAhead {s key sector} (w : Canon s) : Canon (loadAhead s key sector) :=
  .ite (((w.arrivalServed.sectorRead ..).chargeSlots ..).rest) w

theorem Canon.setFull {s cluster full} (w : Canon s) : Canon (setFull s cluster full) := w.of_eq rfl rfl rfl

theorem Canon.setDevice {s n} (w : Canon s) : Canon (setDevice s n) := .ite w.rest w

theorem Canon.setDefer {s key on} (w : Canon s) : Canon (setDefer s key on) := w.modGang

-- Every instruction and every event, those of one shared operation together; then every turn of the agenda (log 2).

theorem Canon.exec {s i} (w : Canon s) : CanonOut (exec i s) := by
  unfold Machine.exec
  cases i with
  | nop | movk | ktov | vtok | ktom | mtok | mand | mor | mxor | mnot | mpopc | mfirst | setpri | tkstat | tfirst | vcmp
  | vcsub | fcmp | dqmx | fstat | ballot | vote | vlane | pair => exact w.localOp
  | bra | call => exact w.issue fun _ _ _ => w.commit
  | brc | brv => exact w.issue fun _ _ _ => .ite w.commit w.retire
  | addk | subk | mulk | mulhk | andk | ork | xork | shlk | shrk | sark | mink | maxk => exact w.kOp
  | addkImm | subkImm | mulkImm | mulhkImm | andkImm | orkImm | xorkImm | shlkImm | shrkImm | sarkImm | minkImm | maxkImm =>
    exact w.kOpImm
  | swrTwin | rcwin => exact w.issue fun _ _ _ => .ite w.trapHere w.retire.pushArray
  | swrRcstat | rcmode | rcgo | rcclr => exact w.issue fun _ _ _ => w.retire.pushArray
  | waitc | mwait => exact w.issueWhen fun _ _ _ => w.retire
  | sleep | mrel | mbatch => exact w.issue fun _ _ _ => w.retire
  | sleepExpiry | fairnessTimer | issueBoost => exact .next w.modGang
  | hpush | hpop => exact w.issue fun _ _ _ => .ite w.trapHere (.ite w.trapHere w.retire)
  | ld | st | atom | atomk | lr | sc => exact w.issue fun _ _ _ => w.sendReq
  | ldk | stk => exact w.issue fun _ _ _ => .ite w.sendEngine w.sendReq
  | copy | copyAdd => exact .next w.startBox
  | engineFault | poison => exact .next w.takePending
  | rld | rst | ratom => exact w.issueRemote fun _ _ _ => w.sendRemote
  | vadd | vsub | vmin | vmax | vabs | vneg | vmul | vmulh | vmad | vshl | vshr | vsar | vrot | vand | vor | vxor | vnot
  | vlop3 | vbfx | vbfi | vpopc | vclz | vbrev | vprmb | vsel | vmov | vmovi | vaddImm | vsubImm | vminImm | vmaxImm
  | vmulImm | vandImm | vorImm | vxorImm | vshlImm | vshrImm | vsarImm | vrotImm | vmulhImm | fadd | fsub | fmul | fmin
  | fmax | ffma | fclass | frnd | cvt | faddImm | fsubImm | fmulImm | fminImm | fmaxImm | ffmaImm | shfl => exact w.vecOp
  | frcp | frsq | fsqrt | fexp2 | flog2 | fsin | fcos | fdiv => exact w.longOp
  | qmx | matchLanes => exact w.issue fun _ _ _ => w.startLong
  | vred | vscan => exact w.redOp
  | evaluationEnd | resetEnd => exact .next w.endArray
  | watchdog | systemEffect => exact .next w.deliverNext
  | powerLimit | recalibration => exact .next (.ite (w.of_eq rfl rfl rfl) w)
  | exit => exact w.issue fun _ _ _ => .ite w.retire w.commit.dropLanes
  | brd => exact w.execBrd
  | ret => exact w.issue fun _ _ _ => .ite w.trapHere w.commit
  | merge => exact w.issue fun _ _ _ => w.mergeSplit
  | movx => exact w.execMovx
  | srd => exact .ite w.srdArray w.localOp
  | swr => exact w.execSwr
  | swrErrq => exact w.execSwrErrq
  | trap => exact w.issue fun _ _ _ => w.retire.takeTrap
  | bar => exact w.issue fun _ _ _ => .ite w.trapHere w.commit.checkBar
  | cjoin => exact w.execCjoin
  | cleave => exact w.execCleave
  | cbar => exact w.execCbar
  | yieldTurn => exact w.issue fun _ _ _ => w.retire.modGang.giveWay
  | perform => exact w.execPerform
  | resume => exact w.execResume
  | fwd => exact w.execFwd
  | tkdrop => exact w.execTkdrop
  | fence => exact w.issue fun _ _ _ => .retire (.ite w w.dropAhead)
  | pref => exact w.execPref
  | twait => exact w.execTwait
  | tclr => exact w.execTclr
  | gset => exact w.issue fun _ _ _ => w.retire.recordGuards
  | launch => exact w.execLaunch
  | signal => exact w.execSignal
  | boxComplete => exact w.execBoxComplete
  | commandComplete => exact .next w.tryComplete
  | rfence => exact w.issueWhen fun _ _ _ => .ite w.modGang.trapHere w.dropAhead.retire
  | remoteRequest => exact .next w.takeRemote
  | remoteResponse => exact w.execRemoteResponse
  | planeDead => exact .next w.killPlane
  | epilogue => exact .next (.ite w w.unsend.rest.moveCredit.finishRepair.sendWaiting)
  | peerLost => exact .next (.ite w (w.noteUnsent.rest.fold fun _ _ w => w.takeStatus))
  | linkTraining => exact .next (.ite w.rest.rest.sendWaiting w.rest.rest.killLink)
  | launchPacket => exact w.execLaunchPacket
  | mres => exact w.execMres
  | mld => exact w.execMld
  | multicastDelivery => exact w.execMulticastDelivery
  | mgath => exact w.execMgath
  | mma => exact w.execMma
  | batchComplete => exact w.execBatchComplete
  | aclr => exact w.execAclr
  | ard => exact w.execArd
  | awr => exact w.execAwr
  | ast => exact w.execAst
  | rcld => exact w.execRcld
  | rccap => exact w.issue fun _ _ _ => w.rest.retire.pushArray
  | kick => exact w.execKick
  | takeEntry => exact w.execTakeEntry
  | waitConditionPoll => exact .next (.ite (w.fold fun _ _ w => w.pollOne) w)
  | placement => exact w.execPlacement
  | regionStaging => exact w.execRegionStaging
  | gangStart => exact w.execGangStart
  | blockRetire => exact w.execBlockRetire
  | walkComplete => exact w.execWalkComplete
  | loadDataReturn => exact .next w.returnSector
  | requestPerform => exact w.execRequestPerform
  | holdLimitExpiry => exact w.execHoldLimitExpiry
  | backoffExpiry => exact w.execBackoffExpiry
  | slotFreeReissue => exact w.execSlotFreeReissue
  | parkLimitExpiry => exact .next w.parkOut
  | blockReturn => exact w.execBlockReturn
  | entryBoost => exact w.execEntryBoost
  | faultRecordWrite => exact w.execFaultRecordWrite
  | fheadWrite => exact w.execFheadWrite
  | fringWrite => exact w.execFringWrite
  | fserve => exact w.execFserve
  | ctxctlResume => exact w.execCtxctlResume
  | ctxctlSkip => exact w.execCtxctlSkip
  | ctxctlKill => exact w.execCtxctlKill
  | ctxctlStop => exact w.execCtxctlStop
  | ctxctlStart => exact w.execCtxctlStart
  | ctxctlCreate => exact w.execCtxctlCreate
  | lcancel => exact w.execLcancel
  | restore => exact w.execRestore
  | shadowSwap => exact w.execShadowSwap
  | flipComplete => exact w.execFlipComplete
  | spillComplete => exact w.execSpillComplete
  | fillComplete => exact w.execFillComplete
  | urgent => exact .next (.ite w.goUrgent w)
  | turnStart => exact w.execTurnStart
  | sliceEnd => exact w.execSliceEnd
  | drainLimitExpiry => exact w.execDrainLimitExpiry
  | roundEnd => exact .next (.ite w w.setPart)
  | quantExpiry => exact w.execQuantExpiry
  | vpartWrite => exact w.execVpartWrite
  | vpolWrite => exact w.execVpolWrite
  | floorWrite => exact w.execFloorWrite
  | registerWrite => exact w.execRegisterWrite
  | weirWindow => exact .next (.ite (.of_eq (w.fold fun _ _ w => w.settleDeficit) rfl rfl rfl) w)
  | invctlGo => exact .next w.writeInvctl
  | invalidationDone => exact w.execInvalidationDone
  | dtword => exact w.execDtword
  | enreq => exact w.execEnreq
  | enctx => exact w.execEnctx
  | energyRecord => exact w.execEnergyRecord
  | meterInterval => exact .next (.ite w (.rest (.fold (w.fold fun _ _ w => w.creditTime) fun _ _ w => w.assignEnergy)))
  | energyImport => exact .next (.ite w.addEnergy.rest w.rest)
  | peqdataClr => exact w.execPeqdataClr
  | patrolRead => exact w.execPatrolRead
  | scrubPeriod => exact .next (.ite (w.patrolRest.of_eq rfl rfl rfl) w)
  | warmReset => exact w.execWarmReset
  | coldReset => exact .next (reset_canon.of_eq rfl rfl rfl)
  | readiness => exact .next (.ite w (.ite (w.of_eq rfl rfl rfl) (w.of_eq rfl rfl rfl)))
  | functionLevelReset => exact .next (.ite w (.fold (w.fold fun _ _ w => w.killCtx) fun _ _ w => w.setQueue))
  | illegalInstruction => exact w.issueWhen fun _ _ _ => w.takeTrap
  | longLatencyComplete => exact w.execLongLatencyComplete
  | peerReachable => exact .next (.ite w.rest.sendWaiting w)
  | energyExport => exact w.execEnergyExport
  | spdmRequest => exact .next (.ite w (.ite w.rest w.rest))
  | fstatWrite => exact w.execFstatWrite

theorem Canon.turnStep {s t} (w : Canon s) : CanonOut (turnStep s t) := by
  unfold Machine.turnStep
  split
  · exact .next w.passTime
  · exact .next (w.lineLeaves ..)
  · exact .next (w.symbolsFail ..)
  · exact .next (w.hostWrite ..)
  · exact .next (w.hostRead ..)
  · exact .next (w.writeBackLine ..)
  · exact .next w.mmioRead
  · exact .next w.writeVfBar0
  · exact .next (.ite w.advanceSector w.advanceWay)
  · exact .next w.loadAhead
  · exact .next w.copyWords
  · exact .next w.readWords
  · exact .next w.fetchWords
  · exact .next w.deliverWords
  · exact .next w.performLanes
  · exact .next w.setFull
  · exact .next w.setDefer
  · exact .next w.offerFirmware
  · exact .next w.setDevice
  · exact .next w.setLink
  · exact .next w.holdRemote
  · exact .next w.importArea
  · exact .ite w.exec (.next w)
  · refine .ite ?_ (.next w.issuer)
    split
    · exact w.issuer.exec
    · exact w.issuer.fetchTrap
    · exact .next w.issuer.holdFetch

theorem Canon.step {s} (w : Canon s) : CanonOut (step s) := w.nextTurnOf.turnStep

/-- Settles O59, by the operations that a step is made of: each keeps the form of a canonical state. -/
theorem stepKeepsStores : Obligations.StepKeepsStores := fun _ t w h => w.step t h

end Sys2Proof.Machine
end

section
/-! Every step keeps gangs numbered by their blocks (O60), operation by operation in the order of the model, as for the stores'
form (O59). Here what an entry of a table comes from, the parts of the state, and memory: of a gang's entry only its key and its
block count, of a launch's only its lanes. -/

namespace Sys2Proof.Machine

-- One proof at a time, here and below: proofs that wait for the kernel together hold a stack each.
set_option Elab.async false

-- What an entry of a table comes from.

theorem mem_tentries_iff {α : Type} {t : Tab (Option α)} {e : Nat × α} : e ∈ tentries t ↔ (e.1, some e.2) ∈ t := by
  simp only [tentries, List.mem_filterMap, Option.map_eq_some_iff]
  constructor
  · rintro ⟨⟨k, o⟩, hm, x, rfl, rfl⟩
    exact hm
  · exact fun h => ⟨_, h, e.2, rfl, rfl⟩

/-- An entry after a write is the one written, or was there before. -/
theorem mem_tentries_tput {α : Type} [DecidableEq α] {t : Tab (Option α)} {k : Nat} {v : Option α} {e : Nat × α}
    (h : e ∈ tentries (tput none t k v)) : (e.1 = k ∧ v = some e.2) ∨ e ∈ tentries t := by
  rw [mem_tentries_iff] at h ⊢
  unfold tput at h
  split at h
  · exact .inr (mem_of_mem_tdel t k h)
  · rcases mem_tins _ k v h with e | h
    · injection e with h1 h2
      exact .inl ⟨h1, h2.symm⟩
    · exact .inr (mem_of_mem_tdel t k h)

/-- An entry of a table that was changed entry by entry comes from an entry. -/
theorem mem_tentries_map {α : Type} {t : Tab (Option α)} {h : Nat × Option α → Nat × Option α} {e : Nat × α}
    (h0 : ∀ k, (h (k, none)).2 = none) (he : e ∈ tentries (t.map h)) :
    ∃ k y, (k, y) ∈ tentries t ∧ h (k, some y) = (e.1, some e.2) := by
  rw [mem_tentries_iff] at he
  obtain ⟨⟨k, o⟩, hm, hh⟩ := List.mem_map.mp he
  cases o with
  | none => exact absurd (h0 k) (by rw [hh]; exact Option.some_ne_none _)
  | some y => exact ⟨k, y, mem_tentries_iff.mpr hm, hh⟩

theorem mem_tentries_filter {α : Type} {t : Tab (Option α)} {p : Nat × Option α → Bool} {e : Nat × α}
    (h : e ∈ tentries (t.filter p)) : e ∈ tentries t :=
  mem_tentries_iff.mpr (List.mem_of_mem_filter (mem_tentries_iff.mp h))

theorem block_ite {c : Prop} {dec : Decidable c} {g h : Gang} {n : Nat} (hg : g.block = n) (hh : h.block = n) :
    (if c then g else h).block = n := by split <;> assumption

theorem foldl_block {α : Type} {f : Gang → α → Gang} (h : ∀ g x, (f g x).block = g.block) (l : List α) (g : Gang) :
    (l.foldl f g).block = g.block := by
  induction l generalizing g with
  | nil => rfl
  | cons x r ih => exact (ih (f g x)).trans (h g x)

theorem turnTo_block (g : Gang) (uid : Nat) : (g.turnTo uid).block = g.block := by
  unfold Gang.turnTo
  split <;> rfl

theorem kset_block (g : Gang) (d : Nat) (v : DWord) : (g.kset d v).block = g.block := rfl

theorem writeDest_block (g : Gang) (d : Dest) (l : Nat) (v : DWord) : (writeDest g d l v).block = g.block := by
  unfold writeDest
  split <;> rfl

-- The two facts that `Keyed` holds of gangs and of launches.

/-- A launch's blocks have at most 1024 lanes (R25). -/
def LanesOk (l : Launch) : Prop := ∀ r, l.body = some r → (r.bx + 1) * (r.bky + 1) * (r.bz + 1) ≤ 1024

theorem lanesOk_of_none {l : Launch} (h : l.body = none) : LanesOk l := fun r hr => by rw [h] at hr; cases hr

/-- A gang that is found is numbered by its block. -/
theorem Keyed.key {s k g} (w : Keyed s) (h : s.gang? k = some g) : k / 16 = g.block := w.gangs _ (mem_tentries_of_tget h)

theorem Keyed.lanesOk {s u l} (w : Keyed s) (h : s.launch? u = some l) : LanesOk l := w.lanes _ (mem_tentries_of_tget h)

-- A state and an answer that keep them.

/-- An answer of the model keeps the numbering: in the state that it gives, where it gives one, gangs are numbered by their blocks. -/
def KeyedOut (o : Out) : Prop := ∀ t, o = .next t → Keyed t

theorem KeyedOut.next {t : State} (w : Keyed t) : KeyedOut (.next t) := fun _ e => by cases e; exact w

theorem KeyedOut.fault {f : Fault} : KeyedOut (.fault f) := fun _ e => by cases e

theorem KeyedOut.ite {c : Prop} {dec : Decidable c} {a b : Out} (ha : KeyedOut a) (hb : KeyedOut b) :
    KeyedOut (if c then a else b) := by split <;> assumption

theorem Keyed.ite {c : Prop} {dec : Decidable c} {s t : State} (hs : Keyed s) (ht : Keyed t) :
    Keyed (if c then s else t) := by split <;> assumption

theorem Keyed.ite_fst {β : Type} {c : Prop} {dec : Decidable c} {p q : State × β} (hp : Keyed p.1) (hq : Keyed q.1) :
    Keyed (if c then p else q).1 := by split <;> assumption

theorem Keyed.foldl {α : Type} {f : State → α → State} (hf : ∀ s x, Keyed s → Keyed (f s x)) {s : State} (w : Keyed s) (l : List α) :
    Keyed (l.foldl f s) := by
  induction l generalizing s with
  | nil => exact w
  | cons x r ih => exact ih (hf s x w)

theorem Keyed.fold {α : Type} {f : State → α → State} {s : State} {l : List α} (w : Keyed s)
    (hf : ∀ s x, Keyed s → Keyed (f s x)) : Keyed (l.foldl f s) := w.foldl hf l

/-- A fold over the elements of a list of which something is known. -/
theorem Keyed.fold_mem {α : Type} {f : State → α → State} {s : State} {l : List α} (w : Keyed s)
    (hf : ∀ s, ∀ x ∈ l, Keyed s → Keyed (f s x)) : Keyed (l.foldl f s) := by
  induction l generalizing s with
  | nil => exact w
  | cons x r ih => exact ih (hf s x (.head _) w) fun s y hy => hf s y (.tail _ hy)

/-- A fold over a state and what is gathered beside it. -/
theorem Keyed.fold_fst {α β : Type} {f : State × β → α → State × β} {q : State × β} {l : List α} (w : Keyed q.1)
    (hf : ∀ q x, Keyed q.1 → Keyed (f q x).1) : Keyed (l.foldl f q).1 := by
  induction l generalizing q with
  | nil => exact w
  | cons x r ih => exact ih (hf q x w)

/-- A state with the same gangs, launches and save areas is numbered as before. -/
theorem Keyed.of_eq {s t : State} (w : Keyed s) (g : t.gangs = s.gangs) (l : t.launches = s.launches) (a : t.areas = s.areas)
    (i : t.imports = s.imports) : Keyed t :=
  ⟨g ▸ w.gangs, l ▸ w.lanes, a ▸ w.savedGangs, a ▸ w.savedLanes, i ▸ w.importGangs, i ▸ w.importLanes⟩

/-- What is no gang, launch or save area may change in any way. -/
theorem Keyed.rest {s : State} (w : Keyed s)
    {agenda cycle uid cur mem tlb walks core blocks ctxs reqs longs cmds rreqs deliveries queues rings vfs parts waits aged pf
     fab energy engOps ahead mmioOut leftAt} :
    Keyed { gangs := s.gangs, launches := s.launches, areas := s.areas, imports := s.imports, agenda, cycle, uid, cur, mem, tlb,
            walks, core, blocks, ctxs, reqs, longs, cmds, rreqs, deliveries, queues, rings, vfs, parts, waits, aged, pf, fab,
            energy, engOps, ahead, mmioOut, leftAt } := w.of_eq rfl rfl rfl rfl

/-- Gangs changed in place that stay with their blocks, and anything but launches and save areas. -/
theorem Keyed.gangsMap {s t : State} (w : Keyed s) {h : Nat × Option Gang → Nat × Option Gang} (g : t.gangs = s.gangs.map h)
    (l : t.launches = s.launches) (a : t.areas = s.areas) (i : t.imports = s.imports) (h0 : ∀ k, (h (k, none)).2 = none)
    (h1 : ∀ k x, ∃ y, h (k, some x) = (k, some y) ∧ y.block = x.block) : Keyed t where
  gangs := fun e he => by
    rw [g] at he
    obtain ⟨k, x, hx, hh⟩ := mem_tentries_map h0 he
    obtain ⟨y, hy, hb⟩ := h1 k x
    rw [hy] at hh
    injection hh with e1 e2
    injection e2 with e2
    rw [← e1, ← e2, hb]
    exact w.gangs _ hx
  lanes := l ▸ w.lanes
  savedGangs := a ▸ w.savedGangs
  savedLanes := a ▸ w.savedLanes
  importGangs := i ▸ w.importGangs
  importLanes := i ▸ w.importLanes

/-- Launches changed in place whose records stay. -/
theorem Keyed.launchesMap {s t : State} (w : Keyed s) {h : Nat × Option Launch → Nat × Option Launch}
    (l : t.launches = s.launches.map h) (g : t.gangs = s.gangs) (a : t.areas = s.areas) (i : t.imports = s.imports)
    (h0 : ∀ k, (h (k, none)).2 = none) (h1 : ∀ k x, ∃ y, h (k, some x) = (k, some y) ∧ y.body = x.body) : Keyed t where
  gangs := g ▸ w.gangs
  lanes := fun e he => by
    rw [l] at he
    obtain ⟨k, x, hx, hh⟩ := mem_tentries_map h0 he
    obtain ⟨y, hy, hb⟩ := h1 k x
    rw [hy] at hh
    injection hh with e1 e2
    injection e2 with e2
    rw [← e2, hb]
    exact w.lanes _ hx
  savedGangs := a ▸ w.savedGangs
  savedLanes := a ▸ w.savedLanes
  importGangs := i ▸ w.importGangs
  importLanes := i ▸ w.importLanes

-- The parts of the state. The side conditions are those of the callers' gangs, most by computation.

theorem Keyed.setGang {s k g} (w : Keyed s) (h : k / 16 = g.block := by assumption) : Keyed (s.setGang k g) :=
  { w with
    gangs := fun e he => by
      rcases mem_tentries_tput (t := s.gangs) (v := some g) he with ⟨rfl, e2⟩ | he
      · injection e2 with e2
        exact e2 ▸ h
      · exact w.gangs e he }

theorem Keyed.modGang {s k f} (w : Keyed s) (hf : ∀ g, (f g).block = g.block := by exact fun _ => rfl) :
    Keyed (s.modGang k f) := by
  unfold Machine.State.modGang
  split
  · next g hg => exact w.setGang ((w.key hg).trans (hf g).symm)
  · exact w

/-- A launch put in its place or taken out, and anything but gangs and save areas changed. -/
theorem Keyed.putLaunch {s t u v} (w : Keyed s) (h : ∀ x ∈ v, LanesOk x) (l : t.launches = tput none s.launches u v)
    (g : t.gangs = s.gangs) (a : t.areas = s.areas) (i : t.imports = s.imports) : Keyed t where
  gangs := g ▸ w.gangs
  lanes := fun e he => by
    rw [l] at he
    rcases mem_tentries_tput he with ⟨-, hv⟩ | he
    · exact h _ (hv ▸ rfl)
    · exact w.lanes e he
  savedGangs := a ▸ w.savedGangs
  savedLanes := a ▸ w.savedLanes
  importGangs := i ▸ w.importGangs
  importLanes := i ▸ w.importLanes

theorem Keyed.setLaunch {s u l} (w : Keyed s) (h : LanesOk l) : Keyed (s.setLaunch u l) :=
  w.putLaunch (forall_mem_some h) rfl rfl rfl rfl

theorem Keyed.setBlock {s b x} (w : Keyed s) : Keyed (s.setBlock b x) := w.rest

theorem Keyed.setCtx {s c x} (w : Keyed s) : Keyed (s.setCtx c x) := w.rest

theorem Keyed.setReq {s u x} (w : Keyed s) : Keyed (s.setReq u x) := w.rest

theorem Keyed.setLong {s u x} (w : Keyed s) : Keyed (s.setLong u x) := w.rest

theorem Keyed.setCmd {s u x} (w : Keyed s) : Keyed (s.setCmd u x) := w.rest

theorem Keyed.setRreq {s u x} (w : Keyed s) : Keyed (s.setRreq u x) := w.rest

theorem Keyed.setEngOp {s u x} (w : Keyed s) : Keyed (s.setEngOp u x) := w.rest

theorem Keyed.modBlock {s b f} (w : Keyed s) : Keyed (s.modBlock b f) := by
  unfold Machine.State.modBlock
  split
  · exact w.setBlock
  · exact w

theorem Keyed.modCtx {s c f} (w : Keyed s) : Keyed (s.modCtx c f) := by
  unfold Machine.State.modCtx
  split
  · exact w.setCtx
  · exact w

theorem Keyed.modReq {s u f} (w : Keyed s) : Keyed (s.modReq u f) := by
  unfold Machine.State.modReq
  split
  · exact w.setReq
  · exact w

theorem Keyed.setVf {s v x} (w : Keyed s) : Keyed (s.setVf v x) := w.rest

theorem Keyed.setPart {s p x} (w : Keyed s) : Keyed (s.setPart p x) := w.rest

theorem Keyed.setRing {s r x} (w : Keyed s) : Keyed (s.setRing r x) := w.rest

theorem Keyed.setQueue {s q x} (w : Keyed s) : Keyed (s.setQueue q x) := w.rest

theorem Keyed.setCrew {s k x} (w : Keyed s) : Keyed (s.setCrew k x) := w.rest

theorem Keyed.setArray {s c x} (w : Keyed s) : Keyed (s.setArray c x) := w.rest

-- Memory, the caches and what a write does.

theorem Keyed.setByte {s : State} (w : Keyed s) (a : Nat) (x : Byte) : Keyed (s.setByte a x) := w.rest

theorem Keyed.setSbyte {s : State} (w : Keyed s) (a : Nat) (x : Byte) : Keyed (s.setSbyte a x) := w.rest

theorem Keyed.setLbyte {s : State} (w : Keyed s) (l : Loc) (i : Nat) (x : Byte) : Keyed (s.setLbyte l i x) := by
  unfold State.setLbyte
  split
  · exact w.setSbyte ..
  · exact w.setByte ..

theorem Keyed.writeBytes {s : State} (w : Keyed s) (a : Nat) (l : List Byte) : Keyed (s.writeBytes a l) := by
  induction l generalizing s a with
  | nil => exact w
  | cons b r ih => exact ih (w.setByte a b) (a + 1)

theorem Keyed.writePhys {s : State} (w : Keyed s) (a n v : Nat) : Keyed (s.writePhys a n v) := by
  induction n generalizing s a v with
  | zero => exact w
  | succ n ih => exact ih (w.setByte a _) (a + 1) (v / 256)

theorem Keyed.writeLoc {s : State} (w : Keyed s) (l : Loc) (i n v : Nat) : Keyed (s.writeLoc l i n v) := by
  induction n generalizing s i v with
  | zero => exact w
  | succ n ih => exact ih (w.setLbyte l i _) (i + 1) (v / 256)

theorem Keyed.writeScr {s : State} (w : Keyed s) (a : Nat) (l : List Byte) : Keyed (s.writeScr a l) := by
  induction l generalizing s a with
  | nil => exact w
  | cons b r ih => exact ih (w.setSbyte a b) (a + 1)

theorem Keyed.clearPoison {s : State} (w : Keyed s) (sec : Nat) : Keyed (clearPoison s sec) := w.rest

-- Charges and the caches change no byte.

theorem Keyed.chargeUser {s : State} (w : Keyed s) (u a n : Nat) : Keyed (chargeUser s u a n) := by
  unfold Sys2Proof.Machine.chargeUser
  dsimp only
  split <;> exact w.rest

theorem Keyed.writeBackL1 {s : State} (w : Keyed s) (line : Nat) (x : L1Line) : Keyed (writeBackL1 s line x) := w.chargeUser ..

theorem Keyed.setL1 {s : State} (w : Keyed s) (core line : Nat) (x : Option L1Line) : Keyed (s.setL1 core line x) :=
  w.rest

theorem Keyed.recallOwned {s : State} (w : Keyed s) (line : Nat) : Keyed (recallOwned s line) := by
  refine w.foldl (fun s e w => ?_) _
  repeat' split
  all_goals first | exact w | exact w.setL1 .. | exact (w.writeBackL1 ..).setL1 ..

theorem Keyed.clearCoreLine {s : State} (w : Keyed s) (core line : Nat) : Keyed (clearCoreLine s core line) :=
  w.gangsMap rfl rfl rfl rfl (fun _ => rfl) fun _ _ => ⟨_, rfl, by refine block_ite ?_ ?_ <;> rfl⟩

theorem Keyed.dropCopies {s : State} (w : Keyed s) (line : Nat) (keep : Option Nat) : Keyed (dropCopies s line keep) := by
  unfold Sys2Proof.Machine.dropCopies
  refine Keyed.of_eq (w.foldl (fun s e w => ?_) _) rfl rfl rfl rfl
  split
  · refine Keyed.clearCoreLine ?_ ..
    split <;> first | exact w.setL1 .. | exact (w.writeBackL1 ..).setL1 ..
  · exact w

theorem Keyed.storeSector {s : State} (w : Keyed s) (sec : Nat) : Keyed (storeSector s sec) := w.rest

theorem Keyed.chargeSlots {s : State} (w : Keyed s) (ctx core a n : Nat) : Keyed (chargeSlots s ctx core a n) :=
  ((w.chargeUser ..).recallOwned _).storeSector _

theorem Keyed.clearLine {s : State} (w : Keyed s) (line : Nat) : Keyed (clearLine s line) :=
  w.gangsMap rfl rfl rfl rfl (fun _ => rfl) fun _ _ => ⟨_, rfl, rfl⟩

theorem Keyed.putByte {s : State} (w : Keyed s) (a : Nat) (x : Byte) : Keyed (putByte s a x) := w.rest

theorem Keyed.sectorRead {s : State} (w : Keyed s) (sec : Nat) : Keyed (sectorRead s sec).1 := by
  unfold Sys2Proof.Machine.sectorRead dramRead
  dsimp only
  exact .ite_fst w (.ite_fst w.rest (.ite_fst w.rest (.ite_fst w.rest w)))

/-- A write at the home, sector by sector. -/
theorem Keyed.writeSector {s : State} (w : Keyed s) (a : Nat) (bs : List Byte) (sec : Nat) : Keyed (writeSector s a bs sec) := by
  unfold Sys2Proof.Machine.writeSector
  dsimp only
  have go : ∀ x : State × Bool, Keyed x.1 → ∀ line lo l sec,
      Keyed (if x.2 = true then x.1 else Sys2Proof.Machine.clearLine (Sys2Proof.Machine.storeSector
        ((Sys2Proof.Machine.dropCopies x.1 (sec / 4) none).writeBytes lo l) sec) line) := fun x h line lo l sec => by
    split
    · exact h
    · exact (((h.dropCopies ..).writeBytes ..).storeSector _).clearLine _
  refine go _ ?_ _ _ _ sec
  split
  · exact w.clearPoison _
  · exact w.sectorRead _

theorem Keyed.writeHome {s : State} (w : Keyed s) (a : Nat) (bs : List Byte) : Keyed (writeHome s a bs) :=
  w.foldl (fun _ sec w => w.writeSector a bs sec) _

theorem Keyed.markDirty {s : State} (w : Keyed s) (c a : Nat) : Keyed (markDirty s c a) := by
  unfold Sys2Proof.Machine.markDirty
  split
  · exact w
  · dsimp only
    split
    · exact w.writeHome ..
    · exact w

theorem Keyed.writeElem {s : State} (w : Keyed s) (l : Loc) (size v : Nat) : Keyed (writeElem s l size v) := by
  unfold Sys2Proof.Machine.writeElem
  dsimp only
  split
  · exact (w.writeLoc ..).clearLine _
  · exact ((w.writeLoc ..).clearLine _).markDirty ..

theorem Keyed.readWord {s : State} (w : Keyed s) (x : CopyWord) : Keyed (readWord s x).1 := by
  unfold Sys2Proof.Machine.readWord
  split
  · exact w
  · split
    · exact w
    · exact w.recallOwned _

theorem Keyed.writeWords {s : State} (w : Keyed s) (add : Option Ty) (l : List CopyWord) : Keyed (writeWords add s l) := by
  induction l generalizing s with
  | nil => exact w
  | cons x r ih =>
    refine ih (Keyed.writeElem ?_ ..)
    split
    · exact w.readWord x
    · exact (w.readWord x).dropCopies ..

theorem Keyed.putRange {s : State} (w : Keyed s) (base len : Nat) (e : List (Nat × Byte)) : Keyed (putRange s base len e) := by
  unfold Sys2Proof.Machine.putRange
  dsimp only
  refine Keyed.foldl (fun s x w => w.putByte _ x.2) ?_ e
  exact w.rest

theorem Keyed.lineLeaves {s : State} (w : Keyed s) (core line : Nat) : Keyed (lineLeaves s core line) := by
  unfold Sys2Proof.Machine.lineLeaves
  dsimp only
  repeat' split
  · exact (w.setL1 core line none).clearCoreLine ..
  · next x _ _ => exact ((w.writeBackL1 line x).setL1 core line none).clearCoreLine ..
  · exact w.clearCoreLine ..

theorem Keyed.writeBackLine {s : State} (w : Keyed s) (line : Nat) : Keyed (writeBackLine s line) := w.rest

theorem Keyed.symbolsFail {s : State} (w : Keyed s) (sec n : Nat) : Keyed (symbolsFail s sec n) := by
  unfold Sys2Proof.Machine.symbolsFail
  split
  · exact w.rest
  · exact w

theorem Keyed.hostWrite {s : State} (w : Keyed s) (a : Nat) (bs : List Byte) : Keyed (hostWrite s a bs) := by
  unfold Sys2Proof.Machine.hostWrite
  split
  · exact w
  · refine w.foldl (fun s sec w => ?_) _
    unfold hostSector
    split
    · exact (w.chargeUser _ _ _).writeSector ..
    · exact w

theorem Keyed.hostRead {s : State} (w : Keyed s) (a n : Nat) : Keyed (hostRead s a n) := by
  unfold Sys2Proof.Machine.hostRead
  split
  · exact w
  · refine w.foldl (fun s sec w => ?_) _
    split
    · exact (((w.sectorRead sec).recallOwned _).chargeUser _ _ _).storeSector _
    · exact w

end Sys2Proof.Machine
end

section
/-! Fault records, traps and the prologue of every instruction keep gangs numbered by their blocks (R65, R379 to R387). -/

namespace Sys2Proof.Machine

set_option Elab.async false

theorem Keyed.countSpill {s core ctx n} (w : Keyed s) : Keyed (countSpill s core ctx n) := w.rest

theorem Keyed.dramRead {s sec} (w : Keyed s) : Keyed (dramRead s sec).1 := by
  unfold Machine.dramRead
  dsimp only
  exact .ite_fst w.rest (.ite_fst w.rest (.ite_fst w.rest w))

theorem Keyed.carryLink {s link ctx core} (w : Keyed s) : Keyed (carryLink s link ctx core) := w.rest

theorem Keyed.settleCmd {s u c} (w : Keyed s) : Keyed (settleCmd s u c) :=
  .setCmd (w.fold fun _ _ w => w.writeWords ..)

theorem Keyed.settleCmds {s n} (w : Keyed s) : Keyed (settleCmds s n) := w.fold fun _ _ w => w.settleCmd

-- Fault records, traps and the prologue (R65, R379 to R383).

theorem Keyed.bumpSeqs {s ring seqs} (w : Keyed s) : Keyed (bumpSeqs s ring seqs) :=
  .ite w (w.gangsMap rfl rfl rfl rfl (fun _ => rfl) fun _ _ => ⟨_, rfl, rfl⟩)

theorem Keyed.postRec {s ring r} (w : Keyed s) : Keyed (postRec s ring r) := .ite w.setRing w.bumpSeqs.setRing

theorem Keyed.notice {s ring ctx cause sub aux addrs} (w : Keyed s) : Keyed (notice s ring ctx cause sub aux addrs) :=
  w.postRec

theorem Keyed.setTile {s k block t} (w : Keyed s) : Keyed (s.setTile k block t) := w.rest

theorem Keyed.setObyte {s k x} (w : Keyed s) : Keyed (s.setObyte k x) := w.rest

theorem Keyed.departs {s f} (w : Keyed s) : Keyed (departs s f) := w.fold fun _ _ w => .ite w w.rest

theorem Keyed.bounceSwap {s f} (w : Keyed s) : Keyed (bounceSwap s f) := w.departs.rest

theorem Keyed.clearWays {s n} (w : Keyed s) : Keyed (clearWays s n) := w.departs.rest

theorem Keyed.bouncePeer {s n} (w : Keyed s) : Keyed (bouncePeer s n) := by
  unfold Machine.bouncePeer
  split
  · exact w
  · exact w.bounceSwap

theorem Keyed.bounceRest {s n} (w : Keyed s) : Keyed (bounceRest s n) := w.bounceSwap.rest

theorem Keyed.unageAll {s f} (w : Keyed s) : Keyed (unageAll s f) := w.rest

theorem Keyed.unage {s u} (w : Keyed s) : Keyed (unage s u) := w.unageAll

theorem Keyed.ageAt {s key u n} (w : Keyed s) : Keyed (ageAt s key u n) := .ite w w.unage.rest

theorem Keyed.dropAhead {s f} (w : Keyed s) : Keyed (dropAhead s f) := w.rest

theorem Keyed.loseSlots {s f} (w : Keyed s) : Keyed (loseSlots s f) := w.rest

theorem Keyed.unbar {s ctx} (w : Keyed s) : Keyed (unbar s ctx) :=
  w.launchesMap rfl rfl rfl rfl (fun _ => rfl) fun _ _ => ⟨_, rfl, by dsimp only; split <;> rfl⟩

theorem Keyed.freeArray {s n b} (w : Keyed s) : Keyed (freeArray s n b) := .ite w.setArray w

theorem Keyed.freeStores {s n b img} (w : Keyed s) : Keyed (freeStores s n b img) :=
  w.freeArray.rest

theorem Keyed.saveEntries {s n ph} (w : Keyed s) : Keyed (saveEntries s n ph) :=
  .clearWays (.ite w.bounceRest w.bouncePeer)

theorem Keyed.swapOut {s n ph} (w : Keyed s) : Keyed (swapOut s n ph) := by
  unfold Machine.swapOut
  split
  · exact w
  · refine .ite ?_ ?_
    · exact .setBlock (.ite (.bounceRest (.ite w.freeArray w)) (.ite w.freeArray w))
    · exact w.saveEntries.settleCmds.loseSlots.dropAhead.freeStores.setBlock.unbar.fold fun _ _ w => w.modGang

theorem Keyed.takeTrap {s key cause sub aux lanes addrs skip} (w : Keyed s) :
    Keyed (takeTrap s key cause sub aux lanes addrs skip) := by
  unfold Machine.takeTrap
  split
  · exact w
  · next g hg =>
    have hk : key / 16 = g.block := w.key hg
    split
    · exact w
    · exact Keyed.modCtx (.swapOut (w.postRec.setGang hk))

theorem Keyed.countRead {s ctx} (w : Keyed s) : Keyed (countRead s ctx) := w.modCtx

theorem switchSplit_block (g : Gang) : (switchSplit g).block = g.block := by
  unfold switchSplit
  split <;> rfl

theorem Keyed.settleRead {s key ctx} (w : Keyed s) : Keyed (settleRead s key ctx) := by
  unfold Machine.settleRead
  split
  · exact w
  · exact w.countRead
  · exact w.modGang

theorem Keyed.countDue {s key ctx} (w : Keyed s) : Keyed (countDue s key ctx) := by
  unfold Machine.countDue
  split
  · exact .ite w.modGang.countRead w
  · exact w

/-- An instruction whose effect keeps the numbering keeps it; its gang, whose counts have gone on, is one of its block. -/
theorem Keyed.issueWhen {s u skip ready body} (w : Keyed s)
    (h : ∀ key g sp, key / 16 = g.block → Keyed (body s key g sp)) : KeyedOut (issueWhen s u skip ready body) := by
  unfold Machine.issueWhen
  split
  · exact .fault
  · next key _ =>
    split
    · exact .fault
    · next g hg =>
      have hk : key / 16 = g.block := w.key hg
      split
      · split
        · exact .next (w.setGang (hk.trans (switchSplit_block g).symm))
        · exact .next w.takeTrap
        · exact .ite (.next (.ite (h _ (stepGang ..) _ hk).settleRead (h _ (stepGang ..) _ hk)))
            (.next (w.setGang (hk.trans (switchSplit_block g).symm)))
      · exact .fault

theorem Keyed.issue {s u skip body} (w : Keyed s) (h : ∀ key g sp, key / 16 = g.block → Keyed (body s key g sp)) :
    KeyedOut (issue s u skip body) := w.issueWhen h

theorem Keyed.commit {s key g sp} (w : Keyed s) (h : key / 16 = g.block := by assumption) : Keyed (commit s key g sp) :=
  w.setGang h

theorem Keyed.retire {s key g sp size} (w : Keyed s) (h : key / 16 = g.block := by assumption) :
    Keyed (retire s key g sp size) := w.commit h

theorem Keyed.localOp {s u size f} (w : Keyed s) (hf : ∀ s g sp, (f s g sp).1.block = g.block := by exact fun _ _ _ => rfl) :
    KeyedOut (localOp s u size f) := w.issue fun _ g sp h => w.retire (h.trans (hf s g sp).symm)

-- Walks and pages that are absent (R84, R85).

theorem Keyed.vecOp {s u p wide d size f} (w : Keyed s) : KeyedOut (vecOp s u p wide d size f) := w.localOp

theorem Keyed.startLong {s key g sp la size dv dk vs ks fl} (w : Keyed s) (h : key / 16 = g.block := by assumption) :
    Keyed (startLong s key g sp la size dv dk vs ks fl) :=
  .ite (w.retire h) (w.rest.retire h)

theorem Keyed.startWalk {s unit ctx vpn} (w : Keyed s) : Keyed (startWalk s unit ctx vpn) := .ite w w.rest

theorem Keyed.startWalks {s unit ctx vpns} (w : Keyed s) : Keyed (startWalks s unit ctx vpns) :=
  w.fold fun _ _ w => w.startWalk

theorem Keyed.postPage {s r ctx stage aux pages} (w : Keyed s) : Keyed (postPage s r ctx stage aux pages).1 := by
  unfold Machine.postPage
  dsimp only
  exact w.postRec

end Sys2Proof.Machine
end

section
/-! Outstanding requests keep gangs numbered by their blocks (R86 to R89, R97, R127 to R137, R166 to R173). -/

namespace Sys2Proof.Machine

set_option Elab.async false

theorem Keyed.chainAfter {s key u} (w : Keyed s) : Keyed (chainAfter s key u) := w.rest

theorem Keyed.restartChain {s key u} (w : Keyed s) : Keyed (restartChain s key u) := w.rest

theorem Keyed.fillL1 {s core ctx own whole sec} (w : Keyed s) : Keyed (fillL1 s core ctx own whole sec) := by
  unfold Machine.fillL1
  extract_lets line old t
  have wt : Keyed t := .ite w ((w.chargeUser ..).storeSector _)
  exact .setL1 (.ite (wt.dropCopies ..) (.ite wt (wt.recallOwned _))) ..

theorem Keyed.dirtyL1 {s core ctx sec} (w : Keyed s) : Keyed (dirtyL1 s core ctx sec) := by
  unfold Machine.dirtyL1
  split
  · exact w.setL1 ..
  · exact w

theorem Keyed.weirServed {s chan me} (w : Keyed s) : Keyed (weirServed s chan me) :=
  .ite w (.ite w.rest w.rest)

theorem Keyed.arrivalServed {s vf a cost} (w : Keyed s) : Keyed (arrivalServed s vf a cost) := by
  unfold Machine.arrivalServed
  split
  · exact .ite w.weirServed w
  · exact w

theorem Keyed.takeSector {s key wr whole sec} (w : Keyed s) : Keyed (takeSector s key wr whole sec) := by
  unfold Machine.takeSector
  refine .ite w ?_
  extract_lets t
  have wt : Keyed t := by
    unfold t
    split
    · exact .ite w.weirServed w
    · exact w
  exact .ite wt.fillL1 (wt.chargeSlots ..)

theorem Keyed.leaveQueues {s gang l} (w : Keyed s) : Keyed (leaveQueues s gang l) := w.fold fun _ _ w => .ite w.rest w

theorem Keyed.advanceSector {s u sec} (w : Keyed s) : Keyed (advanceSector s u sec) := by
  unfold Machine.advanceSector
  split
  · exact w
  · exact .ite w (.ite w w.leaveQueues.rest.setReq)

theorem Keyed.pendTrap {s key t} (w : Keyed s) : Keyed (pendTrap s key t) := w.modGang

theorem Keyed.markRead {s u key sp e} (w : Keyed s) : Keyed (markRead s u key sp e) := w.rest

theorem Keyed.endSc {s key u} (w : Keyed s) : Keyed (endSc s key u) := w.modGang

theorem Keyed.performElems {s u r es} (w : Keyed s) : Keyed (performElems s u r es).1 := by
  refine Keyed.fold_fst w fun q e w => ?_
  dsimp only
  split
  · exact w.markRead
  · exact w.modGang
  · exact w.writeElem ..
  · exact w.writeElem ..
  · exact .ite_fst (w.writeElem ..) w

theorem Keyed.lowerCount {s key which} (w : Keyed s) : Keyed (lowerCount s key which) :=
  w.modGang fun _ => by
    refine block_ite ?_ (block_ite ?_ ?_) <;> rfl

theorem Keyed.finishReq {s u r} (w : Keyed s) : Keyed (finishReq s u r) := w.unage.lowerCount.modGang.setReq

theorem Keyed.readHome {s l} (w : Keyed s) : Keyed (readHome s l).1 :=
  Keyed.fold_fst w fun _ _ w => w.sectorRead _

theorem Keyed.chargeSectors {s u ctx core r l} (w : Keyed s) : Keyed (chargeSectors s u ctx core r l) := by
  refine .fold w fun s x w => ?_
  split
  · extract_lets t1 t2
    have w1 : Keyed t1 := by
      unfold t1
      split
      · exact .ite w.weirServed w
      · exact w
    have w2 : Keyed t2 := w1.chargeSlots ..
    exact .ite (w2.dropCopies ..) w2
  · exact w

theorem Keyed.fillSectors {s u core ctx r l} (w : Keyed s) : Keyed (fillSectors s u core ctx r l) := by
  unfold Machine.fillSectors
  refine .fold w fun s x w => ?_
  refine .fillL1 ?_
  split
  · exact .ite w.weirServed w
  · exact w

theorem Keyed.pendPoison {s r bad} (w : Keyed s) : Keyed (pendPoison s r bad) := w.fold fun _ _ w => w.pendTrap

theorem Keyed.performSector {s u sec} (w : Keyed s) : Keyed (performSector s u sec) := by
  unfold Machine.performSector
  split
  · exact w
  · refine .ite w ?_
    extract_lets glob core ctx whole away x s1 good s2 s3 q s4 s5 s6
    have wx : Keyed x.1 := .ite_fst w w.readHome
    have w1 : Keyed s1 := .ite (wx.clearPoison _) wx
    have w2 : Keyed s2 := .ite w1.fillSectors w1.chargeSectors
    have w4 : Keyed s4 := w2.pendPoison.leaveQueues.performElems.dropAhead
    have w5 : Keyed s5 := .ite (w4.fold fun _ _ w => w.dirtyL1) w4
    have w6 : Keyed s6 := .ite w5.dropAhead w5
    split
    · exact w6
    · extract_lets r s7 s8 s9
      have w8 : Keyed s8 := .ite w6.setReq.unage w6.setReq
      have w9 : Keyed s9 := .ite w8.endSc w8
      exact .ite w9.finishReq w9

theorem Keyed.performLanes {s u n} (w : Keyed s) : Keyed (performLanes s u n) := by
  unfold Machine.performLanes
  split
  · exact w
  · split
    · exact .ite w w.performElems.dropAhead.modReq
    · exact w

theorem Keyed.returnSector {s u sec} (w : Keyed s) : Keyed (returnSector s u sec) := by
  unfold Machine.returnSector
  split
  · exact w
  · next r _ =>
    have hf (g : Gang) : ((secElems r sec).foldl (fun g e => match r.results.find? (·.1 == e.lane) with
        | some x => writeDest g r.dest e.lane (resultWord u r e x.2) | none => g) g).block = g.block :=
      foldl_block (fun g e => by split; exact writeDest_block ..; rfl) _ g
    exact .ite w (.ite (w.modGang hf).setReq.finishReq (w.modGang hf).setReq)

theorem Keyed.raiseBounceLimit {s key split engine} (w : Keyed s) : Keyed (raiseBounceLimit s key split engine) :=
  w.modGang

theorem Keyed.bounceReq {s u cause} (w : Keyed s) : Keyed (bounceReq s u cause) := by
  unfold Machine.bounceReq
  split
  · exact w
  · extract_lets n key t1 t2 t3 t4
    have w1 : Keyed t1 := w.leaveQueues.setReq
    have w2 : Keyed t2 := .ite w1.endSc w1
    have w4 : Keyed t4 := .ageAt (.ite w2.chainAfter w2)
    exact .ite w4.raiseBounceLimit w4

theorem Keyed.takeBack {s u r} (w : Keyed s) : Keyed (takeBack s u r) := 
  .setReq (.unage (w.lowerCount.modGang fun _ => (turnTo_block ..).trans rfl))

theorem Keyed.parkReq {s u r ring seq} (w : Keyed s) : Keyed (parkReq s u r ring seq) := .ite w.rest w.modGang

theorem Keyed.chargeReissue {s r} (w : Keyed s) : Keyed (chargeReissue s r) := by
  unfold Machine.chargeReissue
  refine .ite ?_ w
  refine .fold w fun s x w => ?_
  split
  · exact w.chargeUser ..
  · exact w

theorem Keyed.checkReq {s u} (w : Keyed s) : Keyed (checkReq s u) := by
  unfold Machine.checkReq
  split
  · exact w
  split
  · exact w
  extract_lets rd wr cs t1 t2 d
  have w1 : Keyed t1 := w.chargeReissue
  have w2 : Keyed t2 := .ite w1.restartChain w1
  split
  · extract_lets t3 t4 t5
    have w5 : Keyed t5 := w2.setReq.rest.dropAhead
    split
    · exact .ite w5.countDue.modGang w5
    · exact w5
  · exact w.takeBack.takeTrap.modGang fun _ => block_ite rfl rfl
  · exact .ite w.startWalks.bounceReq w.startWalks.bounceReq.modGang
  · split
    · exact w
    · exact .ite w.bounceReq w.postPage.bounceReq.parkReq

theorem Keyed.sendReq {s key g sp r la dv dk} (w : Keyed s) (h : key / 16 = g.block := by assumption) :
    Keyed (sendReq s key g sp r la dv dk) := by
  refine .ite (.retire (.ite w.dropAhead w) h) (.checkReq (w.rest.retire (h.trans (Eq.symm ?_))))
  refine block_ite ?_ (block_ite ?_ ?_) <;> rfl

end Sys2Proof.Machine
end

section
/-! What a gang does on its own keeps gangs numbered by their blocks: splits and barriers, the Millrace, the scheduler, control
instructions, registers and lanes (R34, R36, R158 to R199, R310 to R325). -/

namespace Sys2Proof.Machine

set_option Elab.async false

-- Splits, barriers and tokens (R34 to R36, R183, R374).

theorem Keyed.renameSplit {s key old new} (w : Keyed s) : Keyed (renameSplit s key old new) := w.modGang.rest

theorem Keyed.mergeSplit {s key g i sp} (w : Keyed s) (h : key / 16 = g.block := by assumption) :
    Keyed (mergeSplit s key g i sp) := by
  unfold Machine.mergeSplit
  dsimp only
  refine .ite w.setGang (.ite w.setGang ?_)
  split
  · exact .ite w.dropAhead.setGang.renameSplit w.setGang
  · exact .ite w.dropAhead.setGang.renameSplit (.ite w.setGang w.setGang)
  · exact w.setGang

theorem Keyed.releaseGangs {s wr keys} (w : Keyed s) : Keyed (releaseGangs s wr keys) :=
  w.dropAhead.fold fun _ _ w => w.modGang

theorem Keyed.checkBar {s n} (w : Keyed s) : Keyed (checkBar s n) := .ite w.releaseGangs w

theorem Keyed.checkCrew {n s k c} (w : Keyed s) : Keyed (checkCrew n s k c) := by
  induction n generalizing s with
  | zero => exact w
  | succ n ih => exact .ite w.setCrew (.ite (.ite (ih w.releaseGangs.setCrew) w.setCrew) w)

theorem Keyed.leaveCrew {s key b c} (w : Keyed s) : Keyed (leaveCrew s key b c) := by
  unfold Machine.leaveCrew
  dsimp only
  split
  · exact w
  · exact .checkCrew (.modGang (.ite w.setCrew.dropAhead w.setCrew))

theorem Keyed.endTraps {s key} (w : Keyed s) : Keyed (endTraps s key) := by
  unfold Machine.endTraps
  split
  · exact w
  · next g hg =>
    have hk : key / 16 = g.block := w.key hg
    split
    · exact .ite w (.takeTrap (w.setGang hk))
    · exact w

theorem Keyed.gangEnded {s key b n} (w : Keyed s) : Keyed (gangEnded s key b n) := by
  unfold Machine.gangEnded
  exact Keyed.endTraps (Keyed.checkBar (w.modGang.modGang.fold fun _ _ w => w.leaveCrew))

theorem settleOnce_block (g : Gang) : (settleOnce g).block = g.block := by
  unfold settleOnce
  split
  · rfl
  · split
    · rfl
    · split <;> rfl

theorem settleSplits_block (n : Nat) (g : Gang) : (settleSplits n g).block = g.block := by
  induction n generalizing g with
  | zero => rfl
  | succ n ih => exact (ih _).trans (settleOnce_block g)

theorem fixCurrent_block (g : Gang) : (fixCurrent g).block = g.block := by
  unfold fixCurrent
  split
  · rfl
  · split
    · rfl
    · split <;> rfl

theorem Keyed.dropLanes {s key i m rest} (w : Keyed s) (hr : ∀ g sp, (rest g sp).1.block = g.block := by exact fun _ _ => rfl) :
    Keyed (dropLanes s key i m rest) := by
  unfold Machine.dropLanes
  split
  · exact w
  · next g hg =>
    split
    · extract_lets g1 sp1 r g2 g3 t
      have hb : g2.block = g.block := block_ite (settleSplits_block ..) ((settleSplits_block ..).trans (hr ..))
      have hk : key / 16 = g3.block := (w.key hg).trans ((fixCurrent_block g2).trans hb).symm
      have wt : Keyed t := w.setGang hk
      exact .ite wt.gangEnded (wt.checkBar.fold fun _ _ w => w.checkCrew)
    · exact w

-- The Millrace (R310 to R325).

theorem Keyed.arrStep {s core a op} (w : Keyed s) : Keyed (arrStep s core a op) := by
  unfold Machine.arrStep
  split
  · exact w.setArray
  · exact w.setArray
  · exact w.setArray
  · exact w.setArray
  · dsimp only
    split
    · exact w.setArray.setLong
    · exact w.setArray
  · exact w.setArray
  · exact w
  · exact w
  · exact w.setArray

theorem Keyed.drainArray {n s core} (w : Keyed s) : Keyed (drainArray n s core) := by
  induction n generalizing s with
  | zero => exact w
  | succ n ih =>
    unfold Machine.drainArray
    dsimp only
    split
    · exact .ite (ih w.arrStep) w
    · exact w

theorem Keyed.pushArray {s g op} (w : Keyed s) : Keyed (pushArray s g op) := w.setArray.drainArray

theorem Keyed.takePlace {s u} (w : Keyed s) : Keyed (takePlace s u) := by
  unfold Machine.takePlace
  split
  · exact w
  · split
    · exact w
    · split
      · exact .ite w w.pushArray
      · exact w

theorem Keyed.leavePlace {s key g sp} (w : Keyed s) : Keyed (leavePlace s key g sp) := by
  unfold Machine.leavePlace
  dsimp only
  split
  · exact .ite w.setArray.drainArray w
  · exact w

theorem Keyed.servedNow {s g} (w : Keyed s) : Keyed (servedNow s g) := .ite w.setArray w

theorem Keyed.trapHere {s key sp cause sub size addrs} (w : Keyed s) : Keyed (trapHere s key sp cause sub size addrs) :=
  w.takeTrap

theorem Keyed.engRead {s u x} (w : Keyed s) : Keyed (engRead s u x).1 := by
  unfold Machine.engRead
  exact w.fold fun _ _ w => w.markRead

theorem Keyed.execRcld {s mesh kb disp kn} (w : Keyed s) : KeyedOut (execRcld mesh kb disp kn s) := by
  unfold Machine.execRcld
  refine w.issueWhen fun _ _ _ _ => .ite w.trapHere (.ite w.trapHere ?_)
  split
  · exact w
  · exact .ite w.trapHere (.ite w.rest.retire.setEngOp.pushArray w.engRead.retire.pushArray)

theorem Keyed.endArray {s core kind} (w : Keyed s) : Keyed (endArray s core kind) := by
  unfold Machine.endArray
  dsimp only
  split
  · exact .ite w.setArray.drainArray w
  · exact w

-- The gang scheduler and the fairness timer (R158 to R163).

theorem Keyed.setActive {s key a} (w : Keyed s) : Keyed (setActive s key a) := w.modGang

theorem Keyed.refillOnce {s fresh key} (w : Keyed s) : Keyed (refillOnce s fresh key) := by
  unfold Machine.refillOnce
  dsimp only
  split
  · exact w
  · refine .ite w.setActive ?_
    split
    · exact w.setActive.setActive
    · exact w

theorem Keyed.refill {fresh n s key} (w : Keyed s) : Keyed (refill fresh n s key) := by
  induction n generalizing s with
  | zero => exact w
  | succ n ih => exact ih w.refillOnce

theorem Keyed.giveWay {s key} (w : Keyed s) : Keyed (giveWay s key) := by
  unfold Machine.giveWay
  split
  · exact w.setActive.setActive
  · exact w

theorem Keyed.execEntryBoost {s gang} (w : Keyed s) : KeyedOut (execEntryBoost gang s) := by
  unfold Machine.execEntryBoost
  split
  · exact .next w
  · refine .ite ?_ (.next w)
    refine .ite (.next w.setActive) ?_
    split
    · exact .next w.setActive.setActive
    · exact .next w

-- Control, synchronisation and waiting (R177 to R199).

theorem Keyed.inheritReads {s key old new} (w : Keyed s) : Keyed (inheritReads s key old new) := w.rest

theorem Keyed.execBrd {s neg a off} (w : Keyed s) : KeyedOut (execBrd neg a off s) := by
  unfold Machine.execBrd
  refine w.issue fun _ _ _ _ => .ite w.commit (.ite w.retire ?_)
  dsimp only
  split
  · exact .ite w.rest.inheritReads.commit w.rest.inheritReads.commit
  · exact .ite w.trapHere w.rest.inheritReads.commit

theorem Keyed.execMovx {s f} (w : Keyed s) : KeyedOut (execMovx f s) := by
  unfold Machine.execMovx
  split
  · exact w.localOp
  · exact w.localOp
  · exact w.issue fun _ _ _ _ => .ite w.trapHere w.retire
  · exact w.issue fun _ _ _ _ => .ite w.trapHere w.retire

theorem Keyed.execCjoin {s c} (w : Keyed s) : KeyedOut (execCjoin c s) := by
  unfold Machine.execCjoin
  refine w.issue fun _ _ _ _ => ?_
  dsimp only
  split
  · exact w.retire
  · exact .ite w.retire w.retire.setCrew

theorem Keyed.execCleave {s c} (w : Keyed s) : KeyedOut (execCleave c s) := by
  unfold Machine.execCleave
  refine w.issue fun _ _ _ _ => ?_
  dsimp only
  split
  · exact w.retire
  · exact w.retire.leaveCrew

theorem Keyed.execCbar {s c} (w : Keyed s) : KeyedOut (execCbar c s) := by
  unfold Machine.execCbar
  refine w.issue fun _ _ _ _ => .ite w.trapHere ?_
  split
  · exact w
  · exact .ite w.commit.checkCrew w.dropAhead.retire

-- Uniform, mask and system registers (R38, R185 to R190).

theorem Keyed.kOp {s d a b f} (w : Keyed s) : KeyedOut (kOp s d a b f) := w.localOp

theorem Keyed.kOpImm {s d a imm f} (w : Keyed s) : KeyedOut (kOpImm s d a imm f) := w.localOp

theorem Keyed.srdArray {s d r} (w : Keyed s) : KeyedOut (srdArray d r s) :=
  w.takePlace.issue fun _ _ _ _ => .leavePlace w.takePlace.retire.servedNow

theorem Keyed.execSwr {s r a} (w : Keyed s) : KeyedOut (execSwr r a s) := by
  unfold Machine.execSwr
  refine w.issue fun _ _ _ _ => ?_
  dsimp only
  split
  · exact w.retire
  · exact w.retire
  · exact .ite w.trapHere w.retire
  · exact .ite w.trapHere w.retire
  · exact w.trapHere

theorem Keyed.execSwrErrq {s a} (w : Keyed s) : KeyedOut (execSwrErrq a s) := by
  unfold Machine.execSwrErrq
  refine w.issue fun _ _ _ _ => ?_
  dsimp only
  split
  · exact w.retire
  · exact w.retire.modCtx

-- Long-latency instructions (R58, R274).

theorem Keyed.longOp {s u p d la size f} (w : Keyed s) : KeyedOut (longOp s u p d la size f) :=
  w.issue fun _ _ _ _ => w.startLong

theorem Keyed.execLongLatencyComplete {s op lanes} (w : Keyed s) : KeyedOut (execLongLatencyComplete op lanes s) := by
  unfold Machine.execLongLatencyComplete
  refine .next ?_
  split
  · exact w
  · exact .ite w (.ite w.modGang.setLong (.setLong (w.modGang.modGang fun g =>
      foldl_block (f := fun (g : Gang) (e : Nat × DWord) => g.kset e.1 e.2) (fun _ _ => rfl) _ g)))

-- Cross-lane instructions and the pair word (R61 to R64, R275 to R281).

theorem Keyed.redOp {s p op wr t d a la tree} (w : Keyed s) : KeyedOut (redOp s p op wr t d a la tree) :=
  w.issue fun _ _ _ _ => w.startLong

end Sys2Proof.Machine
end

section
/-! The hub, the engines and the memory instructions keep gangs numbered by their blocks (R25 to R33, R91 to R122). -/

namespace Sys2Proof.Machine

set_option Elab.async false

-- The hub's own accesses, completions and notices (R25 to R33).

theorem Keyed.hubPark {s r ctx kind key aux stage pages} (w : Keyed s) : Keyed (hubPark s r ctx kind key aux stage pages) :=
  .ite w w.postPage.rest

theorem Keyed.hubSlot {s ctx sec} (w : Keyed s) : Keyed (hubSlot s ctx sec) := w.arrivalServed.chargeSlots ..

theorem Keyed.hubWrite {s l ctx bs} (w : Keyed s) : Keyed (hubWrite s l ctx bs) :=
  .markDirty (.writeHome (w.fold fun _ _ w => w.hubSlot) ..) ..

theorem Keyed.readSectors {s ctx a n} (w : Keyed s) : Keyed (readSectors s ctx a n).1 :=
  Keyed.fold_fst w fun _ _ w => (w.sectorRead _).hubSlot

theorem Keyed.wakeBlock {s n} (w : Keyed s) : Keyed (wakeBlock s n) := by
  unfold Machine.wakeBlock
  split
  · exact w
  · exact w.dropAhead.fold fun _ _ w => w.modGang

theorem Keyed.tagReady {s n c disc fault} (w : Keyed s) : Keyed (tagReady s n c disc fault) := w.modBlock.wakeBlock

theorem Keyed.noteHeads {s key} (w : Keyed s) : Keyed (noteHeads s key) := w.fold fun _ _ w => w.setCmd

theorem Keyed.putCmd {s u key c} (w : Keyed s) : Keyed (putCmd s u key c) := w.setCmd.noteHeads

theorem Keyed.countCkpt {s b c} (w : Keyed s) : Keyed (countCkpt s b c) := by
  unfold Machine.countCkpt
  refine .ite w (.fold w fun s x w => ?_)
  split
  · exact .ite w.rest w
  · exact w

theorem Keyed.tryComplete {s u} (w : Keyed s) : Keyed (tryComplete s u) := by
  unfold Machine.tryComplete
  split
  · exact w
  · split
    · exact w
    · split
      · refine .ite w ?_
        dsimp only
        split
        · exact .ite w.tagReady.putCmd.takeTrap w.tagReady.putCmd.pendTrap
        · exact w.tagReady.putCmd
      · exact .ite w.tagReady.countCkpt.putCmd w

theorem Keyed.endLaunchCmd {s l fault} (w : Keyed s) : Keyed (endLaunchCmd s l fault) := by
  unfold Machine.endLaunchCmd
  split
  · exact w
  · refine .ite ?_ ?_
    · split
      · exact w.tagReady.putCmd
      · exact w
    · split
      · exact .ite w.tagReady.putCmd w.setCmd.tryComplete
      · exact w

theorem Keyed.launchNotice {s l cause block fail} (w : Keyed s) : Keyed (launchNotice s l cause block fail) :=
  w.postRec

theorem Keyed.hubAccess_wait {s t ctx rd wr va kind key aux} (w : Keyed s)
    (h : hubAccess s ctx rd wr va kind key aux = .wait t) : Keyed t := by
  unfold Machine.hubAccess at h
  split at h
  · split at h
    · cases h
    · cases h; exact w
  · cases h; exact w.startWalk
  · cases h; exact w.hubPark
  · cases h

theorem Keyed.completeLaunch {s u} (w : Keyed s) : Keyed (completeLaunch s u) := by
  unfold Machine.completeLaunch
  dsimp only
  split
  · exact w
  · refine .ite w ?_
    split
    · exact .endLaunchCmd (w.hubWrite.putLaunch forall_mem_none rfl rfl rfl rfl)
    · exact w.hubAccess_wait ‹_›
    · exact .endLaunchCmd (w.launchNotice.putLaunch forall_mem_none rfl rfl rfl rfl)

theorem Keyed.completeLaunches {s} (w : Keyed s) : Keyed (completeLaunches s) := w.fold fun _ _ w => w.completeLaunch

-- The copy engine, tags and guards (R91 to R93, R109 to R123).

theorem Keyed.performGo {s u r g b} (w : Keyed s) (h : r.gang / 16 = g.block := by assumption) : Keyed (performGo s u r g b) :=
  .ite w.setGang.setReq w.setGang.setReq.modBlock.rest.noteHeads

theorem Keyed.performEngine {s u} (w : Keyed s) : Keyed (performEngine s u) := by
  unfold Machine.performEngine
  split
  · exact w
  · split
    · next hg _ =>
      have hk := w.key hg
      refine .ite w ?_
      split
      · exact w
      · split
        · exact .ite (.ite w (.ite w.performGo w.bounceReq)) w.setGang.setReq
        · exact .finishReq (w.setGang (hk.trans (writeDest_block ..).symm))
    · exact w

theorem Keyed.bounceCmd {s u cause} (w : Keyed s) : Keyed (bounceCmd s u cause) := by
  unfold Machine.bounceCmd
  split
  · exact w
  · exact .ite w.leaveQueues.setCmd.ageAt.raiseBounceLimit w.leaveQueues.setCmd.ageAt

theorem Keyed.discardCmd {s u} (w : Keyed s) : Keyed (discardCmd s u) := by
  unfold Machine.discardCmd
  split
  · exact w
  · refine .ite ?_ w.tagReady.putCmd
    split
    · exact w
    · exact .completeLaunch (w.putCmd.putLaunch (forall_mem_some (lanesOk_of_none rfl)) rfl rfl rfl rfl)

theorem Keyed.recordGuard {s u} (w : Keyed s) : Keyed (recordGuard s u) := by
  unfold Machine.recordGuard
  split
  · exact w
  · split
    · exact w
    · refine .ite w ?_
      split
      · exact w
      · exact w.setCmd
      · exact .ite w w.discardCmd

theorem Keyed.recordGuards {s key} (w : Keyed s) : Keyed (recordGuards s key) := w.fold fun _ _ w => w.recordGuard

theorem Keyed.readList {s ckpt secs} (w : Keyed s) : Keyed (readList s ckpt secs).1 :=
  Keyed.fold_fst w fun _ _ w => .ite_fst w.dramRead (w.sectorRead _)

theorem Keyed.failCmd {s u cause box addr} (w : Keyed s) : Keyed (failCmd s u cause box addr) := by
  unfold Machine.failCmd
  split
  · exact w
  · exact w.putCmd.tryComplete

theorem Keyed.cmdSlots {s u c b a n} (w : Keyed s) : Keyed (cmdSlots s u c b a n) := by
  unfold Machine.cmdSlots
  dsimp only
  refine .chargeSlots ?_ ..
  split
  · exact .ite w.weirServed w
  · exact w

theorem Keyed.chargeBox {s u c b src dst} (w : Keyed s) : Keyed (chargeBox s u c b src dst) :=
  .fold (w.fold fun _ _ w => w.cmdSlots) fun _ _ w => w.cmdSlots.dropCopies ..

theorem Keyed.leaveWay {s c} (w : Keyed s) : Keyed (leaveWay s c) := w.leaveQueues

theorem Keyed.beginBox {s u box c g b} (w : Keyed s) : Keyed (beginBox s u box c g b) := by
  unfold Machine.beginBox
  dsimp only
  split
  · exact w.failCmd
  · exact w.startWalks.bounceCmd
  · exact w.hubPark.bounceCmd
  · refine .ite w ?_
    split
    · exact w.readList.failCmd
    · exact .putCmd (.chargeBox (.leaveWay (w.readList.fold fun _ _ w => w.clearPoison ..)))

theorem Keyed.advanceWay {s u sec} (w : Keyed s) : Keyed (advanceWay s u sec) := by
  unfold Machine.advanceWay
  refine .ite w ?_
  split
  · split
    · refine .ite w ?_
      split
      · exact w.leaveWay.rest.setCmd
      · exact w
    · exact w
  · refine .ite w ?_
    split
    · exact w.leaveQueues.rest.setEngOp
    · exact w
  · exact w

theorem Keyed.moveWords {s u box pick} (w : Keyed s) : Keyed (moveWords s u box pick) := by
  unfold Machine.moveWords
  split
  · exact w
  · split
    · exact w
    · exact (w.writeWords ..).setCmd

theorem Keyed.startBox {s u box op pick} (w : Keyed s) : Keyed (startBox s u box op pick) := by
  unfold Machine.startBox
  split
  · exact w
  · split
    · exact .ite w (.ite (.ite w.moveWords w) (.ite w.discardCmd (.ite w w.beginBox.moveWords)))
    · exact w

theorem Keyed.copyWords {s u box words} (w : Keyed s) : Keyed (copyWords s u box words) := by
  unfold Machine.copyWords
  split
  · exact .ite w.startBox w
  · exact w

theorem Keyed.readWords {s u box words} (w : Keyed s) : Keyed (readWords s u box words) := by
  unfold Machine.readWords
  extract_lets t
  have wt : Keyed t := w.copyWords
  split
  · exact wt
  · split
    · exact wt
    · refine .ite wt (.setCmd (.fold_fst wt fun _ _ w => ?_))
      split
      · exact w.readWord _
      · exact w

theorem Keyed.execBoxComplete {s cmd box} (w : Keyed s) : KeyedOut (execBoxComplete cmd box s) := by
  unfold Machine.execBoxComplete
  refine .next ?_
  split
  · exact .ite w.setCmd.tryComplete w
  · exact w

theorem Keyed.execLaunch {s cmd} (w : Keyed s) : KeyedOut (execLaunch cmd s) := by
  unfold Machine.execLaunch
  refine .next ?_
  split
  · exact w
  · split
    · refine .ite w (.ite w.discardCmd ?_)
      refine .ite w ?_
      split
      · exact w
      · exact .ite w w.setCtx.unage.putCmd
    · exact w

theorem Keyed.execSignal {s cmd} (w : Keyed s) : KeyedOut (execSignal cmd s) := by
  unfold Machine.execSignal
  refine .next ?_
  split
  · exact w
  · split
    · refine .ite w (.ite w.discardCmd ?_)
      refine .ite w ?_
      dsimp only
      split
      · exact w.failCmd
      · exact w.startWalks.bounceCmd
      · exact w.hubPark.bounceCmd
      · exact w
      · refine .ite w ?_
        split
        · exact w.readList.failCmd
        · exact .tryComplete (.putCmd (.writeElem (.ite w.readList (w.readList.leaveWay.cmdSlots.dropCopies ..)) ..))
    · exact w

theorem Keyed.takePending {s key cause} (w : Keyed s) : Keyed (takePending s key cause) := by
  unfold Machine.takePending
  split
  · next hg _ =>
    have hk := w.key hg
    split
    · exact .ite w.setGang.takeTrap w
    · exact w
  · exact w

theorem Keyed.endTwait {s key g sp b asked d} (w : Keyed s) (h : key / 16 = g.block := by assumption) :
    Keyed (endTwait s key g sp b asked d) :=
  w.dropAhead.retire

theorem Keyed.execTwait {s all d a} (w : Keyed s) : KeyedOut (execTwait all d a s) := by
  unfold Machine.execTwait
  refine w.issueWhen fun _ _ _ h => ?_
  split
  · exact w
  · exact .ite w.endTwait (w.setGang (h.trans (switchSplit_block (Gang.setSplit _ _)).symm))

theorem Keyed.execTclr {s d a} (w : Keyed s) : KeyedOut (execTclr d a s) := by
  unfold Machine.execTclr
  refine w.issue fun _ _ _ _ => ?_
  split
  · exact w
  · exact w.setBlock.retire

-- Memory instructions (R94 to R108).

theorem Keyed.sendEngine {s key g x r ea la dk} (w : Keyed s) (h : key / 16 = g.block := by assumption) :
    Keyed (sendEngine s key g x r ea la dk) := by
  refine .ite w.trapHere (.ite w.trapHere (.performEngine (w.rest.retire (h.trans (Eq.symm ?_)))))
  refine block_ite ?_ ?_ <;> rfl

theorem Keyed.prefSector {s b lvl sec} (w : Keyed s) : Keyed (prefSector s b lvl sec) := by
  unfold Machine.prefSector
  dsimp only
  refine .ite w (.ite (w.sectorRead ..) ?_)
  exact .ite ((w.sectorRead ..).arrivalServed.fillL1) ((w.sectorRead ..).arrivalServed.chargeSlots ..)

theorem Keyed.execPref {s p lvl m} (w : Keyed s) : KeyedOut (execPref p lvl m s) := by
  unfold Machine.execPref
  refine w.issue fun _ _ _ _ => .retire ?_
  split
  · exact w
  · refine .fold w fun s x w => ?_
    split
    · exact w.startWalk
    · exact w.fold fun _ _ w => w.prefSector
    · exact w

end Sys2Proof.Machine
end

section
/-! The Sails fabric and the matrix engine keep gangs numbered by their blocks (R204 to R226, R282 to R309). -/

namespace Sys2Proof.Machine

set_option Elab.async false

-- The Sails fabric (R204 to R226).

theorem Keyed.moveCredit {s dev p f} (w : Keyed s) : Keyed (moveCredit s dev p f) := w.rest

theorem Keyed.loseError {s ctx} (w : Keyed s) : Keyed (loseError s ctx) := w.modCtx

theorem Keyed.recordError {s r lane off code} (w : Keyed s) : Keyed (recordError s r lane off code) := by
  unfold Machine.recordError
  dsimp only
  split
  · split
    · exact w.rest.modGang
    · refine .ite w.rest.modGang.loseError ?_
      split
      · exact .ite w.rest.modGang.hubWrite.modCtx.modGang w.rest.modGang.hubWrite.modCtx
      · exact w.rest.modGang.postRec.loseError
  · exact w.rest.modGang

theorem Keyed.dropGroup {s grp} (w : Keyed s) : Keyed (dropGroup s grp) := w.rest

theorem Keyed.remoteFail {s key grp rs} (w : Keyed s) : Keyed (remoteFail s key grp rs) :=
  .modGang (.takeTrap (w.dropGroup.lowerCount.modGang fun g => turnTo_block (unstepGang g) _))

theorem writeRemote_block (g : Gang) (r : RReq) : (writeRemote g r).block = g.block :=
  foldl_block (fun g _ => block_ite (g := g) rfl (writeDest_block ..)) _ g

theorem Keyed.returnGroup {s key grp} (w : Keyed s) : Keyed (returnGroup s key grp) := by
  unfold Machine.returnGroup
  extract_lets rs t
  have wt : Keyed t := w.modGang fun g => foldl_block (fun g e => writeRemote_block g e.2) rs g
  exact .ite wt.dropGroup.lowerCount.modGang (wt.fold fun _ _ w => w.setRreq)

theorem Keyed.settleGroup {s key grp} (w : Keyed s) : Keyed (settleGroup s key grp) := by
  unfold Machine.settleGroup
  dsimp only
  split
  · exact w
  · refine .ite (.ite w.dropGroup.lowerCount w) ?_
    split
    · exact w
    · next hg =>
      have hk := w.key hg
      split
      · refine .ite w ?_
        exact .ite w (.ite (.ite w.remoteFail w) (.returnGroup (.ite w.setGang.countDue.dropAhead w.setGang.countDue)))
      · exact w.returnGroup

theorem Keyed.bounceRemote {s u cause} (w : Keyed s) : Keyed (bounceRemote s u cause) := by
  unfold Machine.bounceRemote
  split
  · exact w
  · extract_lets n t1 t2 t3
    have w1 : Keyed t1 := w.setRreq
    have w3 : Keyed t3 := .ageAt (.ite w1.chainAfter w1)
    exact .ite w3.raiseBounceLimit w3

theorem Keyed.killPlane {s dev plane} (w : Keyed s) : Keyed (killPlane s dev plane) := .ite w w.rest

theorem Keyed.finishRepair {s dev} (w : Keyed s) : Keyed (finishRepair s dev) := by
  unfold Machine.finishRepair
  split
  · exact w
  · exact .ite w w.rest

theorem Keyed.takeStatus {s u st data} (w : Keyed s) : Keyed (takeStatus s u st data) := by
  unfold Machine.takeStatus
  split
  · exact w
  · extract_lets t
    have wt : Keyed t := .ite w w.moveCredit
    refine .ite wt.setRreq.finishRepair (.finishRepair ?_)
    split
    · exact wt.bounceRemote
    · exact wt.setRreq.unage.settleGroup
    · exact .settleGroup (.ite wt.setRreq.unage (wt.setRreq.unage.fold fun _ _ w => w.recordError))

theorem Keyed.trySend {s u} (w : Keyed s) : Keyed (trySend s u) := by
  unfold Machine.trySend
  split
  · exact w
  · exact .ite w (.ite (.ite w.setRreq.takeStatus w) (.ite w.killPlane (.ite w.unage.moveCredit.carryLink.rest w)))

theorem Keyed.sendWaiting {s} (w : Keyed s) : Keyed (sendWaiting s) := w.fold fun _ _ w => w.trySend

theorem Keyed.sendRemote {s key g sp m pa ix disp o r la} (w : Keyed s) (h : key / 16 = g.block := by assumption) :
    Keyed (sendRemote s key g sp m pa ix disp o r la) := by
  unfold Machine.sendRemote
  dsimp only
  refine .ite w.retire ?_
  split
  · exact w
  · split
    · exact w.takeTrap.modGang
    · have hk (a b : Gang) (ha : a.block = g.block) (hb : b.block = g.block) (c : Prop) (_ : Decidable c) :
          key / 16 = (if c then a else b).block := h.trans (block_ite ha hb).symm
      refine .fold (.fold (.rest (.ite (w.setGang (hk _ _ ?_ ?_ _ _)) (w.retire (hk _ _ ?_ ?_ _ _)))) fun _ _ w => w.setRreq)
        fun _ _ w => w.trySend
      all_goals rfl

theorem Keyed.issueRemote {s u p pa body} (w : Keyed s) (h : ∀ key g sp, key / 16 = g.block → Keyed (body s key g sp)) :
    KeyedOut (issueRemote s u p pa body) := w.issueWhen h

theorem Keyed.unsend {s dev plane last} (w : Keyed s) : Keyed (unsend s dev plane last) := w.rest

theorem Keyed.noteUnsent {s dev} (w : Keyed s) : Keyed (noteUnsent s dev) := w.rest

theorem Keyed.killLink {s plane} (w : Keyed s) : Keyed (killLink s plane) := w.fold fun _ _ w => w.killPlane

theorem Keyed.setLink {s plane st} (w : Keyed s) : Keyed (setLink s plane st) :=
  .ite w (.ite w.rest.rest.killLink w.rest)

theorem Keyed.answerRemote {s tag st data} (w : Keyed s) : Keyed (answerRemote s tag st data) := w.rest

theorem Keyed.performRemote {s r es} (w : Keyed s) : Keyed (performRemote s r es).1 := by
  refine Keyed.fold_fst w fun q e w => ?_
  dsimp only
  split
  · exact w
  · split
    · exact w.writeElem ..
    · exact w
  · split
    · exact w.writeElem ..
    · exact w

theorem Keyed.serveRemote_mem {s r held} (w : Keyed s) : ∀ q ∈ serveRemote s r held, Keyed q.1 := by
  unfold Machine.serveRemote
  refine forall_mem_ite (forall_mem_ite (forall_mem_some w) forall_mem_none) ?_
  split
  · exact forall_mem_some w
  · extract_lets rd wr atom
    refine forall_mem_ite (forall_mem_some w) (forall_mem_ite (forall_mem_some w) ?_)
    split
    · exact forall_mem_some w
    · exact forall_mem_some w.startWalks
    · exact forall_mem_some w.postPage
    · refine forall_mem_ite (forall_mem_some w) (forall_mem_ite forall_mem_none ?_)
      extract_lets es whole sec x t1 t2 q
      have wx : Keyed x.1 := .ite_fst (w.clearPoison _) (w.sectorRead _)
      have w1 : Keyed t1 := wx.arrivalServed.chargeSlots ..
      have w2 : Keyed t2 := .carryLink (.ite (w1.dropCopies ..) w1)
      exact forall_mem_ite (forall_mem_some wx) (forall_mem_some w2.performRemote)

theorem Keyed.takeRemote {s r held} (w : Keyed s) : Keyed (takeRemote s r held) := by
  unfold Machine.takeRemote
  split
  · exact (w.serveRemote_mem _ ‹_›).answerRemote
  · exact w

theorem Keyed.holdRemote {s i} (w : Keyed s) : Keyed (holdRemote s i) := by
  unfold Machine.holdRemote
  split
  · exact w.takeRemote
  · exact w

theorem Keyed.execRemoteResponse {s req lanes st data} (w : Keyed s) : KeyedOut (execRemoteResponse req lanes st data s) := by
  unfold Machine.execRemoteResponse
  extract_lets t
  have wt : Keyed t := w.trySend
  refine .next ?_
  split
  · exact wt
  · refine .ite wt (.ite (.ite wt wt.setRreq.settleGroup) (.ite wt (.ite ?_ wt.takeStatus.sendWaiting)))
    split
    · exact (wt.serveRemote_mem _ ‹_›).takeStatus.sendWaiting
    · exact wt

theorem Keyed.rejectPacket {s ftid} (w : Keyed s) : Keyed (rejectPacket s ftid) := .rest (.ite w (w.writeHome ..))

theorem Keyed.carryPacket {s ctx} (w : Keyed s) : Keyed (carryPacket s ctx) := w.carryLink.carryLink

theorem Keyed.execLaunchPacket {s k} (w : Keyed s) : KeyedOut (execLaunchPacket k s) := by
  unfold Machine.execLaunchPacket
  refine .next (.ite w ?_)
  refine .ite w.rejectPacket (.ite w.carryPacket.rest ?_)
  dsimp only
  split
  · exact w.carryPacket.hubWrite.setQueue
  · exact w.carryPacket.postPage.rest
  · exact w.carryPacket.notice.rest

-- The matrix engine (R282 to R309).

theorem Keyed.engTrap {s key sp cause size} (w : Keyed s) : Keyed (engTrap s key sp cause size) := w.trapHere

theorem Keyed.writeOp {s l} (w : Keyed s) : Keyed (writeOp s l) := by
  induction l with
  | nil => exact w
  | cons e l ih => exact ih.setObyte

theorem Keyed.clearOp {s a n} (w : Keyed s) : Keyed (clearOp s a n) := w.rest

theorem Keyed.execMres {s mx recv t d id base len sbase} (w : Keyed s) :
    KeyedOut (execMres mx recv t d id base len sbase s) := by
  unfold Machine.execMres
  refine w.issue fun _ _ _ _ => ?_
  split
  · exact w
  · exact .ite w.retire (.retire (.ite w.clearOp.writeOp w.clearOp))

theorem Keyed.touch {s key g sp b space wr size len eas k} (w : Keyed s) (h : ∀ ls, Keyed (k ls)) :
    Keyed (touch s key g sp b space wr size len eas k) := by
  unfold Machine.touch
  split
  · exact h _
  · exact w.takeTrap
  · exact w.startWalks.modGang
  · exact w.postPage.modGang

theorem Keyed.readSectorsOf {s key ls} (w : Keyed s) : Keyed (readSectorsOf s key ls).1 := by
  refine Keyed.fold_fst w fun q sec w => ?_
  dsimp only
  split
  · exact w
  · split
    · exact w.sectorRead _
    · exact (w.sectorRead _).takeSector

theorem Keyed.enterEngine {s key split goal batch space size eas locs stores} (w : Keyed s) :
    Keyed (enterEngine s key split goal batch space size eas locs stores) :=
  w.rest.setEngOp

theorem Keyed.fillReserv {s key id b scl c0 nch bytes} (w : Keyed s) : Keyed (fillReserv s key id b scl c0 nch bytes) := by
  unfold Machine.fillReserv
  split
  · exact w
  · next hg =>
    have hk := w.key hg
    split
    · exact w
    · exact w.writeOp.setGang

theorem Keyed.fillFrom {s u x b scl mc id c0 nch cmask} (w : Keyed s) : Keyed (fillFrom s u x b scl mc id c0 nch cmask) := by
  unfold Machine.fillFrom
  dsimp only
  split
  · exact w.readSectorsOf.pendTrap.endTraps
  · split
    · exact w.readSectorsOf.engRead.fillReserv.rest
    · exact w.readSectorsOf.engRead.fillReserv

theorem Keyed.execMld {s scl mc space id kb disp ks cmask} (w : Keyed s) :
    KeyedOut (execMld scl mc space id kb disp ks cmask s) := by
  unfold Machine.execMld
  refine w.issueWhen fun _ _ _ _ => ?_
  dsimp only
  split
  · exact w.engTrap
  · split
    · refine w.touch fun _ => ?_
      split
      · exact w.retire.enterEngine.setEngOp.fillFrom
      · exact w.retire.enterEngine
    · exact w

theorem modBatch_block (g : Gang) (n : Nat) (f : Batch → Batch) : (g.modBatch n f).block = g.block := by
  unfold Gang.modBatch
  split <;> rfl

theorem Keyed.deliver {s x} (w : Keyed s) : Keyed (deliver s x) := by
  unfold Machine.deliver
  split
  · split
    · exact w
    · next hg =>
      have hk := w.key hg
      split
      · exact w
      · exact w.writeOp.setGang
  · exact w.modGang fun _ => modBatch_block ..

theorem Keyed.execMulticastDelivery {s gang} (w : Keyed s) : KeyedOut (execMulticastDelivery gang s) := by
  unfold Machine.execMulticastDelivery
  refine .next ?_
  split
  · exact w
  · exact w.rest.deliver

theorem Keyed.deliverWords {s u words} (w : Keyed s) : Keyed (deliverWords s u words) := by
  unfold Machine.deliverWords
  split
  · exact w
  · split
    · exact w
    · split
      · exact w
      · exact w.writeOp.rest

theorem Keyed.gatherInto {s u key b g id r rowp cols vals cbase rows c0} (w : Keyed s) :
    Keyed (gatherInto s u key b g id r rowp cols vals cbase rows c0).1 :=
  w.clearOp.fold fun _ _ w => w.fold fun _ _ w => w.fold fun _ _ w => w.setObyte

theorem Keyed.markWindow {s u key sp b} (w : Keyed s) : Keyed (markWindow s u key sp b) := .ite w w.markRead

theorem Keyed.execMgath {s id kb disp} (w : Keyed s) : KeyedOut (execMgath id kb disp s) := by
  unfold Machine.execMgath
  refine w.issueWhen fun _ _ _ _ => ?_
  dsimp only
  split
  · refine .ite w.engTrap (.ite w.trapHere ?_)
    refine .ite w.trapHere ?_
    exact .ite w.engTrap (.ite w.engTrap (.ite w.markWindow.retire.enterEngine w.markWindow.gatherInto.retire))
  · exact w.engTrap

theorem Keyed.execMma {s skip z tile ra rb a0 b0 kcm1} (w : Keyed s) : KeyedOut (execMma skip z tile ra rb a0 b0 kcm1 s) := by
  unfold Machine.execMma
  refine w.issue fun _ _ _ _ => ?_
  split
  · exact .ite w.engTrap (.ite w.engTrap (.ite w.engTrap w.setTile.retire))
  · exact w.engTrap

theorem Keyed.execBatchComplete {s gang} (w : Keyed s) : KeyedOut (execBatchComplete gang s) := by
  unfold Machine.execBatchComplete
  refine .next ?_
  split
  · exact w
  · next hg =>
    have hk := w.key hg
    split
    · exact w
    · refine .ite w (w.setGang (hk.trans (Eq.symm ?_)))
      refine block_ite ?_ ?_ <;> rfl

theorem Keyed.execAclr {s a} (w : Keyed s) : KeyedOut (execAclr a s) := by
  unfold Machine.execAclr
  refine w.issue fun _ _ _ _ => ?_
  split
  · exact w
  · exact .ite w.engTrap (.retire (w.fold fun _ _ w => w.setTile))

theorem Keyed.execArd {s rm sat nosat t d tile row la} (w : Keyed s) : KeyedOut (execArd rm sat nosat t d tile row la s) := by
  unfold Machine.execArd
  refine w.issue fun _ _ _ _ => ?_
  split
  · exact w
  · exact .ite w.engTrap w.startLong

theorem Keyed.execAwr {s t m c} (w : Keyed s) : KeyedOut (execAwr t m c s) := by
  unfold Machine.execAwr
  refine w.issue fun _ _ _ _ => ?_
  split
  · exact w
  · dsimp only
    split
    · exact w.takeTrap
    · exact .retire (w.fold fun _ _ w => w.setTile)

theorem Keyed.astSector {s key exm es size} (w : Keyed s) : Keyed (astSector s key exm es size) := by
  unfold Machine.astSector
  extract_lets write whole
  have hw : ∀ {t}, Keyed t → Keyed (write t) := fun w => w.fold fun _ _ w => w.writeElem ..
  split
  · exact w
  · extract_lets t sec core here x
    have wt : Keyed t := w.dropAhead
    have wx : Keyed x.1 := .ite_fst (wt.clearPoison _) (.ite_fst wt (wt.sectorRead _))
    exact .ite (hw wt) (.ite wx.pendTrap (hw wx.takeSector).dirtyL1)

theorem Keyed.astWrite {s key exm size es} (w : Keyed s) : Keyed (astWrite s key exm size es) :=
  w.fold fun _ _ w => w.astSector

theorem Keyed.execAst {s rm sat nosat t km kb disp kr} (w : Keyed s) : KeyedOut (execAst rm sat nosat t km kb disp kr s) := by
  unfold Machine.execAst
  dsimp only
  refine w.issueWhen fun _ _ _ _ => ?_
  split
  · exact w
  · split
    · exact w.trapHere
    · exact .ite w.engTrap (w.touch fun _ => .ite w.retire.enterEngine w.retire.astWrite)

theorem Keyed.fetchWords {s u words} (w : Keyed s) : Keyed (fetchWords s u words) := by
  unfold Machine.fetchWords
  split
  · exact w
  · exact .ite w (.ite w.readSectorsOf (.setEngOp (w.readSectorsOf.fold fun _ _ w => w.markRead)))

theorem Keyed.performEng {s u} (w : Keyed s) : Keyed (performEng s u) := by
  unfold Machine.performEng
  split
  · exact w
  · split
    · next hg _ =>
      have hk := w.key hg
      refine .ite w ?_
      dsimp only
      split
      · exact w.leaveQueues.unage.setEngOp.fillFrom
      · exact w.leaveQueues.unage.setEngOp.astWrite
      · split
        · refine w.leaveQueues.unage.setEngOp.markWindow.gatherInto.setGang (hk.trans (Eq.symm ?_))
          exact modBatch_block ..
        · exact w.leaveQueues.unage.setEngOp
      · exact w.leaveQueues.unage.setEngOp.engRead.setArray.drainArray
    · exact w

theorem Keyed.execRequestPerform {s req sector} (w : Keyed s) : KeyedOut (execRequestPerform req sector s) := by
  unfold Machine.execRequestPerform
  refine .next ?_
  split
  · exact .ite w.performEngine w.performSector
  · exact w.performEng

end Sys2Proof.Machine
end

section
/-! The dispatcher and the replay stores keep gangs numbered by their blocks, and no launch is taken whose blocks have more than
1024 lanes (R20 to R33, R151 to R157, R166 to R175, R387, R394). -/

namespace Sys2Proof.Machine

set_option Elab.async false

-- The dispatcher: queues, launches and blocks (R20 to R33, R151 to R157).

theorem Keyed.execKick {s vf word size v} (w : Keyed s) : KeyedOut (execKick vf word size v s) := by
  unfold Machine.execKick
  refine .next ?_
  split
  · exact w
  · exact .ite w w.setQueue

theorem Keyed.endLaunch {s u st cause fail} (w : Keyed s) : Keyed (endLaunch s u st cause fail) := by
  unfold Machine.endLaunch
  split
  · exact w
  · next l hl =>
    have ok : LanesOk l := w.lanesOk hl
    exact .completeLaunch (.launchNotice (w.setLaunch ok))

theorem Keyed.tablePlaces {ctx u s l acc} (w : Keyed s) : Keyed (tablePlaces ctx u s l acc).1 := by
  induction l generalizing s acc with
  | nil => exact w
  | cons a l ih =>
    unfold Machine.tablePlaces
    split
    · dsimp only
      split
      · exact w.readSectors
      · exact ih w.readSectors
    · exact w

theorem Keyed.tablePlaces_wait {ctx u s l acc t a} (w : Keyed s) (h : (Machine.tablePlaces ctx u s l acc).2 = .inr (.wait t, a)) :
    Keyed t := by
  induction l generalizing s acc with
  | nil => cases h
  | cons b l ih =>
    unfold Machine.tablePlaces at h
    split at h
    · dsimp only at h
      split at h
      · cases h
      · exact ih w.readSectors h
    · injection h with h
      injection h with h
      exact w.hubAccess_wait h

/-- A record of more than 1024 lanes a block is false (R25). -/
theorem shapeLanes_le_of_badRecord {r : RawRec} (h : badRecord r = false) : shapeLanes r.shape ≤ 1024 := by
  simp only [badRecord, Bool.or_eq_false_iff, decide_eq_false_iff_not] at h
  omega

/-- A launch is taken with the shape of its record (R25). -/
theorem Keyed.acceptLaunch {s u l r regions} (w : Keyed s) (h : shapeLanes r.shape ≤ 1024) :
    Keyed (acceptLaunch s u l r regions) := by
  refine .ite w.endLaunch (.ite w.endLaunch (w.setLaunch fun x hx => ?_))
  injection hx with hx
  subst hx
  exact h

theorem Keyed.validate {s u} (w : Keyed s) : Keyed (validate s u) := by
  unfold Machine.validate
  dsimp only
  split
  · exact w
  · refine .ite w (.ite w.endLaunch ?_)
    split
    · exact w.hubAccess_wait ‹_›
    · exact w.endLaunch
    · refine .ite w.readSectors.endLaunch ?_
      split
      · exact w.readSectors.endLaunch
      · next hb =>
        split
        · exact w.readSectors.tablePlaces.acceptLaunch (shapeLanes_le_of_badRecord (Bool.not_eq_true _ ▸ hb))
        · exact w.readSectors.tablePlaces_wait ‹_›
        · exact w.readSectors.tablePlaces.endLaunch

theorem Keyed.haltQueue {s n cause addrs} (w : Keyed s) : Keyed (haltQueue s n cause addrs) := w.setQueue.notice

theorem Keyed.takeHost {s n} (w : Keyed s) : Keyed (takeHost s n) := by
  unfold Machine.takeHost
  dsimp only
  refine .ite w (.ite w (.ite w.haltQueue ?_))
  split
  · exact w.hubAccess_wait ‹_›
  · exact w.haltQueue
  · refine .ite w.readSectors.haltQueue (.ite (.endLaunch ?_) (.validate ?_))
    all_goals exact w.readSectors.setQueue.putLaunch (forall_mem_some (lanesOk_of_none rfl)) rfl rfl rfl rfl

theorem Keyed.takeDevice {s ctx} (w : Keyed s) : Keyed (takeDevice s ctx) := by
  unfold Machine.takeDevice
  split
  · exact w
  · split
    · exact w
    · refine .ite w ?_
      dsimp only
      split
      · exact w.setCtx
      · exact .validate (w.setCtx.putLaunch (forall_mem_some (lanesOk_of_none rfl)) rfl rfl rfl rfl)

theorem Keyed.examine {s q} (w : Keyed s) : Keyed (examine s q) := by
  unfold Machine.examine
  dsimp only
  split
  · exact .validate (.ite w.setQueue w)
  · exact .takeHost (.ite w.setQueue w)

theorem Keyed.examineAll {s ctx} (w : Keyed s) : Keyed (examineAll s ctx) := w.fold fun _ _ w => w.examine

theorem Keyed.execTakeEntry {s q} (w : Keyed s) : KeyedOut (execTakeEntry q s) := by
  unfold Machine.execTakeEntry
  refine .next (.ite w ?_)
  refine .ite w.examine ?_
  split
  · exact w.validate
  · exact w.takeDevice

theorem Keyed.pollOne {s u i} (w : Keyed s) : Keyed (pollOne s u i) := by
  unfold Machine.pollOne
  dsimp only
  split
  · exact w
  · next l hl =>
    have ok : LanesOk l := w.lanesOk hl
    split
    · exact w
    · refine .ite w ?_
      split
      · exact w.hubAccess_wait ‹_›
      · exact w.endLaunch
      · exact .ite w.readSectors.endLaunch (.ite (w.readSectors.setLaunch ok) w.readSectors)

/-- The gangs of a block of at most 1024 lanes are numbered by it: there are at most 16 (R21, R25). -/
theorem Keyed.placeBlock {s u l r core q0 scr tag} (w : Keyed s) (hl : LanesOk l) (hr : l.body = some r) :
    Keyed (placeBlock s u l r core q0 scr tag) := by
  unfold Machine.placeBlock
  extract_lets lanes n bank b slots gangs base c p t1 t2 a t3 q t4
  have w1 : Keyed t1 := w.rest
  have w2 : Keyed t2 := w1.setBlock.setLaunch hl
  have w4 : Keyed t4 := (Keyed.ite w2.setArray w2).setPart
  refine w4.fold_mem fun s e he w => w.setGang ?_
  obtain ⟨i, hi, rfl⟩ := List.mem_map.mp he
  have hi : i < gangCount lanes := List.mem_range.mp hi
  have hn : lanes ≤ 1024 := hl r hr
  have : (n * 16 + i) / 16 = n := by
    unfold gangCount at hi
    omega
  exact this

/-- The launch that is served is one of those that compete (R157). -/
theorem mem_of_servedLaunch {s : State} {l : List (Nat × Launch × LRec)} {x : Nat × Launch × LRec}
    (h : servedLaunch s l = some x) : x ∈ l := by
  induction l with
  | nil => cases h
  | cons y r ih =>
    simp only [servedLaunch] at h
    split at h
    · injection h with h
      exact h ▸ .head _
    · split at h
      · injection h with h
        exact h ▸ .head _
      · exact .tail _ (ih (‹servedLaunch s r = _›.trans h))

/-- A launch that competes is in the state, with its record (R156). -/
theorem mem_competing {s : State} {u : Nat} {l : Launch} {r : LRec} (h : (u, l, r) ∈ competing s) :
    (u, l) ∈ tentries s.launches ∧ l.body = some r := by
  obtain ⟨e, he, hf⟩ := List.mem_filterMap.mp h
  split at hf
  · next x hx =>
    split at hf
    · injection hf with hf
      injection hf with h1 h2
      injection h2 with h2 h3
      subst h1 h2 h3
      exact ⟨he, hx⟩
    · cases hf
  · cases hf

theorem Keyed.execPlacement {s q0 scr tag} (w : Keyed s) : KeyedOut (execPlacement q0 scr tag s) := by
  unfold Machine.execPlacement
  refine .next ?_
  split
  · exact w
  · next u l r h =>
    have hs : servedLaunch s (competing s) = some (u, l, r) := by
      split at h
      · exact h
      · cases h
    obtain ⟨hm, hr⟩ := mem_competing (mem_of_servedLaunch hs)
    have ok : LanesOk l := w.lanes _ hm
    split
    · exact w.setLaunch ok
    · exact .ite (w.placeBlock ok hr) w

theorem Keyed.removeBlock {s n} (w : Keyed s) : Keyed (removeBlock s n) :=
  have wd : Keyed (Machine.departs s (entryOf s n)) := w.departs
  ⟨fun e he => wd.gangs e (mem_tentries_filter he), wd.lanes, wd.savedGangs, wd.savedLanes, wd.importGangs, wd.importLanes⟩

theorem Keyed.blockGone {s n b} (w : Keyed s) : Keyed (blockGone s n b) := by
  unfold Machine.blockGone
  dsimp only
  split
  · exact w.removeBlock.unbar
  · next l hl =>
    have ok : LanesOk l := w.removeBlock.unbar.lanesOk hl
    exact .completeLaunch (w.removeBlock.unbar.setLaunch ok)

theorem Keyed.blockRetired {s n b} (w : Keyed s) : Keyed (blockRetired s n b) := by
  unfold Machine.blockRetired
  dsimp only
  refine .blockGone ?_
  split
  · next l hl =>
    have ok : LanesOk l := w.lanesOk hl
    exact .ite w (w.setLaunch ok)
  · exact w

theorem Keyed.regionFault {s n b addr} (w : Keyed s) : Keyed (regionFault s n b addr) := by
  unfold Machine.regionFault
  split
  · exact w
  · next l hl =>
    have ok : LanesOk l := w.lanesOk hl
    exact .blockGone (.launchNotice (w.setLaunch ok))

theorem Keyed.stagePiece {s n b r i off} (w : Keyed s) : Keyed (stagePiece s n b r i off) := by
  unfold Machine.stagePiece
  dsimp only
  split
  · exact w.hubAccess_wait ‹_›
  · exact w.regionFault
  · exact .ite (w.arrivalServed.sectorRead _).regionFault
      (((w.arrivalServed.sectorRead _).writeScr _ _).chargeSlots ..).setBlock

theorem Keyed.execRegionStaging {s b} (w : Keyed s) : KeyedOut (execRegionStaging b s) := by
  unfold Machine.execRegionStaging
  refine .next ?_
  split
  · exact w
  · split
    · split
      · exact w.stagePiece
      · exact w
    · exact w

theorem Keyed.startGang {s b r k} (w : Keyed s) : Keyed (startGang s b r k) := by
  unfold Machine.startGang
  split
  · next hg _ =>
    have hk := w.key hg
    exact w.rest.setCtx.setGang
  · exact w

theorem Keyed.execGangStart {s b} (w : Keyed s) : KeyedOut (execGangStart b s) := by
  unfold Machine.execGangStart
  refine .next ?_
  split
  · exact w
  · split
    · exact .ite w (w.setBlock.fold fun _ _ w => w.startGang)
    · exact w

theorem Keyed.execBlockRetire {s b} (w : Keyed s) : KeyedOut (execBlockRetire b s) := by
  unfold Machine.execBlockRetire
  refine .next ?_
  split
  · exact w
  · exact .ite w.blockRetired w

-- The replay stores, parks and restores (R166 to R175, R387, R394).

theorem Keyed.reissueReq {s u} (w : Keyed s) : Keyed (reissueReq s u) := by
  unfold Machine.reissueReq
  split
  · exact w
  · exact .ite w (.ite w.setReq w.checkReq)

theorem Keyed.chargeCmd {s c b} (w : Keyed s) : Keyed (chargeCmd s c b) := by
  unfold Machine.chargeCmd
  split
  · exact .ite w (w.chargeUser ..)
  · exact w

theorem Keyed.reissueCmd {s u} (w : Keyed s) : Keyed (reissueCmd s u) := by
  unfold Machine.reissueCmd
  split
  · split
    · exact .ite (.setCmd (.rest (.chargeCmd (.ite w w.unage)))) w
    · exact w
  · exact w

theorem Keyed.reissueRemote {s u} (w : Keyed s) : Keyed (reissueRemote s u) := by
  unfold Machine.reissueRemote
  split
  · exact .ite w.setRreq.trySend w
  · exact w

theorem Keyed.bounceEng {s u cause} (w : Keyed s) : Keyed (bounceEng s u cause) := by
  unfold Machine.bounceEng
  split
  · exact w
  · exact .ite w.leaveQueues.setEngOp.ageAt.raiseBounceLimit w.leaveQueues.setEngOp.ageAt

theorem Keyed.reissueEng {s u} (w : Keyed s) : Keyed (reissueEng s u) := by
  unfold Machine.reissueEng
  split
  · refine .ite w ?_
    split
    · exact .setEngOp (.rest (w.fold fun _ _ w => w.chargeUser ..))
    · exact w.startWalks.bounceEng
    · split
      · exact w.bounceEng.hubPark
      · exact w
    · exact w
  · exact w

theorem unhold_block (g : Gang) : g.unhold.block = g.block := block_ite (g := { g with hold := .none }) rfl rfl

theorem Keyed.unholdGangs {s core ctx} (w : Keyed s) : Keyed (unholdGangs s core ctx) :=
  w.fold fun _ _ w => w.modGang unhold_block

theorem Keyed.afterWalk {s u ctx} (w : Keyed s) : Keyed (afterWalk s u ctx) := by
  unfold Machine.afterWalk
  refine .ite w.completeLaunches (.fold ?_ fun _ _ w => w.reissueCmd)
  exact .fold (w.unholdGangs.fold fun _ _ w => w.reissueReq) fun _ _ w => w.reissueEng

theorem Keyed.execWalkComplete {s u ctx vpn} (w : Keyed s) : KeyedOut (execWalkComplete u ctx vpn s) := by
  unfold Machine.execWalkComplete
  refine .next (.ite w ?_)
  split
  · exact w.rest
  · exact .ite w w.rest.rest.afterWalk

theorem Keyed.elim {α : Type} {o : Option α} {s : State} {f : α → State} (w : Keyed s) (h : ∀ x, Keyed (f x)) :
    Keyed (o.elim s f) := by
  cases o with
  | none => exact w
  | some x => exact h x

theorem Keyed.execHoldLimitExpiry {s id} (w : Keyed s) : KeyedOut (execHoldLimitExpiry id s) := by
  unfold Machine.execHoldLimitExpiry
  refine .next ?_
  split
  · refine .ite w.bounceReq ?_
    split
    · exact w.bounceReq
    · exact w
  · exact .ite w.bounceCmd (.ite w (.ite (w.elim fun _ => w.bounceCmd) (.ite w.bounceCmd w)))
  · exact .ite w.bounceRemote w
  · exact .ite w.bounceEng (.ite w (.ite (w.elim fun _ => w.bounceEng) (.ite w.bounceEng w)))
  · exact w

theorem Keyed.execBackoffExpiry {s id} (w : Keyed s) : KeyedOut (execBackoffExpiry id s) := by
  unfold Machine.execBackoffExpiry
  refine .next ?_
  split
  · exact .ite w.reissueReq w
  · exact .ite w.reissueCmd w
  · exact .ite w.reissueRemote w
  · exact .ite w.reissueEng w
  · exact w

theorem Keyed.execSlotFreeReissue {s id} (w : Keyed s) : KeyedOut (execSlotFreeReissue id s) := by
  unfold Machine.execSlotFreeReissue
  refine .next ?_
  split
  · exact .ite w.reissueReq w
  · exact .ite w.reissueCmd w
  · exact .ite w.reissueRemote w
  · exact .ite w.reissueEng w
  · exact w

theorem Keyed.parkOut {s gang} (w : Keyed s) : Keyed (parkOut s gang) := by
  unfold Machine.parkOut
  split
  · exact w
  · split
    · exact .ite w.swapOut.modCtx w
    · exact w

theorem Keyed.haltCtx {s ctx} (w : Keyed s) : Keyed (haltCtx s ctx) := .modCtx (w.fold fun _ _ w => w.swapOut)

theorem Keyed.refuseRestore {s ctx} (w : Keyed s) : Keyed (refuseRestore s ctx) := w.notice.haltCtx

theorem Keyed.returnBlock {s n b bank} (w : Keyed s) : Keyed (returnBlock s n b bank) := .setBlock (.ite w.setArray w)

theorem Keyed.execBlockReturn {s b} (w : Keyed s) : KeyedOut (execBlockReturn b s) := by
  unfold Machine.execBlockReturn
  refine .next ?_
  split
  · exact w
  · exact .ite w.returnBlock w

theorem Keyed.fillImage {s n b img} (w : Keyed s) : Keyed (fillImage s n b img) := by
  unfold Machine.fillImage
  extract_lets tile byte base t1 t2 t3
  have w3 : Keyed t3 := .fold (.fold (w.fold fun _ _ w => w.setSbyte ..) fun _ _ w => w.setTile) fun _ _ w => w.setObyte
  split
  · exact w3.setArray
  · exact w3

theorem Keyed.unpark {s key} (w : Keyed s) : Keyed (unpark s key) := by
  unfold Machine.unpark
  split
  · exact w
  · split
    · exact w.modGang
    · exact w.reissueReq
    · exact w.modGang unhold_block
    · exact w

theorem Keyed.reissueBlock {s n} (w : Keyed s) : Keyed (reissueBlock s n) := by
  unfold Machine.reissueBlock
  split
  · exact w
  · refine .ite w ?_
    extract_lets rs again t1 t2 t3 cs t4 es t5 t6
    have wa : ∀ s e, Keyed s → Keyed (again s e) := fun _ _ w => .ite w.reissueReq w.checkReq
    have w3 : Keyed t3 := .fold (.fold (w.fold wa) wa) fun _ _ w => w.reissueReq
    have w5 : Keyed t5 := .fold (w3.fold fun _ _ w => w.reissueCmd) fun _ _ w => w.reissueEng
    exact .fold (.ite w5.drainArray w5) fun _ _ w => w.unpark

theorem Keyed.ageEntry {s u} (w : Keyed s) : Keyed (ageEntry s u) := by
  unfold Machine.ageEntry
  split
  · exact .ite w w.ageAt
  · exact w

theorem Keyed.reage {s n} (w : Keyed s) : Keyed (reage s n) := w.fold fun _ _ w => w.ageEntry

theorem Keyed.restoreBlock {s n b} (w : Keyed s) : Keyed (restoreBlock s n b) :=
  w.fillImage.countSpill.setBlock.reage.reissueBlock

theorem Keyed.execRestore {s b} (w : Keyed s) : KeyedOut (execRestore b s) := by
  unfold Machine.execRestore
  refine .next ?_
  split
  · exact w
  · exact .ite w (.ite w.restoreBlock w.refuseRestore)

end Sys2Proof.Machine
end

section
/-! What the host and the hypervisor ask for keeps gangs numbered by their blocks: save areas, the fault service, the Weir and
floors (R126, R338 to R350, R381 to R394). -/

namespace Sys2Proof.Machine

set_option Elab.async false

-- Save areas: gangs and launches put in, and what an area holds.

/-- What a save area stands for is in order: its gangs are numbered by their blocks, and no block has more than 1024 lanes. -/
def SavedOk (a : Saved) : Prop := (∀ e ∈ a.gangs, e.1 / 16 = e.2.block) ∧ ∀ e ∈ a.launches, LanesOk e.2

theorem Keyed.savedOk {s ctx a} (w : Keyed s) (h : (ctx, a) ∈ tentries s.areas) : SavedOk a :=
  ⟨w.savedGangs _ h, w.savedLanes _ h⟩

theorem Keyed.importOk {s e} (w : Keyed s) (h : e ∈ s.imports) : SavedOk e.2 := ⟨w.importGangs _ h, w.importLanes _ h⟩

/-- An area put in its place or taken out, and anything but gangs and launches changed. -/
theorem Keyed.putArea {s t c v} (w : Keyed s) (h : ∀ x ∈ v, SavedOk x) (a : t.areas = tput none s.areas c v)
    (g : t.gangs = s.gangs) (l : t.launches = s.launches) (i : t.imports = s.imports) : Keyed t :=
  have ok (x : Nat × Saved) (hx : x ∈ tentries t.areas) : SavedOk x.2 := by
    rw [a] at hx
    rcases mem_tentries_tput hx with ⟨-, hv⟩ | hx
    · exact h _ (hv ▸ rfl)
    · exact w.savedOk hx
  ⟨g ▸ w.gangs, l ▸ w.lanes, fun x hx => (ok x hx).1, fun x hx => (ok x hx).2, i ▸ w.importGangs, i ▸ w.importLanes⟩

/-- An entry of a table after saved entries are put back is one of them or was there before. -/
theorem mem_tentries_putAll {α : Type} [DecidableEq α] {l : List (Nat × α)} {t : Tab (Option α)} {e : Nat × α}
    (h : e ∈ tentries (putAll t l)) : e ∈ l ∨ e ∈ tentries t := by
  induction l generalizing t with
  | nil => exact .inr h
  | cons x r ih =>
    rcases ih h with h | h
    · exact .inl (.tail _ h)
    · rcases mem_tentries_tput h with ⟨h1, h2⟩ | h
      · injection h2 with h2
        exact .inl (Prod.ext h1 h2.symm ▸ .head _)
      · exact .inr h

theorem Keyed.putGangs {s t} {x : List (Nat × Gang)} (w : Keyed s) (h : ∀ e ∈ x, e.1 / 16 = e.2.block)
    (g : t.gangs = putAll s.gangs x) (l : t.launches = s.launches) (a : t.areas = s.areas) (i : t.imports = s.imports) : Keyed t :=
  ⟨fun e he => (mem_tentries_putAll (g ▸ he)).elim (h e) (w.gangs e), l ▸ w.lanes, a ▸ w.savedGangs, a ▸ w.savedLanes,
    i ▸ w.importGangs, i ▸ w.importLanes⟩

theorem Keyed.putLaunches {s t} {x : List (Nat × Launch)} (w : Keyed s) (h : ∀ e ∈ x, LanesOk e.2)
    (l : t.launches = putAll s.launches x) (g : t.gangs = s.gangs) (a : t.areas = s.areas) (i : t.imports = s.imports) : Keyed t :=
  ⟨g ▸ w.gangs, fun e he => (mem_tentries_putAll (l ▸ he)).elim (h e) (w.lanes e), a ▸ w.savedGangs, a ▸ w.savedLanes,
    i ▸ w.importGangs, i ▸ w.importLanes⟩

/-- What a context's area stands for as it is now is in order. -/
theorem Keyed.snapshot {s ctx c} (w : Keyed s) : SavedOk (snapshot s ctx c) :=
  ⟨fun e he => w.gangs e (List.mem_of_mem_filter he), fun e he => w.lanes e (List.mem_of_mem_filter he)⟩

/-- Numbers raised by the same amount stay in order: a gang's key by 16 for each block's number (log 51). -/
theorem SavedOk.shift {a : Saved} (h : SavedOk a) (d : Nat) : SavedOk (a.shift d) := by
  constructor
  · intro e he
    obtain ⟨x, hx, rfl⟩ := List.mem_map.mp he
    have hk : x.1 / 16 = x.2.block := h.1 x hx
    show (x.1 + 16 * d) / 16 = x.2.block + d
    omega
  · intro e he
    obtain ⟨x, hx, rfl⟩ := List.mem_map.mp he
    exact h.2 x hx

theorem savedOk_of_ok {a : Saved} (h : a.ok = true) : SavedOk a := by
  simp only [Saved.ok, Bool.and_eq_true, List.all_eq_true, beq_iff_eq] at h
  obtain ⟨⟨⟨hg, hl⟩, -⟩, -⟩ := h
  refine ⟨hg, fun e he r hr => ?_⟩
  have := hl e he
  rw [hr] at this
  exact of_decide_eq_true this

theorem Keyed.foreignArea {s bs own sv} (w : Keyed s) (h : foreignArea s bs = some (own, sv)) : SavedOk sv := by
  unfold Machine.foreignArea at h
  split at h
  · next e he =>
    cases h
    exact w.importOk (List.mem_of_find?_eq_some he)
  · obtain ⟨e, he, h⟩ := Option.map_eq_some_iff.mp h
    cases h
    exact w.savedOk (List.mem_of_find?_eq_some he)

/-- The area that a START finds is one that is known here. -/
theorem Keyed.savedArea {s ctx stopped c own sv} (w : Keyed s) (h : savedArea s ctx stopped c = some (own, sv)) : SavedOk sv := by
  unfold Machine.savedArea at h
  dsimp only at h
  split at h
  · cases h
  · split at h
    · next ha =>
      split at h
      · cases h
        exact w.savedOk (mem_tentries_of_tget ha)
      · exact w.foreignArea h
    · exact w.foreignArea h

-- Save areas (R391 to R393).

theorem Keyed.creditTime {s p} (w : Keyed s) : Keyed (creditTime s p) := by
  unfold Machine.creditTime
  dsimp only
  refine .setPart ?_
  split
  · exact w.rest
  · exact w

theorem Keyed.spillGang {s c n k} (w : Keyed s) : Keyed (spillGang s c n k) := by
  unfold Machine.spillGang
  split
  · exact w
  · exact w.putRange ..

theorem Keyed.spillStores {s c k n b img} (w : Keyed s) : Keyed (spillStores s c k n b img) := by
  unfold Machine.spillStores
  dsimp only
  refine .fold ?_ fun _ _ w => w.putByte ..
  refine .fold ?_ fun _ _ w => w.putRange ..
  exact .fold ((w.putRange ..).fold fun _ _ w => w.putRange ..) fun _ _ w => w.putByte ..

theorem Keyed.spillBlock {s c n b} (w : Keyed s) : Keyed (spillBlock s c n b) := by
  unfold Machine.spillBlock
  split
  · exact w
  · exact w.countSpill.spillStores.fold fun _ _ w => w.spillGang

theorem Keyed.writeStatus {s ctx} (w : Keyed s) : Keyed (writeStatus s ctx) := by
  unfold Machine.writeStatus
  split
  · exact w
  · exact .ite w ((w.putRange ..).writePhys ..)

theorem Keyed.sealArea {s ctx} (w : Keyed s) : Keyed (sealArea s ctx) := by
  unfold Machine.sealArea
  dsimp only
  split
  · exact w.writeStatus
  · exact w.writeStatus.putArea (forall_mem_some w.writeStatus.snapshot) rfl rfl rfl rfl

theorem Keyed.spillCtx {s ctx} (w : Keyed s) : Keyed (spillCtx s ctx) := by
  unfold Machine.spillCtx
  split
  · exact w
  · exact .ite w.notice.haltCtx (.sealArea (.fold (w.fold fun _ _ w => w.bounceRest) fun _ _ w => w.spillBlock))

-- The fault service and context control (R381 to R394).

theorem Keyed.writeRecord {s a bs} (w : Keyed s) : Keyed (writeRecord s a bs) :=
  .clearLine (((w.dropCopies ..).writeBytes ..).fold fun _ _ w => (w.storeSector ..).clearPoison ..) ..

theorem Keyed.execFaultRecordWrite {s ring} (w : Keyed s) : KeyedOut (execFaultRecordWrite ring s) := by
  unfold Machine.execFaultRecordWrite
  refine .next ?_
  dsimp only
  split
  · exact w
  · exact .ite w.writeRecord.setRing w

theorem Keyed.execFheadWrite {s ring v} (w : Keyed s) : KeyedOut (execFheadWrite ring v s) := .next (.ite w.setRing w)

theorem Keyed.execFringWrite {s ring v} (w : Keyed s) : KeyedOut (execFringWrite ring v s) := .next (.ite w.setRing w)

theorem Keyed.execFstatWrite {s page errReg v} (w : Keyed s) : KeyedOut (execFstatWrite page errReg v s) :=
  .next (.ite (.ite w.setRing w.setRing) w)

theorem Keyed.serveWait {s wr} (w : Keyed s) : Keyed (serveWait s wr) := by
  unfold Machine.serveWait
  refine .ite ?_ ?_
  · split
    · exact .ite (.ite w.reissueCmd w.setCmd) w
    · exact w
  · refine .ite ?_ w
    split
    · exact .ite w.reissueReq w
    · exact w.reissueEng

theorem serveGang_block (ring : Nat) (v : DWord) (g : Gang) : (serveGang ring v g).block = g.block := by
  unfold serveGang
  split
  · refine block_ite ?_ ?_ <;> rfl
  · rfl

theorem Keyed.execFserve {s ring v} (w : Keyed s) : KeyedOut (execFserve ring v s) := by
  unfold Machine.execFserve
  refine .next (.completeLaunches (.fold (.fold ?_ fun _ _ w => w.serveWait) fun _ _ w => w.unpark))
  exact Keyed.gangsMap (w.fold fun _ _ w => w.parkOut) rfl rfl rfl rfl (fun _ => rfl) fun _ _ => ⟨_, rfl, serveGang_block ..⟩

theorem Keyed.refusePage {s page} (w : Keyed s) : Keyed (refusePage s page) := .ite w.setRing w

theorem setPc_block (g : Gang) (pc : DWord) : (g.setPc pc).block = g.block := by
  unfold Gang.setPc
  split <;> rfl

theorem releaseTrap_block (skip : Bool) (g : Gang) : (releaseTrap skip g).block = g.block := by
  unfold releaseTrap
  split
  · exact setPc_block ..
  · rfl

theorem Keyed.resumeCtx {s ctx skip} (w : Keyed s) : Keyed (resumeCtx s ctx skip) := by
  refine .ite w.refuseRestore ?_
  extract_lets t1 t2 t3
  have w2 : Keyed t2 := .fold (w.fold fun _ _ w => w.modGang (releaseTrap_block skip)) fun _ _ w => w.modBlock
  exact .ite w2.modCtx.sealArea w2.modCtx.writeStatus

theorem Keyed.execCtxctlResume {s page ctx} (w : Keyed s) : KeyedOut (execCtxctlResume page ctx s) := by
  unfold Machine.execCtxctlResume
  refine .next ?_
  split
  · exact .ite w.resumeCtx w.refusePage
  · exact w.refusePage

theorem Keyed.execCtxctlSkip {s page ctx} (w : Keyed s) : KeyedOut (execCtxctlSkip page ctx s) := by
  unfold Machine.execCtxctlSkip
  refine .next ?_
  split
  · exact .ite w.resumeCtx w.refusePage
  · exact w.refusePage

theorem Keyed.cancelLaunch {s u} (w : Keyed s) : Keyed (cancelLaunch s u) := by
  unfold Machine.cancelLaunch
  split
  · next l hl =>
    have ok : LanesOk l := w.lanesOk hl
    exact .completeLaunch (w.setLaunch ok)
  · exact w

theorem Keyed.killCtx {s ctx} (w : Keyed s) : Keyed (killCtx s ctx) := by
  unfold Machine.killCtx
  dsimp only
  refine .writeStatus (.fold ?_ fun _ _ w => w.cancelLaunch)
  refine .modCtx (.fold ?_ fun _ _ w => w.creditTime.setPart)
  refine .rest (.fold (w.unageAll.fold_mem fun _ e he w' => w'.setLaunch ?_) fun _ _ w => w.blockGone)
  have ok : LanesOk e.2 := w.lanes e (List.mem_of_mem_filter he)
  exact ok

theorem Keyed.execCtxctlKill {s page ctx} (w : Keyed s) : KeyedOut (execCtxctlKill page ctx s) := by
  unfold Machine.execCtxctlKill
  refine .next ?_
  split
  · exact w.killCtx
  · exact w.refusePage

theorem Keyed.endStop {s ctx} (w : Keyed s) : Keyed (endStop s ctx) := .ite w w.modCtx.spillCtx

theorem Keyed.stopCtx {s ctx} (w : Keyed s) : Keyed (stopCtx s ctx) :=
  .endStop (.modCtx (.fold (w.fold fun _ _ w => w.rest.deliver) fun _ _ w => w.swapOut))

theorem Keyed.endStops {s} (w : Keyed s) : Keyed (endStops s) := w.fold fun _ _ w => .ite w.endStop w

theorem Keyed.execCtxctlStop {s page ctx} (w : Keyed s) : KeyedOut (execCtxctlStop page ctx s) := by
  unfold Machine.execCtxctlStop
  refine .next ?_
  split
  · exact .ite w.stopCtx w.refusePage
  · exact w.refusePage

theorem Keyed.badDescriptor {s page ctx} (w : Keyed s) : Keyed (badDescriptor s page ctx) := w.notice.refusePage

theorem Keyed.createCtx {s ctx c} (w : Keyed s) : Keyed (createCtx s ctx c) :=
  .writeStatus (.setCtx (w.putArea forall_mem_none rfl rfl rfl rfl))

theorem Keyed.execCtxctlCreate {s page ctx} (w : Keyed s) : KeyedOut (execCtxctlCreate page ctx s) := by
  unfold Machine.execCtxctlCreate
  refine .next (.ite w.refusePage ?_)
  refine .ite w ?_
  split
  · exact w.badDescriptor
  · split
    · exact w.badDescriptor
    · exact .ite w.createCtx w

theorem Keyed.putQueues {s ctx l} (w : Keyed s) : Keyed (putQueues s ctx l) := w.fold fun _ _ w => w.setQueue

theorem Keyed.putCrews {s ctx vf l} (w : Keyed s) : Keyed (putCrews s ctx vf l) := w.fold fun _ _ w => w.setCrew

theorem Keyed.startHere {s ctx vf sv} (w : Keyed s) : Keyed (startHere s ctx vf sv) :=
  .putCrews (.of_eq (.fold (w.fold fun _ _ w => w.modBlock) fun _ _ w => w.modGang) rfl rfl rfl rfl)

theorem Keyed.startAway {s ctx vf sv} (w : Keyed s) (h : SavedOk sv) : Keyed (startAway s ctx vf sv) := by
  unfold Machine.startAway
  extract_lets t1 ringHere t2 t3
  have w1 : Keyed t1 := by
    refine w.putLaunches (fun e he => ?_) rfl rfl rfl rfl
    obtain ⟨x, hx, rfl⟩ := List.mem_map.mp he
    exact h.2 x hx
  have w2 : Keyed t2 := by
    refine w1.putGangs (fun e he => ?_) rfl rfl rfl rfl
    obtain ⟨x, hx, rfl⟩ := List.mem_map.mp he
    exact h.1 x hx
  exact .putQueues (.putCrews (w2.fold fun _ _ w => w.ageEntry))

theorem Keyed.dropCtx {s ctx} (w : Keyed s) : Keyed (dropCtx s ctx) :=
  have wd : Keyed ((ctxBlocks s ctx).foldl (fun s e => Machine.removeBlock (Machine.unageAll s (entryOf s e.1)) e.1) s) :=
    w.fold fun _ _ w => w.unageAll.removeBlock
  ⟨wd.gangs, fun e he => wd.lanes e (mem_tentries_filter he), wd.savedGangs, wd.savedLanes, wd.importGangs, wd.importLanes⟩

theorem Keyed.startCtx {s ctx c live own sv} (w : Keyed s) (h : SavedOk sv) : Keyed (startCtx s ctx c live own sv) := by
  unfold Machine.startCtx
  dsimp only
  refine .sealArea ?_
  exact .ite (.startHere (.setCtx (.rest (.ite w w.rest)))) (.startAway (.dropCtx (.setCtx (.rest (.ite w w.rest)))) (h.shift _))

theorem Keyed.badShape {s page ctx} (w : Keyed s) : Keyed (badShape s page ctx) := w.notice.refusePage

theorem Keyed.importArea {s base sv} (w : Keyed s) : Keyed (importArea s base sv) := by
  unfold Machine.importArea
  split
  · exact w
  · next hn =>
    have ok : SavedOk sv := savedOk_of_ok (by
      simp only [Bool.or_eq_true, Bool.not_eq_true', not_or, Bool.not_eq_false] at hn
      exact hn.1)
    have wr : Keyed (Machine.putRange s base (0x20000 + 0x50000000 * sv.ctx.parts) sv.bytes) := w.putRange ..
    refine ⟨wr.gangs, wr.lanes, wr.savedGangs, wr.savedLanes, fun a ha => ?_, fun a ha => ?_⟩
    all_goals rcases List.mem_append.mp ha with ha | ha
    · exact wr.importGangs a ha
    · exact List.mem_singleton.mp ha ▸ ok.1
    · exact wr.importLanes a ha
    · exact List.mem_singleton.mp ha ▸ ok.2

theorem Keyed.execCtxctlStart {s page ctx} (w : Keyed s) : KeyedOut (execCtxctlStart page ctx s) := by
  unfold Machine.execCtxctlStart
  refine .next (.ite w.refusePage ?_)
  refine .ite w ?_
  split
  · exact w.badDescriptor
  · split
    · exact w.badDescriptor
    · refine .ite w ?_
      dsimp only
      split
      · exact w.badShape
      · next hs =>
        split
        · exact w.badDescriptor
        · exact .ite (w.startCtx (w.savedArea hs)) w.badShape

theorem Keyed.execLcancel {s page v} (w : Keyed s) : KeyedOut (execLcancel page v s) :=
  .next (.ite w.refusePage (w.fold fun _ _ w => w.cancelLaunch))

-- Time slices and the shadow swap (R341, R342, R388 to R390).

theorem Keyed.noteSched {s vf} (w : Keyed s) : Keyed (noteSched s vf) := .ite w.rest w

theorem Keyed.endTurn {s p} (w : Keyed s) : Keyed (endTurn s p) := by
  unfold Machine.endTurn
  dsimp only
  split
  · exact w
  · exact w.setPart

theorem Keyed.beginTurn {s p vf idx ctx quant} (w : Keyed s) : Keyed (beginTurn s p vf idx ctx quant) :=
  w.setPart.examineAll

theorem Keyed.takeBank {s p bank ctx} (w : Keyed s) : Keyed (takeBank s p bank ctx) :=
  .setPart (.ite w.creditTime (w.creditTime.fold fun _ _ w => w.swapOut))

theorem Keyed.flipBlock {s n b} (w : Keyed s) : Keyed (flipBlock s n b) :=
  w.bouncePeer.clearWays.settleCmds.loseSlots.dropAhead.fold fun _ _ w => w.modGang

theorem Keyed.flipBank {s p incoming} (w : Keyed s) : Keyed (flipBank s p incoming) :=
  .setPart (w.creditTime.fold fun _ _ w => w.flipBlock)

theorem Keyed.noteRead {s p} (w : Keyed s) : Keyed (noteRead s p) := w.fold fun _ _ w => w.noteSched

theorem Keyed.adoptCtx_some {s t p ctx} (w : Keyed s) (h : adoptCtx s p ctx = some t) : Keyed t := by
  unfold Machine.adoptCtx at h
  dsimp only at h
  split_ifs at h <;> cases h
  · exact w.creditTime.setPart
  · exact w
  · exact w.takeBank
  · exact w.takeBank.flipBank

theorem Keyed.nextTurn {s p} (w : Keyed s) : Keyed (nextTurn s p) := by
  unfold Machine.nextTurn
  dsimp only
  split
  · exact w.noteRead
  · split
    · exact (w.noteRead.adoptCtx_some ‹_›).beginTurn
    · exact w.noteRead

theorem Keyed.nextContext {s p t} (w : Keyed s) : Keyed (nextContext s p t) := by
  unfold Machine.nextContext
  split
  · exact w.endTurn.nextTurn
  · split
    · exact w
    · exact (w.adoptCtx_some ‹_›).setPart.examineAll

theorem Keyed.execTurnStart {s part} (w : Keyed s) : KeyedOut (execTurnStart part s) := by
  unfold Machine.execTurnStart
  refine .next (.ite w ?_)
  split
  · exact w.nextTurn
  · split
    · exact .ite w.nextContext w
    · exact .ite w w.nextContext

theorem Keyed.drainTurn {s p t} (w : Keyed s) : Keyed (drainTurn s p t) := w.setPart

theorem Keyed.execSliceEnd {s part} (w : Keyed s) : KeyedOut (execSliceEnd part s) := by
  unfold Machine.execSliceEnd
  refine .next ?_
  split
  · exact .ite w.drainTurn w
  · exact w

theorem Keyed.execQuantExpiry {s part} (w : Keyed s) : KeyedOut (execQuantExpiry part s) := by
  unfold Machine.execQuantExpiry
  refine .next ?_
  split
  · refine .ite w ?_
    split
    · exact .ite w.setPart (.ite w.drainTurn w.nextContext)
    · exact w
  · exact w

theorem Keyed.leaveTurn {s p} (w : Keyed s) : Keyed (leaveTurn s p) := by
  unfold Machine.leaveTurn
  split
  · exact .ite w.setPart w.endTurn
  · exact w

theorem Keyed.goUrgent {s p} (w : Keyed s) : Keyed (goUrgent s p) :=
  .ite w (.ite w.setPart (.setPart (.leaveTurn (w.fold fun _ _ w => w.swapOut))))

theorem Keyed.execDrainLimitExpiry {s part} (w : Keyed s) : KeyedOut (execDrainLimitExpiry part s) := by
  unfold Machine.execDrainLimitExpiry
  refine .next ?_
  split
  · split
    · exact .ite w.goUrgent w
    · exact w
  · exact w

theorem Keyed.execShadowSwap {s part} (w : Keyed s) : KeyedOut (execShadowSwap part s) := by
  unfold Machine.execShadowSwap
  refine .next (.ite w ?_)
  dsimp only
  split
  · exact .ite w.leaveTurn.takeBank.flipBank w.leaveTurn.flipBank
  · exact w.leaveTurn.flipBank

theorem Keyed.resumeBank {s p} (w : Keyed s) : Keyed (resumeBank s p) := w.fold fun _ _ w => w.reissueBlock

theorem Keyed.execFlipComplete {s part} (w : Keyed s) : KeyedOut (execFlipComplete part s) := by
  unfold Machine.execFlipComplete
  refine .next ?_
  dsimp only
  split
  · refine .ite ?_ w
    refine .resumeBank ?_
    split
    · exact w.setPart.examineAll
    · exact w.setPart
  · exact w

theorem Keyed.spillResident {s e} (w : Keyed s) : Keyed (spillResident s e) := by
  unfold Machine.spillResident
  split
  · exact .ite w.bounceRest.spillBlock w
  · exact w

theorem Keyed.spillTime {s p} (w : Keyed s) : Keyed (spillTime s p) := .ite w w.setPart

theorem Keyed.execSpillComplete {s part} (w : Keyed s) : KeyedOut (execSpillComplete part s) := by
  unfold Machine.execSpillComplete
  refine .next (.ite w.endStops ?_)
  exact .endStops (.setPart (.fold (w.spillTime.fold fun _ _ w => w.spillResident) fun _ _ w => w.spillCtx))

theorem Keyed.fillBlock {s bank n} (w : Keyed s) : Keyed (fillBlock s bank n) := by
  unfold Machine.fillBlock
  split
  · exact w
  · refine .ite w (.ite w.refuseRestore ?_)
    dsimp only
    split
    · exact w.returnBlock.restoreBlock
    · exact w.returnBlock

theorem Keyed.execFillComplete {s part} (w : Keyed s) : KeyedOut (execFillComplete part s) := by
  unfold Machine.execFillComplete
  refine .next (.ite w ?_)
  dsimp only
  split
  · exact w.setPart
  · exact .resumeBank (w.setPart.fold fun _ _ w => w.fillBlock)

-- The physical function's registers (R126, R338, R343 to R347).

theorem Keyed.noteCfg {s} (w : Keyed s) : Keyed (noteCfg s) := w.rest

theorem Keyed.execVpartWrite {s vf v} (w : Keyed s) : KeyedOut (execVpartWrite vf v s) := by
  have h : Keyed ((List.range 8).foldl Machine.creditTime (Machine.noteCfg s)) := w.noteCfg.fold fun _ _ w => w.creditTime
  unfold Machine.execVpartWrite
  generalize (List.range 8).foldl Machine.creditTime (Machine.noteCfg s) = t at h
  exact .next (.ite w (.ite (h.rest) h.setVf))

theorem Keyed.execVpolWrite {s vf v} (w : Keyed s) : KeyedOut (execVpolWrite vf v s) :=
  .next (.ite w (.ite w.noteCfg.setVf w.noteCfg))

theorem Keyed.setFloor {s chan vf n} (w : Keyed s) : Keyed (setFloor s chan vf n) :=
  .ite w.rest w.rest

theorem Keyed.execFloorWrite {s chan group v} (w : Keyed s) : KeyedOut (execFloorWrite chan group v s) :=
  .next (.ite (w.noteCfg.fold fun _ _ w => w.setFloor) w)

theorem Keyed.settleDeficit {s chan vf} (w : Keyed s) : Keyed (settleDeficit s chan vf) := w.rest

theorem Keyed.writeInvctl {s v} (w : Keyed s) : Keyed (writeInvctl s v) :=
  .ite w.rest (.ite w.rest (.ite w.rest w.rest))

theorem Keyed.unschedule {s ctx c} (w : Keyed s) : Keyed (unschedule s ctx c) := .ite w.notice w.notice.stopCtx

theorem Keyed.rereadDescriptor {s ctx} (w : Keyed s) : Keyed (rereadDescriptor s ctx) := by
  unfold Machine.rereadDescriptor
  split
  · refine .ite w ?_
    split
    · exact w.setCtx
    · exact w.unschedule
  · exact .ite w w.unschedule
  · exact w

theorem Keyed.execInvalidationDone {s} (w : Keyed s) : KeyedOut (execInvalidationDone s) := by
  unfold Machine.execInvalidationDone
  refine .next ?_
  split
  · exact w
  · exact .ite w (.ite (.rereadDescriptor w.rest) w.rest)

theorem Keyed.execDtword {s} (w : Keyed s) : KeyedOut (execDtword s) := by
  unfold Machine.execDtword
  refine .next ?_
  split
  · exact w.rest
  · exact .ite w (.of_eq (.ite ((w.sectorRead ..).rest) (w.writeHome ..)) rfl rfl rfl rfl)

end Sys2Proof.Machine
end

section
/-! Meters, upkeep, effects and registers keep gangs numbered by their blocks (R18, R351 to R378, R401 to R408). -/

namespace Sys2Proof.Machine

set_option Elab.async false

-- Meters, energy records and attestation (R351 to R357).

theorem Keyed.addEnergy {s u n} (w : Keyed s) : Keyed (addEnergy s u n) := w.rest

theorem Keyed.shareOut {s n ws} (w : Keyed s) : Keyed (shareOut s n ws) := by
  unfold Machine.shareOut
  dsimp only
  split
  · exact w.addEnergy
  · exact .addEnergy (w.fold fun _ _ w => w.addEnergy)

theorem Keyed.assignEnergy {s d} (w : Keyed s) : Keyed (assignEnergy s d) := by
  unfold Machine.assignEnergy
  split <;> exact w.shareOut

theorem Keyed.energyNotice {s page ctx} (w : Keyed s) : Keyed (energyNotice s page ctx) := w.postRec

theorem Keyed.blockSlots {s page ctx va} (w : Keyed s) : Keyed (blockSlots s page ctx va) :=
  w.fold fun _ _ w => (w.sectorRead ..).hubSlot

theorem Keyed.writeMeter_some {s t page ctx va bs} (w : Keyed s) (h : writeMeter s page ctx va bs = some t) : Keyed t := by
  unfold Machine.writeMeter at h
  dsimp only at h
  split at h
  · cases h
  · cases h
    refine w.fold fun s p w => ?_
    split
    · exact w.hubWrite
    · exact w

theorem Keyed.answerMeter {s page ctx va busy} (w : Keyed s) : Keyed (answerMeter s page ctx va busy) := by
  unfold Machine.answerMeter
  dsimp only
  split
  · exact w.blockSlots.energyNotice
  · split
    · exact w.blockSlots.energyNotice
    · exact (w.blockSlots.writeMeter_some ‹_›).rest

theorem Keyed.execEnreq {s page v} (w : Keyed s) : KeyedOut (execEnreq page v s) :=
  .next (.ite w (.ite w.energyNotice (.ite (.ite w.answerMeter w) w.setVf)))

theorem Keyed.execEnctx {s vf v} (w : Keyed s) : KeyedOut (execEnctx vf v s) := .next (.ite w.setVf w)

theorem Keyed.execEnergyRecord {s page} (w : Keyed s) : KeyedOut (execEnergyRecord page s) := by
  unfold Machine.execEnergyRecord
  refine .next ?_
  dsimp only
  split
  · exact w
  · exact .ite w.setVf.answerMeter w

theorem Keyed.exportOne {s vf idx} (w : Keyed s) : Keyed (exportOne s vf idx) := w.rest

theorem Keyed.execEnergyExport {s ctx} (w : Keyed s) : KeyedOut (execEnergyExport ctx s) := by
  unfold Machine.execEnergyExport
  refine .next ?_
  split
  · exact .ite (w.fold fun _ _ w => w.exportOne) w
  · exact w

theorem Keyed.offerFirmware {s i image rsa slh} (w : Keyed s) : Keyed (offerFirmware s i image rsa slh) :=
  .ite w.rest w

-- Memory's upkeep, resets and readiness (R401 to R408).

theorem Keyed.execPeqdataClr {s v} (w : Keyed s) : KeyedOut (execPeqdataClr v s) :=
  .next (.ite w.rest w)

/-- A list of pages read by patrol is set (R404). -/
theorem Keyed.setPatrolPages {s : State} {l : List Nat} (w : Keyed s) :
    Keyed { s with mem := { s.mem with patrolPages := l } } :=
  w.rest

theorem Keyed.execPatrolRead {s page} (w : Keyed s) : KeyedOut (execPatrolRead page s) := by
  have h : Keyed ((List.range 2048).foldl (fun s i => (Machine.dramRead s (page * 2048 + i)).1) s) :=
    w.fold fun _ _ w => w.dramRead
  unfold Machine.execPatrolRead
  generalize (List.range 2048).foldl (fun s i => (Machine.dramRead s (page * 2048 + i)).1) s = t at h
  exact .next (.ite h.setPatrolPages w)

theorem Keyed.patrolRest {s} (w : Keyed s) : Keyed (patrolRest s) := w.fold fun _ _ w => .ite w.dramRead w

/-- A warm reset leaves no gang and no launch, and the save areas as they are (R406). -/
theorem Keyed.execWarmReset {s} (w : Keyed s) : KeyedOut (execWarmReset s) :=
  .next { w with gangs := fun _ he => absurd he List.not_mem_nil, lanes := fun _ he => absurd he List.not_mem_nil }

-- Effects and handlers (R360 to R378).

theorem landEffect_block (g : Gang) (f : Nat) (fr : Frame) (m : Lanes) (v : VVal) (tok : DWord) (kc id : Nat) :
    (landEffect g f fr m v tok kc id).block = g.block := rfl

theorem restoreWindow_block (g : Gang) (r : Rec) : (restoreWindow g r).block = g.block := rfl

theorem usedRec_block (g : Gang) (i : Nat) (r : Rec) : (usedRec g i r).block = g.block := by
  unfold usedRec
  split <;> rfl

theorem Keyed.execPerform {s p kind d a kw id} (w : Keyed s) : KeyedOut (execPerform p kind d a kw id s) := by
  unfold Machine.execPerform
  refine w.issue fun key g _ h => .ite w.retire ?_
  have hk {g' : Gang} {f fr m v tok kc id} (e : g'.block = g.block) : key / 16 = (landEffect g' f fr m v tok kc id).block :=
    h.trans (e.symm.trans (landEffect_block ..).symm)
  split
  · exact w.trapHere
  · split
    · exact w.trapHere
    · refine .ite (w.commit (hk rfl)) (.ite w.trapHere ?_)
      split
      · exact w.trapHere
      · exact w.commit (hk rfl)

theorem Keyed.execResume {s kt vs} (w : Keyed s) : KeyedOut (execResume kt vs s) := by
  unfold Machine.execResume
  refine w.issue fun _ g _ h => ?_
  split
  · exact w.trapHere
  · refine .ite w.trapHere (w.setGang (h.trans (Eq.symm ?_)))
    refine (settleSplits_block ..).trans ((usedRec_block ..).trans ?_)
    split <;> rfl

theorem Keyed.killSplit {s key i} (w : Keyed s) : Keyed (killSplit s key i) := by
  unfold Machine.killSplit
  split
  · exact w
  · split
    · exact w
    · exact w.modBlock.postRec.dropLanes

theorem Keyed.defaultEffect {s key g sp id} (w : Keyed s) : Keyed (defaultEffect s key g sp id) :=
  .ite w.killSplit (.ite w.postRec w)

theorem Keyed.dropHold {s key uid} (w : Keyed s) : Keyed (dropHold s key uid) := by
  unfold Machine.dropHold
  split
  · exact .ite w.setArray w
  · exact w

theorem Keyed.deliverEffect {s key g sp e} (w : Keyed s) (h : key / 16 = g.block) : Keyed (deliverEffect s key g sp e) := by
  unfold Machine.deliverEffect
  dsimp only
  refine .ite (.commit w.dropHold h) ?_
  split
  · split
    · exact .defaultEffect (.commit w.dropHold h)
    · exact .commit w.dropHold h
  · exact .defaultEffect (.commit w.dropHold h)

theorem Keyed.execFwd {s kt va} (w : Keyed s) : KeyedOut (execFwd kt va s) := by
  unfold Machine.execFwd
  refine w.issue fun _ _ _ h => ?_
  split
  · exact w.trapHere
  · refine .ite w.trapHere (.ite w.trapHere ?_)
    dsimp only
    split
    · split
      · exact w.trapHere
      · refine .commit w (h.trans (Eq.symm ((landEffect_block ..).trans ?_)))
        split <;> rfl
    · refine .ite w.trapHere ?_
      split
      · exact w.trapHere
      · split
        · exact w.trapHere
        · split
          · refine .modGang ?_
            exact .defaultEffect (.commit w h)
          · refine .setGang ?_ ?_
            · exact .defaultEffect (.commit w h)
            · refine h.trans (Eq.symm ((settleSplits_block ..).trans ?_))
              exact usedRec_block (restoreWindow _ _) ..

theorem Keyed.execTkdrop {s a} (w : Keyed s) : KeyedOut (execTkdrop a s) := by
  unfold Machine.execTkdrop
  refine w.issue fun _ _ _ _ => ?_
  split
  · exact w.trapHere
  · exact w.retire

theorem Keyed.deliverNext {s key dog} (w : Keyed s) : Keyed (deliverNext s key dog) := by
  unfold Machine.deliverNext
  split
  · exact w
  next g hg =>
    split
    · exact w
    · split
      · exact .ite (w.deliverEffect (w.key hg)) w
      · exact w

-- Registers by offset (R358).

theorem Keyed.after {s o} (w : Keyed s) (h : KeyedOut o) : Keyed (after s o) := by
  cases o with
  | next t => exact h t rfl
  | fault => exact w
  | refused => exact w

theorem Keyed.writePart {s p r v} (w : Keyed s) : Keyed (writePart s p r v) :=
  .ite w.setPart (.ite w.setPart (.ite (.ite w.noteCfg.setPart.goUrgent w.noteCfg.setPart) (.ite w.setPart w)))

theorem Keyed.writeVf {s vf r v} (w : Keyed s) : Keyed (writeVf s vf r v) := by
  unfold Machine.writeVf
  dsimp only
  refine .ite (w.after w.execVpartWrite) ?_
  exact .ite (w.after w.execVpolWrite) (.ite w.noteCfg.setVf (.ite (w.after w.execFringWrite) (.ite w.setVf w)))

theorem Keyed.writeQueue {s q r v} (w : Keyed s) : Keyed (writeQueue s q r v) := .ite w.setQueue w.setQueue

theorem Keyed.writeWeirerr {s v} (w : Keyed s) : Keyed (writeWeirerr s v) := w.rest

theorem Keyed.writeCtxctl {s page v} (w : Keyed s) : Keyed (writeCtxctl s page v) := by
  unfold Machine.writeCtxctl
  dsimp only
  split
  · exact w
  · exact w.after w.execCtxctlResume
  · exact w.after w.execCtxctlSkip
  · exact w.after w.execCtxctlKill
  · exact w.after w.execCtxctlStop
  · exact w.after w.execCtxctlStart
  · exact w.after w.execCtxctlCreate
  · exact w.refusePage

theorem Keyed.writeFaultPage {s page r v} (w : Keyed s) : Keyed (writeFaultPage s page r v) := by
  unfold Machine.writeFaultPage
  refine .ite (w.after w.execFheadWrite) (.ite (w.after w.execFstatWrite) ?_)
  refine .ite (w.after w.execFserve) ?_
  exact .ite w.writeCtxctl (.ite (w.after w.execFstatWrite) (.ite (w.after w.execLcancel) w))

/-- DTSEL is set (R347). -/
theorem Keyed.setDtsel {s : State} {x : DWord} (w : Keyed s) : Keyed { s with pf := { s.pf with dtsel := x } } :=
  w.rest

/-- The length of a patrol period is set (R404). -/
theorem Keyed.setPeriod {s : State} {n : Nat} (w : Keyed s) : Keyed { s with mem := { s.mem with period := n } } :=
  w.rest

theorem Keyed.writeSingle {s off v} (w : Keyed s) : Keyed (writeSingle s off v) := by
  refine .ite (w.after w.execFringWrite) (.ite w.writeWeirerr (.ite w.rest (.ite w.writeInvctl ?_)))
  refine .ite w.setDtsel (.ite w.rest (.ite w.rest (.ite w.rest ?_)))
  exact .ite w.setPeriod (.ite w.rest (.ite (w.after w.execPeqdataClr) w))

theorem Keyed.execRegisterWrite {s off size v} (w : Keyed s) : KeyedOut (execRegisterWrite off size v s) := by
  unfold Machine.execRegisterWrite
  refine .next (.ite w ?_)
  refine .ite w.writeFaultPage (.ite (w.after w.execEnreq) ?_)
  refine .ite w.writeSingle (.ite w.writeVf ?_)
  exact .ite w.writePart (.ite w.writeQueue (.ite (w.after w.execFloorWrite) (.ite w.rest w)))

end Sys2Proof.Machine
end

section
/-! Every step keeps gangs numbered by their blocks (O60): fetching, the choice of the gang that issues, what the surroundings do,
and every instruction. -/

namespace Sys2Proof.Machine

set_option Elab.async false

-- Fetching an instruction (R40 to R42, R65, R82 to R86).

theorem Keyed.fillIcache {s b pc} (w : Keyed s) : Keyed (fillIcache s b pc) := by
  unfold Machine.fillIcache
  split
  · exact .ite w (((w.sectorRead ..).arrivalServed.chargeSlots ..).rest)
  · exact w

theorem Keyed.fetchTrap {s cause sub addrs} (w : Keyed s) : KeyedOut (fetchTrap s cause sub addrs) :=
  w.issue fun _ _ _ _ => w.takeTrap

theorem Keyed.fetchWalk {s key b vpn} (w : Keyed s) : Keyed (fetchWalk s key b vpn) := w.startWalk.modGang

theorem Keyed.fetchPark {s key g sp b stage page} (w : Keyed s) : Keyed (fetchPark s key g sp b stage page) :=
  w.postPage.modGang

theorem Keyed.holdFetch {s key x} (w : Keyed s) : Keyed (holdFetch s key x) := by
  unfold Machine.holdFetch
  split
  · split
    · exact w.fetchWalk
    · exact w.fetchPark
    · exact w
  · exact w

theorem Keyed.nextTurnOf {s} (w : Keyed s) : Keyed (nextTurnOf s).2 := by
  unfold Machine.nextTurnOf
  split
  · exact w.rest
  · exact w

-- The choice of the gang that issues (R158 to R162).

theorem Keyed.look {s key} (w : Keyed s) : Keyed (look s key) := by
  refine w.modGang fun g => ?_
  dsimp only
  split
  · split
    · exact switchSplit_block ..
    · rfl
  · rfl

theorem Keyed.arrange {s fresh key} (w : Keyed s) : Keyed (arrange s fresh key) := by
  unfold Machine.arrange
  refine .ite ?_ (.refill (w.fold fun _ _ w => w.look))
  split
  · next g hg =>
    refine .ite w (.refill (.setGang w ?_))
    exact (w.key hg : key / 16 = g.block)
  · exact w

theorem Keyed.passTime {s n} (w : Keyed s) : Keyed (passTime s n) := by
  unfold Machine.passTime
  split
  · exact w
  · exact .rest (w.rest.fold fun _ _ w => w.arrange)

theorem Keyed.issuer {s key} (w : Keyed s) : Keyed (issuer s key) := by
  unfold Machine.issuer
  extract_lets t0 t1 t2
  have w1 : Keyed t1 := w.arrange.rest
  have w2 : Keyed t2 := by
    unfold t2
    split
    · split
      · exact w1.fillIcache
      · exact w1
    · exact w1
  split
  · exact .ite w2.modGang w2
  · exact w2

-- Register pages (R4, R358).

theorem Keyed.mmioRead {s page off size} (w : Keyed s) : Keyed (mmioRead s page off size) :=
  .ite w (.rest (.ite (w.after w.execDtword) w))

theorem Keyed.writeVfBar0 {s vf off size v} (w : Keyed s) : Keyed (writeVfBar0 s vf off size v) := by
  unfold Machine.writeVfBar0
  refine .ite w (.ite (w.after w.execKick) ?_)
  exact .ite w (.ite (w.after w.execEnreq) (.ite (w.after w.execEnctx) (.ite w.writeFaultPage w)))

-- What the surroundings do between steps.

theorem Keyed.loadAhead {s key sector} (w : Keyed s) : Keyed (loadAhead s key sector) :=
  .ite (((w.arrivalServed.sectorRead ..).chargeSlots ..).rest) w

theorem Keyed.setFull {s cluster full} (w : Keyed s) : Keyed (setFull s cluster full) := w.rest

theorem Keyed.setDevice {s n} (w : Keyed s) : Keyed (setDevice s n) := .ite w.rest w

theorem Keyed.setDefer {s key on} (w : Keyed s) : Keyed (setDefer s key on) := w.modGang

-- What a gang's own changes leave of its block, and the accounts of a window of the weirs (R387).

theorem clearCurResv_block (g : Gang) : (clearCurResv g).block = g.block := by
  unfold clearCurResv
  split <;> rfl

theorem fairExpire_block (g : Gang) : (fairExpire g).block = g.block := by
  unfold fairExpire
  split
  · rfl
  · split
    · exact switchSplit_block g
    · split
      · rfl
      · exact block_ite rfl ((switchSplit_block _).trans (clearCurResv_block g))

theorem freeRec_block (g : Gang) (i : Nat) : (freeRec g i).block = g.block := rfl

theorem endInvocation_block (s : State) (g : Gang) (sp : Split) (inv : Inv) : (endInvocation s g sp inv).1.block = g.block := by
  unfold endInvocation
  dsimp only
  split
  · exact block_ite rfl rfl
  · rfl

theorem afterExit_block (s : State) (g : Gang) (sp : Split) : (afterExit s g sp).1.block = g.block := by
  unfold afterExit
  split
  · rfl
  · split
    · exact endInvocation_block ..
    · rfl

/-- A sleep that ends readies its split and leaves the gang with its block (R189). -/
theorem Keyed.execSleepExpiry {s key i} (w : Keyed s) : KeyedOut (execSleepExpiry key i s) := by
  refine .next (w.modGang fun g => ?_)
  split
  · split
    · exact block_ite rfl rfl
    · rfl
  · rfl

theorem Keyed.execFairnessTimer {s key} (w : Keyed s) : KeyedOut (execFairnessTimer key s) :=
  .next (w.modGang fun g => block_ite (fairExpire_block g) rfl)

theorem Keyed.execIssueBoost {s key} (w : Keyed s) : KeyedOut (execIssueBoost key s) :=
  .next (w.modGang fun g => block_ite (g := { g with sched := { g.sched with boost := true } }) rfl rfl)

theorem Keyed.execTfirst {s d a} (w : Keyed s) : KeyedOut (execTfirst d a s) :=
  w.localOp fun _ _ _ => by split <;> rfl

theorem Keyed.execVcsub {s p t d a b m} (w : Keyed s) : KeyedOut (execVcsub p t d a b m s) :=
  w.localOp fun _ _ _ => by
    dsimp only
    split <;> rfl

theorem Keyed.execFstat {s clr d} (w : Keyed s) : KeyedOut (execFstat clr d s) :=
  w.localOp fun _ _ _ => block_ite rfl rfl

theorem Keyed.execBallot {s p d a} (w : Keyed s) : KeyedOut (execBallot p d a s) :=
  w.localOp fun _ _ _ => by
    dsimp only
    split <;> rfl

theorem Keyed.execWeirWindow {s chan} (w : Keyed s) : KeyedOut (execWeirWindow chan s) := by
  have h : Keyed ((List.range 64).foldl (fun s vf => Machine.settleDeficit s chan vf) s) := w.fold fun _ _ w => w.settleDeficit
  unfold Machine.execWeirWindow
  generalize (List.range 64).foldl (fun s vf => Machine.settleDeficit s chan vf) s = t at h
  exact .next (.ite h.rest w)

/-- Bring-up begins without a gang, a launch or a save area (R407). -/
theorem Keyed.reset : Keyed State.reset := by
  constructor <;> exact fun _ he => absurd he List.not_mem_nil

-- Every instruction and every event, those of one shared operation together; then every turn of the agenda (log 2).

theorem Keyed.exec {s i} (w : Keyed s) : KeyedOut (exec i s) := by
  unfold Machine.exec
  cases i with
  | nop | movk | ktov | vtok | ktom | mtok | mand | mor | mxor | mnot | mpopc | mfirst | setpri | tkstat | vcmp
  | fcmp | dqmx | vote | vlane | pair => exact w.localOp
  | bra | call => exact w.issue fun _ _ _ _ => w.commit
  | brc | brv => exact w.issue fun _ _ _ _ => .ite w.commit w.retire
  | addk | subk | mulk | mulhk | andk | ork | xork | shlk | shrk | sark | mink | maxk => exact w.kOp
  | addkImm | subkImm | mulkImm | mulhkImm | andkImm | orkImm | xorkImm | shlkImm | shrkImm | sarkImm | minkImm | maxkImm =>
    exact w.kOpImm
  | swrTwin | rcwin => exact w.issue fun _ _ _ _ => .ite w.trapHere w.retire.pushArray
  | swrRcstat | rcmode | rcgo | rcclr => exact w.issue fun _ _ _ _ => w.retire.pushArray
  | waitc | mwait => exact w.issueWhen fun _ _ _ _ => w.retire
  | sleep | mrel | mbatch => exact w.issue fun _ _ _ _ => w.retire
  | sleepExpiry => exact w.execSleepExpiry
  | fairnessTimer => exact w.execFairnessTimer
  | issueBoost => exact w.execIssueBoost
  | tfirst => exact w.execTfirst
  | vcsub => exact w.execVcsub
  | fstat => exact w.execFstat
  | ballot => exact w.execBallot
  | hpush | hpop => exact w.issue fun _ _ _ _ => .ite w.trapHere (.ite w.trapHere w.retire)
  | ld | st | atom | atomk | lr | sc => exact w.issue fun _ _ _ _ => w.sendReq
  | ldk | stk => exact w.issue fun _ _ _ _ => .ite w.sendEngine w.sendReq
  | copy | copyAdd => exact .next w.startBox
  | engineFault | poison => exact .next w.takePending
  | rld | rst | ratom => exact w.issueRemote fun _ _ _ _ => w.sendRemote
  | vadd | vsub | vmin | vmax | vabs | vneg | vmul | vmulh | vmad | vshl | vshr | vsar | vrot | vand | vor | vxor | vnot
  | vlop3 | vbfx | vbfi | vpopc | vclz | vbrev | vprmb | vsel | vmov | vmovi | vaddImm | vsubImm | vminImm | vmaxImm
  | vmulImm | vandImm | vorImm | vxorImm | vshlImm | vshrImm | vsarImm | vrotImm | vmulhImm | fadd | fsub | fmul | fmin
  | fmax | ffma | fclass | frnd | cvt | faddImm | fsubImm | fmulImm | fminImm | fmaxImm | ffmaImm | shfl => exact w.vecOp
  | frcp | frsq | fsqrt | fexp2 | flog2 | fsin | fcos | fdiv => exact w.longOp
  | qmx | matchLanes => exact w.issue fun _ _ _ _ => w.startLong
  | vred | vscan => exact w.redOp
  | evaluationEnd | resetEnd => exact .next w.endArray
  | watchdog | systemEffect => exact .next w.deliverNext
  | powerLimit | recalibration => exact .next (.ite w.rest w)
  | exit => exact w.issue fun _ _ _ _ => .ite w.retire (w.commit.dropLanes (afterExit_block _))
  | brd => exact w.execBrd
  | ret => exact w.issue fun _ _ _ _ => .ite w.trapHere w.commit
  | merge => exact w.issue fun _ _ _ _ => w.mergeSplit
  | movx => exact w.execMovx
  | srd => exact .ite w.srdArray w.localOp
  | swr => exact w.execSwr
  | swrErrq => exact w.execSwrErrq
  | trap => exact w.issue fun _ _ _ _ => w.retire.takeTrap
  | bar => exact w.issue fun _ _ _ _ => .ite w.trapHere w.commit.checkBar
  | cjoin => exact w.execCjoin
  | cleave => exact w.execCleave
  | cbar => exact w.execCbar
  | yieldTurn => exact w.issue fun _ _ _ _ => (w.retire.modGang fairExpire_block).giveWay
  | perform => exact w.execPerform
  | resume => exact w.execResume
  | fwd => exact w.execFwd
  | tkdrop => exact w.execTkdrop
  | fence => exact w.issue fun _ _ _ _ => .retire (.ite w w.dropAhead)
  | pref => exact w.execPref
  | twait => exact w.execTwait
  | tclr => exact w.execTclr
  | gset => exact w.issue fun _ _ _ _ => w.retire.recordGuards
  | launch => exact w.execLaunch
  | signal => exact w.execSignal
  | boxComplete => exact w.execBoxComplete
  | commandComplete => exact .next w.tryComplete
  | rfence => exact w.issueWhen fun _ _ _ _ => .ite w.modGang.trapHere w.dropAhead.retire
  | remoteRequest => exact .next w.takeRemote
  | remoteResponse => exact w.execRemoteResponse
  | planeDead => exact .next w.killPlane
  | epilogue => exact .next (.ite w w.unsend.rest.moveCredit.finishRepair.sendWaiting)
  | peerLost => exact .next (.ite w (w.noteUnsent.rest.fold fun _ _ w => w.takeStatus))
  | linkTraining => exact .next (.ite w.rest.rest.sendWaiting w.rest.rest.killLink)
  | launchPacket => exact w.execLaunchPacket
  | mres => exact w.execMres
  | mld => exact w.execMld
  | multicastDelivery => exact w.execMulticastDelivery
  | mgath => exact w.execMgath
  | mma => exact w.execMma
  | batchComplete => exact w.execBatchComplete
  | aclr => exact w.execAclr
  | ard => exact w.execArd
  | awr => exact w.execAwr
  | ast => exact w.execAst
  | rcld => exact w.execRcld
  | rccap => exact w.issue fun _ _ _ _ => w.rest.retire.pushArray
  | kick => exact w.execKick
  | takeEntry => exact w.execTakeEntry
  | waitConditionPoll => exact .next (.ite (w.fold fun _ _ w => w.pollOne) w)
  | placement => exact w.execPlacement
  | regionStaging => exact w.execRegionStaging
  | gangStart => exact w.execGangStart
  | blockRetire => exact w.execBlockRetire
  | walkComplete => exact w.execWalkComplete
  | loadDataReturn => exact .next w.returnSector
  | requestPerform => exact w.execRequestPerform
  | holdLimitExpiry => exact w.execHoldLimitExpiry
  | backoffExpiry => exact w.execBackoffExpiry
  | slotFreeReissue => exact w.execSlotFreeReissue
  | parkLimitExpiry => exact .next w.parkOut
  | blockReturn => exact w.execBlockReturn
  | entryBoost => exact w.execEntryBoost
  | faultRecordWrite => exact w.execFaultRecordWrite
  | fheadWrite => exact w.execFheadWrite
  | fringWrite => exact w.execFringWrite
  | fserve => exact w.execFserve
  | ctxctlResume => exact w.execCtxctlResume
  | ctxctlSkip => exact w.execCtxctlSkip
  | ctxctlKill => exact w.execCtxctlKill
  | ctxctlStop => exact w.execCtxctlStop
  | ctxctlStart => exact w.execCtxctlStart
  | ctxctlCreate => exact w.execCtxctlCreate
  | lcancel => exact w.execLcancel
  | restore => exact w.execRestore
  | shadowSwap => exact w.execShadowSwap
  | flipComplete => exact w.execFlipComplete
  | spillComplete => exact w.execSpillComplete
  | fillComplete => exact w.execFillComplete
  | urgent => exact .next (.ite w.goUrgent w)
  | turnStart => exact w.execTurnStart
  | sliceEnd => exact w.execSliceEnd
  | drainLimitExpiry => exact w.execDrainLimitExpiry
  | roundEnd => exact .next (.ite w w.setPart)
  | quantExpiry => exact w.execQuantExpiry
  | vpartWrite => exact w.execVpartWrite
  | vpolWrite => exact w.execVpolWrite
  | floorWrite => exact w.execFloorWrite
  | registerWrite => exact w.execRegisterWrite
  | weirWindow => exact w.execWeirWindow
  | invctlGo => exact .next w.writeInvctl
  | invalidationDone => exact w.execInvalidationDone
  | dtword => exact w.execDtword
  | enreq => exact w.execEnreq
  | enctx => exact w.execEnctx
  | energyRecord => exact w.execEnergyRecord
  | meterInterval => exact .next (.ite w (.rest (.fold (w.fold fun _ _ w => w.creditTime) fun _ _ w => w.assignEnergy)))
  | energyImport => exact .next (.ite w.addEnergy.rest w.rest)
  | peqdataClr => exact w.execPeqdataClr
  | patrolRead => exact w.execPatrolRead
  | scrubPeriod => exact .next (.ite (w.patrolRest.rest) w)
  | warmReset => exact w.execWarmReset
  | coldReset => exact .next (Keyed.reset.rest)
  | readiness => exact .next (.ite w (.ite w.rest w.rest))
  | functionLevelReset => exact .next (.ite w (.fold (w.fold fun _ _ w => w.killCtx) fun _ _ w => w.setQueue))
  | illegalInstruction => exact w.issueWhen fun _ _ _ _ => w.takeTrap
  | longLatencyComplete => exact w.execLongLatencyComplete
  | peerReachable => exact .next (.ite w.rest.sendWaiting w)
  | energyExport => exact w.execEnergyExport
  | spdmRequest => exact .next (.ite w (.ite w.rest w.rest))
  | fstatWrite => exact w.execFstatWrite

theorem Keyed.turnStep {s t} (w : Keyed s) : KeyedOut (turnStep s t) := by
  unfold Machine.turnStep
  split
  · exact .next w.passTime
  · exact .next (w.lineLeaves ..)
  · exact .next (w.symbolsFail ..)
  · exact .next (w.hostWrite ..)
  · exact .next (w.hostRead ..)
  · exact .next (w.writeBackLine ..)
  · exact .next w.mmioRead
  · exact .next w.writeVfBar0
  · exact .next (.ite w.advanceSector w.advanceWay)
  · exact .next w.loadAhead
  · exact .next w.copyWords
  · exact .next w.readWords
  · exact .next w.fetchWords
  · exact .next w.deliverWords
  · exact .next w.performLanes
  · exact .next w.setFull
  · exact .next w.setDefer
  · exact .next w.offerFirmware
  · exact .next w.setDevice
  · exact .next w.setLink
  · exact .next w.holdRemote
  · exact .next w.importArea
  · exact .ite w.exec (.next w)
  · refine .ite ?_ (.next w.issuer)
    split
    · exact w.issuer.exec
    · exact w.issuer.fetchTrap
    · exact .next w.issuer.holdFetch

theorem Keyed.step {s} (w : Keyed s) : KeyedOut (step s) := w.nextTurnOf.turnStep

/-- Settles O60, by the operations that a step is made of: each puts gangs back under their own numbers
and takes no launch beyond 1024 lanes. -/
theorem stepKeepsKeys : Obligations.StepKeepsKeys := fun _ t w h => w.step t h

end Sys2Proof.Machine
end

section
/-! Writes of system registers (O4): an instruction that puts back its gang with other registers, and SWR of ERRQ, which acts on the
context's error queue. -/

namespace Sys2Proof.Machine

set_option Elab.async false

variable {s : State} {key : Nat} {g : Gang} {sp : Split} {b : Block} {u : Use}

/-- The state after an instruction's effect, but for the count of its read in a window, which a context keeps (R60). -/
structure Counted (r t : State) : Prop where
  rest : ∃ y, t = { r with ctxs := y }
  ctx : ∀ c x, r.ctx? c = some x → ∃ n, t.ctx? c = some { x with wrdcnt := n }

theorem Counted.refl (r : State) : Counted r r := ⟨⟨_, rfl⟩, fun _ x h => ⟨x.wrdcnt, h⟩⟩

theorem Counted.countRead (r : State) (c : Nat) : Counted r (countRead r c) := ⟨countRead_only r c, countRead_ctx r c⟩

theorem Counted.gang {r t : State} (h : Counted r t) (k : Nat) : t.gang? k = r.gang? k := by
  obtain ⟨y, rfl⟩ := h.rest
  rfl

theorem Counted.byte {r t : State} (h : Counted r t) (a : Nat) : t.byte a = r.byte a := by
  obtain ⟨y, rfl⟩ := h.rest
  rfl

theorem Counted.sbyte {r t : State} (h : Counted r t) (a : Nat) : t.sbyte a = r.sbyte a := by
  obtain ⟨y, rfl⟩ := h.rest
  rfl

/-- An instruction after whose effect its gang goes on: that effect, and the count of its read in a window. -/
theorem issue_counted (h : Issues s key g sp b) (c : Clear s key b g sp u) {skip : Nat} {body : State → Nat → Gang → Split → State}
    {r : State} {g' : Gang} (hb : body s key (stepGang s g sp) (stepWindows sp u) = r) (hg : r.gang? key = some g')
    (hs : g'.stopped = none) (hh : g'.hold = .none) : ∃ t, issue s u skip body = .next t ∧ Counted r t := by
  refine ⟨_, issue_next h c, ?_⟩
  rw [hb]
  split
  · rw [settleRead_now b.ctx hg hs hh]
    exact .countRead r b.ctx
  · exact .refl r

/-- An instruction that only puts other registers in its gang: the PC moves past it. -/
theorem issue_putRegs {size : Nat} {r : Regs} {body : State → Nat → Gang → Split → State}
    (h : Issues s key g sp b) (c : Clear s key b g sp u)
    (hb : body s key (stepGang s g sp) (stepWindows sp u) =
      retire s key { stepGang s g sp with regs := r } (stepWindows sp u) size) :
    ∃ t g' sp', issue s u size body = .next t ∧ GangFrame s t key g g' sp' ∧ Goes sp sp' (sp.pc + dw size) ∧ g'.regs = r := by
  obtain ⟨t, g', e, hf, hr⟩ := issue_commit h c hb
  exact ⟨t, g', _, e, hf, stepWindows_pc sp u ▸ goes_stepWindows sp u _, hr⟩

/-- An instruction whose effect is a trap at its own address. -/
theorem issue_trapHere {size cause sub n : Nat} {body : State → Nat → Gang → Split → State}
    (h : Issues s key g sp b) (c : Clear s key b g sp u)
    (hb : body s key (stepGang s g sp) (stepWindows sp u) = trapHere s key (stepWindows sp u) cause sub n []) :
    ∃ t, issue s u size body = .next t ∧ Trapped s t key g b sp.pc cause sub 0 sp.exm (some n) :=
  issue_trap h c (by rw [hb, trapHere, stepWindows_exm])

theorem swr_fsr (a : KReg) (h : Issues s key g sp b) (c : Clear s key b g sp { k := [a] }) :
    ∃ t g' sp', exec (.swr .fsr a) s = .next t ∧ GangFrame s t key g g' sp' ∧ Goes sp sp' (sp.pc + 8) ∧
      g'.regs = { g.regs with fsr := g.kget a &&& 0x7F } := by
  rw [exec_swr, execSwr]
  exact issue_putRegs h c rfl

theorem swr_fcr (a : KReg) (h : Issues s key g sp b) (c : Clear s key b g sp { k := [a] }) :
    ∃ t g' sp', exec (.swr .fcr a) s = .next t ∧ GangFrame s t key g g' sp' ∧ Goes sp sp' (sp.pc + 8) ∧
      g'.regs = { g.regs with fcr := g.kget a &&& 0x7F07 } := by
  rw [exec_swr, execSwr]
  exact issue_putRegs h c rfl

theorem swr_pri (a : KReg) (h : Issues s key g sp b) (c : Clear s key b g sp { k := [a] }) (ha : (g.kget a).toNat ≤ 15) :
    ∃ t g' sp', exec (.swr .pri a) s = .next t ∧ GangFrame s t key g g' sp' ∧ Goes sp sp' (sp.pc + 8) ∧
      g'.regs = { g.regs with pri := (g.kget a).toNat } := by
  rw [exec_swr, execSwr]
  exact issue_putRegs h c (if_neg (Nat.not_lt.mpr ha))

theorem swr_pri_traps (a : KReg) (h : Issues s key g sp b) (c : Clear s key b g sp { k := [a] }) (ha : 15 < (g.kget a).toNat) :
    ∃ t, exec (.swr .pri a) s = .next t ∧ Trapped s t key g b sp.pc 1 0 0 sp.exm (some 8) := by
  rw [exec_swr, execSwr]
  exact issue_trapHere h c (if_pos ha)

theorem swr_wdlim (a : KReg) (h : Issues s key g sp b) (c : Clear s key b g sp { k := [a] }) (ha : (g.kget a).toNat < 2 ^ 32) :
    ∃ t g' sp', exec (.swr .wdlim a) s = .next t ∧ GangFrame s t key g g' sp' ∧ Goes sp sp' (sp.pc + 8) ∧
      g'.regs = { g.regs with wdlim := (g.kget a).toNat } := by
  rw [exec_swr, execSwr]
  exact issue_putRegs h c (if_neg (Nat.not_lt.mpr (Nat.le_of_lt_succ ha)))

theorem swr_wdlim_traps (a : KReg) (h : Issues s key g sp b) (c : Clear s key b g sp { k := [a] })
    (ha : 2 ^ 32 ≤ (g.kget a).toNat) :
    ∃ t, exec (.swr .wdlim a) s = .next t ∧ Trapped s t key g b sp.pc 1 0 0 sp.exm (some 8) := by
  rw [exec_swr, execSwr]
  exact issue_trapHere h c (if_pos (Nat.lt_of_succ_le ha))

theorem setpri_puts (p : Nat) (h : Issues s key g sp b) (c : Clear s key b g sp {}) :
    ∃ t g' sp', exec (.setpri p) s = .next t ∧ GangFrame s t key g g' sp' ∧ Goes sp sp' (sp.pc + 8) ∧
      g'.regs = { g.regs with pri := p } := by
  rw [exec_setpri, execSetpri, localOp]
  exact issue_putRegs h c rfl

-- The error queue (R223).

theorem modCtx_some {c : Nat} {x : Context} {f : Context → Context} (h : s.ctx? c = some x) :
    s.modCtx c f = s.setCtx c (f x) := by
  rw [State.modCtx, h]

/-- The error queue after a word is written to ERRQ: its base, OVF cleared, HEAD past at most the entries that are there. -/
def writeErrq (x : DWord) (c : Context) : Context :=
  let n := min ((x.toNat % 256 + 256 - c.errHead) % 256) c.errCount
  { c with errBase := dw (x.toNat / 2 ^ 14 * 2 ^ 14), errOvf := c.errOvf && !x.getLsbD 12,
           errHead := (c.errHead + n) % 256, errCount := c.errCount - n }

/-- Bits [63:14] of a word are all that is above its lowest 14. -/
theorem bitsOf_63_14 (x : DWord) : bitsOf x 63 14 = x.toNat / 2 ^ 14 :=
  Nat.mod_eq_of_lt (Nat.div_lt_of_lt_mul x.isLt)

theorem bitsOf_7_0 (x : DWord) : bitsOf x 7 0 = x.toNat % 256 := by simp [bitsOf]

theorem exec_swrErrq_body (a : KReg) (s : State) : exec (.swrErrq a) s = issue s { k := [a] } 8 fun s key g sp =>
    match s.block? g.block with
    | none => retire s key g sp 8
    | some b => (retire s key g sp 8).modCtx b.ctx (writeErrq (g.kget a)) := by
  have e (x : DWord) : (fun c : Context =>
      let d := (bitsOf x 7 0 + 256 - c.errHead) % 256
      let n := min d c.errCount
      { c with errBase := dw (bitsOf x 63 14 * 16384), errOvf := c.errOvf && !bitOf x 12,
               errHead := (c.errHead + n) % 256, errCount := c.errCount - n }) = writeErrq x := by
    funext c
    simp only [bitsOf_63_14, bitsOf_7_0]
    rfl
  simp only [exec_swrErrq, execSwrErrq, e]
  rfl

/-- SWR of ERRQ moves its split on and writes the queue of its context. -/
theorem swrErrq_writes (a : KReg) (h : Issues s key g sp b) (c : Clear s key b g sp { k := [a] }) {x : Context}
    (hx : s.ctx? b.ctx = some x) :
    ∃ t g' sp' m, exec (.swrErrq a) s = .next t ∧ t.gang? key = some g' ∧ g'.split? = some sp' ∧ g'.regs = g.regs ∧
      Goes sp sp' (sp.pc + 8) ∧ (∀ y, t.byte y = s.byte y) ∧ (∀ y, t.sbyte y = s.sbyte y) ∧
      t.ctx? b.ctx = some { writeErrq (g.kget a) x with wrdcnt := m } := by
  let r := (retire s key (stepGang s g sp) (stepWindows sp { k := [a] }) 8).setCtx b.ctx (writeErrq (g.kget a) x)
  obtain ⟨t, e, hr⟩ := issue_counted (r := r) h c (skip := 8)
    (body := fun s key g sp => match s.block? g.block with
      | none => retire s key g sp 8
      | some b => (retire s key g sp 8).modCtx b.ctx (writeErrq (g.kget a)))
    (by rw [stepGang_block, h.block]; exact modCtx_some hx) (setGang_gang_self ..) h.going h.hold
  obtain ⟨m, hm⟩ := hr.ctx _ _ (setCtx_ctx_self ..)
  refine ⟨t, _, _, m, (exec_swrErrq_body a s).trans e, (hr.gang key).trans (setGang_gang_self ..), setSplit_split .., rfl,
    ?_, hr.byte, hr.sbyte, hm⟩
  exact stepWindows_pc sp { k := [a] } ▸ goes_stepWindows sp _ _

/-- Settles O4, register by register: SWR and SETPRI put other registers in the gang or trap, and SWR of ERRQ writes the context's
queue. -/
theorem systemRegisterWrites : Obligations.SystemRegisterWrites := by
  unfold Obligations.SystemRegisterWrites
  refine ⟨fun a s key g sp b h c => ?_, fun a s key g sp b h c => swr_fcr a h c, fun a s key g sp b h c ha => swr_pri a h c ha,
    fun a s key g sp b h c ha => swr_wdlim a h c ha, fun p s key g sp b h c => setpri_puts p h c,
    fun a s key g sp b h c ha => swr_pri_traps a h c ha, fun a s key g sp b h c ha => swr_wdlim_traps a h c ha,
    fun a s key g sp b x h c hx => ?_⟩
  · obtain ⟨t, g', sp', e, hf, hgo, hr⟩ := swr_fsr a h c
    exact ⟨t, g', sp', e, ⟨hf, hr ▸ (RegsKeep.refl ..).withFsr _⟩, hgo, hr⟩
  · obtain ⟨t, g', sp', m, e, hg, hsp, hr, hgo, hm, hs, hc⟩ := swrErrq_writes a h c hx
    exact ⟨t, g', sp', _, m, e, hg, hsp, hr, hgo, hm, hs, hc, rfl⟩

end Sys2Proof.Machine
end

section
/-! TRAP, and what stops an instruction before it runs (O10): the causes of step 4 and 5 of R65, found by the prologue. -/

namespace Sys2Proof.Machine

set_option Elab.async false

variable {s : State} {key : Nat} {g : Gang} {sp : Split} {b : Block} {u : Use}

/-- A trap taken after the gang was put back with its registers and its live lanes as they were is the gang's trap. -/
theorem Trapped.of_setGang {t : State} {g' : Gang} {pc : DWord} {cause sub : Nat} {aux : DWord} {lanes : Lanes} {skip : Option Nat}
    (h : Trapped (s.setGang key g') t key g' b pc cause sub aux lanes skip) (hr : g'.regs = g.regs) (hl : g'.live = g.live)
    (hb : g'.block = g.block) (hi : g'.idx = g.idx) : Trapped s t key g b pc cause sub aux lanes skip where
  gang := hr ▸ hl ▸ h.gang
  block := hb ▸ h.block
  ctx := h.ctx
  record := hi ▸ h.record
  memory := hb ▸ h.memory

/-- A trap taken once the PC is past the instruction. -/
theorem takeTrap_retired {g' : Gang} {x : Split} (hb : s.block? g.block = some b) (hr : g'.regs = g.regs) (hl : g'.live = g.live)
    (hk : g'.block = g.block) (hi : g'.idx = g.idx) (n cause sub : Nat) (aux : DWord) (lanes : Lanes) (addrs : List DWord)
    (skip : Option Nat) :
    Trapped s (takeTrap (retire s key g' x n) key cause sub aux lanes addrs skip) key g b (x.pc + dw n) cause sub aux lanes skip :=
  have hb' : (retire s key g' x n).block? (g'.setSplit { x with pc := x.pc + dw n }).block = some b := by rw [← hb, ← hk]; rfl
  (takeTrap_trapped (setGang_gang_self ..) (setSplit_split ..) hb' ..).of_setGang hr hl hk hi

/-- TRAP (R191): the gang's own trap, at the next instruction. -/
theorem trap_traps (code : BitVec 8) (h : Issues s key g sp b) (c : Clear s key b g sp { close := true }) :
    ∃ t, exec (.trap code) s = .next t ∧
      Trapped s t key g b (sp.pc + 8) 11 code.toNat (BitVec.ofNat 64 code.toNat) sp.exm (some 0) := by
  rw [exec_trap, execTrap]
  refine ⟨_, issue_next h c, ?_⟩
  rw [if_neg (by simp [namesPending]), ← stepWindows_pc sp { close := true }, stepWindows_exm]
  exact takeTrap_retired (g' := stepGang s g sp) h.block rfl rfl rfl rfl ..

-- What the prologue finds.

theorem windowsHold_of_done (hw : ∀ w ∈ sp.windows, w.done = true) (hl : u.long = false) : windowsHold sp u = false := by
  simp only [windowsHold, hl, Bool.false_and, Bool.or_false, List.any_eq_false]
  exact fun w h => by simp [hw w h]

/-- Nothing holds back an instruction that issues, but for its split's windows. -/
theorem unheld (h : Issues s key g sp b) (hw : windowsHold sp u = false) :
    ¬(b.phase != .running || !foreground s b || g.hold != .none || g.stopped.isSome || sp.wait != .ready ||
      windowsHold sp u) = true := by
  simp [h.running, h.fore, h.hold, h.going, h.ready, hw]

/-- An instruction whose registers or array its block does not have takes ILLEGAL (R38). -/
theorem gate_illegal (h : Issues s key g sp b) (hw : windowsHold sp u = false)
    (hx : (∃ r ∈ u.v, b.need.vregs ≤ r) ∨ (∃ r ∈ u.k, b.need.kregs ≤ r) ∨ (u.race = true ∧ b.need.race = false)) :
    gate s key b g sp u = .trap tIllegal := by
  rw [gate, if_neg (unheld h hw), if_pos]
  simp only [Bool.or_eq_true, List.any_eq_true, decide_eq_true_eq, Bool.and_eq_true, Bool.not_eq_true']
  rcases hx with hv | hk | hr
  · exact .inl (.inl (.inl hv))
  · exact .inl (.inl (.inr hk))
  · exact .inl (.inr hr)

/-- An instruction that names no register, in a scope that its virtual function may not use, takes the SCOPE trap (R126). -/
theorem gate_scope (h : Issues s key g sp b) {x : Scope} (hw : windowsHold sp { scope := some x } = false)
    (hp : policy s b < scopeCode x) : gate s key b g sp { scope := some x } = .trap tScope := by
  rw [gate, if_neg (unheld h hw), if_neg (by simp), if_pos (by simpa using hp)]

/-- A matrix instruction of a divided gang, whose turn has come, takes ILL_CONVERGENCE (R282). -/
theorem gate_divided (h : Issues s key g sp b) {k : List Nat} (hw : windowsHold sp { matUse with k := k } = false)
    (hk : ∀ r ∈ k, r < b.need.kregs) (hc : collective g sp = false) (he : engPending s key = [])
    (hd : depsDone s sp.ldDeps = true) : gate s key b g sp { matUse with k := k } = .trap tConvergence := by
  rw [gate, if_neg (unheld h hw), if_neg (by simpa [matUse] using hk), if_neg (by simp [matUse]),
    if_neg (by simp [matUse, he, hd]), if_pos (by simp [matUse, hc])]

/-- An instruction that the prologue traps takes that trap at its own address. -/
theorem issueWhen_gateTrap (h : Issues s key g sp b) {cause skip : Nat} (hg : gate s key b g sp u = .trap cause)
    {ready : State → Nat → Gang → Split → Block → Bool} {body : State → Nat → Gang → Split → State} :
    ∃ t, issueWhen s u skip ready body = .next t ∧ Trapped s t key g b sp.pc cause 0 0 sp.exm (some skip) :=
  ⟨takeTrap s key cause 0 0 sp.exm [] (some skip), by simp only [issueWhen, h.cur, h.gang, h.split, h.block, hg],
    takeTrap_trapped h.gang h.split h.block ..⟩

/-- Settles O10: TRAP by its own effect, and the others by what the prologue finds in what they name. -/
theorem trapping : Obligations.Trapping := by
  unfold Obligations.Trapping
  refine ⟨fun code s key g sp b h c => trap_traps code h c, fun s key g sp b h hw => ⟨fun d a c hx => ?_,
    fun p sat ty d a c ht hx => ?_, fun a hr => ?_, fun k x hp => ?_, fun d hd hc he hl => ?_⟩⟩
  · rw [exec_addk, execAddk, kOp, localOp, issue]
    refine issueWhen_gateTrap h (gate_illegal h (windowsHold_of_done hw rfl) (.inr (.inl ?_)))
    simpa using hx
  · rw [exec_vadd, execVadd, vecOp, localOp, issue]
    refine issueWhen_gateTrap h (gate_illegal h (windowsHold_of_done hw rfl) (.inl ?_))
    simpa [use2, vr, ht] using hx
  · rw [exec_swrTwin, execSwrTwin, issue]
    exact issueWhen_gateTrap h (gate_illegal h (windowsHold_of_done hw rfl) (.inr (.inr ⟨rfl, hr⟩)))
  · rw [exec_fence, execFence, issue]
    exact issueWhen_gateTrap h (gate_scope h (windowsHold_of_done hw rfl) hp)
  · rw [exec_mbatch, execMbatch, issue]
    exact issueWhen_gateTrap h (gate_divided h (windowsHold_of_done hw rfl) (by simpa using hd) hc he hl)

end Sys2Proof.Machine
end

section
/-! Division of a split (O6): where a free entry of the split table is, what a counted branch changes, and the two sides of a
division. -/

namespace Sys2Proof.Machine

set_option Elab.async false

variable {s : State} {key : Nat} {g : Gang} {sp : Split} {b : Block}

-- The lowest free entry of a table.

theorem tfree_some {α : Type} {t : Tab (Option α)} {j : Nat} (hj : tget none t j = none) :
    ∀ {n k : Nat}, k ≤ j → j < k + n → (∀ i, k ≤ i → i < j → tget none t i ≠ none) → tfree t n k = some j
  | 0, k, h1, h2, _ => absurd h2 (Nat.not_lt.mpr h1)
  | n + 1, k, h1, h2, h => by
    rw [tfree]
    rcases Nat.eq_or_lt_of_le h1 with rfl | h1
    · simp [hj]
    · rw [if_neg (by simpa using h k (Nat.le_refl k) h1)]
      exact tfree_some hj h1 (by omega) fun i hi => h i (Nat.le_of_succ_le hi)

theorem tfree_none {α : Type} {t : Tab (Option α)} : ∀ {n k : Nat}, (∀ i, k ≤ i → i < k + n → tget none t i ≠ none) →
    tfree t n k = none
  | 0, _, _ => rfl
  | n + 1, k, h => by
    rw [tfree, if_neg (by simpa using h k (Nat.le_refl k) (by omega))]
    exact tfree_none fun i hi hj => h i (Nat.le_of_succ_le hi) (by omega)

-- Branches (R164, R165).

theorem branchTarget_eq (sp : Split) (off : BitVec 32) : branchTarget sp off = sp.pc + BitVec.ofInt 64 off.toInt := rfl

/-- A branch that is counted changes a split's count and its pending effects. -/
theorem countBranch_only (g : Gang) (sp : Split) (own target : DWord) :
    ∃ w e, countBranch g sp own target = { sp with wd := w, eff := e } := by
  unfold countBranch
  split
  · exact ⟨sp.wd, sp.eff, rfl⟩
  · split
    · obtain ⟨e, he⟩ := addEffect_only { sp with wd := 0 } 2 sp.exm (flatPayload (BitVec.allOnes 64) g.regs.wdlim)
      exact ⟨0, e, he⟩
    · exact ⟨_, sp.eff, rfl⟩

/-- A taken branch: where it goes, and how the watchdog counts it. -/
theorem branched_takeBranch (g : Gang) (sp : Split) (u : Use) (target : DWord) {g' : Gang} (hr : g'.regs = g.regs) :
    Branched g sp (takeBranch g' (stepWindows sp u) target) target := by
  obtain ⟨w, hw⟩ := stepWindows_only sp u
  rw [hw, takeBranch, countBranch, hr]
  constructor
  · intro hf
    rw [if_pos hf]
    exact ⟨w, rfl⟩
  · intro h0 hb hc
    rw [if_neg (not_or.mpr ⟨h0, Nat.not_lt.mpr hb⟩), if_neg (Nat.not_le.mpr hc)]
    exact ⟨w, rfl⟩
  · intro h0 hb hc
    rw [if_neg (not_or.mpr ⟨h0, Nat.not_lt.mpr hb⟩), if_pos hc]
    obtain ⟨e, he⟩ := addEffect_only { sp with windows := w, wd := 0 } 2 sp.exm (flatPayload (BitVec.allOnes 64) g.regs.wdlim)
    obtain ⟨x, hx, hi, hl⟩ := addEffect_mem { sp with windows := w, wd := 0 } 2 sp.exm (flatPayload (BitVec.allOnes 64) g.regs.wdlim)
    exact ⟨⟨w, by rw [he]⟩, x, hx, hi, fun l _ => hl l⟩

-- The two sides of a division (R34, R180).

/-- The side that takes the branch. -/
def takenSide (g : Gang) (sp : Split) (id : Nat) (taken : Lanes) (target : DWord) : Split :=
  { countBranch g (divide sp id true taken taken target) sp.pc target with pc := target }

/-- The side that goes on at the next instruction, with the held lanes. -/
def otherSide (sp : Split) (id : Nat) (taken : Lanes) : Split :=
  divide sp id false (sp.lanes &&& ~~~taken) (sp.exm &&& ~~~taken) (sp.pc + 12)

/-- What the sides of a division hold of the split that divides. -/
structure Sides (sp yes no : Split) (taken : Lanes) (target : DWord) : Prop where
  yesLanes : yes.lanes = taken
  yesExm : yes.exm = taken
  yesPc : yes.pc = target
  yesWait : yes.wait = sp.wait
  noLanes : no.lanes = sp.lanes &&& ~~~taken
  noExm : no.exm = sp.exm &&& ~~~taken
  noPc : no.pc = sp.pc + 12
  noWd : no.wd = sp.wd
  noWait : no.wait = sp.wait
  paths : ∃ id, yes.path = sp.path ++ [⟨id, true⟩] ∧ no.path = sp.path ++ [⟨id, false⟩]

theorem sides_divide (g : Gang) (sp : Split) (u : Use) (id uid uid' : Nat) (elder elder' : List Nat) (taken : Lanes) (target : DWord) :
    Sides sp { takenSide g (stepWindows sp u) id taken target with uid := uid, elder := elder }
      { otherSide (stepWindows sp u) id taken with uid := uid', elder := elder' } taken target := by
  obtain ⟨w, hw⟩ := stepWindows_only sp u
  obtain ⟨d, e, he⟩ := countBranch_only g (divide { sp with windows := w } id true taken taken target) sp.pc target
  rw [hw, takenSide, he]
  exact ⟨rfl, rfl, rfl, rfl, rfl, rfl, rfl, rfl, rfl, id, rfl, rfl⟩

theorem siblingPath_append (p : List DivStep) (d : DivStep) : siblingPath (p ++ [d]) = p ++ [{ d with taken := !d.taken }] := by
  simp [siblingPath]

/-- The sides of a division are siblings, below the split that divides. -/
theorem Sides.siblings {yes no : Split} {taken : Lanes} {target : DWord} (h : Sides sp yes no taken target) :
    (yes.path.dropLast = sp.path ∧ no.path = siblingPath yes.path) ∧ no.path.dropLast = sp.path ∧ yes.path = siblingPath no.path := by
  obtain ⟨id, hy, hn⟩ := h.paths
  simp [hy, hn, siblingPath_append]

-- BRD.

/-- An instruction that names no register is not counted as a read (R60). -/
theorem issue_silent (h : Issues s key g sp b) {u : Use} (c : Clear s key b g sp u) (hv : u.v = []) (hk : u.k = []) {skip : Nat}
    {body : State → Nat → Gang → Split → State} :
    issue s u skip body = .next (body s key (stepGang s g sp) (stepWindows sp u)) := by
  rw [issue_next h c, if_neg (by simp [namesPending, hv, hk])]

/-- The lanes of a split that take a BRD. -/
def brdTaken (neg : Bool) (a : MReg) (g : Gang) (sp : Split) : Lanes := sp.exm &&& if neg then ~~~(g.mget a) else g.mget a

/-- The state in which a division stands: its numbers taken, what the split has read early read by its new part too. -/
def dividing (s : State) (key : Nat) (sp : Split) : State := inheritReads { s with uid := s.uid + 2 } key sp.uid (s.uid + 1)

/-- What BRD does to its split: a whole split goes one way, else it divides. -/
def brdBody (neg : Bool) (a : MReg) (off : BitVec 32) (s : State) (key : Nat) (g : Gang) (sp : Split) : State :=
  let taken := brdTaken neg a g sp
  let target := branchTarget sp off
  let new := fun (x : Split) => { x with uid := s.uid + 1, elder := outstandingOf s key sp }
  let yes := takenSide g sp s.uid taken target
  let no := otherSide sp s.uid taken
  if taken = sp.exm then commit s key g (takeBranch g sp target)
  else if taken = 0 then retire s key g sp 12
  else match tfree g.splits 8 0 with
  | some j =>
    if lowest yes.lanes < lowest no.lanes then commit (dividing s key sp) key (g.putSplit j (some (new no))) yes
    else commit (dividing s key sp) key (g.putSplit j (some (new yes))) no
  | none =>
    if 56 ≤ g.deferred.length then trapHere s key sp tConvergence 0 12 []
    else commit (dividing s key sp) key { g with deferred := g.deferred ++ [new no] } yes

theorem exec_brd_body (neg : Bool) (a : MReg) (off : BitVec 32) (s : State) :
    exec (.brd neg a off) s = issue s {} 12 (brdBody neg a off) := rfl

theorem brdTaken_step (neg : Bool) (a : MReg) (s : State) (g : Gang) (sp : Split) :
    brdTaken neg a (stepGang s g sp) (stepWindows sp {}) = brdTaken neg a g sp := rfl

variable (neg : Bool) (a : MReg) (off : BitVec 32)

theorem brd_all (h : Issues s key g sp b) (c : Clear s key b g sp {}) (ht : brdTaken neg a g sp = sp.exm) :
    ∃ t g' sp', exec (.brd neg a off) s = .next t ∧ GangStep s t key g g' sp' [] [] [] ∧ g'.regs = g.regs ∧
      Branched g sp sp' (sp.pc + BitVec.ofInt 64 off.toInt) := by
  obtain ⟨t, g', e, hf, hr⟩ := issue_commit (skip := 12) (body := brdBody neg a off) (r := g.regs) h c (if_pos ht)
  exact ⟨t, g', _, e, ⟨hf, hr ▸ .refl ..⟩, hr, branched_takeBranch g sp {} _ rfl⟩

theorem brd_none (h : Issues s key g sp b) (c : Clear s key b g sp {}) (hx : brdTaken neg a g sp ≠ sp.exm)
    (h0 : brdTaken neg a g sp = 0) :
    ∃ t g' sp', exec (.brd neg a off) s = .next t ∧ GangStep s t key g g' sp' [] [] [] ∧ g'.regs = g.regs ∧
      Goes sp sp' (sp.pc + 12) := by
  obtain ⟨t, g', sp', e, hf, hgo, hr⟩ := issue_putRegs (size := 12) (body := brdBody neg a off) (r := g.regs) h c
    ((if_neg hx).trans (if_pos h0))
  exact ⟨t, g', sp', e, ⟨hf, hr ▸ .refl ..⟩, hr, hgo⟩

/-- A split that divides: where the table is full, and where not. -/
theorem brd_divides (h : Issues s key g sp b) (c : Clear s key b g sp {}) (hx : brdTaken neg a g sp ≠ sp.exm)
    (h0 : brdTaken neg a g sp ≠ 0) :
    ∃ yes no elder, let new := fun (x : Split) => { x with uid := s.uid + 1, elder := elder }
      Sides sp yes (new no) (brdTaken neg a g sp) (sp.pc + BitVec.ofInt 64 off.toInt) ∧
      Sides sp (new yes) no (brdTaken neg a g sp) (sp.pc + BitVec.ofInt 64 off.toInt) ∧
      exec (.brd neg a off) s = .next (match tfree g.splits 8 0 with
        | some j => if lowest yes.lanes < lowest no.lanes then
              commit (dividing s key (stepWindows sp {})) key ((stepGang s g sp).putSplit j (some (new no))) yes
            else commit (dividing s key (stepWindows sp {})) key ((stepGang s g sp).putSplit j (some (new yes))) no
        | none => if 56 ≤ g.deferred.length then trapHere s key (stepWindows sp {}) tConvergence 0 12 []
            else commit (dividing s key (stepWindows sp {})) key
              { stepGang s g sp with deferred := g.deferred ++ [new no] } yes) := by
  refine ⟨takenSide (stepGang s g sp) (stepWindows sp {}) s.uid (brdTaken neg a g sp) (branchTarget (stepWindows sp {}) off),
    otherSide (stepWindows sp {}) s.uid (brdTaken neg a g sp), outstandingOf s key (stepWindows sp {}), ?_, ?_, ?_⟩
  · exact sides_divide ..
  · exact sides_divide ..
  · rw [exec_brd_body, issue_silent h c rfl rfl, brdBody, brdTaken_step]
    exact congrArg _ ((if_neg hx).trans ((if_neg h0).trans rfl))

/-- A split put into the table beside the current one. -/
theorem putSplit_setSplit {g : Gang} {j : Nat} (x cur : Split) (hj : j ≠ g.cur) :
    let g' := (g.putSplit j (some x)).setSplit cur
    g'.split? = some cur ∧ tget none g'.splits j = some x ∧
      ∀ i, i ≠ j → i ≠ g.cur → tget none g'.splits i = tget none g.splits i := by
  refine ⟨setSplit_split .., ?_, fun i hi hc => ?_⟩
  · exact (setSplit_other (g.putSplit j (some x)) cur hj).trans (tget_tput_self none g.splits j (some x))
  · exact (setSplit_other (g.putSplit j (some x)) cur hc).trans (tget_tput_ne none g.splits (some x) hi)

/-- A division whose sides both have entries of the table. -/
theorem brd_inTable (h : Issues s key g sp b) (c : Clear s key b g sp {}) (hx : brdTaken neg a g sp ≠ sp.exm)
    (h0 : brdTaken neg a g sp ≠ 0) {j : Nat} (hj : j < 8) (hn : tget none g.splits j = none)
    (hl : ∀ i < j, tget none g.splits i ≠ none) :
    ∃ t g' cur other, exec (.brd neg a off) s = .next t ∧ t.gang? key = some g' ∧ g'.regs = g.regs ∧
      g'.split? = some cur ∧ g'.cur = g.cur ∧ tget none g'.splits j = some other ∧
      (∀ i, i ≠ j → i ≠ g.cur → tget none g'.splits i = tget none g.splits i) ∧ (∀ x, t.byte x = s.byte x) ∧
      lowest cur.lanes ≤ lowest other.lanes ∧
      ∃ yes no, ((cur = yes ∧ other = no) ∨ (cur = no ∧ other = yes)) ∧
        Sides sp yes no (brdTaken neg a g sp) (sp.pc + BitVec.ofInt 64 off.toInt) := by
  obtain ⟨yes, no, elder, hs, hs', e⟩ := brd_divides neg a off h c hx h0
  rw [tfree_some hn (Nat.zero_le j) (by omega) fun i _ => hl i] at e
  have hc : j ≠ (stepGang s g sp).cur := fun hc => by
    have hsp : tget none g.splits g.cur = some sp := h.split
    rw [← stepGang_cur s g sp, ← hc, hn] at hsp
    cases hsp
  by_cases hlow : lowest yes.lanes < lowest no.lanes
  · obtain ⟨h1, h2, h3⟩ := putSplit_setSplit { no with uid := s.uid + 1, elder := elder } yes hc
    exact ⟨_, _, _, _, e.trans (congrArg _ (if_pos hlow)), setGang_gang_self .., rfl, h1, rfl, h2, h3, fun _ => rfl,
      hlow.le, _, _, .inl ⟨rfl, rfl⟩, hs⟩
  · obtain ⟨h1, h2, h3⟩ := putSplit_setSplit { yes with uid := s.uid + 1, elder := elder } no hc
    exact ⟨_, _, _, _, e.trans (congrArg _ (if_neg hlow)), setGang_gang_self .., rfl, h1, rfl, h2, h3, fun _ => rfl,
      Nat.not_lt.mp hlow, _, _, .inr ⟨rfl, rfl⟩, hs'⟩

/-- A division with the table full: the others are deferred. -/
theorem brd_defers (h : Issues s key g sp b) (c : Clear s key b g sp {}) (hx : brdTaken neg a g sp ≠ sp.exm)
    (h0 : brdTaken neg a g sp ≠ 0) (hf : ∀ i < 8, tget none g.splits i ≠ none) (hd : g.deferred.length < 56) :
    ∃ t g' cur no, exec (.brd neg a off) s = .next t ∧ t.gang? key = some g' ∧ g'.regs = g.regs ∧
      g'.split? = some cur ∧ g'.deferred = g.deferred ++ [no] ∧ (∀ x, t.byte x = s.byte x) ∧
      Sides sp cur no (brdTaken neg a g sp) (sp.pc + BitVec.ofInt 64 off.toInt) := by
  obtain ⟨yes, no, elder, hs, -, e⟩ := brd_divides neg a off h c hx h0
  rw [tfree_none fun i _ => by simpa using hf i] at e
  exact ⟨_, _, _, _, e.trans (congrArg _ (if_neg (Nat.not_le.mpr hd))), setGang_gang_self .., rfl, setSplit_split .., rfl,
    fun _ => rfl, hs⟩

/-- A division with the table and the deferral stack full traps. -/
theorem brd_full (h : Issues s key g sp b) (c : Clear s key b g sp {}) (hx : brdTaken neg a g sp ≠ sp.exm)
    (h0 : brdTaken neg a g sp ≠ 0) (hf : ∀ i < 8, tget none g.splits i ≠ none) (hd : 56 ≤ g.deferred.length) :
    ∃ t, exec (.brd neg a off) s = .next t ∧ Trapped s t key g b sp.pc 5 0 0 sp.exm (some 12) := by
  rw [exec_brd_body]
  refine issue_trapHere h c ((if_neg hx).trans ((if_neg h0).trans ?_))
  have hn : tfree (stepGang s g sp).splits 8 0 = none := tfree_none fun i _ => by simpa using hf i
  rw [hn]
  exact if_pos hd

/-- Settles O6, case by case: a split that goes one way, one that divides into the table or into the deferral stack, and one that
cannot. -/
theorem division : Obligations.Division := by
  unfold Obligations.Division
  refine fun neg a off s key g sp b h c => ⟨brd_all neg a off h c, brd_none neg a off h c, fun j hx h0 hj hn hl => ?_,
    fun hx h0 hf hd => ?_, brd_full neg a off h c⟩
  · obtain ⟨t, g', cur, other, e, hg, hr, hsp, hcur, ho, hi, hm, hlow, yes, no, hyn, hs⟩ :=
      brd_inTable neg a off h c hx h0 hj hn hl
    obtain ⟨⟨hy1, hy2⟩, hn1, hn2⟩ := hs.siblings
    refine ⟨t, g', cur, other, e, hg, hr, hsp, hcur, ho, hi, hm, hlow, ?_, ?_, yes, no, hyn, hs.yesLanes, hs.yesExm, hs.yesPc,
      hs.noLanes, hs.noExm, hs.noPc, hs.noWd, hs.yesWait.trans h.ready, hs.noWait.trans h.ready⟩
    · rcases hyn with ⟨rfl, rfl⟩ | ⟨rfl, rfl⟩ <;> assumption
    · rcases hyn with ⟨rfl, rfl⟩ | ⟨rfl, rfl⟩ <;> assumption
  · obtain ⟨t, g', cur, no, e, hg, hr, hsp, hdef, hm, hs⟩ := brd_defers neg a off h c hx h0 hf hd
    exact ⟨t, g', cur, no, e, hg, hr, hsp, hs.yesLanes, hs.yesExm, hs.yesPc, hdef, hs.noLanes, hs.noExm, hs.noPc, hm⟩

end Sys2Proof.Machine
end

section
/-! The Millrace's instructions (O45), where an RCLD's rows run past the highest address. -/

namespace Sys2Proof.Machine

set_option Elab.async false

/-- A block with a scratchpad window of 2^60 units, more than addresses reach. -/
def vastBlock : Block := { testBlock with need := { testNeed with scratch := 2 ^ 60 } }

/-- A gang of it with a row address 4 below 2^64 in k1, and a count of two rows in k2. -/
def vastGang : Gang := ((testGang 1).kset 1 (BitVec.ofNat 64 (2 ^ 64 - 4))).kset 2 256

/-- A state in which it issues, an evaluation running, and 5 in the byte at offset 124. -/
def vastState : State :=
  (((placeWord State.reset 16 0).setBlock 1 vastBlock).setGang 16 vastGang |>.setArray 0
    { arrayDefault with owner := some 1, eval := some (1, 100) }).setSbyte (scrKey 0 0 124) 5

/-- RCLD of two crossbar rows of 128 bytes. -/
def vastLoad : Instr := .rcld false 1 0 2

/-- What an RCLD needs. -/
def vastUse : Use := { k := [1, 2], race := true, arr := true, reads := true }

theorem vastState_issues : Issues vastState 16 vastGang (firstSplit 1 0 (BitVec.allOnes 64)) vastBlock :=
  ⟨rfl, by decide +kernel, rfl, rfl, by decide +kernel, rfl, by decide +kernel, rfl, rfl, rfl⟩

theorem vastState_clear : Clear vastState 16 vastBlock vastGang (firstSplit 1 0 (BitVec.allOnes 64)) vastUse where
  vregs := by decide
  kregs := by decide
  race := by decide
  guard := by decide
  scope := by simp [vastUse]
  lcnt := by decide
  scnt := by decide
  replay := by decide +kernel
  reads := by decide +kernel
  queue := by decide +kernel
  array := by simp [vastUse]
  coll := by simp [vastUse]
  windows := by simp [firstSplit]
  long := by simp [vastUse]

/-- The first byte of the second row that the last RCLD of a queue loads. -/
def secondRow (a : Array) : Option Byte :=
  match a.queue.getLast? with
  | some (.load _ _ rows) => (rows.getD 1 []).head?
  | _ => none

/-- The second row begins at offset 124, 128 above the first modulo 2^64. -/
theorem vastLoad_wraps : (match exec vastLoad vastState with
    | .next t => secondRow (t.array 0)
    | _ => none) = some 5 := by decide +kernel

/-- Refutes O45: nothing bounds a block's window, and an RCLD's addresses are words of 64 bits. In a window that reaches past
2^64 the second row's address wraps, where the statement has the bytes behind the first row. -/
theorem not_millraceInstructions : ¬ Obligations.MillraceInstructions := by
  intro h
  obtain ⟨-, -, -, -, -, -, -, -, hld, -⟩ := h
  obtain ⟨t, ht, -, ha⟩ := (hld false 1 0 2 _ _ _ _ _ vastState_issues vastState_clear (by decide +kernel)).2 (by decide +kernel)
  have e := vastLoad_wraps
  rw [vastLoad, ht] at e
  simp only [show t.array 0 = _ from ha] at e
  exact absurd e (by decide +kernel)

end Sys2Proof.Machine
end

section
/-! MERGE and EXIT (O8), where a split stands beyond the eight entries of the table. -/

namespace Sys2Proof.Machine

set_option Elab.async false

/-- A gang of two lanes, each in a split: the current one in entry 0, the other in entry 9. -/
def farGang : Gang :=
  { testGang 1 with live := 3, splits := [(0, some (firstSplit 1 0 1)), (9, some (firstSplit 2 0 2))] }

/-- A state in which it issues. -/
def farState : State := (placeWord State.reset 16 0).setGang 16 farGang

theorem farState_issues : Issues farState 16 farGang (firstSplit 1 0 1) testBlock :=
  ⟨rfl, by decide +kernel, rfl, rfl, by decide +kernel, rfl, by decide +kernel, rfl, rfl, rfl⟩

theorem farState_clear : Clear farState 16 testBlock farGang (firstSplit 1 0 1) { close := true } where
  vregs := by simp
  kregs := by simp
  race := by simp
  guard := by simp
  scope := by simp
  lcnt := by simp
  scnt := by simp
  replay := by simp
  reads := by simp
  queue := by simp
  array := by simp
  coll := by simp
  windows := by simp [firstSplit]
  long := by simp

/-- When the current split's lanes have left, no entry is found for the gang to go on with. -/
theorem exit_strands : (match exec (.exit ⟨0, false⟩) farState with
    | .next t => (t.gang? 16).map fun g => g.split?.isSome
    | _ => none) = some false := by decide +kernel

/-- Refutes O8: nothing says that a gang's splits stand in the entries 0 to 7. Where the one that is left stands in entry 9, the
gang has no current split after EXIT, though that one is ready. -/
theorem not_mergingAndExiting : ¬ Obligations.MergingAndExiting := by
  intro h
  obtain ⟨-, -, -, hx⟩ := h
  obtain ⟨-, -, -, hfree, -⟩ := hx ⟨0, false⟩ _ _ _ _ _ farState_issues farState_clear
  obtain ⟨t, g', ht, hg, -, -, -, -, hready, -⟩ :=
    hfree (by decide +kernel) (by decide +kernel) (by decide +kernel) rfl (by decide +kernel)
  obtain ⟨-, hcur⟩ := hready 9 (firstSplit 2 0 2) (by decide) rfl rfl
  have e := exit_strands
  rw [ht] at e
  simp only [hg, Option.map_some, hcur] at e
  exact absurd e (by decide)

end Sys2Proof.Machine
end

section
/-! Barriers (O9), where a gang arrives in the cycle of its own join and a member of the next generation waits already. -/

namespace Sys2Proof.Machine

set_option Elab.async false

/-- A gang that waits at a CBAR of crew 0. -/
def waitingGang : Gang :=
  { testGang 1 with idx := 1, splits := [(0, some { firstSplit 2 0 (BitVec.allOnes 64) with wait := .atCbar 0 })] }

/-- Crew 0 of generation 0 in cycle 5: gang 16 has joined in this cycle, gang 17 in cycle 3 for the next generation. -/
def joinedCrew : Crew := { gen := 0, members := [(16, 0, 5), (17, 1, 3)], left := [] }

/-- A state in which gang 16 issues and gang 17 waits. -/
def joinedState : State :=
  { ((placeWord State.reset 16 0).setGang 17 waitingGang).setCrew 0 joinedCrew with cycle := 5 }

theorem joinedState_issues : Issues joinedState 16 (testGang 1) (firstSplit 1 0 (BitVec.allOnes 64)) testBlock :=
  ⟨rfl, by decide +kernel, rfl, rfl, by decide +kernel, rfl, by decide +kernel, rfl, rfl, rfl⟩

theorem joinedState_clear : Clear joinedState 16 testBlock (testGang 1) (firstSplit 1 0 (BitVec.allOnes 64)) { close := true } where
  vregs := by simp
  kregs := by simp
  race := by simp
  guard := by simp
  scope := by simp
  lcnt := by simp
  scnt := by simp
  replay := by simp
  reads := by simp
  queue := by simp
  array := by simp
  coll := by simp
  windows := by simp [firstSplit]
  long := by simp

/-- Gang 16's arrival completes generation 0; then its join counts for generation 2, and gang 17 alone completes generation 1. -/
theorem cbar_twice : (match exec (.cbar 0) joinedState with
    | .next t => some (t.crew 0).gen
    | _ => none) = some 2 := by decide +kernel

/-- Refutes O9: the last arrival may raise the generation by two. Where the gang that arrives has joined in the same cycle, its
join is moved on once it has gone, and a member of the next generation that waits already completes that one by itself. -/
theorem not_barriers : ¬ Obligations.Barriers := by
  intro h
  obtain ⟨-, -, -, -, -, -, -, hlast⟩ := h
  obtain ⟨t, g', sp', ht, -, -, -, -, -, -, -, hgen, -⟩ :=
    hlast 0 _ _ _ _ _ (0, 5) joinedState_issues joinedState_clear rfl (by decide) (by decide +kernel) (by decide +kernel)
      (by decide +kernel) (by decide +kernel)
  have e := cbar_twice
  rw [ht] at e
  simp only [show crewKey testBlock 0 = 0 from rfl] at hgen
  simp only [hgen] at e
  exact absurd e (by decide +kernel)

end Sys2Proof.Machine
end

section
/-! Blocks that go out and come back (O37): what a swap-out keeps of a running block's scratchpad window, what a restore of a
block without entries leaves alone, and a context that stays stopped. -/

namespace Sys2Proof.Machine

set_option Elab.async false

variable {s : State} {n : Nat} {b : Block}

-- A block goes out (R86, R387).

/-- A block's scratchpad window: the keys of its bytes. -/
def inScratch (b : Block) (k : Nat) : Bool :=
  decide (scrKey b.core b.bank b.scrbase ≤ k) && decide (k < scrKey b.core b.bank b.scrbase + 256 * b.need.scratch)

/-- Nothing is read at a key whose entries were taken out. -/
theorem tget_filter_not {α : Type} (d : α) (t : Tab α) (p : Nat → Bool) {k : Nat} (h : p k = true) :
    tget d (t.filter fun e => !p e.1) k = d := by
  induction t with
  | nil => rfl
  | cons e r ih =>
    rw [List.filter_cons]
    split
    · next he =>
      rw [tget, if_neg fun hk => by subst hk; simp [h] at he]
      exact ih
    · exact ih

theorem foldl_modGang_blocks (l : List Nat) (f : Gang → Gang) (s : State) :
    (l.foldl (fun s k => s.modGang k f) s).blocks = s.blocks := by
  obtain ⟨x, e⟩ := foldl_modGang_only l f s
  rw [e]

theorem foldl_modGang_core (l : List Nat) (f : Gang → Gang) (s : State) :
    (l.foldl (fun s k => s.modGang k f) s).core = s.core := by
  obtain ⟨x, e⟩ := foldl_modGang_only l f s
  rw [e]

theorem freeStores_scratch (s : State) (n : Nat) (b : Block) (img : Image) :
    (freeStores s n b img).core.scratch = s.core.scratch.filter fun e => !inScratch b e.1 := by
  have h : (freeArray s n b).core.scratch = s.core.scratch := by
    unfold freeArray
    split <;> rfl
  show (freeArray s n b).core.scratch.filter _ = _
  rw [h]
  rfl

/-- A running block that goes out, no box of it running: its image holds its window's bytes, its window is empty, and memory and
contexts stay (R387). -/
theorem swapOut_running (hb : s.block? n = some b) (hp : b.phase = .running) (hd : BoxesDone s n) (ph : Phase) :
    ∃ img, (swapOut s n ph).block? n = some { b with phase := ph, image := some img } ∧
      img.scratch = (s.core.scratch.filter fun e => inScratch b e.1).map (fun e => (e.1 - scrKey b.core b.bank b.scrbase, e.2)) ∧
      (swapOut s n ph).core.scratch = s.core.scratch.filter fun e => !inScratch b e.1 := by
  have hs : settleCmds (saveEntries s n ph) n = saveEntries s n ph := settleCmds_none _ n (hd.saveEntries ph)
  have hc : (saveEntries s n ph).core = s.core := by
    obtain ⟨x, y, z, e⟩ := saveEntries_only s n ph
    rw [e]
  have hr : (!b.resident || b.phase == .returned) = false := by simp [Block.resident, hp]
  unfold swapOut
  simp only [hb, hr, Bool.false_eq_true, if_false, hs]
  generalize saveEntries s n ph = t at hc
  rw [← hc]
  have hd (f g) : ∃ u o, dropAhead (loseSlots t f) g = { t with aged := u, ahead := o } := ⟨_, _, rfl⟩
  obtain ⟨u, o, e⟩ := hd (entryOf t n) fun k _ => k / 16 == n
  rw [e]
  refine ⟨captureImage { t with aged := u, ahead := o } n b, ?_, rfl, ?_⟩
  · rw [State.block?, foldl_modGang_blocks]
    exact tget_tput_self none _ n (some _)
  · rw [foldl_modGang_core]
    exact freeStores_scratch { t with aged := u, ahead := o } n b _

theorem modCtx_only (s : State) (c : Nat) (f : Context → Context) : ∃ x, s.modCtx c f = { s with ctxs := x } := by
  unfold State.modCtx
  split
  · exact ⟨_, rfl⟩
  · exact ⟨s.ctxs, rfl⟩

/-- A gang parked past the limit takes its block out. -/
theorem parkLimitExpiry_takes {k u ring seq since : Nat} {srv : Bool} {g : Gang} (hg : s.gang? k = some g)
    (hh : g.hold = .park u ring seq since srv) (hb : s.block? g.block = some b) (hp : b.phase = .running)
    (hl : since + 16 * (s.part (b.core / 32)).park ≤ s.cycle) :
    exec (.parkLimitExpiry k) s =
      .next ((swapOut s g.block (.swapped false false)).modCtx b.ctx fun c => { c with npark := c.npark + 1 }) := by
  have h : (parkedSince s k g).any (fun since => decide (since + 16 * (s.part (partOf b.core)).park ≤ s.cycle)) = true := by
    rw [parkedSince, hh]
    simp [partOf, hl]
  rw [exec_parkLimitExpiry, execParkLimitExpiry, parkOut, hg]
  simp only [hb, hp, h, beq_self_eq_true, Bool.and_self, if_true]

/-- What stands in an image's scratchpad is what stood in the window, by offset. -/
theorem mem_windowImage (b : Block) (t : Tab Byte) (off : Nat) (x : Byte) :
    (off, x) ∈ (t.filter fun e => inScratch b e.1).map (fun e => (e.1 - scrKey b.core b.bank b.scrbase, e.2)) ↔
      (scrKey b.core b.bank b.scrbase + off, x) ∈ t ∧ off < 256 * b.need.scratch := by
  simp only [List.mem_map, List.mem_filter, inScratch, Bool.and_eq_true, decide_eq_true_eq, Prod.mk.injEq]
  constructor
  · rintro ⟨⟨k, y⟩, ⟨hm, h1, h2⟩, rfl, rfl⟩
    rw [Nat.add_sub_cancel' h1]
    exact ⟨hm, by omega⟩
  · rintro ⟨hm, ho⟩
    exact ⟨_, ⟨hm, Nat.le_add_right .., by omega⟩, Nat.add_sub_cancel_left .., rfl⟩

/-- PARK_LIMIT_EXPIRY. -/
theorem parkLimitExpiry_swaps {k u ring seq since : Nat} {srv : Bool} {g : Gang} {c : Context} (hg : s.gang? k = some g)
    (hh : g.hold = .park u ring seq since srv) (hb : s.block? g.block = some b) (hp : b.phase = .running)
    (hc : s.ctx? b.ctx = some c) (hl : since + 16 * (s.part (b.core / 32)).park ≤ s.cycle) (hd : BoxesDone s g.block) :
    ∃ t b' img, exec (.parkLimitExpiry k) s = .next t ∧ (∀ a, t.byte a = s.byte a) ∧ t.block? g.block = some b' ∧
      b' = { b with phase := .swapped false false, image := some img } ∧
      (∀ off x, (off, x) ∈ img.scratch ↔ (scrKey b.core b.bank b.scrbase + off, x) ∈ s.core.scratch ∧ off < 256 * b.need.scratch) ∧
      (∀ off < 256 * b.need.scratch, t.sbyte (scrKey b.core b.bank b.scrbase + off) = 0) ∧
      ∃ c', t.ctx? b.ctx = some c' ∧ c' = { c with npark := c.npark + 1 } := by
  obtain ⟨img, h1, h2, h3⟩ := swapOut_running hb hp hd (.swapped false false)
  have hm := swapOut_mem s g.block (.swapped false false) hd
  have hx : (swapOut s g.block (.swapped false false)).ctx? b.ctx = some c := by
    rw [← hc, State.ctx?, (swapOut_keeps ..).1]
    rfl
  refine ⟨_, _, img, parkLimitExpiry_takes hg hh hb hp hl, ?_, ?_, rfl, fun off x => ?_, fun off ho => ?_, _, ?_, rfl⟩
  · obtain ⟨y, e⟩ := modCtx_only (swapOut s g.block (.swapped false false)) b.ctx fun c => { c with npark := c.npark + 1 }
    intro a
    rw [e]
    exact congrArg (fun m : MemSt => tget unwritten m.bytes a) hm
  · rw [modCtx_some hx]
    exact h1
  · rw [h2]
    exact mem_windowImage ..
  · rw [modCtx_some hx]
    show tget 0 (swapOut s g.block (.swapped false false)).core.scratch _ = 0
    rw [h3]
    exact tget_filter_not 0 _ (inScratch b) (by simp [inScratch, ho])
  · rw [modCtx_some hx]
    exact setCtx_ctx_self ..

-- A block comes back (R30, R387).

theorem returnBlock_block (s : State) (n : Nat) (b : Block) (bank : Nat) :
    (returnBlock s n b bank).block? n = some { b with phase := .returned, bank := bank } :=
  setBlock_block_self ..

theorem returnBlock_gang (s : State) (n : Nat) (b : Block) (bank k : Nat) : (returnBlock s n b bank).gang? k = s.gang? k := by
  unfold returnBlock
  split <;> rfl

theorem returnBlock_byte (s : State) (n : Nat) (b : Block) (bank a : Nat) : (returnBlock s n b bank).byte a = s.byte a := by
  unfold returnBlock
  split <;> rfl

theorem returnBlock_array (s : State) (n bank : Nat) (hr : b.need.race = true) :
    (returnBlock s n b bank).array b.core = { arrayDefault with owner := some n } := by
  rw [returnBlock, if_pos hr]
  exact setArray_array_self ..

/-- BLOCK_RETURN of a block that may return. -/
theorem blockReturn_returns (hb : s.block? n = some b) (hr : runsOn s b.ctx (b.core / 32) = true)
    (hc : canReturn s n b (placeBank s (b.core / 32)) = true) :
    exec (.blockReturn n) s = .next (returnBlock s n b (placeBank s (b.core / 32))) := by
  rw [exec_blockReturn, execBlockReturn, hb]
  simp only [partOf, hr, hc, Bool.and_self, if_true]

-- A block is restored (R394).

/-- Of a block no request, command, remote request or access of an engine is there. -/
structure NoEntries (s : State) (n : Nat) : Prop where
  reqs : ∀ e ∈ tentries s.reqs, e.2.gang / 16 ≠ n
  cmds : ∀ e ∈ tentries s.cmds, e.2.gang / 16 ≠ n
  rreqs : ∀ e ∈ tentries s.rreqs, e.2.gang / 16 ≠ n
  engOps : ∀ e ∈ tentries s.engOps, e.2.gang / 16 ≠ n

theorem NoEntries.entryOf (h : NoEntries s n) (u : Nat) : entryOf s n u = false := by
  suffices hb : entryBlock s u ≠ some n by simpa [Machine.entryOf] using hb
  unfold entryBlock
  split
  · next hx => exact fun e => h.engOps _ (mem_tentries_of_tget hx) (Option.some.inj e)
  · next hx => exact fun e => h.reqs _ (mem_tentries_of_tget hx) (Option.some.inj e)
  · next hx => exact fun e => h.rreqs _ (mem_tentries_of_tget hx) (Option.some.inj e)
  · next hx => exact fun e => h.cmds _ (mem_tentries_of_tget hx) (Option.some.inj e)
  · exact fun e => by cases e

/-- Nothing of such a block is aged again. -/
theorem NoEntries.reage (h : NoEntries s n) : reage s n = s := by
  unfold Machine.reage
  rw [List.filter_eq_nil_iff.mpr fun u _ => by simp [h.entryOf u]]
  rfl

theorem filter_block_nil {α : Type} {l : List (Nat × α)} {gang : α → Nat} (h : ∀ e ∈ l, gang e.2 / 16 ≠ n) (p : Nat × α → Bool) :
    (l.filter fun e => gang e.2 / 16 == n && p e) = [] :=
  List.filter_eq_nil_iff.mpr fun e he => by simp [h e he]

/-- A gang that nothing holds goes on by itself. -/
theorem unpark_none {k : Nat} (h : ∀ g, s.gang? k = some g → g.hold = .none) : unpark s k = s := by
  unfold unpark
  split
  · rfl
  · next g hg => rw [h g hg]

theorem foldl_unpark_none (l : List Nat) (h : ∀ k ∈ l, ∀ g, s.gang? k = some g → g.hold = .none) : l.foldl unpark s = s := by
  induction l with
  | nil => rfl
  | cons k r ih =>
    rw [List.foldl_cons, unpark_none (h k (.head _))]
    exact ih fun j hj => h j (.tail _ hj)

/-- Nothing of such a block is reissued, where it does not own the array and nothing holds its gangs. -/
theorem NoEntries.reissueBlock (h : NoEntries s n) (hb : s.block? n = some b) (hr : b.need.race = false)
    (hp : ∀ e ∈ tentries s.reqs, e.2.bounced = true → e.2.space = .peer → e.2.cause ≠ 6)
    (hg : ∀ k ∈ blockGangs b n, ∀ g, s.gang? k = some g → g.hold = .none) : reissueBlock s n = s := by
  have hps : peersFor s n b.ctx = [] := by
    rw [peersFor, List.filter_eq_nil_iff.mpr fun e he => ?_]
    · rfl
    · simp only [Bool.and_eq_true, beq_iff_eq]
      rintro ⟨⟨⟨⟨-, h1⟩, h2⟩, h3⟩, -⟩
      exact hp e he h1 h3 h2
  unfold Machine.reissueBlock
  rw [hb]
  dsimp only
  split
  · rfl
  · have h1 : (tentries s.reqs).filter (fun e => e.2.gang / 16 == n && (dueReq s e.1 b e.2 || replaced e.2)) = [] :=
      filter_block_nil h.reqs _
    have h2 : (tentries s.cmds).filter (fun e => e.2.gang / 16 == n && e.2.bounced && (e.2.cause == 0 || e.2.cause == 6)) = [] :=
      List.filter_eq_nil_iff.mpr fun e he => by simp [h.cmds e he]
    have h3 : (tentries s.engOps).filter (fun e => e.2.gang / 16 == n && e.2.bounced && e.2.cause != 5 && !hubWaiting s 6 e.1) = [] :=
      List.filter_eq_nil_iff.mpr fun e he => by simp [h.engOps e he]
    simp only [h1, hps, List.filter_nil, List.foldl_nil, h2, h3, hr, Bool.false_eq_true, if_false]
    exact foldl_unpark_none _ hg

theorem foldl_setSbyte_notMem (base : Nat) (l : List (Nat × Byte)) (s : State) {k : Nat} (h : k ∉ l.map fun e => base + e.1) :
    (l.foldl (fun (s : State) e => s.setSbyte (base + e.1) e.2) s).sbyte k = s.sbyte k := by
  induction l generalizing s with
  | nil => rfl
  | cons e r ih =>
    simp only [List.map_cons, List.mem_cons, not_or] at h
    rw [List.foldl_cons, ih _ h.2, setSbyte_sbyte, if_neg h.1]

/-- Bytes put back at distinct offsets stand where they were put. -/
theorem foldl_setSbyte_mem (base : Nat) (l : List (Nat × Byte)) (s : State) (hn : (l.map (·.1)).Nodup) {e : Nat × Byte} (he : e ∈ l) :
    (l.foldl (fun (s : State) e => s.setSbyte (base + e.1) e.2) s).sbyte (base + e.1) = e.2 := by
  induction l generalizing s with
  | nil => cases he
  | cons x r ih =>
    rw [List.map_cons, List.nodup_cons] at hn
    rw [List.foldl_cons]
    rcases List.mem_cons.mp he with rfl | he
    · have h : base + e.1 ∉ r.map fun e => base + e.1 := by
        rintro h
        obtain ⟨y, hy, e'⟩ := List.mem_map.mp h
        exact hn.1 (List.mem_map.mpr ⟨y, hy, Nat.add_left_cancel e'⟩)
      rw [foldl_setSbyte_notMem base r _ h, setSbyte_sbyte_self]
    · exact ih _ hn.2 he

/-- Changes of tiles and of the operand buffer, one after another, change nothing but those. -/
theorem foldl_core {α : Type} {f : State → α → State} (hf : ∀ s x, ∃ c, f s x = { s with core := c } ∧ c.scratch = s.core.scratch)
    (l : List α) (s : State) : ∃ c, l.foldl f s = { s with core := c } ∧ c.scratch = s.core.scratch := by
  induction l generalizing s with
  | nil => exact ⟨s.core, rfl, rfl⟩
  | cons x r ih =>
    obtain ⟨c, e, hc⟩ := hf s x
    obtain ⟨c', e', hc'⟩ := ih (f s x)
    rw [e] at e' hc'
    exact ⟨c', by rw [List.foldl_cons, e, e'], hc'.trans hc⟩

theorem foldl_setSbyte_only (base : Nat) (l : List (Nat × Byte)) (s : State) :
    ∃ c, l.foldl (fun (s : State) e => s.setSbyte (base + e.1) e.2) s = { s with core := c } := by
  induction l generalizing s with
  | nil => exact ⟨s.core, rfl⟩
  | cons x r ih =>
    obtain ⟨c, e⟩ := ih (s.setSbyte (base + x.1) x.2)
    exact ⟨c, e⟩

/-- A block's stores filled from its image, no array in it: only the stores of the core change, and the window's bytes stand where
the image has them. -/
theorem fillImage_fills (s : State) (n : Nat) (b : Block) {img : Image} (ha : img.array = none) (hn : (img.scratch.map (·.1)).Nodup) :
    ∃ c, fillImage s n b img = { s with core := c } ∧
      ∀ e ∈ img.scratch, tget 0 c.scratch (scrKey b.core b.bank b.scrbase + e.1) = e.2 := by
  unfold fillImage
  simp only [ha]
  obtain ⟨c0, e0⟩ := foldl_setSbyte_only (scrKey b.core b.bank b.scrbase) img.scratch s
  have h0 : ∀ e ∈ img.scratch, tget 0 c0.scratch (scrKey b.core b.bank b.scrbase + e.1) = e.2 := fun e he => by
    have h := foldl_setSbyte_mem (scrKey b.core b.bank b.scrbase) img.scratch s hn he
    rw [e0] at h
    exact h
  rw [e0]
  obtain ⟨c1, e1, h1⟩ := foldl_core (f := fun (s : State) (e : Nat × List (Word × Word)) =>
    s.setTile (tileKey b.core (e.1 / 64 % 4) b.bank (e.1 % 32)) n e.2) (fun s x => ⟨_, rfl, rfl⟩) img.tiles { s with core := c0 }
  rw [e1]
  obtain ⟨c2, e2, h2⟩ := foldl_core (f := fun (s : State) (e : Nat × Byte) =>
    s.setObyte (opKey b.core (e.1 / 131072 % 4) b.bank (e.1 % 65536)) e.2) (fun s x => ⟨_, rfl, rfl⟩) img.opbuf { s with core := c1 }
  rw [e2]
  exact ⟨c2, rfl, fun e he => by rw [h2, h1]; exact h0 e he⟩

/-- RESTORE of a returned block whose context's save area is intact. -/
theorem restore_fills {img : Image} (hb : s.block? n = some b) (hp : b.phase = .returned) (hi : b.image = some img)
    (ha : areaIntact s b.ctx = true) (hr : b.need.race = false) (hia : img.array = none) (hn : (img.scratch.map (·.1)).Nodup)
    (hg : ∀ k ∈ blockGangs b n, ∀ g, s.gang? k = some g → g.hold = .none) (he : NoEntries s n)
    (hq : ∀ e ∈ tentries s.reqs, e.2.bounced = true → e.2.space = .peer → e.2.cause ≠ 6) :
    ∃ c y, exec (.restore n) s = .next (({ s with core := c, energy := y } : State).setBlock n { b with
        phase := (match img.staging with | some x => .staging x.1 x.2 | none => .running), image := none }) ∧
      ∀ e ∈ img.scratch, tget 0 c.scratch (scrKey b.core b.bank b.scrbase + e.1) = e.2 := by
  obtain ⟨c, e, hc⟩ := fillImage_fills s n b hia hn
  obtain ⟨y, ey⟩ : ∃ y, countSpill { s with core := c } b.core b.ctx (256 * b.need.scratch + 0x80000 * b.ngangs) =
    { s with core := c, energy := y } := ⟨_, rfl⟩
  refine ⟨c, y, ?_, hc⟩
  rw [exec_restore, execRestore, hb]
  simp only [hp, bne_self_eq_false, Bool.false_eq_true, if_false, ha, if_true, restoreBlock, hi, Option.getD_some, e, ey]
  generalize ht : State.setBlock _ n _ = t
  have hte : NoEntries t n := by subst ht; exact ⟨he.reqs, he.cmds, he.rreqs, he.engOps⟩
  rw [hte.reage]
  subst ht
  exact congrArg _ (hte.reissueBlock (setBlock_block_self ..) hr hq hg)

-- A restore that the check refuses (R392).

/-- Of the block table, a swap-out changes at most the block's own entry: its phase and its image. -/
theorem swapOut_blocks (s : State) (n : Nat) (ph : Phase) :
    (s.block? n = none ∧ (swapOut s n ph).blocks = s.blocks) ∨
      ∃ b b', s.block? n = some b ∧ b'.ctx = b.ctx ∧ b'.phase = ph ∧ (swapOut s n ph).blocks = tput none s.blocks n (some b') := by
  rcases swapOut_cases s n ph with ⟨e, h⟩ | ⟨b, hb, ⟨c, x, y, z, e⟩ | ⟨c, l, u, o, img, v, e, -⟩⟩
  · exact .inl ⟨h, by rw [e]⟩
  · exact .inr ⟨b, { b with phase := ph }, hb, rfl, rfl, by rw [e]⟩
  · refine .inr ⟨b, { b with phase := ph, image := some img }, hb, rfl, rfl, ?_⟩
    have hk : (settleCmds (saveEntries s n ph) n).blocks = s.blocks := by
      obtain ⟨x, y, z, e⟩ := saveEntries_only s n ph
      rw [(keeps_settleCmds ..).blocks, e]
    rw [e, hk]

/-- Every block of a context is out, but for those of a list. -/
def StoppedBut (s : State) (ctx : Nat) (l : List Nat) : Prop :=
  ∀ m x, s.block? m = some x → x.ctx = ctx → x.phase = .stopped ∨ m ∈ l

/-- One swap-out takes its block off the list. -/
theorem StoppedBut.swapOut {ctx : Nat} {l : List Nat} (h : StoppedBut s ctx (n :: l)) :
    StoppedBut (swapOut s n .stopped) ctx l := by
  intro m x hm hx
  rcases swapOut_blocks s n .stopped with ⟨hn, e⟩ | ⟨b, b', hn, hc, hp, e⟩
  · rw [State.block?, e] at hm
    rcases h m x hm hx with h | h
    · exact .inl h
    · rcases List.mem_cons.mp h with rfl | h
      · exact absurd (hn.symm.trans hm) nofun
      · exact .inr h
  · rw [State.block?, e, tget_tput] at hm
    split at hm
    · cases hm
      exact .inl hp
    · next hne =>
      rcases h m x hm hx with h | h
      · exact .inl h
      · exact .inr ((List.mem_cons.mp h).resolve_left hne)

theorem StoppedBut.foldl {ctx : Nat} (l : List (Nat × Block)) (h : StoppedBut s ctx (l.map (·.1))) :
    StoppedBut (l.foldl (fun s e => Machine.swapOut s e.1 .stopped) s) ctx [] := by
  induction l generalizing s with
  | nil => exact h
  | cons e r ih => exact ih h.swapOut

theorem foldl_swapOut_ctxs (l : List (Nat × Block)) (s : State) :
    (l.foldl (fun s e => swapOut s e.1 .stopped) s).ctxs = s.ctxs := by
  induction l generalizing s with
  | nil => rfl
  | cons e r ih => rw [List.foldl_cons, ih, (swapOut_keeps ..).1]

/-- A context that stays stopped has every block out. -/
theorem haltCtx_stops {ctx : Nat} {c : Context} (hc : s.ctx? ctx = some c) :
    (haltCtx s ctx).ctx? ctx = some { c with state := .stopped } ∧ StoppedBut (haltCtx s ctx) ctx [] := by
  have h : StoppedBut s ctx (((tentries s.blocks).filter fun e => e.2.ctx == ctx).map (·.1)) := fun m x hm hx =>
    .inr (List.mem_map.mpr ⟨_, List.mem_filter.mpr ⟨mem_tentries_of_tget hm, by simpa using hx⟩, rfl⟩)
  have hf := StoppedBut.foldl _ h
  unfold haltCtx
  generalize ht : List.foldl _ s _ = t at hf
  have hx : t.ctx? ctx = some c := by
    rw [← hc, State.ctx?, ← ht, foldl_swapOut_ctxs]
    rfl
  rw [modCtx_some hx]
  exact ⟨setCtx_ctx_self .., hf⟩

theorem notice_ctxs (s : State) (ring ctx cause sub : Nat) (aux : DWord) (addrs : List DWord) :
    (notice s ring ctx cause sub aux addrs).ctxs = s.ctxs := by
  obtain ⟨x, y, z, e⟩ := postRec_only s ring { baseRec s ring ctx with cause, sub, aux, addrs }
  rw [notice, e]

/-- A restore that the check refuses stops every block of the context. -/
theorem restore_refused {c : Context} (hb : s.block? n = some b) (hp : b.phase = .returned) (hc : s.ctx? b.ctx = some c)
    (ha : areaIntact s b.ctx = false) :
    ∃ t c', exec (.restore n) s = .next t ∧ t.ctx? b.ctx = some c' ∧ c'.state = .stopped ∧
      ∀ m x, t.block? m = some x → x.ctx = b.ctx → x.phase = .stopped := by
  have hx : (notice s 64 b.ctx 6 0 0 []).ctx? b.ctx = some c := by
    rw [← hc, State.ctx?, notice_ctxs]
    rfl
  obtain ⟨h1, h2⟩ := haltCtx_stops hx
  refine ⟨_, _, ?_, h1, rfl, fun m x hm hx => (h2 m x hm hx).resolve_right nofun⟩
  rw [exec_restore, execRestore, hb]
  simp only [hp, bne_self_eq_false, Bool.false_eq_true, if_false, ha, refuseRestore]

/-- Settles O37: a clause each for the park limit, the return, the restore and the refused restore. -/
theorem swappingBlocks : Obligations.SwappingBlocks := by
  unfold Obligations.SwappingBlocks
  refine ⟨fun k s g b u ring seq since srv c hg hh hb hp hc hl hd => parkLimitExpiry_swaps hg hh hb hp hc hl hd,
    fun n s b hb hr hc => ⟨_, blockReturn_returns hb hr hc, returnBlock_byte s n b _, returnBlock_gang s n b _,
      returnBlock_block .., returnBlock_array s n _⟩,
    fun n s b img hb hp hi ha hr hia hg hq hcm hrr he hn => ?_,
    fun n s b c hb hp hc ha => restore_refused hb hp hc ha⟩
  obtain ⟨c, y, e, h⟩ := restore_fills hb hp hi ha hr hia hn hg ⟨fun e he => (hq e he).1, hcm, hrr, he⟩ fun e he => (hq e he).2
  exact ⟨_, e, fun _ => rfl, setBlock_block_self .., h, fun _ => rfl⟩

end Sys2Proof.Machine
end

section
/-! What a write of memory changes (R11, R80, R81, R105, R348, R402): the memory's own records, caches, counts, and reservations;
and which bytes. -/

namespace Sys2Proof.Machine

set_option Elab.async false

variable {s t : State}

/-- A write touches the memory and its records, the stores of the cores, the counts of slots and of the meters, and of gangs
only reservations. -/
structure Writes (s t : State) : Prop where
  rest : ∃ m c p e g, t = { s with mem := m, core := c, pf := p, energy := e, gangs := g }
  keeps : Keeps s t

theorem Writes.refl (s : State) : Writes s s := ⟨⟨_, _, _, _, _, rfl⟩, .refl s⟩

theorem Writes.trans {u : State} (a : Writes s t) (b : Writes t u) : Writes s u where
  rest := by
    obtain ⟨m, c, p, e, g, rfl⟩ := a.rest
    obtain ⟨m', c', p', e', g', h⟩ := b.rest
    exact ⟨m', c', p', e', g', h⟩
  keeps := a.keeps.trans b.keeps

theorem Writes.foldl {α : Type} {f : State → α → State} (hf : ∀ s x, Writes s (f s x)) (l : List α) (s : State) :
    Writes s (l.foldl f s) := by
  induction l generalizing s with
  | nil => exact .refl s
  | cons x r ih => exact (hf s x).trans (ih (f s x))

theorem HomeOnly.writes (h : HomeOnly s t) : Writes s t := by
  obtain ⟨m, c, p, e, rfl⟩ := h.rest
  exact ⟨⟨_, _, _, _, _, rfl⟩, .of_eq rfl rfl rfl rfl⟩

theorem Writes.cmds (h : Writes s t) : t.cmds = s.cmds := by
  obtain ⟨m, c, p, e, g, rfl⟩ := h.rest
  rfl

theorem Writes.launches (h : Writes s t) : t.launches = s.launches := by
  obtain ⟨m, c, p, e, g, rfl⟩ := h.rest
  rfl

theorem Writes.ctx (h : Writes s t) (c : Nat) : t.ctx? c = s.ctx? c := by rw [State.ctx?, h.keeps.ctxs]; rfl

theorem Writes.block (h : Writes s t) (n : Nat) : t.block? n = s.block? n := by rw [State.block?, h.keeps.blocks]; rfl

theorem writes_clearLine (s : State) (line : Nat) : Writes s (clearLine s line) := ⟨⟨_, _, _, _, _, rfl⟩, keeps_clearLine ..⟩

theorem writes_clearCoreLine (s : State) (core line : Nat) : Writes s (clearCoreLine s core line) :=
  ⟨⟨_, _, _, _, _, rfl⟩, keeps_clearCoreLine ..⟩

theorem writes_dropCopies (s : State) (line : Nat) (keep : Option Nat) : Writes s (dropCopies s line keep) := by
  unfold dropCopies
  refine (Writes.foldl (fun s e => ?_) _ s).trans ⟨⟨_, _, _, _, _, rfl⟩, .of_eq rfl rfl rfl rfl⟩
  split
  · refine Writes.trans ?_ (writes_clearCoreLine ..)
    split
    · exact (homeOnly_setL1 ..).writes
    · exact ((homeOnly_chargeUser ..).trans (homeOnly_setL1 ..)).writes
  · exact .refl s

theorem writes_writeBytes (s : State) (a : Nat) (l : List Byte) : Writes s (s.writeBytes a l) := by
  refine ⟨?_, keeps_writeBytes ..⟩
  induction l generalizing s a with
  | nil => exact ⟨_, _, _, _, _, rfl⟩
  | cons b r ih => exact ih (s.setByte a b) (a + 1)

theorem writes_clearPoison (s : State) (sec : Nat) : Writes s (clearPoison s sec) :=
  ⟨⟨_, _, _, _, _, rfl⟩, .of_eq rfl rfl rfl rfl⟩

/-- A write's part in a sector: what happens in the memory before its bytes are put there, and whether it is refused (R402). -/
def sectorOpened (s : State) (a n sec : Nat) : State × Bool :=
  if min (a + n) (32 * sec + 32) - max a (32 * sec) = 32 then (clearPoison s sec, false) else sectorRead s sec

theorem writes_sectorOpened (s : State) (a n sec : Nat) : Writes s (sectorOpened s a n sec).1 := by
  unfold sectorOpened
  split
  · exact writes_clearPoison ..
  · exact (homeOnly_sectorRead ..).writes

theorem sectorOpened_byte (s : State) (a n sec x : Nat) : (sectorOpened s a n sec).1.byte x = s.byte x := by
  unfold sectorOpened
  split
  · exact (still_clearPoison ..).byte x
  · exact (homeOnly_sectorRead ..).still.byte x

theorem writeSector_eq (s : State) (a : Nat) (bs : List Byte) (sec : Nat) : writeSector s a bs sec =
    if (sectorOpened s a bs.length sec).2 then (sectorOpened s a bs.length sec).1
    else clearLine (storeSector ((dropCopies (sectorOpened s a bs.length sec).1 (sec / 4) none).writeBytes (max a (32 * sec))
      ((bs.drop (max a (32 * sec) - a)).take (min (a + bs.length) (32 * sec + 32) - max a (32 * sec)))) sec) (2 * (sec / 4)) := rfl

theorem writes_writeSector (s : State) (a : Nat) (bs : List Byte) (sec : Nat) : Writes s (writeSector s a bs sec) := by
  rw [writeSector_eq]
  have h := writes_sectorOpened s a bs.length sec
  split
  · exact h
  · exact ((h.trans (writes_dropCopies ..)).trans (writes_writeBytes ..)).trans
      ((homeOnly_storeSector ..).writes.trans (writes_clearLine ..))

/-- A write leaves the bytes outside it as they are. -/
theorem writeSector_byte_ne (s : State) (a : Nat) (bs : List Byte) (sec : Nat) {x : Nat} (hx : x < a ∨ a + bs.length ≤ x) :
    (writeSector s a bs sec).byte x = s.byte x := by
  rw [writeSector_eq]
  have h := sectorOpened_byte s a bs.length sec x
  split
  · exact h
  · rw [(((homeOnly_storeSector ..).still).trans (still_clearLine ..)).byte, writeBytes_byte, if_neg, (still_dropCopies ..).byte, h]
    simp only [List.length_take, List.length_drop]
    omega

theorem writes_writeHome (s : State) (a : Nat) (bs : List Byte) : Writes s (writeHome s a bs) :=
  .foldl (fun _ _ => writes_writeSector ..) _ s

theorem writeHome_byte_ne (s : State) (a : Nat) (bs : List Byte) {x : Nat} (hx : x < a ∨ a + bs.length ≤ x) :
    (writeHome s a bs).byte x = s.byte x := by
  unfold writeHome
  generalize runSectors a bs.length = l
  induction l generalizing s with
  | nil => rfl
  | cons sec r ih => rw [List.foldl_cons, ih, writeSector_byte_ne s a bs sec hx]

theorem writes_markDirty (s : State) (ctx gpa : Nat) : Writes s (markDirty s ctx gpa) := by
  unfold markDirty
  split
  · exact .refl s
  · dsimp only
    split
    · exact writes_writeHome ..
    · exact .refl s

/-- Of memory, the mark changes at most the byte of the dirty bitmap (R348). -/
theorem markDirty_byte_ne {l : Loc} {x : Nat} (hl : l.scr = false) (hx : ¬DirtyAt s l x) :
    (markDirty s l.ctx l.gpa).byte x = s.byte x := by
  unfold markDirty
  split
  · rfl
  · next c hc =>
    dsimp only
    split
    · next hd =>
      simp only [Bool.and_eq_true, decide_eq_true_eq] at hd
      refine writeHome_byte_ne _ _ _ ?_
      have : x ≠ c.dirty + l.gpa / 65536 / 8 := fun h => hx ⟨hl, c, hc, hd.1, hd.2, h⟩
      simp only [List.length_singleton]
      omega
    · rfl

theorem writes_writeLoc (s : State) (l : Loc) (i n v : Nat) : Writes s (s.writeLoc l i n v) := by
  refine ⟨?_, keeps_writeLoc ..⟩
  induction n generalizing s i v with
  | zero => exact ⟨_, _, _, _, _, rfl⟩
  | succ n ih =>
    have h : ∃ m c, s.setLbyte l i (BitVec.ofNat 8 v) = { s with mem := m, core := c } := by
      unfold State.setLbyte
      split <;> exact ⟨_, _, rfl⟩
    obtain ⟨m, c, e⟩ := h
    rw [State.writeLoc, e]
    exact ih _ (i + 1) (v / 256)

theorem writes_writeElem (s : State) (l : Loc) (size v : Nat) : Writes s (writeElem s l size v) := by
  have h := (writes_writeLoc s l 0 size v).trans (writes_clearLine _ l.line)
  unfold writeElem
  dsimp only
  split
  · exact h
  · exact h.trans (writes_markDirty ..)

/-- The byte of device memory that a location's byte stands in, after a number is written there. -/
theorem writeLoc_byte_ne (s : State) (l : Loc) (i n v : Nat) {x : Nat} (hx : l.scr = true ∨ x < l.addr + i ∨ l.addr + i + n ≤ x) :
    (s.writeLoc l i n v).byte x = s.byte x := by
  induction n generalizing s i v with
  | zero => rfl
  | succ n ih =>
    have h1 : l.scr = true ∨ x < l.addr + (i + 1) ∨ l.addr + (i + 1) + n ≤ x := hx.imp_right fun _ => by omega
    rw [State.writeLoc, ih _ (i + 1) (v / 256) h1]
    unfold State.setLbyte
    split
    · rfl
    · next hs =>
      rw [setByte_byte, if_neg]
      have := hx.resolve_left hs
      omega

theorem readLoc_eq {l : Loc} {n : Nat} (hl : l.scr = false) (h : ∀ i < n, t.byte (l.addr + i) = s.byte (l.addr + i)) :
    t.readLoc l n = s.readLoc l n := by
  unfold State.readLoc
  induction n with
  | zero => rfl
  | succ n ih =>
    have e : ∀ u : State, u.lbyte l n = u.byte (l.addr + n) := fun u => if_neg (by simp [hl])
    rw [leValue, leValue, ih fun i hi => h i (Nat.lt_succ_of_lt hi)]
    simp only [e, h n n.lt_succ_self]

/-- A number written where no byte of the dirty bitmap stands is what is read there, and no other byte changes but for the dirty
bitmap. -/
theorem writeElem_reads (s : State) (l : Loc) (n v : Nat) (hd : ∀ a, DirtyAt s l a → a < l.addr ∨ l.addr + n ≤ a) :
    (writeElem s l n v).readLoc l n = v % 256 ^ n ∧
      ∀ a, (l.scr = true ∨ a < l.addr ∨ l.addr + n ≤ a) → ¬DirtyAt s l a → (writeElem s l n v).byte a = s.byte a := by
  have hw := readLoc_writeLoc s l n v
  have hk := (keeps_writeLoc s l 0 n v).trans (keeps_clearLine _ l.line)
  have hb (x : Nat) : (clearLine (s.writeLoc l 0 n v) l.line).byte x = (s.writeLoc l 0 n v).byte x := rfl
  unfold writeElem
  dsimp only
  split
  · exact ⟨hw, fun a ha _ => by rw [hb, writeLoc_byte_ne s l 0 n v ha]⟩
  · next hs =>
    have hs : l.scr = false := by simpa using hs
    have hD (a : Nat) : DirtyAt (clearLine (s.writeLoc l 0 n v) l.line) l a ↔ DirtyAt s l a := by
      unfold DirtyAt State.ctx?
      rw [hk.ctxs]
    refine ⟨?_, fun a ha hda => ?_⟩
    · rw [← hw]
      refine readLoc_eq hs fun i hi => ?_
      rw [markDirty_byte_ne hs fun h => ?_, hb]
      have := hd _ ((hD _).mp h)
      omega
    · rw [markDirty_byte_ne hs fun h => hda ((hD a).mp h), hb, writeLoc_byte_ne s l 0 n v ha]

end Sys2Proof.Machine
end

section
/-! Commands that end (O39): what a command changed or taken out leaves alone, a tag that becomes ready, and a command whose
writes are done. -/

namespace Sys2Proof.Machine

set_option Elab.async false

variable {s : State} {u n : Nat} {c : Cmd} {b : Block} {g : Gang}

-- The table of commands.

/-- What a table holds at a key that was put is what was put. -/
theorem mem_tentries_tput_self {α : Type} [DecidableEq α] {t : Tab (Option α)} {k : Nat} {v : Option α} {x : α}
    (h : (k, x) ∈ tentries (tput none t k v)) : v = some x := by
  rw [mem_tentries_iff] at h
  unfold tput at h
  split at h
  · exact absurd h (not_mem_tdel t k _)
  · rcases mem_tins _ k v h with e | h
    · injection e with h1 h2
      exact h2.symm
    · exact absurd h (not_mem_tdel t k _)

/-- A command that comes to its stream's head: only when it came there is recorded. -/
def Cmd.atHeadFrom (c : Cmd) (cycle : Nat) : Cmd := { c with head := true, since := if c.bounced then c.since else cycle }

theorem noteHeads_fold (s : State) (key : Nat) : noteHeads s key =
    ((tentries s.cmds).filter fun e => e.2.gang == key && !e.2.head && atHead s e.1 e.2).foldl
      (fun t e => t.setCmd e.1 (some (e.2.atHeadFrom t.cycle))) s := rfl

theorem foldl_setCmd_only (f : Nat × Cmd → Nat → Cmd) (l : List (Nat × Cmd)) (s : State) :
    ∃ x, l.foldl (fun t e => t.setCmd e.1 (some (f e t.cycle))) s = { s with cmds := x } := by
  induction l generalizing s with
  | nil => exact ⟨_, rfl⟩
  | cons e r ih => exact ih (s.setCmd e.1 _)

theorem putCmd_only (s : State) (u key : Nat) (c : Option Cmd) : ∃ x, putCmd s u key c = { s with cmds := x } := by
  unfold putCmd
  rw [noteHeads_fold]
  exact foldl_setCmd_only (fun e n => e.2.atHeadFrom n) _ (s.setCmd u c)

theorem foldl_setCmd_cmd (f : Nat × Cmd → Nat → Cmd) (l : List (Nat × Cmd)) (s : State) (u : Nat) :
    (l.foldl (fun t e => t.setCmd e.1 (some (f e t.cycle))) s).cmd? u = s.cmd? u ∨
      ∃ e ∈ l, e.1 = u ∧ ∃ y, (l.foldl (fun t e => t.setCmd e.1 (some (f e t.cycle))) s).cmd? u = some (f e y) := by
  induction l generalizing s with
  | nil => exact .inl rfl
  | cons e r ih =>
    rw [List.foldl_cons]
    rcases ih (s.setCmd e.1 (some (f e s.cycle))) with h | ⟨x, hx, h⟩
    · rw [setCmd_cmd] at h
      split at h
      · next he => exact .inr ⟨e, .head _, he.symm, _, h⟩
      · exact .inl h
    · exact .inr ⟨x, .tail _ hx, h⟩

/-- A command changed is as it was put, but that it may have come to its stream's head. -/
theorem putCmd_cmd (s : State) (u key : Nat) (c : Option Cmd) : (putCmd s u key c).cmd? u = c ∨
    ∃ x y, c = some x ∧ (putCmd s u key c).cmd? u = some (x.atHeadFrom y) := by
  unfold putCmd
  rw [noteHeads_fold]
  rcases foldl_setCmd_cmd (fun e n => e.2.atHeadFrom n) ((tentries (s.setCmd u c).cmds).filter fun e =>
    e.2.gang == key && !e.2.head && atHead (s.setCmd u c) e.1 e.2) (s.setCmd u c) u with h | ⟨e, he, rfl, y, h⟩
  · exact .inl (h.trans (setCmd_cmd_self ..))
  · exact .inr ⟨e.2, y, mem_tentries_tput_self (List.mem_of_mem_filter he), h⟩

theorem putCmd_none (s : State) (u key : Nat) : (putCmd s u key none).cmd? u = none := by
  rcases putCmd_cmd s u key none with h | ⟨x, y, h, -⟩
  · exact h
  · cases h

theorem putCmd_some (s : State) (u key : Nat) (c : Cmd) :
    ∃ h y, (putCmd s u key (some c)).cmd? u = some { c with head := h, since := y } := by
  rcases putCmd_cmd s u key (some c) with h | ⟨x, y, hx, h⟩
  · exact ⟨c.head, c.since, h⟩
  · cases hx
    exact ⟨_, _, h⟩

-- No earlier command in a stream.

/-- No command of a stream comes before a number. -/
def FirstInStream (t : Tab (Option Cmd)) (key u : Nat) : Prop := ∀ e ∈ tentries t, e.2.gang = key → u ≤ e.1

theorem earlierCmds_nil (s : State) (key u : Nat) : earlierCmds s key u = [] ↔ FirstInStream s.cmds key u := by
  simp only [earlierCmds, List.filter_eq_nil_iff, FirstInStream, Bool.and_eq_true, beq_iff_eq, decide_eq_true_eq, not_and, not_lt]

theorem FirstInStream.put {t : Tab (Option Cmd)} {key k : Nat} {x : Option Cmd} (h : FirstInStream t key u)
    (hx : ∀ c, x = some c → c.gang = key → u ≤ k) : FirstInStream (tput none t k x) key u := fun e he hg => by
  rcases mem_tentries_tput he with ⟨h1, h2⟩ | h2
  · rw [h1]
    exact hx _ h2 hg
  · exact h e h2 hg

theorem FirstInStream.setCmd {key k : Nat} {x : Option Cmd} (h : FirstInStream s.cmds key u)
    (hx : ∀ c, x = some c → c.gang = key → u ≤ k) : FirstInStream (s.setCmd k x).cmds key u := h.put hx

theorem FirstInStream.putCmd {key k : Nat} {x : Option Cmd} (h : FirstInStream s.cmds key u) (hu : u ≤ k) (key' : Nat) :
    FirstInStream (putCmd s k key' x).cmds key u := by
  have h0 : FirstInStream (s.setCmd k x).cmds key u := h.setCmd fun _ _ _ => hu
  unfold Machine.putCmd
  rw [noteHeads_fold]
  generalize s.setCmd k x = s' at h0
  have hl : ∀ e ∈ (tentries s'.cmds).filter fun e => e.2.gang == key' && !e.2.head && atHead s' e.1 e.2, e.2.gang = key → u ≤ e.1 :=
    fun e he => h0 e (List.mem_of_mem_filter he)
  generalize List.filter _ (tentries s'.cmds) = l at hl
  induction l generalizing s' with
  | nil => exact h0
  | cons e r ih =>
    have he := hl e (.head _)
    exact ih (s'.setCmd e.1 _) (h0.setCmd fun c hc hg => he (by rw [← Option.some.inj hc] at hg; exact hg)) fun e he => hl e (.tail _ he)

-- A tag becomes ready.

/-- The block when a tag of a command becomes ready, neither discarded nor failed (R92, R116). -/
def Block.tagDone (b : Block) (c : Cmd) : Block :=
  { b with busy := b.busy &&& ~~~(tagBit c.tag), ready := b.ready ||| tagBit c.tag, past := tput none b.past c.tag (some c) }

theorem blockGangs_nodup (b : Block) (n : Nat) : (blockGangs b n).Nodup :=
  List.nodup_range.map fun _ _ => Nat.add_left_cancel

/-- The gangs of a list changed, each once. -/
theorem foldl_modGang_each (f : Gang → Gang) {l : List Nat} (hl : l.Nodup) (s : State) (k : Nat) :
    (l.foldl (fun s k => s.modGang k f) s).gang? k = if k ∈ l then (s.gang? k).map f else s.gang? k := by
  induction l generalizing s with
  | nil => rfl
  | cons j r ih =>
    obtain ⟨hj, hr⟩ := List.nodup_cons.mp hl
    rw [List.foldl_cons, ih hr, modGang_gang]
    by_cases hk : k = j
    · subst hk
      simp [hj]
    · simp [hk]

/-- A tag of a command becomes ready: what changes is the block, its gangs, and what they have read early. -/
theorem tagReady_only (hb : s.block? n = some b) (c : Cmd) : ∃ a x,
    tagReady s n c false false = { s.setBlock n (b.tagDone c) with ahead := a, gangs := x } ∧
      ∀ k, tget none x k = if k ∈ blockGangs b n then (s.gang? k).map (wakeTags (b.tagDone c)) else s.gang? k := by
  have e1 : (s.modBlock n fun b => { b with
      busy := b.busy &&& ~~~(tagBit c.tag), ready := b.ready ||| tagBit c.tag,
      tdisc := if false = true then b.tdisc ||| tagBit c.tag else b.tdisc,
      tfault := if false = true then b.tfault ||| tagBit c.tag else b.tfault,
      past := tput none b.past c.tag (some c) }) = s.setBlock n (b.tagDone c) := by
    rw [State.modBlock, hb]
    rfl
  unfold tagReady
  simp only [e1]
  rw [wakeBlock, setBlock_block_self]
  dsimp only
  obtain ⟨x, e2⟩ := foldl_modGang_only (blockGangs (b.tagDone c) n) (wakeTags (b.tagDone c))
    (dropAhead (s.setBlock n (b.tagDone c)) fun k _ => k / 16 == n)
  have hg (k : Nat) := foldl_modGang_each (wakeTags (b.tagDone c)) (blockGangs_nodup (b.tagDone c) n)
    (dropAhead (s.setBlock n (b.tagDone c)) fun k _ => k / 16 == n) k
  rw [e2] at hg ⊢
  exact ⟨_, x, rfl, hg⟩

theorem countCkpt_only (s : State) (b : Block) (c : Cmd) : ∃ m, countCkpt s b c = { s with mem := m } ∧ m.bytes = s.mem.bytes := by
  unfold countCkpt
  split
  · exact ⟨_, rfl, rfl⟩
  · dsimp only
    generalize c.pages.filter _ = l
    induction l generalizing s with
    | nil => exact ⟨_, rfl, rfl⟩
    | cons p r ih =>
      rw [List.foldl_cons]
      split
      · split
        · obtain ⟨m, e, h⟩ := ih { s with mem := { s.mem with ckptPages := _ } }
          exact ⟨m, e, h⟩
        · exact ih s
      · exact ih s

-- A command is over.

/-- A command is over (R92, R116): its tag is ready, and the gangs of its block look at the tags that they wait for. -/
structure Ends (s t : State) (u : Nat) (c : Cmd) (b : Block) : Prop where
  bytes : t.mem.bytes = s.mem.bytes
  core : t.core = s.core
  cmd : t.cmd? u = none
  block : t.block? (c.gang / 16) = some (b.tagDone c)
  gang : ∀ k, t.gang? k =
    if k ∈ blockGangs b (c.gang / 16) then (s.gang? k).map (wakeTags (b.tagDone c)) else s.gang? k

theorem tryComplete_ends (hc : s.cmd? u = some c) (hb : s.block? (c.gang / 16) = some b) (hf : c.failed = none)
    (hw : c.written = true) (hr : c.rel = true → earlierCmds s c.gang u = []) : Ends s (tryComplete s u) u c b := by
  have hq : (!c.rel || (earlierCmds s c.gang u).isEmpty) = true := by
    cases h : c.rel with
    | false => rfl
    | true => simp [hr h]
  obtain ⟨a, x, e1, hg⟩ := tagReady_only hb c
  unfold tryComplete
  simp only [hc, hb, hf, hw, hq, Bool.and_self, if_true]
  rw [e1]
  generalize ht : ({ s.setBlock _ _ with ahead := a, gangs := x } : State) = t
  obtain ⟨m, e2, hm⟩ := countCkpt_only t b c
  rw [e2]
  obtain ⟨y, e3⟩ := putCmd_only { t with mem := m } u c.gang none
  have h4 := putCmd_none { t with mem := m } u c.gang
  rw [e3] at h4 ⊢
  subst ht
  exact ⟨hm, rfl, h4, setBlock_block_self s .., hg⟩

theorem Ends.byte {t : State} (h : Ends s t u c b) (a : Nat) : t.byte a = s.byte a := by rw [State.byte, h.bytes]; rfl

theorem Ends.readLoc {t : State} (h : Ends s t u c b) (l : Loc) (k : Nat) : t.readLoc l k = s.readLoc l k := by
  have e (i : Nat) : t.lbyte l i = s.lbyte l i := by
    simp only [State.lbyte, State.byte, State.sbyte, h.bytes, h.core]
  simp only [State.readLoc, e]

/-- A box that is written counts. -/
theorem exec_boxComplete_counts {box : Nat} (hc : s.cmd? u = some c) (hr : box ∈ c.running) (ht : ∀ e ∈ c.todo, e.1 ≠ box) :
    exec (.boxComplete u box) s = .next (tryComplete (s.setCmd u (some { c with
      running := c.running.filter (· != box), boxes := c.boxes ++ [box] })) u) := by
  have h1 : c.running.contains box = true := by simpa using hr
  have h2 : c.todo.any (·.1 == box) = false := List.any_eq_false.mpr fun e he => by simpa using ht e he
  rw [exec_boxComplete, execBoxComplete]
  simp only [hc, h1, h2, Bool.not_false, Bool.and_self, if_true]

/-- The clause of BOX_COMPLETE. -/
theorem boxComplete_completes {box : Nat} (hc : s.cmd? u = some c) (hb : s.block? (c.gang / 16) = some b) (hr : box ∈ c.running)
    (hf : c.failed = none) (ht : ∀ e ∈ c.todo, e.1 ≠ box) :
    let c' := { c with running := c.running.filter (· != box), boxes := c.boxes ++ [box] }
    (c'.written = true → (c.rel = true → earlierCmds s c.gang u = []) →
      ∃ t b', exec (.boxComplete u box) s = .next t ∧ (∀ a, t.byte a = s.byte a) ∧ t.cmd? u = none ∧
        t.block? (c.gang / 16) = some b' ∧ b'.busy = b.busy &&& ~~~(tagBit c.tag) ∧ b'.ready = b.ready ||| tagBit c.tag ∧
        b'.tdisc = b.tdisc ∧ b'.tfault = b.tfault) ∧
    (c'.written = false →
      ∃ t, exec (.boxComplete u box) s = .next t ∧ (∀ a, t.byte a = s.byte a) ∧ t.cmd? u = some c' ∧
        t.block? (c.gang / 16) = some b) := by
  intro c'
  rw [exec_boxComplete_counts hc hr ht]
  have hc' : (s.setCmd u (some c')).cmd? u = some c' := setCmd_cmd_self ..
  refine ⟨fun hw he => ?_, fun hw => ⟨_, rfl, ?_⟩⟩
  · have h : Ends (s.setCmd u (some c')) (tryComplete (s.setCmd u (some c')) u) u c' b := by
      refine tryComplete_ends hc' hb hf hw fun hr => (earlierCmds_nil ..).mpr ?_
      exact ((earlierCmds_nil ..).mp (he hr)).setCmd fun _ _ _ => le_rfl
    exact ⟨_, _, rfl, h.byte, h.cmd, h.block, rfl, rfl, rfl, rfl⟩
  · have e : tryComplete (s.setCmd u (some c')) u = s.setCmd u (some c') := by
      unfold tryComplete
      rw [hc']
      dsimp only
      rw [show (s.setCmd u (some c')).block? (c'.gang / 16) = some b from hb, show c'.failed = none from hf]
      simp only [hw, Bool.false_and, Bool.false_eq_true, if_false]
    rw [e]
    exact ⟨fun _ => rfl, hc', hb⟩

/-- A split that waits at a TWAIT whose tags let it go on goes on, kD the tags that are ready (R119). -/
theorem wakeTags_single {i d : Nat} {sp : Split} {all : Bool} {m asked : DWord} (hs : g.splits = [(i, some sp)])
    (hw : sp.wait = .atTags all m asked d) (hd : if all then b.ready &&& m = m else b.ready &&& m ≠ 0 ∨ m = 0) :
    (wakeTags b g).splits = [(i, some { sp with wait := .ready, pc := sp.pc + 8 })] ∧
      (wakeTags b g).regs = g.regs.kset d (b.ready &&& asked) := by
  have h : tagsDone b all m = true := by
    unfold tagsDone
    cases all <;> simpa using hd
  unfold wakeTags Gang.splitList
  simp [hs, tentries, hw, h]

/-- The clause of COMMAND_COMPLETE. -/
theorem commandComplete_completes (hc : s.cmd? u = some c) (hb : s.block? (c.gang / 16) = some b) (hf : c.failed = none)
    (hw : c.written = true) (hr : c.rel = true → earlierCmds s c.gang u = []) :
    ∃ t b', exec (.commandComplete u) s = .next t ∧ (∀ a, t.byte a = s.byte a) ∧ t.cmd? u = none ∧
      t.block? (c.gang / 16) = some b' ∧ b'.busy = b.busy &&& ~~~(tagBit c.tag) ∧ b'.ready = b.ready ||| tagBit c.tag ∧
      ∀ k ∈ blockGangs b (c.gang / 16), ∀ g i sp all m asked d, s.gang? k = some g → g.splits = [(i, some sp)] →
          sp.wait = .atTags all m asked d →
        (if all then b'.ready &&& m = m else b'.ready &&& m ≠ 0 ∨ m = 0) →
        ∃ h, t.gang? k = some h ∧ h.splits = [(i, some { sp with wait := .ready, pc := sp.pc + 8 })] ∧
          (d ≠ 0 → h.kget d = b'.ready &&& asked) ∧ ∀ j, j ≠ d → h.kget j = g.kget j := by
  have h := tryComplete_ends hc hb hf hw hr
  refine ⟨_, _, rfl, h.byte, h.cmd, h.block, rfl, rfl, fun k hk g i sp all m asked d hg hs hsw hd => ?_⟩
  obtain ⟨h1, h2⟩ := wakeTags_single hs hsw hd
  refine ⟨_, by rw [h.gang, if_pos hk, hg]; rfl, h1, fun hd0 => ?_, fun j hj => ?_⟩
  · rw [Gang.kget, h2, kget_kset, if_pos ⟨rfl, hd0⟩]
  · rw [Gang.kget, h2, kget_kset, if_neg fun h => hj h.1]
    rfl

-- A LAUNCH joins the device launch queue.

/-- A command that may start is not discarded: its guard is open. -/
theorem canStart_undiscarded (h : canStart s u c g b = true) :
    (c.guard != 0 && !c.passed && atHead s u c && g.regs.gget c.guard == .isFalse) = false := by
  have ho : guardOpen g c = true := by
    simp only [canStart, Bool.and_eq_true] at h
    exact h.1.1.2
  unfold guardOpen at ho
  cases hp : c.passed <;> cases hg : g.regs.gget c.guard <;> simp_all

/-- The clause of LAUNCH. -/
theorem launch_joins {x : Context} (hc : s.cmd? u = some c) (hg : s.gang? c.gang = some g) (hb : s.block? (c.gang / 16) = some b)
    (ho : c.op = 2) (hq : c.queued = false) (hs : canStart s u c g b = true) (hx : s.ctx? b.ctx = some x)
    (hl : x.devq.length < 64) (hf : slotFor s (cmdKey s c 2) u = true) :
    ∃ t q, exec (.launch u) s = .next t ∧ (∀ a, t.byte a = s.byte a) ∧ t.ctx? b.ctx = some { x with devq := x.devq ++ [u] } ∧
      t.cmd? u = some q ∧ q = { c with started := true, passed := true, queued := true, head := q.head, since := q.since } := by
  obtain ⟨h, y, hq'⟩ := putCmd_some (unage (s.setCtx b.ctx { x with devq := x.devq ++ [u] }) u) u c.gang
    { c with started := true, passed := true, queued := true }
  obtain ⟨z, e⟩ := putCmd_only (unage (s.setCtx b.ctx { x with devq := x.devq ++ [u] }) u) u c.gang
    (some { c with started := true, passed := true, queued := true })
  have hl' : decide (64 ≤ x.devq.length) = false := by simpa using hl
  refine ⟨_, _, ?_, fun a => ?_, ?_, hq', rfl⟩
  · rw [exec_launch, execLaunch]
    simp only [hc, hg, hb, ho, hq, canStart_undiscarded hs, hs, hx, hl', hf, bne_self_eq_false, Bool.or_self, Bool.false_eq_true,
      if_false, Bool.not_true]
  · rw [e]
    rfl
  · rw [e]
    exact setCtx_ctx_self s ..

-- A SIGNAL stores its 8 bytes.

theorem leaveQueues_only (s : State) (gang : Nat) (l : List Stand) : ∃ x, leaveQueues s gang l = { s with leftAt := x } := by
  unfold leaveQueues
  suffices h : ∀ t : State, (∃ x, t = { s with leftAt := x }) → ∃ x, l.foldl (fun t x => if atQueueHead s gang x then
      { t with leftAt := tput 0 t.leftAt (queueOf s gang x.sec x.stage) s.cycle } else t) t = { s with leftAt := x } from
    h s ⟨_, rfl⟩
  induction l with
  | nil => exact fun t h => h
  | cons x r ih =>
    rintro t ⟨y, rfl⟩
    refine ih _ ?_
    dsimp only
    split <;> exact ⟨_, rfl⟩

theorem homeOnly_cmdSlots (s : State) (u : Nat) (c : Cmd) (b : Block) (a n : Nat) : HomeOnly s (cmdSlots s u c b a n) := by
  unfold cmdSlots
  refine HomeOnly.trans ?_ (homeOnly_chargeSlots ..)
  split
  · split
    · exact homeOnly_weirServed ..
    · exact .refl s
  · exact .refl s

/-- A sector without poison or error is read (R402). -/
theorem sectorRead_clean {sec : Nat} (hp : s.poisoned sec = false) (he : tget 0 s.mem.errors sec < 2) :
    (sectorRead s sec).2 = false := by
  have hd : (dramRead s sec).2 = false := by
    unfold dramRead
    simp only [hp, Bool.false_eq_true, if_false, Nat.not_le.mpr he]
    split <;> rfl
  unfold sectorRead
  split
  · exact hp
  · exact hd

/-- The state of a SIGNAL before its write, as its home sees it. -/
def signalHome (s : State) (u : Nat) (c : Cmd) (b : Block) (l : Loc) : State :=
  if l.scr then s
  else dropCopies (cmdSlots (leaveWay (sectorRead s (l.addr / 32)).1 c) u c b l.addr 1) (l.addr / 128) none

/-- What a SIGNAL does at its home before its write leaves bytes, commands, blocks and contexts, and of gangs all but
reservations. -/
theorem signalHome_keeps (s : State) (u : Nat) (c : Cmd) (b : Block) (l : Loc) :
    Keeps s (signalHome s u c b l) ∧ (signalHome s u c b l).cmds = s.cmds ∧
      ∀ a, (signalHome s u c b l).byte a = s.byte a := by
  unfold signalHome
  split
  · exact ⟨.refl s, rfl, fun _ => rfl⟩
  · have h1 := homeOnly_sectorRead s (l.addr / 32)
    generalize (sectorRead s (l.addr / 32)).1 = t1 at h1
    obtain ⟨x, e⟩ := leaveQueues_only t1 c.gang (c.way.toList.map Place.stand)
    have h2 : leaveWay t1 c = { t1 with leftAt := x } := e
    rw [h2]
    have h3 := homeOnly_cmdSlots { t1 with leftAt := x } u c b l.addr 1
    generalize cmdSlots { t1 with leftAt := x } u c b l.addr 1 = t3 at h3
    have h4 := writes_dropCopies t3 (l.addr / 128) none
    have hm : Keeps t1 { t1 with leftAt := x } := .of_eq rfl rfl rfl rfl
    refine ⟨((h1.writes.keeps.trans hm).trans h3.writes.keeps).trans h4.keeps, ?_, fun a => ?_⟩
    · rw [h4.cmds, h3.writes.cmds, show ({ t1 with leftAt := x } : State).cmds = t1.cmds from rfl, h1.writes.cmds]
    · rw [(still_dropCopies ..).byte, h3.still.byte, show ({ t1 with leftAt := x } : State).byte a = t1.byte a from rfl, h1.still.byte]

/-- A SIGNAL that may start, whose address is good and whose memory is clean, stores and is over. -/
theorem exec_signal_stores {l : Loc} (hc : s.cmd? u = some c) (hg : s.gang? c.gang = some g) (hb : s.block? (c.gang / 16) = some b)
    (ho : c.op = 3) (hx : c.boxes = []) (hf : c.failed = none) (hs : canStart s u c g b = true)
    (hr : c.rel = true → earlierCmds s c.gang u = [])
    (hk : checkElem s b (cmdSpace (bitsOf c.c3 28 26)) false true 8 c.c1 = .ok l) (hl : cmdOpen s u c l = true)
    (hp : l.scr = true ∨ s.poisoned (l.addr / 32) = false ∧ tget 0 s.mem.errors (l.addr / 32) < 2) :
    exec (.signal u) s = .next (tryComplete (putCmd (writeElem (signalHome s u c b l) l 8 c.c0.toNat) u c.gang
      (some { c with started := true, passed := true, boxes := [0], way := none })) u) := by
  have hq : (c.rel && !(earlierCmds s c.gang u).isEmpty) = false := by
    cases h : c.rel with
    | false => rfl
    | true => simp [hr h]
  have hread : readList s false (globSectors [l]) = (if l.scr then s else (sectorRead s (l.addr / 32)).1, none) := by
    rcases hscr : l.scr with _ | _
    · obtain ⟨h1, h2⟩ := hp.resolve_left (by simp [hscr])
      simp [readList, globSectors, hscr, List.eraseDups_cons, sectorRead_clean h1 h2]
    · simp [readList, globSectors, hscr]
  have hdec : decideChecks [(0, c.c1)] [Chk.ok l] = .proceed [l] := rfl
  rw [exec_signal, execSignal]
  simp only [hc, hg, hb, ho, hx, hf, canStart_undiscarded hs, hs, hq, hk, hdec, hl, hread, bne_self_eq_false, List.isEmpty_nil,
    Option.isSome_none, Bool.not_true, Bool.or_self, Bool.false_eq_true, if_false]
  unfold signalHome
  split <;> simp_all

theorem NoTwait.mapSplits {f : Split → Split} (hf : ResvOnly f) (h : NoTwait g) : NoTwait (g.mapSplits f) := by
  intro e he all m asked d hw
  simp only [Gang.splitList, Gang.mapSplits, tentries, List.filterMap_map, List.mem_filterMap, Function.comp_apply,
    Option.map_map, Option.map_eq_some_iff] at he
  obtain ⟨x, hx, sp, hsp, rfl⟩ := he
  obtain ⟨q, e, -⟩ := hf sp
  have hw' : sp.wait = .atTags all m asked d := by
    have := congrArg Split.wait e
    exact this.symm.trans hw
  exact h (x.1, sp) (List.mem_filterMap.mpr ⟨x, hx, by simp [hsp]⟩) all m asked d hw'

/-- No tag wakes a gang of which no split waits at a TWAIT: its registers stay. -/
theorem NoTwait.wakeTags_regs (h : NoTwait g) (b : Block) : (wakeTags b g).regs = g.regs := by
  unfold NoTwait at h
  show g.splitList.foldl _ g.regs = g.regs
  generalize g.splitList = l at h
  generalize g.regs = r
  induction l with
  | nil => rfl
  | cons e l ih =>
    rw [List.foldl_cons]
    split
    · next hw => exact absurd hw (h e (.head _) _ _ _ _)
    · exact ih fun x hx => h x (.tail _ hx)

/-- The clause of SIGNAL. -/
theorem signal_stores {l : Loc} (hc : s.cmd? u = some c) (hg : s.gang? c.gang = some g) (hb : s.block? (c.gang / 16) = some b)
    (ho : c.op = 3) (hx : c.boxes = []) (hf : c.failed = none) (hs : canStart s u c g b = true)
    (hr : c.rel = true → earlierCmds s c.gang u = [])
    (hk : checkElem s b (cmdSpace (bitsOf c.c3 28 26)) false true 8 c.c1 = .ok l) (hl : cmdOpen s u c l = true)
    (ht : ∀ k h, s.gang? k = some h → NoTwait h)
    (hp : l.scr = true ∨ s.poisoned (l.addr / 32) = false ∧ tget 0 s.mem.errors (l.addr / 32) < 2)
    (hd : ∀ a, DirtyAt s l a → a < l.addr ∨ l.addr + 8 ≤ a) :
    ∃ t b', exec (.signal u) s = .next t ∧ RegsStay s t ∧ t.readLoc l 8 = c.c0.toNat ∧ t.cmd? u = none ∧
      (∀ a, (l.scr = true ∨ a < l.addr ∨ l.addr + 8 ≤ a) → ¬DirtyAt s l a → t.byte a = s.byte a) ∧
      t.block? (c.gang / 16) = some b' ∧ b'.busy = b.busy &&& ~~~(tagBit c.tag) ∧ b'.ready = b.ready ||| tagBit c.tag := by
  obtain ⟨k1, hm1, hb1⟩ := signalHome_keeps s u c b l
  rw [exec_signal_stores hc hg hb ho hx hf hs hr hk hl hp]
  generalize signalHome s u c b l = p at k1 hm1 hb1
  have hD (a : Nat) : DirtyAt p l a ↔ DirtyAt s l a := by
    unfold DirtyAt State.ctx?
    rw [k1.ctxs]
  have h2 := writes_writeElem p l 8 c.c0.toNat
  obtain ⟨hread, hbyte⟩ := writeElem_reads p l 8 c.c0.toNat fun a ha => hd a ((hD a).mp ha)
  generalize writeElem p l 8 c.c0.toNat = w at h2 hread hbyte
  have hfirst (h : c.rel = true) : FirstInStream w.cmds c.gang u := by
    rw [h2.cmds, hm1]
    exact (earlierCmds_nil ..).mp (hr h)
  have hk2 : Keeps s w := k1.trans h2.keeps
  obtain ⟨hh, y, hq⟩ := putCmd_some w u c.gang { c with started := true, passed := true, boxes := [0], way := none }
  obtain ⟨z, e3⟩ := putCmd_only w u c.gang (some { c with started := true, passed := true, boxes := [0], way := none })
  have hf3 (h : c.rel = true) := (hfirst h).putCmd (le_refl u) c.gang
    (x := some { c with started := true, passed := true, boxes := [0], way := none })
  rw [e3] at hq hf3 ⊢
  have hb4 : ({ w with cmds := z } : State).block? (c.gang / 16) = some b := by
    rw [← hb]
    exact congrArg (tget none · _) hk2.blocks
  have hwr : ({ c with started := true, passed := true, boxes := [0], way := none, head := hh, since := y } : Cmd).written = true := by
    have : ¬ c.op ≤ 1 := by omega
    exact if_neg this
  have he := tryComplete_ends (s := { w with cmds := z }) (u := u) hq hb4 hf hwr fun h => (earlierCmds_nil ..).mpr (hf3 h)
  refine ⟨_, _, rfl, fun k x hx => ?_, ?_, he.cmd, fun a ha hda => ?_, he.block, rfl, rfl⟩
  · obtain ⟨x', h4, h5, h6⟩ := hk2.gang (fun y => y.regs = x.regs ∧ NoTwait y) (fun f y hf h => ⟨h.1, h.2.mapSplits hf⟩) k x hx
      ⟨rfl, ht k x hx⟩
    have hgk : ({ w with cmds := z } : State).gang? k = some x' := h4
    have hg' := he.gang k
    rw [hgk] at hg'
    split at hg'
    · exact ⟨_, _, _, hg', (h6.wakeTags_regs _).trans h5⟩
    · exact ⟨_, _, _, hg', h5⟩
  · rw [he.readLoc]
    exact hread.trans (Nat.mod_eq_of_lt c.c0.isLt)
  · rw [he.byte, ← hb1 a]
    exact hbyte a ha fun h => hda ((hD a).mp h)

-- A trap left for a gang.

/-- The oldest trap left for a gang is taken at its boundary. -/
theorem takePending_traps {key : Nat} {sp : Split} {x : PendTrap} {rest : List PendTrap} (h : Issues s key g sp b)
    (ht : g.traps = x :: rest) :
    Trapped s (takePending s key x.cause) key g b sp.pc x.cause x.sub x.aux (if x.lanes = 0 then sp.exm else x.lanes) (some 0) := by
  have hb : s.block? (key / 16) = some b := h.home ▸ h.block
  have hf : gangForeground s key = true := by
    simp [gangForeground, hb, h.fore, Block.resident, h.running]
  have e : takePending s key x.cause = takeTrap (s.setGang key { g with traps := rest }) key x.cause x.sub x.aux
      (if x.lanes = 0 then sp.exm else x.lanes) [x.addr] (some 0) := by
    unfold takePending
    simp [h.gang, hb, h.split, ht, h.going, h.running, h.hold, hf]
  rw [e]
  exact (takeTrap_trapped (setGang_gang_self ..) (g := { g with traps := rest }) h.split h.block ..).of_setGang rfl rfl rfl rfl

/-- Settles O39: by `Ends`, what the end of a command does, for a box, for COMMAND_COMPLETE and for a SIGNAL; a LAUNCH and a trap
left for a gang each by its own step. -/
theorem commandsComplete : Obligations.CommandsComplete := by
  unfold Obligations.CommandsComplete
  refine ⟨fun u box s c b hc hb hr hf ht => boxComplete_completes hc hb hr hf ht,
    fun u s c b hc hb hf hw hr => commandComplete_completes hc hb hf hw hr,
    fun u s c g b x hc hg hb ho hq hs hx hl hf => launch_joins hc hg hb ho hq hs hx hl hf,
    fun u s c g b l hc hg hb ho hx hf hs hr hk hl ht hp hd => signal_stores hc hg hb ho hx hf hs hr hk hl ht hp hd,
    fun s key g sp b x rest h ht => ⟨fun hx => ⟨_, rfl, ?_⟩, fun hx => ⟨_, rfl, ?_⟩⟩⟩
  · have := takePending_traps h ht
    rw [hx] at this
    exact this
  · have := takePending_traps h ht
    rw [hx] at this
    exact this

end Sys2Proof.Machine
end

section
/-! What is gone stays gone (O48): a write, the end of a command, a trap and the completion of a launch bring no block, gang or
launch back, and give no array to a block. -/

namespace Sys2Proof.Machine

set_option Elab.async false

variable {s t : State}

/-- No block, gang or launch appears, and no array gets an owner. -/
structure Shrinks (s t : State) : Prop where
  blocks : ∀ n, s.block? n = none → t.block? n = none
  gangs : ∀ k, s.gang? k = none → t.gang? k = none
  launches : ∀ u, s.launch? u = none → t.launch? u = none
  owners : ∀ c n, (t.array c).owner = some n → (s.array c).owner = some n

theorem Shrinks.refl (s : State) : Shrinks s s := ⟨fun _ h => h, fun _ h => h, fun _ h => h, fun _ _ h => h⟩

theorem Shrinks.trans {u : State} (a : Shrinks s t) (b : Shrinks t u) : Shrinks s u :=
  ⟨fun n h => b.blocks n (a.blocks n h), fun k h => b.gangs k (a.gangs k h), fun v h => b.launches v (a.launches v h),
    fun c n h => a.owners c n (b.owners c n h)⟩

theorem Shrinks.foldl {α : Type} {f : State → α → State} (hf : ∀ s x, Shrinks s (f s x)) (l : List α) (s : State) :
    Shrinks s (l.foldl f s) := by
  induction l generalizing s with
  | nil => exact .refl s
  | cons x r ih => exact (hf s x).trans (ih (f s x))

/-- What touches neither blocks, gangs, launches nor arrays. -/
theorem Shrinks.of_eq (hb : t.blocks = s.blocks) (hg : t.gangs = s.gangs) (hl : t.launches = s.launches)
    (ha : t.core.arrays = s.core.arrays) : Shrinks s t where
  blocks n h := by rw [State.block?, hb]; exact h
  gangs k h := by rw [State.gang?, hg]; exact h
  launches u h := by rw [State.launch?, hl]; exact h
  owners c n h := by rw [State.array, ha] at h; exact h

theorem Shrinks.after_eq {u : State} (h : Shrinks s t) (hb : u.blocks = t.blocks) (hg : u.gangs = t.gangs)
    (hl : u.launches = t.launches) (ha : u.core.arrays = t.core.arrays) : Shrinks s u := h.trans (.of_eq hb hg hl ha)

theorem Shrinks.before_eq {u : State} (h : Shrinks t u) (hb : t.blocks = s.blocks) (hg : t.gangs = s.gangs)
    (hl : t.launches = s.launches) (ha : t.core.arrays = s.core.arrays) : Shrinks s u := (of_eq hb hg hl ha).trans h

theorem Shrinks.setBlock (h : Shrinks s t) {n : Nat} {b : Block} (hb : s.block? n = some b) (x : Block) :
    Shrinks s (t.setBlock n x) where
  blocks m hm := by
    rw [setBlock_block, if_neg, h.blocks m hm]
    rintro rfl
    exact absurd (hb.symm.trans hm) nofun
  gangs := h.gangs
  launches := h.launches
  owners := h.owners

theorem Shrinks.setGang (h : Shrinks s t) {k : Nat} {g : Gang} (hg : s.gang? k = some g) (x : Gang) :
    Shrinks s (t.setGang k x) where
  blocks := h.blocks
  gangs m hm := by
    rw [setGang_gang, if_neg, h.gangs m hm]
    rintro rfl
    exact absurd (hg.symm.trans hm) nofun
  launches := h.launches
  owners := h.owners

theorem Shrinks.setLaunch (h : Shrinks s t) {u : Nat} {l : Launch} (hl : s.launch? u = some l) (x : Launch) :
    Shrinks s (t.setLaunch u x) where
  blocks := h.blocks
  gangs := h.gangs
  launches m hm := by
    rw [setLaunch_launch, if_neg, h.launches m hm]
    rintro rfl
    exact absurd (hl.symm.trans hm) nofun
  owners := h.owners

theorem shrinks_modBlock (s : State) (n : Nat) (f : Block → Block) : Shrinks s (s.modBlock n f) := by
  unfold State.modBlock
  split
  · next hb => exact (Shrinks.refl s).setBlock hb _
  · exact .refl s

theorem shrinks_modGang (s : State) (k : Nat) (f : Gang → Gang) : Shrinks s (s.modGang k f) := by
  unfold State.modGang
  split
  · next hg => exact (Shrinks.refl s).setGang hg _
  · exact .refl s

theorem shrinks_modCtx (s : State) (c : Nat) (f : Context → Context) : Shrinks s (s.modCtx c f) := by
  obtain ⟨x, e⟩ := modCtx_only s c f
  rw [e]
  exact .of_eq rfl rfl rfl rfl

/-- Gangs changed entry by entry. -/
theorem shrinks_mapGangs (s : State) (f : Nat → Gang → Gang) :
    Shrinks s { s with gangs := s.gangs.map fun e => (e.1, e.2.map (f e.1)) } := by
  refine ⟨fun _ h => h, fun k h => ?_, fun _ h => h, fun _ _ h => h⟩
  have go : ∀ t : Tab (Option Gang), tget none t k = none → tget none (t.map fun e => (e.1, e.2.map (f e.1))) k = none := fun t ht => by
    induction t with
    | nil => rfl
    | cons e r ih =>
      obtain ⟨j, x⟩ := e
      simp only [List.map_cons, tget] at ht ⊢
      split at ht
      · next hj => rw [if_pos hj, ht]; rfl
      · next hj => rw [if_neg hj]; exact ih ht
  exact go s.gangs h

/-- A launch of a context competes again (R157). -/
def Launch.unbarred (c : Nat) (l : Launch) : Launch := if l.ctx = c then { l with barred := false } else l

theorem unbar_launch (s : State) (c u : Nat) : (unbar s c).launch? u = (s.launch? u).map (Launch.unbarred c) :=
  tget_map (Option.map (Launch.unbarred c)) rfl s.launches u

theorem shrinks_unbar (s : State) (c : Nat) : Shrinks s (unbar s c) :=
  ⟨fun _ h => h, fun _ h => h, fun u h => by rw [unbar_launch, h]; rfl, fun _ _ h => h⟩

theorem shrinks_freeArray (s : State) (n : Nat) (b : Block) : Shrinks s (freeArray s n b) := by
  unfold freeArray
  split
  · refine ⟨fun _ h => h, fun _ h => h, fun _ h => h, fun c m h => ?_⟩
    rw [setArray_array] at h
    split at h
    · exact absurd h nofun
    · exact h
  · exact .refl s

-- Writes.

theorem shrinks_clearLine (s : State) (line : Nat) : Shrinks s (clearLine s line) := 
  shrinks_mapGangs s fun _ g => g.mapSplits fun sp => sp.mapResv (Resv.dropLine line)

theorem shrinks_clearCoreLine (s : State) (core line : Nat) : Shrinks s (clearCoreLine s core line) :=
  shrinks_mapGangs s fun k g => if (match s.block? (k / 16) with | some b => b.core == core | none => false) = true then
    g.mapSplits fun sp => sp.mapResv fun r => if r.core then r.dropLine (2 * line) else r else g

theorem shrinks_chargeUser (s : State) (u a n : Nat) : Shrinks s (chargeUser s u a n) := by
  unfold chargeUser
  dsimp only
  split <;> exact .of_eq rfl rfl rfl rfl

theorem shrinks_setL1 (s : State) (core line : Nat) (x : Option L1Line) : Shrinks s (s.setL1 core line x) := .of_eq rfl rfl rfl rfl

theorem shrinks_recallOwned (s : State) (line : Nat) : Shrinks s (recallOwned s line) := by
  refine .foldl (fun s e => ?_) _ s
  split
  · split
    · refine Shrinks.trans ?_ (shrinks_setL1 ..)
      split
      · exact .refl s
      · exact shrinks_chargeUser ..
    · exact .refl s
  · exact .refl s

theorem shrinks_storeSector (s : State) (sec : Nat) : Shrinks s (storeSector s sec) := .of_eq rfl rfl rfl rfl

theorem shrinks_chargeSlots (s : State) (ctx core a n : Nat) : Shrinks s (chargeSlots s ctx core a n) :=
  ((shrinks_chargeUser ..).trans (shrinks_recallOwned ..)).trans (shrinks_storeSector ..)

theorem shrinks_arrivalServed (s : State) (vf : Option Nat) (a n : Nat) : Shrinks s (arrivalServed s vf a n) := by
  unfold arrivalServed weirServed
  dsimp only
  repeat' split
  all_goals exact .of_eq rfl rfl rfl rfl

theorem shrinks_hubSlot (s : State) (ctx sec : Nat) : Shrinks s (hubSlot s ctx sec) :=
  (shrinks_arrivalServed ..).trans (shrinks_chargeSlots ..)

theorem shrinks_sectorRead (s : State) (sec : Nat) : Shrinks s (sectorRead s sec).1 := by
  unfold sectorRead dramRead
  dsimp only
  repeat' split
  all_goals exact .of_eq rfl rfl rfl rfl

theorem shrinks_dropCopies (s : State) (line : Nat) (keep : Option Nat) : Shrinks s (dropCopies s line keep) := by
  unfold dropCopies
  refine (Shrinks.foldl (fun s e => ?_) _ s).trans (.of_eq rfl rfl rfl rfl)
  split
  · refine Shrinks.trans ?_ (shrinks_clearCoreLine ..)
    split
    · exact shrinks_setL1 ..
    · exact (shrinks_chargeUser ..).trans (shrinks_setL1 ..)
  · exact .refl s

theorem shrinks_writeBytes (s : State) (a : Nat) (l : List Byte) : Shrinks s (s.writeBytes a l) := by
  induction l generalizing s a with
  | nil => exact .refl s
  | cons b r ih => exact (ih (s.setByte a b) (a + 1)).before_eq rfl rfl rfl rfl

theorem shrinks_writeSector (s : State) (a : Nat) (bs : List Byte) (sec : Nat) : Shrinks s (writeSector s a bs sec) := by
  rw [writeSector_eq]
  have h : Shrinks s (sectorOpened s a bs.length sec).1 := by
    unfold sectorOpened
    split
    · exact .of_eq rfl rfl rfl rfl
    · exact shrinks_sectorRead ..
  split
  · exact h
  · exact ((h.trans (shrinks_dropCopies ..)).trans (shrinks_writeBytes ..)).trans
      ((shrinks_storeSector ..).trans (shrinks_clearLine ..))

theorem shrinks_writeHome (s : State) (a : Nat) (bs : List Byte) : Shrinks s (writeHome s a bs) :=
  .foldl (fun _ _ => shrinks_writeSector ..) _ s

theorem shrinks_markDirty (s : State) (ctx gpa : Nat) : Shrinks s (markDirty s ctx gpa) := by
  unfold markDirty
  split
  · exact .refl s
  · dsimp only
    split
    · exact shrinks_writeHome ..
    · exact .refl s

theorem shrinks_hubWrite (s : State) (l : Loc) (ctx : Nat) (bs : List Byte) : Shrinks s (hubWrite s l ctx bs) :=
  ((Shrinks.foldl (fun _ _ => shrinks_hubSlot ..) _ s).trans (shrinks_writeHome ..)).trans (shrinks_markDirty ..)

theorem shrinks_writeLoc (s : State) (l : Loc) (i n v : Nat) : Shrinks s (s.writeLoc l i n v) := by
  induction n generalizing s i v with
  | zero => exact .refl s
  | succ n ih =>
    refine Shrinks.trans ?_ (ih (s.setLbyte l i _) (i + 1) (v / 256))
    unfold State.setLbyte
    split <;> exact .of_eq rfl rfl rfl rfl

theorem shrinks_writeElem (s : State) (l : Loc) (size v : Nat) : Shrinks s (writeElem s l size v) := by
  have h := (shrinks_writeLoc s l 0 size v).trans (shrinks_clearLine _ l.line)
  unfold writeElem
  dsimp only
  split
  · exact h
  · exact h.trans (shrinks_markDirty ..)

-- A block goes out.

theorem shrinks_writeWords (add : Option Ty) (l : List CopyWord) (s : State) : Shrinks s (writeWords add s l) := by
  induction l generalizing s with
  | nil => exact .refl s
  | cons x r ih =>
    refine Shrinks.trans (Shrinks.trans ?_ (shrinks_writeElem ..)) (ih _)
    have h : Shrinks s (readWord s x).1 := by
      unfold readWord
      split
      · exact .refl s
      · dsimp only
        split
        · exact .refl s
        · exact shrinks_recallOwned ..
    split
    · exact h
    · exact h.trans (shrinks_dropCopies ..)

theorem shrinks_settleCmds (s : State) (n : Nat) : Shrinks s (settleCmds s n) := by
  refine .foldl (fun s (e : Nat × Cmd) => ?_) _ s
  exact (Shrinks.foldl (fun s (x : Nat × List CopyWord) => shrinks_writeWords _ x.2 s) e.2.todo s).trans (.of_eq rfl rfl rfl rfl)

theorem shrinks_swapOut (s : State) (n : Nat) (ph : Phase) : Shrinks s (swapOut s n ph) := by
  unfold swapOut
  split
  · exact .refl s
  · next b hb =>
    split
    · have h : Shrinks s (if b.phase = .returned then freeArray s n b else s) := by
        split
        · exact shrinks_freeArray ..
        · exact .refl s
      dsimp only
      generalize (if b.phase = .returned then freeArray s n b else s) = t at h
      obtain ⟨x, y, z, e⟩ := bounceRest_only t n
      split
      · rw [e]
        exact (h.after_eq (u := { t with leftAt := x, reqs := y, engOps := z }) rfl rfl rfl rfl).setBlock hb _
      · exact h.setBlock hb _
    · have h1 : Shrinks s (settleCmds (saveEntries s n ph) n) := by
        refine Shrinks.trans ?_ (shrinks_settleCmds ..)
        obtain ⟨x, y, z, e⟩ := saveEntries_only s n ph
        rw [e]
        exact .of_eq rfl rfl rfl rfl
      dsimp only
      generalize settleCmds (saveEntries s n ph) n = t at h1
      have hd (f g) : ∃ u o, dropAhead (loseSlots t f) g = { t with aged := u, ahead := o } := ⟨_, _, rfl⟩
      obtain ⟨u, o, e⟩ := hd (entryOf t n) fun k _ => k / 16 == n
      rw [e]
      generalize captureImage _ n b = img
      have h2 : Shrinks s (freeStores { t with aged := u, ahead := o } n b img) :=
        ((h1.after_eq (u := { t with aged := u, ahead := o }) rfl rfl rfl rfl).trans (shrinks_freeArray ..)).after_eq rfl rfl rfl rfl
      exact ((h2.setBlock hb _).trans (shrinks_unbar ..)).trans (.foldl (fun _ _ => shrinks_modGang ..) _ _)

-- Records, traps, and commands that end.

/-- A gang whose record's number has moved on (R384). -/
def Gang.renumbered (ring : Nat) (seqs : List Nat) (g : Gang) : Gang :=
  { g with hold := match g.hold with
    | .park u r q since b => .park u r (if r = ring ∧ seqs.contains q then nextSeq q else q) since b
    | h => h }

theorem shrinks_bumpSeqs (s : State) (ring : Nat) (l : List Nat) : Shrinks s (bumpSeqs s ring l) := by
  unfold bumpSeqs
  split
  · exact .refl s
  · exact ⟨fun _ h => h, (shrinks_mapGangs s fun _ => Gang.renumbered ring l).gangs, fun _ h => h, fun _ _ h => h⟩

theorem shrinks_postRec (s : State) (ring : Nat) (r : FRec) : Shrinks s (postRec s ring r) := by
  unfold postRec
  dsimp only
  split
  · exact .of_eq rfl rfl rfl rfl
  · exact (shrinks_bumpSeqs ..).after_eq rfl rfl rfl rfl

theorem shrinks_takeTrap (s : State) (key cause sub : Nat) (aux : DWord) (lanes : Lanes) (addrs : List DWord) (skip : Option Nat) :
    Shrinks s (takeTrap s key cause sub aux lanes addrs skip) := by
  unfold takeTrap
  split
  · exact .refl s
  · next g hg =>
    split
    · exact .refl s
    · next b hb =>
      dsimp only
      refine Shrinks.trans ?_ (shrinks_modCtx ..)
      exact Shrinks.trans ((shrinks_postRec ..).setGang hg _) (shrinks_swapOut ..)

theorem shrinks_putCmd (s : State) (u key : Nat) (c : Option Cmd) : Shrinks s (putCmd s u key c) := by
  obtain ⟨x, e⟩ := putCmd_only s u key c
  rw [e]
  exact .of_eq rfl rfl rfl rfl

theorem shrinks_tagReady (s : State) (n : Nat) (c : Cmd) (disc fault : Bool) : Shrinks s (tagReady s n c disc fault) := by
  unfold tagReady wakeBlock
  dsimp only
  have h (t : State) (b : Block) : Shrinks t ((blockGangs b n).foldl (fun s k => s.modGang k (wakeTags b))
      (dropAhead t fun k _ => k / 16 == n)) :=
    (Shrinks.foldl (fun _ _ => shrinks_modGang ..) _ (dropAhead t fun k _ => k / 16 == n)).before_eq rfl rfl rfl rfl
  split
  · exact shrinks_modBlock ..
  · exact (shrinks_modBlock s n _).trans (h _ _)

theorem shrinks_countCkpt (s : State) (b : Block) (c : Cmd) : Shrinks s (countCkpt s b c) := by
  obtain ⟨m, e, -⟩ := countCkpt_only s b c
  rw [e]
  exact .of_eq rfl rfl rfl rfl

theorem shrinks_tryComplete (s : State) (u : Nat) : Shrinks s (tryComplete s u) := by
  unfold tryComplete
  split
  · exact .refl s
  · next c hc =>
    split
    · exact .refl s
    · next b hb =>
      split
      · split
        · exact .refl s
        · have h : Shrinks s (putCmd (tagReady s (c.gang / 16) c false true) u c.gang none) :=
            (shrinks_tagReady ..).trans (shrinks_putCmd ..)
          dsimp only
          split
          · split
            · exact h.trans (shrinks_takeTrap ..)
            · exact h.trans (shrinks_modGang ..)
          · exact h
      · split
        · exact ((shrinks_tagReady ..).trans (shrinks_countCkpt ..)).trans (shrinks_putCmd ..)
        · exact .refl s

theorem shrinks_endLaunchCmd (s : State) (l : Launch) (fault : Bool) : Shrinks s (endLaunchCmd s l fault) := by
  have hready (n u : Nat) (c : Cmd) (disc fault : Bool) : Shrinks s (putCmd (tagReady s n c disc fault) u c.gang none) :=
    (shrinks_tagReady ..).trans (shrinks_putCmd ..)
  have hdone (u : Nat) (c : Option Cmd) : Shrinks s (tryComplete (s.setCmd u c) u) :=
    (shrinks_tryComplete ..).before_eq rfl rfl rfl rfl
  unfold endLaunchCmd
  split
  · exact .refl s
  · split
    · split
      · exact hready ..
      · exact .refl s
    · split
      · split
        · exact hready ..
        · exact hdone ..
      · exact .refl s

theorem shrinks_launchNotice (s : State) (l : Launch) (cause : Nat) (b : Option Nat) (f : Option DWord) :
    Shrinks s (launchNotice s l cause b f) := shrinks_postRec ..

end Sys2Proof.Machine
end

section
/-! The hub's accesses (R25 to R27, R33, R82 to R86): what one looks at and leaves alone, the sectors that it reads, and the
completion record that it writes. -/

namespace Sys2Proof.Machine

set_option Elab.async false

variable {s t : State} {u ctx : Nat} {l : Launch} {c : Loc}

-- An access that is served.

theorem hubAccess_ok {rd w : Bool} {va : DWord} {kind key aux : Nat} : hubAccess s ctx rd w va kind key aux = .ok c ↔
    checkGlobal s hubUnit ctx rd w va = .ok c ∧ placeOpen s (ctxVf s ctx) c 1 = true := by
  unfold hubAccess
  split
  · next l hl =>
    split
    · next hp => exact ⟨fun h => (by cases h; exact ⟨hl, hp⟩), fun h => (by cases hl.symm.trans h.1; rfl)⟩
    · next hp => exact ⟨fun h => (by cases h), fun h => (by cases hl.symm.trans h.1; exact absurd h.2 hp)⟩
  all_goals next hl => exact ⟨fun h => (by cases h), fun h => (by cases hl.symm.trans h.1)⟩

/-- What a hub access finds does not depend on gangs, launches, queues, rings, or on who waits for a record. -/
theorem hubAccess_ok_of {rd w : Bool} {va : DWord} {kind key aux : Nat} (h : hubAccess s ctx rd w va kind key aux = .ok c)
    (ht : ∃ x y z r v, t = { s with gangs := x, launches := y, queues := z, rings := r, waits := v }) :
    hubAccess t ctx rd w va kind key aux = .ok c := by
  obtain ⟨x, y, z, r, v, rfl⟩ := ht
  obtain ⟨h1, h2⟩ := hubAccess_ok.mp h
  exact hubAccess_ok.mpr ⟨h1, h2⟩

/-- The place that a hub access finds: in device memory, of its context, aligned as its address is. -/
theorem hubAccess_place {rd w : Bool} {va : DWord} {kind key aux : Nat} (h : hubAccess s ctx rd w va kind key aux = .ok c) :
    c.scr = false ∧ c.ctx = ctx ∧ ∀ n, n ∣ 65536 → n ∣ va.toNat → n ∣ c.addr := by
  have h := (hubAccess_ok.mp h).1
  unfold checkGlobal at h
  split at h
  · cases h
  · cases h
  · split at h <;> cases h
  · split at h
    · cases h
    · cases h
      refine ⟨rfl, rfl, fun n h1 h2 => ?_⟩
      exact Nat.dvd_add (h1.mul_left _) ((Nat.dvd_mod_iff h1).mpr h2)

/-- The address of a completion record's sectors is a multiple of 64. -/
theorem complAddr_dvd (x : DWord) : 64 ∣ (dw (x.toNat / 64 * 64)).toNat := by
  have h : x.toNat / 64 * 64 < 2 ^ 64 := Nat.lt_of_le_of_lt (Nat.div_mul_le_self ..) x.isLt
  rw [dw, BitVec.toNat_ofNat, Nat.mod_eq_of_lt h]
  exact Nat.dvd_mul_left ..

-- An access that waits.

/-- A hub access that waits touches the walks, the rings and what waits for their records. -/
structure HubWaits (s t : State) : Prop where
  rest : ∃ w x y z, t = { s with walks := w, waits := x, rings := y, gangs := z }
  shrinks : Shrinks s t

theorem hubWaits_startWalk (s : State) (unit ctx vpn : Nat) : HubWaits s (startWalk s unit ctx vpn) := by
  unfold startWalk
  split
  · exact ⟨⟨_, _, _, _, rfl⟩, .refl s⟩
  · exact ⟨⟨_, _, _, _, rfl⟩, .of_eq rfl rfl rfl rfl⟩

theorem hubWaits_hubPark (s : State) (r : FRec) (ctx kind key aux stage : Nat) (pages : List Nat) :
    HubWaits s (hubPark s r ctx kind key aux stage pages) := by
  unfold hubPark postPage
  split
  · exact ⟨⟨_, _, _, _, rfl⟩, .refl s⟩
  · dsimp only
    generalize (if stage = 0 then ringOf s ctx else 64) = ring
    generalize ({ r with stamp := _, cls := 1, cause := 0, sub := 0, stage := stage, aux := dw aux, addrs := pages.map dw } : FRec) = r'
    have h := shrinks_postRec s ring r'
    obtain ⟨x, y, z, e⟩ := postRec_only s ring r'
    refine ⟨?_, h.after_eq rfl rfl rfl rfl⟩
    rw [e]
    exact ⟨_, _, _, _, rfl⟩

theorem hubAccess_wait {rd w : Bool} {va : DWord} {kind key aux : Nat} (h : hubAccess s ctx rd w va kind key aux = .wait t) :
    HubWaits s t := by
  unfold hubAccess at h
  split at h
  · split at h
    · cases h
    · cases h
      exact ⟨⟨_, _, _, _, rfl⟩, .refl s⟩
  · cases h
    exact hubWaits_startWalk ..
  · cases h
    exact hubWaits_hubPark ..
  · cases h

-- Sectors read by the hub.

theorem homeOnly_readSectors (s : State) (ctx a n : Nat) : HomeOnly s (readSectors s ctx a n).1 := by
  unfold readSectors
  generalize runSectors a n = l
  suffices h : ∀ acc : State × Option Nat, HomeOnly s acc.1 → HomeOnly s (l.foldl (fun (acc : State × Option Nat) sec =>
      let r := sectorRead acc.1 sec
      (hubSlot r.1 ctx sec, match acc.2 with | some x => some x | none => if r.2 then some sec else none)) acc).1 from
    h (s, none) (.refl s)
  induction l with
  | nil => exact fun _ h => h
  | cons sec r ih => exact fun acc h => ih _ ((h.trans (homeOnly_sectorRead ..)).trans (homeOnly_hubSlot ..))

section
variable (x : Tab HQueue)

theorem chargeUser_queues (s : State) (u a n : Nat) :
    chargeUser { s with queues := x } u a n = { chargeUser s u a n with queues := x } := by
  unfold chargeUser
  dsimp only
  split <;> rfl

theorem recallOwned_queues (s : State) (line : Nat) :
    recallOwned { s with queues := x } line = { recallOwned s line with queues := x } := by
  unfold recallOwned
  show (s.core.l1.filter _).foldl _ _ = _
  generalize s.core.l1.filter _ = l
  induction l generalizing s with
  | nil => rfl
  | cons e r ih =>
    rw [List.foldl_cons, List.foldl_cons, ← ih]
    congr 1
    split
    · split
      · split
        · rfl
        · rw [writeBackL1, chargeUser_queues]
          rfl
      · rfl
    · rfl

theorem chargeSlots_queues (s : State) (ctx core a n : Nat) :
    chargeSlots { s with queues := x } ctx core a n = { chargeSlots s ctx core a n with queues := x } := by
  unfold chargeSlots
  rw [show meterKey { s with queues := x } ctx core = meterKey s ctx core from rfl, chargeUser_queues, recallOwned_queues]
  rfl

theorem weirServed_queues (s : State) (chan : Nat) (w : Waiter) :
    weirServed { s with queues := x } chan w = { weirServed s chan w with queues := x } := by
  unfold weirServed
  rw [show slackRivals { s with queues := x } chan w.vf = slackRivals s chan w.vf from rfl,
    show weirClass { s with queues := x } chan w.vf = weirClass s chan w.vf from rfl]
  dsimp only
  cases h1 : weirClass s chan w.vf != 2
  · cases h2 : (slackRivals s chan w.vf).isEmpty <;> rfl
  · rfl

theorem arrivalServed_queues (s : State) (vf : Option Nat) (a n : Nat) :
    arrivalServed { s with queues := x } vf a n = { arrivalServed s vf a n with queues := x } := by
  unfold arrivalServed
  split
  · rw [show ∀ v, arrival { s with queues := x } v n = arrival s v n from fun _ => rfl, weirServed_queues]
    split <;> rfl
  · rfl

theorem hubSlot_queues (s : State) (ctx sec : Nat) : hubSlot { s with queues := x } ctx sec = { hubSlot s ctx sec with queues := x } := by
  unfold hubSlot
  rw [show ctxVf { s with queues := x } ctx = ctxVf s ctx from rfl, arrivalServed_queues, chargeSlots_queues]

theorem sectorRead_queues (s : State) (sec : Nat) :
    sectorRead { s with queues := x } sec = ({ (sectorRead s sec).1 with queues := x }, (sectorRead s sec).2) := by
  unfold sectorRead dramRead
  have hp : ({ s with queues := x } : State).poisoned sec = s.poisoned sec := rfl
  dsimp only
  rw [hp]
  repeat' split
  all_goals rfl

/-- Queues have no part in what the hub reads. -/
theorem readSectors_queues (s : State) (ctx a n : Nat) :
    readSectors { s with queues := x } ctx a n = ({ (readSectors s ctx a n).1 with queues := x }, (readSectors s ctx a n).2) := by
  unfold readSectors
  generalize runSectors a n = l
  suffices h : ∀ (s : State) (o : Option Nat), l.foldl (fun (acc : State × Option Nat) sec =>
      let r := sectorRead acc.1 sec
      (hubSlot r.1 ctx sec, match acc.2 with | some x => some x | none => if r.2 then some sec else none)) ({ s with queues := x }, o) =
      let r := l.foldl (fun (acc : State × Option Nat) sec =>
        let r := sectorRead acc.1 sec
        (hubSlot r.1 ctx sec, match acc.2 with | some x => some x | none => if r.2 then some sec else none)) (s, o)
      ({ r.1 with queues := x }, r.2) from h s none
  induction l with
  | nil => exact fun _ _ => rfl
  | cons sec r ih =>
    intro s o
    rw [List.foldl_cons, List.foldl_cons, ← ih]
    dsimp only
    rw [sectorRead_queues, hubSlot_queues]

end

-- The completion record.

/-- A sector that a write covers holds the write's bytes, poisoned before or not (R402). -/
theorem writeSector_byte_covered (s : State) {a : Nat} {bs : List Byte} {sec : Nat} (h1 : a ≤ 32 * sec)
    (h2 : 32 * sec + 32 ≤ a + bs.length) (x : Nat) : (writeSector s a bs sec).byte x =
      if 32 * sec ≤ x ∧ x < 32 * sec + 32 then bs.getD (x - a) 0 else s.byte x := by
  have e1 : max a (32 * sec) = 32 * sec := by omega
  have e2 : min (a + bs.length) (32 * sec + 32) - 32 * sec = 32 := by omega
  have ho : sectorOpened s a bs.length sec = (clearPoison s sec, false) := by rw [sectorOpened, e1, if_pos e2]
  rw [writeSector_eq, ho, e1, e2]
  simp only [Bool.false_eq_true, if_false]
  rw [(((homeOnly_storeSector ..).still).trans (still_clearLine ..)).byte, writeBytes_byte, (still_dropCopies ..).byte,
    (still_clearPoison ..).byte]
  have hl : ((bs.drop (32 * sec - a)).take 32).length = 32 := by simp only [List.length_take, List.length_drop]; omega
  rw [hl]
  split
  · next hx =>
    simp only [List.getD_eq_getElem?_getD]
    rw [List.getElem?_take_of_lt (by omega), List.getElem?_drop]
    congr 2
    omega
  · rfl

/-- Two whole sectors written (R33). -/
theorem writeHome_byte_record (s : State) {a : Nat} {bs : List Byte} (ha : 32 ∣ a) (hl : bs.length = 64) (x : Nat) :
    (writeHome s a bs).byte x = if a ≤ x ∧ x < a + 64 then bs.getD (x - a) 0 else s.byte x := by
  obtain ⟨k, rfl⟩ := ha
  have hr : runSectors (32 * k) bs.length = [k, k + 1] := by
    simp [runSectors, hl, List.range_succ]
  rw [writeHome, hr, List.foldl_cons, List.foldl_cons, List.foldl_nil, writeSector_byte_covered _ (by omega) (by omega),
    writeSector_byte_covered _ (by omega) (by omega)]
  by_cases h : 32 * k ≤ x ∧ x < 32 * k + 64
  · rw [if_pos h]
    by_cases h' : 32 * (k + 1) ≤ x
    · rw [if_pos (by omega)]
    · rw [if_neg (by omega), if_pos (by omega)]
  · rw [if_neg h, if_neg (by omega), if_neg (by omega)]

theorem writes_hubWrite (s : State) (l : Loc) (ctx : Nat) (bs : List Byte) : Writes s (hubWrite s l ctx bs) :=
  ((HomeOnly.foldl (fun _ _ => homeOnly_hubSlot ..) _ s).writes.trans (writes_writeHome ..)).trans (writes_markDirty ..)

/-- A record of 64 bytes that the hub writes where no byte of the dirty bitmap stands. -/
theorem hubWrite_byte_record {bs : List Byte} (hs : c.scr = false) (ha : 64 ∣ c.addr) (hl : bs.length = 64)
    (hd : ∀ a, DirtyAt s c a → a < c.addr ∨ c.addr + 64 ≤ a) {i : Nat} (hi : i < 64) :
    (hubWrite s c c.ctx bs).byte (c.addr + i) = bs.getD i 0 := by
  have h1 := HomeOnly.foldl (fun s sec => homeOnly_hubSlot s c.ctx sec) (runSectors c.addr bs.length) s
  unfold hubWrite
  generalize (runSectors c.addr bs.length).foldl (fun s sec => hubSlot s c.ctx sec) s = t at h1
  have h2 := writes_writeHome t c.addr bs
  have hD : ¬DirtyAt (writeHome t c.addr bs) c (c.addr + i) := by
    rintro ⟨h3, x, h4, h5⟩
    rw [h2.ctx, h1.writes.ctx] at h4
    have := hd _ ⟨h3, x, h4, h5⟩
    omega
  rw [markDirty_byte_ne hs hD, writeHome_byte_record t ((show 32 ∣ 64 from ⟨2, rfl⟩).trans ha) hl, if_pos (by omega),
    Nat.add_sub_cancel_left]

/-- The completion record begins with STATUS and the number of killed blocks (R33). -/
theorem completionBytes_getD (s : State) (l : Launch) : (completionBytes s l).length = 64 ∧
    (∀ i < 4, (completionBytes s l).getD i 0 = BitVec.ofNat 8 (l.status / 256 ^ i)) ∧
    ∀ i < 4, (completionBytes s l).getD (4 + i) 0 = BitVec.ofNat 8 (min l.kblocks 4294967295 / 256 ^ i) := by
  unfold completionBytes
  simp only [List.append_assoc]
  refine ⟨by simp, fun i hi => ?_, fun i hi => ?_⟩
  · rw [List.getD_append _ _ _ _ (by simpa using hi), toBytes_getD hi]
  · rw [List.getD_append_right _ _ _ _ (by simp), toBytes_length, Nat.add_sub_cancel_left,
      List.getD_append _ _ _ _ (by simpa using hi), toBytes_getD hi]

/-- A launch that is over, whose record's page is there and which no command waits for, is written and gone (R33). -/
theorem completeLaunch_ok (hl : s.launch? u = some l) (ho : l.over = true) (hw : l.written = false) (hc : l.cmd = none)
    (ha : hubAccess s l.ctx false true (dw (l.compl.toNat / 64 * 64)) 3 u 5 = .ok c) : completeLaunch s u =
      { hubWrite s c l.ctx (completionBytes s l) with
        launches := tput none (hubWrite s c l.ctx (completionBytes s l)).launches u none } := by
  unfold completeLaunch
  simp only [hl, ho, hw, ha, Bool.not_true, Bool.or_self, Bool.false_eq_true, if_false]
  rw [endLaunchCmd, hc]

/-- What such a completion leaves: the launch gone and the others as they were, and STATUS in the record. -/
theorem completeLaunch_record (hl : s.launch? u = some l) (ho : l.over = true) (hw : l.written = false) (hc : l.cmd = none)
    (ha : hubAccess s l.ctx false true (dw (l.compl.toNat / 64 * 64)) 3 u 5 = .ok c)
    (hd : ∀ a, DirtyAt s c a → a < c.addr ∨ c.addr + 64 ≤ a) :
    (completeLaunch s u).launch? u = none ∧ (∀ v, v ≠ u → (completeLaunch s u).launch? v = s.launch? v) ∧
      (completeLaunch s u).readPhys c.addr 4 = l.status % 256 ^ 4 ∧
      (l.status = 0 → l.kblocks = 0 → (completeLaunch s u).readPhys c.addr 8 = 0) := by
  obtain ⟨hs, hx, hdvd⟩ := hubAccess_place ha
  have h64 := hdvd 64 ⟨1024, rfl⟩ (complAddr_dvd l.compl)
  obtain ⟨hlen, h4, h8⟩ := completionBytes_getD s l
  have hb (i : Nat) (hi : i < 64) : (completeLaunch s u).byte (c.addr + i) = (completionBytes s l).getD i 0 := by
    rw [completeLaunch_ok hl ho hw hc ha]
    have := hubWrite_byte_record (s := s) hs h64 hlen hd hi
    rwa [hx] at this
  have hL := (writes_hubWrite s c l.ctx (completionBytes s l)).launches
  refine ⟨?_, fun v hv => ?_, ?_, fun h0 hk => ?_⟩
  · rw [completeLaunch_ok hl ho hw hc ha]
    exact tget_tput_self none _ u none
  · rw [completeLaunch_ok hl ho hw hc ha]
    exact (tget_tput_ne none _ none hv).trans (congrArg (tget none · v) hL)
  · exact leValue_bytes _ _ _ fun i hi => (hb i (by omega)).trans (h4 i hi)
  · rw [State.readPhys, leValue_bytes _ 0 8 fun i hi => ?_, Nat.zero_mod]
    rw [hb i (by omega), Nat.zero_div]
    by_cases hi4 : i < 4
    · rw [h4 i hi4, h0, Nat.zero_div]
    · obtain ⟨j, rfl⟩ := Nat.exists_eq_add_of_le (Nat.le_of_not_lt hi4)
      rw [h8 j (by omega), hk, Nat.zero_min, Nat.zero_div]

/-- A launch's completion, however it ends, brings nothing back; the launch is as it was or gone. -/
theorem completeLaunch_shrinks (s : State) (u : Nat) : Shrinks s (completeLaunch s u) ∧
    ((completeLaunch s u).launch? u = none ∨ (completeLaunch s u).launch? u = s.launch? u) := by
  have hdel (t : State) : Shrinks t { t with launches := tput none t.launches u none } :=
    ⟨fun _ h => h, fun _ h => h, fun v h => by
      show tget none (tput none t.launches u none) v = none
      rw [tget_tput]
      split
      · rfl
      · exact h, fun _ _ h => h⟩
  have hgone (t : State) (l : Launch) (f : Bool) : (endLaunchCmd { t with launches := tput none t.launches u none } l f).launch? u = none :=
    (shrinks_endLaunchCmd ..).launches u (tget_tput_self none _ u none)
  unfold completeLaunch
  split
  · exact ⟨.refl s, .inr rfl⟩
  · next l hl =>
    split
    · exact ⟨.refl s, .inr rfl⟩
    · dsimp only
      split
      · exact ⟨((shrinks_hubWrite ..).trans (hdel _)).trans (shrinks_endLaunchCmd ..), .inl (hgone ..)⟩
      · next t ht =>
        have h := hubAccess_wait ht
        refine ⟨h.shrinks, .inr ?_⟩
        obtain ⟨w, x, y, z, rfl⟩ := h.rest
        rfl
      · exact ⟨((shrinks_launchNotice ..).trans (hdel _)).trans (shrinks_endLaunchCmd ..), .inl (hgone ..)⟩

end Sys2Proof.Machine
end

section
/-! Blocks between placement and retirement, and the timers of the scheduler (O48). -/

namespace Sys2Proof.Machine

set_option Elab.async false

variable {s t : State} {n k : Nat} {b : Block} {g : Gang} {r : LRec}

-- A piece of a region (R27).

theorem arrivalServed_only (s : State) (vf : Option Nat) (a n : Nat) : ∃ p, arrivalServed s vf a n = { s with pf := p } := by
  unfold arrivalServed weirServed
  dsimp only
  repeat' split
  all_goals exact ⟨_, rfl⟩

theorem sectorRead_pf (s : State) (p : PfSt) (sec : Nat) : (sectorRead { s with pf := p } sec).2 = (sectorRead s sec).2 := by
  unfold sectorRead dramRead
  rw [show ({ s with pf := p } : State).poisoned sec = s.poisoned sec from rfl]
  dsimp only
  repeat' split
  all_goals rfl

theorem writeScr_only (s : State) (a : Nat) (l : List Byte) : ∃ c, s.writeScr a l = { s with core := c } := by
  induction l generalizing s a with
  | nil => exact ⟨s.core, rfl⟩
  | cons x r ih =>
    obtain ⟨c, e⟩ := ih (s.setSbyte a x) (a + 1)
    exact ⟨c, e⟩

/-- A run of scratchpad bytes written: they stand there, and no other byte changes. -/
theorem writeScr_sbyte (s : State) (a : Nat) (l : List Byte) (i : Nat) :
    (s.writeScr a l).sbyte i = if a ≤ i ∧ i < a + l.length then l.getD (i - a) 0 else s.sbyte i := by
  induction l generalizing s a with
  | nil => rw [if_neg (by simp)]; rfl
  | cons x r ih =>
    rw [State.writeScr, ih, setSbyte_sbyte, List.length_cons]
    by_cases h : i = a
    · subst h
      rw [if_neg (by omega), if_pos rfl, if_pos (by omega), Nat.sub_self, List.getD_cons_zero]
    · rw [if_neg h]
      by_cases h1 : a + 1 ≤ i ∧ i < a + 1 + r.length
      · rw [if_pos h1, if_pos (by omega), show i - a = (i - (a + 1)) + 1 by omega, List.getD_cons_succ]
      · rw [if_neg h1, if_neg (by omega)]

/-- Staging goes on with a block's region. -/
theorem regionStaging_stages {i off : Nat} {x : Region} (hd : dispatcherReady s = true) (hb : s.block? n = some b)
    (hp : b.phase = .staging i off) (hr : launchRec s b = some r) (hx : r.regions[i]? = some x) :
    exec (.regionStaging n) s = .next (stagePiece s n b x i off) := by
  rw [exec_regionStaging, execRegionStaging]
  simp only [hd, if_true, hb, hp, hr, hx]

/-- A piece that can be read stands in the block's scratchpad window. -/
theorem stagePiece_stands {i off : Nat} {x : Region} {p : Loc} (ho : off < x.len)
    (ha : hubAccess s b.ctx true false (dw (x.gaddr + off)) 2 n 3 = .ok p) (hr : (sectorRead s (p.addr / 32)).2 = false) :
    let len := min (32 - p.addr % 32) (x.len - off)
    let at1 := scrKey b.core b.bank (b.scrbase + x.soff + off)
    (∀ a, (stagePiece s n b x i off).byte a = s.byte a) ∧ 0 < len ∧
      (∀ j < len, (stagePiece s n b x i off).sbyte (at1 + j) = s.byte (p.addr + j)) ∧
      (∀ a, (a < at1 ∨ at1 + len ≤ a) → (stagePiece s n b x i off).sbyte a = s.sbyte a) ∧
      (stagePiece s n b x i off).block? n =
        some { b with phase := if off + len < x.len then .staging i (off + len) else .staging (i + 1) 0 } := by
  intro len at1
  obtain ⟨pf, e1⟩ := arrivalServed_only s (ctxVf s b.ctx) p.addr 1
  have hrd : (sectorRead (arrivalServed s (ctxVf s b.ctx) p.addr 1) (p.addr / 32)).2 = false := by
    rw [e1, sectorRead_pf, hr]
  have h1 := (homeOnly_arrivalServed s (ctxVf s b.ctx) p.addr 1).trans (homeOnly_sectorRead _ (p.addr / 32))
  unfold stagePiece
  simp only [ha, hrd, Bool.false_eq_true, if_false]
  generalize (sectorRead (arrivalServed s (ctxVf s b.ctx) p.addr 1) (p.addr / 32)).1 = t at h1
  generalize hl : (List.range (min (32 - p.addr % 32) (x.len - off))).map (fun j => t.byte (p.addr + j)) = l
  have hlen : l.length = len := by rw [← hl, List.length_map, List.length_range]
  obtain ⟨c, e2⟩ := writeScr_only t at1 l
  have h2 := homeOnly_chargeSlots (t.writeScr at1 l) b.ctx b.core p.addr 1
  have hs (a : Nat) : (chargeSlots (t.writeScr at1 l) b.ctx b.core p.addr 1).sbyte a =
      if at1 ≤ a ∧ a < at1 + len then l.getD (a - at1) 0 else s.sbyte a := by
    rw [State.sbyte, h2.scratch, ← State.sbyte, writeScr_sbyte, hlen, State.sbyte, h1.scratch]
    rfl
  refine ⟨fun a => ?_, by omega, fun j hj => (hs (at1 + j)).trans ?_, fun a ha => (hs a).trans (if_neg (by omega)),
    setBlock_block_self ..⟩
  · refine (h2.still.byte a).trans ?_
    rw [e2]
    exact h1.still.byte a
  · rw [if_pos (by omega), Nat.add_sub_cancel_left, ← hl, List.getD_eq_getElem?_getD, List.getElem?_map, List.getElem?_range hj]
    exact h1.still.byte _

-- A block that is gone (R33).

/-- Nothing of a block is there: no gang, and no array that it owns. -/
structure Gone (s : State) (n : Nat) : Prop where
  block : s.block? n = none
  gangs : ∀ k, k / 16 = n → s.gang? k = none
  owners : ∀ c, (s.array c).owner ≠ some n

theorem Gone.shrinks (h : Gone s n) (hs : Shrinks s t) : Gone t n :=
  ⟨hs.blocks n h.block, fun k hk => hs.gangs k (h.gangs k hk), fun c hc => h.owners c (hs.owners c n hc)⟩

/-- What a filtered table holds has passed the filter, or is the default. -/
theorem tget_filter_of {α : Type} (d : α) (t : Tab α) (p : Nat × α → Bool) (k : Nat) :
    tget d (t.filter p) k = d ∨ p (k, tget d (t.filter p) k) = true := by
  induction t with
  | nil => exact .inl rfl
  | cons e r ih =>
    obtain ⟨j, x⟩ := e
    rw [List.filter_cons]
    split
    · next hp =>
      rw [tget]
      split
      · next hk => subst hk; exact .inr hp
      · exact ih
    · exact ih

theorem departs_leftAt (s : State) (f : Nat → Bool) : ∃ x, departs s f = { s with leftAt := x } := departs_only rfl

/-- A block and its gangs out of the machine. -/
theorem removeBlock_gone (s : State) (n : Nat) : Gone (removeBlock s n) n := by
  obtain ⟨x, e⟩ := departs_leftAt s (entryOf s n)
  unfold removeBlock
  dsimp only
  rw [e]
  refine ⟨tget_tput_self none _ n none, fun k hk => ?_, fun c hc => ?_⟩
  · exact tget_filter_not none s.gangs (fun k => k / 16 == n) (by simpa using hk)
  · rcases tget_filter_of arrayDefault s.core.arrays (fun e => e.2.owner != some n) c with h | h
    · rw [State.array] at hc
      exact absurd (h ▸ hc : arrayDefault.owner = some n) nofun
    · rw [State.array] at hc
      simp [hc] at h

theorem removeBlock_launches (s : State) (n : Nat) : (removeBlock s n).launches = s.launches := by
  obtain ⟨x, e⟩ := departs_leftAt s (entryOf s n)
  unfold removeBlock
  dsimp only
  rw [e]

theorem removeBlock_ctxs (s : State) (n : Nat) : (removeBlock s n).ctxs = s.ctxs := by
  obtain ⟨x, e⟩ := departs_leftAt s (entryOf s n)
  unfold removeBlock
  dsimp only
  rw [e]

/-- The machine without a block, whose context's launches compete again (R157). -/
def withoutBlock (s : State) (n : Nat) (b : Block) : State := unbar (removeBlock s n) b.ctx

theorem withoutBlock_launch (s : State) (n : Nat) (b : Block) (u : Nat) :
    (withoutBlock s n b).launch? u = (s.launch? u).map (Launch.unbarred b.ctx) := by
  rw [withoutBlock, unbar_launch, State.launch?, removeBlock_launches]
  rfl

theorem withoutBlock_gone (s : State) (n : Nat) (b : Block) : Gone (withoutBlock s n b) n :=
  (removeBlock_gone s n).shrinks (shrinks_unbar ..)

/-- A launch one of whose blocks is gone. -/
def Launch.retire (ctx : Nat) (l : Launch) : Launch := { l.unbarred ctx with retired := l.retired + 1 }

theorem unbarred_eq (ctx : Nat) (l : Launch) : ∃ x, l.unbarred ctx = { l with barred := x } := by
  unfold Launch.unbarred
  split <;> exact ⟨_, rfl⟩

theorem blockGone_some {l : Launch} (hl : s.launch? b.launch = some l) : blockGone s n b =
    completeLaunch ((withoutBlock s n b).setLaunch b.launch (l.retire b.ctx)) b.launch := by
  obtain ⟨x, e⟩ := unbarred_eq b.ctx l
  have h : (withoutBlock s n b).launch? b.launch = some (l.unbarred b.ctx) := by rw [withoutBlock_launch, hl]; rfl
  unfold blockGone
  dsimp only
  rw [← withoutBlock, h]
  dsimp only
  rw [Launch.retire, e]

theorem blockGone_gone (s : State) (n : Nat) (b : Block) : Gone (blockGone s n b) n := by
  cases hl : s.launch? b.launch with
  | none =>
    have h : (withoutBlock s n b).launch? b.launch = none := by rw [withoutBlock_launch, hl]; rfl
    unfold blockGone
    dsimp only
    rw [← withoutBlock, h]
    exact withoutBlock_gone ..
  | some l =>
    rw [blockGone_some hl]
    exact (withoutBlock_gone s n b).shrinks
      (((Shrinks.refl _).setLaunch (by rw [withoutBlock_launch, hl]; rfl) _).trans (completeLaunch_shrinks ..).1)

/-- After a block is gone its launch is gone too, or is as it was but for one block more that is gone. -/
theorem blockGone_launch {l : Launch} (hl : s.launch? b.launch = some l) :
    (blockGone s n b).launch? b.launch = none ∨ (blockGone s n b).launch? b.launch = some (l.retire b.ctx) := by
  rw [blockGone_some hl]
  have h := (completeLaunch_shrinks ((withoutBlock s n b).setLaunch b.launch (l.retire b.ctx)) b.launch).2
  rwa [setLaunch_launch_self] at h

/-- A region that cannot be staged: the block is gone, and its launch ended. -/
theorem regionFault_ends {l : Launch} (hl : s.launch? b.launch = some l) (addr : DWord) :
    (regionFault s n b addr).block? n = none ∧
      ∀ l', (regionFault s n b addr).launch? b.launch = some l' → l'.ended.isSome = true ∧ l'.holds = false := by
  unfold regionFault
  rw [hl]
  dsimp only
  refine ⟨(blockGone_gone ..).block, fun l' hl' => ?_⟩
  generalize hx : ({ l with ended := some (l.ended.getD stRegion) } : Launch) = x at hl'
  have h1 : (launchNotice (s.setLaunch b.launch x) x 7 (some b.index) (some addr)).launch? b.launch = some x := by
    obtain ⟨y, z, w, e⟩ := postRec_only (s.setLaunch b.launch x) (ringOf (s.setLaunch b.launch x) x.ctx) _
    rw [launchNotice, e]
    exact setLaunch_launch_self s ..
  rcases blockGone_launch (n := n) h1 with h | h
  · rw [h] at hl'
    cases hl'
  · rw [h] at hl'
    cases hl'
    obtain ⟨y, e⟩ := unbarred_eq b.ctx x
    rw [Launch.retire, e, ← hx]
    exact ⟨rfl, rfl⟩

/-- The last block of a launch that goes leaves STATUS OK in the completion record, and the launches of its context compete. -/
theorem blockGone_last {l : Launch} {c : Loc} (hl : s.launch? b.launch = some l) (hr : l.body = some r) (he : l.ended = none)
    (hw : l.written = false) (hc : l.cmd = none) (hk : l.kblocks = 0) (hkl : l.klanes = 0) (hp : l.placedN = l.retired + 1)
    (ht : l.placedN = (r.gx + 1) * (r.gy + 1) * (r.gz + 1))
    (ha : hubAccess (removeBlock s n) l.ctx false true (dw (l.compl.toNat / 64 * 64)) 3 b.launch 5 = .ok c)
    (hd : ∀ a, DirtyAt s c a → a < c.addr ∨ c.addr + 64 ≤ a) :
    (blockGone s n b).launch? b.launch = none ∧ (blockGone s n b).readPhys c.addr 8 = 0 ∧
      ∀ v x, v ≠ b.launch → s.launch? v = some x →
        (blockGone s n b).launch? v = some { x with barred := if x.ctx = b.ctx then false else x.barred } := by
  rw [blockGone_some hl]
  obtain ⟨y, e⟩ := unbarred_eq b.ctx l
  have hre : l.retire b.ctx = { l with barred := y, retired := l.retired + 1 } := by rw [Launch.retire, e]
  have hov : (l.retire b.ctx).over = true := by
    rw [hre]
    simp [Launch.over, hr, hp, ← ht]
  have hst : (l.retire b.ctx).status = 0 := by
    rw [hre]
    simp [Launch.status, he, hkl, stOk]
  generalize hL : l.retire b.ctx = L at hov hst
  have hctx : ((withoutBlock s n b).setLaunch b.launch L).ctxs = s.ctxs := removeBlock_ctxs s n
  have ha' : hubAccess ((withoutBlock s n b).setLaunch b.launch L) L.ctx false true (dw (L.compl.toNat / 64 * 64)) 3 b.launch 5 =
      .ok c := by
    rw [show L.ctx = l.ctx by rw [← hL, hre], show L.compl = l.compl by rw [← hL, hre]]
    exact hubAccess_ok_of ha ⟨_, _, _, _, _, rfl⟩
  have hd' (a : Nat) (h : DirtyAt ((withoutBlock s n b).setLaunch b.launch L) c a) : a < c.addr ∨ c.addr + 64 ≤ a := by
    obtain ⟨h1, x, h2, h3⟩ := h
    exact hd a ⟨h1, x, by rwa [State.ctx?, hctx] at h2, h3⟩
  obtain ⟨h1, h2, -, h4⟩ := completeLaunch_record (setLaunch_launch_self ..) hov (by rw [← hL, hre]; exact hw) (by rw [← hL, hre]; exact hc)
    ha' hd'
  refine ⟨h1, h4 hst (by rw [← hL, hre]; exact hk), fun v x hv hx => ?_⟩
  rw [h2 v hv, setLaunch_launch, if_neg hv, withoutBlock_launch, hx, Option.map_some, Launch.unbarred]
  split <;> rfl

/-- BLOCK_RETIRE of a block that has nothing left to do. -/
theorem exec_blockRetire_retires (hb : s.block? n = some b) (hp : b.phase = .running)
    (hg : ∀ k ∈ blockGangs b n, gangDone s k = true)
    (ha : b.need.race = true → (s.array b.core).owner = some n → (s.array b.core).eval = none) :
    exec (.blockRetire n) s = .next (blockRetired s n b) := by
  have h1 : (blockGangs b n).all (gangDone s) = true := List.all_eq_true.mpr hg
  have h2 : (b.need.race && (s.array b.core).owner == some n && (s.array b.core).eval.isSome) = false := by
    by_cases hr : b.need.race = true
    · by_cases ho : (s.array b.core).owner = some n
      · simp [ha hr ho]
      · simp [ho]
    · simp [hr]
  rw [exec_blockRetire, execBlockRetire, hb]
  simp only [hp, h1, h2, decide_true, Bool.and_self, Bool.not_false, if_true]

theorem blockRetired_gone (s : State) (n : Nat) (b : Block) : Gone (blockRetired s n b) n := blockGone_gone ..

theorem blockRetired_unkilled (hk : b.killed = 0) : blockRetired s n b = blockGone s n b := by
  unfold blockRetired
  split
  · rw [if_pos hk]
  · rfl

-- A block starts its gangs (R32).

/-- A gang at its start, R32's table. -/
def Gang.started (g : Gang) (b : Block) (r : LRec) (u tag cycle : Nat) : Gang :=
  { g with
    live := existingLanes ((r.bx + 1) * (r.bky + 1) * (r.bz + 1)) g.idx, tag := tag, regs := startRegs r.need (startKregs b r g.idx),
    splits := tput none [] 0 (some (firstSplit u r.entry (existingLanes ((r.bx + 1) * (r.bky + 1) * (r.bz + 1)) g.idx))), cur := 0,
    sched := { g.sched with waitSince := cycle } }

/-- What the start of a gang touches: its own entry, the context's count of tags, and the next number. -/
theorem startGang_only (s : State) (b : Block) (r : LRec) (k : Nat) :
    ∃ u x y, startGang s b r k = { s with uid := u, ctxs := x, gangs := y } := by
  unfold startGang
  split <;> exact ⟨_, _, _, rfl⟩

theorem startGang_ctx {c : Context} (hc : s.ctx? b.ctx = some c) (r : LRec) (k : Nat) : ∃ c', (startGang s b r k).ctx? b.ctx = some c' := by
  unfold startGang
  split
  · exact ⟨_, setCtx_ctx_self ..⟩
  · exact ⟨c, hc⟩

theorem startGang_gang {c : Context} (hc : s.ctx? b.ctx = some c) (r : LRec) (k j : Nat) : ∃ u tag, (startGang s b r k).gang? j =
    if j = k then (s.gang? j).map fun g => g.started b r u tag s.cycle else s.gang? j := by
  unfold startGang
  rw [hc]
  cases hg : s.gang? k with
  | none =>
    refine ⟨0, 0, ?_⟩
    by_cases h : j = k
    · rw [if_pos h, h, hg]
      rfl
    · rw [if_neg h]
  | some g =>
    refine ⟨s.uid, c.tagcnt, ?_⟩
    refine (setGang_gang ..).trans ?_
    by_cases h : j = k
    · rw [if_pos h, if_pos h, h, hg]
      rfl
    · rw [if_neg h, if_neg h]
      rfl

theorem foldl_startGang_only (b : Block) (r : LRec) (l : List Nat) (s : State) :
    ∃ u x y, l.foldl (fun s k => startGang s b r k) s = { s with uid := u, ctxs := x, gangs := y } := by
  induction l generalizing s with
  | nil => exact ⟨_, _, _, rfl⟩
  | cons k r' ih =>
    obtain ⟨u, x, y, e⟩ := startGang_only s b r k
    obtain ⟨u', x', y', e'⟩ := ih (startGang s b r k)
    refine ⟨u', x', y', ?_⟩
    rw [List.foldl_cons, e', e]

/-- Every gang of a list is at its start, once. -/
theorem foldl_startGang_gang {c : Context} (b : Block) (r : LRec) {l : List Nat} (hl : l.Nodup) (hc : s.ctx? b.ctx = some c)
    (hk : k ∈ l) (hg : s.gang? k = some g) :
    ∃ u tag, (l.foldl (fun s k => startGang s b r k) s).gang? k = some (g.started b r u tag s.cycle) := by
  have keep : ∀ (l : List Nat) (s : State) (c : Context) (g : Gang), s.ctx? b.ctx = some c → k ∉ l → s.gang? k = some g →
      (l.foldl (fun s k => startGang s b r k) s).gang? k = some g := by
    intro l
    induction l with
    | nil => exact fun s c g _ _ h => h
    | cons j l ih =>
      intro s c g hc hk h
      obtain ⟨c', hc'⟩ := startGang_ctx hc r j
      obtain ⟨u, tag, e⟩ := startGang_gang hc r j k
      rw [if_neg (by rintro rfl; exact hk (.head _)), h] at e
      exact ih _ c' g hc' (fun h => hk (.tail _ h)) e
  induction l generalizing s c with
  | nil => cases hk
  | cons j l ih =>
    obtain ⟨hj, hl⟩ := List.nodup_cons.mp hl
    obtain ⟨c', hc'⟩ := startGang_ctx hc r j
    obtain ⟨u, tag, e⟩ := startGang_gang hc r j k
    obtain ⟨u', x', y', e'⟩ := startGang_only s b r j
    rcases List.mem_cons.mp hk with rfl | hkl
    · rw [if_pos rfl, hg] at e
      exact ⟨u, tag, keep l _ c' _ hc' hj e⟩
    · rw [if_neg (by rintro rfl; exact hj hkl), hg] at e
      obtain ⟨u2, tag2, h⟩ := ih hl hc' hkl e
      rw [show (startGang s b r j).cycle = s.cycle by rw [e']] at h
      exact ⟨u2, tag2, h⟩

theorem startKregs_kget (b : Block) (r : LRec) (idx : Nat) :
    let q := startRegs r.need (startKregs b r idx)
    q.kget 1 = r.args ∧ q.kget 2 = dw (b.y * 4294967296 + b.x) ∧ q.kget 3 = dw (idx * 4294967296 + b.z) ∧
      ∀ j, j = 0 ∨ 4 ≤ j → q.kget j = 0 := by
  refine ⟨?_, ?_, ?_, fun j hj => ?_⟩
  · simp [Regs.kget, startRegs, startKregs, tget_tput]
  · simp [Regs.kget, startRegs, startKregs, tget_tput]
  · simp [Regs.kget, startRegs, startKregs]
  · rcases hj with rfl | hj
    · rfl
    · simp [Regs.kget, startRegs, startKregs, tget_tput, tget, show j ≠ 1 by omega, show j ≠ 2 by omega, show j ≠ 3 by omega,
        show j ≠ 0 by omega]

/-- A started gang is as R32's table says. -/
theorem started_table (g : Gang) (b : Block) (r : LRec) (u tag cycle : Nat) :
    let g' := g.started b r u tag cycle
    ∃ sp, g'.split? = some sp ∧ g'.splitList.length = 1 ∧ g'.frames = g.frames ∧
      sp.pc = r.entry ∧ sp.exm = g'.live ∧ sp.lanes = g'.live ∧ sp.wait = .ready ∧
      (∀ l < 64, inLanes g'.live l = true ↔ 64 * g.idx + l < (r.bx + 1) * (r.bky + 1) * (r.bz + 1)) ∧
      (∀ v, g'.vget v = vzero) ∧ (∀ m, g'.mget m = if m = 0 then BitVec.allOnes 64 else 0) ∧
      (∀ j, g'.regs.gget j = .unresolved) ∧ g'.kget 1 = r.args ∧ (g'.kget 2).toNat = (b.y * 2 ^ 32 + b.x) % 2 ^ 64 ∧
      (g'.kget 3).toNat = (g.idx * 2 ^ 32 + b.z) % 2 ^ 64 ∧ (∀ j, j = 0 ∨ 4 ≤ j → g'.kget j = 0) ∧
      g'.regs.fsr = 0 ∧ g'.regs.fcr = 0 ∧ g'.regs.pri = r.need.prio ∧ g'.regs.wdlim = r.need.wdlim ∧
      g'.regs.lcnt = 0 ∧ g'.regs.scnt = 0 := by
  intro g'
  obtain ⟨k1, k2, k3, k4⟩ := startKregs_kget b r g.idx
  refine ⟨_, rfl, rfl, rfl, rfl, rfl, rfl, rfl, fun l hl => ?_, fun _ => rfl, fun _ => rfl, fun _ => rfl, k1, ?_, ?_, k4, rfl, rfl,
    rfl, rfl, rfl, rfl⟩
  · show inLanes (existingLanes _ _) l = true ↔ _
    simp [existingLanes, hl]
  · exact (congrArg BitVec.toNat k2).trans (BitVec.toNat_ofNat ..)
  · exact (congrArg BitVec.toNat k3).trans (BitVec.toNat_ofNat ..)

/-- GANG_START of a block whose regions are staged. -/
theorem exec_gangStart_starts {i off : Nat} (hd : dispatcherReady s = true) (hb : s.block? n = some b)
    (hp : b.phase = .staging i off) (hr : launchRec s b = some r) (hi : r.regions.length ≤ i) : exec (.gangStart n) s =
      .next ((blockGangs b n).foldl (fun s k => startGang s b r k) (s.setBlock n { b with phase := .running })) := by
  rw [exec_gangStart, execGangStart]
  simp only [hd, if_true, hb, hp, hr, Nat.not_lt.mpr hi, if_false]

-- The timers (R160, R162, R163).

theorem nextReady_clearCurResv (g : Gang) : nextReady (clearCurResv g) = nextReady g := by
  unfold clearCurResv
  split
  · next sp hsp =>
    unfold nextReady
    show List.find? _ ((List.range 7).map fun i => (g.cur + 1 + i) % 8) = _
    congr 1
    funext i
    by_cases hi : i = g.cur
    · subst hi
      rw [show tget none (g.setSplit sp.noResv).splits g.cur = some sp.noResv from setSplit_split ..,
        show tget none g.splits g.cur = some sp from hsp]
      rfl
    · rw [setSplit_other g _ hi]
      rfl
  · rfl

theorem switchSplit_ready {i : Nat} (h : nextReady g = some i) : switchSplit g = { g with cur := i, fair := 0, fairDefer := none } := by
  rw [switchSplit, h]

theorem clearCurResv_resv (g : Gang) : (clearCurResv g).regs = g.regs ∧
    ∀ sp, tget none (clearCurResv g).splits g.cur = some sp → sp.resv = none ∧ sp.spent = [] := by
  unfold clearCurResv
  split
  · next x hx =>
    refine ⟨rfl, fun sp h => ?_⟩
    rw [show tget none (g.setSplit x.noResv).splits g.cur = some x.noResv from setSplit_split ..] at h
    cases h
    exact ⟨rfl, rfl⟩
  · next hx => exact ⟨rfl, fun sp h => by rw [Gang.split?] at hx; exact absurd (hx.symm.trans h) nofun⟩

/-- What the fairness timer makes of a gang. -/
theorem fairExpire_cases (g : Gang) :
    (256 ≤ g.fair ∨ g.fairDefer ≠ none → ∀ i, nextReady g = some i →
      (holdsResv g = false → (if fairOver g then fairExpire g else g) = { g with cur := i, fair := 0, fairDefer := none }) ∧
      (holdsResv g = true → g.fairDefer = none → (if fairOver g then fairExpire g else g) = { g with fairDefer := some 0 }) ∧
      (holdsResv g = true → ∀ n < 64, g.fairDefer = some n → (if fairOver g then fairExpire g else g) = g) ∧
      (holdsResv g = true → ∀ n, 64 ≤ n → g.fairDefer = some n →
        (if fairOver g then fairExpire g else g) = { clearCurResv g with cur := i, fair := 0, fairDefer := none })) ∧
    (nextReady g = none → (if fairOver g then fairExpire g else g) = g) ∧
    (g.fair < 256 → g.fairDefer = none → (if fairOver g then fairExpire g else g) = g) := by
  refine ⟨fun h i hi => ?_, fun h => ?_, fun h1 h2 => ?_⟩
  · have ho : fairOver g = true := by
      rcases h with h | h
      · simp [fairOver, h]
      · simp [fairOver, Option.isSome_iff_ne_none.mpr h]
    rw [if_pos ho, fairExpire, hi]
    refine ⟨fun hr => ?_, fun hr hf => ?_, fun hr n hn hf => ?_, fun hr n hn hf => ?_⟩
    · simp [hr, switchSplit_ready hi]
    · simp [hr, hf]
    · simp [hr, hf, hn]
    · simp [hr, hf, Nat.not_lt.mpr hn, switchSplit_ready ((nextReady_clearCurResv g).trans hi)]
  · split
    · rw [fairExpire, h]
      rfl
    · rfl
  · rw [if_neg (by simp [fairOver, h2, h1])]

theorem modGang_frame (s : State) (k : Nat) (f : Gang → Gang) :
    (∀ a, (s.modGang k f).byte a = s.byte a) ∧ ∀ j, j ≠ k → (s.modGang k f).gang? j = s.gang? j := by
  refine ⟨fun a => ?_, fun j hj => by rw [modGang_gang, if_neg hj]⟩
  obtain ⟨x, e⟩ := modGang_only s k f
  rw [e]
  rfl

theorem modGang_some (hg : s.gang? k = some g) (f : Gang → Gang) : (s.modGang k f).gang? k = some (f g) := by
  rw [modGang_gang, if_pos rfl, hg]
  rfl

-- A gang enters the active set (R160).

theorem bestGang_ne_none {l : List (Nat × Gang)} (h : l ≠ []) (better : Gang → Gang → Bool) : ∃ v, bestGang better l = some v := by
  cases l with
  | nil => exact absurd rfl h
  | cons x r =>
    rw [bestGang]
    split
    · split <;> exact ⟨_, rfl⟩
    · exact ⟨_, rfl⟩

/-- The gang that is displaced first has the lowest PRI. -/
theorem bestGang_displaced {l : List (Nat × Gang)} {v : Nat × Gang} (h : bestGang displacedBefore l = some v) :
    v ∈ l ∧ ∀ x ∈ l, v.2.regs.pri ≤ x.2.regs.pri := by
  induction l generalizing v with
  | nil => cases h
  | cons x r ih =>
    rw [bestGang] at h
    split at h
    · next y hy =>
      obtain ⟨h1, h2⟩ := ih hy
      split at h
      · next hb =>
        obtain rfl := Option.some.inj h
        have hxy : x.2.regs.pri ≤ y.2.regs.pri := by
          simp only [displacedBefore, Bool.or_eq_true, Bool.and_eq_true, decide_eq_true_eq, beq_iff_eq] at hb
          rcases hb with hb | hb
          · exact hb.le
          · exact hb.1.le
        exact ⟨.head _, List.forall_mem_cons.mpr ⟨le_rfl, fun z hz => hxy.trans (h2 z hz)⟩⟩
      · next hb =>
        obtain rfl := Option.some.inj h
        have hyx : y.2.regs.pri ≤ x.2.regs.pri := by
          simp only [displacedBefore, Bool.or_eq_true, decide_eq_true_eq, not_or] at hb
          exact Nat.le_of_not_lt hb.1
        exact ⟨.tail _ h1, List.forall_mem_cons.mpr ⟨hyx, h2⟩⟩
    · next hn =>
      obtain rfl := Option.some.inj h
      have hr : r = [] := by
        by_contra hr
        obtain ⟨w, hw⟩ := bestGang_ne_none hr displacedBefore
        rw [hw] at hn
        cases hn
      subst hr
      exact ⟨.head _, fun z hz => (List.mem_singleton.mp hz ▸ le_rfl)⟩

/-- The active place of a gang, as `setActive` leaves it. -/
def Gang.placed (g : Gang) (cycle : Nat) (a : Bool) : Gang :=
  { g with sched := { g.sched with active := a, waitSince := cycle, boost := false, entered := if a then some cycle else none } }

theorem setActive_gang (s : State) (k j : Nat) (a : Bool) :
    (setActive s k a).gang? j = if j = k then (s.gang? j).map (Gang.placed · s.cycle a) else s.gang? j :=
  modGang_gang ..

theorem setActive_byte (s : State) (k : Nat) (a : Bool) (x : Nat) : (setActive s k a).byte x = s.byte x := (modGang_frame ..).1 x

/-- The clause of ENTRY_BOOST. -/
theorem entryBoost_enters (hg : s.gang? k = some g) (ha : g.sched.active = false) (hw : gangWaiting s g = false)
    (hs : g.sched.waitSince + 4096 ≤ s.cycle) :
    let act := (quarterGangs s k).filter fun e => e.2.sched.active
    ∃ t g', exec (.entryBoost k) s = .next t ∧ (∀ a, t.byte a = s.byte a) ∧ t.gang? k = some g' ∧ g'.sched.active = true ∧
      g'.regs = g.regs ∧ g'.splits = g.splits ∧
      (act.length < 8 → ∀ j, j ≠ k → t.gang? j = s.gang? j) ∧
      (8 ≤ act.length → ∃ v ∈ act, (∀ x ∈ act, v.2.regs.pri ≤ x.2.regs.pri) ∧ (∀ j, j ≠ k → j ≠ v.1 → t.gang? j = s.gang? j) ∧
        (v.1 ≠ k → ∀ x, s.gang? v.1 = some x → ∃ h, t.gang? v.1 = some h ∧ h.sched.active = false)) := by
  intro act
  have hcond : (!g.sched.active && !gangWaiting s g && decide (g.sched.waitSince + 4096 ≤ s.cycle)) = true := by
    simp [ha, hw, hs]
  rw [exec_entryBoost, execEntryBoost, hg]
  simp only [hcond, if_true]
  by_cases hl : act.length < 8
  · refine ⟨setActive s k true, g.placed s.cycle true, by rw [if_pos hl], setActive_byte s k true, ?_, rfl, rfl, rfl,
      fun _ j hj => by rw [setActive_gang, if_neg hj], fun h => absurd h (Nat.not_le.mpr hl)⟩
    rw [setActive_gang, if_pos rfl, hg]
    rfl
  · have hne : act ≠ [] := fun h => hl (by rw [h]; exact Nat.zero_lt_succ 7)
    obtain ⟨v, hv⟩ := bestGang_ne_none hne displacedBefore
    obtain ⟨hmem, hmin⟩ := bestGang_displaced hv
    have hgk : ∃ x, (setActive s v.1 false).gang? k = some x ∧ x.regs = g.regs ∧ x.splits = g.splits := by
      rw [setActive_gang, hg]
      split
      · exact ⟨_, rfl, rfl, rfl⟩
      · exact ⟨_, rfl, rfl, rfl⟩
    obtain ⟨x, hx, hxr, hxs⟩ := hgk
    refine ⟨setActive (setActive s v.1 false) k true, x.placed (setActive s v.1 false).cycle true, ?_,
      fun a => (setActive_byte ..).trans (setActive_byte ..), ?_, rfl, hxr, hxs, fun h => absurd h hl, fun _ => ⟨v, hmem, hmin,
      fun j hj hjv => ?_, fun hvk y hy => ?_⟩⟩
    · rw [if_neg hl, hv]
    · rw [setActive_gang, if_pos rfl, hx]
      rfl
    · rw [setActive_gang, if_neg hj, setActive_gang, if_neg hjv]
    · exact ⟨y.placed s.cycle false, by rw [setActive_gang, if_neg hvk, setActive_gang, if_pos rfl, hy]; rfl, rfl⟩

/-- A word that is no instruction takes the ILLEGAL trap (R40, R65). -/
theorem illegalInstruction_traps {key : Nat} {sp : Split} {m : Option Nat} (h : Issues s key g sp b) (c : Clear s key b g sp {})
    (hf : fetch s b sp.pc = .illegal m) :
    ∃ t, exec .illegalInstruction s = .next t ∧ Trapped s t key g b sp.pc 1 0 0 sp.exm m := by
  have hi : illegalSkip s key = some m := by
    simp [illegalSkip, fetchGang, h.gang, h.split, h.block, hf]
  have hr : (illegalSkip s key).isSome = true := by rw [hi]; rfl
  rw [exec_illegalInstruction, execIllegalInstruction]
  refine ⟨_, issueWhen_next h c hr, ?_⟩
  rw [if_neg (by simp [namesPending]), stepWindows_exm, hi]
  exact takeTrap_trapped h.gang h.split h.block ..

/-- Settles O48: a piece of a region, a block's start and its end each by what its own step leaves, and the timers by what they
change in a gang's entry. -/
theorem blocksAndScheduling : Obligations.BlocksAndScheduling := by
  unfold Obligations.BlocksAndScheduling
  refine ⟨fun n s b i off r x p hd hb hp hr hx ho ha hrd => ?_, fun n s b i off r x y hd hb hp hr hx ha => ?_,
    fun n s b i off r c hd hb hp hr hi hc => ?_, fun n s b hb hp hg ha => ?_, fun k s g hg => ?_, fun k s g hg => ?_,
    fun k s g hg ha hw hs => entryBoost_enters hg ha hw hs, fun s key g sp b n h c hf => illegalInstruction_traps h c hf⟩
  · exact ⟨_, regionStaging_stages hd hb hp hr hx, stagePiece_stands ho ha hrd⟩
  · obtain ⟨l, hl, -⟩ := Option.bind_eq_some_iff.mp hr
    have e : stagePiece s n b x i off = regionFault s n b (dw (x.gaddr + off)) := by
      unfold stagePiece
      dsimp only
      rw [ha]
    exact ⟨_, regionStaging_stages hd hb hp hr hx, e ▸ regionFault_ends hl _⟩
  · obtain ⟨u, y, z, e⟩ := foldl_startGang_only b r (blockGangs b n) (s.setBlock n { b with phase := .running })
    refine ⟨_, exec_gangStart_starts hd hb hp hr hi, fun a => by rw [e]; rfl, fun a => by rw [e]; rfl,
      by rw [e]; exact setBlock_block_self s .., fun k hk g hg => ?_⟩
    obtain ⟨u, tag, h⟩ := foldl_startGang_gang (s := s.setBlock n { b with phase := .running }) b r (blockGangs_nodup b n) hc hk hg
    obtain ⟨sp, ht⟩ := started_table g b r u tag s.cycle
    exact ⟨_, sp, h, ht⟩
  · obtain ⟨h1, h2, h3⟩ := blockRetired_gone s n b
    refine ⟨_, exec_blockRetire_retires hb hp hg ha, h1, h2, h3, fun l r c hl hr he hw hc hk hkl hbk hpl ht hacc hd => ?_⟩
    rw [blockRetired_unkilled hbk]
    exact blockGone_last hl hr he hw hc hk hkl hpl ht hacc hd
  · obtain ⟨h1, h2⟩ := modGang_frame s k fun g => if fairOver g then fairExpire g else g
    have h3 := modGang_some hg fun g => if fairOver g then fairExpire g else g
    obtain ⟨c1, c2, c3⟩ := fairExpire_cases g
    refine ⟨_, rfl, h1, h2, fun h i hi => ?_, fun h => h3.trans (congrArg some (c2 h)), fun ha hb => h3.trans (congrArg some (c3 ha hb))⟩
    obtain ⟨d1, d2, d3, d4⟩ := c1 h i hi
    refine ⟨fun a => h3.trans (congrArg some (d1 a)), fun a b => h3.trans (congrArg some (d2 a b)),
      fun a n hn b => h3.trans (congrArg some (d3 a n hn b)), fun a n hn b => ?_⟩
    obtain ⟨e1, e2⟩ := clearCurResv_resv g
    exact ⟨_, i, h3.trans (congrArg some (d4 a n hn b)), rfl, hi, rfl, rfl, e1, e2⟩
  · obtain ⟨h1, h2⟩ := modGang_frame s k fun g =>
      if g.sched.active && !gangWaiting s g && decide (g.sched.lastIssue + 4096 ≤ s.cycle) then
        { g with sched := { g.sched with boost := true } } else g
    refine ⟨_, rfl, h1, h2, (modGang_some hg _).trans (congrArg some ?_)⟩
    split
    · next h => rw [h, Bool.or_true]
    · next h => rw [Bool.eq_false_of_not_eq_true h, Bool.or_false]

end Sys2Proof.Machine
end

section
/-! Kicks, queue entries, launch records, wait conditions and placement (O47). -/

namespace Sys2Proof.Machine

set_option Elab.async false

variable {s t : State} {n u : Nat} {l : Launch} {p c : Loc} {r : LRec}

-- What an end of a launch and a validation leave of the queues.

/-- Neither a queue nor a launch changes. -/
def SameFronts (s t : State) : Prop := t.queues = s.queues ∧ t.launches = s.launches

theorem SameFronts.trans {v : State} (a : SameFronts s t) (b : SameFronts t v) : SameFronts s v :=
  ⟨b.1.trans a.1, b.2.trans a.2⟩

theorem SameFronts.cmd (h : SameFronts s t) (hc : ∀ l, s.launch? u = some l → l.cmd = none) : ∀ l, t.launch? u = some l → l.cmd = none :=
  fun l hl => hc l (by rw [← hl, State.launch?, State.launch?, h.2])

theorem HomeOnly.fronts (h : HomeOnly s t) : SameFronts s t := by
  obtain ⟨m, c, p, e, rfl⟩ := h.rest
  exact ⟨rfl, rfl⟩

theorem HubWaits.fronts (h : HubWaits s t) : SameFronts s t := by
  obtain ⟨w, x, y, z, rfl⟩ := h.rest
  exact ⟨rfl, rfl⟩

/-- The NOTICE of a launch changes its ring and what waits for its records. -/
theorem launchNotice_only (s : State) (l : Launch) (cause : Nat) (b : Option Nat) (f : Option DWord) :
    ∃ x y z, launchNotice s l cause b f = { s with rings := x, waits := y, gangs := z } := postRec_only ..

theorem completeLaunch_queues (hc : ∀ l, s.launch? u = some l → l.cmd = none) : (completeLaunch s u).queues = s.queues := by
  unfold completeLaunch
  split
  · rfl
  · next l hl =>
    split
    · rfl
    · dsimp only
      split
      · rw [endLaunchCmd, hc l hl]
        obtain ⟨m, c, p, e, g, h⟩ := (writes_hubWrite s _ l.ctx (completionBytes s l)).rest
        rw [h]
      · next h => exact (hubAccess_wait h).fronts.1
      · rw [endLaunchCmd, hc l hl]
        obtain ⟨x, y, z, h⟩ := launchNotice_only s l 10 none (some (dw (l.compl.toNat / 64 * 64)))
        rw [h]

theorem endLaunch_queues (hc : ∀ l, s.launch? u = some l → l.cmd = none) (st cause : Nat) (fail : Option DWord) :
    (endLaunch s u st cause fail).queues = s.queues := by
  unfold endLaunch
  split
  · rfl
  · next l hl =>
    dsimp only
    obtain ⟨x, y, z, h⟩ := launchNotice_only (s.setLaunch u { l with ended := some st }) { l with ended := some st } cause none fail
    rw [h, completeLaunch_queues]
    · rfl
    · intro l' hl'
      have e : some { l with ended := some st } = some l' := (setLaunch_launch_self s ..).symm.trans hl'
      cases e
      exact hc l hl

theorem tablePlaces_fronts (ctx u : Nat) (l : List DWord) (s : State) (acc : List Nat) :
    SameFronts s (tablePlaces ctx u s l acc).1 ∧ ∀ t a, (tablePlaces ctx u s l acc).2 = .inr (.wait t, a) → SameFronts s t := by
  induction l generalizing s acc with
  | nil => exact ⟨⟨rfl, rfl⟩, fun _ _ h => by cases h⟩
  | cons a r ih =>
    unfold tablePlaces
    split
    · next p _ =>
      have h := (homeOnly_readSectors s ctx p.addr 16).fronts
      dsimp only
      split
      · exact ⟨h, fun _ _ h => by cases h⟩
      · obtain ⟨h1, h2⟩ := ih (readSectors s ctx p.addr 16).1 (acc ++ [p.addr])
        exact ⟨h.trans h1, fun t a ht => h.trans (h2 t a ht)⟩
    · refine ⟨⟨rfl, rfl⟩, fun t a' ht => ?_⟩
      cases h : hubAccess s ctx true false a 1 u 5 with
      | ok p => next hne => exact absurd h (hne p)
      | wait t' =>
        rw [h] at ht
        cases ht
        exact (hubAccess_wait h).fronts
      | bad x =>
        rw [h] at ht
        cases ht

theorem acceptLaunch_queues (hc : ∀ l, s.launch? u = some l → l.cmd = none) (l : Launch) (r : RawRec) (rs : List Region) :
    (acceptLaunch s u l r rs).queues = s.queues := by
  unfold acceptLaunch
  dsimp only
  split
  · exact endLaunch_queues hc ..
  · split
    · exact endLaunch_queues hc ..
    · rfl

/-- The validation of a launch that no command waits for changes no queue. -/
theorem validate_queues (hc : ∀ l, s.launch? u = some l → l.cmd = none) : (validate s u).queues = s.queues := by
  unfold validate
  split
  · rfl
  · next l hl =>
    split
    · rfl
    · split
      · exact endLaunch_queues hc ..
      · split
        · next h => exact (hubAccess_wait h).fronts.1
        · exact endLaunch_queues hc ..
        · next p _ =>
          have h1 := (homeOnly_readSectors s l.ctx p.addr 128).fronts
          dsimp only
          generalize (readSectors s l.ctx p.addr 128).1 = t at h1
          have hct := h1.cmd hc
          split
          · exact (endLaunch_queues hct ..).trans h1.1
          · split
            · exact (endLaunch_queues hct ..).trans h1.1
            · obtain ⟨h2, h3⟩ := tablePlaces_fronts l.ctx u
                ((List.range (readRecord t p.addr).nreg).map fun i => dw ((readRecord t p.addr).regtab + 16 * i)) t []
              generalize tablePlaces l.ctx u t _ [] = q at h2 h3
              have hcq := h2.cmd hct
              split
              · exact (acceptLaunch_queues hcq ..).trans (h1.trans h2).1
              · next h => exact (h1.trans (h3 _ _ h)).1
              · exact (endLaunch_queues hcq ..).trans (h1.trans h2).1

-- Kicks (R152, R154, R226).

/-- The clause of KICK. -/
theorem kick_clauses (vf word size : Nat) (v : DWord) (s : State) :
    (∀ n, (vfQueues s vf)[word]? = some n → size = 8 → scaleOut s n = false →
      ∃ t, exec (.kick vf word size v) s = .next t ∧ (∀ a, t.byte a = s.byte a) ∧
        t.queue n = { s.queue n with tail := v.truncate 32, pending := true } ∧ ∀ m, m ≠ n → t.queue m = s.queue m) ∧
    ((vfQueues s vf)[word]? = none ∨ size ≠ 8 → exec (.kick vf word size v) s = .next s) := by
  rw [exec_kick, execKick]
  refine ⟨fun n hn hs ho => ?_, fun h => ?_⟩
  · refine ⟨s.setQueue n { s.queue n with tail := v.truncate 32, pending := true }, by simp [hn, hs, ho], fun _ => rfl,
      setQueue_queue_self .., fun m hm => by rw [setQueue_queue, if_neg hm]⟩
  · split
    · rfl
    · next hn => rw [if_pos (by simp [h.resolve_left (by simp [hn])])]

/-- A dispatcher that is not ready does nothing (R407). -/
theorem dispatcher_idle (h : dispatcherReady s = false) (n : Nat) :
    exec (.takeEntry n) s = .next s ∧ exec (.waitConditionPoll n) s = .next s ∧
      (∀ q0 scr tag, exec (.placement q0 scr tag) s = .next s) ∧ exec (.regionStaging n) s = .next s ∧
      exec (.gangStart n) s = .next s := by
  refine ⟨?_, ?_, fun _ _ _ => ?_, ?_, ?_⟩
  · rw [exec_takeEntry, execTakeEntry]; simp [h]
  · rw [exec_waitConditionPoll, execWaitConditionPoll]; simp [h]
  · rw [exec_placement, execPlacement]; simp [h]
  · rw [exec_regionStaging, execRegionStaging]; simp [h]
  · rw [exec_gangStart, execGangStart]; simp [h]

-- The next entry of a host queue (R153).

/-- The queue as its examination leaves it (R154). -/
def HQueue.seen (q : HQueue) : HQueue := { q with pending := false }

/-- TAKE_ENTRY of a host queue without a launch at its front, its context scheduled. -/
theorem takeEntry_host (hf : frontOf s n = none) (hn : n < 1024) (hd : dispatcherReady s = true)
    (hs : scheduled s (s.queue n).ctx = true) :
    exec (.takeEntry n) s = .next (takeHost (s.setQueue n (s.queue n).seen) n) := by
  rw [exec_takeEntry, execTakeEntry, examine]
  simp only [hd, hn, hs, Bool.not_true, Bool.false_eq_true, if_false, if_true]
  rw [show frontOf (s.setQueue n { s.queue n with pending := false }) n = none from hf]
  rfl

theorem takeHost_empty (he : (s.queue n).en = true) (hh : (s.queue n).halt = false) (hs : scheduled s (s.queue n).ctx = true)
    (hw : ((s.queue n).tail - (s.queue n).head).toNat = 0) : takeHost s n = s := by
  unfold takeHost
  simp only [he, hh, hs, hw, Bool.not_true, Bool.or_self, Bool.false_eq_true, if_false, if_true]

theorem takeHost_halts (he : (s.queue n).en = true) (hh : (s.queue n).halt = false) (hs : scheduled s (s.queue n).ctx = true)
    (hw : 2 ^ (s.queue n).log2n < ((s.queue n).tail - (s.queue n).head).toNat) : takeHost s n = haltQueue s n 3 [] := by
  have h0 : ((s.queue n).tail - (s.queue n).head).toNat ≠ 0 := (Nat.lt_of_le_of_lt (Nat.zero_le _) hw).ne'
  unfold takeHost
  simp only [he, hh, hs, hw, h0, Bool.not_true, Bool.or_self, Bool.false_eq_true, if_false, if_true]

/-- An entry that can be read: HEAD passes it. -/
theorem takeHost_passes (he : (s.queue n).en = true) (hh : (s.queue n).halt = false) (hs : scheduled s (s.queue n).ctx = true)
    (h0 : ((s.queue n).tail - (s.queue n).head).toNat ≠ 0)
    (hw : ((s.queue n).tail - (s.queue n).head).toNat ≤ 2 ^ (s.queue n).log2n)
    (ha : hubAccess s (s.queue n).ctx true false
      ((s.queue n).qbase + dw (64 * ((s.queue n).head.toNat % 2 ^ (s.queue n).log2n))) 0 n 5 = .ok p)
    (hr : (readSectors s (s.queue n).ctx p.addr 64).2 = none) :
    (takeHost s n).queue n = { s.queue n with head := (s.queue n).head + 1 } := by
  have key : ∀ t : State, t.queues = ((readSectors s (s.queue n).ctx p.addr 64).1.setQueue n
      { s.queue n with head := (s.queue n).head + 1 }).queues → t.queue n = { s.queue n with head := (s.queue n).head + 1 } :=
    fun t ht => by
      rw [State.queue, ht]
      exact setQueue_queue_self ..
  apply key
  unfold takeHost
  simp only [he, hh, hs, h0, Nat.not_lt.mpr hw, ha, hr, Bool.not_true, Bool.or_self, Bool.false_eq_true, if_false,
    Option.isSome_none]
  generalize (readSectors s (s.queue n).ctx p.addr 64).1.setQueue n _ = t
  generalize hl : newLaunch _ n _ _ _ none = l
  have hc : ∀ l', ({ t with uid := t.uid + 1, launches := tput none t.launches t.uid (some l) } : State).launch? t.uid = some l' →
      l'.cmd = none := fun l' h => by
    have e : some l = some l' := (tget_tput_self none t.launches t.uid (some l)).symm.trans h
    cases e
    rw [← hl]
    rfl
  split
  · exact endLaunch_queues hc ..
  · exact validate_queues hc

/-- A queue that halts, with its NOTICE on the physical function's ring. -/
theorem haltQueue_halts (s : State) (n cause : Nat) (addrs : List DWord) :
    (haltQueue s n cause addrs).queue n = { s.queue n with halt := true, pending := false } ∧
      (∀ a, (haltQueue s n cause addrs).byte a = s.byte a) ∧
      ((s.ring 64).pend.length < 64 → ∃ r, Posted s (haltQueue s n cause addrs) 64 r ∧ r.cls = 3 ∧ r.cause = cause ∧ r.aux = dw n) := by
  unfold haltQueue notice
  dsimp only
  generalize hr : ({ baseRec _ _ _ with cause := cause, sub := 0, aux := dw n, addrs := addrs } : FRec) = r
  obtain ⟨x, y, z, e⟩ := postRec_only (s.setQueue n { s.queue n with halt := true, pending := false }) 64 r
  refine ⟨?_, fun a => ?_, fun h => ?_⟩
  · rw [e]
    exact setQueue_queue_self s ..
  · rw [e]
    rfl
  · obtain ⟨-, -, -, q, -, hp⟩ := postRec_posted (s.setQueue n { s.queue n with halt := true, pending := false }) 64 r (.inr h)
    exact ⟨_, hp, by rw [← hr]; rfl, by rw [← hr], by rw [← hr]⟩

/-- The clause of TAKE_ENTRY at a host queue. -/
theorem takeEntry_clauses (hf : frontOf s n = none) (hn : n < 1024) (hd : dispatcherReady s = true) :
    let q := s.queue n
    let w := (q.tail - q.head).toNat
    let va := q.qbase + dw (64 * (q.head.toNat % 2 ^ q.log2n))
    q.en = true → q.halt = false → scheduled s q.ctx = true →
      (w = 0 → ∃ t, exec (.takeEntry n) s = .next t ∧ t.queue n = { q with pending := false } ∧ ∀ a, t.byte a = s.byte a) ∧
      (2 ^ q.log2n < w → ∃ t, exec (.takeEntry n) s = .next t ∧ t.queue n = { q with halt := true, pending := false } ∧
        (∀ a, t.byte a = s.byte a) ∧ ((s.ring 64).pend.length < 64 →
          ∃ r, Posted s t 64 r ∧ r.cls = 3 ∧ r.cause = 3 ∧ r.aux = dw n)) ∧
      (w ≠ 0 → w ≤ 2 ^ q.log2n → ∀ p, hubAccess s q.ctx true false va 0 n 5 = .ok p → (readSectors s q.ctx p.addr 64).2 = none →
        ∃ t, exec (.takeEntry n) s = .next t ∧ t.queue n = { q with head := q.head + 1, pending := false }) := by
  intro q w va he hh hs
  rw [takeEntry_host hf hn hd hs]
  have hq : (s.setQueue n q.seen).queue n = q.seen := setQueue_queue_self ..
  have he' : ((s.setQueue n q.seen).queue n).en = true := by rw [hq]; exact he
  have hh' : ((s.setQueue n q.seen).queue n).halt = false := by rw [hq]; exact hh
  have hs' : scheduled (s.setQueue n q.seen) ((s.setQueue n q.seen).queue n).ctx = true := by rw [hq]; exact hs
  refine ⟨fun hw => ⟨_, rfl, ?_, ?_⟩, fun hw => ⟨_, rfl, ?_, ?_, fun hl => ?_⟩, fun h0 hw p ha hr => ⟨_, rfl, ?_⟩⟩
  · rw [takeHost_empty he' hh' hs' (by rw [hq]; exact hw)]
    exact hq
  · rw [takeHost_empty he' hh' hs' (by rw [hq]; exact hw)]
    exact fun _ => rfl
  · rw [takeHost_halts he' hh' hs' (by rw [hq]; exact hw), (haltQueue_halts ..).1, hq]
    rfl
  · rw [takeHost_halts he' hh' hs' (by rw [hq]; exact hw)]
    exact (haltQueue_halts ..).2.1
  · rw [takeHost_halts he' hh' hs' (by rw [hq]; exact hw)]
    exact (haltQueue_halts (s.setQueue n q.seen) n 3 []).2.2 hl
  · rw [takeHost_passes he' hh' hs' (by rw [hq]; exact h0) (by rw [hq]; exact hw) (p := p), hq]
    · rfl
    · rw [hq]
      exact hubAccess_ok_of ha ⟨_, _, _, _, _, rfl⟩
    · rw [hq]
      exact (congrArg Prod.snd (readSectors_queues _ s q.ctx p.addr 64)).trans hr

-- A launch record (R25).

theorem readPhys_eq (h : ∀ a, t.byte a = s.byte a) (a n : Nat) : t.readPhys a n = s.readPhys a n := by
  simp only [State.readPhys, h]

theorem readRecord_eq (h : ∀ a, t.byte a = s.byte a) (a : Nat) : readRecord t a = readRecord s a := by
  simp only [readRecord, readPhys_eq h]

theorem leValue_lt (f : Nat → Byte) (n : Nat) : leValue f n < 256 ^ n := by
  induction n with
  | zero => exact Nat.one_pos
  | succ n ih =>
    have h : 256 ^ n * (f n).toNat ≤ 256 ^ n * 255 := Nat.mul_le_mul_left _ (Nat.le_of_lt_succ (f n).isLt)
    rw [leValue, Nat.pow_succ]
    omega

/-- A number of 8 bytes is a word of 64 bits. -/
theorem dw_readPhys (s : State) (a : Nat) : (dw (s.readPhys a 8)).toNat = s.readPhys a 8 := by
  exact (BitVec.toNat_ofNat ..).trans (Nat.mod_eq_of_lt (Nat.lt_of_lt_of_eq (leValue_lt ..) (by norm_num)))

/-- What the front of a queue is: a launch that still holds it. -/
theorem frontOf_some {e : Nat × Launch} (h : frontOf s n = some e) : e.2.ended = none ∧ e.2.holds = true := by
  have h := List.find?_some h
  simp only [Bool.and_eq_true, Launch.holds, Option.isNone_iff_eq_none] at h
  simp only [Launch.holds, Bool.and_eq_true, Option.isNone_iff_eq_none]
  exact ⟨h.2.1, h.2⟩

/-- TAKE_ENTRY of a queue with a launch at its front: that launch's validation goes on. -/
theorem takeEntry_front (hf : frontOf s n = some (u, l)) (hd : dispatcherReady s = true) :
    ∃ x, exec (.takeEntry n) s = .next (validate { s with queues := x } u) := by
  rw [exec_takeEntry, execTakeEntry]
  simp only [hd, Bool.not_true, Bool.false_eq_true, if_false]
  by_cases hn : n < 1024
  · rw [if_pos hn, examine]
    dsimp only
    by_cases hs : scheduled s (s.queue n).ctx = true
    · rw [if_pos hs, show frontOf (s.setQueue n { s.queue n with pending := false }) n = some (u, l) from hf]
      exact ⟨_, rfl⟩
    · rw [if_neg hs, hf]
      exact ⟨s.queues, rfl⟩
  · rw [if_neg hn, hf]
    exact ⟨s.queues, rfl⟩

section
variable (hl : s.launch? u = some l) (hb : l.body = none) (he : l.ended = none) (h128 : l.record.toNat % 128 = 0)
  (ha : hubAccess s l.ctx true false l.record 1 u 5 = .ok p) (hr : (readSectors s l.ctx p.addr 128).2 = none) (x : Tab HQueue)
include hl hb he h128 ha hr

/-- A launch whose record can be read and breaks a rule. -/
theorem validate_bad (hbad : badRecord (readRecord s p.addr) = true) : validate { s with queues := x } u =
    endLaunch { (readSectors s l.ctx p.addr 128).1 with queues := x } u stInvalid 1 none := by
  have hb1 (a : Nat) : ({ (readSectors s l.ctx p.addr 128).1 with queues := x } : State).byte a = s.byte a :=
    (homeOnly_readSectors s l.ctx p.addr 128).still.byte a
  unfold validate
  rw [show ({ s with queues := x } : State).launch? u = some l from hl]
  simp only [hb, he, h128, hubAccess_ok_of (t := { s with queues := x }) ha ⟨_, _, _, _, _, rfl⟩, readSectors_queues, hr, hbad,
    Option.isSome_none, Bool.or_self, Bool.false_eq_true, if_false, ne_eq, not_true_eq_false, if_true, readRecord_eq hb1]

/-- A launch whose record can be read, breaks no rule and has no regions. -/
theorem validate_plain (hgood : badRecord (readRecord s p.addr) = false) (hn : (readRecord s p.addr).nreg = 0) :
    validate { s with queues := x } u =
      acceptLaunch { (readSectors s l.ctx p.addr 128).1 with queues := x } u l (readRecord s p.addr) [] := by
  have hb1 (a : Nat) : ({ (readSectors s l.ctx p.addr 128).1 with queues := x } : State).byte a = s.byte a :=
    (homeOnly_readSectors s l.ctx p.addr 128).still.byte a
  unfold validate
  rw [show ({ s with queues := x } : State).launch? u = some l from hl]
  simp only [hb, he, h128, hubAccess_ok_of (t := { s with queues := x }) ha ⟨_, _, _, _, _, rfl⟩, readSectors_queues, hr, hgood,
    Option.isSome_none, Bool.or_self, Bool.false_eq_true, if_false, ne_eq, not_true_eq_false, readRecord_eq hb1, hn, List.range_zero,
    List.map_nil, tablePlaces, readRegions]

end

/-- What R25 asks of a record that breaks no rule: the lanes of its block, and the number of its wait conditions. -/
theorem badRecord_bounds {r : RawRec} (h : badRecord r = false) : shapeLanes r.shape ≤ 1024 ∧ r.nwait ≤ 4 := by
  simp only [badRecord, Bool.or_eq_false_iff, decide_eq_false_iff_not, not_lt] at h
  omega

/-- The body of a launch from its record (R23). -/
def RawRec.body (r : RawRec) (regions : List Region) : LRec :=
  { entry := dw r.entry, args := dw r.args, gx := r.gx, gy := r.gy, gz := r.gz, bx := bitsOf r.shape 9 0,
    bky := bitsOf r.shape 19 10, bz := bitsOf r.shape 29 20, need := r.need, regions := regions }

/-- The wait conditions of a launch from its record (R23). -/
def RawRec.conds (r : RawRec) : List WaitCond :=
  (r.waits.take r.nwait).map fun w => { addr := w.1.toNat / 8 * 8, op := bitsOf w.1 2 0, value := w.2, latched := false }

/-- A launch without regions that fits a partition of its context is taken. -/
theorem acceptLaunch_takes {r : RawRec} (l : Launch)
    (hf : ∃ x ∈ partsOf s l.ctx, couldFit s x r.need (gangCount (shapeLanes r.shape)) = true) :
    acceptLaunch s u l r [] = s.setLaunch u { l with body := some (r.body []), waits := r.conds } := by
  have h1 : badRegions r.need [] = false := rfl
  have h2 : (partsOf s l.ctx).any (fun p => couldFit s p r.need (gangCount (shapeLanes r.shape))) = true := List.any_eq_true.mpr hf
  unfold acceptLaunch
  simp only [h1, h2, Bool.false_eq_true, if_false, Bool.not_true]
  rfl

theorem Posted.congr {ring : Nat} {r : FRec} {s' t' : State} (h : Posted s t ring r) (h1 : s'.ring ring = s.ring ring)
    (h2 : s'.stamp = s.stamp) (h3 : t'.ring ring = t.ring ring) : Posted s' t' ring r := by
  unfold Posted at h ⊢
  rwa [h1, h2, h3]

/-- A launch with the status it ends with. -/
def Launch.endsAs (l : Launch) (st : Nat) : Launch := { l with ended := some st }

/-- A launch that ends before its record is taken: its STATUS is written, it is gone, and a NOTICE is posted. -/
theorem endLaunch_ends (hl : s.launch? u = some l) (hb : l.body = none) (hw : l.written = false) (hc : l.cmd = none)
    (st cause : Nat) (hst : st < 256)
    (ha : hubAccess s l.ctx false true (dw (l.compl.toNat / 64 * 64)) 3 u 5 = .ok c)
    (hd : ∀ a, DirtyAt s c a → a < c.addr ∨ c.addr + 64 ≤ a) :
    (endLaunch s u st cause none).launch? u = none ∧ (endLaunch s u st cause none).readPhys c.addr 4 = st ∧
      ((s.ring (ringOf s l.ctx)).pend.length < 64 → ∃ x, Posted s (endLaunch s u st cause none) (ringOf s l.ctx) x ∧
        x.cls = 3 ∧ x.cause = cause ∧ x.sub = st ∧ x.addrs = [l.record, l.compl]) := by
  have e1 : endLaunch s u st cause none =
      completeLaunch (launchNotice (s.setLaunch u (l.endsAs st)) (l.endsAs st) cause none none) u := by
    rw [endLaunch, hl]
    rfl
  rw [e1]
  obtain ⟨x, y, z, e⟩ := launchNotice_only (s.setLaunch u (l.endsAs st)) (l.endsAs st) cause none none
  have hl' : (launchNotice (s.setLaunch u (l.endsAs st)) (l.endsAs st) cause none none).launch? u =
      some (l.endsAs st) := by
    rw [e]
    exact setLaunch_launch_self s ..
  have ho : (l.endsAs st).over = true := by
    unfold Launch.over Launch.endsAs
    simp only [hb]
    rfl
  have ha' : hubAccess (launchNotice (s.setLaunch u (l.endsAs st)) (l.endsAs st) cause none none) l.ctx
      false true (dw (l.compl.toNat / 64 * 64)) 3 u 5 = .ok c := hubAccess_ok_of ha ⟨z, _, _, x, y, e⟩
  have hd' (a : Nat) (h : DirtyAt (launchNotice (s.setLaunch u (l.endsAs st)) (l.endsAs st) cause none none)
      c a) : a < c.addr ∨ c.addr + 64 ≤ a := by
    rw [e] at h
    exact hd a h
  obtain ⟨h1, -, h2, -⟩ := completeLaunch_record hl' ho hw hc ha' hd'
  refine ⟨h1, h2.trans (Nat.mod_eq_of_lt (Nat.lt_trans hst (by norm_num))), fun hlen => ?_⟩
  obtain ⟨-, -, -, q, -, hp⟩ := postRec_posted (s.setLaunch u (l.endsAs st)) (ringOf s l.ctx)
    { baseRec (s.setLaunch u (l.endsAs st)) (ringOf s l.ctx) l.ctx with
      cause := cause, sub := st, block := 2 ^ 96 - 1, addrs := [l.record, l.compl] ++ [] } (.inr hlen)
  refine ⟨_, hp.congr rfl rfl ?_, rfl, rfl, rfl, rfl⟩
  rw [completeLaunch_ok hl' ho hw hc ha']
  exact congrArg (tget _ · _) (writes_hubWrite ..).keeps.rings

/-- The clause of TAKE_ENTRY with a launch at the front. -/
theorem takeEntry_validates (hf : frontOf s n = some (u, l)) (hl : s.launch? u = some l) (hb : l.body = none)
    (h128 : l.record.toNat % 128 = 0) (hd : dispatcherReady s = true)
    (ha : hubAccess s l.ctx true false l.record 1 u 5 = .ok p) (hr : (readSectors s l.ctx p.addr 128).2 = none) :
    let r := readRecord s p.addr
    (badRecord r = false → r.nreg = 0 → (∃ x ∈ partsOf s l.ctx, couldFit s x r.need (gangCount (shapeLanes r.shape)) = true) →
      ∃ t l' x, exec (.takeEntry n) s = .next t ∧ (∀ a, t.byte a = s.byte a) ∧ t.launch? u = some l' ∧ l'.body = some x ∧
        x.entry.toNat = s.readPhys p.addr 8 ∧ x.args.toNat = s.readPhys (p.addr + 8) 8 ∧ x.gx = s.readPhys (p.addr + 16) 4 ∧
        x.gy = s.readPhys (p.addr + 20) 4 ∧ x.gz = s.readPhys (p.addr + 24) 4 ∧ x.regions = [] ∧ l'.next = l.next ∧
        (x.bx + 1) * (x.bky + 1) * (x.bz + 1) ≤ 1024 ∧ l'.waits.length = r.nwait ∧ l'.ended = none) ∧
    (badRecord r = true → l.cmd = none → l.written = false → ∀ c,
        hubAccess (readSectors s l.ctx p.addr 128).1 l.ctx false true (dw (l.compl.toNat / 64 * 64)) 3 u 5 = .ok c →
        (∀ a, DirtyAt s c a → a < c.addr ∨ c.addr + 64 ≤ a) →
      ∃ t, exec (.takeEntry n) s = .next t ∧ t.launch? u = none ∧ t.readPhys c.addr 4 = 2 ∧
        ((s.ring (ringOf s l.ctx)).pend.length < 64 → ∃ x, Posted s t (ringOf s l.ctx) x ∧
          x.cls = 3 ∧ x.cause = 1 ∧ x.sub = 2 ∧ x.addrs = [l.record, l.compl])) := by
  intro r
  have he : l.ended = none := (frontOf_some hf).1
  obtain ⟨x, e⟩ := takeEntry_front hf hd
  have hh := homeOnly_readSectors s l.ctx p.addr 128
  rw [e]
  refine ⟨fun hgood hn hfit => ?_, fun hbad hc hw c hacc hdirty => ?_⟩
  · rw [validate_plain hl hb he h128 ha hr x hgood hn]
    obtain ⟨hs, hwait⟩ := badRecord_bounds hgood
    obtain ⟨m, co, pf, en, hrest⟩ := hh.rest
    rw [acceptLaunch_takes (s := { (readSectors s l.ctx p.addr 128).1 with queues := x }) l (by rw [hrest]; exact hfit)]
    refine ⟨_, _, _, rfl, hh.still.byte, setLaunch_launch_self .., rfl, dw_readPhys .., dw_readPhys .., rfl, rfl, rfl, rfl, rfl, hs, ?_,
      he⟩
    have h4 : r.waits.length = 4 := by simp [r, readRecord]
    show ((r.waits.take r.nwait).map _).length = r.nwait
    rw [List.length_map, List.length_take, h4, Nat.min_eq_left hwait]
  · rw [validate_bad hl hb he h128 ha hr x hbad]
    obtain ⟨m, co, pf, en, hrest⟩ := hh.rest
    rw [hrest] at hacc ⊢
    obtain ⟨h1, h2, h3⟩ := endLaunch_ends
      (s := { s with mem := m, core := co, pf := pf, energy := en, queues := x }) hl hb hw hc stInvalid 1 (by decide)
      (hubAccess_ok_of hacc ⟨_, _, _, _, _, rfl⟩) hdirty
    exact ⟨_, rfl, h1, h2, h3⟩

-- Wait conditions (R26).

/-- A wait condition of a launch read, where its word can be. -/
theorem pollOne_reads {w : WaitCond} (hl : s.launch? u = some l) (hw : l.waits = [w]) (hu : w.latched = false) (he : l.ended = none)
    (ha : hubAccess s l.ctx true false (dw w.addr) 1 u 5 = .ok p) (hr : (readSectors s l.ctx p.addr 8).2 = none) :
    (∀ a, (pollOne s u 0).byte a = s.byte a) ∧ (pollOne s u 0).launch? u =
      some { l with waits := [{ w with latched := waitHolds w (dw (s.readPhys p.addr 8)) }] } := by
  have hh := homeOnly_readSectors s l.ctx p.addr 8
  have hrp := readPhys_eq hh.still.byte p.addr 8
  have h0 : l.waits[0]? = some w := by rw [hw]; rfl
  unfold pollOne
  simp only [hl, h0, hu, he, ha, hr, Option.isSome_none, Bool.or_self, Bool.false_eq_true, if_false, hrp]
  cases hk : waitHolds w (dw (s.readPhys p.addr 8)) with
  | true =>
    refine ⟨hh.still.byte, ?_⟩
    rw [if_pos rfl, setLaunch_launch_self, hw]
    rfl
  | false =>
    refine ⟨hh.still.byte, ?_⟩
    rw [if_neg Bool.false_ne_true]
    refine (show _ = some l from ?_).trans ?_
    · rw [State.launch?, hh.fronts.2]
      exact hl
    · have e : ({ w with latched := false } : WaitCond) = w := by rw [← hu]
      rw [e, ← hw, ← he]

/-- A condition that is not there is not read. -/
theorem pollOne_absent {i : Nat} (hl : s.launch? u = some l) (hi : l.waits[i]? = none) : pollOne s u i = s := by
  unfold pollOne
  rw [hl]
  dsimp only
  rw [hi]

/-- What the operations of Table 4 ask of a word. -/
theorem waitHolds_table (w : WaitCond) (x : Nat) (hx : (dw x).toNat = x) :
    (w.op = 0 → (waitHolds w (dw x) = true ↔ x = w.value.toNat)) ∧ (w.op = 1 → (waitHolds w (dw x) = true ↔ x ≠ w.value.toNat)) ∧
    (w.op = 2 → (waitHolds w (dw x) = true ↔ w.value.toNat ≤ x)) ∧ (w.op = 3 → (waitHolds w (dw x) = true ↔ x < w.value.toNat)) ∧
    (w.op = 4 → (waitHolds w (dw x) = true ↔ w.value.toInt ≤ (dw x).toInt)) ∧
    (w.op = 5 → (waitHolds w (dw x) = true ↔ (dw x).toInt < w.value.toInt)) := by
  have hv : dw x = w.value ↔ x = w.value.toNat := by rw [← BitVec.toNat_inj, hx]
  unfold waitHolds
  refine ⟨fun h => ?_, fun h => ?_, fun h => ?_, fun h => ?_, fun h => ?_, fun h => ?_⟩ <;> rw [h]
  · simp [hv]
  · simp [hv]
  · simp [hx]
  · simp [hx]
  · simp [BitVec.slt]
  · simp [BitVec.slt]

/-- The clause of WAIT_CONDITION_POLL. -/
theorem waitConditionPoll_latches {w : WaitCond} (hl : s.launch? u = some l) (hw : l.waits = [w]) (hu : w.latched = false)
    (he : l.ended = none) (hd : dispatcherReady s = true) (ha : hubAccess s l.ctx true false (dw w.addr) 1 u 5 = .ok p)
    (hr : (readSectors s l.ctx p.addr 8).2 = none) :
    let x := s.readPhys p.addr 8
    let sx : Int := (dw x).toInt
    ∃ t k, exec (.waitConditionPoll u) s = .next t ∧ (∀ a, t.byte a = s.byte a) ∧
      t.launch? u = some { l with waits := [{ w with latched := k }] } ∧
      (w.op = 0 → (k = true ↔ x = w.value.toNat)) ∧ (w.op = 1 → (k = true ↔ x ≠ w.value.toNat)) ∧
      (w.op = 2 → (k = true ↔ w.value.toNat ≤ x)) ∧ (w.op = 3 → (k = true ↔ x < w.value.toNat)) ∧
      (w.op = 4 → (k = true ↔ w.value.toInt ≤ sx)) ∧ (w.op = 5 → (k = true ↔ sx < w.value.toInt)) := by
  intro x sx
  obtain ⟨h1, h2⟩ := pollOne_reads hl hw hu he ha hr
  have e : exec (.waitConditionPoll u) s = .next (pollOne s u 0) := by
    rw [exec_waitConditionPoll, execWaitConditionPoll, if_pos hd]
    show Host.Outcome.next (pollOne (pollOne (pollOne (pollOne s u 0) u 1) u 2) u 3) = _
    rw [pollOne_absent h2 (i := 1) rfl, pollOne_absent h2 (i := 2) rfl, pollOne_absent h2 (i := 3) rfl]
  exact ⟨_, _, e, h1, h2, waitHolds_table w _ (dw_readPhys ..)⟩

-- Placement (R28 to R30, R156, R157).

/-- One launch goes before another, or beside it (R157): a higher priority, or the same and no later turn. -/
def servedBefore (s : State) (x y : Launch) : Prop :=
  Launch.rank s y < Launch.rank s x ∨ (Launch.rank s y = Launch.rank s x ∧ queueTurn s x.queue ≤ queueTurn s y.queue)

theorem servedBefore_trans {x y z : Launch} (a : servedBefore s x y) (b : servedBefore s y z) : servedBefore s x z := by
  unfold servedBefore at *
  omega

/-- The launch that is served goes before every other that competes. -/
theorem servedLaunch_first {l : List (Nat × Launch × LRec)} {v : Nat × Launch × LRec} (h : servedLaunch s l = some v) :
    ∀ x ∈ l, servedBefore s v.2.1 x.2.1 := by
  induction l generalizing v with
  | nil => cases h
  | cons x r ih =>
    rw [servedLaunch] at h
    split at h
    · next hn =>
      obtain rfl := Option.some.inj h
      have hr : r = [] := by
        cases r with
        | nil => rfl
        | cons y r =>
          rw [servedLaunch] at hn
          split at hn
          · cases hn
          · dsimp only at hn
            split at hn <;> cases hn
      subst hr
      exact fun y hy => List.mem_singleton.mp hy ▸ .inr ⟨rfl, le_rfl⟩
    · next y hy =>
      dsimp only at h
      have hr := ih hy
      split at h
      · next hb =>
        obtain rfl := Option.some.inj h
        have hxy : servedBefore s x.2.1 y.2.1 := hb.imp_right fun hb => ⟨hb.1.symm, hb.2⟩
        exact List.forall_mem_cons.mpr ⟨.inr ⟨rfl, le_rfl⟩, fun z hz => servedBefore_trans hxy (hr z hz)⟩
      · next hb =>
        obtain rfl := Option.some.inj h
        refine List.forall_mem_cons.mpr ⟨?_, hr⟩
        unfold servedBefore
        omega

/-- The core that is taken has the fewest gangs, and of equals stands first. -/
theorem leastCore_least {l : List Nat} (hl : l.Pairwise (· ≤ ·)) {core : Nat} (h : leastCore s l = some core) :
    ∀ c ∈ l, residentGangs s core < residentGangs s c ∨ (residentGangs s core = residentGangs s c ∧ core ≤ c) := by
  suffices hm : core ∈ l ∧ ∀ c ∈ l, residentGangs s core < residentGangs s c ∨ (residentGangs s core = residentGangs s c ∧ core ≤ c) from
    hm.2
  induction l generalizing core with
  | nil => cases h
  | cons x r ih =>
    obtain ⟨hx, hr⟩ := List.pairwise_cons.mp hl
    rw [leastCore] at h
    split at h
    · next d hd =>
      obtain ⟨h1, h2⟩ := ih hr hd
      split at h
      · next hle =>
        obtain rfl := Option.some.inj h
        refine ⟨.head _, List.forall_mem_cons.mpr ⟨.inr ⟨rfl, le_rfl⟩, fun c hc => ?_⟩⟩
        have := h2 c hc
        have := hx c hc
        omega
      · next hle =>
        obtain rfl := Option.some.inj h
        exact ⟨.tail _ h1, List.forall_mem_cons.mpr ⟨.inl (Nat.lt_of_not_le hle), h2⟩⟩
    · next hn =>
      obtain rfl := Option.some.inj h
      have hr : r = [] := by
        cases r with
        | nil => rfl
        | cons y r =>
          rw [leastCore] at hn
          split at hn
          · split at hn <;> cases hn
          · cases hn
      subst hr
      exact ⟨.head _, fun c hc => List.mem_singleton.mp hc ▸ .inr ⟨rfl, le_rfl⟩⟩

/-- The cores on which a block fits stand in ascending number. -/
theorem fittingCores_ascending (s : State) (l : Launch) (r : LRec) : (fittingCores s l r).Pairwise (· ≤ ·) := by
  have hp : (partsOf s l.ctx).Pairwise (· < ·) := by
    unfold partsOf
    split
    · exact List.pairwise_lt_range.filter _
    · exact .nil
  refine List.Pairwise.filter _ (List.pairwise_flatMap.mpr ⟨fun p _ => ?_, (hp.filter _).imp fun {p q} hpq x hx y hy => ?_⟩)
  · exact List.pairwise_map.mpr (List.pairwise_lt_range.imp fun h => by omega)
  · simp only [List.mem_map, List.mem_range] at hx hy
    obtain ⟨i, hi, rfl⟩ := hx
    obtain ⟨j, hj, rfl⟩ := hy
    omega

/-- The gangs of a block put in their slots. -/
theorem foldl_setGang_only (l : List (Nat × Gang)) (s : State) :
    ∃ x, l.foldl (fun (s : State) e => s.setGang e.1 e.2) s = { s with gangs := x } := by
  induction l generalizing s with
  | nil => exact ⟨_, rfl⟩
  | cons e r ih => exact ih (s.setGang e.1 e.2)

theorem foldl_setGang_gang {l : List (Nat × Gang)} (hl : (l.map (·.1)).Nodup) (s : State) {e : Nat × Gang} (he : e ∈ l) :
    (l.foldl (fun (s : State) e => s.setGang e.1 e.2) s).gang? e.1 = some e.2 := by
  have keep : ∀ (l : List (Nat × Gang)) (s : State) (k : Nat), k ∉ l.map (·.1) →
      (l.foldl (fun (s : State) e => s.setGang e.1 e.2) s).gang? k = s.gang? k := by
    intro l
    induction l with
    | nil => exact fun _ _ _ => rfl
    | cons x r ih =>
      intro s k hk
      simp only [List.map_cons, List.mem_cons, not_or] at hk
      rw [List.foldl_cons, ih _ k hk.2, setGang_gang, if_neg hk.1]
  induction l generalizing s with
  | nil => cases he
  | cons x r ih =>
    obtain ⟨hx, hr⟩ := List.nodup_cons.mp hl
    rcases List.mem_cons.mp he with rfl | he
    · rw [List.foldl_cons, keep _ _ _ hx, setGang_gang_self]
    · exact ih hr (s.setGang x.1 x.2) he

/-- The block that is put on a core next for a launch (R28 to R30). -/
def Launch.nextBlock (l : Launch) (u : Nat) (r : LRec) (core q0 bank scr tag : Nat) : Block :=
  { launch := u, index := l.next, ctx := l.ctx, core, q0, bank, ngangs := gangCount ((r.bx + 1) * (r.bky + 1) * (r.bz + 1)),
    need := r.need, scrbase := scr, tagbase := tag, x := l.next % (r.gx + 1), y := l.next / (r.gx + 1) % (r.gy + 1),
    z := l.next / ((r.gx + 1) * (r.gy + 1)), wide := decide (2 ^ 21 < max (r.gx + 1) (max (r.gy + 1) (r.gz + 1))),
    phase := .staging 0 0, busy := 0, ready := 0, tdisc := 0, tfault := 0, killed := 0, image := none }

/-- A block's place in its grid is its index, spelled by rows and planes. -/
theorem nextBlock_index (l : Launch) (u : Nat) (r : LRec) (core q0 bank scr tag : Nat) :
    let b := l.nextBlock u r core q0 bank scr tag
    b.x ≤ r.gx ∧ b.y ≤ r.gy ∧ l.next = b.x + (r.gx + 1) * (b.y + (r.gy + 1) * b.z) := by
  refine ⟨Nat.le_of_lt_succ (Nat.mod_lt _ (Nat.succ_pos _)), Nat.le_of_lt_succ (Nat.mod_lt _ (Nat.succ_pos _)), ?_⟩
  show l.next = l.next % (r.gx + 1) + (r.gx + 1) * (l.next / (r.gx + 1) % (r.gy + 1) +
    (r.gy + 1) * (l.next / ((r.gx + 1) * (r.gy + 1))))
  rw [← Nat.div_div_eq_div_mul, Nat.mod_add_div, Nat.mod_add_div]

/-- The gangs of a block that is placed, by key (R28). -/
def Block.newGangs (b : Block) (n : Nat) (slot : Nat → Nat) : List (Nat × Gang) :=
  (List.range b.ngangs).map fun i => (n * 16 + i, placedGang n i ((b.q0 + i) % 4) (slot i) b.need)

theorem newGangs_nodup (b : Block) (n : Nat) (slot : Nat → Nat) : ((b.newGangs n slot).map (·.1)).Nodup := by
  rw [Block.newGangs, List.map_map]
  exact List.nodup_range.map fun _ _ => Nat.add_left_cancel

/-- A placement touches the block, its gangs, the launch, the core's stores, the partition's banks and the turn of queues. -/
theorem placeBlock_only (s : State) (u : Nat) (l : Launch) (r : LRec) (core q0 scr tag : Nat) :
    let b := l.nextBlock u r core q0 (placeBank s (core / 32)) scr tag
    ∃ c x slot, c.scratch = s.core.scratch.filter (fun e => !inScratch b e.1) ∧
      placeBlock s u l r core q0 scr tag = (b.newGangs s.uid slot).foldl (fun (s : State) e => s.setGang e.1 e.2)
        { s with
          uid := s.uid + 1, pf := { s.pf with lastServed := l.queue }, core := c, parts := x, blocks := tput none s.blocks s.uid (some b),
          launches := tput none s.launches u (some { l with next := l.next + 1, placedN := l.placedN + 1 }) } := by
  intro b
  unfold placeBlock
  dsimp only
  split
  · exact ⟨_, _, _, rfl, rfl⟩
  · exact ⟨_, _, _, rfl, rfl⟩

/-- What the placement of a block leaves. -/
theorem placeBlock_places (s : State) (u : Nat) (l : Launch) (r : LRec) (core q0 scr tag : Nat) :
    let t := placeBlock s u l r core q0 scr tag
    let b := l.nextBlock u r core q0 (placeBank s (core / 32)) scr tag
    (∀ a, t.byte a = s.byte a) ∧ t.block? s.uid = some b ∧
      t.launch? u = some { l with next := l.next + 1, placedN := l.placedN + 1 } ∧ t.pf.lastServed = l.queue ∧
      (∀ o < 256 * r.need.scratch, t.sbyte (scrKey core b.bank scr + o) = 0) ∧
      ∀ i < b.ngangs, ∃ g, t.gang? (16 * s.uid + i) = some g ∧ g.block = s.uid ∧ g.idx = i ∧ g.sched.quarter = (q0 + i) % 4 := by
  intro t b
  obtain ⟨c, x, slot, hc, e⟩ := placeBlock_only s u l r core q0 scr tag
  obtain ⟨y, e'⟩ := foldl_setGang_only (b.newGangs s.uid slot) { s with
    uid := s.uid + 1, pf := { s.pf with lastServed := l.queue }, core := c, parts := x, blocks := tput none s.blocks s.uid (some b),
    launches := tput none s.launches u (some { l with next := l.next + 1, placedN := l.placedN + 1 }) }
  have ht := e.trans e'
  refine ⟨fun a => ?_, ?_, ?_, ?_, fun o ho => ?_, fun i hi => ?_⟩
  · show (placeBlock s u l r core q0 scr tag).byte a = _
    rw [ht]
    rfl
  · show (placeBlock s u l r core q0 scr tag).block? _ = _
    rw [ht]
    exact tget_tput_self none s.blocks s.uid (some b)
  · show (placeBlock s u l r core q0 scr tag).launch? _ = _
    rw [ht]
    exact tget_tput_self none s.launches u (some _)
  · show (placeBlock s u l r core q0 scr tag).pf.lastServed = _
    rw [ht]
  · show (placeBlock s u l r core q0 scr tag).sbyte _ = _
    rw [ht]
    show tget 0 c.scratch _ = 0
    rw [hc]
    refine tget_filter_not 0 s.core.scratch (inScratch b) ?_
    simp only [inScratch, Bool.and_eq_true, decide_eq_true_eq]
    exact ⟨Nat.le_add_right .., Nat.add_lt_add_left ho _⟩
  · refine ⟨placedGang s.uid i ((q0 + i) % 4) (slot i) r.need, ?_, rfl, rfl, rfl⟩
    show (placeBlock s u l r core q0 scr tag).gang? _ = _
    rw [e, Nat.mul_comm 16 s.uid]
    exact foldl_setGang_gang (newGangs_nodup b s.uid slot) _ (e := (s.uid * 16 + i, placedGang s.uid i ((q0 + i) % 4) (slot i) r.need))
      (List.mem_map.mpr ⟨i, List.mem_range.mpr hi, rfl⟩)

/-- PLACEMENT of a launch whose next block fits a core, at a quarter and in windows that are free. -/
theorem exec_placement_places {core q0 scr tag : Nat} (hd : dispatcherReady s = true)
    (hv : servedLaunch s (competing s) = some (u, l, r)) (hc : leastCore s (fittingCores s l r) = some core) (hq : q0 < 4)
    (hf : quartersFit s core (placeBank s (core / 32)) r.need (gangCount ((r.bx + 1) * (r.bky + 1) * (r.bz + 1))) q0 = true)
    (hs : scratchFits s core (placeBank s (core / 32)) r.need.scratch scr = true) (ht : tagsFit s core r.need.tags tag = true) :
    exec (.placement q0 scr tag) s = .next (placeBlock s u l r core q0 scr tag) := by
  rw [exec_placement, execPlacement]
  simp only [hd, if_true, hv, hc, partOf, hq, hf, hs, ht, and_self]

/-- Settles O47, a clause at a time: a kick, a dispatcher that is not ready, an entry, a record, a wait condition, and a placement. -/
theorem launches : Obligations.Launches := by
  unfold Obligations.Launches
  refine ⟨kick_clauses, fun n s h => dispatcher_idle h n, fun n s hf hn hd => takeEntry_clauses hf hn hd,
    fun n s u l p hf hl hb h128 hd ha hr => takeEntry_validates hf hl hb h128 hd ha hr,
    fun u s l w p hl hw hu he _ hd ha hr => waitConditionPoll_latches hl hw hu he hd ha hr,
    fun q0 scr tag s u l r hv hf hd => ?_, fun q0 scr tag s u l r core hd hv hc hq hf hs ht => ?_⟩
  · rw [exec_placement, execPlacement]
    simp only [hd, if_true, hv, hf, leastCore]
  · obtain ⟨h1, h2, h3, h4, h5, h6⟩ := placeBlock_places s u l r core q0 scr tag
    obtain ⟨i1, i2, i3⟩ := nextBlock_index l u r core q0 (placeBank s (core / 32)) scr tag
    exact ⟨servedLaunch_first hv, leastCore_least (fittingCores_ascending s l r) hc,
      _, _, exec_placement_places hd hv hc hq hf hs ht, h1, h2, rfl, rfl, rfl, rfl, rfl, rfl, rfl, rfl, rfl, i1, i2, i3, rfl, h3, h4, h5, h6⟩

end Sys2Proof.Machine
end

section
/-! NOP, MOVX, SLEEP, WAITC and YIELD (O7): an instruction that changes its own split and goes on, one whose condition does not
hold yet, and what YIELD leaves of its gang. -/

namespace Sys2Proof.Machine

variable {s : State} {key : Nat} {g : Gang} {sp : Split} {b : Block} {u : Use}

-- Going on with a changed split.

/-- A change of a split that neither moves its PC nor looks at its windows. -/
structure LeavesWindows (f : Split → Split) : Prop where
  pc : ∀ x, (f x).pc = x.pc
  windows : ∀ x w, f { x with windows := w } = { f x with windows := w }

/-- An instruction that changes its own split, and no register, moves the PC past itself. -/
theorem issue_splitOnly {size : Nat} {body : State → Nat → Gang → Split → State} {f : Split → Split} (hf : LeavesWindows f)
    (h : Issues s key g sp b) (c : Clear s key b g sp u)
    (hb : body s key (stepGang s g sp) (stepWindows sp u) = retire s key (stepGang s g sp) (f (stepWindows sp u)) size) :
    ∃ t g' sp', issue s u size body = .next t ∧ GangFrame s t key g g' sp' ∧ g'.regs = g.regs ∧
      Goes (f sp) sp' (sp.pc + dw size) := by
  obtain ⟨t, g', e, hg, hr⟩ := issue_commit (r := g.regs) h c hb
  obtain ⟨w, hw⟩ := stepWindows_only sp u
  refine ⟨t, g', _, e, hg, hr, w, ?_⟩
  rw [hw, hf.pc, hf.windows]

/-- An instruction whose own condition holds is one without a condition. -/
theorem issueWhen_ready (h : Issues s key g sp b) (c : Clear s key b g sp u) {skip : Nat}
    {ready : State → Nat → Gang → Split → Block → Bool} {body : State → Nat → Gang → Split → State}
    (hr : ready s key g sp b = true) : issueWhen s u skip ready body = issue s u skip body :=
  (issueWhen_next h c hr).trans (issue_next h c).symm

/-- An instruction whose own condition does not hold lets the next ready split issue (R162). -/
theorem issueWhen_waits (h : Issues s key g sp b) (c : Clear s key b g sp u) {skip : Nat}
    {ready : State → Nat → Gang → Split → Block → Bool} {body : State → Nat → Gang → Split → State}
    (hr : ready s key g sp b = false) : issueWhen s u skip ready body = .next (s.setGang key (switchSplit g)) := by
  simp only [issueWhen, h.cur, h.gang, h.split, h.block, gate_go h c, hr, Bool.false_eq_true, if_false]

theorem switchSplit_only (g : Gang) :
    (switchSplit g).regs = g.regs ∧ (switchSplit g).splits = g.splits ∧ (switchSplit g).cur = (nextReady g).getD g.cur := by
  unfold switchSplit
  cases nextReady g <;> exact ⟨rfl, rfl, rfl⟩

theorem nop_goes (h : Issues s key g sp b) (c : Clear s key b g sp {}) :
    ∃ t g' sp', exec .nop s = .next t ∧ GangFrame s t key g g' sp' ∧ g'.regs = g.regs ∧ Goes sp sp' (sp.pc + 8) := by
  rw [exec_nop, execNop, localOp]
  exact issue_splitOnly (f := fun x => x) ⟨fun _ => rfl, fun _ _ => rfl⟩ h c rfl

-- MOVX (R189).

/-- The effect of MOVX on EXM: the lanes `m` of the split's, or a trap where none is left. -/
def putExm (m : Lanes) (s : State) (key : Nat) (g : Gang) (sp : Split) : State :=
  if m &&& sp.lanes = 0 then trapHere s key sp tConvergence 0 8 []
  else retire s key g { sp with exm := m &&& sp.lanes } 8

/-- MOVX with lanes left puts them in EXM. -/
theorem issue_putExm {m : Lanes} {body : State → Nat → Gang → Split → State} (h : Issues s key g sp b)
    (c : Clear s key b g sp u) (hm : m &&& sp.lanes ≠ 0)
    (hb : body s key (stepGang s g sp) (stepWindows sp u) = putExm m s key (stepGang s g sp) (stepWindows sp u)) :
    ∃ t g' sp', issue s u 8 body = .next t ∧ GangFrame s t key g g' sp' ∧ g'.regs = g.regs ∧
      Goes { sp with exm := m &&& sp.lanes } sp' (sp.pc + 8) := by
  refine issue_splitOnly (f := fun x => { x with exm := m &&& sp.lanes }) ⟨fun _ => rfl, fun _ _ => rfl⟩ h c (hb.trans ?_)
  obtain ⟨w, hw⟩ := stepWindows_only sp u
  rw [hw]
  exact if_neg hm

/-- MOVX with no lane left takes ILL_CONVERGENCE. -/
theorem issue_putExm_traps {m : Lanes} {body : State → Nat → Gang → Split → State} (h : Issues s key g sp b)
    (c : Clear s key b g sp u) (hm : m &&& sp.lanes = 0)
    (hb : body s key (stepGang s g sp) (stepWindows sp u) = putExm m s key (stepGang s g sp) (stepWindows sp u)) :
    ∃ t, issue s u 8 body = .next t ∧ Trapped s t key g b sp.pc 5 0 0 sp.exm (some 8) := by
  rw [putExm, stepWindows_lanes, if_pos hm] at hb
  exact issue_trapHere h c hb

-- SLEEP (R199).

/-- The wait of a split after a SLEEP for `n` cycles. -/
def sleepWait (s : State) (n : DWord) : SplitWait :=
  if n = 0 then .ready else .asleep (s.cycle + min n.toNat (2 ^ 32 - 1))

theorem sleep_waits (a : KReg) (h : Issues s key g sp b) (c : Clear s key b g sp { k := [a] }) :
    ∃ t g' sp', exec (.sleep a) s = .next t ∧ GangFrame s t key g g' sp' ∧ g'.regs = g.regs ∧
      Goes { sp with wait := sleepWait s (g.kget a) } sp' (sp.pc + 8) := by
  rw [exec_sleep, execSleep]
  refine issue_splitOnly (f := fun x => { x with wait := sleepWait s (g.kget a) }) ⟨fun _ => rfl, fun _ _ => rfl⟩ h c ?_
  refine congrArg (fun x => retire s key (stepGang s g sp) x 8) ?_
  show (if min (g.kget a).toNat 4294967295 = 0 then stepWindows sp { k := [a] } else
    { stepWindows sp { k := [a] } with wait := .asleep (s.cycle + min (g.kget a).toNat 4294967295) }) = _
  obtain ⟨w, hw⟩ := stepWindows_only sp { k := [a] }
  rw [hw, sleepWait]
  by_cases h0 : g.kget a = 0
  · have hr := h.ready
    rw [if_pos (by rw [h0]; rfl), if_pos h0, ← hr]
  · have hn : (g.kget a).toNat ≠ 0 := fun e => h0 (BitVec.eq_of_toNat_eq e)
    rw [if_neg (by omega), if_neg h0]
    rfl

/-- SLEEP_EXPIRY of a split whose time is up. -/
theorem sleepExpiry_wakes {i n : Nat} (hg : s.gang? key = some g) (hi : tget none g.splits i = some sp)
    (hw : sp.wait = .asleep n) (hn : n ≤ s.cycle) :
    exec (.sleepExpiry key i) s = .next (s.setGang key (g.putSplit i (some { sp with wait := .ready }))) := by
  rw [exec_sleepExpiry, execSleepExpiry]
  simp only [State.modGang, hg, hi, hw, hn, if_true]

-- YIELD (R162, R197).

/-- The next ready split depends on the other splits only, and on what the scheduler has seen of them. -/
theorem nextReady_congr {g' : Gang} (hc : g'.cur = g.cur) (hk : g'.sched.stuck = g.sched.stuck)
    (hs : ∀ i, i ≠ g.cur → tget none g'.splits i = tget none g.splits i) : nextReady g' = nextReady g := by
  unfold nextReady
  rw [hc, hk]
  refine List.find?_congr fun i hi => ?_
  obtain ⟨j, hj, rfl⟩ := List.mem_map.mp hi
  have := List.mem_range.mp hj
  rw [hs _ (by omega)]

/-- The fairness timer treated as expired: the registers stay, the current split loses its reservations at most, and the gang
turns to the next ready split where no reservation defers that (R162, R163). -/
theorem fairExpire_turns (hs : g.split? = some sp) : (fairExpire g).regs = g.regs ∧
    (∃ q r, tget none (fairExpire g).splits g.cur = some { sp with resv := q, spent := r }) ∧
    (sp.resv = none → sp.spent = [] → (fairExpire g).cur = (nextReady g).getD g.cur) := by
  have hsp : tget none g.splits g.cur = some { sp with resv := sp.resv, spent := sp.spent } := hs
  unfold fairExpire
  split
  · next hn =>
    rw [Option.isNone_iff_eq_none] at hn
    exact ⟨rfl, ⟨_, _, hsp⟩, fun _ _ => by rw [hn]; rfl⟩
  · split
    · obtain ⟨h1, h2, h3⟩ := switchSplit_only g
      exact ⟨h1, ⟨_, _, h2 ▸ hsp⟩, fun _ _ => h3⟩
    · next hh =>
      have hno : ¬(sp.resv = none ∧ sp.spent = []) := fun ⟨h1, h2⟩ => hh (by simp [holdsResv, hs, h1, h2])
      split
      · exact ⟨rfl, ⟨_, _, hsp⟩, fun h1 h2 => absurd ⟨h1, h2⟩ hno⟩
      · split
        · exact ⟨rfl, ⟨_, _, hsp⟩, fun h1 h2 => absurd ⟨h1, h2⟩ hno⟩
        · have hc : clearCurResv g = g.setSplit sp.noResv := by rw [clearCurResv, hs]
          obtain ⟨h1, h2, -⟩ := switchSplit_only (g.setSplit sp.noResv)
          rw [hc]
          refine ⟨h1, ⟨none, [], ?_⟩, fun h1 h2 => absurd ⟨h1, h2⟩ hno⟩
          rw [h2]
          exact setSplit_split ..

theorem setActive_sched (k : Nat) (a : Bool) (hg : s.gang? key = some g) :
    ∃ x, (setActive s k a).gang? key = some { g with sched := x } := by
  unfold setActive
  rw [modGang_gang, hg]
  split <;> exact ⟨_, rfl⟩

/-- A gang that gives its place away changes in its scheduling only (R197). -/
theorem giveWay_sched (k : Nat) (hg : s.gang? key = some g) : ∃ x, (giveWay s k).gang? key = some { g with sched := x } := by
  unfold giveWay
  split
  · next p hp =>
    obtain ⟨x, hx⟩ := setActive_sched k false hg
    obtain ⟨y, hy⟩ := setActive_sched p.1 true hx
    exact ⟨y, hy⟩
  · exact ⟨g.sched, hg⟩

theorem giveWay_byte (s : State) (k a : Nat) : (giveWay s k).byte a = s.byte a := by
  unfold giveWay
  split
  · exact ((modGang_frame ..).1 a).trans ((modGang_frame ..).1 a)
  · rfl

/-- The gang that a YIELD puts back: its counts stepped, its wait begun again, its split past the YIELD. -/
def yielded (s : State) (g : Gang) (sp : Split) : Gang :=
  let g' := stepGang s g sp
  { g' with sched := { g'.sched with waitSince := s.cycle } }.setSplit
    { stepWindows sp {} with wd := 0, pc := (stepWindows sp {}).pc + dw 8 }

theorem yielded_split (s : State) (g : Gang) (sp : Split) :
    (yielded s g sp).split? = some { stepWindows sp {} with wd := 0, pc := (stepWindows sp {}).pc + dw 8 } :=
  setSplit_split ..

theorem exec_yieldTurn_gives (h : Issues s key g sp b) (c : Clear s key b g sp {}) :
    exec .yieldTurn s = .next (giveWay ((s.setGang key (yielded s g sp)).modGang key fairExpire) key) := by
  rw [exec_yieldTurn, execYieldTurn, issue_silent h c rfl rfl]
  rfl

theorem nextReady_yielded (s : State) (g : Gang) (sp : Split) : nextReady (yielded s g sp) = nextReady g :=
  nextReady_congr rfl rfl fun _ hi => setSplit_other _ _ hi

theorem yield_turns (h : Issues s key g sp b) (c : Clear s key b g sp {}) :
    ∃ t g' sp', exec .yieldTurn s = .next t ∧ t.gang? key = some g' ∧ g'.regs = g.regs ∧
      (∀ a, t.byte a = s.byte a) ∧ tget none g'.splits g.cur = some sp' ∧ sp'.pc = sp.pc + 8 ∧ sp'.wd = 0 ∧
      sp'.lanes = sp.lanes ∧ sp'.exm = sp.exm ∧ (sp.resv = none → sp.spent = [] → g'.cur = (nextReady g).getD g.cur) := by
  obtain ⟨hr, ⟨q, r, hsp⟩, ht⟩ := fairExpire_turns (yielded_split s g sp)
  obtain ⟨x, hx⟩ := giveWay_sched key (modGang_some (setGang_gang_self s key (yielded s g sp)) fairExpire)
  exact ⟨_, _, _, exec_yieldTurn_gives h c, hx, hr, fun a => (giveWay_byte ..).trans ((modGang_frame ..).1 a), hsp, rfl, rfl, rfl, rfl,
    fun h1 h2 => (ht h1 h2).trans (congrArg (·.getD g.cur) (nextReady_yielded s g sp))⟩

/-- Settles O7, an instruction at a time: each changes its own split and goes on, traps, or waits; YIELD by what the fairness
timer and the scheduler leave of its gang. -/
theorem movxSleepWait : Obligations.MovxSleepWait := by
  unfold Obligations.MovxSleepWait
  refine ⟨fun s key g sp b h c => ?_, fun a s key g sp b h c hm => ?_, fun a s key g sp b h c hm => ?_,
    fun a s key g sp b h c hm => ?_, fun a s key g sp b h c hm => ?_, fun a s key g sp b h c => ?_,
    fun s key g i sp n hg hi hw hn => ?_, fun n m s key g sp b h c hl hs => ?_, fun n m s key g sp b h c hx => ?_,
    fun s key g sp b h c => yield_turns h c⟩
  · obtain ⟨t, g', sp', e, hf, hr, hgo⟩ := nop_goes h c
    exact ⟨t, g', sp', e, ⟨hf, hr ▸ .refl ..⟩, hr, hgo⟩
  · rw [exec_movx, execMovx]
    exact issue_putExm h c hm rfl
  · rw [exec_movx, execMovx]
    exact issue_putExm h c hm rfl
  · rw [exec_movx, execMovx]
    exact issue_putExm_traps h c hm rfl
  · rw [exec_movx, execMovx]
    exact issue_putExm_traps h c hm rfl
  · obtain ⟨t, g', sp', e, hf, hr, hgo⟩ := sleep_waits a h c
    exact ⟨t, g', sp', e, ⟨hf, hr ▸ .refl ..⟩, hr, hgo⟩
  · exact ⟨_, _, sleepExpiry_wakes hg hi hw hn, setGang_gang_self .., quiet_setGang .., rfl,
      tget_tput_self none g.splits i (some { sp with wait := .ready }),
      fun j hj => tget_tput_ne none g.splits (some { sp with wait := .ready }) hj⟩
  · rw [exec_waitc, execWaitc, issueWhen_ready h c (by simp [hl, hs])]
    exact issue_splitOnly (f := fun x => x) ⟨fun _ => rfl, fun _ _ => rfl⟩ h c rfl
  · rw [exec_waitc, execWaitc, issueWhen_waits h c (by simpa [imp_iff_not_or] using hx)]
    obtain ⟨h1, h2, h3⟩ := switchSplit_only g
    exact ⟨_, _, rfl, quiet_setGang .., setGang_gang_self .., h1, h2, h3⟩

end Sys2Proof.Machine
end

section
/-! The pair word (O28): a slot's instruction as a lane instruction, what such an instruction leaves in the registers, and two
of them in one word. -/

namespace Sys2Proof.Machine

variable {s : State} {key : Nat} {g : Gang} {sp : Split} {b : Block} {u : Use}

-- A slot as an instruction of its own (R281).

theorem lane_narrow (r : Regs) {t : Ty} (ht : t.wide = false) (i l : Nat) : r.lane t i l = r.lane1 i l := by
  rw [Regs.lane, ht]
  rfl

theorem use2_narrow {t : Ty} (ht : t.wide = false) (d a b : VReg) : use2 t d a b = { v := [d, a, b] } := by
  simp [use2, vr, ht]

theorem use1_narrow {t : Ty} (ht : t.wide = false) (d a : VReg) : use1 t d a = { v := [d, a] } := by
  simp [use1, vr, ht]

/-- The immediate of a VMOVI whose type is not a pair's is taken as it is. -/
theorem immOperand_narrow {t : Ty} (ht : t.wide = false) (imm : BitVec 32) : immOperand t imm = imm.toNat := by
  cases t with
  | s64 => cases ht
  | _ => rfl

/-- The size of the instruction that a slot stands for. -/
def slotSize (x : PairSlot) : Nat := match x.op with | .vmovi => 12 | _ => 8

/-- The instruction of a slot whose type is not a pair's is the lane instruction of the slot's registers and lanes. -/
theorem exec_slotInstr (x : PairSlot) (ht : x.t.wide = false) (s : State) : exec (slotInstr x) s =
    vecOp s { v := x.d :: x.reads } x.p false x.d (slotSize x) fun r l => slotLane x r l := by
  obtain ⟨p, op, t, d, a, b, c⟩ := x
  dsimp only at ht
  cases op with
  | vadd | vsub | vmin | vmax | vmul | vmulh | vsel =>
    simp only [slotInstr, exec_vadd, execVadd, exec_vsub, execVsub, exec_vmin, execVmin, exec_vmax, execVmax, exec_vmul, execVmul,
      exec_vmulh, execVmulh, exec_vsel, execVsel, ht, use2_narrow ht, lane_narrow _ ht]
    rfl
  | fadd | fsub | fmul | fmin | fmax =>
    simp only [slotInstr, exec_fadd, execFadd, exec_fsub, execFsub, exec_fmul, execFmul, exec_fmin, execFmin, exec_fmax, execFmax,
      use2_narrow ht, lane_narrow _ ht]
    rfl
  | vmad | ffma =>
    simp only [slotInstr, exec_vmad, execVmad, exec_ffma, execFfma, ht, vr, lane_narrow _ ht]
    rfl
  | vmov | vmovi =>
    simp only [slotInstr, exec_vmov, execVmov, exec_vmovi, execVmovi, ht, use1_narrow ht, vr, lane_narrow _ ht, immOperand_narrow ht]
    rfl
  | vand | vor | vxor | vnot | vlop3 lut => rfl

/-- What is clear for an instruction that names vector registers only is clear for one that names fewer of them. -/
theorem Clear.subset {v w : List Nat} (c : Clear s key b g sp { v := v }) (h : w ⊆ v) : Clear s key b g sp { v := w } :=
  { c with vregs := fun r hr => c.vregs r (h hr) }

-- The registers after lane instructions.

/-- The flags that the active lanes of a lane instruction set. -/
def laneFlags (f : Regs → Nat → Nat × Nat) (g : Gang) (sp : Split) (p : Pred) : List (Nat × Nat) :=
  (laneList (activeLanes g sp p)).map fun l => (l, (f g.regs l).2)

/-- A lane instruction that is not long-latency, by the registers that it leaves. -/
theorem vecOp_regs (h : Issues s key g sp b) {v : List Nat} (c : Clear s key b g sp { v := v }) (p : Pred) (wide : Bool)
    (d size : Nat) (f : Regs → Nat → Nat × Nat) :
    ∃ t g', vecOp s { v := v } p wide d size f = .next t ∧ t.gang? key = some g' ∧
      g'.regs = { g.regs.putLanes wide d (activeLanes g sp p) fun l => (f g.regs l).1 with
        fsr := g.regs.fsr ||| fsrWrite (dw (allFlags (laneFlags f g sp p))) } := by
  obtain ⟨t, e, -, hg⟩ := localOp_next h c size (fun _ g sp =>
    finishFlags { g with regs := g.regs.putLanes wide d (activeLanes g sp p) fun l => (f g.regs l).1 } sp (laneFlags f g sp p))
    h.hold h.going
  exact ⟨t, _, e, hg, congrArg (fun x => { g.regs.putLanes wide d (activeLanes g sp p) fun l => (f g.regs l).1 with
    fsr := x ||| fsrWrite (dw (allFlags (laneFlags f g sp p))) }) (putLanes_fsr ..).1⟩

theorem RegsKeep.trans {r q w : Regs} {vd kd md vd' kd' md' : List Nat} (h : RegsKeep r q vd kd md)
    (h' : RegsKeep q w vd' kd' md') : RegsKeep r w (vd ++ vd') (kd ++ kd') (md ++ md') where
  v := fun i hi => by
    rw [List.mem_append, not_or] at hi
    exact (h'.v i hi.2).trans (h.v i hi.1)
  k := fun i hi => by
    rw [List.mem_append, not_or] at hi
    exact (h'.k i hi.2).trans (h.k i hi.1)
  m := fun i hi => by
    rw [List.mem_append, not_or] at hi
    exact (h'.m i hi.2).trans (h.m i hi.1)
  rest := by
    obtain ⟨_, _, _, _, rfl⟩ := h.rest
    exact h'.rest

/-- Lanes written into registers that agree in the register written. -/
theorem vget_vlanes_congr {r q : Regs} {d : Nat} (h : r.vget d = q.vget d) (m : Lanes) (f : Nat → Word) :
    (r.vlanes d m f).vget d = (q.vlanes d m f).vget d := by
  simp only [Regs.vlanes, vget_vset, if_true, h]

-- Two slots in one word (R61 to R64).

/-- The flags of a pair word, lane by lane. -/
def pairFlags (x y : PairSlot) (g : Gang) (sp : Split) : List (Nat × Nat) :=
  (List.range 64).map fun l =>
    (l, (if inLanes (activeLanes g sp x.p) l then (slotLane x g.regs l).2 else 0) |||
      (if inLanes (activeLanes g sp y.p) l then (slotLane y g.regs l).2 else 0))

/-- The registers that a pair word writes: both slots read the registers as they were. -/
def pairRegs (x y : PairSlot) (g : Gang) (sp : Split) : Regs :=
  (g.regs.putLanes false x.d (activeLanes g sp x.p) fun l => (slotLane x g.regs l).1).putLanes false y.d (activeLanes g sp y.p)
    fun l => (slotLane y g.regs l).1

theorem testBit_ite_zero (c : Bool) (n i : Nat) : (if c then n else 0).testBit i = (c && n.testBit i) := by
  cases c <;> simp

/-- The flags of a pair word are those of its slots, united. -/
theorem allFlags_pairFlags (x y : PairSlot) (g : Gang) (sp : Split) : allFlags (pairFlags x y g sp) =
    allFlags (laneFlags (fun r l => slotLane x r l) g sp x.p) ||| allFlags (laneFlags (fun r l => slotLane y r l) g sp y.p) := by
  refine Nat.eq_of_testBit_eq fun i => ?_
  rw [Nat.testBit_or, testBit_allFlags, testBit_allFlags, testBit_allFlags, Bool.eq_iff_iff]
  simp only [pairFlags, laneFlags, Bool.or_eq_true, List.any_map, List.any_eq_true, Function.comp_apply, mem_laneList,
    List.mem_range, Nat.testBit_or, testBit_ite_zero, Bool.and_eq_true]
  constructor
  · rintro ⟨l, hl, ⟨ha, hb⟩ | ⟨ha, hb⟩⟩
    · exact .inl ⟨l, ⟨hl, ha⟩, hb⟩
    · exact .inr ⟨l, ⟨hl, ha⟩, hb⟩
  · rintro (⟨l, ⟨hl, ha⟩, hb⟩ | ⟨l, ⟨hl, ha⟩, hb⟩)
    · exact ⟨l, hl, .inl ⟨ha, hb⟩⟩
    · exact ⟨l, hl, .inr ⟨ha, hb⟩⟩

/-- FSR written with the flags of two sets of lanes. -/
theorem fsrWrite_or (x y : Nat) : fsrWrite (dw (x ||| y)) = fsrWrite (dw x) ||| fsrWrite (dw y) := by
  simp only [fsrWrite, dw, BitVec.ofNat_or, BitVec.and_or_distrib_right]

/-- FSR after a pair word is what its slots alone leave there, united (R241). -/
theorem fsr_pairFlags (f : DWord) (x y : PairSlot) (g : Gang) (sp : Split) :
    f ||| fsrWrite (dw (allFlags (pairFlags x y g sp))) =
      (f ||| fsrWrite (dw (allFlags (laneFlags (fun r l => slotLane x r l) g sp x.p)))) |||
        (f ||| fsrWrite (dw (allFlags (laneFlags (fun r l => slotLane y r l) g sp y.p)))) := by
  rw [allFlags_pairFlags, fsrWrite_or]
  ext i
  rw [Bool.eq_iff_iff]
  simp only [BitVec.getElem_or, Bool.or_eq_true]
  exact or_or_distrib_left

/-- A split that raises FPX and moves on goes on, but for its pending effects. -/
theorem goes_raiseFpx (sp : Split) (u : Use) (en n : Nat) (fl : List (Nat × Nat)) : ∃ e, Goes { sp with eff := e }
    { raiseFpx (stepWindows sp u) en fl with pc := (raiseFpx (stepWindows sp u) en fl).pc + dw n } (sp.pc + dw n) := by
  obtain ⟨w, hw⟩ := stepWindows_only sp u
  obtain ⟨e, he⟩ := raiseFpx_only (stepWindows sp u) en fl
  exact ⟨e, w, by rw [he, hw]⟩

/-- A pair word, by the split and the registers that it leaves. -/
theorem pair_goes (x y : PairSlot) (h : Issues s key g sp b)
    (c : Clear s key b g sp { v := x.d :: y.d :: (x.reads ++ y.reads) }) :
    ∃ t g' sp', exec (.pair x y) s = .next t ∧ GangFrame s t key g g' sp' ∧ (∃ e, Goes { sp with eff := e } sp' (sp.pc + 16)) ∧
      g'.regs = { pairRegs x y g sp with fsr := g.regs.fsr ||| fsrWrite (dw (allFlags (pairFlags x y g sp))) } := by
  obtain ⟨t, e, hq, hg⟩ := localOp_next h c 16
    (fun _ g sp => finishFlags { g with regs := pairRegs x y g sp } sp (pairFlags x y g sp)) h.hold h.going
  have hf : (pairRegs x y g sp).fsr = g.regs.fsr := (putLanes_fsr ..).1.trans (putLanes_fsr ..).1
  refine ⟨t, _, _, (exec_pair x y s).trans e, ⟨hg, setSplit_split .., hq, fun i hi => setSplit_other _ _ hi, _, _, _, _, _, rfl⟩,
    goes_raiseFpx .., congrArg (fun z => { pairRegs x y g sp with
      fsr := z ||| fsrWrite (dw (allFlags (pairFlags x y g sp))) }) hf⟩

/-- A pair word writes its two destinations. -/
theorem regsKeep_pairRegs (x y : PairSlot) (g : Gang) (sp : Split) : RegsKeep g.regs (pairRegs x y g sp) [x.d, y.d] [] [] :=
  (RegsKeep.putLanes g.regs .b32 x.d _ _).trans (RegsKeep.putLanes _ .b32 y.d _ _)

/-- The first slot's destination holds what the slot alone puts there. -/
theorem vget_pairRegs_first {x y : PairSlot} (hd : x.d ≠ y.d) (g : Gang) (sp : Split) : (pairRegs x y g sp).vget x.d =
    (g.regs.putLanes false x.d (activeLanes g sp x.p) fun l => (slotLane x g.regs l).1).vget x.d :=
  vget_vlanes_ne _ _ _ hd

/-- The second slot's destination holds what the slot alone puts there. -/
theorem vget_pairRegs_second {x y : PairSlot} (hd : x.d ≠ y.d) (g : Gang) (sp : Split) : (pairRegs x y g sp).vget y.d =
    (g.regs.putLanes false y.d (activeLanes g sp y.p) fun l => (slotLane y g.regs l).1).vget y.d :=
  vget_vlanes_congr (vget_vlanes_ne _ _ _ hd.symm) _ _

/-- Settles O28: both slots read the registers as they were, the second does not write the first one's destination, and the flags
of the word are those of its slots, united. -/
theorem pairWord : Obligations.PairWord := by
  unfold Obligations.PairWord
  intro x y s key g sp b h c hx hy hd
  obtain ⟨t, g', sp', e, hf, hgo, hr⟩ := pair_goes x y h c
  obtain ⟨t0, g0, e0, h0, r0⟩ := vecOp_regs h
    (c.subset (List.cons_subset_cons x.d (List.subset_cons_of_subset y.d (List.subset_append_left ..))))
    x.p false x.d (slotSize x) fun r l => slotLane x r l
  obtain ⟨t1, g1, e1, h1, r1⟩ := vecOp_regs h
    (c.subset (List.subset_cons_of_subset x.d (List.cons_subset_cons y.d (List.subset_append_right ..))))
    y.p false y.d (slotSize y) fun r l => slotLane y r l
  refine ⟨t, g', sp', t0, g0, t1, g1, e, ⟨hf, hr ▸ (regsKeep_pairRegs x y g sp).withFsr _⟩, hgo, (exec_slotInstr x hx s).trans e0, h0,
    (exec_slotInstr y hy s).trans e1, h1, ?_, ?_, ?_⟩
  · rw [Gang.vget, Gang.vget, hr, r0]
    exact vget_pairRegs_first hd g sp
  · rw [Gang.vget, Gang.vget, hr, r1]
    exact vget_pairRegs_second hd g sp
  · rw [hr, r0, r1]
    exact fsr_pairFlags g.regs.fsr x y g sp

end Sys2Proof.Machine
end

section
/-! Long-latency floating-point instructions (O25): what fixes their results at issue, QMX's codes and scales, and what the return
of the last lanes writes. -/

namespace Sys2Proof.Machine

variable {s : State} {key : Nat} {g : Gang} {sp : Split} {b : Block} {u : Use}

-- At issue (R57, R241).

/-- The long operation that an instruction of a gang starts, with the results that it has fixed. -/
def newLongOp (key : Nat) (g : Gang) (uid : Nat) (vs : List (Nat × Nat × Word)) (ks : List (Nat × DWord))
    (fl : List (Nat × Nat)) : LongOp :=
  { gang := key, split := uid, vs := vs, ks := ks, flags := fl, en := enabledFlags g.regs, array := false }

/-- What the issue of a long-latency instruction leaves, whose results are `vs` and `ks` and whose flags are `fl`: no register and
no byte changes, and unless there is nothing to write a long operation holds the results, for which the split's window waits. -/
structure LongStarted (s t : State) (key : Nat) (g g' : Gang) (sp sp' : Split) (la size : Nat) (dv dk : List Nat)
    (vs : List (Nat × Nat × Word)) (ks : List (Nat × DWord)) (fl : List (Nat × Nat)) : Prop where
  gang : t.gang? key = some g'
  split : g'.split? = some sp'
  regs : g'.regs = g.regs
  moved : ∃ w, sp' = { sp with pc := sp.pc + dw size, windows := w }
  bytes : ∀ a, t.byte a = s.byte a
  scratch : ∀ a, t.sbyte a = s.sbyte a
  empty : vs = [] → ks = [] → t.longs = s.longs
  holds : vs ≠ [] ∨ ks ≠ [] → t.long? s.uid = some (newLongOp key g sp.uid vs ks fl)
  window : vs ≠ [] ∨ ks ≠ [] → ⟨s.uid, la, false, dv, dk⟩ ∈ sp'.windows

/-- Opening a window changes nothing of its split but the windows. -/
theorem openWindow_only (sp : Split) (op la : Nat) (done : Bool) (dv dk : List Nat) :
    ∃ w, openWindow sp op la done dv dk = { sp with windows := w } := by
  unfold openWindow
  split <;> exact ⟨_, rfl⟩

/-- A long operation starts, in a gang and a split whose prologue has passed. -/
theorem startLong_started (s : State) (key : Nat) (g : Gang) (sp : Split) (la size : Nat) (dv dk : List Nat)
    (vs : List (Nat × Nat × Word)) (ks : List (Nat × DWord)) (fl : List (Nat × Nat)) :
    ∃ g' sp', LongStarted s (startLong s key g sp la size dv dk vs ks fl) key g g' sp sp' la size dv dk vs ks fl ∧
      g'.stopped = g.stopped ∧ g'.hold = g.hold := by
  by_cases hn : vs = [] ∧ ks = []
  · obtain ⟨rfl, rfl⟩ := hn
    obtain ⟨w, hw⟩ := openWindow_only sp 0 la true dv dk
    have e : startLong s key g sp la size dv dk [] [] fl = retire s key g { sp with windows := w } size := by
      rw [← hw]
      rfl
    rw [e]
    exact ⟨_, _, ⟨setGang_gang_self .., setSplit_split .., rfl, ⟨w, rfl⟩, fun _ => rfl, fun _ => rfl, fun _ _ => rfl,
      fun h => by simp at h, fun h => by simp at h⟩, rfl, rfl⟩
  · have hc : ¬(vs.isEmpty && ks.isEmpty) = true := by
      rw [Bool.and_eq_true, List.isEmpty_iff, List.isEmpty_iff]
      exact hn
    have e : startLong s key g sp la size dv dk vs ks fl = retire { s with
        uid := s.uid + 1, longs := tput none s.longs s.uid (some (newLongOp key g sp.uid vs ks fl)) }
        key g (openWindow sp s.uid la false dv dk) size := if_neg hc
    rw [e]
    refine ⟨_, _, ⟨setGang_gang_self .., setSplit_split .., rfl, ⟨_, rfl⟩, fun _ => rfl, fun _ => rfl, fun h1 h2 => absurd ⟨h1, h2⟩ hn,
      fun _ => tget_tput_self none s.longs s.uid (some _), fun _ => ?_⟩, rfl, rfl⟩
    exact List.mem_append_right _ (List.mem_singleton.mpr rfl)

/-- An instruction whose effect is to start a long operation. -/
theorem issue_startLong (h : Issues s key g sp b) (c : Clear s key b g sp u) {la size : Nat} {dv dk : List Nat}
    {vs : List (Nat × Nat × Word)} {ks : List (Nat × DWord)} {fl : List (Nat × Nat)} {body : State → Nat → Gang → Split → State}
    (hb : body s key (stepGang s g sp) (stepWindows sp u) =
      startLong s key (stepGang s g sp) (stepWindows sp u) la size dv dk vs ks fl) :
    ∃ t g' sp', issue s u size body = .next t ∧ LongStarted s t key g g' sp sp' la size dv dk vs ks fl := by
  obtain ⟨g', sp', hr, hs, hh⟩ :=
    startLong_started s key (stepGang s g sp) (stepWindows sp u) la size dv dk vs ks fl
  obtain ⟨t, e, ⟨y, hy⟩, -⟩ := issue_counted (skip := size) h c hb hr.gang (hs.trans h.going) (hh.trans h.hold)
  obtain ⟨w, hw⟩ := stepWindows_only sp u
  obtain ⟨x, hx⟩ := hr.moved
  have hu : (stepWindows sp u).uid = sp.uid := by rw [hw]
  subst hy
  refine ⟨_, g', sp', e, hr.gang, hr.split, hr.regs, ⟨x, by rw [hx, hw]⟩, hr.bytes, hr.scratch, hr.empty,
    fun hv => (hr.holds hv).trans (congrArg (fun n => some (newLongOp key g n vs ks fl)) hu), hr.window⟩

theorem laneList_eq_nil {m : Lanes} : laneList m = [] ↔ m = 0 := by
  rw [List.eq_nil_iff_forall_not_mem]
  constructor
  · intro h
    refine BitVec.eq_of_getLsbD_eq fun i hi => ?_
    have hb : m.getLsbD i = false := Bool.eq_false_of_not_eq_true fun hb => h i ((mem_laneList m i).mpr ⟨hi, hb⟩)
    simpa using hb
  · rintro rfl l hl
    simpa [inLanes] using ((mem_laneList 0 l).mp hl).2

/-- The results of a long-latency instruction of one register, lane by lane. -/
theorem longLanes_narrow (d : Nat) (m : Lanes) (f : Nat → Nat) :
    longLanes false d m f = (laneList m).map fun l => (d, l, BitVec.ofNat 32 (f l)) :=
  List.map_eq_flatMap.symm

theorem longLanes_eq_nil {d : Nat} {m : Lanes} {f : Nat → Nat} : longLanes false d m f = [] ↔ m = 0 := by
  rw [longLanes_narrow, List.map_eq_nil_iff, laneList_eq_nil]

theorem mem_longLanes {d : Nat} {m : Lanes} {f : Nat → Nat} {r l : Nat} {v : Word} :
    (r, l, v) ∈ longLanes false d m f ↔ r = d ∧ (l < 64 ∧ inLanes m l = true) ∧ v = BitVec.ofNat 32 (f l) := by
  rw [longLanes_narrow, List.mem_map]
  constructor
  · rintro ⟨j, hj, e⟩
    obtain ⟨rfl, rfl, rfl⟩ := Prod.mk.injEq .. ▸ e
    exact ⟨rfl, (mem_laneList m _).mp hj, rfl⟩
  · rintro ⟨rfl, hl, rfl⟩
    exact ⟨l, (mem_laneList m l).mpr hl, rfl⟩

/-- A long-latency lane instruction of one register starts as `StartsLong` says. -/
theorem longOp_startsLong {i : Instr} {size : Nat} {p : Pred} {d la : Nat} {f : Gang → Nat → Nat × Nat}
    {f' : Regs → Nat → Nat × Nat} (he : ∀ s, exec i s = longOp s u p d la size f') (hf : ∀ g l, f' g.regs l = f g l) :
    StartsLong i size u p .f32 d la f := by
  obtain rfl : f = fun g l => f' g.regs l := (funext fun g => funext fun l => hf g l).symm
  intro s key g sp b h c
  have ha : activeLanes (stepGang s g sp) (stepWindows sp { u with long := true }) p = activeLanes g sp p := by
    simp [activeLanes, Gang.mget]
  obtain ⟨t, g', sp', e, hr⟩ := issue_startLong (size := size) (la := la) (dv := [d]) (dk := []) (ks := [])
    (vs := longLanes false d (activeLanes g sp p) fun l => (f' g.regs l).1)
    (fl := (laneList (activeLanes g sp p)).map fun l => (l, (f' g.regs l).2)) h c
    (body := fun s key g sp => startLong s key g sp la size [d] [] (longLanes false d (activeLanes g sp p) fun l => (f' g.regs l).1) []
      ((laneList (activeLanes g sp p)).map fun l => (l, (f' g.regs l).2)))
    (by rw [ha]; rfl)
  obtain ⟨w, rfl⟩ := hr.moved
  refine ⟨t, g', _, (he s).trans e, hr.gang, hr.split, hr.regs, rfl, rfl, rfl, h.ready, hr.bytes, hr.scratch,
    fun h0 => hr.empty (longLanes_eq_nil.mpr h0) rfl, fun h0 => ?_⟩
  have hne : (longLanes false d (activeLanes g sp p) fun l => (f' g.regs l).1) ≠ [] := fun e => h0 (longLanes_eq_nil.mp e)
  exact ⟨_, hr.holds (.inl hne), rfl, rfl, rfl, rfl, rfl, _, hr.window (.inl hne), rfl, rfl, rfl, rfl, rfl⟩

-- QMX (R245, R271).

theorem packCodes_lt (w : Nat) (l : List Nat) : packCodes w l < 2 ^ (w * l.length) := by
  induction l with
  | nil => simp [packCodes]
  | cons x r ih =>
    have hx : x % 2 ^ w < 2 ^ w := Nat.mod_lt _ (Nat.two_pow_pos w)
    have e : 2 ^ (w * (r.length + 1)) = 2 ^ w * 2 ^ (w * r.length) := by rw [← Nat.pow_add, Nat.mul_succ, Nat.add_comm]
    rw [packCodes, List.length_cons, e]
    calc x % 2 ^ w + 2 ^ w * packCodes w r
        < 2 ^ w * 1 + 2 ^ w * packCodes w r := by omega
      _ = 2 ^ w * (1 + packCodes w r) := (Nat.mul_add ..).symm
      _ ≤ 2 ^ w * 2 ^ (w * r.length) := Nat.mul_le_mul_left _ (by omega)

/-- Code `j` of a packed content. -/
theorem elt_packCodes (w : Nat) (l : List Nat) (j : Nat) : elt w (packCodes w l) j = l.getD j 0 % 2 ^ w := by
  induction l generalizing j with
  | nil => simp [packCodes, elt]
  | cons x r ih =>
    cases j with
    | zero => simp [packCodes, elt]
    | succ j =>
      rw [List.getD_cons_succ, ← ih j, elt, elt, packCodes, Nat.mul_succ, Nat.add_comm (w * j), Nat.pow_add, ← Nat.div_div_eq_div_mul,
        Nat.add_mul_div_left _ _ (Nat.two_pow_pos w), Nat.div_eq_of_lt (Nat.mod_lt _ (Nat.two_pow_pos w)), Nat.zero_add]

/-- A part of a list, read by its place in the whole. -/
theorem getD_take_drop (l : List Nat) (n k j : Nat) (h : j < k) : ((l.drop n).take k).getD j 0 = l.getD (n + j) 0 := by
  simp only [List.getD_eq_getElem?_getD, List.getElem?_take, h, if_true, List.getElem?_drop]

/-- What QMX makes of the block `c` of 32 lanes: its scale, its codes and its flags. -/
def qmxOf (t : Ty) (a : VReg) (bias : BitVec 8) (g : Gang) (m : Lanes) (c : Nat) : Nat × List Nat × Nat :=
  if blockActive m c then quantise (fmtOf t) bias.toInt (qmxBlock g.regs m a c) else (0, List.replicate 32 0, 0)

/-- The content that QMX gives lane `l`. -/
def qmxLane (t : Ty) (q : Nat → Nat × List Nat × Nat) (l : Nat) : Nat :=
  packCodes t.shape.1 (((q (l / 32)).2.1.drop (l % 32 * t.shape.2)).take t.shape.2)

/-- The lanes that QMX writes. -/
def qmxLanes (t : Ty) (m : Lanes) : Lanes := laneSet fun l => inLanes m l && decide (l % 32 < 32 / t.shape.2)

theorem inLanes_lt {m : Lanes} {l : Nat} (h : inLanes m l = true) : l < 64 := BitVec.lt_of_getLsbD h

theorem inLanes_qmxLanes (t : Ty) (m : Lanes) (l : Nat) :
    inLanes (qmxLanes t m) l = true ↔ inLanes m l = true ∧ l % 32 < 32 / t.shape.2 := by
  rw [qmxLanes, inLanes_laneSet, Bool.and_eq_true, Bool.and_eq_true, decide_eq_true_eq, decide_eq_true_eq]
  exact ⟨fun h => h.2, fun h => ⟨inLanes_lt h.1, h⟩⟩

/-- The lanes of which QMX holds a result. -/
theorem exists_mem_qmxLanes (t : Ty) (d : Nat) (m : Lanes) (f : Nat → Nat) (l : Nat) :
    (∃ r, (d, l, r) ∈ longLanes false d (qmxLanes t m) f) ↔ inLanes m l = true ∧ l % 32 < 32 / t.shape.2 := by
  rw [← inLanes_qmxLanes]
  constructor
  · rintro ⟨r, hr⟩
    obtain ⟨-, ⟨-, h⟩, -⟩ := mem_longLanes.mp hr
    exact h
  · exact fun h => ⟨_, mem_longLanes.mpr ⟨rfl, ⟨inLanes_lt h, h⟩, rfl⟩⟩

theorem blockActive_iff (m : Lanes) (c : Nat) : blockActive m c = true ↔ ∃ i < 32, inLanes m (32 * c + i) = true := by
  simp [blockActive]

/-- A lane's block is the first or the second. -/
theorem block_of_lane {α : Type} (f : Nat → α) {l : Nat} (h : l < 64) : (if l < 32 then f 0 else f 1) = f (l / 32) := by
  split
  · rw [Nat.div_eq_of_lt ‹_›]
  · rw [show l / 32 = 1 by omega]

/-- What QMX writes to a lane holds, element by element, the codes of the lane's block from the lane's place on. -/
theorem qmxLane_elt {t : Ty} (ht : t.wide = false) (q : Nat → Nat × List Nat × Nat) (l : Nat) {j : Nat} (hj : j < t.shape.2) :
    elt t.shape.1 (BitVec.ofNat 32 (qmxLane t q l)).toNat j =
      (q (l / 32)).2.1.getD (l % 32 * t.shape.2 + j) 0 % 2 ^ t.shape.1 := by
  have hlt : qmxLane t q l < 2 ^ 32 := by
    have hb := shape_bits t
    rw [ht] at hb
    refine (packCodes_lt ..).trans_le (Nat.pow_le_pow_right (Nat.zero_lt_two) ?_)
    calc t.shape.1 * _ ≤ t.shape.1 * t.shape.2 := Nat.mul_le_mul_left _ (List.length_take_le ..)
      _ = 32 := hb
  rw [BitVec.toNat_ofNat, Nat.mod_eq_of_lt hlt, qmxLane, elt_packCodes, getD_take_drop _ _ _ _ hj]

/-- The contents of QMX's lanes, as two blocks. -/
theorem longLanes_qmxLane (t : Ty) (d : Nat) (q : Nat → Nat × List Nat × Nat) (m : Lanes) :
    (longLanes false d m fun l => packCodes t.shape.1
      (((if l < 32 then (q 0).2.1 else (q 1).2.1).drop (l % 32 * t.shape.2)).take t.shape.2)) =
      longLanes false d m (qmxLane t q) := by
  rw [longLanes_narrow, longLanes_narrow]
  refine List.map_congr_left fun l hl => ?_
  rw [block_of_lane (fun c => (q c).2.1) ((mem_laneList m l).mp hl).1]
  rfl

/-- The flags of QMX's lanes, as two blocks. -/
theorem laneFlags_qmx (q : Nat → Nat × List Nat × Nat) (m : Lanes) :
    ((laneList m).map fun l => (l, if l < 32 then (q 0).2.2 else (q 1).2.2)) = (laneList m).map fun l => (l, (q (l / 32)).2.2) := by
  refine List.map_congr_left fun l hl => ?_
  rw [block_of_lane (fun c => (q c).2.2) ((mem_laneList m l).mp hl).1]

/-- QMX starts a long operation of its codes and scales. -/
theorem exec_qmx_body (p : Pred) (t : Ty) (d : VReg) (ks : KReg) (a : VReg) (bias : BitVec 8) (la : Nat) (s : State) :
    exec (.qmx p t d ks a bias la) s = issue s { v := [d, a], k := [ks], long := true } 12 fun s key g sp =>
      let m := activeLanes g sp p
      let q := qmxOf t a bias g m
      startLong s key g sp la 12 [d] [ks] (longLanes false d (qmxLanes t m) (qmxLane t q))
        [(ks, dw ((q 0).1 + 256 * (q 1).1))] ((laneList m).map fun l => (l, (q (l / 32)).2.2)) := by
  rw [exec_qmx, execQmx]
  refine congrArg (issue s { v := [d, a], k := [ks], long := true } 12)
    (funext fun s => funext fun key => funext fun g => funext fun sp => ?_)
  dsimp only
  rw [← longLanes_qmxLane, ← laneFlags_qmx]
  rfl

/-- QMX: its codes, scales and flags are fixed at issue. -/
theorem qmx_starts (p : Pred) (t : Ty) (d : VReg) (ks : KReg) (a : VReg) (bias : BitVec 8) (la : Nat) (h : Issues s key g sp b)
    (c : Clear s key b g sp { v := [d, a], k := [ks], long := true }) :
    let q := qmxOf t a bias g (activeLanes g sp p)
    ∃ t' g' sp', exec (.qmx p t d ks a bias la) s = .next t' ∧ LongStarted s t' key g g' sp sp' la 12 [d] [ks]
      (longLanes false d (qmxLanes t (activeLanes g sp p)) (qmxLane t q)) [(ks, dw ((q 0).1 + 256 * (q 1).1))]
      ((laneList (activeLanes g sp p)).map fun l => (l, (q (l / 32)).2.2)) := by
  rw [exec_qmx_body]
  exact issue_startLong h c rfl

-- At completion (R57, R60, R241).

/-- The registers after results have been written to their lanes. -/
def landed (vs : List (Nat × Nat × Word)) (r : Regs) : Regs :=
  vs.foldl (fun (r : Regs) e => r.vlanes e.1 (laneSet (· == e.2.1)) fun _ => e.2.2) r

theorem landed_only (vs : List (Nat × Nat × Word)) (r : Regs) : ∃ v, landed vs r = { r with v := v } := by
  induction vs generalizing r with
  | nil => exact ⟨r.v, rfl⟩
  | cons e l ih =>
    obtain ⟨v, hv⟩ := ih (r.vlanes e.1 (laneSet (· == e.2.1)) fun _ => e.2.2)
    exact ⟨v, hv⟩

/-- One lane of one register written. -/
theorem lane_vlanes_one (r : Regs) (d l i j : Nat) (x : Word) (hj : j < 64) :
    lane ((r.vlanes d (laneSet (· == l)) fun _ => x).vget i) j = if i = d ∧ j = l then x else lane (r.vget i) j := by
  by_cases hi : i = d
  · subst hi
    rw [lane_vlanes _ _ _ _ _ hj]
    simp [hj]
  · rw [vget_vlanes_ne _ _ _ hi, if_neg fun h => hi h.1]

/-- A lane for which no result has come keeps its content. -/
theorem lane_landed_other {vs : List (Nat × Nat × Word)} (r : Regs) {i j : Nat} (hj : j < 64)
    (h : ∀ e ∈ vs, ¬(e.1 = i ∧ e.2.1 = j)) : lane ((landed vs r).vget i) j = lane (r.vget i) j := by
  induction vs generalizing r with
  | nil => rfl
  | cons e l ih =>
    refine (ih _ fun x hx => h x (List.mem_cons_of_mem _ hx)).trans ?_
    rw [lane_vlanes_one _ _ _ _ _ _ hj, if_neg fun hc => h e List.mem_cons_self ⟨hc.1.symm, hc.2.symm⟩]

/-- Results for lanes that are all different stand there. -/
theorem lane_landed {vs : List (Nat × Nat × Word)} (r : Regs) (hn : (vs.map fun e => (e.1, e.2.1)).Nodup)
    (hl : ∀ e ∈ vs, e.2.1 < 64) {e : Nat × Nat × Word} (he : e ∈ vs) : lane ((landed vs r).vget e.1) e.2.1 = e.2.2 := by
  induction vs generalizing r with
  | nil => cases he
  | cons x l ih =>
    rw [List.map_cons, List.nodup_cons] at hn
    rcases List.mem_cons.mp he with rfl | he
    · refine (lane_landed_other (vs := l) _ (hl e List.mem_cons_self) fun y hy hc => hn.1 ?_).trans ?_
      · exact List.mem_map.mpr ⟨y, hy, Prod.ext hc.1 hc.2⟩
      · rw [lane_vlanes_one _ _ _ _ _ _ (hl e List.mem_cons_self), if_pos ⟨rfl, rfl⟩]
    · exact ih _ hn.2 (fun y hy => hl y (List.mem_cons_of_mem _ hy)) he

/-- The gang with the uniform results of a long operation. -/
def ksLanded (ks : List (Nat × DWord)) (g : Gang) : Gang := ks.foldl (fun (g : Gang) e => g.kset e.1 e.2) g

theorem ksLanded_only (ks : List (Nat × DWord)) (g : Gang) :
    ∃ k, ksLanded ks g = { g with regs := { g.regs with k := k } } := by
  induction ks generalizing g with
  | nil => exact ⟨g.regs.k, rfl⟩
  | cons e l ih =>
    obtain ⟨k, hk⟩ := ih (g.kset e.1 e.2)
    refine ⟨k, hk.trans ?_⟩
    unfold Gang.kset Regs.kset
    split <;> rfl

theorem kget_ksLanded {ks : List (Nat × DWord)} (g : Gang) {k : Nat} (h : ∀ e ∈ ks, e.1 ≠ k) :
    (ksLanded ks g).kget k = g.kget k := by
  induction ks generalizing g with
  | nil => rfl
  | cons e l ih =>
    refine (ih _ fun x hx => h x (List.mem_cons_of_mem _ hx)).trans ?_
    exact (kget_kset ..).trans (if_neg fun hc => h e List.mem_cons_self hc.1.symm)

/-- The gang after the last results of a long operation. -/
def longDone (op : Nat) (x : LongOp) (g : Gang) : Gang :=
  closeWindow (spreadFpx (mergeFsr (ksLanded x.ks { g with regs := landed x.vs g.regs }) (allFlags x.flags)) x.en x.flags) op

/-- A window that is closed is done, in whatever split it stands. -/
theorem closeWindow_done {op i : Nat} {w : Window} (h : tget none (closeWindow g op).splits i = some sp) (hw : w ∈ sp.windows)
    (ho : w.op = op) : w.done = true := by
  obtain ⟨x, -, rfl⟩ := Option.map_eq_some_iff.mp ((tget_map (Option.map _) rfl g.splits i).symm.trans h)
  obtain ⟨y, -, rfl⟩ := List.mem_map.mp (List.mem_of_mem_filter hw)
  split
  · rfl
  · next hy => exact absurd (by rwa [if_neg hy] at ho) hy

theorem modGang_present (hg : s.gang? key = some g) (f : Gang → Gang) : s.modGang key f = s.setGang key (f g) := by
  rw [State.modGang, hg]

/-- LONG_LATENCY_COMPLETE of all the lanes that are left. -/
theorem longLatencyComplete_last {op : Nat} {lanes : Lanes} {x : LongOp} (hx : s.long? op = some x) (ha : x.array = false)
    (hg : s.gang? x.gang = some g) (hl : ∀ e ∈ x.vs, inLanes lanes e.2.1 = true) :
    exec (.longLatencyComplete op lanes) s =
      .next (((s.setGang x.gang { g with regs := landed x.vs g.regs }).setGang x.gang (longDone op x g)).setLong op none) := by
  have hn : (x.vs.filter fun e => inLanes lanes e.2.1) = x.vs := List.filter_eq_self.mpr hl
  have hr : (x.vs.filter fun e => !inLanes lanes e.2.1) = [] := List.filter_eq_nil_iff.mpr fun e he => by simp [hl e he]
  rw [exec_longLatencyComplete, execLongLatencyComplete]
  simp only [hx, ha, hn, hr, List.isEmpty_nil, Bool.not_true, Bool.false_eq_true, if_false]
  rw [modGang_present hg, modGang_present (setGang_gang_self ..)]
  rfl

/-- A gang put back twice leaves everything outside it as it was. -/
theorem quiet_setGang_twice (s : State) (key : Nat) (g g' : Gang) : Quiet s ((s.setGang key g).setGang key g') key where
  memory := fun _ => rfl
  scratch := fun _ => rfl
  gangs := fun k hk => by rw [setGang_gang, if_neg hk, setGang_gang, if_neg hk]
  ctxs := fun _ => Iff.rfl
  ctx := fun _ x hx => ⟨x.wrdcnt, hx⟩
  rest := ⟨_, s.ctxs, rfl⟩

/-- The registers after the last results of a long operation. -/
theorem longDone_regs (op : Nat) (x : LongOp) (g : Gang) :
    (∀ i, (longDone op x g).vget i = (landed x.vs g.regs).vget i) ∧
    (∀ k, (∀ e ∈ x.ks, e.1 ≠ k) → (longDone op x g).kget k = g.kget k) ∧
    ∀ i < 7, (longDone op x g).regs.fsr.getLsbD i = true ↔
      g.regs.fsr.getLsbD i = true ∨ ∃ e ∈ x.flags, e.2.testBit i = true := by
  obtain ⟨v, hv⟩ := landed_only x.vs g.regs
  obtain ⟨k, hk⟩ := ksLanded_only x.ks { g with regs := landed x.vs g.regs }
  refine ⟨fun i => ?_, fun j hj => ?_, fun i hi => ?_⟩
  · show (ksLanded x.ks { g with regs := landed x.vs g.regs }).vget i = _
    rw [hk]
    rfl
  · show (ksLanded x.ks { g with regs := landed x.vs g.regs }).kget j = _
    rw [kget_ksLanded _ hj, hv]
    rfl
  · show (mergeFsr (ksLanded x.ks { g with regs := landed x.vs g.regs }) (allFlags x.flags)).regs.fsr.getLsbD i = true ↔ _
    rw [mergeFsr_bit _ _ _ (by omega), hk, hv]
    simp [hi]

/-- Settles O25: the lane instructions by `longOp`, QMX by its codes, and the completion by the gang that it leaves. -/
theorem floatLongLatency : Obligations.FloatLongLatency := by
  unfold Obligations.FloatLongLatency
  refine ⟨fun p d a la => longOp_startsLong (exec_frcp p d a la) fun _ _ => rfl,
    fun p d a la => longOp_startsLong (exec_frsq p d a la) fun _ _ => rfl,
    fun p rm d a la => longOp_startsLong (exec_fsqrt p rm d a la) fun _ _ => rfl,
    fun p d a la => longOp_startsLong (exec_fexp2 p d a la) fun _ _ => rfl,
    fun p d a la => longOp_startsLong (exec_flog2 p d a la) fun _ _ => rfl,
    fun p d a la => longOp_startsLong (exec_fsin p d a la) fun _ _ => rfl,
    fun p d a la => longOp_startsLong (exec_fcos p d a la) fun _ _ => rfl,
    fun p rm d a b la => longOp_startsLong (exec_fdiv p rm d a b la) fun _ _ => rfl,
    fun p t d ks a bias la s key g sp b h c => ?_, fun op lanes s x g hx ha hg hl hn => ?_⟩
  · obtain ⟨t', g', sp', e, hr⟩ := qmx_starts p t d ks a bias la h c
    obtain ⟨w, rfl⟩ := hr.moved
    refine ⟨t', g', _, _, e, hr.gang, hr.split, hr.regs, rfl, hr.bytes, hr.holds (.inr nofun), rfl, rfl,
      ⟨_, hr.window (.inr nofun), rfl, rfl, rfl, rfl, rfl⟩, qmxOf t a bias g (activeLanes g sp p), fun c _ => ?_, rfl, rfl, fun l => ?_,
      fun ht v hv => ?_⟩
    · exact if_congr (blockActive_iff _ c) rfl rfl
    · exact exists_mem_qmxLanes ..
    · obtain ⟨r, l, v⟩ := v
      obtain ⟨hr, -, rfl⟩ := mem_longLanes.mp hv
      exact ⟨hr, fun j hj => qmxLane_elt ht _ l hj⟩
  · obtain ⟨h1, h2, h3⟩ := longDone_regs op x g
    refine ⟨_, longDone op x g, longLatencyComplete_last hx ha hg fun e he => (hl e he).2, quiet_setGang_twice .., setGang_gang_self ..,
      setLong_long_self .., fun o ho => (setLong_long ..).trans (if_neg ho), fun e he => ?_, fun r l hl' h => ?_, h2, h3,
      fun i sp' hs w hw ho => closeWindow_done hs hw ho⟩
    · rw [h1]
      exact lane_landed g.regs hn (fun e he => (hl e he).1) he
    · rw [h1]
      exact lane_landed_other g.regs hl' h

end Sys2Proof.Machine
end

section
/-! Returned data (O34): a narrow value extended (R94), what a returned sector writes into a gang's registers (R88, R99), and a
request that is over (R57, R89). -/

namespace Sys2Proof.Machine

set_option Elab.async false

variable {s : State} {u sec : Nat} {r : Req} {g : Gang}

-- Narrow values (R94).

/-- The low bits of a value that fits in them, extended without and with their sign. -/
theorem extend_narrow {v : DWord} {w : Nat} (hw : w ≤ 64) (hv : v.toNat < 2 ^ w) :
    ((v.truncate w).zeroExtend 64).toNat = v.toNat ∧
    ((v.truncate w).signExtend 64).toInt = if 2 * v.toNat < 2 ^ w then (v.toNat : Int) else v.toNat - 2 ^ w := by
  have e : (v.truncate w).toNat = v.toNat := by
    exact (BitVec.toNat_setWidth ..).trans (Nat.mod_eq_of_lt hv)
  constructor
  · exact (BitVec.toNat_setWidth ..).trans (by rw [e, Nat.mod_eq_of_lt v.isLt])
  · rw [BitVec.toInt_signExtend_of_le hw, BitVec.toInt_eq_toNat_cond, e]
    push_cast
    rfl

theorem extendTo64_narrow {v : DWord} {n : Nat} (hn : n = 1 ∨ n = 2 ∨ n = 4) (hv : v.toNat < 256 ^ n) :
    (extendTo64 n false v).toNat = v.toNat ∧
    (extendTo64 n true v).toInt = if 2 * v.toNat < 256 ^ n then (v.toNat : Int) else v.toNat - 256 ^ n := by
  rcases hn with rfl | rfl | rfl
  · exact extend_narrow (w := 8) (by decide) hv
  · exact extend_narrow (w := 16) (by decide) hv
  · exact extend_narrow (w := 32) (by decide) hv

-- What a value writes into the registers (R88, R99).

/-- A value for a vector register, or a pair of them, goes into its lane of it; no other lane and no other register changes. -/
theorem lane_writeDest_vec (g : Gang) (d : Nat) (wide : Bool) (l : Nat) (v : DWord) (i : Nat) {j : Nat} (hj : j < 64) :
    lane ((writeDest g (.vec d wide) l v).vget i) j =
      if j = l ∧ i = d then BitVec.ofNat 32 v.toNat
      else if j = l ∧ wide = true ∧ i = d + 1 then BitVec.ofNat 32 (v.toNat / 2 ^ 32) else lane (g.vget i) j := by
  have h1 (q : Regs) (k : Nat) (f : Nat → Word) :
      lane ((q.vlanes k (laneSet (· == l)) f).vget i) j = if j = l ∧ i = k then f j else lane (q.vget i) j := by
    by_cases hi : i = k
    · subst hi
      simp [lane_vlanes _ _ _ _ _ hj, hj]
    · simp [vget_vlanes_ne _ _ _ hi, hi]
  show lane ((g.regs.putLanes wide d (laneSet (· == l)) fun _ => v.toNat).vget i) j = _
  unfold Regs.putLanes
  cases wide
  · simp only [Bool.false_eq_true, if_false, h1, false_and, and_false]
    rfl
  · simp only [if_true, h1, true_and]
    by_cases h : j = l ∧ i = d
    · rw [if_pos h, if_pos h, if_neg (by omega)]
    · rw [if_neg h, if_neg h]
      rfl

theorem kget_writeDest_vec (g : Gang) (d : Nat) (wide : Bool) (l : Nat) (v : DWord) (i : Nat) :
    (writeDest g (.vec d wide) l v).kget i = g.kget i := by
  show (g.regs.putLanes wide d _ _).kget i = _
  unfold Regs.putLanes
  split <;> rfl

/-- A returned value changes no counter. -/
theorem writeDest_lcnt (g : Gang) (d : Dest) (l : Nat) (v : DWord) : (writeDest g d l v).regs.lcnt = g.regs.lcnt := by
  unfold writeDest
  split
  · rfl
  · show (g.regs.kset _ v).lcnt = _
    unfold Regs.kset
    split <;> rfl
  · show (g.regs.putLanes _ _ _ _).lcnt = _
    unfold Regs.putLanes
    split <;> rfl

/-- The gang once the data of some elements of a request has been written to its destination. -/
def landElems (u : Nat) (r : Req) (es : List Elem) (g : Gang) : Gang :=
  es.foldl (fun g e => match r.results.find? (fun x => x.1 == e.lane) with
    | some x => writeDest g r.dest e.lane (resultWord u r e x.2)
    | none => g) g

/-- What every value that is written leaves, all of them together leave. -/
theorem landElems_keeps {α : Type} (f : Gang → α) (u : Nat) (r : Req) (es : List Elem) (g : Gang)
    (h : ∀ e ∈ es, ∀ g v, f (writeDest g r.dest e.lane v) = f g) : f (landElems u r es g) = f g := by
  induction es generalizing g with
  | nil => rfl
  | cons e l ih =>
    refine (ih _ fun x hx => h x (.tail _ hx)).trans ?_
    dsimp only
    split
    · exact h e (.head _) g _
    · rfl

/-- Each element's value stands in its lane of the destination, where the lanes of the elements differ. -/
theorem lane_landElems {es : List Elem} {d i : Nat} {wide : Bool} (hd : r.dest = .vec d wide) (hl : ∀ e ∈ es, e.lane < 64)
    (hn : (es.map (·.lane)).Nodup) {e : Elem} (he : e ∈ es) {v : DWord}
    (hv : r.results.find? (fun x => x.1 == e.lane) = some (e.lane, v)) (hi : i = d ∨ wide = true ∧ i = d + 1) (g : Gang) :
    lane ((landElems u r es g).vget i) e.lane =
      BitVec.ofNat 32 (if i = d then (resultWord u r e v).toNat else (resultWord u r e v).toNat / 2 ^ 32) := by
  induction es generalizing g with
  | nil => cases he
  | cons x l ih =>
    obtain ⟨hx, hn'⟩ := List.nodup_cons.mp hn
    by_cases hxe : e = x
    · subst hxe
      have hrest (g : Gang) : lane ((landElems u r l g).vget i) e.lane = lane (g.vget i) e.lane := by
        refine landElems_keeps (fun g => lane (g.vget i) e.lane) u r l g fun y hy g v => ?_
        have hy' : e.lane ≠ y.lane := fun h => hx (List.mem_map.mpr ⟨y, hy, h.symm⟩)
        rw [hd, lane_writeDest_vec _ _ _ _ _ _ (hl e he), if_neg (fun h => hy' h.1), if_neg (fun h => hy' h.1)]
      refine (hrest _).trans ?_
      simp only [hv, hd]
      rw [lane_writeDest_vec _ _ _ _ _ _ (hl e he)]
      rcases hi with rfl | ⟨hw, rfl⟩
      · simp
      · simp [hw]
    · exact ih (fun y hy => hl y (.tail _ hy)) hn' ((List.mem_cons.mp he).resolve_left hxe) _

/-- Lanes of the destination that no element names, and every other register, keep what they hold. -/
theorem lane_landElems_other {es : List Elem} {d i l : Nat} {wide : Bool} (hd : r.dest = .vec d wide) (hl : l < 64)
    (h : (i ≠ d ∧ (wide = true → i ≠ d + 1)) ∨ ∀ e ∈ es, e.lane ≠ l) (g : Gang) :
    lane ((landElems u r es g).vget i) l = lane (g.vget i) l := by
  refine landElems_keeps (fun g => lane (g.vget i) l) u r es g fun e he g v => ?_
  rw [hd, lane_writeDest_vec _ _ _ _ _ _ hl]
  rcases h with ⟨h1, h2⟩ | h
  · rw [if_neg fun h => h1 h.2, if_neg fun h => h2 h.2.1 h.2.2]
  · rw [if_neg fun hc => h e he hc.1.symm, if_neg fun hc => h e he hc.1.symm]

-- A request that is over (R57, R89).

/-- A gang with a counter one lower: 1 names LCNT, 2 SCNT. -/
def Gang.lowered (g : Gang) (which : Nat) : Gang :=
  if which = 1 then { g with regs := { g.regs with lcnt := g.regs.lcnt - 1 } }
  else if which = 2 then { g with regs := { g.regs with scnt := g.regs.scnt - 1 } }
  else g

/-- The gang of a request that is over: its counter is one lower, and the windows of the request are done. -/
def Gang.finished (g : Gang) (u : Nat) (r : Req) : Gang := closeWindow (g.lowered r.counted) u

theorem finished_regs (g : Gang) (u : Nat) (r : Req) : ∃ n m, (g.finished u r).regs = { g.regs with lcnt := n, scnt := m } := by
  show ∃ n m, (g.lowered r.counted).regs = _
  unfold Gang.lowered
  repeat' split
  all_goals exact ⟨_, _, rfl⟩

theorem finished_lcnt (g : Gang) (u : Nat) (r : Req) :
    (g.finished u r).regs.lcnt = g.regs.lcnt - (if r.counted = 1 then 1 else 0) := by
  show (g.lowered r.counted).regs.lcnt = _
  unfold Gang.lowered
  repeat' split
  all_goals rfl

theorem finished_vget (g : Gang) (u : Nat) (r : Req) (i : Nat) : (g.finished u r).vget i = g.vget i := by
  obtain ⟨n, m, h⟩ := finished_regs g u r
  rw [Gang.vget, h]
  rfl

theorem finished_kget (g : Gang) (u : Nat) (r : Req) (i : Nat) : (g.finished u r).kget i = g.kget i := by
  obtain ⟨n, m, h⟩ := finished_regs g u r
  rw [Gang.kget, h]
  rfl

/-- A request that is over leaves the table; besides, only its gang and the aged lists change. -/
theorem finishReq_only (s : State) (u : Nat) (r : Req) : ∃ a x y, finishReq s u r = { s with aged := a, gangs := x, reqs := y } ∧
    tget none y u = none ∧ (∀ v, v ≠ u → tget none y v = s.req? v) ∧
    ∀ k, tget none x k = if k = r.gang then (s.gang? k).map (·.finished u r) else s.gang? k := by
  obtain ⟨x1, e1⟩ := modGang_only (unage s u) r.gang fun g => g.lowered r.counted
  obtain ⟨x2, e2⟩ := modGang_only { unage s u with gangs := x1 } r.gang fun g => closeWindow g u
  have e : finishReq s u r = ({ unage s u with gangs := x2 } : State).setReq u none := by
    rw [← e2, ← e1]
    rfl
  refine ⟨_, x2, _, e, tget_tput_self .., fun v hv => tget_tput_ne _ _ _ hv, fun k => ?_⟩
  show ({ unage s u with gangs := x2 } : State).gang? k = _
  rw [← e2, modGang_gang, ← e1, modGang_gang]
  by_cases hk : k = r.gang
  · simp only [if_pos hk, Option.map_map]
    rfl
  · simp only [if_neg hk]
    rfl

-- The data of a sector returns (R88).

/-- The state once the data of a sector has been written, the request not over yet. -/
def dataLanded (s : State) (u sec : Nat) (r : Req) (g : Gang) : State :=
  (s.setGang r.gang (landElems u r (secElems r sec) g)).setReq u (some { r with returned := r.returned ++ [sec] })

/-- The gang once the data of a sector has been written, and with the last sector the request is over. -/
def landedGang (u sec : Nat) (r : Req) (g : Gang) (last : Bool) : Gang :=
  if last then (landElems u r (secElems r sec) g).finished u r else landElems u r (secElems r sec) g

/-- Whether a sector is the last of a request whose data returns. -/
def lastSector (r : Req) (sec : Nat) : Bool :=
  r.allPerformed && (sectorsOf r).all ((r.returned ++ [sec]).contains ·)

theorem returnSector_eq (hr : s.req? u = some r) (hg : s.gang? r.gang = some g) (hp : sec ∈ r.performed)
    (hn : sec ∉ r.returned) : returnSector s u sec =
      if lastSector r sec then finishReq (dataLanded s u sec r g) u { r with returned := r.returned ++ [sec] }
      else dataLanded s u sec r g := by
  have hp' : r.performed.contains sec = true := by simpa using hp
  have hn' : r.returned.contains sec = false := by simpa using hn
  unfold returnSector
  simp only [hr, hp', hn', Bool.not_true, Bool.or_self, Bool.false_eq_true, if_false, modGang_present hg]
  rfl

/-- The return of a sector's data changes its gang and its request, and no byte. -/
theorem returnSector_frame (hr : s.req? u = some r) (hg : s.gang? r.gang = some g) (hp : sec ∈ r.performed)
    (hn : sec ∉ r.returned) :
    (returnSector s u sec).gang? r.gang = some (landedGang u sec r g (lastSector r sec)) ∧
    (∀ a, (returnSector s u sec).byte a = s.byte a) ∧ (∀ a, (returnSector s u sec).sbyte a = s.sbyte a) ∧
    (∀ k, k ≠ r.gang → (returnSector s u sec).gang? k = s.gang? k) ∧
    (lastSector r sec = true → (returnSector s u sec).req? u = none) := by
  have hk (k : Nat) : (dataLanded s u sec r g).gang? k =
      if k = r.gang then some (landElems u r (secElems r sec) g) else s.gang? k := setGang_gang ..
  rw [returnSector_eq hr hg hp hn]
  unfold landedGang
  split
  · obtain ⟨a, x, y, e, h1, -, h2⟩ := finishReq_only (dataLanded s u sec r g) u { r with returned := r.returned ++ [sec] }
    rw [e]
    refine ⟨(h2 r.gang).trans ?_, fun _ => rfl, fun _ => rfl, fun k hk' => (h2 k).trans ?_, fun _ => h1⟩
    · rw [if_pos rfl, hk, if_pos rfl]
      rfl
    · rw [if_neg hk', hk, if_neg hk']
  · next h => exact ⟨(hk r.gang).trans (if_pos rfl), fun _ => rfl, fun _ => rfl, fun k hk' => (hk k).trans (if_neg hk'),
      fun hl => absurd hl h⟩

theorem landedGang_vget (u sec : Nat) (r : Req) (g : Gang) (last : Bool) (i : Nat) :
    (landedGang u sec r g last).vget i = (landElems u r (secElems r sec) g).vget i := by
  unfold landedGang
  split
  · exact finished_vget ..
  · rfl

theorem landedGang_kget (u sec : Nat) (r : Req) (g : Gang) (last : Bool) (i : Nat) :
    (landedGang u sec r g last).kget i = (landElems u r (secElems r sec) g).kget i := by
  unfold landedGang
  split
  · exact finished_kget ..
  · rfl

/-- A lone element of a uniform destination puts its value there. -/
theorem landElems_uni {d : Nat} {e : Elem} {v : DWord} (hd : r.dest = .uni d)
    (hv : r.results.find? (fun x => x.1 == e.lane) = some (e.lane, v)) (u : Nat) (g : Gang) :
    landElems u r [e] g = g.kset d (resultWord u r e v) := by
  simp only [landElems, List.foldl_cons, List.foldl_nil, hv, hd]
  rfl

theorem lastSector_of {r : Req} {sec : Nat} (ha : r.allPerformed = true) (h : ∀ x ∈ sectorsOf r, x = sec ∨ x ∈ r.returned) :
    lastSector r sec = true := by
  simp only [lastSector, ha, Bool.true_and, List.all_eq_true, List.contains_iff_mem, List.mem_append, List.mem_singleton]
  exact fun x hx => (h x hx).symm

/-- Settles O34: a returned sector by what it leaves of its gang, its request and the bytes; its values by the lanes that its
elements name. -/
theorem loadsReturn : Obligations.LoadsReturn := by
  unfold Obligations.LoadsReturn
  refine ⟨fun v n hn hv => extendTo64_narrow hn hv, fun u sec s r g hr hg hp hn hl hnd => ?_⟩
  obtain ⟨h1, h2, h3, h4, h5⟩ := returnSector_frame hr hg hp hn
  refine ⟨_, _, rfl, h1, h2, h3, h4, fun d wide hd => ⟨fun e he v hv => ⟨?_, fun hw => ?_⟩, fun i l hl' h => ?_, fun i => ?_⟩,
    fun d e v hd he hv => ?_, fun ha hs => ?_⟩
  · rw [landedGang_vget, lane_landElems hd (fun e he => (hl e he).1) hnd he hv (.inl rfl), if_pos rfl]
  · rw [landedGang_vget, lane_landElems hd (fun e he => (hl e he).1) hnd he hv (.inr ⟨hw, rfl⟩), if_neg (by omega)]
  · rw [landedGang_vget, lane_landElems_other hd hl' h]
  · rw [landedGang_kget]
    exact landElems_keeps (·.kget i) u r _ g fun e _ g v => by rw [hd, kget_writeDest_vec]
  · have hk (i : Nat) : (landedGang u sec r g (lastSector r sec)).kget i =
        if i = d ∧ d ≠ 0 then resultWord u r e v else g.kget i := by
      rw [landedGang_kget, he, landElems_uni hd hv, Gang.kget]
      exact kget_kset ..
    refine ⟨fun h0 => by rw [hk, if_pos ⟨rfl, h0⟩], fun i hi => by rw [hk, if_neg fun h => hi h.1], fun i => ?_⟩
    rw [landedGang_vget, he, landElems_uni hd hv]
    exact kset_vget ..
  · have hlast := lastSector_of ha hs
    rw [hlast]
    refine ⟨h5 hlast, ?_, fun i sp hsp w hw ho => closeWindow_done hsp hw ho⟩
    rw [← landElems_keeps (·.regs.lcnt) u r (secElems r sec) g fun e _ g v => writeDest_lcnt ..]
    exact finished_lcnt ..

end Sys2Proof.Machine
end

section
/-! Writes and what goes on around them (O32, O38): sectors that are clean stay so (R402), and which bytes of memory and of the
scratchpads an element's write and its mark in the dirty bitmap change (R80, R100, R348). -/

namespace Sys2Proof.Machine

set_option Elab.async false

variable {s t : State}

-- What is read of a fold that leaves it alone.

theorem foldl_same {α β : Type} (p : State → β) {f : State → α → State} (h : ∀ s x, p (f s x) = p s) (l : List α) (s : State) :
    p (l.foldl f s) = p s := by
  induction l generalizing s with
  | nil => rfl
  | cons x r ih => rw [List.foldl_cons, ih, h]

-- Registers that stay.

theorem RegsStay.refl (s : State) : RegsStay s s := fun _ g hg => ⟨g, _, _, hg, rfl⟩

theorem RegsStay.trans {u : State} (a : RegsStay s t) (b : RegsStay t u) : RegsStay s u := fun k g hg => by
  obtain ⟨g1, n, m, h1, e1⟩ := a k g hg
  obtain ⟨g2, n', m', h2, e2⟩ := b k g1 h1
  exact ⟨g2, n', m', h2, by rw [e2, e1]⟩

theorem RegsStay.of_eq (h : t.gangs = s.gangs) : RegsStay s t := fun _ g hg => ⟨g, _, _, by rw [State.gang?, h]; exact hg, rfl⟩

theorem Keeps.regsStay (h : Keeps s t) : RegsStay s t := fun k g hg => by
  obtain ⟨g', h1, h2⟩ := h.gang (fun x => x.regs = g.regs) (fun _ _ _ h => h) k g hg rfl
  exact ⟨g', _, _, h1, h2⟩

-- Sectors without poison (R402).

/-- A sector that a read finds without poison: it is not poisoned, and no more than one symbol of it is wrong (R402). -/
def Clean (s : State) (sec : Nat) : Prop := s.poisoned sec = false ∧ tget 0 s.mem.errors sec < 2

theorem Clean.of_mem (h : t.mem.poison = s.mem.poison) (e : t.mem.errors = s.mem.errors) {x : Nat} (c : Clean s x) : Clean t x := by
  unfold Clean State.poisoned at *
  rw [h, e]
  exact c

theorem clean_dramRead {sec x : Nat} (c : Clean s x) : Clean (dramRead s sec).1 x := by
  obtain ⟨hp, he⟩ := c
  constructor
  · refine Bool.eq_false_iff.mpr fun h => ?_
    rcases (dramRead_poisoned s sec x).mp h with h | ⟨rfl, h⟩
    · rw [hp] at h
      cases h
    · omega
  · rw [dramRead_errors]
    split <;> omega

theorem clean_sectorRead {sec x : Nat} (c : Clean s x) : Clean (sectorRead s sec).1 x := by
  unfold sectorRead
  split
  · exact c
  · exact clean_dramRead c

theorem clean_clearPoison {sec x : Nat} (c : Clean s x) : Clean (clearPoison s sec) x := by
  obtain ⟨hp, he⟩ := c
  constructor
  · simp only [State.poisoned, List.contains_eq_mem, decide_eq_false_iff_not] at hp ⊢
    exact fun h => hp (List.mem_of_mem_filter h)
  · show tget 0 (tput 0 s.mem.errors sec 0) x < 2
    rw [tget_tput]
    split <;> omega

theorem dramRead_clean {sec : Nat} (c : Clean s sec) : (dramRead s sec).2 = false := by
  unfold dramRead
  simp only [c.1, Bool.false_eq_true, if_false, Nat.not_le.mpr c.2]
  split <;> rfl

-- What goes on around a write.

/-- What the device does around a write leaves the contexts, the blocks, the requests and the commands alone, and of the gangs all
but reservations; and no sector that is clean gets poisoned. -/
structure Tidy (s t : State) : Prop where
  keeps : Keeps s t
  reqs : t.reqs = s.reqs
  cmds : t.cmds = s.cmds
  clean : ∀ x, Clean s x → Clean t x

/-- As `Tidy`, and no byte changes. -/
structure Calm (s t : State) : Prop extends Tidy s t where
  bytes : t.mem.bytes = s.mem.bytes
  scratch : t.core.scratch = s.core.scratch

theorem Tidy.refl (s : State) : Tidy s s := ⟨.refl s, rfl, rfl, fun _ h => h⟩

theorem Tidy.trans {u : State} (a : Tidy s t) (b : Tidy t u) : Tidy s u :=
  ⟨a.keeps.trans b.keeps, b.reqs.trans a.reqs, b.cmds.trans a.cmds, fun x h => b.clean x (a.clean x h)⟩

theorem Tidy.foldl {α : Type} {f : State → α → State} (hf : ∀ s x, Tidy s (f s x)) (l : List α) (s : State) :
    Tidy s (l.foldl f s) := by
  induction l generalizing s with
  | nil => exact .refl s
  | cons x r ih => exact (hf s x).trans (ih (f s x))

theorem Calm.refl (s : State) : Calm s s := ⟨.refl s, rfl, rfl⟩

theorem Calm.trans {u : State} (a : Calm s t) (b : Calm t u) : Calm s u :=
  ⟨a.toTidy.trans b.toTidy, b.bytes.trans a.bytes, b.scratch.trans a.scratch⟩

theorem Calm.foldl {α : Type} {f : State → α → State} (hf : ∀ s x, Calm s (f s x)) (l : List α) (s : State) :
    Calm s (l.foldl f s) := by
  induction l generalizing s with
  | nil => exact .refl s
  | cons x r ih => exact (hf s x).trans (ih (f s x))

theorem Writes.reqs (h : Writes s t) : t.reqs = s.reqs := by
  obtain ⟨m, c, p, e, g, rfl⟩ := h.rest
  rfl

theorem Writes.tidy (h : Writes s t) (c : ∀ x, Clean s x → Clean t x) : Tidy s t := ⟨h.keeps, h.reqs, h.cmds, c⟩

theorem HomeOnly.calm (h : HomeOnly s t) (c : ∀ x, Clean s x → Clean t x) : Calm s t :=
  ⟨h.writes.tidy c, h.bytes, h.scratch⟩

/-- An access at a home that leaves the memory's own records alone. -/
theorem HomeOnly.calm_of_mem (h : HomeOnly s t) (m : t.mem = s.mem) : Calm s t :=
  h.calm fun _ => .of_mem (by rw [m]) (by rw [m])

theorem Tidy.ctx (h : Tidy s t) (c : Nat) : t.ctx? c = s.ctx? c := by rw [State.ctx?, h.keeps.ctxs]; rfl

theorem Tidy.block (h : Tidy s t) (n : Nat) : t.block? n = s.block? n := by rw [State.block?, h.keeps.blocks]; rfl

theorem Tidy.req (h : Tidy s t) (u : Nat) : t.req? u = s.req? u := by rw [State.req?, h.reqs]; rfl

theorem Tidy.cmd (h : Tidy s t) (u : Nat) : t.cmd? u = s.cmd? u := by rw [State.cmd?, h.cmds]; rfl

theorem Tidy.dirtyAt (h : Tidy s t) (l : Loc) (a : Nat) : DirtyAt t l a ↔ DirtyAt s l a := by
  simp only [DirtyAt, h.ctx]

theorem Calm.byte (h : Calm s t) (a : Nat) : t.byte a = s.byte a := by rw [State.byte, h.bytes]; rfl

theorem Calm.sbyte (h : Calm s t) (a : Nat) : t.sbyte a = s.sbyte a := by rw [State.sbyte, h.scratch]; rfl

theorem Calm.readLoc (h : Calm s t) (l : Loc) (n : Nat) : t.readLoc l n = s.readLoc l n := by
  have e (i : Nat) : t.lbyte l i = s.lbyte l i := by simp only [State.lbyte, h.byte, h.sbyte]
  simp only [State.readLoc, e]

theorem weirServed_mem (s : State) (chan : Nat) (w : Waiter) : (weirServed s chan w).mem = s.mem := by
  unfold weirServed
  dsimp only
  split
  · rfl
  · split <;> rfl

theorem calm_chargeUser (s : State) (u a n : Nat) : Calm s (chargeUser s u a n) :=
  (homeOnly_chargeUser ..).calm_of_mem (chargeUser_mem ..)

theorem calm_setL1 (s : State) (core line : Nat) (x : Option L1Line) : Calm s (s.setL1 core line x) :=
  (homeOnly_setL1 ..).calm_of_mem rfl

theorem calm_recallOwned (s : State) (line : Nat) : Calm s (recallOwned s line) :=
  (homeOnly_recallOwned ..).calm_of_mem (recallOwned_mem ..)

theorem calm_weirServed (s : State) (chan : Nat) (w : Waiter) : Calm s (weirServed s chan w) :=
  (homeOnly_weirServed ..).calm_of_mem (weirServed_mem ..)

theorem calm_storeSector (s : State) (sec : Nat) : Calm s (storeSector s sec) :=
  (homeOnly_storeSector ..).calm fun _ => .of_mem rfl rfl

theorem calm_chargeSlots (s : State) (ctx core a n : Nat) : Calm s (chargeSlots s ctx core a n) :=
  ((calm_chargeUser ..).trans (calm_recallOwned ..)).trans (calm_storeSector ..)

theorem calm_dramRead (s : State) (sec : Nat) : Calm s (dramRead s sec).1 :=
  (homeOnly_dramRead ..).calm fun _ => clean_dramRead

theorem calm_sectorRead (s : State) (sec : Nat) : Calm s (sectorRead s sec).1 :=
  (homeOnly_sectorRead ..).calm fun _ => clean_sectorRead

theorem calm_clearPoison (s : State) (sec : Nat) : Calm s (clearPoison s sec) :=
  ⟨(writes_clearPoison ..).tidy fun _ => clean_clearPoison, rfl, rfl⟩

theorem calm_clearLine (s : State) (line : Nat) : Calm s (clearLine s line) :=
  ⟨(writes_clearLine ..).tidy fun _ => .of_mem rfl rfl, rfl, rfl⟩

theorem calm_clearCoreLine (s : State) (core line : Nat) : Calm s (clearCoreLine s core line) :=
  ⟨(writes_clearCoreLine ..).tidy fun _ => .of_mem rfl rfl, rfl, rfl⟩

theorem calm_dropCopies (s : State) (line : Nat) (keep : Option Nat) : Calm s (dropCopies s line keep) := by
  unfold dropCopies
  refine (Calm.foldl (fun s e => ?_) _ s).trans ⟨⟨.of_eq rfl rfl rfl rfl, rfl, rfl, fun _ => .of_mem rfl rfl⟩, rfl, rfl⟩
  split
  · refine Calm.trans ?_ (calm_clearCoreLine ..)
    split
    · exact calm_setL1 ..
    · exact (calm_chargeUser ..).trans (calm_setL1 ..)
  · exact .refl s

theorem calm_leaveQueues (s : State) (gang : Nat) (l : List Stand) : Calm s (leaveQueues s gang l) := by
  obtain ⟨x, e⟩ := leaveQueues_only s gang l
  rw [e]
  exact ⟨⟨.of_eq rfl rfl rfl rfl, rfl, rfl, fun _ h => h⟩, rfl, rfl⟩

-- Bytes written at a home (R81, R402).

theorem setByte_tidy (s : State) (a : Nat) (x : Byte) : Tidy s (s.setByte a x) :=
  ⟨.of_eq rfl rfl rfl rfl, rfl, rfl, fun _ => .of_mem rfl rfl⟩

theorem setSbyte_tidy (s : State) (a : Nat) (x : Byte) : Tidy s (s.setSbyte a x) :=
  ⟨.of_eq rfl rfl rfl rfl, rfl, rfl, fun _ h => h⟩

theorem tidy_writeBytes (s : State) (a : Nat) (l : List Byte) : Tidy s (s.writeBytes a l) := by
  induction l generalizing s a with
  | nil => exact .refl s
  | cons b r ih => exact (setByte_tidy s a b).trans (ih ..)

theorem writeBytes_scratch (s : State) (a : Nat) (l : List Byte) : (s.writeBytes a l).core.scratch = s.core.scratch := by
  induction l generalizing s a with
  | nil => rfl
  | cons b r ih => exact ih (s.setByte a b) (a + 1)

theorem calm_sectorOpened (s : State) (a n sec : Nat) : Calm s (sectorOpened s a n sec).1 := by
  unfold sectorOpened
  split
  · exact calm_clearPoison ..
  · exact calm_sectorRead ..

theorem tidy_writeSector (s : State) (a : Nat) (bs : List Byte) (sec : Nat) : Tidy s (writeSector s a bs sec) := by
  rw [writeSector_eq]
  have h := (calm_sectorOpened s a bs.length sec).toTidy
  split
  · exact h
  · exact ((h.trans (calm_dropCopies ..).toTidy).trans (tidy_writeBytes ..)).trans
      ((calm_storeSector ..).trans (calm_clearLine ..)).toTidy

/-- A write of memory changes no byte of a scratchpad. -/
theorem writeSector_scratch (s : State) (a : Nat) (bs : List Byte) (sec : Nat) :
    (writeSector s a bs sec).core.scratch = s.core.scratch := by
  rw [writeSector_eq]
  have h := calm_sectorOpened s a bs.length sec
  split
  · exact h.scratch
  · exact ((calm_storeSector ..).trans (calm_clearLine ..)).scratch.trans
      ((writeBytes_scratch ..).trans (h.trans (calm_dropCopies ..)).scratch)

/-- The part of a write that lies in a clean sector is put there, and no other byte changes. -/
theorem writeSector_byte {sec : Nat} (c : Clean s sec) (a : Nat) (bs : List Byte) (x : Nat) : (writeSector s a bs sec).byte x =
    if x / 32 = sec ∧ a ≤ x ∧ x < a + bs.length then bs.getD (x - a) 0 else s.byte x := by
  have h : (sectorOpened s a bs.length sec).2 = false := by
    unfold sectorOpened
    split
    · rfl
    · exact sectorRead_clean c.1 c.2
  rw [writeSector_eq, h]
  simp only [Bool.false_eq_true, if_false]
  rw [((calm_storeSector ..).trans (calm_clearLine ..)).byte, writeBytes_byte,
    ((calm_sectorOpened ..).trans (calm_dropCopies ..)).byte]
  simp only [List.length_take, List.length_drop]
  by_cases hx : x / 32 = sec ∧ a ≤ x ∧ x < a + bs.length
  · rw [if_pos hx, if_pos (by omega), List.getD_eq_getElem?_getD, List.getElem?_take_of_lt (by omega), List.getElem?_drop,
      ← List.getD_eq_getElem?_getD]
    congr 1
    omega
  · rw [if_neg hx, if_neg (by omega)]

-- The dirty bitmap (R348).

theorem tidy_markDirty (s : State) (ctx gpa : Nat) : Tidy s (markDirty s ctx gpa) := by
  unfold markDirty
  split
  · exact .refl s
  · dsimp only
    split
    · exact .foldl (fun s sec => tidy_writeSector s _ _ sec) _ s
    · exact .refl s

theorem markDirty_scratch (s : State) (ctx gpa : Nat) : (markDirty s ctx gpa).core.scratch = s.core.scratch := by
  unfold markDirty
  split
  · rfl
  · dsimp only
    split
    · exact foldl_same (·.core.scratch) (fun s sec => writeSector_scratch s _ _ sec) _ s
    · rfl

/-- The mark of a page in the dirty bitmap, where its sector is clean. -/
theorem markDirty_byte {l : Loc} {a : Nat} (hd : DirtyAt s l a) (c : Clean s (a / 32)) :
    (markDirty s l.ctx l.gpa).byte a = s.byte a ||| BitVec.ofNat 8 (2 ^ (l.gpa / 65536 % 8)) := by
  obtain ⟨-, x, hx, hdt, hn, ha⟩ := hd
  have hr : runSectors a 1 = [a / 32] := by
    have : (a % 32 + 1 + 31) / 32 = 1 := by omega
    simp [runSectors, this]
  unfold markDirty
  rw [hx]
  simp only [hdt, hn, decide_true, Bool.and_self, if_true, ← ha, writeHome, List.length_singleton, hr, List.foldl_cons, List.foldl_nil]
  rw [writeSector_byte c, if_pos (by simp)]
  simp

/-- A mark in the dirty bitmap clears no bit of a byte in a clean sector. -/
theorem markDirty_bit {l : Loc} (hl : l.scr = false) {a i : Nat} (c : Clean s (a / 32)) (h : (s.byte a).getLsbD i = true) :
    ((markDirty s l.ctx l.gpa).byte a).getLsbD i = true := by
  by_cases hd : DirtyAt s l a
  · rw [markDirty_byte hd c, BitVec.getLsbD_or, h, Bool.true_or]
  · rw [markDirty_byte_ne hl hd, h]

-- Bytes of memory and of the scratchpads alike.

/-- A byte of a scratchpad, or of device memory. -/
def State.cell (s : State) (scr : Bool) (a : Nat) : Byte := if scr then s.sbyte a else s.byte a

theorem cell_false (s : State) (a : Nat) : s.cell false a = s.byte a := rfl

theorem cell_true (s : State) (a : Nat) : s.cell true a = s.sbyte a := rfl

theorem lbyte_cell (s : State) (l : Loc) (i : Nat) : s.lbyte l i = s.cell l.scr (l.addr + i) := rfl

theorem Calm.cell (h : Calm s t) (b : Bool) (a : Nat) : t.cell b a = s.cell b a := by
  simp only [State.cell, h.byte, h.sbyte]

theorem setLbyte_cell (s : State) (l : Loc) (k : Nat) (x : Byte) (b : Bool) (a : Nat) :
    (s.setLbyte l k x).cell b a = if l.scr = b ∧ a = l.addr + k then x else s.cell b a := by
  unfold State.setLbyte State.cell
  cases l.scr <;> cases b <;> simp [setByte_byte, setSbyte_sbyte]

/-- A number written to a location is in its bytes, least significant first, and no other byte changes (R2). -/
theorem writeLoc_cell (s : State) (l : Loc) (k n v : Nat) (b : Bool) (a : Nat) : (s.writeLoc l k n v).cell b a =
    if l.scr = b ∧ l.addr + k ≤ a ∧ a < l.addr + k + n then BitVec.ofNat 8 (v / 256 ^ (a - (l.addr + k))) else s.cell b a := by
  induction n generalizing s k v with
  | zero =>
    rw [if_neg (by omega)]
    rfl
  | succ n ih =>
    rw [State.writeLoc, ih, setLbyte_cell]
    by_cases hs : l.scr = b
    · by_cases e : a = l.addr + k
      · subst e
        simp [hs]
      · by_cases h : l.addr + (k + 1) ≤ a ∧ a < l.addr + (k + 1) + n
        · rw [if_pos ⟨hs, h⟩, if_pos ⟨hs, by omega⟩, show a - (l.addr + k) = (a - (l.addr + (k + 1))) + 1 by omega, Nat.pow_succ',
            Nat.div_div_eq_div_mul]
        · rw [if_neg fun x => h x.2, if_neg fun x => e x.2, if_neg fun x => by omega]
    · simp [hs]

theorem tidy_writeLoc (s : State) (l : Loc) (k n v : Nat) : Tidy s (s.writeLoc l k n v) := by
  induction n generalizing s k v with
  | zero => exact .refl s
  | succ n ih =>
    refine Tidy.trans ?_ (ih (s.setLbyte l k _) (k + 1) (v / 256))
    unfold State.setLbyte
    split
    · exact setSbyte_tidy ..
    · exact setByte_tidy ..

-- The write of an element, with its mark in the dirty bitmap (R100, R348).

theorem tidy_writeElem (s : State) (l : Loc) (n v : Nat) : Tidy s (writeElem s l n v) := by
  have h := (tidy_writeLoc s l 0 n v).trans (calm_clearLine _ l.line).toTidy
  unfold writeElem
  dsimp only
  split
  · exact h
  · exact h.trans (tidy_markDirty ..)

/-- The bytes of an element hold what is written, and no other byte changes but for the dirty bitmap. -/
theorem writeElem_cell (s : State) (l : Loc) (n v : Nat) {b : Bool} {a : Nat} (hd : b = false → ¬DirtyAt s l a) :
    (writeElem s l n v).cell b a =
      if l.scr = b ∧ l.addr ≤ a ∧ a < l.addr + n then BitVec.ofNat 8 (v / 256 ^ (a - l.addr)) else s.cell b a := by
  have h := (tidy_writeLoc s l 0 n v).trans (calm_clearLine _ l.line).toTidy
  have hw : (clearLine (s.writeLoc l 0 n v) l.line).cell b a =
      if l.scr = b ∧ l.addr ≤ a ∧ a < l.addr + n then BitVec.ofNat 8 (v / 256 ^ (a - l.addr)) else s.cell b a := by
    rw [(calm_clearLine ..).cell, writeLoc_cell]
    rfl
  unfold writeElem
  dsimp only
  split
  · exact hw
  · next hs =>
    rw [← hw]
    cases b with
    | true => rw [cell_true, cell_true, State.sbyte, markDirty_scratch]; rfl
    | false => exact markDirty_byte_ne (by simpa using hs) fun hc => hd rfl ((h.dirtyAt l a).mp hc)

/-- The mark of an element's page stands, where its sector is clean and the element does not cover it (R348, R402). -/
theorem writeElem_marks (s : State) {l : Loc} {a : Nat} (n v : Nat) (hd : DirtyAt s l a) (c : Clean s (a / 32)) :
    ((writeElem s l n v).byte a).getLsbD (l.gpa / 65536 % 8) = true := by
  have h := (tidy_writeLoc s l 0 n v).trans (calm_clearLine _ l.line).toTidy
  have hi : l.gpa / 65536 % 8 < 8 := Nat.mod_lt _ (by decide)
  unfold writeElem
  simp only [hd.1, Bool.false_eq_true, if_false]
  rw [markDirty_byte ((h.dirtyAt l a).mpr hd) (h.clean _ c), BitVec.getLsbD_or, BitVec.getLsbD_ofNat, Nat.testBit_two_pow_self]
  simp [hi]

/-- A write clears no bit of a byte in a clean sector that it does not cover. -/
theorem writeElem_bit (s : State) {l : Loc} {a i : Nat} (n v : Nat) (ho : ¬(l.scr = false ∧ l.addr ≤ a ∧ a < l.addr + n))
    (c : Clean s (a / 32)) (hb : (s.byte a).getLsbD i = true) : ((writeElem s l n v).byte a).getLsbD i = true := by
  have h := (tidy_writeLoc s l 0 n v).trans (calm_clearLine _ l.line).toTidy
  have hw : (clearLine (s.writeLoc l 0 n v) l.line).byte a = s.byte a := by
    rw [(calm_clearLine ..).byte]
    exact (writeLoc_cell s l 0 n v false a).trans (if_neg ho)
  unfold writeElem
  dsimp only
  split
  · rw [hw, hb]
  · next hs => exact markDirty_bit (by simpa using hs) (h.clean _ c) (by rw [hw, hb])

-- A location read.

theorem readLoc_of_cells {l : Loc} {n : Nat} (h : ∀ i < n, t.cell l.scr (l.addr + i) = s.cell l.scr (l.addr + i)) :
    t.readLoc l n = s.readLoc l n := by
  unfold State.readLoc
  induction n with
  | zero => rfl
  | succ n ih =>
    rw [leValue, leValue, ih fun i hi => h i (Nat.lt_succ_of_lt hi), lbyte_cell, lbyte_cell, h n n.lt_succ_self]

theorem readLoc_lt (s : State) (l : Loc) (n : Nat) : s.readLoc l n < 256 ^ n := by
  unfold State.readLoc
  induction n with
  | zero => simp [leValue]
  | succ n ih =>
    have h := (s.lbyte l n).isLt
    rw [leValue, Nat.pow_succ]
    calc _ < 256 ^ n + 256 ^ n * (s.lbyte l n).toNat := by omega
      _ = 256 ^ n * ((s.lbyte l n).toNat + 1) := by ring
      _ ≤ 256 ^ n * 256 := Nat.mul_le_mul_left _ h

/-- What is read of an element after its write is what was written, cut to its width, where no mark falls on it. -/
theorem readLoc_writeElem (s : State) {l : Loc} (n v : Nat) (hd : ∀ i < n, ¬DirtyAt s l (l.addr + i)) :
    (writeElem s l n v).readLoc l n = v % 256 ^ n := by
  refine leValue_bytes _ v n fun i hi => ?_
  rw [lbyte_cell, writeElem_cell s l n v fun _ => hd i hi, if_pos ⟨rfl, by omega, by omega⟩, Nat.add_sub_cancel_left]

end Sys2Proof.Machine
end

section
/-! A sector performs (R80, R90, R128, R402): what happens at its home before its elements act, and what happens to its request after
them. -/

namespace Sys2Proof.Machine

set_option Elab.async false

variable {s t : State} {u sec : Nat} {r : Req} {es : List Elem}

-- Before the elements of a sector act.

/-- The sectors of a perform that the L1 of their core does not serve. -/
def awaySectors (s : State) (r : Req) (sec : Nat) : List Nat :=
  if sec % 2 = 0 then (performGroup r sec).filter fun x => !l1Serves s r x else []

/-- What a perform reads at the homes of its sectors, and those that it finds poisoned. -/
def homeRead (s : State) (r : Req) (sec : Nat) : State × List Nat :=
  if writesWhole r sec then (s, []) else readHome s (awaySectors s r sec)

/-- The state once the sectors of a perform have been read. -/
def homeCleared (s : State) (r : Req) (sec : Nat) : State :=
  if decide (sec % 2 = 0) && writesWhole r sec then clearPoison (homeRead s r sec).1 (sec / 2) else (homeRead s r sec).1

/-- The state once the homes of a perform have served its sectors. -/
def homeServed (s : State) (u : Nat) (r : Req) (sec : Nat) : State :=
  if Scope.atCore r.scope then fillSectors (homeCleared s r sec) u (keyCore s r.gang) (keyCtx s r.gang) r
    ((awaySectors s r sec).filter fun y => !(homeRead s r sec).2.contains y)
  else chargeSectors (homeCleared s r sec) u (keyCtx s r.gang) (keyCore s r.gang) r (awaySectors s r sec)

/-- The state in which the elements of a perform act. -/
def homeReached (s : State) (u : Nat) (r : Req) (sec : Nat) : State :=
  leaveQueues (pendPoison (homeServed s u r sec) r (homeRead s r sec).2) r.gang
    ((standing (homeServed s u r sec) u r).filter fun y => (performGroup r sec).contains y.sec)

/-- The elements of a perform that act: those of sectors without poison, but for lanes that have acted already. -/
def actingElems (r : Req) (sec : Nat) (bad : List Nat) : List Elem :=
  r.elems.filter fun e => (performGroup r sec).contains e.loc.sector && !bad.contains e.loc.sector && !r.lanesDone.contains e.lane

-- After they have acted.

/-- The L1 of a core once elements have acted: a store at its scopes has changed its sectors there (R81). -/
def linesChanged (s w : State) (r : Req) (sec : Nat) (bad : List Nat) : State :=
  if decide (sec % 2 = 0) && r.storeLike && Scope.atCore r.scope then
    ((performGroup r sec).filter fun y => !bad.contains y).foldl (fun w y => dirtyL1 w (keyCore s r.gang) (keyCtx s r.gang) (y / 2)) w
  else w

/-- What a gang has read early is forgotten, where a perform or an acquire asks for it. -/
def aheadForgotten (w : State) (r : Req) : State :=
  if r.ord == .acq || r.ord == .ar then dropAhead w fun k _ => k == r.gang else w

/-- A request once a perform of it is recorded: where all of it has performed it leaves the aged lists, the set of an SC is gone,
and a request that returns nothing more is over. -/
def performRecorded (w : State) (u : Nat) (r : Req) : State :=
  let w := w.setReq u (some r)
  let w := if r.allPerformed then unage w u else w
  let w := if r.allPerformed && r.kind == .sc then endSc w r.gang u else w
  if r.allPerformed && (r.dest == .none || (sectorsOf r).all (r.returned.contains ·)) then finishReq w u r else w

/-- The state after the elements of a perform have acted, up to its request. -/
def performSettled (s w : State) (r : Req) (sec : Nat) (bad : List Nat) : State :=
  aheadForgotten (linesChanged s (dropAhead w fun k y => k == r.gang && (performGroup r sec).contains y) r sec bad) r

/-- A sector that may perform: the home, its elements, its request. -/
theorem performSector_eq (h : Performs s u sec r es) : performSector s u sec =
    let bad := (homeRead s r sec).2
    let q := performElems (homeReached s u r sec) u r (actingElems r sec bad)
    let w := performSettled s q.1 r sec bad
    match w.req? u with
    | none => w
    | some r0 => performRecorded w u { r0 with
        performed := r.performed ++ performGroup r sec, results := r.results ++ q.2, returned := r.returned ++ bad } := by
  have hc : (!(performGroup r sec).all (canPerform s u r) || r.space == .engine) = false := by
    rw [List.all_eq_true.mpr h.all]
    simpa using h.space
  unfold performSector
  rw [h.here]
  dsimp only
  rw [if_neg (by rw [hc]; decide)]
  rfl

-- What each part leaves alone.

theorem readHome_clean {l : List Nat} (h : ∀ x ∈ l, Clean s (x / 2)) : Calm s (readHome s l).1 ∧ (readHome s l).2 = [] := by
  unfold readHome
  suffices H : ∀ acc : State × List Nat, Calm s acc.1 ∧ acc.2 = [] →
      let f := fun (acc : State × List Nat) x => (let q := sectorRead acc.1 (x / 2); (q.1, if q.2 then acc.2 ++ [x] else acc.2))
      Calm s (l.foldl f acc).1 ∧ (l.foldl f acc).2 = [] from H (s, []) ⟨.refl s, rfl⟩
  induction l with
  | nil => exact fun acc h => h
  | cons x l ih =>
    rintro acc ⟨h1, h2⟩
    have c := h1.clean _ (h x (.head _))
    refine ih (fun y hy => h y (.tail _ hy)) _ ⟨h1.trans (calm_sectorRead ..), ?_⟩
    simp only [sectorRead_clean c.1 c.2, h2, Bool.false_eq_true, if_false]

theorem calm_fillL1 (s : State) (core ctx : Nat) (own whole : Bool) (sec : Nat) : Calm s (fillL1 s core ctx own whole sec) := by
  have h1 : Calm s (if whole then s else storeSector (chargeUser s (meterKey s ctx core) (32 * sec) 1) sec) := by
    split
    · exact .refl s
    · exact (calm_chargeUser ..).trans (calm_storeSector ..)
  unfold fillL1
  dsimp only
  generalize (if whole = true then s else storeSector (chargeUser s (meterKey s ctx core) (32 * sec) 1) sec) = x at h1 ⊢
  refine (h1.trans ?_).trans (calm_setL1 ..)
  split
  · exact calm_dropCopies ..
  · split
    · exact .refl x
    · exact calm_recallOwned ..

theorem calm_dirtyL1 (s : State) (core ctx sec : Nat) : Calm s (dirtyL1 s core ctx sec) := by
  unfold dirtyL1
  split
  · exact calm_setL1 ..
  · exact .refl s

/-- A channel that serves a waiter, if there is one and the home is in HBM. -/
theorem calm_served (s : State) (w : Option Waiter) (a : Nat) :
    Calm s (match w with | some w => if isHbm a then weirServed s (channelOf a) w else s | none => s) := by
  split
  · split
    · exact calm_weirServed ..
    · exact .refl s
  · exact .refl s

theorem calm_fillSectors (s : State) (u core ctx : Nat) (r : Req) (l : List Nat) : Calm s (fillSectors s u core ctx r l) :=
  .foldl (fun _ _ => (calm_served ..).trans (calm_fillL1 ..)) l s

theorem calm_chargeSectors (s : State) (u ctx core : Nat) (r : Req) (l : List Nat) : Calm s (chargeSectors s u ctx core r l) := by
  refine .foldl (fun s x => ?_) l s
  split
  · have h (e : Elem) (n : Nat) := (calm_served s (waiterOf s u r x) e.loc.addr).trans (calm_chargeSlots _ ctx core e.loc.addr n)
    dsimp only
    split
    · exact (h ..).trans (calm_dropCopies ..)
    · exact h ..
  · exact .refl s

theorem calm_dropAhead (s : State) (f : Nat → Nat → Bool) : Calm s (dropAhead s f) :=
  ⟨⟨.of_eq rfl rfl rfl rfl, rfl, rfl, fun _ h => h⟩, rfl, rfl⟩

theorem calm_performSettled (s w : State) (r : Req) (sec : Nat) (bad : List Nat) : Calm w (performSettled s w r sec bad) := by
  have h (x : State) : Calm x (linesChanged s x r sec bad) := by
    unfold linesChanged
    split
    · exact .foldl (fun _ _ => calm_dirtyL1 ..) _ x
    · exact .refl x
  have h' (x : State) : Calm x (aheadForgotten x r) := by
    unfold aheadForgotten
    split
    · exact calm_dropAhead ..
    · exact .refl x
  exact ((calm_dropAhead ..).trans (h _)).trans (h' _)

/-- Where nothing is poisoned, the homes are reached with every byte as it was (R402). -/
theorem homeReached_calm (h : Performs s u sec r es) : Calm s (homeReached s u r sec) ∧ (homeRead s r sec).2 = [] := by
  have hr : Calm s (homeRead s r sec).1 ∧ (homeRead s r sec).2 = [] := by
    unfold homeRead
    split
    · exact ⟨.refl s, rfl⟩
    · refine readHome_clean fun x hx => ?_
      unfold awaySectors at hx
      split at hx
      · next hg => exact h.clean hg x (List.mem_of_mem_filter hx)
      · cases hx
  have hc : Calm s (homeCleared s r sec) := by
    unfold homeCleared
    split
    · exact hr.1.trans (calm_clearPoison ..)
    · exact hr.1
  have hs : Calm s (homeServed s u r sec) := by
    unfold homeServed
    split
    · exact hc.trans (calm_fillSectors ..)
    · exact hc.trans (calm_chargeSectors ..)
  refine ⟨?_, hr.2⟩
  unfold homeReached
  rw [hr.2]
  exact hs.trans (calm_leaveQueues ..)

/-- Without poison, the elements that act are those of `Performs`. -/
theorem actingElems_clean (h : Performs s u sec r es) : actingElems r sec [] = es := by
  simp only [actingElems, h.elems, List.contains_nil, Bool.not_false, Bool.and_true]

/-- The memory and the stores of the cores stay, and of gangs all registers but the counters. -/
structure Tallied (s t : State) : Prop where
  regs : RegsStay s t
  mem : t.mem = s.mem
  core : t.core = s.core

theorem Tallied.trans {w : State} (a : Tallied s t) (b : Tallied t w) : Tallied s w :=
  ⟨a.regs.trans b.regs, b.mem.trans a.mem, b.core.trans a.core⟩

theorem Tallied.ite {c : Prop} [Decidable c] (h : Tallied s t) : Tallied s (if c then t else s) := by
  split
  · exact h
  · exact ⟨.refl s, rfl, rfl⟩

theorem tallied_endSc (s : State) (key u : Nat) : Tallied s (endSc s key u) := by
  obtain ⟨y, e⟩ := modGang_only s key fun g => g.mapSplits fun sp => { sp with spent := sp.spent.filter fun q => q.sc != u }
  have h : endSc s key u = { s with gangs := y } := e
  refine ⟨fun k g hg => ?_, by rw [h], by rw [h]⟩
  have hk := modGang_gang s key k fun g => g.mapSplits fun sp => { sp with spent := sp.spent.filter fun q => q.sc != u }
  rw [hg] at hk
  split at hk <;> exact ⟨_, _, _, hk, rfl⟩

theorem tallied_finishReq (s : State) (u : Nat) (r : Req) : Tallied s (finishReq s u r) := by
  obtain ⟨a, y, z, e, -, -, hk⟩ := finishReq_only s u r
  rw [e]
  refine ⟨fun k g hg => ?_, rfl, rfl⟩
  have hk := hk k
  rw [hg] at hk
  split at hk
  · obtain ⟨n, m, hf⟩ := finished_regs g u r
    exact ⟨_, n, m, hk, hf⟩
  · exact ⟨_, _, _, hk, rfl⟩

/-- The record of a perform changes no byte, and of a gang's registers only its counters. -/
theorem tallied_performRecorded (w : State) (u : Nat) (r : Req) : Tallied w (performRecorded w u r) := by
  have h0 : Tallied w (w.setReq u (some r)) := ⟨.of_eq rfl, rfl, rfl⟩
  have h1 (x : State) : Tallied x (unage x u) := ⟨.of_eq rfl, rfl, rfl⟩
  exact ((h0.trans (h1 _).ite).trans (tallied_endSc ..).ite).trans (tallied_finishReq ..).ite

end Sys2Proof.Machine
end

section
/-! Stores (O32): the elements of a store act one after another (R100, R348), the host writes memory through its port (R125, R127),
and symbols of a sector go wrong (R402). -/

namespace Sys2Proof.Machine

set_option Elab.async false

variable {s t : State} {u sec a : Nat} {r : Req} {es : List Elem}

-- The elements of a store.

/-- The elements of a store written in their order. -/
def writeElems (s : State) (es : List Elem) : State := es.foldl (fun s e => writeElem s e.loc e.size e.data.toNat) s

theorem performElems_store (hk : r.kind = .store) (s : State) (u : Nat) (es : List Elem) :
    performElems s u r es = (writeElems s es, []) := by
  unfold performElems
  simp only [hk]
  suffices h : ∀ acc : State × List (Nat × DWord), es.foldl (fun (acc : State × List (Nat × DWord)) e =>
      (writeElem acc.1 e.loc e.size e.data.toNat, acc.2)) acc = (writeElems acc.1 es, acc.2) from h (s, [])
  induction es with
  | nil => exact fun _ => rfl
  | cons e l ih => exact fun acc => ih _

theorem tidy_writeElems (s : State) (es : List Elem) : Tidy s (writeElems s es) := .foldl (fun _ _ => tidy_writeElem ..) es s

/-- A byte that no element covers, and that is of no mark, stays. -/
theorem writeElems_cell_ne {b : Bool} (h : ∀ e ∈ es, ¬Covers e b a) (hd : b = false → ∀ e ∈ es, ¬DirtyAt s e.loc a) :
    (writeElems s es).cell b a = s.cell b a := by
  induction es generalizing s with
  | nil => rfl
  | cons e l ih =>
    have hw := tidy_writeElem s e.loc e.size e.data.toNat
    refine (ih (fun x hx => h x (.tail _ hx)) fun hb x hx => (hw.dirtyAt ..).not.mpr (hd hb x (.tail _ hx))).trans ?_
    exact (writeElem_cell s _ _ _ fun hb => hd hb e (.head _)).trans (if_neg (h e (.head _)))

/-- A byte holds what the last element that covers it gives, where it is of no mark. -/
theorem writeElems_cell_last {b : Bool} {pre post : List Elem} {e : Elem} (he : es = pre ++ e :: post) (hc : Covers e b a)
    (hp : ∀ f ∈ post, ¬Covers f b a) (hd : b = false → ∀ f ∈ es, ¬DirtyAt s f.loc a) :
    (writeElems s es).cell b a = BitVec.ofNat 8 (e.data.toNat / 256 ^ (a - e.loc.addr)) := by
  subst he
  have h1 := tidy_writeElems s pre
  have h2 := h1.trans (tidy_writeElem (writeElems s pre) e.loc e.size e.data.toNat)
  have e1 : writeElems s (pre ++ e :: post) = writeElems (writeElem (writeElems s pre) e.loc e.size e.data.toNat) post :=
    List.foldl_append ..
  rw [e1, writeElems_cell_ne hp fun hb f hf => (h2.dirtyAt ..).not.mpr (hd hb f (by simp [hf]))]
  exact (writeElem_cell _ _ _ _ fun hb => (h1.dirtyAt ..).not.mpr (hd hb e (by simp))).trans (if_pos hc)

/-- No element clears a bit of a byte in a clean sector that none covers. -/
theorem writeElems_bit {i : Nat} (h : ∀ e ∈ es, ¬Covers e false a) (c : Clean s (a / 32)) (hb : (s.byte a).getLsbD i = true) :
    ((writeElems s es).byte a).getLsbD i = true := by
  induction es generalizing s with
  | nil => exact hb
  | cons e l ih =>
    exact ih (fun x hx => h x (.tail _ hx)) ((tidy_writeElem s e.loc e.size e.data.toNat).clean _ c)
      (writeElem_bit s _ _ (h e (.head _)) c hb)

/-- The mark of every element's page stands, where its sector is clean and no element covers it. -/
theorem writeElems_marks {e : Elem} (he : e ∈ es) (hd : DirtyAt s e.loc a) (h : ∀ f ∈ es, ¬Covers f false a) (c : Clean s (a / 32)) :
    ((writeElems s es).byte a).getLsbD (e.loc.gpa / 65536 % 8) = true := by
  obtain ⟨pre, post, rfl⟩ := List.append_of_mem he
  have h1 := tidy_writeElems s pre
  have h2 := h1.trans (tidy_writeElem (writeElems s pre) e.loc e.size e.data.toNat)
  have e1 : writeElems s (pre ++ e :: post) = writeElems (writeElem (writeElems s pre) e.loc e.size e.data.toNat) post :=
    List.foldl_append ..
  rw [e1]
  exact writeElems_bit (fun f hf => h f (by simp [hf])) (h2.clean _ c)
    (writeElem_marks _ _ _ ((h1.dirtyAt ..).mpr hd) (h1.clean _ c))

/-- A store that performs: its elements are written at homes that leave every byte as it is, and after them no byte changes. -/
theorem performSector_store (h : Performs s u sec r es) (hk : r.kind = .store) : ∃ p, Calm s p ∧
    RegsStay (writeElems p es) (performSector s u sec) ∧ ∀ b a, (performSector s u sec).cell b a = (writeElems p es).cell b a := by
  obtain ⟨hp, hb⟩ := homeReached_calm h
  have hw := calm_performSettled s (writeElems (homeReached s u r sec) es) r sec []
  have ht := (hp.toTidy.trans (tidy_writeElems ..)).trans hw.toTidy
  refine ⟨_, hp, ?_⟩
  rw [performSector_eq h]
  dsimp only
  rw [hb, actingElems_clean h, performElems_store hk]
  dsimp only
  rw [ht.req, h.here]
  have hr := tallied_performRecorded (performSettled s (writeElems (homeReached s u r sec) es) r sec []) u { r with
    performed := r.performed ++ performGroup r sec, results := r.results ++ [], returned := r.returned ++ [] }
  refine ⟨hw.keeps.regsStay.trans hr.regs, fun b a => ?_⟩
  rw [← hw.cell, State.cell, State.byte, State.sbyte, hr.mem, hr.core]
  rfl

/-- The clause of a store. -/
theorem store_performs (h : Performs s u sec r es) (hk : r.kind = .store) :
    ∃ t, exec (.requestPerform u sec) s = .next t ∧ RegsStay s t ∧
      (∀ a, (∀ e ∈ es, ¬Covers e false a ∧ ¬DirtyAt s e.loc a) → t.byte a = s.byte a) ∧
      (∀ a, (∀ e ∈ es, ¬Covers e true a) → t.sbyte a = s.sbyte a) ∧
      (∀ pre e post a, es = pre ++ e :: post → Covers e false a → (∀ f ∈ post, ¬Covers f false a) →
        (∀ f ∈ es, ¬DirtyAt s f.loc a) → t.byte a = BitVec.ofNat 8 (e.data.toNat / 256 ^ (a - e.loc.addr))) ∧
      (∀ pre e post a, es = pre ++ e :: post → Covers e true a → (∀ f ∈ post, ¬Covers f true a) →
        t.sbyte a = BitVec.ofNat 8 (e.data.toNat / 256 ^ (a - e.loc.addr))) ∧
      (∀ e ∈ es, ∀ a, DirtyAt s e.loc a → (∀ f ∈ es, ¬Covers f false a) → s.poisoned (a / 32) = false →
        tget 0 s.mem.errors (a / 32) < 2 →
        (t.byte a).getLsbD (e.loc.gpa / 65536 % 8) = true) := by
  have hx : exec (.requestPerform u sec) s = .next (performSector s u sec) := by
    rw [exec_requestPerform, execRequestPerform, h.here]
    dsimp only
    rw [if_neg h.space]
  obtain ⟨p, hp, hr, hc⟩ := performSector_store h hk
  have hd (l : Loc) (a : Nat) := hp.dirtyAt l a
  refine ⟨_, hx, (hp.keeps.regsStay.trans (tidy_writeElems ..).keeps.regsStay).trans hr, fun a ha => ?_, fun a ha => ?_,
    fun pre e post a he h1 h2 h3 => ?_, fun pre e post a he h1 h2 => ?_, fun e he a h1 h2 h3 h4 => ?_⟩
  · rw [← cell_false, hc, writeElems_cell_ne (fun e he => (ha e he).1) fun _ e he => (hd ..).not.mpr (ha e he).2, hp.cell]
    rfl
  · rw [← cell_true, hc, writeElems_cell_ne ha nofun, hp.cell]
    rfl
  · rw [← cell_false, hc, writeElems_cell_last he h1 h2 fun _ f hf => (hd ..).not.mpr (h3 f hf)]
  · rw [← cell_true, hc, writeElems_cell_last he h1 h2 nofun]
  · rw [← cell_false, hc]
    exact writeElems_marks he ((hd ..).mpr h1) h2 (hp.clean _ ⟨h3, h4⟩)

-- The agenda, on which no write depends.

/-- The state with another agenda. -/
def State.withAgenda (s : State) (q : List Turn) : State := { s with agenda := q }

theorem foldl_withAgenda {α : Type} {f : State → α → State} {q : List Turn}
    (hf : ∀ s x, f (s.withAgenda q) x = (f s x).withAgenda q) (l : List α) (s : State) :
    l.foldl f (s.withAgenda q) = (l.foldl f s).withAgenda q := by
  induction l generalizing s with
  | nil => rfl
  | cons x r ih => rw [List.foldl_cons, hf, ih, List.foldl_cons]

theorem chargeUser_withAgenda (s : State) (q : List Turn) (u a n : Nat) :
    chargeUser (s.withAgenda q) u a n = (chargeUser s u a n).withAgenda q := by
  unfold chargeUser
  dsimp only
  split <;> rfl

theorem dropCopies_withAgenda (s : State) (q : List Turn) (line : Nat) (keep : Option Nat) :
    dropCopies (s.withAgenda q) line keep = (dropCopies s line keep).withAgenda q := by
  unfold dropCopies
  dsimp only
  rw [show (s.withAgenda q).core = s.core from rfl, foldl_withAgenda fun s e => ?_]
  · rfl
  · split
    · split
      · rfl
      · rw [writeBackL1, chargeUser_withAgenda]
        rfl
    · rfl

theorem writeBytes_withAgenda (s : State) (q : List Turn) (a : Nat) (l : List Byte) :
    (s.withAgenda q).writeBytes a l = (s.writeBytes a l).withAgenda q := by
  induction l generalizing s a with
  | nil => rfl
  | cons b r ih => exact ih (s.setByte a b) (a + 1)

theorem sectorOpened_withAgenda (s : State) (q : List Turn) (a n sec : Nat) : sectorOpened (s.withAgenda q) a n sec =
    ((sectorOpened s a n sec).1.withAgenda q, (sectorOpened s a n sec).2) := by
  unfold sectorOpened sectorRead dramRead
  dsimp only
  rw [show (s.withAgenda q).mem = s.mem from rfl, show (s.withAgenda q).poisoned sec = s.poisoned sec from rfl]
  split_ifs <;> rfl

theorem writeSector_withAgenda (s : State) (q : List Turn) (a : Nat) (bs : List Byte) (sec : Nat) :
    writeSector (s.withAgenda q) a bs sec = (writeSector s a bs sec).withAgenda q := by
  rw [writeSector_eq, writeSector_eq, sectorOpened_withAgenda]
  dsimp only
  split
  · rfl
  · rw [dropCopies_withAgenda, writeBytes_withAgenda]
    rfl

theorem hostOpen_withAgenda (s : State) (q : List Turn) (sec : Nat) : hostOpen (s.withAgenda q) sec = hostOpen s sec := rfl

theorem hostSector_withAgenda (s : State) (q : List Turn) (a : Nat) (bs : List Byte) (sec : Nat) :
    hostSector (s.withAgenda q) a bs sec = (hostSector s a bs sec).withAgenda q := by
  unfold hostSector
  rw [hostOpen_withAgenda]
  split
  · rw [chargeUser_withAgenda, writeSector_withAgenda]
  · rfl

-- The host's write (R125, R127).

/-- A write's part in a sector is the same where the write ends behind the sector. -/
theorem writeSector_take (s : State) {a sec n : Nat} {bs : List Byte} (hs : 32 * sec + 32 ≤ a + n) (hn : n ≤ bs.length) :
    writeSector s a (bs.take n) sec = writeSector s a bs sec := by
  have hl : (bs.take n).length = n := by rw [List.length_take]; omega
  have h1 : min (a + n) (32 * sec + 32) = 32 * sec + 32 := by omega
  have h2 : min (a + bs.length) (32 * sec + 32) = 32 * sec + 32 := by omega
  have ho : sectorOpened s a n sec = sectorOpened s a bs.length sec := by rw [sectorOpened, sectorOpened, h1, h2]
  rw [writeSector_eq, writeSector_eq, hl, ho, h1, h2, List.drop_take, List.take_take]
  congr 8
  omega

theorem hostSector_take (s : State) {a sec n : Nat} {bs : List Byte} (hs : 32 * sec + 32 ≤ a + n) (hn : n ≤ bs.length) :
    hostSector s a (bs.take n) sec = hostSector s a bs sec := by
  unfold hostSector
  rw [writeSector_take _ hs hn]

/-- The sectors of a run of bytes up to a number. -/
def sectorsFrom (a n : Nat) : List Nat := (List.range n).map (a / 32 + ·)

theorem runSectors_eq {a n : Nat} (h : n ≠ 0) : runSectors a n = sectorsFrom a ((a % 32 + n + 31) / 32) := if_neg h

/-- The host's write up to its `k`-th sector. -/
def hostWritten (s : State) (a : Nat) (bs : List Byte) (k : Nat) : State :=
  (sectorsFrom a k).foldl (fun s sec => hostSector s a bs sec) s

theorem hostWritten_succ (s : State) (a : Nat) (bs : List Byte) (k : Nat) :
    hostWritten s a bs (k + 1) = hostSector (hostWritten s a bs k) a bs (a / 32 + k) := by
  simp only [hostWritten, sectorsFrom, List.range_succ, List.map_append, List.foldl_append, List.map_cons, List.map_nil,
    List.foldl_cons, List.foldl_nil]

theorem hostWritten_take (s : State) {a n k : Nat} {bs : List Byte} (hk : 32 * (a / 32 + k) ≤ a + n) (hn : n ≤ bs.length) :
    hostWritten s a (bs.take n) k = hostWritten s a bs k := by
  induction k with
  | zero => rfl
  | succ k ih => rw [hostWritten_succ, hostWritten_succ, ih (by omega), hostSector_take _ (by omega) hn]

theorem hostWritten_withAgenda (s : State) (q : List Turn) (a : Nat) (bs : List Byte) (k : Nat) :
    hostWritten (s.withAgenda q) a bs k = (hostWritten s a bs k).withAgenda q :=
  foldl_withAgenda (fun s sec => hostSector_withAgenda s q a bs sec) _ s

theorem backed_le {a n m : Nat} (h : backed a n = true) (hm : m ≤ n) : backed a m = true := by
  simp only [backed, Bool.or_eq_true, Bool.and_eq_true, decide_eq_true_eq] at h ⊢
  omega

/-- What the host's write has done before its `k`-th sector is the write of the bytes before that sector. -/
theorem hostWrite_before (s : State) {a k : Nat} {bs : List Byte} (hb : backed a bs.length = true)
    (hk : 32 * (a / 32 + k) < a + bs.length) :
    hostWrite s a (bs.take (32 * (a / 32 + k) - a)) = hostWritten s a bs k := by
  have hl : (bs.take (32 * (a / 32 + k) - a)).length = 32 * (a / 32 + k) - a := by rw [List.length_take]; omega
  unfold hostWrite
  rcases Nat.eq_zero_or_pos k with rfl | hpos
  · rw [show 32 * (a / 32 + 0) - a = 0 by omega, if_pos (by rfl)]
    rfl
  · have he : (bs.take (32 * (a / 32 + k) - a)).isEmpty = false := by
      rw [List.isEmpty_eq_false_iff, ← List.length_pos_iff, hl]
      omega
    rw [hl, he, backed_le hb (by omega), if_neg (by decide), runSectors_eq (by omega),
      show (a % 32 + (32 * (a / 32 + k) - a) + 31) / 32 = k by omega]
    exact hostWritten_take s (by omega) (by omega)

theorem hostWrite_eq (s : State) {a : Nat} {bs : List Byte} (hne : bs ≠ []) (hb : backed a bs.length = true) :
    hostWrite s a bs = hostWritten s a bs ((a % 32 + bs.length + 31) / 32) := by
  have hl : bs.length ≠ 0 := fun h => hne (List.length_eq_zero_iff.mp h)
  have he : bs.isEmpty = false := by simpa using hne
  unfold hostWrite
  rw [he, hb, if_neg (by decide), runSectors_eq hl]
  rfl

theorem tidy_hostSector (s : State) (a : Nat) (bs : List Byte) (sec : Nat) : Tidy s (hostSector s a bs sec) := by
  unfold hostSector
  split
  · exact (calm_chargeUser ..).toTidy.trans (tidy_writeSector ..)
  · exact .refl s

theorem hostSector_scratch (s : State) (a : Nat) (bs : List Byte) (sec : Nat) :
    (hostSector s a bs sec).core.scratch = s.core.scratch := by
  unfold hostSector
  split
  · exact (writeSector_scratch ..).trans (calm_chargeUser ..).scratch
  · rfl

/-- The part of the host's write in an open and clean sector is put there, and no other byte changes. -/
theorem hostSector_byte {sec : Nat} (ho : hostOpen s sec = true) (c : Clean s sec) (a : Nat) (bs : List Byte) (x : Nat) :
    (hostSector s a bs sec).byte x = if x / 32 = sec ∧ a ≤ x ∧ x < a + bs.length then bs.getD (x - a) 0 else s.byte x := by
  have h := calm_chargeUser s 512 (32 * sec) 1
  unfold hostSector
  rw [if_pos ho, writeSector_byte (h.clean _ c), h.byte]

/-- The host's write up to a sector: its bytes stand there, and no other byte changes. -/
theorem hostWritten_byte {bs : List Byte} {k : Nat} (h : ∀ j < k, hostOpen (hostWritten s a bs j) (a / 32 + j) = true ∧
    Clean s (a / 32 + j)) (x : Nat) : (hostWritten s a bs k).byte x =
      if a / 32 ≤ x / 32 ∧ x / 32 < a / 32 + k ∧ a ≤ x ∧ x < a + bs.length then bs.getD (x - a) 0 else s.byte x := by
  induction k with
  | zero =>
    rw [if_neg (by omega)]
    rfl
  | succ k ih =>
    obtain ⟨ho, c⟩ := h k (Nat.lt_succ_self k)
    have ht : Tidy s (hostWritten s a bs k) := .foldl (fun _ _ => tidy_hostSector ..) _ s
    rw [hostWritten_succ, hostSector_byte ho (ht.clean _ c), ih fun j hj => h j (Nat.lt_succ_of_lt hj)]
    by_cases hx : x / 32 = a / 32 + k ∧ a ≤ x ∧ x < a + bs.length
    · rw [if_pos hx, if_pos (by omega)]
    · rw [if_neg hx]
      by_cases hy : a / 32 ≤ x / 32 ∧ x / 32 < a / 32 + k ∧ a ≤ x ∧ x < a + bs.length
      · rw [if_pos hy, if_pos (by omega)]
      · rw [if_neg hy, if_neg (by omega)]

/-- The clause of the host's write. -/
theorem hostWrite_writes {rest : List Turn} {bs : List Byte} (hq : s.agenda = .hostWrite a bs :: rest) (hne : bs ≠ [])
    (hb : backed a bs.length = true) (h : ∀ sec ∈ runSectors a bs.length,
      hostOpen (hostWrite s a (bs.take (32 * sec - a))) sec = true ∧ s.poisoned sec = false ∧ tget 0 s.mem.errors sec < 2) :
    ∃ t, step s = .next t ∧ t.agenda = rest ∧ RegsStay s t ∧ (∀ x, t.sbyte x = s.sbyte x) ∧
      ∀ x, t.byte x = if a ≤ x ∧ x < a + bs.length then bs.getD (x - a) 0 else s.byte x := by
  have hl : 0 < bs.length := List.length_pos_iff.mpr hne
  have hsec : ∀ j < (a % 32 + bs.length + 31) / 32,
      hostOpen (hostWritten s a bs j) (a / 32 + j) = true ∧ Clean s (a / 32 + j) := fun j hj => by
    have hm : a / 32 + j ∈ runSectors a bs.length := by
      rw [runSectors_eq (by omega)]
      exact List.mem_map_of_mem (List.mem_range.mpr hj)
    obtain ⟨h1, h2⟩ := h _ hm
    exact ⟨by rwa [hostWrite_before s hb (by omega)] at h1, h2⟩
  have ht : Tidy s (hostWritten s a bs ((a % 32 + bs.length + 31) / 32)) := .foldl (fun _ _ => tidy_hostSector ..) _ s
  have hs : step s = .next ((hostWritten s a bs ((a % 32 + bs.length + 31) / 32)).withAgenda rest) := by
    have hn : nextTurnOf s = (.hostWrite a bs, s.withAgenda rest) := by
      unfold nextTurnOf
      rw [hq]
      rfl
    rw [step, hn]
    show Host.Outcome.next (hostWrite (s.withAgenda rest) a bs) = _
    rw [hostWrite_eq _ hne hb, hostWritten_withAgenda]
  refine ⟨_, hs, rfl, ht.keeps.regsStay.trans (.of_eq rfl), fun x => ?_, fun x => ?_⟩
  · exact congrArg (tget 0 · x) (foldl_same (·.core.scratch) (fun s sec => hostSector_scratch s a bs sec) _ s)
  · refine (hostWritten_byte hsec x).trans ?_
    by_cases hx : a ≤ x ∧ x < a + bs.length
    · rw [if_pos hx, if_pos (by omega)]
    · rw [if_neg hx, if_neg (by omega)]

/-- The clause of symbols that go wrong. -/
theorem upset_errs {rest : List Turn} {n : Nat} (hq : s.agenda = .upset sec n :: rest) (hb : backed (32 * sec) 32 = true) :
    ∃ t, step s = .next t ∧ (∀ a, t.byte a = s.byte a) ∧ tget 0 t.mem.errors sec = tget 0 s.mem.errors sec + n := by
  have hn : nextTurnOf s = (.upset sec n, s.withAgenda rest) := by
    unfold nextTurnOf
    rw [hq]
    rfl
  refine ⟨symbolsFail (s.withAgenda rest) sec n, by rw [step, hn]; rfl, ?_⟩
  unfold symbolsFail
  rw [if_pos hb]
  exact ⟨fun _ => rfl, tget_tput_self ..⟩

/-- Settles O32: the host's write sector by sector, symbols that go wrong, and a store element by element. -/
theorem storesPerform : Obligations.StoresPerform := by
  unfold Obligations.StoresPerform
  exact ⟨fun s rest a bs hq hne hb h => hostWrite_writes hq hne hb h, fun s rest sec n hq hb => upset_errs hq hb,
    fun u sec s r es h hk => store_performs h hk⟩

end Sys2Proof.Machine
end

section
/-! Walks complete (O36): a translation enters its TLB, and the gangs that held back for it issue again (R82 to R86, R406). -/

namespace Sys2Proof.Machine

set_option Elab.async false

variable {s t : State} {u ctx vpn : Nat} {c : Context}

/-- The gangs of a list changed by a change that, done twice, is done once. -/
theorem foldl_modGang_idem {f : Gang → Gang} (hf : ∀ g, f (f g) = f g) (l : List Nat) (s : State) (k : Nat) :
    (l.foldl (fun s k => s.modGang k f) s).gang? k = if k ∈ l then (s.gang? k).map f else s.gang? k := by
  induction l generalizing s with
  | nil => rfl
  | cons j r ih =>
    rw [List.foldl_cons, ih, modGang_gang]
    have hff : f ∘ f = f := funext hf
    by_cases hk : k = j
    · subst hk
      by_cases hr : k ∈ r <;> simp [hr, hff]
    · simp [hk]

theorem unhold_unhold (g : Gang) : g.unhold.unhold = g.unhold := by
  unfold Gang.unhold
  split <;> simp_all

/-- The gangs of a context on a core. -/
def gangsThere (s : State) (core ctx : Nat) : List Nat :=
  ((tentries s.gangs).filter fun e => match s.block? e.2.block with
    | some b => b.core == core && b.ctx == ctx
    | none => false).map (·.1)

theorem unholdGangs_eq (s : State) (core ctx : Nat) :
    unholdGangs s core ctx = (gangsThere s core ctx).foldl (fun s k => s.modGang k Gang.unhold) s := by
  rw [gangsThere, List.foldl_map]
  rfl

theorem unholdGangs_only (s : State) (core ctx : Nat) : ∃ x, unholdGangs s core ctx = { s with gangs := x } := by
  rw [unholdGangs_eq]
  exact foldl_modGang_only ..

theorem unholdGangs_unholds {k : Nat} {g : Gang} {b : Block} (hg : s.gang? k = some g) (hb : s.block? g.block = some b) :
    (unholdGangs s b.core b.ctx).gang? k = some g.unhold := by
  have hk : k ∈ gangsThere s b.core b.ctx := by
    refine List.mem_map.mpr ⟨(k, g), List.mem_filter.mpr ⟨mem_tentries_of_tget hg, ?_⟩, rfl⟩
    simp [hb]
  rw [unholdGangs_eq, foldl_modGang_idem unhold_unhold, if_pos hk, hg]
  rfl

/-- Where no entry has bounced, only gangs that held an instruction back go on after a walk. -/
theorem afterWalk_unholds (hu : u < 256) (hr : ∀ e ∈ tentries s.reqs, e.2.bounced = false)
    (hc : ∀ e ∈ tentries s.cmds, e.2.bounced = false) (he : ∀ e ∈ tentries s.engOps, e.2.bounced = false) (ctx : Nat) :
    afterWalk s u ctx = unholdGangs s u ctx := by
  have h1 : walkers s u ctx = [] := by
    rw [walkers, List.filter_eq_nil_iff.mpr fun e h => by simp [hr e h]]
    rfl
  have h2 (x : Tab (Option Gang)) : engWalkers { s with gangs := x } u ctx = [] := by
    rw [engWalkers, List.filter_eq_nil_iff.mpr fun e h => by simp [he e h]]
    rfl
  have h3 (x : Tab (Option Gang)) : cmdsBounced { s with gangs := x } u ctx 0 = [] := by
    rw [cmdsBounced, List.filter_eq_nil_iff.mpr fun e h => by simp [hc e h]]
    rfl
  obtain ⟨x, e⟩ := unholdGangs_only s u ctx
  unfold afterWalk
  rw [if_neg (by unfold hubUnit; omega), h1, e]
  dsimp only [List.foldl_nil]
  rw [h2, List.foldl_nil, h3, List.foldl_nil]

-- What a translation reads (R82).

theorem readPhys_congr (h : t.mem = s.mem) (a n : Nat) : t.readPhys a n = s.readPhys a n := by
  simp only [State.readPhys, State.byte, h]

theorem hostWalk_congr (h : t.mem = s.mem) (gpa l base : Nat) : hostWalk t gpa l base = hostWalk s gpa l base := by
  induction l generalizing base with
  | zero => simp only [hostWalk, readPhys_congr h]
  | succ l ih => simp only [hostWalk, readPhys_congr h, ih]

theorem guestWalk_congr (h : t.mem = s.mem) (hroot va l base : Nat) : guestWalk t hroot va l base = guestWalk s hroot va l base := by
  induction l generalizing base with
  | zero =>
    unfold guestWalk
    simp only [readPhys_congr h, hostWalk_congr h]
  | succ l ih =>
    unfold guestWalk
    simp only [readPhys_congr h, hostWalk_congr h, ih]

/-- A translation reads memory and nothing else of the state. -/
theorem translate_congr (h : t.mem = s.mem) (c : Context) (vpn : Nat) : translate t c vpn = translate s c vpn := by
  simp only [translate, hostWalk_congr h, guestWalk_congr h]

-- WALK_COMPLETE.

/-- The state once a walk's translation is in the TLB. -/
def walked (s : State) (u ctx vpn : Nat) (c : Context) : State :=
  { s with walks := s.walks.filter (· != (u, ctx, vpn)), tlb := tput none s.tlb (tlbKey u ctx vpn) (some (translate s c vpn)) }

/-- A walk whose tables can be read completes (R82 to R86, R406, R407). -/
theorem exec_walkComplete_walks (hw : (u, ctx, vpn) ∈ s.walks) (hr : walkerReady s u = true) (hc : s.ctx? ctx = some c)
    (ht : translateReady s c vpn = true) : exec (.walkComplete u ctx vpn) s = .next (afterWalk (walked s u ctx vpn c) u ctx) := by
  have hw' : s.walks.contains (u, ctx, vpn) = true := by simpa using hw
  rw [exec_walkComplete, execWalkComplete, hw', hr, hc]
  dsimp only
  rw [ht, translate_congr (t := { s with walks := s.walks.filter (· != (u, ctx, vpn)) }) (s := s) rfl]
  rfl

/-- A walk waits for the homes of the tables that it reads (R406). -/
theorem exec_walkComplete_waits (hc : s.ctx? ctx = some c) (ht : translateReady s c vpn = false) (u : Nat) :
    exec (.walkComplete u ctx vpn) s = .next s := by
  rw [exec_walkComplete, execWalkComplete, hc]
  dsimp only
  rw [ht]
  split <;> rfl

/-- The clause of a walk that completes. -/
theorem walkComplete_completes (hw : (u, ctx, vpn) ∈ s.walks) (hr : walkerReady s u = true) (hc : s.ctx? ctx = some c)
    (ht : translateReady s c vpn = true) (hu : u < 256) (h1 : ∀ e ∈ tentries s.reqs, e.2.bounced = false)
    (h2 : ∀ e ∈ tentries s.cmds, e.2.bounced = false) (h3 : ∀ e ∈ tentries s.engOps, e.2.bounced = false) :
    ∃ t, exec (.walkComplete u ctx vpn) s = .next t ∧ (∀ a, t.byte a = s.byte a) ∧
      t.tlbGet u ctx vpn = some (translate s c vpn) ∧
      (∀ a b p, (a, b, p) ≠ (u, ctx, vpn) → ((a, b, p) ∈ t.walks ↔ (a, b, p) ∈ s.walks)) ∧ (u, ctx, vpn) ∉ t.walks ∧
      ∀ k g b, s.gang? k = some g → s.block? g.block = some b → b.core = u → b.ctx = ctx → g.hold = .walk 0 →
        ∃ g', t.gang? k = some g' ∧ g' = { g with hold := .none } := by
  have ha : afterWalk (walked s u ctx vpn c) u ctx = unholdGangs (walked s u ctx vpn c) u ctx :=
    afterWalk_unholds hu (s := walked s u ctx vpn c) h1 h2 h3 ctx
  obtain ⟨x, e⟩ := unholdGangs_only (walked s u ctx vpn c) u ctx
  have hwalks : (unholdGangs (walked s u ctx vpn c) u ctx).walks = s.walks.filter (· != (u, ctx, vpn)) := by rw [e]; rfl
  refine ⟨_, exec_walkComplete_walks hw hr hc ht, ?_⟩
  rw [ha, hwalks]
  refine ⟨fun a => by rw [e]; rfl, ?_, fun a b p hn => ?_, fun h => ?_, fun k g b hg hb hcore hctx hh => ⟨_, ?_, rfl⟩⟩
  · rw [e]
    exact tget_tput_self none s.tlb (tlbKey u ctx vpn) (some (translate s c vpn))
  · simp [List.mem_filter, hn]
  · simp [List.mem_filter] at h
  · subst hcore hctx
    rw [unholdGangs_unholds (s := walked s b.core b.ctx vpn c) hg hb, Gang.unhold, if_pos hh]

end Sys2Proof.Machine
end

section
/-! Hold limits (O36): what stands too long at the head of a queue bounces, and a store carries its gang's later ones with it (R134,
R166, R167, R171 to R173). -/

namespace Sys2Proof.Machine

set_option Elab.async false

variable {s t : State} {u id gang : Nat} {r : Req} {b : Block}

-- The time at a queue's head.

/-- The limit, in units of 16 cycles, of a queue on the way of a request (R166). -/
def queueLimit (p : Part) (stage : Nat) : Nat := match stage with | 0 => p.core | 1 => p.die | 2 => p.memc | _ => p.fabric

/-- A place has stood at its queue's head for that queue's limit, since it came or since the head before it left (R167). -/
def Late (s : State) (gang core : Nat) (x : Stand) : Prop :=
  (∀ y ∈ inQueue s (queueOf s gang x.sec x.stage), y.before x = false) ∧
    max x.since (tget 0 s.leftAt (queueOf s gang x.sec x.stage)) + 16 * queueLimit (s.part (core / 32)) x.stage ≤ s.cycle

theorem stageLimit_eq (s : State) (core stage : Nat) : stageLimit s core stage = 16 * queueLimit (s.part (core / 32)) stage := by
  rcases stage with _ | _ | _ | n <;> rfl

theorem headOver_iff (hb : s.block? (gang / 16) = some b) (x : Stand) : headOver s gang x = true ↔ Late s gang b.core x := by
  have hc : keyCore s gang = b.core := by simp [keyCore, hb]
  simp only [headOver, Bool.and_eq_true, decide_eq_true_eq, hc, stageLimit_eq, headSince, atQueueHead, Bool.not_eq_true',
    List.any_eq_false, Late, Bool.not_eq_true]
  exact and_comm

theorem heldOut_none (hb : s.block? (r.gang / 16) = some b) (h : ∀ x ∈ standing s u r, ¬Late s r.gang b.core x) :
    heldOut s u r = none := by
  rw [heldOut, List.find?_eq_none.mpr fun x hx => (headOver_iff hb x).not.mpr (h x hx)]
  rfl

/-- Where one place of a request is late, one that is names the sector and the queue. -/
theorem heldOut_late (hb : s.block? (r.gang / 16) = some b) {x : Stand} (hx : x ∈ standing s u r) (hl : Late s r.gang b.core x) :
    ∃ y ∈ standing s u r, Late s r.gang b.core y ∧ heldOut s u r = some (y.sec, y.stage) := by
  cases hf : (standing s u r).find? (headOver s r.gang) with
  | none => exact absurd ((headOver_iff hb x).mpr hl) (List.find?_eq_none.mp hf x hx)
  | some y =>
    refine ⟨y, List.mem_of_find?_eq_some hf, (headOver_iff hb y).mp (List.find?_some hf), ?_⟩
    rw [heldOut, hf]
    rfl

/-- A request that has not bounced bounces exactly where it is held out. -/
theorem exec_holdLimitExpiry_req (hr : s.req? id = some r) (hn : r.bounced = false) : exec (.holdLimitExpiry id) s =
    .next (match heldOut s id r with
      | some (_, stage) => bounceReq s id (if stage = 3 then 4 else 5)
      | none => s) := by
  rw [exec_holdLimitExpiry, execHoldLimitExpiry, hr]
  dsimp only
  rw [walkOver, hn]
  rfl

-- A bounce counted.

theorem tget_mapKey {α : Type} (h : Nat → α → α) (t : Tab (Option α)) (k : Nat) :
    tget none (t.map fun e => (e.1, e.2.map fun x => h e.1 x)) k = (tget none t k).map (h k) := by
  induction t with
  | nil => rfl
  | cons e l ih =>
    obtain ⟨j, x⟩ := e
    simp only [List.map_cons, tget]
    split
    · next hk => rw [hk]
    · exact ih

/-- A request that has bounced (R171 to R173). -/
def Req.sentBack (s : State) (u : Nat) (r : Req) (cause : Nat) : Req :=
  { r with bounced := true, cause := cause, since := s.cycle, key := reqKey s u r cause,
           bounces := if r.bounces + 1 = 256 then 8 else r.bounces + 1 }

/-- A later store of a gang that a bounced one carries with it (R134). -/
def Req.carriedBy (key u v : Nat) (r : Req) : Req :=
  if r.gang = key ∧ u < v ∧ r.storeLike ∧ !r.allPerformed then { r with chained := true } else r

theorem chainAfter_req (s : State) (key u v : Nat) : (chainAfter s key u).req? v = (s.req? v).map (Req.carriedBy key u v) :=
  tget_mapKey (fun v r => Req.carriedBy key u v r) s.reqs v

/-- No byte of memory and no request changes. -/
structure ReqsStay (s t : State) : Prop where
  mem : t.mem = s.mem
  reqs : t.reqs = s.reqs

theorem ReqsStay.ite {c : Prop} [Decidable c] (h : ReqsStay s t) : ReqsStay s (if c then t else s) := by
  split
  · exact h
  · exact ⟨rfl, rfl⟩

theorem ReqsStay.byte (h : ReqsStay s t) (a : Nat) : t.byte a = s.byte a := by rw [State.byte, h.mem]; rfl

theorem ReqsStay.req (h : ReqsStay s t) (v : Nat) : t.req? v = s.req? v := by rw [State.req?, h.reqs]; rfl

theorem reqsStay_modGang (s : State) (k : Nat) (f : Gang → Gang) : ReqsStay s (s.modGang k f) := by
  obtain ⟨x, e⟩ := modGang_only s k f
  rw [e]
  exact ⟨rfl, rfl⟩

theorem reqsStay_ageAt (s : State) (key u n : Nat) : ReqsStay s (ageAt s key u n) := by
  unfold ageAt
  split <;> exact ⟨rfl, rfl⟩

/-- What follows on a request that is sent back: an SC loses its set, a store carries later ones with it, and the entry is aged at
the resource and may have reached its bounce limit. -/
def bounceFollows (s : State) (u : Nat) (r : Req) (key : Nat) : State :=
  let s := if r.kind == .sc then endSc s r.gang u else s
  let s := if r.storeLike then chainAfter s r.gang u else s
  let s := ageAt s key u (r.bounces + 1)
  if r.bounces + 1 = 256 then raiseBounceLimit s r.gang r.split 0 else s

theorem bounceFollows_frame (s : State) (u : Nat) (r : Req) (key : Nat) : (∀ a, (bounceFollows s u r key).byte a = s.byte a) ∧
    ∀ v, (bounceFollows s u r key).req? v = if r.storeLike then (s.req? v).map (Req.carriedBy r.gang u v) else s.req? v := by
  have h1 : ReqsStay s (if r.kind == .sc then endSc s r.gang u else s) := (reqsStay_modGang ..).ite
  unfold bounceFollows
  dsimp only
  generalize (if (r.kind == ReqKind.sc) = true then endSc s r.gang u else s) = s1 at h1 ⊢
  have h2 : (if r.storeLike then chainAfter s1 r.gang u else s1).mem = s1.mem ∧ ∀ v, (if r.storeLike then chainAfter s1 r.gang u else s1).req? v =
      if r.storeLike then (s.req? v).map (Req.carriedBy r.gang u v) else s.req? v := by
    split
    · exact ⟨rfl, fun v => by rw [chainAfter_req, h1.req]⟩
    · exact ⟨rfl, h1.req⟩
  generalize (if r.storeLike = true then chainAfter s1 r.gang u else s1) = s2 at h2 ⊢
  have h3 := reqsStay_ageAt s2 key u (r.bounces + 1)
  have h4 : ReqsStay _ (if r.bounces + 1 = 256 then raiseBounceLimit (ageAt s2 key u (r.bounces + 1)) r.gang r.split 0
    else ageAt s2 key u (r.bounces + 1)) := (reqsStay_modGang ..).ite
  refine ⟨fun a => ?_, fun v => by rw [h4.req, h3.req, h2.2]⟩
  rw [h4.byte, h3.byte, State.byte, h2.1, ← State.byte, h1.byte]

theorem bounceReq_eq (hr : s.req? u = some r) (cause : Nat) : bounceReq s u cause = bounceFollows
    ((leaveQueues s r.gang (standing s u r)).setReq u (some (r.sentBack s u cause))) u r
      (reqKey s u r cause) := by
  unfold bounceReq
  rw [hr]
  rfl

/-- A bounce changes no byte; the request is sent back, and where it is like a store it carries its gang's later ones with it. -/
theorem bounceReq_frame (hr : s.req? u = some r) (cause : Nat) : (∀ a, (bounceReq s u cause).byte a = s.byte a) ∧
    (bounceReq s u cause).req? u = some (r.sentBack s u cause) ∧
    (r.storeLike = true → ∀ v y, v ≠ u → s.req? v = some y → (bounceReq s u cause).req? v = some (y.carriedBy r.gang u v)) := by
  obtain ⟨l, e⟩ := leaveQueues_only s r.gang (standing s u r)
  rw [bounceReq_eq hr, e]
  obtain ⟨h1, h2⟩ := bounceFollows_frame (({ s with leftAt := l } : State).setReq u (some (r.sentBack s u cause))) u r
    (reqKey s u r cause)
  have hq (v : Nat) : (({ s with leftAt := l } : State).setReq u (some (r.sentBack s u cause))).req? v =
      if v = u then some (r.sentBack s u cause) else s.req? v := setReq_req ..
  refine ⟨h1, ?_, fun hs v y hv hy => ?_⟩
  · have hc : Req.carriedBy r.gang u u (r.sentBack s u cause) = r.sentBack s u cause := if_neg fun h => Nat.lt_irrefl u h.2.1
    rw [h2, hq, if_pos rfl, Option.map_some, hc, ite_self]
  · rw [h2, hq, if_neg hv, if_pos hs, hy]
    rfl

/-- The clause of the hold limit: a late place bounces. -/
theorem holdLimitExpiry_bounces (hr : s.req? id = some r) (hb : s.block? (r.gang / 16) = some b) (hn : r.bounced = false)
    {x : Stand} (hx : x ∈ standing s id r) (hl : Late s r.gang b.core x)
    (hs : ∀ y ∈ standing s id r, Late s r.gang b.core y → y.stage = x.stage) :
    ∃ t q, exec (.holdLimitExpiry id) s = .next t ∧ (∀ a, t.byte a = s.byte a) ∧ t.req? id = some q ∧
      q = { r with bounced := true, cause := if x.stage = 3 then 4 else 5, since := s.cycle, key := q.key,
                   bounces := if r.bounces + 1 = 256 then 8 else r.bounces + 1 } ∧
      (∃ y ∈ standing s id r, Late s r.gang b.core y ∧ q.key = q.cause + 16 * stageKey b.core y.sec y.stage) ∧
      (r.kind = .store → ∀ v y, id < v → s.req? v = some y → y.gang = r.gang → y.kind = .store → y.allPerformed = false →
        ∃ z, t.req? v = some z ∧ z.chained = true) := by
  obtain ⟨y, hy, hyl, hh⟩ := heldOut_late hb hx hl
  obtain ⟨h1, h2, h3⟩ := bounceReq_frame hr (if x.stage = 3 then 4 else 5)
  have hk : reqKey s id r (if x.stage = 3 then 4 else 5) =
      (if x.stage = 3 then 4 else 5) + 16 * stageKey b.core y.sec y.stage := by
    have hc : keyCore s r.gang = b.core := by simp [keyCore, hb]
    have h2 : (if x.stage = 3 then 4 else 5) ≠ 2 := by split <;> decide
    unfold reqKey
    dsimp only
    rw [if_neg h2, hh, hc]
  refine ⟨_, _, ?_, h1, h2, rfl, ⟨y, hy, hyl, hk⟩, fun hst v z hv hz hg hzk hp => ⟨_, h3 ?_ v z (by omega) hz, ?_⟩⟩
  · rw [exec_holdLimitExpiry_req hr hn, hh]
    dsimp only
    rw [hs y hy hyl]
  · simp [Req.storeLike, hst]
  · rw [Req.carriedBy, if_pos ⟨hg, hv, by simp [Req.storeLike, hzk], by simp [hp]⟩]

/-- The clause of the hold limit: without a late place nothing happens. -/
theorem holdLimitExpiry_waits (hr : s.req? id = some r) (hb : s.block? (r.gang / 16) = some b) (hn : r.bounced = false)
    (h : ∀ x ∈ standing s id r, ¬Late s r.gang b.core x) : exec (.holdLimitExpiry id) s = .next s := by
  rw [exec_holdLimitExpiry_req hr hn, heldOut_none hb h]

end Sys2Proof.Machine
end

section
/-! Reissues (O36): what bounced comes back, its checks decided anew (R167, R171 to R173). -/

namespace Sys2Proof.Machine

set_option Elab.async false

variable {s t : State} {u id : Nat} {r : Req} {b : Block} {c : Cmd}

-- The checks decided.

/-- Where every element passes its check, the instruction proceeds with the places. -/
theorem decideChecks_ok (es : List (Nat × DWord)) (ls : List Loc) : decideChecks es (ls.map .ok) = .proceed ls := by
  unfold decideChecks
  split
  next e sub hf =>
    obtain ⟨l, -, hl⟩ := List.mem_map.mp (List.of_mem_zip (List.mem_of_find?_eq_some hf)).2
    exact Chk.noConfusion hl
  next => simp [absentPages, List.filterMap_map]

/-- Where every element passes a check, the checks are the places. -/
theorem exists_map_ok {α : Type} {f : α → Chk} (l : List α) (h : ∀ x ∈ l, ∃ y, f x = .ok y) : ∃ ls : List Loc, l.map f = ls.map .ok := by
  induction l with
  | nil => exact ⟨[], rfl⟩
  | cons x l ih =>
    obtain ⟨y, hy⟩ := h x (List.mem_cons_self ..)
    obtain ⟨ls, hls⟩ := ih fun z hz => h z (List.mem_cons_of_mem _ hz)
    exact ⟨y :: ls, by rw [List.map_cons, List.map_cons, hy, hls]⟩

theorem passAgain_ok (b : Block) (r : Req) (e : Elem) (l : Loc) : ∃ l', passAgain b r e (.ok l) = .ok l' := by
  unfold passAgain
  split
  · exact ⟨_, rfl⟩
  · split
    · exact ⟨_, rfl⟩
    · exact ⟨_, rfl⟩

-- A request checked again.

/-- A request whose checks have passed: it stands in the queues of the places that it still goes to, from now. -/
def Req.rejoined (s : State) (r : Req) (ls : List Loc) : Req :=
  { r with
    elems := (r.elems.zip ls).map fun x => if r.checked && r.performed.contains x.1.loc.sector then x.1 else { x.1 with loc := x.2 },
    checked := true, bounced := false, since := s.cycle,
    places := (r.places.filter fun p => ls.any fun l => l.sector == p.sec).zipIdx.map fun p =>
      { p.1 with since := s.cycle, order := s.uid + p.2 } }

theorem homeOnly_chargeReissue (s : State) (r : Req) : HomeOnly s (chargeReissue s r) := by
  unfold chargeReissue
  split
  · refine .foldl (fun s x => ?_) _ _
    split
    · exact homeOnly_chargeUser ..
    · exact .refl _
  · exact .refl _

theorem reqsStay_countDue (s : State) (key ctx : Nat) : ReqsStay s (countDue s key ctx) := by
  unfold countDue
  split
  · split
    · obtain ⟨x, e⟩ := modGang_only s key fun g => { g with sched := { g.sched with wrdDue := false } }
      obtain ⟨y, e'⟩ := countRead_only (s.modGang key fun g => { g with sched := { g.sched with wrdDue := false } }) ctx
      rw [e', e]
      exact ⟨rfl, rfl⟩
    · exact ⟨rfl, rfl⟩
  · exact ⟨rfl, rfl⟩

/-- What a request does whose checks, decided again, let it proceed: it is charged, joins its queues, and the instruction that was
held for it goes on. -/
def proceedReq (s : State) (u : Nat) (r : Req) (b : Block) (ls : List Loc) : State :=
  let s := chargeReissue s r
  let s := restartChain s r.gang u
  let s := s.setReq u (some (r.rejoined s ls))
  let s := { s with uid := s.uid + r.places.length }
  let s := dropAhead s fun k y => k == r.gang && (r.storeLike || r.kind == .lr) &&
    (r.kind != .store || ls.any fun l => l.sector == y)
  match s.gang? r.gang with
  | some g => if g.hold.on u then (countDue s r.gang b.ctx).modGang r.gang fun g => { g with hold := .none } else s
  | none => s

theorem checkReq_proceeds (hr : s.req? id = some r) (hb : s.block? (r.gang / 16) = some b) (hbn : r.bounced = true)
    {ls : List Loc} (hd : decideChecks (r.elems.map fun e => (e.lane, e.ea))
      (r.elems.map fun e => passAgain b r e (chkOf s b r e)) = .proceed ls) : checkReq s id = proceedReq s id r b ls := by
  unfold checkReq
  rw [hr]
  dsimp only
  rw [hb]
  dsimp only
  split
  next ls' h =>
    obtain rfl : ls' = ls := Decision.proceed.inj (h.symm.trans hd)
    rw [if_pos hbn]
    rfl
  next h => exact Decision.noConfusion (h.symm.trans hd)
  next h => exact Decision.noConfusion (h.symm.trans hd)
  next h => exact Decision.noConfusion (h.symm.trans hd)

/-- A request that proceeds joins its queues again, and no byte changes. -/
theorem proceedReq_frame (s : State) (u : Nat) (r : Req) (b : Block) (ls : List Loc) :
    (∀ a, (proceedReq s u r b ls).byte a = s.byte a) ∧ (proceedReq s u r b ls).req? u = some (r.rejoined s ls) := by
  obtain ⟨⟨m, x, p, en, e⟩, hm, -⟩ := homeOnly_chargeReissue s r
  unfold proceedReq
  rw [e] at hm ⊢
  dsimp only
  generalize hs1 : dropAhead _ _ = s1
  have h1 : s1.mem = m ∧ s1.req? u = some (r.rejoined s ls) := by
    rw [← hs1]
    refine ⟨rfl, ?_⟩
    exact tget_tput_self none (restartChain s r.gang u).reqs u (some (r.rejoined s ls))
  have h2 : ReqsStay s1 (match s1.gang? r.gang with
      | some g => if g.hold.on u then (countDue s1 r.gang b.ctx).modGang r.gang fun g => { g with hold := .none } else s1
      | none => s1) := by
    split
    · refine .ite ⟨?_, ?_⟩
      · rw [(reqsStay_modGang ..).mem, (reqsStay_countDue ..).mem]
      · rw [(reqsStay_modGang ..).reqs, (reqsStay_countDue ..).reqs]
    · exact ⟨rfl, rfl⟩
  refine ⟨fun a => ?_, ?_⟩
  · rw [h2.byte, State.byte, h1.1, hm]
    rfl
  · rw [h2.req, h1.2]

/-- A bounced request whose elements all pass their checks joins its queues again, and no byte changes. -/
theorem checkReq_rejoins (hr : s.req? id = some r) (hb : s.block? (r.gang / 16) = some b) (hbn : r.bounced = true)
    (hok : ∀ e ∈ r.elems, ∃ l, chkOf s b r e = .ok l) : ∃ ls, (∀ a, (checkReq s id).byte a = s.byte a) ∧
      (checkReq s id).req? id = some (r.rejoined s ls) := by
  obtain ⟨ls, hls⟩ := exists_map_ok (f := fun e => passAgain b r e (chkOf s b r e)) r.elems fun e he => by
    obtain ⟨l, hl⟩ := hok e he
    rw [hl]
    exact passAgain_ok ..
  refine ⟨ls, ?_⟩
  rw [checkReq_proceeds hr hb hbn (by rw [hls, decideChecks_ok])]
  exact proceedReq_frame ..

/-- A place where a request stands again is one that it stood at before, from now on, at the tail. -/
theorem Req.rejoined_place (s : State) (r : Req) (ls : List Loc) : ∀ p ∈ (r.rejoined s ls).places,
    p.since = s.cycle ∧ s.uid ≤ p.order ∧ ∃ y ∈ r.places, y.sec = p.sec ∧ y.stage = p.stage := by
  intro p hp
  obtain ⟨⟨y, i⟩, hy, rfl⟩ := List.mem_map.mp hp
  obtain ⟨hm, -⟩ := List.mem_filter.mp (List.fst_mem_of_mem_zipIdx hy)
  exact ⟨rfl, Nat.le_add_right .., y, hm, rfl, rfl⟩

-- Reissues.

theorem reissueReq_memory (hr : s.req? id = some r) (hbn : r.bounced = true) (hrun : gangRuns s r.gang = true)
    (hpeer : peerGone s r = false) (hsp : r.space ≠ .engine) : reissueReq s id = checkReq s id := by
  unfold reissueReq
  rw [hr]
  dsimp only
  rw [hbn, hrun, hpeer, if_neg hsp]
  rfl

theorem reissueReq_engine (hr : s.req? id = some r) (hbn : r.bounced = true) (hrun : gangRuns s r.gang = true)
    (hsp : r.space = .engine) : reissueReq s id = s.setReq id (some { r with bounced := false, since := s.cycle }) := by
  have hpeer : peerGone s r = false := by
    unfold peerGone
    rw [hsp]
    rfl
  unfold reissueReq
  rw [hr]
  dsimp only
  rw [hbn, hrun, hpeer, if_pos hsp]
  rfl

theorem dueBack_iff (hbn : r.bounced = true) (hc : r.cause = 5) :
    dueBack s r.bounced r.cause r.since r.bounces = true ↔ r.since + 256 * min r.bounces 8 ≤ s.cycle := by
  rw [dueBack, hbn, hc]
  exact decide_eq_true_iff

/-- The clause of the backoff: the oldest whose backoff is over joins its queues again. -/
theorem backoffExpiry_reissues (hr : s.req? id = some r) (hb : s.block? (r.gang / 16) = some b) (hbn : r.bounced = true)
    (hc : r.cause = 5) (hsp : r.space ≠ .engine) (hrun : gangRuns s r.gang = true) (hpeer : peerGone s r = false)
    (hfirst : ∀ u ∈ backDue s 0 r.gang, id ≤ u) (hok : ∀ e ∈ r.elems, ∃ l, chkOf s b r e = .ok l)
    (hdue : r.since + 256 * min r.bounces 8 ≤ s.cycle) :
    ∃ t q, exec (.backoffExpiry id) s = .next t ∧ (∀ a, t.byte a = s.byte a) ∧ t.req? id = some q ∧ q.bounced = false ∧
      q.checked = true ∧ q.since = s.cycle ∧ q.bounces = r.bounces ∧ q.performed = r.performed ∧ q.results = r.results ∧
      ∀ p ∈ q.places, p.since = s.cycle ∧ s.uid ≤ p.order ∧ ∃ y ∈ r.places, y.sec = p.sec ∧ y.stage = p.stage := by
  obtain ⟨ls, hbyte, hq⟩ := checkReq_rejoins hr hb hbn hok
  have hf : firstDue s 0 r.gang id = true := by
    rw [firstDue, Bool.not_eq_true', List.any_eq_false]
    intro u hu
    simpa using hfirst u hu
  refine ⟨_, _, ?_, hbyte, hq, rfl, rfl, rfl, rfl, rfl, rfl, Req.rejoined_place s r ls⟩
  rw [exec_backoffExpiry, execBackoffExpiry, hr]
  dsimp only
  rw [(dueBack_iff hbn hc).mpr hdue, hf, reissueReq_memory hr hbn hrun hpeer hsp]
  rfl

/-- The clause of the backoff: before it is over nothing happens. -/
theorem backoffExpiry_waits (hr : s.req? id = some r) (hbn : r.bounced = true) (hc : r.cause = 5)
    (hlt : s.cycle < r.since + 256 * min r.bounces 8) : exec (.backoffExpiry id) s = .next s := by
  have hd : dueBack s r.bounced r.cause r.since r.bounces = false :=
    Bool.eq_false_iff.mpr fun h => Nat.not_le.mpr hlt ((dueBack_iff hbn hc).mp h)
  rw [exec_backoffExpiry, execBackoffExpiry, hr]
  dsimp only
  rw [hd]
  rfl

/-- A bounced request goes on when its turn at the freed slot comes. -/
theorem exec_slotFreeReissue_req (hr : s.req? id = some r) (hbn : r.bounced = true) (hf : firstAt s r.key id r = true)
    (hc : r.cause = 2 ∧ goRoom s (keyCore s r.gang) id = true ∨ r.cause = 4 ∧ slotFor s r.key id = true) :
    exec (.slotFreeReissue id) s = .next (reissueReq s id) := by
  rw [exec_slotFreeReissue, execSlotFreeReissue, hr]
  dsimp only
  rw [hbn, hf]
  rcases hc with ⟨hc, h⟩ | ⟨hc, h⟩
  · rw [hc, h]
    rfl
  · rw [hc, h]
    rfl

/-- The clause of a memory request that found a queue full. -/
theorem slotFreeReissue_memory (hr : s.req? id = some r) (hb : s.block? (r.gang / 16) = some b) (hbn : r.bounced = true)
    (hc : r.cause = 4) (hsp : r.space ≠ .engine) (hrun : gangRuns s r.gang = true) (hpeer : peerGone s r = false)
    (hf : firstAt s r.key id r = true) (hslot : slotFor s r.key id = true) (hok : ∀ e ∈ r.elems, ∃ l, chkOf s b r e = .ok l) :
    ∃ t q, exec (.slotFreeReissue id) s = .next t ∧ (∀ a, t.byte a = s.byte a) ∧ t.req? id = some q ∧ q.bounced = false ∧
      q.since = s.cycle ∧ q.bounces = r.bounces ∧ q.performed = r.performed := by
  obtain ⟨ls, hbyte, hq⟩ := checkReq_rejoins hr hb hbn hok
  refine ⟨_, _, ?_, hbyte, hq, rfl, rfl, rfl, rfl⟩
  rw [exec_slotFreeReissue_req hr hbn hf (.inr ⟨hc, hslot⟩), reissueReq_memory hr hbn hrun hpeer hsp]

/-- The clause of a GO that found its engine's queue full. -/
theorem slotFreeReissue_engine (hr : s.req? id = some r) (hbn : r.bounced = true) (hc : r.cause = 2) (hsp : r.space = .engine)
    (hrun : gangRuns s r.gang = true) (hf : firstAt s r.key id r = true) (hroom : goRoom s (keyCore s r.gang) id = true) :
    ∃ t, exec (.slotFreeReissue id) s = .next t ∧ (∀ a, t.byte a = s.byte a) ∧
      t.req? id = some { r with bounced := false, since := s.cycle } := by
  refine ⟨s.setReq id (some { r with bounced := false, since := s.cycle }), ?_, fun a => rfl, setReq_req_self ..⟩
  rw [exec_slotFreeReissue_req hr hbn hf (.inl ⟨hc, hroom⟩), reissueReq_engine hr hbn hrun hsp]

-- A command that goes on.

theorem rejoin_some {way : Option Place} {secs : List Nat} {p : Place} (h : rejoin s way secs = some p) :
    p.since = s.cycle ∧ p.order = s.uid ∧ ∃ y, way = some y ∧ y.sec = p.sec ∧ y.stage = p.stage := by
  obtain ⟨y, hy, hp⟩ := Option.bind_eq_some_iff.mp h
  split at hp
  · cases hp
    exact ⟨rfl, rfl, y, hy, rfl, rfl⟩
  · cases hp

theorem homeOnly_chargeCmd (s : State) (c : Cmd) (b : Block) : HomeOnly s (chargeCmd s c b) := by
  unfold chargeCmd
  split
  · split
    · exact .refl s
    · exact homeOnly_chargeUser ..
  · exact .refl s

/-- A command that goes on stands at the tail of the queue that it left, and no byte changes. -/
theorem reissueCmd_frame (hc : s.cmd? u = some c) (hrun : gangRuns s c.gang = true) :
    (∀ a, (reissueCmd s u).byte a = s.byte a) ∧ ∃ secs, (reissueCmd s u).cmd? u = some { c with
      bounced := false, since := s.cycle, way := rejoin s c.way secs } := by
  obtain ⟨b, hb⟩ : ∃ b, s.block? (c.gang / 16) = some b := by
    cases hb : s.block? (c.gang / 16) with
    | some b => exact ⟨b, rfl⟩
    | none =>
      rw [gangRuns, hb, Bool.and_false] at hrun
      cases hrun
  have e : reissueCmd s u = ({ chargeCmd (if c.cause = 2 then s else unage s u) c b with uid := s.uid + 1 } : State).setCmd u
      (some { c with bounced := false, since := s.cycle, way := rejoin s c.way (cmdSectors s c b) }) := by
    unfold reissueCmd
    rw [hc]
    dsimp only
    rw [hb]
    dsimp only
    rw [if_pos hrun]
  have hm : (chargeCmd (if c.cause = 2 then s else unage s u) c b).mem.bytes = s.mem.bytes := by
    rw [(homeOnly_chargeCmd ..).bytes]
    split <;> rfl
  rw [e]
  exact ⟨fun a => congrArg (fun m => tget 0 m a) hm, _, setCmd_cmd_self ..⟩

/-- The clause of a command that found a queue full. -/
theorem slotFreeReissue_command (hr : s.req? id = none) (hc : s.cmd? id = some c) (hbn : c.bounced = true)
    (hrun : gangRuns s c.gang = true) (hcause : c.cause = 2 ∧ devqFree s c = true ∨ c.cause = 4)
    (hslot : slotFor s (cmdKey s c c.cause) id = true) (hf : firstCmd s (cmdKey s c c.cause) id c = true) :
    ∃ t w, exec (.slotFreeReissue id) s = .next t ∧ (∀ a, t.byte a = s.byte a) ∧
      t.cmd? id = some { c with bounced := false, since := s.cycle, way := w } ∧
      ∀ p, w = some p → p.since = s.cycle ∧ p.order = s.uid ∧ ∃ y, c.way = some y ∧ y.sec = p.sec ∧ y.stage = p.stage := by
  obtain ⟨hbyte, secs, hq⟩ := reissueCmd_frame hc hrun
  refine ⟨_, _, ?_, hbyte, hq, fun p => rejoin_some⟩
  have hgo : ((c.cause == 2 && devqFree s c) || c.cause == 4) = true := by simpa using hcause
  rw [exec_slotFreeReissue, execSlotFreeReissue, hr, hc]
  dsimp only
  rw [hbn, hgo, hslot, hf]
  rfl

/-- Settles O36: the clauses of the walk, of the hold limit, of the backoff and of the freed slot, each by its own lemma. -/
theorem walksAndBounces : Obligations.WalksAndBounces := by
  unfold Obligations.WalksAndBounces
  refine ⟨?walkWaits, ?walkCompletes, ?holdLimit, ?backoff, ?slotMemory, ?slotEngine, ?slotCommand⟩
  case walkWaits => exact fun u ctx vpn s c hc ht => exec_walkComplete_waits hc ht u
  case walkCompletes => exact fun u ctx vpn s c hw hr hc ht hu h1 h2 h3 => walkComplete_completes hw hr hc ht hu h1 h2 h3
  case holdLimit =>
    exact fun id s r b hr hb hn => ⟨fun x hx hl hs => holdLimitExpiry_bounces hr hb hn hx hl hs,
      fun h => holdLimitExpiry_waits hr hb hn h⟩
  case backoff =>
    exact fun id s r b hr hb hbn hc hsp hrun hpeer hfirst hok =>
      ⟨fun hdue => backoffExpiry_reissues hr hb hbn hc hsp hrun hpeer hfirst hok hdue, fun hlt => backoffExpiry_waits hr hbn hc hlt⟩
  case slotMemory =>
    exact fun id s r b hr hb hbn hc hsp hrun hpeer hf hslot hok => slotFreeReissue_memory hr hb hbn hc hsp hrun hpeer hf hslot hok
  case slotEngine => exact fun id s r hr hbn hc hsp hrun hf hroom => slotFreeReissue_engine hr hbn hc hsp hrun hf hroom
  case slotCommand => exact fun id s c hr hc hbn hrun hcause hslot hf => slotFreeReissue_command hr hc hbn hrun hcause hslot hf

end Sys2Proof.Machine
end

section
/-! The words of a copy moved (O38): each destination word gets its source word, or its sum with it, and no other byte changes but for
the dirty bitmap (R92, R100, R114, R348). -/

namespace Sys2Proof.Machine

set_option Elab.async false

variable {s t : State} {add : Option Ty} {l : List CopyWord} {w : CopyWord}

-- The word that a copy writes.

/-- What a copy writes over a word: its source word, or the sum of both (R114). -/
def newWord (add : Option Ty) (old x : Nat) : Nat := match add with | none => x | some ty => atomNew .add ty 4 old x 0

theorem atomNew_add_lt {ty : Ty} (hw : ty.wide = false) (old x : Nat) : atomNew .add ty 4 old x 0 < 256 ^ 4 := by
  have helt (f : Nat → Nat → Nat × Nat) : (elt2 ty f old x).1 < 256 ^ 4 := by
    have h := eltwise_lt ty fun i => f (elt ty.shape.1 old i) (elt ty.shape.1 x i)
    rw [hw] at h
    exact h
  unfold atomNew
  dsimp only
  split
  · exact helt _
  · exact helt _
  · exact helt _
  · exact Nat.mod_lt _ (by decide)

/-- The types of a COPY_ADD have a word to an element or less (R110). -/
theorem addType_wide {c : Cmd} {ty : Ty} (h : addType c = some ty) : ty.wide = false := by
  unfold addType at h
  split at h
  · cases h
  · cases h
    split <;> rfl

theorem newWord_lt (hadd : ∀ ty, add = some ty → ty.wide = false) (old : Nat) {x : Nat} (hx : x < 256 ^ 4) :
    newWord add old x < 256 ^ 4 := by
  cases add with
  | none => exact hx
  | some ty => exact atomNew_add_lt (hadd ty rfl) old x

-- One word moved.

/-- The first word of a list moved. -/
def moveWord (add : Option Ty) (s : State) (w : CopyWord) : State :=
  let x := readWord s w
  let s := if w.dst.scr then x.1 else dropCopies x.1 (w.dst.addr / 128) none
  writeElem s w.dst 4 (newWord add (s.readLoc w.dst 4) x.2)

theorem writeWords_cons (add : Option Ty) (s : State) (w : CopyWord) (l : List CopyWord) :
    writeWords add s (w :: l) = writeWords add (moveWord add s w) l := by
  cases add <;> rfl

/-- A word that has not been read before is read where it stands and written; what goes on around that is calm. -/
theorem moveWord_eq (add : Option Ty) (s : State) (hw : w.val = none) : ∃ t, Calm s t ∧
    moveWord add s w = writeElem t w.dst 4 (newWord add (s.readLoc w.dst 4) (s.readLoc w.src 4)) := by
  have hr : Calm s (readWord s w).1 ∧ (readWord s w).2 = s.readLoc w.src 4 := by
    unfold readWord
    rw [hw]
    refine ⟨?_, rfl⟩
    dsimp only
    split
    · exact .refl s
    · exact calm_recallOwned ..
  have hd : Calm s (if w.dst.scr then (readWord s w).1 else dropCopies (readWord s w).1 (w.dst.addr / 128) none) := by
    split
    · exact hr.1
    · exact hr.1.trans (calm_dropCopies ..)
  refine ⟨_, hd, ?_⟩
  rw [moveWord, hr.2, hd.readLoc]

theorem tidy_moveWord (add : Option Ty) (s : State) (hw : w.val = none) : Tidy s (moveWord add s w) := by
  obtain ⟨t, h, e⟩ := moveWord_eq add s hw
  rw [e]
  exact h.toTidy.trans (tidy_writeElem ..)

/-- A word is written at a cell. -/
def Loc.word (l : Loc) (b : Bool) (a : Nat) : Prop := l.scr = b ∧ l.addr ≤ a ∧ a < l.addr + 4

/-- A copied word leaves a cell alone: it is not written there, nor marked in the dirty bitmap there. -/
def Spares (s : State) (l : Loc) (b : Bool) (a : Nat) : Prop := ¬l.word b a ∧ (b = false → ¬DirtyAt s l a)

theorem Tidy.spares (h : Tidy s t) {l : Loc} {b : Bool} {a : Nat} (hs : Spares s l b a) : Spares t l b a :=
  ⟨hs.1, fun hb hd => hs.2 hb ((h.dirtyAt l a).mp hd)⟩

theorem moveWord_cell (add : Option Ty) (s : State) (hw : w.val = none) {b : Bool} {a : Nat} (hs : Spares s w.dst b a) :
    (moveWord add s w).cell b a = s.cell b a := by
  obtain ⟨t, h, e⟩ := moveWord_eq add s hw
  rw [e, writeElem_cell _ _ _ _ (h.toTidy.spares hs).2]
  exact (if_neg hs.1).trans (h.cell ..)

theorem moveWord_reads (hadd : ∀ ty, add = some ty → ty.wide = false) (s : State) (hw : w.val = none)
    (hd : ∀ i < 4, ¬DirtyAt s w.dst (w.dst.addr + i)) :
    (moveWord add s w).readLoc w.dst 4 = newWord add (s.readLoc w.dst 4) (s.readLoc w.src 4) := by
  obtain ⟨t, h, e⟩ := moveWord_eq add s hw
  rw [e, readLoc_writeElem _ _ _ fun i hi hx => hd i hi ((h.dirtyAt ..).mp hx)]
  exact Nat.mod_eq_of_lt (newWord_lt hadd _ (readLoc_lt ..))

-- All words of a box moved.

theorem tidy_writeWords (add : Option Ty) (s : State) (hn : ∀ w ∈ l, w.val = none) : Tidy s (writeWords add s l) := by
  induction l generalizing s with
  | nil => exact .refl s
  | cons w l ih =>
    rw [writeWords_cons]
    exact (tidy_moveWord add s (hn w (.head _))).trans (ih _ fun v hv => hn v (.tail _ hv))

/-- A cell that every word spares stays. -/
theorem writeWords_cell (add : Option Ty) (s : State) (hn : ∀ w ∈ l, w.val = none) {b : Bool} {a : Nat}
    (hs : ∀ w ∈ l, Spares s w.dst b a) : (writeWords add s l).cell b a = s.cell b a := by
  induction l generalizing s with
  | nil => rfl
  | cons w l ih =>
    have ht := tidy_moveWord add s (hn w (.head _))
    rw [writeWords_cons, ih _ (fun v hv => hn v (.tail _ hv)) fun v hv => ht.spares (hs v (.tail _ hv))]
    exact moveWord_cell add s (hn w (.head _)) (hs w (.head _))

/-- Two words have no byte in common. -/
def Loc.far (x y : Loc) : Prop := x.scr ≠ y.scr ∨ x.addr + 4 ≤ y.addr ∨ y.addr + 4 ≤ x.addr

theorem Loc.far.symm {x y : Loc} (h : x.far y) : y.far x := by
  rcases h with h | h | h
  · exact .inl h.symm
  · exact .inr (.inr h)
  · exact .inr (.inl h)

/-- The words of a copy apart from each other: no destination is on a source or on another destination, and the dirty bitmap on
neither. -/
structure WordsApart (s : State) (l : List CopyWord) : Prop where
  unread : ∀ w ∈ l, w.val = none
  src : ∀ w ∈ l, ∀ v ∈ l, w.src.far v.dst
  dst : l.Pairwise fun w v => w.dst.far v.dst
  marks : ∀ w ∈ l, ∀ v ∈ l, ∀ a, DirtyAt s w.dst a → ¬v.src.word false a ∧ ¬v.dst.word false a

/-- A word apart from a written one is spared. -/
theorem spares_of_far {x y : Loc} (hf : x.far y) (hd : ∀ a, DirtyAt s y a → ¬x.word false a) {i : Nat} (hi : i < 4) :
    Spares s y x.scr (x.addr + i) := by
  refine ⟨fun h => ?_, fun hb h => hd _ h ⟨hb, by omega, by omega⟩⟩
  obtain ⟨h1, h2, h3⟩ := h
  rcases hf with hf | hf | hf
  · exact hf h1.symm
  · omega
  · omega

theorem WordsApart.tail (h : WordsApart s (w :: l)) (ht : Tidy s t) : WordsApart t l where
  unread v hv := h.unread v (.tail _ hv)
  src v hv x hx := h.src v (.tail _ hv) x (.tail _ hx)
  dst := (List.pairwise_cons.mp h.dst).2
  marks v hv x hx a hd := h.marks v (.tail _ hv) x (.tail _ hx) a ((ht.dirtyAt ..).mp hd)

/-- Each destination word of a list gets its new content. -/
theorem writeWords_reads (hadd : ∀ ty, add = some ty → ty.wide = false) (s : State) (h : WordsApart s l) : ∀ w ∈ l,
    (writeWords add s l).readLoc w.dst 4 = newWord add (s.readLoc w.dst 4) (s.readLoc w.src 4) := by
  induction l generalizing s with
  | nil => exact fun w hw => absurd hw List.not_mem_nil
  | cons v l ih =>
    have hv := h.unread v (.head _)
    have ht := tidy_moveWord add s hv
    have hl := h.tail ht
    intro w hw
    rw [writeWords_cons]
    rcases List.mem_cons.mp hw with rfl | hw
    · have hsp : ∀ i < 4, ∀ x ∈ l, Spares (moveWord add s w) x.dst w.dst.scr (w.dst.addr + i) := fun i hi x hx =>
        ht.spares (spares_of_far ((List.pairwise_cons.mp h.dst).1 x hx)
          (fun a hd => (h.marks x (.tail _ hx) w (.head _) a hd).2) hi)
      rw [readLoc_of_cells fun i hi => writeWords_cell add _ hl.unread (hsp i hi)]
      refine moveWord_reads hadd s hv fun i hi hd => ?_
      exact (h.marks w (.head _) w (.head _) _ hd).2 ⟨hd.1, by omega, by omega⟩
    · have hd : ∀ i < 4, Spares s v.dst w.dst.scr (w.dst.addr + i) := fun i hi =>
        spares_of_far ((List.pairwise_cons.mp h.dst).1 w hw).symm (fun a hd => (h.marks v (.head _) w (.tail _ hw) a hd).2) hi
      have hs : ∀ i < 4, Spares s v.dst w.src.scr (w.src.addr + i) := fun i hi =>
        spares_of_far (h.src w (.tail _ hw) v (.head _)) (fun a hd => (h.marks v (.head _) w (.tail _ hw) a hd).1) hi
      rw [ih _ hl w hw, readLoc_of_cells fun i hi => moveWord_cell add s hv (hd i hi),
        readLoc_of_cells fun i hi => moveWord_cell add s hv (hs i hi)]

end Sys2Proof.Machine
end

section
/-! COPY and COPY_ADD (O38): a box begins, and its words move (R92, R114, R116). -/

namespace Sys2Proof.Machine

set_option Elab.async false

variable {s t : State} {u box : Nat} {c : Cmd} {g : Gang} {b : Block}

-- Places, of both ends in turn.

/-- The places at even numbers are those of the first function. -/
theorem evens_flatMap {α : Type} (f h : α → Loc) (ws : List α) {k : Nat} (hk : k % 2 = 0) :
    ((ws.flatMap fun w => [f w, h w]).zipIdx k).filterMap (fun e => if e.2 % 2 = 0 then some e.1 else none) = ws.map f := by
  induction ws generalizing k with
  | nil => rfl
  | cons w ws ih =>
    have h1 : (k + 1) % 2 ≠ 0 := by omega
    have h2 : (k + 1 + 1) % 2 = 0 := by omega
    simp [List.zipIdx_cons, hk, h1, ih h2]

/-- The places at odd numbers are those of the second function. -/
theorem odds_flatMap {α : Type} (f h : α → Loc) (ws : List α) {k : Nat} (hk : k % 2 = 0) :
    ((ws.flatMap fun w => [f w, h w]).zipIdx k).filterMap (fun e => if e.2 % 2 = 1 then some e.1 else none) = ws.map h := by
  induction ws generalizing k with
  | nil => rfl
  | cons w ws ih =>
    have h0 : k % 2 ≠ 1 := by omega
    have h1 : (k + 1) % 2 = 1 := by omega
    have h2 : (k + 1 + 1) % 2 = 0 := by omega
    simp [List.zipIdx_cons, h0, h1, ih h2]

theorem mem_globSectors {ls : List Loc} {sec : Nat} (h : sec ∈ globSectors ls) : ∃ l ∈ ls, l.scr = false ∧ l.addr / 32 = sec := by
  unfold globSectors at h
  obtain ⟨l, hl, rfl⟩ := List.mem_map.mp (List.mem_eraseDups.mp h)
  obtain ⟨h1, h2⟩ := List.mem_filter.mp hl
  exact ⟨l, h1, by simpa using h2, rfl⟩

-- What a box does before its words move.

theorem readList_calm (s : State) (ckpt : Bool) (secs : List Nat) (hc : ∀ x ∈ secs, Clean s x) :
    Calm s (readList s ckpt secs).1 ∧ (readList s ckpt secs).2 = none := by
  unfold readList
  induction secs generalizing s with
  | nil => exact ⟨.refl s, rfl⟩
  | cons x l ih =>
    have h : Calm s (if ckpt then dramRead s x else sectorRead s x).1 ∧ (if ckpt then dramRead s x else sectorRead s x).2 = false := by
      have hx := hc x (.head _)
      split
      · exact ⟨calm_dramRead .., dramRead_clean hx⟩
      · exact ⟨calm_sectorRead .., sectorRead_clean hx.1 hx.2⟩
    rw [List.foldl_cons]
    dsimp only
    rw [h.2]
    obtain ⟨h1, h2⟩ := ih _ fun y hy => h.1.clean y (hc y (.tail _ hy))
    exact ⟨h.1.trans h1, h2⟩

theorem calm_cmdSlots (s : State) (u : Nat) (c : Cmd) (b : Block) (a n : Nat) : Calm s (cmdSlots s u c b a n) :=
  (calm_served ..).trans (calm_chargeSlots ..)

theorem calm_chargeBox (s : State) (u : Nat) (c : Cmd) (b : Block) (src dst : List Loc) : Calm s (chargeBox s u c b src dst) :=
  (Calm.foldl (fun _ _ => calm_cmdSlots ..) _ _).trans (.foldl (fun _ _ => (calm_cmdSlots ..).trans (calm_dropCopies ..)) _ _)

/-- The sectors that a box of a COPY overwrites as a whole, and so does not read (R402). -/
def wholeSectors (c : Cmd) (dst : List Loc) : List Nat :=
  if (addType c).isSome then [] else (globSectors dst).filter (coversAll dst)

/-- The sectors that a box reads, read (R402). -/
def boxRead (s : State) (c : Cmd) (src dst : List Loc) : State × Option Nat :=
  readList s (bitOf c.c3 40) (globSectors src ++ (globSectors dst).filter fun x => !(wholeSectors c dst).contains x)

/-- The state that a box finds when its accesses have been served at their homes. -/
def boxHome (s : State) (u : Nat) (c : Cmd) (b : Block) (src dst : List Loc) : State :=
  chargeBox (leaveWay ((wholeSectors c dst).foldl clearPoison (boxRead s c src dst).1) c) u c b src dst

theorem boxRead_calm {src dst : List Loc} (hs : ∀ l ∈ src, l.scr = false → Clean s (l.addr / 32))
    (hd : ∀ l ∈ dst, l.scr = false → Clean s (l.addr / 32)) : Calm s (boxRead s c src dst).1 ∧ (boxRead s c src dst).2 = none := by
  have hclean {ls : List Loc} (h : ∀ l ∈ ls, l.scr = false → Clean s (l.addr / 32)) {x : Nat} (hx : x ∈ globSectors ls) : Clean s x := by
    obtain ⟨l, hl, hf, rfl⟩ := mem_globSectors hx
    exact h l hl hf
  refine readList_calm s _ _ fun x hx => ?_
  rcases List.mem_append.mp hx with hx | hx
  · exact hclean hs hx
  · exact hclean hd (List.mem_of_mem_filter hx)

theorem boxHome_calm {src dst : List Loc} (h : Calm s (boxRead s c src dst).1) (u : Nat) (b : Block) :
    Calm s (boxHome s u c b src dst) :=
  ((h.trans (.foldl calm_clearPoison _ _)).trans (calm_leaveQueues ..)).trans (calm_chargeBox ..)

/-- A command of which a box has begun with the words of a list. -/
def Cmd.begun (c : Cmd) (box : Nat) (l : List CopyWord) : Cmd :=
  { c with started := true, passed := true, running := c.running ++ [box], fresh := c.fresh ++ [box], way := none,
           todo := c.todo.filter (·.1 != box) ++ [(box, l)] }

/-- The addresses of a box's words, at both ends (R92). -/
def boxEnds (c : Cmd) (box : Nat) : List (DWord × DWord) := (boxWords c box).map (·.2)

/-- The checks of a box's words at both ends (R114, R117). -/
def boxChecks (s : State) (c : Cmd) (b : Block) (box : Nat) : List Chk :=
  (boxEnds c box).flatMap fun w => [checkElem s b (cmdSpace (bitsOf c.c3 31 29)) true false 4 w.1,
    checkElem s b (cmdSpace (bitsOf c.c3 28 26)) (addType c).isSome true 4 w.2]

/-- The addresses that those checks are of, each for lane 0. -/
def boxAddrs (c : Cmd) (box : Nat) : List (Nat × DWord) := (boxEnds c box).flatMap fun w => [(0, w.1), (0, w.2)]

/-- A box of which an address fails stops the command. -/
theorem beginBox_fails {sub l : Nat} {ea : DWord} (hd : decideChecks (boxAddrs c box) (boxChecks s c b box) = .protect sub l ea)
    (g : Gang) : beginBox s u box c g b = failCmd s u (copyCause sub) box ea := by
  unfold beginBox
  dsimp only
  split
  next h =>
    obtain ⟨rfl, -, rfl⟩ := Decision.protect.inj (h.symm.trans hd)
    rfl
  next h => exact Decision.noConfusion (h.symm.trans hd)
  next h => exact Decision.noConfusion (h.symm.trans hd)
  next h => exact Decision.noConfusion (h.symm.trans hd)

/-- A box whose addresses are translated, whose places are open and of which no sector is poisoned begins. -/
theorem beginBox_begins {X Y : DWord × DWord → Loc}
    (hd : decideChecks (boxAddrs c box) (boxChecks s c b box) = .proceed ((boxEnds c box).flatMap fun w => [X w, Y w]))
    (ho : ((boxEnds c box).flatMap fun w => [X w, Y w]).all (cmdOpen s u c) = true)
    (hr : (boxRead s c ((boxEnds c box).map X) ((boxEnds c box).map Y)).2 = none) (g : Gang) : beginBox s u box c g b =
      putCmd (boxHome s u c b ((boxEnds c box).map X) ((boxEnds c box).map Y)) u c.gang
        (some (c.begun box ((boxEnds c box).map fun w => ⟨X w, Y w, none⟩))) := by
  have hz : (((boxEnds c box).map X).zip ((boxEnds c box).map Y)).map (fun e => (⟨e.1, e.2, none⟩ : CopyWord)) =
      (boxEnds c box).map fun w => ⟨X w, Y w, none⟩ := by
    rw [List.zip_map', List.map_map]
    rfl
  unfold beginBox
  dsimp only
  split
  next h => exact Decision.noConfusion (h.symm.trans hd)
  next h => exact Decision.noConfusion (h.symm.trans hd)
  next h => exact Decision.noConfusion (h.symm.trans hd)
  next ls h =>
    rw [Decision.proceed.inj (h.symm.trans hd), ho, evens_flatMap X Y _ rfl, odds_flatMap X Y _ rfl, hz]
    rw [if_neg (by simp)]
    split
    next sec h => exact absurd (h.symm.trans hr) (Option.some_ne_none sec)
    next => rfl

-- The words of a box move.

theorem find?_begun (c : Cmd) (box : Nat) (l : List CopyWord) : (c.begun box l).todo.find? (·.1 == box) = some (box, l) := by
  have h : (c.todo.filter (·.1 != box)).find? (·.1 == box) = none :=
    List.find?_eq_none.mpr fun e he => by simpa using (List.mem_filter.mp he).2
  simp [Cmd.begun, List.find?_append, h]

theorem moveWords_all {q : Cmd} {l : List CopyWord} (hq : s.cmd? u = some q) (hl : q.todo.find? (·.1 == box) = some (box, l)) :
    moveWords s u box none =
      (writeWords (addType q) s l).setCmd u (some { q with todo := q.todo.filter fun e => e.1 != box }) := by
  unfold moveWords
  rw [hq]
  dsimp only
  rw [hl]
  rfl

theorem moveWords_none (h : s.cmd? u = none) (box : Nat) : moveWords s u box none = s := by
  unfold moveWords
  rw [h]

/-- The engine may run a box of a command: the command may work, the box has not begun, no earlier box that is not written writes a
word of it, and no more than 3 run (R92, R116, R127). -/
structure BoxMayRun (s : State) (u box : Nat) (c : Cmd) (g : Gang) (b : Block) : Prop where
  cmd : s.cmd? u = some c
  gang : s.gang? c.gang = some g
  block : s.block? (c.gang / 16) = some b
  can : canStart s u c g b = true
  failed : c.failed = none
  running : box ∉ c.running
  boxes : box ∉ c.boxes
  earlier : earlierWrites c box = false
  few : c.running.length < 4
  shape : box < c.shape.boxes

/-- A box that may run begins, and its words move. -/
theorem startBox_runs (h : BoxMayRun s u box c g b) {op : Nat} (hop : c.op = op) :
    startBox s u box op none = moveWords (beginBox s u box c g b) u box none := by
  have hguard : (c.guard != 0 && !c.passed && !c.started && atHead s u c && g.regs.gget c.guard == .isFalse) = false := by
    have h := canStart_undiscarded h.can
    cases hst : c.started
    · simpa using h
    · simp
  unfold startBox
  rw [h.cmd]
  dsimp only
  rw [h.gang, h.block]
  dsimp only
  rw [hguard]
  simp [hop, h.running, h.can, h.failed, h.boxes, h.earlier, h.few, h.shape]

theorem WordsApart.of_dirtyAt {l : List CopyWord} (h : WordsApart s l) (hd : ∀ x a, DirtyAt t x a ↔ DirtyAt s x a) : WordsApart t l :=
  ⟨h.unread, h.src, h.dst, fun w hw v hv a ha => h.marks w hw v hv a ((hd ..).mp ha)⟩

/-- A box of a copy runs as a whole: its destination words hold their new content, and every other byte is as it was. -/
theorem startBox_copies (h : BoxMayRun s u box c g b) {op : Nat} (hop : c.op = op) {X Y : DWord × DWord → Loc}
    (hd : decideChecks (boxAddrs c box) (boxChecks s c b box) = .proceed ((boxEnds c box).flatMap fun w => [X w, Y w]))
    (ho : ((boxEnds c box).flatMap fun w => [X w, Y w]).all (cmdOpen s u c) = true)
    (hr : Calm s (boxRead s c ((boxEnds c box).map X) ((boxEnds c box).map Y)).1 ∧
      (boxRead s c ((boxEnds c box).map X) ((boxEnds c box).map Y)).2 = none)
    (ha : WordsApart s ((boxEnds c box).map fun w => ⟨X w, Y w, none⟩)) :
    ∃ t q, startBox s u box op none = t ∧ RegsStay s t ∧ t.cmd? u = some q ∧ q.started = true ∧ q.passed = true ∧
      q.running = c.running ++ [box] ∧ q.boxes = c.boxes ∧ q.failed = none ∧ (∀ e ∈ q.todo, e ∈ c.todo ∧ e.1 ≠ box) ∧
      (∀ w ∈ boxEnds c box, t.readLoc (Y w) 4 = newWord (addType c) (s.readLoc (Y w) 4) (s.readLoc (X w) 4)) ∧
      ∀ a, (∀ w ∈ boxEnds c box, Spares s (Y w) false a) → t.byte a = s.byte a := by
  rw [startBox_runs h hop, beginBox_begins hd ho hr.2]
  have hhome := boxHome_calm hr.1 u b
  generalize boxHome s u c b ((boxEnds c box).map X) ((boxEnds c box).map Y) = s1 at hhome ⊢
  generalize hl : ((boxEnds c box).map fun w => (⟨X w, Y w, none⟩ : CopyWord)) = l at ha ⊢
  obtain ⟨hd', y, hq⟩ := putCmd_some s1 u c.gang (c.begun box l)
  rw [moveWords_all hq (find?_begun c box l)]
  obtain ⟨x, e⟩ := putCmd_only s1 u c.gang (some (c.begun box l))
  rw [e]
  have ha2 : WordsApart ({ s1 with cmds := x } : State) l := ha.of_dirtyAt fun x a => hhome.dirtyAt x a
  have hloc (z : Loc) : ({ s1 with cmds := x } : State).readLoc z 4 = s.readLoc z 4 := hhome.readLoc z 4
  have hw := tidy_writeWords (addType c) ({ s1 with cmds := x } : State) ha2.unread
  refine ⟨_, _, rfl, ?_, setCmd_cmd_self .., rfl, rfl, rfl, rfl, h.failed, fun v hv => ?_, fun w hm => ?_, fun a hs => ?_⟩
  · exact hhome.keeps.regsStay.trans ((RegsStay.of_eq rfl).trans (hw.keeps.regsStay.trans (.of_eq rfl)))
  · obtain ⟨hv, hne⟩ := List.mem_filter.mp hv
    have hne : v.1 ≠ box := by simpa using hne
    rcases List.mem_append.mp hv with hv | hv
    · exact ⟨List.mem_of_mem_filter hv, hne⟩
    · exact absurd (congrArg Prod.fst (List.mem_singleton.mp hv)) hne
  · have hm' : (⟨X w, Y w, none⟩ : CopyWord) ∈ l := hl ▸ List.mem_map_of_mem hm
    have hn := writeWords_reads (add := addType c) (fun ty => addType_wide) _ ha2 _ hm'
    rw [hloc, hloc] at hn
    exact hn
  · have hn := writeWords_cell (addType c) ({ s1 with cmds := x } : State) ha2.unread (b := false) (a := a) fun v hv => by
      obtain ⟨w, hm, rfl⟩ := List.mem_map.mp (hl ▸ hv)
      exact hhome.toTidy.spares (hs w hm)
    exact hn.trans (hhome.byte a)

-- A command that fails.

/-- A block of which a command's tag is ready with TFAULT (R117). -/
def Block.tagFailed (b : Block) (c : Cmd) : Block := { b.tagDone c with tfault := b.tfault ||| tagBit c.tag }

/-- The splits of a block that wait for tags are looked at again: what changes is its gangs, and what they have read early. -/
theorem wakeBlock_only {n : Nat} (hb : s.block? n = some b) : ∃ a x, wakeBlock s n = { s with ahead := a, gangs := x } ∧
    ∀ k, tget none x k = if k ∈ blockGangs b n then (s.gang? k).map (wakeTags b) else s.gang? k := by
  rw [wakeBlock, hb]
  dsimp only
  obtain ⟨x, e⟩ := foldl_modGang_only (blockGangs b n) (wakeTags b) (dropAhead s fun k _ => k / 16 == n)
  have hg (k : Nat) := foldl_modGang_each (wakeTags b) (blockGangs_nodup b n) (dropAhead s fun k _ => k / 16 == n) k
  rw [e] at hg ⊢
  exact ⟨_, x, rfl, hg⟩

theorem tagReady_fails {n : Nat} (hb : s.block? n = some b) (c : Cmd) :
    tagReady s n c false true = wakeBlock (s.setBlock n (b.tagFailed c)) n := by
  show wakeBlock (s.modBlock n _) n = _
  unfold State.modBlock
  rw [hb]
  rfl

/-- A failed command's tag becomes ready: what changes is the block, its gangs, of which one without a TWAIT keeps its registers,
its traps and its lanes, and what they have read early. -/
theorem tagReady_failed_only {n k : Nat} (hb : s.block? n = some b) (hg : s.gang? k = some g) (hn : NoTwait g) (c : Cmd) :
    ∃ a x g', tagReady s n c false true = { s.setBlock n (b.tagFailed c) with ahead := a, gangs := x } ∧ tget none x k = some g' ∧
      g'.regs = g.regs ∧ g'.traps = g.traps ∧ g'.live = g.live := by
  obtain ⟨a, x, e, hx⟩ := wakeBlock_only (s := s.setBlock n (b.tagFailed c)) (setBlock_block_self ..)
  have hk := (hx k).trans (congrArg (fun y => if k ∈ blockGangs (b.tagFailed c) n then y.map (wakeTags (b.tagFailed c)) else y) hg)
  rw [tagReady_fails hb, e]
  by_cases hm : k ∈ blockGangs (b.tagFailed c) n
  · exact ⟨a, x, wakeTags (b.tagFailed c) g, rfl, hk.trans (if_pos hm), hn.wakeTags_regs _, rfl, rfl⟩
  · exact ⟨a, x, g, rfl, hk.trans (if_neg hm), rfl, rfl, rfl⟩

/-- A failed command none of whose boxes run is over: its tag is ready with TFAULT, and ENGINE_FAULT is left for its gang. -/
theorem tryComplete_faults {cause : Nat} {ea : DWord} (hc : s.cmd? u = some c) (hg : s.gang? c.gang = some g)
    (hb : s.block? (c.gang / 16) = some b) (hf : c.failed = some (cause, box, ea)) (hr : c.running = []) (hl : g.live ≠ 0)
    (hn : NoTwait g) : (∀ a, (tryComplete s u).byte a = s.byte a) ∧ (tryComplete s u).cmd? u = none ∧
      (tryComplete s u).block? (c.gang / 16) = some (b.tagFailed c) ∧ ∃ g', (tryComplete s u).gang? c.gang = some g' ∧
        g'.regs = g.regs ∧ g'.traps = g.traps ++ [⟨10, cause, dw (c.tag + box * 65536), 0, ea⟩] := by
  obtain ⟨a, x, g', e, hg', hregs, htraps, hlive⟩ := tagReady_failed_only hb hg hn c
  have hp := putCmd_none (tagReady s (c.gang / 16) c false true) u c.gang
  obtain ⟨y, e2⟩ := putCmd_only (tagReady s (c.gang / 16) c false true) u c.gang none
  rw [e2, e] at hp
  have ht : tryComplete s u = pendTrap { s.setBlock (c.gang / 16) (b.tagFailed c) with ahead := a, gangs := x, cmds := y } c.gang
      ⟨10, cause, dw (c.tag + box * 65536), 0, ea⟩ := by
    unfold tryComplete
    rw [hc]
    dsimp only
    rw [hb, hf]
    dsimp only
    rw [hr, e2, e]
    dsimp only [List.isEmpty_nil]
    rw [if_neg (by simp)]
    split
    next g2 h2 =>
      obtain rfl : g2 = g' := Option.some.inj (h2.symm.trans hg')
      rw [hlive, if_neg hl]
      rfl
    next h2 => exact absurd (hg'.symm.trans h2) (Option.some_ne_none g')
  have hk := modGang_some (s := { s.setBlock (c.gang / 16) (b.tagFailed c) with ahead := a, gangs := x, cmds := y }) hg'
    fun g => { g with traps := g.traps ++ [⟨10, cause, dw (c.tag + box * 65536), 0, ea⟩] }
  rw [ht, pendTrap]
  obtain ⟨z, e3⟩ := modGang_only { s.setBlock (c.gang / 16) (b.tagFailed c) with ahead := a, gangs := x, cmds := y } c.gang
    fun g => { g with traps := g.traps ++ [⟨10, cause, dw (c.tag + box * 65536), 0, ea⟩] }
  refine ⟨fun i => by rw [e3]; rfl, by rw [e3]; exact hp, by rw [e3]; exact setBlock_block_self .., _, hk, hregs, ?_⟩
  rw [htraps]

/-- A failing address stops a command of which no box runs before any write (R117). -/
theorem startBox_faults (h : BoxMayRun s u box c g b) {op sub l : Nat} (hop : c.op = op) {ea : DWord}
    (hd : decideChecks (boxAddrs c box) (boxChecks s c b box) = .protect sub l ea) (hr : c.running = []) (hl : g.live ≠ 0)
    (hn : NoTwait g) : ∃ t g' b', startBox s u box op none = t ∧ (∀ a, t.byte a = s.byte a) ∧ t.cmd? u = none ∧
      t.gang? c.gang = some g' ∧ g'.regs = g.regs ∧
      g'.traps = g.traps ++ [⟨10, copyCause sub, dw (c.tag + box * 65536), 0, ea⟩] ∧
      t.block? (c.gang / 16) = some b' ∧ b'.busy = b.busy &&& ~~~(tagBit c.tag) ∧ b'.ready = b.ready ||| tagBit c.tag ∧
      b'.tfault = b.tfault ||| tagBit c.tag := by
  obtain ⟨hd', y, hq⟩ := putCmd_some s u c.gang { c with started := true, failed := some (copyCause sub, box, ea) }
  obtain ⟨x, e⟩ := putCmd_only s u c.gang (some { c with started := true, failed := some (copyCause sub, box, ea) })
  have hfail : failCmd s u (copyCause sub) box ea =
      tryComplete (putCmd s u c.gang (some { c with started := true, failed := some (copyCause sub, box, ea) })) u := by
    unfold failCmd
    rw [h.cmd]
  rw [e] at hq hfail
  obtain ⟨h1, h2, h3, g', h4, h5, h6⟩ := tryComplete_faults hq (s := { s with cmds := x }) h.gang h.block rfl hr hl hn
  rw [← hfail] at h1 h2 h3 h4
  rw [startBox_runs h hop, beginBox_fails hd, moveWords_none h2]
  exact ⟨_, g', _, rfl, h1, h2, h4, h5, h6, h3, rfl, rfl, rfl⟩

-- The statement.

theorem addType_isSome {add : Bool} (h : c.op = if add then 1 else 0) : (addType c).isSome = add := by
  unfold Cmd.op at h
  unfold addType
  cases add <;> simp [h]

/-- The words of a box apart, from the places of their ends. -/
theorem wordsApart_ends {ws : List (DWord × DWord)} {X Y : DWord × DWord → Loc} (hnodup : ws.Nodup)
    (hsrc : ∀ w ∈ ws, ∀ v ∈ ws, (X w).far (Y v)) (hdst : ∀ w ∈ ws, ∀ v ∈ ws, w ≠ v → (Y w).far (Y v))
    (hmarks : ∀ w ∈ ws, ∀ v ∈ ws, ∀ a, DirtyAt s (Y w) a → ¬(X v).word false a ∧ ¬(Y v).word false a) :
    WordsApart s (ws.map fun w => ⟨X w, Y w, none⟩) where
  unread w hw := by
    obtain ⟨w, -, rfl⟩ := List.mem_map.mp hw
    rfl
  src w hw v hv := by
    obtain ⟨w, hmw, rfl⟩ := List.mem_map.mp hw
    obtain ⟨v, hmv, rfl⟩ := List.mem_map.mp hv
    exact hsrc w hmw v hmv
  dst := List.pairwise_map.mpr (hnodup.imp_of_mem fun hw hv hne => hdst _ hw _ hv hne)
  marks w hw v hv := by
    obtain ⟨w, hmw, rfl⟩ := List.mem_map.mp hw
    obtain ⟨v, hmv, rfl⟩ := List.mem_map.mp hv
    exact hmarks w hmw v hmv

/-- Settles O38: a box that may run begins with its words, which then move (`startBox_copies`), or its command fails
(`startBox_faults`). -/
theorem copies : Obligations.Copies := by
  unfold Obligations.Copies
  intro u box s c g b add hc hg hb hop hcan hf hrun hbox hearly hfew hlt
  have hmay : BoxMayRun s u box c g b := ⟨hc, hg, hb, hcan, hf, hrun, hbox, hearly, hfew, hlt⟩
  have hexec : exec (if add then .copyAdd u box else .copy u box) s = .next (startBox s u box (if add then 1 else 0) none) := by
    cases add <;> rfl
  have hsome := addType_isSome hop
  intro i ws from1 to1 far inside clean
  have hchecks : ws.flatMap (fun w => [from1 w, to1 w]) = boxChecks s c b box := by
    unfold boxChecks
    rw [hsome]
    rfl
  refine ⟨fun hnodup hok hsrc hdst hmarks => ?_, fun sub l ea hd hr hl hn => ?_⟩
  · have : Nonempty Loc := ⟨⟨false, 0, 0, 0⟩⟩
    choose! X Y hX hY hcX hcY using hok
    have hk : boxChecks s c b box = (ws.flatMap fun w => [X w, Y w]).map .ok := by
      rw [← hchecks, List.map_flatMap]
      exact List.flatMap_congr fun w hw => by rw [hX w hw, hY w hw]; rfl
    have hclean {x : Loc} (h : clean x) (hs : x.scr = false) : Clean s (x.addr / 32) :=
      h.2.resolve_left (Bool.eq_false_iff.mp hs)
    have hopen : (ws.flatMap fun w => [X w, Y w]).all (cmdOpen s u c) = true := by
      rw [List.all_eq_true]
      intro l hl
      obtain ⟨w, hw, hl⟩ := List.mem_flatMap.mp hl
      rcases List.mem_pair.mp hl with rfl | rfl
      · exact (hcX w hw).1
      · exact (hcY w hw).1
    have hread : Calm s (boxRead s c (ws.map X) (ws.map Y)).1 ∧ (boxRead s c (ws.map X) (ws.map Y)).2 = none := by
      refine boxRead_calm (fun l hl => ?_) fun l hl => ?_
      · obtain ⟨w, hw, rfl⟩ := List.mem_map.mp hl
        exact hclean (hcX w hw)
      · obtain ⟨w, hw, rfl⟩ := List.mem_map.mp hl
        exact hclean (hcY w hw)
    have hapart : WordsApart s (ws.map fun w => ⟨X w, Y w, none⟩) := wordsApart_ends hnodup
      (fun w hw v hv => hsrc w hw v hv _ _ (hX w hw) (hY v hv)) (fun w hw v hv hne => hdst w hw v hv hne _ _ (hY w hw) (hY v hv))
      fun w hw v hv a hd => ⟨fun h => hmarks w hw v hv _ _ a (hY w hw) hd (.inl (hX v hv)) h,
        fun h => hmarks w hw v hv _ _ a (hY w hw) hd (.inr (hY v hv)) h⟩
    obtain ⟨t, q, e, hregs, hq, h1, h2, h3, h4, h5, h6, hwords, hbytes⟩ :=
      startBox_copies hmay hop (by rw [hk, decideChecks_ok]; rfl) hopen hread hapart
    refine ⟨t, q, by rw [hexec, e], hregs, hq, h1, h2, h3, h4, h5, h6, fun w hw x y hx hy => ?_, fun a ha => hbytes a fun w hw => ?_⟩
    · obtain rfl : X w = x := Chk.ok.inj ((hX w hw).symm.trans hx)
      obtain rfl : Y w = y := Chk.ok.inj ((hY w hw).symm.trans hy)
      rw [hwords w hw]
      cases addType c <;> rfl
    · obtain ⟨hin, hd⟩ := ha w hw _ (hY w hw)
      exact ⟨hin, fun _ => hd⟩
  · rw [hchecks] at hd
    obtain ⟨t, g', b', e, ht⟩ := startBox_faults hmay hop hd hr hl hn
    exact ⟨t, g', b', by rw [hexec, e], ht⟩

end Sys2Proof.Machine
end

section
/-! Perform and stay (O33, O35): a sector that performs where its request still has data to return. -/

namespace Sys2Proof.Machine

set_option Elab.async false

variable {s t : State} {u sec a : Nat} {r : Req} {es : List Elem}

theorem Performs.exec (h : Performs s u sec r es) : exec (.requestPerform u sec) s = .next (performSector s u sec) := by
  rw [exec_requestPerform, execRequestPerform, h.here]
  dsimp only
  rw [if_neg h.space]

theorem Performs.order (h : Performs s u sec r es) : orderOpen s u r sec = true := by
  have hf := h.first
  simp only [canPerform, Bool.and_eq_true] at hf
  exact hf.1.1

theorem Performs.mem_sectors (h : Performs s u sec r es) : sec ∈ sectorsOf r := by
  have ho := h.order
  simp only [orderOpen, Bool.and_eq_true, List.contains_iff_mem] at ho
  obtain ⟨⟨⟨⟨⟨⟨⟨⟨-, hm⟩, -⟩, -⟩, -⟩, -⟩, -⟩, -⟩, -⟩ := ho
  exact hm

/-- A request that has gained what a sector has read. -/
def Req.gained (r : Req) (sec : Nat) (vs : List (Nat × DWord)) : Req :=
  { r with performed := r.performed ++ performGroup r sec, results := r.results ++ vs }

/-- What elements have done leaves of their request, and of a gang's registers. -/
theorem dirtyL1_gangs (s : State) (core ctx sec : Nat) : (dirtyL1 s core ctx sec).gangs = s.gangs := by
  unfold dirtyL1
  split <;> rfl

theorem performSettled_gangs (s w : State) (r : Req) (sec : Nat) (bad : List Nat) :
    (performSettled s w r sec bad).gangs = w.gangs := by
  have h (x : State) : (linesChanged s x r sec bad).gangs = x.gangs := by
    unfold linesChanged
    split
    · exact foldl_same (·.gangs) (fun _ _ => dirtyL1_gangs ..) _ x
    · rfl
  have h' (x : State) : (aheadForgotten x r).gangs = x.gangs := by
    unfold aheadForgotten
    split <;> rfl
  exact (h' _).trans (h _)

/-- The record of a perform whose request has still data to return. -/
theorem performRecorded_outstanding (w : State) (u : Nat) {r : Req} (hd : r.dest ≠ .none) (hs : sec ∈ sectorsOf r)
    (hn : sec ∉ r.returned) : performRecorded w u r =
      let w := w.setReq u (some r)
      let w := if r.allPerformed then unage w u else w
      if r.allPerformed && r.kind == .sc then endSc w r.gang u else w := by
  have hall : (sectorsOf r).all (r.returned.contains ·) = false := by
    rw [List.all_eq_false]
    exact ⟨sec, hs, by simpa using hn⟩
  have hd' : (r.dest == .none) = false := by simpa using hd
  unfold performRecorded
  simp only [hall, hd', Bool.or_self, Bool.and_false, Bool.false_eq_true, if_false]

/-- A perform whose request has still data to return: the request is there with what was read, and no byte changes once the
elements have acted; of the gangs at most the set of an SC does. -/
theorem performSector_outstanding (h : Performs s u sec r es) (hd : r.dest ≠ .none) (hn : sec ∉ r.returned) {w : State}
    {vs : List (Nat × DWord)} (hq : performElems (homeReached s u r sec) u r es = (w, vs)) (hw : w.req? u = some r) :
    (performSector s u sec).req? u = some (r.gained sec vs) ∧
    RegsStay w (performSector s u sec) ∧ (∀ b a, (performSector s u sec).cell b a = w.cell b a) ∧
    (r.kind ≠ .sc → (performSector s u sec).gangs = w.gangs) := by
  obtain ⟨-, hb⟩ := homeReached_calm h
  have hc := calm_performSettled s w r sec []
  have hg := performSettled_gangs s w r sec []
  have he : performSector s u sec = performRecorded (performSettled s w r sec []) u (r.gained sec vs) := by
    rw [performSector_eq h]
    dsimp only
    rw [hb, actingElems_clean h, hq]
    dsimp only
    rw [hc.req, hw, List.append_nil]
    rfl
  have ht := tallied_performRecorded (performSettled s w r sec []) u (r.gained sec vs)
  have hr := performRecorded_outstanding (performSettled s w r sec []) u (r := r.gained sec vs) hd h.mem_sectors hn
  refine ⟨?_, ?_, fun b a => ?_, fun hk => ?_⟩
  · rw [he, hr]
    dsimp only
    have e (x : State) (k : Nat) : (endSc x k u).req? u = x.req? u := by
      obtain ⟨y, e⟩ := modGang_only x k fun g => g.mapSplits fun sp => { sp with spent := sp.spent.filter fun q => q.sc != u }
      exact (congrArg (·.req? u) e).trans rfl
    have hu (x : State) : (unage x u).req? u = x.req? u := rfl
    split_ifs <;> simp only [e, hu, setReq_req_self]
  · rw [he]
    exact hc.keeps.regsStay.trans ht.regs
  · rw [he, ← hc.cell, State.cell, State.byte, State.sbyte, ht.mem, ht.core]
    rfl
  · have hk' : ((r.gained sec vs).kind == .sc) = false := beq_eq_false_iff_ne.mpr hk
    rw [he, hr]
    dsimp only
    rw [hk', Bool.and_false, if_neg Bool.false_ne_true, ← hg]
    split <;> rfl

end Sys2Proof.Machine
end

section
/-! Atomics (O35): the integer operations (R103), and elements that act one after another in lane order (R102, R104), all of a sector
or the first lanes of a scratchpad atomic (R90, R337). -/

namespace Sys2Proof.Machine

set_option Elab.async false

variable {s t : State} {u sec a : Nat} {r : Req} {es : List Elem} {op : Aop} {ty : Ty}

-- The operations (R103).

/-- A number of `n` bytes read with the sign that its type has. -/
def signedAs (ty : Ty) (n y : Nat) : Int := if tySigned ty = true ∧ 256 ^ n ≤ 2 * y then (y : Int) - 256 ^ n else y

theorem signedAs_sgnOf {n y : Nat} (hn : 0 < n) (h : tySigned ty = true) : signedAs ty n y = sgnOf (8 * n) y := by
  have e : 256 ^ n = 2 * 2 ^ (8 * n - 1) := by
    rw [show 256 = 2 ^ 8 from rfl, ← pow_mul, ← pow_succ']
    congr 1
    omega
  have e' : (2 : Int) ^ (8 * n) = 256 ^ n := by rw [pow_mul]; rfl
  unfold signedAs sgnOf
  rw [e']
  by_cases hy : 2 ^ (8 * n - 1) ≤ y
  · rw [if_pos hy, if_pos ⟨h, by omega⟩]
  · rw [if_neg hy, if_neg (by omega)]

theorem signedAs_unsigned {n y : Nat} (h : tySigned ty = false) : signedAs ty n y = y := if_neg (by simp [h])

theorem atomNew_min {n : Nat} (hn : 0 < n) (old x c : Nat) :
    signedAs ty n (atomNew .min ty n old x c) = min (signedAs ty n old) (signedAs ty n x) := by
  unfold atomNew
  dsimp only
  cases h : tySigned ty with
  | false => simp [signedAs_unsigned h]
  | true =>
    simp only [if_true, ← signedAs_sgnOf hn h]
    split <;> omega

theorem atomNew_max {n : Nat} (hn : 0 < n) (old x c : Nat) :
    signedAs ty n (atomNew .max ty n old x c) = max (signedAs ty n old) (signedAs ty n x) := by
  unfold atomNew
  dsimp only
  cases h : tySigned ty with
  | false => simp [signedAs_unsigned h]
  | true =>
    simp only [if_true, ← signedAs_sgnOf hn h]
    split <;> omega

theorem atomNew_add_int {n : Nat} (ht : ty = .s32 ∨ ty = .n32 ∨ ty = .s64 ∨ ty = .n64) (old x c : Nat) :
    atomNew .add ty n old x c = (old + x) % 256 ^ n := by
  have e : 2 ^ (8 * n) = 256 ^ n := pow_mul ..
  rcases ht with rfl | rfl | rfl | rfl <;> exact congrArg ((old + x) % ·) e

/-- A new value is as wide as the place. -/
theorem atomNew_lt {n old x c : Nat} (hn : n = widthBytes .full ty) (ho : old < 256 ^ n) (hx : x < 256 ^ n) :
    atomNew op ty n old x c < 256 ^ n := by
  have e : 256 ^ n = 2 ^ (8 * n) := (pow_mul 2 8 n).symm
  have helt (f : Nat → Nat → Nat × Nat) : (elt2 ty f old x).1 < 256 ^ n := by
    have h := eltwise_lt ty fun i => f (elt ty.shape.1 old i) (elt ty.shape.1 x i)
    rw [hn]
    revert h
    unfold widthBytes
    cases ty.wide <;> exact id
  cases op with
  | add =>
    unfold atomNew
    dsimp only
    split
    · exact helt _
    · exact helt _
    · exact helt _
    · rw [e]
      exact Nat.mod_lt _ (Nat.two_pow_pos _)
  | and => exact lt_of_le_of_lt Nat.and_le_left ho
  | or => rw [e] at ho hx ⊢; exact Nat.or_lt_two_pow ho hx
  | xor => rw [e] at ho hx ⊢; exact Nat.xor_lt_two_pow ho hx
  | min =>
    unfold atomNew
    dsimp only
    split
    · split <;> assumption
    · omega
  | max =>
    unfold atomNew
    dsimp only
    split
    · split <;> assumption
    · omega
  | xchg => exact hx
  | cas =>
    unfold atomNew
    dsimp only
    split <;> assumption
  | incw =>
    unfold atomNew
    dsimp only
    split <;> omega

-- Elements one after another (R102, R104).

/-- The value that an element of an atomic leaves at its place. -/
def atomNext (op : Aop) (ty : Ty) (v : Nat) (e : Elem) : Nat :=
  atomNew op ty e.size v (e.data.toNat % 256 ^ e.size) (e.cmp.toNat % 256 ^ e.size)

/-- An element of an atomic done. -/
def atomElem (op : Aop) (ty : Ty) (s : State) (e : Elem) : State :=
  writeElem s e.loc e.size (atomNext op ty (s.readLoc e.loc e.size) e)

/-- The elements of an atomic done in their order. -/
def atomElems (op : Aop) (ty : Ty) (s : State) (es : List Elem) : State := es.foldl (atomElem op ty) s

/-- What the elements of an atomic answer: the old values. -/
def atomAnswers (op : Aop) (ty : Ty) : State → List Elem → List (Nat × DWord)
  | _, [] => []
  | s, e :: es => (e.lane, dw (s.readLoc e.loc e.size)) :: atomAnswers op ty (atomElem op ty s e) es

/-- Two elements at one place. -/
def samePlace (e f : Elem) : Bool := f.loc.scr == e.loc.scr && f.loc.addr == e.loc.addr

theorem performElems_atom {ret : Bool} (hk : r.kind = .atom op ty ret) (s : State) (u : Nat) (es : List Elem) :
    performElems s u r es = (atomElems op ty s es, atomAnswers op ty s es) := by
  unfold performElems
  simp only [hk]
  suffices h : ∀ acc : State × List (Nat × DWord), es.foldl (fun (acc : State × List (Nat × DWord)) e =>
      (atomElem op ty acc.1 e, acc.2 ++ [(e.lane, dw (acc.1.readLoc e.loc e.size))])) acc =
        (atomElems op ty acc.1 es, acc.2 ++ atomAnswers op ty acc.1 es) from h (s, [])
  induction es with
  | nil => exact fun acc => by rw [atomAnswers, List.append_nil]; rfl
  | cons e l ih => exact fun acc => (ih _).trans (by rw [atomAnswers, List.append_assoc]; rfl)

theorem atomAnswers_length (op : Aop) (ty : Ty) (s : State) (es : List Elem) : (atomAnswers op ty s es).length = es.length := by
  induction es generalizing s with
  | nil => rfl
  | cons e l ih => exact congrArg (· + 1) (ih _)

/-- An element answers what its place holds once the elements before it are done. -/
theorem atomAnswers_at (op : Aop) (ty : Ty) (s : State) (pre : List Elem) (e : Elem) (post : List Elem) :
    (atomAnswers op ty s (pre ++ e :: post))[pre.length]? =
      some (e.lane, dw ((atomElems op ty s pre).readLoc e.loc e.size)) := by
  induction pre generalizing s with
  | nil => rfl
  | cons x l ih => exact ih (atomElem op ty s x)

theorem tidy_atomElems (op : Aop) (ty : Ty) (s : State) (es : List Elem) : Tidy s (atomElems op ty s es) :=
  .foldl (fun _ _ => tidy_writeElem ..) es s

/-- A byte that no element covers, and that is of no mark, stays. -/
theorem atomElems_cell_ne {b : Bool} (h : ∀ e ∈ es, ¬Covers e b a) (hd : b = false → ∀ e ∈ es, ¬DirtyAt s e.loc a) :
    (atomElems op ty s es).cell b a = s.cell b a := by
  induction es generalizing s with
  | nil => rfl
  | cons e l ih =>
    have hw : Tidy s (atomElem op ty s e) := tidy_writeElem ..
    refine (ih (fun x hx => h x (.tail _ hx)) fun hb x hx => (hw.dirtyAt ..).not.mpr (hd hb x (.tail _ hx))).trans ?_
    exact (writeElem_cell s _ _ _ fun hb => hd hb e (.head _)).trans (if_neg (h e (.head _)))

/-- The elements that act at a place are as wide as it is and share all bytes with it or none; and no mark falls on it. -/
structure Aligned (s : State) (ty : Ty) (es : List Elem) (e : Elem) : Prop where
  width : e.size = widthBytes .full ty
  widths : ∀ f ∈ es, f.size = widthBytes .full ty
  places : ∀ f ∈ es, overlaps e f = true → e.loc.addr = f.loc.addr
  marks : ∀ f ∈ es, ∀ a, Covers e false a → ¬DirtyAt s f.loc a

theorem Aligned.mono {l : List Elem} {e : Elem} (h : Aligned s ty es e) (hl : ∀ x ∈ l, x ∈ es) : Aligned s ty l e :=
  ⟨h.width, fun f hf => h.widths f (hl f hf), fun f hf => h.places f (hl f hf), fun f hf => h.marks f (hl f hf)⟩

/-- An element that acts changes what is read at its own place, and at no other. -/
theorem readLoc_atomElem {e f : Elem} (h : Aligned s ty [f] e) : (atomElem op ty s f).readLoc e.loc e.size =
    if samePlace e f then atomNext op ty (s.readLoc e.loc e.size) f else s.readLoc e.loc e.size := by
  have hf := h.widths f (.head _)
  have hsz : f.size = e.size := hf.trans h.width.symm
  have hm (a : Nat) : Covers e false a → ¬DirtyAt s f.loc a := h.marks f (.head _) a
  have hcell {b : Bool} {a : Nat} (hc : Covers e b a) : (atomElem op ty s f).cell b a =
      if f.loc.scr = b ∧ f.loc.addr ≤ a ∧ a < f.loc.addr + f.size then
        BitVec.ofNat 8 (atomNext op ty (s.readLoc f.loc f.size) f / 256 ^ (a - f.loc.addr)) else s.cell b a :=
    writeElem_cell s _ _ _ fun hb => hm a (hb ▸ hc)
  by_cases hp : samePlace e f = true
  · rw [if_pos hp]
    simp only [samePlace, Bool.and_eq_true, beq_iff_eq] at hp
    obtain ⟨hscr, haddr⟩ := hp
    have hr : s.readLoc f.loc f.size = s.readLoc e.loc e.size := by
      simp only [State.readLoc, State.lbyte, hscr, haddr, hsz]
    have hlt : atomNext op ty (s.readLoc f.loc f.size) f < 256 ^ e.size := by
      rw [← hsz]
      exact atomNew_lt hf (readLoc_lt ..) (Nat.mod_lt _ (by positivity))
    rw [← hr, ← Nat.mod_eq_of_lt hlt]
    refine leValue_bytes _ _ _ fun i hi => ?_
    rw [lbyte_cell, hcell ⟨rfl, by omega, by omega⟩, if_pos ⟨hscr, by omega, by omega⟩, haddr, Nat.add_sub_cancel_left]
  · rw [if_neg hp]
    refine readLoc_of_cells fun i hi => ?_
    rw [hcell ⟨rfl, by omega, by omega⟩, if_neg]
    rintro ⟨h1, h2, h3⟩
    have ho : overlaps e f = true := by
      simp only [overlaps, Bool.and_eq_true, beq_iff_eq, decide_eq_true_eq]
      exact ⟨⟨h1.symm, by omega⟩, by omega⟩
    have ha := h.places f (.head _) ho
    simp [samePlace, h1, ha] at hp

/-- What is read at a place once elements have acted: those at the place have, one after another. -/
theorem readLoc_atomElems {e : Elem} (h : Aligned s ty es e) : (atomElems op ty s es).readLoc e.loc e.size =
    (es.filter (samePlace e)).foldl (atomNext op ty) (s.readLoc e.loc e.size) := by
  induction es generalizing s with
  | nil => rfl
  | cons f l ih =>
    have hw : Tidy s (atomElem op ty s f) := tidy_writeElem ..
    have hl : Aligned (atomElem op ty s f) ty l e := ⟨h.width, fun x hx => h.widths x (.tail _ hx),
      fun x hx => h.places x (.tail _ hx), fun x hx a hc => (hw.dirtyAt ..).not.mpr (h.marks x (.tail _ hx) a hc)⟩
    refine (ih hl).trans ?_
    rw [readLoc_atomElem (h.mono fun x hx => by rw [List.mem_singleton.mp hx]; exact .head _), List.filter_cons]
    split <;> rfl

/-- The clause of an atomic. -/
theorem atomic_performs {ret : Bool} (h : Performs s u sec r es) (hk : r.kind = .atom op ty ret)
    (hw : ∀ e ∈ es, e.size = widthBytes .full ty) (ho : ∀ e ∈ es, ∀ f ∈ es, overlaps e f = true → e.loc.addr = f.loc.addr)
    (hm : ∀ e ∈ es, ∀ f ∈ es, ∀ a, Covers e false a → ¬DirtyAt s f.loc a) (hd : r.dest ≠ .none) (hn : sec ∉ r.returned) :
    ∃ t q, exec (.requestPerform u sec) s = .next t ∧ RegsStay s t ∧ t.req? u = some q ∧
      q.results.length = r.results.length + es.length ∧
      (∀ e ∈ es, t.readLoc e.loc e.size = (es.filter (samePlace e)).foldl (atomNext op ty) (s.readLoc e.loc e.size)) ∧
      (∀ pre e post, es = pre ++ e :: post → q.results[r.results.length + pre.length]? =
        some (e.lane, dw ((pre.filter (samePlace e)).foldl (atomNext op ty) (s.readLoc e.loc e.size)))) ∧
      (∀ a, (∀ e ∈ es, ¬Covers e false a ∧ ¬DirtyAt s e.loc a) → t.byte a = s.byte a) ∧
      (∀ a, (∀ e ∈ es, ¬Covers e true a) → t.sbyte a = s.sbyte a) := by
  obtain ⟨hp, -⟩ := homeReached_calm h
  have ht := tidy_atomElems op ty (homeReached s u r sec) es
  obtain ⟨hq, hr, hc, -⟩ := performSector_outstanding h hd hn (performElems_atom hk ..) (by rw [ht.req, hp.req, h.here])
  have hal (e : Elem) (he : e ∈ es) : Aligned (homeReached s u r sec) ty es e :=
    ⟨hw e he, hw, ho e he, fun f hf a hca => (hp.dirtyAt ..).not.mpr (hm e he f hf a hca)⟩
  refine ⟨_, _, h.exec, (hp.keeps.regsStay.trans ht.keeps.regsStay).trans hr, hq, ?_, fun e he => ?_, fun pre e post he => ?_,
    fun a ha => ?_, fun a ha => ?_⟩
  · exact List.length_append.trans (by rw [atomAnswers_length])
  · rw [readLoc_of_cells fun i _ => hc .., readLoc_atomElems (hal e he), hp.readLoc]
  · have hl : Aligned (homeReached s u r sec) ty pre e := (hal e (by simp [he])).mono fun x hx => by simp [he, hx]
    rw [Req.gained, List.getElem?_append_right (by omega), Nat.add_sub_cancel_left, he, atomAnswers_at, readLoc_atomElems hl,
      hp.readLoc]
  · rw [← cell_false, hc, atomElems_cell_ne (fun e he => (ha e he).1) fun _ e he => (hp.dirtyAt ..).not.mpr (ha e he).2, hp.cell]
    rfl
  · rw [← cell_true, hc, atomElems_cell_ne ha nofun, hp.cell]
    rfl

-- The first lanes of an atomic on a scratchpad (R90, R337).

theorem canPerform_withAgenda (s : State) (q : List Turn) (u : Nat) (r : Req) (sec : Nat) :
    canPerform (s.withAgenda q) u r sec = canPerform s u r sec := rfl

theorem performLanes_eq {ret : Bool} (h : Performs s u sec r es) (hk : r.kind = .atom op ty ret)
    (hf : (sectorsOf r).find? (fun x => x % 2 == 1 && !r.performed.contains x) = some sec) (q : List Turn) (n : Nat) :
    performLanes (s.withAgenda q) u n =
      (dropAhead (atomElems op ty (s.withAgenda q) (es.take n)) fun k y => k == r.gang && (performGroup r sec).contains y).modReq u
        fun r => { r with lanesDone := r.lanesDone ++ (es.take n).map (·.lane),
                          results := r.results ++ atomAnswers op ty (s.withAgenda q) (es.take n) } := by
  have hg : (performGroup r sec).all (canPerform (s.withAgenda q) u r) = true :=
    List.all_eq_true.mpr fun x hx => (canPerform_withAgenda ..).trans (h.all x hx)
  unfold performLanes
  rw [show (s.withAgenda q).req? u = some r from h.here]
  dsimp only
  rw [hk, hf]
  dsimp only
  rw [hg, if_neg (by decide), ← h.elems, performElems_atom hk]

/-- The elements of a group with a scratchpad's sector lie in a scratchpad. -/
theorem Performs.scr_of_odd (h : Performs s u sec r es) (hs : sec % 2 = 1) {e : Elem} (he : e ∈ es) : e.loc.scr = true := by
  rw [h.elems] at he
  have hm := (List.mem_filter.mp he).2
  simp only [Bool.and_eq_true, List.contains_iff_mem, performGroup, hs, if_true, List.mem_filter, beq_iff_eq] at hm
  have ho : e.loc.sector % 2 = 1 := hm.1.2.1
  by_contra hc
  simp only [Loc.sector, hc, if_false] at ho
  omega

/-- The clause of the first lanes of an atomic on a scratchpad. -/
theorem lanes_perform {ret : Bool} {rest : List Turn} {n : Nat} (hq : s.agenda = .performLanes u n :: rest)
    (h : Performs s u sec r es) (hk : r.kind = .atom op ty ret)
    (hf : (sectorsOf r).find? (fun x => x % 2 == 1 && !r.performed.contains x) = some sec)
    (hw : ∀ e ∈ es, e.size = widthBytes .full ty) (ho : ∀ e ∈ es, ∀ f ∈ es, overlaps e f = true → e.loc.addr = f.loc.addr) :
    ∃ t q, step s = .next t ∧ t.agenda = rest ∧ RegsStay s t ∧ t.req? u = some q ∧ q.performed = r.performed ∧
      q.lanesDone = r.lanesDone ++ (es.take n).map (·.lane) ∧ q.results.length = r.results.length + (es.take n).length ∧
      (∀ e ∈ es.take n, t.readLoc e.loc e.size =
        ((es.take n).filter (samePlace e)).foldl (atomNext op ty) (s.readLoc e.loc e.size)) ∧
      (∀ a, t.byte a = s.byte a) ∧ ∀ a, (∀ e ∈ es.take n, ¬Covers e true a) → t.sbyte a = s.sbyte a := by
  have hodd : sec % 2 = 1 := by
    have := List.find?_some hf
    simp only [Bool.and_eq_true, beq_iff_eq] at this
    exact this.1
  have hscr (e : Elem) (he : e ∈ es.take n) : e.loc.scr = true := h.scr_of_odd hodd (List.mem_of_mem_take he)
  have hmark (e : Elem) (he : e ∈ es.take n) (a : Nat) : ¬DirtyAt (s.withAgenda rest) e.loc a := fun hd => by
    rw [DirtyAt, hscr e he] at hd
    cases hd.1
  have hn : nextTurnOf s = (.performLanes u n, s.withAgenda rest) := by
    unfold nextTurnOf
    rw [hq]
    rfl
  have hs : step s = .next (performLanes (s.withAgenda rest) u n) := by rw [step, hn]; rfl
  have ht := tidy_atomElems op ty (s.withAgenda rest) (es.take n)
  have hr : (dropAhead (atomElems op ty (s.withAgenda rest) (es.take n)) fun k y =>
      k == r.gang && (performGroup r sec).contains y).req? u = some r := (ht.req u).trans h.here
  have hcell (b : Bool) (a : Nat) (hc : ∀ e ∈ es.take n, ¬Covers e b a) :
      (atomElems op ty (s.withAgenda rest) (es.take n)).cell b a = s.cell b a :=
    (atomElems_cell_ne hc fun _ e he => hmark e he a).trans rfl
  rw [hs, performLanes_eq h hk hf, State.modReq, hr]
  refine ⟨_, _, rfl, ?_, ?_, setReq_req_self .., rfl, rfl, ?_, fun e he => ?_, fun a => ?_, fun a ha => ?_⟩
  · exact foldl_same (·.agenda) (fun s e => by
      obtain ⟨m, c, p, x, g, hx⟩ := (writes_writeElem s e.loc e.size (atomNext op ty (s.readLoc e.loc e.size) e)).rest
      exact (congrArg (·.agenda) hx).trans rfl) _ _
  · exact (RegsStay.of_eq rfl : RegsStay s (s.withAgenda rest)).trans (ht.keeps.regsStay.trans (.of_eq rfl))
  · exact List.length_append.trans (by rw [atomAnswers_length])
  · exact readLoc_atomElems ⟨hw e (List.mem_of_mem_take he), fun f hf => hw f (List.mem_of_mem_take hf),
      fun f hf => ho e (List.mem_of_mem_take he) f (List.mem_of_mem_take hf), fun f hf a _ => hmark f hf a⟩
  · exact hcell false a fun e he hc => by rw [Covers, hscr e he] at hc; cases hc.1
  · exact hcell true a ha

/-- Settles O35: the operations one by one; the first lanes of a scratchpad atomic and a whole sector by the elements that act at
each place, one after another. -/
theorem atomicsPerform : Obligations.AtomicsPerform := by
  unfold Obligations.AtomicsPerform
  refine ⟨fun ty old x c ht ho hx hc => ?_, fun rest n u sec s r es op ty ret hq h hk hf hw ho => lanes_perform hq h hk hf hw ho,
    fun u sec s r es op ty ret h hk hw ho hm hd hn => atomic_performs h hk hw ho hm hd hn⟩
  have hn : 0 < widthBytes .full ty := by
    unfold widthBytes
    cases ty.wide <;> decide
  exact ⟨atomNew_add_int ht .., fun i => Nat.testBit_and .., fun i => Nat.testBit_or .., fun i => Nat.testBit_xor ..,
    atomNew_min hn .., atomNew_max hn .., rfl, rfl, rfl⟩

end Sys2Proof.Machine
end

section
/-! Reservations (O33): what reaching the homes of a sector, and a line that leaves an L1, do to the sets that splits hold (R81, R105,
R106). -/

namespace Sys2Proof.Machine

set_option Elab.async false

variable {s t : State} {u sec key core line : Nat} {r : Req} {es : List Elem} {e : Elem} {c : Bool → Prop}

-- The splits of a gang.

/-- Every split of a gang, in the table or deferred. -/
def Gang.everySplit (g : Gang) : List Split := g.splitList.map (·.2) ++ g.deferred

theorem tentries_map {α : Type} (f : Nat → α → α) (t : Tab (Option α)) :
    tentries (t.map fun e => (e.1, e.2.map fun x => f e.1 x)) = (tentries t).map fun e => (e.1, f e.1 e.2) := by
  induction t with
  | nil => rfl
  | cons e l ih =>
    obtain ⟨k, x⟩ := e
    cases x with
    | none => exact ih
    | some x => exact congrArg _ ih

theorem everySplit_mapSplits (f : Split → Split) (g : Gang) : (g.mapSplits f).everySplit = g.everySplit.map f := by
  have h : tentries (g.splits.map fun e => (e.1, e.2.map f)) = (tentries g.splits).map fun e => (e.1, f e.2) :=
    tentries_map (fun _ => f) g.splits
  rw [Gang.everySplit, Gang.everySplit, List.map_append, Gang.splitList, Gang.splitList, List.map_map]
  exact congrArg (· ++ g.deferred.map f) ((congrArg _ h).trans (List.map_map ..))

/-- Whether a gang lies on a core, as the line that leaves its L1 finds it. -/
def onCore (s : State) (core k : Nat) : Bool := match s.block? (k / 16) with | some b => b.core == core | none => false

theorem onCore_block {b : Block} (h : s.block? (key / 16) = some b) : onCore s core key = (b.core == core) := by
  rw [onCore, h]

/-- A set at GANG or CORE scope without its lanes on a line of device memory. -/
def Resv.leftBy (line : Nat) (r : Resv) : Resv := if r.core then r.dropLine (2 * line) else r

theorem clearCoreLine_gang (s : State) (core line k : Nat) : (clearCoreLine s core line).gang? k =
    (s.gang? k).map fun g => if onCore s core k then g.mapSplits fun sp => sp.mapResv (Resv.leftBy line) else g :=
  tget_mapKey (fun (k : Nat) (g : Gang) => if onCore s core k then g.mapSplits fun sp => sp.mapResv (Resv.leftBy line) else g) s.gangs k

theorem leftBy_sc (line : Nat) (q : Resv) : (q.leftBy line).sc = q.sc := by
  unfold Resv.leftBy
  split <;> rfl

theorem leftBy_core (line : Nat) (q : Resv) : (q.leftBy line).core = q.core := by
  unfold Resv.leftBy
  split <;> rfl

theorem leftBy_elems {line : Nat} {q : Resv} {x : Nat × DWord × Loc} (h : x ∈ (q.leftBy line).elems) :
    x ∈ q.elems ∧ (q.core = true → x.2.2.line ≠ 2 * line) := by
  unfold Resv.leftBy at h
  split at h
  · obtain ⟨h1, h2⟩ := List.mem_filter.mp h
    exact ⟨h1, fun _ => by simpa using h2⟩
  · next hc => exact ⟨h, fun hq => absurd hq hc⟩

-- A line leaves the L1 of a core (R81, R105).

/-- What a line that leaves an L1 does before the reservations on it go. -/
theorem lineLeaves_eq (s : State) (core line : Nat) : ∃ w, HomeOnly s w ∧ Calm s w ∧ lineLeaves s core line = clearCoreLine w core line := by
  unfold lineLeaves
  refine ⟨_, ?_, ?_, rfl⟩
  · split
    · refine HomeOnly.trans ?_ (homeOnly_setL1 ..)
      split
      · exact .refl s
      · exact homeOnly_chargeUser ..
    · exact .refl s
  · split
    · refine Calm.trans ?_ (calm_setL1 ..)
      split
      · exact .refl s
      · exact calm_chargeUser ..
    · exact .refl s

/-- The clause of a line that leaves the L1 of a core. -/
theorem leave_clears {rest : List Turn} (hq : s.agenda = .leave core line :: rest) :
    ∃ t, step s = .next t ∧ t.agenda = rest ∧ RegsStay s t ∧ (∀ a, t.byte a = s.byte a) ∧ (∀ a, t.sbyte a = s.sbyte a) ∧
      ∀ key g b, t.gang? key = some g → s.block? (key / 16) = some b →
        (b.core = core → ∀ sp ∈ g.everySplit, ∀ rv ∈ sp.resv.toList ++ sp.spent, rv.core = true →
          ∀ e ∈ rv.elems, e.2.2.line ≠ 2 * line) ∧ (b.core ≠ core → s.gang? key = some g) := by
  obtain ⟨w, hw, hcalm, he⟩ := lineLeaves_eq (s.withAgenda rest) core line
  have hgangs (k : Nat) : w.gang? k = s.gang? k := by
    obtain ⟨m, c, p, x, rfl⟩ := hw.rest
    rfl
  have hcore (k : Nat) : onCore w core k = onCore s core k := by
    obtain ⟨m, c, p, x, rfl⟩ := hw.rest
    rfl
  have hag : w.agenda = rest := by
    obtain ⟨m, c, p, x, rfl⟩ := hw.rest
    rfl
  have hn : nextTurnOf s = (.leave core line, s.withAgenda rest) := by
    unfold nextTurnOf
    rw [hq]
    rfl
  have hs : step s = .next (lineLeaves (s.withAgenda rest) core line) := by rw [step, hn]; rfl
  have hclear := hcalm.trans (calm_clearCoreLine _ core line)
  rw [he] at hs
  refine ⟨_, hs, hag, (RegsStay.of_eq rfl : RegsStay s (s.withAgenda rest)).trans hclear.keeps.regsStay,
    fun a => hclear.byte a, fun a => hclear.sbyte a, fun key g b hg hb => ?_⟩
  obtain ⟨g0, hg0, rfl⟩ := Option.map_eq_some_iff.mp ((clearCoreLine_gang ..).symm.trans hg)
  rw [hgangs] at hg0
  rw [hcore, onCore_block hb]
  constructor
  · rintro rfl sp hsp rv hrv hc e hel
    rw [beq_self_eq_true, if_pos rfl, everySplit_mapSplits] at hsp
    obtain ⟨sp0, -, rfl⟩ := List.mem_map.mp hsp
    have hall : (sp0.mapResv (Resv.leftBy line)).resv.toList ++ (sp0.mapResv (Resv.leftBy line)).spent =
        (sp0.resv.toList ++ sp0.spent).map (Resv.leftBy line) := by
      rw [List.map_append, Split.mapResv]
      cases sp0.resv <;> rfl
    rw [hall] at hrv
    obtain ⟨q, -, rfl⟩ := List.mem_map.mp hrv
    exact (leftBy_elems hel).2 (by rwa [leftBy_core] at hc)
  · intro hne
    rw [if_neg (by simpa using hne)]
    exact hg0

-- The set that an SC uses (R106), as the homes of its sector are reached.

/-- A gang holds a set that an SC uses, on the lane, the address and the line of an element; `c` says of which kind it is. -/
def SpentOn (s : State) (key u : Nat) (e : Elem) (c : Bool → Prop) : Prop :=
  ∃ g sp rv, s.gang? key = some g ∧ sp ∈ g.everySplit ∧ rv ∈ sp.spent ∧ rv.sc = u ∧ c rv.core ∧
    ∃ x ∈ rv.elems, x.1 = e.lane ∧ x.2.1 = e.ea ∧ x.2.2.line = e.loc.line

/-- No gang's sets grow, and those of one gang that are of a kind stay. -/
structure SetsKept (key : Nat) (c : Bool → Prop) (s t : State) : Prop where
  blocks : t.blocks = s.blocks
  shrinks : ∀ u e, SpentOn t key u e (fun _ => True) → SpentOn s key u e (fun _ => True)
  keeps : ∀ u e, SpentOn s key u e c → SpentOn t key u e c

theorem SetsKept.refl (key : Nat) (c : Bool → Prop) (s : State) : SetsKept key c s s := ⟨rfl, fun _ _ h => h, fun _ _ h => h⟩

theorem SetsKept.trans {w : State} (a : SetsKept key c s t) (b : SetsKept key c t w) : SetsKept key c s w :=
  ⟨b.blocks.trans a.blocks, fun u e h => a.shrinks u e (b.shrinks u e h), fun u e h => b.keeps u e (a.keeps u e h)⟩

theorem SetsKept.of_eq (hb : t.blocks = s.blocks) (hg : t.gangs = s.gangs) : SetsKept key c s t := by
  have h (u : Nat) (e : Elem) (c : Bool → Prop) : SpentOn t key u e c ↔ SpentOn s key u e c := by
    simp only [SpentOn, State.gang?, hg]
  exact ⟨hb, fun u e => (h u e _).mp, fun u e => (h u e _).mpr⟩

theorem SetsKept.ite {p : Prop} [Decidable p] {w : State} (a : SetsKept key c s t) (b : SetsKept key c s w) :
    SetsKept key c s (if p then t else w) := by
  split
  · exact a
  · exact b

theorem HomeOnly.setsKept (h : HomeOnly s t) : SetsKept key c s t := by
  obtain ⟨m, x, p, y, rfl⟩ := h.rest
  exact .of_eq rfl rfl

theorem SetsKept.foldl {α : Type} {f : State → α → State} {l : List α}
    (hf : ∀ w, w.blocks = s.blocks → ∀ x ∈ l, SetsKept key c w (f w x)) : SetsKept key c s (l.foldl f s) := by
  suffices h : ∀ (l' : List α) (w : State), (∀ x ∈ l', x ∈ l) → SetsKept key c s w → SetsKept key c s (l'.foldl f w) from
    h l s (fun _ hx => hx) (.refl key c s)
  intro l'
  induction l' with
  | nil => exact fun w _ hw => hw
  | cons x l' ih =>
    exact fun w hx hw => ih (f w x) (fun y hy => hx y (.tail _ hy)) (hw.trans (hf w hw.blocks x (hx x (.head _))))

/-- A line that leaves the L1 of a core takes lanes only from sets held there. -/
theorem setsKept_clearCoreLine (h : c true → onCore s core key = false) (line : Nat) : SetsKept key c s (clearCoreLine s core line) := by
  refine ⟨rfl, fun u e => ?_, fun u e => ?_⟩
  · rintro ⟨g, sp, rv, hg, hsp, hrv, hsc, -, x, hx, hxe⟩
    obtain ⟨g0, hg0, rfl⟩ := Option.map_eq_some_iff.mp ((clearCoreLine_gang ..).symm.trans hg)
    split at hsp
    · rw [everySplit_mapSplits] at hsp
      obtain ⟨sp0, hsp0, rfl⟩ := List.mem_map.mp hsp
      obtain ⟨q, hq, rfl⟩ := List.mem_map.mp hrv
      exact ⟨g0, sp0, q, hg0, hsp0, hq, (leftBy_sc ..).symm.trans hsc, trivial, x, (leftBy_elems hx).1, hxe⟩
    · exact ⟨g0, sp, rv, hg0, hsp, hrv, hsc, trivial, x, hx, hxe⟩
  · rintro ⟨g, sp, rv, hg, hsp, hrv, hsc, hc, x, hx, hxe⟩
    have hg' := (clearCoreLine_gang s core line key).trans (congrArg _ hg)
    cases ho : onCore s core key with
    | false =>
      rw [ho] at hg'
      exact ⟨g, sp, rv, hg', hsp, hrv, hsc, hc, x, hx, hxe⟩
    | true =>
      rw [ho, Option.map_some, if_pos rfl] at hg'
      have hcore : rv.core = false := by
        cases hv : rv.core with
        | false => rfl
        | true => rw [hv] at hc; exact absurd ho (by rw [h hc]; decide)
      have hl : rv.leftBy line = rv := by rw [Resv.leftBy, hcore]; rfl
      refine ⟨_, sp.mapResv (Resv.leftBy line), rv, hg', ?_, List.mem_map.mpr ⟨rv, hrv, hl⟩, hsc, hc, x, hx, hxe⟩
      rw [everySplit_mapSplits]
      exact List.mem_map_of_mem hsp

/-- The copies of a line that are dropped take no lanes from the sets of the core that keeps its own, and none from sets held at the
home. -/
theorem setsKept_dropCopies {keep : Option Nat} (h : c true → ∀ b, s.block? (key / 16) = some b → keep = some b.core) (line : Nat) :
    SetsKept key c s (dropCopies s line keep) := by
  unfold dropCopies
  refine (SetsKept.foldl (s := s) fun w hw x hx => ?_).trans (.of_eq rfl rfl)
  obtain ⟨-, hk⟩ := List.mem_filter.mp hx
  simp only [Bool.and_eq_true, bne_iff_ne, ne_eq] at hk
  split
  · next y hy =>
    have hh : HomeOnly w ((if y.dirty = 0 then w else writeBackL1 w line y).setL1 (x.1 / 35184372088832) line none) := by
      refine HomeOnly.trans ?_ (homeOnly_setL1 ..)
      split
      · exact .refl w
      · exact homeOnly_chargeUser ..
    refine hh.setsKept.trans (setsKept_clearCoreLine (fun hc => ?_) line)
    rw [onCore, State.block?, hh.setsKept.blocks (key := key) (c := c), hw]
    split
    · next b hb =>
      rw [beq_eq_false_iff_ne]
      exact fun e => hk.2 ((congrArg some e).symm.trans (h hc b hb).symm)
    · rfl
  · exact .refl _ _ w

theorem readHome_homeOnly (s : State) (l : List Nat) : HomeOnly s (readHome s l).1 := by
  unfold readHome
  suffices h : ∀ acc : State × List Nat, HomeOnly s acc.1 → HomeOnly s (l.foldl (fun acc x =>
      (let q := sectorRead acc.1 (x / 2); (q.1, if q.2 then acc.2 ++ [x] else acc.2))) acc).1 from h (s, []) (.refl s)
  induction l with
  | nil => exact fun _ h => h
  | cons x l ih => exact fun acc h => ih _ (h.trans (homeOnly_sectorRead ..))

theorem homeRead_homeOnly (s : State) (r : Req) (sec : Nat) : HomeOnly s (homeRead s r sec).1 := by
  unfold homeRead
  split
  · exact .refl s
  · exact readHome_homeOnly ..

/-- Only a store writes whole sectors. -/
theorem homeCleared_homeOnly (hk : r.kind ≠ .store) (s : State) (sec : Nat) : HomeOnly s (homeCleared s r sec) := by
  have hw : writesWhole r sec = false := by
    rw [writesWhole, beq_eq_false_iff_ne.mpr hk, Bool.false_and]
  unfold homeCleared
  rw [hw, Bool.and_false, if_neg Bool.false_ne_true]
  exact homeRead_homeOnly ..

theorem homeOnly_served (s : State) (w : Option Waiter) (a : Nat) :
    HomeOnly s (match w with | some w => if isHbm a then weirServed s (channelOf a) w else s | none => s) := by
  split
  · split
    · exact homeOnly_weirServed ..
    · exact .refl s
  · exact .refl s

/-- The kind of the sets that stay as an SC reaches its homes: those held at the home, and, at GANG or CORE scope, all. -/
def heldKind (r : Req) : Bool → Prop := fun core => core = true → Scope.atCore r.scope = true

theorem heldKind_true : heldKind r true ↔ Scope.atCore r.scope = true := ⟨fun h => h rfl, fun h _ => h⟩

/-- The home's part of a sector that an L1 takes. -/
theorem homeOnly_sectorTaken (s : State) (core ctx : Nat) (whole : Bool) (sec : Nat) :
    HomeOnly s (if whole then s else storeSector (chargeUser s (meterKey s ctx core) (32 * sec) 1) sec) := by
  split
  · exact .refl s
  · exact (homeOnly_chargeUser ..).trans (homeOnly_storeSector ..)

theorem setsKept_fillL1 {ctx : Nat} {own whole : Bool} (h : c true → ∀ b, s.block? (key / 16) = some b → core = b.core) (sec : Nat) :
    SetsKept key c s (fillL1 s core ctx own whole sec) := by
  have h1 := homeOnly_sectorTaken s core ctx whole sec
  have hb := h1.setsKept.blocks (key := key) (c := c)
  unfold fillL1
  dsimp only
  generalize (if whole = true then s else storeSector (chargeUser s (meterKey s ctx core) (32 * sec) 1) sec) = x at h1 hb ⊢
  refine (h1.setsKept.trans ?_).trans (homeOnly_setL1 ..).setsKept
  refine .ite (setsKept_dropCopies (fun hc b hx => congrArg some (h hc b ?_)) _)
    (.ite (.refl _ _ x) (homeOnly_recallOwned ..).setsKept)
  rwa [State.block?, hb] at hx

/-- As an SC reaches the homes of its sector, no set grows, and those of its gang that it does not lose there stay (R81, R105). -/
theorem homeReached_setsKept (hk : r.kind ≠ .store) (hb : (homeRead s r sec).2 = []) :
    SetsKept r.gang (heldKind r) s (homeReached s u r sec) := by
  have h1 := (homeCleared_homeOnly hk s sec).setsKept (key := r.gang) (c := heldKind r)
  have h2 : SetsKept r.gang (heldKind r) (homeCleared s r sec) (homeServed s u r sec) := by
    unfold homeServed
    split
    · refine SetsKept.foldl fun w hw x _ => ?_
      have h := (homeOnly_served w (waiterOf w u r x) (x / 2 * 32)).setsKept (key := r.gang) (c := heldKind r)
      refine h.trans (setsKept_fillL1 (fun _ b hx => ?_) _)
      rw [State.block?, h.blocks, hw, h1.blocks] at hx
      have hx' : s.block? (r.gang / 16) = some b := hx
      rw [keyCore, hx']
    · next hc =>
      refine SetsKept.foldl fun w hw x _ => ?_
      split
      · have h (e : Elem) (n : Nat) := ((homeOnly_served w (waiterOf w u r x) e.loc.addr).trans
          (homeOnly_chargeSlots _ (keyCtx s r.gang) (keyCore s r.gang) e.loc.addr n)).setsKept (key := r.gang) (c := heldKind r)
        dsimp only
        split
        · exact (h ..).trans (setsKept_dropCopies (fun hc' => absurd (heldKind_true.mp hc') hc) _)
        · exact h ..
      · exact .refl _ _ w
  unfold homeReached
  rw [hb]
  obtain ⟨x, e⟩ := leaveQueues_only (pendPoison (homeServed s u r sec) r []) r.gang
    ((standing (homeServed s u r sec) u r).filter fun y => (performGroup r sec).contains y.sec)
  rw [e]
  exact (h1.trans h2).trans (.of_eq rfl rfl)

end Sys2Proof.Machine
end

section
/-! Loads, LR and SC perform (O33): what their elements read and do (R87, R94, R99, R105, R106, R127, R130, R134). -/

namespace Sys2Proof.Machine

set_option Elab.async false

variable {s t : State} {u sec key : Nat} {r : Req} {es : List Elem} {e : Elem}

-- What a read sees (R127, R130, R134).

theorem leValue_congr {f g : Nat → Byte} {n : Nat} (h : ∀ i < n, f i = g i) : leValue f n = leValue g n := by
  induction n with
  | zero => rfl
  | succ n ih => rw [leValue, leValue, ih fun i hi => h i (Nat.lt_succ_of_lt hi), h n n.lt_succ_self]

/-- What a read of a request has of a byte depends on the requests and on memory alone. -/
theorem forwardByte_congr (hr : t.reqs = s.reqs) (hc : ∀ b a, t.cell b a = s.cell b a) (u key : Nat) (l : Loc) (i : Nat) :
    forwardByte t u key l i = forwardByte s u key l i := by
  unfold forwardByte
  rw [hr, lbyte_cell, lbyte_cell, hc]

theorem forwardRead_congr (hr : t.reqs = s.reqs) (hc : ∀ b a, t.cell b a = s.cell b a) (u key : Nat) (l : Loc) (n : Nat) :
    forwardRead t u key l n = forwardRead s u key l n :=
  leValue_congr fun _ _ => forwardByte_congr hr hc ..

theorem loadValue_congr (ha : t.ahead = s.ahead) (hf : forwardRead t u r.gang e.loc e.size = forwardRead s u r.gang e.loc e.size) :
    loadValue t u r e = loadValue s u r e := by
  unfold loadValue
  rw [ha, hf]

/-- Where no older store of the gang is outstanding, a read has what its place holds. -/
theorem forwardRead_eq_readLoc (h : ∀ x ∈ tentries s.reqs, x.1 < u → x.2.gang = key → x.2.kind ≠ .store) (l : Loc) (n : Nat) :
    forwardRead s u key l n = s.readLoc l n := by
  refine leValue_congr fun i _ => ?_
  unfold forwardByte
  suffices h : ∀ (q : List (Nat × Req)) (b : Byte), (∀ x ∈ q, x.1 < u → x.2.gang = key → x.2.kind ≠ .store) →
      q.foldl (fun acc x => if decide (x.1 < u) && x.2.gang == key && x.2.kind == .store && x.2.checked && x.2.space != .engine then
        x.2.elems.foldl (fun acc f =>
          if f.loc.scr == l.scr && decide (f.loc.addr ≤ l.addr + i) && decide (l.addr + i < f.loc.addr + f.size)
              && !x.2.performed.contains f.loc.sector then
            BitVec.ofNat 8 (f.data.toNat / 256 ^ (l.addr + i - f.loc.addr))
          else acc) acc
      else acc) b = b from h _ _ ‹_›
  intro q
  induction q with
  | nil => exact fun _ _ => rfl
  | cons x q ih =>
    intro b hq
    rw [List.foldl_cons, if_neg, ih _ fun y hy => hq y (.tail _ hy)]
    simp only [Bool.and_eq_true, decide_eq_true_eq, beq_iff_eq]
    exact fun hx => hq x (.head _) hx.1.1.1.1 hx.1.1.1.2 hx.1.1.2

/-- A load has what its place holds, where its gang has neither an older store outstanding nor read the sector early. -/
theorem loadValue_eq_readLoc (h : ∀ x ∈ tentries s.reqs, x.1 < u → x.2.gang = r.gang → x.2.kind ≠ .store)
    (ha : ∀ x ∈ s.ahead, x.gang = r.gang → x.sector ≠ e.loc.sector) : loadValue s u r e = s.readLoc e.loc e.size := by
  have hn : (s.ahead.find? fun x => x.gang == r.gang && x.sector == e.loc.sector) = none := by
    rw [List.find?_eq_none]
    intro x hx hp
    simp only [Bool.and_eq_true, beq_iff_eq] at hp
    exact ha x hx hp.1 hp.2
  unfold loadValue
  rw [hn]
  exact forwardRead_eq_readLoc h ..

/-- A plain load at CLUSTER scope or wider has what its gang has read early. -/
theorem loadValue_ahead {x : Ahead} (ha : s.ahead = [x]) (hg : x.gang = r.gang) (hs : x.sector = e.loc.sector) (ho : r.ord = .plain)
    (hc : scopeCode r.scope ≥ 2) :
    loadValue s u r e = leValue (fun i => x.bytes.getD (e.loc.addr % 32 + i) 0) e.size := by
  have hcore : (!Scope.atCore r.scope) = true := by
    revert hc
    cases r.scope <;> decide
  have hf : (s.ahead.find? fun x => x.gang == r.gang && x.sector == e.loc.sector) = some x := by
    rw [ha, List.find?_cons_of_pos]
    simp [hg, hs]
  unfold loadValue
  rw [hf]
  exact if_pos ⟨ho, hcore⟩

-- The marks that a load leaves in older stores (R127, R134).

/-- An older store of which a read has taken a byte. -/
def Req.readBy (u key sp : Nat) (e : Elem) (v : Nat) (q : Req) : Req :=
  if v < u ∧ q.gang = key ∧ q.kind = .store ∧ q.checked ∧ q.space ≠ .engine ∧
      q.elems.any (fun f => overlaps f e && !q.performed.contains f.loc.sector) then
    { q with readers := if q.readers.contains sp then q.readers else q.readers ++ [sp] } else q

theorem markRead_eq (s : State) (u key sp : Nat) (e : Elem) : markRead s u key sp e =
    { s with reqs := s.reqs.map fun x => (x.1, x.2.map fun q => q.readBy u key sp e x.1) } := rfl

theorem markRead_req (s : State) (u key sp : Nat) (e : Elem) : (markRead s u key sp e).req? u = s.req? u := by
  have h := tget_mapKey (fun v q => Req.readBy u key sp e v q) s.reqs u
  rw [markRead_eq]
  refine h.trans ?_
  cases hx : tget none s.reqs u with
  | none => exact hx.symm
  | some q => exact (congrArg some (if_neg fun h => Nat.lt_irrefl _ h.1)).trans hx.symm

/-- Who has read a store does not change what a read takes from it. -/
theorem forwardRead_markRead (s : State) (u key sp : Nat) (e : Elem) (v k : Nat) (l : Loc) (n : Nat) :
    forwardRead (markRead s u key sp e) v k l n = forwardRead s v k l n := by
  refine leValue_congr fun i _ => ?_
  unfold forwardByte
  rw [markRead_eq]
  dsimp only
  rw [tentries_map (fun v q => Req.readBy u key sp e v q), List.foldl_map]
  refine congrArg (List.foldl · _ _) (funext fun acc => funext fun x => ?_)
  dsimp only
  unfold Req.readBy
  split <;> rfl

/-- The marks of the elements of a load. -/
def markReads (s : State) (u : Nat) (r : Req) (es : List Elem) : State := es.foldl (fun s e => markRead s u r.gang r.split e) s

theorem performElems_load {b : Bool} (hk : r.kind = .load b) (s : State) (u : Nat) (es : List Elem) :
    performElems s u r es = (markReads s u r es, es.map fun e => (e.lane, dw (loadValue s u r e))) := by
  unfold performElems
  simp only [hk]
  suffices h : ∀ acc : State × List (Nat × DWord), es.foldl (fun (acc : State × List (Nat × DWord)) e =>
      (markRead acc.1 u r.gang r.split e, acc.2 ++ [(e.lane, dw (loadValue acc.1 u r e))])) acc =
        (markReads acc.1 u r es, acc.2 ++ es.map fun e => (e.lane, dw (loadValue acc.1 u r e))) from h (s, [])
  induction es with
  | nil => exact fun acc => by rw [List.map_nil, List.append_nil]; rfl
  | cons e l ih =>
    intro acc
    have hv (f : Elem) : loadValue (markRead acc.1 u r.gang r.split e) u r f = loadValue acc.1 u r f :=
      loadValue_congr rfl (forwardRead_markRead ..)
    refine (ih _).trans ?_
    simp only [hv, List.append_assoc, List.map_cons, List.singleton_append]
    rfl

theorem markReads_only (s : State) (u : Nat) (r : Req) (es : List Elem) : (markReads s u r es).req? u = s.req? u ∧
    ∃ x, markReads s u r es = { s with reqs := x } := by
  unfold markReads
  induction es generalizing s with
  | nil => exact ⟨rfl, _, rfl⟩
  | cons e l ih =>
    obtain ⟨h, x, hx⟩ := ih (markRead s u r.gang r.split e)
    exact ⟨h.trans (markRead_req ..), x, hx⟩

-- The reservations that an LR makes (R105).

/-- The lane of an element as a set holds it. -/
def Elem.reserved (e : Elem) : Nat × DWord × Loc := (e.lane, e.ea, e.loc)

/-- A set of an LR with the lanes of elements added: all of them where an SC has taken it, else those of its split. -/
def Resv.grown (u : Nat) (lanes : Lanes) (es : List Elem) (q : Resv) : Resv :=
  if q.lr = u then { q with elems := q.elems ++ (es.filter fun e => q.sc ≠ 0 ∨ inLanes lanes e.lane = true).map Elem.reserved } else q

/-- A split whose sets have grown. -/
def Split.grown (u : Nat) (es : List Elem) (sp : Split) : Split := sp.mapResv (Resv.grown u sp.lanes es)

theorem Resv.grown_nil (u : Nat) (lanes : Lanes) (q : Resv) : q.grown u lanes [] = q := by
  unfold Resv.grown
  split
  · simp only [List.filter_nil, List.map_nil, List.append_nil]
  · rfl

theorem Resv.grown_cons (u : Nat) (lanes : Lanes) (e : Elem) (l : List Elem) (q : Resv) :
    (q.grown u lanes [e]).grown u lanes l = q.grown u lanes (e :: l) := by
  unfold Resv.grown
  by_cases hq : q.lr = u
  · simp only [if_pos hq, List.append_assoc, ← List.map_append, ← List.filter_append, List.singleton_append]
  · simp only [if_neg hq]

theorem Split.grown_nil (u : Nat) : Split.grown u [] = id := by
  refine funext fun sp => ?_
  have h : Resv.grown u sp.lanes [] = id := funext (Resv.grown_nil u sp.lanes)
  rw [Split.grown, Split.mapResv, h, Option.map_id, List.map_id]
  rfl

theorem Split.grown_cons (u : Nat) (e : Elem) (l : List Elem) (sp : Split) : (sp.grown u [e]).grown u l = sp.grown u (e :: l) := by
  simp only [Split.grown, Split.mapResv, Option.map_map, List.map_map, Function.comp_def, Resv.grown_cons]

/-- The reservations of the elements of an LR made. -/
def reserveElems (s : State) (u : Nat) (r : Req) (es : List Elem) : State :=
  es.foldl (fun s e => s.modGang r.gang fun g => g.mapSplits (Split.grown u [e])) s

theorem reserveElems_only (s : State) (u : Nat) (r : Req) (es : List Elem) : ∃ x, reserveElems s u r es = { s with gangs := x } := by
  unfold reserveElems
  induction es generalizing s with
  | nil => exact ⟨_, rfl⟩
  | cons e l ih =>
    obtain ⟨x, hx⟩ := modGang_only s r.gang fun g => g.mapSplits (Split.grown u [e])
    obtain ⟨y, hy⟩ := ih (s.modGang r.gang fun g => g.mapSplits (Split.grown u [e]))
    exact ⟨y, hy.trans (by rw [hx])⟩

theorem reserveElems_gang (s : State) (u : Nat) (r : Req) (es : List Elem) (k : Nat) :
    ((reserveElems s u r es).gang? k).map (fun g => (g.regs, g.split?)) =
      (s.gang? k).map fun g => (g.regs, if k = r.gang then g.split?.map (Split.grown u es) else g.split?) := by
  unfold reserveElems
  induction es generalizing s with
  | nil =>
    refine congrArg (Option.map · _) (funext fun g => ?_)
    simp only [Split.grown_nil, Option.map_id, id_eq, ite_self]
  | cons e l ih =>
    rw [List.foldl_cons, ih, modGang_gang]
    by_cases hk : k = r.gang
    · simp only [if_pos hk, Option.map_map, Function.comp_def, mapSplits_split, Split.grown_cons]
      rfl
    · simp only [if_neg hk]

theorem performElems_lr (hk : r.kind = .lr) (s : State) (u : Nat) (es : List Elem) :
    performElems s u r es = (reserveElems s u r es, es.map fun e => (e.lane, dw (forwardRead s u r.gang e.loc e.size))) := by
  have hg (e : Elem) (g : Gang) : (g.mapSplits fun sp => sp.mapResv fun q =>
      if q.lr = u ∧ (q.sc ≠ 0 ∨ inLanes sp.lanes e.lane) then { q with elems := q.elems ++ [(e.lane, e.ea, e.loc)] } else q) =
        g.mapSplits (Split.grown u [e]) := by
    congr 1
    refine funext fun sp => congrArg _ (funext fun q => ?_)
    unfold Resv.grown
    by_cases h1 : q.lr = u
    · by_cases h2 : q.sc ≠ 0 ∨ inLanes sp.lanes e.lane = true
      · rw [if_pos ⟨h1, h2⟩, if_pos h1, List.filter_cons_of_pos (by simpa using h2)]
        rfl
      · rw [if_neg fun h => h2 h.2, if_pos h1, List.filter_cons_of_neg (by simpa using h2), List.filter_nil, List.map_nil,
          List.append_nil]
    · rw [if_neg fun h => h1 h.1, if_neg h1]
  unfold performElems
  simp only [hk, hg]
  suffices h : ∀ acc : State × List (Nat × DWord), es.foldl (fun (acc : State × List (Nat × DWord)) e =>
      (acc.1.modGang r.gang fun g => g.mapSplits (Split.grown u [e]),
        acc.2 ++ [(e.lane, dw (forwardRead acc.1 u r.gang e.loc e.size))])) acc =
        (reserveElems acc.1 u r es, acc.2 ++ es.map fun e => (e.lane, dw (forwardRead acc.1 u r.gang e.loc e.size))) from h (s, [])
  induction es with
  | nil => exact fun acc => by rw [List.map_nil, List.append_nil]; rfl
  | cons e l ih =>
    intro acc
    obtain ⟨x, hx⟩ := modGang_only acc.1 r.gang fun g => g.mapSplits (Split.grown u [e])
    have hv (f : Elem) : forwardRead (acc.1.modGang r.gang fun g => g.mapSplits (Split.grown u [e])) u r.gang f.loc f.size =
        forwardRead acc.1 u r.gang f.loc f.size := by rw [hx]; rfl
    refine (ih _).trans ?_
    simp only [hv, List.append_assoc, List.map_cons, List.singleton_append]
    rfl

-- A load or an LR performs.

/-- A sector that an L1 takes for a read. -/
theorem homeOnly_fillL1 (s : State) (core ctx : Nat) (whole : Bool) (sec : Nat) : HomeOnly s (fillL1 s core ctx false whole sec) := by
  have h1 := homeOnly_sectorTaken s core ctx whole sec
  unfold fillL1
  dsimp only
  rw [if_neg Bool.false_ne_true]
  refine HomeOnly.trans ?_ (homeOnly_setL1 ..)
  split
  · exact h1
  · exact h1.trans (homeOnly_recallOwned ..)

/-- Where a sector is read, its homes are reached with the gangs and what has been read early as they were. -/
theorem homeReached_reads (hs : r.storeLike = false) (hb : (homeRead s r sec).2 = []) :
    (homeReached s u r sec).gangs = s.gangs ∧ (homeReached s u r sec).ahead = s.ahead := by
  have hk : r.kind ≠ .store := fun h => by
    rw [Req.storeLike, h] at hs
    cases hs
  have h : HomeOnly s (homeServed s u r sec) := by
    refine (homeCleared_homeOnly hk s sec).trans ?_
    unfold homeServed
    split
    · refine HomeOnly.foldl (fun w x => ?_) _ _
      refine (homeOnly_served w (waiterOf w u r x) (x / 2 * 32)).trans ?_
      rw [hs]
      exact homeOnly_fillL1 ..
    · refine HomeOnly.foldl (fun w x => ?_) _ _
      split
      · simp only [hs, Bool.false_eq_true, if_false]
        exact (homeOnly_served ..).trans (homeOnly_chargeSlots ..)
      · exact .refl w
  obtain ⟨m, c, p, y, e⟩ := h.rest
  unfold homeReached
  rw [hb]
  obtain ⟨x, e'⟩ := leaveQueues_only (pendPoison (homeServed s u r sec) r []) r.gang
    ((standing (homeServed s u r sec) u r).filter fun y => (performGroup r sec).contains y.sec)
  rw [e']
  exact ⟨congrArg (·.gangs) e, congrArg (·.ahead) e⟩

theorem Performs.sector_mem (h : Performs s u sec r es) (he : e ∈ es) : e.loc.sector ∈ performGroup r sec := by
  rw [h.elems] at he
  have hm := (List.mem_filter.mp he).2
  simp only [Bool.and_eq_true, List.contains_iff_mem] at hm
  exact hm.1

/-- What the elements of a load or of an LR do: they read, and change of gangs only the sets of the LR. -/
structure Reads (s w : State) (u : Nat) (r : Req) (es : List Elem) (val : Elem → Nat) : Prop where
  elems : performElems s u r es = (w, es.map fun e => (e.lane, dw (val e)))
  req : w.req? u = s.req? u
  regs : RegsStay s w
  cell : ∀ b a, w.cell b a = s.cell b a
  lr : r.kind = .lr → w = reserveElems s u r es

theorem reads_load {b : Bool} (hk : r.kind = .load b) (s : State) (u : Nat) (es : List Elem) :
    ∃ w, Reads s w u r es (loadValue s u r) := by
  obtain ⟨h, x, hx⟩ := markReads_only s u r es
  exact ⟨_, performElems_load hk .., h, .of_eq (by rw [hx]), fun b a => by rw [hx]; rfl, fun hl => by rw [hk] at hl; cases hl⟩

theorem reads_lr (hk : r.kind = .lr) (s : State) (u : Nat) (es : List Elem) :
    ∃ w, Reads s w u r es fun e => forwardRead s u r.gang e.loc e.size := by
  obtain ⟨x, hx⟩ := reserveElems_only s u r es
  refine ⟨_, performElems_lr hk .., by rw [hx]; rfl, fun k g hg => ?_, fun b a => by rw [hx]; rfl, fun _ => rfl⟩
  have h := reserveElems_gang s u r es k
  rw [hg] at h
  obtain ⟨g', hg', he⟩ := Option.map_eq_some_iff.mp h
  exact ⟨g', _, _, hg', congrArg Prod.fst he⟩

/-- The clause of a load or an LR. -/
theorem load_performs (h : Performs s u sec r es) (hk : (∃ b, r.kind = .load b) ∨ r.kind = .lr) (hd : r.dest ≠ .none)
    (hn : sec ∉ r.returned) :
    ∃ t q vs, exec (.requestPerform u sec) s = .next t ∧ RegsStay s t ∧ (∀ a, t.byte a = s.byte a) ∧
      (∀ a, t.sbyte a = s.sbyte a) ∧ t.req? u = some q ∧ q.results = r.results ++ vs ∧
      q.performed = r.performed ++ performGroup r sec ∧ q.returned = r.returned ∧ vs.map (·.1) = es.map (·.lane) ∧
      ((∀ x ∈ tentries s.reqs, x.1 < u → x.2.gang = r.gang → x.2.kind ≠ .store) →
        (∀ x ∈ s.ahead, x.gang = r.gang → x.sector ∉ performGroup r sec) →
        vs = es.map fun e => (e.lane, dw (s.readLoc e.loc e.size))) ∧
      (∀ x b e, s.ahead = [x] → x.gang = r.gang → es = [e] → x.sector = e.loc.sector → r.kind = .load b → r.ord = .plain →
        scopeCode r.scope ≥ 2 → vs = [(e.lane, dw (leValue (fun i => x.bytes.getD (e.loc.addr % 32 + i) 0) e.size))]) ∧
      (r.kind = .lr → ∀ g sp, s.gang? r.gang = some g → g.split? = some sp →
        ∃ g' sp', t.gang? r.gang = some g' ∧ g'.split? = some sp' ∧ sp'.resv = sp.resv.map (Resv.grown u sp.lanes es) ∧
          sp'.spent = sp.spent.map (Resv.grown u sp.lanes es)) := by
  have hs : r.storeLike = false := by
    rcases hk with ⟨b, hk⟩ | hk <;> rw [Req.storeLike, hk]
  have hsc : r.kind ≠ .sc := fun hc => by
    rw [Req.storeLike, hc] at hs
    cases hs
  obtain ⟨hp, hb⟩ := homeReached_calm h
  obtain ⟨hgangs, hahead⟩ := homeReached_reads (u := u) hs hb
  have hfwd (l : Loc) (n : Nat) : forwardRead (homeReached s u r sec) u r.gang l n = forwardRead s u r.gang l n :=
    forwardRead_congr hp.reqs hp.cell ..
  obtain ⟨w, val, hw, hload, hplain⟩ : ∃ w val, Reads (homeReached s u r sec) w u r es val ∧
      (∀ b, r.kind = .load b → val = loadValue s u r) ∧
      (val = loadValue s u r ∨ val = fun e => forwardRead s u r.gang e.loc e.size) := by
    rcases hk with ⟨b, hk⟩ | hk
    · obtain ⟨w, hw⟩ := reads_load hk (homeReached s u r sec) u es
      have hv : loadValue (homeReached s u r sec) u r = loadValue s u r := funext fun e => loadValue_congr hahead (hfwd ..)
      exact ⟨w, _, hw, fun _ _ => hv, .inl hv⟩
    · obtain ⟨w, hw⟩ := reads_lr hk (homeReached s u r sec) u es
      refine ⟨w, _, hw, fun _ hl => ?_, .inr (funext fun e => hfwd ..)⟩
      rw [hk] at hl
      cases hl
  obtain ⟨hq, hr, hc, hg⟩ := performSector_outstanding h hd hn hw.elems (by rw [hw.req, hp.req, h.here])
  have hcell (b : Bool) (a : Nat) : (performSector s u sec).cell b a = s.cell b a := by rw [hc, hw.cell, hp.cell]
  refine ⟨_, _, _, h.exec, (hp.keeps.regsStay.trans hw.regs).trans hr, hcell false, hcell true, hq, rfl, rfl, rfl, ?_,
    fun hold hah => ?_, fun x b e hx hxg hes hxs hkb ho hscope => ?_, fun hlr g sp hgs hsp => ?_⟩
  · rw [List.map_map]
    rfl
  · refine List.map_congr_left fun e he => ?_
    have hv : val e = s.readLoc e.loc e.size := by
      rcases hplain with rfl | rfl
      · exact loadValue_eq_readLoc hold fun x hx hxg hxs => hah x hx hxg (hxs ▸ h.sector_mem he)
      · exact forwardRead_eq_readLoc hold ..
    rw [hv]
  · rw [hes, hload b hkb, List.map_cons, List.map_nil, loadValue_ahead hx hxg hxs ho hscope]
  · have hm := reserveElems_gang (homeReached s u r sec) u r es r.gang
    rw [← hw.lr hlr, show (homeReached s u r sec).gang? r.gang = some g by rw [State.gang?, hgangs]; exact hgs] at hm
    obtain ⟨g', hg', he⟩ := Option.map_eq_some_iff.mp hm
    have hsp' : g'.split? = some (sp.grown u es) :=
      (congrArg Prod.snd he).trans ((if_pos rfl).trans (congrArg (Option.map (Split.grown u es)) hsp))
    exact ⟨g', _, by rw [State.gang?, hg hsc]; exact hg', hsp', rfl, rfl⟩

-- An SC performs (R106).

/-- Whether an SC finds the set that it took with it on the place of an element. -/
def scHolds (s : State) (u : Nat) (r : Req) (e : Elem) : Bool :=
  match s.gang? r.gang with
  | none => false
  | some g => g.everySplit.any fun sp => sp.spent.any fun q =>
      q.sc == u && q.elems.any fun x => x.1 == e.lane && x.2.1 == e.ea && x.2.2.line == e.loc.line

theorem scHolds_iff (s : State) (u : Nat) (r : Req) (e : Elem) : scHolds s u r e = true ↔ SpentOn s r.gang u e fun _ => True := by
  unfold scHolds SpentOn
  cases hg : s.gang? r.gang with
  | none => simp
  | some g =>
    simp only [List.any_eq_true, Bool.and_eq_true, beq_iff_eq]
    constructor
    · rintro ⟨sp, hsp, q, hq, hu, x, hx, ⟨h1, h2⟩, h3⟩
      exact ⟨g, sp, q, rfl, hsp, hq, hu, trivial, x, hx, h1, h2, h3⟩
    · rintro ⟨g', sp, q, hg', hsp, hq, hu, -, x, hx, h1, h2, h3⟩
      cases hg'
      exact ⟨sp, hsp, q, hq, hu, x, hx, ⟨h1, h2⟩, h3⟩

theorem performElems_sc (hk : r.kind = .sc) (s : State) (u : Nat) (e : Elem) : performElems s u r [e] =
    if scHolds s u r e then (writeElem s e.loc e.size e.data.toNat, [(e.lane, 0)]) else (s, [(e.lane, 1)]) := by
  unfold performElems
  simp only [hk, List.foldl_cons, List.foldl_nil, List.nil_append]
  rfl

/-- The clause of an SC. -/
theorem sc_performs (h : Performs s u sec r [e]) (hk : r.kind = .sc) (hd : r.dest ≠ .none) (hn : sec ∉ r.returned) :
    ∃ t q, exec (.requestPerform u sec) s = .next t ∧ RegsStay s t ∧ t.req? u = some q ∧
      (SpentOn s r.gang u e (heldKind r) → q.results = r.results ++ [(e.lane, 0)] ∧
        (∀ a, ¬Covers e false a → ¬DirtyAt s e.loc a → t.byte a = s.byte a) ∧
        ((∀ a, Covers e false a → ¬DirtyAt s e.loc a) → t.readLoc e.loc e.size = e.data.toNat % 256 ^ e.size)) ∧
      (¬SpentOn s r.gang u e (fun _ => True) → q.results = r.results ++ [(e.lane, 1)] ∧ (∀ a, t.byte a = s.byte a) ∧
        ∀ a, t.sbyte a = s.sbyte a) := by
  obtain ⟨hp, hb⟩ := homeReached_calm h
  have hsets := homeReached_setsKept (u := u) (by rw [hk]; decide) hb
  have he := performElems_sc hk (homeReached s u r sec) u e
  cases hh : scHolds (homeReached s u r sec) u r e with
  | true =>
    rw [hh, if_pos rfl] at he
    have hw := tidy_writeElem (homeReached s u r sec) e.loc e.size e.data.toNat
    obtain ⟨hq, hr, hc, -⟩ := performSector_outstanding h hd hn he (by rw [hw.req, hp.req, h.here])
    refine ⟨_, _, h.exec, (hp.keeps.regsStay.trans hw.keeps.regsStay).trans hr, hq,
      fun _ => ⟨rfl, fun a hca hda => ?_, fun hda => ?_⟩,
      fun hno => absurd (hsets.shrinks u e ((scHolds_iff ..).mp hh)) hno⟩
    · rw [← cell_false, hc, writeElem_cell _ _ _ _ fun _ => (hp.dirtyAt ..).not.mpr hda]
      exact (if_neg hca).trans (hp.cell ..)
    · rw [readLoc_of_cells fun i _ => hc .., readLoc_writeElem]
      intro i hi hdi
      have hdi' := (hp.dirtyAt ..).mp hdi
      exact hda _ ⟨hdi'.1, by omega, by omega⟩ hdi'
  | false =>
    rw [hh, if_neg Bool.false_ne_true] at he
    obtain ⟨hq, hr, hc, -⟩ := performSector_outstanding h hd hn he (by rw [hp.req, h.here])
    have hcell (b : Bool) (a : Nat) : (performSector s u sec).cell b a = s.cell b a := by rw [hc, hp.cell]
    refine ⟨_, _, h.exec, hp.keeps.regsStay.trans hr, hq, fun hyes => ?_, fun _ => ⟨rfl, hcell false, hcell true⟩⟩
    have hyes' := (scHolds_iff (homeReached s u r sec) u r e).mpr
      (by obtain ⟨g, sp, q, h1, h2, h3, h4, -, h5⟩ := hsets.keeps u e hyes; exact ⟨g, sp, q, h1, h2, h3, h4, trivial, h5⟩)
    rw [hh] at hyes'
    cases hyes'

/-- Settles O33: a line that leaves an L1 by the sets that it takes lanes from; an SC by the set that it finds once its homes are
reached; a load and an LR by what their elements read. -/
theorem loadsPerform : Obligations.LoadsPerform := by
  unfold Obligations.LoadsPerform
  refine ⟨fun s rest core line hq => leave_clears hq, fun u sec s r e h hk hd hn => ?_,
    fun u sec s r es h hk hd hn => load_performs h hk hd hn⟩
  obtain ⟨t, q, hx, hr, hq, hyes, hno⟩ := sc_performs h hk hd hn
  refine ⟨t, q, hx, hr, hq, fun ⟨g, sp, rv, h1, h2, h3, h4, h5, h6⟩ => hyes ⟨g, sp, rv, h1, h2, h3, h4, h5 rfl, h6⟩,
    fun hnot => hno fun ⟨g, sp, rv, h1, h2, h3, h4, _, h6⟩ => hnot ⟨g, sp, rv, h1, h2, h3, h4, nofun, h6⟩⟩

end Sys2Proof.Machine
end

section
/-! Memory instructions (O29) where the gang's split table holds two entries of one number. -/

namespace Sys2Proof.Machine

set_option Elab.async false

/-- A gang whose table holds entry 1 twice: the first of the two, a split at 8, hides the other, which is the current split of
entry 5 once more. -/
def twinGang : Gang :=
  { testGang 1 with
    splits := [(1, some (firstSplit 2 8 1)), (1, some (firstSplit 1 0 1)), (5, some (firstSplit 1 0 1))], cur := 5 }

/-- A state in which it issues. -/
def twinState : State := (placeWord State.reset 16 0).setGang 16 twinGang

/-- A load of k0 at the end of the largest scratchpad. -/
def pastScratch : Instr := .ldk .full .s32 .plain .gang .scratch 0 ⟨0, none, 0x80000⟩ 0

theorem twinState_issues : Issues twinState 16 twinGang (firstSplit 1 0 1) testBlock :=
  ⟨rfl, by decide +kernel, rfl, rfl, by decide +kernel, rfl, by decide +kernel, rfl, rfl, rfl⟩

theorem twinState_clear : Clear twinState 16 testBlock twinGang (firstSplit 1 0 1)
    { k := [0, 0], scope := some .gang, count := 1, throttled := true, long := true } where
  vregs := by decide
  kregs := by decide
  race := by decide
  guard := by decide
  scope := by decide +kernel
  lcnt := by decide +kernel
  scnt := by decide
  replay := by decide +kernel
  reads := by decide
  queue := by simp
  array := by simp
  coll := by simp
  windows := by simp [firstSplit]
  long := by simp [firstSplit]

/-- The trap of the load is the split's, but the entry that the gang turns to is that of the hidden one: its current split is the
one at 8. -/
theorem pastScratch_turns : (match exec pastScratch twinState with
    | .next t => ((t.gang? 16).bind Gang.split?).map Split.pc
    | _ => none) = some 8 := by decide +kernel

/-- The one element of the load. -/
def pastScratchElem : Elem :=
  { lane := 0, ea := 0x80000, loc := ⟨false, 0, 0, 0⟩, size := 4, data := 0, cmp := 0 }

/-- Refutes O29: nothing says that a gang's split table names an entry once. Where the trapped split stands a second time under
an entry that another split hides, the gang turns to that entry, and its current split is not the trapped one. -/
theorem not_accessesIssue : ¬ Obligations.AccessesIssue := by
  intro h
  obtain ⟨-, -, hldk, -⟩ := h
  obtain ⟨-, -, hbad, -⟩ := hldk .full .s32 .plain .gang .scratch 0 ⟨0, none, 0x80000⟩ 0 (by decide)
    _ _ _ _ _ twinState_issues twinState_clear
  obtain ⟨t, lanes, ht, htrap, -⟩ := hbad 0 pastScratchElem 1 rfl (by decide +kernel) (by omega) (by decide +kernel)
  have e := pastScratch_turns
  rw [pastScratch, ht] at e
  obtain ⟨g', sp', hg, hsp, hpc, -⟩ := htrap.gang
  simp only [hg, Option.bind_some, hsp, Option.map_some, hpc] at e
  exact absurd e (by decide)

end Sys2Proof.Machine
end

section
/-! GSET (O30) where a command of the gang stands in the table of commands behind one of another gang with its number. -/

namespace Sys2Proof.Machine

set_option Elab.async false

/-- A second gang of the block, whose guard 1 is true. -/
def trueGang : Gang :=
  let g := testGang 1
  { g with idx := 1, regs := g.regs.gset 1 .isTrue }

/-- A COPY of a gang, the first of its stream, which waits for guard 1. -/
def guardedCopy (gang : Nat) : Cmd :=
  { gang, split := 1, c0 := 0x40, c1 := 0x44, c3 := dw (2 ^ 44), shape := ⟨4, 1, 1, 0, 0, 0, 0⟩, prio := 0, deps := [],
    passed := false, started := false, running := [], boxes := [], failed := none, bounces := 0, bounced := false, cause := 0,
    since := 0, queued := false }

/-- A state in which gang 16 issues; its one command has the number of the second gang's, which hides it. -/
def sharedNumber : State :=
  { (placeWord State.reset 16 0).setGang 17 trueGang with cmds := [(9, some (guardedCopy 17)), (9, some (guardedCopy 16))] }

theorem sharedNumber_issues : Issues sharedNumber 16 (testGang 1) (firstSplit 1 0 (BitVec.allOnes 64)) testBlock :=
  ⟨rfl, by decide +kernel, rfl, rfl, by decide +kernel, rfl, by decide +kernel, rfl, rfl, rfl⟩

theorem sharedNumber_clear : Clear sharedNumber 16 testBlock (testGang 1) (firstSplit 1 0 (BitVec.allOnes 64)) { guard := 1 } where
  vregs := by simp
  kregs := by simp
  race := by simp
  guard := by decide
  scope := by simp
  lcnt := by simp
  scnt := by simp
  replay := by simp
  reads := by simp
  queue := by simp
  array := by simp
  coll := by simp
  windows := by simp [firstSplit]
  long := by simp

/-- The GSET of gang 16, which leaves its guard unresolved, records the true guard of the other gang's command. -/
theorem gset_recordsOther : (match exec (.gset 1 .setUnresolved) sharedNumber with
    | .next t => (t.cmd? 9).map Cmd.passed
    | _ => none) = some true := by decide +kernel

/-- Refutes O30: nothing says that a number names one command. Where a command of the gang has the number of another gang's, which
stands before it, GSET records the other's guard, and the commands do not stay as they are though its own guard is unresolved. -/
theorem not_fencesTagsGuards : ¬ Obligations.FencesTagsGuards := by
  intro h
  obtain ⟨-, -, -, -, -, -, hgset⟩ := h
  obtain ⟨-, hheld, -⟩ := hgset 1 .setUnresolved _ _ _ _ _ sharedNumber_issues sharedNumber_clear
  obtain ⟨t, g', sp', ht, -, -, -, -, -, -, -, hcmds, -⟩ := hheld (by decide) (by decide) (by decide +kernel)
  have e := gset_recordsOther
  rw [ht] at e
  simp only [State.cmd?, hcmds rfl] at e
  exact absurd e (by decide +kernel)

end Sys2Proof.Machine
end

section
/-! Requests from other devices (O42): the checks that one meets in order, and what a load reads and a store writes (R206, R207). -/

namespace Sys2Proof.Machine

set_option Elab.async false

variable {s t : State} {r : RemoteIn}

/-- The window table is switched off, or the entry of an FTID can be read (R206, R406). -/
def TableReady (s : State) (n : Nat) : Prop := s.pf.wtbase = 0 ∨ placesReady s (s.pf.wtbase + 16 * n) 16 = true

/-- The bit of a window's PERM that a request needs (R206). -/
def permBitOf : RKind → Nat
  | .load => 0
  | .store _ => 1
  | .atom _ _ _ => 2

theorem tableShut_iff (s : State) (n : Nat) :
    (s.pf.wtbase != 0 && !placesReady s (s.pf.wtbase + 16 * n) 16) = true ↔ ¬TableReady s n := by
  simp [TableReady]

/-- A served request is answered with what the service gives. -/
theorem takeRemote_answers {held : Bool} {q : State × RStatus × List (Nat × DWord)} (h : serveRemote s r held = some q) :
    takeRemote s r held = answerRemote q.1 r.tag q.2.1 q.2.2 := by
  rw [takeRemote, h]

theorem remoteRequest_answers {q : State × RStatus × List (Nat × DWord)} (h : serveRemote s r false = some q) :
    exec (.remoteRequest r) s = .next (answerRemote q.1 r.tag q.2.1 q.2.2) := by
  rw [exec_remoteRequest, execRemoteRequest, takeRemote_answers h]

theorem takeRemote_waits {held : Bool} (h : serveRemote s r held = none) : takeRemote s r held = s := by
  rw [takeRemote, h]

-- The checks, in order (R207).

theorem serveRemote_shut (h : ¬TableReady s r.ftid) : serveRemote s r false = none := by
  rw [serveRemote, if_pos ((tableShut_iff ..).mpr h)]
  rfl

theorem serveRemote_noWindow {held : Bool} (h : TableReady s r.ftid) (hw : windowEntry s r.ftid = none) :
    serveRemote s r held = some (s, .fail .noWindow, []) := by
  rw [serveRemote, if_neg fun c => (tableShut_iff ..).mp c h, hw]

section
variable {held : Bool} {base : DWord} {size ctx perm : Nat} (h : TableReady s r.ftid)
  (hw : windowEntry s r.ftid = some (base, size, ctx, perm))
include h hw

theorem serveRemote_bound (hb : ∃ e ∈ r.elems, size * 65536 ≤ e.2) : serveRemote s r held = some (s, .fail .bound, []) := by
  rw [serveRemote, if_neg fun c => (tableShut_iff ..).mp c h, hw]
  exact if_pos (by simpa using hb)

theorem serveRemote_permission (hb : ∀ e ∈ r.elems, e.2 < size * 65536) (hp : perm.testBit (permBitOf r.kind) = false) :
    serveRemote s r held = some (s, .fail .permission, []) := by
  rw [serveRemote, if_neg fun c => (tableShut_iff ..).mp c h, hw]
  dsimp only
  rw [if_neg (by simpa using hb)]
  refine if_pos ?_
  cases hk : r.kind <;> simpa [hk, permBitOf] using hp

/-- A request with one element, whose place is found: held in a queue it has RETRY. -/
theorem serveRemote_held {e : Nat × Nat} {l : Loc} (he : r.elems = [e]) (hk : r.kind = .load) (hb : e.2 < size * 65536)
    (hp : perm.testBit 0 = true) (hc : checkGlobal s 256 ctx true false (base + dw e.2) = .ok l) :
    serveRemote s r true = some (s, .retry, []) := by
  rw [serveRemote, if_neg fun c => (tableShut_iff ..).mp c h, hw]
  simp only [he, hk, hubUnit, hp, hc, List.any_cons, List.any_nil, List.map_cons, List.map_nil, Nat.not_le.mpr hb]
  rfl
end

-- What is served (R207, R219).

/-- What happens at the home of a request before its element acts: no byte changes, and the fabric's registers stay. -/
structure AtHome (s t : State) : Prop where
  calm : Calm s t
  fab : t.fab = s.fab

theorem AtHome.trans {u : State} (a : AtHome s t) (b : AtHome t u) : AtHome s u := ⟨a.calm.trans b.calm, b.fab.trans a.fab⟩

theorem Writes.fab (h : Writes s t) : t.fab = s.fab := by
  obtain ⟨m, c, p, e, g, rfl⟩ := h.rest
  rfl

theorem AtHome.of_writes (c : Calm s t) (w : Writes s t) : AtHome s t := ⟨c, w.fab⟩

theorem calm_arrivalServed (s : State) (vf : Option Nat) (a n : Nat) : Calm s (arrivalServed s vf a n) := by
  refine (homeOnly_arrivalServed ..).calm_of_mem ?_
  obtain ⟨p, e⟩ := arrivalServed_only s vf a n
  rw [e]

theorem atHome_opened (s : State) {whole : Bool} {sec : Nat} :
    AtHome s (if whole then (clearPoison s sec, false) else sectorRead s sec).1 := by
  split
  · exact .of_writes (calm_clearPoison ..) (writes_clearPoison ..)
  · exact .of_writes (calm_sectorRead ..) (homeOnly_sectorRead ..).writes

theorem atHome_slots (s : State) (vf : Option Nat) (ctx sec n : Nat) :
    AtHome s (chargeSlots (arrivalServed s vf (sec * 32) n) ctx 0 (sec * 32) n) :=
  .of_writes ((calm_arrivalServed ..).trans (calm_chargeSlots ..)) ((homeOnly_arrivalServed ..).trans (homeOnly_chargeSlots ..)).writes

theorem atHome_dropCopies (s : State) (line : Nat) (keep : Option Nat) : AtHome s (dropCopies s line keep) :=
  .of_writes (calm_dropCopies ..) (writes_dropCopies ..)

theorem atHome_carryLink (s : State) (link ctx core : Nat) : AtHome s (carryLink s link ctx core) :=
  ⟨⟨⟨.of_eq rfl rfl rfl rfl, rfl, rfl, fun _ h => h⟩, rfl, rfl⟩, rfl⟩

/-- A load or a store of one element that meets every check acts at its home. -/
theorem serveRemote_acts {base : DWord} {size ctx perm : Nat} {e : Nat × Nat} {l : Loc} {rd w : Bool} (h : TableReady s r.ftid)
    (hw : windowEntry s r.ftid = some (base, size, ctx, perm)) (he : r.elems = [e]) (hb : e.2 < size * 65536)
    (hk : (r.kind = .load ∧ rd = true ∧ w = false) ∨ ∃ d, r.kind = .store d ∧ rd = false ∧ w = true)
    (hp : perm.testBit (permBitOf r.kind) = true) (hc : checkGlobal s 256 ctx rd w (base + dw e.2) = .ok l)
    (ho : placeOpen s (ctxVf s ctx) l 1 = true) (hcl : Clean s (l.addr / 32)) :
    ∃ t, AtHome s t ∧ serveRemote s r false =
      some ((performRemote t r [(e.1, l)]).1, .ok, (performRemote t r [(e.1, l)]).2) := by
  have hx (whole : Bool) : (if whole then (clearPoison s (sectorOf l.addr), false) else sectorRead s (sectorOf l.addr)).2 = false := by
    split
    · rfl
    · exact sectorRead_clean hcl.1 hcl.2
  have hd : decideChecks [(e.1, base + dw e.2)] [Chk.ok l] = .proceed [l] := decideChecks_ok _ [l]
  rw [serveRemote, if_neg fun c => (tableShut_iff ..).mp c h, hw]
  rcases hk with ⟨hk, rfl, rfl⟩ | ⟨d, hk, rfl, rfl⟩ <;> rw [hk] at hp <;> simp only [permBitOf] at hp <;>
    simp only [he, hk, hubUnit, hp, hc, ho, hd, hx, List.any_cons, List.any_nil, List.map_cons, List.map_nil, Nat.not_le.mpr hb,
      decide_false, Bool.or_false, Bool.false_eq_true, if_false, if_true, Bool.not_true, List.zip_cons_cons, List.zip_nil_left,
      List.all_cons, List.all_nil, Bool.and_true, List.headD_cons]
  · exact ⟨_, ((atHome_opened ..).trans (atHome_slots ..)).trans (atHome_carryLink ..), rfl⟩
  · exact ⟨_, ((atHome_opened ..).trans (atHome_slots ..)).trans ((atHome_dropCopies ..).trans (atHome_carryLink ..)), rfl⟩

theorem performRemote_load (t : State) (hk : r.kind = .load) (i : Nat) (l : Loc) :
    performRemote t r [(i, l)] = (t, [(i, dw (t.readLoc l r.size))]) := by
  simp [performRemote, hk]

theorem performRemote_store (t : State) {i : Nat} {bs : List Byte} (hk : r.kind = .store [(i, bs)]) (l : Loc) :
    performRemote t r [(i, l)] = (writeElem t l r.size (leValue (fun j => bs.getD j 0) r.size), []) := by
  simp [performRemote, hk]

/-- A byte of a number that is put together from bytes is the byte. -/
theorem byte_leValue (f : Nat → Byte) {n i : Nat} (h : i < n) : BitVec.ofNat 8 (leValue f n / 256 ^ i) = f i := by
  induction n with
  | zero => omega
  | succ n ih =>
    rw [leValue]
    rcases Nat.lt_succ_iff_lt_or_eq.mp h with hi | rfl
    · rw [← ih hi, show 256 ^ n = 256 ^ i * (256 * 256 ^ (n - i - 1)) by
          rw [← Nat.pow_succ', ← Nat.pow_add]; congr 1; omega, Nat.mul_assoc,
        Nat.add_mul_div_left _ _ (Nat.pow_pos (by decide))]
      refine BitVec.eq_of_toNat_eq ?_
      rw [BitVec.toNat_ofNat, BitVec.toNat_ofNat, Nat.mul_assoc]
      exact Nat.add_mul_mod_self_left ..
    · rw [Nat.add_mul_div_left _ _ (Nat.pow_pos (by decide)), Nat.div_eq_of_lt (leValue_lt ..), Nat.zero_add, BitVec.ofNat_toNat,
        BitVec.setWidth_eq]

/-- A GLOBAL address has its place in device memory (R78). -/
theorem checkGlobal_place {unit ctx : Nat} {rd w : Bool} {va : DWord} {l : Loc} (h : checkGlobal s unit ctx rd w va = .ok l) :
    l.scr = false := by
  unfold checkGlobal at h
  split at h
  · cases h
  · cases h
  · split at h <;> cases h
  · split at h <;> cases h
    rfl

/-- A load of one element reads its place, and no byte changes. -/
theorem remoteLoad_reads {base : DWord} {size ctx perm : Nat} {e : Nat × Nat} {l : Loc} (h : TableReady s r.ftid)
    (hw : windowEntry s r.ftid = some (base, size, ctx, perm)) (he : r.elems = [e]) (hb : e.2 < size * 65536) (hk : r.kind = .load)
    (hp : perm.testBit 0 = true) (hc : checkGlobal s 256 ctx true false (base + dw e.2) = .ok l)
    (ho : placeOpen s (ctxVf s ctx) l 1 = true) (hcl : Clean s (l.addr / 32)) :
    ∃ t, exec (.remoteRequest r) s = .next t ∧ (∀ a, t.byte a = s.byte a) ∧
      t.fab.out = s.fab.out ++ [(r.tag, .ok, [(e.1, dw (s.readLoc l r.size))])] := by
  obtain ⟨t, ht, hs⟩ := serveRemote_acts h hw he hb (.inl ⟨hk, rfl, rfl⟩) (by rw [hk]; exact hp) hc ho hcl
  rw [performRemote_load t hk, ht.calm.readLoc] at hs
  refine ⟨_, remoteRequest_answers hs, ht.calm.byte, ?_⟩
  exact congrArg (fun f : FabSt => f.out ++ _) ht.fab

/-- A store of one element writes its bytes, and no other byte changes but for the dirty bitmap. -/
theorem remoteStore_writes {base : DWord} {size ctx perm : Nat} {e : Nat × Nat} {l : Loc} {bs : List Byte} (h : TableReady s r.ftid)
    (hw : windowEntry s r.ftid = some (base, size, ctx, perm)) (he : r.elems = [e]) (hb : e.2 < size * 65536)
    (hk : r.kind = .store [(e.1, bs)]) (hl : bs.length = r.size)
    (hp : perm.testBit 1 = true) (hc : checkGlobal s 256 ctx false true (base + dw e.2) = .ok l)
    (ho : placeOpen s (ctxVf s ctx) l 1 = true) (hcl : Clean s (l.addr / 32))
    (hd : ∀ a, DirtyAt s l a → a < l.addr ∨ l.addr + r.size ≤ a) :
    ∃ t, exec (.remoteRequest r) s = .next t ∧ t.fab.out = s.fab.out ++ [(r.tag, .ok, [])] ∧
      (∀ i x, bs[i]? = some x → t.byte (l.addr + i) = x) ∧
      ∀ a, (a < l.addr ∨ l.addr + r.size ≤ a) → ¬DirtyAt s l a → t.byte a = s.byte a := by
  obtain ⟨t, ht, hs⟩ := serveRemote_acts h hw he hb (.inr ⟨_, hk, rfl, rfl⟩) (by rw [hk]; exact hp) hc ho hcl
  rw [performRemote_store t hk] at hs
  have hcell {a : Nat} (ha : ¬DirtyAt s l a) := writeElem_cell t l r.size (leValue (fun j => bs.getD j 0) r.size) (b := false)
    (a := a) fun _ => (ht.calm.toTidy.dirtyAt l a).not.mpr ha
  simp only [checkGlobal_place hc, true_and, cell_false, ht.calm.byte] at hcell
  refine ⟨_, remoteRequest_answers hs, ?_, fun i x hx => ?_, fun a ha hda => ?_⟩
  · exact congrArg (fun f : FabSt => f.out ++ _) ((writes_writeElem ..).fab.trans ht.fab)
  · have hi : i < r.size := hl ▸ (List.getElem?_eq_some_iff.mp hx).1
    refine (hcell fun hda => ?_).trans ?_
    · have := hd _ hda
      omega
    · rw [if_pos (by omega), Nat.add_sub_cancel_left, byte_leValue _ hi, List.getD_eq_getElem?_getD, hx]
      rfl
  · exact (hcell hda).trans (if_neg (by omega))

/-- The turn of a request that the queues here have held. -/
theorem step_remoteHeld {rest : List Turn} (ha : s.agenda = .remoteHeld (.remoteRequest r) :: rest) {st : RStatus}
    (h : serveRemote { s with agenda := rest } r true = some ({ s with agenda := rest }, st, [])) :
    step s = .next { s with agenda := rest, fab := { s.fab with out := s.fab.out ++ [(r.tag, st, [])] } } := by
  have hn : nextTurnOf s = (.remoteHeld (.remoteRequest r), { s with agenda := rest }) := by rw [nextTurnOf, ha]
  rw [step, hn, turnStep, holdRemote, takeRemote_answers h]
  rfl

end Sys2Proof.Machine
end

section
/-! Planes, peers and links (O42): a dead plane and its epilogue, a reachable peer, and the training of a link (R136, R208 to R210). -/

namespace Sys2Proof.Machine

set_option Elab.async false

variable {s t : State} {dev p q : Nat}

-- A plane dies (R209).

theorem planeDead_kills (dev p : Nat) (s : State) : exec (.planeDead dev p) s = .next (if s.fab.dead.contains (dev, p) then s else
    { s with fab := { s.fab with
      dead := s.fab.dead ++ [(dev, p)], repair := s.fab.repair ++ [(dev, p, s.cycle, false)] } }) := rfl

-- What waits to be sent (R208, R209, R211).

/-- What sending does where no peer is lost: no byte and no map changes, no peer is lost, no dead plane comes back, and only a
plane that was not dead is newly to be repaired. -/
structure SendsOn (s t : State) : Prop where
  bytes : t.mem.bytes = s.mem.bytes
  maps : t.fab.maps = s.fab.maps
  lost : t.fab.lost = s.fab.lost
  dead : ∀ x ∈ s.fab.dead, x ∈ t.fab.dead
  repair : ∀ x ∈ t.fab.repair, x ∈ s.fab.repair ∨ (x.1, x.2.1) ∉ s.fab.dead

theorem SendsOn.refl (s : State) : SendsOn s s := ⟨rfl, rfl, rfl, fun _ h => h, fun _ h => .inl h⟩

theorem SendsOn.trans {u : State} (a : SendsOn s t) (b : SendsOn t u) : SendsOn s u where
  bytes := b.bytes.trans a.bytes
  maps := b.maps.trans a.maps
  lost := b.lost.trans a.lost
  dead x h := b.dead x (a.dead x h)
  repair x h := (b.repair x h).elim (a.repair x) fun hn => .inr fun hd => hn (a.dead _ hd)

theorem SendsOn.byte (h : SendsOn s t) (a : Nat) : t.byte a = s.byte a := by rw [State.byte, h.bytes]; rfl

theorem SendsOn.planeFor (h : SendsOn s t) (dev off : Nat) : planeFor t dev off = planeFor s dev off := by
  rw [Machine.planeFor, h.maps]; rfl

theorem sendsOn_killPlane (s : State) (dev p : Nat) : SendsOn s (killPlane s dev p) := by
  unfold killPlane
  split
  · exact .refl s
  · next hd =>
    refine ⟨rfl, rfl, rfl, fun _ h => List.mem_append_left _ h, fun x h => ?_⟩
    rcases List.mem_append.mp h with h | h
    · exact .inl h
    · rw [List.mem_singleton.mp h]
      exact .inr (by simpa using hd)

theorem sendsOn_trySend (hl : s.fab.lost = []) (u : Nat) : SendsOn s (trySend s u) := by
  unfold trySend
  split
  · exact .refl s
  · dsimp only
    split
    · exact .refl s
    · rw [hl, List.contains_nil, if_neg Bool.false_ne_true]
      split
      · exact sendsOn_killPlane ..
      · split
        · exact ⟨rfl, rfl, rfl, fun _ h => h, fun _ h => .inl h⟩
        · exact .refl s

theorem sendsOn_sendWaiting (hl : s.fab.lost = []) : SendsOn s (sendWaiting s) := by
  unfold sendWaiting
  generalize tentries s.rreqs = l
  induction l generalizing s with
  | nil => exact .refl s
  | cons e l ih => exact (sendsOn_trySend hl e.1).trans (ih ((sendsOn_trySend hl e.1).lost.trans hl))

theorem sendWaiting_none (h : tentries s.rreqs = []) (f : FabSt) : sendWaiting { s with fab := f } = { s with fab := f } := by
  rw [sendWaiting, h]
  rfl

-- The map rewritten (R208, R209).

theorem base4_digit {a b c d : Nat} {i : Nat} (hi : i < 4) (ha : a < 4) (hb : b < 4) (hc : c < 4) (hd : d < 4) :
    (4 * (4 * (4 * d + c) + b) + a) / 4 ^ i % 4 = [a, b, c, d].getD i 0 := by
  interval_cases i <;> simp <;> omega

/-- A plane map that is rewritten names the new plane where it named the old one (R209). -/
theorem remap_digit (m old : Nat) {new i : Nat} (hn : new < 4) (hi : i < 4) :
    remap m old new / 4 ^ i % 4 = if m / 4 ^ i % 4 = old then new else m / 4 ^ i % 4 := by
  have hd (j : Nat) : (if m / 4 ^ j % 4 = old then new else m / 4 ^ j % 4) < 4 := by split <;> omega
  have h := base4_digit hi (hd 0) (hd 1) (hd 2) (hd 3)
  refine Eq.trans ?_ (h.trans ?_)
  · simp [remap, List.range_succ]
  · interval_cases i <;> rfl

/-- The remaps of several planes to one, made one after another. -/
theorem foldl_remap_digit {new i : Nat} (hn : new < 4) (hi : i < 4) (l : List (Nat × Nat × Nat × Bool)) (m : Nat) :
    l.foldl (fun m x => remap m x.2.1 new) m / 4 ^ i % 4 =
      if ∃ x ∈ l, x.2.1 = m / 4 ^ i % 4 then new else m / 4 ^ i % 4 := by
  induction l generalizing m with
  | nil => simp
  | cons x l ih =>
    rw [List.foldl_cons, ih, remap_digit m x.2.1 hn hi]
    by_cases hx : m / 4 ^ i % 4 = x.2.1
    · rw [if_pos hx, ite_self, if_pos ⟨x, .head _, hx.symm⟩]
    · rw [if_neg hx]
      simp only [List.mem_cons, exists_eq_or_imp, Ne.symm hx, false_or]

-- The repair of a device ends (R136, R209).

/-- A request that a device has received on its way has its answer to come. -/
def Outstanding (dev : Nat) (r : RReq) : Prop := r.dev = dev ∧ r.sent ≠ 0 ∧ r.final = false

theorem any_outstanding_iff (s : State) (dev : Nat) :
    (tentries s.rreqs).any (fun e => e.2.dev == dev && e.2.sent != 0 && !e.2.final) = true ↔
      ∃ e ∈ tentries s.rreqs, Outstanding dev e.2 := by
  simp [Outstanding, and_assoc]

/-- The remaps of a device that are due. -/
def dueRepairs (s : State) (dev : Nat) : List (Nat × Nat × Nat × Bool) := s.fab.repair.filter fun x => x.1 == dev && x.2.2.2

theorem finishRepair_outstanding (h : ∃ e ∈ tentries s.rreqs, Outstanding dev e.2) : finishRepair s dev = s := by
  unfold finishRepair
  split
  · rfl
  · exact if_pos (by rw [(any_outstanding_iff s dev).mpr h, Bool.or_true])

theorem finishRepair_remaps (hs : survivor s dev = some q) (hd : dueRepairs s dev ≠ [])
    (h : ∀ e ∈ tentries s.rreqs, ¬Outstanding dev e.2) : finishRepair s dev = { s with fab := { s.fab with
      repair := s.fab.repair.filter fun x => !(x.1 == dev && x.2.2.2),
      maps := tput 0xE4 s.fab.maps dev ((dueRepairs s dev).foldl (fun m x => remap m x.2.1 q) (tget 0xE4 s.fab.maps dev)) } } := by
  unfold finishRepair
  rw [hs]
  refine if_neg fun hc => ?_
  rcases Bool.or_eq_true_iff.mp hc with hc | hc
  · exact hd (List.isEmpty_iff.mp hc)
  · obtain ⟨e, he, ho⟩ := (any_outstanding_iff s dev).mp hc
    exact h e he ho

/-- The plane that takes a dead one's place is the lowest that is neither dead nor down (R209). -/
theorem survivor_lowest (hq : q < 4) (hd : (dev, q) ∉ s.fab.dead) (hu : (linkOf s q).2.2.2 = 2)
    (hl : ∀ i < q, (dev, i) ∈ s.fab.dead ∨ (linkOf s i).2.2.2 ≠ 2) : survivor s dev = some q := by
  unfold survivor
  rw [List.find?_range_eq_some]
  refine ⟨by simpa [hu] using hd, by simpa using hq, fun i hi => ?_⟩
  rcases hl i hi with h | h <;> simp [h]

-- An epilogue (R136, R209).

/-- The state in which a plane's epilogue is in, and what its device has not received waits to be sent again. -/
def epilogueIn (s : State) (dev p last : Nat) : State :=
  let t := unsend s dev p last
  { t with fab := { t.fab with
    repair := t.fab.repair.map fun x => if x.1 = dev ∧ x.2.1 = p then (x.1, x.2.1, x.2.2.1, true) else x } }

theorem epilogue_eq {last : Nat} (hs : survivor s dev = some q) (hr : ∃ c, (dev, p, c, false) ∈ s.fab.repair) :
    ∃ f, exec (.epilogue dev p last) s = .next (sendWaiting (finishRepair (moveCredit (epilogueIn s dev p last) dev p f) dev)) := by
  have ha : s.fab.repair.any (fun x => x.1 == dev && x.2.1 == p && !x.2.2.2) = true := by
    obtain ⟨c, hc⟩ := hr
    exact List.any_eq_true.mpr ⟨_, hc, by simp⟩
  refine ⟨fun _ => ((tentries (unsend s dev p last).rreqs).filter fun e =>
    e.2.dev == dev && e.2.plane == p && e.2.sent != 0 && !e.2.final).length, ?_⟩
  rw [exec_epilogue, execEpilogue, hs, ha]
  rfl

/-- What is received and has its answer to come is not taken back. -/
theorem mem_unsend {last : Nat} {e : Nat × RReq} (he : e ∈ tentries s.rreqs)
    (hn : ¬(e.2.dev = dev ∧ e.2.plane = p ∧ e.2.sent ≠ 0 ∧ e.2.final = false ∧ last < e.2.sent)) :
    e ∈ tentries (unsend s dev p last).rreqs := by
  rw [mem_tentries_iff] at he ⊢
  refine List.mem_filterMap.mpr ⟨_, he, ?_⟩
  dsimp only
  rw [if_neg (by simpa using hn)]

/-- After an epilogue only what its device has received is outstanding. -/
theorem outstanding_unsend {last : Nat} {e : Nat × RReq} (he : e ∈ tentries (unsend s dev p last).rreqs) (ho : Outstanding dev e.2) :
    ∃ x ∈ tentries s.rreqs, Outstanding dev x.2 := by
  obtain ⟨j, y⟩ := e
  obtain ⟨⟨k, x⟩, hx, h⟩ := List.mem_filterMap.mp (mem_tentries_iff.mp he)
  cases x with
  | none => cases h
  | some x =>
    have hm := mem_tentries_iff (e := (k, x)).mpr hx
    dsimp only at h
    split at h
    · split at h
      · cases h
      · cases h
        exact absurd rfl ho.2.1
    · cases h
      exact ⟨_, hm, ho⟩

/-- While something that the device has received waits for its answer, the map stays (R136). -/
theorem epilogue_waits {last : Nat} (hl : s.fab.lost = []) (hs : survivor s dev = some q)
    (hr : ∃ c, (dev, p, c, false) ∈ s.fab.repair)
    (hleft : ∃ e ∈ tentries s.rreqs, e.2.dev = dev ∧ e.2.sent ≠ 0 ∧ e.2.final = false ∧ (e.2.plane = p → e.2.sent ≤ last)) :
    ∃ t, exec (.epilogue dev p last) s = .next t ∧ (∀ a, t.byte a = s.byte a) ∧ ∀ off, planeFor t dev off = planeFor s dev off := by
  obtain ⟨f, e⟩ := epilogue_eq (last := last) hs hr
  obtain ⟨x, hx, hdev, hsent, hfin, hlast⟩ := hleft
  have hm : x ∈ tentries (unsend s dev p last).rreqs := mem_unsend hx fun h => by
    have := hlast h.2.1
    omega
  rw [finishRepair_outstanding (s := moveCredit (epilogueIn s dev p last) dev p f) ⟨x, hm, hdev, hsent, hfin⟩] at e
  have h := sendsOn_sendWaiting (s := moveCredit (epilogueIn s dev p last) dev p f) hl
  exact ⟨_, e, h.byte, h.planeFor dev⟩

/-- A remap is due after an epilogue where it was before, or for the epilogue's plane. -/
theorem mem_dueRepairs_epilogueIn {last d : Nat} {f : Nat → Nat} (hr : ∃ c, (dev, p, c, false) ∈ s.fab.repair) :
    (∃ x ∈ dueRepairs (moveCredit (epilogueIn s dev p last) dev p f) dev, x.2.1 = d) ↔
      d = p ∨ ∃ c, (dev, d, c, true) ∈ s.fab.repair := by
  have hm : (moveCredit (epilogueIn s dev p last) dev p f).fab.repair =
      s.fab.repair.map fun x => if x.1 = dev ∧ x.2.1 = p then (x.1, x.2.1, x.2.2.1, true) else x := rfl
  rw [dueRepairs, hm]
  constructor
  · rintro ⟨x, hx, rfl⟩
    obtain ⟨hx, hc⟩ := List.mem_filter.mp hx
    obtain ⟨y, hy, rfl⟩ := List.mem_map.mp hx
    by_cases h : y.1 = dev ∧ y.2.1 = p
    · rw [if_pos h]
      exact .inl h.2
    · rw [if_neg h] at hc ⊢
      obtain ⟨a, b, c, g⟩ := y
      simp only [Bool.and_eq_true, beq_iff_eq] at hc
      obtain ⟨rfl, rfl⟩ := hc
      exact .inr ⟨c, hy⟩
  · rintro (rfl | ⟨c, hc⟩)
    · obtain ⟨c, hc⟩ := hr
      exact ⟨(dev, d, c, true), List.mem_filter.mpr ⟨List.mem_map.mpr ⟨_, hc, by simp⟩, by simp⟩, rfl⟩
    · refine ⟨(dev, d, c, true), List.mem_filter.mpr ⟨List.mem_map.mpr ⟨_, hc, ?_⟩, by simp⟩, rfl⟩
      dsimp only
      split <;> rfl

/-- The repair of a device ends once nothing that it has received waits for its answer (R136). -/
theorem finishRepair_epilogueIn {last : Nat} {f : Nat → Nat} (hs : survivor s dev = some q)
    (hr : ∃ c, (dev, p, c, false) ∈ s.fab.repair)
    (hnone : ∀ e ∈ tentries s.rreqs, e.2.dev ≠ dev ∨ e.2.sent = 0 ∨ e.2.final = true) :
    let u := moveCredit (epilogueIn s dev p last) dev p f
    finishRepair u dev = { u with fab := { u.fab with
      repair := u.fab.repair.filter fun x => !(x.1 == dev && x.2.2.2),
      maps := tput 0xE4 s.fab.maps dev ((dueRepairs u dev).foldl (fun m x => remap m x.2.1 q) (tget 0xE4 s.fab.maps dev)) } } := by
  refine finishRepair_remaps hs (fun h => ?_) fun e he ho => ?_
  · obtain ⟨x, hx, -⟩ := (mem_dueRepairs_epilogueIn (last := last) (d := p) (f := f) hr).mpr (.inl rfl)
    rw [h] at hx
    cases hx
  · obtain ⟨x, hx, h1, h2, h3⟩ := outstanding_unsend he ho
    rcases hnone x hx with h | h | h
    · exact h h1
    · exact h2 h
    · rw [h3] at h
      cases h

/-- Of the plane of an epilogue no repair is left among those whose epilogues are not in. -/
theorem not_mem_repair_epilogueIn {last c : Nat} {g : Bool} :
    (dev, p, c, g) ∉ (epilogueIn s dev p last).fab.repair.filter fun x => !(x.1 == dev && x.2.2.2) := fun hm => by
  obtain ⟨hm, hc⟩ := List.mem_filter.mp hm
  have hg : g = false := by simpa using hc
  obtain ⟨y, -, hy⟩ := List.mem_map.mp hm
  by_cases h : y.1 = dev ∧ y.2.1 = p
  · rw [if_pos h] at hy
    cases hy
    cases hg
  · rw [if_neg h] at hy
    subst hy
    exact h ⟨rfl, rfl⟩

theorem logicalPlane_lt (off : Nat) : logicalPlane off < 4 := Nat.mod_lt _ (by decide)

/-- Once nothing that the device has received waits for its answer, the map names the surviving plane in the place of every plane
whose epilogue is in, and the repair is over (R136, R209). -/
theorem epilogue_remaps {last : Nat} (hl : s.fab.lost = []) (hq : q < 4) (hs : survivor s dev = some q) (hd : (dev, p) ∈ s.fab.dead)
    (hr : ∃ c, (dev, p, c, false) ∈ s.fab.repair)
    (hnone : ∀ e ∈ tentries s.rreqs, e.2.dev ≠ dev ∨ e.2.sent = 0 ∨ e.2.final = true) :
    ∃ t, exec (.epilogue dev p last) s = .next t ∧ (∀ a, t.byte a = s.byte a) ∧
      (∀ c f, (dev, p, c, f) ∉ t.fab.repair) ∧ ∀ off,
        let due := planeFor s dev off = p ∨ ∃ c, (dev, planeFor s dev off, c, true) ∈ s.fab.repair
        (due → planeFor t dev off = q) ∧ (¬due → planeFor t dev off = planeFor s dev off) := by
  obtain ⟨f, e⟩ := epilogue_eq (last := last) hs hr
  have hdue (d : Nat) := mem_dueRepairs_epilogueIn (last := last) (d := d) (f := f) hr
  rw [finishRepair_epilogueIn hs hr hnone] at e
  generalize hu : ({ moveCredit _ _ _ _ with fab := _ } : State) = u at e
  have h := sendsOn_sendWaiting (s := u) (by rw [← hu]; exact hl)
  refine ⟨_, e, fun a => (h.byte a).trans (by rw [← hu]; rfl), fun c g hm => ?_, fun off => ?_⟩
  · rcases h.repair _ hm with hm | hm
    · rw [← hu] at hm
      exact not_mem_repair_epilogueIn hm
    · rw [← hu] at hm
      exact hm hd
  · have hp : planeFor u dev off = if ∃ x ∈ dueRepairs (moveCredit (epilogueIn s dev p last) dev p f) dev,
        x.2.1 = planeFor s dev off then q else planeFor s dev off := by
      rw [← hu, planeFor, tget_tput_self, foldl_remap_digit hq (logicalPlane_lt off)]
      rfl
    rw [h.planeFor, hp]
    exact ⟨fun h => if_pos ((hdue _).mpr h), fun h => if_neg ((hdue _).not.mpr h)⟩

-- A peer is reachable (R209).

theorem peerReachable_lost (hd : dev ∈ s.fab.lost) (hn : tentries s.rreqs = []) : exec (.peerReachable dev) s =
    .next { s with fab := { s.fab with
      lost := s.fab.lost.filter (· != dev), dead := s.fab.dead.filter fun x => x.1 != dev } } := by
  rw [exec_peerReachable, execPeerReachable, if_pos (by simpa using hd), sendWaiting_none hn]

theorem peerReachable_known (hd : dev ∉ s.fab.lost) : exec (.peerReachable dev) s = .next s := by
  rw [exec_peerReachable, execPeerReachable, if_neg (by simpa using hd)]

/-- PEER_REACHABLE of a lost peer, nothing waiting to be sent. -/
theorem peerReachable_returns (hd : dev ∈ s.fab.lost) (hn : tentries s.rreqs = []) :
    ∃ t, exec (.peerReachable dev) s = .next t ∧ (∀ a, t.byte a = s.byte a) ∧ dev ∉ t.fab.lost ∧
      (∀ p, (dev, p) ∉ t.fab.dead) ∧ t.fab.credits = s.fab.credits ∧ ∀ d, d ≠ dev → (d ∈ t.fab.lost ↔ d ∈ s.fab.lost) :=
  ⟨_, peerReachable_lost hd hn, fun _ => rfl, by simp, by simp, rfl, fun d h => by simp [h]⟩

-- A link is trained (R210).

/-- A plane that dies leaves links, memory and the planes' training alone. -/
theorem killLink_only (s : State) (p : Nat) :
    ∃ d r, killLink s p = { s with fab := { s.fab with dead := d, repair := r } } := by
  unfold killLink
  generalize peersOf s = l
  induction l generalizing s with
  | nil => exact ⟨_, _, rfl⟩
  | cons d l ih =>
    have h : ∃ x r, killPlane s d p = { s with fab := { s.fab with dead := x, repair := r } } := by
      unfold killPlane
      split <;> exact ⟨_, _, rfl⟩
    obtain ⟨x, r, e⟩ := h
    rw [List.foldl_cons, e]
    exact ih _

/-- LINK_TRAINING, nothing waiting to be sent: RETRAINS counts each training after the first; the link is up where the two ends
agree, and in MISMATCH where they do not. -/
theorem linkTraining_trains (p : Nat) (here there : LinkView) (hn : tentries s.rreqs = []) :
    let n := min ((linkOf s p).1 + if p ∈ s.fab.trained then 1 else 0) 65535
    ∃ t, exec (.linkTraining p here there) s = .next t ∧ (∀ a, t.byte a = s.byte a) ∧ p ∈ t.fab.trained ∧
      (here = there → linkOf t p = (n, here.speed, if here.width = 8 then 1 else 0, 2)) ∧
      (here ≠ there → linkOf t p = (n, (linkOf s p).2.1, (linkOf s p).2.2.1, 3)) := by
  have htr : p ∈ insertNat p s.fab.trained := mem_insertNat.mpr (.inl rfl)
  rw [exec_linkTraining, execLinkTraining]
  simp only [List.contains_eq_mem, decide_eq_true_eq]
  by_cases h : here = there
  · rw [if_pos h, sendWaiting_none hn]
    exact ⟨_, rfl, fun _ => rfl, htr, fun _ => tget_tput_self .., fun hne => absurd h hne⟩
  · rw [if_neg h]
    obtain ⟨d, r, e⟩ := killLink_only { s with fab := { s.fab with
      trained := insertNat p s.fab.trained,
      fplink := tput (0, 0, 0, 0) s.fab.fplink p (min ((linkOf s p).1 + if p ∈ s.fab.trained then 1 else 0) 65535, (linkOf s p).2.1,
        (linkOf s p).2.2.1, 3) } } p
    rw [e]
    exact ⟨_, rfl, fun _ => rfl, htr, fun he => absurd he h, fun _ => tget_tput_self ..⟩

end Sys2Proof.Machine
end

section
/-! A lost peer (O42): every outstanding request to a device fails, and what a status of one request leaves of the others (R209, R217
to R219, R223). -/

namespace Sys2Proof.Machine

set_option Elab.async false

variable {s t : State} {c : RCause} {l : List Nat}

-- Tables in canonical form.

theorem tget_of_mem_tentries {α : Type} [DecidableEq α] {t : Tab (Option α)} (w : twf none t = true) {e : Nat × α}
    (h : e ∈ tentries t) : tget none t e.1 = some e.2 := by
  have hs : tsorted 0 t = true := (Bool.and_eq_true_iff.mp w).1
  clear w
  generalize 0 = b at hs
  induction t generalizing b with
  | nil => cases h
  | cons x r ih =>
    obtain ⟨j, y⟩ := x
    simp only [tsorted, Bool.and_eq_true, decide_eq_true_eq] at hs
    rcases List.mem_cons.mp (mem_tentries_iff.mp h) with hx | hx
    · cases hx
      rw [tget, if_pos rfl]
    · have hr := ih (mem_tentries_iff.mpr hx) _ hs.2
      have hne : e.1 ≠ j := fun hj => by
        rw [tget_of_tsorted_lt hs.2 (by omega)] at hr
        cases hr
      rw [tget, if_neg hne, hr]

theorem tget_filter_some {α : Type} [DecidableEq α] {t : Tab (Option α)} (w : twf none t = true) {p : Nat × Option α → Bool} {k : Nat}
    {x : α} (h : tget none (t.filter p) k = some x) : tget none t k = some x :=
  tget_of_mem_tentries w (mem_tentries_filter (mem_tentries_of_tget h))

theorem tsorted_map {α β : Type} (f : Nat → α → β) (t : Tab α) (b : Nat) :
    tsorted b (t.map fun e => (e.1, f e.1 e.2)) = tsorted b t := by
  induction t generalizing b with
  | nil => rfl
  | cons e r ih => simp only [List.map_cons, tsorted, ih]

theorem twf_map {α : Type} [DecidableEq α] {t : Tab (Option α)} (f : α → α) (w : twf none t = true) :
    twf none (t.map fun e => (e.1, e.2.map f)) = true := by
  obtain ⟨hs, ha⟩ := Bool.and_eq_true_iff.mp w
  refine Bool.and_eq_true_iff.mpr ⟨(tsorted_map (fun _ x => x.map f) t 0).trans hs, ?_⟩
  simpa using ha

-- What goes on beside the requests.

/-- What leaves the remote requests as they are, and of the fabric's registers the lost peers and the repairs. -/
structure Aside (s t : State) : Prop where
  rreqs : t.rreqs = s.rreqs
  lost : t.fab.lost = s.fab.lost
  repair : t.fab.repair = s.fab.repair

theorem Aside.refl (s : State) : Aside s s := ⟨rfl, rfl, rfl⟩

theorem Aside.trans {u : State} (a : Aside s t) (b : Aside t u) : Aside s u :=
  ⟨b.rreqs.trans a.rreqs, b.lost.trans a.lost, b.repair.trans a.repair⟩

theorem Aside.foldl {α : Type} {f : State → α → State} (hf : ∀ s x, Aside s (f s x)) (l : List α) (s : State) :
    Aside s (l.foldl f s) := by
  induction l generalizing s with
  | nil => exact .refl s
  | cons x r ih => exact (hf s x).trans (ih (f s x))

theorem Writes.aside (h : Writes s t) : Aside s t := by
  obtain ⟨m, c, p, e, g, rfl⟩ := h.rest
  exact ⟨rfl, rfl, rfl⟩

theorem aside_modGang (s : State) (k : Nat) (f : Gang → Gang) : Aside s (s.modGang k f) := by
  obtain ⟨x, e⟩ := modGang_only s k f
  rw [e]
  exact ⟨rfl, rfl, rfl⟩

theorem aside_modCtx (s : State) (k : Nat) (f : Context → Context) : Aside s (s.modCtx k f) := by
  obtain ⟨x, e⟩ := modCtx_only s k f
  rw [e]
  exact ⟨rfl, rfl, rfl⟩

theorem aside_postRec (s : State) (ring : Nat) (r : FRec) : Aside s (postRec s ring r) := by
  obtain ⟨x, y, z, e⟩ := postRec_only s ring r
  rw [e]
  exact ⟨rfl, rfl, rfl⟩

theorem aside_countRead (s : State) (ctx : Nat) : Aside s (countRead s ctx) := by
  obtain ⟨x, e⟩ := countRead_only s ctx
  rw [e]
  exact ⟨rfl, rfl, rfl⟩

theorem aside_countDue (s : State) (key ctx : Nat) : Aside s (countDue s key ctx) := by
  unfold countDue
  split
  · split
    · exact (aside_modGang ..).trans (aside_countRead ..)
    · exact .refl s
  · exact .refl s

theorem aside_readWord (s : State) (w : CopyWord) : Aside s (readWord s w).1 := by
  unfold readWord
  split
  · exact .refl s
  · dsimp only
    split
    · exact .refl s
    · exact (homeOnly_recallOwned ..).writes.aside

theorem aside_writeWords (add : Option Ty) (l : List CopyWord) (s : State) : Aside s (writeWords add s l) := by
  induction l generalizing s with
  | nil => exact .refl s
  | cons w r ih =>
    refine Aside.trans (Aside.trans ?_ (writes_writeElem ..).aside) (ih _)
    split
    · exact aside_readWord ..
    · exact (aside_readWord ..).trans (writes_dropCopies ..).aside

theorem aside_settleCmds (s : State) (n : Nat) : Aside s (settleCmds s n) := by
  refine .foldl (fun s (e : Nat × Cmd) => ?_) _ s
  exact (Aside.foldl (fun s (x : Nat × List CopyWord) => aside_writeWords _ x.2 s) e.2.todo s).trans ⟨rfl, rfl, rfl⟩

theorem aside_swapOut (s : State) (n : Nat) (ph : Phase) : Aside s (swapOut s n ph) := by
  rcases swapOut_cases s n ph with ⟨e, -⟩ | ⟨b, -, ⟨c, x, y, z, e⟩ | ⟨c, l, u, o, img, v, e, -⟩⟩ <;> rw [e]
  · exact .refl s
  · exact ⟨rfl, rfl, rfl⟩
  · have h : Aside s (saveEntries s n ph) := by
      obtain ⟨x, y, z, e⟩ := saveEntries_only s n ph
      rw [e]
      exact ⟨rfl, rfl, rfl⟩
    have h := h.trans (aside_settleCmds (saveEntries s n ph) n)
    generalize settleCmds (saveEntries s n ph) n = t at h ⊢
    exact ⟨h.rreqs, h.lost, h.repair⟩

theorem aside_takeTrap (s : State) (key cause sub : Nat) (aux : DWord) (lanes : Lanes) (addrs : List DWord) (skip : Option Nat) :
    Aside s (takeTrap s key cause sub aux lanes addrs skip) := by
  unfold takeTrap
  split
  · exact .refl s
  · split
    · exact .refl s
    · have hg (t : State) (k : Nat) (g : Gang) : Aside t (t.setGang k g) := ⟨rfl, rfl, rfl⟩
      exact (((aside_postRec ..).trans (hg ..)).trans (aside_swapOut ..)).trans (aside_modCtx ..)

theorem aside_loseError (s : State) (ctx : Nat) : Aside s (loseError s ctx) := aside_modCtx ..

/-- A failed element recorded (R223): its gang, its context and its record change, and no request. -/
theorem aside_recordError (s : State) (r : RReq) (lane off code : Nat) : Aside s (recordError s r lane off code) := by
  unfold recordError
  dsimp only
  generalize hm : State.modGang _ r.gang _ = m
  have h : Aside s m := by
    rw [← hm]
    have hl (p : Nat × Nat) : Aside s { s with fab := { s.fab with lastErr := p } } := ⟨rfl, rfl, rfl⟩
    exact (hl _).trans (aside_modGang ..)
  split
  · split
    · exact h
    · split
      · exact h.trans (aside_loseError ..)
      · split
        · have hw (l : Loc) (ctx : Nat) (bs : List Byte) (f : Context → Context) : Aside s ((hubWrite m l ctx bs).modCtx ctx f) :=
            (h.trans (writes_hubWrite ..).aside).trans (aside_modCtx ..)
          split
          · exact (hw ..).trans (aside_modGang ..)
          · exact hw ..
        · exact (h.trans (aside_postRec ..)).trans (aside_loseError ..)
  · exact h

-- Requests that fail.

/-- Of requests, those of a list have failed or are over, and the others are as they were, have failed, or are over; no peer gets
lost and no repair begins. -/
structure Failed (c : RCause) (l : List Nat) (s t : State) : Prop where
  wf : twf none t.rreqs = true
  status : ∀ u q, t.rreq? u = some q → q.status = some (.fail c) ∨ u ∉ l ∧ ∃ r, s.rreq? u = some r ∧ q.status = r.status
  lost : t.fab.lost = s.fab.lost
  repair : ∀ x ∈ t.fab.repair, x ∈ s.fab.repair

/-- As `Failed`, where the requests' table is in canonical form. -/
structure Fails (c : RCause) (l : List Nat) (s t : State) : Prop where
  failed : twf none s.rreqs = true → Failed c l s t

theorem Failed.trans {u : State} {m : List Nat} (a : Failed c l s t) (b : Failed c m t u) : Failed c (l ++ m) s u where
  wf := b.wf
  status k q hq := by
    rcases b.status k q hq with h | ⟨hm, r, hr, he⟩
    · exact .inl h
    · rcases a.status k r hr with h | ⟨hl, x, hx, hs⟩
      · exact .inl (he.trans h)
      · exact .inr ⟨fun h => (List.mem_append.mp h).elim hl hm, x, hx, he.trans hs⟩
  lost := b.lost.trans a.lost
  repair x hx := a.repair x (b.repair x hx)

theorem Fails.trans {u : State} {m : List Nat} (a : Fails c l s t) (b : Fails c m t u) : Fails c (l ++ m) s u :=
  ⟨fun w => (a.failed w).trans (b.failed (a.failed w).wf)⟩

theorem Aside.fails (h : Aside s t) : Fails c [] s t where
  failed w := ⟨by rw [h.rreqs]; exact w, fun _ q hq => .inr ⟨nofun, q, by rw [State.rreq?, ← h.rreqs]; exact hq, rfl⟩, h.lost, fun _ hx => h.repair ▸ hx⟩

theorem Fails.refl (s : State) : Fails c [] s s := (Aside.refl s).fails

theorem Fails.andThen {u : State} (a : Fails c l s t) (b : Fails c [] t u) : Fails c l s u := by simpa using a.trans b

theorem Fails.aside {u : State} (a : Fails c l s t) (b : Aside t u) : Fails c l s u := a.andThen b.fails

theorem Fails.ite {p : Prop} {dec : Decidable p} {u : State} (a : Fails c l s t) (b : Fails c l s u) :
    Fails c l s (if p then t else u) := by split <;> assumption

theorem Fails.foldl {α : Type} {f : State → α → State} {g : α → Nat} (hf : ∀ s x, Fails c [g x] s (f s x)) (l : List α) (s : State) :
    Fails c (l.map g) s (l.foldl f s) := by
  induction l generalizing s with
  | nil => exact .refl s
  | cons x r ih => exact (hf s x).trans (ih (f s x))

/-- A request gets a status, or is over. -/
theorem fails_setRreq (s : State) (u : Nat) {x : Option RReq} (hx : ∀ q ∈ x, q.status = some (.fail c)) :
    Fails c [u] s (s.setRreq u x) := by
  refine ⟨fun w => ?_⟩
  refine ⟨twf_tput u x w, fun k q hq => ?_, rfl, fun _ h => h⟩
  rw [setRreq_rreq] at hq
  split at hq
  · exact .inl (hx q hq)
  · next hk => exact .inr ⟨fun h => hk (List.mem_singleton.mp h), q, hq, rfl⟩

/-- A request changed but for its status. -/
theorem fails_setRreq_kept {u : Nat} {x r : RReq} (hr : s.rreq? u = some r) (hx : x.status = r.status) :
    Fails c [] s (s.setRreq u (some x)) := by
  refine ⟨fun w => ?_⟩
  refine ⟨twf_tput u (some x) w, fun k q hq => .inr ⟨nofun, ?_⟩, rfl, fun _ h => h⟩
  rw [setRreq_rreq] at hq
  split at hq
  · next hk =>
    cases hq
    exact ⟨r, hk ▸ hr, hx⟩
  · exact ⟨q, hq, rfl⟩

theorem fails_dropGroup (s : State) (grp : Nat) : Fails c [] s (dropGroup s grp) where
  failed w := ⟨twf_filter _ w, fun _ q hq => .inr ⟨nofun, q, tget_filter_some w hq, rfl⟩, rfl, fun _ h => h⟩

theorem fails_finishRepair (s : State) (dev : Nat) : Fails c [] s (finishRepair s dev) := by
  unfold finishRepair
  split
  · exact .refl s
  · dsimp only
    split
    · exact .refl s
    · exact ⟨fun w => ⟨w, fun _ q hq => .inr ⟨nofun, q, hq, rfl⟩, rfl, fun _ h => List.mem_of_mem_filter h⟩⟩

theorem fails_lowered (s : State) (grp key which : Nat) : Fails c [] s (lowerCount (dropGroup s grp) key which) :=
  (fails_dropGroup s grp).aside (aside_modGang ..)

theorem fails_remoteFail (s : State) (key grp : Nat) (rs : List RReq) : Fails c [] s (remoteFail s key grp rs) :=
  (((fails_lowered s grp key 1).aside (aside_modGang ..)).aside (aside_takeTrap ..)).aside (aside_modGang ..)

/-- Requests whose values have been written. -/
theorem fails_written (l : List (Nat × RReq)) (hl : ∀ e ∈ l, ∃ r, s.rreq? e.1 = some r ∧ e.2.status = r.status) :
    Fails c [] s (l.foldl (fun s e => s.setRreq e.1 (some { e.2 with written := e.2.results.map (·.1) })) s) := by
  induction l generalizing s with
  | nil => exact .refl s
  | cons e l ih =>
    obtain ⟨r, hr, hs⟩ := hl e (.head _)
    refine (fails_setRreq_kept (x := { e.2 with written := e.2.results.map (·.1) }) hr hs).trans (ih fun x hx => ?_)
    obtain ⟨q, hq, hst⟩ := hl x (.tail _ hx)
    rw [setRreq_rreq]
    by_cases h : x.1 = e.1
    · rw [h, hr] at hq
      cases hq
      exact ⟨_, if_pos h, hst.trans hs.symm⟩
    · exact ⟨q, (if_neg h).trans hq, hst⟩

theorem fails_returnGroup (s : State) (key grp : Nat) : Fails c [] s (returnGroup s key grp) := by
  refine ⟨fun w => ?_⟩
  unfold returnGroup
  dsimp only
  generalize hm : State.modGang s key _ = m
  have h : Aside s m := by
    rw [← hm]
    exact aside_modGang ..
  refine (h.fails.trans (m := []) ?_).failed w
  split
  · exact (fails_lowered m grp key 1).aside (aside_modGang ..)
  · refine fails_written _ fun e he => ⟨e.2, ?_, rfl⟩
    rw [State.rreq?, h.rreqs]
    exact tget_of_mem_tentries w (List.mem_of_mem_filter he)

theorem fails_settleGroup (s : State) (key grp : Nat) : Fails c [] s (settleGroup s key grp) := by
  unfold settleGroup
  dsimp only
  split
  · exact .refl s
  · refine .ite (.ite (fails_lowered ..) (.refl s)) ?_
    split
    · exact .refl s
    · split
      · refine .ite (.refl s) (.ite (.refl s) (.ite (.ite (fails_remoteFail ..) (.refl s)) ?_))
        have hg (g : Gang) : Aside s (countDue (s.setGang key g) key (keyCtx s key)) :=
          Aside.trans (t := s.setGang key g) ⟨rfl, rfl, rfl⟩ (aside_countDue ..)
        refine Fails.andThen (.ite ?_ (hg _).fails) (fails_returnGroup ..)
        exact ((hg _).trans (u := dropAhead _ fun k _ => k == key) ⟨rfl, rfl, rfl⟩).fails
      · exact fails_returnGroup ..

/-- The credit of a request that was sent comes back (R211). -/
def creditBack (s : State) (r : RReq) : State := if r.sent = 0 then s else moveCredit s r.dev r.plane (· - 1)

/-- A failure noted in a request, and recorded where it returns no values (R223). -/
def failureNoted (s : State) (u : Nat) (r : RReq) (c : RCause) : State :=
  let t := unage (s.setRreq u (some { r with status := some (.fail c) })) u
  if r.returns then t else r.elems.foldl (fun t e => recordError t r e.1 e.2 (causeCode c)) t

theorem takeStatus_fail {u : Nat} {r : RReq} (hr : s.rreq? u = some r) : takeStatus s u (.fail c) [] =
    if ((creditBack s r).gang? r.gang).isNone then finishRepair ((creditBack s r).setRreq u none) r.dev
    else finishRepair (settleGroup (failureNoted (creditBack s r) u r c) r.gang r.group) r.dev := by
  rw [takeStatus, hr]
  rfl

theorem aside_creditBack (s : State) (r : RReq) : Aside s (creditBack s r) := by
  unfold creditBack
  split
  · exact .refl s
  · exact ⟨rfl, rfl, rfl⟩

theorem fails_failureNoted (s : State) (u : Nat) (r : RReq) (c : RCause) : Fails c [u] s (failureNoted s u r c) := by
  have hs : Fails c [u] s (s.setRreq u (some { r with status := some (.fail c) })) := fails_setRreq s u (forall_mem_some rfl)
  have hu (t : State) : Aside t (unage t u) := ⟨rfl, rfl, rfl⟩
  unfold failureNoted
  dsimp only
  split
  · exact hs.aside (hu _)
  · exact (hs.aside (hu _)).aside (.foldl (fun t e => aside_recordError ..) _ _)

/-- A request fails (R207, R209, R223). -/
theorem fails_takeStatus (s : State) (u : Nat) (c : RCause) : Fails c [u] s (takeStatus s u (.fail c) []) := by
  cases hr : s.rreq? u with
  | none =>
    rw [takeStatus, hr]
    refine ⟨fun w => ⟨w, fun k q hq => .inr ⟨fun h => ?_, q, hq, rfl⟩, rfl, fun _ h => h⟩⟩
    rw [List.mem_singleton.mp h, hr] at hq
    cases hq
  | some r =>
    rw [takeStatus_fail hr]
    refine (aside_creditBack s r).fails.trans (m := [u]) ?_
    split
    · exact (fails_setRreq _ u forall_mem_none).andThen (fails_finishRepair ..)
    · exact ((fails_failureNoted ..).andThen (fails_settleGroup ..)).andThen (fails_finishRepair ..)

-- The requests to a lost peer (R209, R223).

/-- A request with the plane on which it was sent, or on which it would go. -/
def withPlane (s : State) (dev : Nat) (r : RReq) : RReq :=
  if r.dev = dev ∧ r.sent = 0 then { r with plane := planeFor s dev ((r.elems.headD (0, 0)).2) } else r

theorem noteUnsent_rreq (s : State) (dev u : Nat) : (noteUnsent s dev).rreq? u = (s.rreq? u).map (withPlane s dev) :=
  tget_map (Option.map (withPlane s dev)) rfl s.rreqs u

theorem twf_noteUnsent {dev : Nat} (w : twf none s.rreqs = true) : twf none (noteUnsent s dev).rreqs = true :=
  twf_map (withPlane s dev) w

/-- What the notes leave of a request: all but its plane. -/
theorem withPlane_only (s : State) (dev : Nat) (r : RReq) : ∃ p, withPlane s dev r = { r with plane := p } := by
  unfold withPlane
  split <;> exact ⟨_, rfl⟩

theorem withPlane_plane {dev : Nat} {r : RReq} (hd : r.dev = dev) :
    (withPlane s dev r).plane = if r.sent = 0 then planeFor s dev ((r.elems.headD (0, 0)).2) else r.plane := by
  by_cases h : r.sent = 0
  · rw [withPlane, if_pos ⟨hd, h⟩, if_pos h]
  · rw [withPlane, if_neg fun x => h x.2, if_neg h]

theorem mem_toDevice (w : twf none s.rreqs = true) {dev u : Nat} :
    u ∈ toDevice s dev ↔ ∃ r, s.rreq? u = some r ∧ r.dev = dev ∧ r.final = false := by
  simp only [toDevice, List.mem_map, List.mem_filter, Bool.and_eq_true, beq_iff_eq, Bool.not_eq_true']
  constructor
  · rintro ⟨e, ⟨he, hd, hf⟩, rfl⟩
    exact ⟨e.2, tget_of_mem_tentries w he, hd, hf⟩
  · rintro ⟨r, hr, hd, hf⟩
    exact ⟨(u, r), ⟨mem_tentries_of_tget hr, hd, hf⟩, rfl⟩

/-- The requests to a device are the same with the notes. -/
theorem mem_toDevice_noteUnsent (w : twf none s.rreqs = true) {dev u : Nat} :
    u ∈ toDevice (noteUnsent s dev) dev ↔ u ∈ toDevice s dev := by
  simp only [mem_toDevice (twf_noteUnsent w), mem_toDevice w, noteUnsent_rreq, Option.map_eq_some_iff, exists_exists_and_eq_and]
  refine exists_congr fun r => and_congr_right fun _ => ?_
  obtain ⟨p, e⟩ := withPlane_only s dev r
  rw [e]
  rfl

theorem mem_byPlane {u : Nat} {r : RReq} (hr : s.rreq? u = some r) (hp : r.plane < 4) : u ∈ byPlane s l ↔ u ∈ l := by
  simp [byPlane, hr, hp]

/-- The peer marked unreachable, its repairs given up. -/
def markLost (s : State) (dev : Nat) : State :=
  let t := noteUnsent s dev
  { t with fab := { t.fab with lost := insertNat dev t.fab.lost, repair := t.fab.repair.filter fun x => x.1 != dev } }

/-- Every request to a device, in the order of the planes, fails. -/
def failDevice (s : State) (dev : Nat) : State :=
  (byPlane s (toDevice s dev)).foldl (fun s u => takeStatus s u (.fail .peerLost) []) s

/-- PEER_LOST once no epilogue came in time and every loss may be recorded. -/
theorem peerLost_eq {dev p since : Nat} (w : twf none s.rreqs = true) (hr : (dev, p, since, false) ∈ s.fab.repair)
    (hc : since + fabricLimit s ≤ s.cycle)
    (ht : ∀ u r, s.rreq? u = some r → r.dev = dev → r.final = false → r.returns = false →
      errorTurn s r.gang (withPlane s dev r).plane = true) :
    exec (.peerLost dev) s = .next (failDevice (markLost s dev) dev) := by
  have ha : s.fab.repair.any (fun x => x.1 == dev && !x.2.2.2 && decide (x.2.2.1 + fabricLimit s ≤ s.cycle)) = true :=
    List.any_eq_true.mpr ⟨_, hr, by simpa using hc⟩
  rw [exec_peerLost, execPeerLost]
  refine congrArg _ (if_neg ?_)
  rw [ha, Bool.not_true, Bool.false_or, Bool.not_eq_true]
  refine List.any_eq_false.mpr fun u hu => ?_
  obtain ⟨r, hr, hd, hf⟩ := (mem_toDevice w).mp ((mem_toDevice_noteUnsent w).mp hu)
  have ht := ht u r hr hd hf
  rw [noteUnsent_rreq, hr, Option.map_some]
  obtain ⟨p, e⟩ := withPlane_only s dev r
  rw [e] at ht ⊢
  cases hret : r.returns with
  | true => simp [show RReq.returns { r with plane := p } = true from hret]
  | false => simp [show RReq.returns { r with plane := p } = false from hret, ht hret]

/-- PEER_LOST (R209): the device is unreachable and its repairs are over; of the requests to it that had no final status those that
are still there have failed. -/
theorem peerLost_fails {dev p since : Nat} (w : twf none s.rreqs = true) (hr : (dev, p, since, false) ∈ s.fab.repair)
    (hc : since + fabricLimit s ≤ s.cycle)
    (ht : ∀ u r, s.rreq? u = some r → r.dev = dev → r.final = false → r.plane < 4 ∧ (r.returns = false →
      errorTurn s r.gang (if r.sent = 0 then planeFor s dev ((r.elems.headD (0, 0)).2) else r.plane) = true)) :
    ∃ t, exec (.peerLost dev) s = .next t ∧ dev ∈ t.fab.lost ∧ (∀ q c' f, (dev, q, c', f) ∉ t.fab.repair) ∧
      (toDevice s dev = [] → ∀ a, t.byte a = s.byte a) ∧
      ∀ u r q, s.rreq? u = some r → r.dev = dev → r.final = false → t.rreq? u = some q → q.status = some (.fail .peerLost) := by
  have hf := (Fails.foldl (g := id) (fun s u => fails_takeStatus s u .peerLost) (byPlane (markLost s dev)
    (toDevice (markLost s dev) dev)) (markLost s dev)).failed (twf_noteUnsent w)
  refine ⟨failDevice (markLost s dev) dev, peerLost_eq w hr hc fun u r hu hd hfi hret => ?_, ?_, fun q c' f hm => ?_, fun hn a => ?_,
    fun u r q hu hd hfi hq => ?_⟩
  · rw [withPlane_plane hd]
    exact (ht u r hu hd hfi).2 hret
  · rw [failDevice, hf.lost]
    exact mem_insertNat.mpr (.inl rfl)
  · have := (List.mem_filter.mp (hf.repair _ hm)).2
    simp at this
  · have he : toDevice (markLost s dev) dev = [] := List.eq_nil_iff_forall_not_mem.mpr fun u hu => by
      have hu := (mem_toDevice_noteUnsent w).mp hu
      rw [hn] at hu
      cases hu
    rw [failDevice, he]
    rfl
  · have hm : (markLost s dev).rreq? u = some (withPlane s dev r) := (noteUnsent_rreq s dev u).trans (by rw [hu]; rfl)
    have hp : (withPlane s dev r).plane < 4 := by
      rw [withPlane_plane hd]
      split
      · exact Nat.mod_lt _ (by decide)
      · exact (ht u r hu hd hfi).1
    have hin : u ∈ byPlane (markLost s dev) (toDevice (markLost s dev) dev) :=
      (mem_byPlane hm hp).mpr ((mem_toDevice_noteUnsent w).mpr ((mem_toDevice w).mpr ⟨r, hu, hd, hfi⟩))
    exact (hf.status u q hq).resolve_right fun h => h.1 (by rw [List.map_id]; exact hin)

end Sys2Proof.Machine
end

section
/-! Launch packets (O42): one that waits, one that the table refuses, one that finds its queue full, and one that joins it (R225, R402,
R407); and a write at homes whose sectors are clean. -/

namespace Sys2Proof.Machine

set_option Elab.async false

variable {s t : State} {k : Packet}

-- A write at homes.

/-- The sectors of a run are those in which its bytes lie. -/
theorem mem_runSectors {a n sec : Nat} : sec ∈ runSectors a n ↔ ∃ x, a ≤ x ∧ x < a + n ∧ x / 32 = sec := by
  unfold runSectors
  split
  · next h =>
    subst h
    exact ⟨nofun, fun ⟨x, h1, h2, _⟩ => absurd h2 (by omega)⟩
  · simp only [List.mem_map, List.mem_range]
    constructor
    · rintro ⟨j, hj, rfl⟩
      exact ⟨max a (32 * (a / 32 + j)), by omega, by omega, by omega⟩
    · rintro ⟨x, h1, h2, rfl⟩
      exact ⟨x / 32 - a / 32, by omega, by omega⟩

/-- A write's parts in clean sectors are put there, one after another, and no other byte changes. -/
theorem foldl_writeSector_byte {a : Nat} {bs : List Byte} (l : List Nat) (hc : ∀ sec ∈ l, Clean s sec) (x : Nat) :
    (l.foldl (fun s sec => writeSector s a bs sec) s).byte x =
      if x / 32 ∈ l ∧ a ≤ x ∧ x < a + bs.length then bs.getD (x - a) 0 else s.byte x := by
  induction l generalizing s with
  | nil => simp
  | cons sec l ih =>
    rw [List.foldl_cons, ih fun y hy => (tidy_writeSector s a bs sec).clean _ (hc y (.tail _ hy)), writeSector_byte (hc sec (.head _))]
    by_cases h : x / 32 ∈ l ∧ a ≤ x ∧ x < a + bs.length
    · rw [if_pos h, if_pos ⟨.tail _ h.1, h.2⟩]
    · rw [if_neg h]
      exact if_congr (by rw [List.mem_cons]; tauto) rfl rfl

/-- A write at homes whose sectors are clean is put there, and no other byte changes (R402). -/
theorem writeHome_byte_clean {a : Nat} {bs : List Byte} (hc : ∀ sec ∈ runSectors a bs.length, Clean s sec) (x : Nat) :
    (writeHome s a bs).byte x = if a ≤ x ∧ x < a + bs.length then bs.getD (x - a) 0 else s.byte x := by
  refine (foldl_writeSector_byte _ hc x).trans (if_congr (and_iff_right_of_imp fun h => ?_) rfl rfl)
  exact mem_runSectors.mpr ⟨x, h.1, h.2, rfl⟩

theorem tidy_writeHome (s : State) (a : Nat) (bs : List Byte) : Tidy s (writeHome s a bs) :=
  .foldl (fun s sec => tidy_writeSector s a bs sec) _ s

theorem calm_hubSlots (s : State) (ctx : Nat) (l : List Nat) : Calm s (l.foldl (fun s sec => hubSlot s ctx sec) s) :=
  .foldl (fun s sec => (homeOnly_hubSlot s ctx sec).calm fun _ c => by
    have h := (calm_chargeSlots (arrivalServed s (ctxVf s ctx) (32 * sec) 1) ctx 0 (32 * sec) 1).clean
    obtain ⟨p, e⟩ := arrivalServed_only s (ctxVf s ctx) (32 * sec) 1
    exact h _ (by rw [e]; exact c)) l s

/-- What the hub writes at clean sectors is put there, and no other byte changes but for the dirty bitmap. -/
theorem hubWrite_byte_clean {l : Loc} {bs : List Byte} (hs : l.scr = false) (hc : ∀ sec ∈ runSectors l.addr bs.length, Clean s sec)
    {x : Nat} (hd : ¬DirtyAt s l x) : (hubWrite s l l.ctx bs).byte x =
      if l.addr ≤ x ∧ x < l.addr + bs.length then bs.getD (x - l.addr) 0 else s.byte x := by
  have h := calm_hubSlots s l.ctx (runSectors l.addr bs.length)
  unfold hubWrite
  generalize (runSectors l.addr bs.length).foldl _ s = t at h
  rw [markDirty_byte_ne hs ((h.toTidy.trans (tidy_writeHome ..)).dirtyAt l x |>.not.mpr hd),
    writeHome_byte_clean fun sec hm => h.clean _ (hc sec hm), h.byte]

-- A packet that waits, and one that is refused (R225, R407).

theorem launchPacket_waits (h : packetOpen s k = false) : exec (.launchPacket k) s = .next s := by
  rw [exec_launchPacket, execLaunchPacket, h]
  rfl

theorem launchPacket_refused (h : packetOpen s k = true) (hk : packetOk s k = false) :
    exec (.launchPacket k) s = .next (rejectPacket s k.ftid) := by
  rw [exec_launchPacket, execLaunchPacket, h, hk]
  rfl

/-- The rejection count of an FTID goes up, up to its greatest value (R402). -/
theorem rejectPacket_counts {ftid : Nat} (hc : ∀ sec ∈ runSectors (s.pf.ltbase + 512 * ftid + 28) 4, Clean s sec) :
    let a := s.pf.ltbase + 512 * ftid + 28
    let t := rejectPacket s ftid
    t.fab.naks = s.fab.naks ++ [1] ∧ t.queues = s.queues ∧ (s.pf.ltbase = 0 → ∀ x, t.byte x = s.byte x) ∧
      (s.pf.ltbase ≠ 0 → t.readPhys a 4 = min (s.readPhys a 4 + 1) (2 ^ 32 - 1) ∧
        ∀ x, (x < a ∨ a + 4 ≤ x) → t.byte x = s.byte x) := by
  intro a t
  by_cases h0 : s.pf.ltbase = 0
  · have e : t = { s with fab := { s.fab with naks := s.fab.naks ++ [1] } } := by
      show rejectPacket s ftid = _
      rw [rejectPacket]
      dsimp only
      rw [if_pos h0]
    rw [e]
    exact ⟨rfl, rfl, fun _ _ => rfl, fun h => absurd h0 h⟩
  · have hw := writes_writeHome s a (toBytes 4 (min (s.readPhys a 4 + 1) 4294967295))
    have hb := writeHome_byte_clean (s := s) (a := a) (bs := toBytes 4 (min (s.readPhys a 4 + 1) 4294967295))
      (by rw [toBytes_length]; exact hc)
    have e : t = { writeHome s a (toBytes 4 (min (s.readPhys a 4 + 1) 4294967295)) with fab :=
        { (writeHome s a (toBytes 4 (min (s.readPhys a 4 + 1) 4294967295))).fab with
          naks := (writeHome s a (toBytes 4 (min (s.readPhys a 4 + 1) 4294967295))).fab.naks ++ [1] } } := by
      show rejectPacket s ftid = _
      rw [rejectPacket]
      dsimp only
      rw [if_neg h0]
    generalize writeHome s a _ = u at hw hb e
    have ht (x : Nat) : t.byte x = u.byte x := by rw [e]; rfl
    simp only [← ht, toBytes_length] at hb
    obtain ⟨m, c, p, y, g, hu⟩ := hw.rest
    refine ⟨by rw [e, hu], by rw [e, hu], fun h => absurd h h0, fun _ => ⟨?_, fun x hx => (hb x).trans (if_neg (by omega))⟩⟩
    rw [readPhys_of_bytes (v := min (s.readPhys a 4 + 1) 4294967295) fun i hi => ?_]
    · exact Nat.mod_eq_of_lt (by omega)
    · rw [hb, if_pos (by omega), Nat.add_sub_cancel_left, toBytes_getD hi]

-- A packet that is taken (R225).

theorem carryPacket_only (s : State) (ctx : Nat) : ∃ e, carryPacket s ctx = { s with energy := e } := ⟨_, rfl⟩

theorem carryPacket_queue (s : State) (ctx n : Nat) : (carryPacket s ctx).queue n = s.queue n := rfl

theorem carryPacket_hubPlace (s : State) (ctx c : Nat) (va : DWord) : hubPlace (carryPacket s ctx) c va = hubPlace s c va := by
  simp only [hubPlace, translate_congr (t := carryPacket s ctx) (s := s) rfl]
  rfl

/-- A packet that the table accepts and that finds its queue full (R225). -/
theorem launchPacket_full (h : packetOpen s k = true) (hk : packetOk s k = true)
    (hf : ((s.queue k.queue).tail - (s.queue k.queue).head).toNat = 2 ^ (s.queue k.queue).log2n) :
    ∃ t, exec (.launchPacket k) s = .next t ∧ t.fab.naks = s.fab.naks ++ [2] ∧ t.queues = s.queues ∧ ∀ a, t.byte a = s.byte a := by
  rw [exec_launchPacket, execLaunchPacket]
  simp only [h, hk, Bool.not_true, Bool.false_eq_true, if_false]
  obtain ⟨e, he⟩ := carryPacket_only s (s.queue k.queue).ctx
  rw [he]
  exact ⟨_, congrArg _ (if_pos hf), rfl, rfl, fun _ => rfl⟩

/-- The entry that a packet puts into its queue's ring: its record's address, its completion record's, and zeros (R25, R225). -/
def packetBytes (k : Packet) : List Byte := toBytes 8 k.record.toNat ++ toBytes 8 k.compl.toNat ++ toBytes 48 0

theorem packetBytes_length (k : Packet) : (packetBytes k).length = 64 := by simp [packetBytes]

theorem packetBytes_getD (k : Packet) : (∀ i < 8, (packetBytes k).getD i 0 = BitVec.ofNat 8 (k.record.toNat / 256 ^ i)) ∧
    (∀ i < 8, (packetBytes k).getD (8 + i) 0 = BitVec.ofNat 8 (k.compl.toNat / 256 ^ i)) ∧
    ∀ i, 16 ≤ i → i < 64 → (packetBytes k).getD i 0 = 0 := by
  unfold packetBytes
  simp only [List.append_assoc]
  refine ⟨fun i hi => ?_, fun i hi => ?_, fun i h1 h2 => ?_⟩
  · rw [List.getD_append _ _ _ _ (by simpa using hi), toBytes_getD hi]
  · rw [List.getD_append_right _ _ _ _ (by simp), toBytes_length, Nat.add_sub_cancel_left,
      List.getD_append _ _ _ _ (by simpa using hi), toBytes_getD hi]
  · rw [List.getD_append_right _ _ _ _ (by simp; omega), List.getD_append_right _ _ _ _ (by simp; omega), toBytes_length,
      toBytes_length, toBytes_getD (by omega), Nat.zero_div]
    rfl

theorem hubPlace_ok {ctx : Nat} {va : DWord} {l : Loc} (h : hubPlace s ctx va = .ok l) : l.scr = false ∧ l.ctx = ctx := by
  unfold hubPlace at h
  split at h
  · cases h
  · split at h
    · cases h
    · split at h <;> cases h
    · split at h <;> cases h
      exact ⟨rfl, rfl⟩

theorem launchPacket_taken {l : Loc} (h : packetOpen s k = true) (hk : packetOk s k = true)
    (hn : ((s.queue k.queue).tail - (s.queue k.queue).head).toNat ≠ 2 ^ (s.queue k.queue).log2n)
    (hl : hubPlace s (s.queue k.queue).ctx ((s.queue k.queue).qbase +
      dw (64 * ((s.queue k.queue).tail.toNat % 2 ^ (s.queue k.queue).log2n))) = .ok l) :
    exec (.launchPacket k) s = .next ((hubWrite (carryPacket s (s.queue k.queue).ctx) l l.ctx (packetBytes k)).setQueue k.queue
      { s.queue k.queue with tail := (s.queue k.queue).tail + 1, pending := true }) := by
  rw [exec_launchPacket, execLaunchPacket, (hubPlace_ok hl).2]
  simp only [h, hk, Bool.not_true, Bool.false_eq_true, if_false]
  refine congrArg _ ((if_neg hn).trans ?_)
  rw [carryPacket_queue, carryPacket_hubPlace, hl]
  rfl

/-- A packet that joins its queue: the entry stands in the ring, and no other byte changes but for the dirty bitmap. -/
theorem launchPacket_joins {l : Loc} (h : packetOpen s k = true) (hk : packetOk s k = true)
    (hn : ((s.queue k.queue).tail - (s.queue k.queue).head).toNat ≠ 2 ^ (s.queue k.queue).log2n)
    (hl : hubPlace s (s.queue k.queue).ctx ((s.queue k.queue).qbase +
      dw (64 * ((s.queue k.queue).tail.toNat % 2 ^ (s.queue k.queue).log2n))) = .ok l)
    (hd : ∀ a, DirtyAt s l a → a < l.addr ∨ l.addr + 64 ≤ a) (hc : ∀ sec ∈ runSectors l.addr 64, Clean s sec) :
    ∃ t, exec (.launchPacket k) s = .next t ∧
      t.queue k.queue = { s.queue k.queue with tail := (s.queue k.queue).tail + 1, pending := true } ∧
      t.readPhys l.addr 8 = k.record.toNat ∧ t.readPhys (l.addr + 8) 8 = k.compl.toNat ∧
      (∀ i, 16 ≤ i → i < 64 → t.byte (l.addr + i) = 0) ∧
      ∀ a, (a < l.addr ∨ l.addr + 64 ≤ a) → ¬DirtyAt s l a → t.byte a = s.byte a := by
  obtain ⟨e, he⟩ := carryPacket_only s (s.queue k.queue).ctx
  have hw {x : Nat} (hx : ¬DirtyAt s l x) : (hubWrite { s with energy := e } l l.ctx (packetBytes k)).byte x =
      if l.addr ≤ x ∧ x < l.addr + 64 then (packetBytes k).getD (x - l.addr) 0 else s.byte x :=
    (hubWrite_byte_clean (s := { s with energy := e }) (hubPlace_ok hl).1 (by rw [packetBytes_length]; exact hc) hx).trans
      (by rw [packetBytes_length]; rfl)
  have ht := launchPacket_taken h hk hn hl
  rw [he] at ht
  generalize hubWrite { s with energy := e } l l.ctx (packetBytes k) = u at ht hw
  have hin {i : Nat} (hi : i < 64) : u.byte (l.addr + i) = (packetBytes k).getD i 0 := by
    rw [hw fun hx => by have := hd _ hx; omega, if_pos (by omega), Nat.add_sub_cancel_left]
  obtain ⟨h1, h2, h3⟩ := packetBytes_getD k
  refine ⟨_, ht, setQueue_queue_self .., ?_, ?_, fun i hi hi' => (hin hi').trans (h3 i hi hi'),
    fun a ha hx => (hw hx).trans (if_neg (by omega))⟩
  · exact (readPhys_of_bytes fun i hi => (hin (by omega)).trans (h1 i hi)).trans (Nat.mod_eq_of_lt k.record.isLt)
  · refine (readPhys_of_bytes fun i hi => Eq.trans ?_ (h2 i hi)).trans (Nat.mod_eq_of_lt k.compl.isLt)
    rw [Nat.add_assoc]
    exact hin (by omega)

end Sys2Proof.Machine
end

section
/-! O42: what the fabric and its surroundings do, clause by clause. -/

namespace Sys2Proof.Machine

set_option Elab.async false

/-- Settles O42: a lemma for each clause. -/
theorem fabricEvents : Obligations.FabricEvents := by
  unfold Obligations.FabricEvents
  refine ⟨fun r s h => ?_, fun r s h hw => remoteRequest_answers (serveRemote_noWindow h hw),
    fun r s rest base size ctx perm l e ha h hw he hk => ⟨fun hb => ?_, fun hb hp hc => ?_⟩,
    fun r s base size ctx perm h hw => ⟨fun hb => remoteRequest_answers (serveRemote_bound h hw hb),
      fun hb hp => remoteRequest_answers (serveRemote_permission h hw hb hp),
      fun l e he hb hk hp hc ho hpo her => remoteLoad_reads h hw he hb hk hp hc ho ⟨hpo, her⟩,
      fun l e bs he hb hk hl hp hc ho hpo her hd => remoteStore_writes h hw he hb hk hl hp hc ho ⟨hpo, her⟩ hd⟩,
    planeDead_kills,
    fun dev p q last s hl hd hr hq hqd hu hlow => ⟨epilogue_waits hl (survivor_lowest hq hqd hu hlow) hr,
      fun _ => epilogue_remaps hl hq (survivor_lowest hq hqd hu hlow) hd hr⟩,
    fun dev s p c w hr hc ht => peerLost_fails w hr hc ht, fun dev s => peerReachable_known,
    fun dev s => peerReachable_returns, fun p here there s => linkTraining_trains p here there,
    fun k s => launchPacket_waits, fun k s h hk hc => ?_, fun k s => launchPacket_full,
    fun k s l h hk hn hl => launchPacket_joins h hk hn hl⟩
  · rw [exec_remoteRequest, execRemoteRequest, takeRemote_waits (serveRemote_shut h)]
  · exact step_remoteHeld ha (serveRemote_bound (s := { s with agenda := rest }) h hw ⟨e, he ▸ .head _, hb⟩)
  · exact step_remoteHeld ha (serveRemote_held (s := { s with agenda := rest }) h hw he hk hb hp hc)
  · exact ⟨_, launchPacket_refused h hk, rejectPacket_counts hc⟩

end Sys2Proof.Machine
end
